-- ==== Sys2Proof/Word.lean ====
section
/-! DEFINITION. The word types of the XW-7 and their plainest names (R5, R6). -/

namespace Sys2Proof

/-- One byte of memory. -/
abbrev Byte := BitVec 8

/-- A 32-bit register or memory word. -/
abbrev Word := BitVec 32

/-- A 64-bit register, mark or global address. -/
abbrev DWord := BitVec 64

/-- A list of bytes, the byte at the lowest address first (R5). -/
abbrev Bytes := List Byte

/-- Sparse data by key: strictly rising keys, no entry equal to what an unlisted key reads as. -/
abbrev SMap (β : Type) := List (Nat × β)

end Sys2Proof
end

