-- ==== Sys2Proof/Syntax.lean ====
section
/-! DEFINITION. The commands of the XW-7: one constructor per row of the spec's table of operations and events,
with the operands the rules give each. A unit's index, a tenant, a queue or a port is a Fin of its range.
What the outside world finds or measures (an error, a temperature, a frame) is an operand of the command that reports it. -/

namespace Sys2Proof

/-- The blocks that own a register page (Table 18.1, Table 18.3). -/
inductive Blk where
  | ae | ce | ve | le | he | bed | fc | qc | pm | mk | dp | kc | qn | pl | pwr | dev | cmd
deriving DecidableEq, Repr

/-- What the check bits of a line say when a request reads it (R84, R85, R294). -/
inductive Ecc where
  | clean | single | double
deriving DecidableEq, Repr

/-- A request at a Bed bank (R78, R81): the requester's place in the rotation of R81 (0 for AE00 up to 105 for KC4;
113 is the copy of R87), the descriptor it is made for, the Bed offset of its line, the bytes written from an
offset in the line or nothing for a read, and what the check bits of the line say. -/
structure BedReq where
  port   : Nat
  flight : Option Nat
  off    : Nat
  wr     : Option (Nat × Bytes)
  ecc    : Ecc
deriving DecidableEq, Repr

/-- A request at a Footing port (R283): the port of Table 11.4, the descriptor it is made for, the physical offset, and the
bytes written or nothing. -/
structure HbmReq where
  port   : Fin 10
  flight : Option Nat
  off    : Nat
  wr     : Option Bytes
deriving DecidableEq, Repr

/-- What the controller and the stack report of a read of an HBM line (R294): the check bits, a correction on die, and the lane
a corrected bit lies on where it is known. -/
structure HbmFind where
  ecc   : Ecc
  onDie : Bool
  lane  : Option (Fin 36)
deriving DecidableEq, Repr

/-- A frame as a port's line brings it (R321, R349): its octets from the destination MAC to the FCS, and how many FEC codewords
of its reception were corrected and how many could not be. -/
structure WireFrame where
  octets : Bytes
  corr   : Nat
  uncorr : Nat
deriving DecidableEq, Repr

/-- The outcome of one delay sweep of a byte lane (R289): bit d is set where every bit of the lane matched at
delay d; `bits` gives, for each of the eight bits, the passing delays of the other seven (R290). -/
structure Sweep where
  lane : Nat
  rd   : BitVec 128
  wr   : BitVec 128
  bits : List (BitVec 128 × BitVec 128)
deriving DecidableEq, Repr

/-- What a NAND channel reports over one operation (R298, R303): codewords corrected without retry, after retry, codewords no
retry decoded with the tensors that hold them, and blocks that failed a program. -/
structure NandReport where
  ch      : Fin 16
  cec     : Nat
  retry   : Nat
  uec     : Nat
  lost    : List Nat
  retired : Nat
deriving DecidableEq, Repr

/-- Why a unit is retired (R420, R422): a request of BLK_CTL.retire, or one more corrected error in the unit. -/
inductive RetireCause where
  | request | corrected
deriving DecidableEq, Repr

/-- A counted unit (R420): a block, a Bed bank, an HBM lane, or a Grout unit. -/
inductive RetireUnit where
  | block (b : Blk) (i : Nat)
  | bank (p : Fin 1088)
  | lane (fc : Fin 8) (ch : Fin 16) (pc : Bool) (lane : Fin 36)
  | grout (p : Fin 8) (u : Fin 2)
deriving DecidableEq, Repr

/-- The commands, one per row of the table. A report that an event may bring along names nothing by default (assumption 116). -/
inductive Instr where
  -- register access and command pages
  | registerWrite (sec : Bool) (addr : BitVec 26) (size : Nat) (v : DWord)
  | commandWritePost (fn : Fin 17) (off : BitVec 16) (size : Nat) (v : DWord)
  | commandWriteApply (fn : Fin 17)
  | jqTailDoorbell (t : Fin 16)
  | jqEnable (t : Fin 16)
  | jqResume (t : Fin 16)
  | jqDiscard (t : Fin 16)
  | jqDisable (t : Fin 16)
  | cqHeadUpdate (t : Fin 16)
  | eqHeadUpdate (fn : Fin 17)
  | map (t : Fin 16)
  | unmap (t : Fin 16)
  | mapOperationEnd (t : Fin 16)
  -- descriptors and the four operations
  | descriptorRelease (t : Fin 16) (q : Fin 8) (u : Nat)
  | descriptorComplete (id : Nat)
  | put (id : Nat)
  | get (id : Nat)
  | atomicAdd (id : Nat)
  | atomicSwap (id : Nat)
  | atomicCas (id : Nat)
  | atomicUmax (id : Nat)
  | atomicUmin (id : Nat)
  | atomicAnd (id : Nat)
  | atomicOr (id : Nat)
  | atomicXor (id : Nat)
  | signal (id : Nat)
  | meleopinDescriptor (id : Nat)
  -- the Bed
  | bedRequest (bank : Fin 1024) (reqs : List BedReq)
  | bedPatrolScrub (found : List (Fin 1088 × Fin 3072 × Ecc))
  | spareBankCopyDone (g : Fin 64)
  | troughEnable (sec : Bool) (n : Fin 256) (v : Word)
  | troughDisable (sec : Bool) (n : Fin 256) (v : Word)
  | troughRecordProduce (id : Nat)
  | troughRecordConsume (id : Nat)
  -- matrix and Chisel engines
  | matmul (id : Nat)
  | partialSum (id : Nat)
  | loadRes (id : Nat)
  | releaseRes (id : Nat)
  | elementwise (id : Nat)
  | epilogue (id : Nat)
  | softmax (id : Nat)
  | layernorm (id : Nat)
  | rmsnorm (id : Nat)
  | gate (id : Nat)
  | ceLibDataRead (sec : Bool) (n : Fin 18)
  -- attention, scan, movers
  | attend (id : Nat)
  | poolGive (id : Nat)
  | poolReclaim (id : Nat)
  | chainFree (id : Nat)
  | prefixMatch (id : Nat)
  | prefixPublish (id : Nat)
  | prefixDrop (id : Nat)
  | scan (id : Nat)
  | moverMove (id : Nat)
  | gather (id : Nat)
  | scatter (id : Nat)
  | window (id : Nat)
  | tiles (id : Nat)
  -- Quarry
  | create (id : Nat)
  | tierMove (id : Nat)
  | tierMoveDone (idx : Fin 262144) (uncorrectable : Bool) (rep : List NandReport)
  | free (id : Nat)
  | freeRelease (id : Nat)
  | intake (id : Nat)
  | intakeBuildDone (id : Nat)
  | intakeCommit (id : Nat) (rep : List NandReport := [])
  | query (id : Nat)
  | swap (id : Nat)
  | scrub (id : Nat) (rep : List NandReport := [])
  | digestScrubPass (idx : Fin 262144) (rep : List NandReport := [])
  | scheduleEnable (t : Fin 16)
  | scheduleResume (t : Fin 16)
  | scheduleDisable (t : Fin 16)
  | scheduleEntryRelease (t : Fin 16)
  -- HBM
  | hbmRequest (r : HbmReq)
  | hbmCommandIssue (pc : Fin 256) (ecc : Ecc) (onDie : Bool) (lane : Option (Fin 36)) (parity : Nat := 0)
  | perBankRefresh (pc : Fin 256) (sid : Fin 3) (bank : Fin 16)
  | trrWindowEnd (fc : Fin 8)
  | hbmTraining (temps : List Byte) (sweeps : List (Fin 8 × Fin 16 × Sweep))
  | hbmFillComplete
  | fcRetrain (sec : Bool) (fc : Fin 8) (v : Word)
  | autoRetrain (fc : Fin 8) (temp : Byte)
  | retrainWindow (fc : Fin 8)
  | retrainComplete (fc : Fin 8) (sweeps : List Sweep)
  | hbmPatrolScrub (fc : Fin 8) (found : List (Nat × HbmFind))
  | xmapWrite (sec : Bool) (i : Fin 12) (v : DWord)
  -- NAND and the Plinth
  | nandChannelTraining (ch : Fin 16) (ok : Bool) (trn : BitVec 24) (temp : Byte)
  | nandBackgroundErase (ch : Fin 16) (sb : Nat) (ok : Bool)
  | nandDqRetrain (ch : Fin 16) (trn : BitVec 24) (temp : Byte)
  | wearLevelRelocation (rep : List NandReport := [])
  | readDisturbCopy (ch : Fin 16) (sb : Nat) (blk : Nat := 0) (rep : List NandReport := [])
  | programLine (writes : List (Word × Word))
  | eraseBlock (writes : List (Word × Word))
  | plinthSuspend (addr : Word)
  | plinthResume (addr : Word)
  | clearErrors (addr : Word)
  | resetToRead (addr : Word)
  | plinthSuspendDone (bank : Bool)
  | plinthProgramDone (bank : Bool) (ok : Bool)
  | plinthEraseDone (bank : Bool) (ok : Bool)
  | plinthDataRead (addr : Word)
  | quoinBoot
  | quoinFetch (addr : Word)
  | autoSuspendResume (bank : Bool)
  -- the fabric
  | portEnable (sec : Bool) (p : Fin 8) (v : Word)
  | linkUp (p : Fin 8)
  | chipIdWrite (sec : Bool) (v : Word)
  | macPfxWrite (sec : Bool) (v : Word)
  | requestFrameReceive (p : Fin 8) (frame : WireFrame)
  | frameApply (p : Fin 8)
  | pfcRepeat (p : Fin 8) (k : Fin 8)
  | responseFrameReceive (p : Fin 8) (frame : WireFrame)
  | ackReceive (p : Fin 8) (frame : WireFrame)
  | nakReceive (p : Fin 8) (frame : WireFrame)
  | resyncReceive (p : Fin 8) (frame : WireFrame)
  | resyncAckReceive (p : Fin 8) (frame : WireFrame)
  | foreignFrameReceive (p : Fin 8) (frame : WireFrame)
  | pfcFrameReceive (p : Fin 8) (frame : WireFrame)
  | pauseExpiry (p : Fin 8) (k : Fin 8)
  | ackTimeout (p : Fin 8) (k : Fin 8) (peer : BitVec 12)
  | resyncRetry (p : Fin 8) (k : Fin 8) (peer : BitVec 12)
  | resyncWaitTimeout (opid : BitVec 16)
  | responseTimeout (opid : BitVec 16)
  | refclkFLoss (n : Fin 4)
  | refclkFRestore (n : Fin 4)
  -- the host interface and the firmware
  | configRequest (fn : Fin 17) (wr : Bool) (off : BitVec 12) (v : Word)
  | bar2Read (fn : Fin 17) (off : Word) (len : Nat)
  | bar2Write (fn : Fin 17) (off : Word) (data : Bytes)
  | perstNRelease
  | perstNAssert
  | firmwareReady
  | fwLoad
  | fwUpdate
  | fwVerifyDone
  | meleopinStart
  | fwActivate
  | fwUpdateTimeout
  | fwDeferEnd
  | fwDeferTimeout
  | fwAdopt
  | fwReset
  | heartbeat
  | heartbeatIntervalEnd
  | hostAbsentTroughTimeout
  | hotReset
  | pfFlr
  | vfFlr (t : Fin 16)
  | vfFlrTimeout (t : Fin 16)
  -- Quoin
  | mctpMessage (pkt : Bytes)
  | mctpControlMessage (pkt : Bytes)
  | mailboxGo (sec : Bool) (v : Word)
  | tenantCreate
  | tenantRemove
  | tenantDrainDone (t : Fin 16)
  | tenantDrainTimeout (t : Fin 16)
  | tenantScrubDone (t : Fin 16)
  | tenantStatus
  | fabricSetup
  | plinthRead
  | imageUpdateBegin
  | imageUpdateData
  | imageUpdateEnd
  | imageUpdateAbort
  | imageUpdateSessionTimeout
  | svnRaise
  | debugChallenge
  | debugResponse
  | regionEntryWrite (sec : Bool) (tier : Fin 3) (i : Fin 256) (v : DWord)
  | counterSnapshot
  -- power, clock and thermal
  | capSet
  | capGet
  | energyRead
  | voltageRead
  | thermalRead
  | throttleRead
  | fsetWrite (sec : Bool) (k : Fin 113) (v : Word)
  | rampStep (k : Fin 113)
  | droopTrip (k : Fin 113)
  | droopClear (k : Fin 113)
  | voltageTargetChange
  | domainSwitch (sec : Bool) (d : Fin 215) (v : Word)
  | domainPowerUpDone (d : Fin 215)
  | powerSample (currents : List (Fin 215 × BitVec 16)) (aonMilliwatt stacksMilliwatt : Nat) (sensed : BitVec 10)
  | estCorrUpdate (measured estimated : Nat)
  | capLoopInterval (pdem pb : BitVec 16)
  | bubbleShareApply
  | junctionSample (readings : List (BitVec 12))
  | thermalCapUpdate
  | coolFlowOkLow
  | coolantStop
  | cattrip (stack : Fin 8)
  | stopPowerOff
  -- faults, spares and service
  | errorWindowEnd (b : Blk) (i : Nat)
  | unitUncorrectableError (b : Blk) (i : Nat) (reader : Option Nat)
  | retireRequest (sec : Bool) (u : RetireUnit) (c : RetireCause)
  | substitutionIdle (b : Blk) (i : Nat)
  | substitutionComplete (b : Blk) (i : Nat)
  | blockEnable (sec : Bool) (b : Blk) (i : Nat) (on : Bool)
  | blockDrain (sec : Bool) (b : Blk) (i : Nat) (on : Bool)
  | blockReset (sec : Bool) (b : Blk) (i : Nat)
  | blockResetDone (b : Blk) (i : Nat)
  | blockIdle (b : Blk) (i : Nat)
  | blockWorldWrite (sec : Bool) (b : Blk) (i : Nat) (v : Word)
  | markWrite (sec : Bool) (v : DWord)
  | markWindowWrite (sec : Bool) (t : Fin 16) (v : Word)
  -- the package
  | railOutOfRange
  | refclkPcieLoss
  | smbusClockLowTimeout
  | jtagTapReset
  | jtagIdcode
  | jtagBypass (ir : BitVec 4) (tdi : Bool)
  | jtagSamplePreload (tdi : BitVec 11)
  | jtagExtest (tdi : BitVec 11)
  -- further rows of the table
  | registerRead (sec : Bool) (addr : BitVec 26) (size : Nat)
  | linkDown (p : Fin 8)
  | coolFlowOkHigh
  | hbmStackHot (fc : Fin 8) (temp : Byte)
  -- the link's rate in tenths of a GT/s (640 for 64 GT/s) and its lanes
  | pcieLinkUp (gts : Nat) (lanes : Nat)
  | configSpaceReady
deriving DecidableEq, Repr

end Sys2Proof
end

