-- ==== Sys2Proof/Config.lean ====
section
/-! DEFINITION. What the spec leaves open, or fixes per part: opaque constants, so no proof can see a value.
Free values are applied to the counter `State.free`; per-part values (fuses, library bits) are constants. -/

namespace Sys2Proof.Config

/-- A number the spec does not fix (assumption 5). -/
opaque freeNat : Nat → Nat

/-- A byte the spec does not fix, with a second index for the bytes of one value. -/
opaque freeByte : Nat → Nat → Byte

/-- A choice the spec does not fix, with a second index. -/
opaque freeBit : Nat → Nat → Bool

/-- Byte i of the XTS key pair of key id k (R385): drawn by Quoin. -/
opaque keyByte : Nat → Nat → Byte

/-- The digest of the release key that the fuses hold (R366). -/
opaque releaseKeyDigest : BitVec 384

/-- The debug key that the fuses hold, x then y (R395). -/
opaque debugKey : BitVec 768

/-- The part's serial (Table 15.1). -/
opaque serial : BitVec 128

/-- The test lot of the identity capability (Table 14.8). -/
opaque testLot : Word

/-- The fused minimum SVN (R427). -/
opaque fusedMinSvn : Word

/-- The fused test map of spares (R23, R427): which unit of a class's lane begins service as the spare, counted within
the lane and reduced modulo its size. -/
opaque fusedSpare : Blk → Nat → Nat

/-- The fused voltage–frequency table (R402): the core voltage [mV] a frequency [MHz] needs at a junction
temperature [0.125 °C]. -/
opaque vfTable : Nat → Int → Nat

/-- The 32-bit word of a library store version at a word address (R162), beyond the tables the spec gives. -/
opaque libWord : Nat → Nat → Word

/-- What the library of a version gives as FP32 value of a built-in function (R166). -/
opaque libFn : Nat → Nat → Word → Word

/-- The library version of the Meleopin image with a given image version (R162). -/
opaque libVersion : Nat → Nat

/-- First 64 KiB unit of the three secure ranges Quoin places, and of the survivor area (R383): chosen per start. -/
opaque secureUnit : Nat → Nat → Nat

/-- The epoch a receiver takes for a connection (port, class, peer) it has had no RESYNC of: the spec does not say how it
learns the first one (R334). -/
opaque firstEpoch : Nat → Nat → Nat → Word

/-- A word of a function's configuration space that the spec does not describe (R350): by its place and the value last written
to it, if one was. -/
opaque cfgWord : Nat → Option Word → Word

/-- Where the MSI-X and SR-IOV capabilities stand in configuration space, which the spec does not say (R350, R351). -/
opaque msixCap : Nat
opaque sriovCap : Nat

/-- Geometry of the NAND tier, which the spec does not give (R301): superblocks of a channel, 64 KiB units of a superblock,
blocks of the data area, and spare blocks at start-up. -/
opaque nandSuperblocks : Nat
opaque nandSbUnits : Nat
/-- The erase block of a superblock that holds its n-th 64 KiB unit (assumption 26). -/
opaque nandUnitBlock : Nat → Nat
opaque nandDataBlocks : Nat
opaque nandSpareBlocks : Nat

end Sys2Proof.Config
end

