-- ==== Sys2Proof/Machine/Mem.lean ====
section
/-! DEFINITION. Sparse maps in canonical form: the one way memory, registers, marks and tables are kept.
An SMap lists strictly rising keys; `get` reads the default of an unlisted key; `set` of that default removes
the entry, so equal contents are equal lists. Bytes and little-endian words are built from it here, once (R5). -/

namespace Sys2Proof.Machine

/-- The value at a key; an unlisted key reads as its default. -/
def smapGet {β : Type} (d : Nat → β) : SMap β → Nat → β
  | [], k => d k
  | (a, v) :: m, k => if k = a then v else if k < a then d k else smapGet d m k

/-- The entry at a key, if it is listed. -/
def smapFind {β : Type} : SMap β → Nat → Option β
  | [], _ => none
  | (a, v) :: m, k => if k = a then some v else if k < a then none else smapFind m k

/-- Put an entry in, replacing the one at its key. -/
def smapInsert {β : Type} : SMap β → Nat → β → SMap β
  | [], k, v => [(k, v)]
  | (a, w) :: m, k, v =>
    if k = a then (k, v) :: m else if k < a then (k, v) :: (a, w) :: m else (a, w) :: smapInsert m k v

/-- Remove the entry at a key. -/
def smapErase {β : Type} : SMap β → Nat → SMap β
  | [], _ => []
  | (a, w) :: m, k => if k = a then m else if k < a then (a, w) :: m else (a, w) :: smapErase m k

/-- Write a value: the default of its key is kept by removing the entry. The map is looked at first, so that a proof about an
unknown map compares no values. -/
def smapSet {β : Type} [DecidableEq β] (d : Nat → β) (m : SMap β) (k : Nat) (v : β) : SMap β :=
  match m with
  | [] => if v = d k then [] else [(k, v)]
  | e :: m => if v = d k then smapErase (e :: m) k else smapInsert (e :: m) k v

/-- Return every key for which `p` holds to its default. -/
def smapClear {β : Type} (p : Nat → Bool) (m : SMap β) : SMap β :=
  m.filter fun e => !p e.1

/-- Change every listed value; one that becomes its key's default is removed. -/
def smapMap {β : Type} [DecidableEq β] (d : Nat → β) (f : β → β) (m : SMap β) : SMap β :=
  (m.map fun e => (e.1, f e.2)).filter fun e => decide (e.2 ≠ d e.1)

/-- Canonical form: keys strictly rising from `lo`, no entry equal to its key's default. -/
def smapWfFrom {β : Type} [DecidableEq β] (d : Nat → β) : Nat → SMap β → Bool
  | _, [] => true
  | lo, (a, v) :: m => decide (lo ≤ a) && decide (v ≠ d a) && smapWfFrom d (a + 1) m

/-- Canonical form of a whole map. -/
def smapWf {β : Type} [DecidableEq β] (d : Nat → β) (m : SMap β) : Bool := smapWfFrom d 0 m

/-- Keys strictly rising from `lo`, for a map whose entries may hold any value. -/
def smapRising {β : Type} : Nat → SMap β → Bool
  | _, [] => true
  | lo, (a, _) :: m => decide (lo ≤ a) && smapRising (a + 1) m

/-- What a byte of the Bed or of HBM that nothing has written reads as: zero (assumption 6, DESIGN CHOICE, unsafe). -/
def zeroByte (_ : Nat) : Byte := 0

/-- What a byte of the Plinth array that nothing has written reads as: 0xFF, erased (assumption 7). -/
def erasedByte (_ : Nat) : Byte := 0xFF

/-- A memory of bytes: a canonical map. -/
def Memory.wf (d : Nat → Byte) (m : List Host.Cell) : Bool := smapWf d m

/-- One byte of a memory. -/
def memByte (d : Nat → Byte) (m : List Host.Cell) (a : Nat) : Byte := smapGet d m a

/-- `n` bytes from an address. -/
def memRead (d : Nat → Byte) (m : List Host.Cell) (a n : Nat) : Bytes :=
  (List.range n).map fun i => memByte d m (a + i)

/-- Write bytes from an address, the first at the lowest. -/
def memWrite (d : Nat → Byte) : List Host.Cell → Nat → Bytes → List Host.Cell
  | m, _, [] => m
  | m, a, b :: bs => memWrite d (smapSet d m a b) (a + 1) bs

/-- Return the `n` bytes from an address to their default. -/
def memClear (m : List Host.Cell) (a n : Nat) : List Host.Cell :=
  smapClear (fun k => decide (a ≤ k) && decide (k < a + n)) m

/-- A little-endian number (R5). -/
def leNat : Bytes → Nat
  | [] => 0
  | b :: bs => b.toNat + 256 * leNat bs

/-- A big-endian number. -/
def beNat (bs : Bytes) : Nat := leNat bs.reverse

/-- The `n` little-endian bytes of a number. -/
def leBytes : Nat → Nat → Bytes
  | 0, _ => []
  | n + 1, v => BitVec.ofNat 8 v :: leBytes n (v / 256)

/-- The `n` big-endian bytes of a number. -/
def beBytes (n v : Nat) : Bytes := (leBytes n v).reverse

/-- Bits [hi:lo] of a number (R5). -/
def bits (v hi lo : Nat) : Nat := v / 2 ^ lo % 2 ^ (hi + 1 - lo)

/-- Bit n of a number. -/
def bit (v n : Nat) : Bool := decide (v / 2 ^ n % 2 = 1)

/-- `v` placed from bit `lo` on. -/
def place (v lo : Nat) : Nat := v * 2 ^ lo

/-- A flag as a number. -/
def flag (b : Bool) : Nat := if b then 1 else 0

/-- Cut a list into pieces of `n`, with fuel `f`. -/
def chunksFuel {α : Type} : Nat → Nat → List α → List (List α)
  | 0, _, _ => []
  | _, _, [] => []
  | f + 1, n, l => l.take n :: chunksFuel f n (l.drop n)

/-- Cut a list into pieces of `n` (the last may be shorter). -/
def chunks {α : Type} (n : Nat) (l : List α) : List (List α) := chunksFuel l.length n l

/-- A list made `n` long by dropping its end or adding zeros. -/
def padTo (n : Nat) (l : Bytes) : Bytes := l.take n ++ List.replicate (n - l.length) 0

/-- Replace the elements of a list from index `i` by those of `new`. -/
def splice {α : Type} (l : List α) (i : Nat) (new : List α) : List α :=
  l.take i ++ new ++ l.drop (i + new.length)

/-- Replace the element at an index. -/
def setAt {α : Type} : List α → Nat → α → List α
  | [], _, _ => []
  | _ :: l, 0, v => v :: l
  | a :: l, n + 1, v => a :: setAt l n v

/-- Insert a number into a rising list without repeats. -/
def insertNat : Nat → List Nat → List Nat
  | x, [] => [x]
  | x, y :: l => if x = y then y :: l else if x < y then x :: y :: l else y :: insertNat x l

/-- Smallest of a list of numbers, `d` where it is empty. -/
def minOr (d : Nat) : List Nat → Nat
  | [] => d
  | x :: l => l.foldl min x

/-- Largest of a list of numbers, `d` where it is empty. -/
def maxOr (d : Nat) : List Nat → Nat
  | [] => d
  | x :: l => l.foldl max x

/-- Rounding up division. -/
def ceilDiv (a b : Nat) : Nat := (a + b - 1) / b

end Sys2Proof.Machine
end

