-- ==== Sys2Proof/Machine/Crypto.lean ====
section
/-! DEFINITION. The algorithms the spec names by their standards: SHA-256 and SHA-384 (R270, R365), AES-256 in XTS and GCM
modes (R341, R386), SipHash-2-4 (R198), cyclic redundancy checks (R347, R380, R425) and ECDSA on P-384 (R366, R395). -/

namespace Sys2Proof.Machine

/-- Round constants of SHA-256. -/
def sha256K : List Word :=
  [0x428A2F98, 0x71374491, 0xB5C0FBCF, 0xE9B5DBA5, 0x3956C25B, 0x59F111F1, 0x923F82A4, 0xAB1C5ED5] ++
  [0xD807AA98, 0x12835B01, 0x243185BE, 0x550C7DC3, 0x72BE5D74, 0x80DEB1FE, 0x9BDC06A7, 0xC19BF174] ++
  [0xE49B69C1, 0xEFBE4786, 0x0FC19DC6, 0x240CA1CC, 0x2DE92C6F, 0x4A7484AA, 0x5CB0A9DC, 0x76F988DA] ++
  [0x983E5152, 0xA831C66D, 0xB00327C8, 0xBF597FC7, 0xC6E00BF3, 0xD5A79147, 0x06CA6351, 0x14292967] ++
  [0x27B70A85, 0x2E1B2138, 0x4D2C6DFC, 0x53380D13, 0x650A7354, 0x766A0ABB, 0x81C2C92E, 0x92722C85] ++
  [0xA2BFE8A1, 0xA81A664B, 0xC24B8B70, 0xC76C51A3, 0xD192E819, 0xD6990624, 0xF40E3585, 0x106AA070] ++
  [0x19A4C116, 0x1E376C08, 0x2748774C, 0x34B0BCB5, 0x391C0CB3, 0x4ED8AA4A, 0x5B9CCA4F, 0x682E6FF3] ++
  [0x748F82EE, 0x78A5636F, 0x84C87814, 0x8CC70208, 0x90BEFFFA, 0xA4506CEB, 0xBEF9A3F7, 0xC67178F2]

/-- Initial value of SHA-256. -/
def sha256H : List Word :=
  [0x6A09E667, 0xBB67AE85, 0x3C6EF372, 0xA54FF53A, 0x510E527F, 0x9B05688C, 0x1F83D9AB, 0x5BE0CD19]

/-- Round constants of SHA-384. -/
def sha512K : List DWord :=
  [0x428A2F98D728AE22, 0x7137449123EF65CD, 0xB5C0FBCFEC4D3B2F, 0xE9B5DBA58189DBBC] ++
  [0x3956C25BF348B538, 0x59F111F1B605D019, 0x923F82A4AF194F9B, 0xAB1C5ED5DA6D8118] ++
  [0xD807AA98A3030242, 0x12835B0145706FBE, 0x243185BE4EE4B28C, 0x550C7DC3D5FFB4E2] ++
  [0x72BE5D74F27B896F, 0x80DEB1FE3B1696B1, 0x9BDC06A725C71235, 0xC19BF174CF692694] ++
  [0xE49B69C19EF14AD2, 0xEFBE4786384F25E3, 0x0FC19DC68B8CD5B5, 0x240CA1CC77AC9C65] ++
  [0x2DE92C6F592B0275, 0x4A7484AA6EA6E483, 0x5CB0A9DCBD41FBD4, 0x76F988DA831153B5] ++
  [0x983E5152EE66DFAB, 0xA831C66D2DB43210, 0xB00327C898FB213F, 0xBF597FC7BEEF0EE4] ++
  [0xC6E00BF33DA88FC2, 0xD5A79147930AA725, 0x06CA6351E003826F, 0x142929670A0E6E70] ++
  [0x27B70A8546D22FFC, 0x2E1B21385C26C926, 0x4D2C6DFC5AC42AED, 0x53380D139D95B3DF] ++
  [0x650A73548BAF63DE, 0x766A0ABB3C77B2A8, 0x81C2C92E47EDAEE6, 0x92722C851482353B] ++
  [0xA2BFE8A14CF10364, 0xA81A664BBC423001, 0xC24B8B70D0F89791, 0xC76C51A30654BE30] ++
  [0xD192E819D6EF5218, 0xD69906245565A910, 0xF40E35855771202A, 0x106AA07032BBD1B8] ++
  [0x19A4C116B8D2D0C8, 0x1E376C085141AB53, 0x2748774CDF8EEB99, 0x34B0BCB5E19B48A8] ++
  [0x391C0CB3C5C95A63, 0x4ED8AA4AE3418ACB, 0x5B9CCA4F7763E373, 0x682E6FF3D6B2B8A3] ++
  [0x748F82EE5DEFB2FC, 0x78A5636F43172F60, 0x84C87814A1F0AB72, 0x8CC702081A6439EC] ++
  [0x90BEFFFA23631E28, 0xA4506CEBDE82BDE9, 0xBEF9A3F7B2C67915, 0xC67178F2E372532B] ++
  [0xCA273ECEEA26619C, 0xD186B8C721C0C207, 0xEADA7DD6CDE0EB1E, 0xF57D4F7FEE6ED178] ++
  [0x06F067AA72176FBA, 0x0A637DC5A2C898A6, 0x113F9804BEF90DAE, 0x1B710B35131C471B] ++
  [0x28DB77F523047D84, 0x32CAAB7B40C72493, 0x3C9EBE0A15C9BEBC, 0x431D67C49C100D4C] ++
  [0x4CC5D4BECB3E42B6, 0x597F299CFC657E2A, 0x5FCB6FAB3AD6FAEC, 0x6C44198C4A475817]

/-- Initial value of SHA-384. -/
def sha384H : List DWord :=
  [0xCBBB9D5DC1059ED8, 0x629A292A367CD507, 0x9159015A3070DD17, 0x152FECD8F70E5939] ++
  [0x67332667FFC00B31, 0x8EB44A8768581511, 0xDB0C2E0D64F98FA7, 0x47B5481DBEFA4FA4]

/-- AES substitution box. -/
def aesSbox : List Byte :=
  [0x63, 0x7C, 0x77, 0x7B, 0xF2, 0x6B, 0x6F, 0xC5, 0x30, 0x01, 0x67, 0x2B, 0xFE, 0xD7, 0xAB, 0x76] ++
  [0xCA, 0x82, 0xC9, 0x7D, 0xFA, 0x59, 0x47, 0xF0, 0xAD, 0xD4, 0xA2, 0xAF, 0x9C, 0xA4, 0x72, 0xC0] ++
  [0xB7, 0xFD, 0x93, 0x26, 0x36, 0x3F, 0xF7, 0xCC, 0x34, 0xA5, 0xE5, 0xF1, 0x71, 0xD8, 0x31, 0x15] ++
  [0x04, 0xC7, 0x23, 0xC3, 0x18, 0x96, 0x05, 0x9A, 0x07, 0x12, 0x80, 0xE2, 0xEB, 0x27, 0xB2, 0x75] ++
  [0x09, 0x83, 0x2C, 0x1A, 0x1B, 0x6E, 0x5A, 0xA0, 0x52, 0x3B, 0xD6, 0xB3, 0x29, 0xE3, 0x2F, 0x84] ++
  [0x53, 0xD1, 0x00, 0xED, 0x20, 0xFC, 0xB1, 0x5B, 0x6A, 0xCB, 0xBE, 0x39, 0x4A, 0x4C, 0x58, 0xCF] ++
  [0xD0, 0xEF, 0xAA, 0xFB, 0x43, 0x4D, 0x33, 0x85, 0x45, 0xF9, 0x02, 0x7F, 0x50, 0x3C, 0x9F, 0xA8] ++
  [0x51, 0xA3, 0x40, 0x8F, 0x92, 0x9D, 0x38, 0xF5, 0xBC, 0xB6, 0xDA, 0x21, 0x10, 0xFF, 0xF3, 0xD2] ++
  [0xCD, 0x0C, 0x13, 0xEC, 0x5F, 0x97, 0x44, 0x17, 0xC4, 0xA7, 0x7E, 0x3D, 0x64, 0x5D, 0x19, 0x73] ++
  [0x60, 0x81, 0x4F, 0xDC, 0x22, 0x2A, 0x90, 0x88, 0x46, 0xEE, 0xB8, 0x14, 0xDE, 0x5E, 0x0B, 0xDB] ++
  [0xE0, 0x32, 0x3A, 0x0A, 0x49, 0x06, 0x24, 0x5C, 0xC2, 0xD3, 0xAC, 0x62, 0x91, 0x95, 0xE4, 0x79] ++
  [0xE7, 0xC8, 0x37, 0x6D, 0x8D, 0xD5, 0x4E, 0xA9, 0x6C, 0x56, 0xF4, 0xEA, 0x65, 0x7A, 0xAE, 0x08] ++
  [0xBA, 0x78, 0x25, 0x2E, 0x1C, 0xA6, 0xB4, 0xC6, 0xE8, 0xDD, 0x74, 0x1F, 0x4B, 0xBD, 0x8B, 0x8A] ++
  [0x70, 0x3E, 0xB5, 0x66, 0x48, 0x03, 0xF6, 0x0E, 0x61, 0x35, 0x57, 0xB9, 0x86, 0xC1, 0x1D, 0x9E] ++
  [0xE1, 0xF8, 0x98, 0x11, 0x69, 0xD9, 0x8E, 0x94, 0x9B, 0x1E, 0x87, 0xE9, 0xCE, 0x55, 0x28, 0xDF] ++
  [0x8C, 0xA1, 0x89, 0x0D, 0xBF, 0xE6, 0x42, 0x68, 0x41, 0x99, 0x2D, 0x0F, 0xB0, 0x54, 0xBB, 0x16]

/-- Inverse of the AES substitution box. -/
def aesInvSbox : List Byte :=
  [0x52, 0x09, 0x6A, 0xD5, 0x30, 0x36, 0xA5, 0x38, 0xBF, 0x40, 0xA3, 0x9E, 0x81, 0xF3, 0xD7, 0xFB] ++
  [0x7C, 0xE3, 0x39, 0x82, 0x9B, 0x2F, 0xFF, 0x87, 0x34, 0x8E, 0x43, 0x44, 0xC4, 0xDE, 0xE9, 0xCB] ++
  [0x54, 0x7B, 0x94, 0x32, 0xA6, 0xC2, 0x23, 0x3D, 0xEE, 0x4C, 0x95, 0x0B, 0x42, 0xFA, 0xC3, 0x4E] ++
  [0x08, 0x2E, 0xA1, 0x66, 0x28, 0xD9, 0x24, 0xB2, 0x76, 0x5B, 0xA2, 0x49, 0x6D, 0x8B, 0xD1, 0x25] ++
  [0x72, 0xF8, 0xF6, 0x64, 0x86, 0x68, 0x98, 0x16, 0xD4, 0xA4, 0x5C, 0xCC, 0x5D, 0x65, 0xB6, 0x92] ++
  [0x6C, 0x70, 0x48, 0x50, 0xFD, 0xED, 0xB9, 0xDA, 0x5E, 0x15, 0x46, 0x57, 0xA7, 0x8D, 0x9D, 0x84] ++
  [0x90, 0xD8, 0xAB, 0x00, 0x8C, 0xBC, 0xD3, 0x0A, 0xF7, 0xE4, 0x58, 0x05, 0xB8, 0xB3, 0x45, 0x06] ++
  [0xD0, 0x2C, 0x1E, 0x8F, 0xCA, 0x3F, 0x0F, 0x02, 0xC1, 0xAF, 0xBD, 0x03, 0x01, 0x13, 0x8A, 0x6B] ++
  [0x3A, 0x91, 0x11, 0x41, 0x4F, 0x67, 0xDC, 0xEA, 0x97, 0xF2, 0xCF, 0xCE, 0xF0, 0xB4, 0xE6, 0x73] ++
  [0x96, 0xAC, 0x74, 0x22, 0xE7, 0xAD, 0x35, 0x85, 0xE2, 0xF9, 0x37, 0xE8, 0x1C, 0x75, 0xDF, 0x6E] ++
  [0x47, 0xF1, 0x1A, 0x71, 0x1D, 0x29, 0xC5, 0x89, 0x6F, 0xB7, 0x62, 0x0E, 0xAA, 0x18, 0xBE, 0x1B] ++
  [0xFC, 0x56, 0x3E, 0x4B, 0xC6, 0xD2, 0x79, 0x20, 0x9A, 0xDB, 0xC0, 0xFE, 0x78, 0xCD, 0x5A, 0xF4] ++
  [0x1F, 0xDD, 0xA8, 0x33, 0x88, 0x07, 0xC7, 0x31, 0xB1, 0x12, 0x10, 0x59, 0x27, 0x80, 0xEC, 0x5F] ++
  [0x60, 0x51, 0x7F, 0xA9, 0x19, 0xB5, 0x4A, 0x0D, 0x2D, 0xE5, 0x7A, 0x9F, 0x93, 0xC9, 0x9C, 0xEF] ++
  [0xA0, 0xE0, 0x3B, 0x4D, 0xAE, 0x2A, 0xF5, 0xB0, 0xC8, 0xEB, 0xBB, 0x3C, 0x83, 0x53, 0x99, 0x61] ++
  [0x17, 0x2B, 0x04, 0x7E, 0xBA, 0x77, 0xD6, 0x26, 0xE1, 0x69, 0x14, 0x63, 0x55, 0x21, 0x0C, 0x7D]


/-- Message padding of SHA-2 with a block of `blk` bytes and a length field of `lenBytes`. -/
def shaPad (blk lenBytes : Nat) (msg : Bytes) : Bytes :=
  let n := msg.length + 1 + lenBytes
  msg ++ 0x80 :: List.replicate ((blk - n % blk) % blk) 0 ++ beBytes lenBytes (8 * msg.length)

/-- Element of a list of words by index. -/
def nth {n : Nat} (l : List (BitVec n)) (i : Nat) : BitVec n := l.getD i 0

/-- One round of SHA-2 over the eight working variables. -/
def shaRound {n : Nat} (a1 a2 a3 e1 e2 e3 : Nat) (v : List (BitVec n)) (kw : BitVec n × BitVec n) : List (BitVec n) :=
  let a := nth v 0; let b := nth v 1; let c := nth v 2
  let e := nth v 4; let f := nth v 5; let g := nth v 6
  let t1 := nth v 7 + (e.rotateRight e1 ^^^ e.rotateRight e2 ^^^ e.rotateRight e3) + ((e &&& f) ^^^ (~~~e &&& g)) + kw.1 + kw.2
  let t2 := (a.rotateRight a1 ^^^ a.rotateRight a2 ^^^ a.rotateRight a3) + ((a &&& b) ^^^ (a &&& c) ^^^ (b &&& c))
  [t1 + t2, a, b, c, nth v 3 + t1, e, f, g]

/-- Extend a message schedule, kept newest first, by `k` words. -/
def shaSchedule {n : Nat} (s1 s2 s3 t1 t2 t3 : Nat) : Nat → List (BitVec n) → List (BitVec n)
  | 0, w => w
  | k + 1, w =>
    let x := nth w 14
    let y := nth w 1
    let z := nth w 15 + (x.rotateRight s1 ^^^ x.rotateRight s2 ^^^ (x >>> s3)) + nth w 6
      + (y.rotateRight t1 ^^^ y.rotateRight t2 ^^^ (y >>> t3))
    shaSchedule s1 s2 s3 t1 t2 t3 k (z :: w)

/-- SHA-256 (FIPS 180-4). -/
def sha256 (msg : Bytes) : Bytes :=
  let block (h : List Word) (b : Bytes) : List Word :=
    let w := (shaSchedule 7 18 3 17 19 10 48 ((chunks 4 b).map fun x => BitVec.ofNat 32 (beNat x)).reverse).reverse
    List.zipWith (· + ·) h ((sha256K.zip w).foldl (shaRound 2 13 22 6 11 25) h)
  ((chunks 64 (shaPad 64 8 msg)).foldl block sha256H).flatMap fun w => beBytes 4 w.toNat

/-- SHA-384 (FIPS 180-4). -/
def sha384 (msg : Bytes) : Bytes :=
  let block (h : List DWord) (b : Bytes) : List DWord :=
    let w := (shaSchedule 1 8 7 19 61 6 64 ((chunks 8 b).map fun x => BitVec.ofNat 64 (beNat x)).reverse).reverse
    List.zipWith (· + ·) h ((sha512K.zip w).foldl (shaRound 28 34 39 14 18 41) h)
  (((chunks 128 (shaPad 128 16 msg)).foldl block sha384H).take 6).flatMap fun w => beBytes 8 w.toNat

/-- Multiplication by x in the AES field. -/
def aesX (a : Byte) : Byte := (a <<< 1) ^^^ (if a.msb then 0x1B else 0)

/-- Multiplication in the AES field by a constant below 16. -/
def aesMul (k : Nat) (a : Byte) : Byte :=
  (if bit k 0 then a else 0) ^^^ (if bit k 1 then aesX a else 0) ^^^ (if bit k 2 then aesX (aesX a) else 0)
    ^^^ (if bit k 3 then aesX (aesX (aesX a)) else 0)

/-- Byte-wise exclusive or. -/
def xorBytes (a b : Bytes) : Bytes := List.zipWith (· ^^^ ·) a b

/-- Substitute every byte. -/
def subBytes (t : List Byte) (b : Bytes) : Bytes := b.map fun x => nth t x.toNat

/-- Extend an AES-256 key schedule, its words newest first, by `k` words; `i` is the next word's index. -/
def aesExpand : Nat → Nat → Byte → List Bytes → List Bytes
  | 0, _, _, w => w
  | k + 1, i, rc, w =>
    let t := w.headD []
    let t := if i % 8 = 0 then xorBytes (subBytes aesSbox (t.drop 1 ++ t.take 1)) [rc, 0, 0, 0]
      else if i % 8 = 4 then subBytes aesSbox t else t
    aesExpand k (i + 1) (if i % 8 = 0 then aesX rc else rc) (xorBytes (w.getD 7 []) t :: w)

/-- The fifteen round keys of an AES-256 key of 32 bytes. -/
def aesKeys (key : Bytes) : List Bytes := chunks 16 ((aesExpand 52 8 1 (chunks 4 key).reverse).reverse.flatten)

/-- Move byte r + 4c of the state to column c − d·r. -/
def shiftRows (d : Nat) (b : Bytes) : Bytes :=
  (List.range 16).map fun i => nth b (i % 4 + 4 * ((i / 4 + d * (i % 4)) % 4))

/-- Multiply each column of the state by a circulant matrix. -/
def mixColumns (m : List Nat) (b : Bytes) : Bytes :=
  (List.range 16).map fun i =>
    (List.range 4).foldl (fun acc j => acc ^^^ aesMul (m.getD ((4 + j - i % 4) % 4) 0) (nth b (i / 4 * 4 + j))) 0

/-- Encrypt one block under AES-256. -/
def aesEnc (key blk : Bytes) : Bytes :=
  let ks := aesKeys key
  let s := xorBytes blk (ks.getD 0 [])
  let s := ((ks.drop 1).take 13).foldl
    (fun s k => xorBytes (mixColumns [2, 3, 1, 1] (shiftRows 1 (subBytes aesSbox s))) k) s
  xorBytes (shiftRows 1 (subBytes aesSbox s)) (ks.getD 14 [])

/-- Decrypt one block under AES-256. -/
def aesDec (key blk : Bytes) : Bytes :=
  let ks := (aesKeys key).reverse
  let s := xorBytes blk (ks.getD 0 [])
  let s := ((ks.drop 1).take 13).foldl
    (fun s k => mixColumns [14, 11, 13, 9] (xorBytes (subBytes aesInvSbox (shiftRows 3 s)) k)) s
  xorBytes (subBytes aesInvSbox (shiftRows 3 s)) (ks.getD 14 [])

/-- Multiply an XTS tweak by x. -/
def xtsNext (t : Bytes) : Bytes :=
  let v := leNat t * 2
  leBytes 16 (if v ≥ 2 ^ 128 then Nat.xor (v - 2 ^ 128) 0x87 else v)

/-- One XTS pass over whole blocks with a block function. -/
def xtsBlocks (f : Bytes → Bytes) : Bytes → List Bytes → Bytes
  | _, [] => []
  | t, b :: bs => xorBytes (f (xorBytes b t)) t ++ xtsBlocks f (xtsNext t) bs

/-- AES-256-XTS encryption of one data unit; `key` is K1 then K2, `unit` the data unit's number (R386). -/
def xtsEnc (key : Bytes) (unit : Nat) (data : Bytes) : Bytes :=
  xtsBlocks (aesEnc (key.take 32)) (aesEnc (key.drop 32) (leBytes 16 unit)) (chunks 16 data)

/-- AES-256-XTS decryption of one data unit. -/
def xtsDec (key : Bytes) (unit : Nat) (data : Bytes) : Bytes :=
  xtsBlocks (aesDec (key.take 32)) (aesEnc (key.drop 32) (leBytes 16 unit)) (chunks 16 data)

/-- Product in the field of GCM over `k` remaining bits of `x`, from bit 127 − (127 − k) down. -/
def ghashMul : Nat → Nat → Nat → Nat → Nat
  | 0, _, _, z => z
  | k + 1, x, v, z =>
    ghashMul k x (if v % 2 = 1 then Nat.xor (v / 2) (0xE1 * 2 ^ 120) else v / 2) (if bit x k then Nat.xor z v else z)

/-- GHASH of whole blocks under the hash key h. -/
def ghash (h : Nat) (bs : List Bytes) : Nat :=
  bs.foldl (fun y b => ghashMul 128 (Nat.xor y (beNat (padTo 16 b))) h 0) 0

/-- The key stream of GCM from counter block `i` on, XORed into the data. -/
def gcmCtr (key iv : Bytes) : Nat → List Bytes → Bytes
  | _, [] => []
  | i, b :: bs => xorBytes b (aesEnc key (iv ++ beBytes 4 i)) ++ gcmCtr key iv (i + 1) bs

/-- The GCM tag over associated data and ciphertext (12-byte IV). -/
def gcmTag (key iv aad ct : Bytes) : Bytes :=
  let h := beNat (aesEnc key (List.replicate 16 0))
  let lens := beBytes 8 (8 * aad.length) ++ beBytes 8 (8 * ct.length)
  xorBytes (beBytes 16 (ghash h (chunks 16 aad ++ chunks 16 ct ++ [lens]))) (aesEnc key (iv ++ beBytes 4 1))

/-- AES-256-GCM: the data enciphered (or deciphered), which GCM does in one way. -/
def gcmCrypt (key iv data : Bytes) : Bytes := gcmCtr key iv 2 (chunks 16 data)

/-- One SipHash round over (v0, v1, v2, v3). -/
def sipRound (v : DWord × DWord × DWord × DWord) : DWord × DWord × DWord × DWord :=
  let (a, b, c, d) := v
  let a := a + b; let b := b.rotateLeft 13 ^^^ a; let a := a.rotateLeft 32
  let c := c + d; let d := d.rotateLeft 16 ^^^ c
  let a := a + d; let d := d.rotateLeft 21 ^^^ a
  let c := c + b; let b := b.rotateLeft 17 ^^^ c; let c := c.rotateLeft 32
  (a, b, c, d)

/-- SipHash-2-4 of a message under a 16-byte key. -/
def sipHash (key msg : Bytes) : DWord :=
  let k0 := BitVec.ofNat 64 (leNat (key.take 8))
  let k1 := BitVec.ofNat 64 (leNat (key.drop 8))
  let last := BitVec.ofNat 64 (leNat (msg.drop (msg.length / 8 * 8)) + msg.length % 256 * 2 ^ 56)
  let ws := ((chunks 8 (msg.take (msg.length / 8 * 8))).map fun b => BitVec.ofNat 64 (leNat b)) ++ [last]
  let v := ws.foldl (fun v (m : DWord) =>
      let (a, b, c, d) := sipRound (sipRound (v.1, v.2.1, v.2.2.1, v.2.2.2 ^^^ m))
      (a ^^^ m, b, c, d))
    (k0 ^^^ 0x736F6D6570736575, k1 ^^^ 0x646F72616E646F6D, k0 ^^^ 0x6C7967656E657261, k1 ^^^ 0x7465646279746573)
  let (a, b, c, d) := sipRound (sipRound (sipRound (sipRound (v.1, v.2.1, v.2.2.1 ^^^ 0xFF, v.2.2.2))))
  a ^^^ b ^^^ c ^^^ d

/-- One byte through a reflected 32-bit CRC register. -/
def crc32Byte (c : Nat) (b : Byte) : Nat :=
  (List.range 8).foldl (fun c _ => if c % 2 = 1 then Nat.xor (c / 2) 0xEDB88320 else c / 2) (Nat.xor c b.toNat)

/-- CRC-32 with the IEEE 802.3 polynomial. -/
def crc32 (bs : Bytes) : Nat := Nat.xor (bs.foldl crc32Byte 0xFFFFFFFF) 0xFFFFFFFF

/-- CRC of bits taken from the highest down, polynomial `poly` of degree `n`, initial value zero, no inversion. -/
def crcBits (n poly : Nat) (msg : List Bool) : Nat :=
  msg.foldl (fun c m =>
    let t := c * 2 % 2 ^ n
    if bit c (n - 1) != m then Nat.xor t poly else t) 0

/-- The bits of a `w`-bit number, highest first. -/
def bitsDown (w v : Nat) : List Bool := (List.range w).map fun i => bit v (w - 1 - i)

/-- SMBus packet error code: CRC-8 with x^8 + x^2 + x + 1. -/
def pec (bs : Bytes) : Byte := BitVec.ofNat 8 (crcBits 8 7 (bs.flatMap fun b => bitsDown 8 b.toNat))

/-- b^e mod m, over the low `k` bits of e. -/
def powMod (m : Nat) : Nat → Nat → Nat → Nat
  | 0, _, _ => 1 % m
  | k + 1, b, e => (if e % 2 = 1 then b else 1) * powMod m k (b * b % m) (e / 2) % m

/-- The prime of P-384. -/
def p384 : Nat := 2 ^ 384 - 2 ^ 128 - 2 ^ 96 + 2 ^ 32 - 1
/-- The order of P-384. -/
def p384n : Nat := 0xFFFFFFFFFFFFFFFFFFFFFFFFFFFFFFFFFFFFFFFFFFFFFFFFC7634D81F4372DDF581A0DB248B0A77AECEC196ACCC52973
/-- Coefficient b of P-384. -/
def p384b : Nat := 0xB3312FA7E23EE7E4988E056BE3F82D19181D9C6EFE8141120314088F5013875AC656398D8A2ED19D2A85C8EDD3EC2AEF
/-- Base point of P-384. -/
def p384g : Nat × Nat :=
  (0xAA87CA22BE8B05378EB1C71EF320AD746E1D3B628BA79B9859F741E082542A385502F25DBF55296C3A545E3872760AB7,
   0x3617DE4A96262C6F5D9E98BF9292DC29F8F41DBD289A147CE9DA3113B5F0B8C00A60B1CE1D7E819D7A431D7C90EA0E5F)

/-- Sum of two affine points, none at infinity. -/
def p384add : Option (Nat × Nat) → Option (Nat × Nat) → Option (Nat × Nat)
  | none, q => q
  | p, none => p
  | some (x, y), some (u, v) =>
    if x = u ∧ (y + v) % p384 = 0 then none
    else
      let num := if x = u then 3 * (x * x + p384 - 1) else v + p384 - y
      let den := if x = u then 2 * y else u + p384 - x
      let l := num * powMod p384 384 (den % p384) (p384 - 2) % p384
      let w := (l * l + 2 * p384 - x - u) % p384
      some (w, (l * (x + p384 - w) + p384 - y) % p384)

/-- k times a point, over the low `n` bits of k. -/
def p384mul : Nat → Nat → Option (Nat × Nat) → Option (Nat × Nat)
  | 0, _, _ => none
  | n + 1, k, p => p384add (if k % 2 = 1 then p else none) (p384mul n (k / 2) (p384add p p))

/-- ECDSA verification on P-384 of a digest: `pub` is x then y, `sig` is r then s, big-endian, 48 bytes each. -/
def ecdsaVerify (pub sig digest : Bytes) : Bool :=
  let x := beNat (pub.take 48)
  let y := beNat (pub.drop 48)
  let r := beNat (sig.take 48)
  let t := beNat (sig.drop 48)
  let ok := decide (x < p384) && decide (y < p384) && decide (y * y % p384 = (x * x * x + (p384 - 3) * x + p384b) % p384)
    && decide (0 < r) && decide (r < p384n) && decide (0 < t) && decide (t < p384n)
  let w := powMod p384n 384 t (p384n - 2)
  match p384add (p384mul 384 (beNat digest * w % p384n) (some p384g)) (p384mul 384 (r * w % p384n) (some (x, y))) with
  | none => false
  | some (u, _) => ok && decide (u % p384n = r)

end Sys2Proof.Machine
end

