-- ==== Sys2Proof/Machine/State.lean ====
section
/-! DEFINITION. The state of the XW-7 as plain data: every register (in one register file keyed by the register's
BAR0 address), every memory, queue, counter, mode and pin the spec gives the block, and the queue of waiting commands.
Addresses of registers, their reset values and their views are in Machine/Regs.lean. -/

namespace Sys2Proof.Machine

/-- Why the machine stops. -/
inductive Fault where
  /-- Raised by every command but PERST_N_ASSERT once a rail has left its range (R455) or REFCLK_PCIE has been lost
  (R451) with PERST_N high: the spec calls the behaviour undefined until the next PERST_N. Safe. -/
  | behaviourUndefined
deriving DecidableEq, Repr

/-- Why a command is turned away by the model. -/
inductive Refusal where
  /-- Raised by an arm of exec that has no meaning yet. Safe. -/
  | notModelled (mnemonic : String)
deriving DecidableEq, Repr

/-- Levels at the package balls that a command drives or the block drives (R450). -/
structure Pins where
  perstN      : Bool
  coolFlowOk  : Bool
  thermTrip   : Bool        -- THERM_TRIP_N asserted (low)
  refclkF     : BitVec 4    -- REFCLK_F0 to F3 within tolerance
  smbReleased : Bool        -- the XW-7 has released SMB_CLK (R460)
deriving DecidableEq, Repr

/-- The JTAG port (R461). -/
structure Jtag where
  ir     : BitVec 4
  bsr    : BitVec 11
  tdo    : Word
  driven : Bool
deriving DecidableEq, Repr

/-- The PCI Express side (R350 to R354) and what the host last read. -/
structure Pcie where
  linkUp   : Bool
  gts      : Nat            -- tenths of a GT/s
  lanes    : Nat
  cfgReady : Bool
  cfg      : SMap Word      -- written configuration words, key 4096 × function + offset
  rdData   : DWord
  rdBytes  : Bytes
  ep       : Bool
  rrs      : Bool
  aer      : Nat
  msix     : List (Nat × Nat)    -- messages sent, the last first: function and entry of its table (R352)
  msixTab  : SMap (BitVec 128)   -- MSI-X tables and PBAs of BAR4 (Table 14.2), key 128 × function + entry: no command of the
  msixPba  : List (Nat × Nat)    -- table reaches BAR4
  vfOn     : BitVec 16
deriving DecidableEq, Repr

/-- One entry of a tenant's translation tables (Table 15.4), covering 64 KiB or 2 MiB. -/
structure XEntry where
  tenant : Nat
  bed    : Bool             -- the Bed table, else the HBM table
  off    : Nat              -- tenant offset in 64 KiB units
  big    : Bool             -- a 2 MiB granule (32 units)
  phys   : Nat              -- physical offset in 64 KiB units
  ro     : Bool
  poison : Bool
  src    : Option Nat       -- the tensor it backs, or none for a map operation
deriving DecidableEq, Repr

/-- A posted write waiting in a function's write queue (R355). -/
structure Posted where
  fn   : Nat
  off  : Nat                -- offset in the function's command pages
  size : Nat
  val  : DWord
deriving DecidableEq, Repr

/-- Job queue state beside its registers (R63 to R65, R371). -/
structure JobQ where
  enabled : Bool
  lastEnd : Bool            -- the last dispatched descriptor carried JOB_END, or none was dispatched
  parked  : Bool            -- an activation has stopped its dispatch at a point between jobs
deriving DecidableEq, Repr

/-- Ring state beside its registers (R72, R73). -/
structure Ring where
  unread : Nat
  phase  : Bool             -- PHASE of the next record
  lost   : Nat
deriving DecidableEq, Repr

/-- A byte-addressable tier. -/
inductive Tier where
  | bed | hbm
deriving DecidableEq, Repr

/-- A write an operation has made, at its physical place under a key. -/
structure Put where
  tier : Tier
  key  : Nat
  off  : Nat
  data : Bytes
deriving DecidableEq, Repr

/-- A trough a descriptor uses: its number, whether it produces there, how many records it consumes, and, once it has
started, its next record k with the base, slots and lines of the region (R91, R92). -/
structure TrUse where
  n     : Nat
  out   : Bool
  count : Nat
  k     : Nat := 0
  base  : Nat := 0
  slots : Nat := 1
  lines : Nat := 0
deriving DecidableEq, Repr

/-- Where a descriptor in flight stands. -/
inductive Phase where
  | dispatched              -- released and dispatched; its operation has not run
  | waitMove                -- released; waits for an on-demand move (R219)
  | running                 -- issued: a remote operation, a Quarry operation or trough records are outstanding
  | redispatch              -- taken off a retiring engine; waits for another (R423)
  | ran                     -- its operation has ended; completion is next
deriving DecidableEq, Repr

/-- A descriptor from its release (R55) to its completion (R56). -/
structure Flight where
  id       : Nat
  tenant   : Nat
  queue    : Nat
  index    : Nat
  desc     : BitVec 1024
  cls      : Blk            -- class of the unit
  unit     : Nat            -- its index; 0xFF for none
  phase    : Phase
  codes    : List (BitVec 16 × DWord)   -- conditions met, each with its DETAIL
  warn     : Nat
  partly   : Bool           -- a fault whose chapter commits part of the results (R56)
  issued   : Bool           -- has issued its first access (R389)
  noRecord : Bool           -- completes without a record (R377)
  strict   : Bool           -- strict mode ended it (R83)
  inRec    : List (Nat × Bytes)   -- records consumed, with the role of their trough
  outRec   : List (Nat × Bytes)   -- records still to be produced, with their trough
  started  : Bool           -- its engine has started it: the checks of R62 steps 2 to 4 are done
  param    : Bytes          -- its parameter block, read at the start
  ssr      : Bytes          -- its scale-state record as it stood at the start (R122)
  uses     : List TrUse     -- the troughs it uses
  tangled  : Bool           -- another descriptor, not ordered with it, works on its chain (R193)
  late     : List Put       -- writes made only when it completes with its results committed (R121, R218)
  base     : Option DWord   -- resolved base of a SCAN state (R219)
  pin      : Option Nat     -- the tensor a SCAN descriptor pins (R221)
deriving DecidableEq, Repr

/-- A map or unmap operation in progress (R70): its space, range in 64 KiB units, RO, and the outcome of its checks. -/
structure MapOp where
  unmap  : Bool
  bed    : Bool
  off    : Nat
  len    : Nat
  ro     : Bool
  status : BitVec 16
  ents   : List XEntry      -- entries a map will write
deriving DecidableEq, Repr

/-- States of Table 18.4. -/
inductive BState where
  | off | disabled | idle | busy | draining | substituting | retired | spare | stopped
deriving DecidableEq, Repr

/-- State of a block beside its header registers (R436). -/
structure UnitSt where
  st          : BState
  retiring    : Bool        -- draining for retirement
  retired     : Bool
  spareActive : Bool
  standby     : Bool        -- a spare not yet in service
  lastTenant  : Option Nat  -- the tenant it last served (R33)
deriving DecidableEq, Repr

/-- The resident region of a matrix engine (R141): its tag and its bytes. -/
structure Resident where
  resid  : BitVec 16
  baddr  : DWord
  fmt    : Nat
  n      : Nat
  k      : Nat
  tenant : Nat
  data   : List Bytes       -- rows of B
  scales : List Bytes       -- rows of B's scales
deriving DecidableEq, Repr

/-- The user image loaded in a Chisel engine (R163): its tag and its content. -/
structure Image where
  addr   : DWord
  size   : Nat
  tenant : Nat
  steps  : List DWord
  consts : List Word
  tables : List (List Word)
deriving DecidableEq, Repr

/-- A tensor record (Table 10.2). -/
structure Tensor where
  used     : Bool
  gen      : BitVec 16
  bytes    : Nat
  hbmOff   : DWord
  bedOff   : DWord
  home     : Nat            -- 0 none, 1 Bed, 2 HBM, 3 NAND
  ro       : Bool
  digested : Bool
  poisoned : Bool
  moving   : Bool
  nandOk   : Bool
  tenant   : Nat
  moves    : Word
  scrubbed : Nat
  digest   : BitVec 256
deriving DecidableEq, Repr

/-- Who asked for a move (R219, R254, R260). -/
inductive MoveBy where
  | flight (id : Nat)       -- a MOVE descriptor, or a SCAN waiting for its state
  | sched (t : Nat) (entry : Nat) (sig : DWord)
deriving DecidableEq, Repr

/-- A move in progress (steps 4 to 6 of R254). -/
structure Move where
  idx  : Nat
  tier : Nat
  by_  : MoveBy
  ents : List XEntry        -- entries of the destination range, not yet in force
deriving DecidableEq, Repr

/-- An intake that builds or waits for its commit (R267, R268). -/
structure Build where
  id     : Nat              -- the INTAKE descriptor
  idx    : Nat
  tier   : Nat
  tenant : Nat
  data   : Bytes
  built  : Bool
  ents   : List XEntry
  wait   : DWord
deriving DecidableEq, Repr

/-- A tenant's prefetch schedule beside its registers (R259). -/
structure Sched where
  pass  : Nat               -- passes counted from 0 when the schedule was enabled
  entry : Nat
deriving DecidableEq, Repr

/-- A scheduled move released and not yet started (R253, R259): its place in the order Quarry receives operations, its entry's
index, handle, tier and signal slot. -/
structure SchedWait where
  id    : Nat
  t     : Nat
  entry : Nat
  h     : Nat
  tier  : Nat
  sig   : DWord
deriving DecidableEq, Repr

/-- A request waiting in a Footing controller (R283). -/
structure HbmWait where
  req  : HbmReq
  pc   : Nat                -- pseudo-channel across the chip (R280)
  bank : Nat                -- 16 × SID + 4 × BG + BA
  row  : Nat
  at_  : Nat                -- time of entry [ns]
deriving DecidableEq, Repr

/-- A retrain of one channel in progress (R291). -/
structure Retrain where
  ch      : Nat
  windows : Nat
deriving DecidableEq, Repr

/-- States of a NAND superblock (R299 to R303). -/
inductive SbState where
  | free | holding | dirty
deriving DecidableEq, Repr

/-- A 64 KiB unit of a tensor in the NAND tier, and the erase block of its superblock that holds it. -/
structure NandUnit where
  idx  : Nat
  unit : Nat
  blk  : Nat
deriving DecidableEq, Repr

/-- A NAND superblock: its wear, the reads of each of its erase blocks since its erase, and the units it holds. -/
structure Superblock where
  ch     : Nat
  idx    : Nat
  erases : Nat
  reads  : SMap Nat
  units  : List NandUnit
  st     : SbState
deriving DecidableEq, Repr

/-- How far a Plinth bank's command sequence has come (Table 12.3). -/
inductive PlSeq where
  | read
  | u1
  | u2
  | prog (auto : Bool) (base : Nat) (words : List Word)
  | er1
  | er2
  | er3
deriving DecidableEq, Repr

/-- The program or erase of a Plinth bank. -/
structure PlOp where
  erase  : Bool
  block  : Nat
  line   : Nat
  data   : Bytes
  auto   : Bool
  susp   : Bool             -- suspended
  asked  : Bool             -- a suspend is asked for and not yet reached
  fetch  : Option Nat       -- the fetch an auto-suspend will serve
deriving DecidableEq, Repr

/-- One Plinth bank. -/
structure PlBank where
  seq : PlSeq
  op  : Option PlOp
  held : Option PlOp        -- an erase suspended while a program runs (R309)
deriving DecidableEq, Repr

/-- The header fields of Table 13.3 with the plain payload: a frame waiting to be sent, or accepted and not yet
applied. -/
structure Frame where
  port  : Nat
  tc    : Nat
  type  : Nat
  flags : Nat
  src   : Nat
  dst   : Nat
  ftid  : Nat
  psn   : Nat
  ack   : Nat
  ackV  : Bool
  opid  : Nat
  opc   : Nat
  reason : Nat
  len   : Nat
  addr  : DWord
  explen : Nat
  status : BitVec 16
  payload : Bytes
  wire  : Nat               -- octets of a received frame
deriving DecidableEq, Repr

/-- A frame sent and not yet acknowledged (R330, R332). -/
structure Sent where
  psn     : Nat
  bytes   : Bytes
  req     : Option Nat      -- the own operation it belongs to; none for a response
  retries : Nat
  nak2    : Bool            -- its last failure was a NAK with REASON 2
deriving DecidableEq, Repr

/-- A sender's connection context (R330, R334), with the frames that wait for the window, a pause or a resynchronisation. -/
structure Conn where
  port    : Nat
  tc      : Nat
  peer    : Nat
  psn     : Nat
  epoch   : Word
  ctl     : Nat
  resync  : Bool
  queue   : List Frame
  unacked : List Sent
  nak     : Option Bool     -- a NAK has come while the class is paused; whether its REASON is 2 (R332, R339)
  rsDue   : Bool            -- its RESYNC waits for the end of a pause (R339)
deriving DecidableEq, Repr

/-- A receiver's connection context (R331, R334). -/
structure RConn where
  port  : Nat
  tc    : Nat
  peer  : Nat
  exp   : Nat
  epoch : Word
  ctl   : Nat
  due   : List (Nat × Nat)  -- answers, by TYPE and REASON, that wait for the end of a pause (R339)
deriving DecidableEq, Repr

/-- A remote operation issued and not yet ended (R329, R335): the descriptor it belongs to (none for a signal slot). -/
structure ROp where
  opid    : Nat
  flight  : Option Nat
  tenant  : Nat
  port    : Nat
  tc      : Nat
  peer    : Nat
  opc     : Nat
  dst     : DWord           -- local destination of a get or of a fetched value; 0 for no fetch
  len     : Nat
  got     : Nat             -- response bytes delivered
  sent    : Bool            -- its first frame has been sent
  grout   : Option Nat      -- the Grout unit its frames pass through (R348)
deriving DecidableEq, Repr

/-- The header of a Meleopin image that matters after verification (Table 14.7). -/
structure ImgHdr where
  ifver  : Word
  imgver : Word
  svn    : Word
deriving DecidableEq, Repr

/-- Firmware state beside the command-page registers (R361 to R375). -/
structure Fw where
  booted      : Bool
  verify      : Option Bool          -- a load (false) or an update (true) under verification
  running     : Option ImgHdr
  cand        : Option ImgHdr        -- verified, starting or waiting for activation
  hbSeen      : Bool
  missed      : Nat
  absentTimer : Bool
  refused     : Nat
  entered     : Nat                  -- µs since PERST_N at the entry to state 5
  ended       : SMap Nat
  cqSince     : SMap Nat
deriving DecidableEq, Repr

/-- A management command waiting for Quoin (R381). -/
structure QReq where
  src     : Nat             -- 0 MCTP, 1 secure mailbox, 2 PF mailbox
  code    : Nat
  payload : Bytes
  eid     : Nat             -- MCTP source endpoint
  tag     : Nat             -- MCTP message tag byte
deriving DecidableEq, Repr

/-- An IMAGE_UPDATE session (R394). -/
structure Session where
  len  : Nat
  got  : Nat
  slotB : Bool
  last : Option (Nat × Bytes)
deriving DecidableEq, Repr

/-- A configuration record (Table 17.2): SPARE and RETIRED bitmaps for classes 0x1 to 0x5 and Keystone. -/
structure CfgRec where
  seq     : Nat
  minSvn  : Word
  slotB   : Bool
  spares  : List DWord
  retired : List DWord
  bedmap  : List Word
  repairs : List (BitVec 16)
deriving DecidableEq, Repr

/-- Power, clock and thermal state beside the registers (R399 to R416). -/
structure Pw where
  fastHits  : Nat           -- consecutive samples over the fast limit
  tripHits  : BitVec 64     -- sensors at or over 115 °C in the last sample
  atLimit   : Bool          -- at or above the limit throughout the 100 µs
  atRelease : Bool          -- at or below the release throughout the 100 µs
  pend      : Option (Nat × Bool)   -- share computed and not yet in effect, and its saturation
  coolArmed : Bool          -- the 50 µs filter runs
  offArmed  : Bool          -- the 200 µs power-off is due
  domBusy   : Option Nat    -- the domain being switched on
  stackTemps : SMap Byte     -- last temperature of each HBM stack
  frac      : Nat           -- energy below 1 µJ, in steps of 0.1 nJ (R407)
deriving DecidableEq, Repr

/-- A substitution in progress (R423). -/
structure Subst where
  blk   : Blk
  old   : Nat
  spare : Option Nat
  idle  : Bool              -- the retiring engine is idle; the spare's domain is powered
deriving DecidableEq, Repr

/-- The state of the XW-7. -/
structure State where
  pending   : List Instr
  timeNs    : Nat
  free      : Nat
  undef     : Bool
  pins      : Pins
  jtag      : Jtag
  pcie      : Pcie
  regs      : SMap DWord
  snap      : SMap DWord
  bed       : List Host.Cell
  bedPoison : List Nat
  hbm       : List Host.Cell
  hbmPoison : List Nat
  hbmKey    : List (Nat × Nat × Nat)
  hbmReady  : Bool
  marks     : SMap DWord
  markPtr   : SMap Nat
  xlat      : List XEntry
  wq        : List Posted
  jq        : SMap JobQ
  ring      : SMap Ring
  relHead   : List Nat          -- job queues (8 × tenant + queue) whose head descriptor is released (R55)
  flights   : List Flight
  nextFlight : Nat
  mapOp     : SMap MapOp
  bedPtr    : SMap Nat
  bedDefer  : List (Nat × BedReq)
  bankOut   : List Nat
  spareBad  : List Nat          -- lines of a spare being filled, 3,072 × bank + row, in which a double error was found (R84, R87)
  winHit    : List Nat
  unit      : SMap UnitSt
  errWin    : SMap Nat          -- BLK_ERR_WIN settings in force, by block (R437)
  resident  : SMap Resident
  image     : SMap Image
  libVer    : Option (BitVec 16)
  pageMap   : SMap DWord
  pfx       : SMap (BitVec 128)
  tensors   : SMap Tensor
  nandBytes : List Host.Cell
  moves     : List Move
  builds    : List Build
  sched     : SMap Sched
  schedQ    : List SchedWait    -- scheduled moves released and not yet started
  hbmQ      : List HbmWait
  hbmRow    : SMap Nat
  hbmTrr    : SMap (List (Nat × Nat))
  hbmDue    : SMap Nat          -- refreshes due of each HBM bank (R285)
  hbmTrrDue : List (Nat × Nat)
  hbmData   : Bytes             -- the line the last read of a Footing port returned
  hbmPtr    : SMap Nat
  hbmDrain  : List Nat
  hbmTrainTemp : SMap Byte
  retrainReq : List (Nat × Nat)
  retrain   : SMap Retrain
  laneCnt   : SMap Nat
  lineRepair : SMap Nat
  nandSb    : List Superblock
  nandCnt   : SMap Nat          -- leaky counts of the NAND channels (R420)
  nandTemp  : SMap Byte         -- die temperature at the last training of each NAND channel
  plArray   : List Host.Cell
  plEc      : SMap Word
  plMark    : SMap Bool
  plBank0   : PlBank
  plBank1   : PlBank
  plPrefetch : List Nat
  plBranch  : List Nat
  plLast    : Option Nat
  plRead    : Word
  plFetch   : Bytes
  tx        : List (Nat × Bytes)
  conn      : List Conn
  rconn     : List RConn
  rxq       : List Frame
  rops      : List ROp
  nextOpid  : Nat
  putFail   : List ((Nat × Nat × Nat) × BitVec 16 × Nat)   -- puts that failed at an earlier frame: status and offset (R336)
  putOpen   : List (Nat × Nat × Nat)   -- puts of which a frame has been accepted and the last has not
  pausedBy  : List (Nat × Nat)
  pausing   : List (Nat × Nat)
  groutNext : SMap Nat
  groutOff  : List (Nat × Nat)  -- Grout units switched off: port, unit (R422)
  fw        : Fw
  slotKey   : SMap Nat
  nextKey   : Nat
  qnReq     : List QReq
  qnPtr     : Nat
  mctpOut   : List Bytes
  mctpEid   : Byte
  mctpIn    : List (Nat × Nat × Bytes)   -- messages under assembly: endpoint and tag, next packet sequence, bytes
  dbg       : Option (BitVec 256 × Byte)
  dbgUsed   : Bool
  unlocking : Nat               -- debug level that waits for every tenant's removal (R395)
  session   : Option Session
  drainTimer : List Nat
  flrTimer  : List Nat
  cfgRec    : Option CfgRec
  recDue    : List Bytes        -- records still to be written over the three copies (R428)
  pw        : Pw
  subst     : List Subst
  roles     : SMap Nat
  kcSram    : List Host.Cell    -- Keystone SRAM, 8 MiB, Quoin SRAM, 2 MiB, and the translation-layer cache of Quarry,
  qnSram    : List Host.Cell    -- 8 MiB (Table 1.3): no command of the table reads or writes them
  qcCache   : List Host.Cell
deriving DecidableEq, Repr

/-- The machine held in reset: PERST_N low, every register at the reset value of its table (nothing listed in the
register file), memories with nothing listed, and every queue and list empty (R9, R53, R180, R385, R457; assumption 7). -/
def State.reset : State where
  pending := []
  timeNs := 0
  free := 0
  undef := false
  pins := { perstN := false, coolFlowOk := true, thermTrip := false, refclkF := 15, smbReleased := false }
  jtag := { ir := 1, bsr := 0, tdo := 0, driven := false }
  pcie := { linkUp := false, gts := 0, lanes := 0, cfgReady := false, cfg := [], rdData := 0, rdBytes := [],
            ep := false, rrs := false, aer := 0, msix := [], msixTab := [],
            msixPba := [], vfOn := 0 }
  regs := []
  snap := []
  bed := []
  bedPoison := []
  hbm := []
  hbmPoison := []
  hbmKey := []
  hbmReady := false
  marks := []
  markPtr := []
  xlat := []
  wq := []
  jq := []
  ring := []
  relHead := []
  flights := []
  nextFlight := 0
  mapOp := []
  bedPtr := []
  bedDefer := []
  bankOut := []
  spareBad := []
  winHit := []
  unit := []
  errWin := []
  resident := []
  image := []
  libVer := none
  pageMap := []
  pfx := []
  tensors := []
  nandBytes := []
  moves := []
  builds := []
  sched := []
  schedQ := []
  hbmQ := []
  hbmRow := []
  hbmTrr := []
  hbmDue := []
  hbmTrrDue := []
  hbmData := []
  hbmPtr := []
  hbmDrain := []
  hbmTrainTemp := []
  retrainReq := []
  retrain := []
  laneCnt := []
  lineRepair := []
  nandSb := []
  nandCnt := []
  nandTemp := []
  plArray := []
  plEc := []
  plMark := []
  plBank0 := { seq := .read, op := none, held := none }
  plBank1 := { seq := .read, op := none, held := none }
  plPrefetch := []
  plBranch := []
  plLast := none
  plRead := 0
  plFetch := []
  tx := []
  conn := []
  rconn := []
  rxq := []
  rops := []
  nextOpid := 0
  putFail := []
  putOpen := []
  pausedBy := []
  pausing := []
  groutNext := []
  groutOff := []
  fw := { booted := false, verify := none, running := none, cand := none, hbSeen := false, missed := 0,
          absentTimer := false, refused := 0, entered := 0, ended := [], cqSince := [] }
  slotKey := []
  nextKey := 0
  qnReq := []
  qnPtr := 0
  mctpOut := []
  mctpEid := 0
  mctpIn := []
  dbg := none
  dbgUsed := false
  unlocking := 0
  session := none
  drainTimer := []
  flrTimer := []
  cfgRec := none
  recDue := []
  pw := { fastHits := 0, tripHits := 0, atLimit := true, atRelease := true, pend := none, coolArmed := false,
          offArmed := false, domBusy := none, stackTemps := [], frac := 0 }
  subst := []
  roles := []
  kcSram := []
  qnSram := []
  qcCache := []

end Sys2Proof.Machine
end

