-- ==== Sys2Proof/Machine/Regs.lean ====
section
/-! DEFINITION. The register map (R431 to R442 and the register tables of the chapters): where each page lies, each
register's address by name, its width, access code, writable bits, allowed values and reset value; and the one way a
register's stored value is read and written. A register that is a view of other state has its stored entry unused; its
value is computed in Machine/Access.lean. -/

namespace Sys2Proof.Machine

/-- Access codes of Table 0.2. -/
inductive Acc where
  | ro | rw | w1c | wo | rws
deriving DecidableEq, Repr

/-- Security marks of R12: none, "(secure)", "(secure write)". -/
inductive Sec where
  | none | secure | write
deriving DecidableEq, Repr

/-- Reset value of a register: a number, or one of the tables the chapters give. -/
inductive RegReset where
  | val (v : Nat)
  | xmap      -- Table 11.3
  | lat       -- Table 11.4
  | boot      -- Table 16.1
  | dom       -- Table 16.2 (assumption 4)
  | wp        -- R318
deriving DecidableEq, Repr

/-- What a written value must satisfy, else the write is refused (R463). -/
inductive RegOk where
  | any
  | range (lo hi mod : Nat)   -- value mod `mod` from lo to hi
  | align (n : Nat)
  | therm                     -- PWR_THERM_CFG
  | mailbox                   -- QN_MB_CMD
deriving DecidableEq, Repr

/-- One row of a register table: `cnt` registers `stride` apart on each of `pages` pages from `page`, in the
instances `lo` to `hi` of a block. -/
structure Reg where
  blk    : Blk
  lo     : Nat
  hi     : Nat
  page   : Nat
  pages  : Nat
  off    : Nat
  cnt    : Nat
  stride : Nat
  bytes  : Nat
  acc    : Acc
  sec    : Sec
  mask   : Nat
  reset  : RegReset
  ok     : RegOk
deriving DecidableEq, Repr

/-- Where a block's pages lie (Table 18.1): instances, first address, stride, pages of one instance, limit and
upper offset. -/
structure Place where
  blk    : Blk
  count  : Nat
  base   : Nat
  stride : Nat
  pages  : Nat
  limit  : Nat
  upper  : Nat
deriving DecidableEq, Repr

/-- Table 18.1. A limit of 0 stands for none. -/
def placeOf : Blk → Place
  | .dev => { blk := .dev, count := 1, base := 0, stride := 0x1000, pages := 1, limit := 0, upper := 0 }
  | .kc => { blk := .kc, count := 5, base := 0x1000, stride := 0x1000, pages := 1, limit := 0, upper := 0 }
  | .ae => { blk := .ae, count := 34, base := 0x10000, stride := 0x1000, pages := 1, limit := 0x20000, upper := 0x1000000 }
  | .ce => { blk := .ce, count := 18, base := 0x20000, stride := 0x1000, pages := 1, limit := 0x30000, upper := 0x2000000 }
  | .ve => { blk := .ve, count := 9, base := 0x30000, stride := 0x1000, pages := 1, limit := 0x38000, upper := 0x2000000 }
  | .le => { blk := .le, count := 5, base := 0x38000, stride := 0x1000, pages := 1, limit := 0, upper := 0 }
  | .he => { blk := .he, count := 26, base := 0x40000, stride := 0x1000, pages := 1, limit := 0x50000, upper := 0x1000000 }
  | .bed => { blk := .bed, count := 1, base := 0x50000, stride := 0x10000, pages := 16, limit := 0, upper := 0 }
  | .fc => { blk := .fc, count := 8, base := 0x60000, stride := 0x4000, pages := 4, limit := 0, upper := 0 }
  | .qc => { blk := .qc, count := 1, base := 0x80000, stride := 0x10000, pages := 16, limit := 0, upper := 0 }
  | .dp => { blk := .dp, count := 8, base := 0x90000, stride := 0x2000, pages := 2, limit := 0, upper := 0 }
  | .pm => { blk := .pm, count := 1, base := 0xa0000, stride := 0x1000, pages := 1, limit := 0, upper := 0 }
  | .mk => { blk := .mk, count := 1, base := 0xb0000, stride := 0x1000, pages := 1, limit := 0, upper := 0 }
  | .pwr => { blk := .pwr, count := 1, base := 0xc0000, stride := 0x4000, pages := 4, limit := 0, upper := 0 }
  | .qn => { blk := .qn, count := 1, base := 0xd0000, stride := 0x6000, pages := 6, limit := 0, upper := 0 }
  | .pl => { blk := .pl, count := 1, base := 0xe0000, stride := 0x1000, pages := 1, limit := 0, upper := 0 }
  | .cmd => { blk := .cmd, count := 17, base := 0x100000, stride := 0x10000, pages := 16, limit := 0, upper := 0 }

/-- Every block class that owns pages. -/
def allBlks : List Blk :=
  [.dev, .kc, .ae, .ce, .ve, .le, .he, .bed, .fc, .qc, .dp, .pm, .mk, .pwr, .qn, .pl, .cmd]

/-- First address of page p of instance i of a block (R431). -/
def pageAddr (b : Blk) (i p : Nat) : Nat :=
  let pl := placeOf b
  let f := pl.base + i * pl.stride
  (if pl.limit ≠ 0 ∧ pl.limit ≤ f then f + pl.upper else f) + p * 0x1000

/-- Instance and page of a block at a page address F below the limit, or moved up by the upper offset. -/
def pageIn (b : Blk) (a : Nat) : Option (Nat × Nat) :=
  let pl := placeOf b
  let pick (f : Nat) : Option (Nat × Nat) :=
    let i := (f - pl.base) / pl.stride
    let p := (f - pl.base) % pl.stride / 0x1000
    if pl.base ≤ f ∧ i < pl.count ∧ p < pl.pages ∧ pageAddr b i p = a then some (i, p) else none
  (pick a).or (if pl.upper = 0 ∨ a < pl.upper then none else pick (a - pl.upper))

/-- Which page of which block lies at an address, none where the page is unmapped (R432). -/
def pageOf (addr : Nat) : Option (Blk × Nat × Nat) :=
  let a := addr / 0x1000 * 0x1000
  allBlks.findSome? fun b => (pageIn b a).map fun (i, p) => (b, i, p)

/-- Class code, and BLK_CAPS (Table 18.3). -/
def classCode : Blk → Nat
  | .ae => 0x0A01 | .ce => 0x0A02 | .ve => 0x0A03 | .le => 0x0A04 | .he => 0x0A05
  | .bed => 0x0B01 | .fc => 0x0B02 | .qc => 0x0B03 | .pm => 0x0B04 | .mk => 0x0B05
  | .dp => 0x0C01 | .kc => 0x0D01 | .qn => 0x0D02 | .pl => 0x0E01 | .pwr => 0x0E02 | .dev => 0x0F01 | .cmd => 0x0F02

/-- BLK_CAPS of a block (Table 18.3). -/
def blkCaps : Blk → Nat
  | .ae => 0x1701 | .ce => 0x1701 | .ve => 0x1701 | .le => 0x1701 | .he => 0x1701
  | .bed => 0x1610 | .fc => 0x1404 | .qc => 0x1510 | .pm => 0x1401 | .mk => 0x1001
  | .dp => 0x1402 | .kc => 0x0E01 | .qn => 0x0806 | .pl => 0x0801 | .pwr => 0x0804 | .dev => 0x0001 | .cmd => 0x0010

/-! Header registers (Table 18.2); a block keeps one copy, at its page 0 (R433). -/

/-- BLK_ID of instance i of a block. -/
def BLK_ID (b : Blk) (i : Nat) : Nat := pageAddr b i 0 + 0
/-- BLK_VER of instance i of a block. -/
def BLK_VER (b : Blk) (i : Nat) : Nat := pageAddr b i 0 + 4
/-- BLK_CAPS of instance i of a block. -/
def BLK_CAPS (b : Blk) (i : Nat) : Nat := pageAddr b i 0 + 8
/-- BLK_WORLD of instance i of a block. -/
def BLK_WORLD (b : Blk) (i : Nat) : Nat := pageAddr b i 0 + 0xc
/-- BLK_CTL of instance i of a block. -/
def BLK_CTL (b : Blk) (i : Nat) : Nat := pageAddr b i 0 + 0x10
/-- BLK_STAT of instance i of a block. -/
def BLK_STAT (b : Blk) (i : Nat) : Nat := pageAddr b i 0 + 0x14
/-- BLK_ERR of instance i of a block. -/
def BLK_ERR (b : Blk) (i : Nat) : Nat := pageAddr b i 0 + 0x18
/-- BLK_ERR_MASK of instance i of a block. -/
def BLK_ERR_MASK (b : Blk) (i : Nat) : Nat := pageAddr b i 0 + 0x1c
/-- BLK_ERR_CNT of instance i of a block. -/
def BLK_ERR_CNT (b : Blk) (i : Nat) : Nat := pageAddr b i 0 + 0x20
/-- BLK_ERR_WIN of instance i of a block. -/
def BLK_ERR_WIN (b : Blk) (i : Nat) : Nat := pageAddr b i 0 + 0x24
/-- BLK_PWR of instance i of a block. -/
def BLK_PWR (b : Blk) (i : Nat) : Nat := pageAddr b i 0 + 0x28
/-- BLK_CLK of instance i of a block. -/
def BLK_CLK (b : Blk) (i : Nat) : Nat := pageAddr b i 0 + 0x2c

/-! Block-specific registers, by the names of the register tables. -/

/-- R148: [0] busy, [1] resident valid, [2] waiting on a trough, [15:8] tenant, [31:16] RESID. -/
def AE_STATUS (n : Nat) : Nat := pageAddr .ae n 0 + 0x40
/-- R148: [19:0] bytes held in the resident region. -/
def AE_RES_BYTES (n : Nat) : Nat := pageAddr .ae n 0 + 0x44
/-- R148: B address of the resident content. -/
def AE_RES_SRC (n : Nat) : Nat := pageAddr .ae n 0 + 0x48
/-- R148: descriptors completed since PERST_N. -/
def AE_DESC_CNT (n : Nat) : Nat := pageAddr .ae n 0 + 0x50
/-- R148: MACs issued to the array. -/
def AE_MAC_CNT (n : Nat) : Nat := pageAddr .ae n 0 + 0x58
/-- R148: engine cycles running with no slice entering. -/
def AE_STALL_CNT (n : Nat) : Nat := pageAddr .ae n 0 + 0x60
/-- R148: B_RES descriptors that reloaded. -/
def AE_RES_MISS (n : Nat) : Nat := pageAddr .ae n 0 + 0x68
/-- R148: running or last descriptor: TAG, queue, tenant, INDEX. -/
def AE_CUR (n : Nat) : Nat := pageAddr .ae n 0 + 0x70
/-- R178: [0] busy, [1] image valid, [2] waiting, [15:8] tenant, [27:16] steps. -/
def CE_STATUS (n : Nat) : Nat := pageAddr .ce n 0 + 0x40
/-- R178: address of the loaded user image. -/
def CE_UPROG_SRC (n : Nat) : Nat := pageAddr .ce n 0 + 0x48
/-- R178: descriptors completed. -/
def CE_DESC_CNT (n : Nat) : Nat := pageAddr .ce n 0 + 0x50
/-- R178: element-steps issued. -/
def CE_ELEM_CNT (n : Nat) : Nat := pageAddr .ce n 0 + 0x58
/-- R178: stall cycles. -/
def CE_STALL_CNT (n : Nat) : Nat := pageAddr .ce n 0 + 0x60
/-- R178: user-image loads. -/
def CE_UPROG_MISS (n : Nat) : Nat := pageAddr .ce n 0 + 0x68
/-- R178: running or last descriptor. -/
def CE_CUR (n : Nat) : Nat := pageAddr .ce n 0 + 0x70
/-- R178: [15:0] library version. -/
def CE_LIB_VER (n : Nat) : Nat := pageAddr .ce n 0 + 0x78
/-- R178: [15:2] word address in the library store. -/
def CE_LIB_ADDR (n : Nat) : Nat := pageAddr .ce n 0 + 0x7c
/-- R178: library word at CE_LIB_ADDR (computed; a read advances CE_LIB_ADDR). -/
def CE_LIB_DATA (n : Nat) : Nat := pageAddr .ce n 0 + 0x80
/-- R208: [0] busy, [1] allocation or commit, [15:8] tenant, [31:16] entry. -/
def VE_STATUS (n : Nat) : Nat := pageAddr .ve n 0 + 0x40
/-- R208: descriptors completed. -/
def VE_DESC_CNT (n : Nat) : Nat := pageAddr .ve n 0 + 0x50
/-- R208: score and value MACs issued. -/
def VE_MAC_CNT (n : Nat) : Nat := pageAddr .ve n 0 + 0x58
/-- R208: stall cycles. -/
def VE_STALL_CNT (n : Nat) : Nat := pageAddr .ve n 0 + 0x60
/-- R208: group-and-row pairs skipped. -/
def VE_SKIP_CNT (n : Nat) : Nat := pageAddr .ve n 0 + 0x68
/-- R208: running or last descriptor. -/
def VE_CUR (n : Nat) : Nat := pageAddr .ve n 0 + 0x70
/-- R208: entries failed with PAGE_EXHAUSTED. -/
def VE_EXH_CNT (n : Nat) : Nat := pageAddr .ve n 0 + 0x78
/-- R226: [0] busy, [1] writing state, [15:8] tenant, [28:16] stream. -/
def LE_STATUS (n : Nat) : Nat := pageAddr .le n 0 + 0x40
/-- R226: descriptors completed. -/
def LE_DESC_CNT (n : Nat) : Nat := pageAddr .le n 0 + 0x50
/-- R226: channel-position updates issued. -/
def LE_UPD_CNT (n : Nat) : Nat := pageAddr .le n 0 + 0x58
/-- R226: stall cycles. -/
def LE_STALL_CNT (n : Nat) : Nat := pageAddr .le n 0 + 0x60
/-- R226: reset flags applied. -/
def LE_RST_CNT (n : Nat) : Nat := pageAddr .le n 0 + 0x68
/-- R226: running or last descriptor. -/
def LE_CUR (n : Nat) : Nat := pageAddr .le n 0 + 0x70
/-- R226: descriptors dispatched after an on-demand move. -/
def LE_STMOVE_CNT (n : Nat) : Nat := pageAddr .le n 0 + 0x78
/-- R246: [0] busy, [1] waiting, [2] transposition, [15:8] tenant, [19:16] CLASS, [31:24] OP. -/
def HE_STATUS (n : Nat) : Nat := pageAddr .he n 0 + 0x40
/-- R246: descriptors completed. -/
def HE_DESC_CNT (n : Nat) : Nat := pageAddr .he n 0 + 0x50
/-- R246: lines read. -/
def HE_RD_LINES (n : Nat) : Nat := pageAddr .he n 0 + 0x58
/-- R246: lines written. -/
def HE_WR_LINES (n : Nat) : Nat := pageAddr .he n 0 + 0x60
/-- R246: stall cycles. -/
def HE_STALL_CNT (n : Nat) : Nat := pageAddr .he n 0 + 0x68
/-- R246: running or last descriptor. -/
def HE_CUR (n : Nat) : Nat := pageAddr .he n 0 + 0x70
/-- R246: out-of-range index uses. -/
def HE_IDX_RANGE_CNT (n : Nat) : Nat := pageAddr .he n 0 + 0x78
/-- R95: [0] force_strict, [1] scrub_en. -/
def BED_MODE : Nat := pageAddr .bed 0 0 + 0x40
/-- R95: [15:0] seconds per patrol pass, 1 to 65,535. -/
def BED_SCRUB_INT : Nat := pageAddr .bed 0 0 + 0x44
/-- R95: [15:0] corrected errors per window that retire a bank. -/
def BED_CE_THRESH : Nat := pageAddr .bed 0 0 + 0x48
/-- R95: conflict events since PERST_N. -/
def BED_CONFLICT_CNT : Nat := pageAddr .bed 0 0 + 0x50
/-- R95: last conflict event. -/
def BED_CONFLICT_LOG : Nat := pageAddr .bed 0 0 + 0x58
/-- R95: last poisoned line read, count. -/
def BED_POISON_LOG : Nat := pageAddr .bed 0 0 + 0x60
/-- R95: spare of group s: VALID, COPYING, mapped bank. -/
def BED_REMAP (i : Nat) : Nat := pageAddr .bed 0 1 + 0x40 + i * 4
/-- R95: corrected-error counts of banks 2w, 2w+1. -/
def BED_CEC (i : Nat) : Nat := pageAddr .bed 0 2 + 0x40 + i * 4
/-- R95: [27:6] physical Bed offset. -/
def BED_TR_BASE (i : Nat) : Nat := pageAddr .bed 0 (8 + i / 32) + 0x40 + i % 32 * 0x40
/-- R95: enable, DEPTH, RECLINES, owner. -/
def BED_TR_CFG (i : Nat) : Nat := pageAddr .bed 0 (8 + i / 32) + 0x44 + i % 32 * 0x40
/-- R95: class code, instance. -/
def BED_TR_PROD (i : Nat) : Nat := pageAddr .bed 0 (8 + i / 32) + 0x48 + i % 32 * 0x40
/-- R95: class code, instance. -/
def BED_TR_CONS (i : Nat) : Nat := pageAddr .bed 0 (8 + i / 32) + 0x4c + i % 32 * 0x40
/-- R95: value of mark 61,440+2n (computed). -/
def BED_TR_TAIL (i : Nat) : Nat := pageAddr .bed 0 (8 + i / 32) + 0x50 + i % 32 * 0x40
/-- R95: value of mark 61,441+2n (computed). -/
def BED_TR_HEAD (i : Nat) : Nat := pageAddr .bed 0 (8 + i / 32) + 0x58 + i % 32 * 0x40
/-- R95: empty, full, producer waiting, consumer waiting, [4] aborted (W1C). -/
def BED_TR_STAT (i : Nat) : Nat := pageAddr .bed 0 (8 + i / 32) + 0x60 + i % 32 * 0x40
/-- R209: entries in STATE 0 (computed). -/
def PM_FREE : Nat := pageAddr .pm 0 0 + 0x40
/-- R209: valid Prefix Table entries (computed). -/
def PT_VALID : Nat := pageAddr .pm 0 0 + 0x44
/-- R209: publishes refused for a full set. -/
def PT_FULL_CNT : Nat := pageAddr .pm 0 0 + 0x48
/-- R209: [21:0] Page Map index to read. -/
def PM_RD_IDX : Nat := pageAddr .pm 0 0 + 0x50
/-- R209: entry at PM_RD_IDX (computed). -/
def PM_RD_DATA : Nat := pageAddr .pm 0 0 + 0x58
/-- R209: [19:0] Prefix Table index. -/
def PT_RD_IDX : Nat := pageAddr .pm 0 0 + 0x60
/-- R209: bits [63:0] of the entry (computed). -/
def PT_RD_LO : Nat := pageAddr .pm 0 0 + 0x68
/-- R209: bits [127:64] of the entry (computed). -/
def PT_RD_HI : Nat := pageAddr .pm 0 0 + 0x70
/-- R209: words of tenant t SipHash key (4 per tenant). -/
def PT_KEY (i : Nat) : Nat := pageAddr .pm 0 0 + 0x100 + i * 4
/-- R209: [21:0] pool head, [45:24] count (computed); index 9t+k. -/
def PM_POOL (i : Nat) : Nat := pageAddr .pm 0 0 + 0x200 + i * 8
/-- R276: descriptors, moves, intakes in progress (computed). -/
def QC_STATUS : Nat := pageAddr .qc 0 0 + 0x40
/-- R276: [0] enable. -/
def QC_SCRUB_CTL : Nat := pageAddr .qc 0 0 + 0x44
/-- R276: [23:0] seconds per pass, 3,600 to 16,777,215. -/
def QC_SCRUB_INT : Nat := pageAddr .qc 0 0 + 0x48
/-- R276: [15:0] MB/s, 1 to 65,535. -/
def QC_SCRUB_RATE : Nat := pageAddr .qc 0 0 + 0x4c
/-- R276: scrubs completed. -/
def QC_SCRUB_CNT : Nat := pageAddr .qc 0 0 + 0x50
/-- R276: scrub mismatches. -/
def QC_SCRUB_FAIL : Nat := pageAddr .qc 0 0 + 0x58
/-- R276: last poisoned handle. -/
def QC_POISON_LOG : Nat := pageAddr .qc 0 0 + 0x60
/-- R276: moves completed. -/
def QC_MOVE_CNT : Nat := pageAddr .qc 0 0 + 0x68
/-- R276: intakes committed. -/
def QC_INTAKE_CNT : Nat := pageAddr .qc 0 0 + 0x70
/-- R276: intakes ended by a fault. -/
def QC_INTAKE_FAIL : Nat := pageAddr .qc 0 0 + 0x78
/-- R276: BED quota. -/
def QC_QBED (i : Nat) : Nat := pageAddr .qc 0 1 + 0x40 + i * 0x20
/-- R276: HBM quota. -/
def QC_QHBM (i : Nat) : Nat := pageAddr .qc 0 1 + 0x44 + i * 0x20
/-- R276: NAND quota. -/
def QC_QNAND (i : Nat) : Nat := pageAddr .qc 0 1 + 0x48 + i * 0x20
/-- R276: PM quota. -/
def QC_QPM (i : Nat) : Nat := pageAddr .qc 0 1 + 0x4c + i * 0x20
/-- R276: PT quota. -/
def QC_QPT (i : Nat) : Nat := pageAddr .qc 0 1 + 0x50 + i * 0x20
/-- R276: BED usage (computed). -/
def QC_UBED (i : Nat) : Nat := pageAddr .qc 0 2 + 0x40 + i * 0x20
/-- R276: HBM usage (computed). -/
def QC_UHBM (i : Nat) : Nat := pageAddr .qc 0 2 + 0x44 + i * 0x20
/-- R276: NAND usage (computed). -/
def QC_UNAND (i : Nat) : Nat := pageAddr .qc 0 2 + 0x48 + i * 0x20
/-- R276: PM usage (computed). -/
def QC_UPM (i : Nat) : Nat := pageAddr .qc 0 2 + 0x4c + i * 0x20
/-- R276: PT usage (computed). -/
def QC_UPT (i : Nat) : Nat := pageAddr .qc 0 2 + 0x50 + i * 0x20
/-- R276: [0] MODE. -/
def QC_TMODE (i : Nat) : Nat := pageAddr .qc 0 3 + 0x40 + i * 0x40
/-- R276: ring base, 32-byte aligned. -/
def QC_SCHED_BASE (i : Nat) : Nat := pageAddr .qc 0 3 + 0x48 + i * 0x40
/-- R276: [15:0] entries, 1 to 65,535. -/
def QC_SCHED_LEN (i : Nat) : Nat := pageAddr .qc 0 3 + 0x50 + i * 0x40
/-- R276: [3:0] moves at once, 1 to 8. -/
def QC_SCHED_DEPTH (i : Nat) : Nat := pageAddr .qc 0 3 + 0x54 + i * 0x40
/-- R276: [47:0] target increment per pass. -/
def QC_SCHED_INC (i : Nat) : Nat := pageAddr .qc 0 3 + 0x58 + i * 0x40
/-- R276: [0] enable, [1] resume, [2] disable. -/
def QC_SCHED_CTL (i : Nat) : Nat := pageAddr .qc 0 3 + 0x60 + i * 0x40
/-- R276: [1:0] state, [31:16] current entry. -/
def QC_SCHED_STAT (i : Nat) : Nat := pageAddr .qc 0 3 + 0x64 + i * 0x40
/-- R276: passes completed. -/
def QC_SCHED_PASS (i : Nat) : Nat := pageAddr .qc 0 3 + 0x68 + i * 0x40
/-- R320: [0] ready, [1] erase backlog, [2] ro, [31:16] channels in service. -/
def QC_NAND_STATUS : Nat := pageAddr .qc 0 8 + 0x40
/-- R320: [15:0] erase-count spread, 50 to 5,000. -/
def QC_NAND_WL_DELTA : Nat := pageAddr .qc 0 8 + 0x44
/-- R320: [23:0] reads per block, 10,000 to 1,000,000. -/
def QC_NAND_RD_THRESH : Nat := pageAddr .qc 0 8 + 0x48
/-- R320: [31:0] lowest, [63:32] highest block erase count. -/
def QC_NAND_EC : Nat := pageAddr .qc 0 8 + 0x50
/-- R320: [15:0] mean erase count share in 0.01 %. -/
def QC_NAND_LIFE : Nat := pageAddr .qc 0 8 + 0x58
/-- R320: 64 KiB units written by moves. -/
def QC_NAND_USER_WR : Nat := pageAddr .qc 0 8 + 0x60
/-- R320: 64 KiB units written to the dies. -/
def QC_NAND_MEDIA_WR : Nat := pageAddr .qc 0 8 + 0x68
/-- R320: wear relocations. -/
def QC_NAND_WL_CNT : Nat := pageAddr .qc 0 8 + 0x70
/-- R320: read-disturb copies. -/
def QC_NAND_RD_RELOC : Nat := pageAddr .qc 0 8 + 0x78
/-- R320: undecodable codewords. -/
def QC_NAND_UEC : Nat := pageAddr .qc 0 8 + 0x80
/-- R320: [31:0] blocks retired, [63:32] spares left. -/
def QC_NAND_RETIRED : Nat := pageAddr .qc 0 8 + 0x88
/-- R320: [0] trained, [1] out of service, [15:8] die temperature. -/
def QC_NCH_STAT (i : Nat) : Nat := pageAddr .qc 0 9 + 0x40 + i * 0x20
/-- R320: read DQ, write DQ centre, duty-cycle code. -/
def QC_NCH_TRN (i : Nat) : Nat := pageAddr .qc 0 9 + 0x44 + i * 0x20
/-- R320: codewords corrected without retry. -/
def QC_NCH_CEC (i : Nat) : Nat := pageAddr .qc 0 9 + 0x48 + i * 0x20
/-- R320: codewords corrected after retry. -/
def QC_NCH_RETRY (i : Nat) : Nat := pageAddr .qc 0 9 + 0x50 + i * 0x20
/-- R296: trained, retraining, channel, hot, degraded, temperature, bitmap. -/
def FC_STATUS (n : Nat) : Nat := pageAddr .fc n 0 + 0x40
/-- R296: [0] scrub_en, [1] auto_retrain. -/
def FC_CTL (n : Nat) : Nat := pageAddr .fc n 0 + 0x44
/-- R296: [15:0] seconds per patrol pass, 1 to 65,535. -/
def FC_SCRUB_INT (n : Nat) : Nat := pageAddr .fc n 0 + 0x48
/-- R296: [15:0] activates, 256 to 16,384. -/
def FC_TRR_THRESH (n : Nat) : Nat := pageAddr .fc n 0 + 0x4c
/-- R296: [6:0] window [ms], 1 to 64. -/
def FC_TRR_WIN (n : Nat) : Nat := pageAddr .fc n 0 + 0x50
/-- R296: [3:0] channel, [8] start. -/
def FC_RETRAIN (n : Nat) : Nat := pageAddr .fc n 0 + 0x54
/-- R296: [1:0] state, [7:4] channel, [31:16] windows done. -/
def FC_RETRAIN_STAT (n : Nat) : Nat := pageAddr .fc n 0 + 0x58
/-- R296: corrected errors. -/
def FC_CEC (n : Nat) : Nat := pageAddr .fc n 0 + 0x60
/-- R296: lines poisoned. -/
def FC_UEC (n : Nat) : Nat := pageAddr .fc n 0 + 0x68
/-- R296: on-die corrections. -/
def FC_ODECC_CNT (n : Nat) : Nat := pageAddr .fc n 0 + 0x70
/-- R296: targeted refreshes. -/
def FC_TRR_CNT (n : Nat) : Nat := pageAddr .fc n 0 + 0x78
/-- R296: physical offset of the last poisoned line. -/
def FC_POISON_LOG (n : Nat) : Nat := pageAddr .fc n 0 + 0x80
/-- R296: parity errors. -/
def FC_PAR_CNT (n : Nat) : Nat := pageAddr .fc n 0 + 0x88
/-- R296: [15:0] corrected errors in the window, per channel. -/
def FC_CECCH (n i : Nat) : Nat := pageAddr .fc n 0 + 0x90 + i * 4
/-- R296: select mask i. -/
def FC_XMAP (i : Nat) : Nat := pageAddr .fc 0 1 + 0x40 + i * 8
/-- R296: [0] locked. -/
def FC_MAP_LOCK : Nat := pageAddr .fc 0 1 + 0xa0
/-- R296: [15:0] target [ns], 50 to 65,535. -/
def FC_LAT (n i : Nat) : Nat := pageAddr .fc n 1 + 0x100 + i * 4
/-- R296: requests completed past target. -/
def FC_LATMISS (n i : Nat) : Nat := pageAddr .fc n 1 + 0x140 + i * 8
/-- R296: read centre/width, write centre/width, below minimum; index ch*9+l. -/
def FC_TRN (n i : Nat) : Nat := pageAddr .fc n 2 + 0x40 + i * 4
/-- R296: PC0/PC1 repaired, lanes. -/
def FC_REPAIR (n i : Nat) : Nat := pageAddr .fc n 3 + 0x40 + i * 4
/-- R349: link, autoneg done, training done, FEC lock, paused by peer, pausing. -/
def DP_STATUS (n : Nat) : Nat := pageAddr .dp n 0 + 0x40
/-- R349: [0] enable, [1] media, [2] auto-negotiation enable. -/
def DP_CTL (n : Nat) : Nat := pageAddr .dp n 0 + 0x44
/-- R349: [18:0] free bytes that trigger a pause. -/
def DP_PFC_XOFF (n : Nat) : Nat := pageAddr .dp n 0 + 0x48
/-- R349: [18:0] free bytes that end a pause; must exceed XOFF. -/
def DP_PFC_XON (n : Nat) : Nat := pageAddr .dp n 0 + 0x4c
/-- R349: frames sent. -/
def DP_TX_FRAMES (n : Nat) : Nat := pageAddr .dp n 0 + 0x50
/-- R349: frames accepted. -/
def DP_RX_FRAMES (n : Nat) : Nat := pageAddr .dp n 0 + 0x58
/-- R349: frames retransmitted. -/
def DP_RETX (n : Nat) : Nat := pageAddr .dp n 0 + 0x60
/-- R349: operations ended with REMOTE_TIMEOUT. -/
def DP_TIMEOUT_CNT (n : Nat) : Nat := pageAddr .dp n 0 + 0x68
/-- R349: frames discarded under R328 or R347. -/
def DP_DAMAGED_CNT (n : Nat) : Nat := pageAddr .dp n 0 + 0x70
/-- R349: frames discarded under R342. -/
def DP_AUTH_FAIL (n : Nat) : Nat := pageAddr .dp n 0 + 0x78
/-- R349: FEC codewords corrected. -/
def DP_FEC_CORR (n : Nat) : Nat := pageAddr .dp n 0 + 0x80
/-- R349: FEC codewords uncorrectable. -/
def DP_FEC_UNCORR (n : Nat) : Nat := pageAddr .dp n 0 + 0x88
/-- R349: frames discarded under R322. -/
def DP_FOREIGN_CNT (n : Nat) : Nat := pageAddr .dp n 0 + 0x90
/-- R349: requests answered TENANT_GONE. -/
def DP_GONE_CNT (n : Nat) : Nat := pageAddr .dp n 0 + 0x98
/-- R349: [18:0] bytes queued at Grout unit 0. -/
def DP_GROUT0_Q (n : Nat) : Nat := pageAddr .dp n 0 + 0xa0
/-- R349: [18:0] bytes queued at Grout unit 1. -/
def DP_GROUT1_Q (n : Nat) : Nat := pageAddr .dp n 0 + 0xa4
/-- R349: [11:0] own chip ID, [31] VALID. -/
def DP_CHIP_ID : Nat := pageAddr .dp 0 1 + 0x40
/-- R349: [15:0] EtherType. -/
def DP_ETYPE : Nat := pageAddr .dp 0 1 + 0x44
/-- R349: [23:0] first three MAC octets. -/
def DP_MAC_PFX : Nat := pageAddr .dp 0 1 + 0x48
/-- R349: [11:0] VLAN ID, 1 to 4,094. -/
def DP_VID : Nat := pageAddr .dp 0 1 + 0x4c
/-- R349: [6:0] acknowledgement timer [us], 1 to 64. -/
def DP_ACK_TO : Nat := pageAddr .dp 0 1 + 0x50
/-- R349: [0] comp, [1] ratio, [2] efmt. -/
def DP_TC_CFG (i : Nat) : Nat := pageAddr .dp 0 1 + 0x58 + i * 4
/-- R349: [15:0] FTID, [16] valid, [17] enc. -/
def DP_FTID (i : Nat) : Nat := pageAddr .dp 0 1 + 0x80 + i * 8
/-- R349: words of tenant t AES-256 key (8 per tenant). -/
def DP_KEY (i : Nat) : Nat := pageAddr .dp 0 1 + 0x100 + i * 4
/-- R349: words of the fabric key. -/
def DP_FKEY (i : Nat) : Nat := pageAddr .dp 0 1 + 0x300 + i * 4
/-- R440: signals applied. -/
def MK_SIG_CNT : Nat := pageAddr .mk 0 0 + 0x40
/-- R440: signals applied from a Dziura port. -/
def MK_REMOTE_CNT : Nat := pageAddr .mk 0 0 + 0x48
/-- R440: descriptors released. -/
def MK_RELEASE_CNT : Nat := pageAddr .mk 0 0 + 0x50
/-- R440: [16:0] descriptors now waiting (computed). -/
def MK_WAITING : Nat := pageAddr .mk 0 0 + 0x58
/-- R440: [15:0] absolute mark number. -/
def MK_RD_IDX : Nat := pageAddr .mk 0 0 + 0x60
/-- R440: value of mark MK_RD_IDX (computed). -/
def MK_RD_DATA : Nat := pageAddr .mk 0 0 + 0x68
/-- R440: replaces the value of mark MK_RD_IDX. -/
def MK_WR_DATA : Nat := pageAddr .mk 0 0 + 0x70
/-- R440: [15:0] first mark, [31:16] count. -/
def MK_WIN (i : Nat) : Nat := pageAddr .mk 0 0 + 0x100 + i * 4
/-- R419: [10:0] cap [W], 300 to 1,100. -/
def PWR_CAP : Nat := pageAddr .pwr 0 0 + 0x40
/-- R419: share, saturated, thermal, fast, coolant, trip, COOL_FLOW_OK. -/
def PWR_STATUS : Nat := pageAddr .pwr 0 0 + 0x44
/-- R419: [10:0] effective cap, [26:16] thermal cap. -/
def PWR_EFF_CAP : Nat := pageAddr .pwr 0 0 + 0x48
/-- R419: [10:0] fast limit [W], 950 to 1,450. -/
def PWR_FAST_W : Nat := pageAddr .pwr 0 0 + 0x4c
/-- R419: P_dem, P_b, measured chip power. -/
def PWR_EST : Nat := pageAddr .pwr 0 0 + 0x50
/-- R419: energy since PERST_N [uJ]. -/
def PWR_ENERGY : Nat := pageAddr .pwr 0 0 + 0x58
/-- R419: estimate correction, Q16. -/
def PWR_EST_CORR : Nat := pageAddr .pwr 0 0 + 0x60
/-- R419: [9:0] target [mV], [25:16] sensed [mV]. -/
def PWR_VTARGET : Nat := pageAddr .pwr 0 0 + 0x64
/-- R419: [11:0] signed 0.125 C, [21:16] sensor. -/
def PWR_TJ : Nat := pageAddr .pwr 0 0 + 0x68
/-- R419: [7:0] limit [C], [15:8] release [C]. -/
def PWR_THERM_CFG : Nat := pageAddr .pwr 0 0 + 0x6c
/-- R419: coolant, junction trip, CATTRIP, stack, sensor (RWS). -/
def PWR_STOP_LOG : Nat := pageAddr .pwr 0 0 + 0x70
/-- R419: [6:0] droop threshold [mV], 20 to 100. -/
def PWR_DROOP_MV : Nat := pageAddr .pwr 0 0 + 0x74
/-- R419: [11:0] target [MHz]. -/
def PWR_FSET (i : Nat) : Nat := pageAddr .pwr 0 1 + 0x40 + i * 8
/-- R419: current, ramping, frozen, droop flag, waiting, droops. -/
def PWR_FSTAT (i : Nat) : Nat := pageAddr .pwr 0 1 + 0x44 + i * 8
/-- R419: [0] on, [1] powered, [2] switching. -/
def PWR_DOM (i : Nat) : Nat := pageAddr .pwr 0 2 + 0x40 + i * 8
/-- R419: [15:0] current [0.1 A]. -/
def PWR_DOM_I (i : Nat) : Nat := pageAddr .pwr 0 2 + 0x44 + i * 8
/-- R419: [11:0] signed, 0.125 C. -/
def PWR_TS (i : Nat) : Nat := pageAddr .pwr 0 3 + 0x40 + i * 4
/-- R397: [15:0] command, [24:16] payload length, 0 to 256. -/
def QN_MB_CMD : Nat := pageAddr .qn 0 0 + 0x40
/-- R397: [0] go. -/
def QN_MB_CTL : Nat := pageAddr .qn 0 0 + 0x44
/-- R397: [0] busy, [15:8] result, [24:16] response length. -/
def QN_MB_STAT : Nat := pageAddr .qn 0 0 + 0x48
/-- R397: payload in, response out (64 words). -/
def QN_MB_DATA (i : Nat) : Nat := pageAddr .qn 0 0 + 0x100 + i * 4
/-- R397: [15:0] command, [24:16] payload length, 0 to 256. -/
def QN_MB_CMD_S : Nat := pageAddr .qn 0 1 + 0x40
/-- R397: [0] go. -/
def QN_MB_CTL_S : Nat := pageAddr .qn 0 1 + 0x44
/-- R397: [0] busy, [15:8] result, [24:16] response length. -/
def QN_MB_STAT_S : Nat := pageAddr .qn 0 1 + 0x48
/-- R397: payload in, response out (64 words). -/
def QN_MB_DATA_S (i : Nat) : Nat := pageAddr .qn 0 1 + 0x100 + i * 4
/-- R397: region entry i of tier (index 256 x tier + i: Bed, HBM, NAND). -/
def QN_RGN (i : Nat) : Nat := pageAddr .qn 0 (2 + i / 256) + 0x40 + i % 256 * 8
/-- R397: [1:0] debug level, [2] host_tenant, [3] image slot. -/
def QN_STATUS : Nat := pageAddr .qn 0 5 + 0x40
/-- R397: [0] host_tenant. -/
def QN_POLICY : Nat := pageAddr .qn 0 5 + 0x44
/-- R397: minimum SVN from the configuration records. -/
def QN_MIN_SVN : Nat := pageAddr .qn 0 5 + 0x48
/-- R397: [1:0] slot state, [31:16] FTID. -/
def QN_TSTAT (i : Nat) : Nat := pageAddr .qn 0 5 + 0x80 + i * 4
/-- R397: [15:0] units in flight under slot t (computed). -/
def QN_DRAIN (i : Nat) : Nat := pageAddr .qn 0 5 + 0xc0 + i * 4
/-- R397: units reset under R389. -/
def QN_RESET_CNT : Nat := pageAddr .qn 0 5 + 0x100
/-- R430: record outcome, valid copies, copies rewritten, SEQ. -/
def QN_CFG_STAT : Nat := pageAddr .qn 0 5 + 0x108
/-- R320: [0] scan done, [1] prefetch, [2] branch cache, [15:8] indeterminate blocks. -/
def PL_STATUS : Nat := pageAddr .pl 0 0 + 0x40
/-- R320: [0] prefetch enable, [1] branch cache enable. -/
def PL_XIP_CTL : Nat := pageAddr .pl 0 0 + 0x44
/-- R320: status word of bank 0. -/
def PL_BANK0_STAT : Nat := pageAddr .pl 0 0 + 0x48
/-- R320: status word of bank 1. -/
def PL_BANK1_STAT : Nat := pageAddr .pl 0 0 + 0x4c
/-- R320: [25:0] offset, [30] indet, [31] valid. -/
def PL_FAULT_ADDR : Nat := pageAddr .pl 0 0 + 0x50
/-- R320: [8:0] block, [31] set by R315 (W1C). -/
def PL_RD_INDET : Nat := pageAddr .pl 0 0 + 0x54
/-- R320: [8:0] block. -/
def PL_EC_IDX : Nat := pageAddr .pl 0 0 + 0x58
/-- R320: erase count, incomplete, kind, protected (computed). -/
def PL_EC_DATA : Nat := pageAddr .pl 0 0 + 0x60
/-- R320: fetches served from buffers. -/
def PL_XIP_HIT : Nat := pageAddr .pl 0 0 + 0x68
/-- R320: fetches served from the array. -/
def PL_XIP_MISS : Nat := pageAddr .pl 0 0 + 0x70
/-- R320: bit j: block 32w+j indeterminate. -/
def PL_INDET (i : Nat) : Nat := pageAddr .pl 0 0 + 0x80 + i * 4
/-- R320: bit j: block 32w+j write-protected (write 1 only). -/
def PL_WP (i : Nat) : Nat := pageAddr .pl 0 0 + 0xc0 + i * 4
/-- R378: hardware; writes entered. -/
def CMD_WARRIVE (n : Nat) : Nat := pageAddr .cmd n 0 + 0x40
/-- R378: writes applied. -/
def CMD_WDONE (n : Nat) : Nat := pageAddr .cmd n 0 + 0x44
/-- R378: hardware; writes discarded, saturating. -/
def CMD_WDROP (n : Nat) : Nat := pageAddr .cmd n 0 + 0x48
/-- R378: hardware; [15:0] WIN_OFF, [16] space. -/
def CMD_WIN_BASE (n : Nat) : Nat := pageAddr .cmd n 0 + 0x50
/-- R378: interface version of the running firmware. -/
def CMD_IFVER : Nat := pageAddr .cmd 16 0 + 0x80
/-- R378: [3:0] state, [7:4] err, [11:8] upd. -/
def CMD_FW_STAT : Nat := pageAddr .cmd 16 0 + 0x84
/-- R378: IMGVER of the running image. -/
def CMD_FW_IMGVER : Nat := pageAddr .cmd 16 0 + 0x88
/-- R378: [24:0] image bytes. -/
def CMD_FW_LEN : Nat := pageAddr .cmd 16 0 + 0x8c
/-- R378: [0] load, [1] update, [2] adopt, [3] reset. -/
def CMD_FW_CTL : Nat := pageAddr .cmd 16 0 + 0x90
/-- R378: [15:0] activation timeout [ms], 10 to 60,000. -/
def CMD_FW_UPD_TO : Nat := pageAddr .cmd 16 0 + 0x94
/-- R378: any value; coalescing. -/
def CMD_HEARTBEAT : Nat := pageAddr .cmd 16 0 + 0x98
/-- R378: [7:0] miss, 1 to 255. -/
def CMD_HB_CFG : Nat := pageAddr .cmd 16 0 + 0x9c
/-- R378: physical HBM offset of the survivor area. -/
def CMD_SURV_ADDR : Nat := pageAddr .cmd 16 0 + 0xa0
/-- R66: ring base. -/
def CMD_JQ_BASE (n i : Nat) : Nat := pageAddr .cmd n 1 + 0x40 + i * 0x20
/-- R66: [4:0] log2 of entries, 6 to 16. -/
def CMD_JQ_SIZE (n i : Nat) : Nat := pageAddr .cmd n 1 + 0x48 + i * 0x20
/-- R66: doorbell; [15:0] next free entry. -/
def CMD_JQ_TAIL (n i : Nat) : Nat := pageAddr .cmd n 1 + 0x4c + i * 0x20
/-- R66: [15:0] next descriptor to dispatch. -/
def CMD_JQ_HEAD (n i : Nat) : Nat := pageAddr .cmd n 1 + 0x50 + i * 0x20
/-- R66: [1:0] state, [31:16] faulting index. -/
def CMD_JQ_STAT (n i : Nat) : Nat := pageAddr .cmd n 1 + 0x54 + i * 0x20
/-- R66: [0] enable, [1] resume, [2] discard, [3] disable. -/
def CMD_JQ_CTL (n i : Nat) : Nat := pageAddr .cmd n 1 + 0x58 + i * 0x20
/-- R66: ring base. -/
def CMD_CQ_BASE (n : Nat) : Nat := pageAddr .cmd n 1 + 0x140
/-- R66: [4:0] log2 of entries, 6 to 16. -/
def CMD_CQ_SIZE (n : Nat) : Nat := pageAddr .cmd n 1 + 0x148
/-- R66: [15:0] next record to be read. -/
def CMD_CQ_HEAD (n : Nat) : Nat := pageAddr .cmd n 1 + 0x14c
/-- R66: [15:0] next record the XW-7 will write. -/
def CMD_CQ_TAIL (n : Nat) : Nat := pageAddr .cmd n 1 + 0x150
/-- R66: ring base. -/
def CMD_EQ_BASE (n : Nat) : Nat := pageAddr .cmd n 1 + 0x160
/-- R66: [4:0] log2 of entries, 6 to 16. -/
def CMD_EQ_SIZE (n : Nat) : Nat := pageAddr .cmd n 1 + 0x168
/-- R66: [15:0] next record to be read. -/
def CMD_EQ_HEAD (n : Nat) : Nat := pageAddr .cmd n 1 + 0x16c
/-- R66: [15:0] next record the XW-7 will write. -/
def CMD_EQ_TAIL (n : Nat) : Nat := pageAddr .cmd n 1 + 0x170
/-- R66: [10:0] MSI-X vector. -/
def CMD_EQ_VEC (n : Nat) : Nat := pageAddr .cmd n 1 + 0x174
/-- R66: first mark of the window (reads MK_WINt). -/
def CMD_MARK_BASE (n : Nat) : Nat := pageAddr .cmd n 1 + 0x180
/-- R66: marks in the window (reads MK_WINt). -/
def CMD_MARK_COUNT (n : Nat) : Nat := pageAddr .cmd n 1 + 0x184
/-- R69: [47:0] tenant offset, multiple of 64 KiB. -/
def CMD_MAP_OFF (n : Nat) : Nat := pageAddr .cmd n 2 + 0x40
/-- R69: [47:0] bytes, multiple of 64 KiB. -/
def CMD_MAP_LEN (n : Nat) : Nat := pageAddr .cmd n 2 + 0x48
/-- R69: [1:0] operation, [2] space, [3] RO. -/
def CMD_MAP_CTL (n : Nat) : Nat := pageAddr .cmd n 2 + 0x50
/-- R69: [0] busy, [31:16] status. -/
def CMD_MAP_STAT (n : Nat) : Nat := pageAddr .cmd n 2 + 0x54
/-- R69: map and unmap operations ended. -/
def CMD_MAP_DONE (n : Nat) : Nat := pageAddr .cmd n 2 + 0x58

/-- Register rows of the block class `ae`. -/
def rowsAe : List Reg :=
  [⟨.ae, 0, 33, 0, 1, 0x40, 1, 4, 4, .ro, .none, 0, .val 0, .any⟩,
   ⟨.ae, 0, 33, 0, 1, 0x44, 1, 4, 4, .ro, .none, 0, .val 0, .any⟩,
   ⟨.ae, 0, 33, 0, 1, 0x48, 1, 8, 8, .ro, .none, 0, .val 0, .any⟩,
   ⟨.ae, 0, 33, 0, 1, 0x50, 1, 8, 8, .ro, .none, 0, .val 0, .any⟩,
   ⟨.ae, 0, 33, 0, 1, 0x58, 1, 8, 8, .ro, .none, 0, .val 0, .any⟩,
   ⟨.ae, 0, 33, 0, 1, 0x60, 1, 8, 8, .ro, .none, 0, .val 0, .any⟩,
   ⟨.ae, 0, 33, 0, 1, 0x68, 1, 8, 8, .ro, .none, 0, .val 0, .any⟩,
   ⟨.ae, 0, 33, 0, 1, 0x70, 1, 8, 8, .ro, .none, 0, .val 0, .any⟩]

/-- Register rows of the block class `ce`. -/
def rowsCe : List Reg :=
  [⟨.ce, 0, 17, 0, 1, 0x40, 1, 4, 4, .ro, .none, 0, .val 0, .any⟩,
   ⟨.ce, 0, 17, 0, 1, 0x48, 1, 8, 8, .ro, .none, 0, .val 0, .any⟩,
   ⟨.ce, 0, 17, 0, 1, 0x50, 1, 8, 8, .ro, .none, 0, .val 0, .any⟩,
   ⟨.ce, 0, 17, 0, 1, 0x58, 1, 8, 8, .ro, .none, 0, .val 0, .any⟩,
   ⟨.ce, 0, 17, 0, 1, 0x60, 1, 8, 8, .ro, .none, 0, .val 0, .any⟩,
   ⟨.ce, 0, 17, 0, 1, 0x68, 1, 8, 8, .ro, .none, 0, .val 0, .any⟩,
   ⟨.ce, 0, 17, 0, 1, 0x70, 1, 8, 8, .ro, .none, 0, .val 0, .any⟩,
   ⟨.ce, 0, 17, 0, 1, 0x78, 1, 4, 4, .ro, .none, 0, .val 0, .any⟩,
   ⟨.ce, 0, 17, 0, 1, 0x7c, 1, 4, 4, .rw, .none, 0xfffc, .val 0, .any⟩,
   ⟨.ce, 0, 17, 0, 1, 0x80, 1, 4, 4, .ro, .none, 0, .val 0, .any⟩]

/-- Register rows of the block class `ve`. -/
def rowsVe : List Reg :=
  [⟨.ve, 0, 8, 0, 1, 0x40, 1, 4, 4, .ro, .none, 0, .val 0, .any⟩,
   ⟨.ve, 0, 8, 0, 1, 0x50, 1, 8, 8, .ro, .none, 0, .val 0, .any⟩,
   ⟨.ve, 0, 8, 0, 1, 0x58, 1, 8, 8, .ro, .none, 0, .val 0, .any⟩,
   ⟨.ve, 0, 8, 0, 1, 0x60, 1, 8, 8, .ro, .none, 0, .val 0, .any⟩,
   ⟨.ve, 0, 8, 0, 1, 0x68, 1, 8, 8, .ro, .none, 0, .val 0, .any⟩,
   ⟨.ve, 0, 8, 0, 1, 0x70, 1, 8, 8, .ro, .none, 0, .val 0, .any⟩,
   ⟨.ve, 0, 8, 0, 1, 0x78, 1, 8, 8, .ro, .none, 0, .val 0, .any⟩]

/-- Register rows of the block class `le`. -/
def rowsLe : List Reg :=
  [⟨.le, 0, 4, 0, 1, 0x40, 1, 4, 4, .ro, .none, 0, .val 0, .any⟩,
   ⟨.le, 0, 4, 0, 1, 0x50, 1, 8, 8, .ro, .none, 0, .val 0, .any⟩,
   ⟨.le, 0, 4, 0, 1, 0x58, 1, 8, 8, .ro, .none, 0, .val 0, .any⟩,
   ⟨.le, 0, 4, 0, 1, 0x60, 1, 8, 8, .ro, .none, 0, .val 0, .any⟩,
   ⟨.le, 0, 4, 0, 1, 0x68, 1, 8, 8, .ro, .none, 0, .val 0, .any⟩,
   ⟨.le, 0, 4, 0, 1, 0x70, 1, 8, 8, .ro, .none, 0, .val 0, .any⟩,
   ⟨.le, 0, 4, 0, 1, 0x78, 1, 8, 8, .ro, .none, 0, .val 0, .any⟩]

/-- Register rows of the block class `he`. -/
def rowsHe : List Reg :=
  [⟨.he, 0, 25, 0, 1, 0x40, 1, 4, 4, .ro, .none, 0, .val 0, .any⟩,
   ⟨.he, 0, 25, 0, 1, 0x50, 1, 8, 8, .ro, .none, 0, .val 0, .any⟩,
   ⟨.he, 0, 25, 0, 1, 0x58, 1, 8, 8, .ro, .none, 0, .val 0, .any⟩,
   ⟨.he, 0, 25, 0, 1, 0x60, 1, 8, 8, .ro, .none, 0, .val 0, .any⟩,
   ⟨.he, 0, 25, 0, 1, 0x68, 1, 8, 8, .ro, .none, 0, .val 0, .any⟩,
   ⟨.he, 0, 25, 0, 1, 0x70, 1, 8, 8, .ro, .none, 0, .val 0, .any⟩,
   ⟨.he, 0, 25, 0, 1, 0x78, 1, 8, 8, .ro, .none, 0, .val 0, .any⟩]

/-- Register rows of the block class `bed`. -/
def rowsBed : List Reg :=
  [⟨.bed, 0, 0, 0, 1, 0x40, 1, 4, 4, .rw, .secure, 3, .val 2, .any⟩,
   ⟨.bed, 0, 0, 0, 1, 0x44, 1, 4, 4, .rw, .secure, 0xffff, .val 0xe10, .range 1 65535 18446744073709551616⟩,
   ⟨.bed, 0, 0, 0, 1, 0x48, 1, 4, 4, .rw, .secure, 0xffff, .val 0x40, .any⟩,
   ⟨.bed, 0, 0, 0, 1, 0x50, 1, 8, 8, .ro, .none, 0, .val 0, .any⟩,
   ⟨.bed, 0, 0, 0, 1, 0x58, 1, 8, 8, .ro, .none, 0, .val 0, .any⟩,
   ⟨.bed, 0, 0, 0, 1, 0x60, 1, 8, 8, .ro, .none, 0, .val 0, .any⟩,
   ⟨.bed, 0, 0, 1, 1, 0x40, 64, 4, 4, .ro, .none, 0, .val 0, .any⟩,
   ⟨.bed, 0, 0, 2, 1, 0x40, 544, 4, 4, .ro, .none, 0, .val 0, .any⟩,
   ⟨.bed, 0, 0, 8, 8, 0x40, 32, 0x40, 4, .rw, .secure, 0xfffffc0, .val 0, .any⟩,
   ⟨.bed, 0, 0, 8, 8, 0x44, 32, 0x40, 4, .rw, .secure, 0xffff1f, .val 0, .any⟩,
   ⟨.bed, 0, 0, 8, 8, 0x48, 32, 0x40, 4, .rw, .secure, 0xffffff, .val 0, .any⟩,
   ⟨.bed, 0, 0, 8, 8, 0x4c, 32, 0x40, 4, .rw, .secure, 0xffffff, .val 0, .any⟩,
   ⟨.bed, 0, 0, 8, 8, 0x50, 32, 0x40, 8, .ro, .none, 0, .val 0, .any⟩,
   ⟨.bed, 0, 0, 8, 8, 0x58, 32, 0x40, 8, .ro, .none, 0, .val 0, .any⟩,
   ⟨.bed, 0, 0, 8, 8, 0x60, 32, 0x40, 4, .w1c, .none, 0x10, .val 0, .any⟩]

/-- Register rows of the block class `fc`. -/
def rowsFc : List Reg :=
  [⟨.fc, 0, 7, 0, 1, 0x40, 1, 4, 4, .ro, .none, 0, .val 0, .any⟩,
   ⟨.fc, 0, 7, 0, 1, 0x44, 1, 4, 4, .rw, .secure, 3, .val 3, .any⟩,
   ⟨.fc, 0, 7, 0, 1, 0x48, 1, 4, 4, .rw, .secure, 0xffff, .val 0xe10, .range 1 65535 18446744073709551616⟩,
   ⟨.fc, 0, 7, 0, 1, 0x4c, 1, 4, 4, .rw, .secure, 0xffff, .val 0x800, .range 256 16384 18446744073709551616⟩,
   ⟨.fc, 0, 7, 0, 1, 0x50, 1, 4, 4, .rw, .secure, 0x7f, .val 0x20, .range 1 64 128⟩,
   ⟨.fc, 0, 7, 0, 1, 0x54, 1, 4, 4, .wo, .secure, 0x10f, .val 0, .any⟩,
   ⟨.fc, 0, 7, 0, 1, 0x58, 1, 4, 4, .ro, .none, 0, .val 0, .any⟩,
   ⟨.fc, 0, 7, 0, 1, 0x60, 1, 8, 8, .ro, .none, 0, .val 0, .any⟩,
   ⟨.fc, 0, 7, 0, 1, 0x68, 1, 8, 8, .ro, .none, 0, .val 0, .any⟩,
   ⟨.fc, 0, 7, 0, 1, 0x70, 1, 8, 8, .ro, .none, 0, .val 0, .any⟩,
   ⟨.fc, 0, 7, 0, 1, 0x78, 1, 8, 8, .ro, .none, 0, .val 0, .any⟩,
   ⟨.fc, 0, 7, 0, 1, 0x80, 1, 8, 8, .ro, .none, 0, .val 0, .any⟩,
   ⟨.fc, 0, 7, 0, 1, 0x88, 1, 8, 8, .ro, .none, 0, .val 0, .any⟩,
   ⟨.fc, 0, 7, 0, 1, 0x90, 16, 4, 4, .ro, .none, 0, .val 0, .any⟩,
   ⟨.fc, 0, 0, 1, 1, 0x40, 12, 8, 8, .rw, .secure, 0xffffffffffffffff, .xmap, .any⟩,
   ⟨.fc, 0, 0, 1, 1, 0xa0, 1, 4, 4, .ro, .none, 0, .val 0, .any⟩,
   ⟨.fc, 0, 7, 1, 1, 0x100, 10, 4, 4, .rw, .secure, 0xffff, .lat, .range 50 65535 18446744073709551616⟩,
   ⟨.fc, 0, 7, 1, 1, 0x140, 10, 8, 8, .ro, .none, 0, .val 0, .any⟩,
   ⟨.fc, 0, 7, 2, 1, 0x40, 144, 4, 4, .ro, .none, 0, .val 0, .any⟩,
   ⟨.fc, 0, 7, 3, 1, 0x40, 16, 4, 4, .ro, .none, 0, .val 0, .any⟩]

/-- Register rows of the block class `qc`. -/
def rowsQc : List Reg :=
  [⟨.qc, 0, 0, 0, 1, 0x40, 1, 4, 4, .ro, .none, 0, .val 0, .any⟩,
   ⟨.qc, 0, 0, 0, 1, 0x44, 1, 4, 4, .rw, .secure, 1, .val 1, .any⟩,
   ⟨.qc, 0, 0, 0, 1, 0x48, 1, 4, 4, .rw, .secure, 0xffffff, .val 0x15180, .range 3600 16777215 18446744073709551616⟩,
   ⟨.qc, 0, 0, 0, 1, 0x4c, 1, 4, 4, .rw, .secure, 0xffff, .val 0x400, .range 1 65535 18446744073709551616⟩,
   ⟨.qc, 0, 0, 0, 1, 0x50, 1, 8, 8, .ro, .none, 0, .val 0, .any⟩,
   ⟨.qc, 0, 0, 0, 1, 0x58, 1, 8, 8, .ro, .none, 0, .val 0, .any⟩,
   ⟨.qc, 0, 0, 0, 1, 0x60, 1, 8, 8, .ro, .none, 0, .val 0, .any⟩,
   ⟨.qc, 0, 0, 0, 1, 0x68, 1, 8, 8, .ro, .none, 0, .val 0, .any⟩,
   ⟨.qc, 0, 0, 0, 1, 0x70, 1, 8, 8, .ro, .none, 0, .val 0, .any⟩,
   ⟨.qc, 0, 0, 0, 1, 0x78, 1, 8, 8, .ro, .none, 0, .val 0, .any⟩,
   ⟨.qc, 0, 0, 1, 1, 0x40, 16, 0x20, 4, .rw, .secure, 0xffffffff, .val 0, .any⟩,
   ⟨.qc, 0, 0, 1, 1, 0x44, 16, 0x20, 4, .rw, .secure, 0xffffffff, .val 0, .any⟩,
   ⟨.qc, 0, 0, 1, 1, 0x48, 16, 0x20, 4, .rw, .secure, 0xffffffff, .val 0, .any⟩,
   ⟨.qc, 0, 0, 1, 1, 0x4c, 16, 0x20, 4, .rw, .secure, 0x7fffff, .val 0, .any⟩,
   ⟨.qc, 0, 0, 1, 1, 0x50, 16, 0x20, 4, .rw, .secure, 0x1fffff, .val 0, .any⟩,
   ⟨.qc, 0, 0, 2, 1, 0x40, 16, 0x20, 4, .ro, .none, 0, .val 0, .any⟩,
   ⟨.qc, 0, 0, 2, 1, 0x44, 16, 0x20, 4, .ro, .none, 0, .val 0, .any⟩,
   ⟨.qc, 0, 0, 2, 1, 0x48, 16, 0x20, 4, .ro, .none, 0, .val 0, .any⟩,
   ⟨.qc, 0, 0, 2, 1, 0x4c, 16, 0x20, 4, .ro, .none, 0, .val 0, .any⟩,
   ⟨.qc, 0, 0, 2, 1, 0x50, 16, 0x20, 4, .ro, .none, 0, .val 0, .any⟩,
   ⟨.qc, 0, 0, 3, 1, 0x40, 16, 0x40, 4, .rw, .none, 1, .val 0, .any⟩,
   ⟨.qc, 0, 0, 3, 1, 0x48, 16, 0x40, 8, .rw, .none, 0xffffffffffffffff, .val 0, .align 32⟩,
   ⟨.qc, 0, 0, 3, 1, 0x50, 16, 0x40, 4, .rw, .none, 0xffff, .val 0, .range 1 65535 18446744073709551616⟩,
   ⟨.qc, 0, 0, 3, 1, 0x54, 16, 0x40, 4, .rw, .none, 0xf, .val 4, .range 1 8 16⟩,
   ⟨.qc, 0, 0, 3, 1, 0x58, 16, 0x40, 8, .rw, .none, 0xffffffffffff, .val 0, .any⟩,
   ⟨.qc, 0, 0, 3, 1, 0x60, 16, 0x40, 4, .wo, .none, 7, .val 0, .any⟩,
   ⟨.qc, 0, 0, 3, 1, 0x64, 16, 0x40, 4, .ro, .none, 0, .val 0, .any⟩,
   ⟨.qc, 0, 0, 3, 1, 0x68, 16, 0x40, 4, .ro, .none, 0, .val 0, .any⟩,
   ⟨.qc, 0, 0, 8, 1, 0x40, 1, 4, 4, .ro, .none, 0, .val 0, .any⟩,
   ⟨.qc, 0, 0, 8, 1, 0x44, 1, 4, 4, .rw, .secure, 0xffff, .val 0x12c, .range 50 5000 18446744073709551616⟩,
   ⟨.qc, 0, 0, 8, 1, 0x48, 1, 4, 4, .rw, .secure, 0xffffff, .val 0xc350, .range 10000 1000000 18446744073709551616⟩,
   ⟨.qc, 0, 0, 8, 1, 0x50, 1, 8, 8, .ro, .none, 0, .val 0, .any⟩,
   ⟨.qc, 0, 0, 8, 1, 0x58, 1, 4, 4, .ro, .none, 0, .val 0, .any⟩,
   ⟨.qc, 0, 0, 8, 1, 0x60, 1, 8, 8, .ro, .none, 0, .val 0, .any⟩,
   ⟨.qc, 0, 0, 8, 1, 0x68, 1, 8, 8, .ro, .none, 0, .val 0, .any⟩,
   ⟨.qc, 0, 0, 8, 1, 0x70, 1, 8, 8, .ro, .none, 0, .val 0, .any⟩,
   ⟨.qc, 0, 0, 8, 1, 0x78, 1, 8, 8, .ro, .none, 0, .val 0, .any⟩,
   ⟨.qc, 0, 0, 8, 1, 0x80, 1, 8, 8, .ro, .none, 0, .val 0, .any⟩,
   ⟨.qc, 0, 0, 8, 1, 0x88, 1, 8, 8, .ro, .none, 0, .val 0, .any⟩,
   ⟨.qc, 0, 0, 9, 1, 0x40, 16, 0x20, 4, .ro, .none, 0, .val 0, .any⟩,
   ⟨.qc, 0, 0, 9, 1, 0x44, 16, 0x20, 4, .ro, .none, 0, .val 0, .any⟩,
   ⟨.qc, 0, 0, 9, 1, 0x48, 16, 0x20, 8, .ro, .none, 0, .val 0, .any⟩,
   ⟨.qc, 0, 0, 9, 1, 0x50, 16, 0x20, 8, .ro, .none, 0, .val 0, .any⟩]

/-- Register rows of the block class `dp`. -/
def rowsDp : List Reg :=
  [⟨.dp, 0, 7, 0, 1, 0x40, 1, 4, 4, .ro, .none, 0, .val 0, .any⟩,
   ⟨.dp, 0, 7, 0, 1, 0x44, 1, 4, 4, .rw, .secure, 7, .val 0, .any⟩,
   ⟨.dp, 0, 7, 0, 1, 0x48, 1, 4, 4, .rw, .secure, 0x7ffff, .val 0x20000, .any⟩,
   ⟨.dp, 0, 7, 0, 1, 0x4c, 1, 4, 4, .rw, .secure, 0x7ffff, .val 0x30000, .any⟩,
   ⟨.dp, 0, 7, 0, 1, 0x50, 1, 8, 8, .ro, .none, 0, .val 0, .any⟩,
   ⟨.dp, 0, 7, 0, 1, 0x58, 1, 8, 8, .ro, .none, 0, .val 0, .any⟩,
   ⟨.dp, 0, 7, 0, 1, 0x60, 1, 8, 8, .ro, .none, 0, .val 0, .any⟩,
   ⟨.dp, 0, 7, 0, 1, 0x68, 1, 8, 8, .ro, .none, 0, .val 0, .any⟩,
   ⟨.dp, 0, 7, 0, 1, 0x70, 1, 8, 8, .ro, .none, 0, .val 0, .any⟩,
   ⟨.dp, 0, 7, 0, 1, 0x78, 1, 8, 8, .ro, .none, 0, .val 0, .any⟩,
   ⟨.dp, 0, 7, 0, 1, 0x80, 1, 8, 8, .ro, .none, 0, .val 0, .any⟩,
   ⟨.dp, 0, 7, 0, 1, 0x88, 1, 8, 8, .ro, .none, 0, .val 0, .any⟩,
   ⟨.dp, 0, 7, 0, 1, 0x90, 1, 8, 8, .ro, .none, 0, .val 0, .any⟩,
   ⟨.dp, 0, 7, 0, 1, 0x98, 1, 8, 8, .ro, .none, 0, .val 0, .any⟩,
   ⟨.dp, 0, 7, 0, 1, 0xa0, 1, 4, 4, .ro, .none, 0, .val 0, .any⟩,
   ⟨.dp, 0, 7, 0, 1, 0xa4, 1, 4, 4, .ro, .none, 0, .val 0, .any⟩,
   ⟨.dp, 0, 0, 1, 1, 0x40, 1, 4, 4, .rw, .secure, 0x80000fff, .val 0, .any⟩,
   ⟨.dp, 0, 0, 1, 1, 0x44, 1, 4, 4, .rw, .secure, 0xffff, .val 0x88b5, .any⟩,
   ⟨.dp, 0, 0, 1, 1, 0x48, 1, 4, 4, .rw, .secure, 0xffffff, .val 0x2d217, .any⟩,
   ⟨.dp, 0, 0, 1, 1, 0x4c, 1, 4, 4, .rw, .secure, 0xfff, .val 1, .range 1 4094 4096⟩,
   ⟨.dp, 0, 0, 1, 1, 0x50, 1, 4, 4, .rw, .secure, 0x7f, .val 4, .range 1 64 128⟩,
   ⟨.dp, 0, 0, 1, 1, 0x58, 8, 4, 4, .rw, .secure, 7, .val 0, .any⟩,
   ⟨.dp, 0, 0, 1, 1, 0x80, 16, 8, 4, .rw, .secure, 0x3ffff, .val 0, .any⟩,
   ⟨.dp, 0, 0, 1, 1, 0x100, 128, 4, 4, .wo, .secure, 0xffffffff, .val 0, .any⟩,
   ⟨.dp, 0, 0, 1, 1, 0x300, 8, 4, 4, .wo, .secure, 0xffffffff, .val 0, .any⟩]

/-- Register rows of the block class `pm`. -/
def rowsPm : List Reg :=
  [⟨.pm, 0, 0, 0, 1, 0x40, 1, 4, 4, .ro, .none, 0, .val 0x400000, .any⟩,
   ⟨.pm, 0, 0, 0, 1, 0x44, 1, 4, 4, .ro, .none, 0, .val 0, .any⟩,
   ⟨.pm, 0, 0, 0, 1, 0x48, 1, 8, 8, .ro, .none, 0, .val 0, .any⟩,
   ⟨.pm, 0, 0, 0, 1, 0x50, 1, 4, 4, .rw, .secure, 0x3fffff, .val 0, .any⟩,
   ⟨.pm, 0, 0, 0, 1, 0x58, 1, 8, 8, .ro, .secure, 0, .val 0, .any⟩,
   ⟨.pm, 0, 0, 0, 1, 0x60, 1, 4, 4, .rw, .secure, 0xfffff, .val 0, .any⟩,
   ⟨.pm, 0, 0, 0, 1, 0x68, 1, 8, 8, .ro, .secure, 0, .val 0, .any⟩,
   ⟨.pm, 0, 0, 0, 1, 0x70, 1, 8, 8, .ro, .secure, 0, .val 0, .any⟩,
   ⟨.pm, 0, 0, 0, 1, 0x100, 64, 4, 4, .wo, .secure, 0xffffffff, .val 0, .any⟩,
   ⟨.pm, 0, 0, 0, 1, 0x200, 144, 8, 8, .ro, .none, 0, .val 0, .any⟩]

/-- Register rows of the block class `mk`. -/
def rowsMk : List Reg :=
  [⟨.mk, 0, 0, 0, 1, 0x40, 1, 8, 8, .ro, .none, 0, .val 0, .any⟩,
   ⟨.mk, 0, 0, 0, 1, 0x48, 1, 8, 8, .ro, .none, 0, .val 0, .any⟩,
   ⟨.mk, 0, 0, 0, 1, 0x50, 1, 8, 8, .ro, .none, 0, .val 0, .any⟩,
   ⟨.mk, 0, 0, 0, 1, 0x58, 1, 4, 4, .ro, .none, 0, .val 0, .any⟩,
   ⟨.mk, 0, 0, 0, 1, 0x60, 1, 4, 4, .rw, .secure, 0xffff, .val 0, .any⟩,
   ⟨.mk, 0, 0, 0, 1, 0x68, 1, 8, 8, .ro, .secure, 0, .val 0, .any⟩,
   ⟨.mk, 0, 0, 0, 1, 0x70, 1, 8, 8, .wo, .secure, 0xffffffffffffffff, .val 0, .any⟩,
   ⟨.mk, 0, 0, 0, 1, 0x100, 16, 4, 4, .rw, .secure, 0xffffffff, .val 0, .any⟩]

/-- Register rows of the block class `pwr`. -/
def rowsPwr : List Reg :=
  [⟨.pwr, 0, 0, 0, 1, 0x40, 1, 4, 4, .rw, .secure, 0x7ff, .val 0x3b6, .range 300 1100 2048⟩,
   ⟨.pwr, 0, 0, 0, 1, 0x44, 1, 4, 4, .ro, .secure, 0, .val 0, .any⟩,
   ⟨.pwr, 0, 0, 0, 1, 0x48, 1, 4, 4, .ro, .secure, 0, .val 0x3b603b6, .any⟩,
   ⟨.pwr, 0, 0, 0, 1, 0x4c, 1, 4, 4, .rw, .secure, 0x7ff, .val 0x578, .range 950 1450 2048⟩,
   ⟨.pwr, 0, 0, 0, 1, 0x50, 1, 8, 8, .ro, .secure, 0, .val 0, .any⟩,
   ⟨.pwr, 0, 0, 0, 1, 0x58, 1, 8, 8, .ro, .secure, 0, .val 0, .any⟩,
   ⟨.pwr, 0, 0, 0, 1, 0x60, 1, 4, 4, .ro, .secure, 0, .val 0x10000, .any⟩,
   ⟨.pwr, 0, 0, 0, 1, 0x64, 1, 4, 4, .ro, .secure, 0, .val 0x2ee, .any⟩,
   ⟨.pwr, 0, 0, 0, 1, 0x68, 1, 4, 4, .ro, .secure, 0, .val 0, .any⟩,
   ⟨.pwr, 0, 0, 0, 1, 0x6c, 1, 4, 4, .rw, .secure, 0xffff, .val 0x6669, .therm⟩,
   ⟨.pwr, 0, 0, 0, 1, 0x70, 1, 4, 4, .ro, .secure, 0, .val 0, .any⟩,
   ⟨.pwr, 0, 0, 0, 1, 0x74, 1, 4, 4, .rw, .secure, 0x7f, .val 0x28, .range 20 100 128⟩,
   ⟨.pwr, 0, 0, 1, 1, 0x40, 113, 8, 4, .rw, .secure, 0xfff, .boot, .any⟩,
   ⟨.pwr, 0, 0, 1, 1, 0x44, 113, 8, 4, .ro, .secure, 0, .boot, .any⟩,
   ⟨.pwr, 0, 0, 2, 1, 0x40, 215, 8, 4, .rw, .secure, 1, .dom, .any⟩,
   ⟨.pwr, 0, 0, 2, 1, 0x44, 215, 8, 4, .ro, .secure, 0, .val 0, .any⟩,
   ⟨.pwr, 0, 0, 3, 1, 0x40, 64, 4, 4, .ro, .secure, 0, .val 0, .any⟩]

/-- Register rows of the block class `qn`. -/
def rowsQn : List Reg :=
  [⟨.qn, 0, 0, 0, 1, 0x40, 1, 4, 4, .rw, .none, 0x1ffffff, .val 0, .mailbox⟩,
   ⟨.qn, 0, 0, 0, 1, 0x44, 1, 4, 4, .wo, .none, 1, .val 0, .any⟩,
   ⟨.qn, 0, 0, 0, 1, 0x48, 1, 4, 4, .ro, .none, 0, .val 0, .any⟩,
   ⟨.qn, 0, 0, 0, 1, 0x100, 64, 4, 4, .rw, .none, 0xffffffff, .val 0, .any⟩,
   ⟨.qn, 0, 0, 1, 1, 0x40, 1, 4, 4, .rw, .secure, 0x1ffffff, .val 0, .mailbox⟩,
   ⟨.qn, 0, 0, 1, 1, 0x44, 1, 4, 4, .wo, .secure, 1, .val 0, .any⟩,
   ⟨.qn, 0, 0, 1, 1, 0x48, 1, 4, 4, .ro, .secure, 0, .val 0, .any⟩,
   ⟨.qn, 0, 0, 1, 1, 0x100, 64, 4, 4, .rw, .secure, 0xffffffff, .val 0, .any⟩,
   ⟨.qn, 0, 0, 2, 3, 0x40, 256, 8, 8, .rw, .secure, 0xffffffffffffff07, .val 0, .any⟩,
   ⟨.qn, 0, 0, 5, 1, 0x40, 1, 4, 4, .ro, .none, 0, .val 0, .any⟩,
   ⟨.qn, 0, 0, 5, 1, 0x44, 1, 4, 4, .rw, .secure, 1, .val 0, .any⟩,
   ⟨.qn, 0, 0, 5, 1, 0x48, 1, 4, 4, .ro, .none, 0, .val 0, .any⟩,
   ⟨.qn, 0, 0, 5, 1, 0x80, 16, 4, 4, .ro, .none, 0, .val 0, .any⟩,
   ⟨.qn, 0, 0, 5, 1, 0xc0, 16, 4, 4, .ro, .secure, 0, .val 0, .any⟩,
   ⟨.qn, 0, 0, 5, 1, 0x100, 1, 8, 8, .ro, .secure, 0, .val 0, .any⟩,
   ⟨.qn, 0, 0, 5, 1, 0x108, 1, 8, 8, .ro, .secure, 0, .val 0, .any⟩]

/-- Register rows of the block class `pl`. -/
def rowsPl : List Reg :=
  [⟨.pl, 0, 0, 0, 1, 0x40, 1, 4, 4, .ro, .secure, 0, .val 0, .any⟩,
   ⟨.pl, 0, 0, 0, 1, 0x44, 1, 4, 4, .rw, .secure, 3, .val 3, .any⟩,
   ⟨.pl, 0, 0, 0, 1, 0x48, 1, 4, 4, .ro, .secure, 0, .val 0, .any⟩,
   ⟨.pl, 0, 0, 0, 1, 0x4c, 1, 4, 4, .ro, .secure, 0, .val 0, .any⟩,
   ⟨.pl, 0, 0, 0, 1, 0x50, 1, 4, 4, .ro, .secure, 0, .val 0, .any⟩,
   ⟨.pl, 0, 0, 0, 1, 0x54, 1, 4, 4, .w1c, .secure, 0x80000000, .val 0, .any⟩,
   ⟨.pl, 0, 0, 0, 1, 0x58, 1, 4, 4, .rw, .secure, 0x1ff, .val 0, .any⟩,
   ⟨.pl, 0, 0, 0, 1, 0x60, 1, 8, 8, .ro, .secure, 0, .val 0, .any⟩,
   ⟨.pl, 0, 0, 0, 1, 0x68, 1, 8, 8, .ro, .secure, 0, .val 0, .any⟩,
   ⟨.pl, 0, 0, 0, 1, 0x70, 1, 8, 8, .ro, .secure, 0, .val 0, .any⟩,
   ⟨.pl, 0, 0, 0, 1, 0x80, 16, 4, 4, .ro, .secure, 0, .val 0, .any⟩,
   ⟨.pl, 0, 0, 0, 1, 0xc0, 16, 4, 4, .rws, .secure, 0xffffffff, .wp, .any⟩]

/-- Register rows of the block class `cmd`. -/
def rowsCmd : List Reg :=
  [⟨.cmd, 0, 16, 0, 1, 0x40, 1, 4, 4, .ro, .none, 0, .val 0, .any⟩,
   ⟨.cmd, 0, 16, 0, 1, 0x44, 1, 4, 4, .ro, .none, 0, .val 0, .any⟩,
   ⟨.cmd, 0, 16, 0, 1, 0x48, 1, 4, 4, .ro, .none, 0, .val 0, .any⟩,
   ⟨.cmd, 0, 16, 0, 1, 0x50, 1, 8, 8, .rw, .none, 0x1ffff, .val 0, .any⟩,
   ⟨.cmd, 16, 16, 0, 1, 0x80, 1, 4, 4, .ro, .none, 0, .val 0, .any⟩,
   ⟨.cmd, 16, 16, 0, 1, 0x84, 1, 4, 4, .ro, .none, 0, .val 0, .any⟩,
   ⟨.cmd, 16, 16, 0, 1, 0x88, 1, 4, 4, .ro, .none, 0, .val 0, .any⟩,
   ⟨.cmd, 16, 16, 0, 1, 0x8c, 1, 4, 4, .rw, .none, 0x1ffffff, .val 0, .any⟩,
   ⟨.cmd, 16, 16, 0, 1, 0x90, 1, 4, 4, .wo, .none, 0xf, .val 0, .any⟩,
   ⟨.cmd, 16, 16, 0, 1, 0x94, 1, 4, 4, .rw, .none, 0xffff, .val 0x1f4, .range 10 60000 18446744073709551616⟩,
   ⟨.cmd, 16, 16, 0, 1, 0x98, 1, 4, 4, .wo, .none, 0xffffffff, .val 0, .any⟩,
   ⟨.cmd, 16, 16, 0, 1, 0x9c, 1, 4, 4, .rw, .none, 0xff, .val 3, .range 1 255 18446744073709551616⟩,
   ⟨.cmd, 16, 16, 0, 1, 0xa0, 1, 8, 8, .ro, .none, 0, .val 0, .any⟩,
   ⟨.cmd, 0, 15, 1, 1, 0x40, 8, 0x20, 8, .rw, .none, 0xffffffffffffffff, .val 0, .align 4096⟩,
   ⟨.cmd, 0, 15, 1, 1, 0x48, 8, 0x20, 4, .rw, .none, 0x1f, .val 0, .range 6 16 32⟩,
   ⟨.cmd, 0, 15, 1, 1, 0x4c, 8, 0x20, 4, .wo, .none, 0xffff, .val 0, .any⟩,
   ⟨.cmd, 0, 15, 1, 1, 0x50, 8, 0x20, 4, .ro, .none, 0, .val 0, .any⟩,
   ⟨.cmd, 0, 15, 1, 1, 0x54, 8, 0x20, 4, .ro, .none, 0, .val 0, .any⟩,
   ⟨.cmd, 0, 15, 1, 1, 0x58, 8, 0x20, 4, .wo, .none, 0xf, .val 0, .any⟩,
   ⟨.cmd, 0, 15, 1, 1, 0x140, 1, 8, 8, .rw, .none, 0xffffffffffffffff, .val 0, .align 4096⟩,
   ⟨.cmd, 0, 15, 1, 1, 0x148, 1, 4, 4, .rw, .none, 0x1f, .val 0, .range 6 16 32⟩,
   ⟨.cmd, 0, 15, 1, 1, 0x14c, 1, 4, 4, .rw, .none, 0xffff, .val 0, .any⟩,
   ⟨.cmd, 0, 15, 1, 1, 0x150, 1, 4, 4, .ro, .none, 0, .val 0, .any⟩,
   ⟨.cmd, 0, 16, 1, 1, 0x160, 1, 8, 8, .rw, .none, 0xffffffffffffffff, .val 0, .align 4096⟩,
   ⟨.cmd, 0, 16, 1, 1, 0x168, 1, 4, 4, .rw, .none, 0x1f, .val 0, .range 6 16 32⟩,
   ⟨.cmd, 0, 16, 1, 1, 0x16c, 1, 4, 4, .rw, .none, 0xffff, .val 0, .any⟩,
   ⟨.cmd, 0, 16, 1, 1, 0x170, 1, 4, 4, .ro, .none, 0, .val 0, .any⟩,
   ⟨.cmd, 0, 16, 1, 1, 0x174, 1, 4, 4, .rw, .none, 0x7ff, .val 0, .any⟩,
   ⟨.cmd, 0, 15, 1, 1, 0x180, 1, 4, 4, .ro, .none, 0, .val 0, .any⟩,
   ⟨.cmd, 0, 15, 1, 1, 0x184, 1, 4, 4, .ro, .none, 0, .val 0, .any⟩,
   ⟨.cmd, 0, 15, 2, 1, 0x40, 1, 8, 8, .rw, .none, 0xffffffffffff, .val 0, .any⟩,
   ⟨.cmd, 0, 15, 2, 1, 0x48, 1, 8, 8, .rw, .none, 0xffffffffffff, .val 0, .any⟩,
   ⟨.cmd, 0, 15, 2, 1, 0x50, 1, 4, 4, .wo, .none, 0xf, .val 0, .any⟩,
   ⟨.cmd, 0, 15, 2, 1, 0x54, 1, 4, 4, .ro, .none, 0, .val 0, .any⟩,
   ⟨.cmd, 0, 15, 2, 1, 0x58, 1, 4, 4, .ro, .none, 0, .val 0, .any⟩]

/-- The block-specific register rows of a block (R442). -/
def regRows : Blk → List Reg
  | .ae => rowsAe
  | .ce => rowsCe
  | .ve => rowsVe
  | .le => rowsLe
  | .he => rowsHe
  | .bed => rowsBed
  | .fc => rowsFc
  | .qc => rowsQc
  | .dp => rowsDp
  | .pm => rowsPm
  | .mk => rowsMk
  | .pwr => rowsPwr
  | .qn => rowsQn
  | .pl => rowsPl
  | .cmd => rowsCmd
  | .dev => []
  | .kc => []

/-- The row that defines an offset of page p of instance i, with the register's index in the row and the byte
within the register. -/
def rowAt (b : Blk) (i p off : Nat) : Option (Reg × Nat × Nat) :=
  (regRows b).findSome? fun r =>
    if r.lo ≤ i ∧ i ≤ r.hi ∧ r.page ≤ p ∧ p < r.page + r.pages ∧ r.off ≤ off
        ∧ off < r.off + r.cnt * r.stride ∧ (off - r.off) % r.stride < r.bytes then
      some (r, (p - r.page) * r.cnt + (off - r.off) / r.stride, (off - r.off) % r.stride)
    else none

/-- Default map masks (Table 11.3). -/
def xmapReset (i : Nat) : Nat :=
  [0x400100, 0x800200, 0x1000400, 0x2000800, 0x4001000, 0x8002000, 0x10004000, 0x20008000,
   0x40050000, 0x800A0000, 0x100100000, 0x200200000].getD i 0

/-- Default latency targets (Table 11.4). -/
def latReset (p : Nat) : Nat := [800, 800, 600, 800, 1000, 4000, 400, 1500, 600, 65535].getD p 0

/-- Boot frequency of island k in MHz (Table 16.1). -/
def bootMhz (k : Nat) : Nat :=
  if k ≤ 33 then 900 else if k ≤ 51 then 1000 else if k ≤ 60 then 900 else if k ≤ 93 then 1000
  else if k ≤ 101 then 1200 else if k ≤ 109 then 1600 else if k = 110 then 1000 else if k = 111 then 1100 else 500

/-- Minimum and maximum of an adjustable island in MHz, none for a fixed one (Table 16.1). -/
def islandRange (k : Nat) : Option (Nat × Nat) :=
  if k ≤ 33 then some (400, 1800) else if k ≤ 51 then some (400, 2000) else if k ≤ 60 then some (400, 1800)
  else if k ≤ 91 then some (400, 2000) else if k = 92 then some (1000, 2000) else if k = 111 then some (800, 2200)
  else none

/-- Reset value of PWR_DOMd: on and powered for the domains in service at start-up (Table 16.5). Ports, Grout units,
and the Page Map and Prefix Table segments start switched off by Table 16.2; QUOIN_BOOT switches off the domains
of spares and retired units once the record names them (assumption 4, DEDUCED). -/
def domReset (d : Nat) : Nat := if (172 ≤ d ∧ d ≤ 195) ∨ 203 ≤ d then 0 else 3

/-- The number a row gives as reset value of its register `i`. -/
def RegReset.value : RegReset → Nat → Nat
  | .val v, _ => v
  | .xmap, i => xmapReset i
  | .lat, i => latReset i
  | .boot, i => bootMhz i
  | .dom, i => domReset i
  | .wp, i => if i = 0 then 0xF else 0

/-- Whether a value may be written (R463). -/
def RegOk.holds : RegOk → Nat → Bool
  | .any, _ => true
  | .range lo hi m, v => decide (lo ≤ v % m) && decide (v % m ≤ hi)
  | .align n, v => decide (v % n = 0)
  | .therm, v => decide (85 ≤ v % 256) && decide (v % 256 ≤ 105) && decide (v / 256 % 256 + 2 ≤ v % 256)
  | .mailbox, v => decide (v / 65536 % 512 ≤ 256)

/-- Whether a block is non-secure from reset and stays so (R382). -/
def openBlk : Blk → Bool
  | .dev => true
  | .cmd => true
  | _ => false

/-- Reset value of a header register's stored entry (Table 18.2). -/
def headerReset (b : Blk) (off : Nat) : Nat :=
  if off = 0x0C then (if openBlk b then 0xFF00 else 0xFF01) else if off = 0x24 then 0x1003E8 else 0

/-- Reset value of the register at an address; an address with no register has none and reads zero. -/
def resetOf (addr : Nat) : DWord :=
  match pageOf addr with
  | none => 0
  | some (b, i, p) =>
    let off := addr % 0x1000
    if off < 0x40 then BitVec.ofNat 64 (headerReset b off)
    else match rowAt b i p off with
      | some (r, k, 0) => BitVec.ofNat 64 (r.reset.value k)
      | _ => 0

/-- The stored value of the register at an address. -/
def State.reg (s : State) (a : Nat) : DWord := smapGet resetOf s.regs a

/-- The stored value as a number. -/
def State.regN (s : State) (a : Nat) : Nat := (s.reg a).toNat

/-- Store a register's value. -/
def State.setReg (s : State) (a : Nat) (v : DWord) : State := { s with regs := smapSet resetOf s.regs a v }

/-- Store a number in a register. -/
def State.setRegN (s : State) (a : Nat) (v : Nat) : State := s.setReg a (BitVec.ofNat 64 v)

/-- Change a register's value. -/
def State.modReg (s : State) (a : Nat) (f : Nat → Nat) : State := s.setRegN a (f (s.regN a))

/-- Add to a 64-bit counter. -/
def State.count (s : State) (a : Nat) (n : Nat) : State := s.modReg a (· + n)

/-- Set bits [hi:lo] of a register. -/
def State.setField (s : State) (a hi lo v : Nat) : State :=
  s.modReg a fun r => r - place (bits r hi lo) lo + place (v % 2 ^ (hi + 1 - lo)) lo

/-- Bits [hi:lo] of a register. -/
def State.field (s : State) (a hi lo : Nat) : Nat := bits (s.regN a) hi lo

/-- Bit n of a register. -/
def State.regBit (s : State) (a n : Nat) : Bool := bit (s.regN a) n

/-- Set or clear bit n of a register. -/
def State.setBit (s : State) (a n : Nat) (b : Bool) : State := s.setField a n n (flag b)

/-- Return every register whose address satisfies `p` to its reset value. -/
def State.resetRegs (s : State) (p : Nat → Bool) : State := { s with regs := smapClear p s.regs }

/-- Set a BLK_ERR bit of a block (Table 17.5); a bit set again stays set (R437). -/
def State.blkErr (s : State) (b : Blk) (i n : Nat) : State := s.setBit (BLK_ERR b i) n true

end Sys2Proof.Machine
end

