-- ==== Sys2Proof/Machine/Phys.lean ====
section
/-! DEFINITION. Status codes, global addresses, the free counter, physical memory with its keys and poison (R85, R294,
R386), and the checks of every access (R41, R42, R274, R383, R384). -/

namespace Sys2Proof.Machine

/-! Completion status codes (Table 0.4). -/

def stOk : Nat := 0x0000
def stBedConflict : Nat := 0x0001
def stTranslation : Nat := 0x0010
def stProtection : Nat := 0x0011
def stWorld : Nat := 0x0012
def stIndexRange : Nat := 0x0020
def stPageExhausted : Nat := 0x0030
def stPrefixFull : Nat := 0x0031
def stPoisoned : Nat := 0x0040
def stShardLost : Nat := 0x0041
def stDigestMismatch : Nat := 0x0042
def stRemoteTimeout : Nat := 0x0050
def stTenantGone : Nat := 0x0051
def stStreamDamaged : Nat := 0x0052
def stQuota : Nat := 0x0060
def stEngineRetired : Nat := 0x0070
def stKeyRetired : Nat := 0x0080
def stHostAbsent : Nat := 0x00F0
def stStop : Nat := 0x00F1

/-- Rank of a status in the order of R16; a lower rank takes precedence. -/
def stRank (c : Nat) : Nat :=
  if c = stStop then 0 else if c = stHostAbsent then 1
  else if c = stOk then 0x400 else if c = stEngineRetired then 0x200
  else if c = stBedConflict ∨ c = stIndexRange then 0x300 + c else 2 + c

/-- Whether a status is of the fault class (Table 0.4). -/
def isFault (c : Nat) : Bool :=
  !(decide (c = stOk) || decide (c = stBedConflict) || decide (c = stIndexRange) || decide (c = stEngineRetired))

/-! Free values. -/

/-- Step the free counter: the index of a new free value. -/
def State.tick (s : State) : State := { s with free := s.free + 1 }

/-- `n` free bytes. -/
def State.freeBytes (s : State) (n : Nat) : Bytes := (List.range n).map (Config.freeByte s.free)

/-! Global addresses (Table 2.1, Table 2.2). -/

/-- CHIP of a global address. -/
def gaChip (a : Nat) : Nat := bits a 63 52
/-- SPACE of a global address. -/
def gaSpace (a : Nat) : Nat := bits a 51 48
/-- OFFSET of a global address. -/
def gaOff (a : Nat) : Nat := bits a 47 0
/-- A global address from its fields. -/
def gaOf (chip space off : Nat) : Nat := place chip 52 + place space 48 + off

def spBed : Nat := 0
def spHbm : Nat := 1
def spNand : Nat := 2
def spReg : Nat := 3
def spMark : Nat := 4

/-- The own chip ID (R324). -/
def State.chip (s : State) : Nat := s.field DP_CHIP_ID 11 0

/-- Whether an address is local (R40). -/
def State.isLocal (s : State) (a : Nat) : Bool := decide (gaChip a = s.chip)

/-- Bytes of the Bed and of HBM (Table 1.5). -/
def bedSize : Nat := 0xC000000
def hbmSize : Nat := 0x4800000000

/-- Size of a tier. -/
def Tier.size : Tier → Nat
  | .bed => bedSize
  | .hbm => hbmSize

/-- The tier of a space code. -/
def tierOf (space : Nat) : Option Tier :=
  if space = spBed then some .bed else if space = spHbm then some .hbm else none

/-- Space code of a tier. -/
def Tier.space : Tier → Nat
  | .bed => spBed
  | .hbm => spHbm

/-- Cut the range of `n` bytes from `off` at multiples of `g`, with fuel. -/
def cutFuel : Nat → Nat → Nat → Nat → List (Nat × Nat)
  | 0, _, _, _ => []
  | _, _, _, 0 => []
  | f + 1, g, off, n =>
    let k := min n (g - off % g)
    (off, k) :: cutFuel f g (off + k) (n - k)

/-- Cut a range at multiples of `g`: (start, length) of each piece in ascending order. -/
def cut (g off n : Nat) : List (Nat × Nat) := cutFuel (n / g + 2) g off n

/-! Keys of HBM lines (R386). -/

/-- The 64 bytes of key pair K1, K2 of a key id. -/
def keyBytes (id : Nat) : Bytes := (List.range 64).map (Config.keyByte id)

/-- Key id of a slot; 0 where the slot holds none. -/
def State.slotKeyId (s : State) (slot : Nat) : Nat := smapGet (fun _ => 0) s.slotKey slot

/-- Key id that wrote an HBM line. -/
def State.lineKey (s : State) (line : Nat) : Nat :=
  match s.hbmKey.find? fun (lo, hi, _) => decide (lo ≤ line) && decide (line < hi) with
  | some (_, _, k) => k
  | none => 0

/-- Mark the lines from `lo` up to `hi` as written under a key. -/
def State.tagLines (s : State) (lo hi key : Nat) : State :=
  let left := s.hbmKey.filterMap fun (a, b, k) => if a < min b lo then some (a, min b lo, k) else none
  let right := s.hbmKey.filterMap fun (a, b, k) => if max a hi < b then some (max a hi, b, k) else none
  { s with hbmKey := left ++ [(lo, hi, key)] ++ right }

/-- An HBM line as a reader under `key` sees it: the stored bytes deciphered under the reader's key. -/
def State.lineUnder (s : State) (key line : Nat) : Bytes :=
  let plain := memRead zeroByte s.hbm (64 * line) 64
  let k := s.lineKey line
  if k = key then plain else xtsDec (keyBytes key) line (xtsEnc (keyBytes k) line plain)

/-! Physical reads and writes. -/

/-- Read bytes that stay within one line of a tier, under a key (the Bed has none, R387). -/
def State.readLine (s : State) (tier : Tier) (key off n : Nat) : Bytes :=
  match tier with
  | .bed => memRead zeroByte s.bed off n
  | .hbm =>
    if s.lineKey (off / 64) = key then memRead zeroByte s.hbm off n
    else ((s.lineUnder key (off / 64)).drop (off % 64)).take n

/-- Read a physical range under a key. -/
def State.readPhys (s : State) (tier : Tier) (key off n : Nat) : Bytes :=
  (cut 64 off n).flatMap fun (o, k) => s.readLine tier key o k

/-- Whether the line that holds a physical offset is poisoned. -/
def State.poisonAt (s : State) (tier : Tier) (off : Nat) : Bool :=
  match tier with
  | .bed => s.bedPoison.contains (off / 64)
  | .hbm => s.hbmPoison.contains (off / 64)

/-- Poison the line that holds a physical offset. -/
def State.poison (s : State) (tier : Tier) (off : Nat) : State :=
  match tier with
  | .bed => { s with bedPoison := insertNat (off / 64) s.bedPoison }
  | .hbm => { s with hbmPoison := insertNat (off / 64) s.hbmPoison }

/-- Write bytes that stay within one line. A full line clears its poison (R85). A partial write of an HBM line held under
another key rewrites the line, deciphered under the writer's key, with the bytes in place (R386). -/
def State.writeLine (s : State) (tier : Tier) (key off : Nat) (bs : Bytes) : State :=
  let line := off / 64
  match tier with
  | .bed =>
    { s with bed := memWrite zeroByte s.bed off bs
             bedPoison := if bs.length = 64 then s.bedPoison.filter (· != line) else s.bedPoison }
  | .hbm =>
    let s := { s with hbmPoison := if bs.length = 64 then s.hbmPoison.filter (· != line) else s.hbmPoison }
    if s.lineKey line = key then { s with hbm := memWrite zeroByte s.hbm off bs }
    else
      let whole := splice (s.lineUnder key line) (off % 64) bs
      { s.tagLines line (line + 1) key with hbm := memWrite zeroByte s.hbm (64 * line) whole }

/-- Write a physical range under a key, line by line. -/
def State.writePhys (s : State) (tier : Tier) (key off : Nat) (bs : Bytes) : State :=
  (cut 64 off bs.length).foldl (fun s (o, k) => s.writeLine tier key o ((bs.drop (o - off)).take k)) s

/-- Fill whole lines with zeros under a key, clearing their poison. -/
def State.zeroPhys (s : State) (tier : Tier) (key off n : Nat) : State :=
  let out (l : Nat) : Bool := !(decide (off / 64 ≤ l) && decide (l < (off + n) / 64))
  match tier with
  | .bed => { s with bed := memClear s.bed off n, bedPoison := s.bedPoison.filter out }
  | .hbm =>
    { s.tagLines (off / 64) ((off + n) / 64) key with
      hbm := memClear s.hbm off n, hbmPoison := s.hbmPoison.filter out }

/-- The first request to reach the HBM tier locks the address map (R282). -/
def State.touch (s : State) (tier : Tier) : State :=
  match tier with
  | .bed => s
  | .hbm => s.setRegN FC_MAP_LOCK 1

/-! Regions (R383). -/

/-- Listed region entries of a tier: 0 Bed, 1 HBM, 2 NAND. -/
def State.regions (s : State) (tier : Nat) : List Nat :=
  (s.regs.filter fun e => decide (QN_RGN (256 * tier) ≤ e.1) && decide (e.1 < QN_RGN (256 * tier) + 0x800)).map
    fun e => e.2.toNat

/-- Whether a 64 KiB unit of a tier lies in the secure world. -/
def State.secureUnit (s : State) (tier unit : Nat) : Bool :=
  (s.regions tier).any fun e =>
    bit e 0 && bit e 1 && decide (bits e 35 8 ≤ unit) && decide (unit ≤ bits e 63 36)

/-- Region table of a tier. -/
def Tier.table : Tier → Nat
  | .bed => 0
  | .hbm => 1

/-! Translation and the checks of an access. -/

/-- Who makes an access: a tenant through its tables, or a physical access of the secure world or of the PF. -/
inductive Who where
  | tenant (t : Nat)
  | secure
  | pf
deriving DecidableEq, Repr

/-- Size of an entry in 64 KiB units. -/
def XEntry.units (e : XEntry) : Nat := if e.big then 32 else 1

/-- The entry of a tenant that maps a 64 KiB unit of a tier. -/
def State.xfind (s : State) (t : Nat) (tier : Tier) (unit : Nat) : Option XEntry :=
  s.xlat.find? fun e =>
    decide (e.tenant = t) && (e.bed == decide (tier = .bed)) && decide (e.off ≤ unit) && decide (unit < e.off + e.units)

/-- Key slot of an accessor: the owner's for a tenant, slot 16 for a physical access. -/
def State.whoKey (s : State) : Who → Nat
  | .tenant t => s.slotKeyId t
  | .secure => s.slotKeyId 16
  | .pf => s.slotKeyId 16

/-- Whether `n` bytes from a physical offset reach a region of the secure world. -/
def State.secureRange (s : State) (tier : Tier) (phys n : Nat) : Bool :=
  (List.range ((phys + n - 1) / 0x10000 + 1 - phys / 0x10000)).any fun i => s.secureUnit tier.table (phys / 0x10000 + i)

/-- The checks of R42 in their order, then R274 (R384), on `n` bytes that lie in one granule: the physical offset, or the
status. -/
def State.checkAt (s : State) (who : Who) (tier : Tier) (off n : Nat) (wr : Bool) : Except Nat Nat :=
  if tier.size ≤ off then .error stTranslation
  else
    match who with
    | .secure => .ok off
    | .pf => if s.secureRange tier off n then .error stWorld else .ok off
    | .tenant t =>
      match s.xfind t tier (off / 0x10000) with
      | none => .error stTranslation
      | some e =>
        let phys := e.phys * 0x10000 + (off - e.off * 0x10000)
        if wr && e.ro then .error stProtection
        else if s.secureRange tier phys n then .error stWorld
        else if e.poison then .error stPoisoned
        else .ok phys

/-- End of the granule that holds an offset: 64 KiB, or the 2 MiB of an entry that maps so much. -/
def State.granEnd (s : State) (who : Who) (tier : Tier) (off : Nat) : Nat :=
  let small := off / 0x10000 * 0x10000 + 0x10000
  match who with
  | .tenant t =>
    match s.xfind t tier (off / 0x10000) with
    | some e => (e.off + e.units) * 0x10000
    | none => small
  | .secure => small
  | .pf => small

/-- Cut a range at the ends of its granules, with fuel. -/
def State.granCut (s : State) (who : Who) (tier : Tier) : Nat → Nat → Nat → List (Nat × Nat)
  | 0, _, _ => []
  | _, _, 0 => []
  | f + 1, off, n =>
    let k := min n (s.granEnd who tier off - off)
    (off, k) :: s.granCut who tier f (off + k) (n - k)

/-- Log a read of a poisoned Bed line: its offset and the number of such reads, saturating (R85, R95). -/
def State.logPoison (s : State) (tier : Tier) (phys : Nat) : State :=
  match tier with
  | .bed =>
    let n := min 0xFFFF (s.field BED_POISON_LOG 63 48 + 1)
    s.setRegN BED_POISON_LOG (phys / 64 * 64 + place n 48)
  | .hbm => s

/-- Result of a checked access: the state with its logs, and the pieces (physical offset, length), or the status and
the lowest offset touched in the failing granule or line. -/
abbrev Access := State × Except (Nat × Nat) (List (Nat × Nat))

/-- Check a range granule by granule in ascending order (R42); a read also meets line poison (R85). -/
def State.access (s : State) (who : Who) (tier : Tier) (off n : Nat) (wr : Bool) : Access :=
  let step (acc : Access) (p : Nat × Nat) : Access :=
    match acc with
    | (s, .error e) => (s, .error e)
    | (s, .ok l) =>
      match s.checkAt who tier p.1 p.2 wr with
      | .error c => (s, .error (c, p.1))
      | .ok phys =>
        let s := s.touch tier
        if wr then (s, .ok (l ++ [(phys, p.2)]))
        else
          match (cut 64 phys p.2).find? fun q => s.poisonAt tier q.1 with
          | some q => (s.logPoison tier q.1, .error (stPoisoned, p.1 + (q.1 - phys)))
          | none => (s, .ok (l ++ [(phys, p.2)]))
  (s.granCut who tier (n / 0x10000 + 2) off n).foldl step (s, .ok [])

/-- Read a range for an accessor. -/
def State.readFor (s : State) (who : Who) (tier : Tier) (off n : Nat) : State × Except (Nat × Nat) Bytes :=
  match s.access who tier off n false with
  | (s, .error e) => (s, .error e)
  | (s, .ok l) => (s, .ok (l.flatMap fun (o, k) => s.readPhys tier (s.whoKey who) o k))

/-- Write a range for an accessor: nothing is written unless every granule passes. -/
def State.writeFor (s : State) (who : Who) (tier : Tier) (off : Nat) (bs : Bytes) : State × Except (Nat × Nat) Unit :=
  match s.access who tier off bs.length true with
  | (s, .error e) => (s, .error e)
  | (s, .ok l) =>
    let (s, _) := l.foldl (fun (acc : State × Bytes) p =>
      (acc.1.writePhys tier (s.whoKey who) p.1 (acc.2.take p.2), acc.2.drop p.2)) (s, bs)
    (s, .ok ())

end Sys2Proof.Machine
end

