-- ==== Sys2Proof/Machine/Queues.lean ====
section
/-! DEFINITION. Marks and signals (R43, R53 to R56), completion and event rings (R68, R71 to R73, R429), job-queue
state (R63 to R65), and the state of a block (R436). -/

namespace Sys2Proof.Machine

/-! Marks. -/

/-- Value of a mark. -/
def State.mark (s : State) (n : Nat) : DWord := smapGet (fun _ => 0) s.marks n

/-- The absolute mark a tenant's relative number names, none outside its window (R43). -/
def State.markOf (s : State) (t rel : Nat) : Option Nat :=
  if rel < s.field (MK_WIN t) 31 16 then some (s.field (MK_WIN t) 15 0 + rel) else none

/-- Whether a wait on a tenant's mark holds; false outside the window (R54). -/
def State.waitHolds (s : State) (t rel target : Nat) : Bool :=
  match s.markOf t rel with
  | some m => decide (target ≤ (s.mark m).toNat)
  | none => false

/-- Absolute number of the tail and head mark of a trough (R90). -/
def troughTail (n : Nat) : Nat := 61440 + 2 * n
def troughHead (n : Nat) : Nat := 61441 + 2 * n

/-! Descriptor fields (Table 2.4 to Table 2.6). -/

/-- Little-endian field of `n` bytes at byte `o` of a descriptor. -/
def dfield (d : BitVec 1024) (o n : Nat) : Nat := (d >>> (8 * o)).toNat % 2 ^ (8 * n)

/-- Bits [hi:lo] of a descriptor's header. -/
def dbits (d : BitVec 1024) (hi lo : Nat) : Nat := bits d.toNat hi lo

def dClass (d : BitVec 1024) : Nat := dbits d 3 0
def dOp (d : BitVec 1024) : Nat := dbits d 15 8
def dTc (d : BitVec 1024) : Nat := dbits d 30 28
def dPin (d : BitVec 1024) : Option Nat := if bit d.toNat 31 then some (dbits d 39 32) else none
def dTag (d : BitVec 1024) : Nat := dbits d 63 48
def dUser (d : BitVec 1024) : Nat := dbits d 95 64

/-- A wait slot: mark and target, where enabled. -/
def dWait (d : BitVec 1024) (n : Nat) : Option (Nat × Nat) :=
  if bit d.toNat (16 + n) then some (bits (dfield d (0x10 + 8 * n) 8) 15 0, bits (dfield d (0x10 + 8 * n) 8) 63 16) else none

/-- A signal slot's 64 bits, where enabled. -/
def dSig (d : BitVec 1024) (n : Nat) : Option Nat :=
  if bit d.toNat (20 + n) then some (dfield d (0x30 + 8 * n) 8) else none

/-! Rings. -/

/-- A ring that holds nothing, on its first pass. -/
def ringEmpty (_ : Nat) : Ring := { unread := 0, phase := true, lost := 0 }

/-- Key of a tenant's completion ring and of a function's event ring. -/
def cqKey (t : Nat) : Nat := t
def eqKey (fn : Nat) : Nat := 32 + fn

/-- State of a ring. -/
def State.ringAt (s : State) (k : Nat) : Ring := smapGet ringEmpty s.ring k

/-- Replace the state of a ring. -/
def State.setRing (s : State) (k : Nat) (r : Ring) : State := { s with ring := smapSet ringEmpty s.ring k r }

/-- The firmware state, CMD_FW_STAT.state (Table 14.6). -/
def State.fwState (s : State) : Nat := s.field CMD_FW_STAT 3 0

/-- Whether a stop has latched (R415). -/
def State.stopped (s : State) : Bool := s.regBit PWR_STATUS 9 || s.regBit PWR_STATUS 10

/-- Whether the device is host-absent (R373). -/
def State.hostAbsent (s : State) : Bool := decide (s.fwState = 5)

/-- Microseconds since PERST_N. -/
def State.micros (s : State) : Nat := s.timeNs / 1000

/-- Function and table entry of a device-wide MSI-X vector (R352). -/
def msixEntry (v : Nat) : Nat × Nat := if v < 128 then (16, v) else ((v - 128) / 120, (v - 128) % 120)

/-- Send one MSI-X message; none is sent in the host-absent state (R374). -/
def State.msix (s : State) (v : Nat) : State :=
  if s.hostAbsent then s else { s with pcie := { s.pcie with msix := msixEntry v :: s.pcie.msix } }

/-- Who a function's ring writes are made for: the tenant, or the PF's physical offset (R68, R378). -/
def fnWho (fn : Nat) : Who := if fn = 16 then .pf else .tenant fn

/-- An event before PHASE and LOST are added (Table 17.3). -/
structure Event where
  type   : Nat
  status : Nat := 0
  cls    : Nat
  inst   : Nat := 0
  tenant : Nat := 0xFF
  queue  : Nat := 0
  arg0   : Nat := 0
  arg1   : Nat := 0
deriving DecidableEq, Repr

/-- The 32 bytes of an event record. -/
def Event.bytes (e : Event) (phase : Bool) (lost time : Nat) : Bytes :=
  leBytes 2 e.type ++ leBytes 2 e.status ++ leBytes 2 e.cls ++ leBytes 1 e.inst ++ leBytes 1 e.tenant
    ++ leBytes 2 (flag phase + place e.queue 1) ++ leBytes 2 (min lost 0xFFFF)
    ++ leBytes 4 e.arg0 ++ leBytes 8 e.arg1 ++ leBytes 8 time

/-- Write an event to a function's ring, or count it in LOST where the ring is full or not configured, or HBM does
not accept requests (R73, R288). The flag
says whether the write itself passed its checks. -/
def State.eventTry (s : State) (fn : Nat) (e : Event) : State × Bool :=
  let size := 2 ^ s.regN (CMD_EQ_SIZE fn)
  let r := s.ringAt (eqKey fn)
  let lose (s : State) : State := s.setRing (eqKey fn) { r with lost := r.lost + 1 }
  if s.regN (CMD_EQ_SIZE fn) = 0 ∨ size ≤ r.unread ∨ s.hbmReady = false then (lose s, true)
  else
    let tail := s.regN (CMD_EQ_TAIL fn) % size
    match s.writeFor (fnWho fn) .hbm (s.regN (CMD_EQ_BASE fn) + 32 * tail) (e.bytes r.phase r.lost s.micros) with
    | (s, .error _) => (lose s, false)
    | (s, .ok _) =>
      let next := (tail + 1) % size
      let s := s.setRing (eqKey fn) { unread := r.unread + 1, phase := if next = 0 then !r.phase else r.phase, lost := 0 }
      let s := s.setRegN (CMD_EQ_TAIL fn) next
      (if r.unread = 0 then s.msix (s.regN (CMD_EQ_VEC fn)) else s, true)

/-- A queue that no write has enabled, between jobs. -/
def jobQIdle (_ : Nat) : JobQ := { enabled := false, lastEnd := true, parked := false }

/-- State of job queue q of tenant t. -/
def State.jobQ (s : State) (t q : Nat) : JobQ := smapGet jobQIdle s.jq (8 * t + q)

/-- Replace it. -/
def State.setJobQ (s : State) (t q : Nat) (j : JobQ) : State := { s with jq := smapSet jobQIdle s.jq (8 * t + q) j }

/-- CMD_JQn_STAT.state: 0 idle, 1 running, 2 halted, 3 disabled. -/
def State.jqState (s : State) (t q : Nat) : Nat := s.field (CMD_JQ_STAT t q) 1 0

/-- Entries of a job ring, and descriptors pending in it (R67). -/
def State.jqSize (s : State) (t q : Nat) : Nat := 2 ^ s.regN (CMD_JQ_SIZE t q)
def State.jqPending (s : State) (t q : Nat) : Nat :=
  (s.regN (CMD_JQ_TAIL t q) + s.jqSize t q - s.regN (CMD_JQ_HEAD t q)) % s.jqSize t q

/-! Updates of marks, and the releases they bring about (R53, R55, R75). -/

/-- Whether the enabled waits of a descriptor all hold. -/
def State.waitsHold (s : State) (t : Nat) (d : BitVec 1024) : Bool :=
  (List.range 4).all fun n =>
    match dWait d n with
    | some (m, target) => s.waitHolds t m target
    | none => true

/-- The entry at the head of a job queue, where it can be read. -/
def State.jqHead (s : State) (t q : Nat) : State × Except (Nat × Nat) (BitVec 1024) :=
  match s.readFor (.tenant t) .hbm (s.regN (CMD_JQ_BASE t q) + 128 * s.regN (CMD_JQ_HEAD t q)) 128 with
  | (s, .error e) => (s, .error e)
  | (s, .ok bs) => (s, .ok (BitVec.ofNat 1024 (leNat bs)))

/-- Whether a running queue (8 × tenant + queue) has a descriptor at its head whose waits all hold. -/
def State.headHolds (s : State) (k : Nat) : Bool :=
  decide (s.jqState (k / 8) (k % 8) = 1) && decide (s.jqPending (k / 8) (k % 8) ≠ 0) &&
    match (s.jqHead (k / 8) (k % 8)).2 with
    | .ok d => s.waitsHold (k / 8) d
    | .error _ => false

/-- The queues whose head descriptor is released: once its waits have held together it stays released (R55). -/
def State.relNow (s : State) : List Nat :=
  (s.jq.map Prod.fst).foldl (fun l k => if !l.contains k && s.headHolds k then insertNat k l else l) s.relHead

/-- Evaluate the waits of every head (R55). -/
def State.latch (s : State) : State := { s with relHead := s.relNow }

/-- A queue's head is no longer the one that was released. -/
def State.unlatch (s : State) (t q : Nat) : State := { s with relHead := s.relHead.filter (· != 8 * t + q) }

/-- Replace a mark's value; the waits are evaluated against it. -/
def State.setMark (s : State) (n : Nat) (v : DWord) : State :=
  let m := smapSet (fun _ => 0) s.marks n v
  { s with marks := m, relHead := { s with marks := m }.relNow }

/-- Requesters of a mark's arbiter (R75): the signal port, then every requester of atomics and puts by class code and
instance (R74). -/
def portSignals : Nat := 0
def portUnit (b : Blk) (i : Nat) : Nat := classCode b * 256 + i

/-- A mark's arbiter has served a requester: its pointer moves to the next (R74). -/
def State.markServed (s : State) (n who : Nat) : State :=
  { s with markPtr := smapSet (fun _ => 0) s.markPtr n (who + 1) }

/-- Apply a signal to an absolute mark; `remote` where it came through a Dziura port (R53, R440; assumption 54). -/
def State.signalMark (s : State) (n inc : Nat) (remote : Bool) : State :=
  let s := ((s.markServed n portSignals).setMark n (s.mark n + BitVec.ofNat 64 inc)).count MK_SIG_CNT 1
  if remote then s.count MK_REMOTE_CNT 1 else s

/-- Show an enabled queue as idle or running, keeping the index field. -/
def State.jqRefresh (s : State) (t q : Nat) : State :=
  s.setField (CMD_JQ_STAT t q) 1 0 (if s.jqPending t q = 0 then 0 else 1)

/-- Whether a job queue stands between jobs (R64). -/
def State.betweenJobs (s : State) (t q : Nat) : Bool :=
  !(s.jobQ t q).enabled || s.jqState t q != 1 || (s.jobQ t q).lastEnd

/-- While an activation waits, a queue that stands between jobs dispatches nothing more until the activation ends (R371). -/
def State.park (s : State) (t q : Nat) : State :=
  if decide (s.field CMD_FW_STAT 11 8 = 2) && s.betweenJobs t q then s.setJobQ t q { s.jobQ t q with parked := true } else s

/-- The event of a halted queue. -/
def haltEvent (t q idx : Nat) : Event :=
  { type := 0x0002, cls := classCode .cmd, inst := t, tenant := t, queue := q, arg0 := idx }

/-- Halt an enabled queue at an index, without its event; a halted queue keeps its first index (R65). -/
def State.haltQuiet (s : State) (t q idx : Nat) : State :=
  if (s.jobQ t q).enabled && s.jqState t q != 2 then s.setRegN (CMD_JQ_STAT t q) (2 + place idx 16) else s

/-- Halt every enabled queue of a tenant after a ring write failed (R68), without events. -/
def State.haltAllQuiet (s : State) (t : Nat) : State :=
  ((List.range 8).foldl (fun s q => s.haltQuiet t q (s.regN (CMD_JQ_HEAD t q))) s).blkErr .cmd t 5

/-- Write an event; a ring write that fails halts the function's queues (R68). -/
def State.event (s : State) (fn : Nat) (e : Event) : State :=
  match s.eventTry fn e with
  | (s, true) => s
  | (s, false) => if fn = 16 then s.blkErr .cmd 16 5 else s.haltAllQuiet fn

/-- Write an event for a device occurrence to the PF ring (R378). -/
def State.pfEvent (s : State) (e : Event) : State := s.event 16 e

/-- Halt a queue at an index and write its event (R65). -/
def State.halt (s : State) (t q idx : Nat) : State :=
  if (s.jobQ t q).enabled && s.jqState t q != 2 then (s.haltQuiet t q idx).event t (haltEvent t q idx) else s

/-- A refused doorbell: the queue halts at its head, in whatever state it is, and its event is written (R67; assumption 35). -/
def State.haltRefused (s : State) (t q : Nat) : State :=
  let idx := s.regN (CMD_JQ_HEAD t q)
  let s := if s.jqState t q = 2 then s else s.setRegN (CMD_JQ_STAT t q) (2 + place idx 16)
  s.event t (haltEvent t q idx)

/-- A completion-record write has failed: every enabled queue halts, with an event each (R68; assumption 35). -/
def State.haltAll (s : State) (t : Nat) : State :=
  ((List.range 8).foldl (fun s q => s.halt t q (s.regN (CMD_JQ_HEAD t q))) s).blkErr .cmd t 5

/-- Whether the completion ring of a tenant is full (R72). -/
def State.cqFull (s : State) (t : Nat) : Bool := decide (2 ^ s.regN (CMD_CQ_SIZE t) ≤ (s.ringAt (cqKey t)).unread)

/-- Write a completion record whose PHASE bit is still clear (R71, R72). -/
def State.cqWrite (s : State) (t : Nat) (rec : Bool → Bytes) : State :=
  let size := 2 ^ s.regN (CMD_CQ_SIZE t)
  let r := s.ringAt (cqKey t)
  let tail := s.regN (CMD_CQ_TAIL t) % size
  match s.writeFor (.tenant t) .hbm (s.regN (CMD_CQ_BASE t) + 32 * tail) (rec r.phase) with
  | (s, .error _) => s.haltAll t
  | (s, .ok _) =>
    let next := (tail + 1) % size
    let s := s.setRing (cqKey t) { r with unread := r.unread + 1, phase := if next = 0 then !r.phase else r.phase }
    let s := s.setRegN (CMD_CQ_TAIL t) next
    if s.hostAbsent then
      { s with fw := { s.fw with cqSince := smapSet (fun _ => 0) s.fw.cqSince t (smapGet (fun _ => 0) s.fw.cqSince t + 1) } }
    else s

/-! Units. -/

/-- Key of a block instance. -/
def unitKey (b : Blk) (i : Nat) : Nat := classCode b * 256 + i

/-- A unit as it leaves reset: engines, Keystone and Quarry disabled, every other block in service (R436). -/
def unitReset (k : Nat) : UnitSt :=
  let c := k / 256
  { st := if c / 256 = 0x0A ∨ c = 0x0B03 ∨ c = 0x0D01 then .disabled else .idle,
    retiring := false, retired := false, spareActive := false, standby := false, lastTenant := none }

/-- State of a block instance. -/
def State.unitAt (s : State) (b : Blk) (i : Nat) : UnitSt := smapGet unitReset s.unit (unitKey b i)

/-- Replace it. -/
def State.setUnit (s : State) (b : Blk) (i : Nat) (u : UnitSt) : State :=
  { s with unit := smapSet unitReset s.unit (unitKey b i) u }

/-- Whether BLK_WORLD.secure of a block is set; the blocks of R382 are fixed. -/
def State.blkSecure (s : State) (b : Blk) (i : Nat) : Bool :=
  match b with
  | .qn => true
  | .pl => true
  | .pwr => true
  | .kc => true
  | .dev => false
  | .cmd => false
  | _ => s.regBit (BLK_WORLD b i) 0

/-- The switched domain of a block instance (Table 16.2). -/
def domainOf : Blk → Nat → Option Nat
  | .ae, i => some i
  | .ce, i => some (34 + i)
  | .ve, i => some (52 + i)
  | .le, i => some (61 + i)
  | .he, i => some (66 + i)
  | .fc, i => some (156 + i)
  | .dp, i => some (172 + i)
  | .kc, i => some (197 + i)
  | .qc, _ => some 202
  | _, _ => none

/-- The clock island of a block instance (Table 16.1). -/
def islandOf : Blk → Nat → Option Nat
  | .ae, i => some i
  | .ce, i => some (34 + i)
  | .ve, i => some (52 + i)
  | .le, i => some (61 + i)
  | .he, i => some (66 + i)
  | .bed, _ => some 92
  | .pm, _ => some 92
  | .mk, _ => some 92
  | .qc, _ => some 93
  | .fc, i => some (94 + i)
  | .dp, i => some (102 + i)
  | .kc, _ => some 111
  | .qn, _ => some 112
  | _, _ => none

/-- Whether a domain's own use keeps it powered (Table 16.2): an enabled port, its Grout units where a class compresses, a
Page Map segment with an entry in use, a Prefix Table segment where a tenant has a quota. -/
def State.domUsed (s : State) (d : Nat) : Bool :=
  let port (p : Nat) : Bool := s.regBit (DP_CTL p) 0
  if 172 ≤ d ∧ d ≤ 179 then port (d - 172)
  else if 180 ≤ d ∧ d ≤ 195 then port ((d - 180) / 2) && (List.range 8).any fun k => s.regBit (DP_TC_CFG k) 0
  else if 203 ≤ d ∧ d ≤ 210 then s.pageMap.any fun e => decide (e.1 / 524288 = d - 203)
  else if 211 ≤ d ∧ d ≤ 214 then (List.range 16).any fun t => decide (s.regN (QC_QPT t) ≠ 0)
  else false

/-- Whether a domain is powered. -/
def State.powered (s : State) (d : Nat) : Bool := s.regBit (PWR_DOM d) 1 || s.domUsed d

/-- Whether the Footing port or engine class of a flight is this unit's. -/
def Flight.onUnit (f : Flight) (b : Blk) (i : Nat) : Bool := decide (f.cls = b) && decide (f.unit = i)

/-- Whether a bank copy of R87 is in progress. -/
def State.copying (s : State) : Bool := (List.range 64).any fun g => s.regBit (BED_REMAP g) 1

/-- Whether a block has work in flight (R436). -/
def State.working (s : State) (b : Blk) (i : Nat) : Bool :=
  match b with
  | .qc => s.flights.any (fun f => decide (f.cls = .qc)) || !s.moves.isEmpty || !s.builds.isEmpty
  | .fc => s.hbmQ.any fun w => decide (w.pc / 32 = i)
  | .dp => s.rops.any (fun r => decide (r.port = i) && (r.sent || !s.regBit (BLK_CTL .dp i) 1)) || s.conn.any (fun c => decide (c.port = i) && !c.unacked.isEmpty)
      || s.rxq.any fun f => decide (f.port = i)
  | _ => s.flights.any fun f => f.onUnit b i

/-- BLK_STAT.state (Table 18.4). A standby spare and a retired unit report their own states although their domain is
off (R23; assumption 8, DEDUCED). -/
def State.blkState (s : State) (b : Blk) (i : Nat) : Nat :=
  let u := s.unitAt b i
  if s.stopped then (if (domainOf b i).all s.powered then 8 else 0)
  else if u.retired then 6
  else if u.standby then 7
  else if u.st = .substituting ∨ (b = .bed ∧ s.copying) then 5
  else if !(domainOf b i).all s.powered then 0
  else if u.st = .disabled then 1
  else if s.working b i then (if u.retiring ∨ s.regBit (BLK_CTL b i) 1 ∨ u.st = .draining then 4 else 3)
  else 2

/-- BLK_STAT.idle (R436). -/
def blkIdleBit (st : Nat) : Bool := [0, 1, 2, 6, 7, 8].contains st

/-- The value BLK_STAT reads (Table 18.2). -/
def State.blkStat (s : State) (b : Blk) (i : Nat) : Nat :=
  let st := s.blkState b i
  let u := s.unitAt b i
  flag (blkIdleBit st) + place (flag (u.retiring || s.regBit (BLK_CTL b i) 1)) 1 + place (flag u.retired) 2
    + place (flag u.spareActive) 3 + place st 4

/-- Which instance serves a named index of an engine class: itself, or the spare that holds its role (R62, R423). -/
def State.roleOf (s : State) (b : Blk) (i : Nat) : Nat := smapGet (fun k => k % 256) s.roles (unitKey b i)

/-- Whether an engine is in service: not a standby spare, not taking over a role, not retired. -/
def State.inService (s : State) (b : Blk) (i : Nat) : Bool :=
  decide (i < (placeOf b).count) && !(s.unitAt b i).standby && !(s.unitAt b i).retired
    && decide ((s.unitAt b i).st ≠ .substituting)

/-- Engine class of a descriptor class (Table 2.7). -/
def engineOf (cls : Nat) : Option Blk :=
  if cls = 1 then some .ae else if cls = 2 then some .ce else if cls = 3 then some .ve else if cls = 4 then some .le
  else if cls = 5 ∨ cls = 7 then some .he else if cls = 6 then some .qc else none

/-- Enabled units of a class (R22, R24): in service and not retired. -/
def State.enabledCount (s : State) (b : Blk) : Nat :=
  ((List.range (placeOf b).count).filter fun i => s.inService b i).length

/-- State of a tenant's slot: 0 EMPTY, 1 LIVE, 2 RETIRING, 3 SCRUBBING. -/
def State.slot (s : State) (t : Nat) : Nat := s.field (QN_TSTAT t) 1 0

end Sys2Proof.Machine
end

