-- ==== Sys2Proof/Machine/Access.lean ====
section
/-! DEFINITION. The access rules every register access follows (R8, R12, R382, R432, R438, R463), and the storing of a
plain register; what a command does behind a register is given in its family's file. -/

namespace Sys2Proof.Machine

/-- Outcome of a command. -/
abbrev Out := Host.Outcome State Fault Refusal

/-- Run a command's effect: behaviour is undefined after R451 and R455 until PERST_N, and with PERST_N low the part is
held in reset and a command has no effect (R457). -/
def live (s : State) (act : State → State) : Out :=
  if s.undef then .fault .behaviourUndefined
  else if s.pins.perstN then .next (act s) else .next s

/-- Run the effect of a pin or of the JTAG port, which needs no release of PERST_N. -/
def atPins (s : State) (act : State → State) : Out :=
  if s.undef then .fault .behaviourUndefined else .next (act s)

/-- Record a refused access in the device page (R12). -/
def State.devErr (s : State) : State := s.blkErr .dev 0 5

/-- Whether a register beyond the header is closed to the non-secure world: marked secure, or on a page whose block is
secure. Quoin's own pages follow the marks of Table 15.5, since R379 gives the host the PF mailbox (assumption 9, DEDUCED). -/
def State.closed (s : State) (b : Blk) (i : Nat) (r : Reg) : Bool :=
  decide (r.sec = .secure) || (s.blkSecure b i && decide (b ≠ .qn))

/-- Header offsets at which a non-secure write is recorded: those marked secure write, and BLK_PWR and BLK_CLK, which are secure
(R12, Table 18.2). -/
def headerSecureWrite (off : Nat) : Bool := [0x0C, 0x10, 0x1C, 0x24, 0x28, 0x2C].contains off

/-- Let a write to the register at an address through the access rules, then act: an unmapped page or undefined offset
sets BLK_ERR (R432); a closed register discards a non-secure write and records it (R12), as does a header register of the
pages that are secure in whole. -/
def State.allow (s : State) (sec : Bool) (addr : Nat) (act : State → State) : State :=
  match pageOf addr with
  | none => s.devErr
  | some (b, i, p) =>
    let off := addr % 0x1000
    if off < 0x40 then (if (headerSecureWrite off || b == .pwr || b == .pl) && !sec then s.devErr else act s)
    else
      match rowAt b i p off with
      | none => if !sec && s.blkSecure b i && b != .qn then s.devErr else s.blkErr b i 5
      | some (r, _, _) => if !sec && s.closed b i r then s.devErr else act s

/-- Whether an access has a size and alignment that registers take (R8). -/
def accessOk (addr size : Nat) : Bool := (decide (size = 4) || decide (size = 8)) && decide (addr % size = 0)

/-- Store a value in a plain register under its access code (Table 0.2); a value its table does not allow is refused and
sets BLK_ERR bit [5] of the block (R463). -/
def State.storeReg (s : State) (b : Blk) (i : Nat) (r : Reg) (a v : Nat) : State :=
  let w := Nat.land v r.mask
  match r.acc with
  | .ro => s
  | .w1c => s.modReg a fun old => old - Nat.land old w
  | .rw => if r.ok.holds w then s.setRegN a w else s.blkErr b i 5
  | .wo => if r.ok.holds w then s.setRegN a w else s.blkErr b i 5
  | .rws => if r.ok.holds w then s.setRegN a w else s.blkErr b i 5

/-- The full value that a 32-bit write to one half of a register gives it (R438); a whole write gives its own. -/
def State.mergeHalf (s : State) (a byte size bytes v : Nat) : Nat :=
  if size = bytes then v % 2 ^ (8 * bytes)
  else
    let old := s.regN a
    if byte = 0 then old / 2 ^ 32 * 2 ^ 32 + v % 2 ^ 32 else old % 2 ^ 32 + place (v % 2 ^ 32) 32

end Sys2Proof.Machine
end

