-- ==== Sys2Proof/Machine/Fp.lean ====
section
/-! DEFINITION. Exact numbers and the number formats (Table 4.1, Table 4.2): decoding, one rounding (nearest, ties to even,
R99), the special cases of Table 4.3, and FP32 arithmetic as exact arithmetic followed by that rounding (R98 to R102). -/

namespace Sys2Proof.Machine

/-- A number: (−1)^neg × m × 2^e, an infinity, or NaN. A zero keeps its sign. -/
inductive Num where
  | fin (neg : Bool) (m : Nat) (e : Int)
  | inf (neg : Bool)
  | nan
deriving DecidableEq, Repr

/-- Positive zero. -/
def Num.zero : Num := .fin false 0 0

/-- An integer. -/
def Num.ofInt (i : Int) : Num := .fin (decide (i < 0)) i.natAbs 0

/-- The signed mantissa of a finite number at exponent `e0`, which is no greater than its own. -/
def Num.mant (neg : Bool) (m : Nat) (e e0 : Int) : Int :=
  let v : Int := (m * 2 ^ (e - e0).toNat : Nat)
  if neg then -v else v

/-- A finite number from a signed mantissa. -/
def Num.ofMant (v : Int) (e : Int) : Num := .fin (decide (v < 0)) v.natAbs e

/-- Negation. -/
def Num.neg : Num → Num
  | .fin n m e => .fin (!n) m e
  | .inf n => .inf (!n)
  | .nan => .nan

/-- Magnitude. -/
def Num.abs : Num → Num
  | .fin _ m e => .fin false m e
  | .inf _ => .inf false
  | .nan => .nan

/-- Whether the number is NaN. -/
def Num.isNan : Num → Bool
  | .nan => true
  | _ => false

/-- Whether the number is a zero of either sign. -/
def Num.isZero : Num → Bool
  | .fin _ 0 _ => true
  | _ => false

/-- Whether the sign is negative. -/
def Num.isNeg : Num → Bool
  | .fin n _ _ => n
  | .inf n => n
  | .nan => false

/-- Whether the number is finite. -/
def Num.isFin : Num → Bool
  | .fin _ _ _ => true
  | _ => false

/-- Exact sum; a zero sum of unlike signs is positive (R100, IEEE 754); unlike infinities give NaN. -/
def Num.add : Num → Num → Num
  | .nan, _ => .nan
  | _, .nan => .nan
  | .inf a, .inf b => if a = b then .inf a else .nan
  | .inf a, _ => .inf a
  | _, .inf b => .inf b
  | .fin a m e, .fin b n f =>
    let g := min e f
    let v := Num.mant a m e g + Num.mant b n f g
    if v = 0 then .fin (a && b) 0 0 else .ofMant v g

/-- Exact product; infinity times zero is NaN. -/
def Num.mul : Num → Num → Num
  | .nan, _ => .nan
  | _, .nan => .nan
  | .inf a, .inf b => .inf (a != b)
  | .inf a, .fin b n _ => if n = 0 then .nan else .inf (a != b)
  | .fin a m _, .inf b => if m = 0 then .nan else .inf (a != b)
  | .fin a m e, .fin b n f => .fin (a != b) (m * n) (e + f)

/-- Exact product with a power of two. -/
def Num.scale (k : Int) : Num → Num
  | .fin a m e => .fin a m (e + k)
  | x => x

/-- Strict order of numbers; NaN compares with nothing. -/
def Num.lt : Num → Num → Bool
  | .nan, _ => false
  | _, .nan => false
  | .inf a, .inf b => a && !b
  | .inf a, _ => a
  | _, .inf b => !b
  | .fin a m e, .fin b n f =>
    let g := min e f
    decide (Num.mant a m e g < Num.mant b n f g)

/-- Equality of values: zeros of either sign are equal, NaN equals nothing. -/
def Num.same (x y : Num) : Bool := !x.isNan && !y.isNan && !x.lt y && !y.lt x

/-- Round m × 2^e (a little more where `sticky`) to a multiple of 2^q, nearest, ties to even (R99): the multiple.
Where sticky is set, e is below q. -/
def roundAt (m : Nat) (e q : Int) (sticky : Bool) : Nat :=
  if q ≤ e then m * 2 ^ (e - q).toNat
  else
    let sh := (q - e).toNat
    let t := m / 2 ^ sh
    let r := m % 2 ^ sh
    let h := 2 ^ (sh - 1)
    if r > h ∨ (r = h ∧ (sticky ∨ t % 2 = 1)) then t + 1 else t

/-- A binary floating-point format: exponent and mantissa bits, bias, and what its top codes mean. -/
structure Fmt where
  ebits : Nat
  mbits : Nat
  bias  : Int
  top   : Nat       -- 0: no infinity and no NaN (E2M1); 1: only the all-ones code is NaN (E4M3); 2: IEEE
deriving DecidableEq, Repr

/-- FP4 E2M1. -/
def e2m1 : Fmt := ⟨2, 1, 1, 0⟩
/-- FP8 E4M3. -/
def e4m3 : Fmt := ⟨4, 3, 7, 1⟩
/-- FP8 E5M2. -/
def e5m2 : Fmt := ⟨5, 2, 15, 2⟩
/-- FP16. -/
def fp16 : Fmt := ⟨5, 10, 15, 2⟩
/-- BF16. -/
def bf16 : Fmt := ⟨8, 7, 127, 2⟩
/-- FP32. -/
def fp32 : Fmt := ⟨8, 23, 127, 2⟩

/-- The number a code stands for (Table 4.2). -/
def Fmt.decode (f : Fmt) (v : Nat) : Num :=
  let man := v % 2 ^ f.mbits
  let ex := v / 2 ^ f.mbits % 2 ^ f.ebits
  let neg := bit v (f.mbits + f.ebits)
  let q0 : Int := 1 - f.bias - f.mbits
  if f.top = 2 ∧ ex = 2 ^ f.ebits - 1 then (if man = 0 then .inf neg else .nan)
  else if f.top = 1 ∧ ex = 2 ^ f.ebits - 1 ∧ man = 2 ^ f.mbits - 1 then .nan
  else if ex = 0 then .fin neg man q0
  else .fin neg (man + 2 ^ f.mbits) (q0 + ex - 1)

/-- Code of the largest finite magnitude. -/
def Fmt.maxCode (f : Fmt) : Nat :=
  if f.top = 2 then (2 ^ f.ebits - 1) * 2 ^ f.mbits - 1
  else if f.top = 1 then 2 ^ (f.ebits + f.mbits) - 2
  else 2 ^ (f.ebits + f.mbits) - 1

/-- Canonical NaN (R100); a format without NaN gives +0.0 (Table 4.3). -/
def Fmt.nanCode (f : Fmt) : Nat :=
  if f.top = 2 then (if f.mbits = 2 then 0x7F else (2 ^ f.ebits - 1) * 2 ^ f.mbits + 2 ^ (f.mbits - 1))
  else if f.top = 1 then 2 ^ (f.ebits + f.mbits) - 1
  else 0

/-- What a magnitude too large, or an infinity, becomes: infinity in an IEEE format, else the largest finite
(Table 4.3); with `sat`, always the largest finite (R123). -/
def Fmt.overCode (f : Fmt) (sat : Bool) : Nat :=
  if f.top = 2 ∧ ¬sat then (2 ^ f.ebits - 1) * 2 ^ f.mbits else f.maxCode

/-- Magnitude code of m × 2^e (a little more where `sticky`), rounded once; none where it is too large. -/
def Fmt.magCode (f : Fmt) (m : Nat) (e : Int) (sticky : Bool) : Option Nat :=
  let q0 : Int := 1 - f.bias - f.mbits
  let q := max ((Nat.log2 m : Int) + e - f.mbits) q0
  let t := roundAt m e q sticky
  let code := t + (q - q0).toNat * 2 ^ f.mbits
  if m = 0 then some 0 else if code ≤ f.maxCode then some code else none

/-- Conversion of an exact number to the format (R99, R101); `sat` saturates to the largest finite (R123). -/
def Fmt.encodeWith (f : Fmt) (sat : Bool) (sticky : Bool) (x : Num) : Nat :=
  let sgn (n : Bool) : Nat := if n then 2 ^ (f.ebits + f.mbits) else 0
  match x with
  | .nan => f.nanCode
  | .inf n => sgn n + f.overCode sat
  | .fin n m e =>
    match f.magCode m e sticky with
    | some c => sgn n + c
    | none => sgn n + f.overCode sat

/-- Conversion of an exact number to the format under Table 4.3. -/
def Fmt.encode (f : Fmt) (x : Num) : Nat := f.encodeWith false false x

/-- The number an FP32 word stands for. -/
def num32 (w : Word) : Num := fp32.decode w.toNat

/-- The FP32 word nearest to a number. -/
def word32 (x : Num) : Word := BitVec.ofNat 32 (fp32.encode x)

/-- Canonical FP32 NaN (R100). -/
def nan32 : Word := 0x7FC00000

/-- FP32 addition. -/
def f32add (a b : Word) : Word := word32 ((num32 a).add (num32 b))

/-- FP32 subtraction. -/
def f32sub (a b : Word) : Word := word32 ((num32 a).add (num32 b).neg)

/-- FP32 multiplication. -/
def f32mul (a b : Word) : Word := word32 ((num32 a).mul (num32 b))

/-- FP32 fused multiply-add: one rounding. -/
def f32fma (a b c : Word) : Word := word32 (((num32 a).mul (num32 b)).add (num32 c))

/-- Correctly rounded quotient of two finite magnitudes in FP32. -/
def f32divMag (m : Nat) (e : Int) (n : Nat) (f : Int) : Num × Bool :=
  let k := 64 + Nat.log2 n
  (.fin false (m * 2 ^ k / n) (e - f - k), decide (m * 2 ^ k % n ≠ 0))

/-- FP32 division, correctly rounded; x/0 is an infinity, 0/0 and inf/inf are NaN (IEEE 754). -/
def f32div (a b : Word) : Word :=
  let go : Num → Num → Nat
    | .nan, _ => fp32.nanCode
    | _, .nan => fp32.nanCode
    | .inf _, .inf _ => fp32.nanCode
    | .inf x, .fin y _ _ => fp32.encode (.inf (x != y))
    | .fin x _ _, .inf y => fp32.encode (.fin (x != y) 0 0)
    | .fin x m e, .fin y n f =>
      if n = 0 then (if m = 0 then fp32.nanCode else fp32.encode (.inf (x != y)))
      else
        let (q, st) := f32divMag m e n f
        match q with
        | .fin _ t g => fp32.encodeWith false st (.fin (x != y) t g)
        | z => fp32.encode z
  BitVec.ofNat 32 (go (num32 a) (num32 b))

/-- FP32 value nearest to an integer (R102). -/
def f32ofInt (i : Int) : Word := word32 (.ofInt i)

/-- FP32 negation: the sign bit is turned; NaN stays the canonical NaN (R100). -/
def f32neg (a : Word) : Word := if (num32 a).isNan then nan32 else a ^^^ 0x80000000

/-- FP32 magnitude. -/
def f32abs (a : Word) : Word := if (num32 a).isNan then nan32 else a &&& 0x7FFFFFFF

/-- Rounding to an integer, nearest, ties to even; none for NaN, the bounds for infinities are the caller's. -/
def Num.toInt : Num → Option Int
  | .fin n m e =>
    let t : Int := (roundAt m e 0 false : Nat)
    some (if n then -t else t)
  | _ => none

/-- Rounding to an integer with clipping: NaN gives 0, an infinity its bound (R116 step 3, R120, Table 4.3). -/
def Num.toIntClip (lo hi : Int) : Num → Int
  | .nan => 0
  | .inf n => if n then lo else hi
  | x => match x.toInt with
    | some i => max lo (min hi i)
    | none => 0

/-- floor(log2 x) of a positive finite number. -/
def Num.log2 : Num → Int
  | .fin _ m e => (Nat.log2 m : Int) + e
  | _ => 0

/-- The larger of two numbers, NaN skipped: a NaN operand gives the other one. -/
def Num.maxSkip (a b : Num) : Num :=
  if a.isNan then b else if b.isNan then a else if a.lt b then b else a

/-- Two's complement value of an n-bit code. -/
def signedOf (n v : Nat) : Int := if v % 2 ^ n < 2 ^ (n - 1) then (v % 2 ^ n : Nat) else (v % 2 ^ n : Nat) - (2 ^ n : Nat)

/-- n-bit two's complement code of an integer. -/
def codeOf (n : Nat) (i : Int) : Nat := (i % (2 ^ n : Nat)).toNat

/-- Saturation to INT32 (R109). -/
def sat32 (i : Int) : Int := max (-2147483648) (min 2147483647 i)

end Sys2Proof.Machine
end

