-- ==== Sys2Proof/Machine/Operands.lean ====
section
/-! DEFINITION. What every descriptor's operation shares: the work in progress with its checked reads and deferred writes
(R15, R42, R62), element formats and packing (R97, R103 to R106), requantisation (R111 to R116), scale-state records
(R117 to R121) and block encoding (R123, R124). -/

namespace Sys2Proof.Machine

/-- An operation in progress: the state it reads (with logs and counters), its tenant, its writes newest first, the fault
that ended it with DETAIL, the conditions met that commit results, its warnings, whether strict mode has ended it, whether a
fault commits part of its results (R56), and the records it has made for troughs, newest first. -/
structure Work where
  s      : State
  t      : Nat
  wr     : List Put
  err    : Option (Nat × Nat)
  codes  : List (Nat × Nat)
  warn   : Nat
  strict : Bool
  partly : Bool
  out    : List (Nat × Bytes)
  late   : List Put
deriving Repr

/-- Start an operation of a tenant. -/
def Work.start (s : State) (t : Nat) (strict : Bool) : Work :=
  { s := s, t := t, wr := [], err := none, codes := [], warn := 0, strict := strict, partly := false, out := [],
    late := [] }

/-- End the operation with a fault, unless one has ended it. -/
def Work.fail (w : Work) (code detail : Nat) : Work :=
  if w.err.isSome then w else { w with err := some (code, detail) }

/-- Whether a fault has ended the operation. -/
def Work.dead (w : Work) : Bool := w.err.isSome

/-- Do a part that a fault, or the end by strict mode, leaves undone: the records of R15 that stay unchanged. -/
def Work.onCommit (w : Work) (f : Work → Work) : Work := if w.dead ∨ w.strict then w else f w

/-- Make a record for a trough. -/
def Work.emit (w : Work) (trough : Nat) (rec : Bytes) : Work := if w.dead then w else { w with out := (trough, rec) :: w.out }

/-- Change the state behind the operation. -/
def Work.mapS (w : Work) (f : State → State) : Work := { w with s := f w.s }

/-- Do the next part unless a fault has ended the operation. -/
def Work.andThen (w : Work) (f : Work → Work) : Work := if w.dead then w else f w

/-- Do a part for each item in order, until a fault ends the operation. -/
def Work.each {α : Type} (w : Work) (l : List α) (f : Work → α → Work) : Work :=
  l.foldl (fun w a => if w.dead then w else f w a) w

/-- Collect a value for each item in order, until a fault ends the operation. -/
def Work.collect {α β : Type} (w : Work) (l : List α) (f : Work → α → Work × β) : Work × List β :=
  let r := l.foldl (fun (acc : Work × List β) a =>
    if acc.1.dead then acc
    else
      let (w, b) := f acc.1 a
      (w, b :: acc.2)) (w, [])
  (r.1, r.2.reverse)

/-- Check an address that must be local and lie in the Bed or in HBM (R129); the tier and offset. -/
def Work.tierAddr (w : Work) (ga : Nat) : Option (Tier × Nat) :=
  if w.s.isLocal ga then (tierOf (gaSpace ga)).map fun t => (t, gaOff ga) else none

/-- End with TRANSLATION_FAULT where an address is not local in the Bed or HBM (R129). -/
def Work.needLocal (w : Work) (ga : Nat) : Work :=
  if (w.tierAddr ga).isSome then w else w.fail stTranslation ga

/-- Read `n` bytes at a global address under R42; zeros once a fault has ended the operation. -/
def Work.read (w : Work) (ga n : Nat) : Work × Bytes :=
  let zeros := List.replicate n 0
  if w.dead then (w, zeros)
  else
    match w.tierAddr ga with
    | none => (w.fail stTranslation ga, zeros)
    | some (tier, off) =>
      match w.s.readFor (.tenant w.t) tier off n with
      | (s, .error (c, o)) => ({ w with s := s }.fail c (gaOf (gaChip ga) (gaSpace ga) o), zeros)
      | (s, .ok bs) => ({ w with s := s }, bs)

/-- Write a run that lies in one granule. -/
def Work.writeRun (w : Work) (ga : Nat) (tier : Tier) (off : Nat) (bs : Bytes) : Work :=
  match w.s.access (.tenant w.t) tier off bs.length true with
  | (s, .error (c, o)) => { w with s := s }.fail c (gaOf (gaChip ga) (gaSpace ga) o)
  | (s, .ok l) =>
    let key := s.slotKeyId w.t
    let r := l.foldl (fun (acc : List Put × Bytes) p =>
      ({ tier := tier, key := key, off := p.1, data := acc.2.take p.2 } :: acc.1, acc.2.drop p.2)) (w.wr, bs)
    { w with s := s, wr := r.1 }

/-- Write bytes at a global address under R42, granule by granule: checked now, applied when the operation ends. -/
def Work.write (w : Work) (ga : Nat) (bs : Bytes) : Work :=
  if w.dead ∨ bs.isEmpty then w
  else
    match w.tierAddr ga with
    | none => w.fail stTranslation ga
    | some (tier, off) =>
      let r := (w.s.granCut (.tenant w.t) tier (bs.length / 0x10000 + 2) off bs.length).foldl (fun (acc : Work × Bytes) p =>
        (if acc.1.dead then acc.1 else acc.1.writeRun ga tier p.1 (acc.2.take p.2), acc.2.drop p.2)) (w, bs)
      r.1

/-- Write bytes as `write` does, but only when the descriptor completes with its results committed (R121, R218). -/
def Work.writeLate (w : Work) (ga : Nat) (bs : Bytes) : Work :=
  let v := { w with wr := [] }.write ga bs
  { v with wr := w.wr, late := v.wr ++ w.late }

/-- Whether two lists of (address, length) ranges have a byte in common. -/
def rangesMeet (a b : List (Nat × Nat)) : Bool :=
  a.any fun x => b.any fun y => decide (x.1 < y.1 + y.2) && decide (y.1 < x.1 + x.2)

/-- Ranges of `n` rows of `len` bytes, `pitch` apart. -/
def rowRanges (base pitch n len : Nat) : List (Nat × Nat) := (List.range n).map fun r => (base + r * pitch, len)

/-- Leave the content of every write made so far open, where the spec calls it undefined (R131 and its like). -/
def Work.openOutputs (w : Work) (cond : Bool) : Work :=
  if cond then
    { w with
      s := w.s.tick
      wr := w.wr.zipIdx.map fun (p, i) =>
        { p with data := (List.range p.data.length).map fun j => Config.freeByte w.s.free (i * 0x10000 + j) } }
  else w

/-- The same for the writes of the completion. -/
def Work.openLate (w : Work) (cond : Bool) : Work :=
  let v := { w with wr := w.late }.openOutputs cond
  { v with wr := w.wr, late := v.wr }

/-- Apply the writes in the order they were made. -/
def Work.apply (w : Work) : State := w.wr.reverse.foldl (fun s p => s.writePhys p.tier p.key p.off p.data) w.s

/-- Apply the writes of an operation that a fault ended: each byte written before the fault is kept or not, and the spec
does not say which (R15). -/
def Work.applySome (w : Work) : State :=
  let n := w.s.free
  let r := w.wr.reverse.foldl (fun (acc : State × Nat) p =>
    let bytes := p.data.zipIdx
    let s := bytes.foldl (fun s (b, i) =>
      if Config.freeBit n (acc.2 + i) then s.writePhys p.tier p.key (p.off + i) [b] else s) acc.1
    (s, acc.2 + p.data.length)) (w.s.tick, 0)
  r.1

/-! Malformed descriptors (R62). -/

/-- DETAIL of a malformed descriptor whose first bad field lies at a byte offset. -/
def badField (off : Nat) : Nat := 2 ^ 63 + off

/-- The lowest offset among the conditions that hold. -/
def firstBad (l : List (Bool × Nat)) : Option Nat :=
  (l.filter Prod.fst).foldl (fun acc x => some (match acc with | none => x.2 | some y => min y x.2)) none

/-- End as malformed where some condition holds. -/
def Work.checkFields (w : Work) (l : List (Bool × Nat)) : Work :=
  match firstBad l with
  | none => w
  | some o => w.fail stProtection (badField o)

/-- The condition that one of some reserved bits of a little-endian field is set, each bit named by its byte. -/
def rsv (v : Nat) (base : Nat) (ranges : List (Nat × Nat)) : List (Bool × Nat) :=
  ranges.map fun (hi, lo) => (decide (bits v hi lo ≠ 0), base + lo / 8)

/-- Little-endian field of `n` bytes at byte `o` of a block. -/
def pfield (b : Bytes) (o n : Nat) : Nat := leNat ((b.drop o).take n)

/-- Read `nr` rows of `nc` elements of format `c` from row `r0` and element `c0` of a tensor at `base`. -/
def Work.readRows (w : Work) (base pitch bitsPer : Nat) (r0 nr c0 nc : Nat) : Work × List Bytes :=
  w.collect (List.range nr) fun w r => w.read (base + (r0 + r) * pitch + c0 * bitsPer / 8) (ceilDiv (nc * bitsPer) 8)

/-! Formats (Table 4.1). -/

/-- Whether a format code is not reserved (R97). -/
def fmtKnown (c : Nat) : Bool :=
  [0x00, 0x01, 0x02, 0x08, 0x09, 0x0A, 0x0C, 0x0D, 0x0E, 0x10, 0x11, 0x12, 0x13, 0x14, 0x18].contains c

/-- Bits of one element. -/
def fmtBits (c : Nat) : Nat :=
  if c = 0x00 ∨ c = 0x08 ∨ c = 0x10 ∨ c = 0x14 then 4
  else if c = 0x02 ∨ c = 0x0E then 32
  else if c = 0x0C ∨ c = 0x0D then 16
  else 8

/-- Whether a format carries block scales. -/
def fmtBlock (c : Nat) : Bool := decide (0x10 ≤ c) && decide (c ≤ 0x14)

/-- Bytes of a row of `n` elements (R103). -/
def rowBytes (c n : Nat) : Nat := ceilDiv (n * fmtBits c) 8

/-- The floating-point format of a code's elements, where it has one. -/
def fmtFloat (c : Nat) : Option Fmt :=
  if c = 0x08 ∨ c = 0x10 then some e2m1 else if c = 0x09 ∨ c = 0x11 then some e4m3
  else if c = 0x0A ∨ c = 0x12 then some e5m2 else if c = 0x0C then some fp16
  else if c = 0x0D then some bf16 else if c = 0x0E then some fp32 else none

/-- Value of one element's bits, before any block scale (R98, Table 4.2). -/
def elemNum (c v : Nat) : Num :=
  match fmtFloat c with
  | some f => f.decode v
  | none =>
    if c = 0x13 then (Num.ofInt (signedOf 8 v)).scale (-6)
    else if c = 0x18 then (if v = 0xFF then .nan else .fin false 1 (v - 127))
    else .ofInt (signedOf (fmtBits c) v)

/-- Unpack `n` element codes of a row (R103). -/
def unpack (c n : Nat) (bs : Bytes) : List Nat :=
  match fmtBits c with
  | 4 => (List.range n).map fun i => let b := (nth bs (i / 2)).toNat; if i % 2 = 0 then b % 16 else b / 16
  | 16 => (List.range n).map fun i => pfield bs (2 * i) 2
  | 32 => (List.range n).map fun i => pfield bs (4 * i) 4
  | _ => (List.range n).map fun i => (nth bs i).toNat

/-- Pack element codes into a row, an odd high nibble zero (R103). -/
def pack (c : Nat) (l : List Nat) : Bytes :=
  match fmtBits c with
  | 4 => (chunks 2 l).map fun p => BitVec.ofNat 8 (p.getD 0 0 % 16 + 16 * (p.getD 1 0 % 16))
  | 16 => l.flatMap (leBytes 2)
  | 32 => l.flatMap (leBytes 4)
  | _ => l.map (BitVec.ofNat 8)

/-- Apply a block scale byte to a value (R106). -/
def scaleBy (e : Nat) (x : Num) : Num := if e = 0xFF then .nan else x.scale ((e : Int) - 127)

/-- Values of a row with its scale bytes, one for each 32 elements (none for a plain format). -/
def rowNums (c : Nat) (codes : List Nat) (scales : Bytes) : List Num :=
  codes.zipIdx.map fun (v, i) =>
    if fmtBlock c then scaleBy (nth scales (i / 32)).toNat (elemNum c v) else elemNum c v

/-- A value rounded to an integer and clipped: the code of an INT4 or INT8 element (Table 4.3, R168). -/
def intCode (c : Nat) (lo hi : Int) (x : Num) : Nat := codeOf (fmtBits c) (x.toIntClip lo hi)

/-- A number converted to a floating-point code (R101). -/
def floatCode (c : Nat) (x : Num) : Nat :=
  match fmtFloat c with
  | some f => f.encode x
  | none => 0

/-! Block encoding (R123, R124). -/

/-- Exponent reserved for the element in R123 step 2. -/
def blockE (c : Nat) : Int :=
  if c = 0x10 ∨ c = 0x14 then 2 else if c = 0x11 then 8 else if c = 0x12 then 15 else 0

/-- Encode up to 32 FP32 values: the scale byte and the element codes. -/
def encodeBlock (c : Nat) (vs : List Word) : Nat × List Nat :=
  let ns := vs.map num32
  let m : Num := ns.foldl (fun (a x : Num) => a.maxSkip x.abs) Num.zero
  if ns.any fun x => !x.isFin then (0xFF, vs.map fun _ => 0)
  else if m.isZero then (0, vs.map fun _ => 0)
  else
    let x := max (-127) (min 127 (m.log2 - blockE c))
    let elem (v : Num) : Nat :=
      if c = 0x13 then codeOf 8 ((v.scale (6 - x)).toIntClip (-128) 127)
      else if c = 0x14 then codeOf 4 ((v.scale (-x)).toIntClip (-8) 7)
      else match fmtFloat c with
        | some f => f.encodeWith true false (v.scale (-x))
        | none => 0
    ((x + 127).toNat, ns.map elem)

/-- Encode a row of FP32 values in a block-scaled format: the element codes and the scale bytes. -/
def encodeRow (c : Nat) (vs : List Word) : List Nat × Bytes :=
  let bl := (chunks 32 vs).map (encodeBlock c)
  (bl.flatMap Prod.snd, bl.map fun b => BitVec.ofNat 8 b.1)

/-! Requantisation (R111 to R116). -/

/-- A requantisation block (Table 4.5). -/
structure Requant where
  mult  : Int
  shift : Nat
  mode  : Nat
  qmin  : Int
  qmax  : Int
  ofmt  : Nat
  table : Nat
deriving DecidableEq, Repr

/-- Read the block. -/
def Requant.ofNat (v : Nat) : Requant where
  mult := signedOf 32 v
  shift := bits v 37 32
  mode := bits v 39 38
  qmin := signedOf 8 (bits v 47 40)
  qmax := signedOf 8 (bits v 55 48)
  ofmt := bits v 60 56
  table := bits v 127 64

/-- Least and greatest value of INT4 or INT8. -/
def intLo (c : Nat) : Int := if c = 0x00 then -8 else -128
def intHi (c : Nat) : Int := if c = 0x00 then 7 else 127

/-- The conditions of R112 with the byte of the field each names; `base` is the block's place, `chField` the place of the
field that gives the channel count. -/
def Requant.bad (q : Requant) (v base channels chField : Nat) : List (Bool × Nat) :=
  [(decide (q.mode = 3), base + 4),
   (decide (1 < q.ofmt), base + 7),
   (decide (q.qmax < q.qmin), base + 5),
   (decide (q.ofmt ≤ 1) && (decide (q.qmin < intLo q.ofmt) || decide (intHi q.ofmt < q.qmin)), base + 5),
   (decide (q.ofmt ≤ 1) && (decide (q.qmax < intLo q.ofmt) || decide (intHi q.ofmt < q.qmax)), base + 6),
   ((decide (q.mode = 1) || decide (q.mode = 2)) && decide (65536 < channels), chField)]
    ++ rsv v base [(63, 61)]

/-- Native requantisation (R114). -/
def requantNative (a m : Int) (s : Nat) : Int :=
  let p := a * m
  if s = 0 then p
  else
    let q := p / (2 ^ s : Nat)
    let r := p - q * (2 ^ s : Nat)
    let h : Int := (2 ^ (s - 1) : Nat)
    if r > h ∨ (r = h ∧ q % 2 = 1) then q + 1 else q

/-- Requantise an accumulator of output channel with table entry `e` (8 bytes in MODE 1, 4 bytes in MODE 2). -/
def Requant.run (q : Requant) (e : Bytes) (a : Int) : Nat :=
  let clip (i : Int) : Int := min (max i q.qmin) q.qmax
  let out : Int :=
    if q.mode = 0 then clip (requantNative a q.mult q.shift)
    else if q.mode = 1 then clip (requantNative a (signedOf 32 (pfield e 0 4)) (bits (pfield e 4 4) 5 0))
    else clip ((num32 (f32mul (f32ofInt a) (BitVec.ofNat 32 (pfield e 0 4)))).toIntClip q.qmin q.qmax)
  codeOf (fmtBits q.ofmt) out

/-- Bytes of one table entry. -/
def Requant.entry (q : Requant) : Nat := if q.mode = 1 then 8 else if q.mode = 2 then 4 else 0

/-! Scale-state records (R117 to R122). -/

/-- A scale-state record in use by a descriptor: its address and bytes, what R119 derives, and the maximum so far. -/
structure Ssr where
  addr : Nat
  raw  : Bytes
  qfmt : Nat
  inv  : Word
  s    : Word
  max  : Option Num
deriving DecidableEq, Repr

/-- FP32 word at a byte of a block. -/
def pword (b : Bytes) (o : Nat) : Word := BitVec.ofNat 32 (pfield b o 4)

/-- Whether a record passes R118, but for the format it must quantise to. -/
def ssrOk (b : Bytes) : Bool :=
  let margin := num32 (pword b 0)
  let seed := num32 (pword b 4)
  let cfg := pfield b 8 4
  let h := bits cfg 3 0 + 1
  !(margin.lt (num32 0x3F000000)) && !((num32 0x41800000).lt margin) && margin.isFin
    && seed.isFin && Num.zero.lt seed
    && [0x01, 0x09, 0x0A].contains (bits cfg 8 4)
    && decide (bits cfg 20 16 ≤ h) && decide (bits cfg 27 24 < h)
    && decide (bits cfg 15 9 = 0) && decide (bits cfg 23 21 = 0) && decide (bits cfg 31 28 = 0)
    && ((b.drop 0x1C).take 0x24).all (· == 0)

/-- Derive the scale of a step (R119). -/
def Ssr.derive (addr : Nat) (b : Bytes) : Ssr :=
  let cfg := pfield b 8 4
  let hist := ((List.range (bits cfg 20 16)).map fun i => num32 (pword b (0x40 + 4 * i))).filter fun x => !x.isNan
  let a := match hist with
    | [] => num32 (pword b 4)
    | x :: l => l.foldl Num.maxSkip x
  let t := f32mul (word32 a) (pword b 0)
  let t : Word := if (num32 t).lt (num32 0x00800000) then 0x00800000 else if (num32 t).isFin then t else 0x7F7FFFFF
  let qf := bits cfg 8 4
  let q : Word := if qf = 0x01 then 0x42FE0000 else if qf = 0x09 then 0x43E00000 else 0x47600000
  { addr := addr, raw := b, qfmt := qf, inv := f32div q t, s := f32div t q, max := none }

/-- Read and check the record when a descriptor starts, and derive its scale (R118, R119). -/
def Work.ssrStart (w : Work) (addr : Nat) (fmtOk : Nat → Bool) : Work × Ssr :=
  let (w, b) := w.read addr 128
  let r := Ssr.derive addr b
  if ssrOk b && fmtOk r.qfmt then (w, r) else (w.fail stProtection addr, r)

/-- Quantise one FP32 value: its code, and the record with the maximum taken (R120, R121). -/
def Ssr.quant (r : Ssr) (x : Word) : Ssr × Nat :=
  let y := num32 (f32mul x r.inv)
  let code := if r.qfmt = 0x01 then codeOf 8 (y.toIntClip (-127) 127) else floatCode r.qfmt y
  let n := num32 x
  let mx := if n.isNan then r.max else some (match r.max with | none => n.abs | some m => m.maxSkip n.abs)
  ({ r with max := mx }, code)

/-- Quantise a list of values in order. -/
def Ssr.quantAll (r : Ssr) (xs : List Word) : Ssr × List Nat :=
  let p := xs.foldl (fun (acc : Ssr × List Nat) x =>
    let (r, c) := acc.1.quant x
    (r, c :: acc.2)) (r, [])
  (p.1, p.2.reverse)

/-- The record as it stands once the step completes (R121). -/
def Ssr.finish (r : Ssr) : Bytes :=
  let cfg := pfield r.raw 8 4
  let h := bits cfg 3 0 + 1
  let count := bits cfg 20 16
  let next := bits cfg 27 24
  let word (w : Word) : Bytes := leBytes 4 w.toNat
  let cfgOf (c n : Nat) : Nat := bits cfg 8 0 + place c 16 + place n 24
  let step := leBytes 4 (pfield r.raw 0xC 4 + 1)
  let head := r.raw.take 8
  match r.max with
  | none =>
    head ++ leBytes 4 (cfgOf count next) ++ step ++ word r.s ++ word r.inv ++ (r.raw.drop 0x18).take 4
      ++ List.replicate 0x24 0 ++ (r.raw.drop 0x40).take 0x40
  | some m =>
    head ++ leBytes 4 (cfgOf (min (count + 1) h) ((next + 1) % h)) ++ step ++ word r.s ++ word r.inv ++ word (word32 m)
      ++ List.replicate 0x24 0 ++ splice ((r.raw.drop 0x40).take 0x40) (4 * next) (word (word32 m))

/-- Write the record as one 128-byte write when the descriptor completes (R121). -/
def Work.ssrFinish (w : Work) (r : Ssr) : Work := w.onCommit fun w => w.writeLate r.addr r.finish

end Sys2Proof.Machine
end

