-- ==== Sys2Proof/Machine/Ops.lean ====
section
/-! DEFINITION. Operations shared by the families: descriptors in flight and the running of an operation on a unit
(R15, R16, R56), tensors poisoned (R274), troughs (R90 to R94), and retirement of counted units' errors (R420). -/

namespace Sys2Proof.Machine

/-! Descriptors in flight. -/

/-- The flight of an id. -/
def State.flight (s : State) (id : Nat) : Option Flight := s.flights.find? fun f => decide (f.id = id)

/-- Replace a flight, found by its id. -/
def State.putFlight (s : State) (f : Flight) : State :=
  { s with flights := s.flights.map fun g => if g.id = f.id then f else g }

/-- Remove a flight. -/
def State.dropFlight (s : State) (id : Nat) : State := { s with flights := s.flights.filter fun g => g.id != id }

/-- Change a flight, where it is in flight. -/
def State.onFlight (s : State) (id : Nat) (f : Flight → State → State) : State :=
  match s.flight id with
  | none => s
  | some g => f g s

/-- Add a condition with its DETAIL to a flight. -/
def Flight.addCode (f : Flight) (c d : Nat) : Flight :=
  { f with codes := f.codes ++ [(BitVec.ofNat 16 c, BitVec.ofNat 64 d)] }

/-- End a flight's operation with a condition: completion is next. -/
def Flight.endWith (f : Flight) (c d : Nat) : Flight := { f.addCode c d with phase := .ran }

/-- The status R16 chooses among the conditions met, with its DETAIL. -/
def chooseStatus (codes : List (BitVec 16 × DWord)) : Nat × Nat :=
  codes.foldl (fun acc c =>
    if stRank c.1.toNat < stRank acc.1 ∨ (c.1 = 0 ∧ acc.1 = stOk) then (c.1.toNat, c.2.toNat) else acc) (stOk, 0)

/-- Settle an operation into the state and its flight: the writes are applied, or kept in part after a fault or an end by
strict mode (R15, R83); the records it made for troughs are still to be produced, and the writes of its completion to be made. -/
def Work.settle (w : Work) (f : Flight) : State :=
  let s := if w.err.isSome ∨ w.strict then w.applySome else w.apply
  let codes := (w.codes ++ w.err.toList).map fun c => (BitVec.ofNat 16 c.1, BitVec.ofNat 64 c.2)
  s.putFlight { f with
    phase := if w.out.isEmpty then .ran else .running
    codes := f.codes ++ codes
    warn := f.warn + w.warn
    issued := true
    partly := f.partly || w.partly
    started := true
    late := if w.err.isSome ∨ w.strict then [] else w.late.reverse
    outRec := w.out.reverse }

/-- Run the operation of a dispatched descriptor of a class and OP that has what it waits for; otherwise no effect
(assumption 2). -/
def State.runFlight (s : State) (id cls op : Nat) (ready : Flight → Bool) (body : Flight → Work → Work) : State :=
  s.onFlight id fun f s =>
    if f.phase = .dispatched ∧ dClass f.desc = cls ∧ dOp f.desc = op ∧ ready f = true then
      (body f (Work.start s f.tenant f.strict)).settle f
    else s

/-- Records a flight has consumed from one trough, in order. -/
def Flight.recsOf (f : Flight) (n : Nat) : List Bytes := (f.inRec.filter fun r => decide (r.1 = n)).map Prod.snd

/-- Whether a use of a trough still lacks records. -/
def Flight.lacks (f : Flight) (u : TrUse) : Bool := !u.out && decide ((f.recsOf u.n).length < u.count)

/-- Whether a flight has consumed every record of the troughs it reads. -/
def Flight.hasRecs (f : Flight) : Bool := f.uses.all fun u => !f.lacks u

/-- A flight has passed one record of a trough in a role. -/
def Flight.passed (f : Flight) (n : Nat) (out : Bool) : Flight :=
  { f with uses := f.uses.map fun u => if u.n = n ∧ u.out = out then { u with k := u.k + 1 } else u }

/-- Lines of one record of a trough a flight uses in a role, as it started. -/
def Flight.linesOf (f : Flight) (n : Nat) (out : Bool) : Nat :=
  match f.uses.find? fun u => decide (u.n = n) && u.out == out with
  | some u => u.lines
  | none => 0

/-- Bed offset of the slot a flight comes to next in a trough (R90), from the region as it stood at the start. -/
def TrUse.slot (u : TrUse) : Nat := u.base + u.k % u.slots * u.lines * 64

/-- A tenant's own offset of a physical offset of a tier: the granule of its tables that maps it; the physical offset where
none does, as in a trough's region. -/
def State.tenantOff (s : State) (t : Nat) (tier : Tier) (phys : Nat) : Nat :=
  match s.xlat.find? fun e => decide (e.tenant = t) && (e.bed == decide (tier = .bed)) && decide (e.phys ≤ phys / 0x10000)
      && decide (phys / 0x10000 < e.phys + e.units) with
  | some e => e.off * 0x10000 + (phys - e.phys * 0x10000)
  | none => phys

/-- End a flight before its operation's end: it makes no further request, and what it wrote so far may be present (R83, R85,
R294). DETAIL is the tenant's global address of a physical offset. -/
def State.endEarly (s : State) (id code : Nat) (tier : Tier) (phys : Nat) : State :=
  s.onFlight id fun f s =>
    let waits := !f.outRec.isEmpty || (decide (f.phase = .dispatched) && f.started && !f.hasRecs)
    s.putFlight { f.addCode code (gaOf s.chip tier.space (s.tenantOff f.tenant tier phys)) with
                  strict := true, outRec := [], phase := if waits then .ran else f.phase }

/-- The value of AE_CUR and its like: TAG, queue, tenant and ring index. -/
def Flight.cur (f : Flight) : Nat := dTag f.desc + place f.queue 16 + place f.tenant 24 + place f.index 32

/-- Cycles that conflicts, HBM service and trough waits add to a stall counter: the spec does not fix how many. -/
def State.stall (s : State) (a cycles : Nat) : State := (s.count a (cycles + Config.freeNat s.free)).tick

/-- Add to a counter the part of `n` that a faulted operation reached, which the spec does not fix; all of it otherwise. -/
def Work.tally (w : Work) (a n : Nat) : Work :=
  if w.dead then w.mapS fun s => (s.count a (Config.freeNat s.free % (n + 1))).tick else w.mapS fun s => s.count a n

/-- Count the stall cycles of an operation: `cycles` and what conflicts and waits add, or, where a fault has ended it,
as many as it came to, which the spec does not fix. -/
def Work.stalled (w : Work) (a cycles : Nat) : Work := w.mapS fun s => s.stall a (if w.dead then 0 else cycles)

/-! Troughs. -/

/-- Whether a trough is enabled. -/
def State.trOn (s : State) (n : Nat) : Bool := s.regBit (BED_TR_CFG n) 0

/-- Records a trough holds room for, 2^DEPTH (R89). -/
def State.trSlots (s : State) (n : Nat) : Nat := 2 ^ s.field (BED_TR_CFG n) 4 1

/-- Lines of one record. -/
def State.trLines (s : State) (n : Nat) : Nat := s.field (BED_TR_CFG n) 15 8

/-- The tail and head of a trough. -/
def State.trTail (s : State) (n : Nat) : Nat := (s.mark (troughTail n)).toNat
def State.trHead (s : State) (n : Nat) : Nat := (s.mark (troughHead n)).toNat

/-- Whether the producer may write its record k (R91), and whether the consumer may read it (R92). -/
def State.trCanPut (s : State) (n k : Nat) : Bool := decide (k + 1 ≤ s.trHead n + s.trSlots n)
def State.trCanGet (s : State) (n k : Nat) : Bool := decide (k + 1 ≤ s.trTail n)

/-- A use of a trough by a descriptor that starts: its records are numbered from the tail or the head as it stands. -/
def State.trBegin (s : State) (u : TrUse) : TrUse :=
  { u with k := if u.out then s.trTail u.n else s.trHead u.n, base := place (s.field (BED_TR_BASE u.n) 27 6) 6,
           slots := s.trSlots u.n, lines := s.trLines u.n }

/-! The start of a descriptor (R62 steps 2 to 4). -/

/-- What a descriptor has read when it starts: its parameter block, its scale-state record, and the troughs it names. -/
structure Started where
  param : Bytes
  ssr   : Bytes
  uses  : List TrUse
deriving DecidableEq, Repr

/-- Register that counts an engine's stall cycles. -/
def unitStall : Blk → Nat → Option Nat
  | .ae, u => some (AE_STALL_CNT u)
  | .ce, u => some (CE_STALL_CNT u)
  | .he, u => some (HE_STALL_CNT u)
  | _, _ => none

/-- Count the cycles in which a descriptor that a fault ends had waited; the spec does not fix how many. -/
def State.waited (s : State) (f : Flight) : State :=
  match unitStall f.cls f.unit with
  | some a => s.stall a 0
  | none => s

/-- Start a descriptor: a check that fails ends it. -/
def State.begin (s : State) (f : Flight) (start : Flight → Work → Work × Started) : State :=
  let r := start f (Work.start s f.tenant f.strict)
  let g := { f with started := true, issued := true, param := r.2.param, ssr := r.2.ssr, uses := r.2.uses.map r.1.s.trBegin }
  match r.1.err with
  | some (c, d) => (r.1.s.putFlight (g.endWith c d)).waited g
  | none => r.1.s.putFlight g

/-- Run a descriptor of an engine that may use troughs: it starts where it has not, and its operation runs once it has
every record it consumes. -/
def State.runStarted (s : State) (id cls op : Nat) (start : Flight → Work → Work × Started) (body : Flight → Work → Work) :
    State :=
  s.onFlight id fun f s =>
    if f.phase = .dispatched ∧ dClass f.desc = cls ∧ dOp f.desc = op then
      (if f.started then s else s.begin f start).onFlight id fun f s =>
        if f.phase = .dispatched ∧ f.hasRecs = true then (body f (Work.start s f.tenant f.strict)).settle f else s
    else s

/-! Tensors (R247, R249, R274). -/

/-- A tensor record that no tensor uses. -/
def tensorUnused (_ : Nat) : Tensor where
  used := false
  gen := 0
  bytes := 0
  hbmOff := 0
  bedOff := 0
  home := 0
  ro := false
  digested := false
  poisoned := false
  moving := false
  nandOk := false
  tenant := 0
  moves := 0
  scrubbed := 0
  digest := 0

/-- Tensor record of an index. -/
def State.tensor (s : State) (i : Nat) : Tensor := smapGet tensorUnused s.tensors i

/-- Replace it. -/
def State.setTensor (s : State) (i : Nat) (x : Tensor) : State := { s with tensors := smapSet tensorUnused s.tensors i x }

/-- The handle of a tensor record (Table 10.1). -/
def State.handle (s : State) (i : Nat) : Nat := gaOf s.chip spNand (place (s.tensor i).gen.toNat 32 + i)

/-- Poison a tensor: POISONED, its home granules, the log and the owner's event (R274). -/
def State.poisonTensor (s : State) (i : Nat) : State :=
  let x := s.tensor i
  let s := s.setTensor i { x with poisoned := true }
  let s := { s with xlat := s.xlat.map fun (e : XEntry) => if e.src = some i then { e with poison := true } else e }
  let s := s.setRegN QC_POISON_LOG (s.handle i)
  s.event x.tenant { type := 0x0011, status := stShardLost, cls := classCode .qc, tenant := x.tenant, arg1 := s.handle i }

/-- The tensor whose home range covers a physical offset of a tier. -/
def State.tensorAt (s : State) (tier : Tier) (phys : Nat) : Option Nat :=
  (s.xlat.find? fun e => (e.bed == decide (tier = .bed)) && decide (e.phys ≤ phys / 0x10000)
    && decide (phys / 0x10000 < e.phys + e.units) && e.src.isSome).bind fun e => e.src

/-- A line found uncorrectable: it is poisoned, and so is the tensor it belongs to (R85, R274, R294). -/
def State.poisonLine (s : State) (tier : Tier) (phys : Nat) : State :=
  let s := s.poison tier phys
  match s.tensorAt tier phys with
  | some i => if (s.tensor i).poisoned then s else s.poisonTensor i
  | none => s

/-! Events of counted errors (R420, R422). -/

/-- BLK_ERR_WIN in force: a write takes effect at the next window boundary (R437). -/
def errWinReset (_ : Nat) : Nat := 0x1003E8
def State.errWindow (s : State) (b : Blk) (i : Nat) : Nat := smapGet errWinReset s.errWin (unitKey b i)

/-- The threshold in force for a block's counts. -/
def State.errThresh (s : State) (b : Blk) (i : Nat) : Nat := bits (s.errWindow b i) 31 16

/-- Set a BLK_ERR bit and raise its event on the PF ring, unless BLK_ERR_MASK masks it (R430). -/
def State.blkEvent (s : State) (b : Blk) (i n : Nat) (e : Event) : State :=
  let s := s.blkErr b i n
  if s.regBit (BLK_ERR_MASK b i) n then s else s.pfEvent e

/-- A unit is retired: its event UNIT_RETIRED (Table 17.4). -/
def State.unitRetired (s : State) (b : Blk) (i old spare : Nat) : State :=
  s.blkEvent b i 3 { type := 0x0030, cls := classCode b, inst := i, arg0 := old, arg1 := spare }

/-- No spare is left for a unit: its event NO_SPARE (Table 17.4). -/
def State.noSpare (s : State) (b : Blk) (i unit n : Nat) : State :=
  s.blkEvent b i 4 { type := 0x0031, cls := classCode b, inst := i, arg0 := unit, arg1 := n }

/-- Add a corrected error to a block's leaky count; whether the threshold is reached (R420, Table 17.5). -/
def State.leak (s : State) (b : Blk) (i : Nat) : State × Bool :=
  let n := min 0xFFFF (s.field (BLK_ERR_CNT b i) 15 0 + 1)
  let s := (s.setField (BLK_ERR_CNT b i) 15 0 n).blkErr b i 0
  let hit := decide (s.errThresh b i ≤ n)
  (if hit then s.blkErr b i 2 else s, hit)

/-- Count an uncorrectable error of a block, saturating. -/
def State.uncorrectable (s : State) (b : Blk) (i : Nat) : State :=
  (s.setField (BLK_ERR_CNT b i) 31 16 (min 0xFFFF (s.field (BLK_ERR_CNT b i) 31 16 + 1))).blkErr b i 1

end Sys2Proof.Machine
end

