-- ==== Sys2Proof/Machine/Matrix.lean ====
section
/-! DEFINITION. Matrix engines: MATMUL, PARTIAL_SUM, LOAD_RES and RELEASE_RES (R125 to R147). -/

namespace Sys2Proof.Machine

/-- A matrix descriptor: its operand area (Table 5.2) and its parameter block (Table 5.3). -/
structure Mat where
  op : Nat
  a  : Nat
  b  : Nat
  c  : Nat
  m  : Nat
  n  : Nat
  k  : Nat
  p  : Bytes
deriving DecidableEq, Repr

/-- Read the operand area. -/
def Mat.of (d : BitVec 1024) (p : Bytes) : Mat where
  op := dOp d
  a := dfield d 0x50 8
  b := dfield d 0x58 8
  c := dfield d 0x60 8
  m := bits (dfield d 0x70 4) 23 0
  n := bits (dfield d 0x74 4) 16 0
  k := bits (dfield d 0x78 4) 20 0
  p := p

/-- Formats and fields of the block. -/
def Mat.af (x : Mat) : Nat := bits (pfield x.p 0 4) 4 0
def Mat.bf (x : Mat) : Nat := bits (pfield x.p 0 4) 12 8
def Mat.cf (x : Mat) : Nat := bits (pfield x.p 0 4) 20 16
def Mat.flag (x : Mat) (i : Nat) : Bool := bit (pfield x.p 4 4) i
def Mat.transA (x : Mat) : Bool := x.flag 0
def Mat.transB (x : Mat) : Bool := x.flag 1
def Mat.accIn (x : Mat) : Bool := x.flag 2
def Mat.req (x : Mat) : Bool := x.flag 3
def Mat.qact (x : Mat) : Bool := x.flag 4
def Mat.aTr (x : Mat) : Bool := x.flag 5
def Mat.bTr (x : Mat) : Bool := x.flag 6
def Mat.cTr (x : Mat) : Bool := x.flag 7
def Mat.bRes (x : Mat) : Bool := x.flag 8
def Mat.trough (x : Mat) (i : Nat) : Nat := pfield x.p (8 + i) 1
def Mat.resid (x : Mat) : Nat := pfield x.p 0xC 2
def Mat.aPitch (x : Mat) : Nat := pfield x.p 0x10 4
def Mat.bPitch (x : Mat) : Nat := pfield x.p 0x14 4
def Mat.cPitch (x : Mat) : Nat := pfield x.p 0x18 4
def Mat.cinPitch (x : Mat) : Nat := pfield x.p 0x1C 4
def Mat.aScale (x : Mat) : Nat := pfield x.p 0x20 8
def Mat.bScale (x : Mat) : Nat := pfield x.p 0x28 8
def Mat.cin (x : Mat) : Nat := pfield x.p 0x30 8
def Mat.ssr (x : Mat) : Nat := pfield x.p 0x38 8
def Mat.reqb (x : Mat) : Nat := pfield x.p 0x40 16
def Mat.cScale (x : Mat) : Nat := pfield x.p 0x50 8
def Mat.pstride (x : Mat) : Nat := pfield x.p 0x58 8

/-- Table 5.1: whether a pair is accepted, and then whether its accumulator is INT32. -/
def matPair (a b : Nat) : Option Bool :=
  let f8 := [0x09, 0x0A]
  let mx8 := [0x11, 0x12, 0x13]
  let w4 := [0x10, 0x14]
  if (a = 0x01 ∧ b = 0x01) ∨ ((a = 0x00 ∨ a = 0x01) ∧ b = 0x00) then some true
  else if w4.contains b && ([0x01, 0x10].contains a || f8.contains a || mx8.contains a) then some false
  else if (mx8.contains a && mx8.contains b) || (f8.contains a && f8.contains b) then some false
  else if a = b ∧ (a = 0x08 ∨ a = 0x0C ∨ a = 0x0D) then some false
  else none

/-- Formats of the B column of Table 5.1. -/
def matB (b : Nat) : Bool := [0x00, 0x01, 0x08, 0x09, 0x0A, 0x0C, 0x0D, 0x10, 0x11, 0x12, 0x13, 0x14].contains b

/-- Elements of a tile row, tile-K: 128 bytes of B. -/
def tileK (b : Nat) : Nat := 1024 / fmtBits b

/-- Bytes of the padded tiles of B with their scales (R142). -/
def Mat.resBytes (x : Mat) : Nat :=
  ceilDiv x.n 128 * ceilDiv x.k (tileK x.bf) * (16384 + if fmtBlock x.bf then 4 * tileK x.bf else 0)

/-- Bytes of the resident region (R141). -/
def residentMax : Nat := 720896

/-- Conditions of R130 and R62 on the descriptor's own bytes. -/
def aeOwnBad (d : BitVec 1024) : List (Bool × Nat) :=
  let op := dOp d
  let mm := decide (op = 1)
  let ps := decide (op = 2)
  let ld := decide (op = 3)
  let rel := decide (op = 4)
  let m := dfield d 0x70 4
  let n := dfield d 0x74 4
  let k := dfield d 0x78 4
  [((ld || rel) && decide (dfield d 0x60 8 ≠ 0), 0x60),
   (decide (dfield d 0x68 8 % 64 ≠ 0), 0x68),
   ((mm || ps) && decide (m < 1 ∨ 0xFFFFFF < m), 0x70),
   (!rel && decide (n < 1 ∨ 65536 < n), 0x74),
   ((mm || ld) && decide (k < 32 ∨ 1048576 < k ∨ k % 32 ≠ 0), 0x78),
   (ps && decide (k < 2 ∨ 64 < k), 0x78),
   (decide (dfield d 0x7C 4 ≠ 0), 0x7C)]

/-- The condition that a pitch is no multiple of 64 or below the row it steps over (R129). -/
def pitchBad (p row : Nat) : Bool := decide (p % 64 ≠ 0 ∨ p < row)

/-- Conditions of R130, R112, R137 and R142 on the parameter block; each names the byte of the lowest bit of the lowest field
it involves (R62). A trough whose enable has been cleared has no record size to compare (R465). -/
def aeBlockBad (s : State) (x : Mat) : List (Bool × Nat) :=
  let mm := decide (x.op = 1)
  let ps := decide (x.op = 2)
  let ld := decide (x.op = 3)
  let rel := decide (x.op = 4)
  let pair := matPair x.af x.bf
  let intAcc := if ps then decide (x.af = 2) else !x.qact && decide (pair = some true)
  let fpAcc := if ps then decide (x.af = 0x0E) else !x.qact && decide (pair = some false)
  let out := mm || ps
  let canTrans (c : Nat) : Bool := [0x01, 0x09, 0x0A, 0x0C, 0x0D].contains c
  let rq := Requant.ofNat x.reqb
  let size (i : Nat) (bad : Nat → Bool) : Bool := s.trOn (x.trough i) && bad (s.trLines (x.trough i))
  rsv (pfield x.p 0 4) 0x80 [(7, 5), (15, 13), (31, 21)] ++ rsv (pfield x.p 4 4) 0x84 [(31, 9)]
    ++ rsv (pfield x.p 0xC 4) 0x8C [(31, 16)]
    ++ [((ld || rel || (mm && x.bRes)) && decide (x.resid = 0), 0x8C), (decide (pfield x.p 0x60 32 ≠ 0), 0xE0)]
    ++ (if mm then
      [(!x.qact && pair.isNone, 0x80),
       (x.qact && !([0x0C, 0x0D, 0x0E].contains x.af), 0x80),
       (x.qact && !fmtKnown x.bf, 0x81),
       (x.transA && !canTrans x.af, 0x80),
       (x.transB && !canTrans x.bf, 0x81),
       (x.transA && (x.qact || x.aTr), 0x84),
       (x.transB && (x.bTr || x.bRes), 0x84),
       (x.aTr && fmtBlock x.af, 0x80),
       (x.aTr && x.qact, 0x84),
       (x.bTr && x.bRes, 0x84),
       (!x.aTr && pitchBad x.aPitch (rowBytes x.af (if x.transA then x.m else x.k)), 0x90),
       (!x.bTr && pitchBad x.bPitch (rowBytes x.bf (if x.transB then x.n else x.k)), 0x94),
       (x.accIn && pitchBad x.cinPitch (4 * x.n), 0x9C),
       (x.aTr && size 0 fun l => decide (l * 64 ≠ 32 * (tileK x.bf * fmtBits x.af / 8)), 0x88),
       (x.bTr && size 1 fun l => decide (l ≠ 128), 0x89),
       (x.bTr && fmtBlock x.bf && size 2 fun l => decide (l * 64 ≠ 4 * tileK x.bf), 0x8A)]
      else [])
    ++ (if ps then
      [(decide (x.af ≠ 2 ∧ x.af ≠ 0x0E), 0x80),
       (x.transA || x.transB || x.accIn || x.qact || x.aTr || x.bTr, 0x84),
       (x.bRes, 0x85),
       (pitchBad x.aPitch (4 * x.n), 0x90)]
      else [])
    ++ (if ld then
      [(!matB x.bf, 0x81), (matB x.bf && pitchBad x.bPitch (rowBytes x.bf x.k), 0x94),
       (matB x.bf && decide (residentMax < x.resBytes), 0x74)]
      else [])
    ++ (if out then
      [(!fmtKnown x.cf || decide (x.cf = 0x18), 0x82),
       (decide (x.cf ≤ 1) && !x.req, 0x82),
       (decide (x.cf = 2) && (fpAcc || x.qact), 0x82),
       (x.cTr && decide (x.cf ≠ 2 ∧ x.cf ≠ 0x0E), 0x82),
       (x.req && fpAcc, 0x80),
       (x.req && !intAcc && !fpAcc && !x.qact, 0x80),
       (x.req && (x.qact || x.cTr), 0x84),
       (x.req && decide (x.cf ≠ rq.ofmt), 0x82),
       (fmtBlock x.cf && decide (x.n % 32 ≠ 0), 0x74),
       (x.cTr && size 3 fun l => decide (l % 8 ≠ 0 ∨ l < 8 ∨ 248 < l), 0x8B),
       (!x.cTr && pitchBad x.cPitch (rowBytes x.cf x.n), 0x98)]
        ++ (if x.req then rq.bad x.reqb 0xC0 x.n 0x74 else [])
      else [])

/-- Operand addresses that R129 checks, in the order they are listed in Table 5.2 and Table 5.3. -/
def Mat.addrs (x : Mat) : List Nat :=
  let mm := decide (x.op = 1)
  let ps := decide (x.op = 2)
  let ld := decide (x.op = 3)
  let rq := Requant.ofNat x.reqb
  [(ps || (mm && !x.aTr), x.a), (ld || (mm && !x.bTr), x.b), ((mm || ps) && !x.cTr, x.c),
   (mm && fmtBlock x.af, x.aScale), ((ld || (mm && !x.bTr)) && fmtBlock x.bf, x.bScale), (mm && x.accIn, x.cin),
   (mm && x.qact, x.ssr), ((mm || ps) && x.req && decide (rq.mode = 1 ∨ rq.mode = 2), rq.table),
   ((mm || ps) && fmtBlock x.cf, x.cScale)].filterMap fun e => if e.1 then some e.2 else none

/-- Pieces of an axis of length `n`: (first, length), each of `g` but the last. -/
def tiles (g n : Nat) : List (Nat × Nat) := (List.range (ceilDiv n g)).map fun i => (i * g, min g (n - i * g))

/-- M-blocks, N-tiles and K-tiles of R126. -/
def Mat.mBlocks (x : Mat) : List (Nat × Nat) := tiles 512 x.m
def Mat.nTiles (x : Mat) : List (Nat × Nat) := tiles 128 x.n
def Mat.kTiles (x : Mat) : List (Nat × Nat) := tiles (tileK x.bf) x.k

/-- Troughs a matrix descriptor uses (R132, R133, R137). -/
def Mat.uses (x : Mat) : List TrUse :=
  let nm := x.mBlocks.length
  let nn := x.nTiles.length
  let nk := x.kTiles.length
  let groups := (x.mBlocks.map fun b => ceilDiv b.2 32).foldl (· + ·) 0
  (if x.op = 1 ∧ x.aTr then [{ n := x.trough 0, out := false, count := groups * nn * nk }] else [])
    ++ (if x.op = 1 ∧ x.bTr then [{ n := x.trough 1, out := false, count := 2 * nm * nn * nk }] else [])
    ++ (if x.op = 1 ∧ x.bTr ∧ fmtBlock x.bf then [{ n := x.trough 2, out := false, count := nm * nn * nk }] else [])
    ++ (if x.op ≤ 2 ∧ x.cTr then [{ n := x.trough 3, out := true, count := 0 }] else [])

/-- Read and check the parameter block (R62 steps 2 and 3): with the troughs it names. -/
def Work.aeParams (w : Work) (d : BitVec 1024) : Work × Mat × List TrUse :=
  let (w, p) := w.read (dfield d 0x68 8) 128
  let x := Mat.of d p
  (w.checkFields (aeBlockBad w.s x), x, if w.dead then [] else x.uses)

/-- The start of a matrix descriptor: its block and addresses are checked, and its scale-state record is read (R62, R118). -/
def aeStart (f : Flight) (w : Work) : Work × Started :=
  let (w, x, uses) := w.aeParams f.desc
  let w := w.each x.addrs Work.needLocal
  let (w, raw) :=
    if decide (x.op = 1) && x.qact then
      let (w, r) := w.ssrStart x.ssr fun qf => (matPair qf x.bf).isSome
      (w, r.raw)
    else (w, [])
  (w, { param := x.p, ssr := raw, uses := uses })

/-- Exact sum of a block's products, with no rounding (R108 steps 1 and 2). -/
def blockDot (a b : List Num) : Num :=
  match List.zipWith Num.mul a b with
  | [] => .zero
  | p :: l => l.foldl Num.add p

/-- Add one block into the accumulator (R108 step 4, R109, R110): INT32 saturates, FP32 rounds once. -/
def accBlock (intAcc : Bool) (acc : Word) (a b : List Num) : Word :=
  let d := blockDot a b
  if intAcc then BitVec.ofInt 32 (sat32 (acc.toInt + d.toInt.getD 0)) else word32 ((num32 acc).add d)

/-- Accumulate a slice of a row of A with a slice of a row of B, block by block. -/
def accSlice (intAcc : Bool) (acc : Word) (a b : List Num) : Word :=
  ((chunks 32 a).zip (chunks 32 b)).foldl (fun acc p => accBlock intAcc acc p.1 p.2) acc

/-- Columns of a list of rows, `n` of them (R135). -/
def transpose (n : Nat) (rows : List (List Nat)) : List (List Nat) :=
  (List.range n).map fun i => rows.map fun r => r.getD i 0

/-- Element codes and scale bytes of one tile slice of an operand: rows `r` of the slice `k` along the reduction axis. -/
def Work.slice (w : Work) (base pitch c : Nat) (trans : Bool) (scale len : Nat) (r k : Nat × Nat) :
    Work × List (List Nat × Bytes) :=
  let (w, rows) :=
    if trans then
      let (w, l) := w.readRows base pitch (fmtBits c) k.1 k.2 r.1 r.2
      (w, transpose r.2 (l.map (unpack c r.2)))
    else
      let (w, l) := w.readRows base pitch (fmtBits c) r.1 r.2 k.1 k.2
      (w, l.map (unpack c k.2))
  let (w, scs) := if fmtBlock c then w.readRows scale (len / 32) 8 r.1 r.2 (k.1 / 32) (k.2 / 32) else (w, [])
  (w, rows.zipIdx.map fun (l, i) => (l, scs.getD i []))

/-- Rows of a tile from records of a trough: `bytes` bytes a row, `n` rows, `k` elements (R132, R133). -/
def recRows (c : Nat) (data : Bytes) (bytes n k : Nat) : List (List Nat) :=
  (List.range n).map fun i => unpack c k ((data.drop (i * bytes)).take bytes)

/-- The residency LOAD_RES reads (R142), tile by tile: rows of B with their scales. -/
def Work.loadRes (w : Work) (x : Mat) (t : Nat) : Work × Resident :=
  let (w, parts) := w.collect x.nTiles fun w nt =>
    w.collect x.kTiles fun w kt =>
      let (w, rows) := w.readRows x.b x.bPitch (fmtBits x.bf) nt.1 nt.2 kt.1 kt.2
      let (w, scs) := if fmtBlock x.bf then w.readRows x.bScale (x.k / 32) 8 nt.1 nt.2 (kt.1 / 32) (kt.2 / 32) else (w, [])
      (w, (rows, scs))
  let join (get : List Bytes × List Bytes → List Bytes) : List Bytes :=
    (x.nTiles.zip parts).flatMap fun (nt, l) => (List.range nt.2).map fun i => l.flatMap fun p => (get p).getD i []
  (w, { resid := BitVec.ofNat 16 x.resid, baddr := BitVec.ofNat 64 x.b, fmt := x.bf, n := x.n, k := x.k, tenant := t,
        data := join Prod.fst, scales := if fmtBlock x.bf then join Prod.snd else [] })

/-- Put a residency in an engine and show it (R142, Table 5.5). -/
def State.setResident (s : State) (u : Nat) (r : Resident) (bytes : Nat) : State :=
  let s := { s with resident := smapInsert s.resident u r }
  let s := (s.setBit (AE_STATUS u) 1 true).setField (AE_STATUS u) 31 16 r.resid.toNat
  (s.setField (AE_RES_BYTES u) 19 0 bytes).setReg (AE_RES_SRC u) r.baddr

/-- Empty the resident region of an engine (R143, R144). -/
def State.clearResident (s : State) (u : Nat) : State :=
  let s := { s with resident := smapErase s.resident u }
  let s := (s.setBit (AE_STATUS u) 1 false).setField (AE_STATUS u) 31 16 0
  (s.setField (AE_RES_BYTES u) 19 0 0).setReg (AE_RES_SRC u) 0

/-- The residency of an engine where it matches a descriptor (R143). -/
def State.residentHit (s : State) (u t : Nat) (x : Mat) : Option Resident :=
  match smapFind s.resident u with
  | some r =>
    if r.resid.toNat = x.resid ∧ r.baddr.toNat = x.b ∧ r.fmt = x.bf ∧ r.n = x.n ∧ r.k = x.k ∧ r.tenant = t
    then some r else none
  | none => none

/-- A slice of the resident rows. -/
def Resident.slice (r : Resident) (n k : Nat × Nat) : List (List Nat × Bytes) :=
  (List.range n.2).map fun i =>
    (unpack r.fmt k.2 (((r.data.getD (n.1 + i) []).drop (k.1 * fmtBits r.fmt / 8)).take (rowBytes r.fmt k.2)),
     ((r.scales.getD (n.1 + i) []).drop (k.1 / 32)).take (k.2 / 32))

/-- Requantise, convert, encode or copy the values of one row (R136 step 4): the element codes and the block scales. -/
def Mat.outRow (x : Mat) (intVal : Bool) (table : List Bytes) (vs : List Word) : List Nat × Bytes :=
  let rq := Requant.ofNat x.reqb
  let fp (v : Word) : Word := if intVal then f32ofInt v.toInt else v
  let exact (v : Word) : Num := if intVal then .ofInt v.toInt else num32 v
  if x.req then (vs.zipIdx.map (fun (v, i) => rq.run (table.getD i []) v.toInt), [])
  else if x.cf = 2 then (vs.map BitVec.toNat, [])
  else if x.cf = 0x0E then (vs.map fun v => (fp v).toNat, [])
  else if fmtBlock x.cf then encodeRow x.cf (vs.map fp)
  else (vs.map fun v => floatCode x.cf (exact v), [])

/-- The output stage on one M-block and N-tile (R136 step 4, R137): rows written in ascending order, or handed off. -/
def Work.matOut (w : Work) (f : Flight) (x : Mat) (intVal : Bool) (mb nt : Nat × Nat) (vals : List (List Word)) : Work :=
  let rq := Requant.ofNat x.reqb
  if x.cTr then
    let r := max 1 (f.linesOf (x.trough 3) true / 8)
    let row (vs : List Word) : Bytes := padTo 512 (pack 2 (x.outRow intVal [] vs).1)
    w.each (chunks r vals) fun w g => w.emit (x.trough 3) (padTo (512 * r) (g.flatMap row))
  else
    let (w, tab) := if x.req ∧ rq.mode ≠ 0
      then w.read (rq.table + nt.1 * rq.entry) (nt.2 * rq.entry) else (w, [])
    w.each vals.zipIdx fun w (vs, i) =>
      let (codes, scs) := x.outRow intVal (chunks rq.entry tab) vs
      let w := w.write (x.c + (mb.1 + i) * x.cPitch + nt.1 * fmtBits x.cf / 8) (pack x.cf codes)
      w.write (x.cScale + (mb.1 + i) * (x.n / 32) + nt.1 / 32) scs

/-- Bytes of C, of every operand and of the block, where C may not overlap them (R131). -/
def Mat.outRanges (x : Mat) : List (Nat × Nat) := rowRanges x.c x.cPitch x.m (rowBytes x.cf x.n)
def Mat.inRanges (x : Mat) (param : Nat) : List (Nat × Nat) :=
  let mm := decide (x.op = 1)
  (param, 128) :: (if mm then
      (if x.aTr then [] else if x.transA then rowRanges x.a x.aPitch x.k (rowBytes x.af x.m)
        else rowRanges x.a x.aPitch x.m (rowBytes x.af x.k))
      ++ (if x.bTr then [] else if x.transB then rowRanges x.b x.bPitch x.k (rowBytes x.bf x.n)
        else rowRanges x.b x.bPitch x.n (rowBytes x.bf x.k))
      ++ (if fmtBlock x.af then [(x.aScale, x.m * (x.k / 32))] else [])
      ++ (if fmtBlock x.bf ∧ x.bTr = false then [(x.bScale, x.n * (x.k / 32))] else [])
      ++ (if x.accIn then rowRanges x.cin x.cinPitch x.m (4 * x.n) else [])
      ++ (if x.qact then [(x.ssr, 128)] else [])
    else (List.range x.k).flatMap fun i => rowRanges (x.a + i * x.pstride) x.aPitch x.m (4 * x.n))
    ++ (if fmtBlock x.cf then [(x.cScale, x.m * (x.n / 32))] else [])

/-- Cycles of R145 with no stall; `hit` where B comes from the resident region. -/
def Mat.cycles (x : Mat) (hit : Bool) : Nat :=
  let tk := tileK x.bf
  let a := rowBytes x.af tk + if fmtBlock x.af then tk / 32 else 0
  let t := if hit then 0 else 16384 + if fmtBlock x.bf then 4 * tk else 0
  let perTile (m : Nat) : Nat :=
    let c (first : Bool) : Nat := max (max m 64) (ceilDiv (m * a + t + if first && x.accIn then m * 512 else 0) 512)
    let ks := c true + (x.kTiles.length - 1) * c false
    -- output bytes of 32 elements, so that the scale byte of a block counts
    let w32 := if x.cTr then 128 else 4 * fmtBits x.cf + if fmtBlock x.cf then 1 else 0
    max ks (ceilDiv (m * 4 * w32) 256)
  40 + (x.mBlocks.map fun b => x.nTiles.length * perTile b.2).foldl (· + ·) 0 + 136

/-- One K-tile of A: element values of its rows, quantised where QACT asks (R120, R136). -/
def Work.aSlice (w : Work) (f : Flight) (x : Mat) (q : Option Ssr) (mb kt : Nat × Nat) (tile : Nat) :
    Work × Option Ssr × List (List Num) :=
  let (w, rows) :=
    if x.aTr then
      let bytes := tileK x.bf * fmtBits x.af / 8
      let groups := ceilDiv mb.2 32
      let data := ((f.recsOf (x.trough 0)).drop tile).take groups
      (w, (recRows x.af data.flatten bytes mb.2 kt.2).map fun l => (l, ([] : Bytes)))
    else w.slice x.a x.aPitch x.af x.transA x.aScale x.k mb kt
  match q with
  | none => (w, none, rows.map fun r => rowNums x.af r.1 r.2)
  | some r =>
    let p := rows.foldl (fun (acc : Ssr × List (List Num)) row =>
      let (r, codes) := acc.1.quantAll (row.1.map fun c => word32 (elemNum x.af c))
      (r, codes.map (elemNum r.qfmt) :: acc.2)) (r, [])
    (w, some p.1, p.2.reverse)

/-- One K-tile of B: element values of its rows. -/
def Work.bSlice (w : Work) (f : Flight) (x : Mat) (res : Option Resident) (nt kt : Nat × Nat) (tile : Nat) :
    Work × List (List Num) :=
  let (w, rows) :=
    match res with
    | some r => (w, r.slice nt kt)
    | none =>
      if x.bTr then
        let data := (((f.recsOf (x.trough 1)).drop (2 * tile)).take 2).flatten
        let scs := ((f.recsOf (x.trough 2)).drop tile).headD []
        let per := tileK x.bf / 32
        (w, (recRows x.bf data 128 nt.2 kt.2).zipIdx.map fun (l, i) => (l, (scs.drop (i * per)).take (kt.2 / 32)))
      else w.slice x.b x.bPitch x.bf x.transB x.bScale x.k nt kt
  (w, rows.map fun r => rowNums x.bf r.1 r.2)

/-- Accumulators of one M-block and N-tile before the first K-tile (R136 step 1). -/
def Work.accStart (w : Work) (x : Mat) (mb nt : Nat × Nat) : Work × List (List Word) :=
  if x.accIn then
    let (w, l) := w.readRows x.cin x.cinPitch 32 mb.1 mb.2 nt.1 nt.2
    (w, l.map fun b => (unpack 2 nt.2 b).map (BitVec.ofNat 32))
  else (w, List.replicate mb.2 (List.replicate nt.2 0))

/-- The product of R126 over an operation that has started: M-blocks, N-tiles, K-tiles in order. -/
def Work.product (w : Work) (f : Flight) (x : Mat) (res : Option Resident) (q : Option Ssr) : Work × Option Ssr :=
  let intAcc := decide (matPair (match q with | none => x.af | some r => r.qfmt) x.bf = some true)
  let nn := x.nTiles.length
  let nk := x.kTiles.length
  let scaleOf (v : Word) : Word :=
    match q with
    | none => v
    | some r => f32mul (if intAcc then f32ofInt v.toInt else v) r.s
  let units := x.mBlocks.zipIdx.flatMap fun (mb, i) => x.nTiles.zipIdx.map fun (nt, j) => (mb, i, nt, j)
  -- records of A that come before M-block i: every earlier M-block, once for each N-tile and K-tile
  let aBefore (i : Nat) : Nat := ((x.mBlocks.take i).map fun b => ceilDiv b.2 32 * nn * nk).foldl (· + ·) 0
  units.foldl (fun (acc : Work × Option Ssr) (mb, i, nt, j) =>
    if acc.1.dead then acc
    else
      let (w, start) := acc.1.accStart x mb nt
      let (w, q, vals) := x.kTiles.zipIdx.foldl (fun (acc : Work × Option Ssr × List (List Word)) (kt, l) =>
        let (w, q, vals) := acc
        if w.dead then acc
        else
          let (w, b) := w.bSlice f x res nt kt ((i * nn + j) * nk + l)
          let (w, q, a) := w.aSlice f x q mb kt (aBefore i + (j * nk + l) * ceilDiv mb.2 32)
          (w, q, (vals.zip a).map fun (vs, ar) => (vs.zip b).map fun (v, br) => accSlice intAcc v ar br))
        (w, acc.2, start)
      (w.andThen fun w => w.matOut f x (intAcc && q.isNone) mb nt (vals.map fun vs => vs.map scaleOf), q)) (w, q)

/-- MATMUL (R126 to R143). -/
def Work.matmul (w : Work) (f : Flight) (x : Mat) : Work :=
  let u := f.unit
  let q := if x.qact then some (Ssr.derive x.ssr f.ssr) else none
  let big := x.bRes && decide (residentMax < x.resBytes)
  let hit := if x.bRes then w.s.residentHit u f.tenant x else none
  let miss := x.bRes && hit.isNone
  let w := w.andThen fun w => if miss then w.mapS fun s => s.count (AE_RES_MISS u) 1 else w
  let (w, res) :=
    if miss && !big && !w.dead then
      let (w, r) := w.loadRes x f.tenant
      (w.andThen fun w => w.mapS fun s => s.setResident u r x.resBytes, some r)
    else (w, hit)
  let (w, q) := if w.dead then (w, q) else w.product f x res q
  let meets := !x.cTr && rangesMeet x.outRanges (x.inRanges (dfield f.desc 0x68 8))
  let w := w.openOutputs meets
  let w := match q with
    | none => w
    | some r => (w.ssrFinish r).openLate (!x.cTr && rangesMeet x.outRanges [(x.ssr, 128)])
  let units := x.m * x.nTiles.length * x.kTiles.length
  let reload := if miss && !big then 40 + ceilDiv x.resBytes 512 else 0
  let w := w.tally (AE_MAC_CNT u) (x.m * x.k * 128 * x.nTiles.length)
  w.stalled (AE_STALL_CNT u) (x.cycles hit.isSome + reload - units)

/-- PARTIAL_SUM (R140): each sum in ascending order of the partials, then step 4 of R136. -/
def Work.partialSum (w : Work) (f : Flight) (x : Mat) : Work :=
  let intAcc := decide (x.af = 2)
  let add (a b : Word) : Word := if intAcc then BitVec.ofInt 32 (sat32 (a.toInt + b.toInt)) else f32add a b
  let units := x.mBlocks.flatMap fun mb => x.nTiles.map fun nt => (mb, nt)
  let w := w.each units fun w (mb, nt) =>
    let (w, parts) := w.collect (List.range x.k) fun w i =>
      let (w, l) := w.readRows (x.a + i * x.pstride) x.aPitch 32 mb.1 mb.2 nt.1 nt.2
      (w, l.map fun b => (unpack 2 nt.2 b).map (BitVec.ofNat 32))
    let vals := match parts with
      | [] => []
      | p :: l => l.foldl (fun acc rows => List.zipWith (List.zipWith add) acc rows) p
    w.andThen fun w => w.matOut f x intAcc mb nt vals
  let w := w.openOutputs (!x.cTr && rangesMeet x.outRanges (x.inRanges (dfield f.desc 0x68 8)))
  w.stalled (AE_STALL_CNT f.unit) (40 + ceilDiv (x.k * x.m * x.n * 4) 512 + 136)

/-- What a started descriptor of class 0x1 does. -/
def aeRun (f : Flight) (w : Work) : Work :=
  let x := Mat.of f.desc f.param
  w.andThen fun w =>
    if x.op = 1 then w.matmul f x
    else if x.op = 2 then w.partialSum f x
    else if x.op = 3 then
      let (w, r) := w.loadRes x f.tenant
      let w := w.onCommit fun w => w.mapS fun s => s.setResident f.unit r x.resBytes
      w.stalled (AE_STALL_CNT f.unit) (40 + ceilDiv x.resBytes 512)
    else
      let w := w.mapS fun s =>
        match smapFind s.resident f.unit with
        | some r => if r.resid.toNat = x.resid then s.clearResident f.unit else s
        | none => s
      w.mapS fun s => s.stall (AE_STALL_CNT f.unit) 40

/-- Start a matrix descriptor, and run it once it has all its trough records. -/
def State.aeFlight (s : State) (id op : Nat) : State := s.runStarted id 1 op aeStart aeRun

def execMatmul (id : Nat) (s : State) : Out := live s fun s => s.aeFlight id 1
def execPartialSum (id : Nat) (s : State) : Out := live s fun s => s.aeFlight id 2
def execLoadRes (id : Nat) (s : State) : Out := live s fun s => s.aeFlight id 3
def execReleaseRes (id : Nat) (s : State) : Out := live s fun s => s.aeFlight id 4

end Sys2Proof.Machine
end

