-- ==== Sys2Proof/Machine/Libfn.lean ====
section
/-! DEFINITION. Seed tables (R164) and built-in functions (R166). A built-in function other than identity, reciprocal and
rsqrt gives what the library version gives (an opaque value), held to the error bound of Table 6.8 against a fixed-point
evaluation of the function; the special values of the table are exact. -/

namespace Sys2Proof.Machine

/-! Fixed-point reference with 320 fraction bits. -/

def fxBits : Nat := 320
def fxOne : Int := (2 ^ fxBits : Nat)
def fxMul (a b : Int) : Int := a * b / fxOne
def fxDiv (a b : Int) : Int := a * fxOne / b
def fxLn2 : Int := 0xb17217f7d1cf79abc9e3b39803f2f6af40f343267298b62d8a0d175b8baafa2be7b876206debac98
/-- 1 / sqrt(2 pi). -/
def fxInvSqrt2Pi : Int := 0x662114cf50d942343f2cf1402eae38bfd3829f30512706d8c0471b4802639d2e9df8ac55447d3db7
/-- sqrt(2 / pi). -/
def fxSqrt2OverPi : Int := 0xcc42299ea1b284687e59e2805d5c717fa7053e60a24e0db1808e369004c73a5d3bf158aa88fa7b6e

/-- An exact finite number in fixed point, its low bits dropped. -/
def fxOf : Num → Int
  | .fin n m e =>
    let v : Int := if 0 ≤ e + fxBits then (m * 2 ^ (e + fxBits).toNat : Nat) else (m / 2 ^ (-(e + fxBits)).toNat : Nat)
    if n then -v else v
  | _ => 0

/-- Sum of terms t, t·r/1, …: the exponential series from term n on, with fuel. -/
def fxExpSeries : Nat → Nat → Int → Int → Int
  | 0, _, _, _ => 0
  | f + 1, n, r, t => t + fxExpSeries f (n + 1) r (fxMul t r / n)

/-- e^x. -/
def fxExp (x : Int) : Int :=
  if x < -400 * fxOne then 0
  else
    let n := x / fxLn2
    let v := fxExpSeries 90 1 (x - n * fxLn2) fxOne
    if 0 ≤ n then v * (2 ^ n.toNat : Nat) else v / (2 ^ (-n).toNat : Nat)

/-- The series of atanh: t + t³/3 + … -/
def fxAtanhSeries : Nat → Nat → Int → Int → Int
  | 0, _, _, _ => 0
  | f + 1, n, sq, t => t / n + fxAtanhSeries f (n + 2) sq (fxMul t sq)

/-- ln of a positive fixed-point number. -/
def fxLn (x : Int) : Int :=
  let k : Int := (Nat.log2 x.toNat : Int) - fxBits
  let m := if 0 ≤ k then x / (2 ^ k.toNat : Nat) else x * (2 ^ (-k).toNat : Nat)
  let z := fxDiv (m - fxOne) (m + fxOne)
  2 * fxAtanhSeries 110 1 (fxMul z z) z + k * fxLn2

/-- The series of the normal integral: t + t·x²/3 + t·x⁴/15 + … -/
def fxPhiSeries : Nat → Nat → Int → Int → Int
  | 0, _, _, _ => 0
  | f + 1, n, sq, t => t + fxPhiSeries f (n + 2) sq (fxMul t sq / (n + 2 : Nat))

/-- The normal distribution function. -/
def fxPhi (x : Int) : Int :=
  let sq := fxMul x x
  fxOne / 2 + fxMul (fxMul fxInvSqrt2Pi (fxExp (-sq / 2))) (fxPhiSeries 700 1 sq x)

/-- 1 / (1 + e^-x). -/
def fxSigmoid (x : Int) : Int :=
  if 0 ≤ x then fxDiv fxOne (fxOne + fxExp (-x))
  else
    let e := fxExp x
    fxDiv e (fxOne + e)

/-- tanh. -/
def fxTanh (x : Int) : Int := 2 * fxSigmoid (2 * x) - fxOne

/-- x³ · 0.044715 + x, times sqrt(2/π), doubled: the argument of the tanh form of GELU (assumption 12, PRESUMED). -/
def fxGeluArg (x : Int) : Int := 2 * fxMul fxSqrt2OverPi (x + fxMul (fxMul x x) x * 44715 / 1000000)

/-- The exact function of FN in fixed point, for an input Table 6.8 gives no special value. -/
def fxFn (fn : Nat) (x : Num) : Int :=
  let v := fxOf x
  if fn = 0x01 then fxExp v
  else if fn = 0x02 then fxLn v
  else if fn = 0x03 then fxTanh v
  else if fn = 0x04 then fxSigmoid v
  else if fn = 0x05 then fxMul v (fxPhi v)
  else if fn = 0x06 then fxMul v (fxSigmoid (fxGeluArg v))
  else if fn = 0x07 then fxMul v (fxSigmoid v)
  else fxLn (fxOne + fxExp v)

/-- Reference value of FN as a number. ln of a tiny number keeps its exponent. -/
def refFn (fn : Nat) (x : Num) : Num :=
  match x with
  | .fin _ m e =>
    if fn = 0x02 then
      -- m·2^e, with m brought into fixed point
      .ofMant (fxLn ((m : Int) * fxOne) + e * fxLn2) (-fxBits)
    else .ofMant (fxFn fn x) (-fxBits)
  | z => z

/-- Largest error in units in the last place (Table 6.8). -/
def fnUlps (fn : Nat) : Nat := if fn = 0x01 ∨ fn = 0x02 then 1 else 2

/-- Whether a candidate lies within the bound of the exact value: units of the last place of the correctly rounded
result, or of 2^-149 where that is below 2^-126. -/
def withinUlps (k : Nat) (exact : Num) (c : Word) : Bool :=
  let r := num32 (word32 exact)
  let q : Int := if r.isZero then -149 else max (r.log2 - 23) (-149)
  let d := (num32 c).add exact.neg
  (num32 c).isFin && !(Num.fin false k q).lt d.abs

/-- Comparison of an input with a decimal bound num/den of Table 6.8. -/
def aboveDec (x : Num) (num : Int) (den : Nat) : Bool := (Num.ofInt num).lt (x.mul (.ofInt den))
def belowDec (x : Num) (num : Int) (den : Nat) : Bool := (x.mul (.ofInt den)).lt (Num.ofInt num)

/-- Special values of Table 6.8 for a number that is no NaN. -/
def fnSpecial (fn : Nat) (x : Num) (w : Word) : Option Word :=
  let pz : Word := 0
  let nz : Word := 0x80000000
  let inf : Word := 0x7F800000
  let ninf : Word := 0xFF800000
  let one : Word := 0x3F800000
  if fn = 0x00 then some w
  else if fn = 0x01 then
    if aboveDec x 8872284 100000 then some inf else if belowDec x (-10397208) 100000 then some pz else none
  else if fn = 0x02 then
    if x.isZero then some ninf else if x.isNeg then some nan32 else if !x.isFin then some inf else none
  else if fn = 0x03 then
    if !belowDec x.abs 91 10 then some (if x.isNeg then 0xBF800000 else one)
    else if x.abs.lt (.fin false 1 (-12)) then some w else none
  else if fn = 0x04 then
    if belowDec x (-10397208) 100000 then some pz else if !belowDec x 175 10 then some one else none
  else if fn = 0x05 ∨ fn = 0x06 then
    if !aboveDec x (-145) 10 then some nz else if !belowDec x 55 10 then some w else none
  else if fn = 0x07 then
    if belowDec x (-110) 1 then some nz else if !x.isFin then some inf else none
  else if fn = 0x08 then
    if belowDec x (-10397208) 100000 then some pz else if aboveDec x 16 1 then some w else none
  else if fn = 0x09 then
    if x.isZero then some (inf ||| (w &&& nz)) else if !x.isFin then some (w &&& nz) else none
  else
    if x.isZero then some (inf ||| (w &&& nz)) else if x.isNeg then some nan32
    else if !x.isFin then some pz else none

/-! Seeds (R164). -/

/-- Integer square root by bisection: the largest r < 2^f with r·r ≤ n. -/
def isqrt : Nat → Nat → Nat → Nat
  | 0, _, r => r
  | f + 1, n, r => if (r + 2 ^ f) * (r + 2 ^ f) ≤ n then isqrt f n (r + 2 ^ f) else isqrt f n r

/-- FP32 value nearest sqrt(n/d). -/
def sqrtRatio (n d : Nat) : Word :=
  let q := n * 2 ^ 480 / d
  let r := isqrt 300 q 0
  let st := decide (r * r ≠ q) || decide (n * 2 ^ 480 % d ≠ 0)
  BitVec.ofNat 32 (fp32.encodeWith false st (.fin false r (-240)))

/-- T0[i] and T1[j]. -/
def seedT0 (i : Nat) : Word := f32div (f32ofInt 512) (f32ofInt (513 + 2 * i))
def seedT1 (j : Nat) : Word := sqrtRatio 256 ((257 + 2 * (j % 128)) * 2 ^ (j / 128))

/-- Split A = m × 2^e with 1 ≤ |m| < 2: the fraction bits m[22:0] and e. -/
def splitM (x : Num) : Nat × Int :=
  match x with
  | .fin _ m e =>
    let l := Nat.log2 m
    ((m * 2 ^ 23 / 2 ^ l) % 2 ^ 23, (l : Int) + e)
  | _ => (0, 0)

/-- RCPS (R164). -/
def rcps (n : Nat) (w : Word) : Word :=
  let x := num32 w
  let sg : Word := w &&& 0x80000000
  if x.isNan then nan32
  else if n = 0 then
    if x.isZero then 0x7F800000 ||| sg
    else if !x.isFin then sg
    else
      let (m, e) := splitM x
      let v := word32 ((num32 (seedT0 (m / 2 ^ 15))).scale (-e))
      v ||| sg
  else if x.isZero then 0x7F800000 ||| sg
  else if x.isNeg then nan32
  else if !x.isFin then 0
  else
    let (m, e) := splitM x
    let p := (e % 2).toNat
    word32 ((num32 (seedT1 (128 * p + m / 2 ^ 16))).scale (-((e - p) / 2)))

/-- NEWT. -/
def newt (n : Nat) (a b : Word) : Word :=
  let one : Word := 0x3F800000
  if n = 0 then
    let t := f32fma (f32neg a) b one
    f32fma b t b
  else
    let u := f32mul b b
    let t := f32fma (f32neg a) u one
    f32fma b (f32mul t 0x3F000000) b

/-- Correctly rounded reciprocal square root of a positive finite number. -/
def rsqrtExact (x : Num) : Word :=
  match x with
  | .fin _ m e =>
    let k := (e + 400) / 2
    let odd := ((e + 400) % 2).toNat
    -- x = m·2^odd · 2^(2k - 400)
    let r := num32 (sqrtRatio 1 (m * 2 ^ odd))
    word32 (r.scale (200 - k))
  | _ => nan32

/-- Reciprocal and rsqrt: RCPS and two NEWT steps. Where the steps of R166 leave a finite input with NaN (its seed
overflows), the bound of Table 6.8 stands and the correctly rounded value is taken (assumption 13, DEDUCED). -/
def rcpFn (w : Word) : Word :=
  let r := newt 0 w (newt 0 w (rcps 0 w))
  if (num32 r).isNan then f32div 0x3F800000 w else r

def rsqrtFn (w : Word) : Word :=
  let r := newt 1 w (newt 1 w (rcps 1 w))
  if (num32 r).isNan then rsqrtExact (num32 w) else r

/-- Built-in function FN of the library version `ver` (R166). -/
def builtinFn (ver fn : Nat) (w : Word) : Word :=
  let x := num32 w
  if x.isNan then nan32
  else
    match fnSpecial fn x w with
    | some v => v
    | none =>
      if fn = 0x09 then rcpFn w
      else if fn = 0x0A then rsqrtFn w
      else
        let exact := refFn fn x
        let c := Config.libFn ver fn w
        if withinUlps (fnUlps fn) exact c then c else word32 exact

end Sys2Proof.Machine
end

