-- ==== Sys2Proof/Machine/Micro.lean ====
section
/-! DEFINITION. Chisel microprograms: steps, the reduction tree, user images and the library store (R158 to R165). -/

namespace Sys2Proof.Machine

/-- What a program reads beside its lanes: the constant pool and the tables. -/
structure Pool where
  consts : Nat → Word
  table  : Nat → Nat → Word

/-- A word as a lane holds it: every NaN is the canonical NaN (R149). -/
def canon32 (w : Word) : Word := if (num32 w).isNan then nan32 else w

/-- Fields of a step (Table 6.5). -/
def stOpc (w : DWord) : Nat := bits w.toNat 5 0
def stD (w : DWord) : Nat := bits w.toNat 9 6
def stA (w : DWord) : Nat := bits w.toNat 13 10
def stB (w : DWord) : Nat := bits w.toNat 17 14
def stC (w : DWord) : Nat := bits w.toNat 21 18
def stT (w : DWord) : Nat := bits w.toNat 25 22
def stK (w : DWord) : Nat := bits w.toNat 33 26
def stN (w : DWord) : Nat := bits w.toNat 36 34
def stSh (w : DWord) : Nat := bits w.toNat 41 37
def stLm (w : DWord) : Bool := bit w.toNat 42

/-- Maximum for RED: NaN if either is NaN, +0.0 above -0.0 (R161). -/
def redMax (a b : Word) : Word :=
  let x := num32 a
  let y := num32 b
  if x.isNan || y.isNan then nan32
  else if x.isZero && y.isZero then a &&& b
  else if x.lt y then b else a

/-- How a reduction joins two values: 0 SUM, 1 MAX, 2 MAXABS, 3 SUMSQ. -/
def redJoin (sub : Nat) (a b : Word) : Word :=
  if sub = 0 ∨ sub = 3 then f32add a b else if sub = 2 then redMax (f32abs a) (f32abs b) else redMax a b

/-- A lane's partial over its elements in ascending order: the first starts it. MAXABS joins by the maximum of magnitudes
(assumption 14, DEDUCED). -/
def redLane (sub : Nat) (l : List Word) : Option Word :=
  match l with
  | [] => none
  | x :: l =>
    some (if sub = 3 then l.foldl (fun p x => f32fma x x p) (f32fma x x 0)
      else l.foldl (redJoin sub) x)

/-- One level of the tree: neighbours joined, an absent partial leaving the other unchanged. -/
def redLevel (sub : Nat) : List (Option Word) → List (Option Word)
  | a :: b :: l =>
    (match a, b with
     | some x, some y => some (redJoin sub x y)
     | some x, none => some x
     | none, y => y) :: redLevel sub l
  | l => l

/-- Reduce a row: lanes, then eight levels (R161). -/
def redRow (sub : Nat) (row : List Word) : Word :=
  let rows := chunks 256 row
  let lanes := (List.range 256).map fun l => redLane sub (rows.filterMap fun r => r[l]?)
  let tree := (List.range 8).foldl (fun p _ => redLevel sub p) lanes
  (tree.headD none).getD 0

/-- EXPX: exponent and mantissa. -/
def expx (w : Word) : Word × Word :=
  let x := num32 w
  if x.isNan then (nan32, nan32)
  else if x.isZero then (0xFF800000, w)
  else if !x.isFin then (0x7F800000, 0x3F800000 ||| (w &&& 0x80000000))
  else
    let e := x.log2
    (f32ofInt e, word32 (x.scale (-e)))

/-- EXPI: A × 2^n, rounded once. -/
def expi (a b : Word) : Word :=
  let n := num32 b
  if n.isNan then nan32 else word32 ((num32 a).scale (n.toIntClip (-300) 300))

/-- RRED: the reduced value and n. -/
def rred (p : Pool) (k : Nat) (a : Word) : Word × Word :=
  let n := num32 (f32mul a (p.consts k))
  let i := match n.toInt with
    | some i => word32 (if i = 0 ∧ n.isNeg then .fin true 0 0 else .ofInt i)
    | none => word32 n
  (f32fma (f32neg i) (p.consts (k + 2)) (f32fma (f32neg i) (p.consts (k + 1)) a), i)

/-- POLY. -/
def polyStep (p : Pool) (k n : Nat) (a : Word) : Word :=
  (List.range n).foldl (fun acc i => f32fma acc a (p.consts (k + (n - 1 - i)))) (p.consts (k + n))

/-- Index of a lookup. -/
def lutIndex (lm : Bool) (sh : Nat) (a : Word) : Nat :=
  if lm then ((num32 a).toIntClip 0 255).toNat else a.toNat / 2 ^ sh % 256

/-- Conditions of CMPSEL. -/
def cmpCond (n : Nat) (a b : Word) : Bool :=
  let x := num32 a
  let y := num32 b
  if n = 0 then x.lt y
  else if n = 1 then x.lt y || x.same y
  else if n = 2 then x.same y
  else if n = 3 then !x.same y
  else if n = 4 then x.isNan || y.isNan
  else if n = 5 then !x.isNan && !x.isFin
  else a.msb

/-- SIGN. -/
def signStep (n : Nat) (a b : Word) : Word :=
  if n = 0 then f32abs a else if n = 1 then f32neg a
  else if (num32 a).isNan then nan32 else (f32abs a) ||| (b &&& 0x80000000)

/-- Replace a lane register over the row. -/
def setLane (l : List (List Word)) (d : Nat) (v : List Word) : List (List Word) := setAt l d v

/-- One step over a row: the lane registers after it (Table 6.6). -/
def microStep (p : Pool) (w : DWord) (l : List (List Word)) : List (List Word) :=
  let a := l.getD (stA w) []
  let b := l.getD (stB w) []
  let c := l.getD (stC w) []
  let d := stD w
  let n := stN w
  let both (f : Word → Word × Word) : List (List Word) :=
    let r := a.map f
    setLane (setLane l d (r.map Prod.fst)) (d + 1) (r.map Prod.snd)
  match stOpc w with
  | 0x01 => setLane l d (List.zipWith (fun x (y : Word × Word) => f32fma x y.1 y.2) a (b.zip c))
  | 0x02 => setLane l d (List.zipWith f32add a b)
  | 0x03 => setLane l d (List.zipWith f32mul a b)
  | 0x04 => setLane l d (a.map fun _ => p.consts (stK w))
  | 0x05 => both (rred p (stK w))
  | 0x06 => setLane l d (a.map (polyStep p (stK w) n))
  | 0x07 => setLane l d (a.map fun x => p.table (stT w) (lutIndex (stLm w) (stSh w) x))
  | 0x08 => both expx
  | 0x09 => setLane l d (List.zipWith expi a b)
  | 0x0A => setLane l d (a.map (rcps n))
  | 0x0B => setLane l d (List.zipWith (newt n) a b)
  | 0x0C =>
    setLane l d (List.zipWith (fun (x : Word × Word) (y : Word × Word) => if cmpCond n x.1 x.2 then y.1 else y.2)
      (a.zip b) (c.zip (l.getD d [])))
  | 0x0D =>
    let r := redRow n a
    setLane l d (a.map fun _ => r)
  | 0x0E => setLane l d (List.zipWith (signStep n) a b)
  | _ => l

/-- Run steps up to the first END: its register A over the row (R160). -/
def microRun (p : Pool) : List DWord → List (List Word) → List Word
  | [], l => l.getD 0 []
  | w :: steps, l => if stOpc w = 0 then l.getD (stA w) [] else microRun p steps (microStep p w l)

/-- Run a program over a row with its inputs X, Y and W; an input the descriptor does not read holds +0.0 (R160). -/
def microRow (p : Pool) (steps : List DWord) (x y w : List Word) : List Word :=
  let fill (l : List Word) : List Word := if l.length = x.length then l else x.map fun _ => 0
  microRun p steps (x :: fill y :: fill w :: List.replicate 13 (x.map fun _ => 0))

/-- Steps up to the first END. -/
def liveSteps (steps : List DWord) : List DWord := steps.takeWhile fun w => decide (stOpc w ≠ 0)

/-- Cost in cycles per group, and the RED steps (R159). -/
def microCost (steps : List DWord) : Nat :=
  ((liveSteps steps).map fun w =>
    if stOpc w = 0x05 then 3 else if stOpc w = 0x06 then stN w else if stOpc w = 0x0B then 2 + stN w else 1).foldl (· + ·) 0
def microReds (steps : List DWord) : Nat := ((liveSteps steps).filter fun w => decide (stOpc w = 0x0D)).length

/-- Whether a step is bad (R165). A field is range-checked where its opcode uses it (assumption 15, DEDUCED). -/
def stepBad (w : DWord) : Bool :=
  let o := stOpc w
  let n := stN w
  decide (bits w.toNat 63 43 ≠ 0) || decide (0x0E < o) || (decide (o = 0x05 ∨ o = 0x08) && decide (stD w = 15))
    || (decide (o = 0x06) && decide (n = 0 ∨ 255 < stK w + n)) || (decide (o = 0x0A ∨ o = 0x0B) && decide (1 < n))
    || (decide (o = 0x0C) && decide (6 < n)) || (decide (o = 0x0D) && decide (3 < n)) || (decide (o = 0x0E) && decide (2 < n))
    || (decide (o = 0x05) && decide (253 < stK w)) || (decide (o = 0x07) && !stLm w && decide (24 < stSh w))

/-- Bytes of an image, by its header (Table 6.7). -/
def imageLen (h : Bytes) : Nat := 16 + bits (pfield h 0 2) 11 0 * 8 + pfield h 2 1 * 4 + bits (pfield h 3 1) 2 0 * 1024

/-- The fault of an image: the index of its first bad step, or 0xFFFF for a header fault; none where it is sound (R165). -/
def imageFault (b : Bytes) : Option Nat :=
  let ns := bits (pfield b 0 2) 11 0
  let steps := (List.range ns).map fun i => BitVec.ofNat 64 (pfield b (16 + 8 * i) 8)
  if decide (bits (pfield b 0 2) 15 12 ≠ 0) || decide (ns < 1 ∨ 3072 < ns) || decide (128 < pfield b 2 1)
      || decide (7 < pfield b 3 1) || decide (pfield b 4 4 ≠ 1) || decide (pfield b 8 8 ≠ 0) then some 0xFFFF
  else
    match steps.findIdx? stepBad with
    | some i => some i
    | none => if steps.any fun w => decide (stOpc w = 0) then none else some 0xFFFF

/-- Load an image (R163). Pool entries and user tables the image does not give hold open values, words of one free
number (assumption 16). -/
def Image.load (addr tenant open_ : Nat) (b : Bytes) : Image :=
  let ns := bits (pfield b 0 2) 11 0
  let nc := pfield b 2 1
  let nt := pfield b 3 1
  let word (o : Nat) : Word := BitVec.ofNat 32 (pfield b o 4)
  let free (i : Nat) : Word := BitVec.ofNat 32 (open_ / 2 ^ (32 * i))
  { addr := BitVec.ofNat 64 addr, size := imageLen b, tenant := tenant
    steps := (List.range ns).map fun i => BitVec.ofNat 64 (pfield b (16 + 8 * i) 8)
    consts := (List.range 128).map fun i => if i < nc then word (16 + 8 * ns + 4 * i) else free i
    tables := (List.range 7).map fun t => (List.range 256).map fun i =>
      if t < nt then word (16 + 8 * ns + 4 * nc + 1024 * t + 4 * i) else free (128 + 256 * t + i) }

/-- Cost of a built-in function (Table 6.8). -/
def fnCost (fn : Nat) : Nat := [1, 12, 16, 18, 15, 22, 20, 16, 24, 5, 7].getD fn 1

/-- The 32-bit word of the library store at a word address (R162): the directory carries the costs of Table 6.8, and tables 0
and 1 are T0 and T1. -/
def libWordAt (ver addr : Nat) : Word :=
  if addr < 0x58 ∧ addr % 8 = 0 then BitVec.ofNat 32 ((Config.libWord ver addr).toNat % 2 ^ 24 + place (fnCost (addr / 8)) 24)
  else if 0x2300 ≤ addr ∧ addr < 0x2700 then seedT0 ((addr - 0x2300) / 4)
  else if 0x2700 ≤ addr ∧ addr < 0x2B00 then seedT1 ((addr - 0x2700) / 4)
  else Config.libWord ver addr

/-- Pool and tables an engine's program sees: the library's and the loaded image's (Table 6.1). -/
def poolOf (ver : Nat) (im : Image) : Pool where
  consts k := canon32 (if k < 128 then libWordAt ver (0x2100 + 4 * k) else im.consts.getD (k - 128) 0)
  table t i := canon32 (if t < 8 then libWordAt ver (0x2300 + 1024 * t + 4 * i)
    else if t < 15 then (im.tables.getD (t - 8) []).getD i 0
    else if i < 128 then libWordAt ver (0x2100 + 4 * i) else im.consts.getD (i - 128) 0)

end Sys2Proof.Machine
end

