-- ==== Sys2Proof/Machine/Chisel.lean ====
section
/-! DEFINITION. Chisel engines: the six operations of class 0x2, the output stage, and the library store (R149 to R178). -/

namespace Sys2Proof.Machine

/-- A Chisel descriptor: its operand area (Table 6.2) and parameter block (Table 6.3). -/
structure Chi where
  op   : Nat
  x    : Nat
  y    : Nat
  z    : Nat
  rows : Nat
  cols : Nat
  p    : Bytes
deriving DecidableEq, Repr

/-- Read the operand area. -/
def Chi.of (d : BitVec 1024) (p : Bytes) : Chi where
  op := dOp d
  x := dfield d 0x50 8
  y := dfield d 0x58 8
  z := dfield d 0x60 8
  rows := bits (dfield d 0x70 4) 23 0
  cols := bits (dfield d 0x74 4) 20 0
  p := p

def Chi.xf (c : Chi) : Nat := bits (pfield c.p 0 4) 4 0
def Chi.yf (c : Chi) : Nat := bits (pfield c.p 0 4) 12 8
def Chi.zf (c : Chi) : Nat := bits (pfield c.p 0 4) 20 16
def Chi.wf (c : Chi) : Nat := bits (pfield c.p 0 4) 28 24
def Chi.fl (c : Chi) (i : Nat) : Bool := bit (pfield c.p 4 4) i
def Chi.xTr (c : Chi) : Bool := c.fl 0
def Chi.hasSin (c : Chi) : Bool := c.fl 1
def Chi.hasBias (c : Chi) : Bool := c.fl 2
def Chi.hasRes (c : Chi) : Bool := c.fl 3
def Chi.hasSout (c : Chi) : Bool := c.fl 4
def Chi.clamp (c : Chi) : Bool := c.fl 5
def Chi.qact (c : Chi) : Bool := c.fl 6
def Chi.stats (c : Chi) : Bool := c.fl 7
def Chi.z2En (c : Chi) : Bool := c.fl 8
def Chi.gru (c : Chi) : Bool := c.fl 9
def Chi.nin (c : Chi) : Nat := bits (pfield c.p 4 4) 11 10
def Chi.fn (c : Chi) : Nat := bits (pfield c.p 8 4) 7 0
def Chi.trough (c : Chi) : Nat := pfield c.p 0xC 1
def Chi.qmin (c : Chi) : Int := signedOf 8 (pfield c.p 0xD 1)
def Chi.qmax (c : Chi) : Int := signedOf 8 (pfield c.p 0xE 1)
def Chi.z2f (c : Chi) : Nat := bits (pfield c.p 0xC 4) 28 24
def Chi.pitch (c : Chi) (i : Nat) : Nat := pfield c.p (0x10 + 4 * i) 4
def Chi.addr (c : Chi) (o : Nat) : Nat := pfield c.p o 8
def Chi.isGate (c : Chi) : Bool := decide (c.op = 6)
/-- The output stage runs: under GATE, for Z2 only (R168). -/
def Chi.staged (c : Chi) : Bool := !c.isGate || c.z2En
/-- Format of the output stage's output. -/
def Chi.of' (c : Chi) : Nat := if c.isGate then c.z2f else c.zf
/-- Whether Y and W are read (R154). -/
def Chi.useY (c : Chi) : Bool :=
  (decide (c.op = 1) && decide (2 ≤ c.nin)) || (decide (c.op = 2 ∨ c.op = 3) && c.hasRes) || (c.isGate && c.gru)
def Chi.useW (c : Chi) : Bool := (decide (c.op = 1) && decide (c.nin = 3)) || (c.isGate && !c.gru)
/-- Elements of a row of X. -/
def Chi.xCols (c : Chi) : Nat := if c.isGate then 4 * c.cols else c.cols

/-- Conditions of R156 on the descriptor's own bytes. -/
def ceOwnBad (d : BitVec 1024) : List (Bool × Nat) :=
  let r := dfield d 0x70 4
  let c := dfield d 0x74 4
  [(decide (dfield d 0x68 8 % 64 ≠ 0), 0x68), (decide (r < 1 ∨ 0xFFFFFF < r), 0x70), (decide (c < 1 ∨ 1048576 < c), 0x74)]
    ++ [(decide (dfield d 0x78 8 ≠ 0), 0x78)]

/-- The input set and the output set of R154. -/
def ceIn (f : Nat) : Bool := [0x01, 0x02, 0x09, 0x0A, 0x0C, 0x0D, 0x0E].contains f
def ceOut (f : Nat) : Bool := [0x00, 0x01, 0x08, 0x09, 0x0A, 0x0C, 0x0D, 0x0E, 0x10, 0x11, 0x12, 0x13, 0x14].contains f

/-- Flags an OP may set (Table 6.4); every OP takes any NIN but ELEMENTWISE, where 0 is malformed. -/
def ceFlags (op : Nat) : Nat :=
  if op = 1 then 0xC70 else if op = 2 then 0xC7F else if op = 3 then 0xCF8
  else if op = 4 ∨ op = 5 then 0xCF6 else 0xF70

/-- The byte, from 0x84 on, of the lowest bit set of a FLAGS word. -/
def flagByte (v : Nat) : Nat := if v % 0x100 ≠ 0 then 0x84 else if v % 0x10000 ≠ 0 then 0x85 else if v % 0x1000000 ≠ 0 then 0x86 else 0x87

/-- Conditions of R156 on the parameter block, but for the one that needs the image; each names the byte of the lowest bit of
the lowest field it involves (R62). FN, TAU, EPS and the formats are those an OP uses (Table 6.4; assumption 36). -/
def ceBlockBad (s : State) (c : Chi) : List (Bool × Nat) :=
  let op := c.op
  let fl := pfield c.p 4 4
  let unused := Nat.land fl (0xFFFFFFFF - ceFlags op)
  let fn := pfield c.p 8 1
  let clo := num32 (pword c.p 0x58)
  let chi := num32 (pword c.p 0x5C)
  let tau := num32 (pword c.p 0x60)
  let eps := num32 (pword c.p 0x64)
  let rl := s.trLines c.trough
  let xOk := if op = 2 then c.xf = 0x02 ∨ c.xf = 0x0E else if op = 3 then c.xf = 0x0C ∨ c.xf = 0x0D ∨ c.xf = 0x0E
    else if op = 6 then c.xf = 0x0E else ceIn c.xf = true
  let ioOk (f : Nat) : Bool := if op = 6 then decide (f = 0x0E) else ceIn f
  let isInt := decide (c.of' ≤ 1)
  -- the lowest field of a condition on the output format and another field: ZFMT, or under GATE the other field first
  let fo (other : Nat) : Nat := if c.isGate then min other 0x8F else min other 0x82
  rsv (pfield c.p 0 4) 0x80 [(7, 5), (15, 13), (23, 21), (31, 29)] ++ rsv (pfield c.p 8 4) 0x88 [(31, 8)]
    ++ rsv (pfield c.p 0xC 4) 0x8C [(31, 29)]
    ++ [(decide (pfield c.p 0x7C 4 ≠ 0), 0xFC),
        (decide (unused ≠ 0), flagByte unused),
        (!decide (fn ≤ 0x0A ∨ fn = 0x80) || (decide (3 ≤ op) && decide (fn ≠ 0)), 0x88),
        (!decide xOk, 0x80), (c.useY && !ioOk c.yf, 0x81), (c.isGate && decide (c.zf ≠ 0x0E), 0x82), (c.useW && !ioOk c.wf, 0x83),
        (c.staged && !ceOut c.of', if c.isGate then 0x8F else 0x82),
        (decide (op = 1) && decide (c.nin = 0), 0x85),
        (c.xTr && s.trOn c.trough && decide (rl % 8 ≠ 0 ∨ rl < 8 ∨ 248 < rl), 0x84),
        (c.clamp && (clo.isNan || chi.isNan || chi.lt clo), 0x84),
        (decide (op = 3) && !tau.isFin, 0xE0),
        (decide (op = 4 ∨ op = 5) && !(eps.isFin && !eps.lt (.fin false 1 (-126))), 0xE4),
        (c.staged && isInt && !c.qact && decide (c.qmax < c.qmin), fo 0x84),
        (c.staged && isInt && !c.qact && decide (c.qmin < intLo c.of' ∨ intHi c.of' < c.qmin ∨ c.qmax < intLo c.of' ∨ intHi c.of' < c.qmax), fo 0x84),
        (c.staged && c.qact && !([0x01, 0x09, 0x0A].contains c.of'), fo 0x84),
        (c.staged && fmtBlock c.of' && decide (c.cols % 32 ≠ 0), 0x74),
        (!c.xTr && pitchBad (c.pitch 0) (rowBytes c.xf c.xCols), 0x90),
        (c.useY && pitchBad (c.pitch 1) (rowBytes c.yf c.cols), 0x94),
        (pitchBad (c.pitch 2) (rowBytes c.zf c.cols), 0x98),
        (c.useW && pitchBad (c.pitch 3) (rowBytes c.wf c.cols), 0x9C),
        (c.isGate && c.z2En && pitchBad (pfield c.p 0x78 4) (rowBytes c.z2f c.cols), 0xF8)]

/-- Operand addresses that R155 checks. -/
def Chi.addrs (c : Chi) : List Nat :=
  [(!c.xTr, c.x), (c.useY, c.y), (true, c.z), (c.hasSin, c.addr 0x20), (c.hasBias, c.addr 0x28),
   (c.staged && c.hasSout, c.addr 0x30), (c.useW, c.addr 0x38), (c.staged && c.qact, c.addr 0x40), (c.stats, c.addr 0x48),
   (c.isGate && c.z2En, c.addr 0x68), (c.staged && fmtBlock c.of', c.addr 0x70)].filterMap fun e =>
    if e.1 then some e.2 else none

/-- Records of one N-tile of the M-block of `m` rows, `r` rows a record (R137). -/
def recGroups (m r : Nat) : Nat := ceilDiv m r

/-- Troughs a Chisel descriptor names (R169). -/
def Chi.uses (c : Chi) (s : State) : List TrUse :=
  if c.xTr then
    let r := s.trLines c.trough / 8
    let n := (tiles 512 c.rows).map fun b => ceilDiv c.cols 128 * recGroups b.2 r
    [{ n := c.trough, out := false, count := n.foldl (· + ·) 0 }]
  else []

/-- Read and check the parameter block: with the troughs it names. -/
def Work.ceParams (w : Work) (d : BitVec 1024) : Work × Chi × List TrUse :=
  let (w, p) := w.read (dfield d 0x68 8) 128
  let c := Chi.of d p
  (w.checkFields (ceBlockBad w.s c), c, if w.dead then [] else c.uses w.s)

/-- Row i of X from the records of its trough (R169). -/
def recRow (recs : List Bytes) (xf rows cols r i : Nat) : List Word :=
  let b := i / 512
  let m := min 512 (rows - 512 * b)
  let nt := ceilDiv cols 128
  let before := ((tiles 512 rows).take b).map fun p => nt * recGroups p.2 r
  let base := before.foldl (· + ·) 0
  let row := (List.range nt).flatMap fun t =>
    let rec_ := recs.getD (base + t * recGroups m r + i % 512 / r) []
    unpack 2 128 ((rec_.drop (i % 512 % r * 512)).take 512)
  (row.take cols).map fun v => word32 (elemNum xf v)

/-- Read a row of `n` elements converted to FP32 (R151). -/
def Work.fpRow (w : Work) (base pitch f r n : Nat) : Work × List Word :=
  let (w, b) := w.read (base + r * pitch) (rowBytes f n)
  (w, (unpack f n b).map fun v => word32 (elemNum f v))

/-- Read a vector of `n` FP32 values, where it is present. -/
def Work.fpVec (w : Work) (on : Bool) (a n : Nat) : Work × Option (List Word) :=
  if on then
    let (w, b) := w.read a (4 * n)
    (w, some ((unpack 0x0E n b).map fun v => canon32 (BitVec.ofNat 32 v)))
  else (w, none)

/-- The vectors and the program of a running descriptor. -/
structure ChiEnv where
  sin   : Option (List Word)
  bias  : Option (List Word)
  sout  : Option (List Word)
  ver   : Nat
  image : Option Image

/-- Scale and bias of R167 step 2 and R173 step 7, element by element. -/
def ChiEnv.affine (e : ChiEnv) (l : List Word) : List Word :=
  match e.sin, e.bias with
  | some s, some b => List.zipWith (fun x (p : Word × Word) => f32fma x p.1 p.2) l (s.zip b)
  | some s, none => List.zipWith f32mul l s
  | none, some b => List.zipWith f32add l b
  | none, none => l

/-- FN over a row (R167 step 4). A user image under EPILOGUE finds x in L0 and the residual in L1. -/
def ChiEnv.apply (e : ChiEnv) (fn : Nat) (x y w : List Word) : List Word :=
  match e.image with
  | some im => microRow (poolOf e.ver im) im.steps x y w
  | none => x.map (builtinFn e.ver fn)

/-- SOFTMAX of one row: the outputs and its statistics (R171, R172). -/
def softmaxRow (ver : Nat) (tau : Word) (u : List Word) (y : Option (List Word)) : List Word × List Word :=
  let x := match y with
    | some y => List.zipWith (fun a b => f32fma a tau b) u y
    | none => u.map fun a => f32mul a tau
  let ns := x.map num32
  if ns.any fun v => v.isNan || (!v.isFin && !v.isNeg) then (x.map fun _ => nan32, [nan32, nan32])
  else
    let m := redRow 1 x
    if m = 0xFF800000 then (x.map fun _ => 0, [m, 0])
    else
      let e := x.map fun v => builtinFn ver 0x01 (f32sub v m)
      let s := redRow 0 e
      let q := builtinFn ver 0x09 s
      (e.map fun v => f32mul v q, [m, s])

/-- FP32 value nearest 1/n. -/
def recipOf (n : Nat) : Word := f32div 0x3F800000 (f32ofInt n)

/-- LAYERNORM and RMSNORM of one row, before the γ and β step: values and statistics (R173 to R175). -/
def normRow (ver : Nat) (layer : Bool) (eps : Word) (x : List Word) : List Word × List Word :=
  let nan := x.map fun _ => nan32
  let inv := recipOf x.length
  if x.any fun v => !(num32 v).isFin then
    (nan, if layer then [nan32, nan32, nan32, nan32] else [0, nan32, nan32, 0])
  else if layer then
    let k := x.headD 0
    let d := x.map fun v => f32sub v k
    let md := f32mul (redRow 0 d) inv
    let a := f32mul (redRow 3 d) inv
    let v := f32fma (f32neg md) md a
    let var : Word := if (num32 v).isNeg then 0 else v
    let r := builtinFn ver 0x0A (f32add var eps)
    (d.map fun v => f32mul (f32sub v md) r, [f32add k md, var, r, k])
  else
    let ms := f32mul (redRow 3 x) inv
    let r := builtinFn ver 0x0A (f32add ms eps)
    (x.map fun v => f32mul v r, [0, ms, r, 0])

/-- One row of GATE: h' and, for LSTM, c' (R176). -/
def gateRow (ver : Nat) (gru : Bool) (h : Nat) (z y w : List Word) : List Word × List Word :=
  let sg (v : Word) : Word := builtinFn ver 0x04 v
  let th (v : Word) : Word := builtinFn ver 0x03 v
  let at_ (b j : Nat) : Word := z.getD (b * h + j) 0
  let r := (List.range h).map fun j =>
    if gru then
      let n := th (f32fma (sg (at_ 0 j)) (at_ 3 j) (at_ 2 j))
      (f32fma (sg (at_ 1 j)) (f32sub (y.getD j 0) n) n, (0 : Word))
    else
      let p := f32mul (sg (at_ 1 j)) (w.getD j 0)
      let c := f32fma (sg (at_ 0 j)) (th (at_ 2 j)) p
      (f32mul (sg (at_ 3 j)) (th c), c)
  (r.map Prod.fst, r.map Prod.snd)

/-- Clamp, a NaN passing unchanged (R168 step 2). -/
def clamp32 (lo hi x : Word) : Word :=
  let v := num32 x
  if v.isNan then x else if v.lt (num32 lo) then lo else if (num32 hi).lt v then hi else x

/-- The output stage on one row (R168): the record's maximum taken, element codes and block scales. -/
def Chi.stage (c : Chi) (sout : Option (List Word)) (q : Option Ssr) (row : List Word) : Option Ssr × List Nat × Bytes :=
  let row := match sout with
    | some s => List.zipWith f32mul row s
    | none => row
  let row := if c.clamp then row.map (clamp32 (pword c.p 0x58) (pword c.p 0x5C)) else row
  let f := c.of'
  match q with
  | some r =>
    let (r, codes) := r.quantAll row
    (some r, codes, [])
  | none =>
    if f ≤ 1 then (none, row.map fun v => intCode f c.qmin c.qmax (num32 v), [])
    else if fmtBlock f then (none, encodeRow f row)
    else (none, row.map fun v => floatCode f (num32 v), [])

/-- One row of a descriptor: the row for the output stage, the statistics, and under GATE the rows of Z and W. -/
def Chi.computeRow (c : Chi) (e : ChiEnv) (x y w : List Word) : List Word × List Word × List Word × List Word :=
  if c.op = 1 then (e.apply c.fn x y w, [], [], [])
  else if c.op = 2 then
    let v := e.affine x
    let v := if c.hasRes then List.zipWith f32add v y else v
    (e.apply c.fn v y [], [], [], [])
  else if c.op = 3 then
    let (o, st) := softmaxRow e.ver (pword c.p 0x60) x (if c.hasRes then some y else none)
    (o, st, [], [])
  else if c.op = 6 then
    let (h, n) := gateRow e.ver c.gru c.cols x y w
    (h, [], h, n)
  else
    let (o, st) := normRow e.ver (decide (c.op = 4)) (pword c.p 0x64) x
    (e.affine o, st, [], [])

/-- Bytes of FP32 words. -/
def wordBytes (l : List Word) : Bytes := l.flatMap fun v => leBytes 4 v.toNat

/-- One row read, computed and written. -/
def Work.ceRow (w : Work) (f : Flight) (c : Chi) (e : ChiEnv) (q : Option Ssr) (r : Nat) : Work × Option Ssr :=
  let (w, x) :=
    if c.xTr then (w, recRow (f.recsOf c.trough) c.xf c.rows c.cols (f.linesOf c.trough false / 8) r)
    else w.fpRow c.x (c.pitch 0) c.xf r c.xCols
  let (w, y) := if c.useY then w.fpRow c.y (c.pitch 1) c.yf r c.cols else (w, [])
  let (w, v) := if c.useW then w.fpRow (c.addr 0x38) (c.pitch 3) c.wf r c.cols else (w, [])
  if w.dead then (w, q)
  else
    let (o, st, zr, wr) := c.computeRow e x y v
    let w := if c.isGate then w.write (c.z + r * c.pitch 2) (wordBytes zr) else w
    let w := if c.isGate ∧ c.gru = false then w.write (c.addr 0x38 + r * c.pitch 3) (wordBytes wr) else w
    let (w, q) :=
      if c.staged then
        let (q, codes, scs) := c.stage e.sout q o
        let out := if c.isGate then c.addr 0x68 + r * pfield c.p 0x78 4 else c.z + r * c.pitch 2
        ((w.write out (pack c.of' codes)).write (c.addr 0x70 + r * (c.cols / 32)) scs, q)
      else (w, q)
    (if c.stats then w.write (c.addr 0x48 + r * (if c.op = 3 then 8 else 16)) (wordBytes st) else w, q)

/-- Ranges an operation reads and writes, for R157; `z` exempt from X or Y where the addresses and pitches are equal. -/
def Chi.overlaps (c : Chi) (param imageBytes : Nat) : Bool :=
  let rr (a p f n : Nat) : List (Nat × Nat) := rowRanges a p c.rows (rowBytes f n)
  let xs := if c.xTr then [] else rr c.x (c.pitch 0) c.xf c.xCols
  let ys := if c.useY then rr c.y (c.pitch 1) c.yf c.cols else []
  let ws := if c.useW then rr (c.addr 0x38) (c.pitch 3) c.wf c.cols else []
  let vec (on : Bool) (o : Nat) : List (Nat × Nat) := if on then [(c.addr o, 4 * c.cols)] else []
  let others := (param, 128) :: vec c.hasSin 0x20 ++ vec c.hasBias 0x28 ++ vec (c.staged && c.hasSout) 0x30
    ++ (if c.fn = 0x80 then [(c.addr 0x50, imageBytes)] else [])
  let long := decide (c.op = 3) && decide (40960 < c.cols)
  let same (a p : Nat) : Bool := decide (c.z = a) && decide (c.pitch 2 = p) && !long
  let z := rr c.z (c.pitch 2) c.zf c.cols
  let zIn := (if same c.x (c.pitch 0) then [] else xs) ++ (if same c.y (c.pitch 1) then [] else ys)
    ++ ws ++ others
  let more := (if c.stats then [(c.addr 0x48, c.rows * if c.op = 3 then 8 else 16)] else [])
    ++ (if c.isGate && c.z2En then rowRanges (c.addr 0x68) (pfield c.p 0x78 4) c.rows (rowBytes c.z2f c.cols) else [])
    ++ (if c.staged && fmtBlock c.of' then [(c.addr 0x70, c.rows * (c.cols / 32))] else [])
  rangesMeet z zIn || rangesMeet more (xs ++ ys ++ ws ++ others)
    || (c.isGate && !c.gru && rangesMeet ws (xs ++ ys ++ others))

/-- Load a user image of `n` bytes: CE_UPROG_MISS counts (R163, R165). -/
def Work.ceLoad (w : Work) (u t a n : Nat) : Work × Option Image × Nat :=
  let (w, b) := w.read a n
  if w.dead then (w, none, 0)
  else
    match imageFault b with
    | some i => (w.fail stProtection (2 ^ 63 + place i 32 + 0xD0), none, 0)
    | none =>
      let im := Image.load a t (Config.freeNat w.s.free) b
      (w.mapS fun s =>
        let s := { s.tick with image := smapInsert s.image u im }
        let s := (s.count (CE_UPROG_MISS u) 1).setRegN (CE_UPROG_SRC u) a
        (s.setBit (CE_STATUS u) 1 true).setField (CE_STATUS u) 27 16 im.steps.length, some im, ceilDiv n 512)

/-- Load the user image, or use the one the engine keeps (R163, R165). -/
def Work.ceImage (w : Work) (u t a : Nat) : Work × Option Image × Nat :=
  let w := w.needLocal a
  let (w, h) := w.read a 16
  let n := imageLen h
  match smapFind w.s.image u with
  | some im =>
    if im.addr.toNat = a ∧ im.size = n ∧ im.tenant = t then (w, some im, 0) else w.ceLoad u t a n
  | none => w.ceLoad u t a n

/-- T of R177 and the cycles in which groups issue. -/
def Chi.cycles (c : Chi) (lfn reds : Nat) : Nat × Nat :=
  let o := 1 + flag c.hasSout + flag c.clamp + flag c.qact
  let gr := c.rows * ceilDiv c.cols 256
  let gn := ceilDiv (c.rows * c.cols) 256
  -- quarter bits of one element, so that the scale byte of a block counts
  let fb (f : Nat) : Nat := 4 * fmtBits f + flag (fmtBlock f)
  let rin := fb c.xf * (if c.isGate then 4 else 1) + (if c.useY then fb c.yf else 0) + if c.useW then fb c.wf else 0
  let again := if 40960 < c.cols then rin else 0
  let passes : List (Nat × Nat × Nat × Nat) :=
    if c.op = 6 then
      [(gn, (if c.gru then 51 else 84) + (if c.z2En then 1 + o else 0), rin,
        128 + (if c.useW then 128 else 0) + if c.z2En then fb c.z2f else 0)]
    else if c.op = 1 then [(if reds = 0 then gn else gr, lfn + o, rin, fb c.zf)]
    else if c.op = 2 then [(gn, 1 + flag c.hasRes + lfn + o, rin, fb c.zf)]
    else if c.op = 3 then [(gr, 2, rin, 0), (gr, 14, again, 0), (gr, 1 + o, again, fb c.zf)]
    else if c.op = 4 then [(gr, 3, rin, 0), (gr, 3 + o, again, fb c.zf)]
    else [(gr, 1, rin, 0), (gr, 2 + o, again, fb c.zf)]
  let red := if c.op = 1 then reds else if c.op = 3 then 2 else if c.op = 4 ∨ c.op = 5 then 1 else 0
  let t := passes.map fun (g, l, r, w) => g * max l (max (ceilDiv (r * 8) 512) (ceilDiv (w * 8) 256))
  let iss := passes.map fun (g, l, _, _) => g * l
  (40 + t.foldl (· + ·) 0 + 24 * red * c.rows + 64, iss.foldl (· + ·) 0)

/-- The start of a Chisel descriptor: its block, its image and its addresses are checked, and its scale-state record is read
(R62, R118, R165). -/
def ceStart (f : Flight) (w : Work) : Work × Started :=
  let (w, c, uses) := w.ceParams f.desc
  let (w, im, load) := if c.fn = 0x80 ∧ !w.dead then w.ceImage f.unit f.tenant (c.addr 0x50) else (w, none, 0)
  let reds := match im with | some i => microReds i.steps | none => 0
  let w := w.checkFields [(decide (c.op = 1) && decide (reds ≠ 0) && decide (40960 < c.cols), 0x74)]
  let w := if load = 0 then w else w.mapS fun s => s.stall (CE_STALL_CNT f.unit) load
  let w := w.each c.addrs Work.needLocal
  let (w, raw) :=
    if c.staged && c.qact then
      let (w, r) := w.ssrStart (c.addr 0x40) fun qf => decide (qf = c.of')
      (w, r.raw)
    else (w, [])
  (w, { param := c.p, ssr := raw, uses := uses })

/-- What a started descriptor of class 0x2 does. -/
def ceRun (f : Flight) (w : Work) : Work :=
  let u := f.unit
  let c := Chi.of f.desc f.param
  let im := if c.fn = 0x80 then smapFind w.s.image u else none
  let reds := match im with | some i => microReds i.steps | none => 0
  let lfn := match im with | some i => microCost i.steps | none => fnCost c.fn
  let q := if c.staged && c.qact then some (Ssr.derive (c.addr 0x40) f.ssr) else none
  let (w, sin) := w.fpVec c.hasSin (c.addr 0x20) c.cols
  let (w, bias) := w.fpVec c.hasBias (c.addr 0x28) c.cols
  let (w, sout) := w.fpVec (c.staged && c.hasSout) (c.addr 0x30) c.cols
  let e : ChiEnv := { sin := sin, bias := bias, sout := sout, ver := (w.s.libVer.map BitVec.toNat).getD 0, image := im }
  let (w, q) := (List.range c.rows).foldl (fun (acc : Work × Option Ssr) r =>
    if acc.1.dead then acc else acc.1.ceRow f c e acc.2 r) (w, q)
  let meets := c.overlaps (dfield f.desc 0x68 8) (match im with | some i => i.size | none => 0)
  let w := w.openOutputs meets
  let w := match q with
    | some r => w.ssrFinish r
    | none => w
  let (t, iss) := c.cycles lfn reds
  let w := w.tally (CE_ELEM_CNT u) (256 * iss)
  w.stalled (CE_STALL_CNT u) (t - iss)

/-- Start a Chisel descriptor, and run it once it has all its trough records. -/
def State.ceFlight (s : State) (id op : Nat) : State := s.runStarted id 2 op ceStart ceRun

def execElementwise (id : Nat) (s : State) : Out := live s fun s => s.ceFlight id 1
def execEpilogue (id : Nat) (s : State) : Out := live s fun s => s.ceFlight id 2
def execSoftmax (id : Nat) (s : State) : Out := live s fun s => s.ceFlight id 3
def execLayernorm (id : Nat) (s : State) : Out := live s fun s => s.ceFlight id 4
def execRmsnorm (id : Nat) (s : State) : Out := live s fun s => s.ceFlight id 5
def execGate (id : Nat) (s : State) : Out := live s fun s => s.ceFlight id 6

/-- Read CE_LIB_DATA: the library word at CE_LIB_ADDR, which advances by 4 within 64 KiB (R162, R178); 0 before Meleopin
has written the library. -/
def State.libRead (s : State) (n : Nat) : State × Word :=
  let a := place (s.field (CE_LIB_ADDR n) 15 2) 2
  let v := match s.libVer with
    | some ver => libWordAt ver.toNat a
    | none => 0
  (s.setRegN (CE_LIB_ADDR n) ((a + 4) % 0x10000), v)

end Sys2Proof.Machine
end

