-- ==== Sys2Proof/Machine/Attention.lean ====
section
/-! DEFINITION. Attention engines, the Page Map, pools and the Prefix Table (R179 to R209). -/

namespace Sys2Proof.Machine

/-! The Page Map (Table 7.1). -/

def pageZero (_ : Nat) : DWord := 0
/-- The entry of an index. -/
def State.page (s : State) (i : Nat) : Nat := (smapGet pageZero s.pageMap i).toNat
/-- Replace it. -/
def State.setPage (s : State) (i v : Nat) : State :=
  { s with pageMap := smapSet pageZero s.pageMap i (BitVec.ofNat 64 v) }
def pgState (v : Nat) : Nat := bits v 1 0
def pgSize (v : Nat) : Nat := bits v 5 2
def pgTenant (v : Nat) : Nat := bits v 9 6
def pgSealed (v : Nat) : Bool := bit v 10
def pgNext (v : Nat) : Nat := bits v 32 11
def pgFrame (v : Nat) : Nat := bits v 55 33
def pgRefs (v : Nat) : Nat := bits v 63 56
/-- An entry from its fields. -/
def pageOfFields (state size tenant : Nat) (sealed_ : Bool) (next frame refs : Nat) : Nat :=
  state + place size 2 + place tenant 6 + place (flag sealed_) 10 + place next 11 + place frame 33 + place refs 56
/-- Replace bits [hi:lo] of a number. -/
def setBits (v hi lo x : Nat) : Nat := v - place (bits v hi lo) lo + place (x % 2 ^ (hi + 1 - lo)) lo

/-- Tokens of a page of size code k (R179). -/
def pageTokens (k : Nat) : Nat := 16 * 2 ^ k

/-- Register of a tenant's pool of a size code. -/
def poolReg (t k : Nat) : Nat := PM_POOL (9 * t + k)

/-- Push an entry on its tenant's pool (R181, R182). -/
def State.poolPush (s : State) (i : Nat) : State :=
  let v := s.page i
  let r := poolReg (pgTenant v) (pgSize v)
  let s := s.setPage i (pageOfFields 1 (pgSize v) (pgTenant v) false (s.field r 21 0) (pgFrame v) 0)
  (s.setField r 45 24 (s.field r 45 24 + 1)).setField r 21 0 i

/-- Take the most recently pushed entry of a pool: its index, none where the pool is empty. -/
def State.poolTake (s : State) (t k : Nat) : State × Option Nat :=
  let r := poolReg t k
  let n := s.field r 45 24
  if n = 0 then (s, none)
  else
    let i := s.field r 21 0
    ((s.setField r 45 24 (n - 1)).setField r 21 0 (pgNext (s.page i)), some i)

/-- Pop a page for a chain: live, one referrer, following `prev`, or a root (R182). -/
def State.poolPop (s : State) (t k : Nat) (prev : Option Nat) : State × Option Nat :=
  match s.poolTake t k with
  | (s, none) => (s, none)
  | (s, some i) =>
    let v := s.page i
    (s.setPage i (pageOfFields 2 (pgSize v) (pgTenant v) false (prev.getD i) (pgFrame v) 1), some i)

/-- Lower the REFS of a page; at 0 it returns to its pool and the page its NEXT names is lowered, down the chain (R181).
The count of pages released. -/
def State.lowerRefsFuel : Nat → State → Nat → State × Nat
  | 0, s, _ => (s, 0)
  | f + 1, s, i =>
    let v := s.page i
    if pgRefs v ≤ 1 then
      let s := s.poolPush i
      if pgNext v = i then (s, 1)
      else
        let (s, n) := State.lowerRefsFuel f s (pgNext v)
        (s, n + 1)
    else (s.setPage i (setBits v 63 56 (pgRefs v - 1)), 0)

/-- Lower the REFS of a page. -/
def State.lowerRefs (s : State) (i : Nat) : State × Nat := State.lowerRefsFuel 0x400000 s i

/-- Entries in STATE 0 (PM_FREE). -/
def State.pmFree (s : State) : Nat := 0x400000 - (s.pageMap.filter fun e => decide (pgState e.2.toNat ≠ 0)).length

/-- Lowest index in STATE 0, from `i` on. -/
def lowestUnused : SMap DWord → Nat → Nat
  | [], i => i
  | (a, v) :: m, i => if i < a then i else if pgState v.toNat = 0 then a else lowestUnused m (a + 1)

/-- Page Map entries a tenant holds. -/
def State.pagesOf (s : State) (t : Nat) : Nat :=
  (s.pageMap.filter fun e => decide (pgState e.2.toNat ≠ 0) && decide (pgTenant e.2.toNat = t)).length

/-! The Prefix Table (Table 7.5). -/

def pfxZero (_ : Nat) : BitVec 128 := 0
def State.pfxAt (s : State) (i : Nat) : Nat := (smapGet pfxZero s.pfx i).toNat
def State.setPfx (s : State) (i v : Nat) : State := { s with pfx := smapSet pfxZero s.pfx i (BitVec.ofNat 128 v) }
def pxHash (v : Nat) : Nat := bits v 63 0
def pxPage (v : Nat) : Nat := bits v 85 64
def pxTenant (v : Nat) : Nat := bits v 89 86
def pxValid (v : Nat) : Bool := bit v 90

/-- Entries of the set of a hash. -/
def pfxWays (h : Nat) : List Nat := (List.range 8).map fun w => 8 * bits h 16 0 + w

/-- The entry that matches a hash for a tenant (R199). -/
def State.pfxFind (s : State) (t h : Nat) : Option Nat :=
  (pfxWays h).find? fun i => let v := s.pfxAt i; pxValid v && decide (pxHash v = h) && decide (pxTenant v = t)

/-- Valid entries a tenant holds. -/
def State.pfxOf (s : State) (t : Nat) : Nat :=
  (s.pfx.filter fun e => pxValid e.2.toNat && decide (pxTenant e.2.toNat = t)).length

/-- Valid Prefix Table entries (PT_VALID). -/
def State.ptValid (s : State) : Nat := (s.pfx.filter fun e => pxValid e.2.toNat).length

/-- The key of a tenant (R198). -/
def State.ptKey (s : State) (t : Nat) : Bytes := (List.range 4).flatMap fun i => leBytes 4 (s.regN (PT_KEY (4 * t + i)))

/-- H_n of a page (R198). -/
def State.pageHash (s : State) (t prev tag size : Nat) (tokens : Bytes) : Nat :=
  (sipHash (s.ptKey t) (leBytes 8 prev ++ leBytes 4 tag ++ leBytes 1 size ++ [0, 0, 0] ++ tokens)).toNat

/-- Remove a Prefix Table entry: VALID and SEALED cleared and the page's REFS lowered, in one step (R202). -/
def State.pfxDrop (s : State) (i : Nat) : State :=
  let v := s.pfxAt i
  let p := pxPage v
  let s := s.setPfx i (setBits v 90 90 0)
  ((s.setPage p (setBits (s.page p) 10 10 0)).lowerRefs p).1

/-! Length-table entries (Table 7.2). -/

/-- A length-table entry and its place. -/
structure LtEntry where
  i    : Nat
  addr : Nat
  b    : Bytes
deriving DecidableEq, Repr

def LtEntry.qLen (e : LtEntry) : Nat := bits (pfield e.b 4 4) 20 0
def LtEntry.kvLen (e : LtEntry) : Nat := bits (pfield e.b 8 4) 22 0
def LtEntry.head (e : LtEntry) : Nat := bits (pfield e.b 0xC 4) 21 0
def LtEntry.size (e : LtEntry) : Nat := bits (pfield e.b 0xC 4) 27 24
def LtEntry.qRow (e : LtEntry) : Nat := bits (pfield e.b 0x10 4) 23 0
def LtEntry.tokens (e : LtEntry) : Nat := pageTokens e.size

/-- Read the length table. -/
def Work.ltRead (w : Work) (lt n : Nat) : Work × List LtEntry :=
  w.collect (List.range n) fun w i =>
    let a := lt + 32 * i
    let (w, b) := w.read a 32
    (w, { i := i, addr := a, b := b })

/-- Write an entry's STATUS. -/
def Work.ltStatus (w : Work) (e : LtEntry) (code : Nat) : Work := w.write (e.addr + 0x18) (leBytes 4 code)

/-- Write an entry's KV_LEN and HEAD. -/
def Work.ltCommit (w : Work) (e : LtEntry) (kv head : Nat) : Work :=
  w.write (e.addr + 8) (leBytes 4 kv ++ leBytes 4 (head + place e.size 24))

/-- Pages of a chain of `n` pages from its newest, towards the root. -/
def State.chain (s : State) : Nat → Nat → List Nat
  | 0, _ => []
  | n + 1, i => i :: s.chain n (pgNext (s.page i))

/-- Whether an entry's chain passes the checks of R192: every page live and its own tenant's, the head of its size. -/
def State.chainOk (s : State) (t : Nat) (e : LtEntry) : Bool :=
  decide (e.kvLen = 0)
    || (decide (pgSize (s.page e.head) = e.size)
      && (s.chain (ceilDiv e.kvLen e.tokens) e.head).all fun i =>
        decide (pgState (s.page i) = 2) && decide (pgTenant (s.page i) = t))

/-- Do one entry's part: where it fails, its writes are dropped and only its STATUS is written (R192). The failures so
far are kept newest first as (entry, code). -/
def Work.entry (w : Work) (fails : List (Nat × Nat)) (e : LtEntry) (f : Work → Work) : Work × List (Nat × Nat) :=
  if w.dead then (w, fails)
  else
    let before := w.wr
    let w' := f w
    match w'.err with
    | some (c, _) => ({ w' with err := none, wr := before }.ltStatus e c, (e.i, c) :: fails)
    | none => (w'.ltStatus e stOk, fails)

/-- Close a descriptor over its entries: its status is chosen over them all, DETAIL holds the first failed entry and the
number that failed (R192). -/
def Work.closeEntries (w : Work) (fails : List (Nat × Nat)) : Work :=
  match fails.reverse with
  | [] => w
  | (i, _) :: _ =>
    let d := i + place fails.length 32
    { w with partly := true, codes := w.codes ++ fails.map fun f => (f.2, d) }

/-! The descriptor (R185 to R187). -/

/-- An attention descriptor with its parameter block. -/
structure Vou where
  op    : Nat
  q     : Nat
  o     : Nat
  lt    : Nat
  count : Nat
  size  : Nat
  tag   : Nat
  p     : Bytes
deriving DecidableEq, Repr

/-- Read the operand area. -/
def Vou.of (d : BitVec 1024) (p : Bytes) : Vou where
  op := dOp d
  q := dfield d 0x50 8
  o := dfield d 0x58 8
  lt := dfield d 0x60 8
  count := dfield d 0x70 2
  size := bits (dfield d 0x74 4) 3 0
  tag := dfield d 0x68 4
  p := p

def Vou.qf (v : Vou) : Nat := bits (pfield v.p 0 4) 4 0
def Vou.kf (v : Vou) : Nat := bits (pfield v.p 0 4) 12 8
def Vou.of' (v : Vou) : Nat := bits (pfield v.p 0 4) 20 16
def Vou.fl (v : Vou) (i : Nat) : Bool := bit (pfield v.p 4 4) i
def Vou.append (v : Vou) : Bool := v.fl 0
def Vou.causal (v : Vou) : Bool := v.fl 1
def Vou.window (v : Vou) : Bool := v.fl 2
def Vou.stateIn (v : Vou) : Bool := v.fl 3
def Vou.stateOut (v : Vou) : Bool := v.fl 4
def Vou.kvBlock (v : Vou) : Bool := v.fl 5
def Vou.stats (v : Vou) : Bool := v.fl 6
def Vou.qh (v : Vou) : Nat := pfield v.p 8 1
def Vou.kvh (v : Vou) : Nat := pfield v.p 9 1
def Vou.dim (v : Vou) : Nat := bits (pfield v.p 8 4) 24 16
def Vou.win (v : Vou) : Nat := bits (pfield v.p 0xC 4) 22 0
def Vou.qPitch (v : Vou) : Nat := pfield v.p 0x18 4
def Vou.oPitch (v : Vou) : Nat := pfield v.p 0x1C 4
def Vou.kNew (v : Vou) : Nat := pfield v.p 0x20 8
def Vou.vNew (v : Vou) : Nat := pfield v.p 0x28 8
def Vou.newPitch (v : Vou) : Nat := pfield v.p 0x30 4
def Vou.state (v : Vou) : Nat := pfield v.p 0x38 8
def Vou.statsA (v : Vou) : Nat := pfield v.p 0x40 8
def Vou.kvh0 (v : Vou) : Nat := pfield v.p 0x48 1
def Vou.served (v : Vou) : Nat := pfield v.p 0x49 1
def Vou.blkPos (v : Vou) : Nat := bits (pfield v.p 0x4C 4) 22 0
def Vou.blkLen (v : Vou) : Nat := bits (pfield v.p 0x50 4) 16 0
def Vou.qPos (v : Vou) : Nat := bits (pfield v.p 0x54 4) 22 0
def Vou.qLen (v : Vou) : Nat := bits (pfield v.p 0x58 4) 20 0
/-- Bytes of a key or value row of one head, and of all heads. -/
def Vou.keyBytes (v : Vou) : Nat := rowBytes v.kf v.dim
def Vou.rowKv (v : Vou) : Nat := v.kvh * v.keyBytes
/-- Bytes between two carried states (R190). -/
def Vou.stateSize (v : Vou) : Nat := 64 * ceilDiv (8 + 4 * v.dim) 64

/-- Conditions of R187 and R62 on the descriptor's own bytes. -/
def veOwnBad (d : BitVec 1024) : List (Bool × Nat) :=
  let op := dOp d
  let sz := dfield d 0x74 4
  [(decide (op = 1) && decide (dfield d 0x68 8 % 64 ≠ 0), 0x68),
   (decide (dfield d 0x70 2 = 0), 0x70), (decide (dfield d 0x72 2 ≠ 0), 0x72),
   (decide (op = 2 ∨ op = 3) && decide (8 < bits sz 3 0), 0x74), (decide (bits sz 7 4 ≠ 0), 0x74),
   (decide (bits sz 15 9 ≠ 0), 0x75), (decide (bits sz 31 16 ≠ 0), 0x76)]
    ++ [(decide (dfield d 0x78 8 ≠ 0), 0x78)]

/-- Conditions of R187 on the parameter block of ATTEND; each names the byte of the lowest bit of the lowest field (R62). -/
def veBlockBad (v : Vou) : List (Bool × Nat) :=
  let f8 (c : Nat) : Bool := decide (c = 0x09 ∨ c = 0x0A)
  let p4 (o : Nat) : Nat := pfield v.p o 4
  rsv (p4 0) 0x80 [(7, 5), (15, 13), (31, 21)] ++ rsv (p4 4) 0x84 [(31, 7)] ++ rsv (p4 8) 0x88 [(31, 25)]
    ++ rsv (p4 0xC) 0x8C [(31, 23)] ++ rsv (p4 0x34) 0xB4 [(31, 0)] ++ rsv (p4 0x48) 0xC8 [(31, 16)]
    ++ rsv (p4 0x4C) 0xCC [(31, 23)] ++ rsv (p4 0x50) 0xD0 [(31, 17)] ++ rsv (p4 0x54) 0xD4 [(31, 23)]
    ++ rsv (p4 0x58) 0xD8 [(31, 21)]
    ++ [(decide (pfield v.p 0x5C 36 ≠ 0), 0xDC),
        (!((decide (v.qf = 0x0D) && decide (v.kf = 0x0D)) || (f8 v.qf && f8 v.kf)), 0x80),
        (!([0x0D, 0x0C, 0x0E, 0x09, 0x0A].contains v.of'), 0x82),
        (decide (v.qh < 1 ∨ 128 < v.qh ∨ v.qh % v.kvh ≠ 0), 0x88),
        (decide (v.kvh < 1 ∨ 128 < v.kvh), 0x89),
        (decide (v.dim < 32 ∨ 256 < v.dim ∨ v.dim % 32 ≠ 0), 0x8A),
        (decide (v.served < 1 ∨ v.kvh < v.kvh0 + v.served), 0xC8),
        (!(num32 (pword v.p 0x10)).isFin, 0x90), (!(num32 (pword v.p 0x14)).isFin, 0x94),
        (v.window && decide (v.win = 0), 0x84),
        ((v.stateIn || v.stateOut) && !v.kvBlock, 0x84), (v.kvBlock && v.append, 0x84),
        (v.kvBlock && decide (v.blkLen < 1 ∨ 65536 < v.blkLen), 0xD0),
        (pitchBad v.qPitch (v.qh * rowBytes v.qf v.dim), 0x98),
        (!v.stateOut && pitchBad v.oPitch (v.qh * rowBytes v.of' v.dim), 0x9C),
        (v.append && pitchBad v.newPitch v.rowKv, 0xB0)]

/-- Operand addresses that R129 checks. -/
def Vou.addrs (v : Vou) : List Nat :=
  let at_ := decide (v.op = 1)
  [(at_ || decide (v.op = 5 ∨ v.op = 6), v.q), ((at_ && !v.stateOut) || decide (v.op = 2 ∨ v.op = 3), v.o),
   (at_ || decide (4 ≤ v.op), v.lt), (at_ && v.append, v.kNew), (at_ && v.append, v.vNew),
   (at_ && (v.stateIn || v.stateOut), v.state), (at_ && v.stats, v.statsA)].filterMap fun e => if e.1 then some e.2 else none

/-! The fused computation (R188 to R190). -/

/-- The running state of one query row and head: maximum, sum and accumulators. -/
structure Run where
  m : Word
  l : Word
  o : List Word
deriving DecidableEq, Repr

/-- What a group gives a row: its keys and values at 64 places, none where no key is visible. -/
abbrev Group := List (Option (List Num × List Num))

/-- A dot product under R108: blocks of 32 into an FP32 accumulator. -/
def dot32 (acc : Word) (a b : List Num) : Word :=
  ((chunks 32 a).zip (chunks 32 b)).foldl (fun acc p => accBlock false acc p.1 p.2) acc

/-- One pair of group and row (R189 steps 1 to 7). An absent key has p = +0.0, and its value counts as +0.0
(assumption 17, DEDUCED). -/
def Run.step (ver pfmt dim : Nat) (scale : Word) (q : List Num) (g : Group) (r : Run) : Run :=
  let s := g.map fun e => e.map fun kv => f32mul (dot32 0 q kv.1) scale
  let vis := s.filterMap id
  match vis with
  | [] => r
  | x :: xs =>
    let m' := redMax r.m (xs.foldl redMax x)
    if m' = 0xFF800000 then r
    else
      let alpha := builtinFn ver 0x01 (f32sub r.m m')
      let p : List Num := s.map fun e =>
        match e with
        | some s => elemNum pfmt (floatCode pfmt (num32 (builtinFn ver 0x01 (f32sub s m'))))
        | none => .zero
      let sum : Num := num32 (word32 (p.foldl Num.add .zero))
      let l := word32 (((num32 r.l).mul (num32 alpha)).add sum)
      let o := r.o.zipIdx.map fun (o, d) =>
        let v := g.map fun e => match e with
          | some kv => kv.2.getD d .zero
          | none => .zero
        dot32 (f32mul o alpha) p v
      { m := m', l := l, o := o.take dim }

/-- Outputs of a row once every group is done. -/
def Run.out (ver : Nat) (oscale : Word) (r : Run) : List Word :=
  if r.l = 0 then r.o.map fun _ => 0
  else
    let k := builtinFn ver 0x09 r.l
    r.o.map fun o => f32mul (f32mul o k) oscale

/-- One sequence as ATTEND sees it: query tokens, their rows and positions, and its keys as groups of (position, place). -/
structure Seq where
  qLen  : Nat
  qRow  : Nat
  qPos  : Nat
  total : Nat
  /-- Groups in visiting order: positions of their keys. -/
  groups : List (List Nat)

/-- Whether a key is visible (R188); `total` is the first position past the keys, `base` the first. -/
def Vou.visible (v : Vou) (base total pq pk : Nat) : Bool :=
  decide (base ≤ pk) && decide (pk < total) && (!v.causal || decide (pk ≤ pq)) && (!v.window || decide (pq < pk + v.win))

/-- Attend over a sequence: every served head, its groups in order, all query rows (R189). `fetch` reads the key and value
rows of one position and head. Returns the final state of each row with its token and query head, and the pairs done and
skipped. -/
def Work.attendSeq (w : Work) (v : Vou) (ver : Nat) (sq : Seq) (base : Nat)
    (fetch : Work → Nat → Nat → Work × (List Num × List Num)) : Work × List (Nat × Nat × Run) × List Nat × Nat :=
  let per := v.qh / v.kvh
  let pfmt := if v.kf = 0x0D then 0x0D else 0x09
  (List.range v.served).foldl (fun (acc : Work × List (Nat × Nat × Run) × List Nat × Nat) hi =>
    let (w, done, ns, skips) := acc
    if w.dead then acc
    else
      let h := v.kvh0 + hi
      let rows := (List.range sq.qLen).flatMap fun t => (List.range per).map fun j => (t, h * per + j)
      let (w, start) := w.collect rows fun w (t, q) =>
        let (w, b) := w.read (v.q + (sq.qRow + t) * v.qPitch + q * rowBytes v.qf v.dim) (rowBytes v.qf v.dim)
        let qs := (unpack v.qf v.dim b).map (elemNum v.qf)
        if v.stateIn then
          let (w, b) := w.read (v.state + (t * v.qh + q) * v.stateSize) (8 + 4 * v.dim)
          let words := (unpack 0x0E (2 + v.dim) b).map (BitVec.ofNat 32)
          (w, (t, q, qs, ({ m := words.getD 0 0, l := words.getD 1 0, o := words.drop 2 } : Run)))
        else (w, (t, q, qs, ({ m := 0xFF800000, l := 0, o := List.replicate v.dim 0 } : Run)))
      let (w, rows, ns, skips) := sq.groups.foldl (fun (acc : Work × List (Nat × Nat × List Num × Run) × List Nat × Nat) g =>
        let (w, rows, ns, skips) := acc
        if w.dead then acc
        else
          let sees (t pk : Nat) : Bool := v.visible base sq.total (sq.qPos + t) pk
          let live := (rows.filter fun r => g.any (sees r.1)).length
          -- keys and values of the slots some row sees
          let (w, kvs) := w.collect g fun w pk =>
            if (List.range sq.qLen).any fun t => sees t pk then
              let (w, kv) := fetch w h pk
              (w, some (pk, kv))
            else (w, none)
          let rows := rows.map fun (t, q, qs, r) =>
            if g.any (sees t) then
              let view : Group := kvs.map fun e => e.bind fun (pk, kv) => if sees t pk then some kv else none
              (t, q, qs, r.step ver pfmt v.dim (pword v.p 0x10) qs (view ++ List.replicate (64 - view.length) none))
            else (t, q, qs, r)
          (w, rows, live :: ns, skips + (rows.length - live))) (w, start, ns, skips)
      (w, done ++ rows.map (fun (t, q, _, r) => (t, q, r)), ns, skips)) (w, [], [], 0)

/-- Write the rows a sequence ends with: carried state, or outputs, and statistics. -/
def Work.attendOut (w : Work) (v : Vou) (ver qRow : Nat) (rows : List (Nat × Nat × Run)) : Work :=
  w.each rows fun w (t, q, r) =>
    let w :=
      if v.stateOut then w.write (v.state + (t * v.qh + q) * v.stateSize) (wordBytes (r.m :: r.l :: r.o))
      else
        let n := rowBytes v.of' v.dim
        w.write (v.o + (qRow + t) * v.oPitch + q * n)
          (pack v.of' ((r.out ver (pword v.p 0x14)).map fun x => floatCode v.of' (num32 x)))
    if v.stats then w.write (v.statsA + ((qRow + t) * v.qh + q) * 8) (wordBytes [r.m, r.l]) else w

/-- Cycles of one entry (R206) and those in which a group issues. -/
def Vou.entryCycles (v : Vou) (qLen appended : Nat) (ns : List Nat) : Nat × Nat :=
  let per := v.qh / v.kvh * v.served * qLen
  let iss := (ns.map fun n => 2 * ceilDiv v.dim 128 * n).foldl (· + ·) 0
  let c := (ns.map fun n => if n = 0 then 0
    else max (2 * ceilDiv v.dim 128 * n) (ceilDiv (128 * v.keyBytes) 512)).foldl (· + ·) 0
  let rd := per * (rowBytes v.qf v.dim + if v.stateIn then v.stateSize else 0)
  let wr := per * ((if v.stateOut then v.stateSize else rowBytes v.of' v.dim) + if v.stats then 8 else 0)
    + 2 * appended * v.rowKv
  (24 + max c (max (ceilDiv rd 512) (ceilDiv wr 256)), iss)

/-- Keys and values from bytes. -/
def Vou.nums (v : Vou) (b : Bytes) : List Num := (unpack v.kf v.dim b).map (elemNum v.kf)

/-- A key and its value at a slot of a page's frame, or of a block (R179). -/
def Work.slotKv (w : Work) (v : Vou) (base tokens slot h : Nat) : Work × (List Num × List Num) :=
  let a := base + slot * v.rowKv + h * v.keyBytes
  let (w, k) := w.read a v.keyBytes
  let (w, x) := w.read (a + tokens * v.rowKv) v.keyBytes
  (w, (v.nums k, v.nums x))

/-- Address of a page's frame. -/
def State.frameAddr (s : State) (i : Nat) : Nat := gaOf s.chip spHbm (pgFrame (s.page i) * 0x10000)

/-- Groups of 64 of the page that starts at position p (R189). -/
def pageGroups (p tokens : Nat) : List (List Nat) :=
  (tiles 64 tokens).map fun g => (List.range g.2).map fun j => p + g.1 + j

/-- Pop `n` pages that follow `prev`: the pages in the order popped, newest last, and whether all were had. -/
def State.popPages (t k : Nat) : Nat → State → Option Nat → State × List Nat × Bool
  | 0, s, _ => (s, [], true)
  | n + 1, s, prev =>
    match s.poolPop t k prev with
    | (s, none) => (s, [], false)
    | (s, some i) =>
      let (s, l, ok) := State.popPages t k n s (some i)
      (s, i :: l, ok)

/-- What the allocation phase leaves an entry: the pages popped, or the code it fails with. -/
abbrev Alloc := LtEntry × Except Nat (List Nat)

/-- The allocation phase with the checks of R192 (R191). -/
def Work.allocate (w : Work) (v : Vou) (t : Nat) (es : List LtEntry) : Work × List Alloc :=
  w.collect es fun w e =>
    let bad := decide (0x400000 < e.kvLen + e.qLen) || (!v.append && decide (e.kvLen < e.qLen)) || !w.s.chainOk t e
    if e.qLen = 0 then (w, (e, .ok []))
    else if bad then (w, (e, .error stProtection))
    else if v.append then
      let n := ceilDiv (e.kvLen + e.qLen) e.tokens - ceilDiv e.kvLen e.tokens
      match State.popPages t e.size n w.s (if e.kvLen = 0 then none else some e.head) with
      | (s, l, true) => ({ w with s := s }, (e, .ok l))
      | (s, l, false) => ({ w with s := l.reverse.foldl (fun s i => s.poolPush i) s }, (e, .error stPageExhausted))
    else (w, (e, .ok []))

/-- Compute and commit of one entry (R191 phases 2 and 3). -/
def Work.attendEntry (w : Work) (v : Vou) (u : Nat) (ver : Nat) (a : Alloc) : Work :=
  let e := a.1
  match a.2 with
  | .error c => w.fail c 0
  | .ok popped =>
    if e.qLen = 0 then w
    else
      let s := w.s
      let old := s.chain (if e.kvLen = 0 then 0 else ceilDiv e.kvLen e.tokens) e.head
      let pages := popped.reverse ++ old
      let n := pages.length
      let total := if v.append then e.kvLen + e.qLen else e.kvLen
      let frameOf (p : Nat) : Nat := s.frameAddr (pages.getD (n - 1 - p / e.tokens) 0)
      let slotAddr (p : Nat) : Nat := frameOf p + p % e.tokens * v.rowKv
      -- new rows into their slots
      let (w, news) := if v.append then
          w.collect (List.range e.qLen) fun w i =>
            let (w, k) := w.read (v.kNew + (e.qRow + i) * v.newPitch) v.rowKv
            let (w, x) := w.read (v.vNew + (e.qRow + i) * v.newPitch) v.rowKv
            let at_ := slotAddr (e.kvLen + i)
            (((w.write at_ k).write (at_ + e.tokens * v.rowKv) x), (k, x))
        else (w, [])
      let fetch (w : Work) (h p : Nat) : Work × (List Num × List Num) :=
        if e.kvLen ≤ p ∧ v.append then
          let kx := news.getD (p - e.kvLen) ([], [])
          let cutH (b : Bytes) : List Num := v.nums ((b.drop (h * v.keyBytes)).take v.keyBytes)
          (w, (cutH kx.1, cutH kx.2))
        else w.slotKv v (frameOf p) e.tokens (p % e.tokens) h
      let sq : Seq := { qLen := e.qLen, qRow := e.qRow, qPos := if v.append then e.kvLen else e.kvLen - e.qLen, total := total
                        groups := (List.range n).reverse.flatMap fun p => pageGroups (p * e.tokens) e.tokens }
      let (w, rows, ns, skips) := w.attendSeq v ver sq 0 fetch
      let w := w.attendOut v ver e.qRow rows
      let w := if v.append then w.ltCommit e total (pages.headD e.head) else w
      let (t, iss) := v.entryCycles e.qLen (if v.append then e.qLen else 0) ns
      let w := w.tally (VE_MAC_CNT u) (128 * v.dim * ns.foldl (· + ·) 0)
      (w.tally (VE_SKIP_CNT u) skips).stalled (VE_STALL_CNT u) (t - iss)

/-- ATTEND over a length table (R191, R192). -/
def Work.attendTable (w : Work) (f : Flight) (v : Vou) (ver : Nat) : Work :=
  let (w, es) := w.ltRead v.lt v.count
  let w := w.checkFields [(es.any fun e => decide (8 < e.size), 0x60)]
  if w.dead then w
  else
    let (w, al) := w.allocate v f.tenant es
    let (w, fails) := al.foldl (fun (acc : Work × List (Nat × Nat)) a =>
      let (w, fails) := acc
      let (w, fails') := w.entry fails a.1 fun w => w.attendEntry v f.unit ver a
      -- a failed entry's pages go back to the pool
      match a.2 with
      | .ok l => if fails'.length ≠ fails.length then ({ w with s := l.reverse.foldl (fun s i => s.poolPush i) w.s }, fails')
                 else (w, fails')
      | .error _ => (w, fails')) (w, [])
    let w := w.closeEntries fails
    let exh := (fails.filter fun x => decide (x.2 = stPageExhausted)).length
    if exh = 0 then w
    else
      let first := (fails.reverse.headD (0, 0)).1
      w.mapS fun s =>
        (s.count (VE_EXH_CNT f.unit) exh).event f.tenant
          { type := 0x0010, status := stPageExhausted, cls := classCode .ve, inst := f.unit, tenant := f.tenant, queue := f.queue
            arg0 := f.index, arg1 := first + place fails.length 32 }

/-- ATTEND over a key/value block. -/
def Work.attendBlock (w : Work) (f : Flight) (v : Vou) (ver : Nat) : Work :=
  let fetch (w : Work) (h p : Nat) : Work × (List Num × List Num) := w.slotKv v v.lt v.blkLen (p - v.blkPos) h
  let sq : Seq := { qLen := v.qLen, qRow := 0, qPos := v.qPos, total := v.blkPos + v.blkLen
                    groups := pageGroups v.blkPos v.blkLen }
  let (w, rows, ns, skips) := w.attendSeq v ver sq v.blkPos fetch
  let w := w.attendOut v ver 0 rows
  let (t, iss) := v.entryCycles v.qLen 0 ns
  let w := w.tally (VE_MAC_CNT f.unit) (128 * v.dim * ns.foldl (· + ·) 0)
  (w.tally (VE_SKIP_CNT f.unit) skips).stalled (VE_STALL_CNT f.unit) (t - iss)

/-! Pools, chains and the Prefix Table (R195 to R202). -/

/-- POOL_GIVE. -/
def Work.poolGive (w : Work) (f : Flight) (v : Vou) : Work :=
  let (w, b) := w.read v.o (8 * v.count)
  let offs := (List.range v.count).map fun i => pfield b (8 * i) 8
  let mapped (o : Nat) : Bool := decide (o % 0x10000 = 0) && decide (o < hbmSize) && (w.s.xfind f.tenant .hbm (o / 0x10000)).isSome
  if w.dead then w
  else if w.s.regN (QC_QPM f.tenant) < w.s.pagesOf f.tenant + v.count ∨ w.s.pmFree < v.count then w.fail stQuota 0
  else
    match offs.find? fun o => !mapped o with
    | some o => w.fail stTranslation o
    | none => w.mapS fun s => offs.foldl (fun s o =>
        let i := lowestUnused s.pageMap 0
        let s := s.setPage i (pageOfFields 1 v.size f.tenant false 0 (o / 0x10000) 0)
        s.poolPush i) s

/-- Take up to `n` entries from a pool into STATE 0: their frames. -/
def State.reclaim (t k : Nat) : Nat → State → State × List Nat
  | 0, s => (s, [])
  | n + 1, s =>
    match s.poolTake t k with
    | (s, none) => (s, [])
    | (s, some i) =>
      let fr := pgFrame (s.page i)
      let (s, l) := State.reclaim t k n (s.setPage i (setBits (s.page i) 1 0 0))
      (s, fr :: l)

/-- POOL_RECLAIM. -/
def Work.poolReclaim (w : Work) (f : Flight) (v : Vou) : Work :=
  let l := (State.reclaim f.tenant v.size v.count w.s).2
  let w := w.write v.o (l.flatMap fun fr => leBytes 8 (fr * 0x10000))
  w.andThen fun w => { w with
    s := (State.reclaim f.tenant v.size v.count w.s).1
    codes := (stOk, l.length) :: w.codes }

/-- Walk the entries of an operation on a length table. -/
def Work.overEntries (w : Work) (v : Vou) (f : Work → LtEntry → Work) : Work :=
  let (w, es) := w.ltRead v.lt v.count
  let w := w.checkFields [(es.any fun e => decide (8 < e.size), 0x60)]
  if w.dead then w
  else
    let (w, fails) := es.foldl (fun (acc : Work × List (Nat × Nat)) e => acc.1.entry acc.2 e fun w => f w e) (w, [])
    w.closeEntries fails

/-- CHAIN_FREE of one entry (R197). -/
def Work.chainFree (w : Work) (t u : Nat) (e : LtEntry) : Work :=
  if e.kvLen = 0 then w
  else if !w.s.chainOk t e then w.fail stProtection 0
  else
    let w := w.write (e.addr + 8) (leBytes 4 0)
    w.andThen fun w =>
      let (s, n) := w.s.lowerRefs e.head
      { w with s := s.stall (VE_STALL_CNT u) (4 * n + 4) }

/-- Hash pages in order while `go` allows: page number and hash of each. -/
def Work.hashPages (w : Work) (t tag size q : Nat) : Nat → Nat → Nat → Work × List Nat
  | 0, _, _ => (w, [])
  | n + 1, page, prev =>
    let b := 4 * pageTokens size
    let (w, toks) := w.read (q + page * b) b
    let h := w.s.pageHash t prev tag size toks
    let (w, l) := Work.hashPages w t tag size q n (page + 1) h
    (w, h :: l)

/-- Prefix pages matched: entries up to the first miss, or up to a page whose REFS is 255 (R200). -/
def State.matchPages (s : State) (t : Nat) : List Nat → List Nat
  | [] => []
  | h :: l =>
    match s.pfxFind t h with
    | none => []
    | some i =>
      let p := pxPage (s.pfxAt i)
      if pgRefs (s.page p) = 255 then [] else p :: s.matchPages t l

/-- PREFIX_MATCH of one entry: KV_LEN must be 0. -/
def Work.prefixMatch (w : Work) (t u : Nat) (v : Vou) (e : LtEntry) : Work :=
  if e.qLen = 0 then w
  else if e.kvLen ≠ 0 then w.fail stProtection 0
  else
    let (w, hs) := w.hashPages t v.tag e.size (v.q + 4 * e.qRow) ((e.qLen - 1) / e.tokens) 0 0
    let ps := w.s.matchPages t hs
    let w := w.mapS fun s => s.stall (VE_STALL_CNT u) ((12 + e.tokens / 4) * min hs.length (ps.length + 1) + 8)
    match ps.reverse with
    | [] => w
    | p :: _ =>
      let w := w.ltCommit e (e.tokens * ps.length) p
      w.andThen fun w => w.mapS fun s => s.setPage p (setBits (s.page p) 63 56 (pgRefs (s.page p) + 1))

/-- Publish one page (R201): whether the chain may go on. -/
def Work.publishPage (w : Work) (t page h : Nat) : Work :=
  let s := w.s
  let pg := s.page page
  if pgSealed pg ∨ (s.pfxFind t h).isSome ∨ pgRefs pg = 255 then w
  else if s.regN (QC_QPT t) ≤ s.pfxOf t then w.fail stQuota 0
  else
    match (pfxWays h).find? fun i => !pxValid (s.pfxAt i) with
    | none => (w.mapS fun s => s.count PT_FULL_CNT 1).fail stPrefixFull 0
    | some i =>
      w.mapS fun s =>
        let s := s.setPfx i (h + place page 64 + place t 86 + place 1 90)
        s.setPage page (setBits (setBits pg 10 10 1) 63 56 (pgRefs pg + 1))

/-- PREFIX_PUBLISH of one entry. -/
def Work.prefixPublish (w : Work) (t u : Nat) (v : Vou) (e : LtEntry) : Work :=
  if e.kvLen = 0 then w
  else if !w.s.chainOk t e then w.fail stProtection 0
  else
    let n := e.kvLen / e.tokens
    let pages := (w.s.chain (ceilDiv e.kvLen e.tokens) e.head).reverse
    let (w, hs) := w.hashPages t v.tag e.size (v.q + 4 * e.qRow) n 0 0
    let w := w.mapS fun s => s.stall (VE_STALL_CNT u) ((12 + e.tokens / 4) * n + 8)
    w.each (pages.zip hs) fun w (p, h) => w.publishPage t p h

/-- Drop the Prefix Table entry of each SEALED page of a chain. -/
def State.dropChain (s : State) (t : Nat) (pages : List Nat) : State :=
  pages.foldl (fun s p =>
    if pgSealed (s.page p) then
      match s.pfx.find? fun e => pxValid e.2.toNat && decide (pxPage e.2.toNat = p) && decide (pxTenant e.2.toNat = t) with
      | some e => s.pfxDrop e.1
      | none => s
    else s) s

/-- PREFIX_DROP of one entry (R202). -/
def Work.prefixDrop (w : Work) (t u : Nat) (e : LtEntry) : Work :=
  if e.kvLen = 0 then w
  else if !w.s.chainOk t e then w.fail stProtection 0
  else w.mapS fun s =>
    let pages := s.chain (ceilDiv e.kvLen e.tokens) e.head
    (s.dropChain t pages).stall (VE_STALL_CNT u) (6 * (pages.filter fun p => pgSealed (s.page p)).length)

/-- PREFIX_DROP with ALL: every entry of the tenant. -/
def State.dropAll (s : State) (t : Nat) : State :=
  (s.pfx.filter fun e => pxValid e.2.toNat && decide (pxTenant e.2.toNat = t)).foldl (fun s e => s.pfxDrop e.1) s

/-! Descriptors on one chain that nothing orders (R193). -/

/-- Read a descriptor's parameter block, where its OP has one. -/
def Work.veParams (w : Work) (d : BitVec 1024) : Work × Vou :=
  let (w, p) := if dOp d = 1 then w.read (dfield d 0x68 8) 128 else (w, [])
  let v := Vou.of d p
  (if v.op = 1 then w.checkFields (veBlockBad v) else w, v)

/-- Whether an operation attends over a length table, appends to its chains, or frees them. -/
def Vou.attends (v : Vou) : Bool := decide (v.op = 1) && !v.kvBlock
def Vou.appends (v : Vou) : Bool := v.attends && v.append
def Vou.frees (v : Vou) : Bool := decide (v.op = 4)

/-- Whether two operations on one chain must be ordered. -/
def Vou.clashes (v x : Vou) : Bool :=
  (v.appends && x.appends) || (v.frees && x.attends) || (v.attends && x.frees)

/-- What a flight in the attention class works on: its operation and its length-table entries as they stand. -/
def State.veView (s : State) (f : Flight) : Vou × List LtEntry :=
  let v := ((Work.start s f.tenant false).veParams f.desc).2
  (v, ((Work.start s f.tenant false).ltRead v.lt v.count).2)

/-- Whether two entries stand for one chain: the same entry, or a head page that both fill or that one of them gives up. -/
def State.sameChain (s : State) (a b : LtEntry) : Bool :=
  decide (a.addr = b.addr) || (decide (a.kvLen ≠ 0 ∧ b.kvLen ≠ 0 ∧ a.head = b.head)
    && (decide (a.kvLen % a.tokens ≠ 0) || decide (pgRefs (s.page a.head) ≤ 1)))

/-- The flights that clash with a flight, dispatched beside it and so ordered by no mark (assumption 31, DEDUCED), and the
entries of the chains they share. -/
def State.tangle (s : State) (f : Flight) : List (Flight × Vou) × List LtEntry :=
  let (v, es) := s.veView f
  let hits := s.flights.filterMap fun g =>
    if g.id ≠ f.id ∧ g.tenant = f.tenant ∧ dClass g.desc = 3 ∧ (g.phase = .dispatched ∨ g.phase = .ran) then
      let (x, gs) := s.veView g
      let shared := if v.clashes x then es.filter fun e => gs.any (s.sameChain e) else []
      if shared.isEmpty then none else some ((g, x), shared)
    else none
  (hits.map Prod.fst, hits.flatMap Prod.snd)

/-- Leave `n` bytes of a tenant's space open, where it may write them. -/
def State.scramble (s : State) (t ga n : Nat) : State :=
  match tierOf (gaSpace ga) with
  | some tier => (s.tick.writeFor (.tenant t) tier (gaOff ga) (s.freeBytes n)).1
  | none => s

/-- Leave a page of a chain open: its bytes, `n` of them, and the fields of its entry but SIZE, TENANT and FRAME. -/
def State.scramblePage (s : State) (t n i : Nat) : State :=
  let v := s.page i
  let x := Config.freeNat s.free
  let s := s.tick.setPage i (pageOfFields (x % 4) (pgSize v) (pgTenant v) (bit x 2) (bits x 24 3) (pgFrame v) (bits x 32 25))
  s.scramble t (s.frameAddr i) n

/-- Leave the rows a descriptor writes to O open. -/
def State.scrambleOut (s : State) (t : Nat) (v : Vou) (es : List LtEntry) : State :=
  if v.op = 1 then
    es.foldl (fun s e => (List.range e.qLen).foldl (fun s i =>
      s.scramble t (v.o + (e.qRow + i) * v.oPitch) (v.qh * rowBytes v.of' v.dim)) s) s
  else s

/-- The chains two unordered descriptors share, their entries, and the outputs of both are left open (R193). -/
def Work.untangle (w : Work) (f : Flight) (v : Vou) (hits : List (Flight × Vou)) (es : List LtEntry) : Work :=
  if hits.isEmpty ∧ f.tangled = false then w
  else
    let size := match (hits.map Prod.snd).find? Vou.attends with
      | some x => if v.attends then v.rowKv else x.rowKv
      | none => v.rowKv
    let w := w.openOutputs true
    w.mapS fun s =>
      let s := es.foldl (fun s e =>
        let pages := if e.kvLen = 0 then [] else s.chain (ceilDiv e.kvLen e.tokens) e.head
        (pages.foldl (fun s i => s.scramblePage f.tenant (2 * e.tokens * size) i) s).scramble f.tenant (e.addr + 8) 8) s
      hits.foldl (fun s (g, x) =>
        let s := if g.phase = .ran then s.scrambleOut g.tenant x (s.veView g).2 else s
        s.putFlight { g with tangled := true }) s

/-- What a descriptor of class 0x3 does to what it names. -/
def Work.veOperate (w : Work) (f : Flight) (v : Vou) : Work :=
  let u := f.unit
  let ver := match w.s.libVer with | some x => x.toNat | none => 0
  let all := decide (v.op = 7) && bit (dfield f.desc 0x74 4) 8
  let w := w.each (if all then [] else v.addrs) Work.needLocal
  let w := w.stalled (VE_STALL_CNT u) (if v.op = 1 then 176 else 40)
  w.andThen fun w =>
    if v.op = 1 then (if v.kvBlock then w.attendBlock f v ver else w.attendTable f v ver)
    else if v.op = 2 then (w.poolGive f v).mapS fun s => s.stall (VE_STALL_CNT u) (8 * v.count)
    else if v.op = 3 then (w.poolReclaim f v).mapS fun s => s.stall (VE_STALL_CNT u) (8 * v.count)
    else if v.op = 4 then w.overEntries v fun w e => w.chainFree f.tenant u e
    else if v.op = 5 then w.overEntries v fun w e => w.prefixMatch f.tenant u v e
    else if v.op = 6 then w.overEntries v fun w e => w.prefixPublish f.tenant u v e
    else if all then w.mapS fun s => (s.dropAll f.tenant).stall (VE_STALL_CNT u) 131072
    else w.overEntries v fun w e => w.prefixDrop f.tenant u e

/-- What a descriptor of class 0x3 does. -/
def veRun (f : Flight) (w : Work) : Work :=
  let (w, v) := w.veParams f.desc
  if w.dead then w
  else
    let (hits, es) := w.s.tangle f
    (w.veOperate f v).untangle f v hits es

/-- Run an attention descriptor. -/
def State.veFlight (s : State) (id op : Nat) : State := s.runFlight id 3 op (fun _ => true) veRun

def execAttend (id : Nat) (s : State) : Out := live s fun s => s.veFlight id 1
def execPoolGive (id : Nat) (s : State) : Out := live s fun s => s.veFlight id 2
def execPoolReclaim (id : Nat) (s : State) : Out := live s fun s => s.veFlight id 3
def execChainFree (id : Nat) (s : State) : Out := live s fun s => s.veFlight id 4
def execPrefixMatch (id : Nat) (s : State) : Out := live s fun s => s.veFlight id 5
def execPrefixPublish (id : Nat) (s : State) : Out := live s fun s => s.veFlight id 6
def execPrefixDrop (id : Nat) (s : State) : Out := live s fun s => s.veFlight id 7

end Sys2Proof.Machine
end

