-- ==== Sys2Proof/Machine/Record.lean ====
section
/-! DEFINITION. The Plinth array as Quoin's commands find it (R305 to R319): its banks, status words, buffers, programs and erases;
and the configuration records (R425 to R428): their 1,024 bytes, the copies, and the writing of a new record from what is in force. -/

namespace Sys2Proof.Machine

/-! The array (R305 to R319). -/

/-- Bytes of a Plinth block. -/
def plBlock : Nat := 0x20000

/-- Whether a Plinth block is indeterminate (R315). -/
def State.plIndet (s : State) (blk : Nat) : Bool := s.regBit (PL_INDET (blk / 32)) (blk % 32)

/-- Count an erase of a Plinth block begun, saturating (R314). -/
def State.plCount (s : State) (blk : Nat) : State :=
  let n := (smapGet (fun _ => (0 : Word)) s.plEc blk).toNat
  { s with plEc := smapSet (fun _ => 0) s.plEc blk (BitVec.ofNat 32 (min 0xFFFFFFFF (n + 1))) }

/-- Show the number of indeterminate blocks, which the field holds up to 255 (Table 12.7). -/
def State.plTally (s : State) : State :=
  s.setField PL_STATUS 15 8 (min 255 ((List.range 512).filter s.plIndet).length)

/-- A read of an indeterminate block is flagged with the block's number (R315). -/
def State.plFlag (s : State) (blk : Nat) : State :=
  if s.plIndet blk then s.setRegN PL_RD_INDET (blk + place 1 31) else s

/-- A block stands erased: every bit 1, its marker and its indeterminate bit clear (R307, R314, R315). -/
def State.plErased (s : State) (blk : Nat) : State :=
  let s := { s with plArray := memClear s.plArray (blk * plBlock) plBlock, plMark := smapErase s.plMark blk }
  (s.setBit (PL_INDET (blk / 32)) (blk % 32) false).plTally

/-- Where Quoin sees the array, and the bytes of a bank. -/
def plBase : Nat := 0x20000000
def plBankBytes : Nat := 0x2000000

/-- A bank in read mode, with nothing under way. -/
def plIdle : PlBank := { seq := .read, op := none, held := none }

/-- A bank, and its status register. -/
def State.plBank (s : State) (b : Nat) : PlBank := if b = 0 then s.plBank0 else s.plBank1
def plStat (b : Nat) : Nat := if b = 0 then PL_BANK0_STAT else PL_BANK1_STAT

/-- Show the operation of a bank in its status word; error bits stay, and BLOCK and OP stay after the operation (R311). BUSY is
set while an operation runs; SUSP while one of the bank's operations is suspended. -/
def State.plShow (s : State) (b : Nat) : State :=
  let k := s.plBank b
  let s := s.setBit (plStat b) 0 (k.op.any fun o => !o.susp)
  let s := s.setBit (plStat b) 1 (k.op.any (fun o => o.susp) || k.held.isSome)
  match k.op with
  | none => s
  | some o =>
    let s := s.setBit (plStat b) 2 o.auto
    (s.setField (plStat b) 15 8 (if o.erase then 0x30 else 0xA0)).setField (plStat b) 24 16 o.block

/-- Replace a bank and show it. -/
def State.setPlBank (s : State) (b : Nat) (k : PlBank) : State :=
  (if b = 0 then { s with plBank0 := k } else { s with plBank1 := k }).plShow b

/-- Set an error bit of a bank's status. -/
def State.plErr (s : State) (b n : Nat) : State := s.setBit (plStat b) n true

/-- Break a bank's sequence: SEQ_ERR, and read mode (R308). -/
def State.plBreak (s : State) (b : Nat) : State := (s.setPlBank b { s.plBank b with seq := .read }).plErr b 5

/-- Whether a bank's operation runs, and whether an erase of either bank is suspended. -/
def State.plBusy (s : State) (b : Nat) : Bool := (s.plBank b).op.any fun o => !o.susp
def State.plEraseHeld (s : State) : Bool :=
  [0, 1].any fun b => ((s.plBank b).op.any fun o => o.erase && o.susp) || (s.plBank b).held.isSome

/-- Whether a block is protected (R305). -/
def State.plLocked (s : State) (blk : Nat) : Bool := s.regBit (PL_WP (blk / 32)) (blk % 32)

/-- Blocks under an operation of a bank, running or suspended. -/
def PlBank.blocks (k : PlBank) : List Nat := (k.op.toList ++ k.held.toList).map fun o => o.block

/-- Drop the lines of a bank from the buffers (R318). -/
def State.plInvalidate (s : State) (b : Nat) : State :=
  let out (l : Nat) : Bool := l * 32 / plBankBytes != b
  { s with plPrefetch := s.plPrefetch.filter out, plBranch := s.plBranch.filter out }

/-- Start a program or an erase of a bank: the marker is set, an erase is counted, the bank's buffered lines go (R314, R318).
An erase the bank has suspended is kept. -/
def State.plStart (s : State) (b : Nat) (o : PlOp) : State :=
  let k := s.plBank b
  let s := if o.erase then s.plCount o.block else s
  let s := { s with plMark := smapInsert s.plMark o.block (!o.erase) }
  (s.plInvalidate b).setPlBank b { seq := .read, op := some o, held := k.op.or k.held }

/-- Ask for a program or an erase: refused where another operation is in the way (R309), by protection, or, for a program, in an
indeterminate block (R310). A program may run beside one suspended erase. -/
def State.plAsk (s : State) (b : Nat) (o : PlOp) : State :=
  let s := s.setPlBank b { s.plBank b with seq := .read }
  let ops := [0, 1].flatMap fun i => (s.plBank i).op.toList ++ (s.plBank i).held.toList
  let clear := ops.all fun p => p.erase && p.susp && !o.erase && p.block != o.block
  if !clear then s.plErr b 5
  else
    let locked := s.plLocked o.block
    let indet := !o.erase && s.plIndet o.block
    let s := if locked then s.plErr b 6 else s
    let s := if indet then s.plErr b 7 else s
    if locked || indet then s else s.plStart b o

/-- A new operation on a block. -/
def plOpOf (erase : Bool) (a : Nat) (data : Bytes) (auto : Bool) : PlOp :=
  { erase := erase, block := a / plBlock, line := a / 32, data := data, auto := auto, susp := false, asked := false,
    fetch := none }

/-- The busy-bank fetch exception of a fetch at an array offset (R315, R319). -/
def State.plFault (s : State) (a : Nat) : State :=
  s.setRegN PL_FAULT_ADDR (a + place (flag (s.plIndet (a / plBlock))) 30 + place 1 31)

/-- Serve a fetch of the line at an array offset: its bytes, the hit or the miss, and the buffers (R317). While an operation
stands in the bank its lines are not buffered (R318). -/
def State.plServe (s : State) (a : Nat) : State :=
  let line := a / 32
  let b := a / plBankBytes
  let free := (s.plBank b).blocks.isEmpty
  let pre := s.regBit PL_XIP_CTL 0
  let br := s.regBit PL_XIP_CTL 1
  let inBr := br && s.plBranch.contains line
  let hit := free && ((pre && s.plPrefetch.contains line) || inBr)
  let s := s.count (if hit then PL_XIP_HIT else PL_XIP_MISS) 1
  let follows := s.plLast.any fun l => decide (l + 1 = line)
  let branch :=
    if !free || !br then s.plBranch
    else if inBr then line :: s.plBranch.filter (· != line)
    else if !hit && !follows then (line :: s.plBranch).take 16
    else s.plBranch
  let ahead := (List.range 4).filterMap fun i =>
    if (line + 1 + i) * 32 / plBankBytes = b then some (line + 1 + i) else none
  { s with plFetch := memRead erasedByte s.plArray (line * 32) 32, plLast := some line, plBranch := branch
           plPrefetch := if free && pre then ahead else if free then [] else s.plPrefetch }

/-- End the running operation of a bank: an erase it held suspended is the bank's operation again, and a fetch that waited for an
auto-suspend is served (R319). -/
def State.plEnd (s : State) (b : Nat) : State :=
  let k := s.plBank b
  let s := s.setPlBank b { k with op := none, held := none }
  let s := match k.held with
    | none => s
    | some o =>
      let s := s.setBit (plStat b) 1 true
      if b = 0 then { s with plBank0 := { s.plBank0 with op := some o } } else { s with plBank1 := { s.plBank1 with op := some o } }
  match k.op.bind PlOp.fetch with
  | some a => s.plServe a
  | none => s

/-- What a failed program leaves of a line: bits that it had to clear may be cleared (R307, R314). -/
def State.plPart (s : State) (o : PlOp) (old : Bytes) : Bytes :=
  List.zipWith (fun (x y : Byte) => x &&& y) old (List.zipWith (fun (x y : Byte) => x ||| y) o.data (s.freeBytes 32))

/-- A program ends: the line holds old AND new; an error is reported where the data needed a 0 to become 1, or the verify failed,
which leaves open which bits were cleared (R307, R314). -/
def State.plProgrammed (s : State) (b : Nat) (o : PlOp) (ok : Bool) : State :=
  let old := memRead erasedByte s.plArray (32 * o.line) 32
  let want := List.zipWith (fun (x y : Byte) => x &&& y) old o.data
  let got := if ok then want else s.plPart o old
  let s := if ok then s else s.tick
  let s := { s with plArray := memWrite erasedByte s.plArray (32 * o.line) got }
  let s := if !ok || want != o.data then s.plErr b 3 else { s with plMark := smapErase s.plMark o.block }
  s.plEnd b

/-- An erase ends with every bit of its block 1 (R307, R314, R315). -/
def State.plEraseEnd (s : State) (b : Nat) (o : PlOp) : State := (s.plErased o.block).plEnd b

/-- Whether no operation stands in either bank. -/
def State.plFree (s : State) : Bool := (s.plBank 0).blocks.isEmpty && (s.plBank 1).blocks.isEmpty

/-- A program or an erase that Quoin commands on a free array and polls to its end; a refusal shows in the bank's status word
(R305, R310). -/
def State.plNow (s : State) (o : PlOp) : State :=
  let b := o.block / 256
  let t := s.plAsk b o
  if (t.plBank b).op.isNone then t else if o.erase then t.plEraseEnd b o else t.plProgrammed b o true

/-! Configuration records (R425 to R428). -/

/-- Blocks that hold the three copies. -/
def cfgBlocks : List Nat := [4, 256, 258]

/-- Classes of the UNITS field, in its order. -/
def cfgClasses : List Blk := [.ae, .ce, .ve, .le, .he, .kc]

/-- The bytes of a record (Table 17.2). -/
def CfgRec.bytes (r : CfgRec) : Bytes :=
  let units := (List.range 6).flatMap fun c => leBytes 8 (r.spares.getD c 0).toNat ++ leBytes 8 (r.retired.getD c 0).toNat
  let body := leBytes 4 0x47464E43 ++ leBytes 2 1 ++ leBytes 2 0x400 ++ leBytes 8 r.seq ++ leBytes 4 r.minSvn.toNat
    ++ leBytes 1 (flag r.slotB) ++ List.replicate 11 0 ++ units
    ++ (List.range 64).flatMap (fun i => leBytes 4 (r.bedmap.getD i 0).toNat)
    ++ (List.range 128).flatMap (fun i => leBytes 2 (r.repairs.getD i 0).toNat) ++ List.replicate 0x17C 0
  body ++ leBytes 4 (crc32 body)

/-- Whether a copy's CRC is correct. -/
def cfgCrcOk (b : Bytes) : Bool := decide (pfield b 0x3FC 4 = crc32 (b.take 0x3FC))

/-- Whether a copy's MAGIC, RVER, LEN and CRC are right (R425). -/
def cfgValid (b : Bytes) : Bool :=
  decide (pfield b 0 4 = 0x47464E43) && decide (pfield b 4 2 = 1) && decide (pfield b 6 2 = 0x400) && cfgCrcOk b

/-- Read a record's fields. -/
def CfgRec.of (b : Bytes) : CfgRec where
  seq := pfield b 8 8
  minSvn := BitVec.ofNat 32 (pfield b 0x10 4)
  slotB := bit (pfield b 0x14 1) 0
  spares := (List.range 6).map fun c => BitVec.ofNat 64 (pfield b (0x20 + 16 * c) 8)
  retired := (List.range 6).map fun c => BitVec.ofNat 64 (pfield b (0x28 + 16 * c) 8)
  bedmap := (List.range 64).map fun i => BitVec.ofNat 32 (pfield b (0x80 + 4 * i) 4)
  repairs := (List.range 128).map fun i => BitVec.ofNat 16 (pfield b (0x180 + 2 * i) 2)

/-- The copy in a Plinth block. -/
def State.cfgCopy (s : State) (blk : Nat) : Bytes := memRead erasedByte s.plArray (blk * plBlock) 1024

/-- Write one copy: its block is erased, then programmed line by line (R428). -/
def State.writeCopy (s : State) (r : Bytes) (blk : Nat) : State :=
  (chunks 32 r).zipIdx.foldl (fun (s : State) (l, i) => s.plNow (plOpOf false (blk * plBlock + 32 * i) l false))
    (s.plNow (plOpOf true (blk * plBlock) [] false))

/-- A bitmap of the units of a class that hold a property. -/
def bitmap (n : Nat) (p : Nat → Bool) : DWord :=
  BitVec.ofNat 64 (((List.range n).map fun i => place (flag (p i)) i).foldl (· + ·) 0)

/-- The record of what is in force now. SPARE names the spares on standby (assumption 29). -/
def State.recordNow (s : State) (seq : Nat) (slotB : Bool) : CfgRec where
  seq := seq
  minSvn := BitVec.ofNat 32 (s.regN QN_MIN_SVN)
  slotB := slotB
  spares := cfgClasses.map fun b => bitmap (placeOf b).count fun i => (s.unitAt b i).standby
  retired := cfgClasses.map fun b => bitmap (placeOf b).count fun i => (s.unitAt b i).retired
  bedmap := (List.range 64).map fun g => BitVec.ofNat 32 (s.regN (BED_REMAP g))
  repairs := (List.range 128).map fun i => BitVec.ofNat 16 (s.field (FC_REPAIR (i / 16) (i % 16)) 14 0)

/-- Write the records that are due over the three copies in order, as soon as no operation stands in the array (R309, R428;
assumption 40). -/
def State.writeDue (s : State) : State :=
  if s.plFree then
    { s.recDue.foldl (fun (s : State) r => cfgBlocks.foldl (fun s b => s.writeCopy r b) s) s with recDue := [] }
  else s

/-- Quoin writes a new record, SEQ one above the one in force (R428). -/
def State.newRecord (s : State) (slotB : Bool) : State :=
  match s.cfgRec with
  | none => s
  | some r =>
    let n := s.recordNow (r.seq + 1) slotB
    let s := { s with recDue := s.recDue ++ [n.bytes], cfgRec := some n }.writeDue
    s.setRegN QN_CFG_STAT (place 3 2 + place n.seq 16)

/-- Write a new record with the image slot in force. -/
def State.record (s : State) : State := s.newRecord (match s.cfgRec with | some r => r.slotB | none => false)

end Sys2Proof.Machine
end

