-- ==== Sys2Proof/Machine/Footing.lean ====
section
/-! DEFINITION. The HBM controllers (R277 to R296): the address map, the scheduler of each pseudo-channel, refresh and targeted
refresh, training and lane repair, ECC and poison, patrol scrub. -/

namespace Sys2Proof.Machine

/-! The address map (R279 to R282). -/

/-- Base position of select bit i in L (Table 11.2). -/
def selectPos (i : Nat) : Nat := [8, 9, 10, 11, 12, 13, 14, 15, 18, 19, 20, 21].getD i 0

/-- XOR of the bits of a number, with fuel. -/
def parityFuel : Nat → Nat → Nat
  | 0, _ => 0
  | f + 1, v => (v % 2 + parityFuel f (v / 2)) % 2

/-- Select bits [lo, lo + n) of an offset within L, the lowest first (R280). -/
def State.selectBits (s : State) (l lo n : Nat) : Nat :=
  ((List.range n).map fun i => place (parityFuel 64 (Nat.land l (s.regN (FC_XMAP (lo + i))))) i).foldl (· + ·) 0

/-- Where a physical offset lies: the pseudo-channel across the chip, the bank (16 × SID + 4 × BG + BA), and the row. -/
structure HbmPlace where
  pc   : Nat
  bank : Nat
  row  : Nat
deriving DecidableEq, Repr

/-- The map (R279, R280). -/
def State.hbmPlace (s : State) (o : Nat) : HbmPlace :=
  let u := bits o 38 35
  let l := bits o 34 0
  { pc := s.selectBits l 0 3 * 32 + s.selectBits l 3 4 * 2 + s.selectBits l 7 1
    bank := 16 * (u % 3) + 4 * s.selectBits l 10 2 + s.selectBits l 8 2
    row := u / 3 * 8192 + bits l 34 22 }

/-- Whether a mask may stand in FC_XMAPi (R281). -/
def xmapOk (i v : Nat) : Bool :=
  (List.range 12).all (fun j => bit v (selectPos j) == decide (j = i)) && decide (bits v 7 0 = 0) && decide (bits v 63 35 = 0)

/-- Write FC_XMAPi: refused once the map is locked (R282). -/
def State.xmapWrite (s : State) (i v : Nat) : State :=
  if s.regBit FC_MAP_LOCK 0 || !xmapOk i v then s.blkErr .fc 0 5 else s.setRegN (FC_XMAP i) v

/-- XMAP_WRITE. -/
def execXmapWrite (sec : Bool) (i : Fin 12) (v : DWord) (s : State) : Out := live s fun s =>
  s.allow sec (FC_XMAP i) fun s => s.xmapWrite i v.toNat

/-! Requests (R283, R284). -/

/-- Key of a bank across the chip. -/
def bankKey (pc bank : Nat) : Nat := 48 * pc + bank

/-- HBM_REQUEST: a request enters its port's queue; the first one locks the map (R282). A pseudo-channel's write queue holds
64. -/
def execHbmRequest (r : HbmReq) (s : State) : Out := live s fun s =>
  let p := s.hbmPlace r.off
  if !s.hbmReady || s.regBit (BLK_CTL .fc (p.pc / 32)) 1 then s
  else
    let s := s.touch .hbm
    let writes := s.hbmQ.filter fun w => decide (w.pc = p.pc) && w.req.wr.isSome
    if r.wr.isSome ∧ 64 ≤ writes.length then s
    else { s with hbmQ := s.hbmQ ++ [{ req := r, pc := p.pc, bank := p.bank, row := p.row, at_ := s.timeNs }] }

/-- Age of a waiting request [ns]. -/
def State.age (s : State) (w : HbmWait) : Nat := s.timeNs - w.at_

/-- Urgency of a port of a controller by the age of its oldest waiting request (R283). -/
def State.urgency (s : State) (fc port : Nat) : Nat :=
  let target := s.field (FC_LAT fc port) 15 0
  let a := maxOr 0 ((s.hbmQ.filter fun w => decide (w.pc / 32 = fc) && decide (w.req.port.val = port)).map s.age)
  if target ≤ a then 3 else if 3 * target ≤ 4 * a then 2 else if target ≤ 2 * a then 1 else 0

/-- Whether a waiting request hits its bank's open row. -/
def State.rowHit (s : State) (w : HbmWait) : Bool := decide (smapFind s.hbmRow (bankKey w.pc w.bank) = some w.row)

/-- The waiting request with the greatest measure, the first among equals. -/
def pickMax (m : HbmWait → Nat) : List HbmWait → Option HbmWait
  | [] => none
  | w :: l => match pickMax m l with
    | none => some w
    | some v => if m w < m v then some v else some w

/-- The next request a pseudo-channel serves (R284 steps 2 to 5). Writes are candidates while their queue drains. -/
def State.nextHbm (s : State) (pc : Nat) : Option HbmWait :=
  let fc := pc / 32
  let mine := s.hbmQ.filter fun w => decide (w.pc = pc) && (w.req.wr.isNone || s.hbmDrain.contains pc)
  let urgent := mine.filter fun w => decide (s.urgency fc w.req.port.val = 3)
  match pickMax s.age urgent with
  | some w => some w
  | none =>
    let ptr := smapGet (fun _ => 0) s.hbmPtr pc
    pickMax (fun w => 100 * s.urgency fc w.req.port.val + 50 * flag (s.rowHit w) + (9 - (w.req.port.val + 10 - ptr) % 10)) mine

/-- Start draining the write queue of a pseudo-channel when it holds 48 or a waiting write's port reaches urgency 2; stop
when it is empty (R284). -/
def State.drainUpdate (s : State) (pc : Nat) : State :=
  let writes := s.hbmQ.filter fun w => decide (w.pc = pc) && w.req.wr.isSome
  if writes.isEmpty then { s with hbmDrain := s.hbmDrain.filter fun p => p != pc }
  else if 48 ≤ writes.length ∨ (writes.any fun w => decide (2 ≤ s.urgency (pc / 32) w.req.port.val)) = true then
    { s with hbmDrain := insertNat pc s.hbmDrain }
  else s

/-! Activates (R286, R287). -/

/-- Put a row in an activate-counter table: the table, and whether a threshold is crossed. -/
def trrStep (thresh : Nat) (t : List (Nat × Nat)) (row : Nat) : List (Nat × Nat) × Bool :=
  let low := minOr 0 (t.map Prod.snd)
  let put (n : Nat) : List (Nat × Nat) := t.map fun (x : Nat × Nat) => if x.1 = row then (row, n) else x
  let p : List (Nat × Nat) × Nat :=
    match t.find? fun (e : Nat × Nat) => decide (e.1 = row) with
    | some e => (put (e.2 + 1), e.2 + 1)
    | none =>
      if t.length < 16 then (t ++ [(row, 1)], 1)
      else (setAt t (t.findIdx fun (e : Nat × Nat) => decide (e.2 = low)) (row, low + 1), low + 1)
  if thresh ≤ p.2 then (p.1.map fun (x : Nat × Nat) => if x.1 = row then (row, 0) else x, true) else (p.1, false)

/-- Activate a row of a bank: it is open, and counted. -/
def State.activate (s : State) (key row : Nat) : State :=
  let (t, hit) := trrStep (s.regN (FC_TRR_THRESH (key / 48 / 32))) (smapGet (fun _ => []) s.hbmTrr key) row
  let s := { s with hbmRow := smapInsert s.hbmRow key row, hbmTrr := smapSet (fun _ => []) s.hbmTrr key t }
  if hit then { s with hbmTrrDue := s.hbmTrrDue ++ [(key, row)] } else s

/-- Precharge a bank. -/
def State.precharge (s : State) (key : Nat) : State := { s with hbmRow := smapErase s.hbmRow key }

/-- A targeted refresh: its neighbours are activated and precharged once each. -/
def State.targeted (s : State) (key row : Nat) : State :=
  let rows := [(2, true), (1, true), (1, false), (2, false)].filterMap fun (d, below) =>
    if below then (if d ≤ row then some (row - d) else none)
    else if row + d < 24576 then some (row + d) else none
  let s := rows.foldl (fun (s : State) r => (s.activate key r).precharge key) (s.precharge key)
  s.count (FC_TRR_CNT (key / 48 / 32)) 1

/-! Errors (R293, R294). -/

/-- Key of a lane of a pseudo-channel. -/
def laneKey (pc lane : Nat) : Nat := 36 * pc + lane

/-- Whether the spare lane of a pseudo-channel is in use. -/
def State.laneUsed (s : State) (pc : Nat) : Bool := s.regBit (FC_REPAIR (pc / 32) (pc % 32 / 2)) (8 * (pc % 2))

/-- Put a lane onto its pseudo-channel's spare. -/
def State.laneRepair (s : State) (pc lane : Nat) : State :=
  let a := FC_REPAIR (pc / 32) (pc % 32 / 2)
  let k := 8 * (pc % 2)
  (s.setBit a k true).setField a (k + 6) (k + 1) lane

/-- Attribute a corrected error to a lane; at 32 its repair is due at the end of a live retrain, or the spare is
taken or promised and an event says so. -/
def State.laneCorrected (s : State) (pc lane : Nat) : State :=
  let n := min 0xFFFF (smapGet (fun _ => 0) s.laneCnt (laneKey pc lane) + 1)
  let s := { s with laneCnt := smapSet (fun _ => 0) s.laneCnt (laneKey pc lane) n }
  let fc := pc / 32
  if n < 32 then s
  else
    let s := s.blkErr .fc fc 2
    match smapFind s.lineRepair pc with
    | some l => if l = lane then s else s.noSpare .fc fc (laneKey pc lane) n
    | none =>
      if s.laneUsed pc then s.noSpare .fc fc (laneKey pc lane) n
      else { s with lineRepair := smapInsert s.lineRepair pc lane }

/-- A corrected error of a channel. -/
def State.hbmCorrected (s : State) (pc : Nat) : State :=
  let fc := pc / 32
  let a := FC_CECCH fc (pc % 32 / 2)
  let n := min 0xFFFF (s.regN a + 1)
  let s := ((s.count (FC_CEC fc) 1).setRegN a n).blkErr .fc fc 0
  if s.errThresh .fc fc ≤ n then
    (s.blkErr .fc fc 2).noSpare .fc fc (pc % 32 / 2) n
  else s

/-- What a read of an HBM line finds. -/
def State.hbmEcc (s : State) (off : Nat) (e : HbmFind) : State :=
  let pc := (s.hbmPlace off).pc
  let fc := pc / 32
  let s := if e.onDie then (s.hbmCorrected pc).count (FC_ODECC_CNT fc) 1 else s
  match e.ecc with
  | .clean => s
  | .single =>
    let s := s.hbmCorrected pc
    match e.lane with
    | some l => s.laneCorrected pc l.val
    | none => s
  | .double =>
    let s := s.uncorrectable .fc fc
    let s := if s.poisonAt .hbm off then s else s.count (FC_UEC fc) 1
    (s.setRegN (FC_POISON_LOG fc) (off / 64 * 64)).poisonLine .hbm off

/-- A line as a port reads it, in the clear: the bytes the tier holds, with those of the writes that wait for it in the write
queue in place (R284). -/
def State.hbmLine (s : State) (off : Nat) : Bytes :=
  (s.hbmQ.filter fun w => decide (w.req.off / 64 = off / 64)).foldl (fun b w =>
    match w.req.wr with
    | some bs => splice b (w.req.off % 64) bs
    | none => b) (s.lineUnder (s.lineKey (off / 64)) (off / 64))

/-- A read of a port: its findings, the line's data, and the end of the descriptor that reads a poisoned line (R85, R294). -/
def State.hbmRead (s : State) (r : HbmReq) (e : HbmFind) : State :=
  let s := s.hbmEcc r.off e
  if s.poisonAt .hbm r.off then
    match r.flight with
    | some id => s.endEarly id stPoisoned .hbm (r.off / 64 * 64)
    | none => s
  else { s with hbmData := s.hbmLine r.off }

/-- Serve a waiting request: its row is opened, its data moved, and its latency held against the target. The bytes of a port's
write are in the clear, under the key its line is held under. -/
def State.serveHbm (s : State) (w : HbmWait) (e : HbmFind) : State :=
  let fc := w.pc / 32
  let p := w.req.port.val
  let late := decide (s.regN (FC_LAT fc p) < s.age w)
  let s := { s with hbmQ := s.hbmQ.erase w, hbmPtr := smapSet (fun _ => 0) s.hbmPtr w.pc ((p + 1) % 10) }
  let s := if s.rowHit w then s else s.activate (bankKey w.pc w.bank) w.row
  let s := if late then s.count (FC_LATMISS fc p) 1 else s
  match w.req.wr with
  | some bs => s.writeLine .hbm (s.lineKey (w.req.off / 64)) w.req.off bs
  | none => s.hbmRead w.req e

/-- Refreshes due of an HBM bank. -/
def State.refDue (s : State) (k : Nat) : Nat := smapGet (fun _ => 0) s.hbmDue k

/-- HBM_COMMAND_ISSUE: the next command of a pseudo-channel: a refresh that is due, REFpb before targeted (R287), else the
request R284 picks. `parity` counts the parity errors of the command and its data (Table 11.1). -/
def execHbmCommandIssue (pc : Fin 256) (ecc : Ecc) (onDie : Bool) (lane : Option (Fin 36)) (s : State) (parity : Nat := 0) : Out := live s fun s =>
  let here (k : Nat) : Bool := decide (k / 48 = pc.val)
  let s := s.count (FC_PAR_CNT (pc.val / 32)) parity
  match (s.hbmDue.map Prod.fst).find? here with
  | some k => { s.precharge k with hbmDue := smapSet (fun _ => 0) s.hbmDue k (s.refDue k - 1) }
  | none =>
    match s.hbmTrrDue.find? fun x => here x.1 with
    | some (k, row) => { s with hbmTrrDue := s.hbmTrrDue.erase (k, row) }.targeted k row
    | none =>
      let s := s.drainUpdate pc
      match s.nextHbm pc with
      | none => s
      | some w => (s.serveHbm w { ecc := ecc, onDie := onDie, lane := lane }).drainUpdate pc

/-- Intervals by which a refresh may be postponed (R285). -/
def refMost : Nat := 8

/-- PER_BANK_REFRESH: a bank's interval has passed (R285). Refresh is enabled once the stacks are trained (R288); a bank with
eight refreshes postponed is refreshed now. -/
def execPerBankRefresh (pc : Fin 256) (sid : Fin 3) (bank : Fin 16) (s : State) : Out := live s fun s =>
  let k := bankKey pc (16 * sid + bank)
  if !s.regBit (FC_STATUS (pc.val / 32)) 0 then s
  else if refMost ≤ s.refDue k then s.precharge k
  else { s with hbmDue := smapSet (fun _ => 0) s.hbmDue k (s.refDue k + 1) }

/-- TRR_WINDOW_END: every activate-counter table of the controller is cleared (R286). -/
def execTrrWindowEnd (fc : Fin 8) (s : State) : Out := live s fun s =>
  { s with hbmTrr := smapClear (fun k => decide (k / 48 / 32 = fc.val)) s.hbmTrr }

/-- Port 9, the port of the patrol scrub and of targeted refreshes (Table 11.4). -/
def scrubPort : Fin 10 := 9

/-- HBM_PATROL_SCRUB: where it is enabled, the reads of the pass, each a request of port 9 (R295). -/
def execHbmPatrolScrub (fc : Fin 8) (found : List (Nat × HbmFind)) (s : State) : Out := live s fun s =>
  if s.regBit (FC_CTL fc) 0 ∧ s.hbmReady then
    found.foldl (fun s (o, e) =>
      let p := s.hbmPlace o
      if o < hbmSize ∧ p.pc / 32 = fc.val then
        (s.touch .hbm).serveHbm { req := { port := scrubPort, flight := none, off := o, wr := none },
                                  pc := p.pc, bank := p.bank, row := p.row, at_ := s.timeNs } e
      else s) (s.touch .hbm)
  else s

/-! Training (R288 to R293). -/

/-- Runs of passing delays, as (first, length), in ascending order; `n` delays are left from `d`. -/
def runsFuel (v : BitVec 128) : Nat → Nat → Option (Nat × Nat) → List (Nat × Nat)
  | 0, _, cur => cur.toList
  | n + 1, d, cur =>
    if v.getLsbD d then runsFuel v n (d + 1) (some (match cur with | some (a, k) => (a, k + 1) | none => (d, 1)))
    else cur.toList ++ runsFuel v n (d + 1) none

/-- The eye of a sweep: its centre and width; which of two longest runs is open (`free` and `k` index the choice). -/
def eyeOf (free k : Nat) (v : BitVec 128) : Nat × Nat :=
  let runs := runsFuel v 128 0 none
  let w := maxOr 0 (runs.map Prod.snd)
  let best := runs.filter fun r => decide (r.2 = w)
  match best[(Config.freeByte free k).toNat % max 1 best.length]? with
  | some (a, n) => ((a + (a + n - 1)) / 2, n)
  | none => (0, 0)

/-- Narrowest eye that a byte lane may have. -/
def eyeMin : Nat := 24

/-- The value of FC_TRNch_l for a pair of sweeps; a width of 128 shows as 127, the most its field holds. -/
def trnOf (free k : Nat) (rd wr : BitVec 128) : Nat :=
  let (rc, rw) := eyeOf free k rd
  let (wc, ww) := eyeOf free (k + 1) wr
  rc + place (min 127 rw) 7 + place wc 14 + place (min 127 ww) 21 + place (flag (decide (min rw ww < eyeMin))) 28

/-- Width of the narrower eye of a pair of sweeps. -/
def eyeWidth (rd wr : BitVec 128) : Nat := min (eyeOf 0 0 rd).2 (eyeOf 0 0 wr).2

/-- Pseudo-channel and lane of bit b of byte lane l of a channel: four data bytes and half of the ECC byte each (R289). -/
def laneOf (fc ch l b : Nat) : Nat × Nat :=
  if l < 8 then (32 * fc + 2 * ch + l / 4, 8 * (l % 4) + b) else (32 * fc + 2 * ch + b / 4, 32 + b % 4)

/-- The outcome of one byte lane: its FC_TRN value and the repair made, where its eye was narrow and a spare is free. The bit
whose exclusion widens the eye most is repaired; which of several is open. -/
def State.trainLane (s : State) (used : Nat → Bool) (fc ch : Nat) (w : Sweep) : Nat × Option (Nat × Nat) :=
  let plain := trnOf s.free (8 * w.lane) w.rd w.wr
  if !bit plain 28 then (plain, none)
  else
    let widths := w.bits.map fun p => eyeWidth p.1 p.2
    let best := (List.range widths.length).filter fun i => decide (widths.getD i 0 = maxOr 0 widths)
    match best[(Config.freeByte s.free (8 * w.lane + 2)).toNat % max 1 best.length]? with
    | none => (plain, none)
    | some b =>
      let (pc, lane) := laneOf fc ch w.lane b
      if used pc then (plain, none)
      else
        let (rd, wr) := w.bits.getD b (0, 0)
        (trnOf s.free (8 * w.lane + 3) rd wr, some (pc, lane))

/-- Train the lanes of a channel: each lane's FC_TRN value, and the repairs made. -/
def State.trainChannel (s : State) (fc ch : Nat) (ws : List Sweep) : List (Nat × Nat) × List (Nat × Nat) :=
  ws.foldl (fun acc w =>
    let used (pc : Nat) : Bool := s.laneUsed pc || acc.2.any fun r => decide (r.1 = pc)
    let (v, rep) := s.trainLane used fc ch w
    (acc.1 ++ [(w.lane, v)], acc.2 ++ rep.toList)) ([], [])

/-- Store the outcome of a channel's training. -/
def State.putTraining (s : State) (fc ch : Nat) (r : List (Nat × Nat) × List (Nat × Nat)) : State :=
  let s := r.1.foldl (fun (s : State) (l, v) => s.setRegN (FC_TRN fc (9 * ch + l)) v) s
  let s := r.2.foldl (fun (s : State) (pc, lane) => s.laneRepair pc lane) s
  { s with hbmTrainTemp := smapSet (fun _ => 0) s.hbmTrainTemp (16 * fc + ch) (BitVec.ofNat 8 (s.field (FC_STATUS fc) 15 8)) }

/-- Mark a channel degraded, with its event (R290). -/
def State.degrade (s : State) (fc ch : Nat) : State :=
  let s := (s.setBit (FC_STATUS fc) 7 true).setBit (FC_STATUS fc) (16 + ch) true
  s.pfEvent { type := 0x0032, cls := classCode .fc, inst := fc, arg0 := ch, arg1 := s.regN (FC_STATUS fc) }

/-- Show a stack's temperature, and whether it is hot (R285). -/
def State.stackTemp (s : State) (fc : Nat) (t : Byte) : State :=
  (s.setField (FC_STATUS fc) 15 8 t.toNat).setBit (FC_STATUS fc) 6 (decide (85 ≤ t.toNat))

/-- Apply the repairs a configuration record names (R293). -/
def State.applyRepairs (s : State) : State :=
  match s.cfgRec with
  | none => s
  | some r =>
    (List.range 128).foldl (fun s i => s.setRegN (FC_REPAIR (i / 16) (i % 16)) ((r.repairs.getD i 0).toNat % 2 ^ 15)) s

/-- HBM_TRAINING: once Quoin has released the Footing domains, all controllers train, and the tier goes on to be filled. -/
def execHbmTraining (temps : List Byte) (sweeps : List (Fin 8 × Fin 16 × Sweep)) (s : State) : Out := live s fun s =>
  if !s.fw.booted ∨ ((List.range 8).any fun i => s.regBit (FC_STATUS i) 0) = true then s
  else
    let s := (List.range 8).foldl (fun s i => s.stackTemp i (temps.getD i 0)) s.applyRepairs
    let run (acc : State × Bool) (k : Nat) : State × Bool :=
      let (s, rep) := acc
      let fc := k / 16
      let ch := k % 16
      let ws := (sweeps.filter fun x => decide (x.1.val = fc) && decide (x.2.1.val = ch)).map fun x => x.2.2
      let r := s.trainChannel fc ch ws
      let s := s.tick.putTraining fc ch r
      (if r.1.any fun x => bit x.2 28 then s.degrade fc ch else s, rep || !r.2.isEmpty)
    let (s, repaired) := (List.range 128).foldl run (s, false)
    let s := (List.range 8).foldl (fun s i => s.setBit (FC_STATUS i) 0 true) s
    if repaired then s.record else s

/-- HBM_FILL_COMPLETE: the tier holds zeros and accepts requests (R288). -/
def execHbmFillComplete (s : State) : Out := live s fun s =>
  if s.hbmReady ∨ ((List.range 8).all fun i => s.regBit (FC_STATUS i) 0) = false then s
  else { s with hbmReady := true, hbm := [], hbmPoison := [], hbmKey := [] }

/-- Start the next retrain of a controller, in channel order. -/
def State.nextRetrain (s : State) (fc : Nat) : State :=
  let mine := (s.retrainReq.filter fun r => decide (r.1 = fc)).map Prod.snd
  if (smapFind s.retrain fc).isSome ∨ mine.isEmpty then s
  else
    let ch := minOr 0 mine
    let s := { s with retrain := smapInsert s.retrain fc { ch := ch, windows := 0 }
                      retrainReq := s.retrainReq.filter fun r => r != (fc, ch) }
    let s := (s.setBit (FC_STATUS fc) 1 true).setField (FC_STATUS fc) 5 2 ch
    s.setRegN (FC_RETRAIN_STAT fc) (1 + place ch 4)

/-- Ask for a retrain of a channel; one asked for during the channel's own retrain waits its turn (R291). -/
def State.askRetrain (s : State) (fc ch : Nat) : State :=
  (if s.retrainReq.contains (fc, ch) then s else { s with retrainReq := s.retrainReq ++ [(fc, ch)] }).nextRetrain fc

/-- Write FC_RETRAIN: with start set it asks for a retrain (R291). -/
def State.retrainWrite (s : State) (fc v : Nat) : State := if bit v 8 then s.askRetrain fc (v % 16) else s

/-- FC_RETRAIN. -/
def execFcRetrain (sec : Bool) (fc : Fin 8) (v : Word) (s : State) : Out := live s fun s =>
  s.allow sec (FC_RETRAIN fc) fun s => s.retrainWrite fc v.toNat

/-- AUTO_RETRAIN: the stack's temperature; each channel it has moved more than 15 °C for is asked to retrain (R291). -/
def execAutoRetrain (fc : Fin 8) (temp : Byte) (s : State) : Out := live s fun s =>
  let s := s.stackTemp fc temp
  if s.regBit (FC_CTL fc) 1 ∧ s.regBit (FC_STATUS fc) 0 then
    (List.range 16).foldl (fun s ch =>
      let old := (smapGet (fun _ => (0 : Byte)) s.hbmTrainTemp (16 * fc + ch)).toNat
      let runs := (smapFind s.retrain fc).any fun r => decide (r.ch = ch)
      if 15 < ((temp.toNat : Int) - old).natAbs ∧ runs = false then s.askRetrain fc ch else s) s
  else s

/-- RETRAIN_WINDOW: a window starts where no refresh is due on the channel; its banks are precharged (R291, R292). -/
def execRetrainWindow (fc : Fin 8) (s : State) : Out := live s fun s =>
  match smapFind s.retrain fc with
  | none => s
  | some r =>
    let mine (k : Nat) : Bool := decide (k / 96 = 16 * fc.val + r.ch)
    if r.windows < 1024 ∧ ((s.hbmDue.map Prod.fst).any mine) = false ∧ (s.hbmTrrDue.any fun x => mine x.1) = false then
      let s := { s with retrain := smapInsert s.retrain fc { r with windows := r.windows + 1 }
                        hbmRow := s.hbmRow.filter fun e => !mine e.1 }
      s.setField (FC_RETRAIN_STAT fc) 31 16 (r.windows + 1)
    else s

/-- A retrain that has failed: the old delays stay, each byte lane below minimum has its bit set, and the channel is degraded,
with its event (R290, R292). -/
def State.retrainFail (s : State) (fc ch : Nat) (lanes : List (Nat × Nat)) : State :=
  ((lanes.filter fun x => bit x.2 28).foldl (fun (s : State) x => s.setBit (FC_TRN fc (9 * ch + x.1)) 28 true) s).degrade fc ch

/-- RETRAIN_COMPLETE: after the last window the new centres and repairs take effect at once, or the old delays stay (R292);
repairs are recorded (R293, R428). -/
def execRetrainComplete (fc : Fin 8) (sweeps : List Sweep) (s : State) : Out := live s fun s =>
  match smapFind s.retrain fc with
  | none => s
  | some r =>
    if r.windows < 1024 then s
    else
      let s := { s with retrain := smapErase s.retrain fc }
      let s := (s.setBit (FC_STATUS fc) 1 false).setField (FC_STATUS fc) 5 2 0
      let due := (s.lineRepair.filter fun e => decide (e.1 / 2 = 16 * fc.val + r.ch)).filter fun e => !s.laneUsed e.1
      let repaired := due.foldl (fun (s : State) (pc, lane) => s.laneRepair pc lane) s
      let t := repaired.trainChannel fc r.ch sweeps
      let failed := t.1.any fun x => bit x.2 28
      let s := if failed then s.tick.retrainFail fc r.ch t.1
        else { repaired.tick.putTraining fc r.ch t with
               lineRepair := smapClear (fun k => decide (k / 2 = 16 * fc.val + r.ch)) s.lineRepair }
      let s := s.setField (FC_RETRAIN_STAT fc) 1 0 (if failed then 3 else 2)
      let s := if failed || (due.isEmpty && t.2.isEmpty) then s else s.record
      s.nextRetrain fc

/-- HBM_STACK_HOT: the stack's temperature crosses 85 °C (R285). -/
def execHbmStackHot (fc : Fin 8) (temp : Byte) (s : State) : Out := live s fun s => s.stackTemp fc temp

end Sys2Proof.Machine
end

