-- ==== Sys2Proof/Machine/Plinth.lean ====
section
/-! DEFINITION. The Plinth array (R305 to R319): its command sequences, status words, suspends, erase counters and markers,
Quoin's fetches through the prefetch buffer and the branch cache, and Quoin's start (R315, R361, R426, R427). -/

namespace Sys2Proof.Machine

/-! Suspend and resume (R309, R319). -/

/-- Whether an operation of either bank runs. -/
def State.plRuns (s : State) : Bool := s.plBusy 0 || s.plBusy 1

/-- Ask the bank's running operation to suspend; during a program beside a suspended erase it is refused (R309). -/
def State.plSuspend (s : State) (b : Nat) : State :=
  let k := s.plBank b
  if s.plEraseHeld && s.plRuns then s.plErr b 5
  else
    match k.op with
    | none => s
    | some o =>
      if o.susp then s.setPlBank b { k with op := some { o with fetch := none } }
      else s.setPlBank b { k with op := some { o with asked := true } }

/-- Resume the bank's suspended operation. The array runs one operation at a time, so a resume during the program of another
block is refused as a command would be (R309; assumption 39). -/
def State.plResume (s : State) (b : Nat) : State :=
  let k := s.plBank b
  match k.op with
  | some o =>
    if !o.susp then s
    else if s.plRuns then s.plErr b 5
    else s.setPlBank b { k with op := some { o with susp := false, fetch := none } }
  | none => s

/-- One 32-bit write by Quoin to an address of the array (R306, R308). An address outside the array is none of its writes. -/
def State.plWrite (s : State) (addr v : Nat) : State :=
  if addr < plBase ∨ plBase + 2 * plBankBytes ≤ addr then s
  else
    let a := addr - plBase
    let b := a / plBankBytes
    let off := a % plBankBytes
    let k := s.plBank b
    let into (q : PlSeq) : State := s.setPlBank b { k with seq := q }
    let suspended := k.op.any fun o => o.susp
    if a % 4 ≠ 0 then (if s.plBusy b then s.plErr b 5 else s.plBreak b)
    else if s.plBusy b then (if v = 0xB0 then s.plSuspend b else s.plErr b 5)
    else
      match k.seq with
      | .prog auto base words =>
        let cont := if words.isEmpty then decide (a % 32 = 0) else decide (a = base + 4 * words.length)
        let line := if words.isEmpty then a else base
        let words := words ++ [BitVec.ofNat 32 v]
        if !cont then (if v ≠ 0xF0 then s.plBreak b else if suspended then s else into .read)
        else if words.length < 8 then into (.prog auto line words)
        else s.plAsk b (plOpOf false line (words.flatMap fun w => leBytes 4 w.toNat) auto)
      | q =>
        if v = 0xF0 then (if suspended then s else into .read)
        else if v = 0xAA ∧ off = 0x1554 ∧ q = .read then into .u1
        else if v = 0xAA ∧ off = 0x1554 ∧ q = .er1 then into .er2
        else if v = 0x55 ∧ off = 0x0AA8 ∧ q = .u1 then into .u2
        else if v = 0x55 ∧ off = 0x0AA8 ∧ q = .er2 then into .er3
        else if (v = 0xA0 ∨ v = 0xA1) ∧ off = 0x1554 ∧ q = .u2 then into (.prog (decide (v = 0xA1)) 0 [])
        else if v = 0x80 ∧ off = 0x1554 ∧ q = .u2 then into .er1
        else if (v = 0x30 ∨ v = 0x31) ∧ q = .er3 then s.plAsk b (plOpOf true a [] (decide (v = 0x31)))
        else if q ≠ .read then s.plBreak b
        else if v = 0xB0 then s.plSuspend b
        else if v = 0xD0 then s.plResume b
        else if v = 0x50 then s.setField (plStat b) 7 3 0
        else s.plBreak b

/-- Writes in order. -/
def State.plWrites (s : State) (ws : List (Word × Word)) : State :=
  ws.foldl (fun s w => s.plWrite w.1.toNat w.2.toNat) s

/-- PROGRAM_LINE: the writes of the sequence of Table 12.3, each held against R308. -/
def execProgramLine (writes : List (Word × Word)) (s : State) : Out := live s fun s => s.plWrites writes

/-- ERASE_BLOCK: the writes of the sequence of Table 12.3, each held against R308. -/
def execEraseBlock (writes : List (Word × Word)) (s : State) : Out := live s fun s => s.plWrites writes

/-- PLINTH_SUSPEND. -/
def execPlinthSuspend (addr : Word) (s : State) : Out := live s fun s => s.plWrite addr.toNat 0xB0

/-- PLINTH_RESUME. -/
def execPlinthResume (addr : Word) (s : State) : Out := live s fun s => s.plWrite addr.toNat 0xD0

/-- CLEAR_ERRORS. -/
def execClearErrors (addr : Word) (s : State) : Out := live s fun s => s.plWrite addr.toNat 0x50

/-- RESET_TO_READ. -/
def execResetToRead (addr : Word) (s : State) : Out := live s fun s => s.plWrite addr.toNat 0xF0

/-! Reads and fetches (R312, R315, R317 to R319). -/

/-- A data read within one block: every word of a busy bank, and of a block under operation, is the bank's status word; a read of
an indeterminate block is flagged. -/
def State.plBlockData (s : State) (a n : Nat) : State × Bytes :=
  let b := a / plBankBytes
  let blk := a / plBlock
  if s.plBusy b || (s.plBank b).blocks.contains blk then
    let word := leBytes 4 (s.regN (plStat b))
    (s, (List.range n).map fun i => word.getD ((a + i) % 4) 0)
  else (s.plFlag blk, memRead erasedByte s.plArray a n)

/-- A data read of a range of the array. -/
def State.plData (s : State) (a n : Nat) : State × Bytes :=
  (cut plBlock a n).foldl (fun (acc : State × Bytes) c =>
    let r := acc.1.plBlockData c.1 c.2
    (r.1, acc.2 ++ r.2)) (s, [])

/-- PLINTH_DATA_READ: the word at an address, or the status word of a bank under operation. -/
def execPlinthDataRead (addr : Word) (s : State) : Out := live s fun s =>
  if addr.toNat < plBase ∨ plBase + 2 * plBankBytes ≤ addr.toNat then s
  else
    let r := s.plData ((addr.toNat - plBase) / 4 * 4) 4
    { r.1 with plRead := BitVec.ofNat 32 (leNat r.2) }

/-- QUOIN_FETCH: the fetch is served, takes the busy-bank fetch exception, or waits for an auto-suspend. -/
def execQuoinFetch (addr : Word) (s : State) : Out := live s fun s =>
  if addr.toNat < plBase ∨ plBase + 2 * plBankBytes ≤ addr.toNat then s
  else
    let a := addr.toNat - plBase
    let b := a / plBankBytes
    let blk := a / plBlock
    let k := s.plBank b
    if k.blocks.contains blk || s.plIndet blk then s.plFault a
    else if s.plBusy b then
      match k.op with
      | some o => if o.auto then s.setPlBank b { k with op := some { o with asked := true, fetch := some a } } else s.plFault a
      | none => s
    else s.plServe a

/-- PLINTH_SUSPEND_DONE: the operation asked to suspend has; a fetch that asked for it is served (R313, R319). -/
def execPlinthSuspendDone (bank : Bool) (s : State) : Out := live s fun s =>
  let b := flag bank
  let k := s.plBank b
  match k.op with
  | some o =>
    if o.asked ∧ !o.susp then
      let s := s.setPlBank b { k with op := some { o with susp := true, asked := false } }
      match o.fetch with
      | some a => s.plServe a
      | none => s
    else s
  | none => s

/-- AUTO_SUSPEND_RESUME: an operation that suspended for a fetch goes on (R319). -/
def execAutoSuspendResume (bank : Bool) (s : State) : Out := live s fun s =>
  let b := flag bank
  match (s.plBank b).op with
  | some o => if o.susp ∧ o.fetch.isSome ∧ s.plRuns = false then s.plResume b else s
  | none => s

/-- An operation cut short by a reset: bits that a program had to clear may be cleared, and an erased block's content is open;
the marker stays set (R314, R315). -/
def State.plTorn (s : State) (o : PlOp) : State :=
  if o.erase then { s.tick with plArray := memWrite erasedByte s.plArray (o.block * plBlock) (s.freeBytes plBlock) }
  else
    let old := memRead erasedByte s.plArray (32 * o.line) 32
    { s.tick with plArray := memWrite erasedByte s.plArray (32 * o.line) (s.plPart o old) }

/-- PLINTH_PROGRAM_DONE: the line holds old AND new; an error is reported where the data needed a 0 to become 1, or the verify
failed, which leaves open which bits were cleared (R307, R314). -/
def execPlinthProgramDone (bank : Bool) (ok : Bool) (s : State) : Out := live s fun s =>
  let b := flag bank
  match (s.plBank b).op with
  | none => s
  | some o =>
    if o.erase ∨ o.susp then s else (s.plProgrammed b o ok).writeDue

/-- PLINTH_ERASE_DONE: every bit of the block is 1, or the erase failed, which leaves its content open (R307, R314, R315). -/
def execPlinthEraseDone (bank : Bool) (ok : Bool) (s : State) : Out := live s fun s =>
  let b := flag bank
  match (s.plBank b).op with
  | none => s
  | some o =>
    if !o.erase ∨ o.susp then s
    else if ok then (s.plEraseEnd b o).writeDue
    else
      let s := { s.tick with plArray := memWrite erasedByte s.plArray (o.block * plBlock) (s.freeBytes plBlock) }
      ((s.plErr b 4).plEnd b).writeDue

/-- A write of PL_XIP_CTL: the buffers that are switched off are emptied, and PL_STATUS shows the enables. -/
def State.xipCtl (s : State) (v : Nat) : State :=
  let s := s.setRegN PL_XIP_CTL (v % 4)
  let s := s.setField PL_STATUS 2 1 (v % 4)
  { s with plPrefetch := if bit v 0 then s.plPrefetch else [], plBranch := if bit v 1 then s.plBranch else [] }

/-! Quoin's start. -/

/-- Lanes of a class (Table 3.3): first and last index in lanes A to D. -/
def lanesOf : Blk → List (Nat × Nat)
  | .ae => [(0, 8), (9, 16), (17, 24), (25, 33)]
  | .ce => [(0, 4), (5, 8), (9, 12), (13, 17)]
  | .ve => [(0, 1), (2, 4), (5, 6), (7, 8)]
  | .le => [(0, 0), (1, 2), (3, 3), (4, 4)]
  | .he => [(0, 6), (7, 12), (13, 18), (19, 25)]
  | .kc => [(1, 0), (0, 4), (1, 0), (1, 0)]
  | _ => []

/-- Lanes that hold a spare at shipment (R23). -/
def spareLanes : Blk → List Nat
  | .ve => [1]
  | .le => [1]
  | .kc => [1]
  | _ => [0, 3]

/-- The fused test map of spares of a class. -/
def fusedSpares (b : Blk) : DWord :=
  bitmap (placeOf b).count fun i => (spareLanes b).any fun l =>
    match (lanesOf b)[l]? with
    | some (lo, hi) => decide (i = lo + Config.fusedSpare b l % (hi + 1 - lo))
    | none => false

/-- Scan every block as PERST_N is released: those whose marker is set are indeterminate (R315). -/
def State.plScan (s : State) : State :=
  let s := s.plMark.foldl (fun (s : State) e => s.setBit (PL_INDET (e.1 / 32)) (e.1 % 32) true) s
  (s.plTally.setBit PL_STATUS 0 true).setField PL_STATUS 2 1 (s.regN PL_XIP_CTL % 4)

/-- Decide which copy is in force (R426, R427): the record, and QN_CFG_STAT; copies that differ are rewritten. -/
def State.plChoose (s : State) : State :=
  let copies := cfgBlocks.map fun k => (k, s.cfgCopy k)
  let s := cfgBlocks.foldl State.plFlag s
  let valid := copies.filter fun c => cfgValid c.2 && !s.plIndet c.1
  let seqs := valid.map fun c => pfield c.2 8 8
  let top := valid.filter fun c => decide (pfield c.2 8 8 = maxOr 0 seqs)
  let same := match top with
    | [] => none
    | c :: l => if l.all fun d => d.2 == c.2 then some c.2 else none
  match same with
  | some b =>
    let stale := copies.filter fun c => !(valid.any fun v => v.1 == c.1) || c.2 != b
    let s := stale.foldl (fun (s : State) c => s.writeCopy b c.1) s
    let r := CfgRec.of b
    let s := s.setRegN QN_CFG_STAT (place valid.length 2 + place stale.length 5 + place r.seq 16)
    { s with cfgRec := some r }
  | none =>
    let read := (copies.filter fun c => cfgCrcOk c.2).map Prod.snd
    let svn := if read.isEmpty then Config.fusedMinSvn.toNat else maxOr 0 (read.map fun b => pfield b 0x10 4)
    let seq := maxOr 0 (read.map fun b => pfield b 8 8)
    let s := s.setRegN QN_CFG_STAT ((if valid.isEmpty then 2 else 1) + place valid.length 2)
    { s with cfgRec := some { seq := seq, minSvn := BitVec.ofNat 32 svn, slotB := false, spares := cfgClasses.map fusedSpares,
                              retired := List.replicate 6 0, bedmap := List.replicate 64 0, repairs := List.replicate 128 0 } }

/-- Take over what the record says: spares and retired units, Bed remaps, minimum SVN, the image slot. The domains of spares and
retired units are off (Table 16.2). -/
def State.plTake (s : State) (r : CfgRec) : State :=
  let one (s : State) (b : Blk) (c i : Nat) : State :=
    let sp := (r.spares.getD c 0).getLsbD i
    let re := (r.retired.getD c 0).getLsbD i
    if sp || re then
      let s := s.setUnit b i { s.unitAt b i with standby := sp && !re, retired := re }
      match domainOf b i with
      | some d => s.setRegN (PWR_DOM d) 0
      | none => s
    else s
  let s := cfgClasses.zipIdx.foldl (fun s (b, c) => (List.range (placeOf b).count).foldl (fun s i => one s b c i) s) s
  let s := (List.range 64).foldl (fun (s : State) g =>
    let v := (r.bedmap.getD g 0).toNat
    let s := s.setRegN (BED_REMAP g) (bits v 0 0 + place (bits v 11 2) 2)
    if bit v 0 then
      let m := bits v 11 2
      { s with bankOut := insertNat (136 * (m / 128) + 17 * (m / 16 % 8) + m % 16) s.bankOut }
    else s) s
  (s.setReg QN_MIN_SVN (r.minSvn.setWidth 64)).setBit QN_STATUS 3 r.slotB

/-- Give a key slot a new key pair, drawn by Quoin (R385). -/
def State.newKey (s : State) (slot : Nat) : State :=
  { s with slotKey := smapInsert s.slotKey slot (s.nextKey + 1), nextKey := s.nextKey + 1 }

/-- Whether ranges (first unit, length) lie in HBM, apart from each other and from the staging area. -/
def rangesApart : List (Nat × Nat) → Bool
  | [] => true
  | (a, n) :: l =>
    decide (256 ≤ a) && decide (0 < n) && decide (a + n ≤ hbmSize / 0x10000)
      && l.all (fun r => decide (a + n ≤ r.1) || decide (r.1 + r.2 ≤ a)) && rangesApart l

/-- Where Quoin places the tensor records (32 MiB), the translation tables and Meleopin's HBM, and the survivor area: any places
that stay apart (R383). -/
def secureLayout (n : Nat) : List (Nat × Nat) :=
  let c := [(Config.secureUnit 0 n, 512), (Config.secureUnit 1 n, Config.secureUnit 2 n), (Config.secureUnit 3 n, Config.secureUnit 4 n),
            (Config.secureUnit 5 n, 1)]
  if rangesApart c then c else [(256, 512), (768, 1024), (1792, 1024), (2816, 1)]

/-- The region entries Quoin writes at start-up: three locked secure ranges, and the staging area (R383). -/
def State.bootRegions (s : State) : State :=
  let rgn (s : State) (i a n flags : Nat) : State := s.setRegN (QN_RGN (256 + i)) (flags + place a 8 + place (a + n - 1) 36)
  let s := ((secureLayout s.free).take 3).zipIdx.foldl (fun s (r, i) => rgn s i r.1 r.2 7) s
  rgn s 3 0 256 1

/-- Where the survivor area lies: any unit outside the staging area and every secure entry (R383). -/
def State.survivorUnit (s : State) : Nat :=
  let used := (List.range 3).map fun i => s.regN (QN_RGN (256 + i))
  let apart (u : Nat) : Bool := decide (256 ≤ u) && decide (u < hbmSize / 0x10000)
    && used.all fun e => decide (u < bits e 35 8) || decide (bits e 63 36 < u)
  let cands := Config.secureUnit 5 s.free :: 256 :: used.map fun e => bits e 63 36 + 1
  (cands.find? apart).getD 256

/-- QUOIN_BOOT: the scan ends, Quoin makes its first fetch and reads the records; the Footing domains are released
(R315, R361). -/
def execQuoinBoot (s : State) : Out := live s fun s =>
  if s.fw.booted then s
  else
    let s := (s.plServe 0).plChoose
    let s := match s.cfgRec with
      | some r => s.plTake r
      | none => s
    let s := (s.bootRegions.newKey 16).tick
    { s with fw := { s.fw with booted := true } }

end Sys2Proof.Machine
end

