-- ==== Sys2Proof/Machine/Bed.lean ====
section
/-! DEFINITION. The Bed (R76 to R96): the arbitration of a bank and its conflicts, ECC and poison, spare banks, troughs. -/

namespace Sys2Proof.Machine

/-! Requesters. -/

/-- Class and instance of a place in the rotation of R81. -/
def bedRequester (p : Nat) : Blk × Nat :=
  if p < 34 then (.ae, p) else if p < 52 then (.ce, p - 34) else if p < 61 then (.ve, p - 52)
  else if p < 66 then (.le, p - 61) else if p < 92 then (.he, p - 66) else if p = 92 then (.qc, 0)
  else if p < 101 then (.dp, p - 93) else (.kc, p - 101)

/-- The place of the copy of R87. -/
def bedCopy : Nat := 113

/-! Banks. -/

/-- Physical bank of a mapped bank that nothing replaces (R77), and of the spare of group g. -/
def bankHome (m : Nat) : Nat := 136 * (m / 128) + 17 * (m / 16 % 8) + m % 16
def bankSpare (g : Nat) : Nat := 17 * g + 16

/-- Whether the spare of group g replaces mapped bank m, its copy done. -/
def State.remaps (s : State) (g m : Nat) : Bool :=
  s.regBit (BED_REMAP g) 0 && !s.regBit (BED_REMAP g) 1 && decide (s.field (BED_REMAP g) 11 2 = m)

/-- The physical bank that serves a mapped bank. -/
def State.bankOf (s : State) (m : Nat) : Nat :=
  match (List.range 64).find? fun g => s.remaps g m with
  | some g => bankSpare g
  | none => bankHome m

/-- The mapped bank that a physical bank serves, none for a free spare or a bank out of service. -/
def State.bankServes (s : State) (p : Nat) : Option Nat :=
  (if p % 17 = 16 then (if s.regBit (BED_REMAP (p / 17)) 0 && !s.regBit (BED_REMAP (p / 17)) 1 then
      some (s.field (BED_REMAP (p / 17)) 11 2) else none)
    else some (128 * (p / 136) + 16 * (p / 17 % 8) + p % 17)).bind fun m => if s.bankOf m = p then some m else none

/-- Whether the spare of group g is free. -/
def State.spareFree (s : State) (g : Nat) : Bool :=
  !s.regBit (BED_REMAP g) 0 && !s.bankOut.contains (bankSpare g)

/-- The spare a retired bank takes (R86): its own group's, the lowest group of its course, then the nearest course, the
inner first. -/
def State.bankPick (s : State) (p : Nat) : Option Nat :=
  let g := p / 17
  let c := p / 136
  let course (k : Nat) : List Nat := (List.range 8).map fun i => 8 * k + i
  let others := (List.range 7).flatMap fun d =>
    (if d + 1 ≤ c then course (c - (d + 1)) else []) ++ (if c + d + 1 < 8 then course (c + d + 1) else [])
  (g :: course c ++ others).find? s.spareFree

/-- The copy of mapped bank m to the spare chosen for physical bank p starts (R86, R87); with no spare free the bank stays in
service (R88; assumption 59). -/
def State.bankCopy (s : State) (p m : Nat) : State :=
  match s.bankPick p with
  | some g => s.setRegN (BED_REMAP g) (3 + place m 2)
  | none => { s with winHit := insertNat p s.winHit }

/-- The mapped bank whose lines are being copied into a physical bank. -/
def State.bankFills (s : State) (p : Nat) : Option Nat :=
  if p % 17 = 16 ∧ s.regBit (BED_REMAP (p / 17)) 1 = true then some (s.field (BED_REMAP (p / 17)) 11 2) else none

/-- A spare leaves the pool: its event, with no spare named, and a new record (R424, R428). -/
def State.spareOut (s : State) (p : Nat) : State :=
  let s := { s with bankOut := insertNat p s.bankOut, spareBad := s.spareBad.filter fun l => l / 3072 != p }
  ((s.setRegN (BED_REMAP (p / 17)) 0).unitRetired .bed 0 p 0xFF).record

/-- Retire a bank: the copy to a free spare starts (R86, R87), or the bank stays in service (R88). A free spare leaves the
pool, and a spare that retires during its copy is replaced by the next free one (R424). -/
def State.bankRetire (s : State) (p : Nat) : State :=
  match s.bankServes p with
  | none =>
    match s.bankFills p with
    | some m => (s.spareOut p).bankCopy (s.bankOf m) m
    | none => if p % 17 = 16 ∧ s.spareFree (p / 17) = true then s.spareOut p else s
  | some m =>
    let busy := (List.range 64).any fun g => s.regBit (BED_REMAP g) 1 && decide (s.field (BED_REMAP g) 11 2 = m)
    if busy then s else s.bankCopy p m

/-- Corrected-error count of a physical bank (BED_CEC). -/
def State.bankCount (s : State) (p : Nat) : Nat :=
  if p % 2 = 0 then s.field (BED_CEC (p / 2)) 15 0 else s.field (BED_CEC (p / 2)) 31 16

/-- Count one corrected error of a physical bank; at BED_CE_THRESH it is retired (R84, R86, R420). -/
def State.bankCorrected (s : State) (p : Nat) : State :=
  let n := min 0xFFFF (s.bankCount p + 1)
  let s := if p % 2 = 0 then s.setField (BED_CEC (p / 2)) 15 0 n else s.setField (BED_CEC (p / 2)) 31 16 n
  let s := s.blkErr .bed 0 0
  if s.field BED_CE_THRESH 15 0 ≤ n then (s.blkErr .bed 0 2).bankRetire p else s

/-- Bed offset of a row of a mapped bank. -/
def bankLine (m row : Nat) : Nat := place row 16 + place m 6

/-- What the check bits of a line say on a read (R84, R85). -/
def State.bedEcc (s : State) (p off : Nat) : Ecc → State
  | .clean => s
  | .single => s.bankCorrected p
  | .double => (s.uncorrectable .bed 0).poisonLine .bed off

/-! Requests (R78, R81 to R85). -/

/-- Serve one request. -/
def State.bedServe (s : State) (p : Nat) (r : BedReq) : State :=
  match r.wr with
  | some (o, bs) => s.writeLine .bed 0 (r.off + o) bs
  | none =>
    let s := s.bedEcc p r.off r.ecc
    if s.poisonAt .bed r.off then
      let s := s.logPoison .bed r.off
      match r.flight with
      | some id => s.endEarly id stPoisoned .bed r.off
      | none => s
    else s

/-- One conflict event on a deferred request (R82, R83). The log takes one made for no descriptor with tenant 0xFF
(assumption 32). -/
def State.bedConflict (s : State) (p : Nat) (r : BedReq) : State :=
  let (b, i) := bedRequester r.port
  let f := r.flight.bind s.flight
  let strict := f.isSome && (s.regBit BED_MODE 0 || f.any fun f => bit f.desc.toNat 25)
  let t := match f with | some f => f.tenant | none => 0xFF
  let s := s.count BED_CONFLICT_CNT 1
  let s := s.setRegN BED_CONFLICT_LOG (p + place (flag strict) 11 + place (bits r.off 27 16) 16 + place (classCode b) 32
    + place i 48 + place t 56)
  match f with
  | none => s
  | some f =>
    let s := s.putFlight { f.addCode stBedConflict 0 with warn := f.warn + 1 }
    if strict ∧ !f.strict then s.endEarly f.id stProtection .bed r.off else s

/-- Arbiter pointer of a physical bank (R81). -/
def State.bedPointer (s : State) (p : Nat) : Nat := smapGet (fun _ => 0) s.bedPtr p

/-- The request first in the rotation from the pointer on. -/
def firstFrom (ptr : Nat) (rs : List BedReq) : Option BedReq :=
  let d (r : BedReq) : Nat := (r.port + 114 - ptr) % 114
  rs.foldl (fun acc r => match acc with | none => some r | some a => if d r < d a then some r else some a) none

/-- BED_REQUEST: one cycle of a bank's arbiter over the requests deferred to it and those that arrive: one is served, the
others are deferred, each a conflict event unless the copy of R87 was served. A Bed that drains takes no new request (R435). -/
def execBedRequest (bank : Fin 1024) (reqs : List BedReq) (s : State) : Out := live s fun s =>
  let m := bank.val
  let mine := ((s.bedDefer.filter fun d => decide (d.1 = m)).map Prod.snd)
    ++ (if s.regBit (BLK_CTL .bed 0) 1 then [] else reqs).filter fun r => decide (bits r.off 15 6 = m)
  let p := s.bankOf m
  match firstFrom (s.bedPointer p) mine with
  | none => s
  | some r =>
    let rest := mine.erase r
    let s := { s with
      bedDefer := (s.bedDefer.filter fun d => d.1 != m) ++ rest.map fun r => (m, r)
      bedPtr := smapSet (fun _ => 0) s.bedPtr p ((r.port + 1) % 114) }
    let s := if r.port = bedCopy then s else s.bedServe p r
    if r.port = bedCopy then s
    else rest.foldl (fun s r => if r.port = bedCopy then s else s.bedConflict p r) s

/-- What the scrubber finds in a line of a bank that serves no mapped bank: counted in the same way, and poisoned where the
bank is being filled by a copy (R84, R87). -/
def State.spareEcc (s : State) (p row : Nat) : Ecc → State
  | .clean => s
  | .single => s.bankCorrected p
  | .double =>
    let s := s.uncorrectable .bed 0
    if (s.bankFills p).isSome then { s with spareBad := insertNat (3072 * p + row) s.spareBad } else s

/-- BED_PATROL_SCRUB: where the scrubber is enabled, what it finds in each line it reads (R84, R85). -/
def execBedPatrolScrub (found : List (Fin 1088 × Fin 3072 × Ecc)) (s : State) : Out := live s fun s =>
  if s.regBit BED_MODE 1 then
    found.foldl (fun s (p, row, e) =>
      match s.bankServes p with
      | some m => s.bedEcc p (bankLine m row.val) e
      | none => s.spareEcc p row.val e) s
  else s

/-- Poison the lines found bad in the spare that takes over a mapped bank. A line found so before the copy or a full write
reached it is clean; the model leaves open which (R85, R87). -/
def State.spareLines (s : State) (p m : Nat) : State :=
  let n := s.free
  let bad := s.spareBad.filter fun l => decide (l / 3072 = p)
  let s := { s with spareBad := s.spareBad.filter fun l => l / 3072 != p }
  if bad.isEmpty then s
  else bad.foldl (fun s l => if Config.freeBit n (l % 3072) then s.poisonLine .bed (bankLine m (l % 3072)) else s) s.tick

/-- SPARE_BANK_COPY_DONE: the mapping switches to the spare (R87); the event and a new record follow (R428; assumption 59). -/
def execSpareBankCopyDone (g : Fin 64) (s : State) : Out := live s fun s =>
  if s.regBit (BED_REMAP g) 1 then
    let m := s.field (BED_REMAP g) 11 2
    let old := s.bankOf m
    let s := if old % 17 = 16 then s.setRegN (BED_REMAP (old / 17)) 0 else s
    let s := { s with bankOut := insertNat old s.bankOut }
    let s := (s.setRegN (BED_REMAP g) (1 + place m 2)).spareLines (bankSpare g) m
    (s.unitRetired .bed 0 old (bankSpare g)).record
  else s

/-! Troughs (R89 to R96). -/

/-- The use of a trough that a flight waits for: its next record to produce there, or one it still lacks. -/
def Flight.waitsAt (f : Flight) (n : Nat) : Option TrUse :=
  f.uses.find? fun u => decide (u.n = n) &&
    if u.out then decide (f.phase = .running) && (f.outRec.head?.map Prod.fst) == some n
    else decide (f.phase = .dispatched) && f.started && f.lacks u

/-- End a flight that waits at a trough: DETAIL is the slot it waits for (R94). -/
def State.troughEnd (s : State) (f : Flight) (u : TrUse) (code : Nat) : State :=
  (s.putFlight { f.endWith code (gaOf s.chip spBed u.slot) with outRec := [] }).waited f

/-- End each descriptor that waits on a trough whose enable is cleared (R94). -/
def State.troughAbort (s : State) (n : Nat) : State :=
  let ids := (s.flights.filter fun f => (f.waitsAt n).isSome).map Flight.id
  let s := if ids.isEmpty then s else s.setBit (BED_TR_STAT n) 4 true
  ids.foldl (fun s id => s.onFlight id fun f s =>
    match f.waitsAt n with
    | some u => s.troughEnd f u stProtection
    | none => s) s

/-- Whether a value of BED_TRn_CFG may set enable (R96). -/
def State.troughOk (s : State) (n v : Nat) : Bool :=
  let lines := bits v 15 8
  decide (bits v 4 1 ≤ 12) && decide (lines ≠ 0)
    && decide (place (s.field (BED_TR_BASE n) 27 6) 6 + 2 ^ bits v 4 1 * lines * 64 ≤ bedSize)

/-- Store BED_TRn_CFG and set both marks to zero where the trough becomes enabled (R90). -/
def State.troughOn (s : State) (n v : Nat) : State :=
  ((s.setRegN (BED_TR_CFG n) v).setMark (troughTail n) 0).setMark (troughHead n) 0

end Sys2Proof.Machine
end

