-- ==== Sys2Proof/Machine/Grout.lean ====
section
/-! DEFINITION. Grout: the fixed-rate block compressor of the Dziura ports (R343 to R347). -/

namespace Sys2Proof.Machine

/-- A compressed class's element format and ratio. -/
structure Grout where
  f32  : Bool               -- FP32, else BF16
  four : Bool               -- 4:1, else 2:1
deriving DecidableEq, Repr

/-- Bytes of an uncompressed block of 64 elements. -/
def Grout.block (g : Grout) : Nat := if g.f32 then 256 else 128
/-- Bytes of a compressed block. -/
def Grout.packed (g : Grout) : Nat := g.block / (if g.four then 4 else 2)
/-- Element bits b (Table 13.5). -/
def Grout.b (g : Grout) : Nat := if g.f32 then (if g.four then 7 else 15) else (if g.four then 3 else 7)
/-- Put bytes that one compressed frame covers (R329). -/
def Grout.covers (g : Grout) : Nat := if g.four then 16384 else 8192
/-- The element format. -/
def Grout.fmt (g : Grout) : Fmt := if g.f32 then fp32 else bf16

/-- CHECK of a block's bits above it (R345 step 6). -/
def Grout.check (g : Grout) (v : Nat) : Nat := crcBits 6 3 (bitsDown (8 * g.packed - 6) (v / 64))

/-- e(x) of R345 step 1. -/
def Grout.exp (g : Grout) (v : Nat) : Nat :=
  let e := bits v (g.fmt.mbits + 7) g.fmt.mbits
  if e ≠ 0 then e else flag (decide (v % 2 ^ g.fmt.mbits ≠ 0))

/-- Encode one block of 64 element codes (R345). -/
def Grout.encode (g : Grout) (vs : List Nat) : Bytes :=
  let q := g.b - 1
  let v :=
    if vs.any fun v => g.exp v = 255 then place 0xFF 6
    else
      let e := (vs.map g.exp).foldl max 0
      let ds := (chunks 16 vs).map fun sub => min 7 (e - (sub.map g.exp).foldl max 0)
      let elem (i v : Nat) : Nat :=
        let es : Int := (e : Int) - (ds.getD (i / 16) 0 : Nat)
        let m := (((g.fmt.decode v).abs.scale (127 + (q - 1 : Nat) - es)).toIntClip 0 (2 ^ q - 1 : Nat)).toNat
        place (v / 2 ^ (g.fmt.mbits + 8)) q + m
      place e 6 + (ds.zipIdx.map fun (d, i) => place d (14 + 3 * i)).foldl (· + ·) 0
        + (vs.zipIdx.map fun (v, i) => place (elem i v) (26 + g.b * i)).foldl (· + ·) 0
  leBytes g.packed (v + g.check v)

/-- Whether a compressed block's CHECK is correct. -/
def Grout.good (g : Grout) (b : Bytes) : Bool := decide (leNat b % 64 = g.check (leNat b))

/-- Decode one block (R346). -/
def Grout.decode (g : Grout) (b : Bytes) : List Nat :=
  let v := leNat b
  let q := g.b - 1
  let e := bits v 13 6
  (List.range 64).map fun i =>
    if e = 0xFF then g.fmt.encode .nan
    else
      let el := bits v (26 + g.b * i + q) (26 + g.b * i)
      let es : Int := (e : Int) - (bits v (16 + 3 * (i / 16)) (14 + 3 * (i / 16)) : Nat)
      g.fmt.encode (.fin (bit el q) (el % 2 ^ q) (es - 127 - (q - 1 : Nat)))

/-- Compress whole blocks of bytes. -/
def Grout.pack (g : Grout) (bs : Bytes) : Bytes :=
  let n := g.block / 64
  (chunks g.block bs).flatMap fun b => g.encode ((chunks n b).map leNat)

/-- Expand compressed blocks. -/
def Grout.unpack (g : Grout) (bs : Bytes) : Bytes :=
  (chunks g.packed bs).flatMap fun b => (g.decode b).flatMap (leBytes (g.block / 64))

end Sys2Proof.Machine
end

