-- ==== Sys2Proof/Machine/Memop.lean ====
section
/-! DEFINITION. The memory operations of Table 2.3 on the Bed, HBM and mark spaces, as a local unit or a Dziura port
applies them for a tenant (R41 to R48, R53, R464). -/

namespace Sys2Proof.Machine

/-- Outcome of a memory operation: the state, and its value or (status, offset of the failure). -/
abbrev MemOut (α : Type) := State × Except (Nat × Nat) α

/-- Bytes of mark space. -/
def markSpace : Nat := 0x80000

/-- Check an operation on `n` bytes of mark space (R41, R464, R43): the absolute number of its first mark. -/
def State.markRange (s : State) (t off n : Nat) (whole : Bool) : Except (Nat × Nat) Nat :=
  if markSpace ≤ off ∨ markSpace < off + n ∨ !whole then .error (stTranslation, off)
  else if off % 8 ≠ 0 then .error (stProtection, off)
  else
    let count := s.field (MK_WIN t) 31 16
    if off / 8 + n / 8 ≤ count then .ok (s.field (MK_WIN t) 15 0 + off / 8)
    else .error (stProtection, max off (8 * count))

/-- Read `n` bytes of a space for a tenant. -/
def State.memGet (s : State) (t space off n : Nat) : MemOut Bytes :=
  match tierOf space with
  | some tier => s.readFor (.tenant t) tier off n
  | none =>
    if space = spMark then
      match s.markRange t off n (decide (n % 8 = 0)) with
      | .error e => (s, .error e)
      | .ok m => (s, .ok ((List.range (n / 8)).flatMap fun i => leBytes 8 (s.mark (m + i)).toNat))
    else (s, .error (stTranslation, off))

/-- Write bytes to a space for a tenant; `who` stands at a mark's arbiter (R75). -/
def State.memPut (s : State) (t who space off : Nat) (bs : Bytes) : MemOut Unit :=
  match tierOf space with
  | some tier => s.writeFor (.tenant t) tier off bs
  | none =>
    if space = spMark then
      match s.markRange t off bs.length (decide (bs.length = 8)) with
      | .error e => (s, .error e)
      | .ok m => ((s.markServed m who).setMark m (BitVec.ofNat 64 (leNat bs)), .ok ())
    else (s, .error (stTranslation, off))

/-- The functions of R47, by OP code of class 0x7, on the word and the two operands. -/
def atomicFn (opc : Nat) (w a b : DWord) : DWord :=
  if opc = 0x10 then w + a
  else if opc = 0x11 then a
  else if opc = 0x12 then (if w = a then b else w)
  else if opc = 0x13 then (if w < a then a else w)
  else if opc = 0x14 then (if a < w then a else w)
  else if opc = 0x15 then w &&& a
  else if opc = 0x16 then w ||| a
  else w ^^^ a

/-- Apply an atomic: the old value (R47). Translation is checked before the alignment, and the alignment before the other
checks of R42. -/
def State.memAtomic (s : State) (t who space off opc : Nat) (a b : DWord) : MemOut DWord :=
  match tierOf space with
  | some tier =>
    match s.checkAt (.tenant t) tier off 8 true with
    | .error c =>
      (s, .error (if c ≠ stTranslation ∧ off % 8 ≠ 0 then stProtection else c, off))
    | .ok _ =>
      if off % 8 ≠ 0 then (s, .error (stProtection, off))
      else
        match s.readFor (.tenant t) tier off 8 with
        | (s, .error e) => (s, .error e)
        | (s, .ok bs) =>
          let w := BitVec.ofNat 64 (leNat bs)
          match s.writeFor (.tenant t) tier off (leBytes 8 (atomicFn opc w a b).toNat) with
          | (s, .error e) => (s, .error e)
          | (s, .ok _) => (s, .ok w)
  | none =>
    if space = spMark then
      match s.markRange t off 8 true with
      | .error e => (s, .error e)
      | .ok m => ((s.markServed m who).setMark m (atomicFn opc (s.mark m) a b), .ok (s.mark m))
    else (s, .error (stTranslation, off))

/-- Apply a signal to a tenant's mark; `remote` where a Dziura port applies it. -/
def State.memSignal (s : State) (t space off inc : Nat) (remote : Bool) : MemOut Unit :=
  if space ≠ spMark then (s, .error (stTranslation, off))
  else
    match s.markRange t off 8 true with
    | .error e => (s, .error e)
    | .ok m => (s.signalMark m inc remote, .ok ())

end Sys2Proof.Machine
end

