-- ==== Sys2Proof/Machine/Fabric.lean ====
section
/-! DEFINITION. The Dziura fabric ports: frames and their sealing (R327, R328, R341), connections, retransmission and
resynchronisation (R330 to R335), remote operations (R326, R329), flow control (R338, R339), links (R324, R326, R451). -/

namespace Sys2Proof.Machine

/-! Frames. -/

/-- MAC address of a port of a chip (R325), in wire order. -/
def State.macOf (s : State) (chip port : Nat) : Bytes :=
  let p := s.field DP_MAC_PFX 23 0
  [bits p 23 16, bits p 15 8, bits p 7 0, bits chip 11 8, bits chip 7 0, port].map (BitVec.ofNat 8)

/-- AES-256 key of eight registers, lowest word first. -/
def State.keyRegs (s : State) (reg : Nat → Nat) : Bytes := (List.range 8).flatMap fun i => leBytes 4 (s.regN (reg i))

/-- GCM key of a tenant, and the fabric key. -/
def State.dpKey (s : State) (t : Nat) : Bytes := s.keyRegs fun i => DP_KEY (8 * t + i)
def State.fabricKey (s : State) : Bytes := s.keyRegs DP_FKEY

/-- The 96-bit IV of R341, its highest bits first (assumption 18, PRESUMED). -/
def gcmIv (src dst plane tc : Nat) (control : Bool) (epoch : Word) (psn : Nat) : Bytes :=
  beBytes 12 (place src 84 + place dst 72 + place plane 68 + place tc 65 + place (flag control) 64
    + place epoch.toNat 32 + place psn 8)

/-- Frame types of Table 13.3. -/
def ftRequest : Nat := 1
def ftResponse : Nat := 2
def ftAck : Nat := 3
def ftNak : Nat := 4
def ftResync : Nat := 5
def ftResyncAck : Nat := 6

/-- The Dziura header (Table 13.3). -/
def Frame.header (f : Frame) : Bytes :=
  leBytes 1 (1 + place f.type 4) ++ leBytes 1 f.flags ++ leBytes 2 (f.src + place f.port 12) ++ leBytes 2 f.dst
    ++ leBytes 2 f.ftid ++ leBytes 4 f.psn ++ leBytes 4 (f.ack + place (flag f.ackV) 31) ++ leBytes 2 f.opid
    ++ leBytes 1 f.opc ++ leBytes 1 f.reason ++ leBytes 4 f.len ++ leBytes 8 f.addr.toNat ++ leBytes 2 f.explen
    ++ leBytes 2 f.status.toNat ++ leBytes 4 0

/-- Whether a frame is a control frame (R341). -/
def Frame.control (f : Frame) : Bool := decide (3 ≤ f.type)

/-- Lay a frame out with its tag and FCS (Table 13.2); `key` where it is sealed. -/
def State.seal (s : State) (f : Frame) (epoch : Word) (key : Option Bytes) : Bytes :=
  let tci := place f.tc 13 + s.field DP_VID 11 0
  let head := s.macOf f.dst f.port ++ s.macOf f.src f.port ++ beBytes 2 0x8100 ++ beBytes 2 tci
    ++ beBytes 2 (s.field DP_ETYPE 15 0) ++ f.header
  let body := match key with
    | none => head ++ f.payload
    | some k =>
      let iv := gcmIv f.src f.dst f.port f.tc f.control epoch f.psn
      let ct := gcmCrypt k iv f.payload
      head ++ ct ++ gcmTag k iv head ct
  body ++ leBytes 4 (crc32 body)

/-- A frame with every field zero but its place and ends. -/
def State.blankFrame (s : State) (port tc peer : Nat) : Frame where
  port := port
  tc := tc
  type := 0
  flags := 0
  src := s.chip
  dst := peer
  ftid := 0
  psn := 0
  ack := 0
  ackV := false
  opid := 0
  opc := 0
  reason := 0
  len := 0
  addr := 0
  explen := 0
  status := 0
  payload := []
  wire := 0

/-- Whether a port can send: its link is up, and the chip has a valid ID (R324). -/
def State.speaks (s : State) (p : Nat) : Bool := s.regBit (DP_STATUS p) 0 && s.regBit DP_CHIP_ID 31

/-- Send octets from a port that can: the newest frame stands first in the list of sent frames. -/
def State.send (s : State) (port : Nat) (bs : Bytes) : State :=
  if s.speaks port then { s with tx := (port, bs) :: s.tx } else s

/-- Send a Dziura frame and count it. -/
def State.sendDziura (s : State) (port : Nat) (bs : Bytes) : State :=
  if s.speaks port then (s.send port bs).count (DP_TX_FRAMES port) 1 else s

/-! Links. -/

/-- DP_STATUS.link. -/
def State.link (s : State) (p : Nat) : Bool := s.regBit (DP_STATUS p) 0

/-- Whether class k is paused by the peer at port p (R339). -/
def State.paused (s : State) (p k : Nat) : Bool := s.pausedBy.contains (p, k)

/-- The plane of an operation: the first in service in the order of R326. -/
def State.plane (s : State) (chip u : Nat) : Option Nat := ((List.range 8).map fun i => (chip + u + i) % 8).find? s.link

/-! Connections. -/

def Conn.at (c : Conn) (port tc peer : Nat) : Bool := decide (c.port = port) && decide (c.tc = tc) && decide (c.peer = peer)
def RConn.at (c : RConn) (port tc peer : Nat) : Bool := decide (c.port = port) && decide (c.tc = tc) && decide (c.peer = peer)

/-- A sender's context: its first epoch is drawn when it is first used after its port was enabled (R334). -/
def State.connOf (s : State) (port tc peer : Nat) : State × Conn :=
  match s.conn.find? (·.at port tc peer) with
  | some c => (s, c)
  | none =>
    let c : Conn := { port := port, tc := tc, peer := peer, psn := 0, epoch := BitVec.ofNat 32 (Config.freeNat s.free),
                      ctl := 0, resync := false, queue := [], unacked := [], nak := none, rsDue := false }
    ({ s.tick with conn := s.conn ++ [c] }, c)

/-- Replace a sender's context. -/
def State.putConn (s : State) (c : Conn) : State :=
  { s with conn := s.conn.map fun d => if d.at c.port c.tc c.peer then c else d }

/-- A receiver's context; one that no RESYNC has set up expects PSN 0 (assumption 19). -/
def State.rconnOf (s : State) (port tc peer : Nat) : RConn :=
  (s.rconn.find? (·.at port tc peer)).getD
    { port := port, tc := tc, peer := peer, exp := 0, epoch := Config.firstEpoch port tc peer, ctl := 0, due := [] }

/-- Replace a receiver's context. -/
def State.putRConn (s : State) (c : RConn) : State :=
  { s with rconn := (s.rconn.filter fun d => !d.at c.port c.tc c.peer) ++ [c] }

/-- Bytes in the retransmit buffer of a port (R330). -/
def State.txHeld (s : State) (p : Nat) : Nat :=
  (s.conn.map fun c => if c.port = p then (c.unacked.map fun f => f.bytes.length).foldl (· + ·) 0 else 0).foldl (· + ·) 0

/-- The tenant that holds a fabric tenant ID. -/
def State.ftidTenant (s : State) (ftid : Nat) : Option Nat :=
  (List.range 16).find? fun t => s.regBit (DP_FTID t) 16 && decide (s.field (DP_FTID t) 15 0 = ftid)

/-- The tenant a frame is sent or received for: of a request to send or a response received, the one whose operation it belongs
to; else the one that holds its FTID. -/
def State.frameTenant (s : State) (own : Bool) (f : Frame) : Option Nat :=
  if own then (s.rops.find? fun r => decide (r.opid = f.opid)).map fun r => r.tenant else s.ftidTenant f.ftid

/-- The key that seals a tenant frame, none where its tenant's traffic is in the clear (R341). -/
def State.frameKey (s : State) (f : Frame) : Option Bytes :=
  match s.frameTenant (decide (f.type = ftRequest)) f with
  | some t => if s.regBit (DP_FTID t) 17 then some (s.dpKey t) else none
  | none => none

/-- Transmit one waiting frame: it takes the next PSN (R330). -/
def State.transmit (s : State) (c : Conn) (f : Frame) : State × Conn :=
  let key := s.frameKey f
  let f := { f with psn := c.psn, flags := f.flags + flag key.isSome }
  let bytes := s.seal f c.epoch key
  let req := if f.type = ftRequest then some f.opid else none
  let s := s.sendDziura c.port bytes
  let s := match req with
    | some o => { s with rops := s.rops.map fun r => if r.opid = o then { r with sent := true } else r }
    | none => s
  (s, { c with psn := (c.psn + 1) % 0x1000000
               unacked := c.unacked ++ [{ psn := f.psn, bytes := bytes, req := req, retries := 0, nak2 := false }] })

/-- Whether a port that drains holds back a frame: the request of an operation it has not begun (R435). -/
def State.heldBack (s : State) (p : Nat) (f : Frame) : Bool :=
  s.regBit (BLK_CTL .dp p) 1 && decide (f.type = ftRequest)
    && !s.rops.any fun r => decide (r.opid = f.opid) && r.sent

/-- Octets a waiting frame will have on the wire, at most. -/
def Frame.room (f : Frame) : Nat := 78 + f.payload.length

/-- Send waiting frames while the window, the buffer, the link and the class allow (R330, R334, R339). -/
def State.pumpFuel : Nat → State → Conn → State
  | 0, s, c => s.putConn c
  | n + 1, s, c =>
    match c.queue with
    | [] => s.putConn c
    | f :: rest =>
      if c.resync ∨ s.paused c.port c.tc ∨ !s.speaks c.port ∨ s.heldBack c.port f ∨ 256 ≤ c.unacked.length
          ∨ 0x200000 < (s.putConn c).txHeld c.port + f.room then s.putConn c
      else
        let (s, c) := s.transmit { c with queue := rest } f
        State.pumpFuel n s c

/-- Send what a connection may send. -/
def State.pump (s : State) (c : Conn) : State := State.pumpFuel (c.queue.length + 1) s c

/-- Put frames in a connection's queue and send what may be sent. -/
def State.enqueue (s : State) (port tc peer : Nat) (fs : List Frame) : State :=
  let (s, c) := s.connOf port tc peer
  s.pump { c with queue := c.queue ++ fs }

/-- Send a control frame of a connection (R341): sealed with the fabric key, empty, its PSN the control counter. -/
def State.sendControl (s : State) (f : Frame) (epoch : Word) : State :=
  s.sendDziura f.port (s.seal f epoch (some s.fabricKey))

/-- Send the RESYNC of a connection: the next PSN stands in the ACK field (assumption 20), the epoch in ADDR (R334); a paused class
starts no frame (R339). -/
def State.sendResync (s : State) (c : Conn) : State :=
  if s.paused c.port c.tc then s.putConn { c with rsDue := true }
  else
    let f := { s.blankFrame c.port c.tc c.peer with
               type := ftResync, psn := c.ctl, ack := c.psn, addr := BitVec.ofNat 64 c.epoch.toNat }
    (s.sendControl f c.epoch).putConn { c with ctl := (c.ctl + 1) % 0x1000000, rsDue := false }

/-- Answer a sender with an ACK, NAK or RESYNC_ACK of its connection, acknowledging what has been received in order; while the
class is paused the answer waits (R339). -/
def State.answer (s : State) (c : RConn) (type reason : Nat) : State :=
  if s.paused c.port c.tc then
    s.putRConn { c with due := if c.due.contains (type, reason) then c.due else c.due ++ [(type, reason)] }
  else
    let f := { s.blankFrame c.port c.tc c.peer with
               type := type, psn := c.ctl, reason := reason, ack := (c.exp + 0xFFFFFF) % 0x1000000, ackV := true }
    (s.sendControl f c.epoch).putRConn { c with ctl := (c.ctl + 1) % 0x1000000 }

/-! Remote operations of the requester. -/

/-- End a remote operation with a status: its waiting frames are dropped and its descriptor ends; the destination of a get
that timed out is unknown (R48). -/
def State.endOp (s : State) (opid code detail : Nat) : State :=
  match s.rops.find? fun r => decide (r.opid = opid) with
  | none => s
  | some r =>
    let s := { s with
      rops := s.rops.filter fun x => x.opid != opid
      conn := s.conn.map fun c =>
        { c with queue := c.queue.filter fun f => !(decide (f.type = ftRequest) && decide (f.opid = opid)) } }
    let s := if code = stRemoteTimeout then s.count (DP_TIMEOUT_CNT r.port) 1 else s
    let lost := decide (code = stRemoteTimeout ∨ code = stStreamDamaged) && decide (r.opc = 2)
    let s := if lost then
        (s.tick.memPut r.tenant (portUnit .dp r.port) (gaSpace r.dst.toNat) (gaOff r.dst.toNat) (s.freeBytes r.len)).1
      else s
    match r.flight with
    | none => s
    | some id => s.onFlight id fun f s => s.putFlight (f.endWith code detail)

/-- A connection fails (R333): operations with an unacknowledged frame end, the link event is raised, and the connection
is resynchronised (R334). No link event is raised while the chip ID is not valid (R324). -/
def State.failConn (s : State) (c : Conn) : State :=
  let code := match c.unacked.find? fun f => decide (3 ≤ f.retries) with
    | some f => if f.nak2 then stStreamDamaged else stRemoteTimeout
    | none => stRemoteTimeout
  let ops := s.rops.filter fun r => c.unacked.any fun f => decide (f.req = some r.opid)
  let ev (t n : Nat) : Event :=
    { type := 0x0020, status := code, cls := classCode .dp, inst := c.port, tenant := t,
      arg0 := c.peer + place c.port 12 + place c.tc 16, arg1 := n }
  let s := ops.foldl (fun s r => s.endOp r.opid code 0) s
  let s := if s.regBit DP_CHIP_ID 31 then
      (ops.map fun r => r.tenant).eraseDups.foldl (fun s t =>
        s.event t (ev t (ops.filter fun r => decide (r.tenant = t)).length)) (s.pfEvent (ev 0xFF ops.length))
    else s
  match s.conn.find? (·.at c.port c.tc c.peer) with
  | none => s
  | some c => s.sendResync { c with unacked := [], resync := true, ctl := 0, epoch := c.epoch + 1, nak := none }

/-- Retransmit every unacknowledged frame from the oldest, or fail where one would need a fourth retry (R332, R333). -/
def State.retransmit (s : State) (c : Conn) (nak2 : Bool) : State :=
  let c := { c with unacked := c.unacked.map fun (f : Sent) => { f with nak2 := nak2 } }
  if c.unacked.any fun f => decide (3 ≤ f.retries) then (s.putConn c).failConn c
  else
    let s := if s.speaks c.port then
        c.unacked.foldl (fun (s : State) (f : Sent) => (s.sendDziura c.port f.bytes).count (DP_RETX c.port) 1) s
      else s
    s.putConn { c with nak := none, unacked := c.unacked.map fun (f : Sent) => { f with retries := f.retries + 1 } }

/-- An acknowledgement of a connection's frames up to a PSN (R331). -/
def State.acked (s : State) (port tc peer psn : Nat) : State :=
  match s.conn.find? (·.at port tc peer) with
  | none => s
  | some c =>
    let newer (x : Nat) : Bool := decide (0 < (x + 0x1000000 - psn) % 0x1000000)
      && decide ((x + 0x1000000 - psn) % 0x1000000 < 0x800000)
    s.pump { c with unacked := c.unacked.filter fun f => newer f.psn }

/-- Send what the end of a pause, or a link, lets a connection send: a RESYNC that waits, or the retransmission a NAK asked for, and
then its waiting frames (R332, R339). -/
def State.wake (s : State) (c : Conn) : State :=
  if c.resync then (if c.rsDue then s.sendResync c else s)
  else
    let s := match c.nak with
      | some b => if c.unacked.isEmpty then s.putConn { c with nak := none } else s.retransmit c b
      | none => s
    match s.conn.find? (·.at c.port c.tc c.peer) with
    | some c => s.pump c
    | none => s

/-- Send what every connection of a port and class may send: the answers that wait, then the rest. -/
def State.pumpAll (s : State) (p k : Nat) : State :=
  let s := (s.rconn.filter fun c => decide (c.port = p ∧ c.tc = k)).foldl (fun (s : State) c =>
    c.due.foldl (fun (s : State) d => s.answer { s.rconnOf p k c.peer with due := [] } d.1 d.2) s) s
  (s.conn.filter fun c => decide (c.port = p ∧ c.tc = k)).foldl (fun (s : State) c =>
    match s.conn.find? (·.at p k c.peer) with
    | some c => s.wake c
    | none => s) s

/-- Fabric tenant ID of a tenant. -/
def State.ftidOf (s : State) (t : Nat) : Nat := s.field (DP_FTID t) 15 0

/-- A request frame of an operation, before its number. -/
structure ReqFrame where
  flags   : Nat
  len     : Nat
  addr    : Nat
  payload : Bytes
deriving DecidableEq, Repr

/-- The request frames of a put (R329, R343); with both Grout units of the port off it goes uncompressed (R422). -/
def State.putFrames (s : State) (port tc addr : Nat) (data : Bytes) : List ReqFrame :=
  let cfg := s.regN (DP_TC_CFG tc)
  let plain (a : Nat) (bs : Bytes) : List ReqFrame :=
    (chunks 4096 bs).zipIdx.map fun (b, i) => { flags := 0, len := b.length, addr := a + 4096 * i, payload := b }
  if bit cfg 0 ∧ !(s.groutOff.contains (port, 0) && s.groutOff.contains (port, 1)) then
    let g : Grout := { f32 := bit cfg 2, four := bit cfg 1 }
    let lb := data.length / g.block * g.block
    let whole := (chunks g.covers (data.take lb)).zipIdx.map fun (b, i) =>
      ({ flags := 2 + place (flag g.four) 2 + place (flag g.f32) 3, len := b.length, addr := addr + g.covers * i,
         payload := g.pack b } : ReqFrame)
    whole ++ plain (addr + lb) (data.drop lb)
  else plain addr data

/-- The Grout unit that takes the next put at a port: the two alternate, and a unit in service takes every put of one that is off
(R348, R422). -/
def State.groutUnit (s : State) (p : Nat) : Nat :=
  let u := smapGet (fun _ => 0) s.groutNext p
  if s.groutOff.contains (p, u) then 1 - u else u

/-- Bytes of uncompressed input that wait at a Grout unit: of puts whose frames are still to be sent, at most the 256 KiB its queue
holds, the mover keeping the rest (R348). -/
def State.groutQueue (s : State) (p u : Nat) : Nat :=
  let mine (f : Frame) : Bool := bit f.flags 1 && s.rops.any fun r => decide (r.opid = f.opid) && decide (r.grout = some u)
  min 0x40000 (((s.conn.filter fun c => decide (c.port = p)).flatMap fun c =>
    (c.queue.filter fun f => decide (f.type = ftRequest) && mine f).map fun f => f.len).foldl (· + ·) 0)

/-- Start a remote operation (R324, R326, R329): the state, and the status where it ends at once. -/
def State.remoteOp (s : State) (flight : Option Nat) (t tc u opc dst ldst len : Nat) (reqsAt : Nat → List ReqFrame) :
    State × Option Nat :=
  let chip := gaChip dst
  if !s.regBit DP_CHIP_ID 31 then (s, some stRemoteTimeout)
  else
    match s.plane chip u with
    | none => (s, some stRemoteTimeout)
    | some p =>
      let opid := s.nextOpid % 0x10000
      let reqs := reqsAt p
      let packed := reqs.any fun r => bit r.flags 1
      let op : ROp := { opid := opid, flight := flight, tenant := t, port := p, tc := tc, peer := chip, opc := opc,
                        dst := BitVec.ofNat 64 ldst, len := len, got := 0, sent := false,
                        grout := if packed then some (s.groutUnit p) else none }
      let n := reqs.length
      let frames := reqs.zipIdx.map fun (r, i) =>
        { s.blankFrame p tc chip with
          type := ftRequest, flags := r.flags + place (flag (decide (i + 1 = n))) 4, ftid := s.ftidOf t, opid := opid,
          opc := opc, len := r.len, addr := BitVec.ofNat 64 r.addr, explen := r.payload.length, payload := r.payload }
      let s := { s with rops := s.rops ++ [op], nextOpid := s.nextOpid + 1 }
      let s := if packed then { s with groutNext := smapSet (fun _ => 0) s.groutNext p (1 - s.groutUnit p) } else s
      (s.enqueue p tc chip frames, none)

/-- Apply one signal slot of a tenant (R53, R59): the local mark, or the mark on its chip. -/
def State.signalSlot (s : State) (t tc u slot : Nat) : State :=
  let chip := bits slot 63 52
  let rel := bits slot 15 0
  let inc := bits slot 47 16
  if bit slot 49 ∧ chip ≠ s.chip then
    let a := place spMark 48 + 8 * rel
    (s.remoteOp none t tc u 0x20 (place chip 52 + a) 0 8 fun _ => [{ flags := 0, len := 8, addr := a, payload := leBytes 8 inc }]).1
  else
    match s.markOf t rel with
    | some m => s.signalMark m inc false
    | none => s

/-! Receiving. -/

/-- Buffer of a port and what its accepted frames hold (R338). -/
def rxBuffer : Nat := 0x80000
def State.rxFree (s : State) (p : Nat) : Nat :=
  rxBuffer - (s.rxq.map fun f => if f.port = p then f.wire else 0).foldl (· + ·) 0

/-- The PFC frame of a port for one class: 802.1Qbb over MAC control. -/
def State.pfcFrame (s : State) (p k quanta : Nat) : Bytes :=
  let body := [0x01, 0x80, 0xC2, 0x00, 0x00, 0x01].map (BitVec.ofNat 8) ++ s.macOf s.chip p ++ beBytes 2 0x8808 ++ beBytes 2 0x0101
    ++ beBytes 2 (2 ^ k) ++ (List.range 8).flatMap (fun i => beBytes 2 (if i = k then quanta else 0))
    ++ List.replicate 26 0
  body ++ leBytes 4 (crc32 body)

/-- Show the classes a port pauses in DP_STATUS[23:16]. -/
def State.showPausing (s : State) (p : Nat) : State :=
  s.setField (DP_STATUS p) 23 16 (((List.range 8).map fun k => if s.pausing.contains (p, k) then 2 ^ k else 0).foldl (· + ·) 0)

/-- Start or end the pauses of a port as its free space asks (R338). -/
def State.pauseUpdate (s : State) (p : Nat) : State :=
  let free := s.rxFree p
  let holds (k : Nat) : Bool := s.rxq.any fun f => decide (f.port = p) && decide (f.tc = k)
  let s := if free < s.regN (DP_PFC_XOFF p) then
      (List.range 8).foldl (fun (s : State) k =>
        if holds k ∧ !s.pausing.contains (p, k) then
          { s.send p (s.pfcFrame p k 0xFFFF) with pausing := s.pausing ++ [(p, k)] }
        else s) s
    else if s.regN (DP_PFC_XON p) < free then
      (List.range 8).foldl (fun (s : State) k =>
        if s.pausing.contains (p, k) then
          { s.send p (s.pfcFrame p k 0) with pausing := s.pausing.filter fun x => x != (p, k) }
        else s) s
    else s
  s.showPausing p

/-- Parse the Dziura part of a tagged frame: octets 14 on, without the FCS. -/
def parseFrame (p : Nat) (bs : Bytes) : Frame :=
  let h := bs.drop 18
  let fl := pfield h 1 1
  let tagged := bit fl 0 || decide (3 ≤ bits (pfield h 0 1) 7 4)
  let body := bs.drop 58
  { port := p, tc := beNat ((bs.drop 14).take 2) / 2 ^ 13, type := bits (pfield h 0 1) 7 4, flags := fl,
    src := bits (pfield h 2 2) 11 0, dst := bits (pfield h 4 2) 11 0, ftid := pfield h 6 2,
    psn := bits (pfield h 8 4) 23 0, ack := bits (pfield h 0xC 4) 23 0, ackV := bit (pfield h 0xC 4) 31,
    opid := pfield h 0x10 2, opc := pfield h 0x12 1, reason := pfield h 0x13 1, len := bits (pfield h 0x14 4) 24 0,
    addr := BitVec.ofNat 64 (pfield h 0x18 8), explen := pfield h 0x20 2,
    status := BitVec.ofNat 16 (pfield h 0x22 2),
    payload := if tagged then body.take (body.length - 16) else body, wire := bs.length + 4 }

/-- Whether a code is one of Table 0.4. -/
def statusKnown (c : Nat) : Bool :=
  [stOk, stBedConflict, stTranslation, stProtection, stWorld, stIndexRange, stPageExhausted, stPrefixFull, stPoisoned, stShardLost,
   stDigestMismatch, stRemoteTimeout, stTenantGone, stStreamDamaged, stQuota, stEngineRetired, stKeyRetired, stHostAbsent,
   stStop].contains c

/-- Whether the header breaks R328: a version other than 1, a reserved type, or a reserved bit set. A response whose STATUS is no
code of Table 0.4 counts among them (assumption 38). -/
def headerBad (bs : Bytes) : Bool :=
  let h := bs.drop 18
  let type := bits (pfield h 0 1) 7 4
  decide (bs.length < 58) || decide (bits (pfield h 0 1) 3 0 ≠ 1) || decide (type < 1) || decide (6 < type)
    || decide (bits (pfield h 1 1) 7 5 ≠ 0) || decide (bits (pfield h 4 2) 15 12 ≠ 0)
    || decide (bits (pfield h 8 4) 31 24 ≠ 0) || decide (bits (pfield h 0xC 4) 30 24 ≠ 0)
    || decide (bits (pfield h 0x14 4) 31 25 ≠ 0) || decide (bits (pfield h 0x18 8) 63 52 ≠ 0)
    || decide (pfield h 0x24 4 ≠ 0) || (decide (type = 2) && !statusKnown (pfield h 0x22 2))

/-- What a received frame is found to be. -/
inductive Heard where
  | unseen                    -- the MAC never passes it on, or discards it: a link down, a bad FCS, a global pause
  | foreign
  | damaged
  | forged
  | pfc (enable : Nat) (quanta : List Nat)
  | frame (f : Frame)
deriving DecidableEq, Repr

/-- Read the octets of a received frame (R322, R328, R342). A request for a fabric tenant ID that no tenant holds has no key
to check its tag with; it is answered under R336. -/
def State.hear (s : State) (p : Nat) (octets : Bytes) : Heard :=
  let bs := octets.take (octets.length - 4)
  let at2 (o : Nat) : Nat := beNat ((bs.drop o).take 2)
  if !s.link p ∨ octets.length < 18 ∨ leNat (octets.drop (octets.length - 4)) ≠ crc32 bs then .unseen
  else
    let tagged := decide (at2 12 = 0x8100)
    let etype := if tagged then at2 16 else at2 12
    let o := if tagged then 18 else 14
    if etype = 0x8808 then
      if at2 o = 0x0101 then .pfc (at2 (o + 2) % 256) ((List.range 8).map fun i => at2 (o + 4 + 2 * i)) else .unseen
    else if !tagged ∨ etype ≠ s.field DP_ETYPE 15 0 ∨ at2 14 % 2 ^ 12 ≠ s.field DP_VID 11 0 then .foreign
    else
      let f := parseFrame p bs
      if f.dst ≠ s.chip then .foreign
      else if headerBad bs then .damaged
      else
        let head := bs.take 58
        let tag := bs.drop (bs.length - 16)
        let epoch :=
          if f.type = ftResync then BitVec.ofNat 32 f.addr.toNat
          else if f.control then
            match s.conn.find? (·.at p f.tc f.src) with
            | some c => c.epoch
            | none => 0
          else (s.rconnOf p f.tc f.src).epoch
        let iv := gcmIv f.src f.dst p f.tc f.control epoch f.psn
        let good (k : Bytes) : Bool := gcmTag k iv head f.payload == tag
        if f.control then (if good s.fabricKey then .frame f else .forged)
        else
          match s.frameTenant (decide (f.type = ftResponse)) f with
          | none => .frame f
          | some t =>
            if bit f.flags 0 != s.regBit (DP_FTID t) 17 then .forged
            else if bit f.flags 0 then
              (if good (s.dpKey t) then .frame { f with payload := gcmCrypt (s.dpKey t) iv f.payload } else .forged)
            else .frame f

/-- Count a discarded frame. -/
def State.discard (s : State) (p : Nat) : Heard → State
  | .foreign => s.count (DP_FOREIGN_CNT p) 1
  | .damaged => s.count (DP_DAMAGED_CNT p) 1
  | .forged => s.count (DP_AUTH_FAIL p) 1
  | _ => s

/-- Whether a frame fails R347: its payload length, or a block's CHECK. -/
def Frame.damaged (f : Frame) : Bool :=
  let g : Grout := { f32 := bit f.flags 3, four := bit f.flags 2 }
  decide (f.payload.length ≠ f.explen)
    || (bit f.flags 1 && (decide (f.explen ≠ f.len / g.block * g.packed) || decide (f.len % g.block ≠ 0)
        || !(chunks g.packed f.payload).all g.good))

/-- Response frames to a request: its data in ascending order, at most 4,096 bytes each, the last with LAST (R329). -/
def State.respond (s : State) (f : Frame) (code addr : Nat) (data : Bytes) : State :=
  let parts := if data.isEmpty then [[]] else chunks 4096 data
  let n := parts.length
  s.enqueue f.port f.tc f.src (parts.zipIdx.map fun (b, i) =>
    { s.blankFrame f.port f.tc f.src with
      type := ftResponse, flags := place (flag (decide (i + 1 = n))) 4, ftid := f.ftid, opid := f.opid, opc := f.opc,
      len := b.length, addr := BitVec.ofNat 64 (addr + 4096 * i), explen := b.length,
      status := BitVec.ofNat 16 code, payload := b })

/-- What a request does at the target (R336): its status and the offset of a failure, and the data of its answer. Whether an
atomic's answer carries the old value is not told by the request's fields; it is left open (assumption 21). -/
def State.serve (s : State) (t : Nat) (f : Frame) : State × Nat × Nat × Bytes :=
  let space := bits f.addr.toNat 51 48
  let off := gaOff f.addr.toNat
  let g : Grout := { f32 := bit f.flags 3, four := bit f.flags 2 }
  let bad (s : State) (e : Nat × Nat) : State × Nat × Nat × Bytes := (s, e.1, e.2, [])
  if space = spReg then bad s (stProtection, off)
  else if f.opc = 1 then
    match s.memPut t (portUnit .dp f.port) space off (if bit f.flags 1 then g.unpack f.payload else f.payload) with
    | (s, .error e) => bad s e
    | (s, .ok _) => (s, stOk, off, [])
  else if f.opc = 2 then
    match s.memGet t space off f.len with
    | (s, .error e) => bad s e
    | (s, .ok bs) => (s, stOk, off, bs)
  else if 0x10 ≤ f.opc ∧ f.opc ≤ 0x17 then
    match s.memAtomic t (portUnit .dp f.port) space off f.opc (BitVec.ofNat 64 (pfield f.payload 0 8)) (BitVec.ofNat 64 (pfield f.payload 8 8)) with
    | (s, .error e) => bad s e
    | (s, .ok w) => (s.tick, stOk, off, if Config.freeBit s.free 0 then leBytes 8 w.toNat else [])
  else if f.opc = 0x20 then
    match s.memSignal t space off (pfield f.payload 0 8) true with
    | (s, .error e) => bad s e
    | (s, .ok _) => (s, stOk, off, [])
  else bad s (stTranslation, off)

/-- Key of a put in progress at the target. -/
def Frame.putKey (f : Frame) : Nat × Nat × Nat := (f.port * 8 + f.tc, f.src, f.opid)

/-- The first failure of a put at an earlier frame. -/
def State.putFailed (s : State) (f : Frame) : Option (Nat × Nat) :=
  (s.putFail.find? fun x => decide (x.1 = f.putKey)).map fun x => (x.2.1.toNat, x.2.2)

/-- Answer a request that ended: for a put, once its last frame has come, with its first failing status and address (R336).
Requests answered TENANT_GONE are counted, and so are those that host absence turns away (R374). -/
def State.finishReq (s : State) (f : Frame) (code off : Nat) (data : Bytes) : State :=
  let first := s.putFailed f
  let s := if code ≠ stOk ∧ first.isNone then { s with putFail := s.putFail ++ [(f.putKey, BitVec.ofNat 16 code, off)] } else s
  if bit f.flags 4 then
    let (code, off) := first.getD (code, off)
    let s := { s with putFail := s.putFail.filter fun x => x.1 != f.putKey, putOpen := s.putOpen.filter fun x => x != f.putKey }
    let s := if code = stTenantGone then s.count (DP_GONE_CNT f.port) 1 else s
    let s := if code = stHostAbsent then { s with fw := { s.fw with refused := s.fw.refused + 1 } } else s
    s.respond f code (place (bits f.addr.toNat 51 48) 48 + off) (if first.isSome then [] else data)
  else { s with putOpen := if s.putOpen.contains f.putKey then s.putOpen else s.putOpen ++ [f.putKey] }

/-- The status an accepted request gets without being applied, by the precedence of R16: ABORTED_STOP (R416),
ABORTED_HOST_ABSENT where it is a new request, TENANT_GONE, or the first failing check (R336); 0 where it is to be applied. -/
def State.reqCheck (s : State) (f : Frame) : Nat :=
  if s.stopped then stStop
  else if s.hostAbsent && !s.putOpen.contains f.putKey then stHostAbsent
  else
    match s.ftidTenant f.ftid with
    | none => stTenantGone
    | some t => if s.slot t ≠ 1 then stTenantGone else (s.serve t f).2.1

/-- Accept a frame into the receive buffer, acknowledge it, and pause the class where space is short. -/
def State.accept (s : State) (c : RConn) (f : Frame) : State :=
  let more := decide (f.type = ftRequest) && !bit f.flags 4 && !s.putOpen.contains f.putKey
  let s := if more then { s with putOpen := s.putOpen ++ [f.putKey] } else s
  let s := (s.answer { c with exp := (c.exp + 1) % 0x1000000 } ftAck 0).count (DP_RX_FRAMES f.port) 1
  ({ s with rxq := s.rxq ++ [f] }).pauseUpdate f.port

/-- The steps of R331, R338 and R347 before a data frame is accepted; `act` on the receiver's context and the frame. -/
def State.inOrder (s : State) (f : Frame) (act : State → RConn → State) : State :=
  let c := s.rconnOf f.port f.tc f.src
  let ahead := (f.psn + 0x1000000 - c.exp) % 0x1000000
  let s := if f.ackV then s.acked f.port f.tc f.src f.ack else s
  if 0x800000 ≤ ahead then s.answer c ftAck 0
  else if 0 < ahead then s.answer c ftNak 1
  else if s.rxFree f.port < f.wire then s.answer c ftNak 3
  else if f.damaged then (s.answer c ftNak 2).count (DP_DAMAGED_CNT f.port) 1
  else act s c

/-- Count the FEC codewords of a frame's reception on a link (R349). -/
def State.fec (s : State) (p : Nat) (w : WireFrame) : State :=
  if s.link p then (s.count (DP_FEC_CORR p) w.corr).count (DP_FEC_UNCORR p) w.uncorr else s

/-- Read a received frame; one with a codeword that could not be corrected never leaves the MAC. -/
def State.hears (s : State) (p : Nat) (w : WireFrame) : Heard := if w.uncorr ≠ 0 then .unseen else s.hear p w.octets

/-- A command that brings a received frame of one type acts on it; one that is to be discarded is counted. -/
def State.receive (s : State) (p type : Nat) (w : WireFrame) (act : State → Frame → State) : State :=
  let s := s.fec p w
  match s.hears p w with
  | .frame f => if f.type = type then act s f else s
  | .damaged => s.discard p .damaged
  | .forged => s.discard p .forged
  | _ => s

/-- REQUEST_FRAME_RECEIVE. A request that is not to be applied is answered and takes no buffer (R336). -/
def execRequestFrameReceive (p : Fin 8) (frame : WireFrame) (s : State) : Out := live s fun s =>
  s.receive p ftRequest frame fun s f =>
    s.inOrder f fun s c =>
      let code := s.reqCheck f
      if code = stTenantGone ∨ code = stHostAbsent ∨ code = stStop then
        let s := (s.answer { c with exp := (c.exp + 1) % 0x1000000 } ftAck 0).count (DP_RX_FRAMES f.port) 1
        s.finishReq f code (gaOff f.addr.toNat) []
      else s.accept c { f with status := BitVec.ofNat 16 code }

/-- Apply a request taken from the receive buffer. -/
def State.applyReq (s : State) (f : Frame) : State :=
  if (s.putFailed f).isSome then s.finishReq f stOk 0 []
  else if f.status ≠ 0 then
    let (s, code, off, _) := (match s.ftidTenant f.ftid with
      | some t => ((s, (s.serve t f).2) : State × Nat × Nat × Bytes)
      | none => (s, stTenantGone, gaOff f.addr.toNat, []))
    s.finishReq f f.status.toNat (if code = f.status.toNat then off else gaOff f.addr.toNat) []
  else
    match s.ftidTenant f.ftid with
    | none => s.finishReq f stTenantGone (gaOff f.addr.toNat) []
    | some t =>
      let (s, code, off, data) := s.serve t f
      s.finishReq f code off data

/-- PFC_REPEAT: the pause frame is sent again while its condition lasts (R338). -/
def execPfcRepeat (p k : Fin 8) (s : State) : Out := live s fun s =>
  let lasts := decide (s.rxFree p < s.regN (DP_PFC_XOFF p)) && s.rxq.any fun f => decide (f.port = p.val ∧ f.tc = k.val)
  if s.pausing.contains (p.val, k.val) ∧ lasts = true then s.send p (s.pfcFrame p k 0xFFFF) else s

/-- ACK_RECEIVE (R331). -/
def execAckReceive (p : Fin 8) (frame : WireFrame) (s : State) : Out := live s fun s =>
  s.receive p ftAck frame fun s f => if f.ackV then s.acked f.port f.tc f.src f.ack else s

/-- NAK_RECEIVE: what it acknowledges is freed, and the rest is retransmitted (R332); a paused class starts no frame, so
its retransmission waits for the end of the pause (R339). -/
def execNakReceive (p : Fin 8) (frame : WireFrame) (s : State) : Out := live s fun s =>
  s.receive p ftNak frame fun s f =>
    let s := if f.ackV then s.acked f.port f.tc f.src f.ack else s
    match s.conn.find? (·.at f.port f.tc f.src) with
    | none => s
    | some c =>
      if c.resync ∨ c.unacked.isEmpty then s
      else if s.paused f.port f.tc then
        s.putConn { c with nak := some (decide (f.reason = 2)) }
      else s.retransmit c (decide (f.reason = 2))

/-- RESYNC_RECEIVE: the receiver takes the sender's PSN and epoch and answers (R334); the control counter counts from 0 at each
epoch, and on through repeats of one RESYNC (R341). -/
def execResyncReceive (p : Fin 8) (frame : WireFrame) (s : State) : Out := live s fun s =>
  s.receive p ftResync frame fun s f =>
    let old := s.rconnOf f.port f.tc f.src
    let epoch := BitVec.ofNat 32 f.addr.toNat
    s.answer { old with exp := f.ack, epoch := epoch, ctl := if old.epoch = epoch then old.ctl else 0 } ftResyncAck 0

/-- RESYNC_ACK_RECEIVE: the connection is in use again, and waiting frames are sent (R334). -/
def execResyncAckReceive (p : Fin 8) (frame : WireFrame) (s : State) : Out := live s fun s =>
  s.receive p ftResyncAck frame fun s f =>
    match s.conn.find? (·.at f.port f.tc f.src) with
    | none => s
    | some c => if c.resync then s.pump { c with resync := false, rsDue := false } else s

/-- FOREIGN_FRAME_RECEIVE (R322). -/
def execForeignFrameReceive (p : Fin 8) (frame : WireFrame) (s : State) : Out := live s fun s =>
  let s := s.fec p frame
  match s.hears p frame with
  | .foreign => s.discard p .foreign
  | _ => s

/-- Show the classes paused by the peer in DP_STATUS[15:8]. -/
def State.showPaused (s : State) (p : Nat) : State :=
  s.setField (DP_STATUS p) 15 8 (((List.range 8).map fun k => if s.paused p k then 2 ^ k else 0).foldl (· + ·) 0)

/-- Pause or resume one class at a port (R339). -/
def State.setPaused (s : State) (p k : Nat) (on : Bool) : State :=
  let rest := s.pausedBy.filter fun x => x != (p, k)
  let s := ({ s with pausedBy := if on then rest ++ [(p, k)] else rest }).showPaused p
  if on then s else s.pumpAll p k

/-- PFC_FRAME_RECEIVE: quanta pause a class, zero quanta resume it (R339). -/
def execPfcFrameReceive (p : Fin 8) (frame : WireFrame) (s : State) : Out := live s fun s =>
  let s := s.fec p frame
  match s.hears p frame with
  | .pfc en quanta =>
    (List.range 8).foldl (fun s k => if bit en k then s.setPaused p k (decide (quanta.getD k 0 ≠ 0)) else s) s
  | _ => s

/-- PAUSE_EXPIRY (R339). -/
def execPauseExpiry (p k : Fin 8) (s : State) : Out := live s fun s =>
  if s.paused p k then s.setPaused p k false else s

/-- ACK_TIMEOUT: a timer of the connection expires, unless its class is paused (R332). -/
def execAckTimeout (p k : Fin 8) (peer : BitVec 12) (s : State) : Out := live s fun s =>
  match s.conn.find? (·.at p k peer.toNat) with
  | none => s
  | some c => if c.resync ∨ c.unacked.isEmpty ∨ s.paused p k then s else s.retransmit c false

/-- RESYNC_RETRY (R334). -/
def execResyncRetry (p k : Fin 8) (peer : BitVec 12) (s : State) : Out := live s fun s =>
  match s.conn.find? (·.at p k peer.toNat) with
  | none => s
  | some c => if c.resync then s.sendResync c else s

/-- RESYNC_WAIT_TIMEOUT: an operation none of whose frames could be sent (R334). -/
def execResyncWaitTimeout (opid : BitVec 16) (s : State) : Out := live s fun s =>
  match s.rops.find? fun r => decide (r.opid = opid.toNat) with
  | none => s
  | some r =>
    if !r.sent ∧ (s.conn.any fun c => c.at r.port r.tc r.peer && c.resync) = true then s.endOp opid.toNat stRemoteTimeout 0 else s

/-- RESPONSE_TIMEOUT: an operation whose request frames are all acknowledged (R335). -/
def execResponseTimeout (opid : BitVec 16) (s : State) : Out := live s fun s =>
  match s.rops.find? fun r => decide (r.opid = opid.toNat) with
  | none => s
  | some r =>
    let waiting := s.conn.any fun c =>
      (c.unacked.any fun f => decide (f.req = some r.opid))
        || c.queue.any fun f => decide (f.type = ftRequest) && decide (f.opid = r.opid)
    if r.sent ∧ !waiting then s.endOp opid.toNat stRemoteTimeout 0 else s

/-! Links. -/

/-- Whether a port is enabled. -/
def State.dpOn (s : State) (p : Nat) : Bool := s.regBit (DP_CTL p) 0

/-- Take a port's link down: its status bits clear. -/
def State.dropLink (s : State) (p : Nat) : State :=
  let s := { s with pausedBy := s.pausedBy.filter fun x => x.1 != p, pausing := s.pausing.filter fun x => x.1 != p }
  s.setRegN (DP_STATUS p) 0

/-- The contexts of a port's connections start anew when it is enabled: their epochs are drawn again (R334). -/
def State.freshPort (s : State) (p : Nat) : State :=
  { s with conn := s.conn.filter fun c => c.port != p, rconn := s.rconn.filter fun c => c.port != p }

/-- Write DP_CTL. Setting enable starts link bring-up where the chip ID is valid (R324); clearing it takes the link down. -/
def State.portWrite (s : State) (p v : Nat) : State :=
  let was := s.dpOn p
  let s := s.setRegN (DP_CTL p) (v % 8)
  if bit v 0 ∧ !was then s.freshPort p
  else if !bit v 0 ∧ was then s.dropLink p else s

/-- PORT_ENABLE: a write of DP_CTL. -/
def execPortEnable (sec : Bool) (p : Fin 8) (v : Word) (s : State) : Out := live s fun s =>
  s.allow sec (DP_CTL p) fun s => s.portWrite p v.toNat

/-- LINK_UP: training ends on an enabled port of a chip with a valid ID whose reference clock runs (R324, R326, R451). -/
def execLinkUp (p : Fin 8) (s : State) : Out := live s fun s =>
  if s.dpOn p ∧ s.regBit DP_CHIP_ID 31 ∧ bit s.pins.refclkF.toNat (p.val / 2) ∧ !s.link p then
    let an := flag (s.regBit (DP_CTL p) 2)
    let s := s.setRegN (DP_STATUS p) (1 + place an 1 + place an 2 + place 0xF 4)
    (List.range 8).foldl (fun s k => s.pumpAll p k) s
  else s

/-- LINK_DOWN (R326). -/
def execLinkDown (p : Fin 8) (s : State) : Out := live s fun s => if s.link p then s.dropLink p else s

/-- Write DP_CHIP_ID: changing the ID while a port is enabled is discarded. With VALID clear no operation stays outstanding, and
with it set waiting frames are sent (R324). -/
def State.chipIdWrite (s : State) (v : Nat) : State :=
  let w := Nat.land v 0x80000FFF
  if w % 0x1000 ≠ s.chip ∧ ((List.range 8).any s.dpOn) = true then s.blkErr .dp 0 5
  else
    let s := s.setRegN DP_CHIP_ID w
    if bit w 31 then (List.range 64).foldl (fun s i => s.pumpAll (i / 8) (i % 8)) s
    else s.rops.foldl (fun (s : State) r => s.endOp r.opid stRemoteTimeout 0) s

/-- CHIP_ID_WRITE. -/
def execChipIdWrite (sec : Bool) (v : Word) (s : State) : Out := live s fun s =>
  s.allow sec DP_CHIP_ID fun s => s.chipIdWrite v.toNat

/-- Write DP_MAC_PFX: a prefix that is not locally administered unicast is discarded (R325). -/
def State.macPfxWrite (s : State) (v : Nat) : State :=
  let w := v % 0x1000000
  if bit w 17 ∧ !bit w 16 then s.setRegN DP_MAC_PFX w else s.blkErr .dp 0 5

/-- MAC_PFX_WRITE. -/
def execMacPfxWrite (sec : Bool) (v : Word) (s : State) : Out := live s fun s =>
  s.allow sec DP_MAC_PFX fun s => s.macPfxWrite v.toNat

/-- REFCLK_F_LOSS: both ports of the clock drop their link (R451). -/
def execRefclkFLoss (n : Fin 4) (s : State) : Out := atPins s fun s =>
  let s := { s with pins := { s.pins with refclkF := BitVec.ofNat 4 (Nat.land s.pins.refclkF.toNat (15 - 2 ^ n.val)) } }
  [2 * n.val, 2 * n.val + 1].foldl (fun s p => if s.link p then s.dropLink p else s) s

/-- REFCLK_F_RESTORE: the clock has been within tolerance for 1 ms; LINK_UP follows for each enabled port (R451). -/
def execRefclkFRestore (n : Fin 4) (s : State) : Out := atPins s fun s =>
  { s with pins := { s.pins with refclkF := BitVec.ofNat 4 (Nat.lor s.pins.refclkF.toNat (2 ^ n.val)) } }

end Sys2Proof.Machine
end

