-- ==== Sys2Proof/Machine/Mover.lean ====
section
/-! DEFINITION. Tensor movers: MOVE, GATHER, SCATTER, WINDOW and TILES of class 0x5 (R227 to R244). -/

namespace Sys2Proof.Machine

/-- A mover descriptor: its operand area (Table 9.1) and parameter block (Table 9.2). -/
structure Hod where
  op  : Nat
  src : Nat
  dst : Nat
  idx : Nat
  ssc : Nat
  dsc : Nat
  p   : Bytes
deriving DecidableEq, Repr

/-- Read the operand area. -/
def Hod.of (d : BitVec 1024) (p : Bytes) : Hod where
  op := dOp d
  src := dfield d 0x50 8
  dst := dfield d 0x58 8
  idx := dfield d 0x68 8
  ssc := dfield d 0x70 8
  dsc := dfield d 0x78 8
  p := p

def Hod.sf (h : Hod) : Nat := bits (pfield h.p 0 4) 4 0
def Hod.df (h : Hod) : Nat := bits (pfield h.p 0 4) 12 8
def Hod.idx64 (h : Hod) : Bool := bit (pfield h.p 0 4) 16
def Hod.srcTr (h : Hod) : Bool := bit (pfield h.p 4 4) 0
def Hod.dstTr (h : Hod) : Bool := bit (pfield h.p 4 4) 1
def Hod.trans (h : Hod) : Bool := bit (pfield h.p 4 4) 2
def Hod.qact (h : Hod) : Bool := bit (pfield h.p 4 4) 3
def Hod.idxFault (h : Hod) : Bool := bit (pfield h.p 4 4) 4
def Hod.trough (h : Hod) (i : Nat) : Nat := pfield h.p (8 + i) 1
def Hod.qmin (h : Hod) : Int := signedOf 8 (pfield h.p 0xC 1)
def Hod.qmax (h : Hod) : Int := signedOf 8 (pfield h.p 0xD 1)
def Hod.idxDim (h : Hod) : Nat := pfield h.p 0x10 4
def Hod.idxLim (h : Hod) : Nat := pfield h.p 0x14 4
def Hod.ssr (h : Hod) : Nat := pfield h.p 0x18 8
def Hod.count (h : Hod) (i : Nat) : Nat := pfield h.p (0x20 + 4 * i) 4
/-- Source stride of dimension k ≥ 1, destination stride of dimension k (DSTR0 for k = 0). -/
def Hod.sstr (h : Hod) (k : Nat) : Int := signedOf 64 (pfield h.p (0x30 + 8 * k) 8)
def Hod.dstr (h : Hod) (k : Nat) : Int := signedOf 64 (pfield h.p (if k = 0 then 0x88 else 0x58 + 8 * k) 8)
/-- Fields of the window block (Table 9.4). -/
def Hod.win (h : Hod) (o hi lo : Nat) : Nat := bits (pfield h.p o 4) hi lo
/-- Element size in bytes: one byte for four-bit formats (R229). -/
def esize (c : Nat) : Nat := max 1 (fmtBits c / 8)
/-- Data bytes of one scale byte (R239). -/
def scaleQ (c : Nat) : Nat := if fmtBits c = 4 then 16 else 32
def Hod.indexed (h : Hod) : Bool := decide (h.op = 2 ∨ h.op = 3)
def Hod.tileKt (h : Hod) : Nat := 64 * 2 ^ h.win 0xA8 1 0
def Hod.repeat_ (h : Hod) : Nat := h.win 0xA8 31 8

/-- How a mover converts an element (Table 9.3). -/
inductive HodRule where
  | copy | conv | clip | quant | encode
deriving DecidableEq, Repr

/-- The rule of a pair, none where the pair is not allowed. -/
def hodRule (s d : Nat) (q : Bool) : Option HodRule :=
  let flt (c : Nat) : Bool := [0x08, 0x09, 0x0A, 0x0C, 0x0D, 0x0E].contains c
  let int (c : Nat) : Bool := decide (c ≤ 2)
  if !fmtKnown s || !fmtKnown d then none
  else if s = d ∧ q = false then some .copy
  else if d ≤ 1 then
    if s = 0 then (if d = 1 then some (if q then .quant else .conv) else none)
    else if int s || flt s then some (if q then .quant else .clip)
    else none
  else if flt d then
    if fmtBlock s then (if d = 0x08 ∨ (q = true ∧ d ≠ 0x09 ∧ d ≠ 0x0A) then none else some (if q then .quant else .conv))
    else if int s || flt s then
      if q then (if d = 0x09 ∨ d = 0x0A then some .quant else none) else some .conv
    else none
  else if fmtBlock d && !q && (flt s || decide (s = 0x01) || fmtBlock s) then some .encode
  else none

/-- Conditions of R229 and R62 on the descriptor's own bytes. -/
def heOwnBad (d : BitVec 1024) : List (Bool × Nat) :=
  [(decide (dfield d 0x60 8 % 64 ≠ 0), 0x60), (decide (dOp d ≠ 2 ∧ dOp d ≠ 3) && decide (dfield d 0x68 8 ≠ 0), 0x68)]

/-- A field of the parameter block in the order of R62: after the descriptor's own. -/
def inBlock (o : Nat) : Nat := 0x1000 + o

/-- Conditions of R228, R230, R241 and R242 that need the parameter block; a trough whose enable has been cleared has no record
size to compare (R465). A stride that no scale address uses need not keep the rule of R239. -/
def heBlockBad (s : State) (h : Hod) : List (Bool × Nat) :=
  let op := h.op
  let win := decide (op = 4)
  let tl := decide (op = 5)
  let rule := hodRule h.sf h.df h.qact
  let es := esize h.sf
  let ed := esize h.df
  let mis (v : Int) (g : Nat) : Bool := decide (v % (g : Int) ≠ 0)
  let blockS := fmtBlock h.sf
  let blockD := fmtBlock h.df
  let scaled (k : Nat) : Bool := if tl then decide (k = 1) else !win || decide (k ≤ 3)
  let strides := (List.range 5).flatMap fun i =>
    let k := i + 1
    [((!h.srcTr && mis (h.sstr k) es) || (blockS && scaled k && mis (h.sstr k) (scaleQ h.sf)), inBlock (0x30 + 8 * k)),
     (!h.dstTr && ((!(h.trans && decide (k = 1)) && mis (h.dstr k) ed) || (blockD && mis (h.dstr k) (scaleQ h.df))),
      inBlock (0x58 + 8 * k))]
  let zero16 (o hi lo : Nat) : Bool := decide (h.win o hi lo = 0)
  let out (v : Int) : Bool := decide (h.df ≤ 1) && decide (v < intLo h.df ∨ intHi h.df < v)
  let size (i : Nat) (bad : Nat → Bool) : Bool := s.trOn (h.trough i) && bad (s.trLines (h.trough i))
  let word (o : Nat) : Nat := pfield h.p o 4
  let tableRsv := rsv (word 0) 0 [(7, 5), (15, 13), (31, 17)] ++ rsv (word 4) 4 [(31, 5)] ++ rsv (word 8) 8 [(31, 24)]
    ++ rsv (word 0xC) 0xC [(31, 16)] ++ rsv (word 0x10) 0x10 [(31, 3)] ++ rsv (word 0x14) 0x14 [(31, 24)]
    ++ (List.range 6).flatMap (fun i => rsv (word (0x20 + 4 * i)) (0x20 + 4 * i) [(31, 24)])
    ++ (if win || tl then rsv (word 0x94) 0x94 [(31, 24)] ++ rsv (word 0xA0) 0xA0 [(31, 16)] ++ rsv (word 0xA4) 0xA4 [(31, 16)]
        ++ rsv (word 0xA8) 0xA8 [(7, 2)] else [])
    ++ [(decide (word 0xAC ≠ 0), 0xAC), (decide (pfield h.p 0xB0 0x50 ≠ 0), 0xB0)]
  tableRsv.map (fun c => (c.1, inBlock c.2))
    ++ [(rule.isNone, inBlock 0),
        (h.indexed && decide (bits h.idxDim 2 0 < 1 ∨ 5 < bits h.idxDim 2 0), inBlock 0x10),
        (h.indexed && decide (bits h.idxLim 23 0 = 0), inBlock 0x14)]
    ++ ((List.range 6).map fun i => (!win && decide (bits (h.count i) 23 0 = 0), inBlock (0x20 + 4 * i)))
    ++ [((blockS || blockD) && !win && decide (h.count 0 % 32 ≠ 0), inBlock 0x20),
        (!h.srcTr && decide (h.src % es ≠ 0), 0x50),
        (!h.dstTr && decide (h.dst % ed ≠ 0), 0x58)]
    ++ strides
    ++ [(h.trans && !h.dstTr && mis (h.dstr 0) ed, inBlock 0x88),
        (h.trans && (decide (fmtBits h.sf = 4) || decide (fmtBits h.df = 4) || blockS || blockD), inBlock 0),
        (h.trans && decide (op ≠ 1), 1),
        (out h.qmin || out h.qmax, inBlock 0),
        (decide (h.qmax < h.qmin), inBlock 0xC),
        (h.qact && !([0x01, 0x09, 0x0A].contains h.df), inBlock 0),
        ((h.srcTr && decide (op = 2)) || (h.dstTr && decide (op = 3)), inBlock 4),
        (h.dstTr && blockD && !tl, 1)]
    ++ (if win then
      [(blockD, inBlock 0), (h.qact, inBlock 4),
       (zero16 0x90 15 0, inBlock 0x90), (zero16 0x90 31 16, inBlock 0x92),
       (zero16 0x9C 15 0, inBlock 0x9C), (zero16 0x9C 31 16, inBlock 0x9E),
       (zero16 0xA0 15 0 || (blockS && decide (h.win 0xA0 15 0 % 32 ≠ 0)), inBlock 0xA0),
       (zero16 0xA4 15 0, inBlock 0xA4)]
      else [])
    ++ (if tl || (win && h.dstTr) then
      [(decide (h.win 0xA8 1 0 = 3), inBlock 0xA8), (decide (h.repeat_ = 0), inBlock 0xA9)]
      else [])
    ++ (if tl then
      [(decide (h.sf ≠ h.df), inBlock 0), (!h.dstTr, inBlock 4),
       (decide (rowBytes h.df h.tileKt ≠ 128), inBlock 0xA8),
       (size 1 fun l => decide (l ≠ 128), inBlock 9),
       (blockD && size 2 fun l => decide (l * 16 ≠ h.tileKt), inBlock 0xA)]
      else [])
    ++ (if win && h.dstTr then [(size 1 fun l => decide (2 * l ≠ rowBytes h.df h.tileKt), inBlock 9)] else [])

/-- Operand addresses that R229 checks. -/
def Hod.addrs (h : Hod) : List Nat :=
  [(!h.srcTr, h.src), (!h.dstTr, h.dst), (h.indexed, h.idx), (fmtBlock h.sf, h.ssc), (fmtBlock h.df && !h.dstTr, h.dsc),
   (h.qact, h.ssr)].filterMap fun e => if e.1 then some e.2 else none

/-- Bytes of the dense source stream (R233). -/
def Hod.streamBytes (h : Hod) : Nat :=
  if h.op = 4 then h.win 0xA4 15 0 * h.win 0x90 15 0 * h.win 0x90 31 16 * rowBytes h.sf (h.win 0xA0 15 0)
  else if h.op = 5 then h.count 1 * rowBytes h.sf (h.count 0)
  else ((List.range 5).map fun i => h.count (i + 1)).foldl (· * ·) (rowBytes h.sf (h.count 0))

/-- Troughs a mover descriptor names (R233, R242). -/
def Hod.uses (h : Hod) (s : State) : List TrUse :=
  (if h.srcTr then [{ n := h.trough 0, out := false, count := ceilDiv h.streamBytes (64 * s.trLines (h.trough 0)) }] else [])
    ++ (if h.dstTr then [{ n := h.trough 1, out := true, count := 0 }] else [])
    ++ (if h.op = 5 ∧ fmtBlock h.df then [{ n := h.trough 2, out := true, count := 0 }] else [])

/-- Read and check the parameter block; DETAIL of a field of the block is 0x80 with the offset in [15:8] (R230). -/
def Work.heParams (w : Work) (d : BitVec 1024) : Work × Hod × List TrUse :=
  let (w, p) := w.read (dfield d 0x60 8) 256
  let h := Hod.of d p
  let uses := if w.dead then [] else h.uses w.s
  let w := match firstBad (heBlockBad w.s h) with
    | none => w
    | some o => w.fail stProtection (if o < 0x1000 then badField o else 2 ^ 63 + 0x80 + place (o - 0x1000) 8)
  (w, h, uses)

/-- The start of a mover descriptor: its block and addresses are checked, and its scale-state record is read (R62, R118,
R240). -/
def heStart (f : Flight) (w : Work) : Work × Started :=
  let lines := if (w.read (dfield f.desc 0x60 8) 256).1.dead then 0 else 4
  let (w, h, uses) := (w.mapS fun s => s.count (HE_RD_LINES f.unit) lines).heParams f.desc
  let w := w.each h.addrs Work.needLocal
  let (w, raw) :=
    if h.qact then
      let (w, r) := w.ssrStart h.ssr fun qf => decide (qf = h.df)
      (w, r.raw)
    else (w, [])
  (w, { param := h.p, ssr := raw, uses := uses })

/-- A mover's work: the ranges it has read, and written as data and as scales; its lines (R244); the lines of a record of its
destination troughs; bytes of a dense stream that do not yet fill a record; and how many elements of the index tensor it has
come to. -/
structure HodWork where
  w    : Work
  rd   : List (Nat × Nat)
  wrs  : List (Nat × Nat)
  wsc  : List (Nat × Nat)
  lr   : Nat
  lw   : Nat
  q    : Option Ssr
  recD : Nat
  recS : Nat
  buf  : Bytes
  idxN : Nat
deriving Repr

/-- Lines of a run. -/
def runLines (a n : Nat) : Nat := if n = 0 then 0 else ceilDiv (a % 64 + n) 64

/-- Lines of a run that were accessed: those below the address at which a fault ended the operation. -/
def Work.reached (w : Work) (a n : Nat) : Nat :=
  match w.err with
  | none => runLines a n
  | some (_, d) => if a ≤ d ∧ d < a + n then runLines a (d - a) else 0

/-- Read a run, line by line in ascending order (R232). -/
def HodWork.read (k : HodWork) (a n : Nat) : HodWork × Bytes :=
  if k.w.dead then (k, List.replicate n 0)
  else
    let (w, b) := k.w.read a n
    ({ k with w := w, rd := (a, n) :: k.rd, lr := k.lr + w.reached a n }, b)

/-- Write a run of data, or of scales. -/
def HodWork.write (k : HodWork) (scales : Bool) (a : Nat) (b : Bytes) : HodWork :=
  if b.isEmpty || k.w.dead then k
  else
    let w := k.w.write a b
    { k with w := w, wrs := if scales then k.wrs else (a, b.length) :: k.wrs,
             wsc := if scales then (a, b.length) :: k.wsc else k.wsc, lw := k.lw + w.reached a b.length }

/-- Emit one record of a destination trough, padded with zeros (R233). -/
def HodWork.emit (k : HodWork) (tr lines : Nat) (b : Bytes) : HodWork :=
  { k with w := k.w.emit tr (padTo (64 * lines) b), lw := k.lw + lines }

/-- Add bytes to the dense stream of the destination trough: every record they fill is produced (R233). -/
def HodWork.feed (k : HodWork) (tr : Nat) (b : Bytes) : HodWork :=
  let all := k.buf ++ b
  let n := 64 * k.recD
  let full := all.length / n * n
  (chunks n (all.take full)).foldl (fun k r => k.emit tr k.recD r) { k with buf := all.drop full }

/-- Produce the final partial record of a dense stream. -/
def HodWork.flush (k : HodWork) (tr : Nat) : HodWork :=
  if k.buf.isEmpty || k.w.dead then k else { k.emit tr k.recD k.buf with buf := [] }

/-- An address offset by strides, modulo 2^64. -/
def offsetAddr (base : Nat) (off : Int) : Nat := ((base + off) % (2 ^ 64 : Nat)).toNat

/-- Sum of i_k × stride_k over the dimensions from 1 on. -/
def strideSum (stride : Nat → Int) (ix : List Nat) : Int :=
  (ix.zipIdx.map fun (i, k) => (i : Int) * stride (k + 1)).foldl (· + ·) 0

/-- Convert the elements of a run (Table 9.3, R237): codes and scales of the destination. -/
def HodWork.convert (k : HodWork) (h : Hod) (codes : List Nat) (scs : Bytes) : HodWork × List Nat × Bytes :=
  let vals := rowNums h.sf codes scs
  match hodRule h.sf h.df h.qact with
  | some .copy => (k, codes, scs)
  | some .conv =>
    (k, if h.df ≤ 1 then vals.map (intCode h.df (intLo h.df) (intHi h.df)) else vals.map (floatCode h.df), [])
  | some .clip => (k, vals.map (intCode h.df h.qmin h.qmax), [])
  | some .encode =>
    let r := encodeRow h.df (vals.map word32)
    (k, r.1, r.2)
  | some .quant =>
    match k.q with
    | some q =>
      let (q, c) := q.quantAll (vals.map word32)
      ({ k with q := some q }, c, [])
    | none => (k, codes, [])
  | none => (k, codes, [])

/-- The source run of `n` elements at an address, or at a position of the dense stream (R233), with its scales (R239). -/
def HodWork.source (k : HodWork) (h : Hod) (stream : Bytes) (off : Int) (pos n : Nat) : HodWork × List Nat × Bytes :=
  let bytes := rowBytes h.sf n
  let (k, b) := if h.srcTr then (k, (stream.drop pos).take bytes) else k.read (offsetAddr h.src off) bytes
  let (k, scs) := if fmtBlock h.sf then k.read (offsetAddr h.ssc (off / (scaleQ h.sf : Int))) (n / 32) else (k, [])
  (k, unpack h.sf n b, scs)

/-- Index tuples (i1, …) of an iteration space, the first fastest. -/
def indexRows : List Nat → List (List Nat)
  | [] => [[]]
  | c :: cs => (indexRows cs).flatMap fun t => (List.range c).map fun i => i :: t

/-- Counts of dimensions 1 to 5. -/
def Hod.outer (h : Hod) : List Nat := (List.range 5).map fun i => h.count (i + 1)

/-- The index of a GATHER or SCATTER row (R234, R235): its value and whether it is in range; an out-of-range index adds a
warning once for its slice, or ends the descriptor. -/
def HodWork.index (k : HodWork) (h : Hod) (u : Nat) (ix : List Nat) : HodWork × Int × Bool :=
  let n := if h.idx64 then 8 else 4
  let i := ix.getD (h.idxDim - 1) 0
  let a := h.idx + i * n
  let (w, b) := k.w.read a n
  let v := signedOf (8 * n) (leNat b)
  let ok := decide (0 ≤ v) && decide (v < (h.idxLim : Int))
  let first := (ix.take (h.idxDim - 1)).all (· == 0)
  let k := { k with w := w, rd := (a, n) :: k.rd, idxN := if w.dead then k.idxN else max k.idxN (i + 1) }
  if ok then (k, v, true)
  else if h.idxFault then ({ k with w := k.w.fail stProtection a }, v, false)
  else
    let use := if first && !k.w.dead then 1 else 0
    ({ k with w := { k.w with warn := k.w.warn + use, s := k.w.s.count (HE_IDX_RANGE_CNT u) use } }, v, false)

/-- One i0 run of MOVE, GATHER or SCATTER (R231 to R235). -/
def HodWork.row (k : HodWork) (h : Hod) (u : Nat) (stream : Bytes) (r : Nat) (ix : List Nat) : HodWork :=
  let c0 := h.count 0
  let d := h.idxDim - 1
  let (k, v, ok) := if h.indexed then k.index h u ix else (k, 0, true)
  let term (stride : Nat → Int) (sub : Bool) : Int :=
    if sub then strideSum stride (setAt ix d 0) + v * stride (d + 1) else strideSum stride ix
  let so := term h.sstr (decide (h.op = 2))
  let do_ := term h.dstr (decide (h.op = 3))
  if k.w.dead || (!ok && decide (h.op = 3)) then k
  else
    let (k, codes, scs) :=
      if ok then
        let (k, codes, scs) := k.source h stream so (r * rowBytes h.sf c0) c0
        k.convert h codes scs
      else (k, List.replicate c0 0, List.replicate (if fmtBlock h.df then c0 / 32 else 0) 0)
    let out := pack h.df codes
    if k.w.dead then k
    else if h.dstTr then k.feed (h.trough 1) out
    else if h.trans then
      -- R236: element i0 goes to DST + i0·DSTR0 + i1·ed + …
      let ed : Nat := esize h.df
      let base : Int := strideSum h.dstr (setAt ix 0 0) + ((ix.headD 0 * ed : Nat) : Int)
      (List.range c0).foldl (fun (k : HodWork) (i : Nat) =>
        k.write false (offsetAddr h.dst (base + (i : Int) * h.dstr 0)) ((out.drop (i * ed : Nat)).take ed)) k
    else
      let k := k.write false (offsetAddr h.dst do_) out
      k.write true (offsetAddr h.dsc (do_ / (scaleQ h.df : Int))) scs

/-- Every run of MOVE, GATHER or SCATTER in iteration order. -/
def HodWork.rows (k : HodWork) (h : Hod) (u : Nat) (stream : Bytes) : HodWork :=
  (indexRows h.outer).zipIdx.foldl (fun (k : HodWork) (ix, r) => if k.w.dead then k else k.row h u stream r ix) k

/-- One tile of a transposition (R236, R244): rows t1 of dimension 1 by elements t0 of dimension 0, of the plane (i2, …, i5)
that comes `oi`-th. It counts its passage through the buffer, whole. -/
def HodWork.transTile (k : HodWork) (h : Hod) (stream : Bytes) (oi : Nat) (o : List Nat) (t1 t0 : Nat × Nat) : HodWork :=
  let es := esize h.sf
  let ed := esize h.df
  let (k', rows) := (List.range t1.2).foldl (fun (acc : HodWork × List Bytes) i =>
    let i1 := t1.1 + i
    let (k, codes, _) := acc.1.source h stream (strideSum h.sstr (i1 :: o) + ((t0.1 * es : Nat) : Int))
      (((oi * h.count 1 + i1) * h.count 0 + t0.1) * es) t0.2
    let (k, codes, _) := k.convert h codes []
    (k, acc.2 ++ [pack h.df codes])) (k, [])
  let col (j : Nat) : Bytes := rows.flatMap fun row => (row.drop (j * ed)).take ed
  let k' := if k'.w.dead then k'
    else (List.range t0.2).foldl (fun (k : HodWork) j =>
      if h.dstTr then k.feed (h.trough 1) (col j)
      else k.write false (offsetAddr h.dst (strideSum h.dstr (0 :: o) + ((t0.1 + j : Nat) : Int) * h.dstr 0
        + ((t1.1 * ed : Nat) : Int))) (col j)) k'
  { k' with lr := k.lr + 64, lw := k.lw + 64 * ed / es }

/-- A transposition, tile by tile, tiles in iteration order of their first element (R236). -/
def HodWork.transTiles (k : HodWork) (h : Hod) (stream : Bytes) : HodWork :=
  let planes := indexRows ((List.range 4).map fun i => h.count (i + 2))
  planes.zipIdx.foldl (fun (k : HodWork) (o, oi) =>
    (tiles 64 (h.count 1)).foldl (fun (k : HodWork) t1 =>
      (tiles (64 / esize h.sf) (h.count 0)).foldl (fun (k : HodWork) t0 =>
        if k.w.dead then k else k.transTile h stream oi o t1 t0) k) k) k

/-- MOVE, GATHER and SCATTER (R231 to R240). A transposition into memory leaves what the runs in iteration order leave there
(R236); a fault in it comes at the first tile that meets one. -/
def HodWork.move (k : HodWork) (h : Hod) (u : Nat) (stream : Bytes) : HodWork :=
  if h.trans then
    let kt := k.transTiles h stream
    if h.dstTr then kt.flush (h.trough 1)
    else if kt.w.dead then kt
    else { k.rows h u stream with lr := kt.lr, lw := kt.lw }
  else
    let k := k.rows h u stream
    let k := { k with lr := k.lr + runLines h.idx (k.idxN * if h.idx64 then 8 else 4) }
    if h.dstTr then k.flush (h.trough 1) else k

/-- Elements k0 up to k0 + n of row m of a window stream (R241), converted; columns outside the image or at or above Kr are
zero. -/
def HodWork.windowRow (k : HodWork) (h : Hod) (stream : Bytes) (m k0 n : Nat) : HodWork × List Nat :=
  let ihn := h.win 0x90 15 0
  let iwn := h.win 0x90 31 16
  let ker (lo : Nat) : Nat := h.win 0x94 (lo + 3) lo + 1
  let kw := ker 4
  let cin := h.win 0xA0 15 0
  let ohn := h.win 0x9C 15 0
  let own := h.win 0x9C 31 16
  let kr := ker 0 * kw * cin
  let b := m / (ohn * own)
  let oh := m / own % ohn
  let ow := m % own
  -- kernel positions that the columns touch
  let first := k0 / cin
  let last := ceilDiv (min kr (k0 + n)) cin
  let r := (List.range (last - first)).foldl (fun (acc : HodWork × List Nat) i =>
    let (k, out) := acc
    let pos := first + i
    let c0 := k0 - min k0 (pos * cin)
    let c1 := min cin (k0 + n - pos * cin)
    let ih : Int := ((oh * ker 8 + pos / kw * ker 16 : Nat) : Int) - (h.win 0x98 15 0 : Nat)
    let iw : Int := ((ow * ker 12 + pos % kw * ker 20 : Nat) : Int) - (h.win 0x98 31 16 : Nat)
    if 0 ≤ ih ∧ ih < ihn ∧ 0 ≤ iw ∧ iw < iwn then
      let off : Int := (b : Int) * h.sstr 3 + ih * h.sstr 2 + iw * h.sstr 1
      let at_ := ((b * ihn + ih.toNat) * iwn + iw.toNat) * rowBytes h.sf cin
      -- the run of the channels wanted, from the byte and the block that hold the first
      let g := if fmtBlock h.sf then 32 else if fmtBits h.sf = 4 then 2 else 1
      let lo := c0 / g * g
      let bytes := lo * fmtBits h.sf / 8
      let (k, codes, scs) := k.source h stream (off + (bytes : Int)) (at_ + bytes)
        (if fmtBlock h.sf then ceilDiv (c1 - lo) 32 * 32 else c1 - lo)
      let (k, codes, _) := k.convert h codes scs
      (k, out ++ (codes.drop (c0 - lo)).take (c1 - c0))
    else (k, out ++ List.replicate (c1 - c0) 0)) (k, [])
  (r.1, r.2 ++ List.replicate (n - r.2.length) 0)

/-- WINDOW (R241). -/
def HodWork.window (k : HodWork) (h : Hod) (stream : Bytes) : HodWork :=
  let ker (lo : Nat) : Nat := h.win 0x94 (lo + 3) lo + 1
  let kp := 32 * ceilDiv (ker 0 * ker 4 * h.win 0xA0 15 0) 32
  let m := h.win 0xA4 15 0 * h.win 0x9C 15 0 * h.win 0x9C 31 16
  if h.dstTr then
    let tk := h.tileKt
    let units := (tiles 512 m).flatMap fun mb => (List.range h.repeat_).flatMap fun _ =>
      (List.range (ceilDiv kp tk)).flatMap fun kt => (tiles 32 mb.2).map fun g => (mb.1 + g.1, g.2, kt)
    units.foldl (fun (k : HodWork) (r0, n, kt) =>
      if k.w.dead then k
      else
        let (k, rows) := (List.range n).foldl (fun (acc : HodWork × Bytes) i =>
          let (k, codes) := acc.1.windowRow h stream (r0 + i) (kt * tk) tk
          (k, acc.2 ++ pack h.df codes)) (k, [])
        if k.w.dead then k else k.emit (h.trough 1) k.recD (padTo (32 * rowBytes h.df tk) rows)) k
  else
    (List.range m).foldl (fun (k : HodWork) r =>
      if k.w.dead then k
      else
        let (k, codes) := k.windowRow h stream r 0 kp
        k.write false (offsetAddr h.dst ((r : Int) * h.dstr 1)) (pack h.df codes)) k

/-- TILES (R242). -/
def HodWork.tilesRun (k : HodWork) (h : Hod) (stream : Bytes) : HodWork :=
  let n := h.count 1
  let tk := h.tileKt
  let units := (List.range h.repeat_).flatMap fun _ => (tiles 128 n).flatMap fun nt => (tiles tk (h.count 0)).map fun kt => (nt, kt)
  units.foldl (fun (k : HodWork) (nt, kt) =>
    if k.w.dead then k
    else
      let (k, data, scs) := (List.range nt.2).foldl (fun (acc : HodWork × Bytes × Bytes) i =>
        let r := nt.1 + i
        let bytes := kt.1 * fmtBits h.sf / 8
        let (k, codes, sc) := acc.1.source h stream ((r : Int) * h.sstr 1 + (bytes : Int)) (r * rowBytes h.sf (h.count 0) + bytes) kt.2
        let (k, codes, sc) := k.convert h codes sc
        (k, acc.2.1 ++ padTo 128 (pack h.df codes), acc.2.2 ++ padTo (tk / 32) sc)) (k, [], [])
      if k.w.dead then k
      else
        let data := padTo 0x4000 data
        let k := (k.emit (h.trough 1) k.recD (data.take 0x2000)).emit (h.trough 1) k.recD (data.drop 0x2000)
        if fmtBlock h.df then k.emit (h.trough 2) k.recS (padTo (4 * tk) scs) else k) k

/-- What a started descriptor of class 0x5 does. -/
def heRun (f : Flight) (w : Work) : Work :=
  let u := f.unit
  let h := Hod.of f.desc f.param
  let stream := (f.recsOf (h.trough 0)).flatten
  let param := dfield f.desc 0x60 8
  let k : HodWork :=
    { w := w, rd := (param, 256) :: (if h.qact then [(h.ssr, 128)] else []), wrs := [], wsc := [],
      lr := if h.srcTr && !h.trans then stream.length / 64 else 0, lw := 0,
      q := if h.qact then some (Ssr.derive h.ssr f.ssr) else none,
      recD := f.linesOf (h.trough 1) true, recS := f.linesOf (h.trough 2) true, buf := [], idxN := 0 }
  let k := if h.op = 4 then k.window h stream else if h.op = 5 then k.tilesRun h stream else k.move h u stream
  let w := k.w.openOutputs (rangesMeet (k.wrs ++ k.wsc) k.rd || rangesMeet k.wrs k.wsc)
  let w := match k.q with
    | some r => (w.ssrFinish r).openLate (rangesMeet k.wrs [(h.ssr, 128)])
    | none => w
  let w := if w.warn = 0 ∨ w.dead then w else { w with codes := (stIndexRange, 0) :: w.codes }
  (w.mapS fun s => (s.count (HE_RD_LINES u) k.lr).count (HE_WR_LINES u) k.lw).stalled (HE_STALL_CNT u) 56

/-- Start a mover descriptor, and run it once it has all its trough records. -/
def State.heFlight (s : State) (id op : Nat) : State := s.runStarted id 5 op heStart heRun

def execMoverMove (id : Nat) (s : State) : Out := live s fun s => s.heFlight id 1
def execGather (id : Nat) (s : State) : Out := live s fun s => s.heFlight id 2
def execScatter (id : Nat) (s : State) : Out := live s fun s => s.heFlight id 3
def execWindow (id : Nat) (s : State) : Out := live s fun s => s.heFlight id 4
def execTiles (id : Nat) (s : State) : Out := live s fun s => s.heFlight id 5

end Sys2Proof.Machine
end

