-- ==== Sys2Proof/Machine/Flate.lean ====
section
/-! DEFINITION. The decompressors of weight intake (Table 10.7): raw DEFLATE (RFC 1951) and one Zstandard frame (RFC 8878),
each from bytes to bytes, none where the stream is malformed. Every loop runs on fuel that the input's size bounds. -/

namespace Sys2Proof.Machine

/-- Bits [pos + n − 1 : pos] of a byte string read as one little-endian number; bits outside it are zero. -/
def bitsAt (d : Array Byte) (pos n : Nat) : Nat :=
  let b := pos / 8
  let v := (List.range (n / 8 + 2)).foldr (fun i acc => (d.getD (b + i) 0).toNat + 256 * acc) 0
  v / 2 ^ (pos % 8) % 2 ^ n

/-- Append a copy of `n` bytes that begin `dist` bytes back; none where they are not there. -/
def copyBackFuel : Nat → Nat → Array Byte → Array Byte
  | 0, _, out => out
  | n + 1, dist, out => copyBackFuel n dist (out.push (out.getD (out.size - dist) 0))

/-- A back-reference. -/
def copyBack (out : Array Byte) (dist n : Nat) : Option (Array Byte) :=
  if dist = 0 ∨ out.size < dist then none else some (copyBackFuel n dist out)

/-! DEFLATE. -/

/-- A canonical Huffman code: the number of codes of each length from 1, and the symbols in code order. -/
structure Huff where
  counts : List Nat
  syms   : Array Nat
deriving Repr

/-- Codes left over at the longest length: negative where over-subscribed. -/
def huffLeft (counts : List Nat) : Int := counts.foldl (fun (l : Int) (c : Nat) => 2 * l - (c : Int)) 1

/-- Build a code from its lengths; a set that is over-subscribed, or incomplete with more than one code, is refused. -/
def Huff.ofLens (lens : List Nat) : Option Huff :=
  let counts := (List.range 15).map fun i => (lens.filter (· == i + 1)).length
  let syms := (List.range 15).flatMap fun l => lens.zipIdx.filterMap fun (n, i) => if n = l + 1 then some i else none
  let left := huffLeft counts
  if left < 0 ∨ (0 < left ∧ 1 < syms.length) then none else some { counts := counts, syms := syms.toArray }

/-- Decode one symbol: lengths from the shortest; (symbol, position). -/
def huffSym (d : Array Byte) (syms : Array Nat) : List Nat → Nat → Nat → Nat → Nat → Option (Nat × Nat)
  | [], _, _, _, _ => none
  | c :: cs, pos, code, first, index =>
    let code := 2 * code + bitsAt d pos 1
    if code < first + c then (syms[index + (code - first)]?).map fun s => (s, pos + 1)
    else huffSym d syms cs (pos + 1) code (2 * (first + c)) (index + c)

/-- Decode one symbol at a position inside the data. -/
def Huff.next (h : Huff) (d : Array Byte) (pos : Nat) : Option (Nat × Nat) :=
  match huffSym d h.syms h.counts pos 0 0 0 with
  | some (s, p) => if p ≤ 8 * d.size then some (s, p) else none
  | none => none

/-- Base and extra bits of length symbols 257 on, and of distance symbols (RFC 1951, 3.2.5). -/
def flateLen : List (Nat × Nat) :=
  [(3, 0), (4, 0), (5, 0), (6, 0), (7, 0), (8, 0), (9, 0), (10, 0), (11, 1), (13, 1), (15, 1), (17, 1), (19, 2), (23, 2),
   (27, 2), (31, 2), (35, 3), (43, 3), (51, 3), (59, 3), (67, 4), (83, 4), (99, 4), (115, 4), (131, 5), (163, 5),
   (195, 5), (227, 5), (258, 0)]
def flateDist : List (Nat × Nat) :=
  [(1, 0), (2, 0), (3, 0), (4, 0), (5, 1), (7, 1), (9, 2), (13, 2), (17, 3), (25, 3), (33, 4), (49, 4), (65, 5), (97, 5),
   (129, 6), (193, 6), (257, 7), (385, 7), (513, 8), (769, 8), (1025, 9), (1537, 9), (2049, 10), (3073, 10), (4097, 11),
   (6145, 11), (8193, 12), (12289, 12), (16385, 13), (24577, 13)]

/-- Decode the symbols of a compressed block up to its end. -/
def flateBlock (d : Array Byte) (lit dist : Huff) : Nat → Nat → Array Byte → Option (Nat × Array Byte)
  | 0, _, _ => none
  | n + 1, pos, out =>
    match lit.next d pos with
    | none => none
    | some (s, pos) =>
      if s < 256 then flateBlock d lit dist n pos (out.push (BitVec.ofNat 8 s))
      else if s = 256 then some (pos, out)
      else
        match flateLen[s - 257]?, dist.next d (pos + ((flateLen[s - 257]?).getD (0, 0)).2) with
        | some (lb, le), some (t, pos2) =>
          (match flateDist[t]? with
           | some (db, de) =>
             match copyBack out (db + bitsAt d pos2 de) (lb + bitsAt d pos le) with
             | some out => flateBlock d lit dist n (pos2 + de) out
             | none => none
           | none => none)
        | _, _ => none

/-- The fixed codes (RFC 1951, 3.2.6). -/
def flateFixed : Option (Huff × Huff) :=
  let lens := List.replicate 144 8 ++ List.replicate 112 9 ++ List.replicate 24 7 ++ List.replicate 8 8
  match Huff.ofLens lens, Huff.ofLens (List.replicate 32 5) with
  | some a, some b => some (a, b)
  | _, _ => none

/-- Read the code lengths of a dynamic block. -/
def flateLens (d : Array Byte) (h : Huff) (total : Nat) : Nat → Nat → List Nat → Option (Nat × List Nat)
  | 0, _, _ => none
  | n + 1, pos, acc =>
    if total ≤ acc.length then (if acc.length = total then some (pos, acc) else none)
    else
      match h.next d pos with
      | none => none
      | some (s, pos) =>
        if s < 16 then flateLens d h total n pos (acc ++ [s])
        else if s = 16 then
          match acc.getLast? with
          | some x => flateLens d h total n (pos + 2) (acc ++ List.replicate (3 + bitsAt d pos 2) x)
          | none => none
        else if s = 17 then flateLens d h total n (pos + 3) (acc ++ List.replicate (3 + bitsAt d pos 3) 0)
        else flateLens d h total n (pos + 7) (acc ++ List.replicate (11 + bitsAt d pos 7) 0)

/-- The codes of a dynamic block (RFC 1951, 3.2.7). -/
def flateDynamic (d : Array Byte) (pos : Nat) : Option (Nat × Huff × Huff) :=
  let hlit := 257 + bitsAt d pos 5
  let hdist := 1 + bitsAt d (pos + 5) 5
  let hclen := 4 + bitsAt d (pos + 10) 4
  let order := [16, 17, 18, 0, 8, 7, 9, 6, 10, 5, 11, 4, 12, 3, 13, 2, 14, 1, 15]
  let lens := (List.range 19).map fun s =>
    match (order.take hclen).findIdx? (· == s) with
    | some i => bitsAt d (pos + 14 + 3 * i) 3
    | none => 0
  if 286 < hlit ∨ 30 < hdist then none
  else
    match Huff.ofLens lens with
    | none => none
    | some h =>
      match flateLens d h (hlit + hdist) (hlit + hdist + 1) (pos + 14 + 3 * hclen) [] with
      | none => none
      | some (pos, ls) =>
        if ls.getD 256 0 = 0 then none
        else
          match Huff.ofLens (ls.take hlit), Huff.ofLens (ls.drop hlit) with
          | some a, some b => some (pos, a, b)
          | _, _ => none

/-- Decode blocks to the last. -/
def flateBlocks (d : Array Byte) : Nat → Nat → Array Byte → Option (Nat × Array Byte)
  | 0, _, _ => none
  | n + 1, pos, out =>
    let final := bitsAt d pos 1
    let type := bitsAt d (pos + 1) 2
    let pos := pos + 3
    let r : Option (Nat × Array Byte) :=
      if 8 * d.size < pos then none
      else if type = 0 then
        let o := (pos + 7) / 8
        let len := bitsAt d (8 * o) 16
        if Nat.xor len (bitsAt d (8 * o + 16) 16) ≠ 0xFFFF ∨ d.size < o + 4 + len then none
        else some (8 * (o + 4 + len), out ++ d.extract (o + 4) (o + 4 + len))
      else if type = 1 then
        match flateFixed with
        | some (a, b) => flateBlock d a b (8 * d.size + 1) pos out
        | none => none
      else if type = 2 then
        match flateDynamic d pos with
        | some (pos, a, b) => flateBlock d a b (8 * d.size + 1) pos out
        | none => none
      else none
    match r with
    | none => none
    | some (pos, out) => if final = 1 then some (pos, out) else flateBlocks d n pos out

/-- Expand a raw DEFLATE stream that fills its bytes. -/
def inflate (bs : Bytes) : Option Bytes :=
  let d := bs.toArray
  match flateBlocks d (8 * d.size + 1) 0 #[] with
  | some (pos, out) => if (pos + 7) / 8 = d.size then some out.toList else none
  | none => none

/-! Zstandard. -/

/-- One cell of an FSE table: its symbol, the bits to read, and the base of the next state. -/
structure FseCell where
  sym  : Nat
  bits : Nat
  base : Nat
deriving Repr

/-- An FSE table: its accuracy and cells. -/
structure Fse where
  log   : Nat
  cells : Array FseCell
deriving Repr

/-- The run of symbols of probability zero after one: two bits at a time, while they are 3. -/
def fseZeros (d : Array Byte) : Nat → Nat → List Int → Nat × List Int
  | 0, pos, acc => (pos, acc)
  | f + 1, pos, acc =>
    let r := bitsAt d pos 2
    if r = 3 then fseZeros d f (pos + 2) (acc ++ List.replicate 3 0) else (pos + 2, acc ++ List.replicate r 0)

/-- The distribution of an FSE table, read forwards from a bit position (RFC 8878, 4.1.1); −1 for "less than one". -/
def fseCounts (d : Array Byte) (maxSyms : Nat) : Nat → Nat → Nat → List Int → Option (Nat × List Int)
  | 0, _, _, _ => none
  | n + 1, pos, remaining, acc =>
    if remaining = 0 then some (pos, acc)
    else if maxSyms ≤ acc.length then none
    else
      let k := Nat.log2 (remaining + 1) + 1
      let v := bitsAt d pos k
      let low := v % 2 ^ (k - 1)
      let thr := 2 ^ k - 1 - (remaining + 1)
      let (pos, v) := if low < thr then (pos + k - 1, low) else (pos + k, if 2 ^ (k - 1) ≤ v then v - thr else v)
      let p : Int := (v : Int) - 1
      let used := p.natAbs
      if remaining < used then none
      else if p ≠ 0 then fseCounts d maxSyms n pos (remaining - used) (acc ++ [p])
      else
        let (pos, acc) := fseZeros d maxSyms pos (acc ++ [0])
        fseCounts d maxSyms n pos remaining acc

/-- Next place for a symbol, passing over the cells from `high` on. -/
def fseSkip (mask step high : Nat) : Nat → Nat → Nat
  | 0, pos => pos
  | n + 1, pos => let p := Nat.land (pos + step) mask; if high ≤ p then fseSkip mask step high n p else p

/-- Build a table from a distribution. -/
def Fse.ofCounts (log : Nat) (counts : List Int) : Fse :=
  let size := 2 ^ log
  let lows := counts.zipIdx.filterMap fun (c, i) => if c = -1 then some i else none
  let high := size - lows.length
  let init := lows.zipIdx.foldl (fun (a : Array Nat) (s, i) => a.setIfInBounds (size - 1 - i) s) (Array.replicate size 0)
  let step := size / 2 + size / 8 + 3
  let places := counts.zipIdx.flatMap fun (c, i) => List.replicate c.toNat i
  let (syms, _) := places.foldl (fun (acc : Array Nat × Nat) s =>
    (acc.1.setIfInBounds acc.2 s, fseSkip (size - 1) step high size acc.2)) (init, 0)
  let start := (counts.map fun c => if c = -1 then 1 else c.toNat).toArray
  let (cells, _) := syms.toList.foldl (fun (acc : Array FseCell × Array Nat) s =>
    let next := acc.2.getD s 1
    let b := log - Nat.log2 next
    (acc.1.push { sym := s, bits := b, base := next * 2 ^ b - size }, acc.2.setIfInBounds s (next + 1))) (#[], start)
  { log := log, cells := cells }

/-- Read a table from a byte on: the next byte and the table. -/
def fseRead (d : Array Byte) (o maxLog maxSyms : Nat) : Option (Nat × Fse) :=
  let log := 5 + bitsAt d (8 * o) 4
  if maxLog < log then none
  else
    match fseCounts d maxSyms (maxSyms + 1) (8 * o + 4) (2 ^ log) [] with
    | some (pos, cs) => if pos ≤ 8 * d.size then some ((pos + 7) / 8, Fse.ofCounts log cs) else none
    | none => none

/-- A table that always gives one symbol (RLE mode). -/
def Fse.single (s : Nat) : Fse := { log := 0, cells := #[{ sym := s, bits := 0, base := 0 }] }

/-- Bits of a stream read backwards: the `n` bits below position `pos` of the stream that begins at bit `lo`; bits before
its start are zero. -/
def backBits (d : Array Byte) (lo : Nat) (pos : Int) (n : Nat) : Nat :=
  let from_ := pos - n
  if 0 ≤ from_ then bitsAt d (lo + from_.toNat) n
  else if pos ≤ 0 then 0
  else bitsAt d lo pos.toNat * 2 ^ (n - pos.toNat)

/-- Bits of a backward stream of bytes [o, e): those below the final-bit flag; none where the last byte is zero. -/
def backStart (d : Array Byte) (o e : Nat) : Option Int :=
  let last := (d.getD (e - 1) 0).toNat
  if e ≤ o ∨ d.size < e ∨ last = 0 then none else some ((8 * (e - 1 - o) + Nat.log2 last : Nat) : Int)

/-- The cell of a state. -/
def Fse.at (t : Fse) (st : Nat) : FseCell := t.cells.getD st { sym := 0, bits := 0, base := 0 }

/-- Huffman weights from two interleaved FSE states (RFC 8878, 4.2.1.2). -/
def fseWeights (d : Array Byte) (t : Fse) (lo : Nat) : Nat → Int → Nat → Nat → List Nat → Option (List Nat)
  | 0, _, _, _, _ => none
  | n + 1, pos, a, b, acc =>
    let c := t.at a
    let acc := acc ++ [c.sym]
    let a' := c.base + backBits d lo pos c.bits
    let pos := pos - c.bits
    if 255 < acc.length then none
    else if pos < 0 then some (acc ++ [(t.at b).sym])
    else fseWeights d t lo n pos b a' acc

/-- A Huffman table for literals: its depth, and (symbol, bits) for each value of that many bits. -/
structure HufTab where
  max : Nat
  tab : Array (Nat × Nat)
deriving Repr

/-- Build the table from the weights, the last one left out (RFC 8878, 4.2.1). -/
def HufTab.ofWeights (ws : List Nat) : Option HufTab :=
  let sum := (ws.map fun w => if w = 0 then 0 else 2 ^ (w - 1)).foldl (· + ·) 0
  if sum = 0 ∨ ws.any fun w => decide (11 < w) then none
  else
    let max := Nat.log2 sum + 1
    let left := 2 ^ max - sum
    let last := Nat.log2 left + 1
    if 11 < max ∨ 2 ^ (last - 1) ≠ left then none
    else
      let all := ws ++ [last]
      some { max := max, tab := ((List.range max).flatMap fun w => all.zipIdx.flatMap fun (x, s) =>
        if x = w + 1 then List.replicate (2 ^ w) (s, max - w) else []).toArray }

/-- Read the tree description at byte o: the next byte and the table. -/
def hufRead (d : Array Byte) (o : Nat) : Option (Nat × HufTab) :=
  let h := (d.getD o 0).toNat
  if 128 ≤ h then
    let n := h - 127
    let ws := (List.range n).map fun i =>
      let b := (d.getD (o + 1 + i / 2) 0).toNat
      if i % 2 = 0 then b / 16 else b % 16
    (HufTab.ofWeights ws).map fun t => (o + 1 + (n + 1) / 2, t)
  else
    match fseRead d (o + 1) 6 13 with
    | none => none
    | some (p, t) =>
      let e := o + 1 + h
      match backStart d p e with
      | none => none
      | some bits =>
        let a := backBits d (8 * p) bits t.log
        let b := backBits d (8 * p) (bits - t.log) t.log
        if bits < 2 * (t.log : Int) then none
        else
          match fseWeights d t (8 * p) 300 (bits - 2 * t.log) a b [] with
          | none => none
          | some ws => (HufTab.ofWeights ws).map fun t => (e, t)

/-- Decode one literal stream to its end. -/
def hufStream (d : Array Byte) (t : HufTab) (lo : Nat) : Nat → Int → Array Byte → Option (Array Byte)
  | 0, _, _ => none
  | n + 1, pos, out =>
    if pos = 0 then some out
    else if pos < 0 then none
    else
      let (s, b) := t.tab.getD (backBits d lo pos t.max) (0, 1)
      hufStream d t lo n (pos - b) (out.push (BitVec.ofNat 8 s))

/-- Decode the literal stream of bytes [o, e). -/
def hufBytes (d : Array Byte) (t : HufTab) (o e : Nat) : Option (Array Byte) :=
  match backStart d o e with
  | none => none
  | some bits => hufStream d t (8 * o) (bits.toNat + 2) bits #[]

/-- What a block hands to the next: the output, the literal table, the three sequence tables, and the repeat offsets. -/
structure ZState where
  out  : Array Byte
  huf  : Option HufTab
  ll   : Option Fse
  of_  : Option Fse
  ml   : Option Fse
  reps : Nat × Nat × Nat
deriving Repr

/-- The literals section at byte o of a block that ends at e: the next byte, the literals and the table. -/
def zLiterals (d : Array Byte) (o e : Nat) (huf : Option HufTab) : Option (Nat × Array Byte × Option HufTab) :=
  let b := bitsAt d (8 * o) 40
  let type := b % 4
  let sf := b / 4 % 4
  let (hdr, size) := if sf % 2 = 0 then (1, b / 8 % 32) else if sf = 1 then (2, b / 16 % 4096) else (3, b / 16 % 2 ^ 20)
  if type = 0 then
    if e < o + hdr + size then none else some (o + hdr + size, d.extract (o + hdr) (o + hdr + size), huf)
  else if type = 1 then
    if e < o + hdr + 1 ∨ 0x20000 < size then none
    else some (o + hdr + 1, Array.replicate size (d.getD (o + hdr) 0), huf)
  else
    let w := if sf < 2 then 10 else if sf = 2 then 14 else 18
    let hdr := if sf < 2 then 3 else if sf = 2 then 4 else 5
    let regen := b / 16 % 2 ^ w
    let comp := b / 2 ^ (4 + w) % 2 ^ w
    let o := o + hdr
    let stop := o + comp
    let tree := if type = 2 then hufRead d o else huf.map fun t => (o, t)
    match tree with
    | none => none
    | some (o, t) =>
      if e < stop ∨ stop < o ∨ 0x20000 < regen then none
      else if sf = 0 then
        match hufBytes d t o stop with
        | some l => if l.size = regen then some (stop, l, some t) else none
        | none => none
      else
        let a := o + 6
        let b1 := a + bitsAt d (8 * o) 16
        let b2 := b1 + bitsAt d (8 * o + 16) 16
        let b3 := b2 + bitsAt d (8 * o + 32) 16
        let part := (regen + 3) / 4
        match hufBytes d t a b1, hufBytes d t b1 b2, hufBytes d t b2 b3, hufBytes d t b3 stop with
        | some w, some x, some y, some z =>
          if w.size = part ∧ x.size = part ∧ y.size = part ∧ 3 * part + z.size = regen then
            some (stop, w ++ x ++ y ++ z, some t)
          else none
        | _, _, _, _ => none

/-- Baselines and extra bits of literal-length and match-length codes (RFC 8878, 3.1.1.3.2.1.1). -/
def zLL : Array (Nat × Nat) :=
  ((List.range 16).map (fun i => (i, 0)) ++
    [(16, 1), (18, 1), (20, 1), (22, 1), (24, 2), (28, 2), (32, 3), (40, 3), (48, 4), (64, 6), (128, 7), (256, 8),
     (512, 9), (1024, 10), (2048, 11), (4096, 12), (8192, 13), (16384, 14), (32768, 15), (65536, 16)]).toArray
def zML : Array (Nat × Nat) :=
  ((List.range 32).map (fun i => (i + 3, 0)) ++
    [(35, 1), (37, 1), (39, 1), (41, 1), (43, 2), (47, 2), (51, 3), (59, 3), (67, 4), (83, 4), (99, 5), (131, 7), (259, 8),
     (515, 9), (1027, 10), (2051, 11), (4099, 12), (8195, 13), (16387, 14), (32771, 15), (65539, 16)]).toArray

/-- The default distributions (RFC 8878, 3.1.1.3.2.2). -/
def zDefLL : Fse := Fse.ofCounts 6
  [4, 3, 2, 2, 2, 2, 2, 2, 2, 2, 2, 2, 2, 1, 1, 1, 2, 2, 2, 2, 2, 2, 2, 2, 2, 3, 2, 1, 1, 1, 1, 1, -1, -1, -1, -1]
def zDefML : Fse := Fse.ofCounts 6
  ([1, 4, 3, 2, 2, 2, 2, 2, 2] ++ List.replicate 37 1 ++ List.replicate 7 (-1))
def zDefOF : Fse := Fse.ofCounts 5
  ([1, 1, 1, 1, 1, 1, 2, 2, 2] ++ List.replicate 15 1 ++ List.replicate 5 (-1))

/-- One sequence table by its mode: the next byte and the table. -/
def zTable (d : Array Byte) (o mode : Nat) (dflt : Fse) (prev : Option Fse) (maxLog maxSyms : Nat) : Option (Nat × Fse) :=
  if mode = 0 then some (o, dflt)
  else if mode = 1 then
    (let s := (d.getD o 0).toNat
     if d.size ≤ o ∨ maxSyms ≤ s then none else some (o + 1, Fse.single s))
  else if mode = 2 then fseRead d o maxLog maxSyms
  else prev.map fun t => (o, t)

/-- The offset a sequence uses, and the repeat offsets after it (RFC 8878, 3.1.1.5). -/
def zOffset (v ll : Nat) (r : Nat × Nat × Nat) : Nat × (Nat × Nat × Nat) :=
  let (a, b, c) := r
  if 3 < v then (v - 3, (v - 3, a, b))
  else
    let i := v - 1 + (if ll = 0 then 1 else 0)
    if i = 0 then (a, r)
    else if i = 1 then (b, (b, a, c))
    else if i = 2 then (c, (c, a, b))
    else (a - 1, (a - 1, a, b))

/-- Tables and stream of a block's sequences. -/
structure ZSeq where
  ll : Fse
  of_ : Fse
  ml : Fse
  lo : Nat
  window : Nat
deriving Repr

/-- Run the sequences: literals copied, then the match; the literal position, position, states, output and repeats. -/
def zSequences (d : Array Byte) (z : ZSeq) (lits : Array Byte) :
    Nat → Int → Nat × Nat × Nat → Nat → Array Byte → Nat × Nat × Nat → Option (Int × Nat × Array Byte × (Nat × Nat × Nat))
  | 0, pos, _, lp, out, r => some (pos, lp, out, r)
  | n + 1, pos, (sl, so, sm), lp, out, r =>
    let cl := z.ll.at sl
    let co := z.of_.at so
    let cm := z.ml.at sm
    let v := 2 ^ co.sym + backBits d z.lo pos co.sym
    let pos := pos - co.sym
    let (mb, me) := zML.getD cm.sym (0, 0)
    let m := mb + backBits d z.lo pos me
    let pos := pos - me
    let (lb, le) := zLL.getD cl.sym (0, 0)
    let l := lb + backBits d z.lo pos le
    let pos := pos - le
    let (dist, r) := zOffset v l r
    let (pos, st) :=
      if n = 0 then (pos, (sl, so, sm))
      else
        let sl := cl.base + backBits d z.lo pos cl.bits
        let pos := pos - cl.bits
        let sm := cm.base + backBits d z.lo pos cm.bits
        let pos := pos - cm.bits
        let so := co.base + backBits d z.lo pos co.bits
        (pos - co.bits, (sl, so, sm))
    if pos < 0 ∨ lits.size < lp + l ∨ z.window < dist ∨ 31 < co.sym then none
    else
      match copyBack (out ++ lits.extract lp (lp + l)) dist m with
      | some out => zSequences d z lits n pos st (lp + l) out r
      | none => none

/-- A compressed block of bytes [o, e). -/
def zCompressed (d : Array Byte) (o e window : Nat) (st : ZState) : Option ZState :=
  match zLiterals d o e st.huf with
  | none => none
  | some (o, lits, huf) =>
    let b0 := (d.getD o 0).toNat
    let b1 := (d.getD (o + 1) 0).toNat
    let (hdr, n) :=
      if b0 < 128 then (1, b0) else if b0 < 255 then (2, (b0 - 128) * 256 + b1)
      else (3, b1 + 256 * (d.getD (o + 2) 0).toNat + 0x7F00)
    if e < o + hdr then none
    else if n = 0 then (if o + hdr = e then some { st with out := st.out ++ lits, huf := huf } else none)
    else
      let modes := (d.getD (o + hdr) 0).toNat
      if modes % 4 ≠ 0 then none
      else
        match zTable d (o + hdr + 1) (modes / 64) zDefLL st.ll 9 36 with
        | none => none
        | some (o, ll) =>
          match zTable d o (modes / 16 % 4) zDefOF st.of_ 8 32 with
          | none => none
          | some (o, of_) =>
            match zTable d o (modes / 4 % 4) zDefML st.ml 9 53 with
            | none => none
            | some (o, ml) =>
              match backStart d o e with
              | none => none
              | some bits =>
                let lo := 8 * o
                let sl := backBits d lo bits ll.log
                let bits := bits - ll.log
                let so := backBits d lo bits of_.log
                let bits := bits - of_.log
                let sm := backBits d lo bits ml.log
                let z : ZSeq := { ll := ll, of_ := of_, ml := ml, lo := lo, window := window }
                match zSequences d z lits n (bits - ml.log) (sl, so, sm) 0 st.out st.reps with
                | some (pos, lp, out, r) =>
                  if pos = 0 then
                    some { out := out ++ lits.extract lp lits.size, huf := huf, ll := some ll, of_ := some of_,
                           ml := some ml, reps := r }
                  else none
                | none => none

/-- Decode blocks to the last: the next byte and the output. -/
def zBlocks (d : Array Byte) (window : Nat) : Nat → Nat → ZState → Option (Nat × Array Byte)
  | 0, _, _ => none
  | n + 1, o, st =>
    let h := bitsAt d (8 * o) 24
    let type := h / 2 % 4
    let size := h / 8
    let o := o + 3
    let limit := min 0x20000 window
    let r : Option (Nat × ZState) :=
      if d.size < o ∨ limit < size then none
      else if type = 0 then
        if d.size < o + size then none else some (o + size, { st with out := st.out ++ d.extract o (o + size) })
      else if type = 1 then
        if d.size < o + 1 then none else some (o + 1, { st with out := st.out ++ Array.replicate size (d.getD o 0) })
      else if type = 2 then
        if d.size < o + size then none
        else
          match zCompressed d o (o + size) window st with
          | some st' => if st.out.size + limit < st'.out.size then none else some (o + size, st')
          | none => none
      else none
    match r with
    | none => none
    | some (o, st) => if h % 2 = 1 then some (o, st.out) else zBlocks d window n o st

/-- Primes of XXH64. -/
def xx1 : DWord := 0x9E3779B185EBCA87
def xx2 : DWord := 0xC2B2AE3D27D4EB4F
def xx3 : DWord := 0x165667B19E3779F9
def xx4 : DWord := 0x85EBCA77C2B2AE63
def xx5 : DWord := 0x27D4EB2F165667C5

/-- One round of XXH64. -/
def xxRound (acc v : DWord) : DWord := (acc + v * xx2).rotateLeft 31 * xx1

/-- XXH64 with seed 0, of which a frame's checksum holds the low 32 bits (RFC 8878, 3.1.1). -/
def xxh64 (bs : Bytes) : DWord :=
  let word (b : Bytes) : DWord := BitVec.ofNat 64 (leNat b)
  let n := bs.length
  let stripes := chunks 32 (bs.take (n / 32 * 32))
  let rest := bs.drop (n / 32 * 32)
  let h : DWord :=
    if n < 32 then xx5
    else
      let (a, b, c, d) := stripes.foldl (fun (v : DWord × DWord × DWord × DWord) s =>
        let (a, b, c, d) := v
        (xxRound a (word (s.take 8)), xxRound b (word ((s.drop 8).take 8)), xxRound c (word ((s.drop 16).take 8)),
          xxRound d (word (s.drop 24)))) (xx1 + xx2, xx2, 0, 0 - xx1)
      let merge (h v : DWord) : DWord := (h ^^^ xxRound 0 v) * xx1 + xx4
      merge (merge (merge (merge (a.rotateLeft 1 + b.rotateLeft 7 + c.rotateLeft 12 + d.rotateLeft 18) a) b) c) d
  let h := h + BitVec.ofNat 64 n
  let m := rest.length
  let h := (chunks 8 (rest.take (m / 8 * 8))).foldl (fun h b => (h ^^^ xxRound 0 (word b)).rotateLeft 27 * xx1 + xx4) h
  let rest := rest.drop (m / 8 * 8)
  let h := if 4 ≤ rest.length then (h ^^^ (word (rest.take 4) * xx1)).rotateLeft 23 * xx2 + xx3 else h
  let rest := if 4 ≤ rest.length then rest.drop 4 else rest
  let h := rest.foldl (fun h b => (h ^^^ (b.setWidth 64 * xx5)).rotateLeft 11 * xx1) h
  let h := (h ^^^ (h >>> 33)) * xx2
  let h := (h ^^^ (h >>> 29)) * xx3
  h ^^^ (h >>> 32)

/-- Expand one Zstandard frame that fills its bytes: a window of up to 8 MiB and no dictionary (Table 10.7). -/
def unzstd (bs : Bytes) : Option Bytes :=
  let d := bs.toArray
  let fhd := (d.getD 4 0).toNat
  let single := bit fhd 5
  let fcsLen := if fhd / 64 = 0 then (if single then 1 else 0) else 2 ^ (fhd / 64)
  let didLen := [0, 1, 2, 4].getD (fhd % 4) 0
  let o := if single then 5 else 6
  let did := bitsAt d (8 * o) (8 * didLen)
  let o := o + didLen
  let fcs := bitsAt d (8 * o) (8 * fcsLen) + (if fcsLen = 2 then 256 else 0)
  let wd := (d.getD 5 0).toNat
  let base := 2 ^ (10 + wd / 8)
  let window := if single then fcs else base + base / 8 * (wd % 8)
  let o := o + fcsLen
  if bitsAt d 0 32 ≠ 0xFD2FB528 ∨ bit fhd 3 ∨ did ≠ 0 ∨ d.size < o ∨ 0x800000 < window then none
  else
    match zBlocks d window (d.size + 1) o
      { out := #[], huf := none, ll := none, of_ := none, ml := none, reps := (1, 4, 8) } with
    | none => none
    | some (o, out) =>
      let sum := bit fhd 2
      let e := if sum then o + 4 else o
      let out := out.toList
      if e ≠ d.size ∨ (fcsLen ≠ 0 ∧ fcs ≠ out.length) then none
      else if sum ∧ bitsAt d (8 * o) 32 ≠ (xxh64 out).toNat % 2 ^ 32 then none
      else some out

end Sys2Proof.Machine
end

