-- ==== Sys2Proof/Machine/Nand.lean ====
section
/-! DEFINITION. The NAND tier beneath Quarry's moves (R297 to R304): channels, superblocks and wear, retirement of blocks,
and the read-only state. Placement is not visible; what the spec leaves open in it is a free value. -/

namespace Sys2Proof.Machine

/-- Key of a byte of a tensor held in the NAND tier: tensors are at most 2^38 bytes (Table 10.2). -/
def nandKey (idx off : Nat) : Nat := place idx 38 + off

/-- 64 KiB units of a size. -/
def units64 (n : Nat) : Nat := ceilDiv n 0x10000

/-- The superblock at an index of a channel; one not listed is fresh. -/
def State.superblock (s : State) (ch i : Nat) : Superblock :=
  (s.nandSb.find? fun b => decide (b.ch = ch) && decide (b.idx = i)).getD
    { ch := ch, idx := i, erases := 0, reads := [], units := [], st := .free }

/-- Replace a superblock. -/
def State.putSuperblock (s : State) (b : Superblock) : State :=
  { s with nandSb := (s.nandSb.filter fun x => !(decide (x.ch = b.ch) && decide (x.idx = b.idx))) ++ [b] }

/-- Whether a channel is in service: trained and not taken out (R300). -/
def State.nandIn (s : State) (ch : Nat) : Bool := s.regBit QC_NAND_STATUS (16 + ch)

/-- Whether the tier is ready for moves (R299), and whether it is read-only (R303). -/
def State.nandReady (s : State) : Bool := s.regBit QC_NAND_STATUS 0
def State.nandRo (s : State) : Bool := s.regBit QC_NAND_STATUS 2

/-- User capacity in 64 KiB units: 6.5 TiB less 416 GiB for each channel out of service (R300). -/
def State.nandCapacity (s : State) : Nat := ((List.range 16).filter s.nandIn).length * 416 * 16384

/-- The lowest fresh superblock index of a channel, where one is left. -/
def State.freshSb (s : State) (ch : Nat) : Option Nat :=
  let used := (s.nandSb.filter fun b => decide (b.ch = ch)).map (·.idx)
  let i := ((List.range (used.length + 1)).find? fun i => !used.contains i).getD used.length
  if i < Config.nandSuperblocks then some i else none

/-- A free superblock with the lowest erase count (R301); which of several is a free value. -/
def State.pickSb (s : State) : Option Superblock :=
  let fresh := (List.range 16).filterMap fun ch => if s.nandIn ch then (s.freshSb ch).map (s.superblock ch) else none
  let freed := s.nandSb.filter fun b => decide (b.st = .free) && s.nandIn b.ch
  let all := fresh ++ freed
  let low := minOr 0 (all.map (·.erases))
  let best := all.filter fun b => decide (b.erases = low)
  best[Config.freeNat s.free % best.length]?

/-- Write units to free superblocks, counting the units the dies take; fuel: the number of units. -/
def State.nandWriteFuel : Nat → State → List (Nat × Nat) → State
  | 0, s, _ => s
  | _, s, [] => s
  | n + 1, s, us =>
    match s.pickSb with
    | none => s
    | some b =>
      let k := max 1 Config.nandSbUnits
      let units := (us.take k).zipIdx.map fun ((i, u), j) => ({ idx := i, unit := u, blk := Config.nandUnitBlock j } : NandUnit)
      State.nandWriteFuel n (s.tick.putSuperblock { b with units := units, st := .holding }) (us.drop k)

/-- Write units to the dies. -/
def State.nandWrite (s : State) (us : List (Nat × Nat)) : State :=
  (State.nandWriteFuel us.length s us).count QC_NAND_MEDIA_WR us.length

/-- Show the erase backlog in QC_NAND_STATUS[1]. -/
def State.showBacklog (s : State) : State :=
  s.setBit QC_NAND_STATUS 1 (s.nandSb.any fun b => decide (b.st = .dirty))

/-- Forget units: a superblock that holds no more is to be erased (R299). -/
def State.nandForget (s : State) (gone : NandUnit → Bool) : State :=
  ({ s with nandSb := s.nandSb.map fun (b : Superblock) =>
      let us := b.units.filter fun u => !gone u
      { b with units := us, st := if us.isEmpty ∧ b.st = SbState.holding then SbState.dirty else b.st } }).showBacklog

/-- Give a tensor of `n` bytes its place in the tier. -/
def State.nandPlace (s : State) (idx n : Nat) : State := s.nandWrite ((List.range (units64 n)).map fun i => (idx, i))

/-- Release a tensor's place in the tier and its bytes. -/
def State.nandRelease (s : State) (idx : Nat) : State :=
  { s.nandForget fun u => decide (u.idx = idx) with
    nandBytes := smapClear (fun k => decide (k / 2 ^ 38 = idx)) s.nandBytes }

/-- Reading a tensor adds to the read counts of the erase blocks that hold it; how many reads a unit takes is open. -/
def State.nandReads (s : State) (idx : Nat) : State :=
  { s.tick with nandSb := s.nandSb.map fun (b : Superblock) =>
      { b with reads := (b.units.filter fun u => decide (u.idx = idx)).foldl (fun m u =>
          smapSet (fun _ => 0) m u.blk (smapGet (fun _ => 0) m u.blk + 1 + Config.freeNat s.free)) b.reads } }

/-- Lowest and highest erase count (QC_NAND_EC). -/
def State.nandEc (s : State) : Nat × Nat :=
  let es := s.nandSb.map (·.erases)
  let lo := if s.nandSb.length < 16 * Config.nandSuperblocks then 0 else minOr 0 es
  (lo, maxOr 0 es)

/-- QC_NAND_LIFE: the mean erase count as a share of 3,000, in 0.01 %, saturating. -/
def State.nandLife (s : State) : Nat :=
  min 0xFFFF ((s.nandSb.map (·.erases)).foldl (· + ·) 0 * 10000 / (3000 * (16 * Config.nandSuperblocks)))

/-- Enter or leave the read-only state as the spare area asks (R303). -/
def State.nandSpare (s : State) (left : Nat) : State :=
  let s := s.setField QC_NAND_RETIRED 63 32 left
  if 100 * left < Config.nandDataBlocks ∧ !s.nandRo then
    let s := s.setBit QC_NAND_STATUS 2 true
    s.pfEvent { type := 0x0013, cls := classCode .qc, arg0 := s.regN QC_NAND_STATUS }
  else if Config.nandDataBlocks < 50 * left then s.setBit QC_NAND_STATUS 2 false
  else s

/-- Retire blocks that failed a program or an erase (R303). -/
def State.nandRetire (s : State) (n : Nat) : State :=
  if n = 0 then s
  else (s.setField QC_NAND_RETIRED 31 0 (s.field QC_NAND_RETIRED 31 0 + n)).nandSpare (s.field QC_NAND_RETIRED 63 32 - n)

/-- One corrected codeword adds to its channel's leaky count; at the threshold no spare is free (R420, R422). -/
def State.nandLeak (s : State) (ch : Nat) : State :=
  let c := min 0xFFFF (smapGet (fun _ => 0) s.nandCnt ch + 1)
  let s := ({ s with nandCnt := smapSet (fun _ => 0) s.nandCnt ch c }).blkErr .qc 0 0
  if s.errThresh .qc 0 ≤ c then (s.blkErr .qc 0 2).noSpare .qc 0 ch c else s

/-- Corrected codewords of a channel. -/
def State.nandCorrected (s : State) (ch n : Nat) : State := (List.range n).foldl (fun s _ => s.nandLeak ch) s

/-- Count what the channels report over one operation (R298, R303). What a block that failed a program already held is written
again elsewhere; how many units that are is open. -/
def State.nandReport (s : State) (rep : List NandReport) : State :=
  rep.foldl (fun s r =>
    let ch := r.ch.val
    let s := (s.count (QC_NCH_CEC ch) r.cec).count (QC_NCH_RETRY ch) r.retry
    let s := s.count QC_NAND_UEC r.uec
    let s := if r.retired = 0 then s else (s.count QC_NAND_MEDIA_WR (Config.freeNat s.free)).tick
    (s.nandCorrected ch (r.cec + r.retry)).nandRetire r.retired) s

/-- Poison the tensors that hold codewords a background copy of some units could not decode (R274, R298). -/
def State.nandLost (s : State) (rep : List NandReport) (us : List NandUnit) : State :=
  let lost := ((rep.flatMap fun r => r.lost).filter fun i => us.any fun u => decide (u.idx = i)).eraseDups
  lost.foldl (fun (s : State) i => if (s.tensor i).poisoned then s else s.poisonTensor i) s

/-- Whether a channel has ended its training. -/
def State.nandTrained (s : State) (ch : Nat) : Bool := s.regBit (QC_NCH_STAT ch) 0 || s.regBit (QC_NCH_STAT ch) 1

/-- NAND_CHANNEL_TRAINING: a channel's start-up training ends (R300); the tier is ready once every channel's has (R299). -/
def execNandChannelTraining (ch : Fin 16) (ok : Bool) (trn : BitVec 24) (temp : Byte) (s : State) : Out := live s fun s =>
  if s.nandTrained ch then s
  else
    let s := s.setRegN (QC_NCH_STAT ch) ((if ok then 1 else 2) + place temp.toNat 8)
    let s := { s.setRegN (QC_NCH_TRN ch) trn.toNat with nandTemp := smapSet (fun _ => 0) s.nandTemp ch temp }
    let s := s.setBit QC_NAND_STATUS (16 + ch.val) ok
    let s := if (List.range 16).all s.nandTrained then
        ((s.setBit QC_NAND_STATUS 0 true).setField QC_NAND_RETIRED 63 32 Config.nandSpareBlocks).showBacklog
      else s
    if ok then s else s.pfEvent { type := 0x0013, cls := classCode .qc, arg0 := s.regN QC_NAND_STATUS }

/-- NAND_BACKGROUND_ERASE: a freed superblock is erased, or one of its blocks fails and is replaced (R299, R303). How much
of the spare area an erase returns is open. -/
def execNandBackgroundErase (ch : Fin 16) (sb : Nat) (ok : Bool) (s : State) : Out := live s fun s =>
  let b := s.superblock ch sb
  if b.st = .dirty ∧ s.nandIn ch then
    let s := (s.putSuperblock { b with erases := b.erases + 1, reads := [], st := .free }).showBacklog
    if ok then s.tick.nandSpare (s.field QC_NAND_RETIRED 63 32 + Config.freeNat s.free) else s.nandRetire 1
  else s

/-- NAND_DQ_RETRAIN: the die temperature, and new DQ settings where it has changed by more than 20 °C since the last training
(Table 12.1, R320). -/
def execNandDqRetrain (ch : Fin 16) (trn : BitVec 24) (temp : Byte) (s : State) : Out := live s fun s =>
  let old := signedOf 8 (smapGet (fun _ => (0 : Byte)) s.nandTemp ch).toNat
  if s.nandIn ch then
    let s := s.setField (QC_NCH_STAT ch) 15 8 temp.toNat
    if 20 < (signedOf 8 temp.toNat - old).natAbs then
      { s.setRegN (QC_NCH_TRN ch) trn.toNat with nandTemp := smapSet (fun _ => 0) s.nandTemp ch temp }
    else s
  else s

/-- Copy some units of a superblock to a free superblock; once it holds no more it is erased. -/
def State.nandRelocate (s : State) (b : Superblock) (rep : List NandReport) (us : List NandUnit) : State :=
  let left := b.units.filter fun u => !us.contains u
  let s := s.putSuperblock { b with units := left, st := if left.isEmpty then .dirty else b.st }
  (((s.nandWrite (us.map fun u => (u.idx, u.unit))).nandReport rep).nandLost rep us).showBacklog

/-- WEAR_LEVEL_RELOCATION (R301). -/
def execWearLevelRelocation (s : State) (rep : List NandReport := []) : Out := live s fun s =>
  let (lo, hi) := s.nandEc
  let held := s.nandSb.filter fun b => decide (b.st = .holding)
  let low := minOr 0 (held.map (·.erases))
  if lo + s.field QC_NAND_WL_DELTA 15 0 < hi then
    match held.find? fun b => decide (b.erases = low) with
    | some b => (s.nandRelocate b rep b.units).count QC_NAND_WL_CNT 1
    | none => s
  else s

/-- READ_DISTURB_COPY: the valid data of one erase block whose reads have come to the threshold (R302). -/
def execReadDisturbCopy (ch : Fin 16) (sb : Nat) (s : State) (blk : Nat := 0) (rep : List NandReport := []) : Out := live s fun s =>
  let b := s.superblock ch sb
  let us := b.units.filter fun u => decide (u.blk = blk)
  if b.st = .holding ∧ us ≠ [] ∧ s.field QC_NAND_RD_THRESH 23 0 ≤ smapGet (fun _ => 0) b.reads blk then
    (s.nandRelocate b rep us).count QC_NAND_RD_RELOC 1
  else s

end Sys2Proof.Machine
end

