-- ==== Sys2Proof/Machine/Space.lean ====
section
/-! DEFINITION. Tenant space: granules and their physical places (R69, R249, R250), charges and quotas (R261, R262). -/

namespace Sys2Proof.Machine

/-- No reserved range in a tier (Table 10.2). -/
def noOffset : Nat := 0xFFFFFFFFFFFFFFFF

/-- The granules of a range of a tier, as (offset in 64 KiB units, whether 2 MiB): 2 MiB wherever an HBM range covers a
whole aligned 2 MiB, 64 KiB elsewhere (R250). -/
def granFuel (bed : Bool) : Nat → Nat → Nat → List (Nat × Bool)
  | 0, _, _ => []
  | f + 1, off, stop =>
    if stop ≤ off then []
    else if !bed ∧ off % 0x200000 = 0 ∧ off + 0x200000 ≤ stop then (off / 0x10000, true) :: granFuel bed f (off + 0x200000) stop
    else (off / 0x10000, false) :: granFuel bed f (off + 0x10000) stop

def granules (bed : Bool) (off n : Nat) : List (Nat × Bool) := granFuel bed (units64 n + 1) off (off + n)

/-- Charge of granules in 64 KiB units (Table 10.6). -/
def granCharge (gs : List (Nat × Bool)) : Nat := (gs.map fun g => if g.2 then 32 else 1).foldl (· + ·) 0

/-- Charge of entries. -/
def entCharge (es : List XEntry) : Nat := (es.map XEntry.units).foldl (· + ·) 0

/-- Entries that hold physical space and are not yet in force: of moves, intakes and map operations. -/
def State.pendingEnts (s : State) : List XEntry :=
  s.moves.flatMap (·.ents) ++ s.builds.flatMap (·.ents) ++ s.mapOp.flatMap fun m => m.2.ents

/-- Granules a tenant is charged for in a tier (R261, R262). -/
def State.usage (s : State) (t : Nat) (bed : Bool) : Nat :=
  entCharge ((s.xlat ++ s.pendingEnts).filter fun e => decide (e.tenant = t) && e.bed == bed)

/-- NAND units a tenant is charged for: tensors homed there, moving there, or being built there. -/
def State.nandUsage (s : State) (t : Nat) : Nat :=
  let size (i : Nat) : Nat := if (s.tensor i).tenant = t then units64 (s.tensor i).bytes else 0
  let homed := (s.tensors.filter fun e => e.2.used && decide (e.2.home = 3) && decide (e.2.tenant = t)).map fun e => units64 e.2.bytes
  let moving := (s.moves.filter fun m => decide (m.tier = 3)).map fun m => size m.idx
  let built := (s.builds.filter fun b => decide (b.tier = 3)).map fun b => size b.idx
  (homed ++ moving ++ built).foldl (· + ·) 0

/-- NAND units in use by every tenant. -/
def State.nandUsed (s : State) : Nat := ((List.range 16).map s.nandUsage).foldl (· + ·) 0

/-- Physical 64 KiB unit ranges of a tier that are taken: entries in force or pending, regions of the secure world, the
staging area and the survivor area (R383). -/
def State.taken (s : State) (bed : Bool) (extra : List XEntry) : List (Nat × Nat) :=
  let tier := if bed then 0 else 1
  ((s.xlat ++ s.pendingEnts ++ extra).filter fun e => e.bed == bed).map (fun e => (e.phys, e.units))
    ++ ((s.regions tier).filterMap fun e =>
      if bit e 0 && bit e 1 then some (bits e 35 8, bits e 63 36 + 1 - bits e 35 8) else none)
    ++ if bed then [] else [(0, 256), (s.regN CMD_SURV_ADDR / 0x10000, 1)]

/-- First free place for `n` units aligned to `n` at or after `c`. -/
def fitFuel (taken : List (Nat × Nat)) (total n : Nat) : Nat → Nat → Option Nat
  | 0, _ => none
  | f + 1, c =>
    let c := ceilDiv c n * n
    if total < c + n then none
    else
      match taken.find? fun r => decide (r.1 < c + n) && decide (c < r.1 + r.2) with
      | none => some c
      | some r => fitFuel taken total n f (r.1 + r.2)

/-- Units of a tier. -/
def tierUnits (bed : Bool) : Nat := if bed then bedSize / 0x10000 else hbmSize / 0x10000

/-- A free place for a granule: the first from a free value on, else the first of all. -/
def State.fit (s : State) (bed : Bool) (extra : List XEntry) (n : Nat) : Option Nat :=
  let tk := s.taken bed extra
  let f := tk.length + 1
  (fitFuel tk (tierUnits bed) n f (Config.freeNat s.free % tierUnits bed)).or (fitFuel tk (tierUnits bed) n f 0)

/-- Take physical space for granules: their entries, or none where space runs out. -/
def State.placeGranules (s : State) (t : Nat) (bed ro : Bool) (src : Option Nat) (gs : List (Nat × Bool)) :
    State × Option (List XEntry) :=
  gs.foldl (fun (acc : State × Option (List XEntry)) g =>
    match acc with
    | (s, none) => (s, none)
    | (s, some es) =>
      match s.fit bed es (if g.2 then 32 else 1) with
      | none => (s, none)
      | some p =>
        (s.tick, some (es ++ [{ tenant := t, bed := bed, off := g.1, big := g.2, phys := p, ro := ro, poison := false,
                                src := src }]))) (s, some [])

/-- Tier of an entry. -/
def XEntry.tier (e : XEntry) : Tier := if e.bed then .bed else .hbm

/-- Fill the space of entries with zeros under a tenant's key slot (R69, R254). -/
def State.zeroEnts (s : State) (t : Nat) (es : List XEntry) : State :=
  es.foldl (fun s e => s.zeroPhys e.tier (s.slotKeyId t) (e.phys * 0x10000) (e.units * 0x10000)) s

/-- The reserved range of a tensor in a tier, none where it has none (R249). -/
def Tensor.off (x : Tensor) (bed : Bool) : Option Nat :=
  let o := (if bed then x.bedOff else x.hbmOff).toNat
  if o = noOffset then none else some o

/-- Ranges of a tenant's space that a new range must not touch: reserved ranges of tensors and mapped granules, in bytes. -/
def State.spaceHeld (s : State) (t : Nat) (bed : Bool) : List (Nat × Nat) :=
  let reserved := s.tensors.filterMap fun e =>
    if e.2.used ∧ e.2.tenant = t then (e.2.off bed).map fun o => (o, units64 e.2.bytes * 0x10000) else none
  let mapped := ((s.xlat ++ s.pendingEnts).filter fun e => decide (e.tenant = t) && e.bed == bed).map fun e =>
    (e.off * 0x10000, e.units * 0x10000)
  reserved ++ mapped

/-- First offset of a range that overlaps what is held. -/
def firstOverlap (held : List (Nat × Nat)) (off n : Nat) : Option Nat :=
  let hits := held.filterMap fun r => if off < r.1 + r.2 ∧ r.1 < off + n then some (max off r.1) else none
  match hits with
  | [] => none
  | x :: l => some (l.foldl min x)

/-- Whether an operation's charge for a tier fits the tenant's quota (R262). -/
def State.quotaOk (s : State) (t : Nat) (bed : Bool) (need : Nat) : Bool :=
  decide (s.usage t bed + need ≤ s.regN (if bed then QC_QBED t else QC_QHBM t))

/-- The same for the NAND tier, with the user capacity in service (R300). -/
def State.nandQuotaOk (s : State) (t need : Nat) : Bool :=
  decide (s.nandUsage t + need ≤ s.regN (QC_QNAND t)) && decide (s.nandUsed + need ≤ s.nandCapacity)

end Sys2Proof.Machine
end

