-- ==== Sys2Proof/Machine/Quarry.lean ====
section
/-! DEFINITION. Quarry, the tier controller: tensors and handles, moves, schedules, weight intake, SWAP, digest scrub
(R247 to R275). -/

namespace Sys2Proof.Machine

/-! The tier-controller descriptor (R251). -/

/-- A class 0x6 descriptor. -/
structure Qrr where
  op     : Nat
  handle : Nat
  arg0   : Nat
  arg1   : Nat
  arg2   : Nat
  tier   : Nat
  ro     : Bool
  nandOk : Bool
  result : Nat
deriving DecidableEq, Repr

/-- Read the operand area. -/
def Qrr.of (d : BitVec 1024) : Qrr where
  op := dOp d
  handle := dfield d 0x50 8
  arg0 := dfield d 0x58 8
  arg1 := dfield d 0x60 8
  arg2 := dfield d 0x68 8
  tier := bits (dfield d 0x70 8) 1 0
  ro := bit (dfield d 0x70 8) 2
  nandOk := bit (dfield d 0x70 8) 3
  result := dfield d 0x78 8

/-- Conditions of R252, each at the field it names; HANDLE and ARG0 to ARG2 are the arguments. -/
def qcOwnBad (d : BitVec 1024) : List (Bool × Nat) :=
  let q := Qrr.of d
  let ctl := dfield d 0x70 8
  let create := decide (q.op = 1)
  let unusedFrom (k : Nat) : List (Bool × Nat) :=
    [(q.handle, 0x50), (q.arg0, 0x58), (q.arg1, 0x60), (q.arg2, 0x68)].drop k |>.map fun a => (decide (a.1 ≠ 0), a.2)
  let unused :=
    if q.op = 1 then [(decide (q.handle ≠ 0), 0x50)] else if q.op = 4 then [] else if q.op = 6 then unusedFrom 2 else unusedFrom 1
  unused ++
  [(create && (decide (q.arg2 < 64) || decide (2 ^ 38 < q.arg2) || decide (q.arg2 % 64 ≠ 0)), 0x68),
   (create && decide (q.arg0 ≠ noOffset) && decide (q.arg0 % 0x10000 ≠ 0), 0x58),
   (create && decide (q.arg1 ≠ noOffset) && decide (q.arg1 % 0x10000 ≠ 0), 0x60),
   (create && decide (q.arg1 ≠ noOffset) && decide (bedSize < q.arg1 + q.arg2), 0x60),
   (create && decide (q.arg0 = noOffset) && decide (q.arg1 = noOffset), 0x58),
   ((decide (q.op = 2) || decide (q.op = 4)) && decide (q.tier = 0), 0x70)]
    ++ rsv ctl 0x70 [(63, 4)]

/-- Check a handle for a tenant (R248): its index, or the status. -/
def State.resolve (s : State) (t h : Nat) : Except Nat Nat :=
  let i := bits h 17 0
  let x := s.tensor i
  if gaChip h ≠ s.chip ∨ gaSpace h ≠ spNand ∨ bits h 31 18 ≠ 0 ∨ !x.used ∨ bits h 47 32 ≠ x.gen.toNat then .error stTranslation
  else if x.tenant ≠ t then .error stProtection
  else .ok i

/-- End with the status of a handle that does not check, DETAIL holding the handle; act on its index otherwise. -/
def Work.withTensor (w : Work) (h : Nat) (act : Work → Nat → Work) : Work :=
  if w.dead then w
  else
    match w.s.resolve w.t h with
    | .error c => w.fail c h
    | .ok i => act w i

/-- Tensor indices a class 0x6 descriptor names. -/
def Qrr.names (q : Qrr) : List Nat :=
  if q.op = 1 then [] else if q.op = 6 then [bits q.handle 17 0, bits q.arg0 17 0] else [bits q.handle 17 0]

/-- Whether a tensor is pinned by a SCAN descriptor (R221), moving, or held by an intake. -/
def State.pinned (s : State) (i : Nat) : Bool := s.flights.any fun f => decide (f.pin = some i)
def State.inMove (s : State) (i : Nat) : Bool := s.moves.any fun m => decide (m.idx = i)
def State.inBuild (s : State) (i : Nat) : Bool := s.builds.any fun b => decide (b.idx = i)

/-- The tensor a SCAN descriptor's handle names while its resolution waits (R219). -/
def Flight.asks (f : Flight) : Option Nat :=
  if f.phase = .waitMove ∧ f.pin.isNone then f.inRec.head?.map fun r => bits (leNat r.2) 17 0 else none

/-- Whether an operation on one of some tensors, received before the one numbered `id`, has not ended (R253): a class 0x6
descriptor (`started` counts those that have started), a handle resolution, or a scheduled move. -/
def State.ahead (s : State) (id : Nat) (idxs : List Nat) (started : Bool) : Bool :=
  (s.flights.any fun g => decide (g.id < id) && decide (g.phase ≠ .ran)
    && ((decide (g.cls = .qc) && (started || decide (g.phase = .dispatched)) && (Qrr.of g.desc).names.any idxs.contains)
      || g.asks.any idxs.contains))
    || s.schedQ.any fun w => decide (w.id < id) && idxs.contains (bits w.h 17 0)

/-- Whether Quarry may start a descriptor (R253): a place among 32, and its turn on the tensors it names. SWAP does not wait
for a move or an intake, since R272 gives it a status for them. -/
def State.quarryTurn (s : State) (f : Flight) : Bool :=
  let q := Qrr.of f.desc
  let swap := decide (q.op = 6)
  decide ((s.flights.filter fun g => decide (g.cls = .qc) && decide (g.phase = .running)).length < 32)
    && !s.ahead f.id q.names (!swap)
    && (swap || !q.names.any fun i => s.inMove i || s.inBuild i)

/-- Run a class 0x6 operation that ends at once. -/
def State.quarry (s : State) (id op : Nat) (body : Flight → Work → Work) : State :=
  s.runFlight id 6 op s.quarryTurn body

/-- Start a class 0x6 operation that may go on: `act` gives the state and the condition that ends it, if one does. -/
def State.quarryStart (s : State) (id op : Nat) (ready : Flight → Bool)
    (act : Flight → State → State × Option (Nat × Nat)) : State :=
  s.onFlight id fun f s =>
    if f.phase = .dispatched ∧ dClass f.desc = 6 ∧ dOp f.desc = op ∧ s.quarryTurn f = true ∧ ready f = true then
      match act f s with
      | (s, some (c, d)) => s.putFlight { f.endWith c d with issued := true }
      | (s, none) => s.putFlight { f with phase := .running, issued := true }
    else s

/-- Write a result where RESULT is not zero. -/
def Work.result (w : Work) (q : Qrr) (bs : Bytes) : Work := if q.result = 0 then w else w.write q.result bs

/-! Records. -/

/-- FLAGS of a tensor record (Table 10.2). -/
def State.tensorFlags (s : State) (i : Nat) : Nat :=
  let x := s.tensor i
  x.home + place (flag x.ro) 2 + place (flag x.digested) 3 + place (flag x.poisoned) 4 + place (flag x.moving) 5
    + place (flag x.nandOk) 6 + place (flag (s.pinned i)) 7 + place x.tenant 8

/-- The 32 bytes of a digest, the first at the lowest address. -/
def digestBytes (d : BitVec 256) : Bytes := leBytes 32 d.toNat

/-- The 128 bytes of a tensor record. -/
def State.tensorRecord (s : State) (i : Nat) : Bytes :=
  let x := s.tensor i
  leBytes 8 (s.handle i) ++ leBytes 8 x.bytes ++ leBytes 8 x.hbmOff.toNat ++ leBytes 8 x.bedOff.toNat
    ++ leBytes 4 (s.tensorFlags i) ++ leBytes 4 x.moves.toNat ++ leBytes 8 x.scrubbed ++ List.replicate 16 0
    ++ (if x.digested then digestBytes x.digest else List.replicate 32 0) ++ List.replicate 32 0

/-- Lowest unused tensor index. -/
def lowestTensor : SMap Tensor → Nat → Nat
  | [], i => i
  | (a, x) :: m, i => if a = i ∧ x.used then lowestTensor m (i + 1) else if i < a then i else i

/-- CREATE (R251, R252). A table with no unused record gives QUOTA_EXCEEDED (DEDUCED). -/
def Work.create (w : Work) (q : Qrr) : Work :=
  let t := w.t
  let hbm := if q.arg0 = noOffset then none else firstOverlap (w.s.spaceHeld t false) q.arg0 (units64 q.arg2 * 0x10000)
  let bed := if q.arg1 = noOffset then none else firstOverlap (w.s.spaceHeld t true) q.arg1 (units64 q.arg2 * 0x10000)
  match hbm.or bed with
  | some o => w.fail stProtection o
  | none =>
    let i := lowestTensor w.s.tensors 0
    if 0x40000 ≤ i then w.fail stQuota 0
    else
      let gen := (w.s.tensor i).gen + 1
      let x : Tensor := { tensorUnused i with
        used := true, gen := gen, bytes := q.arg2, hbmOff := BitVec.ofNat 64 q.arg0, bedOff := BitVec.ofNat 64 q.arg1,
        ro := q.ro, nandOk := q.nandOk, tenant := t }
      let w := w.result q (leBytes 8 (gaOf w.s.chip spNand (place gen.toNat 32 + i)))
      w.andThen fun w => w.mapS fun s => s.setTensor i x

def execCreate (id : Nat) (s : State) : Out := live s fun s => s.quarry id 1 fun f w => w.create (Qrr.of f.desc)

/-- QUERY (R251). -/
def execQuery (id : Nat) (s : State) : Out := live s fun s => s.quarry id 5 fun f w =>
  w.withTensor (Qrr.of f.desc).handle fun w i => w.result (Qrr.of f.desc) (w.s.tensorRecord i)

/-! Bytes of a tensor. -/

/-- Entries of a tensor's home range, by offset. -/
def State.homeEnts (s : State) (i : Nat) : List XEntry := s.xlat.filter fun e => decide (e.src = some i)

/-- Whether an entry's bytes below the tensor's size hold a poisoned line. -/
def State.entPoisoned (s : State) (e : XEntry) (base n : Nat) : Bool :=
  let lo := e.phys * 1024
  let len := min (e.units * 0x10000) (n - (e.off * 0x10000 - base))
  (if e.bed then s.bedPoison else s.hbmPoison).any fun l => decide (lo ≤ l) && decide (l < lo + ceilDiv len 64)

/-- The listed bytes of a granule under a key, by offset in the tensor; lines written under another key are deciphered. -/
def State.entCells (s : State) (key : Nat) (e : XEntry) (base : Nat) : List Host.Cell :=
  let lo := e.phys * 0x10000
  let n := e.units * 0x10000
  let rel := e.off * 0x10000 - base
  let mem := if e.bed then s.bed else s.hbm
  let odd := if e.bed then [] else (List.range (n / 64)).filter fun l => s.lineKey (lo / 64 + l) != key
  let plain := mem.filterMap fun (a, b) =>
    if lo ≤ a ∧ a < lo + n ∧ !odd.contains ((a - lo) / 64) then some (rel + (a - lo), b) else none
  plain ++ odd.flatMap fun l => (s.lineUnder key (lo / 64 + l)).zipIdx.map fun (b, j) => (rel + 64 * l + j, b)

/-- Bytes of a tensor in its home, as (offset, byte) of those that are not zero, below its size. -/
def State.tensorCells (s : State) (i : Nat) : List Host.Cell :=
  let x := s.tensor i
  let cells :=
    if x.home = 3 then s.nandBytes.filterMap fun (a, b) => if a / 2 ^ 38 = i then some (a % 2 ^ 38, b) else none
    else
      let base := (x.off (decide (x.home = 1))).getD 0
      (s.homeEnts i).flatMap fun e => s.entCells (s.slotKeyId x.tenant) e base
  cells.filter fun c => decide (c.1 < x.bytes)

/-- Whether a line of a tensor's home range is poisoned. -/
def State.tensorDamaged (s : State) (i : Nat) : Bool :=
  let x := s.tensor i
  let base := (x.off (decide (x.home = 1))).getD 0
  decide (x.home ≠ 3) && (s.homeEnts i).any fun e => s.entPoisoned e base x.bytes

/-- A tensor's bytes from its cells. -/
def cellBytes (n : Nat) (cs : List Host.Cell) : Bytes :=
  (cs.foldl (fun (a : Array Byte) c => a.setIfInBounds c.1 c.2) (Array.replicate n 0)).toList

/-- SHA-256 of a tensor's bytes as stored. -/
def State.tensorDigest (s : State) (i : Nat) : BitVec 256 :=
  BitVec.ofNat 256 (leNat (sha256 (cellBytes (s.tensor i).bytes (s.tensorCells i))))

/-- Fill entries with a tensor's cells: zeros elsewhere. -/
def State.fillEnts (s : State) (t base : Nat) (es : List XEntry) (cells : List Host.Cell) : State :=
  let s := s.zeroEnts t es
  es.foldl (fun s e =>
    let rel := e.off * 0x10000 - base
    let here := cells.filterMap fun (o, b) =>
      if rel ≤ o ∧ o < rel + e.units * 0x10000 then some (e.phys * 0x10000 + (o - rel), b) else none
    if e.bed then { s with bed := here.foldl (fun m (a, b) => smapSet zeroByte m a b) s.bed }
    else { s with hbm := here.foldl (fun m (a, b) => smapSet zeroByte m a b) s.hbm }) s

/-! Moves. -/

/-- Charge of a tensor's range in a tier, and its granules. -/
def Tensor.gran (x : Tensor) (bed : Bool) : List (Nat × Bool) := granules bed ((x.off bed).getD 0) x.bytes

/-- Start a move of a tensor (R254 steps 1 to 5): the status where it ends at once, none where it has started. -/
def State.moveStart (s : State) (i tier : Nat) (by_ : MoveBy) : State × Option Nat :=
  let x := s.tensor i
  let bed := decide (tier = 1)
  if tier = x.home then (s, some stOk)
  else if (if tier = 3 then !x.nandOk else (x.off bed).isNone) = true then (s, some stProtection)
  else if (if tier = 3 then s.nandRo || !s.nandQuotaOk x.tenant (units64 x.bytes)
      else !s.quotaOk x.tenant bed (granCharge (x.gran bed))) = true then (s, some stQuota)
  else
    let (s, ents) := if tier = 3 then (s, some []) else s.placeGranules x.tenant bed x.ro (some i) (x.gran bed)
    match ents with
    | none => (s, some stQuota)
    | some es =>
      let s := s.setTensor i { x with moving := true }
      ({ s with
        xlat := s.xlat.map fun (e : XEntry) => if e.src = some i then { e with ro := true } else e
        moves := s.moves ++ [{ idx := i, tier := tier, by_ := by_, ents := es }] }, none)

/-- Moves that run at once (R253, QC_STATUS[11:8]). -/
def State.moveRoom (s : State) : Bool := decide (s.moves.length < 8)

/-- Whether a move of a tensor to a tier must wait: its tensor is pinned, eight moves run, or the NAND tier trains. -/
def State.moveReady (s : State) (i tier : Nat) : Bool :=
  !s.pinned i && s.moveRoom && (decide (tier ≠ 3) || s.nandReady)

/-- TIER_MOVE (R254). -/
def execTierMove (id : Nat) (s : State) : Out := live s fun s =>
  s.quarryStart id 2 (fun f => s.moveReady (bits (Qrr.of f.desc).handle 17 0) (Qrr.of f.desc).tier) fun f s =>
    let q := Qrr.of f.desc
    match s.resolve f.tenant q.handle with
    | .error c => (s, some (c, q.handle))
    | .ok i =>
      match s.moveStart i q.tier (.flight id) with
      | (s, some c) => (s, some (c, 0))
      | (s, none) => (s, none)

/-- Go on with a resolved handle, its tensor pinned: the base, or the move to the Bed once there is room for it. A second record is
kept once a move has moved its state. -/
def State.scanMove (s : State) (f : Flight) (i : Nat) : State :=
  let x := s.tensor i
  if s.inMove i then s
  else if x.home = 1 then s.putFlight { f with base := some (BitVec.ofNat 64 (gaOf s.chip spBed x.bedOff.toNat)) }
  else if !s.moveRoom then s
  else
    match s.moveStart i 1 (.flight f.id) with
    | (s, some c) => s.putFlight { f.endWith c 0 with pin := none }
    | (s, none) => s

/-- Resolve the handle of a released SCAN descriptor that waits (R219 to R221): it ends, is left waiting while an earlier operation
of the tensor goes on, or pins the tensor and goes on. -/
def State.resolveScan (s : State) (f : Flight) (h : Nat) : State :=
  match s.resolve f.tenant h with
  | .error c => s.putFlight (f.endWith c h)
  | .ok i =>
    if s.inMove i || s.inBuild i || s.ahead f.id [i] true then s
    else
      let f := { f with pin := some i }
      (s.putFlight f).scanMove f i

/-! Scheduled moves (R253, R259, R260). -/

/-- Halt a tenant's schedule at an entry, with its event (R260). -/
def State.schedHalt (s : State) (t entry code h : Nat) : State :=
  let s := s.setRegN (QC_SCHED_STAT t) (2 + place entry 16)
  s.event t { type := 0x0012, status := code, cls := classCode .qc, tenant := t, arg0 := entry, arg1 := h }

/-- A scheduled move has ended: its signal, and the halt unless it ended with OK (R259, R260). A slot with INCREMENT 0 signals
nothing. -/
def State.schedEnd (s : State) (t entry sig code h : Nat) : State :=
  let s := if bits sig 47 16 ≠ 0 ∧ (code = stOk ∨ bit sig 48) then s.signalSlot t 0 0 sig else s
  if code = stOk then s else s.schedHalt t entry code h

/-- Scheduled moves of a tenant that run. -/
def State.schedMoves (s : State) (t : Nat) : Nat :=
  (s.moves.filter fun m => match m.by_ with | .sched u _ _ => decide (u = t) | .flight _ => false).length

/-- Whether a released scheduled move may start: its turn on its tensor has come, and there is room. -/
def State.schedReady (s : State) (w : SchedWait) : Bool :=
  let i := bits w.h 17 0
  s.moveReady i w.tier && !s.inMove i && !s.inBuild i && !s.ahead w.id [i] true
    && decide (s.schedMoves w.t < s.field (QC_SCHED_DEPTH w.t) 3 0)

/-- Start a released scheduled move where it may start; what ends it at once ends it here. -/
def State.schedStart (s : State) (w : SchedWait) : State :=
  if !s.schedReady w then s
  else
    let s := { s with schedQ := s.schedQ.filter fun x => x.id != w.id }
    if w.tier = 0 then s.schedEnd w.t w.entry w.sig.toNat stProtection w.h
    else
      match s.resolve w.t w.h with
      | .error c => s.schedEnd w.t w.entry w.sig.toNat c w.h
      | .ok i =>
        match s.moveStart i w.tier (.sched w.t w.entry w.sig) with
        | (s, some c) => s.schedEnd w.t w.entry w.sig.toNat c w.h
        | (s, none) => s

/-- Take up again, in the order Quarry received them, the handle resolutions and scheduled moves that wait, once an operation of
Quarry has ended (R221, R253). -/
def State.wakeScans (s : State) : State :=
  let scans := (s.flights.filter fun f => decide (f.phase = .waitMove) && f.base.isNone).map Flight.id
  let ids := (scans ++ s.schedQ.map SchedWait.id).foldl (fun l i => insertNat i l) []
  ids.foldl (fun (s : State) id =>
    match s.schedQ.find? fun w => decide (w.id = id) with
    | some w => s.schedStart w
    | none => s.onFlight id fun f s =>
      match f.pin, f.inRec with
      | some i, _ => s.scanMove f i
      | none, (_, b) :: _ => s.resolveScan f (leNat b)
      | none, [] => s) s

/-- A move has ended with a status: whoever asked for it learns it. -/
def State.moveEnd (s : State) (m : Move) (code h : Nat) : State :=
  match m.by_ with
  | .sched t e sig => s.schedEnd t e sig.toNat code h
  | .flight id =>
    s.onFlight id fun f s =>
      if f.phase = .waitMove then
        if code = stOk then
          s.putFlight { f with base := some (BitVec.ofNat 64 (gaOf s.chip spBed (s.tensor m.idx).bedOff.toNat))
                               inRec := f.inRec ++ [(1, [])] }
        else s.putFlight { f.endWith code 0 with pin := none }
      else s.putFlight (f.endWith code 0)

/-- TIER_MOVE_DONE (R254 step 6, R256): the copy of a move ends; into a NAND tier that has become read-only with QUOTA_EXCEEDED, the
tensor staying where it was (R303). -/
def execTierMoveDone (idx : Fin 262144) (uncorrectable : Bool) (rep : List NandReport) (s : State) : Out := live s fun s =>
  match s.moves.find? fun m => decide (m.idx = idx.val) with
  | none => s
  | some m =>
    let i := idx.val
    let x := s.tensor i
    let h := s.handle i
    let s := (if m.tier = 3 ∨ x.home = 3 then s.nandReport rep else s)
    let s := if x.home = 3 then s.nandReads i else s
    let bad := uncorrectable || (decide (x.home = 3) && rep.any fun r => decide (r.uec ≠ 0)) || s.tensorDamaged i || x.poisoned
    let s := { s with moves := s.moves.filter fun n => n.idx != i }
    if bad ∨ (m.tier = 3 ∧ s.nandRo = true) then
      let s := s.setTensor i { x with moving := false }
      let s := { s with xlat := s.xlat.map fun (e : XEntry) => if e.src = some i then { e with ro := x.ro } else e }
      if bad then ((if x.poisoned then s else s.poisonTensor i).moveEnd m stShardLost h).wakeScans
      else (s.moveEnd m stQuota h).wakeScans
    else
      let cells := if x.home = 0 then [] else s.tensorCells i
      let s := { s with xlat := s.xlat.filter fun e => e.src != some i }
      let s := if x.home = 3 then s.nandRelease i else s
      let s :=
        if m.tier = 3 then
          { (s.nandPlace i x.bytes).count QC_NAND_USER_WR (units64 x.bytes) with
            nandBytes := cells.foldl (fun b (o, v) => smapSet zeroByte b (nandKey i o) v) s.nandBytes }
        else
          let base := (x.off (decide (m.tier = 1))).getD 0
          { s.fillEnts x.tenant base m.ents cells with
            xlat := s.xlat ++ m.ents.map fun (e : XEntry) => { e with ro := x.ro } }
      let s := s.setTensor i { x with home := m.tier, moving := false, moves := x.moves + 1 }
      ((s.count QC_MOVE_CNT 1).moveEnd m stOk h).wakeScans

/-! Freeing. -/

/-- FREE: accepted; the release waits (R251). -/
def execFree (id : Nat) (s : State) : Out := live s fun s =>
  s.quarryStart id 3 (fun _ => true) fun f s =>
    match s.resolve f.tenant (Qrr.of f.desc).handle with
    | .error c => (s, some (c, (Qrr.of f.desc).handle))
    | .ok _ => (s, none)

/-- Unmap a tensor, return its space and mark its record unused. -/
def State.releaseTensor (s : State) (i : Nat) : State :=
  let x := s.tensor i
  let s := { s with xlat := s.xlat.filter fun e => e.src != some i }
  let s := if x.home = 3 then s.nandRelease i else s
  s.setTensor i { tensorUnused i with gen := x.gen }

/-- FREE_RELEASE: no pin, move or intake holds the tensor (R251). -/
def execFreeRelease (id : Nat) (s : State) : Out := live s fun s =>
  s.onFlight id fun f s =>
    let i := bits (Qrr.of f.desc).handle 17 0
    if f.phase = .running ∧ dClass f.desc = 6 ∧ dOp f.desc = 3 ∧ !(s.pinned i || s.inMove i || s.inBuild i) then
      ((s.releaseTensor i).putFlight (f.endWith stOk 0)).wakeScans
    else s

/-! Prefetch schedules (R258 to R260). -/

/-- The counters of a schedule that has not run. -/
def schedIdle (_ : Nat) : Sched := { pass := 0, entry := 0 }
def State.schedOf (s : State) (t : Nat) : Sched := smapGet schedIdle s.sched t
def State.setSched (s : State) (t : Nat) (x : Sched) : State := { s with sched := smapSet schedIdle s.sched t x }

/-- A write of enable: from disabled, the schedule starts at entry 0 of pass 0. -/
def State.schedEnable (s : State) (t : Nat) : State :=
  if s.field (QC_SCHED_STAT t) 1 0 = 0 then
    ((s.setSched t (schedIdle t)).setRegN (QC_SCHED_STAT t) 1).setRegN (QC_SCHED_PASS t) 0
  else s

/-- A write of resume restarts a halted schedule at the next entry. -/
def State.schedResume (s : State) (t : Nat) : State :=
  if s.field (QC_SCHED_STAT t) 1 0 = 2 then s.setRegN (QC_SCHED_STAT t) (1 + place (s.schedOf t).entry 16) else s

/-- A write of disable. -/
def State.schedDisable (s : State) (t : Nat) : State := s.setField (QC_SCHED_STAT t) 1 0 0

def execScheduleEnable (t : Fin 16) (s : State) : Out := live s fun s => s.schedEnable t
def execScheduleResume (t : Fin 16) (s : State) : Out := live s fun s => s.schedResume t
def execScheduleDisable (t : Fin 16) (s : State) : Out := live s fun s => s.schedDisable t

/-- Go to the next entry, and to the next pass after the last (R259). -/
def State.schedNext (s : State) (t : Nat) : State :=
  let x := s.schedOf t
  if x.entry + 1 < s.field (QC_SCHED_LEN t) 15 0 then
    (s.setSched t { x with entry := x.entry + 1 }).setField (QC_SCHED_STAT t) 31 16 (x.entry + 1)
  else
    ((s.setSched t { pass := x.pass + 1, entry := 0 }).setField (QC_SCHED_STAT t) 31 16 0).modReg (QC_SCHED_PASS t)
      fun n => (n + 1) % 2 ^ 32

/-- SCHEDULE_ENTRY_RELEASE: the current entry's wait holds; its move starts, or waits for its turn (R253, R259). An entry that cannot
be read ends with that status (DEDUCED). -/
def execScheduleEntryRelease (t : Fin 16) (s : State) : Out := live s fun s =>
  let x := s.schedOf t
  if s.field (QC_SCHED_STAT t) 1 0 ≠ 1 ∨ !s.regBit (QC_TMODE t) 0 ∨ s.field (QC_SCHED_LEN t) 15 0 = 0 ∨ s.slot t ≠ 1 then s
  else
    match s.readFor (.tenant t) .hbm (s.regN (QC_SCHED_BASE t) + 32 * x.entry) 32 with
    | (s, .error (c, o)) => (s.schedNext t).schedHalt t x.entry c (gaOf s.chip spHbm o)
    | (s, .ok b) =>
      let h := pfield b 0 8
      let wait := pfield b 8 8
      let sig := pfield b 0x10 8
      let target := bits wait 63 16 + x.pass * s.regN (QC_SCHED_INC t)
      match s.markOf t (bits wait 15 0) with
      | none => (s.schedNext t).schedEnd t x.entry sig stProtection h
      | some m =>
        if (s.mark m).toNat < target then s
        else
          let w : SchedWait := { id := s.nextFlight, t := t, entry := x.entry, h := h, tier := bits (pfield b 0x18 4) 1 0,
                                 sig := BitVec.ofNat 64 sig }
          { s.schedNext t with nextFlight := s.nextFlight + 1, schedQ := s.schedQ ++ [w] }.schedStart w

/-! Weight shards (R263 to R269). -/

/-- A shard header (Table 10.7). -/
structure Shard where
  b : Bytes
deriving DecidableEq, Repr

def Shard.payLen (x : Shard) : Nat := pfield x.b 8 8
def Shard.rawLen (x : Shard) : Nat := pfield x.b 0x10 8
def Shard.codec (x : Shard) : Nat := pfield x.b 0x18 1
def Shard.layout (x : Shard) : Nat := pfield x.b 0x19 1
def Shard.sfmt (x : Shard) : Nat := pfield x.b 0x1A 1
def Shard.dfmt (x : Shard) : Nat := pfield x.b 0x1B 1
def Shard.relay (x : Shard) : Nat := pfield x.b 0x1C 1
def Shard.rows (x : Shard) : Nat := pfield x.b 0x20 4
def Shard.cols (x : Shard) : Nat := pfield x.b 0x24 4
def Shard.outLen (x : Shard) : Nat := pfield x.b 0x28 8
/-- Rows and columns of the stored tensor (R265). -/
def Shard.rows' (x : Shard) : Nat := if x.relay = 1 then x.cols else x.rows
def Shard.cols' (x : Shard) : Nat := if x.relay = 1 then x.rows else x.cols
/-- DB and SOFF of R265, and the bytes of the stored tensor. -/
def Shard.db (x : Shard) : Nat := x.rows' * rowBytes x.dfmt x.cols'
def Shard.soff (x : Shard) : Nat := ceilDiv x.db 4096 * 4096
def Shard.size (x : Shard) : Nat := if fmtBlock x.dfmt then x.soff + x.rows' * x.cols' / 32 else x.db
/-- Bytes of the decompressed payload (R264). -/
def Shard.rawSize (x : Shard) : Nat :=
  if x.layout = 1 then 17 * (x.rows * x.cols / 32)
  else x.rows * rowBytes x.sfmt x.cols + if fmtBlock x.sfmt then x.rows * x.cols / 32 else 0

/-- Conditions of R263 to R266 and the image length, each at the header field it names (R267 step 1). A count of columns
that block scales do not divide names the header field it comes from. -/
def Shard.bad (x : Shard) (imageLen : Nat) : List (Bool × Nat) :=
  let out (v lo hi : Nat) : Bool := decide (v < lo) || decide (hi < v)
  let four := decide (x.sfmt = 0x10) || decide (x.sfmt = 0x14)
  let wide := [0x0C, 0x0D, 0x0E].contains x.sfmt
  let conv := [0x09, 0x0A, 0x0D, 0x10, 0x11, 0x12, 0x13, 0x14].contains x.dfmt
  let zeros (lo n : Nat) : List (Bool × Nat) := (List.range n).map fun i => (decide (pfield x.b (lo + i) 1 ≠ 0), lo + i)
  [(decide (pfield x.b 0 4 ≠ 0x44524853), 0), (decide (pfield x.b 4 2 ≠ 1), 4), (decide (pfield x.b 6 2 ≠ 0x80), 6),
   (out x.payLen 1 (2 ^ 28) || decide (imageLen ≠ 0x80 + x.payLen), 8),
   (out x.rawLen 1 (2 ^ 28) || (decide (x.codec = 0) && decide (x.rawLen ≠ x.payLen)), 0x10),
   (decide (2 < x.codec), 0x18), (decide (1 < x.layout), 0x19),
   (!fmtKnown x.sfmt || (decide (x.layout = 1) && !four), 0x1A),
   (!fmtKnown x.dfmt || (decide (x.layout = 1) && decide (x.dfmt ≠ x.sfmt)) || (decide (x.dfmt ≠ x.sfmt) && !(wide && conv)), 0x1B),
   (decide (1 < x.relay) || (decide (x.relay = 1) && (decide (x.layout = 1) || fmtBlock x.sfmt)), 0x1C),
   (out x.rows 1 (2 ^ 24) || (decide (x.relay = 1) && fmtBlock x.dfmt && decide (x.rows % 32 ≠ 0)), 0x20),
   (out x.cols 1 (2 ^ 24) || ((fmtBlock x.sfmt || (fmtBlock x.dfmt && decide (x.relay = 0))) && decide (x.cols % 32 ≠ 0)), 0x24),
   (out x.outLen 1 (2 ^ 28) || decide (x.outLen ≠ x.size), 0x28)]
    ++ zeros 0x1D 3 ++ zeros 0x30 16 ++ zeros 0x60 32

/-- DETAIL of a fault at a header field (R267). -/
def shardField (off : Nat) : Nat := 2 ^ 63 + 2 ^ 62 + off

/-- De-interleave the XW-5 layout into data and scales (R107). -/
def deinterleave (raw : Bytes) : Bytes × Bytes :=
  let gs := chunks 17 raw
  (gs.flatMap (·.take 16), gs.flatMap (·.drop 16))

/-- Data and scales of a raw payload: steps 6 of R267. -/
def Shard.split (x : Shard) (raw : Bytes) : Bytes × Bytes :=
  if x.layout = 1 then deinterleave raw else raw.splitAt (x.rows * rowBytes x.sfmt x.cols)

/-- Transpose rows of element codes. -/
def transposeRows (cols : Nat) (rows : List (List Nat)) : List (List Nat) :=
  let a := (rows.map List.toArray).toArray
  (List.range cols).map fun c => (List.range a.size).map fun r => (a.getD r #[]).getD c 0

/-- The stored tensor of a raw payload: steps 6 to 8 of R267. -/
def Shard.build (x : Shard) (raw : Bytes) : Bytes :=
  let (data, scales) := x.split raw
  let rows := (chunks (rowBytes x.sfmt x.cols) data).map (unpack x.sfmt x.cols)
  let rows := if x.relay = 1 then transposeRows x.cols rows else rows
  let pad (d : Bytes) : Bytes := d ++ List.replicate (x.soff - d.length) 0
  if x.dfmt = x.sfmt then
    let d := rows.flatMap (pack x.dfmt)
    if fmtBlock x.dfmt then pad d ++ scales else d
  else
    let vals := rows.map fun r => r.map fun c => word32 (elemNum x.sfmt c)
    if fmtBlock x.dfmt then
      let enc := vals.map (encodeRow x.dfmt)
      pad (enc.flatMap fun e => pack x.dfmt e.1) ++ enc.flatMap (·.2)
    else vals.flatMap fun r => pack x.dfmt (r.map fun v => floatCode x.dfmt (num32 v))

/-- Decompress a payload (R267 step 5): the raw bytes, or the header offset of the fault. -/
def Shard.expand (x : Shard) (pay : Bytes) : Except Nat Bytes :=
  let raw := if x.codec = 0 then some pay else if x.codec = 1 then inflate pay else unzstd pay
  match raw with
  | none => .error 0x18
  | some r => if r.length = x.rawLen ∧ x.rawLen = x.rawSize then .ok r else .error 0x10

/-- An intake has ended with a fault: it is counted (Table 10.8). -/
def intakeFault (s : State) (c d : Nat) : State × Option (Nat × Nat) := (s.count QC_INTAKE_FAIL 1, some (c, d))

/-- INTAKE: steps 1 to 3 of R267. A commit wait outside the tenant's window gives PROTECTION_FAULT as any wait does; a TIER
the target cannot occupy is reported at CTL, which is no header field (DEDUCED). -/
def execIntake (id : Nat) (s : State) : Out := live s fun s =>
  s.quarryStart id 4 (fun f => decide (s.builds.length < 8) && (decide ((Qrr.of f.desc).tier ≠ 3) || s.nandReady)) fun f s =>
    let q := Qrr.of f.desc
    let mark := bits q.arg2 15 0
    match s.resolve f.tenant q.handle with
    | .error c => intakeFault s c q.handle
    | .ok i =>
      let x := s.tensor i
      let (w, b) := (Work.start s f.tenant f.strict).read q.arg0 128
      let hd : Shard := { b := b }
      let bed := decide (q.tier = 1)
      match w.err with
      | some (c, d) => intakeFault w.s c d
      | none =>
        let s := w.s
        if q.arg2 ≠ 0 ∧ (s.markOf f.tenant mark).isNone then intakeFault s stProtection (gaOf s.chip spMark (8 * mark))
        else
          match firstBad (hd.bad q.arg1) with
          | some o => intakeFault s stProtection (shardField o)
          | none =>
            if x.bytes < hd.outLen then intakeFault s stProtection (shardField 0x28)
            else if (if q.tier = 3 then !x.nandOk else (x.off bed).isNone) = true then intakeFault s stProtection (shardField 0x70)
            else if (if q.tier = 3 then !s.nandQuotaOk x.tenant (units64 x.bytes)
                else !s.quotaOk x.tenant bed (granCharge (x.gran bed))) = true then intakeFault s stQuota 0
            else
              match (if q.tier = 3 then (s, some []) else s.placeGranules x.tenant bed x.ro (some i) (x.gran bed)) with
              | (s, none) => intakeFault s stQuota 0
              | (s, some es) =>
                ({ s with builds := s.builds ++
                    [{ id := id, idx := i, tier := q.tier, tenant := f.tenant, data := b, built := false, ents := es,
                       wait := BitVec.ofNat 64 q.arg2 }] }, none)

/-- End an intake with a fault: its build space is released and the target is unchanged. -/
def State.intakeDrop (s : State) (f : Flight) (c d : Nat) : State :=
  let s := { s with builds := s.builds.filter fun b => b.id != f.id }
  ((s.count QC_INTAKE_FAIL 1).putFlight (f.endWith c d)).wakeScans

/-- INTAKE_BUILD_DONE: steps 4 to 9 of R267. -/
def execIntakeBuildDone (id : Nat) (s : State) : Out := live s fun s =>
  s.onFlight id fun f s =>
    match s.builds.find? fun b => decide (b.id = id) && !b.built with
    | none => s
    | some b =>
      let q := Qrr.of f.desc
      let hd : Shard := { b := b.data }
      let (w, pay) := (Work.start s f.tenant f.strict).read (q.arg0 + 0x80) hd.payLen
      let s := w.s
      match w.err with
      | some (c, d) => s.intakeDrop f c d
      | none =>
        match hd.expand pay with
        | .error o => s.intakeDrop f stProtection (shardField o)
        | .ok raw =>
          if sha256 (b.data.take 0x40 ++ pay) ≠ (b.data.drop 0x40).take 32 then s.intakeDrop f stDigestMismatch 0
          else
            let data := hd.build raw
            let base := ((s.tensor b.idx).off (decide (b.tier = 1))).getD 0
            let cells := data.zipIdx.map fun (v, o) => (o, v)
            let s := s.fillEnts b.tenant base b.ents cells
            { s with builds := s.builds.map fun (c : Build) => if c.id = id then { c with data := data, built := true } else c }

/-- Whether the commit wait of a built intake holds (R271). -/
def State.commitHolds (s : State) (b : Build) : Bool :=
  decide (b.wait = 0) || s.waitHolds b.tenant (bits b.wait.toNat 15 0) (bits b.wait.toNat 63 16)

/-- The commit of an intake (R268): the tensor takes the build as its backing. -/
def State.commit (s : State) (b : Build) (ro : Bool) (digest : BitVec 256) (rep : List NandReport) : State :=
  let i := b.idx
  let x := s.tensor i
  let ro := x.ro || ro
  let s := { s with xlat := s.xlat.filter fun e => e.src != some i, builds := s.builds.filter fun c => c.id != b.id }
  let s := if x.home = 3 then s.nandRelease i else s
  let s :=
    if b.tier = 3 then
      { (s.nandPlace i x.bytes).nandReport rep with
        nandBytes := b.data.zipIdx.foldl (fun m (v, o) => smapSet zeroByte m (nandKey i o) v) s.nandBytes }
    else { s with xlat := s.xlat ++ b.ents.map fun (e : XEntry) => { e with ro := ro } }
  (s.setTensor i { x with home := b.tier, ro := ro, digested := true, poisoned := false, digest := digest }).count QC_INTAKE_CNT 1

/-- INTAKE_COMMIT (R268). A RESULT that cannot be written faults the intake, so nothing is committed. -/
def execIntakeCommit (id : Nat) (s : State) (rep : List NandReport := []) : Out := live s fun s =>
  s.onFlight id fun f s =>
    match s.builds.find? fun b => decide (b.id = id) && b.built with
    | none => s
    | some b =>
      if !s.commitHolds b ∨ s.pinned b.idx then s
      else
        let q := Qrr.of f.desc
        let digest := BitVec.ofNat 256 (leNat (sha256 (padTo (s.tensor b.idx).bytes b.data)))
        let w := (Work.start s f.tenant f.strict).result q (digestBytes digest)
        match w.err with
        | some (c, d) => w.s.intakeDrop f c d
        | none => (({ w with s := w.s.commit b q.ro digest rep }.apply).putFlight (f.endWith stOk 0)).wakeScans

/-! SWAP and scrubs. -/

/-- Physical unit and secret of each 64 KiB unit of a tensor's home range, in order. -/
def State.backing (s : State) (i : Nat) : List Nat :=
  let es := s.homeEnts i
  let first := minOr 0 (es.map (·.off))
  (List.range (entCharge es)).map fun u =>
    match es.find? fun e => decide (e.off ≤ first + u) && decide (first + u < e.off + e.units) with
    | some e => e.phys + (first + u - e.off)
    | none => 0

/-- Entries of a tensor's range over given backing: 2 MiB granules where the space is whole and aligned, else 64 KiB. -/
def reback (x : Tensor) (i : Nat) (bed : Bool) (poison ro : Bool) (units : List Nat) : List XEntry :=
  let base := (x.off bed).getD 0 / 0x10000
  (x.gran bed).flatMap fun (o, big) =>
    let mk (o p : Nat) (big : Bool) : XEntry :=
      { tenant := x.tenant, bed := bed, off := o, big := big, phys := p, ro := ro, poison := poison, src := some i }
    if big then
      let ps := (units.drop (o - base)).take 32
      let p := ps.headD 0
      if p % 32 = 0 ∧ ps = (List.range 32).map (p + ·) then [mk o p true]
      else ps.zipIdx.map fun (p, j) => mk (o + j) p false
    else [mk o (units.getD (o - base) 0) false]

/-- Exchange the backing, DIGEST and flags of two tensors (R272). -/
def State.swapTensors (s : State) (i j : Nat) : State :=
  if i = j then s
  else
    let x := s.tensor i
    let y := s.tensor j
    let bed := decide (x.home = 1)
    let xs := s.backing i
    let ys := s.backing j
    let rest := s.xlat.filter fun e => e.src != some i && e.src != some j
    let s := { s with xlat := rest ++ reback x i bed y.poisoned y.ro ys ++ reback y j bed x.poisoned x.ro xs }
    let s := s.setTensor i { x with digest := y.digest, digested := y.digested, poisoned := y.poisoned, ro := y.ro }
    s.setTensor j { y with digest := x.digest, digested := x.digested, poisoned := x.poisoned, ro := x.ro }

/-- SWAP (R272). -/
def execSwap (id : Nat) (s : State) : Out := live s fun s => s.quarry id 6 fun f w =>
  let q := Qrr.of f.desc
  w.withTensor q.handle fun w i => w.withTensor q.arg0 fun w j =>
    let x := w.s.tensor i
    let y := w.s.tensor j
    let held (k : Nat) : Bool := (w.s.tensor k).moving || w.s.pinned k || w.s.inBuild k
    if x.bytes ≠ y.bytes ∨ x.home ≠ y.home ∨ (x.home ≠ 1 ∧ x.home ≠ 2) ∨ held i ∨ held j then w.fail stProtection 0
    else w.mapS fun s => s.swapTensors i j

/-- Re-read a tensor and check its digest (R273): the status. A tensor without a digest has none to check (DEDUCED). -/
def State.scrubTensor (s : State) (i : Nat) (rep : List NandReport) : State × Nat :=
  let x := s.tensor i
  let s := if x.home = 3 then (s.nandReads i).nandReport rep else s
  let lost := decide (x.home = 3) && rep.any fun r => decide (r.uec ≠ 0)
  let s := (s.setTensor i { x with scrubbed := s.timeNs / 1000000000 }).count QC_SCRUB_CNT 1
  if lost || s.tensorDamaged i then (if x.poisoned then s else s.poisonTensor i, stShardLost)
  else if x.digested ∧ s.tensorDigest i ≠ x.digest then
    let s := s.count QC_SCRUB_FAIL 1
    (if x.poisoned then s else s.poisonTensor i, stDigestMismatch)
  else (s, stOk)

/-- SCRUB (R273). -/
def execScrub (id : Nat) (s : State) (rep : List NandReport := []) : Out := live s fun s => s.quarry id 7 fun f w =>
  w.withTensor (Qrr.of f.desc).handle fun w i =>
    let (s, c) := w.s.scrubTensor i rep
    let w := { w with s := s }
    if c = stOk then w.result (Qrr.of f.desc) (digestBytes (s.tensor i).digest) else w.fail c 0

/-- DIGEST_SCRUB_PASS: the background scrub of one digested tensor (R273), in turn with the tensor's other operations. -/
def execDigestScrubPass (idx : Fin 262144) (s : State) (rep : List NandReport := []) : Out := live s fun s =>
  let i := idx.val
  let x := s.tensor i
  if s.regBit QC_SCRUB_CTL 0 ∧ x.used ∧ x.digested ∧ x.home ≠ 0 ∧ !(s.inMove i || s.inBuild i) then (s.scrubTensor i rep).1 else s

end Sys2Proof.Machine
end

