-- ==== Sys2Proof/Machine/Scan.lean ====
section
/-! DEFINITION. Scan engines: SCAN of class 0x4 (R210 to R226). -/

namespace Sys2Proof.Machine

/-- A scan descriptor (R213) and its parameter block (Table 8.1). -/
structure Lin where
  a     : Nat
  b     : Nat
  h     : Nat
  n     : Nat
  c     : Nat
  batch : Nat
  p     : Bytes
deriving DecidableEq, Repr

/-- Read the operand area. -/
def Lin.of (d : BitVec 1024) (p : Bytes) : Lin where
  a := dfield d 0x50 8
  b := dfield d 0x58 8
  h := dfield d 0x60 8
  n := bits (dfield d 0x70 4) 12 0
  c := bits (dfield d 0x74 4) 14 0
  batch := bits (dfield d 0x78 4) 12 0
  p := p

def Lin.af (x : Lin) : Nat := bits (pfield x.p 0 4) 4 0
def Lin.bf (x : Lin) : Nat := bits (pfield x.p 0 4) 12 8
def Lin.hf (x : Lin) : Nat := bits (pfield x.p 0 4) 20 16
def Lin.fl (x : Lin) (i : Nat) : Bool := bit (pfield x.p 4 4) i
def Lin.aChan (x : Lin) : Bool := x.fl 0
def Lin.stateIn (x : Lin) : Bool := x.fl 1
def Lin.stateOut (x : Lin) : Bool := x.fl 2
def Lin.stateH (x : Lin) : Bool := x.fl 3
def Lin.hasRst (x : Lin) : Bool := x.fl 4
def Lin.hasInit (x : Lin) : Bool := x.fl 5
def Lin.reverse (x : Lin) : Bool := x.fl 6
def Lin.hwr (x : Lin) : Bool := x.fl 7
/-- Pitches of A, B and H: 0 to 2. -/
def Lin.posPitch (x : Lin) (i : Nat) : Nat := pfield x.p (8 + 8 * i) 4
def Lin.seqPitch (x : Lin) (i : Nat) : Nat := pfield x.p (0xC + 8 * i) 4
def Lin.state (x : Lin) : Nat := pfield x.p 0x20 8
def Lin.statePitch (x : Lin) : Nat := pfield x.p 0x28 4
def Lin.rst (x : Lin) : Nat := pfield x.p 0x30 8
def Lin.init (x : Lin) : Nat := pfield x.p 0x38 8
/-- Whether a state is carried in or out. -/
def Lin.carries (x : Lin) : Bool := x.stateIn || x.stateOut

/-- Conditions of R215 on the descriptor's own bytes. -/
def leOwnBad (d : BitVec 1024) : List (Bool × Nat) :=
  let out (o hi : Nat) : Bool := decide (dfield d o 4 < 1 ∨ hi < dfield d o 4)
  [(decide (dfield d 0x68 8 % 64 ≠ 0), 0x68), (out 0x70 4096, 0x70), (out 0x74 16384, 0x74), (out 0x78 4096, 0x78),
   (decide (dfield d 0x7C 4 ≠ 0), 0x7C)]

/-- Conditions of R215 on the parameter block. A condition that involves N or C names it, and a field is named by the byte of its
lowest bit (R62). STATE_PITCH is checked in every descriptor. -/
def leBlockBad (x : Lin) : List (Bool × Nat) :=
  let fmt (c : Nat) : Bool := decide (c = 0x0C ∨ c = 0x0D ∨ c = 0x0E)
  let pos (i f : Nat) : Bool := pitchBad (x.posPitch i) (rowBytes f x.c)
  let seq64 (i : Nat) : Bool := decide (x.seqPitch i % 64 ≠ 0)
  let short (i : Nat) : Bool := decide (x.seqPitch i < x.n * x.posPitch i)
  rsv (pfield x.p 0 4) 0x80 [(7, 5), (15, 13), (31, 21)] ++ rsv (pfield x.p 4 4) 0x84 [(31, 8)]
    ++ [(decide (pfield x.p 0x2C 4 ≠ 0), 0xAC), (decide (pfield x.p 0x40 0x40 ≠ 0), 0xC0),
   (!fmt x.af, 0x80), (!fmt x.bf, 0x81), (!fmt x.hf, 0x82),
   (x.stateH && !x.carries, 0x84),
   (!x.aChan && pos 0 x.af, 0x88), (seq64 0, 0x8C), (!x.aChan && short 0, 0x70),
   (x.aChan && decide (x.seqPitch 0 < rowBytes x.af x.c), 0x74),
   (pos 1 x.bf, 0x90), (seq64 1, 0x94), (short 1, 0x70),
   (x.hwr && pos 2 x.hf, 0x98), (x.hwr && seq64 2, 0x9C), (x.hwr && short 2, 0x70),
   (decide (x.statePitch % 64 ≠ 0), 0xA8), (decide (x.statePitch < 4 * x.c), 0x74)]

/-- Read and check the parameter block. -/
def Work.leParams (w : Work) (d : BitVec 1024) : Work × Lin :=
  let (w, p) := w.read (dfield d 0x68 8) 128
  let x := Lin.of d p
  (w.checkFields (leBlockBad x), x)

/-- The handle a SCAN descriptor names its state by, where STATE_H is set and the block passes its checks (R219). -/
def scanHandle (s : State) (t : Nat) (d : BitVec 1024) : Option Nat :=
  let (w, x) := (Work.start s t false).leParams d
  if w.dead || !x.stateH then none else some x.state

/-- Operand addresses that R129 checks. -/
def Lin.addrs (x : Lin) : List Nat :=
  [(true, x.a), (true, x.b), (x.hwr, x.h), (x.carries && !x.stateH, x.state), (x.hasRst, x.rst), (x.hasInit, x.init)].filterMap
    fun e => if e.1 then some e.2 else none

/-- One position: h from a, the predecessor and b (R210). -/
def scanStep (a p b : List Word) : List Word := List.zipWith (fun (x : Word × Word) b => f32fma x.1 x.2 b) (a.zip p) b

/-- One stream (R210, R217): its final state and its reset flags that apply. -/
def Work.scanStream (w : Work) (x : Lin) (base : Nat) (init : List Word) (s : Nat) : Work × List Word × List Bool :=
  let (w, flags) := if x.hasRst then
      let (w, b) := w.read (x.rst + s * 512) (ceilDiv x.n 8)
      (w, (List.range x.n).map fun t => bit (nth b (t / 8)).toNat (t % 8))
    else (w, List.replicate x.n false)
  let (w, start) := if x.stateIn then
      let (w, b) := w.read (base + s * x.statePitch) (4 * x.c)
      (w, (unpack 0x0E x.c b).map fun v => canon32 (BitVec.ofNat 32 v))
    else (w, init)
  let (w, aRow) := if x.aChan then w.fpRow (x.a + s * x.seqPitch 0) 0 x.af 0 x.c else (w, [])
  let order := if x.reverse then (List.range x.n).reverse else List.range x.n
  let (w, h) := order.foldl (fun (acc : Work × List Word) t =>
    let (w, p) := acc
    if w.dead then acc
    else
      let (w, a) := if x.aChan then (w, aRow) else w.fpRow (x.a + s * x.seqPitch 0) (x.posPitch 0) x.af t x.c
      let (w, b) := w.fpRow (x.b + s * x.seqPitch 1) (x.posPitch 1) x.bf t x.c
      let h := scanStep a (if flags.getD t false then init else p) b
      let w := if x.hwr then
          w.write (x.h + s * x.seqPitch 2 + t * x.posPitch 2) (pack x.hf (h.map fun v => floatCode x.hf (num32 v)))
        else w
      (w, h)) (w, start)
  (w, h, flags)

/-- Whether outputs overlap inputs other than as R216 allows; the state is an input with STATE_IN only. -/
def Lin.overlaps (x : Lin) (param base : Nat) : Bool :=
  let rr (a i f : Nat) : List (Nat × Nat) :=
    (List.range x.batch).flatMap fun s => rowRanges (a + s * x.seqPitch i) (x.posPitch i) x.n (rowBytes f x.c)
  let as_ := if x.aChan then rowRanges x.a (x.seqPitch 0) x.batch (rowBytes x.af x.c) else rr x.a 0 x.af
  let bs := rr x.b 1 x.bf
  let hs := if x.hwr then rr x.h 2 x.hf else []
  let st := if x.carries then rowRanges base x.statePitch x.batch (4 * x.c) else []
  let others := (param, 128) :: (if x.hasRst then [(x.rst, 512 * x.batch)] else []) ++ (if x.hasInit then [(x.init, 4 * x.c)] else [])
  let inPlace := decide (x.h = x.b) && decide (x.posPitch 2 = x.posPitch 1) && decide (x.seqPitch 2 = x.seqPitch 1)
    && decide (x.hf = x.bf)
  rangesMeet hs (as_ ++ (if inPlace then [] else bs) ++ (if x.stateIn then st else []) ++ others)
    || (x.stateOut && rangesMeet st (as_ ++ bs ++ others))

/-- Longest segment of a stream's flags in the order of visits (R211). -/
def longestSegment (flags : List Bool) : Nat :=
  (flags.foldl (fun (acc : Nat × Nat) f => let cur := if f then 1 else acc.1 + 1; (cur, max acc.2 cur)) (0, 0)).2

/-- T of R224. -/
def Lin.cycles (x : Lin) (lmax : Nat) : Nat :=
  let g := ceilDiv x.c 256
  let rd := x.batch * ((if x.aChan then 1 else x.n) * rowBytes x.af x.c + x.n * rowBytes x.bf x.c
    + (if x.stateIn then 4 * x.c else 0) + if x.hasRst then ceilDiv x.n 8 else 0) + if x.hasInit then 4 * x.c else 0
  let wr := x.batch * ((if x.hwr then x.n * rowBytes x.hf x.c else 0) + if x.stateOut then 4 * x.c else 0)
  40 + max (max (x.batch * x.n * g) (4 * lmax)) (max (ceilDiv rd 1024) (ceilDiv wr 512)) + 32

/-- What a descriptor of class 0x4 does: the state is written last, and only where results are committed (R218). -/
def leRun (f : Flight) (w : Work) : Work :=
  let u := f.unit
  let (w, x) := w.leParams f.desc
  let w := w.each x.addrs Work.needLocal
  if w.dead then w
  else
    let base := match f.base with
      | some b => b.toNat
      | none => x.state
    let (w, init) := w.fpVec x.hasInit x.init x.c
    let init := init.getD (List.replicate x.c 0)
    let (w, streams) := w.collect (List.range x.batch) fun w s =>
      let (w, h, flags) := w.scanStream x base init s
      (w, (h, flags))
    let w := if x.stateOut then
        w.onCommit fun w => w.each streams.zipIdx fun w (r, s) => w.writeLate (base + s * x.statePitch) (wordBytes r.1)
      else w
    let open_ := x.overlaps (dfield f.desc 0x68 8) base
    let w := (w.openOutputs open_).openLate open_
    let g := ceilDiv x.c 256
    let order (l : List Bool) : List Bool := if x.reverse then l.reverse else l
    let lmax := (streams.map fun r => longestSegment (order r.2)).foldl max 0
    let resets := (streams.map fun r => (r.2.filter id).length).foldl (· + ·) 0
    let w := w.tally (LE_UPD_CNT u) (x.batch * x.n * g * 256)
    (w.tally (LE_RST_CNT u) resets).stalled (LE_STALL_CNT u) (x.cycles lmax - x.batch * x.n * g)

/-- Run a scan descriptor. -/
def execScan (id : Nat) (s : State) : Out := live s fun s => s.runFlight id 4 1 (fun _ => true) leRun

end Sys2Proof.Machine
end

