-- ==== Sys2Proof/Machine/Descr.lean ====
section
/-! DEFINITION. Work descriptors: their checks (R58 to R62), release and dispatch (R55, R63 to R65, R89, R465), completion
(R16, R56, R71, R73), class 0xF (R61), and trough records (R90 to R96). -/

namespace Sys2Proof.Machine

/-- A descriptor's parameter block read and checked (R62 steps 2 and 3), with the troughs it names. -/
def blockStep (s : State) (f : Flight) : Work × List TrUse :=
  let w := Work.start s f.tenant false
  match dClass f.desc with
  | 1 => let r := w.aeParams f.desc; (r.1, r.2.2)
  | 2 => let r := w.ceParams f.desc; (r.1, r.2.2)
  | 3 => ((w.veParams f.desc).1, [])
  | 4 => ((w.leParams f.desc).1, [])
  | 5 => let r := w.heParams f.desc; (r.1, r.2.2)
  | _ => (w, [])

/-- The start of a descriptor of a class whose engine may use troughs. -/
def classStart (cls : Nat) : Flight → Work → Work × Started :=
  match cls with
  | 1 => aeStart
  | 2 => ceStart
  | 5 => heStart
  | _ => fun _ w => (w, { param := [], ssr := [], uses := [] })

/-! The checks on the descriptor's own bytes (R62 step 1). -/

/-- Whether a class has an operation. -/
def opKnown (cls op : Nat) : Bool :=
  match cls with
  | 1 => decide (1 ≤ op ∧ op ≤ 4)
  | 2 => decide (1 ≤ op ∧ op ≤ 6)
  | 3 => decide (1 ≤ op ∧ op ≤ 7)
  | 4 => decide (op = 1)
  | 5 => decide (1 ≤ op ∧ op ≤ 5)
  | 6 => decide (1 ≤ op ∧ op ≤ 7)
  | 7 => decide (op = 1 ∨ op = 2 ∨ (0x10 ≤ op ∧ op ≤ 0x17) ∨ op = 0x20)
  | 0xF => decide (op = 0)
  | _ => false

/-- Whether a class is one of Table 2.7. -/
def classKnown (cls : Nat) : Bool := decide (1 ≤ cls ∧ cls ≤ 7) || decide (cls = 0xF)

/-- Conditions of R61 and R62 on the operand area of class 0x7. -/
def rmoOwnBad (d : BitVec 1024) : List (Bool × Nat) :=
  let op := dOp d
  let len := dfield d 0x60 4
  let opnd0 := dfield d 0x68 8
  [(decide ((op = 1 ∨ op = 2) ∧ (len < 1 ∨ 0x1000000 < len)), 0x60),
   (decide (¬(op = 1 ∨ op = 2) ∧ len ≠ 0), 0x60),
   (decide (dfield d 0x64 4 ≠ 0), 0x64),
   (decide (op = 0x20 ∧ (opnd0 < 1 ∨ 0xFFFFFFFF < opnd0)), 0x68),
   (decide (op ≠ 0x12 ∧ dfield d 0x70 8 ≠ 0), 0x70),
   (decide (dfield d 0x78 8 ≠ 0), 0x78)]

/-- Conditions of a class on the operand area. -/
def operandBad (d : BitVec 1024) : List (Bool × Nat) :=
  match dClass d with
  | 1 => aeOwnBad d
  | 2 => ceOwnBad d
  | 3 => veOwnBad d
  | 4 => leOwnBad d
  | 5 => heOwnBad d
  | 6 => qcOwnBad d
  | 7 => rmoOwnBad d
  | 0xF => [(decide (dfield d 0x50 0x30 ≠ 0), 0x50)]
  | _ => []

/-- Conditions of R62 on the header and the signal slots. PIN that names no unit in service involves PIN and PIN_IDX. -/
def descHeaderBad (s : State) (d : BitVec 1024) : List (Bool × Nat) :=
  let cls := dClass d
  let pinOk := match dPin d, engineOf cls with
    | none, _ => true
    | some i, some b => s.inService b (s.roleOf b i)
    | some _, none => false
  [(!classKnown cls, 0x00),
   (decide (dbits d 7 4 ≠ 1), 0x00),
   (classKnown cls && !opKnown cls (dOp d), 0x01),
   (!pinOk, 0x03),
   (decide (dbits d 47 40 ≠ 0), 0x05),
   (decide (dbits d 127 97 ≠ 0), 0x0C)]
    ++ (List.range 4).flatMap fun n =>
      match dSig d n with
      | none => []
      | some v => [(decide (bits v 47 16 = 0), 0x32 + 8 * n), (decide (bits v 51 50 ≠ 0), 0x36 + 8 * n)]

/-- The first bad field of a descriptor's own bytes; the operand area is laid out by a class and OP that exist. -/
def descBad (s : State) (d : BitVec 1024) : Option Nat :=
  firstBad (descHeaderBad s d ++ if opKnown (dClass d) (dOp d) then operandBad d else [])

/-- The first enabled wait, or local signal, whose mark lies outside the tenant's window (R43). -/
def State.markOutside (s : State) (t : Nat) (d : BitVec 1024) : Option Nat :=
  let waits := (List.range 4).filterMap fun n => (dWait d n).map Prod.fst
  let sigs := (List.range 4).filterMap fun n => (dSig d n).bind fun v =>
    if bit v 49 && bits v 63 52 != s.chip then none else some (bits v 15 0)
  (waits ++ sigs).find? fun m => (s.markOf t m).isNone

/-! Release and dispatch. -/

/-- A SCAN descriptor released and not yet dispatched, which holds back its queue (R219). -/
def Flight.held (f : Flight) : Bool := decide (dClass f.desc = 4) && !f.inRec.isEmpty

/-- Advance a queue past its head: the descriptor there has been dispatched, or completes without dispatch (R63, R64). -/
def State.jqAdvance (s : State) (t q : Nat) (jobEnd : Bool) : State :=
  let s := s.setRegN (CMD_JQ_HEAD t q) ((s.regN (CMD_JQ_HEAD t q) + 1) % s.jqSize t q)
  let s := (s.unlatch t q).setJobQ t q { s.jobQ t q with lastEnd := jobEnd }
  let s := if s.jqState t q = 1 then s.jqRefresh t q else s
  (s.park t q).latch

/-- A new flight for the descriptor at an index of a queue. -/
def State.newFlight (s : State) (t q idx : Nat) (d : BitVec 1024) : Flight where
  id := s.nextFlight
  tenant := t
  queue := q
  index := idx
  desc := d
  cls := (engineOf (dClass d)).getD .cmd
  unit := 0xFF
  phase := .dispatched
  codes := []
  warn := 0
  partly := false
  issued := false
  noRecord := false
  strict := false
  inRec := []
  outRec := []
  started := false
  param := []
  ssr := []
  uses := []
  tangled := false
  late := []
  base := none
  pin := none

/-- Add a flight. -/
def State.addFlight (s : State) (f : Flight) : State :=
  { s with flights := s.flights ++ [f], nextFlight := s.nextFlight + 1 }

/-- Take the descriptor at the head off its ring to complete with a status without dispatch. -/
def State.undispatched (s : State) (f : Flight) (code detail : Nat) : State :=
  (s.addFlight (f.endWith code detail)).jqAdvance f.tenant f.queue (bit f.desc.toNat 96)

/-- Drop the image kept in a Chisel engine (R163). -/
def State.clearImage (s : State) (u : Nat) : State :=
  let s := { s with image := smapErase s.image u }
  ((s.setBit (CE_STATUS u) 1 false).setField (CE_STATUS u) 27 16 0).setReg (CE_UPROG_SRC u) 0

/-- Status and current-descriptor registers of an engine. -/
def unitStatus : Blk → Nat → Option (Nat × Nat)
  | .ae, u => some (AE_STATUS u, AE_CUR u)
  | .ce, u => some (CE_STATUS u, CE_CUR u)
  | .ve, u => some (VE_STATUS u, VE_CUR u)
  | .le, u => some (LE_STATUS u, LE_CUR u)
  | .he, u => some (HE_STATUS u, HE_CUR u)
  | _, _ => none

/-- Register that counts an engine's completed descriptors. -/
def unitDescCnt : Blk → Nat → Option Nat
  | .ae, u => some (AE_DESC_CNT u)
  | .ce, u => some (CE_DESC_CNT u)
  | .ve, u => some (VE_DESC_CNT u)
  | .le, u => some (LE_DESC_CNT u)
  | .he, u => some (HE_DESC_CNT u)
  | _, _ => none

/-- Show a flight as the descriptor an engine runs; what the engine kept for another tenant is cleared first (R33). -/
def State.engage (s : State) (f : Flight) : State :=
  let u := s.unitAt f.cls f.unit
  let s := if u.lastTenant = some f.tenant then s
    else if f.cls = .ae then s.clearResident f.unit
    else if f.cls = .ce then s.clearImage f.unit
    else s
  let s := s.setUnit f.cls f.unit { u with lastTenant := some f.tenant }
  match unitStatus f.cls f.unit with
  | none => s
  | some (st, cur) =>
    let s := ((s.setBit st 0 true).setField st 15 8 f.tenant).setRegN cur f.cur
    if f.cls = .he then (s.setField st 19 16 (dClass f.desc)).setField st 31 24 (dOp f.desc) else s

/-- Whether Meleopin may dispatch a tenant's descriptor to a unit (R33, R62, R63, R436). Quarry holds many descriptors. -/
def State.eligible (s : State) (b : Blk) (u t : Nat) : Bool :=
  let x := s.unitAt b u
  let owner := s.field (BLK_WORLD b u) 15 8
  s.inService b u && decide (x.st = .idle) && !x.retiring && !s.regBit (BLK_CTL b u) 1
    && (domainOf b u).all s.powered
    && !s.blkSecure b u && (decide (owner = 0xFF) || decide (owner = t))
    && (decide (b = .qc) || !s.flights.any fun f => f.onUnit b u)

/-- The unit bound to a trough in a role (R89): its class code and the unit that serves it. -/
def State.bound (s : State) (b : Blk) (u : TrUse) : Option Nat :=
  let r := if u.out then BED_TR_PROD u.n else BED_TR_CONS u.n
  if s.field r 15 0 = classCode b then some (s.roleOf b (s.field r 23 16)) else none

/-- The trough that keeps a descriptor from being dispatched (R89, R465), if one does (assumption 58). -/
def State.troughBar (s : State) (b : Blk) (t : Nat) (d : BitVec 1024) (uses : List TrUse) : Option Nat :=
  let off := uses.find? fun u => !s.trOn u.n || decide (s.field (BED_TR_CFG u.n) 23 16 ≠ t)
  let pin := (dPin d).map (s.roleOf b)
  let first := pin.or (uses.head?.bind (s.bound b))
  let apart := uses.find? fun u => (s.bound b u).isNone || s.bound b u != first
  (off.or apart).map TrUse.n

/-- Whether Meleopin may take a descriptor from a queue: it runs (R374, R416), the HBM tier accepts requests (R288),
the tenant is live (R389), the queue runs, the completion ring has room (R72), and no activation has parked the queue. -/
def State.jqReady (s : State) (t q : Nat) : Bool :=
  decide (s.fwState = 4) && s.hbmReady && !s.stopped && decide (s.slot t = 1) && (s.jobQ t q).enabled && decide (s.jqState t q = 1)
    && !s.cqFull t && !(s.jobQ t q).parked

/-- Dispatch a flight to a unit, in the ring's order. -/
def State.dispatch (s : State) (f : Flight) (u : Nat) : State :=
  let moved := f.held && decide (2 ≤ f.inRec.length)
  let g := { f with unit := u, phase := .dispatched, inRec := [] }
  let s := if f.held then s.putFlight g else s.addFlight g
  let s := (s.engage g).jqAdvance f.tenant f.queue (bit f.desc.toNat 96)
  if moved then s.count (LE_STMOVE_CNT u) 1 else s

/-- The unit a descriptor must go to, where PIN or a trough names one (R58, R89), and whether `u` may take it. -/
def State.unitOk (s : State) (f : Flight) (uses : List TrUse) (u : Nat) : Bool :=
  let b := f.cls
  (match dPin f.desc with
    | some i => decide (s.roleOf b i = u)
    | none => true)
    && uses.all (fun x => s.bound b x == some u) && s.eligible b u f.tenant

/-- A released descriptor that no unit takes yet stays released (R55). -/
def State.stays (s : State) (t q : Nat) : State := { s with relHead := insertNat (8 * t + q) s.relHead }

/-- Take the descriptor at the head of its ring to complete without dispatch: as its parameter block asks where that fails its
checks, which come first (R62), else as malformed or refused with a DETAIL. -/
def State.undispatchable (s : State) (f : Flight) (detail : Nat) : State :=
  match (blockStep s f).1.err with
  | some (c, d) => s.undispatched f c d
  | none => s.undispatched f stProtection detail

/-- A descriptor whose own bytes pass their checks and whose waits have held: it is dispatched to unit `u`, completes without
dispatch, or stays released. -/
def State.releaseHeld (s : State) (f : Flight) (u : Nat) : State :=
  let released (s : State) : State := s.count MK_RELEASE_CNT 1
  if dClass f.desc = 0xF then (released s).dispatch f 0xFF
  else
    let uses := (blockStep s f).2
    match s.troughBar f.cls f.tenant f.desc uses with
    | some n => (released s).undispatchable f n
    | none =>
      match if dClass f.desc = 4 then scanHandle s f.tenant f.desc else none with
      | some h =>
        let g := { f with phase := .waitMove, inRec := [(0, leBytes 8 h)] }
        ((released s).addFlight g).resolveScan g h
      | none => if s.unitOk f uses u then (released s).dispatch { f with uses := uses } u else s.stays f.tenant f.queue

/-- Release the descriptor at the head of a queue and dispatch it to unit `u`, or let it complete without dispatch. A ring that
can no longer be read halts every queue of the tenant (R68, R69); a poisoned entry completes with POISONED_OPERAND (R85; assumption 48). -/
def State.release (s : State) (t q u : Nat) : State :=
  let idx := s.regN (CMD_JQ_HEAD t q)
  match s.jqHead t q with
  | (s, .error (c, o)) =>
    if c = stPoisoned then s.undispatched (s.newFlight t q idx 0) c (gaOf s.chip spHbm o) else s.haltAll t
  | (s, .ok d) =>
    let f := s.newFlight t q idx d
    match descBad s d with
    | some o => s.undispatched f stProtection (badField o)
    | none =>
      match s.markOutside t d with
      | some m => s.undispatchable f (gaOf s.chip spMark (8 * m))
      | none => if s.relHead.contains (8 * t + q) || s.waitsHold t d then s.releaseHeld f u else s

/-- Dispatch a flight taken off a retiring engine to another (R423): a pinned one waits for the spare, and is malformed where
there is none; an activation, a stop or a state other than 4 holds it back (R371, R374, R424). -/
def State.reDispatch (s : State) (f : Flight) (u : Nat) : State :=
  let gone := match dPin f.desc with
    | some i => !s.inService f.cls (s.roleOf f.cls i)
    | none => false
  if gone then s.putFlight (f.endWith stProtection (badField 3))
  else
    let g := { f with unit := u, phase := .dispatched }
    (s.putFlight g).engage g

/-- A flight of a queue that waits to be dispatched again, to unit `u` where that may take it (assumption 46). -/
def State.waitingAgain (s : State) (t q u : Nat) : Option Flight :=
  if s.fwState = 4 ∧ !s.stopped ∧ s.field CMD_FW_STAT 11 8 ≠ 2 then
    s.flights.find? fun f => decide (f.phase = .redispatch) && decide (f.tenant = t) && decide (f.queue = q)
      && (s.unitOk f [] u || match dPin f.desc with
        | some i => !s.inService f.cls (s.roleOf f.cls i)
        | none => false)
  else none

/-- DESCRIPTOR_RELEASE. The unit is Meleopin's choice; a SCAN descriptor that waits for its state holds back its queue and is
dispatched by a later release once the state is in the Bed (R219). -/
def execDescriptorRelease (t : Fin 16) (q : Fin 8) (u : Nat) (s : State) : Out := live s fun s =>
  match s.waitingAgain t q u with
  | some f => s.reDispatch f u
  | none =>
  if s.jqReady t q then
    match s.flights.find? fun f => f.held && decide (f.tenant = t.val) && decide (f.queue = q.val) with
    | some f =>
      let ready := decide (f.phase = .waitMove) && f.base.isSome && s.unitOk f [] u && !s.inMove ((f.pin).getD 0)
      if ready then s.dispatch f u else s
    | none => s.release t q u
  else s

/-! Completion. -/

/-- A completion record (Table 2.9). -/
def Flight.record (f : Flight) (st : Nat × Nat) (phase : Bool) : Bytes :=
  leBytes 2 st.1 ++ leBytes 2 (dTag f.desc) ++ leBytes 4 (dUser f.desc)
    ++ leBytes 1 (dClass f.desc + place f.queue 4 + place (flag phase) 7) ++ leBytes 1 f.unit ++ leBytes 2 f.index
    ++ leBytes 4 (min f.warn 0xFFFFFFFF) ++ leBytes 8 st.2 ++ leBytes 8 0

/-- Apply a completed flight's signals (R56). -/
def State.applySignals (s : State) (f : Flight) (code : Nat) : State :=
  let good := !isFault code || f.partly
  (List.range 4).foldl (fun s n =>
    match dSig f.desc n with
    | some v => if good || bit v 48 then s.signalSlot f.tenant (dTc f.desc) (if f.unit = 0xFF then 0 else f.unit) v else s
    | none => s) s

/-- Clear the enable of a trough after a fault on it, and end who waits there (R94, R138, R169, R243, R374). -/
def State.troughClear (s : State) (n : Nat) : State :=
  if s.trOn n then (s.troughAbort n).setBit (BED_TR_CFG n) 0 false else s

/-- Complete a flight: its status (R16), the writes of its completion (R121, R218), its signals (R56), its record
unless QUIET or a function-level reset asks for none (R377), its event (Table 17.4), the halt of its queue (R65), and the troughs a fault disables (R138, R169, R243). -/
def Flight.done (f : Flight) (s : State) : State :=
  let st := chooseStatus f.codes
  let fault := isFault st.1
  let s := if fault then s else f.late.foldl (fun s p => s.writePhys p.tier p.key p.off p.data) s
  let s := s.applySignals f st.1
  let quiet := f.noRecord || (bit f.desc.toNat 27 && decide (st.1 = stOk))
  let s := if quiet then s else s.cqWrite f.tenant (f.record st)
  let s := if bit f.desc.toNat 26 then
      s.event f.tenant { type := 0x0001, status := st.1, cls := classCode f.cls, inst := f.unit, tenant := f.tenant,
                         queue := f.queue, arg0 := f.index, arg1 := place (dTag f.desc) 16 + place (dUser f.desc) 32 }
    else s
  let s := if fault && !bit f.desc.toNat 24 then s.halt f.tenant f.queue f.index else s
  let s := match (if f.unit = 0xFF then none else unitDescCnt f.cls f.unit) with
    | some a => s.count a 1
    | none => s
  let s := match (if f.unit = 0xFF then none else unitStatus f.cls f.unit) with
    | some (a, _) => s.setBit a 0 false
    | none => s
  let uses := if fault && f.unit != 0xFF then f.uses else []
  let s := if f.held then s.jqAdvance f.tenant f.queue (bit f.desc.toNat 96) else s
  uses.foldl (fun s u => s.troughClear u.n) (s.dropFlight f.id)

/-- Complete a flight whose operation has ended, where its record has room (R72). -/
def State.complete (s : State) (id : Nat) : State :=
  s.onFlight id fun f s =>
    if f.phase = .ran ∧ (f.noRecord = true ∨ s.cqFull f.tenant = false) then (f.done s).wakeScans else s

/-- DESCRIPTOR_COMPLETE: the operation of a flight has ended and its record has room (R16, R56, R71, R72; assumption 44). -/
def execDescriptorComplete (id : Nat) (s : State) : Out := live s fun s => s.complete id

/-- MELEOPIN_DESCRIPTOR: class 0xF completes with OK (R61). -/
def execMeleopinDescriptor (id : Nat) (s : State) : Out := live s fun s =>
  s.runFlight id 0xF 0 (fun _ => true) fun _ w => w

/-! Troughs. -/

/-- A write of BED_TRn_CFG (R90, R94, R96). -/
def State.troughWrite (s : State) (n v : Nat) : State :=
  let v := Nat.land v 0xFFFF1F
  let on := bit v 0
  if on && (s.trOn n || !s.troughOk n v) then s.blkErr .bed 0 5
  else if on then s.troughOn n v
  else
    let s := if s.trOn n then s.troughAbort n else s
    s.setRegN (BED_TR_CFG n) v

/-- TROUGH_ENABLE: a write of BED_TRn_CFG with enable set. -/
def execTroughEnable (sec : Bool) (n : Fin 256) (v : Word) (s : State) : Out := live s fun s =>
  if v.getLsbD 0 then s.allow sec (BED_TR_CFG n) fun s => s.troughWrite n v.toNat else s

/-- TROUGH_DISABLE: a write of BED_TRn_CFG with enable clear. -/
def execTroughDisable (sec : Bool) (n : Fin 256) (v : Word) (s : State) : Out := live s fun s =>
  if v.getLsbD 0 then s else s.allow sec (BED_TR_CFG n) fun s => s.troughWrite n v.toNat

/-- What becomes of a flight that comes to a trough: it goes on, or a trough whose enable is clear (R94, R465) or that is bound to
another unit (R89) ends it. -/
def State.atTrough (s : State) (f : Flight) (u : TrUse) (act : State → State) : State :=
  if !s.trOn u.n then (s.setBit (BED_TR_STAT u.n) 4 true).troughEnd f u stProtection
  else if s.bound f.cls u ≠ some f.unit then (s.putFlight { f.endWith stProtection u.n with outRec := [] }).waited f
  else act s

/-- TROUGH_RECORD_PRODUCE: the next record of a producer is written once the head allows, and the tail is signalled (R91). -/
def execTroughRecordProduce (id : Nat) (s : State) : Out := live s fun s =>
  s.onFlight id fun f s =>
    match f.outRec with
    | [] => s
    | (n, rec) :: rest =>
      match f.uses.find? fun u => decide (u.n = n) && u.out with
      | none => s
      | some u =>
        if f.phase ≠ .running then s
        else s.atTrough f u fun s =>
          if s.trCanPut n u.k then
            let s := s.writePhys .bed 0 u.slot rec
            let s := s.putFlight { f.passed n true with outRec := rest, phase := if rest.isEmpty then .ran else .running }
            s.signalMark (troughTail n) 1 false
          else s

/-- The use from which a flight takes its next record: one it lacks, and a trough that has the record before one that has not. -/
def State.nextUse (s : State) (f : Flight) : Option TrUse :=
  (f.uses.find? fun u => f.lacks u && (!s.trOn u.n || s.trCanGet u.n u.k)).or (f.uses.find? f.lacks)

/-- The use at which a descriptor waits: a trough, enabled, that has no room for its next record or has not got it yet. -/
def State.blockedAt (s : State) (f : Flight) : Option TrUse :=
  match f.phase, f.outRec with
  | .running, (n, _) :: _ => f.uses.find? fun u => decide (u.n = n) && u.out && s.trOn n && !s.trCanPut n u.k
  | .dispatched, _ =>
    if f.started && !f.uses.any fun u => f.lacks u && (!s.trOn u.n || s.trCanGet u.n u.k) then f.uses.find? f.lacks else none
  | _, _ => none

/-- Read the next record of a use; a poisoned line ends the descriptor (R85, R92). -/
def State.consume (s : State) (f : Flight) (u : TrUse) : State :=
  match (cut 64 u.slot (64 * u.lines)).find? fun p => s.poisonAt .bed p.1 with
  | some p =>
    let s := s.logPoison .bed p.1
    (s.putFlight (f.endWith stPoisoned (gaOf s.chip spBed p.1))).waited f
  | none =>
    let g := { f.passed u.n false with inRec := f.inRec ++ [(u.n, s.readPhys .bed 0 u.slot (64 * u.lines))] }
    (s.putFlight g).signalMark (troughHead u.n) 1 false

/-- TROUGH_RECORD_CONSUME: the descriptor starts where it has not; the next record a consumer still lacks is read once the tail
allows, and the head is signalled (R92). -/
def execTroughRecordConsume (id : Nat) (s : State) : Out := live s fun s =>
  s.onFlight id fun f s =>
    if f.phase ≠ .dispatched then s
    else (if f.started || !([1, 2, 5].contains (dClass f.desc)) then s
        else s.begin f (classStart (dClass f.desc))).onFlight id fun f s =>
      if f.phase ≠ .dispatched then s
      else if f.strict && !f.hasRecs then s.putFlight { f with phase := .ran }
      else
        match s.nextUse f with
        | none => s
        | some u => s.atTrough f u fun s => if s.trCanGet u.n u.k then s.consume f u else s

end Sys2Proof.Machine
end

