-- ==== Sys2Proof/Machine/Power.lean ====
section
/-! DEFINITION. Clocks, power domains and thermal protection (R398 to R419): islands and their ramps, droop, the core
voltage target, switched domains, the cap loop, thermal protection and the stop sequence. -/

namespace Sys2Proof.Machine

/-- Refuse a write of a power and clock register (R398, R405). -/
def State.pwrErr (s : State) : State := s.blkErr .pwr 0 5

/-- A signed sensor field in steps of 0.125 °C. -/
def tempOf (v : Nat) : Int := (BitVec.ofNat 12 v).toInt

/-- The junction temperature PWR_TJ holds. -/
def State.junction (s : State) : Int := tempOf (s.field PWR_TJ 11 0)

/-! The effective cap (R408, R409). -/

/-- The core voltage target [mV] and the sensed core voltage [mV]. -/
def State.vTarget (s : State) : Nat := s.field PWR_VTARGET 9 0
def State.vSensed (s : State) : Nat := s.field PWR_VTARGET 25 16

/-- The thermal cap [W]. -/
def State.thermalCap (s : State) : Nat := s.field PWR_EFF_CAP 26 16

/-- The lowest of PWR_CAP, the thermal cap and the current bound. -/
def State.effCap (s : State) : Nat := min (min (s.field PWR_CAP 10 0) s.thermalCap) (1300 * s.vTarget / 1000)

/-- Show the effective cap, and whether the thermal cap lies below PWR_CAP, after either has changed. -/
def State.showCap (s : State) : State :=
  let s := s.setField PWR_EFF_CAP 10 0 s.effCap
  s.setBit PWR_STATUS 7 (decide (s.thermalCap < s.field PWR_CAP 10 0))

/-- Write PWR_CAP; a value outside its range is discarded (R408, R463). -/
def State.capWrite (s : State) (w : Nat) : State :=
  if 300 ≤ w ∧ w ≤ 1100 then (s.setRegN PWR_CAP w).showCap else s.pwrErr

/-! Islands (R398 to R402). -/

/-- Current frequency of an island [MHz], and its target. -/
def State.mhz (s : State) (k : Nat) : Nat := s.field (PWR_FSTAT k) 11 0
def State.mhzTarget (s : State) (k : Nat) : Nat := s.field (PWR_FSET k) 11 0

/-- Core voltage [mV] that a frequency needs at the junction temperature (R402). -/
def State.vNeeds (s : State) (mhz : Nat) : Nat := Config.vfTable mhz s.junction

/-- The next step of an island's ramp. -/
def State.nextStep (s : State) (k : Nat) : Nat := if s.mhz k < s.mhzTarget k then s.mhz k + 25 else s.mhz k - 25

/-- Whether the conditions of R401 and R402 let an island take its next step: no droop, and for a rise enough voltage. -/
def State.mayStep (s : State) (k : Nat) : Bool :=
  !s.regBit (PWR_FSTAT k) 14 && (decide (s.nextStep k ≤ s.mhz k) || decide (s.vNeeds (s.nextStep k) ≤ s.vSensed))

/-- Show an island's ramp: [12] while it has not reached its target, [13] frozen by a droop, [15] waiting. -/
def State.showRamp (s : State) (k : Nat) : State :=
  let on := decide (s.mhz k ≠ s.mhzTarget k)
  let s := if on then s else s.setBit (PWR_FSTAT k) 13 false
  let s := s.setBit (PWR_FSTAT k) 12 on
  s.setBit (PWR_FSTAT k) 15 (on && !s.mayStep k)

/-- Write PWR_FSETk: a new target, in steps of 25 MHz within the island's range; a fixed island takes none (R398, R399). -/
def State.fsetWrite (s : State) (k v : Nat) : State :=
  let w := v % 0x1000
  match islandRange k with
  | none => s.pwrErr
  | some (lo, hi) =>
    if lo ≤ w ∧ w ≤ hi ∧ w % 25 = 0 then
      let s := s.setRegN (PWR_FSET k) w
      if s.stopped then s else s.showRamp k
    else s.pwrErr

/-- FSET_WRITE. -/
def execFsetWrite (sec : Bool) (k : Fin 113) (v : Word) (s : State) : Out := live s fun s =>
  s.allow sec (PWR_FSET k) fun s => s.fsetWrite k v.toNat

/-- RAMP_STEP: an island whose ramp may go on takes its next 25 MHz step (R399, R401, R402). -/
def execRampStep (k : Fin 113) (s : State) : Out := live s fun s =>
  if s.regBit (PWR_FSTAT k) 12 then
    if s.mayStep k then (((s.setField (PWR_FSTAT k) 11 0 (s.nextStep k)).setBit (PWR_FSTAT k) 13 false).showRamp k)
    else s.showRamp k
  else s

/-- DROOP_TRIP: the flag is set, the droop is counted, and a ramp freezes (R400, R401). -/
def execDroopTrip (k : Fin 113) (s : State) : Out := live s fun s =>
  let a := PWR_FSTAT k
  if s.regBit a 14 then s
  else
    let s := (s.setBit a 14 true).setField a 31 16 (min 0xFFFF (s.field a 31 16 + 1))
    let s := s.setBit a 13 (s.regBit a 12)
    s.showRamp k

/-- DROOP_CLEAR: the flag clears; a frozen ramp resumes with its next step (R400, R401). -/
def execDroopClear (k : Fin 113) (s : State) : Out := live s fun s =>
  if s.regBit (PWR_FSTAT k) 14 then (s.setBit (PWR_FSTAT k) 14 false).showRamp k else s

/-- VOLTAGE_TARGET_CHANGE: the target follows the highest target frequency and the junction temperature, from 600 mV to
850 mV; it is lowered only when no ramp is unfinished (R402). -/
def execVoltageTargetChange (s : State) : Out := live s fun s =>
  let islands := (List.range 113).filter fun k => (islandRange k).isSome
  let want := max 600 (min 850 (s.vNeeds (maxOr 0 (islands.map s.mhzTarget))))
  let ramping := islands.any fun k => s.regBit (PWR_FSTAT k) 12
  if want < s.vTarget ∧ ramping = true then s else (s.setField PWR_VTARGET 9 0 want).showCap

/-! Switched domains (R404, R405). -/

/-- The block instance of a switched domain, where it is a block's own. -/
def unitOfDomain (d : Nat) : Option (Blk × Nat) :=
  if d < 34 then some (.ae, d) else if d < 52 then some (.ce, d - 34) else if d < 61 then some (.ve, d - 52)
  else if d < 66 then some (.le, d - 61) else if d < 92 then some (.he, d - 66)
  else if 156 ≤ d ∧ d < 164 then some (.fc, d - 156) else if 172 ≤ d ∧ d < 180 then some (.dp, d - 172)
  else if 197 ≤ d ∧ d < 202 then some (.kc, d - 197) else if d = 202 then some (.qc, 0) else none

/-- Whether PWR_DOMd.on may be cleared (R405, Table 16.2). -/
def State.maySwitchOff (s : State) (d : Nat) : Bool :=
  if d < 92 then
    match unitOfDomain d with
    | some (b, i) => blkIdleBit (s.blkState b i)
    | none => false
  else if d < 156 then (List.range 17).all fun i => s.bankOut.contains (17 * (d - 92) + i)
  else if d < 172 then false
  else if d = 196 then false
  else if d < 197 then !s.domUsed d
  else if d < 202 then !s.inService .kc (d - 197) && blkIdleBit (s.blkState .kc (d - 197))
  else if d = 202 then false
  else !s.domUsed d

/-- A block's registers beyond the header. -/
def ownRegs (b : Blk) (i : Nat) (a : Nat) : Bool :=
  match pageOf a with
  | some (c, j, _) => decide (c = b) && decide (j = i) && decide (0x40 ≤ a % 0x1000)
  | none => false

/-- A unit loses its state with its domain: its own registers, and what it keeps from one descriptor to the next. -/
def State.unitLost (s : State) (b : Blk) (i : Nat) : State :=
  let s := s.resetRegs (ownRegs b i)
  let s := s.setUnit b i { s.unitAt b i with lastTenant := none }
  match b with
  | .ae => { s with resident := smapErase s.resident i }
  | .ce => { s with image := smapErase s.image i }
  | _ => s

/-- Switch a domain off. -/
def State.domOff (s : State) (d : Nat) : State :=
  let s := { s.setRegN (PWR_DOM d) 0 with pw := { s.pw with domBusy := if s.pw.domBusy = some d then none else s.pw.domBusy } }
  match unitOfDomain d with
  | some (b, i) => if d < 92 ∨ (197 ≤ d ∧ d < 202) then s.unitLost b i else s
  | none => s

/-- Start the next power-up, one at a time: which of the waiting domains comes next is not fixed. -/
def State.domNext (s : State) : State :=
  match s.pw.domBusy with
  | some _ => s
  | none =>
    let waiting := (List.range 215).filter fun d => s.regBit (PWR_DOM d) 2 && !s.regBit (PWR_DOM d) 1
    match waiting[Config.freeNat s.free % waiting.length]? with
    | none => s
    | some d => { s.tick with pw := { s.pw with domBusy := some d } }

/-- Ask for a domain to be switched on. -/
def State.domOn (s : State) (d : Nat) : State :=
  if s.regBit (PWR_DOM d) 1 then s.setBit (PWR_DOM d) 0 true else (s.setRegN (PWR_DOM d) 5).domNext

/-- Write PWR_DOMd.on (R405). -/
def State.domWrite (s : State) (d : Nat) (on : Bool) : State :=
  if s.stopped then s
  else if on then s.domOn d
  else if !s.regBit (PWR_DOM d) 0 then s
  else if s.maySwitchOff d then (s.domOff d).domNext
  else s.pwrErr

/-- DOMAIN_SWITCH: a write of PWR_DOMd. -/
def execDomainSwitch (sec : Bool) (d : Fin 215) (v : Word) (s : State) : Out := live s fun s =>
  s.allow sec (PWR_DOM d) fun s => s.domWrite d (v.getLsbD 0)

/-- A unit starts from reset as its domain is powered: it keeps BLK_WORLD, BLK_ERR_MASK, BLK_ERR_CNT and BLK_ERR_WIN (R433). -/
def State.unitStart (s : State) (b : Blk) (i : Nat) : State :=
  let s := (s.setRegN (BLK_CTL b i) 0).setRegN (BLK_ERR b i) 0
  let u := s.unitAt b i
  if u.st = .substituting then s else s.setUnit b i { u with st := (unitReset (unitKey b i)).st }

/-- DOMAIN_POWER_UP_DONE: the domain is powered, its unit starts from reset, and the next waiting domain follows. -/
def execDomainPowerUpDone (d : Fin 215) (s : State) : Out := live s fun s =>
  if s.pw.domBusy = some d.val then
    let s := s.setRegN (PWR_DOM d) 3
    let s := match unitOfDomain d with
      | some (b, i) => s.unitStart b i
      | none => s
    ({ s with pw := { s.pw with domBusy := none } }).domNext
  else s

/-! Power samples and the cap loop (R406 to R412). -/

/-- A whole number of watts from steps of 0.1 mW; how the last watt is rounded is not stated. -/
def State.watts (s : State) (n : Nat) : Nat :=
  n / 10000 + (if n % 10000 = 0 then 0 else flag (Config.freeBit s.free 0))

/-- POWER_SAMPLE: currents [0.1 A], the always-on domain's and the stacks' power, and the sensed voltage. -/
def execPowerSample (currents : List (Fin 215 × BitVec 16)) (aonMilliwatt stacksMilliwatt : Nat) (sensed : BitVec 10)
    (s : State) : Out := live s fun s =>
  let s := (List.range 215).foldl (fun s d =>
    s.setRegN (PWR_DOM_I d) (match currents.find? fun c => decide (c.1.val = d) with | some c => c.2.toNat | none => 0)) s
  let s := s.setField PWR_VTARGET 25 16 sensed.toNat
  let amps := ((List.range 215).map fun d => s.regN (PWR_DOM_I d)).foldl (· + ·) 0
  let chip := amps * sensed.toNat + 10 * aonMilliwatt
  let energy := s.pw.frac + chip + 10 * stacksMilliwatt
  let s := (s.count PWR_ENERGY (energy / 10000)).setField PWR_EST 47 32 (s.watts chip)
  let limit := min (10000 * s.field PWR_FAST_W 10 0) (17100 * s.vTarget)
  let hits := if limit < chip then min 2 (s.pw.fastHits + 1) else 0
  let s := { s.tick with pw := { s.pw with frac := energy % 10000, fastHits := hits } }
  let s := (List.range 113).foldl (fun s k => if s.regBit (PWR_FSTAT k) 15 then s.showRamp k else s) s
  if hits = 2 then (s.setField PWR_STATUS 5 0 48).setBit PWR_STATUS 8 true else s

/-- EST_CORR_UPDATE: the ratio of measured to estimated energy in Q16, bounded to 0.75 to 1.25; its rounding, and the ratio
to an estimate of zero, are not stated. -/
def execEstCorrUpdate (measured estimated : Nat) (s : State) : Out := live s fun s =>
  let raw := measured * 0x10000 / estimated
    + (if measured * 0x10000 % estimated = 0 then 0 else flag (Config.freeBit s.free 0))
  let v := if estimated = 0 then 0xC000 + Config.freeNat s.free % 0x8001 else max 0xC000 (min 0x14000 raw)
  s.tick.setRegN PWR_EST_CORR v

/-- The bubble share and whether the loop is saturated (R408). -/
def bubbleShare (pdem pb cap : Nat) : Nat × Bool :=
  if pdem ≤ cap then (0, false)
  else if pb = 0 then (48, true)
  else
    let c := ceilDiv (64 * (pdem - cap)) pb
    (min 48 c, decide (48 ≤ c))

/-- CAP_LOOP_INTERVAL: P_dem and P_b of the interval, and the share that will take effect. -/
def execCapLoopInterval (pdem pb : BitVec 16) (s : State) : Out := live s fun s =>
  let s := (s.setField PWR_EST 15 0 pdem.toNat).setField PWR_EST 31 16 pb.toNat
  { s with pw := { s.pw with pend := some (bubbleShare pdem.toNat pb.toNat s.effCap) } }

/-- Close the staging area to the non-secure world, or open it again (R364, R370, R383). -/
def State.staging (s : State) (secured : Bool) : State := s.setBit (QN_RGN 259) 1 secured

/-- The update's state, CMD_FW_STAT.upd, and setting it. -/
def State.upd (s : State) : Nat := s.field CMD_FW_STAT 11 8
def State.setUpd (s : State) (v : Nat) : State := s.setField CMD_FW_STAT 11 8 v

/-- Every queue that stands between jobs dispatches nothing more (R371). -/
def State.parkAll (s : State) : State := (List.range 128).foldl (fun s k => s.park (k / 8) (k % 8)) s

/-- Dispatch resumes on every queue. -/
def State.unpark (s : State) : State := { s with jq := smapMap jobQIdle (fun (j : JobQ) => { j with parked := false }) s.jq }

/-- BUBBLE_SHARE_APPLY: the share computed takes effect and ends a fast limit (R408, R411); a saturated loop defers an
activation that waits (R372). -/
def execBubbleShareApply (s : State) : Out := live s fun s =>
  match s.pw.pend with
  | none => s
  | some (share, sat) =>
    let s := ((s.setField PWR_STATUS 5 0 share).setBit PWR_STATUS 6 sat).setBit PWR_STATUS 8 false
    let s := { s with pw := { s.pw with pend := none } }
    if sat ∧ s.upd = 2 then (s.setUpd 3).unpark else s

/-! The stop sequence (R415, R416, Table 16.3). -/

/-- An update has ended with CMD_FW_STAT.upd at `v`: its event (Table 17.4). -/
def State.updEnds (s : State) (v : Nat) : State :=
  let s := { (s.setUpd v).unpark with fw := { s.fw with cand := none } }
  s.pfEvent { type := 0x0050, cls := classCode .cmd, inst := 16, arg0 := s.regN CMD_FW_STAT, arg1 := s.regN CMD_FW_IMGVER }

/-- End an update that is not yet active, under verification or waiting, with a verdict (R371, R372, R416). -/
def State.endUpdate (s : State) (v : Nat) : State :=
  if s.upd = 1 ∨ s.upd = 2 ∨ s.upd = 3 then
    let s := if s.upd = 1 then { s.staging false with fw := { s.fw with verify := none } } else s
    s.updEnds v
  else s

/-- A descriptor in flight completes with ABORTED_STOP and commits nothing more; one not yet dispatched stays in its ring. -/
def Flight.stop (f : Flight) : Flight :=
  if f.held then f else { f.endWith stStop 0 with partly := false, inRec := [], outRec := [], late := [], pin := none }

/-- What happens as a stop latches. -/
def State.stopNow (s : State) : State :=
  let s := (s.endUpdate 6).staging false
  let s := { s with
    flights := s.flights.map Flight.stop
    tensors := smapMap tensorUnused (fun (x : Tensor) => { x with moving := false }) s.tensors
    moves := []
    builds := []
    schedQ := []
    rops := []
    subst := []
    fw := { s.fw with verify := none, absentTimer := false }
    pw := { s.pw with domBusy := none, offArmed := true } }
  let s := (List.range 113).foldl (fun s k =>
    (((s.setBit (PWR_FSTAT k) 12 false).setBit (PWR_FSTAT k) 13 false).setBit (PWR_FSTAT k) 15 false)) s
  let s := (List.range 215).foldl (fun s d => if s.regBit (PWR_DOM d) 2 then s.setRegN (PWR_DOM d) 0 else s) s
  (s.setField CMD_FW_STAT 3 0 7).msix 0

/-- A coolant stop refuses an update under verification with code 6 (R372). -/
def State.refuseUpdate (s : State) (n : Nat) : State :=
  if n = 9 ∧ s.upd = 1 then (s.setField CMD_FW_STAT 7 4 6).endUpdate 5 else s

/-- Latch a stop's status bit; the sequence runs once. -/
def State.latchStop (s : State) (n : Nat) : State :=
  if s.stopped then s.setBit PWR_STATUS n true else ((s.setBit PWR_STATUS n true).refuseUpdate n).stopNow

/-- A thermal trip also asserts THERM_TRIP_N (R415). -/
def State.thermalTrip (s : State) : State :=
  ({ s with pins := { s.pins with thermTrip := true } }).latchStop 10

/-! Thermal protection (R413 to R415). -/

/-- One of a list, which the spec does not fix. -/
def State.pick (s : State) (l : List Nat) : Nat := l.getD (Config.freeNat s.free % l.length) 0

/-- JUNCTION_SAMPLE: the 64 readings, the highest in PWR_TJ, the 100 µs record, and a trip on two samples at 115 °C. -/
def execJunctionSample (readings : List (BitVec 12)) (s : State) : Out := live s fun s =>
  let r (i : Nat) : BitVec 12 := readings.getD i 0
  let s := (List.range 64).foldl (fun s i => s.setRegN (PWR_TS i) (r i).toNat) s
  let top := (List.range 64).foldl (fun m i => max m (r i).toInt) (r 0).toInt
  let at_ := s.pick ((List.range 64).filter fun i => decide ((r i).toInt = top))
  let s := s.tick.setRegN PWR_TJ ((BitVec.ofInt 12 top).toNat + place at_ 16)
  let hot := (List.range 64).filter fun i => decide (920 ≤ (r i).toInt)
  let twice := hot.filter fun i => s.pw.tripHits.getLsbD i
  let limit : Int := 8 * (s.field PWR_THERM_CFG 7 0 : Nat)
  let release : Int := 8 * (s.field PWR_THERM_CFG 15 8 : Nat)
  let s := { s with pw := { s.pw with
    tripHits := BitVec.ofNat 64 ((hot.map fun i => 2 ^ i).foldl (· + ·) 0)
    atLimit := s.pw.atLimit && decide (limit ≤ top)
    atRelease := s.pw.atRelease && decide (top ≤ release) } }
  if twice.isEmpty then s
  else
    let s := if s.regBit PWR_STOP_LOG 1 then s
      else (s.tick.setBit PWR_STOP_LOG 1 true).setField PWR_STOP_LOG 21 16 (s.pick twice)
    s.thermalTrip

/-- THERMAL_CAP_UPDATE: the cap falls, rises or holds by the last 100 µs. -/
def execThermalCapUpdate (s : State) : Out := live s fun s =>
  let cap := s.field PWR_CAP 10 0
  let next := if s.pw.atLimit && !s.pw.atRelease then max 300 (s.thermalCap - 10)
    else if s.pw.atRelease && !s.pw.atLimit then min cap (s.thermalCap + 10)
    else s.thermalCap
  let s := { s with pw := { s.pw with atLimit := true, atRelease := true } }
  (s.setField PWR_EFF_CAP 26 16 next).showCap

/-- COOL_FLOW_OK_LOW: the pin falls and the 50 µs filter starts. -/
def execCoolFlowOkLow (s : State) : Out := atPins s fun s =>
  let s := { s with pins := { s.pins with coolFlowOk := false } }
  if s.pins.perstN then { s with pw := { s.pw with coolArmed := true } } else s

/-- COOL_FLOW_OK_HIGH: the pin rises and cancels the filter. -/
def execCoolFlowOkHigh (s : State) : Out := atPins s fun s =>
  { s with pins := { s.pins with coolFlowOk := true }, pw := { s.pw with coolArmed := false } }

/-- COOLANT_STOP: COOL_FLOW_OK has been low for 50 µs. -/
def execCoolantStop (s : State) : Out := live s fun s =>
  if s.pw.coolArmed ∧ s.pins.coolFlowOk = false then
    (({ s with pw := { s.pw with coolArmed := false } }).setBit PWR_STOP_LOG 0 true).latchStop 9
  else s

/-- CATTRIP: an HBM stack trips (R278). -/
def execCattrip (stack : Fin 8) (s : State) : Out := live s fun s =>
  let s := if s.regBit PWR_STOP_LOG 2 then s else (s.setBit PWR_STOP_LOG 2 true).setField PWR_STOP_LOG 5 3 stack.val
  s.thermalTrip

/-- Blocks that lose their state with the switched domains. -/
def switchedBlk : Blk → Bool
  | .ae => true
  | .ce => true
  | .ve => true
  | .le => true
  | .he => true
  | .fc => true
  | .qc => true
  | .dp => true
  | .kc => true
  | _ => false

/-- Registers, beyond the headers, of the blocks in switched domains. -/
def switchedRegs (a : Nat) : Bool :=
  match pageOf a with
  | some (b, _, _) => switchedBlk b && decide (0x40 ≤ a % 0x1000)
  | none => false

/-- A superblock whose data are lost: its wear stays, and it is to be erased (R299). -/
def Superblock.lost (b : Superblock) : Superblock :=
  { b with units := [], st := if b.st = .holding then .dirty else b.st }

/-- Everything the Bed, HBM and NAND hold, and what stands in them. -/
def State.contentLost (s : State) : State :=
  { s with
    bed := [], bedPoison := [], hbm := [], hbmPoison := [], hbmKey := [], hbmReady := false
    nandBytes := [], nandSb := s.nandSb.map Superblock.lost, tensors := [], xlat := [], moves := [], builds := [], mapOp := []
    kcSram := [], qcCache := [] }

/-- STOP_POWER_OFF: every switched domain but the host interface is off, and what it held is lost. -/
def execStopPowerOff (s : State) : Out := live s fun s =>
  if s.pw.offArmed then
    let s := (List.range 215).foldl (fun s d => if d = 196 then s else s.setRegN (PWR_DOM d) 0) s
    let s := (s.resetRegs switchedRegs).contentLost
    { s with
      pw := { s.pw with offArmed := false, domBusy := none }
      unit := smapMap unitReset (fun (u : UnitSt) => { u with lastTenant := none }) s.unit
      flights := [], resident := [], image := [], pageMap := [], pfx := [], sched := [], schedQ := []
      bedDefer := [], bedPtr := [], spareBad := []
      hbmQ := [], hbmRow := [], hbmTrr := [], hbmDue := [], hbmTrrDue := [], hbmData := [], hbmPtr := [], hbmDrain := [], hbmTrainTemp := []
      retrainReq := [], retrain := [], laneCnt := [], lineRepair := [], nandCnt := [], nandTemp := []
      conn := [], rconn := [], rxq := [], rops := [], putFail := [], putOpen := [], pausedBy := [], pausing := [], groutNext := [] }
  else s

end Sys2Proof.Machine
end

