-- ==== Sys2Proof/Machine/Service.lean ====
section
/-! DEFINITION. Faults, spares and service (R420 to R424), and the control of a block through its header (R382, R435,
R437). -/

namespace Sys2Proof.Machine

/-! Counters. -/

/-- Offsets of the 64-bit counters of a block's page (R391). -/
def counterOffs : Blk → Nat → List Nat
  | .ae, _ => [0x50, 0x58, 0x60, 0x68]
  | .ce, _ => [0x50, 0x58, 0x60, 0x68]
  | .ve, _ => [0x50, 0x58, 0x60, 0x68, 0x78]
  | .le, _ => [0x50, 0x58, 0x60, 0x68, 0x78]
  | .he, _ => [0x50, 0x58, 0x60, 0x68, 0x78]
  | .bed, 0 => [0x50]
  | .pm, _ => [0x48]
  | .qc, 0 => [0x50, 0x58, 0x68, 0x70, 0x78]
  | .qc, 8 => [0x60, 0x68, 0x70, 0x78, 0x80]
  | .qc, 9 => (List.range 16).flatMap fun c => [0x48 + 32 * c, 0x50 + 32 * c]
  | .fc, 0 => [0x60, 0x68, 0x70, 0x78, 0x88]
  | .fc, 1 => (List.range 10).map fun p => 0x140 + 8 * p
  | .dp, 0 => [0x50, 0x58, 0x60, 0x68, 0x70, 0x78, 0x80, 0x88, 0x90, 0x98]
  | .mk, _ => [0x40, 0x48, 0x50]
  | .qn, 5 => [0x100]
  | .pl, _ => [0x68, 0x70]
  | .pwr, 0 => [0x58]
  | _, _ => []

/-- Whether the register at an address is a counter. -/
def isCounter (a : Nat) : Bool :=
  match pageOf a with
  | some (b, _, p) => (counterOffs b p).contains (a % 0x1000)
  | none => false

/-! Windows (R420, R437). -/

/-- Halve both 16-bit counts of a word. -/
def halveBoth (v : Nat) : Nat := bits v 15 0 / 2 + place (bits v 31 16 / 2) 16

/-- Halve the counts of a map whose key satisfies `p`. -/
def halve (p : Nat → Bool) (m : SMap Nat) : SMap Nat :=
  (m.map fun e => if p e.1 then (e.1, e.2 / 2) else e).filter fun e => decide (e.2 ≠ 0)

/-- ERROR_WINDOW_END: every leaky count of the block halves, and the settings written apply from now on. Banks that reached
the threshold with no spare free raise their event (R88). -/
def execErrorWindowEnd (b : Blk) (i : Nat) (s : State) : Out := live s fun s =>
  let s := match b with
    | .bed =>
      let s := s.winHit.foldl (fun (s : State) p => s.noSpare .bed 0 p (s.bankCount p)) s
      { (List.range 544).foldl (fun (s : State) w => s.modReg (BED_CEC w) halveBoth) s with winHit := [] }
    | .fc =>
      let s := (List.range 16).foldl (fun (s : State) c => s.modReg (FC_CECCH i c) (· / 2)) s
      { s with laneCnt := halve (fun k => decide (k / 36 / 32 = i)) s.laneCnt }
    | .qc => { s with nandCnt := halve (fun _ => true) s.nandCnt }
    | _ => s
  let s := s.setField (BLK_ERR_CNT b i) 15 0 (s.field (BLK_ERR_CNT b i) 15 0 / 2)
  { s with errWin := smapSet errWinReset s.errWin (unitKey b i) (s.regN (BLK_ERR_WIN b i)) }

/-! Retirement and substitution (R421 to R424). -/

/-- Whether a class has spares of its own (Table 17.1). -/
def hasSpares : Blk → Bool
  | .ae => true
  | .ce => true
  | .ve => true
  | .le => true
  | .he => true
  | .kc => true
  | _ => false

/-- Whether a class's units stay in service with NO_SPARE (Table 17.1). -/
def staysInService : Blk → Bool
  | .qc => true
  | .fc => true
  | .dp => true
  | .dev => true
  | .cmd => true
  | .qn => true
  | .pm => true
  | _ => false

/-- Whether a flight completes on the retiring engine (R147, R170, R194, R223, R243, R421): its operation has run or is under
way, it has a trough operand, or it is a SCAN that writes H over B. -/
def Flight.stays (s : State) (f : Flight) : Bool :=
  let scan := ((Work.start s f.tenant false).leParams f.desc).2
  decide (f.phase ≠ .dispatched) || f.started || !f.uses.isEmpty
    || (decide (dClass f.desc = 4) && scan.hwr && decide (scan.b = scan.h))

/-- Take the flights that do not stay off a retiring engine; under a retiring slot they complete with KEY_RETIRED (R424). -/
def State.evict (s : State) (b : Blk) (i : Nat) : State :=
  let go := s.flights.filter fun f => f.onUnit b i && !f.stays s
  go.foldl (fun (s : State) (f : Flight) =>
    let s := match unitStatus b i with
      | some (a, _) => s.setBit a 0 false
      | none => s
    if s.slot f.tenant = 2 then s.putFlight (f.endWith stKeyRetired 0)
    else
      let again := f.codes.any fun c => decide (c.1.toNat = stEngineRetired)
      let f := if again then f else f.addCode stEngineRetired 0
      s.putFlight { f with phase := .redispatch, unit := 0xFF, issued := false }) s

/-- Lane of a unit (Table 3.3). -/
def unitLane (b : Blk) (i : Nat) : Nat :=
  ((lanesOf b).findIdx? fun r => decide (r.1 ≤ i) && decide (i ≤ r.2)).getD 0

/-- The spare that takes over from a unit (R423): the nearest lane, lane A's side first, then the lowest index. -/
def State.spareFor (s : State) (b : Blk) (i : Nat) : Option Nat :=
  let far (j : Nat) : Nat := max (unitLane b i) (unitLane b j) - min (unitLane b i) (unitLane b j)
  let rank (j : Nat) : Nat := far j * 10000 + unitLane b j * 1000 + j
  let free := (List.range (placeOf b).count).filter fun j => (s.unitAt b j).standby && !(s.unitAt b j).retired
  free.foldl (fun acc j => match acc with | none => some j | some k => if rank j < rank k then some j else some k) none

/-- Switch a unit's domain off. -/
def State.unitOff (s : State) (b : Blk) (i : Nat) : State :=
  match domainOf b i with
  | some d => (s.domOff d).domNext
  | none => s

/-- Power a spare for a role, or with none left retire the unit and say so (R423). -/
def State.substNext (s : State) (x : Subst) : State :=
  let rest := s.subst.filter fun y => !(decide (y.blk = x.blk) && decide (y.old = x.old))
  match s.spareFor x.blk x.old with
  | some sp =>
    let s := s.setUnit x.blk sp { s.unitAt x.blk sp with standby := false, st := .substituting }
    let s := { s with subst := rest ++ [{ x with spare := some sp, idle := true }] }
    match domainOf x.blk sp with
    | some d => s.domOn d
    | none => s
  | none =>
    let s := { s with subst := rest }
    let s := s.setUnit x.blk x.old { s.unitAt x.blk x.old with retiring := false, retired := true }
    let s := ((s.unitOff x.blk x.old).record).unitRetired x.blk x.old x.old 0xFF
    s.noSpare x.blk x.old x.old (s.enabledCount x.blk)

/-- Begin the retirement of a unit of a class with spares. A unit already draining for it or retired is left alone; a spare on
standby leaves the pool; a spare that is taking over is replaced by the next (R422, R424). -/
def State.retire (s : State) (b : Blk) (i : Nat) : State :=
  let u := s.unitAt b i
  if u.retiring || u.retired || s.stopped then s
  else if u.standby then
    let s := s.setUnit b i { u with standby := false, retired := true }
    s.record.unitRetired b i i 0xFF
  else
    match s.subst.find? fun x => decide (x.blk = b) && decide (x.spare = some i) with
    | some x =>
      let s := s.setUnit b i { u with st := .disabled, retired := true }
      let s := ((s.unitOff b i).record).unitRetired b i i 0xFF
      s.substNext x
    | none =>
      let s := s.setUnit b i { u with retiring := true }
      let s := { s with subst := s.subst ++ [({ blk := b, old := i, spare := none, idle := false } : Subst)] }
      s.evict b i

/-- What a block's threshold or an internal error leads to (Table 17.1). -/
def State.blockFails (s : State) (b : Blk) (i : Nat) : State :=
  if hasSpares b then s.retire b i
  else if staysInService b then s.noSpare b i i (s.field (BLK_ERR_CNT b i) 15 0)
  else s

/-- UNIT_UNCORRECTABLE_ERROR: the descriptor that reads the damaged data completes with POISONED_OPERAND, and the unit is
retired at once (R421). -/
def execUnitUncorrectableError (b : Blk) (i : Nat) (reader : Option Nat) (s : State) : Out := live s fun s =>
  let s := s.uncorrectable b i
  let s := match reader with
    | some id => s.onFlight id fun (f : Flight) (s : State) =>
      if f.onUnit b i ∧ f.phase ≠ Phase.ran then s.putFlight { f.endWith stPoisoned 0 with outRec := [] } else s
    | none => s
  s.blockFails b i

/-- The retirement of a Grout unit: it is switched off (R422). -/
def State.groutRetire (s : State) (p u : Nat) : State :=
  if s.groutOff.contains (p, u) then s else { s with groutOff := s.groutOff ++ [(p, u)] }

/-- Pseudo-channel across the chip of a channel's pseudo-channel. -/
def pcOf (fc ch : Nat) (pc : Bool) : Nat := 32 * fc + 2 * ch + flag pc

/-- A request to repair an HBM lane: its repair is due at the end of a live retrain, or no spare is free (R293). -/
def State.laneRetire (s : State) (pc lane : Nat) : State :=
  if (smapFind s.lineRepair pc).isSome then s
  else if s.laneUsed pc then s.noSpare .fc (pc / 32) (laneKey pc lane) (smapGet (fun _ => 0) s.laneCnt (laneKey pc lane))
  else { s with lineRepair := smapInsert s.lineRepair pc lane }

/-- RETIRE_REQUEST: a retire request of the secure world, or one more corrected error in a counted unit (R420, R422). -/
def execRetireRequest (sec : Bool) (u : RetireUnit) (c : RetireCause) (s : State) : Out := live s fun s =>
  match c, u with
  | .request, .block b i => s.allow sec (BLK_CTL b i) fun s =>
      if (s.unitAt b i).retired then s.blkErr b i 5 else s.blockFails b i
  | .request, .bank p => s.allow sec (BLK_CTL .bed 0) fun s => s.bankRetire p
  | .request, .lane fc ch pc l => s.allow sec (BLK_CTL .fc fc) fun s => s.laneRetire (pcOf fc ch pc) l
  | .request, .grout p g => s.allow sec (BLK_CTL .dp p) fun s => s.groutRetire p g
  | .corrected, .block b i =>
      let (s, hit) := s.leak b i
      if hit then s.blockFails b i else s
  | .corrected, .bank p => s.bankCorrected p
  | .corrected, .lane fc ch pc l => (s.hbmCorrected (pcOf fc ch pc)).laneCorrected (pcOf fc ch pc) l
  | .corrected, .grout p g =>
      let (s, hit) := s.leak .dp p
      if hit then s.groutRetire p g else s

/-- SUBSTITUTION_IDLE: nothing is left on the retiring engine, and the spare's domain is powered on (R423, step 3). -/
def execSubstitutionIdle (b : Blk) (i : Nat) (s : State) : Out := live s fun s =>
  match s.subst.find? fun x => decide (x.blk = b) && decide (x.old = i) && !x.idle with
  | some x => if s.working b i then s else s.substNext x
  | none => s

/-- SUBSTITUTION_COMPLETE: the spare, powered, takes the role with its world, its trough bindings and its pins; the retired
engine's domain is switched off; record and event follow (R423, steps 3 to 5). -/
def execSubstitutionComplete (b : Blk) (i : Nat) (s : State) : Out := live s fun s =>
  match s.subst.find? fun x => decide (x.blk = b) && decide (x.old = i) && x.idle with
  | some { spare := some sp, .. } =>
    if (domainOf b sp).all s.powered then
      let s := { s with subst := s.subst.filter fun x => !(decide (x.blk = b) && decide (x.old = i)) }
      let s := (s.setRegN (BLK_WORLD b sp) (s.regN (BLK_WORLD b i))).setRegN (BLK_CTL b sp) 1
      let s := s.setUnit b sp { s.unitAt b sp with st := .idle, spareActive := true }
      let s := s.setUnit b i { s.unitAt b i with retiring := false, retired := true }
      let held := (List.range (placeOf b).count).filter fun r => s.roleOf b r = i
      let s := held.foldl (fun (s : State) r => { s with roles := smapSet (fun k => k % 256) s.roles (unitKey b r) sp }) s
      ((s.unitOff b i).record).unitRetired b i i sp
    else s
  | _ => s

/-! BLK_CTL (R435). -/

/-- Classes whose units an enable bit turns on and off: engines, Quarry and Keystone (R436). -/
def canDisable : Blk → Bool
  | .qc => true
  | b => hasSpares b

/-- Let a write of BLK_CTL through: a retired unit takes only a reset. -/
def State.ctlAllow (s : State) (sec : Bool) (b : Blk) (i : Nat) (act : State → State) : State :=
  s.allow sec (BLK_CTL b i) fun s => if (s.unitAt b i).retired then s.blkErr b i 5 else act s

/-- Set or clear BLK_CTL.enable. -/
def State.blkEnable (s : State) (b : Blk) (i : Nat) (on : Bool) : State :=
  let u := s.unitAt b i
  let s := s.setBit (BLK_CTL b i) 0 on
  if !canDisable b then s
  else if on then (if u.st = .disabled ∨ u.st = .draining then s.setUnit b i { u with st := .idle } else s)
  else if u.st ≠ .idle then s
  else s.setUnit b i { u with st := if s.working b i then .draining else .disabled }

/-- BLOCK_ENABLE: a write of BLK_CTL that sets or clears enable. -/
def execBlockEnable (sec : Bool) (b : Blk) (i : Nat) (on : Bool) (s : State) : Out := live s fun s =>
  s.ctlAllow sec b i fun s => s.blkEnable b i on

/-- Set or clear BLK_CTL.drain; once it is clear a port sends the frames it held back. -/
def State.blkDrain (s : State) (b : Blk) (i : Nat) (on : Bool) : State :=
  let s := s.setBit (BLK_CTL b i) 1 on
  if b = .dp ∧ on = false then (List.range 8).foldl (fun s k => s.pumpAll i k) s else s

/-- BLOCK_DRAIN: a write of BLK_CTL that sets or clears drain. -/
def execBlockDrain (sec : Bool) (b : Blk) (i : Nat) (on : Bool) (s : State) : Out := live s fun s =>
  s.ctlAllow sec b i fun s => s.blkDrain b i on

/-- BLOCK_IDLE: a unit disabled while it worked has become idle. -/
def execBlockIdle (b : Blk) (i : Nat) (s : State) : Out := live s fun s =>
  let u := s.unitAt b i
  if u.st = .draining ∧ !s.working b i then s.setUnit b i { u with st := .disabled } else s

/-- End the operations on a unit with no record, no result and no signal. -/
def State.endAll (s : State) (b : Blk) (i : Nat) : State :=
  match b with
  | .qc =>
    { s with
      flights := s.flights.filter fun f => f.cls != Blk.qc
      tensors := smapMap tensorUnused (fun (x : Tensor) => { x with moving := false }) s.tensors
      moves := [], builds := [], sched := [], schedQ := [] }.resetRegs fun a => (List.range 16).any fun t => decide (a = QC_SCHED_STAT t)
  | .fc =>
    let mine (pc : Nat) : Bool := decide (pc / 32 = i)
    let s := { s with
      hbmQ := s.hbmQ.filter fun w => !mine w.pc
      hbmPtr := smapClear mine s.hbmPtr
      hbmDrain := s.hbmDrain.filter fun pc => !mine pc
      retrainReq := s.retrainReq.filter fun r => r.1 != i
      retrain := smapErase s.retrain i }
    (s.setBit (FC_STATUS i) 1 false).setRegN (FC_RETRAIN_STAT i) 0
  | .dp =>
    let mine := s.rops.filter fun r => decide (r.port = i)
    { s.freshPort i with
      flights := s.flights.filter fun f => !mine.any fun r => r.flight == some f.id
      rops := s.rops.filter fun r => r.port != i
      rxq := s.rxq.filter fun f => f.port != i
      putFail := s.putFail.filter fun x => x.1.1 / 8 != i
      putOpen := s.putOpen.filter fun x => x.1 / 8 != i }.pauseUpdate i
  | .bed => { s with bedDefer := [], bedPtr := [] }
  | .qn => { s with qnReq := [], qnPtr := 0, mctpIn := [], session := none }.resetRegs fun a =>
      decide (a = QN_MB_STAT) || decide (a = QN_MB_STAT_S)
  | .pl =>
    let ops := [s.plBank0, s.plBank1].flatMap fun k => k.op.toList ++ k.held.toList
    (((ops.foldl State.plTorn s).setPlBank 0 plIdle).setPlBank 1 plIdle).writeDue
  | _ => { s with flights := s.flights.filter fun f => !f.onUnit b i }

/-- BLK_CTL.reset: a descriptor-executing engine also loses its block-specific state; counters stand (assumption 110). -/
def State.blkReset (s : State) (b : Blk) (i : Nat) : State :=
  let u := s.unitAt b i
  let s := (s.endAll b i).setBit (BLK_CTL b i) 1 false
  if hasSpares b then
    let s := s.resetRegs fun a => ownRegs b i a && !isCounter a
    let s := { s with resident := if b = Blk.ae then smapErase s.resident i else s.resident
                      image := if b = Blk.ce then smapErase s.image i else s.image }
    let live := !(u.standby || u.retired || decide (u.st = .substituting))
    s.setUnit b i { u with lastTenant := none, st := if live then .off else u.st }
  else if b = .qc then s.setUnit b i { u with st := .off }
  else s

/-- BLOCK_RESET: a write of BLK_CTL that sets reset. -/
def execBlockReset (sec : Bool) (b : Blk) (i : Nat) (s : State) : Out := live s fun s =>
  s.allow sec (BLK_CTL b i) fun s => s.blkReset b i

/-- BLOCK_RESET_DONE: the unit reports state 1 or 2 again. -/
def execBlockResetDone (b : Blk) (i : Nat) (s : State) : Out := live s fun s =>
  let u := s.unitAt b i
  if u.st = .off then s.setUnit b i { u with st := if s.regBit (BLK_CTL b i) 0 then .idle else .disabled } else s

/-- Blocks whose world is fixed (R382). -/
def worldFixed : Blk → Bool
  | .qn => true
  | .pl => true
  | .pwr => true
  | .kc => true
  | .dev => true
  | .cmd => true
  | _ => false

/-- Write BLK_WORLD: only while the block is idle; a fixed world ignores it, and an engine's reserved owner is refused (R33,
R382, R463). -/
def State.worldWrite (s : State) (b : Blk) (i v : Nat) : State :=
  let w := Nat.land v 0xFF01
  let owner := bits w 15 8
  let engine := bit (blkCaps b) 8
  if worldFixed b then s
  else if !blkIdleBit (s.blkState b i) || (engine && decide (15 < owner) && decide (owner ≠ 0xFF)) then s.blkErr b i 5
  else s.setRegN (BLK_WORLD b i) w

/-- A write of BLK_CTL: reset, retire, drain, enable, in this order (R435). -/
def State.ctlWrite (s : State) (b : Blk) (i v : Nat) : State :=
  let retired := (s.unitAt b i).retired
  let s := if bit v 3 then s.blkReset b i else s
  if retired then (if bit v 3 then s else s.blkErr b i 5)
  else
    let s := if bit v 2 then s.blockFails b i else s
    (s.blkDrain b i (bit v 1)).blkEnable b i (bit v 0)

/-- A 32-bit write of a header register (Table 18.2, Table 17.5). -/
def State.headerWrite (s : State) (b : Blk) (i off v : Nat) : State :=
  if off = 0x0C then s.worldWrite b i v
  else if off = 0x10 then s.ctlWrite b i v
  else if off = 0x18 then s.modReg (BLK_ERR b i) fun old => old - Nat.land old (v % 0x40)
  else if off = 0x1C then s.setRegN (BLK_ERR_MASK b i) (v % 0x40)
  else if off = 0x24 then
    (if bits v 15 0 = 0 ∨ bits v 31 16 = 0 then s.blkErr b i 5 else s.setRegN (BLK_ERR_WIN b i) (v % 2 ^ 32))
  else s

/-- BLOCK_WORLD_WRITE: a write of BLK_WORLD. -/
def execBlockWorldWrite (sec : Bool) (b : Blk) (i : Nat) (v : Word) (s : State) : Out := live s fun s =>
  s.allow sec (BLK_WORLD b i) fun s => s.worldWrite b i v.toNat

end Sys2Proof.Machine
end

