-- ==== Sys2Proof/Machine/Cmd.lean ====
section
/-! DEFINITION. The emulated command pages: write queues (R355 to R360), job queues and rings (R63 to R68, R72, R73), and map
operations (R69, R70). -/

namespace Sys2Proof.Machine

/-! The write queue of a function. -/

/-- Address of an offset in a function's command pages. -/
def cmdAddr (fn off : Nat) : Nat := pageAddr .cmd fn (off / 0x1000) + off % 0x1000

/-- Address of the register a waiting write names. -/
def Posted.addr (p : Posted) : Nat := cmdAddr p.fn p.off

/-- Whether Meleopin runs (R362). -/
def State.meleopin (s : State) : Bool := !s.stopped && (decide (s.fwState = 4) || decide (s.fwState = 5))

/-- The PF registers Quoin serves in every state (R360). -/
def servedAlways (fn a : Nat) : Bool := decide (fn = 16) && [CMD_FW_STAT, CMD_FW_LEN, CMD_FW_CTL].contains a

/-- The write of a function that is applied next: the oldest that waits, or, while Meleopin does not run, the oldest that Quoin
serves (R356, R360). -/
def State.front (s : State) (fn : Nat) : Option Posted :=
  s.wq.find? fun p => decide (p.fn = fn) && (s.meleopin || servedAlways fn p.addr)

/-- Count a write as applied (R356). -/
def State.wdone (s : State) (fn : Nat) : State := s.modReg (CMD_WDONE fn) fun n => (n + 1) % 2 ^ 32

/-- Take the oldest write off a function's queue, applied. -/
def State.popDone (s : State) (fn : Nat) : State :=
  match s.front fn with
  | none => s
  | some p => { s with wq := s.wq.erase p }.wdone fn

/-- Replace the value of the oldest write of a function. -/
def State.setFront (s : State) (fn v : Nat) : State :=
  match s.front fn with
  | none => s
  | some p => { s with wq := s.wq.replace p { p with val := BitVec.ofNat 64 v } }

/-- Refuse a command-page write: BLK_ERR of the function's page 0 (R68, R463). -/
def State.cmdErr (s : State) (fn : Nat) : State := s.blkErr .cmd fn 5

/-- Whether a write to a register is taken (R360, R416). CMD_WIN_BASE is served by hardware, in every state of the PF (R355,
R364); what Quoin serves is served after a stop too, since R372 answers an update then. -/
def State.takes (s : State) (fn a : Nat) : Bool :=
  if fn < 16 then s.meleopin && s.slot fn != 0
  else s.meleopin || servedAlways fn a || (decide (a = CMD_WIN_BASE fn) && !s.stopped)

/-- Count a discarded write, saturating. -/
def State.wdrop (s : State) (fn : Nat) : State := s.modReg (CMD_WDROP fn) fun n => min 0xFFFFFFFF (n + 1)

/-- Registers whose writes coalesce (R357). -/
def coalesces (fn a : Nat) : Bool :=
  if fn < 16 then (List.range 8).any (fun q => decide (a = CMD_JQ_TAIL fn q)) || decide (a = CMD_CQ_HEAD fn) || decide (a = CMD_EQ_HEAD fn)
  else decide (a = CMD_EQ_HEAD fn) || decide (a = CMD_HEARTBEAT)

/-- Enter a write in its queue (R356 to R358). -/
def State.enterWrite (s : State) (p : Posted) : State :=
  let same (q : Posted) : Bool := decide (q.fn = p.fn) && decide (q.addr = p.addr)
  let merged := coalesces p.fn p.addr && s.wq.any same
  let s := if merged then { s with wq := s.wq.filter fun q => !same q }.wdone p.fn else s
  if 64 ≤ (s.wq.filter fun q => decide (q.fn = p.fn)).length then
    let s := s.wdrop p.fn
    s.event p.fn { type := 0x0003, cls := classCode .cmd, inst := p.fn, tenant := if p.fn < 16 then p.fn else 0xFF,
                   arg0 := s.regN (CMD_WDROP p.fn) }
  else { s with wq := s.wq ++ [p] }.modReg (CMD_WARRIVE p.fn) fun n => (n + 1) % 2 ^ 32

/-- A write of one register of a function's command pages; those of the header are emulated too (R355). -/
def State.postOne (s : State) (sec : Bool) (fn off size v : Nat) : State :=
  let a := cmdAddr fn off
  let p : Posted := { fn := fn, off := off, size := size, val := BitVec.ofNat 64 v }
  if off % 0x1000 < 0x40 then
    s.allow sec a fun s => if s.takes fn a then s.enterWrite p else s.wdrop fn
  else
    match rowAt .cmd fn (off / 0x1000) (off % 0x1000) with
    | none => s.cmdErr fn
    | some (r, _, byte) =>
      let base := a - byte
      if !s.takes fn base then s.wdrop fn
      else if base = CMD_WIN_BASE fn then
        s.setRegN base (Nat.land (s.mergeHalf base byte size r.bytes v) r.mask)
      else if base = CMD_WARRIVE fn ∨ base = CMD_WDROP fn then s
      else s.enterWrite p

/-- A write to a function's command pages: a 64-bit write over two 32-bit registers writes each (R8). -/
def State.post (s : State) (sec : Bool) (fn off size v : Nat) : State :=
  let wide := match rowAt .cmd fn (off / 0x1000) (off % 0x1000) with
    | some (r, _, 0) => decide (r.bytes = 8)
    | _ => false
  if !accessOk off size then s
  else if size = 8 ∧ wide = false then (s.postOne sec fn off 4 (v % 2 ^ 32)).postOne sec fn (off + 4) 4 (v / 2 ^ 32)
  else s.postOne sec fn off size v

/-- COMMAND_WRITE_POST. -/
def execCommandWritePost (fn : Fin 17) (off : BitVec 16) (size : Nat) (v : DWord) (s : State) : Out := live s fun s =>
  s.post false fn off.toNat size v.toNat

/-- Range of MSI-X vectors of a function (R352). -/
def vecOk (fn v : Nat) : Bool := if fn = 16 then decide (v < 128) else decide (128 + 120 * fn ≤ v) && decide (v ≤ 247 + 120 * fn)

/-- Whether any job queue of a function is enabled. -/
def State.anyQueue (s : State) (fn : Nat) : Bool := decide (fn < 16) && (List.range 8).any fun q => (s.jobQ fn q).enabled

/-- Apply a write to a register that has no command of its own, or to the page's header (R66, R68, R70, R352, R463; assumption 43). -/
def State.applyPlain (s : State) (p : Posted) : State :=
  match rowAt .cmd p.fn (p.off / 0x1000) (p.off % 0x1000) with
  | none => s.headerWrite .cmd p.fn (p.off % 0x1000) p.val.toNat
  | some (r, _, byte) =>
    let a := p.addr - byte
    let v := s.mergeHalf a byte p.size r.bytes p.val.toNat
    let vf := decide (p.fn < 16)
    if a = CMD_CQ_BASE p.fn ∧ vf = true ∧ s.anyQueue p.fn = true then s.cmdErr p.fn
    else if a = CMD_CQ_SIZE p.fn ∧ vf = true ∧ s.anyQueue p.fn = true then s.cmdErr p.fn
    else if a = CMD_EQ_VEC p.fn then (if vecOk p.fn (v % 0x800) then s.setRegN a (v % 0x800) else s.cmdErr p.fn)
    else if (a = CMD_MAP_OFF p.fn ∨ a = CMD_MAP_LEN p.fn) ∧ vf = true ∧ s.regBit (CMD_MAP_STAT p.fn) 0 = true then s.cmdErr p.fn
    else s.storeReg .cmd p.fn r a v

/-- What a waiting write is for. -/
inductive CmdKind where
  | plain
  | tail (q : Nat)
  | ctl (q : Nat)
  | cqHead
  | eqHead
  | map
  | fwCtl
  | heartbeat
deriving DecidableEq, Repr

/-- The kind of a waiting write. -/
def Posted.kind (p : Posted) : CmdKind :=
  let a := p.addr
  let byQueue (f : Nat → Nat) : Option Nat := if p.fn < 16 then (List.range 8).find? fun q => decide (a = f q) else none
  match byQueue (CMD_JQ_TAIL p.fn), byQueue (CMD_JQ_CTL p.fn) with
  | some q, _ => .tail q
  | none, some q => .ctl q
  | none, none =>
    if p.fn < 16 ∧ a = CMD_CQ_HEAD p.fn then .cqHead
    else if a = CMD_EQ_HEAD p.fn then .eqHead
    else if p.fn < 16 ∧ a = CMD_MAP_CTL p.fn then .map
    else if p.fn = 16 ∧ a = CMD_FW_CTL then .fwCtl
    else if p.fn = 16 ∧ a = CMD_HEARTBEAT then .heartbeat
    else .plain

/-- Act on the oldest write of a function where it is applied now and `want` holds of it; otherwise no effect (assumption 2). -/
def State.onFront (s : State) (fn : Nat) (want : Posted → Bool) (act : State → Posted → State) : State :=
  match s.front fn with
  | none => s
  | some p => if want p then act s p else s

/-- A write of control bits that names nothing to do. -/
def Posted.empty (p : Posted) : Bool :=
  match p.kind with
  | .plain => true
  | .ctl _ => decide (p.val.toNat % 16 = 0)
  | .fwCtl => decide (p.val.toNat % 16 = 0)
  | .map => decide (p.val.toNat % 4 = 0) || decide (p.val.toNat % 4 = 3)
  | _ => false

/-- COMMAND_WRITE_APPLY: the oldest write of a function, to a register with no command of its own, or naming no action. -/
def execCommandWriteApply (fn : Fin 17) (s : State) : Out := live s fun s =>
  s.onFront fn Posted.empty fun s p =>
    match p.kind with
    | .plain => (s.applyPlain p).popDone fn
    | .map => (s.cmdErr fn).popDone fn
    | _ => s.popDone fn

/-! Job queues (R63 to R68). -/

/-- JQ_TAIL_DOORBELL: the tail moves, or the write is refused and the queue halts (R67). -/
def execJqTailDoorbell (t : Fin 16) (s : State) : Out := live s fun s =>
  s.onFront t (fun p => match p.kind with | .tail _ => true | _ => false) fun s p =>
    match p.kind with
    | .tail q =>
      let v := p.val.toNat % 0x10000
      let s := if s.jqSize t q ≤ v then s.haltRefused t q
        else
          let s := s.setRegN (CMD_JQ_TAIL t q) v
          (if (s.jobQ t q).enabled && s.jqState t q != 2 then s.jqRefresh t q else s).latch
      s.popDone t
    | _ => s

/-- Act on bit `n` of a waiting CMD_JQn_CTL write, the lowest bit set; the write is applied once no bit is left (assumption 50). -/
def State.onCtl (s : State) (t n : Nat) (act : State → Nat → State) : State :=
  s.onFront t (fun p => match p.kind with
      | .ctl _ => decide (p.val.toNat % 2 ^ n = 0) && bit p.val.toNat n
      | _ => false) fun s p =>
    match p.kind with
    | .ctl q =>
      let rest := p.val.toNat % 16 - 2 ^ n
      let s := act s q
      if rest = 0 then s.popDone t else s.setFront t rest
    | _ => s

/-- Enable a job queue. While an activation waits it takes no descriptor, since a disabled queue stands between jobs (R64,
R371). -/
def State.jqOn (s : State) (t q : Nat) : State :=
  if (s.jobQ t q).enabled then s
  else
    let s := s.setJobQ t q { s.jobQ t q with enabled := true, parked := decide (s.field CMD_FW_STAT 11 8 = 2) }
    ((s.setRegN (CMD_JQ_STAT t q) 0).jqRefresh t q).latch

/-- JQ_ENABLE: a write that sets enable while no completion ring exists is refused whole (R68; assumption 49). -/
def execJqEnable (t : Fin 16) (s : State) : Out := live s fun s =>
  if s.regN (CMD_CQ_SIZE t) = 0 then
    s.onFront t (fun p => match p.kind with
      | .ctl _ => bit p.val.toNat 0
      | _ => false) fun s _ => (s.cmdErr t).popDone t
  else s.onCtl t 0 fun s q => s.jqOn t q

/-- JQ_RESUME: a halted queue dispatches again from its head, after the faulting descriptor (R65). -/
def execJqResume (t : Fin 16) (s : State) : Out := live s fun s =>
  s.onCtl t 1 fun s q => 
    if (s.jobQ t q).enabled && s.jqState t q == 2 then ((s.park t q).jqRefresh t q).latch else s

/-- JQ_DISCARD: the head becomes the tail (R65; assumption 51). -/
def execJqDiscard (t : Fin 16) (s : State) : Out := live s fun s =>
  s.onCtl t 2 fun s q =>
    let s := { s with flights := s.flights.filter fun f => !(f.held && decide (f.tenant = t.val) && decide (f.queue = q)) }
    let s := (s.setRegN (CMD_JQ_HEAD t q) (s.regN (CMD_JQ_TAIL t q))).unlatch t q
    (if (s.jobQ t q).enabled && s.jqState t q != 2 then s.jqRefresh t q else s).park t q

/-- JQ_DISABLE (assumption 49). -/
def execJqDisable (t : Fin 16) (s : State) : Out := live s fun s =>
  s.onCtl t 3 fun s q =>
    ((s.setJobQ t q { s.jobQ t q with enabled := false }).setRegN (CMD_JQ_STAT t q) 3).unlatch t q

/-! Rings (R72, R73). -/

/-- Move a ring's head to `v`, modulo its size: the records it passes are read (assumption 45). -/
def State.ringHead (s : State) (key headReg sizeReg v : Nat) : State :=
  let size := 2 ^ s.regN sizeReg
  let r := s.ringAt key
  let passed := (v % size + size - s.regN headReg % size) % size
  let s := s.setRing key { r with unread := r.unread - min r.unread passed }
  s.setRegN headReg (if s.regN sizeReg = 0 then v else v % size)

/-- CQ_HEAD_UPDATE. -/
def execCqHeadUpdate (t : Fin 16) (s : State) : Out := live s fun s =>
  s.onFront t (fun p => decide (p.kind = .cqHead)) fun s p =>
    (s.ringHead (cqKey t) (CMD_CQ_HEAD t) (CMD_CQ_SIZE t) (p.val.toNat % 0x10000)).popDone t

/-- EQ_HEAD_UPDATE. -/
def execEqHeadUpdate (fn : Fin 17) (s : State) : Out := live s fun s =>
  s.onFront fn (fun p => decide (p.kind = .eqHead)) fun s p =>
    (s.ringHead (eqKey fn) (CMD_EQ_HEAD fn) (CMD_EQ_SIZE fn) (p.val.toNat % 0x10000)).popDone fn

/-! Map operations (R69, R70). -/

/-- The range of a map operation, and whether it passes check 1: not empty, in 64 KiB units, within its tier. -/
def State.mapRange (s : State) (t : Nat) (bed : Bool) : Nat × Nat × Bool :=
  let off := s.field (CMD_MAP_OFF t) 47 0
  let len := s.field (CMD_MAP_LEN t) 47 0
  let top := if bed then bedSize else hbmSize
  (off, len, decide (len ≠ 0 ∧ off % 0x10000 = 0 ∧ len % 0x10000 = 0 ∧ off + len ≤ top))

/-- Start a map or unmap, or refuse it while one is in progress. -/
def State.mapStart (s : State) (t : Nat) (p : Posted) (plan : Bool → State → State × MapOp) : State :=
  if s.regBit (CMD_MAP_STAT t) 0 then (s.cmdErr t).popDone t
  else
    let (s, m) := plan (bit p.val.toNat 2) s
    let s := { s with mapOp := smapInsert s.mapOp t m }
    (s.setBit (CMD_MAP_STAT t) 0 true).popDone t

/-- MAP: the checks of R69 in their order; where they pass, space is taken and filled with zeros. -/
def execMap (t : Fin 16) (s : State) : Out := live s fun s =>
  s.onFront t (fun p => decide (p.kind = .map) && decide (p.val.toNat % 4 = 1)) fun s p =>
    s.mapStart t p fun bed s =>
      let (off, len, fine) := s.mapRange t bed
      let ro := bit p.val.toNat 3
      let op (status : Nat) (ents : List XEntry) : MapOp :=
        { unmap := false, bed := bed, off := off / 0x10000, len := len / 0x10000, ro := ro, status := BitVec.ofNat 16 status, ents := ents }
      if !fine then (s, op stTranslation [])
      else if (firstOverlap (s.spaceHeld t bed) off len).isSome then (s, op stProtection [])
      else
        let gs := granules bed off len
        if !s.quotaOk t bed (granCharge gs) then (s, op stQuota [])
        else
          match s.placeGranules t bed ro none gs with
          | (s, none) => (s, op stQuota [])
          | (s, some es) => (s.zeroEnts t es, op stOk es)

/-- UNMAP: every 64 KiB of the range must be mapped by a map operation (R69; assumption 47). -/
def execUnmap (t : Fin 16) (s : State) : Out := live s fun s =>
  s.onFront t (fun p => decide (p.kind = .map) && decide (p.val.toNat % 4 = 2)) fun s p =>
    s.mapStart t p fun bed s =>
      let (off, len, fine) := s.mapRange t bed
      let bad (u : Nat) : Option Nat :=
        match s.xfind t (if bed then .bed else .hbm) (off / 0x10000 + u) with
        | none => some stTranslation
        | some e => if e.src.isSome then some stProtection else none
      let status := if !fine then stTranslation else ((List.range (len / 0x10000)).findSome? bad).getD stOk
      (s, { unmap := true, bed := bed, off := off / 0x10000, len := len / 0x10000, ro := false, status := BitVec.ofNat 16 status, ents := [] })

/-- What is left of an entry after the units from `off` on are unmapped: nothing, itself, or the 64 KiB pieces outside. -/
def XEntry.without (e : XEntry) (off len : Nat) : List XEntry :=
  let gone (u : Nat) : Bool := decide (off ≤ u) && decide (u < off + len)
  let us := (List.range e.units).map fun i => e.off + i
  if !us.any gone then [e]
  else (us.filter fun u => !gone u).map fun u => { e with off := u, big := false, phys := e.phys + (u - e.off) }

/-- MAP_OPERATION_END: entries are written or removed, the status and the count follow. -/
def execMapOperationEnd (t : Fin 16) (s : State) : Out := live s fun s =>
  match smapFind s.mapOp t with
  | none => s
  | some m =>
    let xlat := if m.status.toNat ≠ stOk then s.xlat
      else if m.unmap then
        s.xlat.flatMap fun e => if e.tenant = t.val ∧ e.bed = m.bed then e.without m.off m.len else [e]
      else s.xlat ++ m.ents
    let s := { s with xlat := xlat, mapOp := smapErase s.mapOp t }
    (s.setRegN (CMD_MAP_STAT t) (place m.status.toNat 16)).modReg (CMD_MAP_DONE t) fun n => (n + 1) % 2 ^ 32

end Sys2Proof.Machine
end

