-- ==== Sys2Proof/Machine/Image.lean ====
section
/-! DEFINITION. Firmware images and their verification (R365, R366), for Meleopin and for Quoin (R393). -/

namespace Sys2Proof.Machine

/-- Whether every byte of a header outside the fields of Table 14.7 is zero. -/
def imageZeros (b : Bytes) : Bool :=
  [(0x14, 4), (0x28, 0x18), (0x100, 0x100)].all fun (o, n) => ((b.drop o).take n).all (· == 0)

/-- MAGIC, HVER, HLEN, the lengths and the zero fields, for an image said to be `len` bytes. -/
def imageShape (b : Bytes) (len : Nat) : Bool :=
  decide (512 ≤ b.length) && decide (pfield b 0 4 = 0x4E504C4D) && decide (pfield b 4 2 = 1) && decide (pfield b 6 2 = 0x200)
    && decide (0x200 + pfield b 0x18 8 = len) && decide (len ≤ 0x1000000) && imageZeros b

/-- The checks of R366 in their order: the code of the first failure, or 0. -/
def imageCheck (b : Bytes) (len minSvn : Nat) : Nat :=
  let pub := (b.drop 0x40).take 96
  let sig := (b.drop 0xA0).take 96
  if !imageShape b len then 1
  else if BitVec.ofNat 384 (beNat (sha384 pub)) ≠ Config.releaseKeyDigest then 2
  else if pfield b 0x10 4 < minSvn then 3
  else if !ecdsaVerify pub sig (sha384 (b.take 0xA0 ++ (b.drop 0x200).take (len - 0x200))) then 4
  else 0

/-- The header fields that matter after verification. -/
def ImgHdr.of (b : Bytes) : ImgHdr where
  ifver := BitVec.ofNat 32 (pfield b 8 4)
  imgver := BitVec.ofNat 32 (pfield b 0xC 4)
  svn := BitVec.ofNat 32 (pfield b 0x10 4)

end Sys2Proof.Machine
end

