-- ==== Sys2Proof/Machine/Quoin.lean ====
section
/-! DEFINITION. Quoin's commands (R379 to R395, R418): its mailboxes and MCTP, tenants, its image, the minimum SVN, debug,
region entries, and the snapshot of counters. -/

namespace Sys2Proof.Machine

/-! Requests and answers (R379 to R381). -/

/-- Sources in the order of R379. -/
def srcMctp : Nat := 0
def srcSecure : Nat := 1
def srcPf : Nat := 2

/-- Results of Table 15.1's list. -/
def qnOk : Nat := 0
def qnUnknown : Nat := 1
def qnSource : Nat := 2
def qnArg : Nat := 3
def qnSlot : Nat := 4
def qnVerify : Nat := 5
def qnDebug : Nat := 6

/-- QN_POLICY.host_tenant. -/
def State.hostTenant (s : State) : Bool := s.regBit QN_POLICY 0

/-- Whether a command is permitted from a source (Table 15.1). -/
def State.qnPermits (s : State) (code src : Nat) : Bool :=
  if code = 1 ∨ code = 2 then decide (src = srcMctp) || (decide (src = srcPf) && s.hostTenant)
  else if code = 3 then true
  else if code = 0x10 ∨ (0x40 ≤ code ∧ code ≤ 0x45) then decide (src = srcMctp) || decide (src = srcSecure)
  else decide (src = srcMctp)

/-- Codes of the commands. -/
def qnCodes : List Nat := [1, 2, 3, 4, 0x10, 0x11, 0x20, 0x30, 0x31, 0x40, 0x41, 0x42, 0x43, 0x44, 0x45]

/-- The tenant slot a request names. -/
def QReq.slot (r : QReq) : Option Nat :=
  if r.code = 1 ∨ r.code = 2 ∨ r.code = 3 then r.payload.head?.map BitVec.toNat else none

/-- Requests that may be served next: the first of each source that no earlier request for the same slot precedes, with the
requests in order of arrival. -/
def qnHeads : List QReq → List QReq → List QReq
  | _, [] => []
  | before, r :: rest =>
    let first := before.all fun q => q.src != r.src && (r.slot.isNone || q.slot != r.slot)
    (if first then [r] else []) ++ qnHeads (before ++ [r]) rest

/-- The request Quoin serves next, round-robin (R74). -/
def State.qnNext (s : State) : Option QReq :=
  (qnHeads [] s.qnReq).foldl (fun acc r =>
    match acc with
    | none => some r
    | some a => if (r.src + 3 - s.qnPtr) % 3 < (a.src + 3 - s.qnPtr) % 3 then some r else some a) none

/-- Command, control, status and data registers of a mailbox. -/
def mbCmd (sec : Bool) : Nat := if sec then QN_MB_CMD_S else QN_MB_CMD
def mbCtl (sec : Bool) : Nat := if sec then QN_MB_CTL_S else QN_MB_CTL
def mbStat (sec : Bool) : Nat := if sec then QN_MB_STAT_S else QN_MB_STAT
def mbData (sec : Bool) (i : Nat) : Nat := if sec then QN_MB_DATA_S i else QN_MB_DATA i

/-- Payload bytes of one MCTP packet over SMBus (PRESUMED, the baseline unit of DSP0236). -/
def mctpUnit : Nat := 64

/-- The packets of a message body for an endpoint (its SMBus address in bits 15 to 8) and message tag (PRESUMED, DSP0237). -/
def State.mctpPackets (s : State) (eid tag : Nat) (body : Bytes) : List Bytes :=
  let parts := chunks mctpUnit body
  parts.zipIdx.map fun (p, i) =>
    let flags := place (flag (decide (i = 0))) 7 + place (flag (decide (i + 1 = parts.length))) 6 + place (i % 4) 4 + tag % 8
    let pkt := leBytes 1 (eid / 256) ++ [0x0F] ++ leBytes 1 (5 + p.length) ++ [0x9F, 0x01] ++ leBytes 1 (eid % 256)
      ++ [s.mctpEid] ++ leBytes 1 flags ++ p
    pkt ++ [pec pkt]

/-- Send an MCTP message. -/
def State.mctpSend (s : State) (eid tag : Nat) (body : Bytes) : State :=
  { s with mctpOut := s.mctpOut ++ s.mctpPackets eid tag body }

/-- Answer a request: over MCTP, or in its mailbox, where it stands until the next go. -/
def State.qnAnswer (s : State) (r : QReq) (res : Nat) (resp : Bytes) : State :=
  if r.src = srcMctp then s.mctpSend r.eid r.tag ([0x7E, 0x1F, 0x9A] ++ leBytes 1 res ++ resp)
  else
    let sec := decide (r.src = srcSecure)
    let s := (chunks 4 resp).zipIdx.foldl (fun (s : State) (w, i) =>
      s.setRegN (mbData sec i) (leNat w + s.regN (mbData sec i) / 2 ^ (8 * w.length) * 2 ^ (8 * w.length))) s
    s.setRegN (mbStat sec) (place res 8 + place resp.length 16)

/-- Take a request off the queue; the pointer moves past its source. A command over MCTP other than DEBUG_RESPONSE spends a
challenge (R395). -/
def State.qnTake (s : State) (r : QReq) : State :=
  { s with qnReq := s.qnReq.erase r, qnPtr := (r.src + 1) % 3
           dbg := if r.src = srcMctp ∧ r.code ≠ 0x31 then none else s.dbg }

/-- Answer requests that no command of Table 15.1 serves, while they are next. -/
def State.qnSkimFuel : Nat → State → State
  | 0, s => s
  | n + 1, s =>
    match s.qnNext with
    | none => s
    | some r =>
      let part := (r.payload.head?.map BitVec.toNat).getD 4
      if !qnCodes.contains r.code then State.qnSkimFuel n ((s.qnTake r).qnAnswer r qnUnknown [])
      else if r.code = 0x11 ∧ 3 < part then
        State.qnSkimFuel n ((s.qnTake r).qnAnswer r (if r.src = srcMctp then qnArg else qnSource) [])
      else s

/-- Enter a request. -/
def State.qnEnter (s : State) (r : QReq) : State :=
  let s := { s with qnReq := s.qnReq ++ [r] }
  State.qnSkimFuel s.qnReq.length s

/-- A command's effect: the state, the result and the response. -/
abbrev QnOut := State × Nat × Bytes

/-- Serve the next request, where it is a command of `code` for which `want` holds. -/
def State.qnServe (s : State) (code : Nat) (want : QReq → Bool) (act : State → QReq → QnOut) : State :=
  match s.qnNext with
  | none => s
  | some r =>
    if r.code = code ∧ want r = true then
      let s := s.qnTake r
      let (s, res, resp) := if s.qnPermits code r.src then act s r else (s, qnSource, [])
      let s := s.qnAnswer r res resp
      State.qnSkimFuel s.qnReq.length s
    else s

/-- Serve a command whose payload has at least `n` bytes; a shorter one is a bad argument (DEDUCED). -/
def State.qnCommand (s : State) (code n : Nat) (act : State → Bytes → QnOut) : State :=
  s.qnServe code (fun _ => true) fun s r => if r.payload.length < n then (s, qnArg, []) else act s r.payload

/-- Write QN_MB_CTL of a mailbox: go starts the command, or is discarded while busy (R381). -/
def State.mailboxWrite (s : State) (sec go : Bool) : State :=
  if !go then s
  else if s.regBit (mbStat sec) 0 then s.blkErr .qn 0 5
  else
    let n := s.field (mbCmd sec) 24 16
    let payload := (List.range 64).flatMap fun i => leBytes 4 (s.regN (mbData sec i))
    (s.setRegN (mbStat sec) 1).qnEnter
      { src := if sec then srcSecure else srcPf, code := s.field (mbCmd sec) 15 0, payload := payload.take n, eid := 0, tag := 0 }

/-- MAILBOX_GO: a write of QN_MB_CTL. -/
def execMailboxGo (sec : Bool) (v : Word) (s : State) : Out := live s fun s =>
  s.allow sec (mbCtl sec) fun s => s.mailboxWrite sec (v.getLsbD 0)

/-! MCTP over SMBus (R380). The packet format is that of DSP0237 and DSP0236 (PRESUMED). -/

/-- An accepted packet: endpoint with its SMBus address, start, end, packet sequence, tag with owner, payload. -/
structure MctpPkt where
  eid  : Nat
  som  : Bool
  eom  : Bool
  seq  : Nat
  tag  : Nat
  data : Bytes
deriving DecidableEq, Repr

/-- Check the PEC, the address, the framing and the destination endpoint. -/
def State.mctpParse (s : State) (pkt : Bytes) : Option MctpPkt :=
  let n := pkt.length
  let at_ (i : Nat) : Nat := (pkt.getD i 0).toNat
  let dst := at_ 5
  if n < 10 ∨ at_ (n - 1) ≠ (pec (pkt.take (n - 1))).toNat then none
  else if at_ 0 ≠ 0x9E ∨ at_ 1 ≠ 0x0F ∨ at_ 2 + 4 ≠ n ∨ at_ 4 % 16 ≠ 1 then none
  else if dst ≠ 0 ∧ dst ≠ 0xFF ∧ dst ≠ s.mctpEid.toNat then none
  else
    let fl := at_ 7
    some { eid := at_ 3 / 2 * 2 * 256 + at_ 6, som := bit fl 7, eom := bit fl 6, seq := bits fl 5 4, tag := fl % 16,
           data := (pkt.take (n - 1)).drop 8 }

/-- Add a packet to its message: the state, and the message where it is complete. -/
def State.mctpAssemble (s : State) (p : MctpPkt) : State × Option Bytes :=
  let key := p.eid * 16 + p.tag
  let old := s.mctpIn.find? fun e => decide (e.1 = key)
  let rest := s.mctpIn.filter fun e => e.1 != key
  let body := if p.som then some p.data
    else match old with
      | some (_, seq, bs) => if seq = p.seq then some (bs ++ p.data) else none
      | none => none
  match body with
  | none => ({ s with mctpIn := rest }, none)
  | some bs =>
    if p.eom then ({ s with mctpIn := rest }, some bs)
    else ({ s with mctpIn := rest ++ [(key, (p.seq + 1) % 4, bs)] }, none)

/-- Take a packet of a message of a type: the state, its packet and the complete message's bytes after the type. A packet of
a message of another type, or one that fails its checks, is dropped. -/
def State.mctpTake (s : State) (pkt : Bytes) (type : Byte) (act : State → MctpPkt → Bytes → State) : State :=
  match s.mctpParse pkt with
  | none => s
  | some p =>
    let s := { s with pins := { s.pins with smbReleased := false } }
    match s.mctpAssemble p with
    | (s, none) => s
    | (s, some []) => s
    | (s, some (t :: body)) => if t = type then act s p body else s

/-- MCTP_MESSAGE: a packet of a vendor-defined message, which names a command when complete. -/
def execMctpMessage (pkt : Bytes) (s : State) : Out := live s fun s =>
  s.mctpTake pkt 0x7E fun s p body =>
    if body.length < 6 ∨ body.take 2 ≠ [0x1F, 0x9A] ∨ p.tag < 8 then s
    else
      let r : QReq := { src := srcMctp, code := pfield body 2 2, payload := body.drop 6, eid := p.eid, tag := p.tag }
      if pfield body 4 2 ≠ r.payload.length then s.qnAnswer r qnArg [] else s.qnEnter r

/-- The answer to a control command: its completion code and data (PRESUMED, DSP0236). -/
def State.mctpControl (s : State) (code : Nat) (data : Bytes) : State × Bytes :=
  match code with
  | 1 =>
    let eid := data.getD 1 0
    if data.length < 2 then (s, [0x03])
    else if eid = 0 ∨ eid = 0xFF then (s, [0x02])
    else ({ s with mctpEid := eid }, [0x00, 0x00, eid, 0x00])
  | 2 => (s, [0x00, s.mctpEid, 0x00, 0x00])
  | 4 => (s, [0x00, 0x01, 0xF1, 0xF3, 0xF1, 0x00])
  | 5 => (s, [0x00, 0x02, 0x00, 0x7E])
  | 6 => (s, [0x00, 0xFF, 0x00, 0x1F, 0x9A, 0x00, 0x00])
  | _ => (s, [0x05])

/-- MCTP_CONTROL_MESSAGE: a packet of a control message, which is answered when complete. -/
def execMctpControlMessage (pkt : Bytes) (s : State) : Out := live s fun s =>
  s.mctpTake pkt 0x00 fun s p body =>
    if body.length < 2 ∨ (body.getD 0 0).toNat < 0x80 then s
    else
      let (s, resp) := s.mctpControl (body.getD 1 0).toNat (body.drop 2)
      s.mctpSend p.eid p.tag ([0x00, BitVec.ofNat 8 ((body.getD 0 0).toNat % 32), body.getD 1 0] ++ resp)

/-! Tenants (R388 to R390). -/

/-- Command pages of a function return to their reset values; its queues, rings and pending writes are gone. -/
def State.resetPages (s : State) (fn : Nat) : State :=
  let s := s.resetRegs (ownRegs .cmd fn)
  let cq (m : SMap Nat) : SMap Nat := smapErase m fn
  { s with
    wq := s.wq.filter fun p => p.fn != fn
    relHead := s.relHead.filter fun k => k / 8 != fn
    jq := smapClear (fun k => decide (fn < 16) && decide (k / 8 = fn)) s.jq
    ring := smapClear (fun k => (decide (fn < 16) && decide (k = cqKey fn)) || decide (k = eqKey fn)) s.ring
    mapOp := if fn < 16 then smapErase s.mapOp fn else s.mapOp
    fw := { s.fw with cqSince := cq s.fw.cqSince, ended := cq s.fw.ended } }

/-- Windows of the tenants, with a count above zero: first mark and count. -/
def State.windows (s : State) : List (Nat × Nat) :=
  ((List.range 16).map fun t => (s.field (MK_WIN t) 15 0, s.field (MK_WIN t) 31 16)).filter fun w => decide (0 < w.2)

/-- A place for a mark window: anywhere it fits. -/
def State.windowPlace (s : State) (n : Nat) : Option Nat :=
  let ws := s.windows
  let fits (b : Nat) : Bool := decide (b + n ≤ 61440) && ws.all fun w => decide (b + n ≤ w.1) || decide (w.1 + w.2 ≤ b)
  ((Config.freeNat s.free % 61440) :: 0 :: ws.map fun w => w.1 + w.2).find? fits

/-- Set a window's marks to zero. -/
def State.zeroWindow (s : State) (t : Nat) : State :=
  let b := s.field (MK_WIN t) 15 0
  let n := s.field (MK_WIN t) 31 16
  { s with marks := smapClear (fun m => decide (b ≤ m) && decide (m < b + n)) s.marks }

/-- Whether another slot holds an FTID. -/
def State.ftidTaken (s : State) (t ftid : Nat) : Bool :=
  (List.range 16).any fun u => u != t && s.slot u != 0 && decide (s.field (QN_TSTAT u) 31 16 = ftid)

/-- The quota registers of a tenant in the order of Table 15.3. -/
def quotaRegs (t : Nat) : List (Nat × Nat) :=
  [(QC_QBED t, 2 ^ 32), (QC_QHBM t, 2 ^ 32), (QC_QNAND t, 2 ^ 32), (QC_QPM t, 2 ^ 23), (QC_QPT t, 2 ^ 21)]

/-- Create a tenant (R388). -/
def State.createTenant (s : State) (p : Bytes) : QnOut :=
  let t := pfield p 0 1
  let ftid := pfield p 2 2
  let marks := pfield p 4 2
  let held := (s.windows.map Prod.snd).foldl (· + ·) 0
  if s.dbgUsed then (s, qnDebug, [])
  else if 15 < t then (s, qnArg, [])
  else if s.slot t ≠ 0 then (s, qnSlot, [])
  else if ftid = 0 ∨ s.ftidTaken t ftid = true ∨ marks = 0 ∨ 61440 < held + marks then (s, qnArg, [])
  else
    match s.windowPlace marks with
    | none => (s, qnArg, [])
    | some b =>
      let s := s.newKey t
      let s := (List.range 4).foldl (fun (s : State) i => s.setRegN (PT_KEY (4 * t + i)) (pfield (s.freeBytes 16) (4 * i) 4)) s
      let s := (List.range 8).foldl (fun (s : State) i => s.setRegN (DP_KEY (8 * t + i)) (pfield p (0x20 + 4 * i) 4)) s
      let s := s.tick.setRegN (DP_FTID t) (ftid + place 1 16 + place (pfield p 1 1 % 2) 17)
      let s := (quotaRegs t).zipIdx.foldl (fun (s : State) (r, i) => s.setRegN r.1 (pfield p (8 + 4 * i) 4 % r.2)) s
      let s := { s with xlat := s.xlat.filter fun e => e.tenant != t }
      let s := (s.setRegN (MK_WIN t) (b + place marks 16)).zeroWindow t
      let s := (s.resetPages t).setRegN (QN_TSTAT t) (1 + place ftid 16)
      ({ s with pcie := { s.pcie with vfOn := s.pcie.vfOn ||| BitVec.ofNat 16 (2 ^ t) } }, qnOk, [])

/-- TENANT_CREATE. -/
def execTenantCreate (s : State) : Out := live s fun s => s.qnCommand 1 0x40 fun s p => s.createTenant p

/-- Whether an activation holds removals back (R390). -/
def State.activating (s : State) : Bool := decide (s.field CMD_FW_STAT 11 8 = 2) || decide (s.field CMD_FW_STAT 11 8 = 3)

/-- Discard a tenant's undispatched descriptors without records (R377, R389). -/
def State.dropPending (s : State) (t : Nat) : State :=
  let s := { s with flights := s.flights.filter fun f => !(f.held && decide (f.tenant = t)) }
  (List.range 8).foldl (fun s q =>
    let s := s.setRegN (CMD_JQ_HEAD t q) (s.regN (CMD_JQ_TAIL t q))
    let s := (s.setJobQ t q { s.jobQ t q with lastEnd := true }).unlatch t q
    if s.jqState t q = 1 then s.jqRefresh t q else s) s

/-- End a tenant's scheduled moves that wait to start, with KEY_RETIRED (R389 step 2). -/
def State.schedRetire (s : State) (t : Nat) : State :=
  let mine := s.schedQ.filter fun w => decide (w.t = t)
  mine.foldl (fun (s : State) w => s.schedEnd t w.entry w.sig.toNat stKeyRetired w.h)
    { s with schedQ := s.schedQ.filter fun w => w.t != t }

/-- Steps 1 and 2 of a removal (R389): work that has issued no access completes with KEY_RETIRED. -/
def State.retireTenant (s : State) (t : Nat) : State :=
  let s := (s.setField (QN_TSTAT t) 1 0 2).dropPending t
  let vf := BitVec.ofNat 16 (2 ^ t)
  let unused (f : Flight) : Bool :=
    decide (f.tenant = t) && !f.issued && (decide (f.phase = .dispatched) || decide (f.phase = .redispatch))
  let s := { s with
    pcie := { s.pcie with vfOn := s.pcie.vfOn &&& ~~~vf }
    drainTimer := insertNat t s.drainTimer
    flights := s.flights.map fun f => if unused f then f.endWith stKeyRetired 0 else f }
  (s.schedDisable t).schedRetire t

/-- TENANT_REMOVE: the removal of a LIVE slot begins; during an activation it waits (R389, R390). -/
def execTenantRemove (s : State) : Out := live s fun s =>
  if s.activating then s
  else s.qnCommand 2 1 fun s p =>
    let t := pfield p 0 1
    if 15 < t then (s, qnArg, []) else if s.slot t ≠ 1 then (s, qnSlot, []) else (s.retireTenant t, qnOk, [])

/-- Units with operations in flight under a slot (R389, step 5). -/
def State.drainUnits (s : State) (t : Nat) : List (Blk × Nat) :=
  let engines := (s.flights.filter fun f => decide (f.tenant = t) && f.unit != 0xFF).map fun f => (f.cls, if f.cls = .qc then 0 else f.unit)
  let mine (i : Nat) : Bool := decide ((s.tensor i).tenant = t)
  let quarry := if s.moves.any (fun m => mine m.idx) || s.builds.any (fun b => decide (b.tenant = t)) then [(Blk.qc, 0)] else []
  let ports := (s.rops.filter fun r => decide (r.tenant = t)).map (fun r => (Blk.dp, r.port))
    ++ (s.rxq.filter fun f => s.ftidTenant f.ftid == some t).map fun f => (Blk.dp, f.port)
  (engines ++ quarry ++ ports).eraseDups

/-- A slot enters SCRUBBING. -/
def State.startScrub (s : State) (t : Nat) : State :=
  { s.setField (QN_TSTAT t) 1 0 3 with drainTimer := s.drainTimer.filter (· != t) }

/-- TENANT_DRAIN_DONE: nothing is in flight under the slot. -/
def execTenantDrainDone (t : Fin 16) (s : State) : Out := live s fun s =>
  if s.slot t = 2 ∧ (s.drainUnits t).isEmpty = true ∧ (s.flights.any fun f => decide (f.tenant = t.val)) = false then
    s.startScrub t
  else s

/-- Reset every unit busy under a slot, and count it. -/
def State.resetBusy (s : State) (t : Nat) : State :=
  (s.drainUnits t).foldl (fun (s : State) u => (s.blkReset u.1 u.2).count QN_RESET_CNT 1) s

/-- TENANT_DRAIN_TIMEOUT: units still busy 10 ms after the retirement are reset. -/
def execTenantDrainTimeout (t : Fin 16) (s : State) : Out := live s fun s =>
  if s.slot t = 2 ∧ s.drainTimer.contains t.val = true then (s.resetBusy t).startScrub t else s

/-- Clear everything a slot holds (R389, step 6). -/
def State.scrubTenant (s : State) (t : Nat) : State :=
  let s := (s.zeroWindow t).dropAll t
  let own := (s.tensors.filter fun e => e.2.used && decide (e.2.tenant = t)).map Prod.fst
  let s := own.foldl (fun (s : State) i => s.releaseTensor i) s
  let s := s.zeroEnts t (s.xlat.filter fun e => decide (e.tenant = t) && e.bed)
  let troughs := (List.range 256).filter fun n => decide (s.field (BED_TR_CFG n) 23 16 = t) && decide (s.regN (BED_TR_CFG n) ≠ 0)
  let s := troughs.foldl (fun (s : State) n =>
    (((s.setRegN (BED_TR_CFG n) 0).setRegN (BED_TR_BASE n) 0).setRegN (BED_TR_PROD n) 0).setRegN (BED_TR_CONS n) 0) s
  let s := (List.range 4).foldl (fun (s : State) i => s.setRegN (PT_KEY (4 * t + i)) 0) s
  let s := (List.range 8).foldl (fun (s : State) i => s.setRegN (DP_KEY (8 * t + i)) 0) s
  let s := s.setRegN (DP_FTID t) 0
  let s := (List.range 9).foldl (fun (s : State) k => s.setRegN (poolReg t k) 0) s
  let s := (quotaRegs t).foldl (fun (s : State) r => s.setRegN r.1 0) s
  let s := (s.setRegN (MK_WIN t) 0).resetPages t
  { s with
    slotKey := smapErase s.slotKey t
    pageMap := smapClear (fun i => decide (pgState (s.page i) ≠ 0) && decide (pgTenant (s.page i) = t)) s.pageMap
    xlat := s.xlat.filter fun e => e.tenant != t
    moves := s.moves.filter fun m => m.ents.all fun e => e.tenant != t
    builds := s.builds.filter fun b => b.tenant != t
    flights := s.flights.filter fun f => f.tenant != t
    sched := smapErase s.sched t
    schedQ := s.schedQ.filter fun w => w.t != t
    drainTimer := s.drainTimer.filter (· != t)
    flrTimer := s.flrTimer.filter (· != t) }.setRegN (QN_TSTAT t) 0

/-- A debug unlock takes effect once no slot is in use: slot 16 gets a new key (R395). -/
def State.unlockNext (s : State) : State :=
  if s.unlocking ≠ 0 ∧ ((List.range 16).all fun t => decide (s.slot t = 0)) = true then
    { (s.newKey 16).setField QN_STATUS 1 0 s.unlocking with unlocking := 0 }
  else s

/-- TENANT_SCRUB_DONE: the slot is EMPTY. -/
def execTenantScrubDone (t : Fin 16) (s : State) : Out := live s fun s =>
  if s.slot t = 3 then (s.scrubTenant t).unlockNext else s

/-- TENANT_STATUS. -/
def execTenantStatus (s : State) : Out := live s fun s =>
  s.qnCommand 3 1 fun s p =>
    let t := pfield p 0 1
    if 15 < t then (s, qnArg, []) else (s, qnOk, leBytes 4 (s.regN (QN_TSTAT t)))

/-- FABRIC_SETUP: only while every port is disabled. -/
def execFabricSetup (s : State) : Out := live s fun s =>
  s.qnCommand 4 34 fun s p =>
    if 0xFFF < pfield p 0 2 then (s, qnArg, [])
    else if (List.range 8).any s.dpOn then (s, qnSlot, [])
    else
      let s := s.setRegN DP_CHIP_ID (pfield p 0 2 + place 1 31)
      ((List.range 8).foldl (fun (s : State) i => s.setRegN (DP_FKEY i) (pfield p (2 + 4 * i) 4)) s, qnOk, [])

/-! The Plinth, the image and the SVN (R393, R394). -/

/-- Bytes of the Plinth. -/
def plSize : Nat := 2 * plBankBytes

/-- PLINTH_READ: a data read of up to 240 bytes (R312, R315). -/
def execPlinthRead (s : State) : Out := live s fun s =>
  s.qnCommand 0x10 8 fun s p =>
    let a := pfield p 0 4
    let n := pfield p 4 4
    if 240 < n ∨ plSize < a + n then (s, qnArg, [])
    else
      let r := s.plData a n
      (r.1, qnOk, r.2)

/-- First block of an image slot (Table 12.2). -/
def imageBlock (slotB : Bool) : Nat := if slotB then 260 else 6

/-- Serve one part of IMAGE_UPDATE. -/
def State.imagePart (s : State) (part n : Nat) (act : State → Bytes → QnOut) : State :=
  s.qnServe 0x11 (fun r => decide ((r.payload.head?.map BitVec.toNat) = some part)) fun s r =>
    if r.payload.length < n ∨ pfield r.payload 1 3 ≠ 0 then (s, qnArg, []) else act s r.payload

/-- IMAGE_UPDATE_BEGIN: a session for the slot Quoin does not execute from. -/
def execImageUpdateBegin (s : State) : Out := live s fun s =>
  s.imagePart 0 8 fun s p =>
    let len := pfield p 4 4
    match s.session with
    | some _ => (s, qnSlot, [])
    | none =>
      if len % 32 ≠ 0 ∨ len < 512 ∨ 15990784 < len then (s, qnArg, [])
      else ({ s with session := some { len := len, got := 0, slotB := !s.regBit QN_STATUS 3, last := none } }, qnOk, [])

/-- Program one 32-byte line of the idle slot; the first line of a block is preceded by its erase. -/
def State.imageLine (s : State) (slotB : Bool) (off : Nat) (bs : Bytes) : State :=
  let a := imageBlock slotB * plBlock + off
  (if a % plBlock = 0 then s.plNow (plOpOf true a [] false) else s).plNow (plOpOf false a bs false)

/-- IMAGE_UPDATE_DATA: the next bytes, or the last accepted again. A part that is not read back as it was sent, as in a protected
block (R305), fails verification. While an operation stands in the array the part waits (R309; assumption 40). -/
def execImageUpdateData (s : State) : Out := live s fun s =>
  if !s.plFree then s
  else s.imagePart 1 8 fun s p =>
    let off := pfield p 4 4
    let data := p.drop 8
    match s.session with
    | none => (s, qnSlot, [])
    | some x =>
      if x.last = some (off, data) then (s, qnOk, [])
      else if data.length % 32 ≠ 0 ∨ data.length < 32 ∨ 224 < data.length ∨ off ≠ x.got ∨ x.len < off + data.length then (s, qnArg, [])
      else
        let s := (chunks 32 data).zipIdx.foldl (fun (s : State) (l, i) => s.imageLine x.slotB (off + 32 * i) l) s
        if memRead erasedByte s.plArray (imageBlock x.slotB * plBlock + off) data.length ≠ data then (s, qnVerify, [])
        else ({ s with session := some { x with got := off + data.length, last := some (off, data) } }, qnOk, [])

/-- IMAGE_UPDATE_END: the image is verified, and its slot marked active in a new record. -/
def execImageUpdateEnd (s : State) : Out := live s fun s =>
  s.imagePart 2 4 fun s _ =>
    match s.session with
    | none => (s, qnSlot, [])
    | some x =>
      if x.got < x.len then (s, qnArg, [])
      else
        let b := memRead erasedByte s.plArray (imageBlock x.slotB * plBlock) x.len
        let s := { s with session := none }
        if imageCheck b x.len (s.regN QN_MIN_SVN) ≠ 0 then (s, qnVerify, []) else (s.newRecord x.slotB, qnOk, [])

/-- IMAGE_UPDATE_ABORT. -/
def execImageUpdateAbort (s : State) : Out := live s fun s =>
  s.imagePart 3 4 fun s _ =>
    match s.session with
    | none => (s, qnSlot, [])
    | some _ => ({ s with session := none }, qnOk, [])

/-- IMAGE_UPDATE_SESSION_TIMEOUT: no part for 60 s. -/
def execImageUpdateSessionTimeout (s : State) : Out := live s fun s => { s with session := none }

/-- SVN_RAISE: not below the minimum in force, nor above the running image's SVN (R393). -/
def execSvnRaise (s : State) : Out := live s fun s =>
  s.qnCommand 0x20 4 fun s p =>
    let v := pfield p 0 4
    let top := match s.fw.running with | some h => h.svn.toNat | none => 0
    if v < s.regN QN_MIN_SVN ∨ top < v then (s, qnArg, []) else ((s.setRegN QN_MIN_SVN v).record, qnOk, [])

/-! Debug (R395). -/

/-- DEBUG_CHALLENGE: a nonce for a level. -/
def execDebugChallenge (s : State) : Out := live s fun s =>
  s.qnCommand 0x30 1 fun s p =>
    let level := pfield p 0 1
    if level ≠ 1 ∧ level ≠ 2 then (s, qnArg, [])
    else
      let nonce := s.freeBytes 32
      ({ s.tick with dbg := some (BitVec.ofNat 256 (leNat nonce), BitVec.ofNat 8 level) }, qnOk,
        nonce ++ leBytes 16 Config.serial.toNat)

/-- DEBUG_RESPONSE: a verified signature removes every tenant, then unlocks; the nonce is spent either way. During an activation
it waits (R390). -/
def execDebugResponse (s : State) : Out := live s fun s =>
  if s.activating then s
  else s.qnCommand 0x31 96 fun s p =>
    match s.dbg with
    | none => (s, qnVerify, [])
    | some (nonce, level) =>
      let s := { s with dbg := none }
      let digest := sha384 (leBytes 32 nonce.toNat ++ [level] ++ leBytes 16 Config.serial.toNat)
      if ecdsaVerify (beBytes 96 Config.debugKey.toNat) (p.take 96) digest then
        let s := { s with dbgUsed := true, unlocking := max s.unlocking level.toNat }
        let s := (List.range 16).foldl (fun (s : State) t => if s.slot t = 1 then s.retireTenant t else s) s
        (s.unlockNext, qnOk, [])
      else (s, qnVerify, [])

/-! Regions and counters (R383, R391). -/

/-- A write of a region entry; a locked one ignores it. -/
def State.regionWrite (s : State) (a v : Nat) : State :=
  if s.regBit a 2 then s else s.setRegN a (Nat.land v 0xFFFFFFFFFFFFFF07)

/-- REGION_ENTRY_WRITE. -/
def execRegionEntryWrite (sec : Bool) (tier : Fin 3) (i : Fin 256) (v : DWord) (s : State) : Out := live s fun s =>
  let a := QN_RGN (256 * tier.val + i.val)
  s.allow sec a fun s => s.regionWrite a v.toNat

/-- COUNTER_SNAPSHOT: the values non-secure reads return until the next boundary. -/
def execCounterSnapshot (s : State) : Out := live s fun s => { s with snap := s.regs.filter fun e => isCounter e.1 }

/-! Power commands (R418). -/

/-- CAP_SET. -/
def execCapSet (s : State) : Out := live s fun s =>
  s.qnCommand 0x40 2 fun s p =>
    let w := pfield p 0 2
    if w < 300 ∨ 1100 < w then (s, qnArg, []) else (s.capWrite w, qnOk, [])

/-- CAP_GET. -/
def execCapGet (s : State) : Out := live s fun s =>
  s.qnCommand 0x41 0 fun s _ => (s, qnOk, leBytes 2 (s.field PWR_CAP 10 0) ++ leBytes 2 s.effCap ++ leBytes 2 s.thermalCap)

/-- ENERGY_READ. -/
def execEnergyRead (s : State) : Out := live s fun s =>
  s.qnCommand 0x42 0 fun s _ => (s, qnOk, leBytes 8 (s.regN PWR_ENERGY) ++ leBytes 8 s.micros)

/-- VOLTAGE_READ. -/
def execVoltageRead (s : State) : Out := live s fun s =>
  s.qnCommand 0x43 0 fun s _ => (s, qnOk, leBytes 2 s.vTarget ++ leBytes 2 s.vSensed)

/-- THERMAL_READ. -/
def execThermalRead (s : State) : Out := live s fun s =>
  s.qnCommand 0x44 0 fun s _ =>
    let hbm := maxOr 0 ((List.range 8).map fun i => s.field (FC_STATUS i) 15 8)
    let nand := maxOr 0 ((List.range 16).map fun c => s.field (QC_NCH_STAT c) 15 8)
    (s, qnOk, leBytes 4 (s.regN PWR_TJ) ++ leBytes 1 hbm ++ leBytes 1 nand)

/-- The value PWR_STATUS reads: bit 11 is the level of COOL_FLOW_OK. -/
def State.pwrStatus (s : State) : Nat := s.field PWR_STATUS 10 0 + place (flag s.pins.coolFlowOk) 11

/-- THROTTLE_READ. -/
def execThrottleRead (s : State) : Out := live s fun s =>
  s.qnCommand 0x45 0 fun s _ => (s, qnOk, leBytes 4 s.pwrStatus ++ leBytes 4 (s.regN PWR_STOP_LOG))

end Sys2Proof.Machine
end

