-- ==== Sys2Proof/Machine/Firmware.lean ====
section
/-! DEFINITION. Configuration requests and BAR2 (R351, R353, R354, R361), firmware states (R360 to R372), heartbeat and host
absence (R373 to R375), and resets that leave PERST_N high (R375 to R377). -/

namespace Sys2Proof.Machine

/-! The host's requests. -/

/-- Key of a word of a function's configuration space. -/
def cfgKey (fn off : Nat) : Nat := 4096 * fn + off / 4 * 4

/-- Size of a BAR of the physical function, and the type bits of its register: 64-bit, and prefetchable but for BAR0 (Table 14.2).
Their places in the BAR registers are those of PCI Express (PRESUMED; assumption 41). -/
def pfBar : Nat → Option (Nat × Nat)
  | 0x10 => some (0x4000000, 0x4)
  | 0x18 => some (0x100000000, 0xC)
  | 0x20 => some (0x10000, 0xC)
  | _ => none

/-- The register at offset `off` among the BARs of the physical function: the address bits last written over the type bits. A
virtual function's BAR registers read zero, since SR-IOV gives them their space (PRESUMED; assumption 41). -/
def State.barRead (s : State) (fn off : Nat) : Word :=
  let w := ((smapFind s.pcie.cfg (cfgKey fn off)).getD 0).toNat
  if fn < 16 then 0
  else match pfBar off, pfBar (off - 4) with
    | some (size, type), _ => BitVec.ofNat 32 ((w - w % min size (2 ^ 32)) % 2 ^ 32 + type)
    | none, some (size, _) => BitVec.ofNat 32 (w - w % max 1 (size / 2 ^ 32))
    | none, none => 0

/-- Where the MSI-X and SR-IOV capabilities lie, which the spec leaves open. -/
def msixAt : Nat := 0x40 + 4 * (Config.msixCap % 44)
def sriovAt : Nat := 0x100 + 4 * (Config.sriovCap % 900)

/-- The words of the MSI-X capability (R351): the table's size, and table and PBA in BAR4; of SR-IOV (R350): 16 VFs, first offset 1,
stride 1, and the VFs' device ID. Their layouts are those of PCI Express (PRESUMED; assumption 41). -/
def State.capRead (s : State) (fn off : Nat) : Option Word :=
  let w := ((smapFind s.pcie.cfg (cfgKey fn off)).getD 0).toNat
  let pf := decide (fn = 16)
  let next := bits (Config.cfgWord (cfgKey fn off) none).toNat 15 8
  if off = msixAt then
    some (BitVec.ofNat 32 (0x11 + place next 8 + place (if pf then 127 else 119) 16 + place (bits w 31 30) 30))
  else if off = msixAt + 4 then some 4
  else if off = msixAt + 8 then some (if pf then 0x8004 else 0x2004)
  else if pf && decide (off = sriovAt + 0xC) then some 0x00100010
  else if pf && decide (off = sriovAt + 0x14) then some 0x00010001
  else if pf && decide (off = sriovAt + 0x18) then some 0x0C170000
  else none

/-- A word of configuration space: the identity and the BARs of Table 14.2, and the two capabilities the spec gives the content of;
what it does not describe is free. -/
def State.cfgRead (s : State) (fn off : Nat) : Word :=
  let off := off / 4 * 4
  if off = 0 then (if fn = 16 then 0x0C071F9A else 0x0C171F9A)
  else if off = 8 then 0x120000B0
  else if 0x10 ≤ off ∧ off < 0x28 then s.barRead fn off
  else (s.capRead fn off).getD (Config.cfgWord (cfgKey fn off) (smapFind s.pcie.cfg (cfgKey fn off)))

/-- CONFIG_REQUEST: answered in full once configuration space is ready, else with Request Retry Status (R361). -/
def execConfigRequest (fn : Fin 17) (wr : Bool) (off : BitVec 12) (v : Word) (s : State) : Out := live s fun s =>
  if !s.pcie.cfgReady then { s with pcie := { s.pcie with rrs := true } }
  else
    let s := { s with pcie := { s.pcie with rrs := false } }
    let fixed := decide (off.toNat / 4 = 0) || decide (off.toNat / 4 = 2)
    if wr then
      if fixed then s
      else { s with pcie := { s.pcie with cfg := smapInsert s.pcie.cfg (cfgKey fn off.toNat) v } }
    else { s with pcie := { s.pcie with rdData := (s.cfgRead fn off.toNat).setWidth 64 } }

/-- Space and address that byte `off` of a function's BAR2 shows (R353). -/
def State.bar2At (s : State) (fn off : Nat) : Tier × Nat :=
  let w := s.regN (CMD_WIN_BASE fn)
  (if bit w 16 then .bed else .hbm, place (w % 0x10000) 32 + off)

/-- Bytes of an access of `n` from `off` that lie in BAR2. -/
def bar2Len (off n : Nat) : Nat := min n (2 ^ 32 - off)

/-- Whether a tier serves an access: HBM after its fill (R288). -/
def State.tierUp (s : State) (tier : Tier) : Bool := decide (tier = .bed) || s.hbmReady

/-- Give the host the bytes of a read. -/
def State.hostData (s : State) (bs : Bytes) (ep : Bool) : State :=
  { s with pcie := { s.pcie with rdBytes := bs, ep := ep } }

/-- BAR2_READ: a failed check reads zeros and is recorded; poisoned bytes come with EP set and a report under AER. -/
def execBar2Read (fn : Fin 17) (off : Word) (len : Nat) (s : State) : Out := live s fun s =>
  let n := bar2Len off.toNat len
  let (tier, a) := s.bar2At fn off.toNat
  if !s.tierUp tier then s
  else
    match s.readFor (fnWho fn) tier a n with
    | (s, .ok bs) => s.hostData bs false
    | (s, .error (c, _)) =>
      if c = stPoisoned then
        let s := { s with pcie := { s.pcie with aer := s.pcie.aer + 1 } }
        s.tick.hostData (s.freeBytes n) true
      else (s.hostData (List.replicate n 0) false).cmdErr fn

/-- BAR2_WRITE: a failed check discards the write and is recorded. -/
def execBar2Write (fn : Fin 17) (off : Word) (data : Bytes) (s : State) : Out := live s fun s =>
  let bs := data.take (bar2Len off.toNat data.length)
  let (tier, a) := s.bar2At fn off.toNat
  if !s.tierUp tier then s
  else
    match s.writeFor (fnWho fn) tier a bs with
    | (s, .ok _) => s
    | (s, .error _) => s.cmdErr fn

/-! Load and verification (R361, R364 to R366, R370). -/

/-- Set CMD_FW_STAT.state and its err field. -/
def State.setFw (s : State) (v : Nat) : State := s.setField CMD_FW_STAT 3 0 v
def State.setErr (s : State) (v : Nat) : State := s.setField CMD_FW_STAT 7 4 v

/-- FIRMWARE_READY: the memories are ready and no tenant is left (R361, R375). -/
def execFirmwareReady (s : State) : Out := live s fun s =>
  let up := s.fw.booted && s.hbmReady && (List.range 16).all s.nandTrained && s.pcie.cfgReady
  let gone := (List.range 16).all fun t => decide (s.slot t = 0)
  if s.fwState = 0 ∧ up = true ∧ gone = true then s.setFw 1 else s

/-- Act on bit `n` of a waiting CMD_FW_CTL write, the lowest bit set; the write is applied once no bit is left. -/
def State.onFwCtl (s : State) (n : Nat) (act : State → State) : State :=
  s.onFront 16 (fun p => decide (p.kind = .fwCtl) && decide (p.val.toNat % 2 ^ n = 0) && bit p.val.toNat n) fun s p =>
    let rest := p.val.toNat % 16 - 2 ^ n
    let s := act s
    if rest = 0 then s.popDone 16 else s.setFront 16 rest

/-- FW_LOAD: in states 1 and 6 verification starts, the staging area secure; else the write is discarded (R364). -/
def execFwLoad (s : State) : Out := live s fun s =>
  s.onFwCtl 0 fun s =>
    if s.fwState = 1 ∨ s.fwState = 6 then
      { ((s.setFw 2).setErr 0).staging true with fw := { s.fw with verify := some false } }
    else s

/-- FW_UPDATE: in state 4, with no update under way, verification starts (R370); while the coolant stop is latched it is refused
(R372). -/
def execFwUpdate (s : State) : Out := live s fun s =>
  s.onFwCtl 1 fun s =>
    if s.regBit PWR_STATUS 9 then (s.setErr 6).updEnds 5
    else if s.fwState = 4 ∧ ¬(s.upd = 1 ∨ s.upd = 2 ∨ s.upd = 3) then
      { ((s.setUpd 1).setErr 0).staging true with fw := { s.fw with verify := some true } }
    else s

/-- The staged image. -/
def State.staged (s : State) : Bytes := s.readPhys .hbm (s.slotKeyId 16) 0 (s.field CMD_FW_LEN 24 0)

/-- A verified update waits for its activation, or is deferred while the cap loop is saturated (R371, R372). -/
def State.updWait (s : State) (h : ImgHdr) : State :=
  let s := { s with fw := { s.fw with cand := some h } }
  if s.regBit PWR_STATUS 6 then s.setUpd 3 else (s.setUpd 2).parkAll

/-- FW_VERIFY_DONE: the first check of R366 that fails decides; an update of another interface version is refused with code
5 (R370). -/
def execFwVerifyDone (s : State) : Out := live s fun s =>
  match s.fw.verify with
  | none => s
  | some isUpd =>
    let b := s.staged
    let code := imageCheck b (s.field CMD_FW_LEN 24 0) (s.regN QN_MIN_SVN)
    let h := ImgHdr.of b
    let s := { (s.touch .hbm).staging false with fw := { s.fw with verify := none } }
    if isUpd then
      if code ≠ 0 then (s.setErr code).updEnds 7
      else if h.ifver.toNat ≠ s.regN CMD_IFVER then (s.setErr 5).updEnds 5
      else s.updWait h
    else if code ≠ 0 then (s.setErr code).setFw 6
    else { s.setFw 3 with fw := { s.fw with cand := some h } }

/-! Start-up of Meleopin (R363). -/

/-- Emulated registers of the command pages that state 3 resets: not those hardware or Quoin serves, and CMD_WDONE, which counts
with CMD_WARRIVE (R356, R360, R378). -/
def shadowReg (a : Nat) : Bool :=
  match pageOf a with
  | some (.cmd, fn, p) => (decide (p ≠ 0) || decide (0x60 ≤ a % 0x1000))
      && !(decide (fn = 16) && [CMD_FW_STAT, CMD_FW_LEN, CMD_SURV_ADDR].contains a)
  | _ => false

/-- Blocks whose world Meleopin sets (R382). -/
def worldSet : List Blk := allBlks.filter fun b => !worldFixed b

/-- For every instance of a block. -/
def State.eachUnit (s : State) (bs : List Blk) (act : State → Blk → Nat → State) : State :=
  bs.foldl (fun s b => (List.range (placeOf b).count).foldl (fun s i => act s b i) s) s

/-- Bring every adjustable island to its maximum, the core voltage risen as far as that needs (R363 step 3, R402). -/
def State.islandsUp (s : State) : State :=
  let s := (List.range 113).foldl (fun (s : State) k =>
    match islandRange k with
    | some (_, hi) => ((s.setRegN (PWR_FSET k) hi).setField (PWR_FSTAT k) 11 0 hi).showRamp k
    | none => s) s
  let tops := (List.range 113).filterMap fun k => (islandRange k).map Prod.snd
  let need := max 600 (min 850 (s.vNeeds (maxOr 0 tops)))
  let s := s.setField PWR_VTARGET 9 0 (max s.vTarget need)
  (s.setField PWR_VTARGET 25 16 (max s.vSensed need)).showCap

/-- Disable every trough and clear every mark (R363 step 5). -/
def State.marksClear (s : State) : State :=
  let s := (List.range 256).foldl (fun (s : State) n => s.setBit (BED_TR_CFG n) 0 false) s
  { s with marks := [] }

/-- Every Page Map entry at STATE 0, so every pool is empty (R180, R363 step 4). -/
def State.pagesClear (s : State) : State :=
  let s := (List.range 144).foldl (fun (s : State) k => s.setRegN (PM_POOL k) 0) s
  { s with pageMap := [] }

/-- Load the emulated registers with their reset values (R363 step 6). -/
def State.shadowsReset (s : State) : State :=
  let s := s.resetRegs shadowReg
  { s with jq := [], mapOp := [], ring := smapMap ringEmpty (fun (r : Ring) => { ringEmpty 0 with lost := r.lost }) s.ring }

/-- An image runs: its versions. -/
def State.runs (s : State) (h : ImgHdr) : State :=
  let s := { s with libVer := some (BitVec.ofNat 16 (Config.libVersion h.imgver.toNat))
                    fw := { s.fw with running := some h, cand := none } }
  s.setRegN CMD_FW_IMGVER h.imgver.toNat

/-- Meleopin enables the engines in service, and sets the worlds. -/
def State.unitsUp (s : State) : State :=
  let s := s.eachUnit [.ae, .ce, .ve, .le, .he, .kc, .qc] fun s b i => if s.inService b i then s.blkEnable b i true else s
  s.eachUnit worldSet fun s b i => s.setRegN (BLK_WORLD b i) 0xFF00

/-- The survivor area is named on the first entry to state 4 (R378). -/
def State.survivorNamed (s : State) : State :=
  if s.regN CMD_SURV_ADDR = 0 then s.setRegN CMD_SURV_ADDR (s.survivorUnit * 0x10000) else s

/-- Report records found indeterminate (R427). -/
def State.cfgReport (s : State) : State :=
  let top := match s.cfgRec with | some r => r.seq | none => 0
  if s.field QN_CFG_STAT 1 0 = 0 then s
  else s.pfEvent { type := 0x0040, cls := classCode .qn, arg0 := s.field QN_CFG_STAT 7 0, arg1 := top }

/-- State 4 begins, with heartbeat monitoring. -/
def State.running (s : State) (h : ImgHdr) : State :=
  let s := ((s.runs h).setRegN CMD_IFVER h.ifver.toNat).setFw 4
  { s.survivorNamed with fw := { s.survivorNamed.fw with hbSeen := false, missed := 0 } }

/-- MELEOPIN_START: the steps of state 3 end and the state becomes 4. -/
def execMeleopinStart (s : State) : Out := live s fun s =>
  match s.fw.cand with
  | none => s
  | some h =>
    if s.fwState = 3 then (s.unitsUp.islandsUp.pagesClear.marksClear.shadowsReset.running h).cfgReport else s

/-! Activation of an update (R371, R372). -/

/-- FW_ACTIVATE: with every queue between jobs the new image takes over, and dispatch resumes. -/
def execFwActivate (s : State) : Out := live s fun s =>
  match s.fw.cand with
  | none => s
  | some h =>
    if s.upd = 2 ∧ s.fwState = 4 ∧ ((List.range 128).all fun k => s.betweenJobs (k / 8) (k % 8) || (s.jobQ (k / 8) (k % 8)).parked) = true then
      (s.runs h).updEnds 4
    else s

/-- FW_UPDATE_TIMEOUT: CMD_FW_UPD_TO has passed; the old firmware resumes dispatch. -/
def execFwUpdateTimeout (s : State) : Out := live s fun s => if s.upd = 2 then s.updEnds 6 else s

/-- FW_DEFER_END: the cap loop has been below its maximum for 10 ms. -/
def execFwDeferEnd (s : State) : Out := live s fun s =>
  if s.upd = 3 ∧ s.regBit PWR_STATUS 6 = false then (s.setUpd 2).parkAll else s

/-- FW_DEFER_TIMEOUT: a deferral has lasted longer than 10 s. -/
def execFwDeferTimeout (s : State) : Out := live s fun s => if s.upd = 3 then s.updEnds 6 else s

/-! Heartbeat and host absence (R373, R374). -/

/-- HEARTBEAT: the write is applied, and the interval is not missed. -/
def execHeartbeat (s : State) : Out := live s fun s =>
  s.onFront 16 (fun p => decide (p.kind = .heartbeat)) fun s _ =>
    { s with fw := { s.fw with hbSeen := true } }.popDone 16

/-- Enter the host-absent state. -/
def State.goAbsent (s : State) : State :=
  let s := (s.setFw 5).endUpdate 6
  { s with fw := { s.fw with entered := s.micros, absentTimer := true, refused := 0, ended := [], cqSince := [] } }

/-- HEARTBEAT_INTERVAL_END: the interval is missed or not; the Nth missed in a row makes the device host-absent. -/
def execHeartbeatIntervalEnd (s : State) : Out := live s fun s =>
  if s.fwState = 4 then
    let missed := if s.fw.hbSeen then 0 else s.fw.missed + 1
    let s := { s with fw := { s.fw with hbSeen := false, missed := missed } }
    if s.field CMD_HB_CFG 7 0 ≤ missed then s.goAbsent else s
  else s

/-- End every descriptor that waits on a trough, and disable those troughs; `ids` are theirs (R374 step 3). -/
def State.abortWaiters (s : State) (ids : List Nat) : State :=
  let blocked := ids.filterMap fun id => (s.flight id).bind fun f => (s.blockedAt f).map fun u => (f, u)
  blocked.foldl (fun (s : State) (f, u) =>
    let s := ((s.troughEnd f u stHostAbsent).setBit (BED_TR_CFG u.n) 0 false).setBit (BED_TR_STAT u.n) 4 true
    { s with fw := { s.fw with ended := smapSet (fun _ => 0) s.fw.ended f.tenant (smapGet (fun _ => 0) s.fw.ended f.tenant + 1) } }) s

/-- The descriptors that wait on a trough. -/
def State.waiters (s : State) : List Nat := (s.flights.filter fun f => (s.blockedAt f).isSome).map Flight.id

/-- The survivor record (Table 14.9). -/
def State.survivor (s : State) : Bytes :=
  let queues (p : Nat → Bool) : Nat := ((List.range 8).map fun q => place (flag (p q)) q).foldl (· + ·) 0
  let count (m : SMap Nat) (t : Nat) : Nat := smapGet (fun _ => 0) m t
  let tenant (t : Nat) : Bytes :=
    leBytes 1 (queues fun q => decide (s.jqPending t q ≠ 0)) ++ leBytes 1 (queues fun q => decide (s.jqState t q = 2))
      ++ leBytes 2 (count s.fw.ended t) ++ leBytes 4 (count s.fw.cqSince t) ++ List.replicate 8 0
  leBytes 4 0x56525553 ++ leBytes 4 (s.regN CMD_IFVER) ++ leBytes 4 (s.regN CMD_FW_IMGVER) ++ leBytes 4 1
    ++ leBytes 8 s.fw.entered ++ leBytes 4 s.fw.refused ++ List.replicate 0x24 0 ++ (List.range 16).flatMap tenant

/-- HOST_ABSENT_TROUGH_TIMEOUT: 10 ms after entry, trough waiters end and complete, those whose completion ring has room, and the
survivor record is written. -/
def execHostAbsentTroughTimeout (s : State) : Out := live s fun s =>
  if s.fwState = 5 ∧ s.fw.absentTimer = true then
    let ids := s.waiters
    let s := ids.foldl State.complete (s.abortWaiters ids)
    let s := { s with fw := { s.fw with absentTimer := false } }
    (s.touch .hbm).writePhys .hbm (s.slotKeyId 16) (s.regN CMD_SURV_ADDR) s.survivor
  else s

/-! Adoption and resets (R375 to R377). -/

/-- One MSI-X message for each function whose event ring is not empty. -/
def State.msixAll (s : State) : State :=
  (List.range 17).foldl (fun (s : State) fn =>
    if (s.ringAt (eqKey fn)).unread = 0 then s else s.msix (s.regN (CMD_EQ_VEC fn))) s

/-- FW_ADOPT: in states 4 and 5 a new interval starts, and each function with unread events gets a message; from state 5 the state
returns to 4. -/
def execFwAdopt (s : State) : Out := live s fun s =>
  s.onFwCtl 2 fun s =>
    if s.fwState = 4 ∨ s.fwState = 5 then
      { s.setFw 4 with fw := { s.fw with hbSeen := false, missed := 0, absentTimer := false } }.msixAll.latch
    else s

/-- The PF's registers that firmware emulates: all of its command pages but the header and the write counters (R360, R378). -/
def pfEmulated (a : Nat) : Bool :=
  match pageOf a with
  | some (.cmd, fn, p) => decide (fn = 16) && (decide (p ≠ 0) || decide (0x60 ≤ a % 0x1000))
  | _ => false

/-- The firmware and the PF's emulated registers as after PERST_N. -/
def State.fwFresh (s : State) : State :=
  let s := (s.staging false).resetRegs pfEmulated
  { s with
    ring := smapErase s.ring (eqKey 16)
    libVer := none
    fw := { s.fw with verify := none, running := none, cand := none, hbSeen := false, missed := 0, absentTimer := false } }

/-- Everything the tiers hold is discarded; they stay trained. -/
def State.contentGone (s : State) : State :=
  { s with bed := [], bedPoison := [], hbm := [], hbmPoison := [], hbmKey := [], nandBytes := [] }

/-- Discard the PF's waiting writes, each counted as done (R375; assumption 42). -/
def State.dropWrites (s : State) : State :=
  let n := (s.wq.filter fun p => decide (p.fn = 16)).length
  { s with wq := s.wq.filter fun p => p.fn != 16 }.modReg (CMD_WDONE 16) fun k => (k + n) % 2 ^ 32

/-- Device reset: every tenant is removed, the PF's writes and memory are discarded, and the state is 0. A stop is left only by
PERST_N (R362; assumption 96). -/
def State.devReset (s : State) : State :=
  if s.stopped then s
  else
    let s := (List.range 16).foldl (fun (s : State) t => if s.slot t = 1 then s.retireTenant t else s) s
    s.dropWrites.contentGone.fwFresh

/-- FW_RESET: the write that asks for it is the first of those it discards. -/
def execFwReset (s : State) : Out := live s fun s =>
  s.onFront 16 (fun p => decide (p.kind = .fwCtl) && decide (p.val.toNat % 8 = 0) && bit p.val.toNat 3) fun s _ =>
    if s.stopped then s.popDone 16 else s.devReset

/-- PF_FLR: as FW_RESET; a stop is left only by PERST_N. -/
def execPfFlr (s : State) : Out := live s fun s => s.devReset

/-- HOT_RESET, or the link going down: configuration space returns to its defaults, and the device runs on (R376). -/
def execHotReset (s : State) : Out := live s fun s =>
  { s with pcie := { s.pcie with cfg := [], linkUp := false, gts := 0, lanes := 0 } }

/-- VF_FLR: what the tenant has not dispatched is discarded; what runs completes without a record; its registers are reset. -/
def execVfFlr (t : Fin 16) (s : State) : Out := live s fun s =>
  let s := s.dropPending t.val
  let s := { s with
    flights := s.flights.map fun (f : Flight) => if f.tenant = t.val then { f with noRecord := true } else f
    flrTimer := insertNat t s.flrTimer }
  s.resetPages t

/-- VF_FLR_TIMEOUT: 80 ms later, units that still run such descriptors are reset. -/
def execVfFlrTimeout (t : Fin 16) (s : State) : Out := live s fun s =>
  if s.flrTimer.contains t.val then
    let mine (f : Flight) : Bool := decide (f.tenant = t.val) && f.noRecord
    let units := ((s.flights.filter fun f => mine f && f.unit != 0xFF).map fun f => (f.cls, if f.cls = .qc then 0 else f.unit)).eraseDups
    let s := units.foldl (fun (s : State) u => s.blkReset u.1 u.2) s
    { s with flights := s.flights.filter fun f => !mine f, flrTimer := s.flrTimer.filter (· != t.val) }
  else s

end Sys2Proof.Machine
end

