-- ==== Sys2Proof/Machine/Bar0.lean ====
section
/-! DEFINITION. Reads and writes of the register space (R8, R12, R368, R369, R382, R391, R392, R432 to R438, R442): what each
register shows, and what a write of each does. -/

namespace Sys2Proof.Machine

/-! The device page (R368, R369). -/

/-- Capabilities in the order of Table 14.8: ID, body, and whether the body is secure. -/
def State.capabilities (s : State) : List (Nat × Bytes × Bool) :=
  let inventory := [Blk.ae, .ce, .ve, .le, .he, .qc].flatMap fun b => leBytes 2 (placeOf b).count ++ leBytes 2 (s.enabledCount b)
  let name : Bytes := [0x50, 0x58, 0x57, 0x37, 0x2D, 0x54, 0x4C, 0]
  [(1, padTo 12 (name ++ [0xB0]) ++ leBytes 4 Config.testLot.toNat, false),
   (2, padTo 16 (leBytes 4 0x200000 ++ leBytes 2 16), false),
   (3, padTo 16 (leBytes 4 0x100000 ++ leBytes 4 0x10000 ++ [16]), false),
   (4, padTo 32 inventory, false),
   (5, padTo 16 (leBytes 4 192 ++ leBytes 4 288 ++ leBytes 4 6656), false),
   (6, padTo 16 (leBytes 2 8 ++ leBytes 2 800 ++ leBytes 4 0x90000), false),
   (7, padTo 16 (leBytes 4 0xD0000), false),
   (8, padTo 16 (leBytes 4 0xC0000), true)]

/-- Lay capabilities out from an offset; the list ends with a header of zeros. -/
def capBytes (sec : Bool) : Nat → List (Nat × Bytes × Bool) → Bytes
  | _, [] => List.replicate 16 0
  | at_, (id, body, hid) :: l =>
    let next := at_ + 16 + body.length
    leBytes 2 id ++ [1] ++ leBytes 1 (flag hid) ++ leBytes 4 next ++ List.replicate 8 0
      ++ (if hid && !sec then List.replicate body.length 0 else body) ++ capBytes sec next l

/-- The bytes of the list, which starts at offset 0x40. -/
def State.capList (s : State) (sec : Bool) : Bytes := capBytes sec 0x40 s.capabilities

/-- Whether an offset of the device page lies in the list. -/
def State.inCapList (s : State) (off : Nat) : Bool := decide (0x40 ≤ off) && decide (off < 0x40 + (s.capList true).length)

/-! What registers show. -/

/-- A header register (Table 18.2). -/
def State.headerView (s : State) (sec : Bool) (b : Blk) (i p off : Nat) : Nat :=
  let k := if off = 0x28 then domainOf b i else islandOf b i
  match off with
  | 0x00 => place (classCode b) 16 + place i 8 + p
  | 0x04 => 0x0001B001
  | 0x08 => blkCaps b
  | 0x0C => s.regN (BLK_WORLD b i)
  | 0x10 => s.regN (BLK_CTL b i) % 4
  | 0x14 => s.blkStat b i
  | 0x18 => s.regN (BLK_ERR b i)
  | 0x1C => s.regN (BLK_ERR_MASK b i)
  | 0x20 => s.regN (BLK_ERR_CNT b i)
  | 0x24 => s.regN (BLK_ERR_WIN b i)
  | 0x28 => match k with
    | some d => if sec then s.regN (PWR_DOM d) else 0
    | none => 0
  | 0x2C => match k with
    | some k => if sec then s.regN (PWR_FSTAT k) / 0x1000 * 0x1000 + s.mhzTarget k else 0
    | none => 0
  | _ => 0

/-- Whether a descriptor on a unit waits at a trough. -/
def State.unitWaits (s : State) (b : Blk) (i : Nat) : Bool := s.flights.any fun f => f.onUnit b i && (s.blockedAt f).isSome

/-- The value of BED_TRn_STAT; a trough that is not enabled shows only [4]. -/
def State.troughStat (s : State) (n : Nat) : Nat :=
  let waits (out : Bool) : Bool := s.flights.any fun f =>
    (s.blockedAt f).any fun u => decide (u.n = n) && u.out == out
  let on := if s.trOn n then
      flag (decide (s.trTail n = s.trHead n)) + place (flag (!s.trCanPut n (s.trTail n))) 1
        + place (flag (waits true)) 2 + place (flag (waits false)) 3
    else 0
  on + place (s.field (BED_TR_STAT n) 4 4) 4

/-- Whether the descriptor at the head of a queue waits on marks. -/
def State.headWaits (s : State) (t q : Nat) : Bool :=
  if s.jqReady t q && decide (s.jqPending t q ≠ 0) && !s.flights.any fun f => f.held && decide (f.tenant = t) && decide (f.queue = q) then
    match (s.readFor (.tenant t) .hbm (s.regN (CMD_JQ_BASE t q) + 128 * s.regN (CMD_JQ_HEAD t q)) 128).2 with
    | .error _ => false
    | .ok bs =>
      let d := BitVec.ofNat 1024 (leNat bs)
      (descBad s d).isNone && (s.markOutside t d).isNone && !s.relHead.contains (8 * t + q) && !s.waitsHold t d
  else false

/-- Descriptors that wait on marks (MK_WAITING). -/
def State.marksWaiting (s : State) : Nat := ((List.range 128).filter fun k => s.headWaits (k / 8) (k % 8)).length

/-- The value of PL_EC_DATA (R316). -/
def State.plEcData (s : State) : Nat :=
  let b := s.field PL_EC_IDX 8 0
  let m := smapFind s.plMark b
  (smapGet (fun _ => (0 : Word)) s.plEc b).toNat + place (flag m.isSome) 32 + place (flag (m == some true)) 33
    + place (flag (s.plLocked b)) 34

/-- The value of PWR_DOMd: a domain its own use keeps on shows as powered. -/
def State.domView (s : State) (d : Nat) : Nat :=
  let r := s.regN (PWR_DOM d)
  if s.domUsed d then 3 else r

/-- The usage of a tenant in the order of Table 10.8. -/
def State.usageView (s : State) (t k : Nat) : Nat :=
  match k with
  | 0 => s.usage t true
  | 1 => s.usage t false
  | 2 => s.nandUsage t
  | 3 => s.pagesOf t
  | _ => s.pfxOf t

/-- The value of QC_STATUS. -/
def State.qcStatus (s : State) : Nat :=
  min 63 (s.flights.filter fun f => decide (f.cls = .qc)).length + place (min 15 s.moves.length) 8 + place (min 15 s.builds.length) 12

/-- The descriptor an engine works on, until its operation has ended. -/
def State.worksOn (s : State) (b : Blk) (i : Nat) : Option Flight :=
  s.flights.find? fun f => f.onUnit b i && (decide (f.phase = .dispatched) || decide (f.phase = .running))

/-- VE_STATUS [1], in allocation or commit, and [31:16], the length-table entry in progress (Table 7.7). How far an operation has
come at the moment of a read is open: a free bit, and a free entry of those the descriptor names. -/
def State.veProgress (s : State) (i : Nat) : Nat :=
  match s.worksOn .ve i with
  | none => 0
  | some f =>
    let table := [1, 4, 5, 6, 7].contains (dOp f.desc)
    place (flag (decide (dOp f.desc = 1) && Config.freeBit s.free 0)) 1
      + place (if table then Config.freeNat s.free % max 1 (dfield f.desc 0x70 2) else 0) 16

/-- LE_STATUS [1], writing carried state, and [28:16], the stream in progress (Table 8.2), open in the same way. -/
def State.leProgress (s : State) (i : Nat) : Nat :=
  match s.worksOn .le i with
  | none => 0
  | some f =>
    let x := ((Work.start s f.tenant false).leParams f.desc).2
    place (flag (x.stateOut && Config.freeBit s.free 0)) 1 + place (Config.freeNat s.free % max 1 x.batch) 16

/-- HE_STATUS [2], transposition tile active (Table 9.5), open while a MOVE with TRANSPOSE runs. -/
def State.heProgress (s : State) (i : Nat) : Nat :=
  match s.worksOn .he i with
  | none => 0
  | some f =>
    let turns := decide (dClass f.desc = 5) && decide (dOp f.desc = 1) && bit (pfield f.param 4 4) 2
    place (flag (turns && Config.freeBit s.free 0)) 2

/-- What a register beyond the header shows, at its base offset `off` of page `p`: a view of other state, or what is stored. -/
def State.regView (s : State) (b : Blk) (i p off a : Nat) : Nat :=
  let v := s.regN a
  match b, p, off with
  | .ae, _, 0x40 => v + place (flag (s.unitWaits .ae i)) 2
  | .ve, _, 0x40 => v + s.veProgress i
  | .le, _, 0x40 => v + s.leProgress i
  | .ce, _, 0x40 => v + place (flag (s.unitWaits .ce i)) 2
  | .ce, _, 0x78 => match s.libVer with | some l => l.toNat | none => 0
  | .he, _, 0x40 => v + place (flag (s.unitWaits .he i)) 1 + s.heProgress i
  | .dp, 0, 0xA0 => s.groutQueue i 0
  | .dp, 0, 0xA4 => s.groutQueue i 1
  | .pm, _, 0x40 => s.pmFree
  | .pm, _, 0x44 => s.ptValid
  | .pm, _, 0x58 => s.page (s.field PM_RD_IDX 21 0)
  | .pm, _, 0x68 => s.pfxAt (s.field PT_RD_IDX 19 0) % 2 ^ 64
  | .pm, _, 0x70 => s.pfxAt (s.field PT_RD_IDX 19 0) / 2 ^ 64
  | .mk, _, 0x58 => s.marksWaiting
  | .mk, _, 0x68 => (s.mark (s.field MK_RD_IDX 15 0)).toNat
  | .qc, 0, 0x40 => s.qcStatus
  | .qc, 2, o => s.usageView ((o - 0x40) / 0x20) ((o - 0x40) % 0x20 / 4)
  | .qc, 8, 0x50 => s.nandEc.1 + place s.nandEc.2 32
  | .qc, 8, 0x58 => s.nandLife
  | .pwr, 0, 0x44 => s.pwrStatus
  | .pwr, 2, o => if (o - 0x40) % 8 = 0 then s.domView ((o - 0x40) / 8) else v
  | .qn, 5, 0x40 => v + place (flag s.hostTenant) 2
  | .qn, 5, o => if 0xC0 ≤ o ∧ o < 0x100 then (s.drainUnits ((o - 0xC0) / 4)).length else v
  | .pl, _, 0x60 => s.plEcData
  | .bed, p, o =>
    let n := 32 * (p - 8) + (o - 0x40) / 0x40
    if p < 8 then v
    else if (o - 0x40) % 0x40 = 0x10 then s.trTail n
    else if (o - 0x40) % 0x40 = 0x18 then s.trHead n
    else if (o - 0x40) % 0x40 = 0x20 then s.troughStat n
    else v
  | .cmd, 1, 0x180 => s.field (MK_WIN i) 15 0
  | .cmd, 1, 0x184 => s.field (MK_WIN i) 31 16
  | _, _, _ => v

/-- Clear bits [hi:lo] of a number. -/
def clearBits (v hi lo : Nat) : Nat := v - place (bits v hi lo) lo

/-- What the non-secure world sees of a value (R391, R392). -/
def State.coarse (s : State) (b : Blk) (p off a v : Nat) : Nat :=
  if isCounter a then (smapGet (fun _ => (0 : DWord)) s.snap a).toNat / 1024 * 1024
  else if b = .fc ∧ p = 0 ∧ off = 0x40 then clearBits (clearBits v 15 8) 6 6
  else if b = .qc ∧ p = 9 ∧ off % 0x20 = 0 then clearBits v 15 8
  else v

/-- Whether a tenant's command pages read as after reset (R360). -/
def State.pagesAsleep (s : State) (fn : Nat) : Bool :=
  decide (fn < 16) && (decide (s.slot fn = 0) || (!s.stopped && !s.meleopin))

/-- Read a whole register by an access that its mark lets through (R11). -/
def State.regRead (s : State) (sec : Bool) (b : Blk) (i p : Nat) (r : Reg) (a : Nat) : State × Nat :=
  let off := a % 0x1000
  if r.acc = .wo then (s, 0)
  else if b = .ce ∧ off = 0x80 then
    let (s, w) := s.libRead i
    (s, w.toNat)
  else if b = .cmd ∧ s.pagesAsleep i = true ∧ shadowReg a = true then (s, (resetOf a).toNat)
  else
    let v := s.regView b i p off a
    (s, if sec then v else s.coarse b p off a v)

/-- Read 32 bits of the register space. -/
def State.read4 (s : State) (sec : Bool) (a : Nat) : State × Nat :=
  match pageOf a with
  | none => (s.devErr, 0)
  | some (b, i, p) =>
    let off := a % 0x1000
    if off < 0x40 then (s, s.headerView sec b i p off)
    else if b = .dev ∧ s.inCapList off then (s, leNat (((s.capList sec).drop (off - 0x40)).take 4))
    else
      match rowAt b i p off with
      | none => (if !sec && s.blkSecure b i && b != .qn then s.devErr else s.blkErr b i 5, 0)
      | some (r, _, byte) =>
        if !sec && s.closed b i r then (s.devErr, 0)
        else
          let (s, v) := s.regRead sec b i p r (a - byte)
          (s, v / 2 ^ (8 * byte) % 2 ^ 32)

/-- The 64-bit register that starts at an address and is open to the access, where there is one. -/
def State.wideAt (s : State) (sec : Bool) (a : Nat) : Option (Blk × Nat × Nat × Reg) :=
  match pageOf a with
  | none => none
  | some (b, i, p) =>
    match (if a % 0x1000 < 0x40 then none else rowAt b i p (a % 0x1000)) with
    | some (r, _, 0) => if r.bytes = 8 ∧ (sec || !s.closed b i r) = true then some (b, i, p, r) else none
    | _ => none

/-- Read the register space: the state and the value (R8, R438). -/
def State.busRead (s : State) (sec : Bool) (a size : Nat) : State × Nat :=
  if !accessOk a size then (s, 0)
  else if size = 4 then s.read4 sec a
  else
    match s.wideAt sec a with
    | some (b, i, p, r) => s.regRead sec b i p r a
    | none =>
      let lo := s.read4 sec a
      let hi := lo.1.read4 sec (a + 4)
      (hi.1, lo.2 + place hi.2 32)

/-- REGISTER_READ. -/
def execRegisterRead (sec : Bool) (addr : BitVec 26) (size : Nat) (s : State) : Out := live s fun s =>
  let (s, v) := s.busRead sec addr.toNat size
  { s with pcie := { s.pcie with rdData := BitVec.ofNat 64 v } }

/-- CE_LIB_DATA_READ. -/
def execCeLibDataRead (sec : Bool) (n : Fin 18) (s : State) : Out := live s fun s =>
  let (s, v) := s.busRead sec (CE_LIB_DATA n) 4
  { s with pcie := { s.pcie with rdData := BitVec.ofNat 64 v } }

/-! What writes do. -/

/-- Write BED_TRn_BASE, BED_TRn_PROD or BED_TRn_CONS: refused while the trough is enabled (R96). -/
def State.troughSet (s : State) (n : Nat) (r : Reg) (a v : Nat) : State :=
  if s.trOn n then s.blkErr .bed 0 5 else s.storeReg .bed 0 r a v

/-- Replace the value of the mark MK_RD_IDX names (R440). -/
def State.markWrite (s : State) (v : Nat) : State :=
  let m := s.field MK_RD_IDX 15 0
  (s.markServed m (portUnit .mk 0)).setMark m (BitVec.ofNat 64 v)

/-- MARK_WRITE: a write of MK_WR_DATA. -/
def execMarkWrite (sec : Bool) (v : DWord) (s : State) : Out := live s fun s =>
  s.allow sec MK_WR_DATA fun s => s.markWrite v.toNat

/-- Write MK_WINt: discarded beyond the tenants' marks, over another window, or while the slot is LIVE or RETIRING (R441). -/
def State.windowWrite (s : State) (t v : Nat) : State :=
  let base := bits v 15 0
  let n := bits v 31 16
  let others := ((List.range 16).filter (· != t)).map fun u => (s.field (MK_WIN u) 15 0, s.field (MK_WIN u) 31 16)
  let meets := others.any fun w => decide (0 < n) && decide (0 < w.2) && decide (base < w.1 + w.2) && decide (w.1 < base + n)
  if 61440 < base + n ∨ meets = true ∨ s.slot t = 1 ∨ s.slot t = 2 then s.blkErr .mk 0 5 else s.setRegN (MK_WIN t) (v % 2 ^ 32)

/-- MARK_WINDOW_WRITE: a write of MK_WINt. -/
def execMarkWindowWrite (sec : Bool) (t : Fin 16) (v : Word) (s : State) : Out := live s fun s =>
  s.allow sec (MK_WIN t) fun s => s.windowWrite t v.toNat

/-- Write QC_SCHED_CTLt: enable, resume, disable. -/
def State.schedWrite (s : State) (t v : Nat) : State :=
  let s := if bit v 0 then s.schedEnable t else s
  let s := if bit v 1 then s.schedResume t else s
  if bit v 2 then s.schedDisable t else s

/-- Write DP_PFC_XOFF or DP_PFC_XON: XON must exceed XOFF; the pauses follow (R338, R349). -/
def State.pfcWrite (s : State) (p : Nat) (xon : Bool) (v : Nat) : State :=
  let w := v % 0x80000
  let bad := if xon then decide (w ≤ s.regN (DP_PFC_XOFF p)) else decide (s.regN (DP_PFC_XON p) ≤ w)
  if bad then s.blkErr .dp p 5
  else (s.setRegN (if xon then DP_PFC_XON p else DP_PFC_XOFF p) w).pauseUpdate p

/-- Write a whole register beyond the header, at its base offset `off` of page `p` (R442). -/
def State.regWrite (s : State) (b : Blk) (i p : Nat) (r : Reg) (a v : Nat) : State :=
  let off := a % 0x1000
  match b, p, off with
  | .fc, 0, 0x54 => s.retrainWrite i v
  | .fc, 1, o => if o < 0xA0 then s.xmapWrite ((o - 0x40) / 8) v else s.storeReg b i r a v
  | .dp, 0, 0x44 => s.portWrite i v
  | .dp, 0, 0x48 => s.pfcWrite i false v
  | .dp, 0, 0x4C => s.pfcWrite i true v
  | .dp, 1, 0x40 => s.chipIdWrite v
  | .dp, 1, 0x48 => s.macPfxWrite v
  | .mk, _, 0x70 => s.markWrite v
  | .mk, _, o => if 0x100 ≤ o then s.windowWrite ((o - 0x100) / 4) v else s.storeReg b i r a v
  | .pwr, 0, 0x40 => s.capWrite (v % 0x800)
  | .pwr, 1, o => if (o - 0x40) % 8 = 0 then s.fsetWrite ((o - 0x40) / 8) v else s
  | .pwr, 2, o => if (o - 0x40) % 8 = 0 then s.domWrite ((o - 0x40) / 8) (bit v 0) else s
  | .qn, 0, 0x44 => s.mailboxWrite false (bit v 0)
  | .qn, 1, 0x44 => s.mailboxWrite true (bit v 0)
  | .qn, p, _ => if 2 ≤ p ∧ p ≤ 4 then s.regionWrite a v else s.storeReg b i r a v
  | .pl, _, 0x44 => s.xipCtl v
  | .pl, _, o => if 0xC0 ≤ o then s.modReg a fun old => Nat.lor old (v % 2 ^ 32) else s.storeReg b i r a v
  | .qc, 3, o => if (o - 0x40) % 0x40 = 0x20 then s.schedWrite ((o - 0x40) / 0x40) v else s.storeReg b i r a v
  | .bed, p, o =>
    let n := 32 * (p - 8) + (o - 0x40) / 0x40
    let k := (o - 0x40) % 0x40
    if p < 8 then s.storeReg b i r a v
    else if k = 4 then s.troughWrite n v
    else if k < 0x10 then s.troughSet n r a v
    else s.storeReg b i r a v
  | _, _, _ => s.storeReg b i r a v

/-- The full value a 32-bit write gives a register; the other half of one that is only written is not stated. -/
def State.halfValue (s : State) (r : Reg) (base byte v : Nat) : State × Nat :=
  if r.bytes = 4 then (s, v % 2 ^ 32)
  else if r.acc = .wo then
    let other := Config.freeNat s.free % 2 ^ 32
    (s.tick, if byte = 0 then v % 2 ^ 32 + place other 32 else other + place (v % 2 ^ 32) 32)
  else (s, s.mergeHalf base byte 4 r.bytes v)

/-- Write 32 bits of the register space. -/
def State.write4 (s : State) (sec : Bool) (a v : Nat) : State :=
  match pageOf a with
  | some (.dev, _, _) =>
    if s.inCapList (a % 0x1000) then s else s.allow sec a fun s => s.headerWrite .dev 0 (a % 0x1000) v
  | some (b, i, p) =>
    s.allow sec a fun s =>
      if a % 0x1000 < 0x40 then s.headerWrite b i (a % 0x1000) v
      else
        match rowAt b i p (a % 0x1000) with
        | none => s
        | some (r, _, byte) =>
          let (s, w) := s.halfValue r (a - byte) byte v
          s.regWrite b i p r (a - byte) w
  | none => s.allow sec a id

/-- Write the register space (R8, R438); a command page posts the write (R355). -/
def State.busWrite (s : State) (sec : Bool) (a size v : Nat) : State :=
  if !accessOk a size then s
  else
    match pageOf a with
    | some (.cmd, fn, p) => s.post sec fn (0x1000 * p + a % 0x1000) size v
    | _ =>
      if size = 4 then s.write4 sec a v
      else
        match s.wideAt true a with
        | some (b, i, p, r) => s.allow sec a fun s => s.regWrite b i p r a (v % 2 ^ 64)
        | none => (s.write4 sec a (v % 2 ^ 32)).write4 sec (a + 4) (v / 2 ^ 32 % 2 ^ 32)

/-- REGISTER_WRITE. -/
def execRegisterWrite (sec : Bool) (addr : BitVec 26) (size : Nat) (v : DWord) (s : State) : Out := live s fun s =>
  s.busWrite sec addr.toNat size v.toNat

end Sys2Proof.Machine
end

