-- ==== Sys2Proof/Machine/Package.lean ====
section
/-! DEFINITION. The package's pins: the fundamental reset and start-up (R315, R361, R457, R458), supplies and clocks out
of range (R451, R455), the PCI Express link (R350, R361), SMBus (R460) and the JTAG port (R461). -/

namespace Sys2Proof.Machine

/-! Reset. -/

/-- PERST_N_RELEASE: the Plinth is scanned, SMBus answers again, and the 50 µs filter runs where no coolant flows. -/
def execPerstNRelease (s : State) : Out := atPins s fun s =>
  if s.pins.perstN then s
  else
    { s with pins := { s.pins with perstN := true, smbReleased := false }
             pw := { s.pw with coolArmed := !s.pins.coolFlowOk } }.plScan

/-- Every state that PERST_N clears is as at reset; what stays is the Plinth's array with its counters and markers, the wear of
the NAND tier (R299), the pins driven from outside, the boundary-scan port, and the queue of commands. -/
def State.inReset (s : State) : State :=
  let ops := [s.plBank0, s.plBank1].flatMap fun k => k.op.toList ++ k.held.toList
  let s := ops.foldl State.plTorn s
  { State.reset with
    pending := s.pending
    free := s.free
    nextKey := s.nextKey
    pins := { s.pins with perstN := false, thermTrip := false, smbReleased := true }
    jtag := s.jtag
    plArray := s.plArray
    plEc := s.plEc
    plMark := s.plMark
    nandSb := s.nandSb.map Superblock.lost }

/-- PERST_N_ASSERT: all activity stops and THERM_TRIP_N is released; undefined behaviour ends (R451, R455, R457). -/
def execPerstNAssert (s : State) : Out := .next (if s.pins.perstN then s.inReset else s)

/-! What leaves the behaviour undefined. -/

/-- RAIL_OUT_OF_RANGE (R455). -/
def execRailOutOfRange (s : State) : Out := atPins s fun s => if s.pins.perstN then { s with undef := true } else s

/-- REFCLK_PCIE_LOSS (R451). -/
def execRefclkPcieLoss (s : State) : Out := atPins s fun s => if s.pins.perstN then { s with undef := true } else s

/-! PCI Express and SMBus. -/

/-- The link modes of Table 14.1: the rate in tenths of a GT/s, and the lanes. -/
def linkModeOk (gts lanes : Nat) : Bool := [640, 320, 160, 80, 50, 25].contains gts && [16, 8, 4, 1].contains lanes

/-- PCIE_LINK_UP: training ends in a supported mode. -/
def execPcieLinkUp (gts lanes : Nat) (s : State) : Out := live s fun s =>
  if linkModeOk gts lanes ∧ !s.pcie.linkUp then
    { s with pcie := { s.pcie with linkUp := true, gts := gts, lanes := lanes } }
  else s

/-- CONFIG_SPACE_READY (R361). -/
def execConfigSpaceReady (s : State) : Out := live s fun s => { s with pcie := { s.pcie with cfgReady := true } }

/-- SMBUS_CLOCK_LOW_TIMEOUT: the XW-7 releases the bus (R460). -/
def execSmbusClockLowTimeout (s : State) : Out := live s fun s => { s with pins := { s.pins with smbReleased := true } }

/-! JTAG. -/

/-- IEEE 1149.1 codes of R461. -/
def irExtest : BitVec 4 := 0
def irIdcode : BitVec 4 := 1
def irSample : BitVec 4 := 2
def irBypass : BitVec 4 := 15

/-- JTAG_TAP_RESET: IDCODE is selected and the pins are the core's again; the unlock level stays. -/
def execJtagTapReset (s : State) : Out := atPins s fun s =>
  { s with jtag := { s.jtag with ir := irIdcode, driven := false } }

/-- JTAG_IDCODE. -/
def execJtagIdcode (s : State) : Out := atPins s fun s =>
  { s with jtag := { s.jtag with ir := irIdcode, tdo := 0x1C007A69, driven := false } }

/-- JTAG_BYPASS: BYPASS, and every unassigned code while the port is locked, selects the bypass register, which captures 0 and
delays TDI by one bit. What another code does once the port is unlocked is not described. -/
def execJtagBypass (ir : BitVec 4) (tdi : Bool) (s : State) : Out := atPins s fun s =>
  if ir = irExtest ∨ ir = irIdcode ∨ ir = irSample then s
  else if ir = irBypass ∨ s.field QN_STATUS 1 0 = 0 then
    { s with jtag := { s.jtag with ir := ir, tdo := BitVec.ofNat 32 (place (flag tdi) 1), driven := false } }
  else { s.tick with jtag := { s.jtag with ir := ir, tdo := BitVec.ofNat 32 (Config.freeNat s.free), driven := false } }

/-- What the 11 boundary-scan cells capture, PERST_N nearest TDI in bit 10 and TEST_EN nearest TDO in bit 0. The SMBus pins and
the sense of the enables are not part of the model and stay free. -/
def State.scanCells (s : State) : Nat :=
  place (flag s.pins.perstN) 10 + place (flag s.pins.coolFlowOk) 9 + place (flag (!s.pins.thermTrip)) 8
    + ((List.range 7).map fun i => place (flag (Config.freeBit s.free i)) (i + 1)).foldl (· + ·) 0

/-- Load an instruction of the boundary-scan register, sample it, and shift the next cells in. -/
def State.scanThrough (s : State) (ir : BitVec 4) (tdi : BitVec 11) (driven : Bool) : State :=
  { s.tick with jtag := { ir := ir, bsr := tdi, tdo := BitVec.ofNat 32 s.scanCells, driven := driven } }

/-- JTAG_SAMPLE_PRELOAD. -/
def execJtagSamplePreload (tdi : BitVec 11) (s : State) : Out := atPins s fun s => s.scanThrough irSample tdi false

/-- JTAG_EXTEST: the cells drive the pins. -/
def execJtagExtest (tdi : BitVec 11) (s : State) : Out := atPins s fun s => s.scanThrough irExtest tdi true

end Sys2Proof.Machine
end

