-- ==== Sys2Proof/Machine/Rmo.lean ====
section
/-! DEFINITION. The memory operations of class 0x7 on tensor movers (R44 to R48, R61, R245, R329, R464), and what takes
received frames out of a port's buffer: requests applied, responses delivered (R329, R331, R336). -/

namespace Sys2Proof.Machine

/-- Valid offsets of the register space (Table 2.2). -/
def regSpace : Nat := 0x4000000

/-- Check an operation on `n` bytes of register space: 32-bit and 64-bit puts and gets (R41). -/
def regRange (off n : Nat) : Bool := decide (off + n ≤ regSpace) && decide (n = 4 ∨ n = 8)

/-- Read `n` bytes of any space for a tenant; register space answers as to a non-secure access (R8, R12, R44). -/
def State.getAny (s : State) (t space off n : Nat) : MemOut Bytes :=
  if space = spReg then
    if regRange off n then
      let (s, v) := s.busRead false off n
      (s, .ok (leBytes n v))
    else (s, .error (stTranslation, off))
  else s.memGet t space off n

/-- Write bytes of any space for a tenant. -/
def State.putAny (s : State) (t who space off : Nat) (bs : Bytes) : MemOut Unit :=
  if space = spReg then
    if regRange off bs.length then (s.busWrite false off bs.length (leNat bs), .ok ()) else (s, .error (stTranslation, off))
  else s.memPut t who space off bs

/-- Read local bytes for an operation. -/
def Work.getLocal (w : Work) (ga n : Nat) : Work × Bytes :=
  if w.dead then (w, [])
  else
    match w.s.getAny w.t (gaSpace ga) (gaOff ga) n with
    | (s, .error (c, o)) => ({ w with s := s }.fail c (gaOf (gaChip ga) (gaSpace ga) o), [])
    | (s, .ok bs) => ({ w with s := s }, bs)

/-- Write local bytes for an operation of mover `u`: memory when it ends, a register or a mark at once. -/
def Work.putLocal (w : Work) (u ga : Nat) (bs : Bytes) : Work :=
  if w.dead then w
  else if (tierOf (gaSpace ga)).isSome then w.write ga bs
  else
    match w.s.putAny w.t (portUnit .he u) (gaSpace ga) (gaOff ga) bs with
    | (s, .error (c, o)) => { w with s := s }.fail c (gaOf (gaChip ga) (gaSpace ga) o)
    | (s, .ok _) => { w with s := s }

/-- The status of a local destination of `n` bytes that its space does not take, and the offset: memory is checked when it
is written (R42). -/
def State.destCheck (s : State) (t space off n : Nat) : Option (Nat × Nat) :=
  if (tierOf space).isSome then none
  else if space = spReg then (if regRange off n then none else some (stTranslation, off))
  else if space = spMark then
    match s.markRange t off n (decide (n = 8)) with
    | .error e => some e
    | .ok _ => none
  else some (stTranslation, off)

/-- End with the fault of a local destination. -/
def Work.checkDest (w : Work) (ga n : Nat) : Work :=
  match w.s.destCheck w.t (gaSpace ga) (gaOff ga) n with
  | some (c, o) => w.fail c (gaOf (gaChip ga) (gaSpace ga) o)
  | none => w

/-- End with TRANSLATION_FAULT where an address that must be local is not (R46). -/
def Work.mustBeLocal (w : Work) (ga : Nat) : Work := if w.s.isLocal ga then w else w.fail stTranslation ga

/-- The requester's checks of a remote address (R44). -/
def Work.checkRemote (w : Work) (ga : Nat) : Work :=
  if w.s.isLocal ga then w
  else if gaSpace ga = spReg then w.fail stProtection ga
  else if gaSpace ga = spBed ∨ gaSpace ga = spHbm ∨ gaSpace ga = spMark then w
  else w.fail stTranslation ga

/-- Lines a run of bytes moves, where it lies in memory (R244). -/
def memLines (ga n : Nat) : Nat := if (tierOf (gaSpace ga)).isSome then runLines ga n else 0

/-- Operand fields of class 0x7 (R61). -/
def rmoDst (d : BitVec 1024) : Nat := dfield d 0x50 8
def rmoSrc (d : BitVec 1024) : Nat := dfield d 0x58 8
def rmoLen (d : BitVec 1024) : Nat := dfield d 0x60 4
def rmoOpnd0 (d : BitVec 1024) : Nat := dfield d 0x68 8
def rmoOpnd1 (d : BitVec 1024) : Nat := dfield d 0x70 8

/-- Count the lines of an operation on its mover, and its start, and a run's pipeline, as stalls (R244, R245). -/
def Work.tallyMover (w : Work) (u rd wr stalls : Nat) : Work :=
  (w.mapS fun s => (s.count (HE_RD_LINES u) rd).count (HE_WR_LINES u) wr).stalled (HE_STALL_CNT u) stalls

/-- Lines of a run in memory that were accessed: all `m` bytes of it an operation came to, or those before a fault in it. -/
def Work.memReached (w : Work) (ga n m : Nat) : Nat :=
  match w.err with
  | some (_, d) => if ga ≤ d ∧ d < ga + n then memLines ga (d - ga) else memLines ga m
  | none => memLines ga m

/-- Read the local source of a put or get; where it fails, the bytes read before it, and its lines counted. -/
def Work.source (w : Work) (src n : Nat) : Work × Bytes :=
  let (v, bs) := w.getLocal src n
  match v.err with
  | some (_, d) =>
    if !w.dead ∧ (tierOf (gaSpace src)).isSome ∧ src < d ∧ d < src + n then (v, (w.getLocal src (d - src)).2) else (v, [])
  | none => (v, bs)

/-- Copy between two local ranges; an overlap leaves the destination open (R46), and bytes read before a fault may have been
copied (R15). -/
def Work.copyLocal (w : Work) (u src dst n : Nat) : Work :=
  let w := w.checkDest dst n
  let (v, bs) := w.source src n
  let meet := rangesMeet [(src, n)] [(dst, n)]
  let bs := if meet then v.s.freeBytes bs.length else bs
  let v := v.mapS fun s => if meet then s.tick else s
  let v := match v.err with
    | none => v.putLocal u dst bs
    | some (c, d) => ({ v with err := w.err }.putLocal u dst bs).fail c d
  v.tallyMover u (v.memReached src n bs.length) (v.memReached dst n bs.length) 56

/-- Start the remote operation of a flight: it runs until its response, or ends at once (R324, R326). -/
def State.rmoRemote (s : State) (f : Flight) (ga ldst len : Nat) (reqsAt : Nat → List ReqFrame) : State :=
  let (s, r) := s.remoteOp (some f.id) f.tenant (dTc f.desc) f.unit (dOp f.desc) ga ldst len reqsAt
  s.putFlight (match r with
    | some c => { f.endWith c 0 with issued := true }
    | none => { f with phase := .running, issued := true })

/-- Run a class 0x7 descriptor that is dispatched. -/
def State.rmoFlight (s : State) (id op : Nat) (go : Flight → State → State) : State :=
  s.onFlight id fun f s =>
    if f.phase = .dispatched ∧ dClass f.desc = 7 ∧ dOp f.desc = op then go f s else s

/-- Work on a flight. -/
def Flight.work (f : Flight) (s : State) : Work := Work.start s f.tenant f.strict

/-- A put (R45, R46, R329). -/
def rmoPut (f : Flight) (s : State) : State :=
  let src := rmoSrc f.desc
  let dst := rmoDst f.desc
  let n := rmoLen f.desc
  let w := ((f.work s).mustBeLocal src).checkRemote dst
  if w.dead then w.settle f
  else if w.s.isLocal dst then (w.copyLocal f.unit src dst n).settle f
  else
    let (w, bs) := w.source src n
    let w := w.tallyMover f.unit (w.memReached src n bs.length) 0 56
    if w.dead then w.settle f
    else
      w.s.rmoRemote f dst 0 n fun p => w.s.putFrames p (dTc f.desc) (dst % 2 ^ 52) bs

/-- A get. -/
def rmoGet (f : Flight) (s : State) : State :=
  let src := rmoSrc f.desc
  let dst := rmoDst f.desc
  let n := rmoLen f.desc
  let w := ((f.work s).mustBeLocal dst).checkRemote src
  if w.dead then w.settle f
  else if w.s.isLocal src then (w.copyLocal f.unit src dst n).settle f
  else
    let w := w.checkDest dst n
    if w.dead then w.settle f
    else
      let w := w.tallyMover f.unit 0 0 56
      w.s.rmoRemote f src dst n fun _ => [{ flags := 0, len := n, addr := src % 2 ^ 52, payload := [] }]

/-- An atomic on local memory or a local mark, and its fetch. A fetch that faults leaves open whether the word changed
(R15). -/
def Work.atomicLocal (w : Work) (u opc dst fetch a b : Nat) : Work :=
  match w.s.memAtomic w.t (portUnit .he u) (gaSpace dst) (gaOff dst) opc (BitVec.ofNat 64 a) (BitVec.ofNat 64 b) with
  | (s, .error (c, o)) => { w with s := s }.fail c (gaOf (gaChip dst) (gaSpace dst) o)
  | (s, .ok old) =>
    if fetch = 0 then { w with s := s }.tallyMover u 0 0 32
    else
      let v := { w with s := s }.putLocal u fetch (leBytes 8 old.toNat)
      if v.dead then (if Config.freeBit v.s.free 0 then v else { v with s := w.s }).mapS State.tick
      else v.tallyMover u 0 (memLines fetch 8) 32

/-- An atomic of class 0x7: a remote fetch address is refused before the requester's checks of its target (R44, R46, R47). -/
def rmoAtomic (f : Flight) (s : State) : State :=
  let dst := rmoDst f.desc
  let fetch := rmoSrc f.desc
  let w := if fetch = 0 then f.work s else (f.work s).mustBeLocal fetch
  let w := w.checkRemote dst
  let w := if fetch = 0 then w else w.checkDest fetch 8
  if w.dead then w.settle f
  else if w.s.isLocal dst then
    (w.atomicLocal f.unit (dOp f.desc) dst fetch (rmoOpnd0 f.desc) (rmoOpnd1 f.desc)).settle f
  else
    let w := w.tallyMover f.unit 0 0 32
    w.s.rmoRemote f dst fetch 8 fun _ =>
      [{ flags := 0, len := 8, addr := dst % 2 ^ 52, payload := leBytes 8 (rmoOpnd0 f.desc) ++ leBytes 8 (rmoOpnd1 f.desc) }]

/-- A signal of class 0x7 (R53). -/
def rmoSignal (f : Flight) (s : State) : State :=
  let dst := rmoDst f.desc
  let w := (f.work s).checkRemote dst
  if w.dead then w.settle f
  else if w.s.isLocal dst then
    (match w.s.memSignal w.t (gaSpace dst) (gaOff dst) (rmoOpnd0 f.desc) false with
     | (s, .error (c, o)) => { w with s := s }.fail c (gaOf (gaChip dst) (gaSpace dst) o)
     | (s, .ok _) => { w with s := s }.tallyMover f.unit 0 0 32).settle f
  else
    let w := w.tallyMover f.unit 0 0 32
    w.s.rmoRemote f dst 0 8 fun _ => [{ flags := 0, len := 8, addr := dst % 2 ^ 52, payload := leBytes 8 (rmoOpnd0 f.desc) }]

/-- PUT. -/
def execPut (id : Nat) (s : State) : Out := live s fun s => s.rmoFlight id 0x01 rmoPut
/-- GET. -/
def execGet (id : Nat) (s : State) : Out := live s fun s => s.rmoFlight id 0x02 rmoGet
/-- ATOMIC_ADD to ATOMIC_XOR, by their OP codes (R61). -/
def execAtomicAdd (id : Nat) (s : State) : Out := live s fun s => s.rmoFlight id 0x10 rmoAtomic
def execAtomicSwap (id : Nat) (s : State) : Out := live s fun s => s.rmoFlight id 0x11 rmoAtomic
def execAtomicCas (id : Nat) (s : State) : Out := live s fun s => s.rmoFlight id 0x12 rmoAtomic
def execAtomicUmax (id : Nat) (s : State) : Out := live s fun s => s.rmoFlight id 0x13 rmoAtomic
def execAtomicUmin (id : Nat) (s : State) : Out := live s fun s => s.rmoFlight id 0x14 rmoAtomic
def execAtomicAnd (id : Nat) (s : State) : Out := live s fun s => s.rmoFlight id 0x15 rmoAtomic
def execAtomicOr (id : Nat) (s : State) : Out := live s fun s => s.rmoFlight id 0x16 rmoAtomic
def execAtomicXor (id : Nat) (s : State) : Out := live s fun s => s.rmoFlight id 0x17 rmoAtomic
/-- SIGNAL. -/
def execSignal (id : Nat) (s : State) : Out := live s fun s => s.rmoFlight id 0x20 rmoSignal

/-! The receive buffer. -/

/-- Write what a response brings to its operation's local destination: the state, and the fault that ends it. -/
def State.landData (s : State) (r : ROp) (f : Frame) : State × Option (Nat × Nat) :=
  let want := decide (r.opc = 2) || (decide (0x10 ≤ r.opc ∧ r.opc ≤ 0x17) && decide (r.dst ≠ 0))
  if !want ∨ f.payload.isEmpty then (s, none)
  else
    let ga := r.dst.toNat + r.got
    let fl := r.flight.bind s.flight
    match s.putAny r.tenant (portUnit .he ((fl.map Flight.unit).getD 0)) (gaSpace ga) (gaOff ga) f.payload with
    | (s, .error (c, o)) => (s, some (c, gaOf (gaChip ga) (gaSpace ga) o))
    | (s, .ok _) =>
      let lines (n : Nat) : Nat := memLines r.dst.toNat n
      (match fl with
        | some fl => s.count (HE_WR_LINES fl.unit) (lines (r.got + f.payload.length) - lines r.got)
        | none => s, none)

/-- Deliver a response frame to the operation that waits for it: its data in ascending order, and at the last frame its
status; a fault at the target has the failing address in DETAIL (R15, R329). -/
def State.deliver (s : State) (f : Frame) : State :=
  match s.rops.find? fun r => decide (r.opid = f.opid ∧ r.port = f.port ∧ r.tc = f.tc ∧ r.peer = f.src
      ∧ r.opc = f.opc ∧ s.ftidOf r.tenant = f.ftid) with
  | none => s
  | some r =>
    let code := f.status.toNat
    let (s, bad) := if code = stOk then s.landData r f else (s, none)
    match bad with
    | some (c, d) => s.endOp r.opid c d
    | none =>
      let s := { s with rops := s.rops.map fun x =>
        if x.opid = r.opid then { x with got := x.got + f.payload.length } else x }
      if bit f.flags 4 then
        s.endOp r.opid code (if code = stOk then 0 else place r.peer 52 + f.addr.toNat % 2 ^ 52)
      else s

/-- FRAME_APPLY: the oldest accepted frame of a port is applied and leaves the buffer (R331, R338). -/
def execFrameApply (p : Fin 8) (s : State) : Out := live s fun s =>
  match s.rxq.find? fun f => decide (f.port = p.val) with
  | none => s
  | some f =>
    let s := { s with rxq := s.rxq.erase f }
    let s := if f.type = ftRequest then s.applyReq f else s.deliver f
    s.pauseUpdate p

/-- RESPONSE_FRAME_RECEIVE: a response is delivered once every earlier frame of its connection has been applied. -/
def execResponseFrameReceive (p : Fin 8) (frame : WireFrame) (s : State) : Out := live s fun s =>
  s.receive p ftResponse frame fun s f =>
    s.inOrder f fun s c =>
      if s.rxq.any fun g => decide (g.port = f.port ∧ g.tc = f.tc ∧ g.src = f.src) then s.accept c f
      else
        ((s.answer { c with exp := (c.exp + 1) % 0x1000000 } ftAck 0).count (DP_RX_FRAMES f.port) 1).deliver f

end Sys2Proof.Machine
end

