-- ==== Sys2Proof/Machine/Dispatch.lean ====
section
/-! DEFINITION. The one dispatch from a command to its meaning: one arm per constructor of Instr. -/

namespace Sys2Proof.Machine

def exec (i : Instr) (s : State) : Host.Outcome State Fault Refusal :=
  match i with
  | .registerWrite sec addr size v => Sys2Proof.Machine.execRegisterWrite sec addr size v s
  | .commandWritePost fn off size v => Sys2Proof.Machine.execCommandWritePost fn off size v s
  | .commandWriteApply fn => Sys2Proof.Machine.execCommandWriteApply fn s
  | .jqTailDoorbell t => Sys2Proof.Machine.execJqTailDoorbell t s
  | .jqEnable t => Sys2Proof.Machine.execJqEnable t s
  | .jqResume t => Sys2Proof.Machine.execJqResume t s
  | .jqDiscard t => Sys2Proof.Machine.execJqDiscard t s
  | .jqDisable t => Sys2Proof.Machine.execJqDisable t s
  | .cqHeadUpdate t => Sys2Proof.Machine.execCqHeadUpdate t s
  | .eqHeadUpdate fn => Sys2Proof.Machine.execEqHeadUpdate fn s
  | .map t => Sys2Proof.Machine.execMap t s
  | .unmap t => Sys2Proof.Machine.execUnmap t s
  | .mapOperationEnd t => Sys2Proof.Machine.execMapOperationEnd t s
  | .descriptorRelease t q u => Sys2Proof.Machine.execDescriptorRelease t q u s
  | .descriptorComplete id => Sys2Proof.Machine.execDescriptorComplete id s
  | .put id => Sys2Proof.Machine.execPut id s
  | .get id => Sys2Proof.Machine.execGet id s
  | .atomicAdd id => Sys2Proof.Machine.execAtomicAdd id s
  | .atomicSwap id => Sys2Proof.Machine.execAtomicSwap id s
  | .atomicCas id => Sys2Proof.Machine.execAtomicCas id s
  | .atomicUmax id => Sys2Proof.Machine.execAtomicUmax id s
  | .atomicUmin id => Sys2Proof.Machine.execAtomicUmin id s
  | .atomicAnd id => Sys2Proof.Machine.execAtomicAnd id s
  | .atomicOr id => Sys2Proof.Machine.execAtomicOr id s
  | .atomicXor id => Sys2Proof.Machine.execAtomicXor id s
  | .signal id => Sys2Proof.Machine.execSignal id s
  | .meleopinDescriptor id => Sys2Proof.Machine.execMeleopinDescriptor id s
  | .bedRequest bank reqs => Sys2Proof.Machine.execBedRequest bank reqs s
  | .bedPatrolScrub found => Sys2Proof.Machine.execBedPatrolScrub found s
  | .spareBankCopyDone g => Sys2Proof.Machine.execSpareBankCopyDone g s
  | .troughEnable sec n v => Sys2Proof.Machine.execTroughEnable sec n v s
  | .troughDisable sec n v => Sys2Proof.Machine.execTroughDisable sec n v s
  | .troughRecordProduce id => Sys2Proof.Machine.execTroughRecordProduce id s
  | .troughRecordConsume id => Sys2Proof.Machine.execTroughRecordConsume id s
  | .matmul id => Sys2Proof.Machine.execMatmul id s
  | .partialSum id => Sys2Proof.Machine.execPartialSum id s
  | .loadRes id => Sys2Proof.Machine.execLoadRes id s
  | .releaseRes id => Sys2Proof.Machine.execReleaseRes id s
  | .elementwise id => Sys2Proof.Machine.execElementwise id s
  | .epilogue id => Sys2Proof.Machine.execEpilogue id s
  | .softmax id => Sys2Proof.Machine.execSoftmax id s
  | .layernorm id => Sys2Proof.Machine.execLayernorm id s
  | .rmsnorm id => Sys2Proof.Machine.execRmsnorm id s
  | .gate id => Sys2Proof.Machine.execGate id s
  | .ceLibDataRead sec n => Sys2Proof.Machine.execCeLibDataRead sec n s
  | .attend id => Sys2Proof.Machine.execAttend id s
  | .poolGive id => Sys2Proof.Machine.execPoolGive id s
  | .poolReclaim id => Sys2Proof.Machine.execPoolReclaim id s
  | .chainFree id => Sys2Proof.Machine.execChainFree id s
  | .prefixMatch id => Sys2Proof.Machine.execPrefixMatch id s
  | .prefixPublish id => Sys2Proof.Machine.execPrefixPublish id s
  | .prefixDrop id => Sys2Proof.Machine.execPrefixDrop id s
  | .scan id => Sys2Proof.Machine.execScan id s
  | .moverMove id => Sys2Proof.Machine.execMoverMove id s
  | .gather id => Sys2Proof.Machine.execGather id s
  | .scatter id => Sys2Proof.Machine.execScatter id s
  | .window id => Sys2Proof.Machine.execWindow id s
  | .tiles id => Sys2Proof.Machine.execTiles id s
  | .create id => Sys2Proof.Machine.execCreate id s
  | .tierMove id => Sys2Proof.Machine.execTierMove id s
  | .tierMoveDone idx uncorrectable rep => Sys2Proof.Machine.execTierMoveDone idx uncorrectable rep s
  | .free id => Sys2Proof.Machine.execFree id s
  | .freeRelease id => Sys2Proof.Machine.execFreeRelease id s
  | .intake id => Sys2Proof.Machine.execIntake id s
  | .intakeBuildDone id => Sys2Proof.Machine.execIntakeBuildDone id s
  | .intakeCommit id rep => Sys2Proof.Machine.execIntakeCommit id s rep
  | .query id => Sys2Proof.Machine.execQuery id s
  | .swap id => Sys2Proof.Machine.execSwap id s
  | .scrub id rep => Sys2Proof.Machine.execScrub id s rep
  | .digestScrubPass idx rep => Sys2Proof.Machine.execDigestScrubPass idx s rep
  | .scheduleEnable t => Sys2Proof.Machine.execScheduleEnable t s
  | .scheduleResume t => Sys2Proof.Machine.execScheduleResume t s
  | .scheduleDisable t => Sys2Proof.Machine.execScheduleDisable t s
  | .scheduleEntryRelease t => Sys2Proof.Machine.execScheduleEntryRelease t s
  | .hbmRequest r => Sys2Proof.Machine.execHbmRequest r s
  | .hbmCommandIssue pc ecc onDie lane parity => Sys2Proof.Machine.execHbmCommandIssue pc ecc onDie lane s parity
  | .perBankRefresh pc sid bank => Sys2Proof.Machine.execPerBankRefresh pc sid bank s
  | .trrWindowEnd fc => Sys2Proof.Machine.execTrrWindowEnd fc s
  | .hbmTraining temps sweeps => Sys2Proof.Machine.execHbmTraining temps sweeps s
  | .hbmFillComplete => Sys2Proof.Machine.execHbmFillComplete s
  | .fcRetrain sec fc v => Sys2Proof.Machine.execFcRetrain sec fc v s
  | .autoRetrain fc temp => Sys2Proof.Machine.execAutoRetrain fc temp s
  | .retrainWindow fc => Sys2Proof.Machine.execRetrainWindow fc s
  | .retrainComplete fc sweeps => Sys2Proof.Machine.execRetrainComplete fc sweeps s
  | .hbmPatrolScrub fc found => Sys2Proof.Machine.execHbmPatrolScrub fc found s
  | .xmapWrite sec j v => Sys2Proof.Machine.execXmapWrite sec j v s
  | .nandChannelTraining ch ok trn temp => Sys2Proof.Machine.execNandChannelTraining ch ok trn temp s
  | .nandBackgroundErase ch sb ok => Sys2Proof.Machine.execNandBackgroundErase ch sb ok s
  | .nandDqRetrain ch trn temp => Sys2Proof.Machine.execNandDqRetrain ch trn temp s
  | .wearLevelRelocation rep => Sys2Proof.Machine.execWearLevelRelocation s rep
  | .readDisturbCopy ch sb blk rep => Sys2Proof.Machine.execReadDisturbCopy ch sb s blk rep
  | .programLine writes => Sys2Proof.Machine.execProgramLine writes s
  | .eraseBlock writes => Sys2Proof.Machine.execEraseBlock writes s
  | .plinthSuspend addr => Sys2Proof.Machine.execPlinthSuspend addr s
  | .plinthResume addr => Sys2Proof.Machine.execPlinthResume addr s
  | .clearErrors addr => Sys2Proof.Machine.execClearErrors addr s
  | .resetToRead addr => Sys2Proof.Machine.execResetToRead addr s
  | .plinthSuspendDone bank => Sys2Proof.Machine.execPlinthSuspendDone bank s
  | .plinthProgramDone bank ok => Sys2Proof.Machine.execPlinthProgramDone bank ok s
  | .plinthEraseDone bank ok => Sys2Proof.Machine.execPlinthEraseDone bank ok s
  | .plinthDataRead addr => Sys2Proof.Machine.execPlinthDataRead addr s
  | .quoinBoot => Sys2Proof.Machine.execQuoinBoot s
  | .quoinFetch addr => Sys2Proof.Machine.execQuoinFetch addr s
  | .autoSuspendResume bank => Sys2Proof.Machine.execAutoSuspendResume bank s
  | .portEnable sec p v => Sys2Proof.Machine.execPortEnable sec p v s
  | .linkUp p => Sys2Proof.Machine.execLinkUp p s
  | .chipIdWrite sec v => Sys2Proof.Machine.execChipIdWrite sec v s
  | .macPfxWrite sec v => Sys2Proof.Machine.execMacPfxWrite sec v s
  | .requestFrameReceive p frame => Sys2Proof.Machine.execRequestFrameReceive p frame s
  | .frameApply p => Sys2Proof.Machine.execFrameApply p s
  | .pfcRepeat p k => Sys2Proof.Machine.execPfcRepeat p k s
  | .responseFrameReceive p frame => Sys2Proof.Machine.execResponseFrameReceive p frame s
  | .ackReceive p frame => Sys2Proof.Machine.execAckReceive p frame s
  | .nakReceive p frame => Sys2Proof.Machine.execNakReceive p frame s
  | .resyncReceive p frame => Sys2Proof.Machine.execResyncReceive p frame s
  | .resyncAckReceive p frame => Sys2Proof.Machine.execResyncAckReceive p frame s
  | .foreignFrameReceive p frame => Sys2Proof.Machine.execForeignFrameReceive p frame s
  | .pfcFrameReceive p frame => Sys2Proof.Machine.execPfcFrameReceive p frame s
  | .pauseExpiry p k => Sys2Proof.Machine.execPauseExpiry p k s
  | .ackTimeout p k peer => Sys2Proof.Machine.execAckTimeout p k peer s
  | .resyncRetry p k peer => Sys2Proof.Machine.execResyncRetry p k peer s
  | .resyncWaitTimeout opid => Sys2Proof.Machine.execResyncWaitTimeout opid s
  | .responseTimeout opid => Sys2Proof.Machine.execResponseTimeout opid s
  | .refclkFLoss n => Sys2Proof.Machine.execRefclkFLoss n s
  | .refclkFRestore n => Sys2Proof.Machine.execRefclkFRestore n s
  | .configRequest fn wr off v => Sys2Proof.Machine.execConfigRequest fn wr off v s
  | .bar2Read fn off len => Sys2Proof.Machine.execBar2Read fn off len s
  | .bar2Write fn off data => Sys2Proof.Machine.execBar2Write fn off data s
  | .perstNRelease => Sys2Proof.Machine.execPerstNRelease s
  | .perstNAssert => Sys2Proof.Machine.execPerstNAssert s
  | .firmwareReady => Sys2Proof.Machine.execFirmwareReady s
  | .fwLoad => Sys2Proof.Machine.execFwLoad s
  | .fwUpdate => Sys2Proof.Machine.execFwUpdate s
  | .fwVerifyDone => Sys2Proof.Machine.execFwVerifyDone s
  | .meleopinStart => Sys2Proof.Machine.execMeleopinStart s
  | .fwActivate => Sys2Proof.Machine.execFwActivate s
  | .fwUpdateTimeout => Sys2Proof.Machine.execFwUpdateTimeout s
  | .fwDeferEnd => Sys2Proof.Machine.execFwDeferEnd s
  | .fwDeferTimeout => Sys2Proof.Machine.execFwDeferTimeout s
  | .fwAdopt => Sys2Proof.Machine.execFwAdopt s
  | .fwReset => Sys2Proof.Machine.execFwReset s
  | .heartbeat => Sys2Proof.Machine.execHeartbeat s
  | .heartbeatIntervalEnd => Sys2Proof.Machine.execHeartbeatIntervalEnd s
  | .hostAbsentTroughTimeout => Sys2Proof.Machine.execHostAbsentTroughTimeout s
  | .hotReset => Sys2Proof.Machine.execHotReset s
  | .pfFlr => Sys2Proof.Machine.execPfFlr s
  | .vfFlr t => Sys2Proof.Machine.execVfFlr t s
  | .vfFlrTimeout t => Sys2Proof.Machine.execVfFlrTimeout t s
  | .mctpMessage pkt => Sys2Proof.Machine.execMctpMessage pkt s
  | .mctpControlMessage pkt => Sys2Proof.Machine.execMctpControlMessage pkt s
  | .mailboxGo sec v => Sys2Proof.Machine.execMailboxGo sec v s
  | .tenantCreate => Sys2Proof.Machine.execTenantCreate s
  | .tenantRemove => Sys2Proof.Machine.execTenantRemove s
  | .tenantDrainDone t => Sys2Proof.Machine.execTenantDrainDone t s
  | .tenantDrainTimeout t => Sys2Proof.Machine.execTenantDrainTimeout t s
  | .tenantScrubDone t => Sys2Proof.Machine.execTenantScrubDone t s
  | .tenantStatus => Sys2Proof.Machine.execTenantStatus s
  | .fabricSetup => Sys2Proof.Machine.execFabricSetup s
  | .plinthRead => Sys2Proof.Machine.execPlinthRead s
  | .imageUpdateBegin => Sys2Proof.Machine.execImageUpdateBegin s
  | .imageUpdateData => Sys2Proof.Machine.execImageUpdateData s
  | .imageUpdateEnd => Sys2Proof.Machine.execImageUpdateEnd s
  | .imageUpdateAbort => Sys2Proof.Machine.execImageUpdateAbort s
  | .imageUpdateSessionTimeout => Sys2Proof.Machine.execImageUpdateSessionTimeout s
  | .svnRaise => Sys2Proof.Machine.execSvnRaise s
  | .debugChallenge => Sys2Proof.Machine.execDebugChallenge s
  | .debugResponse => Sys2Proof.Machine.execDebugResponse s
  | .regionEntryWrite sec tier j v => Sys2Proof.Machine.execRegionEntryWrite sec tier j v s
  | .counterSnapshot => Sys2Proof.Machine.execCounterSnapshot s
  | .capSet => Sys2Proof.Machine.execCapSet s
  | .capGet => Sys2Proof.Machine.execCapGet s
  | .energyRead => Sys2Proof.Machine.execEnergyRead s
  | .voltageRead => Sys2Proof.Machine.execVoltageRead s
  | .thermalRead => Sys2Proof.Machine.execThermalRead s
  | .throttleRead => Sys2Proof.Machine.execThrottleRead s
  | .fsetWrite sec k v => Sys2Proof.Machine.execFsetWrite sec k v s
  | .rampStep k => Sys2Proof.Machine.execRampStep k s
  | .droopTrip k => Sys2Proof.Machine.execDroopTrip k s
  | .droopClear k => Sys2Proof.Machine.execDroopClear k s
  | .voltageTargetChange => Sys2Proof.Machine.execVoltageTargetChange s
  | .domainSwitch sec d v => Sys2Proof.Machine.execDomainSwitch sec d v s
  | .domainPowerUpDone d => Sys2Proof.Machine.execDomainPowerUpDone d s
  | .powerSample currents aonMilliwatt stacksMilliwatt sensed => Sys2Proof.Machine.execPowerSample currents aonMilliwatt stacksMilliwatt sensed s
  | .estCorrUpdate measured estimated => Sys2Proof.Machine.execEstCorrUpdate measured estimated s
  | .capLoopInterval pdem pb => Sys2Proof.Machine.execCapLoopInterval pdem pb s
  | .bubbleShareApply => Sys2Proof.Machine.execBubbleShareApply s
  | .junctionSample readings => Sys2Proof.Machine.execJunctionSample readings s
  | .thermalCapUpdate => Sys2Proof.Machine.execThermalCapUpdate s
  | .coolFlowOkLow => Sys2Proof.Machine.execCoolFlowOkLow s
  | .coolantStop => Sys2Proof.Machine.execCoolantStop s
  | .cattrip stack => Sys2Proof.Machine.execCattrip stack s
  | .stopPowerOff => Sys2Proof.Machine.execStopPowerOff s
  | .errorWindowEnd b j => Sys2Proof.Machine.execErrorWindowEnd b j s
  | .unitUncorrectableError b j reader => Sys2Proof.Machine.execUnitUncorrectableError b j reader s
  | .retireRequest sec u c => Sys2Proof.Machine.execRetireRequest sec u c s
  | .substitutionIdle b j => Sys2Proof.Machine.execSubstitutionIdle b j s
  | .substitutionComplete b j => Sys2Proof.Machine.execSubstitutionComplete b j s
  | .blockEnable sec b j on => Sys2Proof.Machine.execBlockEnable sec b j on s
  | .blockDrain sec b j on => Sys2Proof.Machine.execBlockDrain sec b j on s
  | .blockReset sec b j => Sys2Proof.Machine.execBlockReset sec b j s
  | .blockResetDone b j => Sys2Proof.Machine.execBlockResetDone b j s
  | .blockIdle b j => Sys2Proof.Machine.execBlockIdle b j s
  | .blockWorldWrite sec b j v => Sys2Proof.Machine.execBlockWorldWrite sec b j v s
  | .markWrite sec v => Sys2Proof.Machine.execMarkWrite sec v s
  | .markWindowWrite sec t v => Sys2Proof.Machine.execMarkWindowWrite sec t v s
  | .railOutOfRange => Sys2Proof.Machine.execRailOutOfRange s
  | .refclkPcieLoss => Sys2Proof.Machine.execRefclkPcieLoss s
  | .smbusClockLowTimeout => Sys2Proof.Machine.execSmbusClockLowTimeout s
  | .jtagTapReset => Sys2Proof.Machine.execJtagTapReset s
  | .jtagIdcode => Sys2Proof.Machine.execJtagIdcode s
  | .jtagBypass ir tdi => Sys2Proof.Machine.execJtagBypass ir tdi s
  | .jtagSamplePreload tdi => Sys2Proof.Machine.execJtagSamplePreload tdi s
  | .jtagExtest tdi => Sys2Proof.Machine.execJtagExtest tdi s
  | .registerRead sec addr size => Sys2Proof.Machine.execRegisterRead sec addr size s
  | .linkDown p => Sys2Proof.Machine.execLinkDown p s
  | .coolFlowOkHigh => Sys2Proof.Machine.execCoolFlowOkHigh s
  | .hbmStackHot fc temp => Sys2Proof.Machine.execHbmStackHot fc temp s
  | .pcieLinkUp gts lanes => Sys2Proof.Machine.execPcieLinkUp gts lanes s
  | .configSpaceReady => Sys2Proof.Machine.execConfigSpaceReady s

end Sys2Proof.Machine
end

