-- ==== Sys2Proof/Machine/Balls.lean ====
section
/-! DEFINITION. The ball map of the package: which signal, rail or ground each of the 5,476 balls carries (R443, R445 to R449).
Rows and columns are numbered from 1, as the patterns of the spec number them. -/

namespace Sys2Proof.Machine

/-- The regions of Table 19.2. -/
inductive Region | m | t | e | b | l | p | c
  deriving DecidableEq, Repr

/-- The rails of Tables 19.4 and 19.5. -/
inductive Rail | vsrd | vsrh | vhbmq | vhbm | vnand | vnandq | vpp | vcore | vaon | vio
  deriving DecidableEq, Repr

/-- The single signals of region M (Table 19.4). -/
inductive MgmtPin
  | perstN | coolFlowOk | thermTripN | smbClk | smbDat | testEn | vcoreSnsP | vcoreSnsN | tck | tms | tdi | tdo | trstN
  deriving DecidableEq, Repr

/-- What a ball carries: `tx` tells the transmit from the receive pair, `pos` _P from _N. -/
inductive Ball
  | ground
  | unconnected
  | rail (r : Rail)
  | mgmt (p : MgmtPin)
  | fabric (port lane : Nat) (tx pos : Bool)
  | fabricClock (band : Nat) (pos : Bool)
  | pcie (lane : Nat) (tx pos : Bool)
  | pcieClock (pos : Bool)
  deriving DecidableEq, Repr

/-- The letters that name rows. -/
def rowLetters : List Char := "ABCDEFGHJKLMNPTUVWY".toList

/-- The name of row `r`: 19 single letters, then series of the same letters behind A, B and C. -/
def rowName (r : Nat) : List Char :=
  let letter (n : Nat) : List Char := (rowLetters.drop n).take 1
  if r ≤ 19 then letter (r - 1) else letter ((r - 1) / 19 - 1) ++ letter ((r - 1) % 19)

/-- The region of a ball (Table 19.2, R445). -/
def ballRegion (r c : Nat) : Region :=
  if r ≤ 4 then (if c ≤ 12 then .m else .t)
  else if 71 ≤ c then .e
  else if 71 ≤ r then .b
  else if c ≤ 4 then .l
  else if c ≤ 8 then .p
  else .c

/-- A ball of fabric band `k` on line `line` (0 the outermost) at position `pos` along the edge; the spans of its two ports
begin at 13 and 47, its reference clock stands at 37 and 38 of the transmit line (R446, Table 19.3). -/
def bandBall (k line pos : Nat) : Ball :=
  let lane (port b : Nat) : Ball :=
    let d := pos - b - 1
    if d % 4 = 0 then .fabric port (d / 4) (decide (line = 1)) true
    else if d % 4 = 1 then .fabric port (d / 4) (decide (line = 1)) false
    else .ground
  if line = 0 ∨ line = 2 then .ground
  else if 14 ≤ pos ∧ pos ≤ 28 then lane (2 * k) 13
  else if 48 ≤ pos ∧ pos ≤ 62 then lane (2 * k + 1) 47
  else if line = 1 ∧ pos = 37 then .fabricClock k true
  else if line = 1 ∧ pos = 38 then .fabricClock k false
  else .ground

/-- A ball of region P (R447). -/
def pcieBall (r c : Nat) : Ball :=
  if c = 6 ∧ r = 69 then .pcieClock true
  else if c = 6 ∧ r = 70 then .pcieClock false
  else if (c = 6 ∨ c = 8) ∧ 6 ≤ r ∧ (r - 6) / 4 < 16 then
    (if (r - 6) % 4 = 0 then .pcie ((r - 6) / 4) (decide (c = 6)) true
     else if (r - 6) % 4 = 1 then .pcie ((r - 6) / 4) (decide (c = 6)) false
     else .ground)
  else .ground

/-- A ball of region M (R448, Table 19.4). -/
def mgmtBall (r c : Nat) : Ball :=
  match r, c with
  | 2, 1 => .mgmt .perstN | 2, 3 => .mgmt .coolFlowOk | 2, 5 => .mgmt .thermTripN
  | 2, 7 => .mgmt .smbClk | 2, 9 => .mgmt .smbDat | 2, 11 => .mgmt .testEn
  | 3, 1 => .mgmt .vcoreSnsP | 3, 3 => .mgmt .vcoreSnsN
  | 3, 5 => .rail .vio | 3, 7 => .rail .vio | 3, 9 => .rail .vio | 3, 11 => .rail .vio
  | 4, 1 => .mgmt .tck | 4, 3 => .mgmt .tms | 4, 5 => .mgmt .tdi | 4, 7 => .mgmt .tdo | 4, 9 => .mgmt .trstN
  | 4, 11 => .unconnected
  | _, _ => .ground

/-- The rail of ring `d` of region C (Table 19.5). -/
def ringRail (d : Nat) : Rail :=
  if d = 0 then .vsrd else if d = 1 then .vsrh else if d = 2 then .vhbmq else if d ≤ 4 then .vhbm
  else if d = 5 then .vnand else if d = 6 then .vnandq else if d = 7 then .vpp else .vcore

/-- A ball of region C (R449). -/
def coreBall (r c : Nat) : Ball :=
  if (r + c) % 2 = 1 then .ground
  else if 36 ≤ r ∧ r ≤ 39 ∧ 38 ≤ c ∧ c ≤ 41 then .rail .vaon
  else .rail (ringRail (min (min (r - 5) (70 - r)) (min (c - 9) (70 - c))))

/-- What the ball at row `r` and column `c` carries. -/
def ballAt (r c : Nat) : Ball :=
  match ballRegion r c with
  | .m => mgmtBall r c
  | .t => bandBall 0 (r - 1) c
  | .e => bandBall 1 (74 - c) r
  | .b => bandBall 2 (74 - r) c
  | .l => bandBall 3 (c - 1) r
  | .p => pcieBall r c
  | .c => coreBall r c

/-- How many balls of the array carry what `p` admits. -/
def ballCount (p : Ball → Bool) : Nat :=
  (List.range 5476).countP fun n => p (ballAt (n / 74 + 1) (n % 74 + 1))

/-- How many balls of the array lie in a region. -/
def regionCount (g : Region) : Nat :=
  (List.range 5476).countP fun n => decide (ballRegion (n / 74 + 1) (n % 74 + 1) = g)

/-- A ball that carries a signal. -/
def Ball.isSignal : Ball → Bool
  | .mgmt _ => true
  | .fabric _ _ _ _ => true
  | .fabricClock _ _ => true
  | .pcie _ _ _ => true
  | .pcieClock _ => true
  | .ground => false
  | .unconnected => false
  | .rail _ => false

/-- A ball that carries a rail. -/
def Ball.isRail : Ball → Bool
  | .rail _ => true
  | .ground => false
  | .unconnected => false
  | .mgmt _ => false
  | .fabric _ _ _ _ => false
  | .fabricClock _ _ => false
  | .pcie _ _ _ => false
  | .pcieClock _ => false

end Sys2Proof.Machine
end

