-- ==== Sys2Proof/WellFormed.lean ====
section
/-! DEFINITION. Which commands the block's surroundings can send: operands whose range their type does not give
(an instance of a class, a line's bytes, a lane of a channel, an offset of a tier). -/

namespace Sys2Proof

/-- The index names a built instance of its class (Table 1.1, Table 18.3). -/
def blkInstance (b : Blk) (i : Nat) : Bool := decide (i < (Machine.placeOf b).count)

/-- A Bed request names a requester of R81, a line of the mapped Bed, and bytes inside that line. -/
def BedReq.wf (r : BedReq) : Bool :=
  (decide (r.port ≤ 105) || decide (r.port = 113)) && decide (r.off < 0xC000000) && decide (r.off % 64 = 0)
    && match r.wr with
       | none => true
       | some (o, bs) => decide (o + bs.length ≤ 64)

/-- An HBM request names an offset of the tier (R279) and, for a write, bytes that stay inside its line. -/
def HbmReq.wf (r : HbmReq) : Bool :=
  decide (r.off < 0x4800000000)
    && match r.wr with
       | none => true
       | some bs => decide (r.off % 64 + bs.length ≤ 64)

/-- A sweep of one of a channel's nine byte lanes with eight exclusions (R289, R290). -/
def Sweep.wf (w : Sweep) : Bool := decide (w.lane ≤ 8) && decide (w.bits.length = 8)

/-- A counted unit that exists. -/
def RetireUnit.wf : RetireUnit → Bool
  | .block b i => blkInstance b i
  | .bank _ => true
  | .lane _ _ _ _ => true
  | .grout _ _ => true

/-- Whether a command is one the surroundings can send. -/
def Instr.wf : Instr → Bool
  | .descriptorRelease _ _ u => decide (u < 34) || decide (u = 0xFF)
  | .bedRequest _ reqs => reqs.all BedReq.wf
  | .hbmRequest r => r.wf
  | .hbmTraining temps sweeps => decide (temps.length = 8) && sweeps.all fun (_, _, w) => w.wf
  | .retrainComplete _ sweeps => decide (sweeps.length = 9) && sweeps.all Sweep.wf
  | .junctionSample readings => decide (readings.length = 64)
  | .errorWindowEnd b i => blkInstance b i
  | .unitUncorrectableError b i _ => blkInstance b i
  | .retireRequest _ u _ => u.wf
  | .substitutionIdle b i => blkInstance b i
  | .substitutionComplete b i => blkInstance b i
  | .blockEnable _ b i _ => blkInstance b i
  | .blockDrain _ b i _ => blkInstance b i
  | .blockReset _ b i => blkInstance b i
  | .blockResetDone b i => blkInstance b i
  | .blockIdle b i => blkInstance b i
  | .blockWorldWrite _ b i _ => blkInstance b i
  | .pcieLinkUp gts lanes => [640, 320, 160, 80, 50, 25].contains gts && [16, 8, 4, 1].contains lanes
  | .bar2Write _ _ data => decide (data.length ≤ 512)
  | _ => true

end Sys2Proof
end

