-- ==== Sys2Proof/Safety.lean ====
section
/-! DEFINITION. What counts as a safe run, in the terms the claims use: memories, registers and marks in canonical form,
behaviour that the spec defines, and a part that is out of reset. -/

namespace Sys2Proof.Machine

/-- Canonical form of the memories, the register file and the Mark file: what each holds has one representation. -/
def canonParts (bed hbm nandBytes plArray : List Host.Cell) (regs marks : SMap DWord) : Bool :=
  Memory.wf zeroByte bed && Memory.wf zeroByte hbm && Memory.wf zeroByte nandBytes && Memory.wf erasedByte plArray
    && smapWf resetOf regs && smapWf (fun _ => (0 : DWord)) marks

/-- Every memory, the register file and the Mark file of a state are in canonical form. -/
def State.canon (s : State) : Bool := canonParts s.bed s.hbm s.nandBytes s.plArray s.regs s.marks

/-- What no command but the few that say so may disturb: canonical form, the queue of waiting commands (here `p`), and whether
the behaviour is undefined (here `u`), given the parts of a state. -/
def keptParts (p : List Instr) (u : Bool) (pending : List Instr) (undef : Bool) (bed hbm nandBytes plArray : List Host.Cell)
    (regs marks : SMap DWord) : Bool :=
  decide (pending = p) && decide (undef = u) && canonParts bed hbm nandBytes plArray regs marks

/-- The same of a state. -/
def State.kept (s : State) (p : List Instr) (u : Bool) : Bool :=
  keptParts p u s.pending s.undef s.bed s.hbm s.nandBytes s.plArray s.regs s.marks

/-- The part is out of reset and its behaviour is defined (R18, R451, R455, R457). -/
def State.up (s : State) : Bool := s.pins.perstN && !s.undef

/-- The spec gives every step from a state an effect. -/
def State.safe (s : State) : Bool := !s.undef || decide (s.pending.head? = some .perstNAssert) || s.pending.isEmpty

/-- A step stops. -/
def stops (s : State) : Bool :=
  match step s with
  | .next _ => false
  | .fault _ => true
  | .refused _ => true

end Sys2Proof.Machine
end

