-- ==== Sys2Proof/Certificates/Slice0/Obligations.lean ====
section
/-! DEFINITION. What is claimed of the model, for the provers: one proposition each, named for what it states. -/

open Sys2Proof Sys2Proof.Machine

/-- A step is exec of the command in front, on the state with the rest of the queue; an empty queue idles (assumption 1). -/
def Obligations.StepRunsFrontCommand : Prop :=
  (∀ (c : Instr) (rest : List Instr) (s : State), step { s with pending := c :: rest } = exec c { s with pending := rest })
    ∧ ∀ s : State, s.pending = [] → step s = .next { s with timeNs := s.timeNs + 1 }

/-- The one stop of the model is undefined behaviour (R18, R451, R455), which the assertion of PERST_N ends. -/
def Obligations.OnlyUndefinedBehaviourStops : Prop :=
  ∀ (c : Instr) (s : State),
    (∃ t, exec c s = .next t) ∧ (s.undef = false ∨ c = .perstNAssert)
      ∨ exec c s = .fault .behaviourUndefined ∧ s.undef = true ∧ c ≠ .perstNAssert

/-- Undefined behaviour begins at RAIL_OUT_OF_RANGE (or REFCLK_PCIE_LOSS) and ends at PERST_N (R455). -/
def Obligations.RailOutOfRangeUntilPerst : Prop :=
  (∀ s : State, s.up = true → exec .railOutOfRange s = .next { s with undef := true })
    ∧ (∀ (c : Instr) (s : State), s.undef = true → c ≠ .perstNAssert → exec c s = .fault .behaviourUndefined)
    ∧ (∀ s : State, s.pins.perstN = true → ∃ t, exec .perstNAssert s = .next t ∧ t.undef = false ∧ t.pins.perstN = false)
    ∧ ∀ (c : Instr) (s t : State), s.canon = true → exec c s = .next t → s.undef = false → t.undef = true →
        (c = .railOutOfRange ∨ c = .refclkPcieLoss) ∧ s.pins.perstN = true

/-- Canonical form is kept by every step of every command. -/
def Obligations.StepKeepsCanonicalForm : Prop :=
  ∀ s t : State, s.canon = true → step s = .next t → t.canon = true

/-- The invariant of StepKeepsCanonicalForm holds at reset, where registers read their reset values and marks read 0. -/
def Obligations.ResetIsCanonical : Prop :=
  State.reset.canon = true ∧ State.reset.pins.perstN = false ∧ State.reset.undef = false ∧ State.reset.pending = []
    ∧ State.reset.flights = [] ∧ (∀ a, State.reset.reg a = resetOf a) ∧ ∀ n, State.reset.mark n = 0

/-- The queue of commands is first in, first out: no command touches what waits behind it. -/
def Obligations.QueueIsFirstInFirstOut : Prop :=
  ∀ s t : State, s.canon = true → step s = .next t → t.pending = s.pending.tail

/-- Held in reset, the part does nothing (Table 19.9; assumption 2). -/
def Obligations.QuietWhileHeldInReset : Prop :=
  ∀ (c : Instr) (s : State), s.undef = false → s.pins.perstN = false →
    (match c with
     | .perstNRelease => True
     | .coolFlowOkLow => True
     | .coolFlowOkHigh => True
     | .refclkFLoss _ => True
     | .refclkFRestore _ => True
     | .jtagTapReset => True
     | .jtagIdcode => True
     | .jtagBypass _ _ => True
     | .jtagSamplePreload _ => True
     | .jtagExtest _ => True
     | c => exec c s = .next s)

/-- PERST_N_ASSERT (R9, R315, R457): everything at reset, but what has its own power or no reset. PERST_N_RELEASE: the Plinth is
scanned (R315) and the filter of R458 runs. -/
def Obligations.PerstResetsAndScans : Prop :=
  (∀ s : State,
    (s.pins.perstN = false → exec .perstNAssert s = .next s)
    ∧ (s.pins.perstN = true → ∃ t, exec .perstNAssert s = .next t
        ∧ t = { State.reset with
                  pending := s.pending, free := t.free, nextKey := s.nextKey, jtag := s.jtag
                  pins := { s.pins with perstN := false, thermTrip := false, smbReleased := true }
                  plArray := t.plArray, plEc := s.plEc, plMark := s.plMark, nandSb := s.nandSb.map Superblock.lost }
        ∧ (s.canon = true → ∀ a : Nat,
            (∀ k ∈ [s.plBank0, s.plBank1], ∀ o ∈ k.op.toList ++ k.held.toList,
              if o.erase then a / plBlock ≠ o.block else a / 32 ≠ o.line) →
            memByte erasedByte t.plArray a = memByte erasedByte s.plArray a)))
  ∧ ∀ s : State, s.undef = false →
    (s.pins.perstN = true → exec .perstNRelease s = .next s)
    ∧ (s.pins.perstN = false → s.canon = true → (∀ e ∈ s.plMark, e.1 < 512) → ∃ t, exec .perstNRelease s = .next t
        ∧ t.pins = { s.pins with perstN := true, smbReleased := false }
        ∧ t.pw = { s.pw with coolArmed := !s.pins.coolFlowOk }
        ∧ { t with pins := s.pins, pw := s.pw, regs := s.regs } = s
        ∧ (∀ e ∈ s.plMark, t.plIndet e.1 = true)
        ∧ ∀ a : Nat, (∀ w < 16, a ≠ PL_INDET w) → a ≠ PL_STATUS → t.reg a = s.reg a)

/-- The commands of the JTAG port (R461): each changes the port alone. -/
def Obligations.JtagPortCommands : Prop :=
  ∀ s : State, s.undef = false →
    exec .jtagTapReset s = .next { s with jtag := { s.jtag with ir := 1, driven := false } }
    ∧ exec .jtagIdcode s = .next { s with jtag := { s.jtag with ir := 1, tdo := 0x1C007A69, driven := false } }
    ∧ (∀ (ir : BitVec 4) (tdi : Bool), ir ≠ 0 → ir ≠ 1 → ir ≠ 2 → ir = 15 ∨ s.field QN_STATUS 1 0 = 0 →
        exec (.jtagBypass ir tdi) s = .next { s with jtag := { s.jtag with ir := ir, tdo := if tdi then 2 else 0, driven := false } })
    ∧ (∀ tdi : BitVec 11, ∃ t, exec (.jtagSamplePreload tdi) s = .next t ∧ t.jtag.ir = 2 ∧ t.jtag.bsr = tdi ∧ t.jtag.driven = false
        ∧ t.jtag.tdo.getLsbD 10 = s.pins.perstN ∧ t.jtag.tdo.getLsbD 9 = s.pins.coolFlowOk
        ∧ t.jtag.tdo.getLsbD 8 = !s.pins.thermTrip ∧ { t with jtag := s.jtag, free := s.free } = s)
    ∧ (∀ tdi : BitVec 11, ∃ t, exec (.jtagExtest tdi) s = .next t ∧ t.jtag.ir = 0 ∧ t.jtag.bsr = tdi ∧ t.jtag.driven = true
        ∧ t.jtag.tdo.getLsbD 10 = s.pins.perstN ∧ t.jtag.tdo.getLsbD 9 = s.pins.coolFlowOk
        ∧ t.jtag.tdo.getLsbD 8 = !s.pins.thermTrip ∧ { t with jtag := s.jtag, free := s.free } = s)

/-- The package's links (R350, R361, R451, R460). -/
def Obligations.PackageLinks : Prop :=
  ∀ s : State, s.up = true →
    (∀ gts lanes : Nat, s.pcie.linkUp = false → gts ∈ [640, 320, 160, 80, 50, 25] → lanes ∈ [16, 8, 4, 1] →
      exec (.pcieLinkUp gts lanes) s = .next { s with pcie := { s.pcie with linkUp := true, gts := gts, lanes := lanes } })
    ∧ (∀ gts lanes : Nat, s.pcie.linkUp = true ∨ gts ∉ [640, 320, 160, 80, 50, 25] ∨ lanes ∉ [16, 8, 4, 1] →
      exec (.pcieLinkUp gts lanes) s = .next s)
    ∧ exec .configSpaceReady s = .next { s with pcie := { s.pcie with cfgReady := true } }
    ∧ exec .smbusClockLowTimeout s = .next { s with pins := { s.pins with smbReleased := true } }
    ∧ exec .refclkPcieLoss s = .next { s with undef := true }

/-- The regions of the ball array (Table 19.2, R445). -/
def Obligations.BallRegions : Prop :=
  [Region.m, .t, .e, .b, .l, .p, .c].map regionCount = [48, 248, 280, 280, 264, 264, 4092]
    ∧ ∀ r c : Nat, 1 ≤ r → r ≤ 74 → 1 ≤ c → c ≤ 74 →
        (ballRegion r c = .m ↔ r ≤ 4 ∧ c ≤ 12) ∧ (ballRegion r c = .t ↔ r ≤ 4 ∧ 13 ≤ c)
        ∧ (ballRegion r c = .e ↔ 5 ≤ r ∧ 71 ≤ c) ∧ (ballRegion r c = .b ↔ 71 ≤ r ∧ c ≤ 70)
        ∧ (ballRegion r c = .l ↔ 5 ≤ r ∧ r ≤ 70 ∧ c ≤ 4) ∧ (ballRegion r c = .p ↔ 5 ≤ r ∧ r ≤ 70 ∧ 5 ≤ c ∧ c ≤ 8)
        ∧ (ballRegion r c = .c ↔ 5 ≤ r ∧ r ≤ 70 ∧ 9 ≤ c ∧ c ≤ 70)

/-- What the balls carry (R446 to R449), counted, and Example 19.1. -/
def Obligations.BallMap : Prop :=
  (ballCount Ball.isSignal, ballCount (· == .unconnected), ballCount Ball.isRail, ballCount (· == .ground)) = (215, 1, 2050, 3210)
    ∧ ([Rail.vsrd, .vsrh, .vhbmq, .vhbm, .vnand, .vnandq, .vpp, .vcore, .vaon].map fun r => ballCount (· == .rail r))
        = [126, 122, 118, 224, 106, 102, 98, 1142, 8]
    ∧ rowName 56 = ['B', 'W'] ∧ ballAt 56 71 = .fabric 3 2 false true
    ∧ rowName 57 = ['B', 'Y'] ∧ ballAt 57 71 = .fabric 3 2 false false
    ∧ ballAt 55 71 = .ground ∧ ballAt 58 71 = .ground ∧ ∀ r : Nat, 5 ≤ r → r ≤ 74 → ballAt r 72 = .ground

/-- Accesses of another size or alignment (R8). -/
def Obligations.OddAccessesDiscarded : Prop :=
  ∀ (s : State) (sec : Bool) (addr : BitVec 26) (size : Nat) (v : DWord), s.up = true →
    ¬ ((size = 4 ∨ size = 8) ∧ addr.toNat % size = 0) →
    exec (.registerWrite sec addr size v) s = .next s
      ∧ exec (.registerRead sec addr size) s = .next { s with pcie := { s.pcie with rdData := 0 } }

/-- Closed and undefined registers (R12, R432). -/
def Obligations.ClosedRegistersKeepOut : Prop :=
  ∀ (s : State) (addr : BitVec 26) (v : DWord), s.up = true → addr.toNat % 4 = 0 →
    (∀ b i p r k, pageOf addr.toNat = some (b, i, p) → b ≠ .dev → b ≠ .cmd → 0x40 ≤ addr.toNat % 0x1000 →
        rowAt b i p (addr.toNat % 0x1000) = some (r, k, 0) → r.sec = .secure →
        exec (.registerWrite false addr 4 v) s = .next s.devErr
        ∧ exec (.registerRead false addr 4) s = .next { s.devErr with pcie := { s.pcie with rdData := 0 } })
    ∧ (∀ sec : Bool, pageOf addr.toNat = none →
        exec (.registerWrite sec addr 4 v) s = .next s.devErr
        ∧ exec (.registerRead sec addr 4) s = .next { s.devErr with pcie := { s.pcie with rdData := 0 } })
    ∧ (∀ b i p, pageOf addr.toNat = some (b, i, p) → b ≠ .dev → b ≠ .cmd → 0x40 ≤ addr.toNat % 0x1000 →
        rowAt b i p (addr.toNat % 0x1000) = none →
        exec (.registerWrite true addr 4 v) s = .next (s.blkErr b i 5)
        ∧ exec (.registerRead true addr 4) s = .next { s.blkErr b i 5 with pcie := { s.pcie with rdData := 0 } })

/-- Writes of plain registers by their access codes (R11, R463). -/
def Obligations.PlainRegisterWrites : Prop :=
  ∀ (s : State) (addr : BitVec 26) (v : DWord) (b : Blk) (i p k : Nat) (r : Reg), s.up = true → addr.toNat % 4 = 0 →
    b ∈ [Blk.ae, .ce, .ve, .le, .he, .pm, .kc] ∨ (b = .bed ∧ p < 8) → pageOf addr.toNat = some (b, i, p) → 0x40 ≤ addr.toNat % 0x1000 →
    rowAt b i p (addr.toNat % 0x1000) = some (r, k, 0) → r.bytes = 4 →
    let w := Nat.land (v.toNat % 2 ^ 32) r.mask
    (r.acc = .rw ∨ r.acc = .rws → r.ok.holds w = true →
        exec (.registerWrite true addr 4 v) s = .next (s.setReg addr.toNat (BitVec.ofNat 64 w)))
    ∧ (r.acc = .rw ∨ r.acc = .rws → r.ok.holds w = false → exec (.registerWrite true addr 4 v) s = .next (s.blkErr b i 5))
    ∧ (r.acc = .w1c → exec (.registerWrite true addr 4 v) s
        = .next (s.setReg addr.toNat (BitVec.ofNat 64 ((s.reg addr.toNat).toNat - Nat.land (s.reg addr.toNat).toNat w))))
    ∧ (r.acc = .ro → exec (.registerWrite true addr 4 v) s = .next s)
    ∧ (b = .bed → r.acc = .rw → ∀ x : Nat, x < 2 ^ 32 → s.reg addr.toNat = BitVec.ofNat 64 x →
        exec (.registerRead true addr 4) s = .next { s with pcie := { s.pcie with rdData := BitVec.ofNat 64 x } })

/-- Writes of MK_WR_DATA and MK_WINt (R440, R441). -/
def Obligations.MarkRegisterWrites : Prop :=
  ∀ s : State, s.up = true →
    (∀ v : DWord, exec (.markWrite true v) s = .next ((s.markServed (s.field MK_RD_IDX 15 0) (portUnit .mk 0)).setMark (s.field MK_RD_IDX 15 0) v)
        ∧ exec (.markWrite false v) s = .next s.devErr)
    ∧ ∀ (t : Fin 16) (v : Word),
        exec (.markWindowWrite false t v) s = .next s.devErr
        ∧ ((v.toNat % 0x10000 + v.toNat / 0x10000 ≤ 61440 ∧ s.slot t ≠ 1 ∧ s.slot t ≠ 2
              ∧ ∀ u : Nat, u < 16 → u ≠ t.val → v.toNat / 0x10000 = 0 ∨ s.field (MK_WIN u) 31 16 = 0
                  ∨ s.field (MK_WIN u) 15 0 + s.field (MK_WIN u) 31 16 ≤ v.toNat % 0x10000
                  ∨ v.toNat % 0x10000 + v.toNat / 0x10000 ≤ s.field (MK_WIN u) 15 0) →
            exec (.markWindowWrite true t v) s = .next (s.setReg (MK_WIN t) (v.setWidth 64)))
        ∧ (61440 < v.toNat % 0x10000 + v.toNat / 0x10000 ∨ s.slot t = 1 ∨ s.slot t = 2 →
            exec (.markWindowWrite true t v) s = .next (s.blkErr .mk 0 5))
        ∧ (∀ u : Nat, u < 16 → u ≠ t.val → 0 < v.toNat / 0x10000 → 0 < s.field (MK_WIN u) 31 16 →
            v.toNat % 0x10000 < s.field (MK_WIN u) 15 0 + s.field (MK_WIN u) 31 16 →
            s.field (MK_WIN u) 15 0 < v.toNat % 0x10000 + v.toNat / 0x10000 →
            exec (.markWindowWrite true t v) s = .next (s.blkErr .mk 0 5))

/-- Registers with a command of their own, beside the marks (R282, R324, R325, R382, R383, R391). -/
def Obligations.SpecialRegisterWrites : Prop :=
  ∀ s : State, s.up = true →
    (∀ v : Word, exec (.chipIdWrite false v) s = .next s.devErr ∧ exec (.macPfxWrite false v) s = .next s.devErr
      ∧ ((v.toNat % 0x1000 = s.field DP_CHIP_ID 11 0 ∨ ∀ p : Nat, p < 8 → s.regBit (DP_CTL p) 0 = false) →
          exec (.chipIdWrite true v) s = .next (let u := s.setReg DP_CHIP_ID ((v &&& 0x80000FFF).setWidth 64)
            if v.getLsbD 31 then (List.range 64).foldl (fun u i => u.pumpAll (i / 8) (i % 8)) u
            else s.rops.foldl (fun u r => u.endOp r.opid 0x0050 0) u))
      ∧ ((v.toNat % 0x1000 ≠ s.field DP_CHIP_ID 11 0 ∧ ∃ p : Nat, p < 8 ∧ s.regBit (DP_CTL p) 0 = true) →
          exec (.chipIdWrite true v) s = .next (s.blkErr .dp 0 5))
      ∧ exec (.macPfxWrite true v) s
          = .next (if v.getLsbD 17 && !v.getLsbD 16 then s.setReg DP_MAC_PFX ((v &&& 0xFFFFFF).setWidth 64) else s.blkErr .dp 0 5))
    ∧ (∀ (i : Fin 12) (v : DWord), exec (.xmapWrite false i v) s = .next s.devErr
      ∧ exec (.xmapWrite true i v) s
          = .next (if s.regBit FC_MAP_LOCK 0 = false ∧ xmapOk i v.toNat = true then s.setReg (FC_XMAP i) v else s.blkErr .fc 0 5))
    ∧ (∀ (tier : Fin 3) (i : Fin 256) (v : DWord), exec (.regionEntryWrite false tier i v) s = .next s.devErr
      ∧ exec (.regionEntryWrite true tier i v) s
          = .next (if s.regBit (QN_RGN (256 * tier.val + i.val)) 2 then s
              else s.setReg (QN_RGN (256 * tier.val + i.val)) (v &&& 0xFFFFFFFFFFFFFF07)))
    ∧ (∀ (i : Fin 34) (v : Word), blkIdleBit (s.blkState .ae i) = true → (v.toNat / 256 % 256 ≤ 15 ∨ v.toNat / 256 % 256 = 255) →
        exec (.blockWorldWrite true .ae i v) s = .next (s.setReg (BLK_WORLD .ae i) ((v &&& 0xFF01).setWidth 64)))
    ∧ (∀ (i : Fin 34) (v : Word), blkIdleBit (s.blkState .ae i) = false →
        exec (.blockWorldWrite true .ae i v) s = .next (s.blkErr .ae i 5))
    ∧ exec .counterSnapshot s = .next { s with snap := s.regs.filter fun e => isCounter e.1 }

/-- COMMAND_WRITE_POST (R355 to R360). -/
def Obligations.CommandWritesQueue : Prop :=
  ∀ (s : State) (fn : Fin 17), s.up = true →
    (∀ (off : BitVec 16) (size : Nat) (v : DWord), exec (.commandWritePost fn off size v) s = .next (
      if accessOk off.toNat size = false then s
      else if size = 8 ∧ (rowAt .cmd fn (off.toNat / 0x1000) (off.toNat % 0x1000)).any (fun r => decide (r.2.2 = 0 ∧ r.1.bytes = 8)) = false then
        (s.postOne false fn off.toNat 4 (v.toNat % 2 ^ 32)).postOne false fn (off.toNat + 4) 4 (v.toNat / 2 ^ 32)
      else s.postOne false fn off.toNat size v.toNat))
    ∧ ∀ (off size v : Nat) (r : Reg) (k byte : Nat), 0x40 ≤ off % 0x1000 → rowAt .cmd fn (off / 0x1000) (off % 0x1000) = some (r, k, byte) →
      let a := cmdAddr fn off - byte
      let p : Posted := { fn := fn, off := off, size := size, val := BitVec.ofNat 64 v }
      let same (q : Posted) : Bool := decide (q.fn = p.fn) && decide (q.addr = p.addr)
      let own := (s.wq.filter fun q => decide (q.fn = fn.val)).length
      let put (u : State) : State := { u with wq := u.wq ++ [p] }.modReg (CMD_WARRIVE fn) fun n => (n + 1) % 2 ^ 32
      (s.takes fn a = false → s.postOne false fn off size v = s.wdrop fn)
      ∧ (s.takes fn a = true → a = CMD_WIN_BASE fn →
          s.postOne false fn off size v = s.setRegN a (Nat.land (s.mergeHalf a byte size r.bytes v) r.mask))
      ∧ (s.takes fn a = true → a ≠ CMD_WIN_BASE fn → a = CMD_WARRIVE fn ∨ a = CMD_WDROP fn → s.postOne false fn off size v = s)
      ∧ (s.takes fn a = true → a ≠ CMD_WIN_BASE fn → a ≠ CMD_WARRIVE fn → a ≠ CMD_WDROP fn →
          (coalesces fn p.addr = false ∨ s.wq.any same = false → own < 64 → s.postOne false fn off size v = put s)
          ∧ (coalesces fn p.addr = false ∨ s.wq.any same = false → 64 ≤ own → s.postOne false fn off size v
              = (s.wdrop fn).event fn
                { type := 0x0003, cls := classCode .cmd, inst := fn, tenant := if fn.val < 16 then fn else 0xFF,
                  arg0 := (s.wdrop fn).regN (CMD_WDROP fn) })
          ∧ (coalesces fn p.addr = true → s.wq.any same = true → own ≤ 64 →
              s.postOne false fn off size v = put ({ s with wq := s.wq.filter fun q => !same q }.wdone fn)))

/-- COMMAND_WRITE_APPLY (R356, and the refusals of R68, R70, R352 and R463). -/
def Obligations.CommandWriteApplied : Prop :=
  ∀ (s : State) (fn : Fin 17) (p : Posted), s.up = true → s.front fn = some p →
    let row := rowAt .cmd p.fn (p.off / 0x1000) (p.off % 0x1000)
    (p.kind = .plain → row = none →
        exec (.commandWriteApply fn) s = .next ((s.headerWrite .cmd p.fn (p.off % 0x1000) p.val.toNat).popDone fn))
    ∧ (∀ (r : Reg) (k byte : Nat), p.kind = .plain → p.fn = fn → row = some (r, k, byte) →
      let a := p.addr - byte
      let v := s.mergeHalf a byte p.size r.bytes p.val.toNat
      let ring := decide (fn.val < 16 ∧ (a = CMD_CQ_BASE fn ∨ a = CMD_CQ_SIZE fn))
      let range := decide (fn.val < 16 ∧ (a = CMD_MAP_OFF fn ∨ a = CMD_MAP_LEN fn))
      (ring = true → s.anyQueue fn = true → exec (.commandWriteApply fn) s = .next ((s.cmdErr fn).popDone fn))
      ∧ (ring = false ∨ s.anyQueue fn = false →
          (a = CMD_EQ_VEC fn → exec (.commandWriteApply fn) s
            = .next ((if vecOk fn (v % 0x800) then s.setRegN a (v % 0x800) else s.cmdErr fn).popDone fn))
          ∧ (a ≠ CMD_EQ_VEC fn → range = true → s.regBit (CMD_MAP_STAT fn) 0 = true →
              exec (.commandWriteApply fn) s = .next ((s.cmdErr fn).popDone fn))
          ∧ (a ≠ CMD_EQ_VEC fn → range = false ∨ s.regBit (CMD_MAP_STAT fn) 0 = false →
              (r.acc = .rw → exec (.commandWriteApply fn) s
                = .next ((if r.ok.holds (Nat.land v r.mask) then s.setRegN a (Nat.land v r.mask) else s.cmdErr fn).popDone fn))
              ∧ (r.acc = .ro → exec (.commandWriteApply fn) s = .next (s.popDone fn)))))
    ∧ (∀ q, p.kind = .ctl q → p.val.toNat % 16 = 0 → exec (.commandWriteApply fn) s = .next (s.popDone fn))
    ∧ (p.kind = .fwCtl → p.val.toNat % 16 = 0 → exec (.commandWriteApply fn) s = .next (s.popDone fn))
    ∧ (p.kind = .map → p.val.toNat % 4 = 0 ∨ p.val.toNat % 4 = 3 →
        exec (.commandWriteApply fn) s = .next ((s.cmdErr fn).popDone fn))
    ∧ ((s.popDone fn) = { s with wq := s.wq.erase p }.modReg (CMD_WDONE fn) fun n => (n + 1) % 2 ^ 32)

/-- The commands of a job queue (R63 to R68), each on the lowest bit that a control write sets. -/
def Obligations.JobQueueCommands : Prop :=
  ∀ (s : State) (t : Fin 16), s.up = true →
    (∀ (q : Nat) (p : Posted), s.front t = some p →
      (p.kind = .tail q →
        exec (.jqTailDoorbell t) s = .next ((
          if s.jqSize t q ≤ p.val.toNat % 0x10000 then s.haltRefused t q
          else
            let u := s.setRegN (CMD_JQ_TAIL t q) (p.val.toNat % 0x10000)
            (if (s.jobQ t q).enabled && u.jqState t q != 2 then u.jqRefresh t q else u).latch).popDone t))
      ∧ (p.kind = .ctl q →
        let bits := p.val.toNat % 16
        let done (n : Nat) (u : State) : State := if bits = n then u.popDone t else u.setFront t (bits - n)
        (bits % 2 = 1 → s.regN (CMD_CQ_SIZE t) = 0 → exec (.jqEnable t) s = .next ((s.cmdErr t).popDone t))
        ∧ (bits % 2 = 1 → s.regN (CMD_CQ_SIZE t) ≠ 0 → (s.jobQ t q).enabled = false → exec (.jqEnable t) s
            = .next (done 1 (((s.setJobQ t q { s.jobQ t q with enabled := true, parked := decide (s.field CMD_FW_STAT 11 8 = 2) }).setRegN
                (CMD_JQ_STAT t q) 0).jqRefresh t q).latch))
        ∧ (bits % 2 = 1 → s.regN (CMD_CQ_SIZE t) ≠ 0 → (s.jobQ t q).enabled = true → exec (.jqEnable t) s = .next (done 1 s))
        ∧ (bits % 4 = 2 → exec (.jqResume t) s
            = .next (done 2 (if (s.jobQ t q).enabled && s.jqState t q == 2 then ((s.park t q).jqRefresh t q).latch else s)))
        ∧ (bits % 8 = 4 → exec (.jqDiscard t) s
            = .next (done 4 (
              let u := ({ s with flights := s.flights.filter fun f => !(f.held && decide (f.tenant = t.val) && decide (f.queue = q)) }.setRegN
                (CMD_JQ_HEAD t q) (s.regN (CMD_JQ_TAIL t q))).unlatch t q
              (if (u.jobQ t q).enabled && u.jqState t q != 2 then u.jqRefresh t q else u).park t q)))
        ∧ (bits = 8 → exec (.jqDisable t) s
            = .next ((((s.setJobQ t q { s.jobQ t q with enabled := false }).setRegN (CMD_JQ_STAT t q) 3).unlatch t q).popDone t))))
    ∧ ((∀ p q, s.front t = some p → p.kind ≠ .tail q) → exec (.jqTailDoorbell t) s = .next s)
    ∧ ((∀ p q, s.front t = some p → p.kind ≠ .ctl q) → ∀ c ∈ [Instr.jqEnable t, .jqResume t, .jqDiscard t, .jqDisable t], exec c s = .next s)

/-- Ring heads (R72, R73) and map operations (R69, R70). -/
def Obligations.RingHeadsAndMaps : Prop :=
  ∀ s : State, s.up = true →
    (∀ (t : Fin 16) (p : Posted), s.front t = some p →
      (p.kind = .cqHead → exec (.cqHeadUpdate t) s
        = .next ((s.ringHead (cqKey t) (CMD_CQ_HEAD t) (CMD_CQ_SIZE t) (p.val.toNat % 0x10000)).popDone t))
      ∧ (p.kind = .map → s.regBit (CMD_MAP_STAT t) 0 = true →
          (p.val.toNat % 4 = 1 → exec (.map t) s = .next ((s.cmdErr t).popDone t))
          ∧ (p.val.toNat % 4 = 2 → exec (.unmap t) s = .next ((s.cmdErr t).popDone t)))
      ∧ (p.kind = .map → s.regBit (CMD_MAP_STAT t) 0 = false →
          let bed := bit p.val.toNat 2
          let off := s.field (CMD_MAP_OFF t) 47 0
          let len := s.field (CMD_MAP_LEN t) 47 0
          let sound := len ≠ 0 ∧ off % 0x10000 = 0 ∧ len % 0x10000 = 0 ∧ off + len ≤ (if bed then bedSize else hbmSize)
          let op (un : Bool) (st : Nat) : MapOp :=
            { unmap := un, bed := bed, off := off / 0x10000, len := len / 0x10000,
              ro := !un && bit p.val.toNat 3, status := BitVec.ofNat 16 st, ents := [] }
          let busyOn (u : State) (m : MapOp) : State := ({ u with mapOp := smapInsert u.mapOp t m }.setBit (CMD_MAP_STAT t) 0 true).popDone t
          let busy := busyOn s
          let held := (firstOverlap (s.spaceHeld t bed) off len).isSome
          let fits := s.quotaOk t bed (granCharge (granules bed off len))
          let found := s.placeGranules t bed (bit p.val.toNat 3) none (granules bed off len)
          (p.val.toNat % 4 = 1 → ¬ sound → exec (.map t) s = .next (busy (op false stTranslation)))
          ∧ (p.val.toNat % 4 = 1 → sound → held = false → fits = false → exec (.map t) s = .next (busy (op false stQuota)))
          ∧ (p.val.toNat % 4 = 1 → sound → held = false → fits = true → found.2 = none →
              exec (.map t) s = .next (busyOn found.1 (op false stQuota)))
          ∧ (∀ es, p.val.toNat % 4 = 1 → sound → held = false → fits = true → found.2 = some es →
              exec (.map t) s = .next (busyOn (found.1.zeroEnts t es) { op false stOk with ents := es }))
          ∧ (p.val.toNat % 4 = 1 → sound → held = true →
              exec (.map t) s = .next (busy (op false stProtection)))
          ∧ (p.val.toNat % 4 = 2 → ¬ sound → exec (.unmap t) s = .next (busy (op true stTranslation)))
          ∧ (p.val.toNat % 4 = 2 → sound → exec (.unmap t) s = .next (busy (op true (((List.range (len / 0x10000)).findSome? fun u =>
              match s.xfind t (if bed then .bed else .hbm) (off / 0x10000 + u) with
              | none => some stTranslation
              | some e => if e.src.isSome then some stProtection else none).getD stOk))))))
    ∧ (∀ t : Fin 16, (∀ p, s.front t = some p → p.kind ≠ .cqHead) → exec (.cqHeadUpdate t) s = .next s)
    ∧ (∀ t : Fin 16, (∀ p, s.front t = some p → p.kind ≠ .map) → exec (.map t) s = .next s ∧ exec (.unmap t) s = .next s)
    ∧ (∀ fn : Fin 17, (∀ p, s.front fn = some p → p.kind ≠ .eqHead) → exec (.eqHeadUpdate fn) s = .next s)
    ∧ (∀ t : Fin 16, smapFind s.mapOp t = none → exec (.mapOperationEnd t) s = .next s)
    ∧ (∀ (fn : Fin 17) (p : Posted), s.front fn = some p → p.kind = .eqHead →
        exec (.eqHeadUpdate fn) s
          = .next ((s.ringHead (eqKey fn) (CMD_EQ_HEAD fn) (CMD_EQ_SIZE fn) (p.val.toNat % 0x10000)).popDone fn))
    ∧ (∀ (t : Fin 16) (m : MapOp), smapFind s.mapOp t = some m →
        ∃ u, exec (.mapOperationEnd t) s = .next u
          ∧ u = ({ s with mapOp := smapErase s.mapOp t, xlat := u.xlat }.setRegN (CMD_MAP_STAT t) (place m.status.toNat 16)).modReg
              (CMD_MAP_DONE t) (fun n => (n + 1) % 2 ^ 32)
          ∧ (m.status.toNat ≠ stOk → u.xlat = s.xlat)
          ∧ (m.status.toNat = stOk → m.unmap = false → u.xlat = s.xlat ++ m.ents)
          ∧ (m.status.toNat = stOk → m.unmap = true → ∀ e ∈ u.xlat, e.tenant = t.val → e.bed = m.bed → e.big = false →
              e.off < m.off ∨ m.off + m.len ≤ e.off))
    ∧ (∀ k headReg sizeReg v : Nat,
        let size := 2 ^ s.regN sizeReg
        let r := s.ringAt k
        s.ringHead k headReg sizeReg v
          = (s.setRing k { r with unread := r.unread - min r.unread ((v % size + size - s.regN headReg % size) % size) }).setRegN headReg
              (if s.regN sizeReg = 0 then v else v % size))

/-- DESCRIPTOR_RELEASE (R55, R62, R63, R68, R219, R423). -/
def Obligations.DescriptorReleaseDispatches : Prop :=
  ∀ (s : State) (t : Fin 16) (q : Fin 8) (u : Nat), s.up = true →
    (∀ f, s.waitingAgain t q u = some f → exec (.descriptorRelease t q u) s = .next (s.reDispatch f u))
    ∧ (s.waitingAgain t q u = none → s.jqReady t q = false → exec (.descriptorRelease t q u) s = .next s)
    ∧ (∀ f, s.waitingAgain t q u = none → s.jqReady t q = true →
        (s.flights.find? fun f => f.held && decide (f.tenant = t.val) && decide (f.queue = q.val)) = some f →
        exec (.descriptorRelease t q u) s
          = .next (if f.phase = .waitMove ∧ f.base.isSome ∧ s.unitOk f [] u ∧ s.inMove (f.pin.getD 0) = false then s.dispatch f u else s))
    ∧ ∀ s', s.waitingAgain t q u = none → s.jqReady t q = true →
      (s.flights.find? fun f => f.held && decide (f.tenant = t.val) && decide (f.queue = q.val)) = none →
      let idx := s.regN (CMD_JQ_HEAD t q)
      let got := s.readFor (.tenant t) .hbm (s.regN (CMD_JQ_BASE t q) + 128 * idx) 128
      (∀ c o, got = (s', .error (c, o)) →
          exec (.descriptorRelease t q u) s
            = .next (if c = stPoisoned then s'.undispatched (s'.newFlight t q idx 0) c (gaOf s'.chip spHbm o) else s'.haltAll t))
      ∧ ∀ bs, got = (s', .ok bs) →
        let d := BitVec.ofNat 1024 (leNat bs)
        let f := s'.newFlight t q idx d
        let holds := (List.range 4).all fun n =>
          match dWait d n with
          | some (m, target) => s'.waitHolds t m target
          | none => true
        let released := s'.relHead.contains (8 * t.val + q.val) || holds
        let counted := s'.count MK_RELEASE_CNT 1
        let refused (v : State) (x : Nat) : State := match (blockStep v f).1.err with
          | some (c, y) => v.undispatched f c y
          | none => v.undispatched f stProtection x
        let uses := (blockStep s' f).2
        (∀ o, descBad s' d = some o →
            exec (.descriptorRelease t q u) s = .next (s'.undispatched f stProtection (badField o)))
        ∧ (∀ m, descBad s' d = none → s'.markOutside t d = some m →
            exec (.descriptorRelease t q u) s = .next (refused s' (gaOf s'.chip spMark (8 * m))))
        ∧ (descBad s' d = none → s'.markOutside t d = none →
            (released = false → exec (.descriptorRelease t q u) s = .next s')
            ∧ (released = true → dClass d = 0xF → exec (.descriptorRelease t q u) s = .next (counted.dispatch f 0xFF))
            ∧ (∀ n, released = true → dClass d ≠ 0xF → s'.troughBar f.cls t d uses = some n →
                exec (.descriptorRelease t q u) s = .next (refused counted n))
            ∧ (∀ x, released = true → dClass d = 4 → s'.troughBar f.cls t d uses = none → scanHandle s' t d = some x →
                let g := { f with phase := .waitMove, inRec := [(0, leBytes 8 x)] }
                exec (.descriptorRelease t q u) s = .next ((counted.addFlight g).resolveScan g x))
            ∧ (released = true → dClass d ≠ 0xF → s'.troughBar f.cls t d uses = none →
                dClass d ≠ 4 ∨ scanHandle s' t d = none →
                exec (.descriptorRelease t q u) s
                  = .next (if s'.unitOk f uses u then counted.dispatch { f with uses := uses } u
                      else { s' with relHead := insertNat (8 * t.val + q.val) s'.relHead })))

/-- The status of a completion (R16): the place of a code in the order, then its number among the faults or the warnings. -/
def Obligations.StatusByPrecedence : Prop :=
  let place (c : Nat) : Nat :=
    if c = 0x00F1 then 0 else if c = 0x00F0 then 1 else if isFault c then 2 else if c = 0x0070 then 3 else if c ≠ 0 then 4 else 5
  (chooseStatus [] = (0x0000, 0))
  ∧ (∀ codes : List (BitVec 16 × DWord), (∀ c ∈ codes, c.1.toNat ≤ 0xFF) → codes ≠ [] →
      ∃ c ∈ codes, chooseStatus codes = (c.1.toNat, c.2.toNat) ∧
        ∀ d ∈ codes, place c.1.toNat < place d.1.toNat ∨ place c.1.toNat = place d.1.toNat ∧ c.1.toNat ≤ d.1.toNat)
  ∧ ∀ (f : Flight) (codes : List (BitVec 16 × DWord)) (ph : Bool), (chooseStatus codes).1 < 0x10000 →
      leNat ((f.record (chooseStatus codes) ph).take 2) = (chooseStatus codes).1

/-- DESCRIPTOR_COMPLETE (R56, R72) and MELEOPIN_DESCRIPTOR (R61). -/
def Obligations.DescriptorCompletes : Prop :=
  ∀ (s : State) (id : Nat) (f : Flight), s.up = true → s.flight id = some f →
    (f.phase = .ran → f.noRecord = true ∨ s.cqFull f.tenant = false → exec (.descriptorComplete id) s = .next ((f.done s).wakeScans))
    ∧ (f.phase = .ran → f.noRecord = false → s.cqFull f.tenant = true → exec (.descriptorComplete id) s = .next s)
    ∧ (f.phase ≠ .ran → exec (.descriptorComplete id) s = .next s)
    ∧ (f.phase = .ran → s.cqFull f.tenant = false → f.codes = [] → bit f.desc.toNat 27 = true → bit f.desc.toNat 26 = false →
        (∀ n < 4, dSig f.desc n = none) → f.unit = 0xFF → f.inRec = [] → f.late = [] → s.schedQ = [] → (∀ g ∈ s.flights, g.phase ≠ .waitMove) →
        exec (.descriptorComplete id) s = .next { s with flights := s.flights.filter fun g => g.id != id })
    ∧ (∀ (st : Nat × Nat) (ph : Bool),
        let r := f.record st ph
        let at_ (o n : Nat) : Nat := leNat ((r.drop o).take n)
        r.length = 32 ∧ at_ 0 2 = st.1 % 0x10000 ∧ at_ 2 2 = dTag f.desc ∧ at_ 4 4 = dUser f.desc
          ∧ at_ 8 1 = (dClass f.desc + 16 * f.queue + 128 * flag ph) % 256 ∧ at_ 9 1 = f.unit % 256 ∧ at_ 10 2 = f.index % 0x10000
          ∧ at_ 12 4 = min f.warn 0xFFFFFFFF ∧ at_ 16 8 = st.2 % 2 ^ 64)
    ∧ (f.phase = .dispatched → dClass f.desc = 0xF → dOp f.desc = 0 →
        ∃ n, exec (.meleopinDescriptor id) s
          = .next ({ s with free := n }.putFlight { f with phase := .ran, issued := true, started := true, late := [], outRec := [] }))

/-- Atomics on marks (R47, R53, R464). -/
def Obligations.AtomicsOnMarks : Prop :=
  ∀ (s : State) (id : Nat) (f : Flight), s.up = true → s.canon = true → s.flight id = some f → f.phase = .dispatched →
    dClass f.desc = 7 → rmoSrc f.desc = 0 → s.isLocal (rmoDst f.desc) = true → gaSpace (rmoDst f.desc) = 4 →
    gaOff (rmoDst f.desc) + 8 ≤ 0x80000 →
    let a := BitVec.ofNat 64 (rmoOpnd0 f.desc)
    let b := BitVec.ofNat 64 (rmoOpnd1 f.desc)
    let off := gaOff (rmoDst f.desc)
    let m := s.field (MK_WIN f.tenant) 15 0 + off / 8
    ∀ (c : Instr) (op : Nat) (fn : DWord → DWord),
      (c, op, fn) ∈ [(Instr.atomicAdd id, 0x10, fun w => w + a), (.atomicSwap id, 0x11, fun _ => a),
        (.atomicCas id, 0x12, fun w => if w = a then b else w), (.atomicUmax id, 0x13, fun w => if w.toNat < a.toNat then a else w),
        (.atomicUmin id, 0x14, fun w => if a.toNat < w.toNat then a else w), (.atomicAnd id, 0x15, fun w => w &&& a),
        (.atomicOr id, 0x16, fun w => w ||| a), (.atomicXor id, 0x17, fun w => w ^^^ a)] →
      dOp f.desc = op →
      (off % 8 = 0 → off / 8 < s.field (MK_WIN f.tenant) 31 16 →
        ∃ t, exec c s = .next t ∧ t.mark m = fn (s.mark m) ∧ (∀ n, n ≠ m → t.mark n = s.mark n)
          ∧ t.flight id = some { f with phase := .ran, issued := true, started := true, late := [], outRec := [] } ∧ (∀ j, j ≠ id → t.flight j = s.flight j)
          ∧ (∀ r, r ≠ HE_RD_LINES f.unit → r ≠ HE_WR_LINES f.unit → r ≠ HE_STALL_CNT f.unit → t.reg r = s.reg r)
          ∧ { t with marks := s.marks, markPtr := s.markPtr, relHead := s.relHead, flights := s.flights, regs := s.regs, free := s.free } = s)
      ∧ (off % 8 ≠ 0 ∨ s.field (MK_WIN f.tenant) 31 16 ≤ off / 8 →
        ∃ t d, exec c s = .next t ∧ t.marks = s.marks
          ∧ t.flight id = some { f with phase := .ran, issued := true, started := true, late := [], outRec := [], codes := f.codes ++ [(0x0011, d)] })

/-- Signals, local copies, and what is never carried to a peer (R44, R45, R46, R53). -/
def Obligations.SignalsAndLocalCopies : Prop :=
  ∀ (s : State) (id : Nat) (f : Flight), s.up = true → s.canon = true → s.flight id = some f → f.phase = .dispatched →
    dClass f.desc = 7 →
    let src := rmoSrc f.desc
    let dst := rmoDst f.desc
    let ended (c : Nat) (d : Nat) (n : Nat) : State := { s with free := n }.putFlight
      { f with phase := .ran, issued := true, started := true, late := [], outRec := [], codes := f.codes ++ [(BitVec.ofNat 16 c, BitVec.ofNat 64 d)] }
    (dOp f.desc = 0x20 → s.isLocal dst = true → gaSpace dst = 4 → gaOff dst % 8 = 0 → gaOff dst + 8 ≤ 0x80000 →
      gaOff dst / 8 < s.field (MK_WIN f.tenant) 31 16 →
      let m := s.field (MK_WIN f.tenant) 15 0 + gaOff dst / 8
      ∃ t, exec (.signal id) s = .next t ∧ t.mark m = s.mark m + BitVec.ofNat 64 (rmoOpnd0 f.desc)
        ∧ (∀ n, n ≠ m → t.mark n = s.mark n)
        ∧ t.flight id = some { f with phase := .ran, issued := true, started := true, late := [], outRec := [] }
        ∧ { t with marks := s.marks, markPtr := s.markPtr, relHead := s.relHead, flights := s.flights, regs := s.regs, free := s.free } = s)
    ∧ (∀ (c : Instr) (op : Nat), (c, op) ∈ [(Instr.put id, 1), (.get id, 2)] → dOp f.desc = op →
        s.isLocal src = true → s.isLocal dst = true → (tierOf (gaSpace src)).isSome = true → (tierOf (gaSpace dst)).isSome = true →
        let wr := ((Work.start s f.tenant f.strict).copyLocal f.unit src dst (rmoLen f.desc)).wr
        ∃ t g, exec c s = .next t ∧ t.flight id = some g ∧ g.phase = .ran
          ∧ { t with bed := s.bed, bedPoison := s.bedPoison, hbm := s.hbm, hbmPoison := s.hbmPoison, hbmKey := s.hbmKey,
                     regs := s.regs, free := s.free, flights := s.flights } = s
          ∧ (∀ x, (∀ p ∈ wr, p.tier = .bed → x < p.off ∨ p.off + p.data.length ≤ x) →
              memByte zeroByte t.bed x = memByte zeroByte s.bed x)
          ∧ (∀ x, (∀ p ∈ wr, p.tier = .hbm → x / 64 < p.off / 64 ∨ p.off + p.data.length ≤ x / 64 * 64) →
              memByte zeroByte t.hbm x = memByte zeroByte s.hbm x))
    ∧ (dOp f.desc = 1 → s.isLocal src = false → ∃ n, exec (.put id) s = .next (ended 0x0010 src n))
    ∧ (dOp f.desc = 2 → s.isLocal dst = false → ∃ n, exec (.get id) s = .next (ended 0x0010 dst n))
    ∧ (∀ (c : Instr) (op : Nat), (c, op) ∈ [(Instr.atomicAdd id, 0x10), (.atomicSwap id, 0x11), (.atomicCas id, 0x12),
          (.atomicUmax id, 0x13), (.atomicUmin id, 0x14), (.atomicAnd id, 0x15), (.atomicOr id, 0x16), (.atomicXor id, 0x17)] →
        dOp f.desc = op → src ≠ 0 → s.isLocal src = false → ∃ n, exec c s = .next (ended 0x0010 src n))
    ∧ (dOp f.desc = 1 → s.isLocal src = true → s.isLocal dst = false → gaSpace dst = 3 →
        ∃ n, exec (.put id) s = .next (ended 0x0011 dst n))

/-- Operations of the matrix and Chisel engines and of the movers: they start, they complete, and their frame. -/
def Obligations.EngineOperationsFrame : Prop :=
  ∀ (s : State) (id : Nat) (f : Flight), s.up = true → s.canon = true → s.flight id = some f → f.phase = .dispatched →
    ∀ (c : Instr) (cls op : Nat) (body : Flight → Work → Work),
      (c, cls, op, body) ∈ [(Instr.matmul id, 1, 1, aeRun), (.partialSum id, 1, 2, aeRun), (.loadRes id, 1, 3, aeRun),
        (.releaseRes id, 1, 4, aeRun), (.elementwise id, 2, 1, ceRun), (.epilogue id, 2, 2, ceRun), (.softmax id, 2, 3, ceRun),
        (.layernorm id, 2, 4, ceRun), (.rmsnorm id, 2, 5, ceRun), (.gate id, 2, 6, ceRun), (.moverMove id, 5, 1, heRun),
        (.gather id, 5, 2, heRun), (.scatter id, 5, 3, heRun), (.window id, 5, 4, heRun), (.tiles id, 5, 5, heRun)] →
      dClass f.desc = cls → dOp f.desc = op →
      let v := if f.started then s else s.begin f (classStart cls)
      ∃ k, v.flight id = some k ∧ k.started = true ∧ k.desc = f.desc ∧ k.tenant = f.tenant ∧ k.queue = f.queue ∧ k.unit = f.unit
        ∧ (f.started = true → k = f)
        ∧ ((k.phase ≠ .dispatched ∨ k.hasRecs = false) → exec c s = .next v ∧ (∀ j, j ≠ id → v.flight j = s.flight j)
            ∧ { v with regs := s.regs, free := s.free, flights := s.flights, resident := s.resident, image := s.image,
                       pageMap := s.pageMap, pfx := s.pfx } = s)
        ∧ (k.phase = .dispatched → k.hasRecs = true →
            let w := body k (Work.start v k.tenant k.strict)
            ∃ t g, exec c s = .next t ∧ t.flight id = some g ∧ (g.phase = .ran ∨ g.phase = .running) ∧ g.desc = f.desc
              ∧ g.tenant = f.tenant ∧ g.queue = f.queue ∧ g.unit = f.unit ∧ (∀ j, j ≠ id → t.flight j = s.flight j)
              ∧ { t with bed := s.bed, bedPoison := s.bedPoison, hbm := s.hbm, hbmPoison := s.hbmPoison, hbmKey := s.hbmKey,
                         regs := s.regs, free := s.free, flights := s.flights, resident := s.resident, image := s.image,
                         pageMap := s.pageMap, pfx := s.pfx } = s
              ∧ (∀ x, (∀ p ∈ w.wr, p.tier = .bed → x < p.off ∨ p.off + p.data.length ≤ x) →
                  memByte zeroByte t.bed x = memByte zeroByte s.bed x)
              ∧ (∀ x, (∀ p ∈ w.wr, p.tier = .hbm → x / 64 < p.off / 64 ∨ p.off + p.data.length ≤ x / 64 * 64) →
                  memByte zeroByte t.hbm x = memByte zeroByte s.hbm x))

/-- Operations of the attention and scan engines: they complete, and their frame. -/
def Obligations.AttentionAndScanFrame : Prop :=
  ∀ (s : State) (id : Nat) (f : Flight), s.up = true → s.canon = true → s.flight id = some f → f.phase = .dispatched →
    ∀ (c : Instr) (cls op : Nat) (body : Flight → Work → Work),
      (c, cls, op, body) ∈ [(Instr.attend id, 3, 1, veRun), (.poolGive id, 3, 2, veRun), (.poolReclaim id, 3, 3, veRun),
        (.chainFree id, 3, 4, veRun), (.prefixMatch id, 3, 5, veRun), (.prefixPublish id, 3, 6, veRun),
        (.prefixDrop id, 3, 7, veRun), (.scan id, 4, 1, leRun)] →
      dClass f.desc = cls → dOp f.desc = op → (∃ t, exec c s = .next t) ∧
      ((cls = 3 → f.tangled = false ∧ ((((Work.start s f.tenant f.strict).veParams f.desc).1.s).tangle f).1 = []) →
      let w := body f (Work.start s f.tenant f.strict)
      ∃ t g, exec c s = .next t ∧ t.flight id = some g ∧ (g.phase = .ran ∨ g.phase = .running) ∧ g.desc = f.desc
        ∧ g.tenant = f.tenant ∧ g.queue = f.queue ∧ g.unit = f.unit ∧ (∀ j, j ≠ id → t.flight j = s.flight j)
        ∧ { t with bed := s.bed, bedPoison := s.bedPoison, hbm := s.hbm, hbmPoison := s.hbmPoison, hbmKey := s.hbmKey,
                   regs := s.regs, free := s.free, flights := s.flights, resident := s.resident, image := s.image,
                   pageMap := s.pageMap, pfx := s.pfx, ring := s.ring, pcie := s.pcie } = s
        ∧ (∀ x, (∀ p ∈ w.wr, p.tier = .bed → x < p.off ∨ p.off + p.data.length ≤ x) →
            memByte zeroByte t.bed x = memByte zeroByte s.bed x)
        ∧ (c ≠ .attend id → t.ring = s.ring ∧ t.pcie = s.pcie
            ∧ ∀ x, (∀ p ∈ w.wr, p.tier = .hbm → x / 64 < p.off / 64 ∨ p.off + p.data.length ≤ x / 64 * 64) →
              memByte zeroByte t.hbm x = memByte zeroByte s.hbm x))

/-- BED_REQUEST (R78, R81 to R83, R85). -/
def Obligations.BedArbitration : Prop :=
  ∀ (s : State) (bank : Fin 1024), s.up = true → s.canon = true → s.regBit (BLK_CTL .bed 0) 1 = false →
    (∀ d ∈ s.bedDefer, d.1 ≠ bank.val) →
    let ptr := s.bedPointer (s.bankOf bank)
    let served (r : BedReq) : State := { s with bedPtr := smapSet (fun _ => 0) s.bedPtr (s.bankOf bank) ((r.port + 1) % 114) }
    exec (.bedRequest bank []) s = .next s
    ∧ (∀ (r : BedReq) (o : Nat) (bs : Bytes), r.off / 64 % 1024 = bank → r.port < 113 → r.wr = some (o, bs) →
        ∃ t, exec (.bedRequest bank [r]) s = .next t ∧ { t with bed := s.bed, bedPoison := s.bedPoison } = served r
          ∧ (∀ x, memByte zeroByte t.bed x = if r.off + o ≤ x ∧ x < r.off + o + bs.length then bs.getD (x - (r.off + o)) 0
              else memByte zeroByte s.bed x)
          ∧ t.bedPoison = if bs.length = 64 then s.bedPoison.filter (· != (r.off + o) / 64) else s.bedPoison)
    ∧ ∀ r q : BedReq, r.off / 64 % 1024 = bank → r.port < 113 → r.wr = none → r.ecc = .clean → s.poisonAt .bed r.off = false →
        exec (.bedRequest bank [r]) s = .next (served r)
        ∧ (q.off / 64 % 1024 = bank → q.port < 113 → (r.port + 114 - ptr) % 114 < (q.port + 114 - ptr) % 114 →
          ∀ reqs ∈ [[r, q], [q, r]],
            let deferred : State := ({ served r with bedDefer := s.bedDefer ++ [(bank.val, q)] }).count BED_CONFLICT_CNT 1
            let logged (strict tenant : Nat) : State := deferred.setRegN BED_CONFLICT_LOG (s.bankOf bank + strict * 2 ^ 11
              + q.off / 65536 % 4096 * 2 ^ 16 + classCode (bedRequester q.port).1 * 2 ^ 32 + (bedRequester q.port).2 * 2 ^ 48 + tenant * 2 ^ 56)
            (q.flight = none → exec (.bedRequest bank reqs) s = .next (logged 0 0xFF))
            ∧ ∀ id f, q.flight = some id → s.flight id = some f →
              (s.regBit BED_MODE 0 = false → bit f.desc.toNat 25 = false →
                exec (.bedRequest bank reqs) s = .next ((logged 0 f.tenant).putFlight
                  { f with codes := f.codes ++ [(0x0001, 0)], warn := f.warn + 1 }))
              ∧ (s.regBit BED_MODE 0 = true ∨ bit f.desc.toNat 25 = true → f.strict = false →
                ∃ t, exec (.bedRequest bank reqs) s = .next t ∧ { t with flights := s.flights } = logged 1 f.tenant
                  ∧ t.flight id = some { f with
                      codes := f.codes ++ [(0x0001, 0), (0x0011, BitVec.ofNat 64 (s.chip * 2 ^ 52 + s.tenantOff f.tenant .bed q.off))]
                      warn := f.warn + 1, strict := true, outRec := []
                      phase := if f.outRec ≠ [] ∨ (f.phase = .dispatched ∧ f.started = true ∧ f.hasRecs = false) then .ran else f.phase }
                  ∧ ∀ j, j ≠ id → t.flight j = s.flight j))

/-- BED_PATROL_SCRUB, poisoned reads and SPARE_BANK_COPY_DONE (R84 to R87, R428). -/
def Obligations.BedErrorsAndSpares : Prop :=
  ∀ s : State, s.up = true → s.canon = true →
    (∀ found, s.regBit BED_MODE 1 = false → exec (.bedPatrolScrub found) s = .next s)
    ∧ (∀ (p : Fin 1088) (row : Fin 3072), s.regBit BED_MODE 1 = true →
        let n := min 0xFFFF (s.bankCount p + 1)
        let counted : State := (s.setField (BED_CEC (p / 2)) (16 * (p % 2) + 15) (16 * (p % 2)) n).blkErr .bed 0 0
        exec (.bedPatrolScrub [(p, row, .clean)]) s = .next s
        ∧ (n < s.field BED_CE_THRESH 15 0 → exec (.bedPatrolScrub [(p, row, .single)]) s = .next counted)
        ∧ (s.field BED_CE_THRESH 15 0 ≤ n →
            exec (.bedPatrolScrub [(p, row, .single)]) s = .next ((counted.blkErr .bed 0 2).bankRetire p))
        ∧ (∀ m, s.bankServes p = some m → exec (.bedPatrolScrub [(p, row, .double)]) s
            = .next ((s.uncorrectable .bed 0).poisonLine .bed (row * 65536 + m * 64)))
        ∧ (s.bankServes p = none → (p.val % 17 ≠ 16 ∨ s.regBit (BED_REMAP (p / 17)) 1 = false) →
            exec (.bedPatrolScrub [(p, row, .double)]) s = .next (s.uncorrectable .bed 0)))
    ∧ (∀ (bank : Fin 1024) (r : BedReq) (id : Nat) (f : Flight), s.regBit (BLK_CTL .bed 0) 1 = false →
        (∀ d ∈ s.bedDefer, d.1 ≠ bank.val) → r.off / 64 % 1024 = bank → r.port < 113 → r.wr = none → r.ecc = .clean →
        s.poisonAt .bed r.off = true → r.flight = some id → s.flight id = some f →
        ∃ t, exec (.bedRequest bank [r]) s = .next t
          ∧ t.flight id = some { f with
              codes := f.codes ++ [(0x0040, BitVec.ofNat 64 (s.chip * 2 ^ 52 + s.tenantOff f.tenant .bed r.off))]
              strict := true, outRec := []
              phase := if f.outRec ≠ [] ∨ (f.phase = .dispatched ∧ f.started = true ∧ f.hasRecs = false) then .ran else f.phase }
          ∧ t.regN BED_POISON_LOG = (r.off / 64 * 64 + min 0xFFFF (s.field BED_POISON_LOG 63 48 + 1) * 2 ^ 48) % 2 ^ 64
          ∧ (∀ a, a ≠ BED_POISON_LOG → t.reg a = s.reg a) ∧ (∀ j, j ≠ id → t.flight j = s.flight j)
          ∧ { t with flights := s.flights, regs := s.regs, bedPtr := s.bedPtr } = s)
    ∧ ∀ g : Fin 64, (s.regBit (BED_REMAP g) 1 = false → exec (.spareBankCopyDone g) s = .next s)
        ∧ (s.regBit (BED_REMAP g) 1 = true →
            let m := s.field (BED_REMAP g) 11 2
            let old := s.bankOf m
            let freed : State := if old % 17 = 16 then s.setRegN (BED_REMAP (old / 17)) 0 else s
            let u : State := { freed with bankOut := insertNat old freed.bankOut }.setRegN (BED_REMAP g) (1 + 4 * m)
            exec (.spareBankCopyDone g) s = .next (((u.spareLines (17 * g + 16) m).unitRetired .bed 0 old (17 * g + 16)).record)
            ∧ ((∀ j, j < 64 → j ≠ g.val → s.remaps j m = false) → u.bankOf m = 17 * g + 16))

/-- TROUGH_ENABLE, TROUGH_DISABLE, TROUGH_RECORD_PRODUCE and TROUGH_RECORD_CONSUME (R90 to R94, R96, R465). -/
def Obligations.TroughRecords : Prop :=
  ∀ (s : State) (n : Fin 256), s.up = true → s.canon = true →
    let slot (u : TrUse) : Nat := u.base + u.k % u.slots * u.lines * 64
    let tail := (s.mark (61440 + 2 * n)).toNat
    let head := (s.mark (61441 + 2 * n)).toNat
    let on := s.regBit (BED_TR_CFG n) 0
    (∀ v : Word, exec (if v.getLsbD 0 then .troughEnable false n v else .troughDisable false n v) s = .next s.devErr)
    ∧ (∀ v : Word, v.getLsbD 0 = true →
        let w := v &&& 0xFFFF1F
        let fits := bits w.toNat 4 1 ≤ 12 ∧ bits w.toNat 15 8 ≠ 0
          ∧ s.field (BED_TR_BASE n) 27 6 * 64 + 2 ^ bits w.toNat 4 1 * bits w.toNat 15 8 * 64 ≤ 0xC000000
        (on = true ∨ ¬ fits → exec (.troughEnable true n v) s = .next (s.blkErr .bed 0 5))
        ∧ (on = false → fits → exec (.troughEnable true n v) s
            = .next (((s.setReg (BED_TR_CFG n) (w.setWidth 64)).setMark (61440 + 2 * n) 0).setMark (61441 + 2 * n) 0)))
    ∧ (∀ v : Word, v.getLsbD 0 = false →
        let stored := s.setReg (BED_TR_CFG n) ((v &&& 0xFFFF1F).setWidth 64)
        ((∀ f ∈ s.flights, f.waitsAt n = none) ∨ on = false → exec (.troughDisable true n v) s = .next stored)
        ∧ ∀ (f : Flight) (u : TrUse), on = true → s.flights = [f] → f.waitsAt n = some u →
            ∃ t, exec (.troughDisable true n v) s = .next t
              ∧ t.flights = [{ f with phase := .ran, outRec := [], codes := f.codes ++ [(0x0011, BitVec.ofNat 64 (s.chip * 2 ^ 52 + u.slot))] }])
    ∧ (∀ (id : Nat) (f : Flight) (u : TrUse) (r : Bytes) (rest : List (Nat × Bytes)), s.flight id = some f →
        f.outRec = (n.val, r) :: rest → f.uses.find? (fun u => decide (u.n = n.val) && u.out) = some u → f.phase = .running →
        (on = false → ∃ t, exec (.troughRecordProduce id) s = .next t ∧ t.flight id = some { f with
            phase := .ran, outRec := [], codes := f.codes ++ [(0x0011, BitVec.ofNat 64 (s.chip * 2 ^ 52 + u.slot))] })
        ∧ (on = true → s.bound f.cls u ≠ some f.unit → ∃ t, exec (.troughRecordProduce id) s = .next t
            ∧ t.flight id = some { f with phase := .ran, outRec := [], codes := f.codes ++ [(0x0011, BitVec.ofNat 64 n)] })
        ∧ (on = true → s.bound f.cls u = some f.unit → head + 2 ^ s.field (BED_TR_CFG n) 4 1 < u.k + 1 →
            exec (.troughRecordProduce id) s = .next s)
        ∧ (on = true → s.bound f.cls u = some f.unit → u.k + 1 ≤ head + 2 ^ s.field (BED_TR_CFG n) 4 1 →
            ∃ t, exec (.troughRecordProduce id) s = .next t
              ∧ t.mark (61440 + 2 * n) = s.mark (61440 + 2 * n) + 1 ∧ (∀ m, m ≠ 61440 + 2 * n.val → t.mark m = s.mark m)
              ∧ (∀ x, memByte zeroByte t.bed x = if slot u ≤ x ∧ x < slot u + r.length then r.getD (x - slot u) 0
                  else memByte zeroByte s.bed x)
              ∧ t.flight id = some { f.passed n true with outRec := rest, phase := if rest.isEmpty then .ran else .running }
              ∧ (∀ j, j ≠ id → t.flight j = s.flight j) ∧ (∀ a, a ≠ MK_SIG_CNT → t.reg a = s.reg a)
              ∧ { t with bed := s.bed, bedPoison := s.bedPoison, marks := s.marks, markPtr := s.markPtr, relHead := s.relHead,
                         flights := s.flights, regs := s.regs } = s))
    ∧ (∀ (id : Nat) (f : Flight) (u : TrUse), s.flight id = some f → f.phase = .dispatched → f.started = true → f.strict = false →
        s.nextUse f = some u → u.n = n.val →
        (on = false → ∃ t, exec (.troughRecordConsume id) s = .next t ∧ t.flight id = some { f with
            phase := .ran, outRec := [], codes := f.codes ++ [(0x0011, BitVec.ofNat 64 (s.chip * 2 ^ 52 + u.slot))] })
        ∧ (on = true → s.bound f.cls u ≠ some f.unit → ∃ t, exec (.troughRecordConsume id) s = .next t
            ∧ t.flight id = some { f with phase := .ran, outRec := [], codes := f.codes ++ [(0x0011, BitVec.ofNat 64 n)] })
        ∧ (on = true → s.bound f.cls u = some f.unit → tail ≤ u.k → exec (.troughRecordConsume id) s = .next s)
        ∧ (on = true → s.bound f.cls u = some f.unit → u.k < tail →
            (∀ p ∈ cut 64 (slot u) (64 * u.lines), s.poisonAt .bed p.1 = false) →
            ∃ t, exec (.troughRecordConsume id) s = .next t
              ∧ t.mark (61441 + 2 * n) = s.mark (61441 + 2 * n) + 1 ∧ (∀ m, m ≠ 61441 + 2 * n.val → t.mark m = s.mark m)
              ∧ t.flight id = some { f.passed n false with
                  inRec := f.inRec ++ [(n.val, memRead zeroByte s.bed (slot u) (64 * u.lines))] }
              ∧ (∀ j, j ≠ id → t.flight j = s.flight j) ∧ (∀ a, a ≠ MK_SIG_CNT → t.reg a = s.reg a)
              ∧ { t with marks := s.marks, markPtr := s.markPtr, relHead := s.relHead, flights := s.flights, regs := s.regs } = s))
    ∧ ∀ (id : Nat) (f : Flight), s.flight id = some f → f.phase = .dispatched → f.started = false → dClass f.desc ∈ [1, 2, 5] →
        exec (.troughRecordConsume id) s = exec (.troughRecordConsume id) (s.begin f (classStart (dClass f.desc)))

/-- CE_LIB_DATA_READ (R12, R178). -/
def Obligations.LibraryWordReads : Prop :=
  ∀ (s : State) (sec : Bool) (n : Fin 18), s.up = true →
    let a := s.field (CE_LIB_ADDR n) 15 2 * 4
    let word : Word := match s.libVer with
      | some v => libWordAt v.toNat a
      | none => 0
    (sec = true ∨ s.regBit (BLK_WORLD .ce n) 0 = false →
      exec (.ceLibDataRead sec n) s
        = .next { s.setRegN (CE_LIB_ADDR n) ((a + 4) % 65536) with pcie := { s.pcie with rdData := word.setWidth 64 } })
    ∧ (sec = false → s.regBit (BLK_WORLD .ce n) 0 = true →
      exec (.ceLibDataRead sec n) s = .next { s.devErr with pcie := { s.pcie with rdData := 0 } })

/-- CREATE, QUERY, SWAP, SCRUB and DIGEST_SCRUB_PASS (R248, R251, R252, R272, R273). -/
def Obligations.QuarryTensorOperations : Prop :=
  ∀ (s : State) (rep : List NandReport), s.up = true →
    (∀ (id : Nat) (f : Flight), s.flight id = some f → f.phase = .dispatched → dClass f.desc = 6 → s.quarryTurn f = true →
      let q := Qrr.of f.desc
      let w0 := Work.start s f.tenant f.strict
      let ended (u : State) (codes : List (BitVec 16 × DWord)) (n : Nat) : State :=
        { u with free := n }.putFlight { f with phase := .ran, issued := true, started := true, late := [], outRec := [], codes := f.codes ++ codes }
      (∀ (c : Instr) (op st : Nat), (c, op) ∈ [(Instr.query id, 5), (.swap id, 6), (.scrub id rep, 7)] → dOp f.desc = op →
        s.resolve f.tenant q.handle = .error st →
        ∃ n, exec c s = .next (ended s [(BitVec.ofNat 16 st, BitVec.ofNat 64 q.handle)] n))
      ∧ (dOp f.desc = 1 →
        let held (bed : Bool) (off : Nat) : Option Nat :=
          if off = 2 ^ 64 - 1 then none else firstOverlap (s.spaceHeld f.tenant bed) off (units64 q.arg2 * 65536)
        let i := lowestTensor s.tensors 0
        let w := w0.result q (leBytes 8 (gaOf s.chip 2 (((s.tensor i).gen + 1).toNat * 2 ^ 32 + i)))
        let x : Tensor := { used := true, gen := (s.tensor i).gen + 1, bytes := q.arg2, hbmOff := BitVec.ofNat 64 q.arg0
                            bedOff := BitVec.ofNat 64 q.arg1, home := 0, ro := q.ro, digested := false, poisoned := false
                            moving := false, nandOk := q.nandOk, tenant := f.tenant, moves := 0, scrubbed := 0, digest := 0 }
        (∀ o, (held false q.arg0).or (held true q.arg1) = some o →
          ∃ n, exec (.create id) s = .next (ended s [(0x0011, BitVec.ofNat 64 o)] n))
        ∧ (∀ j, j < i → (s.tensor j).used = true)
        ∧ ((held false q.arg0).or (held true q.arg1) = none → i < 262144 →
          (w.err = none → exec (.create id) s = .next (({ w with s := w.s.setTensor i x } : Work).settle f))
          ∧ (w.err.isSome = true → exec (.create id) s = .next (w.settle f))))
      ∧ ∀ i, s.resolve f.tenant q.handle = .ok i →
        let x := s.tensor i
        (dOp f.desc = 5 → exec (.query id) s = .next ((w0.result q (s.tensorRecord i)).settle f))
        ∧ (∀ j, dOp f.desc = 6 → s.resolve f.tenant q.arg0 = .ok j →
            let y := s.tensor j
            let free (k : Nat) : Prop := (s.tensor k).moving = false ∧ s.pinned k = false ∧ s.inBuild k = false
            let sound := x.bytes = y.bytes ∧ x.home = y.home ∧ (x.home = 1 ∨ x.home = 2) ∧ free i ∧ free j
            (¬ sound → ∃ n, exec (.swap id) s = .next (ended s [(0x0011, 0)] n))
            ∧ (sound → i = j → ∃ n, exec (.swap id) s = .next (ended s [] n))
            ∧ (sound → i ≠ j → ∃ t n, exec (.swap id) s = .next (ended t [] n)
                ∧ { t with xlat := s.xlat }
                    = (s.setTensor i { x with digest := y.digest, digested := y.digested, poisoned := y.poisoned, ro := y.ro }).setTensor j
                        { y with digest := x.digest, digested := x.digested, poisoned := x.poisoned, ro := x.ro }
                ∧ t.xlat.filter (fun e => e.src != some i && e.src != some j) = s.xlat.filter (fun e => e.src != some i && e.src != some j)
                ∧ t.homeEnts i = reback x i (decide (x.home = 1)) y.poisoned y.ro (s.backing j)
                ∧ t.homeEnts j = reback y j (decide (x.home = 1)) x.poisoned x.ro (s.backing i)))
        ∧ (dOp f.desc = 7 → ∀ v c, s.scrubTensor i rep = (v, c) →
            (c = 0 → exec (.scrub id rep) s = .next ((({ w0 with s := v } : Work).result q (leBytes 32 (v.tensor i).digest.toNat)).settle f))
            ∧ (c ≠ 0 → ∃ n, exec (.scrub id rep) s = .next (ended v [(BitVec.ofNat 16 c, 0)] n))))
    ∧ ∀ idx : Fin 262144,
      let x := s.tensor idx
      let v := if x.home = 3 then (s.nandReads idx).nandReport rep else s
      let u := (v.setTensor idx { x with scrubbed := v.timeNs / 1000000000 }).count QC_SCRUB_CNT 1
      let damaged := (x.home = 3 ∧ rep.any (fun r => decide (r.uec ≠ 0)) = true) ∨ u.tensorDamaged idx = true
      (s.regBit QC_SCRUB_CTL 0 = false ∨ x.used = false ∨ x.digested = false ∨ x.home = 0 ∨ s.inMove idx = true ∨ s.inBuild idx = true →
        exec (.digestScrubPass idx rep) s = .next s)
      ∧ (s.regBit QC_SCRUB_CTL 0 = true → x.used = true → x.digested = true → x.home ≠ 0 → s.inMove idx = false → s.inBuild idx = false →
        exec (.digestScrubPass idx rep) s = .next (s.scrubTensor idx rep).1)
      ∧ (damaged → s.scrubTensor idx rep = (if x.poisoned then u else u.poisonTensor idx, 0x0041))
      ∧ (¬ damaged → x.digested = true → u.tensorDigest idx ≠ x.digest →
          s.scrubTensor idx rep = (if x.poisoned then u.count QC_SCRUB_FAIL 1 else (u.count QC_SCRUB_FAIL 1).poisonTensor idx, 0x0042))
      ∧ (¬ damaged → (x.digested = true → u.tensorDigest idx = x.digest) → s.scrubTensor idx rep = (u, 0))

/-- TIER_MOVE, TIER_MOVE_DONE, FREE and FREE_RELEASE (R219, R251, R254, R256, R262). -/
def Obligations.TierMovesAndFrees : Prop :=
  ∀ s : State, s.up = true →
    (∀ (id : Nat) (f : Flight), s.flight id = some f → f.phase = .dispatched → dClass f.desc = 6 → s.quarryTurn f = true →
      let q := Qrr.of f.desc
      let ended (c d : Nat) : State := s.putFlight
        { f with phase := .ran, issued := true, codes := f.codes ++ [(BitVec.ofNat 16 c, BitVec.ofNat 64 d)] }
      let running (u : State) : State := u.putFlight { f with phase := .running, issued := true }
      (dOp f.desc = 3 →
        (∀ st, s.resolve f.tenant q.handle = .error st → exec (.free id) s = .next (ended st q.handle))
        ∧ ∀ i, s.resolve f.tenant q.handle = .ok i → exec (.free id) s = .next (running s))
      ∧ (dOp f.desc = 2 → s.moveReady (q.handle % 2 ^ 18) q.tier = true →
        (∀ st, s.resolve f.tenant q.handle = .error st → exec (.tierMove id) s = .next (ended st q.handle))
        ∧ ∀ i, s.resolve f.tenant q.handle = .ok i →
          let x := s.tensor i
          let bed := decide (q.tier = 1)
          let barred := if q.tier = 3 then x.nandOk = false else x.off bed = none
          let fits := if q.tier = 3 then s.nandRo = false ∧ s.nandQuotaOk x.tenant (units64 x.bytes) = true
            else s.usage x.tenant bed + granCharge (x.gran bed) ≤ s.regN (if bed then QC_QBED x.tenant else QC_QHBM x.tenant)
          let started (v : State) (es : List XEntry) : State := running { v.setTensor i { x with moving := true } with
            xlat := v.xlat.map fun (e : XEntry) => if e.src = some i then { e with ro := true } else e
            moves := v.moves ++ [{ idx := i, tier := q.tier, by_ := .flight id, ents := es }] }
          (q.tier = x.home → exec (.tierMove id) s = .next (ended 0 0))
          ∧ (q.tier ≠ x.home → barred → exec (.tierMove id) s = .next (ended 0x0011 0))
          ∧ (q.tier ≠ x.home → ¬ barred → ¬ fits → exec (.tierMove id) s = .next (ended 0x0060 0))
          ∧ (q.tier ≠ x.home → ¬ barred → fits → q.tier = 3 → exec (.tierMove id) s = .next (started s []))
          ∧ (q.tier ≠ x.home → ¬ barred → fits → q.tier ≠ 3 → ∀ v es,
              s.placeGranules x.tenant bed x.ro (some i) (x.gran bed) = (v, some es) → exec (.tierMove id) s = .next (started v es))))
    ∧ (∀ (id : Nat) (f : Flight), s.flight id = some f → f.phase = .running → dClass f.desc = 6 → dOp f.desc = 3 →
        let i := (Qrr.of f.desc).handle % 2 ^ 18
        let unmapped : State := { s with xlat := s.xlat.filter fun e => e.src != some i }
        (s.pinned i = true ∨ s.inMove i = true ∨ s.inBuild i = true → exec (.freeRelease id) s = .next s)
        ∧ (s.pinned i = false → s.inMove i = false → s.inBuild i = false → exec (.freeRelease id) s
            = .next ((((if (s.tensor i).home = 3 then unmapped.nandRelease i else unmapped).setTensor i
                { tensorUnused i with gen := (s.tensor i).gen }).putFlight
                  { f with phase := .ran, codes := f.codes ++ [(0, 0)] }).wakeScans)))
    ∧ (∀ (idx : Fin 262144) (unc : Bool) (rep : List NandReport),
        (s.moves.find? (fun m => decide (m.idx = idx.val)) = none → exec (.tierMoveDone idx unc rep) s = .next s)
        ∧ ∀ m, s.moves.find? (fun m => decide (m.idx = idx.val)) = some m →
          let x := s.tensor idx
          let heard := if m.tier = 3 ∨ x.home = 3 then s.nandReport rep else s
          let read := if x.home = 3 then heard.nandReads idx else heard
          let kept : State := { read with moves := read.moves.filter fun n => n.idx != idx.val }
          let bad := unc = true ∨ x.poisoned = true ∨ read.tensorDamaged idx = true ∨ (x.home = 3 ∧ rep.any (fun r => decide (r.uec ≠ 0)) = true)
          let back : State := { kept.setTensor idx { x with moving := false } with
            xlat := kept.xlat.map fun (e : XEntry) => if e.src = some idx.val then { e with ro := x.ro } else e }
          let cells := if x.home = 0 then [] else kept.tensorCells idx
          let gone : State := { kept with xlat := kept.xlat.filter fun e => e.src != some idx.val }
          let left := if x.home = 3 then gone.nandRelease idx else gone
          let filled : State := if m.tier = 3 then
              { (left.nandPlace idx x.bytes).count QC_NAND_USER_WR (units64 x.bytes) with
                nandBytes := cells.foldl (fun b c => smapSet zeroByte b (nandKey idx c.1) c.2) left.nandBytes }
            else { left.fillEnts x.tenant ((x.off (decide (m.tier = 1))).getD 0) m.ents cells with
                   xlat := left.xlat ++ m.ents.map fun (e : XEntry) => { e with ro := x.ro } }
          (bad → exec (.tierMoveDone idx unc rep) s
            = .next (((if x.poisoned then back else back.poisonTensor idx).moveEnd m 0x0041 (s.handle idx)).wakeScans))
          ∧ (¬ bad → m.tier = 3 → kept.nandRo = true → exec (.tierMoveDone idx unc rep) s
            = .next ((back.moveEnd m 0x0060 (s.handle idx)).wakeScans))
          ∧ (¬ bad → ¬ (m.tier = 3 ∧ kept.nandRo = true) → exec (.tierMoveDone idx unc rep) s
            = .next ((((filled.setTensor idx { x with home := m.tier, moving := false, moves := x.moves + 1 }).count QC_MOVE_CNT 1).moveEnd m 0
                (s.handle idx)).wakeScans)))
    ∧ ∀ (m : Move) (c h : Nat),
        (∀ (id : Nat) (f : Flight), m.by_ = .flight id → s.flight id = some f →
          (f.phase = .running → s.moveEnd m c h = s.putFlight { f with phase := .ran, codes := f.codes ++ [(BitVec.ofNat 16 c, 0)] })
          ∧ (f.phase = .waitMove → c = 0 → s.moveEnd m c h = s.putFlight
              { f with base := some (BitVec.ofNat 64 (s.chip * 2 ^ 52 + (s.tensor m.idx).bedOff.toNat)), inRec := f.inRec ++ [(1, [])] })
          ∧ (f.phase = .waitMove → c ≠ 0 → s.moveEnd m c h = s.putFlight
              { f with phase := .ran, pin := none, codes := f.codes ++ [(BitVec.ofNat 16 c, 0)] }))
        ∧ ∀ t e sig, m.by_ = .sched t e sig →
          let told := if bits sig.toNat 47 16 ≠ 0 ∧ (c = 0 ∨ bit sig.toNat 48 = true) then s.signalSlot t 0 0 sig.toNat else s
          s.moveEnd m c h = if c = 0 then told else told.schedHalt t e c h

/-- INTAKE, INTAKE_BUILD_DONE and INTAKE_COMMIT (R262, R267, R268, R271). -/
def Obligations.IntakeBuildsAndCommits : Prop :=
  ∀ (s : State) (id : Nat) (f : Flight) (rep : List NandReport), s.up = true → s.flight id = some f →
    let q := Qrr.of f.desc
    let failed (u : State) (c d : Nat) : State := (u.count QC_INTAKE_FAIL 1).putFlight
      { f with phase := .ran, issued := true, codes := f.codes ++ [(BitVec.ofNat 16 c, BitVec.ofNat 64 d)] }
    let dropped (u : State) (c d : Nat) : State :=
      ((State.count { u with builds := u.builds.filter fun b => b.id != f.id } QC_INTAKE_FAIL 1).putFlight
        { f with phase := .ran, codes := f.codes ++ [(BitVec.ofNat 16 c, BitVec.ofNat 64 d)] }).wakeScans
    (f.phase = .dispatched → dClass f.desc = 6 → dOp f.desc = 4 → s.quarryTurn f = true → s.builds.length < 8 →
      (q.tier ≠ 3 ∨ s.nandReady = true) →
      (∀ st, s.resolve f.tenant q.handle = .error st → exec (.intake id) s = .next (failed s st q.handle))
      ∧ ∀ i w b, s.resolve f.tenant q.handle = .ok i → (Work.start s f.tenant f.strict).read q.arg0 128 = (w, b) →
        let x := s.tensor i
        let u := w.s
        let hd : Shard := { b := b }
        let mark := bits q.arg2 15 0
        let bed := decide (q.tier = 1)
        let outside := q.arg2 ≠ 0 ∧ u.markOf f.tenant mark = none
        let barred := if q.tier = 3 then x.nandOk = false else x.off bed = none
        let fits := if q.tier = 3 then u.nandQuotaOk x.tenant (units64 x.bytes) = true
          else u.usage x.tenant bed + granCharge (x.gran bed) ≤ u.regN (if bed then QC_QBED x.tenant else QC_QHBM x.tenant)
        (∀ c d, w.err = some (c, d) → exec (.intake id) s = .next (failed u c d))
        ∧ (w.err = none → outside → exec (.intake id) s = .next (failed u 0x0011 (u.chip * 2 ^ 52 + 4 * 2 ^ 48 + 8 * mark)))
        ∧ (∀ o, w.err = none → ¬ outside → firstBad (hd.bad q.arg1) = some o →
            exec (.intake id) s = .next (failed u 0x0011 (2 ^ 63 + 2 ^ 62 + o)))
        ∧ (w.err = none → ¬ outside → firstBad (hd.bad q.arg1) = none → x.bytes < hd.outLen →
            exec (.intake id) s = .next (failed u 0x0011 (2 ^ 63 + 2 ^ 62 + 0x28)))
        ∧ (w.err = none → ¬ outside → firstBad (hd.bad q.arg1) = none → hd.outLen ≤ x.bytes → barred →
            exec (.intake id) s = .next (failed u 0x0011 (2 ^ 63 + 2 ^ 62 + 0x70)))
        ∧ (w.err = none → ¬ outside → firstBad (hd.bad q.arg1) = none → hd.outLen ≤ x.bytes → ¬ barred → ¬ fits →
            exec (.intake id) s = .next (failed u 0x0060 0))
        ∧ (w.err = none → ¬ outside → firstBad (hd.bad q.arg1) = none → hd.outLen ≤ x.bytes → ¬ barred → fits →
            ∀ v es, (if q.tier = 3 then (u, some []) else u.placeGranules x.tenant bed x.ro (some i) (x.gran bed)) = (v, some es) →
            exec (.intake id) s = .next (State.putFlight
              { v with builds := v.builds ++ [{ id := id, idx := i, tier := q.tier, tenant := f.tenant, data := b
                                                built := false, ents := es, wait := BitVec.ofNat 64 q.arg2 }] }
              { f with phase := .running, issued := true })))
    ∧ (s.builds.find? (fun b => decide (b.id = id) && !b.built) = none → exec (.intakeBuildDone id) s = .next s)
    ∧ (∀ b, s.builds.find? (fun b => decide (b.id = id) && !b.built) = some b →
        let hd : Shard := { b := b.data }
        ∀ w pay, (Work.start s f.tenant f.strict).read (q.arg0 + 128) hd.payLen = (w, pay) →
          (∀ c d, w.err = some (c, d) → exec (.intakeBuildDone id) s = .next (dropped w.s c d))
          ∧ (∀ o, w.err = none → hd.expand pay = .error o →
              exec (.intakeBuildDone id) s = .next (dropped w.s 0x0011 (2 ^ 63 + 2 ^ 62 + o)))
          ∧ (∀ raw, w.err = none → hd.expand pay = .ok raw → sha256 (b.data.take 64 ++ pay) ≠ (b.data.drop 64).take 32 →
              exec (.intakeBuildDone id) s = .next (dropped w.s 0x0042 0))
          ∧ (∀ raw, w.err = none → hd.expand pay = .ok raw → sha256 (b.data.take 64 ++ pay) = (b.data.drop 64).take 32 →
              let base := ((w.s.tensor b.idx).off (decide (b.tier = 1))).getD 0
              let t : State := { w.s.fillEnts b.tenant base b.ents ((hd.build raw).zipIdx.map fun (v, o) => (o, v)) with
                builds := s.builds.map fun (c : Build) => if c.id = id then { c with data := hd.build raw, built := true } else c }
              exec (.intakeBuildDone id) s = .next t
                ∧ { t with builds := s.builds, bed := s.bed, bedPoison := s.bedPoison, hbm := s.hbm, hbmPoison := s.hbmPoison
                           hbmKey := s.hbmKey, regs := s.regs, free := s.free } = s))
    ∧ (s.builds.find? (fun b => decide (b.id = id) && b.built) = none → exec (.intakeCommit id rep) s = .next s)
    ∧ ∀ b, s.builds.find? (fun b => decide (b.id = id) && b.built) = some b →
        let x := s.tensor b.idx
        let digest := BitVec.ofNat 256 (leNat (sha256 (padTo x.bytes b.data)))
        let w := (Work.start s f.tenant f.strict).result q (leBytes 32 digest.toNat)
        let u : State := { w.s with
          xlat := w.s.xlat.filter fun e => e.src != some b.idx
          builds := w.s.builds.filter fun c => c.id != b.id }
        let v := if (w.s.tensor b.idx).home = 3 then u.nandRelease b.idx else u
        let placed : State := if b.tier = 3 then
            { (v.nandPlace b.idx (w.s.tensor b.idx).bytes).nandReport rep with
              nandBytes := b.data.zipIdx.foldl (fun m c => smapSet zeroByte m (nandKey b.idx c.2) c.1) v.nandBytes }
          else { v with xlat := v.xlat ++ b.ents.map fun (e : XEntry) => { e with ro := (w.s.tensor b.idx).ro || q.ro } }
        (s.commitHolds b = false ∨ s.pinned b.idx = true → exec (.intakeCommit id rep) s = .next s)
        ∧ (s.commitHolds b = true → s.pinned b.idx = false →
          (∀ c d, w.err = some (c, d) → exec (.intakeCommit id rep) s = .next (dropped w.s c d))
          ∧ (w.err = none → exec (.intakeCommit id rep) s = .next ((State.putFlight (Work.apply { w with s := (placed.setTensor b.idx { w.s.tensor b.idx with
                home := b.tier, ro := (w.s.tensor b.idx).ro || q.ro, digested := true, poisoned := false, digest := digest }).count QC_INTAKE_CNT 1 })
              { f with phase := .ran, codes := f.codes ++ [(0, 0)] }).wakeScans)))

/-- SCHEDULE_ENABLE, SCHEDULE_RESUME, SCHEDULE_DISABLE and SCHEDULE_ENTRY_RELEASE (R258 to R260). -/
def Obligations.SchedulesRunEntries : Prop :=
  ∀ (s : State) (t : Fin 16), s.up = true →
    let state := s.field (QC_SCHED_STAT t) 1 0
    let x := s.schedOf t
    let held := state ≠ 1 ∨ s.regBit (QC_TMODE t) 0 = false ∨ s.field (QC_SCHED_LEN t) 15 0 = 0 ∨ s.slot t ≠ 1
    (state = 0 → exec (.scheduleEnable t) s
        = .next (((s.setSched t { pass := 0, entry := 0 }).setRegN (QC_SCHED_STAT t) 1).setRegN (QC_SCHED_PASS t) 0))
    ∧ (state ≠ 0 → exec (.scheduleEnable t) s = .next s)
    ∧ (state = 2 → exec (.scheduleResume t) s = .next (s.setRegN (QC_SCHED_STAT t) (1 + x.entry * 2 ^ 16)))
    ∧ (state ≠ 2 → exec (.scheduleResume t) s = .next s)
    ∧ exec (.scheduleDisable t) s = .next (s.setField (QC_SCHED_STAT t) 1 0 0)
    ∧ (held → exec (.scheduleEntryRelease t) s = .next s)
    ∧ (¬ held → ∀ u r, s.readFor (.tenant t) .hbm (s.regN (QC_SCHED_BASE t) + 32 * x.entry) 32 = (u, r) →
        (∀ c o, r = .error (c, o) →
          exec (.scheduleEntryRelease t) s = .next ((u.schedNext t).schedHalt t x.entry c (u.chip * 2 ^ 52 + 2 ^ 48 + o)))
        ∧ ∀ b, r = .ok b →
          let h := leNat (b.take 8)
          let wait := leNat ((b.drop 8).take 8)
          let sig := leNat ((b.drop 16).take 8)
          let tier := leNat ((b.drop 24).take 4) % 4
          let stop (v : State) (c : Nat) : State :=
            let v := v.schedNext t
            let told := if bits sig 47 16 ≠ 0 ∧ (c = 0 ∨ bit sig 48 = true) then v.signalSlot t 0 0 sig else v
            if c = 0 then told else told.schedHalt t x.entry c h
          (u.markOf t (wait % 2 ^ 16) = none → exec (.scheduleEntryRelease t) s = .next (stop u 0x0011))
          ∧ ∀ m, u.markOf t (wait % 2 ^ 16) = some m →
            let reached := bits wait 63 16 + x.pass * u.regN (QC_SCHED_INC t) ≤ (u.mark m).toNat
            (¬ reached → exec (.scheduleEntryRelease t) s = .next u)
            ∧ (reached → exec (.scheduleEntryRelease t) s = .next
                (let w : SchedWait := { id := u.nextFlight, t := t, entry := x.entry, h := h, tier := tier, sig := BitVec.ofNat 64 sig }
                 { u.schedNext t with nextFlight := u.nextFlight + 1, schedQ := u.schedQ ++ [w] }.schedStart w)))
    ∧ (∀ (u : State) (w : SchedWait),
        let i := w.h % 2 ^ 18
        let ready := u.pinned i = false ∧ u.moves.length < 8 ∧ (w.tier ≠ 3 ∨ u.nandReady = true) ∧ u.inMove i = false ∧ u.inBuild i = false
          ∧ u.ahead w.id [i] true = false ∧ u.schedMoves w.t < u.field (QC_SCHED_DEPTH w.t) 3 0
        let taken : State := { u with schedQ := u.schedQ.filter fun x => x.id != w.id }
        let ends (v : State) (c : Nat) : State :=
          let told := if bits w.sig.toNat 47 16 ≠ 0 ∧ (c = 0 ∨ bit w.sig.toNat 48 = true) then v.signalSlot w.t 0 0 w.sig.toNat else v
          if c = 0 then told else told.schedHalt w.t w.entry c w.h
        (¬ ready → u.schedStart w = u)
        ∧ (ready → w.tier = 0 → u.schedStart w = ends taken 0x0011)
        ∧ (∀ c, ready → w.tier ≠ 0 → taken.resolve w.t w.h = .error c → u.schedStart w = ends taken c)
        ∧ ∀ k, ready → w.tier ≠ 0 → taken.resolve w.t w.h = .ok k →
          (∀ v, taken.moveStart k w.tier (.sched w.t w.entry w.sig) = (v, none) → u.schedStart w = v)
          ∧ ∀ v c, taken.moveStart k w.tier (.sched w.t w.entry w.sig) = (v, some c) → u.schedStart w = ends v c)
    ∧ (x.entry + 1 < s.field (QC_SCHED_LEN t) 15 0 → s.schedNext t
        = (s.setSched t { x with entry := x.entry + 1 }).setField (QC_SCHED_STAT t) 31 16 (x.entry + 1))
    ∧ (s.field (QC_SCHED_LEN t) 15 0 ≤ x.entry + 1 → s.schedNext t
        = ((s.setSched t { pass := x.pass + 1, entry := 0 }).setField (QC_SCHED_STAT t) 31 16 0).modReg (QC_SCHED_PASS t) fun n => (n + 1) % 2 ^ 32)
    ∧ ∀ e c h, s.schedHalt t e c h
        = (s.setRegN (QC_SCHED_STAT t) (2 + e * 2 ^ 16)).event t
            { type := 0x0012, status := c, cls := 0x0B03, tenant := t, arg0 := e, arg1 := h }

/-- HBM_REQUEST, PER_BANK_REFRESH, TRR_WINDOW_END and HBM_COMMAND_ISSUE (R282 to R287). -/
def Obligations.HbmServesRefreshThenUrgency : Prop :=
  (∀ s : State, s.up = true → s.canon = true →
    (∀ r : HbmReq,
      let p := s.hbmPlace r.off
      let locked := s.setRegN FC_MAP_LOCK 1
      let full := r.wr.isSome = true ∧ 64 ≤ (s.hbmQ.filter fun w => decide (w.pc = p.pc) && w.req.wr.isSome).length
      let blocked := s.hbmReady = false ∨ s.regBit (BLK_CTL .fc (p.pc / 32)) 1 = true
      (blocked → exec (.hbmRequest r) s = .next s)
      ∧ (¬ blocked → full → exec (.hbmRequest r) s = .next locked)
      ∧ (¬ blocked → ¬ full → exec (.hbmRequest r) s = .next { locked with
          hbmQ := s.hbmQ ++ [{ req := r, pc := p.pc, bank := p.bank, row := p.row, at_ := s.timeNs }] }))
    ∧ (∀ (pc : Fin 256) (sid : Fin 3) (b : Fin 16),
        let k := 48 * pc.val + (16 * sid + b)
        let n := smapGet (fun _ => 0) s.hbmDue k
        (s.regBit (FC_STATUS (pc / 32)) 0 = false → exec (.perBankRefresh pc sid b) s = .next s)
        ∧ (s.regBit (FC_STATUS (pc / 32)) 0 = true → n < 8 →
            exec (.perBankRefresh pc sid b) s = .next { s with hbmDue := smapSet (fun _ => 0) s.hbmDue k (n + 1) })
        ∧ (s.regBit (FC_STATUS (pc / 32)) 0 = true → 8 ≤ n →
            exec (.perBankRefresh pc sid b) s = .next { s with hbmRow := smapErase s.hbmRow k }))
    ∧ (∀ fc : Fin 8, exec (.trrWindowEnd fc) s = .next { s with hbmTrr := s.hbmTrr.filter fun e => !decide (e.1 / 48 / 32 = fc.val) })
    ∧ ∀ (pc : Fin 256) (e : HbmFind) (parity : Nat),
      let c := s.count (FC_PAR_CNT (pc / 32)) parity
      let due := (s.hbmDue.map Prod.fst).find? fun k => decide (k / 48 = pc.val)
      let trr := s.hbmTrrDue.find? fun x => decide (x.1 / 48 = pc.val)
      let u := c.drainUpdate pc
      let mine := u.hbmQ.filter fun w => decide (w.pc = pc.val) && (w.req.wr.isNone || u.hbmDrain.contains pc.val)
      let urg (w : HbmWait) : Nat := u.urgency (pc / 32) w.req.port
      (∀ k, due = some k → exec (.hbmCommandIssue pc e.ecc e.onDie e.lane parity) s
        = .next { c with hbmRow := smapErase s.hbmRow k
                         hbmDue := smapSet (fun _ => 0) s.hbmDue k (smapGet (fun _ => 0) s.hbmDue k - 1) })
      ∧ (∀ k row, due = none → trr = some (k, row) →
          ∃ t, exec (.hbmCommandIssue pc e.ecc e.onDie e.lane parity) s = .next t ∧ t.regs = (c.count (FC_TRR_CNT (k / 48 / 32)) 1).regs
            ∧ { t with hbmRow := s.hbmRow, hbmTrr := s.hbmTrr, hbmTrrDue := s.hbmTrrDue, regs := s.regs } = s)
      ∧ (due = none → trr = none → mine = [] → exec (.hbmCommandIssue pc e.ecc e.onDie e.lane parity) s = .next u)
      ∧ (due = none → trr = none → mine ≠ [] → ∃ w ∈ mine,
          exec (.hbmCommandIssue pc e.ecc e.onDie e.lane parity) s = .next ((u.serveHbm w e).drainUpdate pc)
          ∧ ((∃ v ∈ mine, urg v = 3) → urg w = 3 ∧ ∀ v ∈ mine, urg v = 3 → u.age v ≤ u.age w)
          ∧ ∀ v ∈ mine, urg v < 3 → urg v ≤ urg w ∧ (urg v = urg w → u.rowHit v = true → urg w < 3 → u.rowHit w = true))
      ∧ (∃ d, u = { c with hbmDrain := d })
      ∧ ∀ w : HbmWait,
        let late := decide (u.regN (FC_LAT (w.pc / 32) w.req.port) < u.age w)
        let t := u.serveHbm w e
        (∃ v : State, v.hbmQ = u.hbmQ.erase w ∧ v.hbmPtr = smapSet (fun _ => 0) u.hbmPtr w.pc ((w.req.port + 1) % 10)
          ∧ smapFind v.hbmRow (bankKey w.pc w.bank) = some w.row
          ∧ v.regs = (if late then u.count (FC_LATMISS (w.pc / 32) w.req.port) 1 else u).regs
          ∧ { v with hbmQ := u.hbmQ, hbmPtr := u.hbmPtr, hbmRow := u.hbmRow, hbmTrr := u.hbmTrr, hbmTrrDue := u.hbmTrrDue, regs := u.regs } = u
          ∧ (w.req.wr = none →
              let f := v.hbmEcc w.req.off e
              (f.poisonAt .hbm w.req.off = false → t = { f with hbmData := f.hbmLine w.req.off })
              ∧ (f.poisonAt .hbm w.req.off = true → w.req.flight = none → t = f)
              ∧ ∀ id, f.poisonAt .hbm w.req.off = true → w.req.flight = some id →
                  t = f.endEarly id 0x0040 .hbm (w.req.off / 64 * 64))
          ∧ (w.req.wr = none → e.ecc = .clean → e.onDie = false → v.hbmEcc w.req.off e = v)
          ∧ ∀ bs, w.req.wr = some bs → t = v.writeLine .hbm (v.lineKey (w.req.off / 64)) w.req.off bs)
        ∧ ∀ bs, w.req.wr = some bs → w.req.off % 64 + bs.length ≤ 64 → ∀ x, x / 64 ≠ w.req.off / 64 →
            memByte zeroByte t.hbm x = memByte zeroByte s.hbm x)
  ∧ ∀ (thresh row : Nat) (tab : List (Nat × Nat)),
      let low := minOr 0 (tab.map Prod.snd)
      let entered (n : Nat) : Nat × Nat := (row, if thresh ≤ n then 0 else n)
      (∀ n, tab.find? (fun e => decide (e.1 = row)) = some (row, n) →
        trrStep thresh tab row = (tab.map fun x => if x.1 = row then entered (n + 1) else x, decide (thresh ≤ n + 1)))
      ∧ (tab.find? (fun e => decide (e.1 = row)) = none → tab.length < 16 → 1 < thresh → trrStep thresh tab row = (tab ++ [(row, 1)], false))
      ∧ (tab.find? (fun e => decide (e.1 = row)) = none → 16 ≤ tab.length → low + 1 < thresh →
          trrStep thresh tab row = (setAt tab (tab.findIdx fun e => decide (e.2 = low)) (row, low + 1), false))

/-- HBM_TRAINING, HBM_FILL_COMPLETE, HBM_STACK_HOT and HBM_PATROL_SCRUB (R285, R288 to R290, R293 to R295). -/
def Obligations.HbmTrainsFillsAndScrubs : Prop :=
  (∀ s : State, s.up = true →
    (∀ temps sweeps,
      let held := s.fw.booted = false ∨ ∃ i, i < 8 ∧ s.regBit (FC_STATUS i) 0 = true
      let shown := (List.range 8).foldl (fun u i => u.stackTemp i (temps.getD i 0)) s.applyRepairs
      let after := (List.range 128).foldl (fun (acc : State × Bool) k =>
        let r := acc.1.trainChannel (k / 16) (k % 16)
          ((sweeps.filter fun (x : Fin 8 × Fin 16 × Sweep) => decide (x.1.val = k / 16) && decide (x.2.1.val = k % 16)).map fun x => x.2.2)
        let u := ({ acc.1 with free := acc.1.free + 1 } : State).putTraining (k / 16) (k % 16) r
        (if r.1.any (fun x => bit x.2 28) = true then u.degrade (k / 16) (k % 16) else u, acc.2 || !r.2.isEmpty)) (shown, false)
      let done := (List.range 8).foldl (fun u i => u.setBit (FC_STATUS i) 0 true) after.1
      (held → exec (.hbmTraining temps sweeps) s = .next s)
      ∧ (¬ held → exec (.hbmTraining temps sweeps) s = .next (if after.2 then done.record else done)))
    ∧ (s.hbmReady = true ∨ (∃ i, i < 8 ∧ s.regBit (FC_STATUS i) 0 = false) → exec .hbmFillComplete s = .next s)
    ∧ (s.hbmReady = false → (∀ i, i < 8 → s.regBit (FC_STATUS i) 0 = true) →
        exec .hbmFillComplete s = .next { s with hbmReady := true, hbm := [], hbmPoison := [], hbmKey := [] })
    ∧ (∀ (fc : Fin 8) (t : Byte), exec (.hbmStackHot fc t) s
        = .next ((s.setField (FC_STATUS fc) 15 8 t.toNat).setBit (FC_STATUS fc) 6 (decide (85 ≤ t.toNat))))
    ∧ ∀ (fc : Fin 8) (found : List (Nat × HbmFind)),
        let on := s.regBit (FC_CTL fc) 0 = true ∧ s.hbmReady = true
        (¬ on → exec (.hbmPatrolScrub fc found) s = .next s)
        ∧ (on → exec (.hbmPatrolScrub fc found) s = .next (found.foldl (fun u (x : Nat × HbmFind) =>
            let p := u.hbmPlace x.1
            if x.1 < 0x4800000000 ∧ p.pc / 32 = fc.val then
              (u.setRegN FC_MAP_LOCK 1).serveHbm { req := { port := 9, flight := none, off := x.1, wr := none },
                                                   pc := p.pc, bank := p.bank, row := p.row, at_ := u.timeNs } x.2
            else u) (s.setRegN FC_MAP_LOCK 1))))
  ∧ (∀ (free k : Nat) (v : BitVec 128), (∃ d, d < 128 ∧ v.getLsbD d = true) →
      let e := eyeOf free k v
      ∃ a, 0 < e.2 ∧ a + e.2 ≤ 128 ∧ (∀ j, j < e.2 → v.getLsbD (a + j) = true) ∧ e.1 = (a + (a + e.2 - 1)) / 2
        ∧ ∀ b m, (∀ j, j < m → v.getLsbD (b + j) = true) → m ≤ e.2)
  ∧ (∀ (free k : Nat) (rd wr : BitVec 128),
      let r := eyeOf free k rd
      let w := eyeOf free (k + 1) wr
      trnOf free k rd wr = r.1 + min 127 r.2 * 2 ^ 7 + w.1 * 2 ^ 14 + min 127 w.2 * 2 ^ 21 + (if min r.2 w.2 < 24 then 1 else 0) * 2 ^ 28)
  ∧ ∀ u : State,
      (∀ (used : Nat → Bool) (fc ch : Nat) (w : Sweep), w.bits.length = 8 →
        let plain := trnOf u.free (8 * w.lane) w.rd w.wr
        let width (b : Nat) : Nat := eyeWidth (w.bits.getD b (0, 0)).1 (w.bits.getD b (0, 0)).2
        (bit plain 28 = false → u.trainLane used fc ch w = (plain, none))
        ∧ (bit plain 28 = true → ∃ b, b < 8 ∧ (∀ c, c < 8 → width c ≤ width b)
            ∧ let at_ : Nat × Nat := if w.lane < 8 then (32 * fc + 2 * ch + w.lane / 4, 8 * (w.lane % 4) + b)
                else (32 * fc + 2 * ch + b / 4, 32 + b % 4)
              u.trainLane used fc ch w = if used at_.1 then (plain, none)
                else (trnOf u.free (8 * w.lane + 3) (w.bits.getD b (0, 0)).1 (w.bits.getD b (0, 0)).2, some at_)))
      ∧ (∀ fc ch, u.degrade fc ch =
          let v := (u.setBit (FC_STATUS fc) 7 true).setBit (FC_STATUS fc) (16 + ch) true
          v.pfEvent { type := 0x0032, cls := 0x0B02, inst := fc, arg0 := ch, arg1 := v.regN (FC_STATUS fc) })
      ∧ ∀ off,
        let pc := (u.hbmPlace off).pc
        let n := min 0xFFFF (u.regN (FC_CECCH (pc / 32) (pc % 32 / 2)) + 1)
        let counted := (let v := ((u.count (FC_CEC (pc / 32)) 1).setRegN (FC_CECCH (pc / 32) (pc % 32 / 2)) n).blkErr .fc (pc / 32) 0
          if v.errThresh .fc (pc / 32) ≤ n then (v.blkErr .fc (pc / 32) 2).noSpare .fc (pc / 32) (pc % 32 / 2) n else v)
        u.hbmEcc off { ecc := .clean, onDie := false, lane := none } = u
        ∧ u.hbmEcc off { ecc := .single, onDie := false, lane := none } = counted
        ∧ (∀ l, u.hbmEcc off { ecc := .single, onDie := false, lane := some l } = counted.laneCorrected pc l.val)
        ∧ u.hbmEcc off { ecc := .clean, onDie := true, lane := none } = counted.count (FC_ODECC_CNT (pc / 32)) 1
        ∧ u.hbmEcc off { ecc := .double, onDie := false, lane := none } =
            let v := u.uncorrectable .fc (pc / 32)
            ((if v.poisonAt .hbm off then v else v.count (FC_UEC (pc / 32)) 1).setRegN (FC_POISON_LOG (pc / 32)) (off / 64 * 64)).poisonLine .hbm off

/-- FC_RETRAIN, AUTO_RETRAIN, RETRAIN_WINDOW and RETRAIN_COMPLETE (R291 to R293). -/
def Obligations.HbmRetrainsLive : Prop :=
  ∀ (s : State) (fc : Fin 8), s.up = true →
    (∀ v, exec (.fcRetrain false fc v) s = .next s.devErr)
    ∧ (∀ v : Word, bit v.toNat 8 = false → exec (.fcRetrain true fc v) s = .next s)
    ∧ (∀ v : Word, bit v.toNat 8 = true → exec (.fcRetrain true fc v) s = .next (s.askRetrain fc (v.toNat % 16)))
    ∧ (∀ temp : Byte,
        let u := (s.setField (FC_STATUS fc) 15 8 temp.toNat).setBit (FC_STATUS fc) 6 (decide (85 ≤ temp.toNat))
        let on := u.regBit (FC_CTL fc) 1 = true ∧ u.regBit (FC_STATUS fc) 0 = true
        (¬ on → exec (.autoRetrain fc temp) s = .next u)
        ∧ (on → exec (.autoRetrain fc temp) s = .next ((List.range 16).foldl (fun v ch =>
            if 15 < ((temp.toNat : Int) - (smapGet (fun _ => (0 : Byte)) v.hbmTrainTemp (16 * fc + ch)).toNat).natAbs
              ∧ ((smapFind v.retrain fc).any fun r => decide (r.ch = ch)) = false then v.askRetrain fc ch else v) u)))
    ∧ (∀ u : State,
        let running := smapFind u.retrain fc
        let mine := (u.retrainReq.filter fun r => decide (r.1 = fc.val)).map Prod.snd
        (∀ ch, (fc.val, ch) ∈ u.retrainReq → u.askRetrain fc ch = u.nextRetrain fc)
        ∧ (∀ ch, (fc.val, ch) ∉ u.retrainReq →
            u.askRetrain fc ch = ({ u with retrainReq := u.retrainReq ++ [(fc.val, ch)] } : State).nextRetrain fc)
        ∧ (∀ r, running = some r → u.nextRetrain fc = u)
        ∧ (mine = [] → u.nextRetrain fc = u)
        ∧ (running = none → mine ≠ [] → ∃ ch ∈ mine, (∀ c ∈ mine, ch ≤ c) ∧ u.nextRetrain fc
            = ((({ u with retrain := smapInsert u.retrain fc { ch := ch, windows := 0 }
                          retrainReq := u.retrainReq.filter fun r => r != (fc.val, ch) } : State).setBit (FC_STATUS fc) 1 true).setField
                  (FC_STATUS fc) 5 2 ch).setRegN (FC_RETRAIN_STAT fc) (1 + ch * 2 ^ 4)))
    ∧ (smapFind s.retrain fc = none → exec (.retrainWindow fc) s = .next s ∧ ∀ ws, exec (.retrainComplete fc ws) s = .next s)
    ∧ ∀ r, smapFind s.retrain fc = some r →
      let own (k : Nat) : Prop := k / 96 = 16 * fc + r.ch
      let clear := (∀ e ∈ s.hbmDue, ¬ own e.1) ∧ ∀ x ∈ s.hbmTrrDue, ¬ own x.1
      (1024 ≤ r.windows ∨ ¬ clear → exec (.retrainWindow fc) s = .next s)
      ∧ (r.windows < 1024 → clear → exec (.retrainWindow fc) s
          = .next (({ s with retrain := smapInsert s.retrain fc { r with windows := r.windows + 1 }
                             hbmRow := s.hbmRow.filter fun e => !decide (own e.1) } : State).setField (FC_RETRAIN_STAT fc) 31 16 (r.windows + 1)))
      ∧ (r.windows < 1024 → ∀ ws, exec (.retrainComplete fc ws) s = .next s)
      ∧ (1024 ≤ r.windows → ∀ ws,
          let u := (({ s with retrain := smapErase s.retrain fc } : State).setBit (FC_STATUS fc) 1 false).setField (FC_STATUS fc) 5 2 0
          let due := (u.lineRepair.filter fun e => decide (e.1 / 2 = 16 * fc.val + r.ch)).filter fun e => !u.laneUsed e.1
          let repaired := due.foldl (fun (v : State) (pc, lane) => v.laneRepair pc lane) u
          let t := repaired.trainChannel fc r.ch ws
          let taken : State := { repaired.tick.putTraining fc r.ch t with
                                 lineRepair := smapClear (fun k => decide (k / 2 = 16 * fc.val + r.ch)) u.lineRepair }
          ((∃ x ∈ t.1, bit x.2 28 = true) → exec (.retrainComplete fc ws) s
            = .next ((((((t.1.filter fun x => bit x.2 28).foldl
                (fun (v : State) x => v.setBit (FC_TRN fc (9 * r.ch + x.1)) 28 true) u.tick).degrade fc r.ch)).setField
                  (FC_RETRAIN_STAT fc) 1 0 3).nextRetrain fc))
          ∧ ((∀ x ∈ t.1, bit x.2 28 = false) → due = [] ∧ t.2 = [] →
              exec (.retrainComplete fc ws) s = .next ((taken.setField (FC_RETRAIN_STAT fc) 1 0 2).nextRetrain fc))
          ∧ ((∀ x ∈ t.1, bit x.2 28 = false) → ¬ (due = [] ∧ t.2 = []) →
              exec (.retrainComplete fc ws) s = .next ((taken.setField (FC_RETRAIN_STAT fc) 1 0 2).record.nextRetrain fc)))

/-- NAND_CHANNEL_TRAINING, NAND_BACKGROUND_ERASE, NAND_DQ_RETRAIN, WEAR_LEVEL_RELOCATION and READ_DISTURB_COPY (R297 to R303). -/
def Obligations.NandTrainsWearsAndCopies : Prop :=
  ∀ s : State, s.up = true →
    (∀ (ch : Fin 16) (ok : Bool) (trn : BitVec 24) (temp : Byte),
      let u := ({ (s.setRegN (QC_NCH_STAT ch) ((if ok then 1 else 2) + temp.toNat * 2 ^ 8)).setRegN (QC_NCH_TRN ch) trn.toNat with
        nandTemp := smapSet (fun _ => 0) s.nandTemp ch temp } : State).setBit QC_NAND_STATUS (16 + ch) ok
      let v := if (List.range 16).all u.nandTrained then
          ((u.setBit QC_NAND_STATUS 0 true).setField QC_NAND_RETIRED 63 32 Config.nandSpareBlocks).showBacklog else u
      (s.nandTrained ch = true → exec (.nandChannelTraining ch ok trn temp) s = .next s)
      ∧ (s.nandTrained ch = false → exec (.nandChannelTraining ch ok trn temp) s
          = .next (if ok then v else v.pfEvent { type := 0x0013, cls := 0x0B03, arg0 := v.regN QC_NAND_STATUS })))
    ∧ (∀ (ch : Fin 16) (sb : Nat) (ok : Bool),
      let b := s.superblock ch sb
      let due := b.st = .dirty ∧ s.nandIn ch = true
      let u := (s.putSuperblock { b with erases := b.erases + 1, reads := [], st := .free }).showBacklog
      (¬ due → exec (.nandBackgroundErase ch sb ok) s = .next s)
      ∧ (due → exec (.nandBackgroundErase ch sb ok) s = .next (if ok
          then ({ u with free := u.free + 1 } : State).nandSpare (u.field QC_NAND_RETIRED 63 32 + Config.freeNat u.free)
          else (u.setField QC_NAND_RETIRED 31 0 (u.field QC_NAND_RETIRED 31 0 + 1)).nandSpare (u.field QC_NAND_RETIRED 63 32 - 1))))
    ∧ (∀ (u : State) (left : Nat),
      let v := u.setField QC_NAND_RETIRED 63 32 left
      let ro := v.setBit QC_NAND_STATUS 2 true
      (100 * left < Config.nandDataBlocks → v.nandRo = false →
        u.nandSpare left = ro.pfEvent { type := 0x0013, cls := 0x0B03, arg0 := ro.regN QC_NAND_STATUS })
      ∧ (¬ (100 * left < Config.nandDataBlocks ∧ v.nandRo = false) →
        u.nandSpare left = if Config.nandDataBlocks < 50 * left then v.setBit QC_NAND_STATUS 2 false else v))
    ∧ (∀ (ch : Fin 16) (trn : BitVec 24) (temp : Byte),
      let shown := s.setField (QC_NCH_STAT ch) 15 8 temp.toNat
      let moved := 20 < (signedOf 8 temp.toNat - signedOf 8 (smapGet (fun _ => (0 : Byte)) s.nandTemp ch).toNat).natAbs
      (s.nandIn ch = false → exec (.nandDqRetrain ch trn temp) s = .next s)
      ∧ (s.nandIn ch = true → ¬ moved → exec (.nandDqRetrain ch trn temp) s = .next shown)
      ∧ (s.nandIn ch = true → moved → exec (.nandDqRetrain ch trn temp) s = .next
          { shown.setRegN (QC_NCH_TRN ch) trn.toNat with nandTemp := smapSet (fun _ => 0) s.nandTemp ch temp }))
    ∧ (∀ rep : List NandReport,
       let held := s.nandSb.filter fun b => decide (b.st = .holding)
       let worn := s.nandEc.1 + s.field QC_NAND_WL_DELTA 15 0 < s.nandEc.2
       (¬ worn ∨ held = [] → exec (.wearLevelRelocation rep) s = .next s)
       ∧ (worn → held ≠ [] → ∃ b ∈ held, (∀ c ∈ held, b.erases ≤ c.erases)
          ∧ exec (.wearLevelRelocation rep) s = .next ((s.nandRelocate b rep b.units).count QC_NAND_WL_CNT 1)))
    ∧ (∀ (ch : Fin 16) (sb blk : Nat) (rep : List NandReport),
      let b := s.superblock ch sb
      let us := b.units.filter fun u => decide (u.blk = blk)
      let due := b.st = .holding ∧ us ≠ [] ∧ s.field QC_NAND_RD_THRESH 23 0 ≤ smapGet (fun _ => 0) b.reads blk
      (¬ due → exec (.readDisturbCopy ch sb blk rep) s = .next s)
      ∧ (due → exec (.readDisturbCopy ch sb blk rep) s = .next ((s.nandRelocate b rep us).count QC_NAND_RD_RELOC 1)))
    ∧ (∀ (u : State) (b : Superblock) (rep : List NandReport) (us : List NandUnit),
      let left := b.units.filter fun x => !us.contains x
      let v := (u.putSuperblock { b with units := left, st := if left.isEmpty then .dirty else b.st }).nandWrite (us.map fun x => (x.idx, x.unit))
      let lost := ((rep.flatMap fun r => r.lost).filter fun i => us.any fun x => decide (x.idx = i)).eraseDups
      { v with nandSb := u.nandSb, regs := u.regs, free := u.free } = u
      ∧ u.nandRelocate b rep us = (lost.foldl (fun (w : State) i => if (w.tensor i).poisoned then w else w.poisonTensor i)
          (v.nandReport rep)).showBacklog)
    ∧ (∀ (u : State) (r : NandReport),
      let v := ((u.count (QC_NCH_CEC r.ch) r.cec).count (QC_NCH_RETRY r.ch) r.retry).count QC_NAND_UEC r.uec
      r.retired = 0 → u.nandReport [r] = (List.range (r.cec + r.retry)).foldl (fun (w : State) _ => w.nandLeak r.ch) v)
    ∧ ∀ (u : State) (b : Superblock), u.pickSb = some b →
      ((∃ ch, ch < 16 ∧ u.nandIn ch = true ∧ ∃ i, u.freshSb ch = some i ∧ b = u.superblock ch i) ∨ (b ∈ u.nandSb ∧ b.st = .free ∧ u.nandIn b.ch = true))
      ∧ (∀ c ∈ u.nandSb, c.st = .free → u.nandIn c.ch = true → b.erases ≤ c.erases)
      ∧ ∀ ch i, ch < 16 → u.nandIn ch = true → u.freshSb ch = some i → b.erases ≤ (u.superblock ch i).erases

/-- PROGRAM_LINE, ERASE_BLOCK, PLINTH_SUSPEND, PLINTH_RESUME, CLEAR_ERRORS and RESET_TO_READ (R305 to R311). -/
def Obligations.PlinthCommandSequences : Prop :=
  ∀ s : State, s.up = true → s.canon = true →
    (∀ ws, exec (.programLine ws) s = .next (ws.foldl (fun u w => u.plWrite w.1.toNat w.2.toNat) s))
    ∧ (∀ ws, exec (.eraseBlock ws) s = .next (ws.foldl (fun u w => u.plWrite w.1.toNat w.2.toNat) s))
    ∧ (∀ a : Word, a.toNat < 0x20000000 ∨ 0x24000000 ≤ a.toNat → ∀ v, s.plWrite a.toNat v = s)
    ∧ ∀ b : Fin 2,
      let base := 0x20000000 + b.val * 0x2000000
      let k := s.plBank b
      let busy := ∃ o, k.op = some o ∧ o.susp = false
      let ops := [0, 1].flatMap fun i => (s.plBank i).op.toList ++ (s.plBank i).held.toList
      let at_ (a : Nat) : Word := BitVec.ofNat 32 (base + a)
      let unlock : List (Word × Word) := [(at_ 0x1554, 0xAA), (at_ 0x0AA8, 0x55)]
      let set (k : PlBank) : State := s.setPlBank b k
      let broken : State := (set { k with seq := .read }).setBit (plStat b) 5 true
      let same (t : State) : Prop := t.plBank b = k ∧ t.plMark = s.plMark ∧ t.plEc = s.plEc
      (∀ (auto : Bool) (a : Nat) (ws : List Word), ws.length = 8 → a % 32 = 0 → a < 0x2000000 → k.seq = .read → ¬ busy →
        let blk := 256 * b.val + a / 0x20000
        let inWay := ∃ p ∈ ops, p.erase = false ∨ p.susp = false ∨ p.block = blk
        ∃ t, exec (.programLine (unlock ++ [(at_ 0x1554, if auto then 0xA1 else 0xA0)] ++ ws.zipIdx.map fun (w, i) => (at_ (a + 4 * i), w))) s
            = .next t
          ∧ t.plBank (1 - b) = s.plBank (1 - b) ∧ (∀ r, r ≠ plStat b → t.reg r = s.reg r)
          ∧ { t with regs := s.regs, plBank0 := s.plBank0, plBank1 := s.plBank1, plMark := s.plMark, plEc := s.plEc
                     plPrefetch := s.plPrefetch, plBranch := s.plBranch } = s
          ∧ (inWay → t.regBit (plStat b) 5 = true ∧ same t)
          ∧ (¬ inWay → s.plLocked blk = true → t.regBit (plStat b) 6 = true ∧ same t)
          ∧ (¬ inWay → s.plIndet blk = true → t.regBit (plStat b) 7 = true ∧ same t)
          ∧ (¬ inWay → s.plLocked blk = false → s.plIndet blk = false →
              t.plBank b = { seq := .read, op := some { erase := false, block := blk, line := (b.val * 0x2000000 + a) / 32
                                                        data := ws.flatMap fun w => leBytes 4 w.toNat, auto := auto
                                                        susp := false, asked := false, fetch := none }, held := k.op.or k.held }
              ∧ t.plMark = smapInsert s.plMark blk true ∧ t.plEc = s.plEc ∧ t.regBit (plStat b) 0 = true
              ∧ ∀ l ∈ t.plPrefetch ++ t.plBranch, l * 32 / 0x2000000 ≠ b.val))
      ∧ (∀ (auto : Bool) (a : Nat), a % 4 = 0 → a < 0x2000000 → k.seq = .read → ¬ busy →
        let blk := 256 * b.val + a / 0x20000
        ∃ t, exec (.eraseBlock (unlock ++ [(at_ 0x1554, 0x80)] ++ unlock ++ [(at_ a, if auto then 0x31 else 0x30)])) s = .next t
          ∧ t.plBank (1 - b) = s.plBank (1 - b) ∧ (∀ r, r ≠ plStat b → t.reg r = s.reg r)
          ∧ { t with regs := s.regs, plBank0 := s.plBank0, plBank1 := s.plBank1, plMark := s.plMark, plEc := s.plEc
                     plPrefetch := s.plPrefetch, plBranch := s.plBranch } = s
          ∧ (ops ≠ [] → t.regBit (plStat b) 5 = true ∧ same t)
          ∧ (ops = [] → s.plLocked blk = true → t.regBit (plStat b) 6 = true ∧ same t)
          ∧ (ops = [] → s.plLocked blk = false →
              t.plBank b = { seq := .read, op := some { erase := true, block := blk, line := (b.val * 0x2000000 + a) / 32, data := [], auto := auto
                                                        susp := false, asked := false, fetch := none }, held := none }
              ∧ t.plMark = smapInsert s.plMark blk false
              ∧ t.plEc = smapSet (fun _ => 0) s.plEc blk (BitVec.ofNat 32 (min 0xFFFFFFFF ((smapGet (fun _ => (0 : Word)) s.plEc blk).toNat + 1)))
              ∧ t.regBit (plStat b) 0 = true ∧ ∀ l ∈ t.plPrefetch ++ t.plBranch, l * 32 / 0x2000000 ≠ b.val))
      ∧ ∀ a : Nat, a < 0x2000000 → ∀ (c : Instr) (v : Nat),
          (c, v) ∈ [(Instr.plinthSuspend (at_ a), 0xB0), (.plinthResume (at_ a), 0xD0), (.clearErrors (at_ a), 0x50), (.resetToRead (at_ a), 0xF0)] →
          (busy → a % 4 ≠ 0 ∨ v ≠ 0xB0 → exec c s = .next (s.setBit (plStat b) 5 true))
          ∧ (∀ o, k.op = some o → o.susp = false → a % 4 = 0 → v = 0xB0 → exec c s = .next
              (if s.plEraseHeld = true then s.setBit (plStat b) 5 true else set { k with op := some { o with asked := true } }))
          ∧ (¬ busy → a % 4 ≠ 0 → exec c s = .next broken)
          ∧ (¬ busy → a % 4 = 0 → k.seq = .read →
              (v = 0xB0 → exec c s = .next (if s.plEraseHeld = true ∧ s.plBusy (1 - b) = true then s.setBit (plStat b) 5 true else
                (match k.op with | none => s | some o => set { k with op := some { o with fetch := none } })))
              ∧ (v = 0xD0 → exec c s = .next (match k.op with
                | none => s
                | some o => if s.plBusy (1 - b) = true then s.setBit (plStat b) 5 true else set { k with op := some { o with susp := false, fetch := none } }))
              ∧ (v = 0x50 → exec c s = .next (s.setField (plStat b) 7 3 0)))
          ∧ (¬ busy → a % 4 = 0 → (∀ x y z, k.seq ≠ .prog x y z) →
              (v = 0xF0 → exec c s = .next (if k.op = none then set { k with seq := .read } else s))
              ∧ (v ≠ 0xF0 → k.seq ≠ .read → exec c s = .next broken))
          ∧ ∀ x y z, ¬ busy → a % 4 = 0 → k.seq = .prog x y z → ¬ (if z = [] then a % 32 = 0 else b.val * 0x2000000 + a = y + 4 * z.length) →
              (v ≠ 0xF0 → exec c s = .next broken)
              ∧ (v = 0xF0 → exec c s = .next (if k.op = none then set { k with seq := .read } else s))

/-- PLINTH_SUSPEND_DONE, AUTO_SUSPEND_RESUME, PLINTH_PROGRAM_DONE and PLINTH_ERASE_DONE (R307, R311 to R315, R319). -/
def Obligations.PlinthOperationsEnd : Prop :=
  ∀ (s : State) (bank : Bool), s.up = true → s.canon = true →
    let b := if bank then 1 else 0
    let k := s.plBank b
    let byte (u : State) (x : Nat) : Byte := memByte erasedByte u.plArray x
    ((∀ o, k.op = some o → o.asked = false ∨ o.susp = true) → exec (.plinthSuspendDone bank) s = .next s)
    ∧ ((∀ o, k.op = some o → o.susp = false ∨ o.fetch = none ∨ s.plBusy 0 = true ∨ s.plBusy 1 = true) → exec (.autoSuspendResume bank) s = .next s)
    ∧ ((∀ o, k.op = some o → o.erase = true ∨ o.susp = true) → ∀ ok, exec (.plinthProgramDone bank ok) s = .next s)
    ∧ ((∀ o, k.op = some o → o.erase = false ∨ o.susp = true) → ∀ ok, exec (.plinthEraseDone bank ok) s = .next s)
    ∧ (∀ o, k.op = some o →
      (o.asked = true → o.susp = false →
        let u := s.setPlBank b { k with op := some { o with susp := true, asked := false } }
        exec (.plinthSuspendDone bank) s = .next (match o.fetch with | some a => u.plServe a | none => u))
      ∧ (o.susp = true → o.fetch.isSome = true → s.plBusy 0 = false → s.plBusy 1 = false →
        exec (.autoSuspendResume bank) s = .next (s.setPlBank b { k with op := some { o with susp := false, fetch := none } }))
      ∧ (o.erase = false → o.susp = false → o.data.length = 32 →
        let line := 32 * o.line
        let want (x : Nat) : Byte := byte s x &&& o.data.getD (x - line) 0
        let clash := ∃ x, line ≤ x ∧ x < line + 32 ∧ want x ≠ o.data.getD (x - line) 0
        (∃ u, exec (.plinthProgramDone bank true) s = .next (u.plEnd b).writeDue
          ∧ (∀ x, byte u x = if line ≤ x ∧ x < line + 32 then want x else byte s x)
          ∧ (clash → u.plMark = s.plMark ∧ u.regs = (s.setBit (plStat b) 3 true).regs)
          ∧ (¬ clash → u.plMark = smapErase s.plMark o.block ∧ u.regs = s.regs)
          ∧ { u with plArray := s.plArray, plMark := s.plMark, regs := s.regs } = s)
        ∧ ∃ u, exec (.plinthProgramDone bank false) s = .next (u.plEnd b).writeDue
          ∧ (∀ x, x < line ∨ line + 32 ≤ x → byte u x = byte s x)
          ∧ (∀ x, line ≤ x → x < line + 32 → byte u x &&& byte s x = byte u x ∧ byte u x &&& want x = want x)
          ∧ u.regs = (s.setBit (plStat b) 3 true).regs
          ∧ { u with plArray := s.plArray, regs := s.regs, free := s.free } = s)
      ∧ (o.erase = true → o.susp = false →
        let inside (x : Nat) : Prop := x / 0x20000 = o.block
        (∃ u, exec (.plinthEraseDone bank true) s = .next (u.plEnd b).writeDue
          ∧ (∀ x, byte u x = if inside x then 0xFF else byte s x) ∧ u.plMark = smapErase s.plMark o.block
          ∧ (let v := s.setBit (PL_INDET (o.block / 32)) (o.block % 32) false
             u.regs = (v.setField PL_STATUS 15 8 (min 255 ((List.range 512).filter v.plIndet).length)).regs)
          ∧ { u with plArray := s.plArray, plMark := s.plMark, regs := s.regs } = s)
        ∧ ∃ u, exec (.plinthEraseDone bank false) s = .next (u.plEnd b).writeDue
          ∧ (∀ x, ¬ inside x → byte u x = byte s x) ∧ u.regs = (s.setBit (plStat b) 4 true).regs
          ∧ { u with plArray := s.plArray, regs := s.regs, free := s.free } = s))
    ∧ ∀ u : State, smapWf resetOf u.regs = true →
      let l := u.plBank b
      let v := u.setPlBank b { l with op := none, held := none }
      (∃ w, u.plEnd b = (match l.op.bind PlOp.fetch with | some a => w.plServe a | none => w)
        ∧ (l.held = none → w = v)
        ∧ ∀ o, l.held = some o → w.plBank b = { l with op := some o, held := none }
          ∧ w.regs = (v.setBit (plStat b) 1 true).regs ∧ w.plBank (1 - b) = u.plBank (1 - b))
      ∧ (u.recDue = [] ∨ u.plFree = false → u.writeDue = u)
      ∧ (u.plFree = true → u.writeDue = { u.recDue.foldl (fun (x : State) r => [4, 256, 258].foldl (fun x d => x.writeCopy r d) x) u with recDue := [] })

/-- PLINTH_DATA_READ, QUOIN_FETCH and QUOIN_BOOT (R312, R315, R317 to R319, R361, R385, R426, R427). -/
def Obligations.PlinthReadsFetchesAndStarts : Prop :=
  ∀ s : State, s.up = true → s.canon = true →
    (∀ addr : Word, addr.toNat < 0x20000000 ∨ 0x24000000 ≤ addr.toNat →
      exec (.plinthDataRead addr) s = .next s ∧ exec (.quoinFetch addr) s = .next s)
    ∧ (∀ (addr : Word) (a b blk : Nat), addr.toNat = 0x20000000 + a → a < 0x4000000 → b = a / 0x2000000 → blk = a / 0x20000 →
      let k := s.plBank b
      let runs := ∃ o, k.op = some o ∧ o.susp = false
      let under := ∃ o, (k.op = some o ∨ k.held = some o) ∧ o.block = blk
      let word := leNat ((List.range 4).map fun i => memByte erasedByte s.plArray (a / 4 * 4 + i))
      ((runs ∨ under → exec (.plinthDataRead addr) s = .next { s with plRead := BitVec.ofNat 32 (s.regN (plStat b)) })
        ∧ (¬ runs → ¬ under → exec (.plinthDataRead addr) s = .next
            (let u := { s with plRead := BitVec.ofNat 32 word }
             if s.plIndet blk then u.setRegN PL_RD_INDET (blk + 2 ^ 31) else u))
        ∧ (let faulted := s.setRegN PL_FAULT_ADDR (a + (if s.plIndet blk then 2 ^ 30 else 0) + 2 ^ 31)
           (under ∨ s.plIndet blk = true → exec (.quoinFetch addr) s = .next faulted)
           ∧ (∀ o, ¬ under → s.plIndet blk = false → k.op = some o → o.susp = false → exec (.quoinFetch addr) s = .next (if o.auto
              then s.setPlBank b { k with op := some { o with asked := true, fetch := some a } } else faulted))
           ∧ (¬ runs → ¬ under → s.plIndet blk = false → exec (.quoinFetch addr) s = .next (s.plServe a)))))
    ∧ (∀ (u : State) (a : Nat),
      let line := a / 32
      let b := a / 0x2000000
      let quiet := (u.plBank b).op = none ∧ (u.plBank b).held = none
      let pre := u.regBit PL_XIP_CTL 0 = true
      let br := u.regBit PL_XIP_CTL 1 = true
      let hit := quiet ∧ ((pre ∧ line ∈ u.plPrefetch) ∨ (br ∧ line ∈ u.plBranch))
      let v := u.plServe a
      v.plFetch = (List.range 32).map (fun i => memByte erasedByte u.plArray (line * 32 + i)) ∧ v.plLast = some line
      ∧ (hit → v.regs = (u.count PL_XIP_HIT 1).regs) ∧ (¬ hit → v.regs = (u.count PL_XIP_MISS 1).regs)
      ∧ (quiet → pre → ∀ l, l ∈ v.plPrefetch ↔ line < l ∧ l ≤ line + 4 ∧ l * 32 / 0x2000000 = b)
      ∧ (quiet → br → ¬ hit → (∀ l, u.plLast = some l → l + 1 ≠ line) → v.plBranch = (line :: u.plBranch).take 16)
      ∧ (¬ quiet → v.plPrefetch = u.plPrefetch ∧ v.plBranch = u.plBranch)
      ∧ { v with plFetch := u.plFetch, plLast := u.plLast, plBranch := u.plBranch, plPrefetch := u.plPrefetch, regs := u.regs } = u)
    ∧ (s.fw.booted = true → exec .quoinBoot s = .next s)
    ∧ (s.fw.booted = false →
      let u := (s.plServe 0).plChoose
      ∃ r, u.cfgRec = some r ∧
        let v := ((u.plTake r).bootRegions.newKey 16).tick
        exec .quoinBoot s = .next { v with fw := { v.fw with booted := true } })
    ∧ (∀ u : State, u.canon = true →
      let home (k : Nat) : Prop := k = 4 ∨ k = 256 ∨ k = 258
      let copy (w : State) (k : Nat) : Bytes := w.cfgCopy k
      let good (k : Nat) : Prop := home k ∧ cfgValid (copy u k) = true ∧ u.plIndet k = false
      let seq (k : Nat) : Nat := pfield (copy u k) 8 8
      let rules (k : Nat) : Prop := good k ∧ ∀ j, good j → seq j ≤ seq k ∧ (seq j = seq k → copy u j = copy u k)
      let v := u.plChoose
      let open_ := (∀ b, b = 0 ∨ b = 1 → (u.plBank b).op = none ∧ (u.plBank b).held = none) ∧ ∀ k, home k → u.plLocked k = false
      (∀ k, rules k → open_ → v.cfgRec = some (CfgRec.of (copy u k)) ∧ v.regN QN_CFG_STAT % 4 = 0
        ∧ (∀ j, home j → copy v j = copy u k)
        ∧ ∀ x, (¬ home (x / 0x20000) ∨ (good (x / 0x20000) ∧ copy u (x / 0x20000) = copy u k)) →
            memByte erasedByte v.plArray x = memByte erasedByte u.plArray x)
      ∧ ((∀ k, ¬ rules k) → v.plArray = u.plArray ∧ ((∃ k, good k) → v.regN QN_CFG_STAT % 4 = 1) ∧ ((∀ k, ¬ good k) → v.regN QN_CFG_STAT % 4 = 2)
        ∧ ∃ r, v.cfgRec = some r ∧ r.slotB = false ∧ r.spares = cfgClasses.map fusedSpares
          ∧ r.retired = List.replicate 6 0 ∧ r.bedmap = List.replicate 64 0 ∧ r.repairs = List.replicate 128 0
          ∧ (let read (k : Nat) : Prop := home k ∧ cfgCrcOk (copy u k) = true
             let min (k : Nat) : Nat := pfield (copy u k) 0x10 4
             ((∀ k, ¬ read k) → r.minSvn = Config.fusedMinSvn ∧ r.seq = 0)
             ∧ ((∃ k, read k) → (∃ k, read k ∧ r.minSvn = BitVec.ofNat 32 (min k) ∧ ∀ j, read j → min j ≤ min k)
                ∧ ∃ k, read k ∧ r.seq = seq k ∧ ∀ j, read j → seq j ≤ seq k))))

/-- PORT_ENABLE, LINK_UP, LINK_DOWN, REFCLK_F_LOSS, REFCLK_F_RESTORE, PFC_FRAME_RECEIVE, PAUSE_EXPIRY and PFC_REPEAT (R12, R324, R326,
R334, R338, R339, R451). -/
def Obligations.PortsLinksAndPauses : Prop :=
  (∀ s : State, s.up = true → s.canon = true →
    (∀ (p : Fin 8) (v : Word),
      let on := s.regBit (DP_CTL p) 0
      let want := v.getLsbD 0
      let u := s.setRegN (DP_CTL p) (v.toNat % 8)
      exec (.portEnable false p v) s = .next s.devErr
      ∧ (want = on → exec (.portEnable true p v) s = .next u)
      ∧ (want = true → on = false → exec (.portEnable true p v) s
          = .next { u with conn := u.conn.filter (·.port != p.val), rconn := u.rconn.filter (·.port != p.val) })
      ∧ (want = false → on = true → exec (.portEnable true p v) s = .next (u.dropLink p)))
    ∧ (∀ p : Fin 8,
      let trains := s.regBit (DP_CTL p) 0 = true ∧ s.regBit DP_CHIP_ID 31 = true ∧ s.pins.refclkF.getLsbD (p.val / 2) = true ∧ s.link p = false
      let u := s.setRegN (DP_STATUS p) (if s.regBit (DP_CTL p) 2 then 0xF7 else 0xF1)
      (¬ trains → exec (.linkUp p) s = .next s)
      ∧ (trains → exec (.linkUp p) s = .next ((List.range 8).foldl (fun w k => w.pumpAll p k) u))
      ∧ exec (.linkDown p) s = .next (if s.link p then s.dropLink p else s))
    ∧ (∀ (p : Fin 8) (frame : WireFrame),
      let u := if s.link p then (s.count (DP_FEC_CORR p) frame.corr).count (DP_FEC_UNCORR p) frame.uncorr else s
      (∀ en quanta, frame.uncorr = 0 → u.hear p frame.octets = .pfc en quanta → ∃ t, exec (.pfcFrameReceive p frame) s = .next t
        ∧ t = (List.range 8).foldl (fun v k => if en.testBit k then v.setPaused p k (decide (quanta.getD k 0 ≠ 0)) else v) u
        ∧ ((∀ c ∈ s.rconn, c.port = p.val → c.due = []) → (∀ c ∈ s.conn, c.port = p.val → c.nak = none ∧ c.rsDue = false) →
          (∀ k, k < 8 → t.paused p k = if en.testBit k then decide (quanta.getD k 0 ≠ 0) else s.paused p k)
          ∧ (∀ q k, q ≠ p.val ∨ 8 ≤ k → t.paused q k = s.paused q k)
          ∧ { t with regs := s.regs, tx := s.tx, conn := s.conn, rops := s.rops, pausedBy := s.pausedBy } = s))
      ∧ (frame.uncorr ≠ 0 ∨ (∀ en quanta, u.hear p frame.octets ≠ .pfc en quanta) → exec (.pfcFrameReceive p frame) s = .next u))
    ∧ ∀ p k : Fin 8, exec (.pauseExpiry p k) s = .next (if s.paused p k then s.setPaused p k false else s)
      ∧ (let lasts := s.pausing.contains (p.val, k.val) = true ∧ s.rxFree p < s.regN (DP_PFC_XOFF p) ∧ ∃ f ∈ s.rxq, f.port = p.val ∧ f.tc = k.val
         (lasts → exec (.pfcRepeat p k) s = .next (s.send p (s.pfcFrame p k 0xFFFF)))
         ∧ (¬ lasts → exec (.pfcRepeat p k) s = .next s)))
  ∧ (∀ (u : State) (p : Nat), u.canon = true →
    let w := u.dropLink p
    w.link p = false ∧ w.regN (DP_STATUS p) = 0 ∧ (∀ a, a ≠ DP_STATUS p → w.reg a = u.reg a)
    ∧ (∀ q k, w.paused q k = (u.paused q k && q != p)) ∧ (∀ q k, w.pausing.contains (q, k) = (u.pausing.contains (q, k) && q != p))
    ∧ { w with regs := u.regs, pausedBy := u.pausedBy, pausing := u.pausing } = u)
  ∧ (∀ (u : State) (p k : Nat) (on : Bool), u.canon = true →
    (on = false → (∀ c ∈ u.rconn, c.port = p → c.tc = k → c.due = []) ∧ ∀ c ∈ u.conn, c.port = p → c.tc = k → c.nak = none ∧ c.rsDue = false) →
    let w := u.setPaused p k on
    (∀ q j, w.paused q j = if q = p ∧ j = k then on else u.paused q j)
    ∧ w.field (DP_STATUS p) 15 8 = ((List.range 8).map fun j => if w.paused p j then 2 ^ j else 0).foldl (· + ·) 0
    ∧ (on = true → { w with regs := u.regs, pausedBy := u.pausedBy } = u)
    ∧ { w with regs := u.regs, tx := u.tx, conn := u.conn, rops := u.rops, pausedBy := u.pausedBy } = u)
  ∧ (∀ (u : State) (p : Nat), 
    let free := u.rxFree p
    let holds (k : Nat) : Prop := ∃ f ∈ u.rxq, f.port = p ∧ f.tc = k
    let w := u.pauseUpdate p
    (free < u.regN (DP_PFC_XOFF p) → ∀ q k, (q, k) ∈ w.pausing ↔ ((q, k) ∈ u.pausing ∨ (q = p ∧ k < 8 ∧ holds k)))
    ∧ (¬ free < u.regN (DP_PFC_XOFF p) → u.regN (DP_PFC_XON p) < free →
        ∀ q k, (q, k) ∈ w.pausing ↔ ((q, k) ∈ u.pausing ∧ ¬ (q = p ∧ k < 8)))
    ∧ (¬ free < u.regN (DP_PFC_XOFF p) → ¬ u.regN (DP_PFC_XON p) < free → w.pausing = u.pausing ∧ w.tx = u.tx)
    ∧ { w with regs := u.regs, tx := u.tx, pausing := u.pausing } = u)
  ∧ (∀ (u : State) (p : Nat) (bs : Bytes), u.send p bs = if u.link p = true ∧ u.regBit DP_CHIP_ID 31 = true then { u with tx := (p, bs) :: u.tx } else u)
  ∧ ∀ (s : State) (n : Fin 4), s.undef = false →
    let gone := BitVec.ofNat 4 (2 ^ n.val)
    let u := { s with pins := { s.pins with refclkF := s.pins.refclkF &&& ~~~ gone } }
    let v := if s.link (2 * n.val) then u.dropLink (2 * n.val) else u
    exec (.refclkFLoss n) s = .next (if v.link (2 * n.val + 1) then v.dropLink (2 * n.val + 1) else v)
    ∧ exec (.refclkFRestore n) s = .next { s with pins := { s.pins with refclkF := s.pins.refclkF ||| gone } }

/-- ACK_RECEIVE, NAK_RECEIVE, ACK_TIMEOUT, RESYNC_RECEIVE, RESYNC_ACK_RECEIVE and RESYNC_RETRY (R330 to R334, R339, R341; assumption
20). -/
def Obligations.ConnectionsResendAndResync : Prop :=
  (∀ s : State, s.up = true →
    (∀ (p : Fin 8) (w : WireFrame) (f : Frame),
      let v := if s.link p then (s.count (DP_FEC_CORR p) w.corr).count (DP_FEC_UNCORR p) w.uncorr else s
      w.uncorr = 0 → v.hear p w.octets = .frame f →
      let u := if f.ackV then v.acked f.port f.tc f.src f.ack else v
      (f.type = 3 → exec (.ackReceive p w) s = .next u)
      ∧ (f.type = 4 → u.conn.find? (·.at f.port f.tc f.src) = none → exec (.nakReceive p w) s = .next u)
      ∧ (f.type = 4 → ∀ c, u.conn.find? (·.at f.port f.tc f.src) = some c →
        (c.resync = true ∨ c.unacked = [] → exec (.nakReceive p w) s = .next u)
        ∧ (c.resync = false → c.unacked ≠ [] → exec (.nakReceive p w) s = .next (if u.paused f.port f.tc
            then u.putConn { c with nak := some (decide (f.reason = 2)) } else u.retransmit c (decide (f.reason = 2)))))
      ∧ (f.type = 5 →
          let old := v.rconnOf f.port f.tc f.src
          let epoch := BitVec.ofNat 32 f.addr.toNat
          exec (.resyncReceive p w) s = .next (v.answer
            { old with exp := f.ack, epoch := epoch, ctl := if old.epoch = epoch then old.ctl else 0 } 6 0))
      ∧ (f.type = 6 → v.conn.find? (·.at f.port f.tc f.src) = none → exec (.resyncAckReceive p w) s = .next v)
      ∧ (f.type = 6 → ∀ c, v.conn.find? (·.at f.port f.tc f.src) = some c →
          exec (.resyncAckReceive p w) s = .next (if c.resync then v.pump { c with resync := false, rsDue := false } else v)))
    ∧ ∀ (p k : Fin 8) (peer : BitVec 12),
      (s.conn.find? (·.at p k peer.toNat) = none → exec (.ackTimeout p k peer) s = .next s ∧ exec (.resyncRetry p k peer) s = .next s)
      ∧ ∀ c, s.conn.find? (·.at p k peer.toNat) = some c →
        exec (.resyncRetry p k peer) s = .next (if c.resync then s.sendResync c else s)
        ∧ (c.resync = true ∨ c.unacked = [] ∨ s.paused p k = true → exec (.ackTimeout p k peer) s = .next s)
        ∧ (c.resync = false → c.unacked ≠ [] → s.paused p k = false → exec (.ackTimeout p k peer) s = .next (s.retransmit c false)))
  ∧ (∀ (u : State) (p k q psn : Nat) (c : Conn), u.conn.find? (·.at p k q) = some c → ∃ l, u.acked p k q psn = u.pump { c with unacked := l }
      ∧ ∀ x, x ∈ l ↔ x ∈ c.unacked ∧ 0 < (x.psn + 2 ^ 24 - psn) % 2 ^ 24 ∧ (x.psn + 2 ^ 24 - psn) % 2 ^ 24 < 2 ^ 23)
  ∧ (∀ (u : State) (c : Conn), ∃ (n : Nat) (sent : List Sent) (e : Conn) (w : State),
      u.pump c = w.putConn e ∧ w.conn = u.conn ∧ n ≤ c.queue.length ∧ sent.length = n
      ∧ e = { c with queue := c.queue.drop n, unacked := c.unacked ++ sent, psn := if n = 0 then c.psn else (c.psn + n) % 2 ^ 24 }
      ∧ sent.map (·.psn) = ((List.range n).map fun i => if i = 0 then c.psn else (c.psn + i) % 2 ^ 24)
      ∧ (∀ x ∈ sent, x.retries = 0) ∧ w.tx = (sent.map fun x => (c.port, x.bytes)).reverse ++ u.tx
      ∧ (∀ f l, e.queue = f :: l → c.resync = true ∨ u.paused c.port c.tc = true ∨ (w.link c.port && w.regBit DP_CHIP_ID 31) = false
          ∨ (w.regBit (BLK_CTL .dp c.port) 1 = true ∧ f.type = 1 ∧ ∀ r ∈ w.rops, r.opid = f.opid → r.sent = false) ∨ 256 ≤ e.unacked.length
          ∨ 0x200000 < (w.putConn e).txHeld c.port + f.room)
      ∧ (c.unacked.length ≤ 256 → e.unacked.length ≤ 256)
      ∧ (c.resync = true ∨ u.paused c.port c.tc = true → n = 0)
      ∧ { w with regs := u.regs, tx := u.tx, rops := u.rops } = u)
  ∧ (∀ (u : State) (c : Conn) (nak2 : Bool),
      let marked := c.unacked.map fun (x : Sent) => { x with nak2 := nak2 }
      ((∃ x ∈ c.unacked, 3 ≤ x.retries) → u.retransmit c nak2 = (u.putConn { c with unacked := marked }).failConn { c with unacked := marked })
      ∧ ((∀ x ∈ c.unacked, x.retries < 3) → u.canon = true → ∃ w : State,
          u.retransmit c nak2 = w.putConn { c with nak := none, unacked := marked.map fun (x : Sent) => { x with retries := x.retries + 1 } }
          ∧ ((u.link c.port && u.regBit DP_CHIP_ID 31) = false → w = u)
          ∧ ((u.link c.port && u.regBit DP_CHIP_ID 31) = true →
            w.tx = (c.unacked.map fun x => (c.port, x.bytes)).reverse ++ u.tx
            ∧ w.regN (DP_RETX c.port) = (u.regN (DP_RETX c.port) + c.unacked.length) % 2 ^ 64
            ∧ w.regN (DP_TX_FRAMES c.port) = (u.regN (DP_TX_FRAMES c.port) + c.unacked.length) % 2 ^ 64
            ∧ { w with regs := u.regs, tx := u.tx } = u)))
  ∧ ∀ (u : State),
      (∀ c : Conn, let f := { u.blankFrame c.port c.tc c.peer with type := 5, psn := c.ctl, ack := c.psn, addr := BitVec.ofNat 64 c.epoch.toNat }
        u.sendResync c = if u.paused c.port c.tc then u.putConn { c with rsDue := true }
          else (u.sendDziura c.port (u.seal f c.epoch (some u.fabricKey))).putConn { c with ctl := (c.ctl + 1) % 2 ^ 24, rsDue := false })
      ∧ ∀ (r : RConn) (type reason : Nat),
        (u.paused r.port r.tc = true → ∃ l, u.answer r type reason = u.putRConn { r with due := l } ∧ (∀ d, d ∈ l ↔ d ∈ r.due ∨ d = (type, reason)))
        ∧ (u.paused r.port r.tc = false → (u.answer r type reason).rconnOf r.port r.tc r.peer = { r with ctl := (r.ctl + 1) % 2 ^ 24 })

/-- REQUEST_FRAME_RECEIVE, RESPONSE_FRAME_RECEIVE, FOREIGN_FRAME_RECEIVE, FRAME_APPLY, and what every frame command discards (R322,
R328, R329, R331, R336, R338, R347, R416). -/
def Obligations.ReceivedFramesApplyInOrder : Prop :=
  (∀ s : State, s.up = true →
    (∀ (p : Fin 8) (w : WireFrame),
      let s2 := if s.link p then (s.count (DP_FEC_CORR p) w.corr).count (DP_FEC_UNCORR p) w.uncorr else s
      let cmds : List (Nat × Instr) := [(1, .requestFrameReceive p w), (2, .responseFrameReceive p w), (3, .ackReceive p w),
        (4, .nakReceive p w), (5, .resyncReceive p w), (6, .resyncAckReceive p w)]
      let heard := if w.uncorr ≠ 0 then .unseen else s2.hear p w.octets
      (∀ e ∈ cmds,
        (heard = .damaged → exec e.2 s = .next (s2.count (DP_DAMAGED_CNT p) 1))
        ∧ (heard = .forged → exec e.2 s = .next (s2.count (DP_AUTH_FAIL p) 1))
        ∧ (heard = .unseen ∨ heard = .foreign ∨ (∃ en q, heard = .pfc en q)
            ∨ (∃ f, heard = .frame f ∧ f.type ≠ e.1) → exec e.2 s = .next s2))
      ∧ (heard = .foreign → exec (.foreignFrameReceive p w) s = .next (s2.count (DP_FOREIGN_CNT p) 1))
      ∧ (heard ≠ .foreign → exec (.foreignFrameReceive p w) s = .next s2)
      ∧ (∀ f, s2.hear p w.octets = .frame f → s2.link p = true ∧ f.port = p.val ∧ f.dst = s2.chip
          ∧ leNat (w.octets.drop (w.octets.length - 4)) = crc32 (w.octets.take (w.octets.length - 4))
          ∧ ∀ t, f.type < 3 → (if f.type = 2 then (s2.rops.find? fun r => decide (r.opid = f.opid)).map fun r => r.tenant else s2.ftidTenant f.ftid) = some t →
            bit f.flags 0 = s2.regBit (DP_FTID t) 17))
    ∧ (∀ (p : Fin 8) (w : WireFrame) (f : Frame),
      let s2 := if s.link p then (s.count (DP_FEC_CORR p) w.corr).count (DP_FEC_UNCORR p) w.uncorr else s
      w.uncorr = 0 → s2.hear p w.octets = .frame f →
      let u := if f.ackV then s2.acked f.port f.tc f.src f.ack else s2
      let r := s2.rconnOf f.port f.tc f.src
      let ahead := (f.psn + 2 ^ 24 - r.exp) % 2 ^ 24
      let taken (x : State) : State := (x.answer { r with exp := (r.exp + 1) % 2 ^ 24 } 3 0).count (DP_RX_FRAMES f.port) 1
      let key := f.putKey
      let opened := if f.type = 1 ∧ bit f.flags 4 = false ∧ u.putOpen.contains key = false then { u with putOpen := u.putOpen ++ [key] } else u
      let code := u.reqCheck f
      let waits (g : Frame) : State := ({ taken opened with rxq := (taken opened).rxq ++ [g] } : State).pauseUpdate f.port
      (∀ c, (c = .requestFrameReceive p w ∧ f.type = 1) ∨ (c = .responseFrameReceive p w ∧ f.type = 2) →
        (2 ^ 23 ≤ ahead → exec c s = .next (u.answer r 3 0))
        ∧ (0 < ahead → ahead < 2 ^ 23 → exec c s = .next (u.answer r 4 1))
        ∧ (ahead = 0 → u.rxFree f.port < f.wire → exec c s = .next (u.answer r 4 3))
        ∧ (ahead = 0 → f.wire ≤ u.rxFree f.port → f.damaged = true →
            exec c s = .next ((u.answer r 4 2).count (DP_DAMAGED_CNT f.port) 1)))
      ∧ (ahead = 0 → f.wire ≤ u.rxFree f.port → f.damaged = false →
        (f.type = 1 →
          (code = stStop ∨ code = stHostAbsent ∨ code = stTenantGone → exec (.requestFrameReceive p w) s
              = .next ((taken u).finishReq f code (gaOff f.addr.toNat) []))
          ∧ (code ≠ stStop → code ≠ stHostAbsent → code ≠ stTenantGone → exec (.requestFrameReceive p w) s
              = .next (waits { f with status := BitVec.ofNat 16 code })))
        ∧ (f.type = 2 →
          ((∃ g ∈ u.rxq, g.port = f.port ∧ g.tc = f.tc ∧ g.src = f.src) → exec (.responseFrameReceive p w) s = .next (waits f))
          ∧ ((∀ g ∈ u.rxq, ¬ (g.port = f.port ∧ g.tc = f.tc ∧ g.src = f.src)) → exec (.responseFrameReceive p w) s = .next ((taken u).deliver f)))))
    ∧ ∀ p : Fin 8,
      (s.rxq.find? (fun f => decide (f.port = p.val)) = none → exec (.frameApply p) s = .next s)
      ∧ ∀ f, s.rxq.find? (fun f => decide (f.port = p.val)) = some f →
        let u := { s with rxq := s.rxq.erase f }
        exec (.frameApply p) s = .next ((if f.type = 1 then u.applyReq f else u.deliver f).pauseUpdate p))
  ∧ (∀ (u : State) (f : Frame),
      (u.stopped = true → u.reqCheck f = stStop)
      ∧ (u.stopped = false → u.hostAbsent = true → u.putOpen.contains f.putKey = false → u.reqCheck f = stHostAbsent)
      ∧ (u.stopped = false → u.hostAbsent = false ∨ u.putOpen.contains f.putKey = true → (∀ t, u.ftidTenant f.ftid = some t → u.slot t ≠ 1) → u.reqCheck f = stTenantGone))
  ∧ (∀ (u : State) (f : Frame), f.status ≠ 0 ∨ u.putFailed f ≠ none → ∃ w, u.applyReq f = w
      ∧ { w with regs := u.regs, tx := u.tx, conn := u.conn, rops := u.rops, putFail := u.putFail, putOpen := u.putOpen, fw := u.fw, free := u.free } = u
      ∧ (w.fw = u.fw ∨ w.fw = { u.fw with refused := u.fw.refused + 1 })
      ∧ (u.canon = true → ∀ a, a ≠ DP_TX_FRAMES f.port → a ≠ DP_GONE_CNT f.port → w.reg a = u.reg a))
  ∧ (∀ (u : State) (f : Frame) (code off : Nat) (data : Bytes),
      let key := f.putKey
      let old := u.putFail.find? fun x => decide (x.1 = key)
      let noted := if code ≠ 0 ∧ old = none then { u with putFail := u.putFail ++ [(key, BitVec.ofNat 16 code, off)] } else u
      (bit f.flags 4 = false → u.finishReq f code off data
        = { noted with putOpen := if u.putOpen.contains key then u.putOpen else u.putOpen ++ [key] })
      ∧ (bit f.flags 4 = true →
        let first : Nat × Nat := match old with | some x => (x.2.1.toNat, x.2.2) | none => (code, off)
        let v := { u with putFail := u.putFail.filter fun x => x.1 != key, putOpen := u.putOpen.filter fun x => x != key }
        let v := if first.1 = 0x51 then v.count (DP_GONE_CNT f.port) 1 else v
        let v := if first.1 = 0xF0 then { v with fw := { v.fw with refused := v.fw.refused + 1 } } else v
        u.finishReq f code off data = v.respond f first.1 (bits f.addr.toNat 51 48 * 2 ^ 48 + first.2) (if old.isSome then [] else data)))
  ∧ ∀ (u : State) (f : Frame) (code at_ : Nat) (data : Bytes), ∃ fs : List Frame,
      u.respond f code at_ data = u.enqueue f.port f.tc f.src fs
      ∧ fs.length = max 1 ((data.length + 4095) / 4096)
      ∧ ∀ i g, fs[i]? = some g → g.type = 2 ∧ g.opid = f.opid ∧ g.ftid = f.ftid ∧ g.opc = f.opc ∧ g.status = BitVec.ofNat 16 code
          ∧ g.payload = (data.drop (4096 * i)).take 4096 ∧ g.addr = BitVec.ofNat 64 (at_ + 4096 * i)
          ∧ bit g.flags 4 = decide (i + 1 = fs.length)

/-- RESYNC_WAIT_TIMEOUT and RESPONSE_TIMEOUT, how operations and connections end, and how an operation starts (R48, R324, R326, R329,
R333 to R335, R343, R348). -/
def Obligations.RemoteOperationsEnd : Prop :=
  (∀ (s : State) (opid : BitVec 16), s.up = true →
    let found := s.rops.find? fun r => decide (r.opid = opid.toNat)
    (found = none → exec (.resyncWaitTimeout opid) s = .next s ∧ exec (.responseTimeout opid) s = .next s)
    ∧ ∀ r, found = some r →
      let stuck := r.sent = false ∧ ∃ c ∈ s.conn, c.port = r.port ∧ c.tc = r.tc ∧ c.peer = r.peer ∧ c.resync = true
      let acked := r.sent = true ∧ ∀ c ∈ s.conn, (∀ x ∈ c.unacked, x.req ≠ some r.opid) ∧ ∀ g ∈ c.queue, ¬ (g.type = 1 ∧ g.opid = r.opid)
      (stuck → exec (.resyncWaitTimeout opid) s = .next (s.endOp opid.toNat stRemoteTimeout 0))
      ∧ (¬ stuck → exec (.resyncWaitTimeout opid) s = .next s)
      ∧ (acked → exec (.responseTimeout opid) s = .next (s.endOp opid.toNat stRemoteTimeout 0))
      ∧ (¬ acked → exec (.responseTimeout opid) s = .next s))
  ∧ (∀ (u : State) (opid code detail : Nat) (r : ROp), u.rops.find? (fun r => decide (r.opid = opid)) = some r →
    let gone := r.opc = 2 ∧ (code = stRemoteTimeout ∨ code = stStreamDamaged)
    let dropped (c : Conn) : Conn := { c with queue := c.queue.filter fun g => !(decide (g.type = 1) && decide (g.opid = opid)) }
    let cut : State := { u with rops := u.rops.filter (·.opid != opid), conn := u.conn.map dropped }
    let told := if code = stRemoteTimeout then cut.count (DP_TIMEOUT_CNT r.port) 1 else cut
    let v := if gone then (told.tick.memPut r.tenant (portUnit .dp r.port) (gaSpace r.dst.toNat) (gaOff r.dst.toNat) (told.freeBytes r.len)).1 else told
    (r.flight = none → u.endOp opid code detail = v)
    ∧ (∀ id, r.flight = some id → (v.flight id = none → u.endOp opid code detail = v)
        ∧ ∀ f, v.flight id = some f → u.endOp opid code detail
            = v.putFlight { f with codes := f.codes ++ [(BitVec.ofNat 16 code, BitVec.ofNat 64 detail)], phase := .ran })
    ∧ (∀ x ∈ told.rops, x.opid ≠ opid) ∧ (∀ x ∈ u.rops, x.opid ≠ opid → x ∈ told.rops)
    ∧ (∀ c ∈ told.conn, ∀ g ∈ c.queue, ¬ (g.type = 1 ∧ g.opid = opid))
    ∧ { told with rops := u.rops, conn := u.conn, regs := u.regs } = u)
  ∧ (∀ (u : State) (c : Conn),
    let code := match c.unacked.find? (fun x => decide (3 ≤ x.retries)) with
      | some x => if x.nak2 then stStreamDamaged else stRemoteTimeout
      | none => stRemoteTimeout
    let hit := u.rops.filter fun r => c.unacked.any fun x => decide (x.req = some r.opid)
    let ev (t n : Nat) : Event := { type := 0x0020, status := code, cls := 0x0C01, inst := c.port, tenant := t, arg0 := c.peer + c.port * 2 ^ 12 + c.tc * 2 ^ 16, arg1 := n }
    let ended := hit.foldl (fun s r => s.endOp r.opid code 0) u
    let v := if ended.regBit DP_CHIP_ID 31 = true then
        (hit.map (·.tenant)).eraseDups.foldl (fun s t => s.event t (ev t (hit.filter fun r => decide (r.tenant = t)).length)) (ended.pfEvent (ev 0xFF hit.length))
      else ended
    (v.conn.find? (·.at c.port c.tc c.peer) = none → u.failConn c = v)
    ∧ ∀ d, v.conn.find? (·.at c.port c.tc c.peer) = some d →
        u.failConn c = v.sendResync { d with unacked := [], resync := true, ctl := 0, epoch := d.epoch + 1, nak := none })
  ∧ (∀ (u : State) (chip n : Nat),
    (u.plane chip n = none ↔ ∀ p, p < 8 → u.link p = false)
    ∧ ∀ p, u.plane chip n = some p → ∃ i, i < 8 ∧ p = (chip + n + i) % 8 ∧ u.link p = true ∧ ∀ j, j < i → u.link ((chip + n + j) % 8) = false)
  ∧ (∀ (u : State) (fl : Option Nat) (t tc n opc dst ldst len : Nat) (reqs : Nat → List ReqFrame),
    (u.regBit DP_CHIP_ID 31 = false ∨ u.plane (gaChip dst) n = none →
      u.remoteOp fl t tc n opc dst ldst len reqs = (u, some stRemoteTimeout))
    ∧ ∀ p, u.regBit DP_CHIP_ID 31 = true → u.plane (gaChip dst) n = some p →
      let packed := (reqs p).any fun r => bit r.flags 1
      let op : ROp := { opid := u.nextOpid % 2 ^ 16, flight := fl, tenant := t, port := p, tc := tc, peer := gaChip dst, opc := opc, dst := BitVec.ofNat 64 ldst, len := len, got := 0, sent := false, grout := if packed then some (u.groutUnit p) else none }
      ∃ (v : State) (fs : List Frame), u.remoteOp fl t tc n opc dst ldst len reqs = (v.enqueue p tc (gaChip dst) fs, none)
        ∧ v.groutNext = (if packed then smapSet (fun _ => 0) u.groutNext p (1 - u.groutUnit p) else u.groutNext)
        ∧ { v with groutNext := u.groutNext } = { u with rops := u.rops ++ [op], nextOpid := u.nextOpid + 1 }
        ∧ fs.map (·.payload) = (reqs p).map (·.payload)
        ∧ ∀ (i : Nat) (f : Frame), fs[i]? = some f → f.type = 1 ∧ f.opid = op.opid ∧ f.ftid = u.ftidOf t ∧ f.opc = opc ∧ f.dst = gaChip dst ∧ f.src = u.chip)
  ∧ ∀ (u : State) (p tc addr : Nat) (data : Bytes), u.regBit (DP_TC_CFG tc) 0 = false →
      let fs := u.putFrames p tc addr data
      fs.length = (data.length + 4095) / 4096
      ∧ ∀ (i : Nat) (f : ReqFrame), fs[i]? = some f → f.flags = 0 ∧ f.payload = (data.drop (4096 * i)).take 4096 ∧ f.len = f.payload.length ∧ f.addr = addr + 4096 * i

/-- CONFIG_REQUEST, BAR2_READ, BAR2_WRITE and HOT_RESET (R42, R274, R288, R350, R351, R353, R354, R361, R376, R383; assumptions 10 and 41). -/
def Obligations.HostRequestsAndWindows : Prop :=
  ∀ s : State, s.up = true →
    (∀ (fn : Fin 17) (wr : Bool) (off : BitVec 12) (v : Word),
      let pc := { s.pcie with rrs := false }
      let word := off.toNat / 4
      let key := 4096 * fn.val + word * 4
      let last := ((smapFind s.pcie.cfg key).getD 0).toNat
      let id : Word := if fn = 16 then 0x0C071F9A else 0x0C171F9A
      (s.pcie.cfgReady = false → exec (.configRequest fn wr off v) s = .next { s with pcie := { s.pcie with rrs := true } })
      ∧ (s.pcie.cfgReady = true →
        (∃ x : Word, exec (.configRequest fn false off v) s = .next { s with pcie := { pc with rdData := x.setWidth 64 } }
          ∧ (word = 0 → x = id) ∧ (word = 2 → x = 0x120000B0)
          ∧ (4 ≤ word → word < 10 →
            (fn ≠ 16 → x = 0)
            ∧ (fn = 16 → (word = 4 → x = BitVec.ofNat 32 (last / 2 ^ 26 * 2 ^ 26 + 4)) ∧ (word = 6 → x = 0xC)
                ∧ (word = 8 → x = BitVec.ofNat 32 (last / 2 ^ 16 * 2 ^ 16 + 0xC)) ∧ (word % 2 = 1 → x = BitVec.ofNat 32 last)))
          ∧ (word * 4 = msixAt → x = BitVec.ofNat 32 (0x11 + bits (Config.cfgWord key none).toNat 15 8 * 2 ^ 8 + (if fn = 16 then 127 else 119) * 2 ^ 16 + last / 2 ^ 30 * 2 ^ 30))
          ∧ (word * 4 = msixAt + 4 → x = 4) ∧ (word * 4 = msixAt + 8 → x = if fn = 16 then 0x8004 else 0x2004)
          ∧ (fn = 16 → (word * 4 = sriovAt + 0xC → x = 0x00100010) ∧ (word * 4 = sriovAt + 0x14 → x = 0x00010001) ∧ (word * 4 = sriovAt + 0x18 → x = 0x0C170000))
          ∧ (word ∉ [0, 2, 4, 5, 6, 7, 8, 9] → word * 4 ∉ [msixAt, msixAt + 4, msixAt + 8] → (fn = 16 → word * 4 ∉ [sriovAt + 0xC, sriovAt + 0x14, sriovAt + 0x18]) →
              x = Config.cfgWord key (smapFind s.pcie.cfg key)))
        ∧ exec (.configRequest fn true off v) s
            = .next { s with pcie := if word = 0 ∨ word = 2 then pc else { pc with cfg := smapInsert s.pcie.cfg key v } }))
    ∧ (∀ (fn : Fin 17) (off : Word) (len : Nat) (data : Bytes) (tier : Tier) (a n : Nat) (who : Who),
      tier = (if (s.reg (CMD_WIN_BASE fn)).getLsbD 16 then .bed else .hbm) →
      a = (s.reg (CMD_WIN_BASE fn)).toNat % 2 ^ 16 * 2 ^ 32 + off.toNat →
      n = min len (2 ^ 32 - off.toNat) → who = (if fn = 16 then .pf else .tenant fn) →
      let bs := data.take (min data.length (2 ^ 32 - off.toNat))
      let served := tier = .bed ∨ s.hbmReady = true
      let rd := s.readFor who tier a n
      let wr := s.writeFor who tier a bs
      (¬ served → exec (.bar2Read fn off len) s = .next s ∧ exec (.bar2Write fn off data) s = .next s)
      ∧ (served →
        (∀ got, rd.2 = .ok got → exec (.bar2Read fn off len) s
            = .next { rd.1 with pcie := { rd.1.pcie with rdBytes := got, ep := false } })
        ∧ (∀ o, rd.2 = .error (stPoisoned, o) → ∃ got : Bytes, got.length = n ∧ exec (.bar2Read fn off len) s
            = .next { rd.1.tick with pcie := { rd.1.pcie with aer := rd.1.pcie.aer + 1, rdBytes := got, ep := true } })
        ∧ (∀ c o, rd.2 = .error (c, o) → c ≠ stPoisoned → exec (.bar2Read fn off len) s
            = .next (({ rd.1 with pcie := { rd.1.pcie with rdBytes := List.replicate n 0, ep := false } } : State).blkErr .cmd fn 5))
        ∧ (wr.2 = .ok () → exec (.bar2Write fn off data) s = .next wr.1)
        ∧ (∀ e, wr.2 = .error e → exec (.bar2Write fn off data) s = .next (wr.1.blkErr .cmd fn 5)
            ∧ { wr.1 with regs := s.regs, free := s.free } = s))
      ∧ { rd.1 with regs := s.regs, free := s.free } = s
      ∧ (0 < n → tier.size ≤ a → rd.2 = .error (stTranslation, a))
      ∧ (bs ≠ [] → tier.size ≤ a → wr.2 = .error (stTranslation, a))
      ∧ (0 < n → a < tier.size → fn = 16 → s.secureUnit tier.table (a / 0x10000) = true → rd.2 = .error (stWorld, a))
      ∧ (bs ≠ [] → a < tier.size → fn = 16 → s.secureUnit tier.table (a / 0x10000) = true → wr.2 = .error (stWorld, a)))
    ∧ exec .hotReset s = .next { s with pcie := { s.pcie with cfg := [], linkUp := false, gts := 0, lanes := 0 } }

/-- FIRMWARE_READY, FW_LOAD, FW_VERIFY_DONE and MELEOPIN_START (R23, R180, R360, R361, R363 to R366, R370, R378, R382, R427). -/
def Obligations.FirmwareLoadsAndStarts : Prop :=
  (∀ s : State, s.up = true →
    let turn (n : Nat) (p : Posted) : Prop := s.front 16 = some p ∧ p.kind = .fwCtl ∧ p.val.toNat % 2 ^ n = 0 ∧ p.val.getLsbD n = true
    let state := s.field CMD_FW_STAT 3 0
    (let ready := state = 0 ∧ s.fw.booted = true ∧ s.hbmReady = true ∧ s.pcie.cfgReady = true ∧ (∀ ch, ch < 16 → s.nandTrained ch = true)
        ∧ ∀ t, t < 16 → s.slot t = 0
     (ready → exec .firmwareReady s = .next (s.setField CMD_FW_STAT 3 0 1)) ∧ (¬ ready → exec .firmwareReady s = .next s))
    ∧ ((∀ p, ¬ turn 0 p) → exec .fwLoad s = .next s)
    ∧ (∀ p, turn 0 p →
      let u := ((s.setField CMD_FW_STAT 3 0 2).setField CMD_FW_STAT 7 4 0).setBit (QN_RGN 259) 1 true
      let v := if state = 1 ∨ state = 6 then { u with fw := { u.fw with verify := some false } } else s
      exec .fwLoad s = .next (if p.val.toNat % 16 = 1 then v.popDone 16 else v.setFront 16 (p.val.toNat % 16 - 1)))
    ∧ (s.fw.verify = none → exec .fwVerifyDone s = .next s)
    ∧ (let image := s.readPhys .hbm (s.slotKeyId 16) 0 (s.field CMD_FW_LEN 24 0)
       let code := imageCheck image (s.field CMD_FW_LEN 24 0) (s.regN QN_MIN_SVN)
       let h := ImgHdr.of image
       let u := { (s.touch .hbm).setBit (QN_RGN 259) 1 false with fw := { s.fw with verify := none } }
       (s.fw.verify = some false →
         (code ≠ 0 → exec .fwVerifyDone s = .next ((u.setField CMD_FW_STAT 7 4 code).setField CMD_FW_STAT 3 0 6))
         ∧ (code = 0 → exec .fwVerifyDone s = .next { u.setField CMD_FW_STAT 3 0 3 with fw := { u.fw with cand := some h } }))
       ∧ (s.fw.verify = some true →
         (code ≠ 0 → exec .fwVerifyDone s = .next ((u.setField CMD_FW_STAT 7 4 code).updEnds 7))
         ∧ (code = 0 → h.ifver.toNat ≠ u.regN CMD_IFVER → exec .fwVerifyDone s = .next ((u.setField CMD_FW_STAT 7 4 5).updEnds 5))
         ∧ (code = 0 → h.ifver.toNat = u.regN CMD_IFVER → exec .fwVerifyDone s
             = .next (let w : State := { u with fw := { u.fw with cand := some h } }
                 if u.regBit PWR_STATUS 6 then w.setField CMD_FW_STAT 11 8 3 else (w.setField CMD_FW_STAT 11 8 2).parkAll))))
    ∧ (s.fw.cand = none ∨ state ≠ 3 → exec .meleopinStart s = .next s)
    ∧ ∀ h, s.fw.cand = some h → state = 3 → s.canon = true →
      let v := s.unitsUp.islandsUp.pagesClear.marksClear.shadowsReset.running h
      exec .meleopinStart s = .next v.cfgReport ∧ (v.field QN_CFG_STAT 1 0 = 0 → v.cfgReport = v)
      ∧ v.field CMD_FW_STAT 3 0 = 4 ∧ v.regN CMD_IFVER = h.ifver.toNat ∧ v.regN CMD_FW_IMGVER = h.imgver.toNat
      ∧ v.fw.running = some h ∧ v.fw.cand = none ∧ v.fw.hbSeen = false ∧ v.fw.missed = 0
      ∧ (∀ m, v.mark m = 0) ∧ (∀ n, n < 256 → v.trOn n = false) ∧ v.pageMap = [] ∧ v.jq = [])
  ∧ ∀ (b : Bytes) (len minSvn : Nat),
    let shape := 512 ≤ b.length ∧ pfield b 0 4 = 0x4E504C4D ∧ pfield b 4 2 = 1 ∧ pfield b 6 2 = 0x200 ∧ 0x200 + pfield b 0x18 8 = len
      ∧ len ≤ 0x1000000 ∧ imageZeros b = true
    let key := BitVec.ofNat 384 (beNat (sha384 ((b.drop 0x40).take 96))) = Config.releaseKeyDigest
    let signed := ecdsaVerify ((b.drop 0x40).take 96) ((b.drop 0xA0).take 96) (sha384 (b.take 0xA0 ++ (b.drop 0x200).take (len - 0x200))) = true
    (¬ shape → imageCheck b len minSvn = 1)
    ∧ (shape → ¬ key → imageCheck b len minSvn = 2)
    ∧ (shape → key → pfield b 0x10 4 < minSvn → imageCheck b len minSvn = 3)
    ∧ (shape → key → minSvn ≤ pfield b 0x10 4 → ¬ signed → imageCheck b len minSvn = 4)
    ∧ (shape → key → minSvn ≤ pfield b 0x10 4 → signed → imageCheck b len minSvn = 0)

/-- FW_UPDATE, FW_ACTIVATE, FW_UPDATE_TIMEOUT, FW_DEFER_END and FW_DEFER_TIMEOUT (R64, R366, R370 to R372). -/
def Obligations.FirmwareUpdatesEnd : Prop :=
  (∀ s : State, s.up = true →
    let turn (n : Nat) (p : Posted) : Prop := s.front 16 = some p ∧ p.kind = .fwCtl ∧ p.val.toNat % 2 ^ n = 0 ∧ p.val.getLsbD n = true
    let state := s.field CMD_FW_STAT 3 0
    let upd := s.field CMD_FW_STAT 11 8
    ((∀ p, ¬ turn 1 p) → exec .fwUpdate s = .next s)
    ∧ (∀ p, turn 1 p →
      let u := ((s.setField CMD_FW_STAT 11 8 1).setField CMD_FW_STAT 7 4 0).setBit (QN_RGN 259) 1 true
      let v := if s.regBit PWR_STATUS 9 = true then (s.setField CMD_FW_STAT 7 4 6).updEnds 5 else if state = 4 ∧ upd ≠ 1 ∧ upd ≠ 2 ∧ upd ≠ 3 then { u with fw := { u.fw with verify := some true } } else s
      exec .fwUpdate s = .next (if p.val.toNat % 16 = 2 then v.popDone 16 else v.setFront 16 (p.val.toNat % 16 - 2)))
    ∧ (let between := ∀ t q, t < 16 → q < 8 → (s.jobQ t q).enabled = false ∨ s.field (CMD_JQ_STAT t q) 1 0 ≠ 1 ∨ (s.jobQ t q).lastEnd = true ∨ (s.jobQ t q).parked = true
       (s.fw.cand = none ∨ upd ≠ 2 ∨ state ≠ 4 ∨ ¬ between → exec .fwActivate s = .next s)
       ∧ ∀ h, s.fw.cand = some h → upd = 2 → state = 4 → between →
         ∃ u : State, exec .fwActivate s = .next (u.updEnds 4) ∧ u.fw.running = some h
           ∧ { u with libVer := s.libVer, fw := s.fw } = s.setRegN CMD_FW_IMGVER h.imgver.toNat)
    ∧ exec .fwUpdateTimeout s = .next (if upd = 2 then s.updEnds 6 else s)
    ∧ exec .fwDeferTimeout s = .next (if upd = 3 then s.updEnds 6 else s)
    ∧ exec .fwDeferEnd s = .next (if upd = 3 ∧ s.regBit PWR_STATUS 6 = false then (s.setField CMD_FW_STAT 11 8 2).parkAll else s))
  ∧ (∀ (u : State) (v : Nat), u.canon = true → v < 16 →
      let w := { u.setField CMD_FW_STAT 11 8 v with fw := { u.fw with cand := none }, jq := (u.jq.map fun (e : Nat × JobQ) => (e.1, ({ e.2 with parked := false } : JobQ))).filter fun e => decide (e.2 ≠ jobQIdle e.1) }
      u.updEnds v = w.event 16 { type := 0x0050, cls := 0x0F02, inst := 16, arg0 := w.regN CMD_FW_STAT, arg1 := w.regN CMD_FW_IMGVER }
      ∧ w.field CMD_FW_STAT 11 8 = v ∧ w.field CMD_FW_STAT 3 0 = u.field CMD_FW_STAT 3 0 ∧ w.field CMD_FW_STAT 7 4 = u.field CMD_FW_STAT 7 4
      ∧ (∀ a, a ≠ CMD_FW_STAT → w.reg a = u.reg a) ∧ ∀ t q, (w.jobQ t q).parked = false)
  ∧ ∀ u : State,
      let between (w : State) (t q : Nat) := (w.jobQ t q).enabled = false ∨ w.field (CMD_JQ_STAT t q) 1 0 ≠ 1 ∨ (w.jobQ t q).lastEnd = true
      u.parkAll = (List.range 128).foldl (fun w k => if w.field CMD_FW_STAT 11 8 = 2 ∧ between w (k / 8) (k % 8)
        then w.setJobQ (k / 8) (k % 8) { w.jobQ (k / 8) (k % 8) with parked := true } else w) u
      ∧ { u.parkAll with jq := u.jq } = u

/-- HEARTBEAT, HEARTBEAT_INTERVAL_END, HOST_ABSENT_TROUGH_TIMEOUT and FW_ADOPT (R373 to R375, Table 14.9). -/
def Obligations.HostAbsenceAndAdoption : Prop :=
  (∀ s : State, s.up = true → s.canon = true →
    let state := s.field CMD_FW_STAT 3 0
    let beat (p : Posted) : Prop := s.front 16 = some p ∧ p.kind = .heartbeat
    let adopts (p : Posted) : Prop := s.front 16 = some p ∧ p.kind = .fwCtl ∧ p.val.toNat % 4 = 0 ∧ p.val.getLsbD 2 = true
    ((∀ p, ¬ beat p) → exec .heartbeat s = .next s)
    ∧ (∀ p, beat p → exec .heartbeat s = .next (({ s with fw := { s.fw with hbSeen := true } } : State).popDone 16))
    ∧ (state ≠ 4 → exec .heartbeatIntervalEnd s = .next s)
    ∧ (let missed := if s.fw.hbSeen = true then 0 else s.fw.missed + 1
       let v := { s with fw := { s.fw with hbSeen := false, missed := missed } }
       let e := v.setField CMD_FW_STAT 3 0 5
       let upd := e.field CMD_FW_STAT 11 8
       let w := if upd = 1 then ({ e.setBit (QN_RGN 259) 1 false with fw := { e.fw with verify := none } } : State).updEnds 6
         else if upd = 2 ∨ upd = 3 then e.updEnds 6 else e
       state = 4 → e.field CMD_FW_STAT 3 0 = 5 ∧ exec .heartbeatIntervalEnd s = .next (if missed < s.field CMD_HB_CFG 7 0 then v
         else { w with fw := { w.fw with entered := w.timeNs / 1000, absentTimer := true, refused := 0, ended := [], cqSince := [] } }))
    ∧ (state ≠ 5 ∨ s.fw.absentTimer = false → exec .hostAbsentTroughTimeout s = .next s)
    ∧ (state = 5 → s.fw.absentTimer = true → ∃ e : State,
         let a := ((s.flights.filter fun f => (s.blockedAt f).isSome).map Flight.id).foldl State.complete e
         let b : State := { a with fw := { a.fw with absentTimer := false } }
         exec .hostAbsentTroughTimeout s = .next ((b.touch .hbm).writePhys .hbm (b.slotKeyId 16) (b.regN CMD_SURV_ADDR) b.survivor)
         ∧ { e with flights := s.flights, regs := s.regs, free := s.free, fw := { e.fw with ended := s.fw.ended } } = s
         ∧ (∀ f, f ∈ s.flights → (∀ g, g ∈ s.flights → g.id = f.id → g = f) →
             (s.blockedAt f = none → f ∈ e.flights)
             ∧ ∀ u, s.blockedAt f = some u →
                 { f.endWith 0x00F0 (s.chip * 2 ^ 52 + u.slot) with outRec := [] } ∈ e.flights
                 ∧ (u.n < 256 → e.regBit (BED_TR_CFG u.n) 0 = false ∧ e.regBit (BED_TR_STAT u.n) 4 = true))
         ∧ ∀ r, (∀ f u, f ∈ s.flights → s.blockedAt f = some u → r ≠ BED_TR_CFG u.n ∧ r ≠ BED_TR_STAT u.n ∧ unitStall f.cls f.unit ≠ some r) → e.reg r = s.reg r)
    ∧ ((∀ p, ¬ adopts p) → exec .fwAdopt s = .next s)
    ∧ ∀ p, adopts p →
      let fresh (u : State) : State := { u with fw := { u.fw with hbSeen := false, missed := 0, absentTimer := false } }
      let u := fresh (s.setField CMD_FW_STAT 3 0 4)
      let told := (List.range 17).filter fun fn => decide ((s.ringAt (eqKey fn)).unread ≠ 0)
      let w := if state = 4 ∨ state = 5 then
        ({ u with pcie := { u.pcie with msix := (told.map fun fn => msixEntry (u.regN (CMD_EQ_VEC fn))).reverse ++ s.pcie.msix } } : State).latch else s
      exec .fwAdopt s = .next (if p.val.toNat % 16 = 4 then w.popDone 16 else w.setFront 16 (p.val.toNat % 16 - 4))
      ∧ u.field CMD_FW_STAT 3 0 = 4)
  ∧ ∀ u : State, u.survivor.length = 0x140
    ∧ u.survivor.take 0x40 = leBytes 4 0x56525553 ++ leBytes 4 (u.regN CMD_IFVER) ++ leBytes 4 (u.regN CMD_FW_IMGVER) ++ leBytes 4 1
        ++ leBytes 8 u.fw.entered ++ leBytes 4 u.fw.refused ++ List.replicate 0x24 0
    ∧ ∀ t, t < 16 → ∃ pend halted : Nat, (u.survivor.drop (0x40 + 16 * t)).take 16 = leBytes 1 pend ++ leBytes 1 halted
          ++ leBytes 2 (smapGet (fun _ => 0) u.fw.ended t) ++ leBytes 4 (smapGet (fun _ => 0) u.fw.cqSince t) ++ List.replicate 8 0
        ∧ pend < 256 ∧ halted < 256
        ∧ ∀ q, q < 8 → pend.testBit q = decide (u.jqPending t q ≠ 0) ∧ halted.testBit q = decide (u.field (CMD_JQ_STAT t q) 1 0 = 2)

/-- FW_RESET, PF_FLR, VF_FLR and VF_FLR_TIMEOUT (R375, R377; assumption 42). -/
def Obligations.ResetsDiscard : Prop :=
  (∀ s : State, s.up = true →
    let turn (p : Posted) : Prop := s.front 16 = some p ∧ p.kind = .fwCtl ∧ p.val.toNat % 8 = 0 ∧ p.val.getLsbD 3 = true
    ((∀ p, ¬ turn p) → exec .fwReset s = .next s)
    ∧ (∀ p, turn p → exec .fwReset s = .next (if s.stopped = true then s.popDone 16 else s.devReset))
    ∧ exec .pfFlr s = .next s.devReset
    ∧ ∀ t : Fin 16, s.canon = true →
      (∃ v : State, exec (.vfFlr t) s = .next v
        ∧ { v with flights := s.flights, flrTimer := s.flrTimer, regs := s.regs, wq := s.wq, jq := s.jq, ring := s.ring, mapOp := s.mapOp, fw := s.fw, relHead := s.relHead } = s
        ∧ { v.fw with cqSince := s.fw.cqSince, ended := s.fw.ended } = s.fw
        ∧ v.wq = s.wq.filter (fun p => p.fn != t.val) ∧ t.val ∈ v.flrTimer
        ∧ v.flights = (s.flights.filter fun f => !(f.held && decide (f.tenant = t.val))).map (fun f : Flight => if f.tenant = t.val then { f with noRecord := true } else f)
        ∧ ∀ a, v.reg a = if ownRegs .cmd t a then resetOf a else s.reg a)
      ∧ (t.val ∉ s.flrTimer → exec (.vfFlrTimeout t) s = .next s)
      ∧ (t.val ∈ s.flrTimer → ∃ v : State, exec (.vfFlrTimeout t) s = .next v
          ∧ (∀ f, f ∈ v.flights → f ∈ s.flights ∧ ¬ (f.tenant = t.val ∧ f.noRecord = true))
          ∧ v.flrTimer = s.flrTimer.filter (fun u => u != t.val)
          ∧ v.bed = s.bed ∧ v.hbm = s.hbm ∧ v.marks = s.marks ∧ v.slotKey = s.slotKey ∧ v.wq = s.wq))
  ∧ (∀ s : State, s.stopped = true → s.devReset = s)
  ∧ ∀ s : State, s.canon = true → s.stopped = false →
    let d := s.devReset
    d.bed = [] ∧ d.bedPoison = [] ∧ d.hbm = [] ∧ d.hbmPoison = [] ∧ d.nandBytes = []
    ∧ d.fw.running = none ∧ d.fw.verify = none ∧ d.fw.cand = none ∧ d.fw.missed = 0 ∧ d.libVer = none
    ∧ d.regBit (QN_RGN 259) 1 = false
    ∧ (∀ a p, pageOf a = some (.cmd, 16, p) → (p ≠ 0 ∨ 0x60 ≤ a % 0x1000) → d.reg a = resetOf a)
    ∧ d.field CMD_FW_STAT 3 0 = 0
    ∧ (s.schedQ = [] →
      { d with bed := s.bed, bedPoison := s.bedPoison, hbm := s.hbm, hbmPoison := s.hbmPoison, hbmKey := s.hbmKey, nandBytes := s.nandBytes, regs := s.regs, flights := s.flights, jq := s.jq, relHead := s.relHead, pcie := s.pcie, drainTimer := s.drainTimer, wq := s.wq, ring := s.ring, libVer := s.libVer, fw := s.fw } = s
      ∧ d.wq = s.wq.filter (fun p => p.fn != 16)
      ∧ ∀ t, t < 16 → s.slot t = 1 → d.slot t = 2)

/-- MAILBOX_GO, MCTP_MESSAGE, MCTP_CONTROL_MESSAGE, and the service every other Quoin command shares (R379 to R381). -/
def Obligations.QuoinServesItsSources : Prop :=
  let finish (v : State) (r : QReq) (res : Nat) (resp : Bytes) : State :=
    State.qnSkimFuel (v.qnAnswer r res resp).qnReq.length (v.qnAnswer r res resp)
  let taken (s : State) (r : QReq) : State :=
    { s with qnReq := s.qnReq.erase r, qnPtr := (r.src + 1) % 3, dbg := if r.src = 0 ∧ r.code ≠ 0x31 then none else s.dbg }
  (∀ s : State, s.up = true →
    (∀ (sec : Bool) (v : Word), exec (.mailboxGo sec v) s = .next (
      if v.getLsbD 0 = false then s
      else if s.regBit (mbStat sec) 0 = true then s.setBit (BLK_ERR .qn 0) 5 true
      else (s.setRegN (mbStat sec) 1).qnEnter { src := if sec then 1 else 2, code := s.field (mbCmd sec) 15 0, eid := 0, tag := 0, payload := ((List.range 64).flatMap fun i => leBytes 4 (s.regN (mbData sec i))).take (s.field (mbCmd sec) 24 16) }))
    ∧ (∀ pkt, s.mctpParse pkt = none → exec (.mctpMessage pkt) s = .next s ∧ exec (.mctpControlMessage pkt) s = .next s)
    ∧ (∀ pkt p, s.mctpParse pkt = some p →
      let u := { s with pins := { s.pins with smbReleased := false } }
      let v := (u.mctpAssemble p).1
      let whole := (u.mctpAssemble p).2
      (whole = none ∨ whole = some [] → exec (.mctpMessage pkt) s = .next v ∧ exec (.mctpControlMessage pkt) s = .next v)
      ∧ (∀ type body, whole = some (type :: body) → type ≠ 0x7E → exec (.mctpMessage pkt) s = .next v)
      ∧ (∀ type body, whole = some (type :: body) → type ≠ 0 → exec (.mctpControlMessage pkt) s = .next v)
      ∧ (∀ body, whole = some (0x7E :: body) →
          let r : QReq := { src := 0, code := pfield body 2 2, payload := body.drop 6, eid := p.eid, tag := p.tag }
          exec (.mctpMessage pkt) s = .next (if body.length < 6 ∨ body.take 2 ≠ [0x1F, 0x9A] ∨ p.tag < 8 then v
            else if pfield body 4 2 ≠ r.payload.length then v.qnAnswer r 3 [] else v.qnEnter r))
      ∧ ∀ body, whole = some (0 :: body) →
          let a := v.mctpControl (body.getD 1 0).toNat (body.drop 2)
          exec (.mctpControlMessage pkt) s = .next (if body.length < 2 ∨ (body.getD 0 0).toNat < 0x80 then v
            else a.1.mctpSend p.eid p.tag ([0x00, BitVec.ofNat 8 ((body.getD 0 0).toNat % 32), body.getD 1 0] ++ a.2)))
    ∧ (s.field CMD_FW_STAT 11 8 = 2 ∨ s.field CMD_FW_STAT 11 8 = 3 → exec .tenantRemove s = .next s ∧ exec .debugResponse s = .next s)
    ∧ (∀ (x : Instr) (code len : Nat), (x, code, len) ∈ [(Instr.tenantCreate, 1, 0x40), (.tenantRemove, 2, 1), (.tenantStatus, 3, 1), (.fabricSetup, 4, 34),
          (.plinthRead, 0x10, 8), (.svnRaise, 0x20, 4), (.debugChallenge, 0x30, 1), (.debugResponse, 0x31, 96), (.capSet, 0x40, 2), (.capGet, 0x41, 0),
          (.energyRead, 0x42, 0), (.voltageRead, 0x43, 0), (.thermalRead, 0x44, 0), (.throttleRead, 0x45, 0)] →
        ((∀ r, s.qnNext = some r → r.code ≠ code) → exec x s = .next s)
        ∧ ∀ r, s.qnNext = some r → r.code = code →
          (x = .tenantRemove ∨ x = .debugResponse → s.field CMD_FW_STAT 11 8 ≠ 2 ∧ s.field CMD_FW_STAT 11 8 ≠ 3) →
          (s.qnPermits code r.src = false → exec x s = .next (finish (taken s r) r 2 []))
          ∧ (s.qnPermits code r.src = true → r.payload.length < len → exec x s = .next (finish (taken s r) r 3 [])))
    ∧ ∀ (x : Instr) (part len : Nat), (x, part, len) ∈ [(Instr.imageUpdateBegin, 0, 8), (.imageUpdateData, 1, 8), (.imageUpdateEnd, 2, 4), (.imageUpdateAbort, 3, 4)] →
        let serves (r : QReq) : Prop := s.qnNext = some r ∧ r.code = 0x11 ∧ r.payload.head?.map BitVec.toNat = some part
        (((∀ r, ¬ serves r) ∨ x = .imageUpdateData ∧ s.plFree = false) → exec x s = .next s)
        ∧ ∀ r, serves r → (x = .imageUpdateData → s.plFree = true) →
          (s.qnPermits 0x11 r.src = false → exec x s = .next (finish (taken s r) r 2 []))
          ∧ (s.qnPermits 0x11 r.src = true → r.payload.length < len ∨ pfield r.payload 1 3 ≠ 0 → exec x s = .next (finish (taken s r) r 3 [])))
  ∧ (∀ (s : State) (code src : Nat), s.qnPermits code src = true ↔
      if code = 1 ∨ code = 2 then src = 0 ∨ (src = 2 ∧ s.regBit QN_POLICY 0 = true)
      else if code = 3 then True
      else if code = 0x10 ∨ (0x40 ≤ code ∧ code ≤ 0x45) then src = 0 ∨ src = 1 else src = 0)
  ∧ (∀ s : State,
      let first (before : List QReq) (r : QReq) : Prop := ∀ q, q ∈ before → q.src ≠ r.src ∧ (r.slot = none ∨ q.slot ≠ r.slot)
      let turns (r : QReq) : Nat := (r.src + 3 - s.qnPtr) % 3
      (s.qnNext = none ↔ s.qnReq = [])
      ∧ ∀ r, s.qnNext = some r →
        (∃ pre rest, s.qnReq = pre ++ r :: rest ∧ first pre r)
        ∧ ∀ pre q rest, s.qnReq = pre ++ q :: rest → first pre q → turns r ≤ turns q)
  ∧ (∀ (u : State) (r : QReq) (res : Nat) (resp : Bytes), u.canon = true → res < 256 → resp.length < 512 → r.src ≠ 0 →
      let m := if r.src = 1 then QN_MB_STAT_S else QN_MB_STAT
      let a := u.qnAnswer r res resp
      a.regBit m 0 = false ∧ a.field m 15 8 = res ∧ a.field m 24 16 = resp.length ∧ { a with regs := u.regs } = u)
  ∧ (∀ (u : State) (r : QReq) (res : Nat) (resp : Bytes), r.src = 0 →
      ∃ sent : List Bytes, u.qnAnswer r res resp = { u with mctpOut := u.mctpOut ++ sent } ∧ sent ≠ [])
  ∧ ∀ (s : State) (pkt : Bytes) (p : MctpPkt), s.mctpParse pkt = some p →
      (pkt.getD (pkt.length - 1) 0).toNat = (pec (pkt.take (pkt.length - 1))).toNat ∧ (pkt.getD 0 0).toNat = 2 * 0x4F ∧ (pkt.getD 1 0).toNat = 0x0F

/-- TENANT_CREATE, TENANT_REMOVE, TENANT_DRAIN_DONE, TENANT_DRAIN_TIMEOUT, TENANT_SCRUB_DONE, TENANT_STATUS and FABRIC_SETUP
(R388 to R390, Table 15.3). -/
def Obligations.TenantsComeAndGo : Prop :=
  let finish (v : State) (r : QReq) (res : Nat) (resp : Bytes) : State :=
    State.qnSkimFuel (v.qnAnswer r res resp).qnReq.length (v.qnAnswer r res resp)
  let regs (t : Nat) : List Nat := (List.range 4).map (fun i => PT_KEY (4 * t + i)) ++ (List.range 8).map (fun i => DP_KEY (8 * t + i))
    ++ [DP_FTID t, QC_QBED t, QC_QHBM t, QC_QNAND t, QC_QPM t, QC_QPT t, MK_WIN t, QN_TSTAT t]
  (∀ (s : State) (r : QReq), s.up = true → s.canon = true → s.qnNext = some r → s.qnPermits r.code r.src = true →
    let u := s.qnTake r
    let p := r.payload
    let t := pfield p 0 1
    (r.code = 1 → 0x40 ≤ p.length →
      let ftid := pfield p 2 2
      let n := pfield p 4 2
      let bad := ftid = 0 ∨ s.ftidTaken t ftid = true ∨ n = 0 ∨ 61440 < (s.windows.map Prod.snd).foldl (· + ·) 0 + n
      (s.dbgUsed = true → exec .tenantCreate s = .next (finish u r 6 []))
      ∧ (s.dbgUsed = false → 15 < t → exec .tenantCreate s = .next (finish u r 3 []))
      ∧ (s.dbgUsed = false → t < 16 → s.slot t ≠ 0 → exec .tenantCreate s = .next (finish u r 4 []))
      ∧ (s.dbgUsed = false → t < 16 → s.slot t = 0 → bad ∨ s.windowPlace n = none → exec .tenantCreate s = .next (finish u r 3 []))
      ∧ ∀ b, s.dbgUsed = false → t < 16 → s.slot t = 0 → ¬ bad → s.windowPlace n = some b →
        ∃ v : State, exec .tenantCreate s = .next (finish v r 0 [])
          ∧ v.slot t = 1 ∧ v.field (QN_TSTAT t) 31 16 = ftid ∧ v.regN (MK_WIN t) = b + 2 ^ 16 * n
          ∧ (∀ m, v.mark m = if b ≤ m ∧ m < b + n then 0 else s.mark m)
          ∧ v.regN (DP_FTID t) = ftid + 2 ^ 16 + 2 ^ 17 * (pfield p 1 1 % 2)
          ∧ (∀ i, i < 8 → v.regN (DP_KEY (8 * t + i)) = pfield p (0x20 + 4 * i) 4)
          ∧ v.regN (QC_QBED t) = pfield p 8 4 ∧ v.regN (QC_QHBM t) = pfield p 12 4 ∧ v.regN (QC_QNAND t) = pfield p 16 4
          ∧ v.pcie.vfOn = s.pcie.vfOn ||| BitVec.ofNat 16 (2 ^ t) ∧ v.xlat = s.xlat.filter (fun e => e.tenant != t)
          ∧ v.slotKeyId t = s.nextKey + 1
          ∧ (∀ a, a ∉ regs t → v.reg a = if ownRegs .cmd t a then resetOf a else s.reg a)
          ∧ { v with regs := s.regs, marks := s.marks, xlat := s.xlat, slotKey := s.slotKey, nextKey := s.nextKey, free := s.free, wq := s.wq, jq := s.jq, ring := s.ring, mapOp := s.mapOp, fw := s.fw, pcie := s.pcie, relHead := s.relHead } = u)
    ∧ (r.code = 2 → 1 ≤ p.length → s.field CMD_FW_STAT 11 8 ≠ 2 → s.field CMD_FW_STAT 11 8 ≠ 3 →
      exec .tenantRemove s = .next (if 15 < t then finish u r 3 [] else if s.slot t ≠ 1 then finish u r 4 [] else finish (u.retireTenant t) r 0 []))
    ∧ (r.code = 3 → 1 ≤ p.length →
      exec .tenantStatus s = .next (if 15 < t then finish u r 3 [] else finish u r 0 (leBytes 4 (s.regN (QN_TSTAT t)))))
    ∧ (r.code = 4 → 34 ≤ p.length →
      let chip := pfield p 0 2
      (0xFFF < chip → exec .fabricSetup s = .next (finish u r 3 []))
      ∧ (chip ≤ 0xFFF → (∃ i, i < 8 ∧ s.dpOn i = true) → exec .fabricSetup s = .next (finish u r 4 []))
      ∧ (chip ≤ 0xFFF → (∀ i, i < 8 → s.dpOn i = false) → ∃ v : State, exec .fabricSetup s = .next (finish v r 0 [])
          ∧ v.regN DP_CHIP_ID = chip + 2 ^ 31 ∧ (∀ i, i < 8 → v.regN (DP_FKEY i) = pfield p (2 + 4 * i) 4)
          ∧ (∀ a, a ≠ DP_CHIP_ID → (∀ i, i < 8 → a ≠ DP_FKEY i) → v.reg a = s.reg a) ∧ { v with regs := s.regs } = u)))
  ∧ (∀ (s : State) (t : Fin 16), s.up = true → s.canon = true →
    (let idle := s.slot t = 2 ∧ s.drainUnits t = [] ∧ ∀ f, f ∈ s.flights → f.tenant ≠ t.val
     (idle → exec (.tenantDrainDone t) s = .next ({ s.setField (QN_TSTAT t) 1 0 3 with drainTimer := s.drainTimer.filter (· != t.val) } : State))
     ∧ (¬ idle → exec (.tenantDrainDone t) s = .next s))
    ∧ (let due := s.slot t = 2 ∧ t.val ∈ s.drainTimer
       (¬ due → exec (.tenantDrainTimeout t) s = .next s)
       ∧ (due → ∃ v : State, exec (.tenantDrainTimeout t) s = .next v ∧ v.slot t = 3 ∧ t.val ∉ v.drainTimer
           ∧ (∀ f, f ∈ v.flights → f ∈ s.flights) ∧ v.bed = s.bed ∧ v.hbm = s.hbm ∧ v.marks = s.marks ∧ v.slotKey = s.slotKey))
    ∧ (s.slot t ≠ 3 → exec (.tenantScrubDone t) s = .next s)
    ∧ (s.slot t = 3 → ∃ v : State, exec (.tenantScrubDone t) s = .next v.unlockNext
        ∧ v.slot t = 0 ∧ v.regN (MK_WIN t) = 0 ∧ v.regN (DP_FTID t) = 0
        ∧ (∀ i, i < 8 → v.regN (DP_KEY (8 * t + i)) = 0) ∧ (∀ i, i < 4 → v.regN (PT_KEY (4 * t + i)) = 0)
        ∧ v.regN (QC_QBED t) = 0 ∧ v.regN (QC_QHBM t) = 0 ∧ v.regN (QC_QNAND t) = 0 ∧ v.regN (QC_QPM t) = 0 ∧ v.regN (QC_QPT t) = 0
        ∧ (∀ m, v.mark m = if s.field (MK_WIN t) 15 0 ≤ m ∧ m < s.field (MK_WIN t) 15 0 + s.field (MK_WIN t) 31 16 then 0 else s.mark m)
        ∧ (∀ e, e ∈ v.xlat → e.tenant ≠ t.val) ∧ (∀ f, f ∈ v.flights → f.tenant ≠ t.val) ∧ (∀ w, w ∈ v.wq → w.fn ≠ t.val)
        ∧ (∀ b, b ∈ v.builds → b.tenant ≠ t.val) ∧ (v.unlocking = 0 → v.unlockNext = v))
    ∧ ((∀ w, w ∈ s.schedQ → w.t ≠ t.val) →
       let v := s.retireTenant t
       v.slot t = 2 ∧ (∀ k : Fin 16, k ≠ t → v.slot k = s.slot k) ∧ v.field (QC_SCHED_STAT t) 1 0 = 0
       ∧ v.pcie.vfOn = s.pcie.vfOn &&& ~~~BitVec.ofNat 16 (2 ^ t.val) ∧ t.val ∈ v.drainTimer
       ∧ v.flights = (s.flights.filter fun f => !(f.held && decide (f.tenant = t.val))).map fun f =>
           if f.tenant = t.val ∧ f.issued = false ∧ (f.phase = .dispatched ∨ f.phase = .redispatch) then f.endWith 0x0080 0 else f))
  ∧ ∀ (s : State) (n b : Nat), s.windowPlace n = some b → b + n ≤ 61440 ∧ ∀ w, w ∈ s.windows → b + n ≤ w.1 ∨ w.1 + w.2 ≤ b

/-- PLINTH_READ, the IMAGE_UPDATE parts, SVN_RAISE, DEBUG_CHALLENGE, DEBUG_RESPONSE and the power commands (R305 to R315, R393 to R395, R418). -/
def Obligations.QuoinServesTheRest : Prop :=
  let finish (v : State) (r : QReq) (res : Nat) (resp : Bytes) : State :=
    State.qnSkimFuel (v.qnAnswer r res resp).qnReq.length (v.qnAnswer r res resp)
  (∀ (s : State) (r : QReq), s.up = true → s.canon = true → s.qnNext = some r → s.qnPermits r.code r.src = true →
    let u := s.qnTake r
    let p := r.payload
    (r.code = 0x10 → 8 ≤ p.length →
      let a := pfield p 0 4
      let n := pfield p 4 4
      (240 < n ∨ 0x4000000 < a + n → exec .plinthRead s = .next (finish u r 3 []))
      ∧ (n ≤ 240 → a + n ≤ 0x4000000 →
          let status (k : Nat) := s.plBusy (k / plBankBytes) = true ∨ k / plBlock ∈ (s.plBank (k / plBankBytes)).blocks
          let bytes := (cut plBlock a n).flatMap fun c => if status c.1 then (List.range c.2).map fun i => (leBytes 4 (s.regN (plStat (c.1 / plBankBytes)))).getD ((c.1 + i) % 4) 0 else memRead erasedByte s.plArray c.1 c.2
          ∃ v : State, exec .plinthRead s = .next (finish v r 0 bytes)
          ∧ { v with regs := s.regs } = u ∧ (∀ x, x ≠ PL_RD_INDET → v.reg x = s.reg x)
          ∧ ((∀ c, c ∈ cut plBlock a n → ¬ status c.1 → s.plIndet (c.1 / plBlock) = false) → v = u)
          ∧ ((∃ c, c ∈ cut plBlock a n ∧ ¬ status c.1 ∧ s.plIndet (c.1 / plBlock) = true) → v.regBit PL_RD_INDET 31 = true)))
    ∧ (r.code = 0x11 → 4 ≤ p.length → pfield p 1 3 = 0 →
      let part := p.head?.map BitVec.toNat
      (part = some 0 → 8 ≤ p.length →
        let len := pfield p 4 4
        (s.session ≠ none → exec .imageUpdateBegin s = .next (finish u r 4 []))
        ∧ (s.session = none → exec .imageUpdateBegin s = .next (
            if len % 32 ≠ 0 ∨ len < 512 ∨ 15990784 < len then finish u r 3 []
            else finish { u with session := some { len := len, got := 0, slotB := !s.regBit QN_STATUS 3, last := none } } r 0 [])))
      ∧ (part = some 1 → 8 ≤ p.length → s.plFree = true →
        let off := pfield p 4 4
        let data := p.drop 8
        (s.session = none → exec .imageUpdateData s = .next (finish u r 4 []))
        ∧ ∀ x : Session, s.session = some x →
          let base := imageBlock x.slotB * plBlock
          let bad := data.length % 32 ≠ 0 ∨ data.length < 32 ∨ 224 < data.length ∨ off ≠ x.got ∨ x.len < off + data.length
          (x.last = some (off, data) → exec .imageUpdateData s = .next (finish u r 0 []))
          ∧ (x.last ≠ some (off, data) → bad → exec .imageUpdateData s = .next (finish u r 3 []))
          ∧ (x.last ≠ some (off, data) → ¬ bad →
              let w := (chunks 32 data).zipIdx.foldl (fun (w : State) (l, i) => w.imageLine x.slotB (off + 32 * i) l) u
              exec .imageUpdateData s = .next (if memRead erasedByte w.plArray (base + off) data.length = data
                then finish { w with session := some { x with got := off + data.length, last := some (off, data) } } r 0 [] else finish w r 5 [])))
      ∧ (part = some 2 →
        (s.session = none → exec .imageUpdateEnd s = .next (finish u r 4 []))
        ∧ ∀ x : Session, s.session = some x →
          let image := memRead erasedByte s.plArray (imageBlock x.slotB * plBlock) x.len
          let closed : State := { u with session := none }
          exec .imageUpdateEnd s = .next (if x.got < x.len then finish u r 3 []
            else if imageCheck image x.len (s.regN QN_MIN_SVN) ≠ 0 then finish closed r 5 [] else finish (closed.newRecord x.slotB) r 0 []))
      ∧ (part = some 3 →
        (s.session = none → exec .imageUpdateAbort s = .next (finish u r 4 []))
        ∧ (s.session ≠ none → exec .imageUpdateAbort s = .next (finish { u with session := none } r 0 []))))
    ∧ (r.code = 0x20 → 4 ≤ p.length →
      let top := match s.fw.running with | some h => h.svn.toNat | none => 0
      exec .svnRaise s = .next (if pfield p 0 4 < s.regN QN_MIN_SVN ∨ top < pfield p 0 4 then finish u r 3 []
        else finish (u.setRegN QN_MIN_SVN (pfield p 0 4)).record r 0 []))
    ∧ (r.code = 0x30 → 1 ≤ p.length →
      let level := pfield p 0 1
      let nonce := s.freeBytes 32
      exec .debugChallenge s = .next (if level ≠ 1 ∧ level ≠ 2 then finish u r 3 []
        else finish { u.tick with dbg := some (BitVec.ofNat 256 (leNat nonce), BitVec.ofNat 8 level) } r 0 (nonce ++ leBytes 16 Config.serial.toNat)))
    ∧ (r.code = 0x31 → 96 ≤ p.length → s.field CMD_FW_STAT 11 8 ≠ 2 → s.field CMD_FW_STAT 11 8 ≠ 3 →
      (u.dbg = none → exec .debugResponse s = .next (finish u r 5 []))
      ∧ ∀ nonce level, u.dbg = some (nonce, level) →
        let signed := ecdsaVerify (beBytes 96 Config.debugKey.toNat) (p.take 96) (sha384 (leBytes 32 nonce.toNat ++ [level] ++ leBytes 16 Config.serial.toNat))
        (signed = false → exec .debugResponse s = .next (finish { u with dbg := none } r 5 []))
        ∧ (signed = true → ∃ v : State, exec .debugResponse s = .next (finish v.unlockNext r 0 [])
            ∧ (s.schedQ = [] → v.dbg = none ∧ v.dbgUsed = true ∧ v.unlocking = max s.unlocking level.toNat
              ∧ ∀ t, t < 16 → v.slot t = if s.slot t = 1 then 2 else s.slot t)))
    ∧ (r.code = 0x40 → 2 ≤ p.length →
      let w := pfield p 0 2
      (w < 300 ∨ 1100 < w → exec .capSet s = .next (finish u r 3 []))
      ∧ (300 ≤ w → w ≤ 1100 → ∃ v : State, exec .capSet s = .next (finish v r 0 [])
          ∧ v.regN PWR_CAP = w ∧ v.field PWR_EFF_CAP 10 0 = (min (min w (s.field PWR_EFF_CAP 26 16)) (1300 * s.field PWR_VTARGET 9 0 / 1000)) % 2048
          ∧ (∀ a, a ≠ PWR_CAP → a ≠ PWR_EFF_CAP → a ≠ PWR_STATUS → v.reg a = s.reg a) ∧ { v with regs := s.regs } = u))
    ∧ (r.code = 0x41 → exec .capGet s = .next (finish u r 0 (leBytes 2 (s.field PWR_CAP 10 0) ++ leBytes 2 s.effCap ++ leBytes 2 (s.field PWR_EFF_CAP 26 16))))
    ∧ (r.code = 0x42 → exec .energyRead s = .next (finish u r 0 (leBytes 8 (s.regN PWR_ENERGY) ++ leBytes 8 (s.timeNs / 1000))))
    ∧ (r.code = 0x43 → exec .voltageRead s = .next (finish u r 0 (leBytes 2 (s.field PWR_VTARGET 9 0) ++ leBytes 2 (s.field PWR_VTARGET 25 16))))
    ∧ (r.code = 0x44 → ∃ hbm nand : Nat, exec .thermalRead s = .next (finish u r 0 (leBytes 4 (s.regN PWR_TJ) ++ leBytes 1 hbm ++ leBytes 1 nand))
        ∧ (∀ i, i < 8 → s.field (FC_STATUS i) 15 8 ≤ hbm) ∧ (∃ i, i < 8 ∧ s.field (FC_STATUS i) 15 8 = hbm)
        ∧ (∀ c, c < 16 → s.field (QC_NCH_STAT c) 15 8 ≤ nand) ∧ ∃ c, c < 16 ∧ s.field (QC_NCH_STAT c) 15 8 = nand)
    ∧ (r.code = 0x45 → exec .throttleRead s = .next (finish u r 0 (leBytes 4 (s.field PWR_STATUS 10 0 + 2 ^ 11 * (if s.pins.coolFlowOk then 1 else 0)) ++ leBytes 4 (s.regN PWR_STOP_LOG)))))
  ∧ (∀ s : State, s.up = true → exec .imageUpdateSessionTimeout s = .next { s with session := none })
  ∧ (∀ (s : State) (sb : Bool) (off : Nat) (l : Bytes), s.canon = true → s.plFree = true → off % 32 = 0 → off + 32 ≤ 15990784 → l.length = 32 →
    let a := imageBlock sb * plBlock + off
    let blk := a / plBlock
    let v := s.imageLine sb off l
    v.plFree = true ∧ (∀ x, x ≠ plStat (blk / 256) → x ≠ PL_STATUS → (∀ n, n < 16 → x ≠ PL_INDET n) → v.reg x = s.reg x)
    ∧ (s.plLocked blk = true → v.plArray = s.plArray ∧ v.regBit (plStat (blk / 256)) 6 = true)
    ∧ (s.plLocked blk = false → a % plBlock = 0 → ∀ x, memByte erasedByte v.plArray x
        = if a ≤ x ∧ x < a + 32 then l.getD (x - a) 0 else if x / plBlock = blk then 0xFF else memByte erasedByte s.plArray x)
    ∧ (s.plLocked blk = false → a % plBlock ≠ 0 → s.plIndet blk = false → ∀ x, memByte erasedByte v.plArray x
        = if a ≤ x ∧ x < a + 32 then memByte erasedByte s.plArray x &&& l.getD (x - a) 0 else memByte erasedByte s.plArray x)
    ∧ (s.plLocked blk = false → a % plBlock ≠ 0 → s.plIndet blk = true → v.plArray = s.plArray ∧ v.regBit (plStat (blk / 256)) 7 = true))
  ∧ ∀ s : State, s.canon = true →
    let locked := s.unlocking = 0 ∨ ∃ t, t < 16 ∧ s.slot t ≠ 0
    (locked → s.unlockNext = s)
    ∧ (¬ locked → s.unlockNext.unlocking = 0 ∧ s.unlockNext.field QN_STATUS 1 0 = s.unlocking % 4 ∧ s.unlockNext.slotKeyId 16 = s.nextKey + 1
        ∧ ∀ a, a ≠ QN_STATUS → s.unlockNext.reg a = s.reg a)

/-- FSET_WRITE, RAMP_STEP, DROOP_TRIP, DROOP_CLEAR, VOLTAGE_TARGET_CHANGE, DOMAIN_SWITCH and DOMAIN_POWER_UP_DONE (R398 to R405). -/
def Obligations.IslandsAndDomains : Prop :=
  (∀ (s : State) (k : Fin 113) (v : Word), s.up = true → s.canon = true →
    let a := PWR_FSTAT k
    let only (t : State) : Prop := (∀ x, x ≠ a → t.reg x = s.reg x) ∧ { t with regs := s.regs } = s
    let shown (t : State) (target mhz : Nat) (droop frozen : Bool) (count : Nat) : Prop :=
      let next := if mhz < target then mhz + 25 else mhz - 25
      let may := !droop && (decide (next ≤ mhz) || decide (Config.vfTable next s.junction ≤ s.field PWR_VTARGET 25 16))
      t.field a 11 0 = mhz ∧ t.regBit a 12 = decide (mhz ≠ target) ∧ t.regBit a 13 = (frozen && decide (mhz ≠ target))
        ∧ t.regBit a 14 = droop ∧ t.regBit a 15 = (decide (mhz ≠ target) && !may) ∧ t.field a 31 16 = count
    let target := s.field (PWR_FSET k) 11 0
    let mhz := s.field a 11 0
    let next := if mhz < target then mhz + 25 else mhz - 25
    let may := s.regBit a 14 = false ∧ (next ≤ mhz ∨ Config.vfTable next s.junction ≤ s.field PWR_VTARGET 25 16)
    let w := v.toNat % 0x1000
    exec (.fsetWrite false k v) s = .next s.devErr
    ∧ ((∀ lo hi, islandRange k = some (lo, hi) → w < lo ∨ hi < w ∨ w % 25 ≠ 0) → exec (.fsetWrite true k v) s = .next (s.blkErr .pwr 0 5))
    ∧ (∀ lo hi, islandRange k = some (lo, hi) → lo ≤ w → w ≤ hi → w % 25 = 0 →
        (s.stopped = true → exec (.fsetWrite true k v) s = .next (s.setRegN (PWR_FSET k) w))
        ∧ (s.stopped = false → ∃ t : State, exec (.fsetWrite true k v) s = .next t ∧ t.regN (PWR_FSET k) = w
            ∧ shown t w mhz (s.regBit a 14) (s.regBit a 13) (s.field a 31 16)
            ∧ (∀ x, x ≠ a → x ≠ PWR_FSET k → t.reg x = s.reg x) ∧ { t with regs := s.regs } = s))
    ∧ (s.regBit a 12 = false → exec (.rampStep k) s = .next s)
    ∧ (s.regBit a 12 = true → may → ∃ t : State, exec (.rampStep k) s = .next t
        ∧ shown t target (next % 4096) false false (s.field a 31 16) ∧ only t)
    ∧ (s.regBit a 12 = true → ¬ may → ∃ t : State, exec (.rampStep k) s = .next t
        ∧ shown t target mhz (s.regBit a 14) (s.regBit a 13) (s.field a 31 16) ∧ only t)
    ∧ (s.regBit a 14 = true → exec (.droopTrip k) s = .next s)
    ∧ (s.regBit a 14 = false → ∃ t : State, exec (.droopTrip k) s = .next t
        ∧ shown t target mhz true (s.regBit a 12) (min 0xFFFF (s.field a 31 16 + 1)) ∧ only t)
    ∧ (s.regBit a 14 = false → exec (.droopClear k) s = .next s)
    ∧ (s.regBit a 14 = true → ∃ t : State, exec (.droopClear k) s = .next t
        ∧ shown t target mhz false (s.regBit a 13) (s.field a 31 16) ∧ only t))
  ∧ (∀ (s : State) (top : Nat), s.up = true → s.canon = true →
    (∀ k, k < 113 → islandRange k ≠ none → s.field (PWR_FSET k) 11 0 ≤ top) →
    (∃ k, k < 113 ∧ islandRange k ≠ none ∧ s.field (PWR_FSET k) 11 0 = top) →
    let want := max 600 (min 850 (Config.vfTable top s.junction))
    let ramping := ∃ k, k < 113 ∧ islandRange k ≠ none ∧ s.regBit (PWR_FSTAT k) 12 = true
    (want < s.field PWR_VTARGET 9 0 ∧ ramping → exec .voltageTargetChange s = .next s)
    ∧ (¬ (want < s.field PWR_VTARGET 9 0 ∧ ramping) → ∃ t : State, exec .voltageTargetChange s = .next t
        ∧ t.field PWR_VTARGET 9 0 = want ∧ t.field PWR_VTARGET 25 16 = s.field PWR_VTARGET 25 16
        ∧ t.field PWR_EFF_CAP 10 0 = min (min (s.field PWR_CAP 10 0) (s.field PWR_EFF_CAP 26 16)) (1300 * want / 1000)
        ∧ t.field PWR_EFF_CAP 26 16 = s.field PWR_EFF_CAP 26 16
        ∧ (∀ x, x ≠ PWR_VTARGET → x ≠ PWR_EFF_CAP → x ≠ PWR_STATUS → t.reg x = s.reg x) ∧ { t with regs := s.regs } = s))
  ∧ (∀ (s : State) (d : Fin 215) (v : Word), s.up = true → s.canon = true →
    let a := PWR_DOM d
    let off : Prop := (d.val < 92 ∧ (∃ b i, unitOfDomain d = some (b, i) ∧ blkIdleBit (s.blkState b i) = true))
      ∨ (92 ≤ d.val ∧ d.val < 156 ∧ ∀ i, i < 17 → 17 * (d.val - 92) + i ∈ s.bankOut)
      ∨ (((172 ≤ d.val ∧ d.val < 196) ∨ 203 ≤ d.val) ∧ s.domUsed d = false)
      ∨ (197 ≤ d.val ∧ d.val < 202 ∧ s.inService .kc (d.val - 197) = false ∧ blkIdleBit (s.blkState .kc (d.val - 197)) = true)
    let owner : Option (Blk × Nat) := if d.val < 92 ∨ (197 ≤ d.val ∧ d.val < 202) then unitOfDomain d else none
    exec (.domainSwitch false d v) s = .next s.devErr
    ∧ (s.stopped = true → exec (.domainSwitch true d v) s = .next s)
    ∧ (s.stopped = false → v.getLsbD 0 = true →
        exec (.domainSwitch true d v) s = .next (if s.regBit a 1 = true then s.setBit a 0 true else (s.setRegN a 5).domNext))
    ∧ (s.stopped = false → v.getLsbD 0 = false → s.regBit a 0 = false → exec (.domainSwitch true d v) s = .next s)
    ∧ (s.stopped = false → v.getLsbD 0 = false → s.regBit a 0 = true → ¬ off → exec (.domainSwitch true d v) s = .next (s.blkErr .pwr 0 5))
    ∧ (s.stopped = false → v.getLsbD 0 = false → s.regBit a 0 = true → off → ∃ t : State, exec (.domainSwitch true d v) s = .next t.domNext
        ∧ t.regN a = 0 ∧ t.pw = { s.pw with domBusy := if s.pw.domBusy = some d.val then none else s.pw.domBusy }
        ∧ (∀ x, x ≠ a → t.reg x = if owner.any (fun o => ownRegs o.1 o.2 x) = true then resetOf x else s.reg x)
        ∧ (∀ b i, owner = some (b, i) → t.unit = (s.setUnit b i { s.unitAt b i with lastTenant := none }).unit
            ∧ (b = .ae → t.resident = smapErase s.resident i) ∧ (b = .ce → t.image = smapErase s.image i))
        ∧ (owner = none → t.unit = s.unit)
        ∧ ((∀ i, owner ≠ some (.ae, i)) → t.resident = s.resident) ∧ ((∀ i, owner ≠ some (.ce, i)) → t.image = s.image)
        ∧ { t with regs := s.regs, pw := s.pw, unit := s.unit, resident := s.resident, image := s.image } = s)
    ∧ (s.pw.domBusy ≠ some d.val → exec (.domainPowerUpDone d) s = .next s)
    ∧ (s.pw.domBusy = some d.val → ∃ t : State, exec (.domainPowerUpDone d) s = .next t.domNext
        ∧ t.regN a = 3 ∧ t.pw = { s.pw with domBusy := none }
        ∧ (∀ b i, unitOfDomain d = some (b, i) → t.regN (BLK_CTL b i) = 0 ∧ t.regN (BLK_ERR b i) = 0
            ∧ (∀ x, x ≠ a → x ≠ BLK_CTL b i → x ≠ BLK_ERR b i → t.reg x = s.reg x)
            ∧ t.unit = if (s.unitAt b i).st = .substituting then s.unit
                else (s.setUnit b i { s.unitAt b i with st := (unitReset (unitKey b i)).st }).unit)
        ∧ (unitOfDomain d = none → (∀ x, x ≠ a → t.reg x = s.reg x) ∧ t.unit = s.unit)
        ∧ { t with regs := s.regs, pw := s.pw, unit := s.unit } = s))
  ∧ ∀ s : State, let waits (d : Nat) : Prop := d < 215 ∧ s.regBit (PWR_DOM d) 2 = true ∧ s.regBit (PWR_DOM d) 1 = false
    (s.pw.domBusy ≠ none → s.domNext = s) ∧ ((∀ d, ¬ waits d) → s.domNext = s)
    ∧ ((∃ d, waits d) → s.pw.domBusy = none → ∃ d, waits d ∧ s.domNext = { s with free := s.free + 1, pw := { s.pw with domBusy := some d } })

/-- POWER_SAMPLE, EST_CORR_UPDATE, CAP_LOOP_INTERVAL, BUBBLE_SHARE_APPLY and THERMAL_CAP_UPDATE (R406 to R414). -/
def Obligations.PowerIsMeasuredAndCapped : Prop :=
  (∀ (s : State) (currents : List (Fin 215 × BitVec 16)) (aon stackPower : Nat) (sensed : BitVec 10), s.up = true → s.canon = true →
    let amps (d : Nat) : Nat := match currents.find? fun c => decide (c.1.val = d) with | some c => c.2.toNat | none => 0
    let chip := ((List.range 215).map amps).foldl (· + ·) 0 * sensed.toNat + 10 * aon
    let energy := s.pw.frac + chip + 10 * stackPower
    let exceeds : Prop := min (10000 * s.field PWR_FAST_W 10 0) (17100 * s.field PWR_VTARGET 9 0) < chip
    ∃ t : State, exec (.powerSample currents aon stackPower sensed) s = .next t
      ∧ (∀ d, d < 215 → t.regN (PWR_DOM_I d) = amps d)
      ∧ t.field PWR_VTARGET 25 16 = sensed.toNat ∧ t.field PWR_VTARGET 9 0 = s.field PWR_VTARGET 9 0
      ∧ t.regN PWR_ENERGY = (s.regN PWR_ENERGY + energy / 10000) % 2 ^ 64
      ∧ (∃ w, (w = chip / 10000 ∨ (w = chip / 10000 + 1 ∧ chip % 10000 ≠ 0)) ∧ t.field PWR_EST 47 32 = w % 2 ^ 16)
      ∧ t.field PWR_EST 31 0 = s.field PWR_EST 31 0
      ∧ (∃ n, t.pw = { s.pw with frac := energy % 10000, fastHits := n } ∧ (¬ exceeds → n = 0) ∧ (exceeds → n = min 2 (s.pw.fastHits + 1)))
      ∧ (exceeds → 1 ≤ s.pw.fastHits → t.field PWR_STATUS 5 0 = 48 ∧ t.regBit PWR_STATUS 8 = true ∧ t.field PWR_STATUS 7 6 = s.field PWR_STATUS 7 6 ∧ t.field PWR_STATUS 63 9 = s.field PWR_STATUS 63 9)
      ∧ (¬ (exceeds ∧ 1 ≤ s.pw.fastHits) → t.reg PWR_STATUS = s.reg PWR_STATUS)
      ∧ (∀ k : Fin 113, (s.regBit (PWR_FSTAT k) 15 = false → t.reg (PWR_FSTAT k) = s.reg (PWR_FSTAT k))
          ∧ t.field (PWR_FSTAT k) 11 0 = s.field (PWR_FSTAT k) 11 0)
      ∧ (∀ a, a ≠ PWR_VTARGET → a ≠ PWR_ENERGY → a ≠ PWR_EST → a ≠ PWR_STATUS → (∀ d, d < 215 → a ≠ PWR_DOM_I d) → (∀ k, k < 113 → a ≠ PWR_FSTAT k) → t.reg a = s.reg a)
      ∧ { t with regs := s.regs, pw := s.pw, free := s.free } = s)
  ∧ (∀ (s : State) (measured estimated : Nat), s.up = true → s.canon = true →
    ∃ t : State, exec (.estCorrUpdate measured estimated) s = .next t
      ∧ 0xC000 ≤ t.regN PWR_EST_CORR ∧ t.regN PWR_EST_CORR ≤ 0x14000
      ∧ (estimated ≠ 0 → ∃ r, r * estimated < measured * 0x10000 + estimated ∧ measured * 0x10000 < (r + 1) * estimated
          ∧ t.regN PWR_EST_CORR = max 0xC000 (min 0x14000 r))
      ∧ (∀ a, a ≠ PWR_EST_CORR → t.reg a = s.reg a) ∧ { t with regs := s.regs } = { s with free := s.free + 1 })
  ∧ (∀ (s : State) (pdem pb : BitVec 16), s.up = true → s.canon = true →
    let cap := min (min (s.field PWR_CAP 10 0) (s.field PWR_EFF_CAP 26 16)) (1300 * s.field PWR_VTARGET 9 0 / 1000)
    ∃ t : State, ∃ share sat, exec (.capLoopInterval pdem pb) s = .next t
      ∧ t.field PWR_EST 15 0 = pdem.toNat ∧ t.field PWR_EST 31 16 = pb.toNat ∧ t.field PWR_EST 63 32 = s.field PWR_EST 63 32
      ∧ t.pw = { s.pw with pend := some (share, sat) }
      ∧ (pdem.toNat ≤ cap → share = 0 ∧ sat = false)
      ∧ (cap < pdem.toNat → pb.toNat = 0 → share = 48 ∧ sat = true)
      ∧ (cap < pdem.toNat → pb.toNat ≠ 0 → ∃ c, 64 * (pdem.toNat - cap) ≤ c * pb.toNat ∧ (∀ n, 64 * (pdem.toNat - cap) ≤ n * pb.toNat → c ≤ n)
          ∧ share = min 48 c ∧ sat = decide (48 ≤ c))
      ∧ (∀ a, a ≠ PWR_EST → t.reg a = s.reg a) ∧ { t with regs := s.regs, pw := s.pw } = s)
  ∧ (∀ s : State, s.up = true → s.canon = true →
    (s.pw.pend = none → exec .bubbleShareApply s = .next s)
    ∧ (∀ share sat, s.pw.pend = some (share, sat) → ∃ t : State, exec .bubbleShareApply s = .next t
        ∧ t.field PWR_STATUS 5 0 = share % 64 ∧ t.regBit PWR_STATUS 6 = sat ∧ t.regBit PWR_STATUS 8 = false
        ∧ t.regBit PWR_STATUS 7 = s.regBit PWR_STATUS 7 ∧ t.field PWR_STATUS 63 9 = s.field PWR_STATUS 63 9
        ∧ t.field CMD_FW_STAT 11 8 = (if sat = true ∧ s.field CMD_FW_STAT 11 8 = 2 then 3 else s.field CMD_FW_STAT 11 8)
        ∧ t.field CMD_FW_STAT 7 0 = s.field CMD_FW_STAT 7 0 ∧ t.field CMD_FW_STAT 63 12 = s.field CMD_FW_STAT 63 12
        ∧ (∀ a, a ≠ PWR_STATUS → a ≠ CMD_FW_STAT → t.reg a = s.reg a)
        ∧ { t with regs := s.regs } = { s with pw := { s.pw with pend := none }, jq := if sat = true ∧ s.field CMD_FW_STAT 11 8 = 2 then smapMap jobQIdle (fun (j : JobQ) => { j with parked := false }) s.jq else s.jq })
    ∧ (let cap := s.field PWR_CAP 10 0
       let was := s.field PWR_EFF_CAP 26 16
       let next := if s.pw.atLimit = true ∧ s.pw.atRelease = false then max 300 (was - 10)
         else if s.pw.atRelease = true ∧ s.pw.atLimit = false then min cap (was + 10) else was
       ∃ t : State, exec .thermalCapUpdate s = .next t
        ∧ t.field PWR_EFF_CAP 26 16 = next
        ∧ t.field PWR_EFF_CAP 10 0 = min (min cap next) (1300 * s.field PWR_VTARGET 9 0 / 1000)
        ∧ t.regBit PWR_STATUS 7 = decide (next < cap) ∧ (∀ n, n ≤ 63 → n ≠ 7 → t.regBit PWR_STATUS n = s.regBit PWR_STATUS n)
        ∧ (∀ a, a ≠ PWR_EFF_CAP → a ≠ PWR_STATUS → t.reg a = s.reg a)
        ∧ { t with regs := s.regs } = { s with pw := { s.pw with atLimit := true, atRelease := true } }))

/-- JUNCTION_SAMPLE, COOLANT_STOP, CATTRIP, the stop they latch and STOP_POWER_OFF (R278, R413 to R416). -/
def Obligations.StopsLatchAndPowerOff : Prop :=
  (∀ (s : State) (readings : List (BitVec 12)), s.up = true → s.canon = true →
    let r (i : Nat) : BitVec 12 := readings.getD i 0
    let trips (i : Nat) : Prop := i < 64 ∧ 920 ≤ (r i).toInt ∧ s.pw.tripHits.getLsbD i = true
    ∃ (u : State) (i : Nat), i < 64 ∧ (∀ j, j < 64 → (r j).toInt ≤ (r i).toInt)
      ∧ (∀ j, j < 64 → u.regN (PWR_TS j) = (r j).toNat)
      ∧ u.field PWR_TJ 11 0 = (r i).toNat ∧ u.field PWR_TJ 21 16 = i
      ∧ (∀ j, j < 64 → u.pw.tripHits.getLsbD j = decide (920 ≤ (r j).toInt))
      ∧ u.pw.atLimit = (s.pw.atLimit && decide (8 * (s.field PWR_THERM_CFG 7 0 : Int) ≤ (r i).toInt))
      ∧ u.pw.atRelease = (s.pw.atRelease && decide ((r i).toInt ≤ 8 * (s.field PWR_THERM_CFG 15 8 : Int)))
      ∧ (∀ a, a ≠ PWR_TJ → a ≠ PWR_STOP_LOG → (∀ j, j < 64 → a ≠ PWR_TS j) → u.reg a = s.reg a)
      ∧ { u with regs := s.regs, free := s.free, pw := { u.pw with tripHits := s.pw.tripHits, atLimit := s.pw.atLimit, atRelease := s.pw.atRelease } } = s
      ∧ ((∀ j, ¬ trips j) → u.reg PWR_STOP_LOG = s.reg PWR_STOP_LOG ∧ exec (.junctionSample readings) s = .next u)
      ∧ ((∃ j, trips j) → exec (.junctionSample readings) s = .next u.thermalTrip
          ∧ (s.regBit PWR_STOP_LOG 1 = true → u.reg PWR_STOP_LOG = s.reg PWR_STOP_LOG)
          ∧ (s.regBit PWR_STOP_LOG 1 = false → u.regBit PWR_STOP_LOG 1 = true ∧ (∃ j, trips j ∧ u.field PWR_STOP_LOG 21 16 = j)
              ∧ u.regBit PWR_STOP_LOG 0 = s.regBit PWR_STOP_LOG 0 ∧ u.field PWR_STOP_LOG 5 2 = s.field PWR_STOP_LOG 5 2)))
  ∧ (∀ (s : State) (stack : Fin 8), s.up = true → s.canon = true →
    (∃ u : State, exec (.cattrip stack) s = .next u.thermalTrip
      ∧ (s.regBit PWR_STOP_LOG 2 = true → u = s)
      ∧ (s.regBit PWR_STOP_LOG 2 = false → u.regBit PWR_STOP_LOG 2 = true ∧ u.field PWR_STOP_LOG 5 3 = stack.val
          ∧ u.field PWR_STOP_LOG 1 0 = s.field PWR_STOP_LOG 1 0 ∧ u.field PWR_STOP_LOG 21 16 = s.field PWR_STOP_LOG 21 16
          ∧ (∀ a, a ≠ PWR_STOP_LOG → u.reg a = s.reg a) ∧ { u with regs := s.regs } = s))
    ∧ (s.pw.coolArmed = false ∨ s.pins.coolFlowOk = true → exec .coolantStop s = .next s)
    ∧ (s.pw.coolArmed = true → s.pins.coolFlowOk = false →
        exec .coolantStop s = .next ((({ s with pw := { s.pw with coolArmed := false } } : State).setBit PWR_STOP_LOG 0 true).latchStop 9))
    ∧ (s.thermalTrip.pins.thermTrip = true ∧ s.thermalTrip = ({ s with pins := { s.pins with thermTrip := true } } : State).latchStop 10))
  ∧ (∀ (s : State) (n : Nat), s.canon = true → n = 9 ∨ n = 10 →
    let m := s.setBit PWR_STATUS n true
    let ended (x : State) (v : Nat) : State :=
      if x.field CMD_FW_STAT 11 8 = 1 then ({ x.setBit (QN_RGN 259) 1 false with fw := { x.fw with verify := none } } : State).updEnds v
      else if x.field CMD_FW_STAT 11 8 = 2 ∨ x.field CMD_FW_STAT 11 8 = 3 then x.updEnds v else x
    let e := (ended (if n = 9 ∧ s.field CMD_FW_STAT 11 8 = 1 then ended (m.setField CMD_FW_STAT 7 4 6) 5 else m) 6).setBit (QN_RGN 259) 1 false
    m.regBit PWR_STATUS n = true
    ∧ (s.stopped = true → s.latchStop n = m)
    ∧ (s.stopped = false → ∃ w : State, s.latchStop n = w.msix 0
        ∧ w.field CMD_FW_STAT 3 0 = 7 ∧ w.field CMD_FW_STAT 63 4 = e.field CMD_FW_STAT 63 4
        ∧ (∀ k, k < 113 → w.regBit (PWR_FSTAT k) 12 = false ∧ w.regBit (PWR_FSTAT k) 13 = false ∧ w.regBit (PWR_FSTAT k) 15 = false
            ∧ w.field (PWR_FSTAT k) 11 0 = e.field (PWR_FSTAT k) 11 0 ∧ w.regBit (PWR_FSTAT k) 14 = e.regBit (PWR_FSTAT k) 14 ∧ w.field (PWR_FSTAT k) 31 16 = e.field (PWR_FSTAT k) 31 16)
        ∧ (∀ d, d < 215 → w.reg (PWR_DOM d) = if e.regBit (PWR_DOM d) 2 = true then 0 else e.reg (PWR_DOM d))
        ∧ (∀ a, a ≠ CMD_FW_STAT → (∀ k, k < 113 → a ≠ PWR_FSTAT k) → (∀ d, d < 215 → a ≠ PWR_DOM d) → w.reg a = e.reg a)
        ∧ { w with regs := e.regs } = { e with
              flights := e.flights.map Flight.stop
              tensors := smapMap tensorUnused (fun (x : Tensor) => { x with moving := false }) e.tensors
              moves := [], builds := [], schedQ := [], rops := [], subst := []
              fw := { e.fw with verify := none, absentTimer := false }
              pw := { e.pw with domBusy := none, offArmed := true } }))
  ∧ (∀ f : Flight, (f.held = true → f.stop = f)
    ∧ (f.held = false → f.stop.phase = .ran ∧ f.stop.codes = f.codes ++ [(0x00F1, 0)] ∧ f.stop.outRec = [] ∧ f.stop.late = [] ∧ f.stop.inRec = []))
  ∧ (∀ s : State, s.up = true → s.canon = true →
    (s.pw.offArmed = false → exec .stopPowerOff s = .next s)
    ∧ (s.pw.offArmed = true → ∃ t : State, exec .stopPowerOff s = .next t
        ∧ (∀ d, d < 215 → t.reg (PWR_DOM d) = if d = 196 then s.reg (PWR_DOM d) else 0)
        ∧ (∀ a, switchedRegs a = true → t.reg a = resetOf a)
        ∧ (∀ a, switchedRegs a = false → (∀ d, d < 215 → a ≠ PWR_DOM d) → t.reg a = s.reg a)
        ∧ t.bed = [] ∧ t.hbm = [] ∧ t.nandBytes = [] ∧ t.tensors = [] ∧ t.xlat = [] ∧ t.flights = [] ∧ t.moves = [] ∧ t.builds = []
        ∧ t.hbmReady = false ∧ t.pageMap = [] ∧ t.pfx = [] ∧ t.rops = [] ∧ t.conn = [] ∧ t.rxq = [] ∧ t.resident = [] ∧ t.image = []
        ∧ t.nandSb = s.nandSb.map Superblock.lost ∧ t.pw = { s.pw with offArmed := false, domBusy := none }
        ∧ t.plArray = s.plArray ∧ t.marks = s.marks ∧ t.wq = s.wq ∧ t.jq = s.jq ∧ t.ring = s.ring ∧ t.qnReq = s.qnReq ∧ t.pins = s.pins ∧ t.fw = s.fw ∧ t.pcie = s.pcie ∧ t.free = s.free))

/-- ERROR_WINDOW_END, UNIT_UNCORRECTABLE_ERROR, RETIRE_REQUEST, SUBSTITUTION_IDLE and SUBSTITUTION_COMPLETE (R420 to R424). -/
def Obligations.UnitsRetireAndSparesTakeOver : Prop :=
  let fails (v : State) (b : Blk) (i : Nat) : State :=
    if b ∈ [Blk.ae, .ce, .ve, .le, .he, .kc] then v.retire b i
    else if b ∈ [Blk.qc, .fc, .dp, .dev, .cmd, .qn, .pm] then v.noSpare b i i (v.field (BLK_ERR_CNT b i) 15 0) else v
  (∀ (s : State) (b : Blk) (i : Nat), s.up = true → s.canon = true → blkInstance b i = true →
    let cnt := BLK_ERR_CNT b i
    let e := if b = .bed then s.winHit.foldl (fun (v : State) p => v.noSpare .bed 0 p (if p % 2 = 0 then v.field (BED_CEC (p / 2)) 15 0 else v.field (BED_CEC (p / 2)) 31 16)) s else s
    (∃ t : State, exec (.errorWindowEnd b i) s = .next t
      ∧ t.field cnt 15 0 = e.field cnt 15 0 / 2 ∧ t.field cnt 31 16 = e.field cnt 31 16
      ∧ (b = .bed → t.winHit = [] ∧ ∀ w, w < 544 → t.field (BED_CEC w) 15 0 = e.field (BED_CEC w) 15 0 / 2 ∧ t.field (BED_CEC w) 31 16 = e.field (BED_CEC w) 31 16 / 2)
      ∧ (b = .fc → (∀ c, c < 16 → t.regN (FC_CECCH i c) = s.regN (FC_CECCH i c) / 2)
          ∧ ∀ k n, (k, n) ∈ t.laneCnt ↔ n ≠ 0 ∧ ∃ c, (k, c) ∈ s.laneCnt ∧ n = if k / 36 / 32 = i then c / 2 else c)
      ∧ (b = .qc → ∀ k n, (k, n) ∈ t.nandCnt ↔ n ≠ 0 ∧ ∃ c, (k, c) ∈ s.nandCnt ∧ n = c / 2)
      ∧ (b ≠ .fc → t.laneCnt = e.laneCnt) ∧ (b ≠ .qc → t.nandCnt = e.nandCnt) ∧ (b ≠ .bed → t.winHit = s.winHit)
      ∧ t.errWin = smapSet errWinReset e.errWin (unitKey b i) (e.regN (BLK_ERR_WIN b i))
      ∧ (∀ a, a ≠ cnt → (b = .bed → ∀ w, w < 544 → a ≠ BED_CEC w) → (b = .fc → ∀ c, c < 16 → a ≠ FC_CECCH i c) → t.reg a = e.reg a)
      ∧ { t with regs := e.regs, winHit := e.winHit, laneCnt := e.laneCnt, nandCnt := e.nandCnt, errWin := e.errWin } = e)
    ∧ (∀ reader : Option Nat, (s.flights.map Flight.id).Nodup →
        let u := (s.setField cnt 31 16 (min 0xFFFF (s.field cnt 31 16 + 1))).setBit (BLK_ERR b i) 1 true
        let ends (f : Flight) : Flight := if some f.id = reader ∧ f.onUnit b i = true ∧ f.phase ≠ .ran then { f.endWith 0x0040 0 with outRec := [] } else f
        exec (.unitUncorrectableError b i reader) s = .next (fails { u with flights := s.flights.map ends } b i))
    ∧ (∀ sec, exec (.retireRequest sec (.block b i) .request) s = .next (if sec = false then s.setBit (BLK_ERR .dev 0) 5 true
        else if (s.unitAt b i).retired = true then s.setBit (BLK_ERR b i) 5 true else fails s b i))
    ∧ (let n := min 0xFFFF (s.field cnt 15 0 + 1)
       let u := (s.setField cnt 15 0 n).setBit (BLK_ERR b i) 0 true
       ∀ sec, exec (.retireRequest sec (.block b i) .corrected) s
        = .next (if bits (smapGet errWinReset s.errWin (unitKey b i)) 31 16 ≤ n then fails (u.setBit (BLK_ERR b i) 2 true) b i else u))
    ∧ (let entry (x : Subst) (idle : Bool) : Prop := s.subst.find? (fun y => decide (y.blk = b) && decide (y.old = i) && (y.idle == idle)) = some x
       ((∀ x, ¬ entry x false) ∨ s.working b i = true → exec (.substitutionIdle b i) s = .next s)
       ∧ (∀ x, entry x false → s.working b i = false →
          let rest := s.subst.filter fun y => !(decide (y.blk = b) && decide (y.old = i))
          (∀ sp, s.spareFor b i = some sp →
            let v : State := { s.setUnit b sp { s.unitAt b sp with standby := false, st := .substituting } with subst := rest ++ [{ x with spare := some sp, idle := true }] }
            exec (.substitutionIdle b i) s = .next (match domainOf b sp with | some d => v.domOn d | none => v))
          ∧ (s.spareFor b i = none →
            let v := ({ s with subst := rest } : State).setUnit b i { s.unitAt b i with retiring := false, retired := true }
            let w := ((v.unitOff b i).record).unitRetired b i i 0xFF
            exec (.substitutionIdle b i) s = .next (w.noSpare b i i (w.enabledCount b))))
       ∧ ((∀ x, ¬ entry x true) → exec (.substitutionComplete b i) s = .next s)
       ∧ ∀ x sp, entry x true → x.spare = some sp → (match domainOf b sp with | some d => s.powered d = false | none => False) → exec (.substitutionComplete b i) s = .next s)
    ∧ (∀ x sp, b ∈ [Blk.ae, .ce, .ve, .le, .he, .kc] → sp < (placeOf b).count → sp ≠ i → smapWf unitReset s.unit = true → smapWf (fun k => k % 256) s.roles = true →
        s.subst.find? (fun y => decide (y.blk = b) && decide (y.old = i) && y.idle) = some x → x.spare = some sp → (∀ d, domainOf b sp = some d → s.powered d = true) →
        ∃ v : State, exec (.substitutionComplete b i) s = .next (((v.unitOff b i).record).unitRetired b i i sp)
          ∧ v.reg (BLK_WORLD b sp) = s.reg (BLK_WORLD b i) ∧ v.regN (BLK_CTL b sp) = 1 ∧ (∀ a, a ≠ BLK_WORLD b sp → a ≠ BLK_CTL b sp → v.reg a = s.reg a)
          ∧ v.unitAt b sp = { s.unitAt b sp with st := .idle, spareActive := true } ∧ v.unitAt b i = { s.unitAt b i with retiring := false, retired := true }
          ∧ (∀ c j, unitKey c j ≠ unitKey b sp → unitKey c j ≠ unitKey b i → v.unitAt c j = s.unitAt c j)
          ∧ (∀ j, j < (placeOf b).count → v.roleOf b j = if s.roleOf b j = i then sp else s.roleOf b j)
          ∧ v.subst = s.subst.filter (fun y => !(decide (y.blk = b) && decide (y.old = i)))
          ∧ { v with regs := s.regs, unit := s.unit, roles := s.roles, subst := s.subst } = s))
  ∧ (∀ (s : State) (sec : Bool), s.up = true → s.canon = true →
    let denied := s.setBit (BLK_ERR .dev 0) 5 true
    (∀ p, exec (.retireRequest sec (.bank p) .request) s = .next (if sec = false then denied else s.bankRetire p)
        ∧ exec (.retireRequest sec (.bank p) .corrected) s = .next (s.bankCorrected p))
    ∧ (∀ (fc : Fin 8) (ch : Fin 16) (pc : Bool) (l : Fin 36),
        let k := 32 * fc.val + 2 * ch.val + (if pc = true then 1 else 0)
        let n := smapGet (fun _ => 0) s.laneCnt (36 * k + l.val)
        exec (.retireRequest sec (.lane fc ch pc l) .request) s = .next (if sec = false then denied
            else if (smapFind s.lineRepair k).isSome = true then s
            else if s.regBit (FC_REPAIR fc ch) (if pc = true then 8 else 0) = true then s.noSpare .fc fc (36 * k + l.val) n
            else { s with lineRepair := smapInsert s.lineRepair k l.val })
        ∧ exec (.retireRequest sec (.lane fc ch pc l) .corrected) s = .next ((s.hbmCorrected k).laneCorrected k l.val))
    ∧ (∀ (p : Fin 8) (g : Fin 2),
        let off (v : State) : State := if (p.val, g.val) ∈ v.groutOff then v else { v with groutOff := v.groutOff ++ [(p.val, g.val)] }
        let n := min 0xFFFF (s.field (BLK_ERR_CNT .dp p) 15 0 + 1)
        let u := (s.setField (BLK_ERR_CNT .dp p) 15 0 n).setBit (BLK_ERR .dp p) 0 true
        exec (.retireRequest sec (.grout p g) .request) s = .next (if sec = false then denied else off s)
        ∧ exec (.retireRequest sec (.grout p g) .corrected) s
          = .next (if bits (smapGet errWinReset s.errWin (unitKey .dp p)) 31 16 ≤ n then off (u.setBit (BLK_ERR .dp p) 2 true) else u)))
  ∧ (∀ (s : State) (b : Blk) (i : Nat),
    let u := s.unitAt b i
    let taking (x : Subst) : Prop := s.subst.find? (fun y => decide (y.blk = b) && decide (y.spare = some i)) = some x
    (u.retiring = true ∨ u.retired = true ∨ s.stopped = true → s.retire b i = s)
    ∧ (u.retiring = false → u.retired = false → s.stopped = false →
        (u.standby = true → s.retire b i = ((s.setUnit b i { u with standby := false, retired := true }).record).unitRetired b i i 0xFF)
        ∧ (u.standby = false → (∀ x, ¬ taking x) → s.retire b i
            = ({ s.setUnit b i { u with retiring := true } with subst := s.subst ++ [{ blk := b, old := i, spare := none, idle := false }] } : State).evict b i)
        ∧ ∀ x, u.standby = false → taking x → s.retire b i
            = ((((s.setUnit b i { u with st := .disabled, retired := true }).unitOff b i).record).unitRetired b i i 0xFF).substNext x))
  ∧ (∀ (s : State) (b : Blk) (i : Nat), s.canon = true → blkInstance b i = true → (s.flights.map Flight.id).Nodup → (∀ f ∈ s.flights, f.tenant < 16) →
    let again (f : Flight) : Flight := if f.codes.any (fun c => decide (c.1.toNat = 0x0070)) = true then f else f.addCode 0x0070 0
    let goes (f : Flight) : Flight := if s.field (QN_TSTAT f.tenant) 1 0 = 2 then f.endWith 0x0080 0
      else { again f with phase := .redispatch, unit := 0xFF, issued := false }
    let v := s.evict b i
    v.flights = s.flights.map (fun f => if f.onUnit b i = true ∧ f.stays s = false then goes f else f)
    ∧ (∀ a, (∀ c, unitStatus b i ≠ some (a, c)) → v.reg a = s.reg a) ∧ { v with regs := s.regs, flights := s.flights } = s)
  ∧ (∀ (s : State) (b : Blk) (i : Nat),
    let free (j : Nat) : Prop := j < (placeOf b).count ∧ (s.unitAt b j).standby = true ∧ (s.unitAt b j).retired = false
    let far (j : Nat) : Nat := max (unitLane b i) (unitLane b j) - min (unitLane b i) (unitLane b j)
    (s.spareFor b i = none ↔ ∀ j, ¬ free j)
    ∧ ∀ j, s.spareFor b i = some j → free j ∧ ∀ k, free k → far j < far k
        ∨ (far j = far k ∧ (unitLane b j < unitLane b k ∨ (unitLane b j = unitLane b k ∧ j ≤ k))))
  ∧ (∀ (s : State) (p m : Nat), p < 1088 → s.bankServes p = some m →
    let busy : Prop := ∃ g, g < 64 ∧ s.regBit (BED_REMAP g) 1 = true ∧ s.field (BED_REMAP g) 11 2 = m
    let c := p / 136
    let order (g : Nat) : Nat := if g = p / 17 then 0 else 1 + 1000 * (max c (g / 8) - min c (g / 8)) + (if c < g / 8 then 500 else 0) + g
    (busy → s.bankRetire p = s)
    ∧ (¬ busy → (∀ g, g < 64 → s.spareFree g = false) → s.bankRetire p = { s with winHit := insertNat p s.winHit })
    ∧ (¬ busy → (∃ g, g < 64 ∧ s.spareFree g = true) → ∃ g, g < 64 ∧ s.spareFree g = true ∧ (∀ h, h < 64 → s.spareFree h = true → order g ≤ order h)
        ∧ s.bankRetire p = s.setRegN (BED_REMAP g) (3 + 4 * m)))
  ∧ (∀ (s : State) (b : Blk) (i x n : Nat),
    let told (v : State) (k : Nat) (e : Event) : State := if v.regBit (BLK_ERR_MASK b i) k = true then v else v.event 16 e
    s.unitRetired b i x n = told (s.setBit (BLK_ERR b i) 3 true) 3 { type := 0x0030, cls := classCode b, inst := i, arg0 := x, arg1 := n }
    ∧ s.noSpare b i x n = told (s.setBit (BLK_ERR b i) 4 true) 4 { type := 0x0031, cls := classCode b, inst := i, arg0 := x, arg1 := n })

/-- BLOCK_ENABLE, BLOCK_DRAIN, BLOCK_RESET, BLOCK_RESET_DONE and BLOCK_IDLE (R435, R436). -/
def Obligations.BlocksAreControlled : Prop :=
  let engines : List Blk := [.ae, .ce, .ve, .le, .he, .kc]
  ∀ (s : State) (b : Blk) (i : Nat), s.up = true → s.canon = true → blkInstance b i = true →
    let u := s.unitAt b i
    let ctl := BLK_CTL b i
    let shown (n : Nat) (on : Bool) : State := s.setBit ctl n on
    (∀ on, exec (.blockEnable false b i on) s = .next (s.setBit (BLK_ERR .dev 0) 5 true)
        ∧ exec (.blockDrain false b i on) s = .next (s.setBit (BLK_ERR .dev 0) 5 true)
        ∧ exec (.blockReset false b i) s = .next (s.setBit (BLK_ERR .dev 0) 5 true)
        ∧ (u.retired = true → exec (.blockEnable true b i on) s = .next (s.setBit (BLK_ERR b i) 5 true)
            ∧ exec (.blockDrain true b i on) s = .next (s.setBit (BLK_ERR b i) 5 true))
        ∧ (u.retired = false →
            (b ∉ .qc :: engines → exec (.blockEnable true b i on) s = .next (shown 0 on))
            ∧ (b ∈ .qc :: engines → exec (.blockEnable true b i on) s = .next (
                if on = true then (if u.st = .disabled ∨ u.st = .draining then (shown 0 on).setUnit b i { u with st := .idle } else shown 0 on)
                else if u.st ≠ .idle then shown 0 on
                else (shown 0 on).setUnit b i { u with st := if s.working b i = true then .draining else .disabled }))
            ∧ (b ≠ .dp ∨ on = true → exec (.blockDrain true b i on) s = .next (shown 1 on))
            ∧ (b = .dp → on = false → exec (.blockDrain true b i on) s = .next ((List.range 8).foldl (fun v k => v.pumpAll i k) (shown 1 false)))))
    ∧ (u.st ≠ .off → exec (.blockResetDone b i) s = .next s)
    ∧ (u.st = .off → exec (.blockResetDone b i) s = .next (s.setUnit b i { u with st := if s.regBit ctl 0 = true then .idle else .disabled }))
    ∧ (u.st ≠ .draining ∨ s.working b i = true → exec (.blockIdle b i) s = .next s)
    ∧ (u.st = .draining → s.working b i = false → exec (.blockIdle b i) s = .next (s.setUnit b i { u with st := .disabled }))
    ∧ (∃ t : State, exec (.blockReset true b i) s = .next t
        ∧ (b ≠ .dp → b ≠ .pl → t.regBit ctl 1 = false ∧ t.regBit ctl 0 = s.regBit ctl 0 ∧ t.field ctl 31 2 = s.field ctl 31 2)
        ∧ (b ∈ engines →
            let kept := u.standby = true ∨ u.retired = true ∨ u.st = .substituting
            t.flights = s.flights.filter (fun f => !f.onUnit b i)
            ∧ (∀ a, ownRegs b i a = true → isCounter a = false → t.reg a = resetOf a)
            ∧ (∀ a, a ≠ ctl → ¬ (ownRegs b i a = true ∧ isCounter a = false) → t.reg a = s.reg a)
            ∧ t.resident = (if b = .ae then smapErase s.resident i else s.resident) ∧ t.image = (if b = .ce then smapErase s.image i else s.image)
            ∧ t.unit = (s.setUnit b i { u with lastTenant := none, st := if kept then u.st else .off }).unit
            ∧ { t with regs := s.regs, flights := s.flights, resident := s.resident, image := s.image, unit := s.unit } = s)
        ∧ (b = .qc → (∀ a, a ≠ ctl → (∀ n, n < 16 → a ≠ QC_SCHED_STAT n) → t.reg a = s.reg a) ∧ (∀ n, n < 16 → t.reg (QC_SCHED_STAT n) = resetOf (QC_SCHED_STAT n))
            ∧ { t with regs := s.regs } = { s with
                flights := s.flights.filter (fun f => f.cls != Blk.qc), tensors := smapMap tensorUnused (fun (x : Tensor) => { x with moving := false }) s.tensors
                moves := [], builds := [], sched := [], schedQ := [], unit := (s.setUnit .qc i { u with st := .off }).unit })
        ∧ (b = .fc → t.regBit (FC_STATUS i) 1 = false ∧ t.regN (FC_RETRAIN_STAT i) = 0
            ∧ (∀ n, n ≤ 63 → n ≠ 1 → t.regBit (FC_STATUS i) n = s.regBit (FC_STATUS i) n)
            ∧ (∀ a, a ≠ ctl → a ≠ FC_STATUS i → a ≠ FC_RETRAIN_STAT i → t.reg a = s.reg a)
            ∧ { t with regs := s.regs } = { s with
                hbmQ := s.hbmQ.filter (fun w => !decide (w.pc / 32 = i)), hbmPtr := smapClear (fun k => decide (k / 32 = i)) s.hbmPtr
                hbmDrain := s.hbmDrain.filter (fun k => !decide (k / 32 = i)), retrainReq := s.retrainReq.filter (fun r => r.1 != i), retrain := smapErase s.retrain i })
        ∧ (b = .dp → t = ((({ s with
                conn := s.conn.filter (fun c => c.port != i), rconn := s.rconn.filter (fun c => c.port != i)
                flights := s.flights.filter (fun f => !(s.rops.any fun r => decide (r.port = i) && r.flight == some f.id))
                rops := s.rops.filter (fun r => r.port != i), rxq := s.rxq.filter (fun f => f.port != i)
                putFail := s.putFail.filter (fun x => x.1.1 / 8 != i), putOpen := s.putOpen.filter (fun x => x.1 / 8 != i) } : State).pauseUpdate i).setBit ctl 1 false))
        ∧ (b = .bed → (∀ a, a ≠ ctl → t.reg a = s.reg a) ∧ { t with regs := s.regs } = { s with bedDefer := [], bedPtr := [] })
        ∧ (b = .qn → (∀ a, a ≠ ctl → a ≠ QN_MB_STAT → a ≠ QN_MB_STAT_S → t.reg a = s.reg a)
            ∧ t.reg QN_MB_STAT = resetOf QN_MB_STAT ∧ t.reg QN_MB_STAT_S = resetOf QN_MB_STAT_S
            ∧ { t with regs := s.regs } = { s with qnReq := [], qnPtr := 0, mctpIn := [], session := none })
        ∧ (b = .pl → let ops := s.plBank0.op.toList ++ s.plBank0.held.toList ++ (s.plBank1.op.toList ++ s.plBank1.held.toList)
            t = ((((ops.foldl State.plTorn s).setPlBank 0 plIdle).setPlBank 1 plIdle).writeDue).setBit ctl 1 false)
        ∧ (b ∈ [Blk.dev, .cmd, .pm, .mk, .pwr] → (∀ a, a ≠ ctl → t.reg a = s.reg a) ∧ { t with regs := s.regs } = { s with flights := s.flights.filter (fun f => !f.onUnit b i) }))
end

