-- ==== Sys2Proof/Laws/Maps.lean ====
section
/-! SUPPORT. Laws of sparse maps and memories: what is read after a write, and that every operation keeps canonical form. -/

namespace Sys2Proof.Machine

-- One declaration after another: the package as one text then stays within the memory its check allows.
set_option Elab.async false

variable {β : Type}

/-! Reading after writing. -/

theorem smapGet_insert_same (d : Nat → β) (m : SMap β) (k : Nat) (v : β) : smapGet d (smapInsert m k v) k = v := by
  induction m with
  | nil => simp [smapInsert, smapGet]
  | cons e m ih =>
    obtain ⟨a, w⟩ := e
    simp only [smapInsert]
    split
    · simp [smapGet]
    · split
      · simp [smapGet]
      · simp [smapGet, *]

theorem smapGet_insert_other (d : Nat → β) (m : SMap β) {k j : Nat} (v : β) (h : j ≠ k) :
    smapGet d (smapInsert m k v) j = smapGet d m j := by
  induction m with
  | nil => simp [smapInsert, smapGet, h]
  | cons e m ih =>
    obtain ⟨a, w⟩ := e
    simp only [smapInsert]
    split
    · subst_vars; simp [smapGet, h]
    · split
      · simp only [smapGet, h, if_false]
        split
        · have : j ≠ a := by omega
          have : j < a := by omega
          simp [*]
        · rfl
      · simp only [smapGet, ih]

/-- Below the first key a rising map reads as its default. -/
theorem smapGet_below [DecidableEq β] (d : Nat → β) {m : SMap β} {lo j : Nat} (h : smapWfFrom d lo m = true) (hj : j < lo) :
    smapGet d m j = d j := by
  cases m with
  | nil => rfl
  | cons e m =>
    obtain ⟨a, w⟩ := e
    simp only [smapWfFrom, Bool.and_eq_true, decide_eq_true_eq] at h
    have : j ≠ a := by omega
    have : j < a := by omega
    simp [smapGet, *]

theorem smapGet_erase_same [DecidableEq β] (d : Nat → β) {m : SMap β} {lo : Nat} (k : Nat) (h : smapWfFrom d lo m = true) :
    smapGet d (smapErase m k) k = d k := by
  induction m generalizing lo with
  | nil => rfl
  | cons e m ih =>
    obtain ⟨a, w⟩ := e
    simp only [smapWfFrom, Bool.and_eq_true, decide_eq_true_eq] at h
    simp only [smapErase]
    split
    · exact smapGet_below d h.2 (by omega)
    · split
      · simp [smapGet, *]
      · simp only [smapGet, *, if_false]; exact ih h.2

theorem smapGet_erase_other [DecidableEq β] (d : Nat → β) {m : SMap β} {lo k j : Nat} (h : smapWfFrom d lo m = true)
    (hj : j ≠ k) : smapGet d (smapErase m k) j = smapGet d m j := by
  induction m generalizing lo with
  | nil => rfl
  | cons e m ih =>
    obtain ⟨a, w⟩ := e
    simp only [smapWfFrom, Bool.and_eq_true, decide_eq_true_eq] at h
    simp only [smapErase]
    split
    · rename_i hk
      subst hk
      simp only [smapGet, hj, if_false]
      split
      · exact smapGet_below d h.2 (by omega)
      · rfl
    · split
      · rfl
      · simp only [smapGet, ih h.2]

/-- A write removes the entry or puts one in. -/
theorem smapSet_eq [DecidableEq β] (d : Nat → β) (m : SMap β) (k : Nat) (v : β) :
    smapSet d m k v = if v = d k then smapErase m k else smapInsert m k v := by cases m <;> rfl

theorem smapGet_set_same [DecidableEq β] (d : Nat → β) {m : SMap β} (k : Nat) (v : β) (h : smapWf d m = true) :
    smapGet d (smapSet d m k v) k = v := by
  rw [smapSet_eq]
  split
  · simp [smapGet_erase_same d k h, *]
  · exact smapGet_insert_same d m k v

theorem smapGet_set_other [DecidableEq β] (d : Nat → β) {m : SMap β} {k j : Nat} (v : β) (h : smapWf d m = true)
    (hj : j ≠ k) : smapGet d (smapSet d m k v) j = smapGet d m j := by
  rw [smapSet_eq]
  split
  · exact smapGet_erase_other d h hj
  · exact smapGet_insert_other d m v hj

/-! Canonical form. -/

theorem smapWfFrom_mono [DecidableEq β] {d : Nat → β} {m : SMap β} {lo lo' : Nat} (h : smapWfFrom d lo m = true)
    (hl : lo' ≤ lo) : smapWfFrom d lo' m = true := by
  cases m with
  | nil => rfl
  | cons e m =>
    obtain ⟨a, w⟩ := e
    simp only [smapWfFrom, Bool.and_eq_true, decide_eq_true_eq] at h ⊢
    exact ⟨⟨by omega, h.1.2⟩, h.2⟩

theorem smapWfFrom_erase [DecidableEq β] {d : Nat → β} {m : SMap β} {lo : Nat} (k : Nat) (h : smapWfFrom d lo m = true) :
    smapWfFrom d lo (smapErase m k) = true := by
  induction m generalizing lo with
  | nil => rfl
  | cons e m ih =>
    obtain ⟨a, w⟩ := e
    have h0 := h
    simp only [smapWfFrom, Bool.and_eq_true, decide_eq_true_eq] at h
    simp only [smapErase]
    split
    · exact smapWfFrom_mono h.2 (by omega)
    · split
      · exact h0
      · simp only [smapWfFrom, Bool.and_eq_true, decide_eq_true_eq]
        exact ⟨h.1, ih h.2⟩

theorem smapWfFrom_insert [DecidableEq β] {d : Nat → β} {m : SMap β} {lo k : Nat} {v : β} (h : smapWfFrom d lo m = true)
    (hk : lo ≤ k) (hv : v ≠ d k) : smapWfFrom d lo (smapInsert m k v) = true := by
  induction m generalizing lo with
  | nil => simp [smapInsert, smapWfFrom, hk, hv]
  | cons e m ih =>
    obtain ⟨a, w⟩ := e
    simp only [smapWfFrom, Bool.and_eq_true, decide_eq_true_eq] at h
    simp only [smapInsert]
    split
    · subst_vars
      simp only [smapWfFrom, Bool.and_eq_true, decide_eq_true_eq]
      exact ⟨⟨hk, hv⟩, h.2⟩
    · split
      · simp only [smapWfFrom, Bool.and_eq_true, decide_eq_true_eq]
        exact ⟨⟨hk, hv⟩, ⟨by omega, h.1.2⟩, h.2⟩
      · simp only [smapWfFrom, Bool.and_eq_true, decide_eq_true_eq]
        exact ⟨h.1, ih h.2 (by omega)⟩

theorem smapWf_set [DecidableEq β] {d : Nat → β} {m : SMap β} (k : Nat) (v : β) (h : smapWf d m = true) :
    smapWf d (smapSet d m k v) = true := by
  rw [smapSet_eq]
  split
  · exact smapWfFrom_erase k h
  · exact smapWfFrom_insert h (Nat.zero_le _) ‹_›

theorem smapWfFrom_filter [DecidableEq β] {d : Nat → β} {m : SMap β} {lo : Nat} (p : Nat × β → Bool)
    (h : smapWfFrom d lo m = true) : smapWfFrom d lo (m.filter p) = true := by
  induction m generalizing lo with
  | nil => rfl
  | cons e m ih =>
    obtain ⟨a, w⟩ := e
    simp only [smapWfFrom, Bool.and_eq_true, decide_eq_true_eq] at h
    simp only [List.filter_cons]
    split
    · simp only [smapWfFrom, Bool.and_eq_true, decide_eq_true_eq]
      exact ⟨h.1, ih h.2⟩
    · exact ih (smapWfFrom_mono h.2 (by omega))

theorem smapWf_clear [DecidableEq β] {d : Nat → β} {m : SMap β} (p : Nat → Bool) (h : smapWf d m = true) :
    smapWf d (smapClear p m) = true := smapWfFrom_filter _ h

/-! Memories. -/

theorem wf_memWrite {d : Nat → Byte} {m : List Host.Cell} (a : Nat) (bs : Bytes) (h : Memory.wf d m = true) :
    Memory.wf d (memWrite d m a bs) = true := by
  induction bs generalizing m a with
  | nil => exact h
  | cons b bs ih => exact ih (a + 1) (smapWf_set a b h)

theorem wf_memClear {d : Nat → Byte} {m : List Host.Cell} (a n : Nat) (h : Memory.wf d m = true) :
    Memory.wf d (memClear m a n) = true := smapWf_clear _ h

/-- Outside the bytes written, a memory reads as before. -/
theorem memByte_memWrite_outside {d : Nat → Byte} {m : List Host.Cell} (a : Nat) (bs : Bytes) (h : Memory.wf d m = true)
    {x : Nat} (hx : x < a ∨ a + bs.length ≤ x) : memByte d (memWrite d m a bs) x = memByte d m x := by
  induction bs generalizing m a with
  | nil => rfl
  | cons b bs ih =>
    simp only [List.length_cons] at hx
    simp only [memWrite]
    rw [ih (a + 1) (smapWf_set a b h) (by omega)]
    exact smapGet_set_other d b h (by omega)

/-- A byte written reads back. -/
theorem memByte_memWrite_inside {d : Nat → Byte} {m : List Host.Cell} (a : Nat) (bs : Bytes) (h : Memory.wf d m = true)
    {i : Nat} (hi : i < bs.length) : memByte d (memWrite d m a bs) (a + i) = bs[i] := by
  induction bs generalizing m a i with
  | nil => simp at hi
  | cons b bs ih =>
    simp only [memWrite]
    cases i with
    | zero =>
      rw [memByte_memWrite_outside (a + 1) bs (smapWf_set a b h) (by omega)]
      exact smapGet_set_same d a b h
    | succ i =>
      have := ih (a + 1) (smapWf_set a b h) (i := i) (by simpa using hi)
      simpa [Nat.add_assoc, Nat.add_comm 1 i] using this

/-- Outside the range cleared, a memory reads as before. -/
theorem memByte_memClear {d : Nat → Byte} {m : List Host.Cell} (a n x : Nat) (h : smapWfFrom d 0 m = true)
    (hx : x < a ∨ a + n ≤ x) : memByte d (memClear m a n) x = memByte d m x := by
  have key : ∀ (m : List Host.Cell) lo, smapWfFrom d lo m = true →
      smapGet d (m.filter fun e => !(decide (a ≤ e.1) && decide (e.1 < a + n))) x = smapGet d m x := by
    intro m
    induction m with
    | nil => intro _ _; rfl
    | cons e m ih =>
      intro lo h
      obtain ⟨k, w⟩ := e
      simp only [smapWfFrom, Bool.and_eq_true, decide_eq_true_eq] at h
      by_cases hk : a ≤ k ∧ k < a + n
      · simp only [List.filter_cons, hk, decide_true, Bool.and_self, Bool.not_true, Bool.false_eq_true, if_false]
        rw [ih _ h.2]
        have : x ≠ k := by omega
        simp only [smapGet, this, if_false]
        split
        · exact smapGet_below d h.2 (by omega)
        · rfl
      · have hf : (!(decide (a ≤ k) && decide (k < a + n))) = true := by
          simp only [Bool.not_eq_true', Bool.and_eq_false_iff, decide_eq_false_iff_not]
          omega
        simp only [List.filter_cons, hf, if_true, smapGet, ih _ h.2]
  exact key m 0 h

end Sys2Proof.Machine
end

