-- ==== Sys2Proof/Laws/State.lean ====
section
/-! SUPPORT. What each leaf update of State leaves alone: one lemma per field per update. -/

namespace Sys2Proof.Machine

/-! `setReg` changes `regs` alone. -/

@[simp] theorem State.setReg_pending (s : State) (a : Nat) (v : DWord) : (s.setReg a v).pending = s.pending := rfl
@[simp] theorem State.setReg_timeNs (s : State) (a : Nat) (v : DWord) : (s.setReg a v).timeNs = s.timeNs := rfl
@[simp] theorem State.setReg_free (s : State) (a : Nat) (v : DWord) : (s.setReg a v).free = s.free := rfl
@[simp] theorem State.setReg_undef (s : State) (a : Nat) (v : DWord) : (s.setReg a v).undef = s.undef := rfl
@[simp] theorem State.setReg_pins (s : State) (a : Nat) (v : DWord) : (s.setReg a v).pins = s.pins := rfl
@[simp] theorem State.setReg_jtag (s : State) (a : Nat) (v : DWord) : (s.setReg a v).jtag = s.jtag := rfl
@[simp] theorem State.setReg_pcie (s : State) (a : Nat) (v : DWord) : (s.setReg a v).pcie = s.pcie := rfl
@[simp] theorem State.setReg_snap (s : State) (a : Nat) (v : DWord) : (s.setReg a v).snap = s.snap := rfl
@[simp] theorem State.setReg_bed (s : State) (a : Nat) (v : DWord) : (s.setReg a v).bed = s.bed := rfl
@[simp] theorem State.setReg_bedPoison (s : State) (a : Nat) (v : DWord) : (s.setReg a v).bedPoison = s.bedPoison := rfl
@[simp] theorem State.setReg_hbm (s : State) (a : Nat) (v : DWord) : (s.setReg a v).hbm = s.hbm := rfl
@[simp] theorem State.setReg_hbmPoison (s : State) (a : Nat) (v : DWord) : (s.setReg a v).hbmPoison = s.hbmPoison := rfl
@[simp] theorem State.setReg_hbmKey (s : State) (a : Nat) (v : DWord) : (s.setReg a v).hbmKey = s.hbmKey := rfl
@[simp] theorem State.setReg_hbmReady (s : State) (a : Nat) (v : DWord) : (s.setReg a v).hbmReady = s.hbmReady := rfl
@[simp] theorem State.setReg_marks (s : State) (a : Nat) (v : DWord) : (s.setReg a v).marks = s.marks := rfl
@[simp] theorem State.setReg_markPtr (s : State) (a : Nat) (v : DWord) : (s.setReg a v).markPtr = s.markPtr := rfl
@[simp] theorem State.setReg_xlat (s : State) (a : Nat) (v : DWord) : (s.setReg a v).xlat = s.xlat := rfl
@[simp] theorem State.setReg_wq (s : State) (a : Nat) (v : DWord) : (s.setReg a v).wq = s.wq := rfl
@[simp] theorem State.setReg_jq (s : State) (a : Nat) (v : DWord) : (s.setReg a v).jq = s.jq := rfl
@[simp] theorem State.setReg_ring (s : State) (a : Nat) (v : DWord) : (s.setReg a v).ring = s.ring := rfl
@[simp] theorem State.setReg_relHead (s : State) (a : Nat) (v : DWord) : (s.setReg a v).relHead = s.relHead := rfl
@[simp] theorem State.setReg_flights (s : State) (a : Nat) (v : DWord) : (s.setReg a v).flights = s.flights := rfl
@[simp] theorem State.setReg_nextFlight (s : State) (a : Nat) (v : DWord) : (s.setReg a v).nextFlight = s.nextFlight := rfl
@[simp] theorem State.setReg_mapOp (s : State) (a : Nat) (v : DWord) : (s.setReg a v).mapOp = s.mapOp := rfl
@[simp] theorem State.setReg_bedPtr (s : State) (a : Nat) (v : DWord) : (s.setReg a v).bedPtr = s.bedPtr := rfl
@[simp] theorem State.setReg_bedDefer (s : State) (a : Nat) (v : DWord) : (s.setReg a v).bedDefer = s.bedDefer := rfl
@[simp] theorem State.setReg_bankOut (s : State) (a : Nat) (v : DWord) : (s.setReg a v).bankOut = s.bankOut := rfl
@[simp] theorem State.setReg_spareBad (s : State) (a : Nat) (v : DWord) : (s.setReg a v).spareBad = s.spareBad := rfl
@[simp] theorem State.setReg_winHit (s : State) (a : Nat) (v : DWord) : (s.setReg a v).winHit = s.winHit := rfl
@[simp] theorem State.setReg_unit (s : State) (a : Nat) (v : DWord) : (s.setReg a v).unit = s.unit := rfl
@[simp] theorem State.setReg_errWin (s : State) (a : Nat) (v : DWord) : (s.setReg a v).errWin = s.errWin := rfl
@[simp] theorem State.setReg_resident (s : State) (a : Nat) (v : DWord) : (s.setReg a v).resident = s.resident := rfl
@[simp] theorem State.setReg_image (s : State) (a : Nat) (v : DWord) : (s.setReg a v).image = s.image := rfl
@[simp] theorem State.setReg_libVer (s : State) (a : Nat) (v : DWord) : (s.setReg a v).libVer = s.libVer := rfl
@[simp] theorem State.setReg_pageMap (s : State) (a : Nat) (v : DWord) : (s.setReg a v).pageMap = s.pageMap := rfl
@[simp] theorem State.setReg_pfx (s : State) (a : Nat) (v : DWord) : (s.setReg a v).pfx = s.pfx := rfl
@[simp] theorem State.setReg_tensors (s : State) (a : Nat) (v : DWord) : (s.setReg a v).tensors = s.tensors := rfl
@[simp] theorem State.setReg_nandBytes (s : State) (a : Nat) (v : DWord) : (s.setReg a v).nandBytes = s.nandBytes := rfl
@[simp] theorem State.setReg_moves (s : State) (a : Nat) (v : DWord) : (s.setReg a v).moves = s.moves := rfl
@[simp] theorem State.setReg_builds (s : State) (a : Nat) (v : DWord) : (s.setReg a v).builds = s.builds := rfl
@[simp] theorem State.setReg_sched (s : State) (a : Nat) (v : DWord) : (s.setReg a v).sched = s.sched := rfl
@[simp] theorem State.setReg_schedQ (s : State) (a : Nat) (v : DWord) : (s.setReg a v).schedQ = s.schedQ := rfl
@[simp] theorem State.setReg_hbmQ (s : State) (a : Nat) (v : DWord) : (s.setReg a v).hbmQ = s.hbmQ := rfl
@[simp] theorem State.setReg_hbmRow (s : State) (a : Nat) (v : DWord) : (s.setReg a v).hbmRow = s.hbmRow := rfl
@[simp] theorem State.setReg_hbmTrr (s : State) (a : Nat) (v : DWord) : (s.setReg a v).hbmTrr = s.hbmTrr := rfl
@[simp] theorem State.setReg_hbmDue (s : State) (a : Nat) (v : DWord) : (s.setReg a v).hbmDue = s.hbmDue := rfl
@[simp] theorem State.setReg_hbmTrrDue (s : State) (a : Nat) (v : DWord) : (s.setReg a v).hbmTrrDue = s.hbmTrrDue := rfl
@[simp] theorem State.setReg_hbmData (s : State) (a : Nat) (v : DWord) : (s.setReg a v).hbmData = s.hbmData := rfl
@[simp] theorem State.setReg_hbmPtr (s : State) (a : Nat) (v : DWord) : (s.setReg a v).hbmPtr = s.hbmPtr := rfl
@[simp] theorem State.setReg_hbmDrain (s : State) (a : Nat) (v : DWord) : (s.setReg a v).hbmDrain = s.hbmDrain := rfl
@[simp] theorem State.setReg_hbmTrainTemp (s : State) (a : Nat) (v : DWord) : (s.setReg a v).hbmTrainTemp = s.hbmTrainTemp := rfl
@[simp] theorem State.setReg_retrainReq (s : State) (a : Nat) (v : DWord) : (s.setReg a v).retrainReq = s.retrainReq := rfl
@[simp] theorem State.setReg_retrain (s : State) (a : Nat) (v : DWord) : (s.setReg a v).retrain = s.retrain := rfl
@[simp] theorem State.setReg_laneCnt (s : State) (a : Nat) (v : DWord) : (s.setReg a v).laneCnt = s.laneCnt := rfl
@[simp] theorem State.setReg_lineRepair (s : State) (a : Nat) (v : DWord) : (s.setReg a v).lineRepair = s.lineRepair := rfl
@[simp] theorem State.setReg_nandSb (s : State) (a : Nat) (v : DWord) : (s.setReg a v).nandSb = s.nandSb := rfl
@[simp] theorem State.setReg_nandCnt (s : State) (a : Nat) (v : DWord) : (s.setReg a v).nandCnt = s.nandCnt := rfl
@[simp] theorem State.setReg_nandTemp (s : State) (a : Nat) (v : DWord) : (s.setReg a v).nandTemp = s.nandTemp := rfl
@[simp] theorem State.setReg_plArray (s : State) (a : Nat) (v : DWord) : (s.setReg a v).plArray = s.plArray := rfl
@[simp] theorem State.setReg_plEc (s : State) (a : Nat) (v : DWord) : (s.setReg a v).plEc = s.plEc := rfl
@[simp] theorem State.setReg_plMark (s : State) (a : Nat) (v : DWord) : (s.setReg a v).plMark = s.plMark := rfl
@[simp] theorem State.setReg_plBank0 (s : State) (a : Nat) (v : DWord) : (s.setReg a v).plBank0 = s.plBank0 := rfl
@[simp] theorem State.setReg_plBank1 (s : State) (a : Nat) (v : DWord) : (s.setReg a v).plBank1 = s.plBank1 := rfl
@[simp] theorem State.setReg_plPrefetch (s : State) (a : Nat) (v : DWord) : (s.setReg a v).plPrefetch = s.plPrefetch := rfl
@[simp] theorem State.setReg_plBranch (s : State) (a : Nat) (v : DWord) : (s.setReg a v).plBranch = s.plBranch := rfl
@[simp] theorem State.setReg_plLast (s : State) (a : Nat) (v : DWord) : (s.setReg a v).plLast = s.plLast := rfl
@[simp] theorem State.setReg_plRead (s : State) (a : Nat) (v : DWord) : (s.setReg a v).plRead = s.plRead := rfl
@[simp] theorem State.setReg_plFetch (s : State) (a : Nat) (v : DWord) : (s.setReg a v).plFetch = s.plFetch := rfl
@[simp] theorem State.setReg_tx (s : State) (a : Nat) (v : DWord) : (s.setReg a v).tx = s.tx := rfl
@[simp] theorem State.setReg_conn (s : State) (a : Nat) (v : DWord) : (s.setReg a v).conn = s.conn := rfl
@[simp] theorem State.setReg_rconn (s : State) (a : Nat) (v : DWord) : (s.setReg a v).rconn = s.rconn := rfl
@[simp] theorem State.setReg_rxq (s : State) (a : Nat) (v : DWord) : (s.setReg a v).rxq = s.rxq := rfl
@[simp] theorem State.setReg_rops (s : State) (a : Nat) (v : DWord) : (s.setReg a v).rops = s.rops := rfl
@[simp] theorem State.setReg_nextOpid (s : State) (a : Nat) (v : DWord) : (s.setReg a v).nextOpid = s.nextOpid := rfl
@[simp] theorem State.setReg_putFail (s : State) (a : Nat) (v : DWord) : (s.setReg a v).putFail = s.putFail := rfl
@[simp] theorem State.setReg_putOpen (s : State) (a : Nat) (v : DWord) : (s.setReg a v).putOpen = s.putOpen := rfl
@[simp] theorem State.setReg_pausedBy (s : State) (a : Nat) (v : DWord) : (s.setReg a v).pausedBy = s.pausedBy := rfl
@[simp] theorem State.setReg_pausing (s : State) (a : Nat) (v : DWord) : (s.setReg a v).pausing = s.pausing := rfl
@[simp] theorem State.setReg_groutNext (s : State) (a : Nat) (v : DWord) : (s.setReg a v).groutNext = s.groutNext := rfl
@[simp] theorem State.setReg_groutOff (s : State) (a : Nat) (v : DWord) : (s.setReg a v).groutOff = s.groutOff := rfl
@[simp] theorem State.setReg_fw (s : State) (a : Nat) (v : DWord) : (s.setReg a v).fw = s.fw := rfl
@[simp] theorem State.setReg_slotKey (s : State) (a : Nat) (v : DWord) : (s.setReg a v).slotKey = s.slotKey := rfl
@[simp] theorem State.setReg_nextKey (s : State) (a : Nat) (v : DWord) : (s.setReg a v).nextKey = s.nextKey := rfl
@[simp] theorem State.setReg_qnReq (s : State) (a : Nat) (v : DWord) : (s.setReg a v).qnReq = s.qnReq := rfl
@[simp] theorem State.setReg_qnPtr (s : State) (a : Nat) (v : DWord) : (s.setReg a v).qnPtr = s.qnPtr := rfl
@[simp] theorem State.setReg_mctpOut (s : State) (a : Nat) (v : DWord) : (s.setReg a v).mctpOut = s.mctpOut := rfl
@[simp] theorem State.setReg_mctpEid (s : State) (a : Nat) (v : DWord) : (s.setReg a v).mctpEid = s.mctpEid := rfl
@[simp] theorem State.setReg_mctpIn (s : State) (a : Nat) (v : DWord) : (s.setReg a v).mctpIn = s.mctpIn := rfl
@[simp] theorem State.setReg_dbg (s : State) (a : Nat) (v : DWord) : (s.setReg a v).dbg = s.dbg := rfl
@[simp] theorem State.setReg_dbgUsed (s : State) (a : Nat) (v : DWord) : (s.setReg a v).dbgUsed = s.dbgUsed := rfl
@[simp] theorem State.setReg_unlocking (s : State) (a : Nat) (v : DWord) : (s.setReg a v).unlocking = s.unlocking := rfl
@[simp] theorem State.setReg_session (s : State) (a : Nat) (v : DWord) : (s.setReg a v).session = s.session := rfl
@[simp] theorem State.setReg_drainTimer (s : State) (a : Nat) (v : DWord) : (s.setReg a v).drainTimer = s.drainTimer := rfl
@[simp] theorem State.setReg_flrTimer (s : State) (a : Nat) (v : DWord) : (s.setReg a v).flrTimer = s.flrTimer := rfl
@[simp] theorem State.setReg_cfgRec (s : State) (a : Nat) (v : DWord) : (s.setReg a v).cfgRec = s.cfgRec := rfl
@[simp] theorem State.setReg_recDue (s : State) (a : Nat) (v : DWord) : (s.setReg a v).recDue = s.recDue := rfl
@[simp] theorem State.setReg_pw (s : State) (a : Nat) (v : DWord) : (s.setReg a v).pw = s.pw := rfl
@[simp] theorem State.setReg_subst (s : State) (a : Nat) (v : DWord) : (s.setReg a v).subst = s.subst := rfl
@[simp] theorem State.setReg_roles (s : State) (a : Nat) (v : DWord) : (s.setReg a v).roles = s.roles := rfl
@[simp] theorem State.setReg_kcSram (s : State) (a : Nat) (v : DWord) : (s.setReg a v).kcSram = s.kcSram := rfl
@[simp] theorem State.setReg_qnSram (s : State) (a : Nat) (v : DWord) : (s.setReg a v).qnSram = s.qnSram := rfl
@[simp] theorem State.setReg_qcCache (s : State) (a : Nat) (v : DWord) : (s.setReg a v).qcCache = s.qcCache := rfl

/-! `setRegN` changes `regs` alone. -/

@[simp] theorem State.setRegN_pending (s : State) (a v : Nat) : (s.setRegN a v).pending = s.pending := rfl
@[simp] theorem State.setRegN_timeNs (s : State) (a v : Nat) : (s.setRegN a v).timeNs = s.timeNs := rfl
@[simp] theorem State.setRegN_free (s : State) (a v : Nat) : (s.setRegN a v).free = s.free := rfl
@[simp] theorem State.setRegN_undef (s : State) (a v : Nat) : (s.setRegN a v).undef = s.undef := rfl
@[simp] theorem State.setRegN_pins (s : State) (a v : Nat) : (s.setRegN a v).pins = s.pins := rfl
@[simp] theorem State.setRegN_jtag (s : State) (a v : Nat) : (s.setRegN a v).jtag = s.jtag := rfl
@[simp] theorem State.setRegN_pcie (s : State) (a v : Nat) : (s.setRegN a v).pcie = s.pcie := rfl
@[simp] theorem State.setRegN_snap (s : State) (a v : Nat) : (s.setRegN a v).snap = s.snap := rfl
@[simp] theorem State.setRegN_bed (s : State) (a v : Nat) : (s.setRegN a v).bed = s.bed := rfl
@[simp] theorem State.setRegN_bedPoison (s : State) (a v : Nat) : (s.setRegN a v).bedPoison = s.bedPoison := rfl
@[simp] theorem State.setRegN_hbm (s : State) (a v : Nat) : (s.setRegN a v).hbm = s.hbm := rfl
@[simp] theorem State.setRegN_hbmPoison (s : State) (a v : Nat) : (s.setRegN a v).hbmPoison = s.hbmPoison := rfl
@[simp] theorem State.setRegN_hbmKey (s : State) (a v : Nat) : (s.setRegN a v).hbmKey = s.hbmKey := rfl
@[simp] theorem State.setRegN_hbmReady (s : State) (a v : Nat) : (s.setRegN a v).hbmReady = s.hbmReady := rfl
@[simp] theorem State.setRegN_marks (s : State) (a v : Nat) : (s.setRegN a v).marks = s.marks := rfl
@[simp] theorem State.setRegN_markPtr (s : State) (a v : Nat) : (s.setRegN a v).markPtr = s.markPtr := rfl
@[simp] theorem State.setRegN_xlat (s : State) (a v : Nat) : (s.setRegN a v).xlat = s.xlat := rfl
@[simp] theorem State.setRegN_wq (s : State) (a v : Nat) : (s.setRegN a v).wq = s.wq := rfl
@[simp] theorem State.setRegN_jq (s : State) (a v : Nat) : (s.setRegN a v).jq = s.jq := rfl
@[simp] theorem State.setRegN_ring (s : State) (a v : Nat) : (s.setRegN a v).ring = s.ring := rfl
@[simp] theorem State.setRegN_relHead (s : State) (a v : Nat) : (s.setRegN a v).relHead = s.relHead := rfl
@[simp] theorem State.setRegN_flights (s : State) (a v : Nat) : (s.setRegN a v).flights = s.flights := rfl
@[simp] theorem State.setRegN_nextFlight (s : State) (a v : Nat) : (s.setRegN a v).nextFlight = s.nextFlight := rfl
@[simp] theorem State.setRegN_mapOp (s : State) (a v : Nat) : (s.setRegN a v).mapOp = s.mapOp := rfl
@[simp] theorem State.setRegN_bedPtr (s : State) (a v : Nat) : (s.setRegN a v).bedPtr = s.bedPtr := rfl
@[simp] theorem State.setRegN_bedDefer (s : State) (a v : Nat) : (s.setRegN a v).bedDefer = s.bedDefer := rfl
@[simp] theorem State.setRegN_bankOut (s : State) (a v : Nat) : (s.setRegN a v).bankOut = s.bankOut := rfl
@[simp] theorem State.setRegN_spareBad (s : State) (a v : Nat) : (s.setRegN a v).spareBad = s.spareBad := rfl
@[simp] theorem State.setRegN_winHit (s : State) (a v : Nat) : (s.setRegN a v).winHit = s.winHit := rfl
@[simp] theorem State.setRegN_unit (s : State) (a v : Nat) : (s.setRegN a v).unit = s.unit := rfl
@[simp] theorem State.setRegN_errWin (s : State) (a v : Nat) : (s.setRegN a v).errWin = s.errWin := rfl
@[simp] theorem State.setRegN_resident (s : State) (a v : Nat) : (s.setRegN a v).resident = s.resident := rfl
@[simp] theorem State.setRegN_image (s : State) (a v : Nat) : (s.setRegN a v).image = s.image := rfl
@[simp] theorem State.setRegN_libVer (s : State) (a v : Nat) : (s.setRegN a v).libVer = s.libVer := rfl
@[simp] theorem State.setRegN_pageMap (s : State) (a v : Nat) : (s.setRegN a v).pageMap = s.pageMap := rfl
@[simp] theorem State.setRegN_pfx (s : State) (a v : Nat) : (s.setRegN a v).pfx = s.pfx := rfl
@[simp] theorem State.setRegN_tensors (s : State) (a v : Nat) : (s.setRegN a v).tensors = s.tensors := rfl
@[simp] theorem State.setRegN_nandBytes (s : State) (a v : Nat) : (s.setRegN a v).nandBytes = s.nandBytes := rfl
@[simp] theorem State.setRegN_moves (s : State) (a v : Nat) : (s.setRegN a v).moves = s.moves := rfl
@[simp] theorem State.setRegN_builds (s : State) (a v : Nat) : (s.setRegN a v).builds = s.builds := rfl
@[simp] theorem State.setRegN_sched (s : State) (a v : Nat) : (s.setRegN a v).sched = s.sched := rfl
@[simp] theorem State.setRegN_schedQ (s : State) (a v : Nat) : (s.setRegN a v).schedQ = s.schedQ := rfl
@[simp] theorem State.setRegN_hbmQ (s : State) (a v : Nat) : (s.setRegN a v).hbmQ = s.hbmQ := rfl
@[simp] theorem State.setRegN_hbmRow (s : State) (a v : Nat) : (s.setRegN a v).hbmRow = s.hbmRow := rfl
@[simp] theorem State.setRegN_hbmTrr (s : State) (a v : Nat) : (s.setRegN a v).hbmTrr = s.hbmTrr := rfl
@[simp] theorem State.setRegN_hbmDue (s : State) (a v : Nat) : (s.setRegN a v).hbmDue = s.hbmDue := rfl
@[simp] theorem State.setRegN_hbmTrrDue (s : State) (a v : Nat) : (s.setRegN a v).hbmTrrDue = s.hbmTrrDue := rfl
@[simp] theorem State.setRegN_hbmData (s : State) (a v : Nat) : (s.setRegN a v).hbmData = s.hbmData := rfl
@[simp] theorem State.setRegN_hbmPtr (s : State) (a v : Nat) : (s.setRegN a v).hbmPtr = s.hbmPtr := rfl
@[simp] theorem State.setRegN_hbmDrain (s : State) (a v : Nat) : (s.setRegN a v).hbmDrain = s.hbmDrain := rfl
@[simp] theorem State.setRegN_hbmTrainTemp (s : State) (a v : Nat) : (s.setRegN a v).hbmTrainTemp = s.hbmTrainTemp := rfl
@[simp] theorem State.setRegN_retrainReq (s : State) (a v : Nat) : (s.setRegN a v).retrainReq = s.retrainReq := rfl
@[simp] theorem State.setRegN_retrain (s : State) (a v : Nat) : (s.setRegN a v).retrain = s.retrain := rfl
@[simp] theorem State.setRegN_laneCnt (s : State) (a v : Nat) : (s.setRegN a v).laneCnt = s.laneCnt := rfl
@[simp] theorem State.setRegN_lineRepair (s : State) (a v : Nat) : (s.setRegN a v).lineRepair = s.lineRepair := rfl
@[simp] theorem State.setRegN_nandSb (s : State) (a v : Nat) : (s.setRegN a v).nandSb = s.nandSb := rfl
@[simp] theorem State.setRegN_nandCnt (s : State) (a v : Nat) : (s.setRegN a v).nandCnt = s.nandCnt := rfl
@[simp] theorem State.setRegN_nandTemp (s : State) (a v : Nat) : (s.setRegN a v).nandTemp = s.nandTemp := rfl
@[simp] theorem State.setRegN_plArray (s : State) (a v : Nat) : (s.setRegN a v).plArray = s.plArray := rfl
@[simp] theorem State.setRegN_plEc (s : State) (a v : Nat) : (s.setRegN a v).plEc = s.plEc := rfl
@[simp] theorem State.setRegN_plMark (s : State) (a v : Nat) : (s.setRegN a v).plMark = s.plMark := rfl
@[simp] theorem State.setRegN_plBank0 (s : State) (a v : Nat) : (s.setRegN a v).plBank0 = s.plBank0 := rfl
@[simp] theorem State.setRegN_plBank1 (s : State) (a v : Nat) : (s.setRegN a v).plBank1 = s.plBank1 := rfl
@[simp] theorem State.setRegN_plPrefetch (s : State) (a v : Nat) : (s.setRegN a v).plPrefetch = s.plPrefetch := rfl
@[simp] theorem State.setRegN_plBranch (s : State) (a v : Nat) : (s.setRegN a v).plBranch = s.plBranch := rfl
@[simp] theorem State.setRegN_plLast (s : State) (a v : Nat) : (s.setRegN a v).plLast = s.plLast := rfl
@[simp] theorem State.setRegN_plRead (s : State) (a v : Nat) : (s.setRegN a v).plRead = s.plRead := rfl
@[simp] theorem State.setRegN_plFetch (s : State) (a v : Nat) : (s.setRegN a v).plFetch = s.plFetch := rfl
@[simp] theorem State.setRegN_tx (s : State) (a v : Nat) : (s.setRegN a v).tx = s.tx := rfl
@[simp] theorem State.setRegN_conn (s : State) (a v : Nat) : (s.setRegN a v).conn = s.conn := rfl
@[simp] theorem State.setRegN_rconn (s : State) (a v : Nat) : (s.setRegN a v).rconn = s.rconn := rfl
@[simp] theorem State.setRegN_rxq (s : State) (a v : Nat) : (s.setRegN a v).rxq = s.rxq := rfl
@[simp] theorem State.setRegN_rops (s : State) (a v : Nat) : (s.setRegN a v).rops = s.rops := rfl
@[simp] theorem State.setRegN_nextOpid (s : State) (a v : Nat) : (s.setRegN a v).nextOpid = s.nextOpid := rfl
@[simp] theorem State.setRegN_putFail (s : State) (a v : Nat) : (s.setRegN a v).putFail = s.putFail := rfl
@[simp] theorem State.setRegN_putOpen (s : State) (a v : Nat) : (s.setRegN a v).putOpen = s.putOpen := rfl
@[simp] theorem State.setRegN_pausedBy (s : State) (a v : Nat) : (s.setRegN a v).pausedBy = s.pausedBy := rfl
@[simp] theorem State.setRegN_pausing (s : State) (a v : Nat) : (s.setRegN a v).pausing = s.pausing := rfl
@[simp] theorem State.setRegN_groutNext (s : State) (a v : Nat) : (s.setRegN a v).groutNext = s.groutNext := rfl
@[simp] theorem State.setRegN_groutOff (s : State) (a v : Nat) : (s.setRegN a v).groutOff = s.groutOff := rfl
@[simp] theorem State.setRegN_fw (s : State) (a v : Nat) : (s.setRegN a v).fw = s.fw := rfl
@[simp] theorem State.setRegN_slotKey (s : State) (a v : Nat) : (s.setRegN a v).slotKey = s.slotKey := rfl
@[simp] theorem State.setRegN_nextKey (s : State) (a v : Nat) : (s.setRegN a v).nextKey = s.nextKey := rfl
@[simp] theorem State.setRegN_qnReq (s : State) (a v : Nat) : (s.setRegN a v).qnReq = s.qnReq := rfl
@[simp] theorem State.setRegN_qnPtr (s : State) (a v : Nat) : (s.setRegN a v).qnPtr = s.qnPtr := rfl
@[simp] theorem State.setRegN_mctpOut (s : State) (a v : Nat) : (s.setRegN a v).mctpOut = s.mctpOut := rfl
@[simp] theorem State.setRegN_mctpEid (s : State) (a v : Nat) : (s.setRegN a v).mctpEid = s.mctpEid := rfl
@[simp] theorem State.setRegN_mctpIn (s : State) (a v : Nat) : (s.setRegN a v).mctpIn = s.mctpIn := rfl
@[simp] theorem State.setRegN_dbg (s : State) (a v : Nat) : (s.setRegN a v).dbg = s.dbg := rfl
@[simp] theorem State.setRegN_dbgUsed (s : State) (a v : Nat) : (s.setRegN a v).dbgUsed = s.dbgUsed := rfl
@[simp] theorem State.setRegN_unlocking (s : State) (a v : Nat) : (s.setRegN a v).unlocking = s.unlocking := rfl
@[simp] theorem State.setRegN_session (s : State) (a v : Nat) : (s.setRegN a v).session = s.session := rfl
@[simp] theorem State.setRegN_drainTimer (s : State) (a v : Nat) : (s.setRegN a v).drainTimer = s.drainTimer := rfl
@[simp] theorem State.setRegN_flrTimer (s : State) (a v : Nat) : (s.setRegN a v).flrTimer = s.flrTimer := rfl
@[simp] theorem State.setRegN_cfgRec (s : State) (a v : Nat) : (s.setRegN a v).cfgRec = s.cfgRec := rfl
@[simp] theorem State.setRegN_recDue (s : State) (a v : Nat) : (s.setRegN a v).recDue = s.recDue := rfl
@[simp] theorem State.setRegN_pw (s : State) (a v : Nat) : (s.setRegN a v).pw = s.pw := rfl
@[simp] theorem State.setRegN_subst (s : State) (a v : Nat) : (s.setRegN a v).subst = s.subst := rfl
@[simp] theorem State.setRegN_roles (s : State) (a v : Nat) : (s.setRegN a v).roles = s.roles := rfl
@[simp] theorem State.setRegN_kcSram (s : State) (a v : Nat) : (s.setRegN a v).kcSram = s.kcSram := rfl
@[simp] theorem State.setRegN_qnSram (s : State) (a v : Nat) : (s.setRegN a v).qnSram = s.qnSram := rfl
@[simp] theorem State.setRegN_qcCache (s : State) (a v : Nat) : (s.setRegN a v).qcCache = s.qcCache := rfl

/-! `modReg` changes `regs` alone. -/

@[simp] theorem State.modReg_pending (s : State) (a : Nat) (f : Nat → Nat) : (s.modReg a f).pending = s.pending := rfl
@[simp] theorem State.modReg_timeNs (s : State) (a : Nat) (f : Nat → Nat) : (s.modReg a f).timeNs = s.timeNs := rfl
@[simp] theorem State.modReg_free (s : State) (a : Nat) (f : Nat → Nat) : (s.modReg a f).free = s.free := rfl
@[simp] theorem State.modReg_undef (s : State) (a : Nat) (f : Nat → Nat) : (s.modReg a f).undef = s.undef := rfl
@[simp] theorem State.modReg_pins (s : State) (a : Nat) (f : Nat → Nat) : (s.modReg a f).pins = s.pins := rfl
@[simp] theorem State.modReg_jtag (s : State) (a : Nat) (f : Nat → Nat) : (s.modReg a f).jtag = s.jtag := rfl
@[simp] theorem State.modReg_pcie (s : State) (a : Nat) (f : Nat → Nat) : (s.modReg a f).pcie = s.pcie := rfl
@[simp] theorem State.modReg_snap (s : State) (a : Nat) (f : Nat → Nat) : (s.modReg a f).snap = s.snap := rfl
@[simp] theorem State.modReg_bed (s : State) (a : Nat) (f : Nat → Nat) : (s.modReg a f).bed = s.bed := rfl
@[simp] theorem State.modReg_bedPoison (s : State) (a : Nat) (f : Nat → Nat) : (s.modReg a f).bedPoison = s.bedPoison := rfl
@[simp] theorem State.modReg_hbm (s : State) (a : Nat) (f : Nat → Nat) : (s.modReg a f).hbm = s.hbm := rfl
@[simp] theorem State.modReg_hbmPoison (s : State) (a : Nat) (f : Nat → Nat) : (s.modReg a f).hbmPoison = s.hbmPoison := rfl
@[simp] theorem State.modReg_hbmKey (s : State) (a : Nat) (f : Nat → Nat) : (s.modReg a f).hbmKey = s.hbmKey := rfl
@[simp] theorem State.modReg_hbmReady (s : State) (a : Nat) (f : Nat → Nat) : (s.modReg a f).hbmReady = s.hbmReady := rfl
@[simp] theorem State.modReg_marks (s : State) (a : Nat) (f : Nat → Nat) : (s.modReg a f).marks = s.marks := rfl
@[simp] theorem State.modReg_markPtr (s : State) (a : Nat) (f : Nat → Nat) : (s.modReg a f).markPtr = s.markPtr := rfl
@[simp] theorem State.modReg_xlat (s : State) (a : Nat) (f : Nat → Nat) : (s.modReg a f).xlat = s.xlat := rfl
@[simp] theorem State.modReg_wq (s : State) (a : Nat) (f : Nat → Nat) : (s.modReg a f).wq = s.wq := rfl
@[simp] theorem State.modReg_jq (s : State) (a : Nat) (f : Nat → Nat) : (s.modReg a f).jq = s.jq := rfl
@[simp] theorem State.modReg_ring (s : State) (a : Nat) (f : Nat → Nat) : (s.modReg a f).ring = s.ring := rfl
@[simp] theorem State.modReg_relHead (s : State) (a : Nat) (f : Nat → Nat) : (s.modReg a f).relHead = s.relHead := rfl
@[simp] theorem State.modReg_flights (s : State) (a : Nat) (f : Nat → Nat) : (s.modReg a f).flights = s.flights := rfl
@[simp] theorem State.modReg_nextFlight (s : State) (a : Nat) (f : Nat → Nat) : (s.modReg a f).nextFlight = s.nextFlight := rfl
@[simp] theorem State.modReg_mapOp (s : State) (a : Nat) (f : Nat → Nat) : (s.modReg a f).mapOp = s.mapOp := rfl
@[simp] theorem State.modReg_bedPtr (s : State) (a : Nat) (f : Nat → Nat) : (s.modReg a f).bedPtr = s.bedPtr := rfl
@[simp] theorem State.modReg_bedDefer (s : State) (a : Nat) (f : Nat → Nat) : (s.modReg a f).bedDefer = s.bedDefer := rfl
@[simp] theorem State.modReg_bankOut (s : State) (a : Nat) (f : Nat → Nat) : (s.modReg a f).bankOut = s.bankOut := rfl
@[simp] theorem State.modReg_spareBad (s : State) (a : Nat) (f : Nat → Nat) : (s.modReg a f).spareBad = s.spareBad := rfl
@[simp] theorem State.modReg_winHit (s : State) (a : Nat) (f : Nat → Nat) : (s.modReg a f).winHit = s.winHit := rfl
@[simp] theorem State.modReg_unit (s : State) (a : Nat) (f : Nat → Nat) : (s.modReg a f).unit = s.unit := rfl
@[simp] theorem State.modReg_errWin (s : State) (a : Nat) (f : Nat → Nat) : (s.modReg a f).errWin = s.errWin := rfl
@[simp] theorem State.modReg_resident (s : State) (a : Nat) (f : Nat → Nat) : (s.modReg a f).resident = s.resident := rfl
@[simp] theorem State.modReg_image (s : State) (a : Nat) (f : Nat → Nat) : (s.modReg a f).image = s.image := rfl
@[simp] theorem State.modReg_libVer (s : State) (a : Nat) (f : Nat → Nat) : (s.modReg a f).libVer = s.libVer := rfl
@[simp] theorem State.modReg_pageMap (s : State) (a : Nat) (f : Nat → Nat) : (s.modReg a f).pageMap = s.pageMap := rfl
@[simp] theorem State.modReg_pfx (s : State) (a : Nat) (f : Nat → Nat) : (s.modReg a f).pfx = s.pfx := rfl
@[simp] theorem State.modReg_tensors (s : State) (a : Nat) (f : Nat → Nat) : (s.modReg a f).tensors = s.tensors := rfl
@[simp] theorem State.modReg_nandBytes (s : State) (a : Nat) (f : Nat → Nat) : (s.modReg a f).nandBytes = s.nandBytes := rfl
@[simp] theorem State.modReg_moves (s : State) (a : Nat) (f : Nat → Nat) : (s.modReg a f).moves = s.moves := rfl
@[simp] theorem State.modReg_builds (s : State) (a : Nat) (f : Nat → Nat) : (s.modReg a f).builds = s.builds := rfl
@[simp] theorem State.modReg_sched (s : State) (a : Nat) (f : Nat → Nat) : (s.modReg a f).sched = s.sched := rfl
@[simp] theorem State.modReg_schedQ (s : State) (a : Nat) (f : Nat → Nat) : (s.modReg a f).schedQ = s.schedQ := rfl
@[simp] theorem State.modReg_hbmQ (s : State) (a : Nat) (f : Nat → Nat) : (s.modReg a f).hbmQ = s.hbmQ := rfl
@[simp] theorem State.modReg_hbmRow (s : State) (a : Nat) (f : Nat → Nat) : (s.modReg a f).hbmRow = s.hbmRow := rfl
@[simp] theorem State.modReg_hbmTrr (s : State) (a : Nat) (f : Nat → Nat) : (s.modReg a f).hbmTrr = s.hbmTrr := rfl
@[simp] theorem State.modReg_hbmDue (s : State) (a : Nat) (f : Nat → Nat) : (s.modReg a f).hbmDue = s.hbmDue := rfl
@[simp] theorem State.modReg_hbmTrrDue (s : State) (a : Nat) (f : Nat → Nat) : (s.modReg a f).hbmTrrDue = s.hbmTrrDue := rfl
@[simp] theorem State.modReg_hbmData (s : State) (a : Nat) (f : Nat → Nat) : (s.modReg a f).hbmData = s.hbmData := rfl
@[simp] theorem State.modReg_hbmPtr (s : State) (a : Nat) (f : Nat → Nat) : (s.modReg a f).hbmPtr = s.hbmPtr := rfl
@[simp] theorem State.modReg_hbmDrain (s : State) (a : Nat) (f : Nat → Nat) : (s.modReg a f).hbmDrain = s.hbmDrain := rfl
@[simp] theorem State.modReg_hbmTrainTemp (s : State) (a : Nat) (f : Nat → Nat) : (s.modReg a f).hbmTrainTemp = s.hbmTrainTemp := rfl
@[simp] theorem State.modReg_retrainReq (s : State) (a : Nat) (f : Nat → Nat) : (s.modReg a f).retrainReq = s.retrainReq := rfl
@[simp] theorem State.modReg_retrain (s : State) (a : Nat) (f : Nat → Nat) : (s.modReg a f).retrain = s.retrain := rfl
@[simp] theorem State.modReg_laneCnt (s : State) (a : Nat) (f : Nat → Nat) : (s.modReg a f).laneCnt = s.laneCnt := rfl
@[simp] theorem State.modReg_lineRepair (s : State) (a : Nat) (f : Nat → Nat) : (s.modReg a f).lineRepair = s.lineRepair := rfl
@[simp] theorem State.modReg_nandSb (s : State) (a : Nat) (f : Nat → Nat) : (s.modReg a f).nandSb = s.nandSb := rfl
@[simp] theorem State.modReg_nandCnt (s : State) (a : Nat) (f : Nat → Nat) : (s.modReg a f).nandCnt = s.nandCnt := rfl
@[simp] theorem State.modReg_nandTemp (s : State) (a : Nat) (f : Nat → Nat) : (s.modReg a f).nandTemp = s.nandTemp := rfl
@[simp] theorem State.modReg_plArray (s : State) (a : Nat) (f : Nat → Nat) : (s.modReg a f).plArray = s.plArray := rfl
@[simp] theorem State.modReg_plEc (s : State) (a : Nat) (f : Nat → Nat) : (s.modReg a f).plEc = s.plEc := rfl
@[simp] theorem State.modReg_plMark (s : State) (a : Nat) (f : Nat → Nat) : (s.modReg a f).plMark = s.plMark := rfl
@[simp] theorem State.modReg_plBank0 (s : State) (a : Nat) (f : Nat → Nat) : (s.modReg a f).plBank0 = s.plBank0 := rfl
@[simp] theorem State.modReg_plBank1 (s : State) (a : Nat) (f : Nat → Nat) : (s.modReg a f).plBank1 = s.plBank1 := rfl
@[simp] theorem State.modReg_plPrefetch (s : State) (a : Nat) (f : Nat → Nat) : (s.modReg a f).plPrefetch = s.plPrefetch := rfl
@[simp] theorem State.modReg_plBranch (s : State) (a : Nat) (f : Nat → Nat) : (s.modReg a f).plBranch = s.plBranch := rfl
@[simp] theorem State.modReg_plLast (s : State) (a : Nat) (f : Nat → Nat) : (s.modReg a f).plLast = s.plLast := rfl
@[simp] theorem State.modReg_plRead (s : State) (a : Nat) (f : Nat → Nat) : (s.modReg a f).plRead = s.plRead := rfl
@[simp] theorem State.modReg_plFetch (s : State) (a : Nat) (f : Nat → Nat) : (s.modReg a f).plFetch = s.plFetch := rfl
@[simp] theorem State.modReg_tx (s : State) (a : Nat) (f : Nat → Nat) : (s.modReg a f).tx = s.tx := rfl
@[simp] theorem State.modReg_conn (s : State) (a : Nat) (f : Nat → Nat) : (s.modReg a f).conn = s.conn := rfl
@[simp] theorem State.modReg_rconn (s : State) (a : Nat) (f : Nat → Nat) : (s.modReg a f).rconn = s.rconn := rfl
@[simp] theorem State.modReg_rxq (s : State) (a : Nat) (f : Nat → Nat) : (s.modReg a f).rxq = s.rxq := rfl
@[simp] theorem State.modReg_rops (s : State) (a : Nat) (f : Nat → Nat) : (s.modReg a f).rops = s.rops := rfl
@[simp] theorem State.modReg_nextOpid (s : State) (a : Nat) (f : Nat → Nat) : (s.modReg a f).nextOpid = s.nextOpid := rfl
@[simp] theorem State.modReg_putFail (s : State) (a : Nat) (f : Nat → Nat) : (s.modReg a f).putFail = s.putFail := rfl
@[simp] theorem State.modReg_putOpen (s : State) (a : Nat) (f : Nat → Nat) : (s.modReg a f).putOpen = s.putOpen := rfl
@[simp] theorem State.modReg_pausedBy (s : State) (a : Nat) (f : Nat → Nat) : (s.modReg a f).pausedBy = s.pausedBy := rfl
@[simp] theorem State.modReg_pausing (s : State) (a : Nat) (f : Nat → Nat) : (s.modReg a f).pausing = s.pausing := rfl
@[simp] theorem State.modReg_groutNext (s : State) (a : Nat) (f : Nat → Nat) : (s.modReg a f).groutNext = s.groutNext := rfl
@[simp] theorem State.modReg_groutOff (s : State) (a : Nat) (f : Nat → Nat) : (s.modReg a f).groutOff = s.groutOff := rfl
@[simp] theorem State.modReg_fw (s : State) (a : Nat) (f : Nat → Nat) : (s.modReg a f).fw = s.fw := rfl
@[simp] theorem State.modReg_slotKey (s : State) (a : Nat) (f : Nat → Nat) : (s.modReg a f).slotKey = s.slotKey := rfl
@[simp] theorem State.modReg_nextKey (s : State) (a : Nat) (f : Nat → Nat) : (s.modReg a f).nextKey = s.nextKey := rfl
@[simp] theorem State.modReg_qnReq (s : State) (a : Nat) (f : Nat → Nat) : (s.modReg a f).qnReq = s.qnReq := rfl
@[simp] theorem State.modReg_qnPtr (s : State) (a : Nat) (f : Nat → Nat) : (s.modReg a f).qnPtr = s.qnPtr := rfl
@[simp] theorem State.modReg_mctpOut (s : State) (a : Nat) (f : Nat → Nat) : (s.modReg a f).mctpOut = s.mctpOut := rfl
@[simp] theorem State.modReg_mctpEid (s : State) (a : Nat) (f : Nat → Nat) : (s.modReg a f).mctpEid = s.mctpEid := rfl
@[simp] theorem State.modReg_mctpIn (s : State) (a : Nat) (f : Nat → Nat) : (s.modReg a f).mctpIn = s.mctpIn := rfl
@[simp] theorem State.modReg_dbg (s : State) (a : Nat) (f : Nat → Nat) : (s.modReg a f).dbg = s.dbg := rfl
@[simp] theorem State.modReg_dbgUsed (s : State) (a : Nat) (f : Nat → Nat) : (s.modReg a f).dbgUsed = s.dbgUsed := rfl
@[simp] theorem State.modReg_unlocking (s : State) (a : Nat) (f : Nat → Nat) : (s.modReg a f).unlocking = s.unlocking := rfl
@[simp] theorem State.modReg_session (s : State) (a : Nat) (f : Nat → Nat) : (s.modReg a f).session = s.session := rfl
@[simp] theorem State.modReg_drainTimer (s : State) (a : Nat) (f : Nat → Nat) : (s.modReg a f).drainTimer = s.drainTimer := rfl
@[simp] theorem State.modReg_flrTimer (s : State) (a : Nat) (f : Nat → Nat) : (s.modReg a f).flrTimer = s.flrTimer := rfl
@[simp] theorem State.modReg_cfgRec (s : State) (a : Nat) (f : Nat → Nat) : (s.modReg a f).cfgRec = s.cfgRec := rfl
@[simp] theorem State.modReg_recDue (s : State) (a : Nat) (f : Nat → Nat) : (s.modReg a f).recDue = s.recDue := rfl
@[simp] theorem State.modReg_pw (s : State) (a : Nat) (f : Nat → Nat) : (s.modReg a f).pw = s.pw := rfl
@[simp] theorem State.modReg_subst (s : State) (a : Nat) (f : Nat → Nat) : (s.modReg a f).subst = s.subst := rfl
@[simp] theorem State.modReg_roles (s : State) (a : Nat) (f : Nat → Nat) : (s.modReg a f).roles = s.roles := rfl
@[simp] theorem State.modReg_kcSram (s : State) (a : Nat) (f : Nat → Nat) : (s.modReg a f).kcSram = s.kcSram := rfl
@[simp] theorem State.modReg_qnSram (s : State) (a : Nat) (f : Nat → Nat) : (s.modReg a f).qnSram = s.qnSram := rfl
@[simp] theorem State.modReg_qcCache (s : State) (a : Nat) (f : Nat → Nat) : (s.modReg a f).qcCache = s.qcCache := rfl

/-! `setField` changes `regs` alone. -/

@[simp] theorem State.setField_pending (s : State) (a hi lo v : Nat) : (s.setField a hi lo v).pending = s.pending := rfl
@[simp] theorem State.setField_timeNs (s : State) (a hi lo v : Nat) : (s.setField a hi lo v).timeNs = s.timeNs := rfl
@[simp] theorem State.setField_free (s : State) (a hi lo v : Nat) : (s.setField a hi lo v).free = s.free := rfl
@[simp] theorem State.setField_undef (s : State) (a hi lo v : Nat) : (s.setField a hi lo v).undef = s.undef := rfl
@[simp] theorem State.setField_pins (s : State) (a hi lo v : Nat) : (s.setField a hi lo v).pins = s.pins := rfl
@[simp] theorem State.setField_jtag (s : State) (a hi lo v : Nat) : (s.setField a hi lo v).jtag = s.jtag := rfl
@[simp] theorem State.setField_pcie (s : State) (a hi lo v : Nat) : (s.setField a hi lo v).pcie = s.pcie := rfl
@[simp] theorem State.setField_snap (s : State) (a hi lo v : Nat) : (s.setField a hi lo v).snap = s.snap := rfl
@[simp] theorem State.setField_bed (s : State) (a hi lo v : Nat) : (s.setField a hi lo v).bed = s.bed := rfl
@[simp] theorem State.setField_bedPoison (s : State) (a hi lo v : Nat) : (s.setField a hi lo v).bedPoison = s.bedPoison := rfl
@[simp] theorem State.setField_hbm (s : State) (a hi lo v : Nat) : (s.setField a hi lo v).hbm = s.hbm := rfl
@[simp] theorem State.setField_hbmPoison (s : State) (a hi lo v : Nat) : (s.setField a hi lo v).hbmPoison = s.hbmPoison := rfl
@[simp] theorem State.setField_hbmKey (s : State) (a hi lo v : Nat) : (s.setField a hi lo v).hbmKey = s.hbmKey := rfl
@[simp] theorem State.setField_hbmReady (s : State) (a hi lo v : Nat) : (s.setField a hi lo v).hbmReady = s.hbmReady := rfl
@[simp] theorem State.setField_marks (s : State) (a hi lo v : Nat) : (s.setField a hi lo v).marks = s.marks := rfl
@[simp] theorem State.setField_markPtr (s : State) (a hi lo v : Nat) : (s.setField a hi lo v).markPtr = s.markPtr := rfl
@[simp] theorem State.setField_xlat (s : State) (a hi lo v : Nat) : (s.setField a hi lo v).xlat = s.xlat := rfl
@[simp] theorem State.setField_wq (s : State) (a hi lo v : Nat) : (s.setField a hi lo v).wq = s.wq := rfl
@[simp] theorem State.setField_jq (s : State) (a hi lo v : Nat) : (s.setField a hi lo v).jq = s.jq := rfl
@[simp] theorem State.setField_ring (s : State) (a hi lo v : Nat) : (s.setField a hi lo v).ring = s.ring := rfl
@[simp] theorem State.setField_relHead (s : State) (a hi lo v : Nat) : (s.setField a hi lo v).relHead = s.relHead := rfl
@[simp] theorem State.setField_flights (s : State) (a hi lo v : Nat) : (s.setField a hi lo v).flights = s.flights := rfl
@[simp] theorem State.setField_nextFlight (s : State) (a hi lo v : Nat) : (s.setField a hi lo v).nextFlight = s.nextFlight := rfl
@[simp] theorem State.setField_mapOp (s : State) (a hi lo v : Nat) : (s.setField a hi lo v).mapOp = s.mapOp := rfl
@[simp] theorem State.setField_bedPtr (s : State) (a hi lo v : Nat) : (s.setField a hi lo v).bedPtr = s.bedPtr := rfl
@[simp] theorem State.setField_bedDefer (s : State) (a hi lo v : Nat) : (s.setField a hi lo v).bedDefer = s.bedDefer := rfl
@[simp] theorem State.setField_bankOut (s : State) (a hi lo v : Nat) : (s.setField a hi lo v).bankOut = s.bankOut := rfl
@[simp] theorem State.setField_spareBad (s : State) (a hi lo v : Nat) : (s.setField a hi lo v).spareBad = s.spareBad := rfl
@[simp] theorem State.setField_winHit (s : State) (a hi lo v : Nat) : (s.setField a hi lo v).winHit = s.winHit := rfl
@[simp] theorem State.setField_unit (s : State) (a hi lo v : Nat) : (s.setField a hi lo v).unit = s.unit := rfl
@[simp] theorem State.setField_errWin (s : State) (a hi lo v : Nat) : (s.setField a hi lo v).errWin = s.errWin := rfl
@[simp] theorem State.setField_resident (s : State) (a hi lo v : Nat) : (s.setField a hi lo v).resident = s.resident := rfl
@[simp] theorem State.setField_image (s : State) (a hi lo v : Nat) : (s.setField a hi lo v).image = s.image := rfl
@[simp] theorem State.setField_libVer (s : State) (a hi lo v : Nat) : (s.setField a hi lo v).libVer = s.libVer := rfl
@[simp] theorem State.setField_pageMap (s : State) (a hi lo v : Nat) : (s.setField a hi lo v).pageMap = s.pageMap := rfl
@[simp] theorem State.setField_pfx (s : State) (a hi lo v : Nat) : (s.setField a hi lo v).pfx = s.pfx := rfl
@[simp] theorem State.setField_tensors (s : State) (a hi lo v : Nat) : (s.setField a hi lo v).tensors = s.tensors := rfl
@[simp] theorem State.setField_nandBytes (s : State) (a hi lo v : Nat) : (s.setField a hi lo v).nandBytes = s.nandBytes := rfl
@[simp] theorem State.setField_moves (s : State) (a hi lo v : Nat) : (s.setField a hi lo v).moves = s.moves := rfl
@[simp] theorem State.setField_builds (s : State) (a hi lo v : Nat) : (s.setField a hi lo v).builds = s.builds := rfl
@[simp] theorem State.setField_sched (s : State) (a hi lo v : Nat) : (s.setField a hi lo v).sched = s.sched := rfl
@[simp] theorem State.setField_schedQ (s : State) (a hi lo v : Nat) : (s.setField a hi lo v).schedQ = s.schedQ := rfl
@[simp] theorem State.setField_hbmQ (s : State) (a hi lo v : Nat) : (s.setField a hi lo v).hbmQ = s.hbmQ := rfl
@[simp] theorem State.setField_hbmRow (s : State) (a hi lo v : Nat) : (s.setField a hi lo v).hbmRow = s.hbmRow := rfl
@[simp] theorem State.setField_hbmTrr (s : State) (a hi lo v : Nat) : (s.setField a hi lo v).hbmTrr = s.hbmTrr := rfl
@[simp] theorem State.setField_hbmDue (s : State) (a hi lo v : Nat) : (s.setField a hi lo v).hbmDue = s.hbmDue := rfl
@[simp] theorem State.setField_hbmTrrDue (s : State) (a hi lo v : Nat) : (s.setField a hi lo v).hbmTrrDue = s.hbmTrrDue := rfl
@[simp] theorem State.setField_hbmData (s : State) (a hi lo v : Nat) : (s.setField a hi lo v).hbmData = s.hbmData := rfl
@[simp] theorem State.setField_hbmPtr (s : State) (a hi lo v : Nat) : (s.setField a hi lo v).hbmPtr = s.hbmPtr := rfl
@[simp] theorem State.setField_hbmDrain (s : State) (a hi lo v : Nat) : (s.setField a hi lo v).hbmDrain = s.hbmDrain := rfl
@[simp] theorem State.setField_hbmTrainTemp (s : State) (a hi lo v : Nat) : (s.setField a hi lo v).hbmTrainTemp = s.hbmTrainTemp := rfl
@[simp] theorem State.setField_retrainReq (s : State) (a hi lo v : Nat) : (s.setField a hi lo v).retrainReq = s.retrainReq := rfl
@[simp] theorem State.setField_retrain (s : State) (a hi lo v : Nat) : (s.setField a hi lo v).retrain = s.retrain := rfl
@[simp] theorem State.setField_laneCnt (s : State) (a hi lo v : Nat) : (s.setField a hi lo v).laneCnt = s.laneCnt := rfl
@[simp] theorem State.setField_lineRepair (s : State) (a hi lo v : Nat) : (s.setField a hi lo v).lineRepair = s.lineRepair := rfl
@[simp] theorem State.setField_nandSb (s : State) (a hi lo v : Nat) : (s.setField a hi lo v).nandSb = s.nandSb := rfl
@[simp] theorem State.setField_nandCnt (s : State) (a hi lo v : Nat) : (s.setField a hi lo v).nandCnt = s.nandCnt := rfl
@[simp] theorem State.setField_nandTemp (s : State) (a hi lo v : Nat) : (s.setField a hi lo v).nandTemp = s.nandTemp := rfl
@[simp] theorem State.setField_plArray (s : State) (a hi lo v : Nat) : (s.setField a hi lo v).plArray = s.plArray := rfl
@[simp] theorem State.setField_plEc (s : State) (a hi lo v : Nat) : (s.setField a hi lo v).plEc = s.plEc := rfl
@[simp] theorem State.setField_plMark (s : State) (a hi lo v : Nat) : (s.setField a hi lo v).plMark = s.plMark := rfl
@[simp] theorem State.setField_plBank0 (s : State) (a hi lo v : Nat) : (s.setField a hi lo v).plBank0 = s.plBank0 := rfl
@[simp] theorem State.setField_plBank1 (s : State) (a hi lo v : Nat) : (s.setField a hi lo v).plBank1 = s.plBank1 := rfl
@[simp] theorem State.setField_plPrefetch (s : State) (a hi lo v : Nat) : (s.setField a hi lo v).plPrefetch = s.plPrefetch := rfl
@[simp] theorem State.setField_plBranch (s : State) (a hi lo v : Nat) : (s.setField a hi lo v).plBranch = s.plBranch := rfl
@[simp] theorem State.setField_plLast (s : State) (a hi lo v : Nat) : (s.setField a hi lo v).plLast = s.plLast := rfl
@[simp] theorem State.setField_plRead (s : State) (a hi lo v : Nat) : (s.setField a hi lo v).plRead = s.plRead := rfl
@[simp] theorem State.setField_plFetch (s : State) (a hi lo v : Nat) : (s.setField a hi lo v).plFetch = s.plFetch := rfl
@[simp] theorem State.setField_tx (s : State) (a hi lo v : Nat) : (s.setField a hi lo v).tx = s.tx := rfl
@[simp] theorem State.setField_conn (s : State) (a hi lo v : Nat) : (s.setField a hi lo v).conn = s.conn := rfl
@[simp] theorem State.setField_rconn (s : State) (a hi lo v : Nat) : (s.setField a hi lo v).rconn = s.rconn := rfl
@[simp] theorem State.setField_rxq (s : State) (a hi lo v : Nat) : (s.setField a hi lo v).rxq = s.rxq := rfl
@[simp] theorem State.setField_rops (s : State) (a hi lo v : Nat) : (s.setField a hi lo v).rops = s.rops := rfl
@[simp] theorem State.setField_nextOpid (s : State) (a hi lo v : Nat) : (s.setField a hi lo v).nextOpid = s.nextOpid := rfl
@[simp] theorem State.setField_putFail (s : State) (a hi lo v : Nat) : (s.setField a hi lo v).putFail = s.putFail := rfl
@[simp] theorem State.setField_putOpen (s : State) (a hi lo v : Nat) : (s.setField a hi lo v).putOpen = s.putOpen := rfl
@[simp] theorem State.setField_pausedBy (s : State) (a hi lo v : Nat) : (s.setField a hi lo v).pausedBy = s.pausedBy := rfl
@[simp] theorem State.setField_pausing (s : State) (a hi lo v : Nat) : (s.setField a hi lo v).pausing = s.pausing := rfl
@[simp] theorem State.setField_groutNext (s : State) (a hi lo v : Nat) : (s.setField a hi lo v).groutNext = s.groutNext := rfl
@[simp] theorem State.setField_groutOff (s : State) (a hi lo v : Nat) : (s.setField a hi lo v).groutOff = s.groutOff := rfl
@[simp] theorem State.setField_fw (s : State) (a hi lo v : Nat) : (s.setField a hi lo v).fw = s.fw := rfl
@[simp] theorem State.setField_slotKey (s : State) (a hi lo v : Nat) : (s.setField a hi lo v).slotKey = s.slotKey := rfl
@[simp] theorem State.setField_nextKey (s : State) (a hi lo v : Nat) : (s.setField a hi lo v).nextKey = s.nextKey := rfl
@[simp] theorem State.setField_qnReq (s : State) (a hi lo v : Nat) : (s.setField a hi lo v).qnReq = s.qnReq := rfl
@[simp] theorem State.setField_qnPtr (s : State) (a hi lo v : Nat) : (s.setField a hi lo v).qnPtr = s.qnPtr := rfl
@[simp] theorem State.setField_mctpOut (s : State) (a hi lo v : Nat) : (s.setField a hi lo v).mctpOut = s.mctpOut := rfl
@[simp] theorem State.setField_mctpEid (s : State) (a hi lo v : Nat) : (s.setField a hi lo v).mctpEid = s.mctpEid := rfl
@[simp] theorem State.setField_mctpIn (s : State) (a hi lo v : Nat) : (s.setField a hi lo v).mctpIn = s.mctpIn := rfl
@[simp] theorem State.setField_dbg (s : State) (a hi lo v : Nat) : (s.setField a hi lo v).dbg = s.dbg := rfl
@[simp] theorem State.setField_dbgUsed (s : State) (a hi lo v : Nat) : (s.setField a hi lo v).dbgUsed = s.dbgUsed := rfl
@[simp] theorem State.setField_unlocking (s : State) (a hi lo v : Nat) : (s.setField a hi lo v).unlocking = s.unlocking := rfl
@[simp] theorem State.setField_session (s : State) (a hi lo v : Nat) : (s.setField a hi lo v).session = s.session := rfl
@[simp] theorem State.setField_drainTimer (s : State) (a hi lo v : Nat) : (s.setField a hi lo v).drainTimer = s.drainTimer := rfl
@[simp] theorem State.setField_flrTimer (s : State) (a hi lo v : Nat) : (s.setField a hi lo v).flrTimer = s.flrTimer := rfl
@[simp] theorem State.setField_cfgRec (s : State) (a hi lo v : Nat) : (s.setField a hi lo v).cfgRec = s.cfgRec := rfl
@[simp] theorem State.setField_recDue (s : State) (a hi lo v : Nat) : (s.setField a hi lo v).recDue = s.recDue := rfl
@[simp] theorem State.setField_pw (s : State) (a hi lo v : Nat) : (s.setField a hi lo v).pw = s.pw := rfl
@[simp] theorem State.setField_subst (s : State) (a hi lo v : Nat) : (s.setField a hi lo v).subst = s.subst := rfl
@[simp] theorem State.setField_roles (s : State) (a hi lo v : Nat) : (s.setField a hi lo v).roles = s.roles := rfl
@[simp] theorem State.setField_kcSram (s : State) (a hi lo v : Nat) : (s.setField a hi lo v).kcSram = s.kcSram := rfl
@[simp] theorem State.setField_qnSram (s : State) (a hi lo v : Nat) : (s.setField a hi lo v).qnSram = s.qnSram := rfl
@[simp] theorem State.setField_qcCache (s : State) (a hi lo v : Nat) : (s.setField a hi lo v).qcCache = s.qcCache := rfl

/-! `setBit` changes `regs` alone. -/

@[simp] theorem State.setBit_pending (s : State) (a n : Nat) (b : Bool) : (s.setBit a n b).pending = s.pending := rfl
@[simp] theorem State.setBit_timeNs (s : State) (a n : Nat) (b : Bool) : (s.setBit a n b).timeNs = s.timeNs := rfl
@[simp] theorem State.setBit_free (s : State) (a n : Nat) (b : Bool) : (s.setBit a n b).free = s.free := rfl
@[simp] theorem State.setBit_undef (s : State) (a n : Nat) (b : Bool) : (s.setBit a n b).undef = s.undef := rfl
@[simp] theorem State.setBit_pins (s : State) (a n : Nat) (b : Bool) : (s.setBit a n b).pins = s.pins := rfl
@[simp] theorem State.setBit_jtag (s : State) (a n : Nat) (b : Bool) : (s.setBit a n b).jtag = s.jtag := rfl
@[simp] theorem State.setBit_pcie (s : State) (a n : Nat) (b : Bool) : (s.setBit a n b).pcie = s.pcie := rfl
@[simp] theorem State.setBit_snap (s : State) (a n : Nat) (b : Bool) : (s.setBit a n b).snap = s.snap := rfl
@[simp] theorem State.setBit_bed (s : State) (a n : Nat) (b : Bool) : (s.setBit a n b).bed = s.bed := rfl
@[simp] theorem State.setBit_bedPoison (s : State) (a n : Nat) (b : Bool) : (s.setBit a n b).bedPoison = s.bedPoison := rfl
@[simp] theorem State.setBit_hbm (s : State) (a n : Nat) (b : Bool) : (s.setBit a n b).hbm = s.hbm := rfl
@[simp] theorem State.setBit_hbmPoison (s : State) (a n : Nat) (b : Bool) : (s.setBit a n b).hbmPoison = s.hbmPoison := rfl
@[simp] theorem State.setBit_hbmKey (s : State) (a n : Nat) (b : Bool) : (s.setBit a n b).hbmKey = s.hbmKey := rfl
@[simp] theorem State.setBit_hbmReady (s : State) (a n : Nat) (b : Bool) : (s.setBit a n b).hbmReady = s.hbmReady := rfl
@[simp] theorem State.setBit_marks (s : State) (a n : Nat) (b : Bool) : (s.setBit a n b).marks = s.marks := rfl
@[simp] theorem State.setBit_markPtr (s : State) (a n : Nat) (b : Bool) : (s.setBit a n b).markPtr = s.markPtr := rfl
@[simp] theorem State.setBit_xlat (s : State) (a n : Nat) (b : Bool) : (s.setBit a n b).xlat = s.xlat := rfl
@[simp] theorem State.setBit_wq (s : State) (a n : Nat) (b : Bool) : (s.setBit a n b).wq = s.wq := rfl
@[simp] theorem State.setBit_jq (s : State) (a n : Nat) (b : Bool) : (s.setBit a n b).jq = s.jq := rfl
@[simp] theorem State.setBit_ring (s : State) (a n : Nat) (b : Bool) : (s.setBit a n b).ring = s.ring := rfl
@[simp] theorem State.setBit_relHead (s : State) (a n : Nat) (b : Bool) : (s.setBit a n b).relHead = s.relHead := rfl
@[simp] theorem State.setBit_flights (s : State) (a n : Nat) (b : Bool) : (s.setBit a n b).flights = s.flights := rfl
@[simp] theorem State.setBit_nextFlight (s : State) (a n : Nat) (b : Bool) : (s.setBit a n b).nextFlight = s.nextFlight := rfl
@[simp] theorem State.setBit_mapOp (s : State) (a n : Nat) (b : Bool) : (s.setBit a n b).mapOp = s.mapOp := rfl
@[simp] theorem State.setBit_bedPtr (s : State) (a n : Nat) (b : Bool) : (s.setBit a n b).bedPtr = s.bedPtr := rfl
@[simp] theorem State.setBit_bedDefer (s : State) (a n : Nat) (b : Bool) : (s.setBit a n b).bedDefer = s.bedDefer := rfl
@[simp] theorem State.setBit_bankOut (s : State) (a n : Nat) (b : Bool) : (s.setBit a n b).bankOut = s.bankOut := rfl
@[simp] theorem State.setBit_spareBad (s : State) (a n : Nat) (b : Bool) : (s.setBit a n b).spareBad = s.spareBad := rfl
@[simp] theorem State.setBit_winHit (s : State) (a n : Nat) (b : Bool) : (s.setBit a n b).winHit = s.winHit := rfl
@[simp] theorem State.setBit_unit (s : State) (a n : Nat) (b : Bool) : (s.setBit a n b).unit = s.unit := rfl
@[simp] theorem State.setBit_errWin (s : State) (a n : Nat) (b : Bool) : (s.setBit a n b).errWin = s.errWin := rfl
@[simp] theorem State.setBit_resident (s : State) (a n : Nat) (b : Bool) : (s.setBit a n b).resident = s.resident := rfl
@[simp] theorem State.setBit_image (s : State) (a n : Nat) (b : Bool) : (s.setBit a n b).image = s.image := rfl
@[simp] theorem State.setBit_libVer (s : State) (a n : Nat) (b : Bool) : (s.setBit a n b).libVer = s.libVer := rfl
@[simp] theorem State.setBit_pageMap (s : State) (a n : Nat) (b : Bool) : (s.setBit a n b).pageMap = s.pageMap := rfl
@[simp] theorem State.setBit_pfx (s : State) (a n : Nat) (b : Bool) : (s.setBit a n b).pfx = s.pfx := rfl
@[simp] theorem State.setBit_tensors (s : State) (a n : Nat) (b : Bool) : (s.setBit a n b).tensors = s.tensors := rfl
@[simp] theorem State.setBit_nandBytes (s : State) (a n : Nat) (b : Bool) : (s.setBit a n b).nandBytes = s.nandBytes := rfl
@[simp] theorem State.setBit_moves (s : State) (a n : Nat) (b : Bool) : (s.setBit a n b).moves = s.moves := rfl
@[simp] theorem State.setBit_builds (s : State) (a n : Nat) (b : Bool) : (s.setBit a n b).builds = s.builds := rfl
@[simp] theorem State.setBit_sched (s : State) (a n : Nat) (b : Bool) : (s.setBit a n b).sched = s.sched := rfl
@[simp] theorem State.setBit_schedQ (s : State) (a n : Nat) (b : Bool) : (s.setBit a n b).schedQ = s.schedQ := rfl
@[simp] theorem State.setBit_hbmQ (s : State) (a n : Nat) (b : Bool) : (s.setBit a n b).hbmQ = s.hbmQ := rfl
@[simp] theorem State.setBit_hbmRow (s : State) (a n : Nat) (b : Bool) : (s.setBit a n b).hbmRow = s.hbmRow := rfl
@[simp] theorem State.setBit_hbmTrr (s : State) (a n : Nat) (b : Bool) : (s.setBit a n b).hbmTrr = s.hbmTrr := rfl
@[simp] theorem State.setBit_hbmDue (s : State) (a n : Nat) (b : Bool) : (s.setBit a n b).hbmDue = s.hbmDue := rfl
@[simp] theorem State.setBit_hbmTrrDue (s : State) (a n : Nat) (b : Bool) : (s.setBit a n b).hbmTrrDue = s.hbmTrrDue := rfl
@[simp] theorem State.setBit_hbmData (s : State) (a n : Nat) (b : Bool) : (s.setBit a n b).hbmData = s.hbmData := rfl
@[simp] theorem State.setBit_hbmPtr (s : State) (a n : Nat) (b : Bool) : (s.setBit a n b).hbmPtr = s.hbmPtr := rfl
@[simp] theorem State.setBit_hbmDrain (s : State) (a n : Nat) (b : Bool) : (s.setBit a n b).hbmDrain = s.hbmDrain := rfl
@[simp] theorem State.setBit_hbmTrainTemp (s : State) (a n : Nat) (b : Bool) : (s.setBit a n b).hbmTrainTemp = s.hbmTrainTemp := rfl
@[simp] theorem State.setBit_retrainReq (s : State) (a n : Nat) (b : Bool) : (s.setBit a n b).retrainReq = s.retrainReq := rfl
@[simp] theorem State.setBit_retrain (s : State) (a n : Nat) (b : Bool) : (s.setBit a n b).retrain = s.retrain := rfl
@[simp] theorem State.setBit_laneCnt (s : State) (a n : Nat) (b : Bool) : (s.setBit a n b).laneCnt = s.laneCnt := rfl
@[simp] theorem State.setBit_lineRepair (s : State) (a n : Nat) (b : Bool) : (s.setBit a n b).lineRepair = s.lineRepair := rfl
@[simp] theorem State.setBit_nandSb (s : State) (a n : Nat) (b : Bool) : (s.setBit a n b).nandSb = s.nandSb := rfl
@[simp] theorem State.setBit_nandCnt (s : State) (a n : Nat) (b : Bool) : (s.setBit a n b).nandCnt = s.nandCnt := rfl
@[simp] theorem State.setBit_nandTemp (s : State) (a n : Nat) (b : Bool) : (s.setBit a n b).nandTemp = s.nandTemp := rfl
@[simp] theorem State.setBit_plArray (s : State) (a n : Nat) (b : Bool) : (s.setBit a n b).plArray = s.plArray := rfl
@[simp] theorem State.setBit_plEc (s : State) (a n : Nat) (b : Bool) : (s.setBit a n b).plEc = s.plEc := rfl
@[simp] theorem State.setBit_plMark (s : State) (a n : Nat) (b : Bool) : (s.setBit a n b).plMark = s.plMark := rfl
@[simp] theorem State.setBit_plBank0 (s : State) (a n : Nat) (b : Bool) : (s.setBit a n b).plBank0 = s.plBank0 := rfl
@[simp] theorem State.setBit_plBank1 (s : State) (a n : Nat) (b : Bool) : (s.setBit a n b).plBank1 = s.plBank1 := rfl
@[simp] theorem State.setBit_plPrefetch (s : State) (a n : Nat) (b : Bool) : (s.setBit a n b).plPrefetch = s.plPrefetch := rfl
@[simp] theorem State.setBit_plBranch (s : State) (a n : Nat) (b : Bool) : (s.setBit a n b).plBranch = s.plBranch := rfl
@[simp] theorem State.setBit_plLast (s : State) (a n : Nat) (b : Bool) : (s.setBit a n b).plLast = s.plLast := rfl
@[simp] theorem State.setBit_plRead (s : State) (a n : Nat) (b : Bool) : (s.setBit a n b).plRead = s.plRead := rfl
@[simp] theorem State.setBit_plFetch (s : State) (a n : Nat) (b : Bool) : (s.setBit a n b).plFetch = s.plFetch := rfl
@[simp] theorem State.setBit_tx (s : State) (a n : Nat) (b : Bool) : (s.setBit a n b).tx = s.tx := rfl
@[simp] theorem State.setBit_conn (s : State) (a n : Nat) (b : Bool) : (s.setBit a n b).conn = s.conn := rfl
@[simp] theorem State.setBit_rconn (s : State) (a n : Nat) (b : Bool) : (s.setBit a n b).rconn = s.rconn := rfl
@[simp] theorem State.setBit_rxq (s : State) (a n : Nat) (b : Bool) : (s.setBit a n b).rxq = s.rxq := rfl
@[simp] theorem State.setBit_rops (s : State) (a n : Nat) (b : Bool) : (s.setBit a n b).rops = s.rops := rfl
@[simp] theorem State.setBit_nextOpid (s : State) (a n : Nat) (b : Bool) : (s.setBit a n b).nextOpid = s.nextOpid := rfl
@[simp] theorem State.setBit_putFail (s : State) (a n : Nat) (b : Bool) : (s.setBit a n b).putFail = s.putFail := rfl
@[simp] theorem State.setBit_putOpen (s : State) (a n : Nat) (b : Bool) : (s.setBit a n b).putOpen = s.putOpen := rfl
@[simp] theorem State.setBit_pausedBy (s : State) (a n : Nat) (b : Bool) : (s.setBit a n b).pausedBy = s.pausedBy := rfl
@[simp] theorem State.setBit_pausing (s : State) (a n : Nat) (b : Bool) : (s.setBit a n b).pausing = s.pausing := rfl
@[simp] theorem State.setBit_groutNext (s : State) (a n : Nat) (b : Bool) : (s.setBit a n b).groutNext = s.groutNext := rfl
@[simp] theorem State.setBit_groutOff (s : State) (a n : Nat) (b : Bool) : (s.setBit a n b).groutOff = s.groutOff := rfl
@[simp] theorem State.setBit_fw (s : State) (a n : Nat) (b : Bool) : (s.setBit a n b).fw = s.fw := rfl
@[simp] theorem State.setBit_slotKey (s : State) (a n : Nat) (b : Bool) : (s.setBit a n b).slotKey = s.slotKey := rfl
@[simp] theorem State.setBit_nextKey (s : State) (a n : Nat) (b : Bool) : (s.setBit a n b).nextKey = s.nextKey := rfl
@[simp] theorem State.setBit_qnReq (s : State) (a n : Nat) (b : Bool) : (s.setBit a n b).qnReq = s.qnReq := rfl
@[simp] theorem State.setBit_qnPtr (s : State) (a n : Nat) (b : Bool) : (s.setBit a n b).qnPtr = s.qnPtr := rfl
@[simp] theorem State.setBit_mctpOut (s : State) (a n : Nat) (b : Bool) : (s.setBit a n b).mctpOut = s.mctpOut := rfl
@[simp] theorem State.setBit_mctpEid (s : State) (a n : Nat) (b : Bool) : (s.setBit a n b).mctpEid = s.mctpEid := rfl
@[simp] theorem State.setBit_mctpIn (s : State) (a n : Nat) (b : Bool) : (s.setBit a n b).mctpIn = s.mctpIn := rfl
@[simp] theorem State.setBit_dbg (s : State) (a n : Nat) (b : Bool) : (s.setBit a n b).dbg = s.dbg := rfl
@[simp] theorem State.setBit_dbgUsed (s : State) (a n : Nat) (b : Bool) : (s.setBit a n b).dbgUsed = s.dbgUsed := rfl
@[simp] theorem State.setBit_unlocking (s : State) (a n : Nat) (b : Bool) : (s.setBit a n b).unlocking = s.unlocking := rfl
@[simp] theorem State.setBit_session (s : State) (a n : Nat) (b : Bool) : (s.setBit a n b).session = s.session := rfl
@[simp] theorem State.setBit_drainTimer (s : State) (a n : Nat) (b : Bool) : (s.setBit a n b).drainTimer = s.drainTimer := rfl
@[simp] theorem State.setBit_flrTimer (s : State) (a n : Nat) (b : Bool) : (s.setBit a n b).flrTimer = s.flrTimer := rfl
@[simp] theorem State.setBit_cfgRec (s : State) (a n : Nat) (b : Bool) : (s.setBit a n b).cfgRec = s.cfgRec := rfl
@[simp] theorem State.setBit_recDue (s : State) (a n : Nat) (b : Bool) : (s.setBit a n b).recDue = s.recDue := rfl
@[simp] theorem State.setBit_pw (s : State) (a n : Nat) (b : Bool) : (s.setBit a n b).pw = s.pw := rfl
@[simp] theorem State.setBit_subst (s : State) (a n : Nat) (b : Bool) : (s.setBit a n b).subst = s.subst := rfl
@[simp] theorem State.setBit_roles (s : State) (a n : Nat) (b : Bool) : (s.setBit a n b).roles = s.roles := rfl
@[simp] theorem State.setBit_kcSram (s : State) (a n : Nat) (b : Bool) : (s.setBit a n b).kcSram = s.kcSram := rfl
@[simp] theorem State.setBit_qnSram (s : State) (a n : Nat) (b : Bool) : (s.setBit a n b).qnSram = s.qnSram := rfl
@[simp] theorem State.setBit_qcCache (s : State) (a n : Nat) (b : Bool) : (s.setBit a n b).qcCache = s.qcCache := rfl

/-! `count` changes `regs` alone. -/

@[simp] theorem State.count_pending (s : State) (a n : Nat) : (s.count a n).pending = s.pending := rfl
@[simp] theorem State.count_timeNs (s : State) (a n : Nat) : (s.count a n).timeNs = s.timeNs := rfl
@[simp] theorem State.count_free (s : State) (a n : Nat) : (s.count a n).free = s.free := rfl
@[simp] theorem State.count_undef (s : State) (a n : Nat) : (s.count a n).undef = s.undef := rfl
@[simp] theorem State.count_pins (s : State) (a n : Nat) : (s.count a n).pins = s.pins := rfl
@[simp] theorem State.count_jtag (s : State) (a n : Nat) : (s.count a n).jtag = s.jtag := rfl
@[simp] theorem State.count_pcie (s : State) (a n : Nat) : (s.count a n).pcie = s.pcie := rfl
@[simp] theorem State.count_snap (s : State) (a n : Nat) : (s.count a n).snap = s.snap := rfl
@[simp] theorem State.count_bed (s : State) (a n : Nat) : (s.count a n).bed = s.bed := rfl
@[simp] theorem State.count_bedPoison (s : State) (a n : Nat) : (s.count a n).bedPoison = s.bedPoison := rfl
@[simp] theorem State.count_hbm (s : State) (a n : Nat) : (s.count a n).hbm = s.hbm := rfl
@[simp] theorem State.count_hbmPoison (s : State) (a n : Nat) : (s.count a n).hbmPoison = s.hbmPoison := rfl
@[simp] theorem State.count_hbmKey (s : State) (a n : Nat) : (s.count a n).hbmKey = s.hbmKey := rfl
@[simp] theorem State.count_hbmReady (s : State) (a n : Nat) : (s.count a n).hbmReady = s.hbmReady := rfl
@[simp] theorem State.count_marks (s : State) (a n : Nat) : (s.count a n).marks = s.marks := rfl
@[simp] theorem State.count_markPtr (s : State) (a n : Nat) : (s.count a n).markPtr = s.markPtr := rfl
@[simp] theorem State.count_xlat (s : State) (a n : Nat) : (s.count a n).xlat = s.xlat := rfl
@[simp] theorem State.count_wq (s : State) (a n : Nat) : (s.count a n).wq = s.wq := rfl
@[simp] theorem State.count_jq (s : State) (a n : Nat) : (s.count a n).jq = s.jq := rfl
@[simp] theorem State.count_ring (s : State) (a n : Nat) : (s.count a n).ring = s.ring := rfl
@[simp] theorem State.count_relHead (s : State) (a n : Nat) : (s.count a n).relHead = s.relHead := rfl
@[simp] theorem State.count_flights (s : State) (a n : Nat) : (s.count a n).flights = s.flights := rfl
@[simp] theorem State.count_nextFlight (s : State) (a n : Nat) : (s.count a n).nextFlight = s.nextFlight := rfl
@[simp] theorem State.count_mapOp (s : State) (a n : Nat) : (s.count a n).mapOp = s.mapOp := rfl
@[simp] theorem State.count_bedPtr (s : State) (a n : Nat) : (s.count a n).bedPtr = s.bedPtr := rfl
@[simp] theorem State.count_bedDefer (s : State) (a n : Nat) : (s.count a n).bedDefer = s.bedDefer := rfl
@[simp] theorem State.count_bankOut (s : State) (a n : Nat) : (s.count a n).bankOut = s.bankOut := rfl
@[simp] theorem State.count_spareBad (s : State) (a n : Nat) : (s.count a n).spareBad = s.spareBad := rfl
@[simp] theorem State.count_winHit (s : State) (a n : Nat) : (s.count a n).winHit = s.winHit := rfl
@[simp] theorem State.count_unit (s : State) (a n : Nat) : (s.count a n).unit = s.unit := rfl
@[simp] theorem State.count_errWin (s : State) (a n : Nat) : (s.count a n).errWin = s.errWin := rfl
@[simp] theorem State.count_resident (s : State) (a n : Nat) : (s.count a n).resident = s.resident := rfl
@[simp] theorem State.count_image (s : State) (a n : Nat) : (s.count a n).image = s.image := rfl
@[simp] theorem State.count_libVer (s : State) (a n : Nat) : (s.count a n).libVer = s.libVer := rfl
@[simp] theorem State.count_pageMap (s : State) (a n : Nat) : (s.count a n).pageMap = s.pageMap := rfl
@[simp] theorem State.count_pfx (s : State) (a n : Nat) : (s.count a n).pfx = s.pfx := rfl
@[simp] theorem State.count_tensors (s : State) (a n : Nat) : (s.count a n).tensors = s.tensors := rfl
@[simp] theorem State.count_nandBytes (s : State) (a n : Nat) : (s.count a n).nandBytes = s.nandBytes := rfl
@[simp] theorem State.count_moves (s : State) (a n : Nat) : (s.count a n).moves = s.moves := rfl
@[simp] theorem State.count_builds (s : State) (a n : Nat) : (s.count a n).builds = s.builds := rfl
@[simp] theorem State.count_sched (s : State) (a n : Nat) : (s.count a n).sched = s.sched := rfl
@[simp] theorem State.count_schedQ (s : State) (a n : Nat) : (s.count a n).schedQ = s.schedQ := rfl
@[simp] theorem State.count_hbmQ (s : State) (a n : Nat) : (s.count a n).hbmQ = s.hbmQ := rfl
@[simp] theorem State.count_hbmRow (s : State) (a n : Nat) : (s.count a n).hbmRow = s.hbmRow := rfl
@[simp] theorem State.count_hbmTrr (s : State) (a n : Nat) : (s.count a n).hbmTrr = s.hbmTrr := rfl
@[simp] theorem State.count_hbmDue (s : State) (a n : Nat) : (s.count a n).hbmDue = s.hbmDue := rfl
@[simp] theorem State.count_hbmTrrDue (s : State) (a n : Nat) : (s.count a n).hbmTrrDue = s.hbmTrrDue := rfl
@[simp] theorem State.count_hbmData (s : State) (a n : Nat) : (s.count a n).hbmData = s.hbmData := rfl
@[simp] theorem State.count_hbmPtr (s : State) (a n : Nat) : (s.count a n).hbmPtr = s.hbmPtr := rfl
@[simp] theorem State.count_hbmDrain (s : State) (a n : Nat) : (s.count a n).hbmDrain = s.hbmDrain := rfl
@[simp] theorem State.count_hbmTrainTemp (s : State) (a n : Nat) : (s.count a n).hbmTrainTemp = s.hbmTrainTemp := rfl
@[simp] theorem State.count_retrainReq (s : State) (a n : Nat) : (s.count a n).retrainReq = s.retrainReq := rfl
@[simp] theorem State.count_retrain (s : State) (a n : Nat) : (s.count a n).retrain = s.retrain := rfl
@[simp] theorem State.count_laneCnt (s : State) (a n : Nat) : (s.count a n).laneCnt = s.laneCnt := rfl
@[simp] theorem State.count_lineRepair (s : State) (a n : Nat) : (s.count a n).lineRepair = s.lineRepair := rfl
@[simp] theorem State.count_nandSb (s : State) (a n : Nat) : (s.count a n).nandSb = s.nandSb := rfl
@[simp] theorem State.count_nandCnt (s : State) (a n : Nat) : (s.count a n).nandCnt = s.nandCnt := rfl
@[simp] theorem State.count_nandTemp (s : State) (a n : Nat) : (s.count a n).nandTemp = s.nandTemp := rfl
@[simp] theorem State.count_plArray (s : State) (a n : Nat) : (s.count a n).plArray = s.plArray := rfl
@[simp] theorem State.count_plEc (s : State) (a n : Nat) : (s.count a n).plEc = s.plEc := rfl
@[simp] theorem State.count_plMark (s : State) (a n : Nat) : (s.count a n).plMark = s.plMark := rfl
@[simp] theorem State.count_plBank0 (s : State) (a n : Nat) : (s.count a n).plBank0 = s.plBank0 := rfl
@[simp] theorem State.count_plBank1 (s : State) (a n : Nat) : (s.count a n).plBank1 = s.plBank1 := rfl
@[simp] theorem State.count_plPrefetch (s : State) (a n : Nat) : (s.count a n).plPrefetch = s.plPrefetch := rfl
@[simp] theorem State.count_plBranch (s : State) (a n : Nat) : (s.count a n).plBranch = s.plBranch := rfl
@[simp] theorem State.count_plLast (s : State) (a n : Nat) : (s.count a n).plLast = s.plLast := rfl
@[simp] theorem State.count_plRead (s : State) (a n : Nat) : (s.count a n).plRead = s.plRead := rfl
@[simp] theorem State.count_plFetch (s : State) (a n : Nat) : (s.count a n).plFetch = s.plFetch := rfl
@[simp] theorem State.count_tx (s : State) (a n : Nat) : (s.count a n).tx = s.tx := rfl
@[simp] theorem State.count_conn (s : State) (a n : Nat) : (s.count a n).conn = s.conn := rfl
@[simp] theorem State.count_rconn (s : State) (a n : Nat) : (s.count a n).rconn = s.rconn := rfl
@[simp] theorem State.count_rxq (s : State) (a n : Nat) : (s.count a n).rxq = s.rxq := rfl
@[simp] theorem State.count_rops (s : State) (a n : Nat) : (s.count a n).rops = s.rops := rfl
@[simp] theorem State.count_nextOpid (s : State) (a n : Nat) : (s.count a n).nextOpid = s.nextOpid := rfl
@[simp] theorem State.count_putFail (s : State) (a n : Nat) : (s.count a n).putFail = s.putFail := rfl
@[simp] theorem State.count_putOpen (s : State) (a n : Nat) : (s.count a n).putOpen = s.putOpen := rfl
@[simp] theorem State.count_pausedBy (s : State) (a n : Nat) : (s.count a n).pausedBy = s.pausedBy := rfl
@[simp] theorem State.count_pausing (s : State) (a n : Nat) : (s.count a n).pausing = s.pausing := rfl
@[simp] theorem State.count_groutNext (s : State) (a n : Nat) : (s.count a n).groutNext = s.groutNext := rfl
@[simp] theorem State.count_groutOff (s : State) (a n : Nat) : (s.count a n).groutOff = s.groutOff := rfl
@[simp] theorem State.count_fw (s : State) (a n : Nat) : (s.count a n).fw = s.fw := rfl
@[simp] theorem State.count_slotKey (s : State) (a n : Nat) : (s.count a n).slotKey = s.slotKey := rfl
@[simp] theorem State.count_nextKey (s : State) (a n : Nat) : (s.count a n).nextKey = s.nextKey := rfl
@[simp] theorem State.count_qnReq (s : State) (a n : Nat) : (s.count a n).qnReq = s.qnReq := rfl
@[simp] theorem State.count_qnPtr (s : State) (a n : Nat) : (s.count a n).qnPtr = s.qnPtr := rfl
@[simp] theorem State.count_mctpOut (s : State) (a n : Nat) : (s.count a n).mctpOut = s.mctpOut := rfl
@[simp] theorem State.count_mctpEid (s : State) (a n : Nat) : (s.count a n).mctpEid = s.mctpEid := rfl
@[simp] theorem State.count_mctpIn (s : State) (a n : Nat) : (s.count a n).mctpIn = s.mctpIn := rfl
@[simp] theorem State.count_dbg (s : State) (a n : Nat) : (s.count a n).dbg = s.dbg := rfl
@[simp] theorem State.count_dbgUsed (s : State) (a n : Nat) : (s.count a n).dbgUsed = s.dbgUsed := rfl
@[simp] theorem State.count_unlocking (s : State) (a n : Nat) : (s.count a n).unlocking = s.unlocking := rfl
@[simp] theorem State.count_session (s : State) (a n : Nat) : (s.count a n).session = s.session := rfl
@[simp] theorem State.count_drainTimer (s : State) (a n : Nat) : (s.count a n).drainTimer = s.drainTimer := rfl
@[simp] theorem State.count_flrTimer (s : State) (a n : Nat) : (s.count a n).flrTimer = s.flrTimer := rfl
@[simp] theorem State.count_cfgRec (s : State) (a n : Nat) : (s.count a n).cfgRec = s.cfgRec := rfl
@[simp] theorem State.count_recDue (s : State) (a n : Nat) : (s.count a n).recDue = s.recDue := rfl
@[simp] theorem State.count_pw (s : State) (a n : Nat) : (s.count a n).pw = s.pw := rfl
@[simp] theorem State.count_subst (s : State) (a n : Nat) : (s.count a n).subst = s.subst := rfl
@[simp] theorem State.count_roles (s : State) (a n : Nat) : (s.count a n).roles = s.roles := rfl
@[simp] theorem State.count_kcSram (s : State) (a n : Nat) : (s.count a n).kcSram = s.kcSram := rfl
@[simp] theorem State.count_qnSram (s : State) (a n : Nat) : (s.count a n).qnSram = s.qnSram := rfl
@[simp] theorem State.count_qcCache (s : State) (a n : Nat) : (s.count a n).qcCache = s.qcCache := rfl

/-! `tick` changes `free` alone. -/

@[simp] theorem State.tick_pending (s : State) : (s.tick).pending = s.pending := rfl
@[simp] theorem State.tick_timeNs (s : State) : (s.tick).timeNs = s.timeNs := rfl
@[simp] theorem State.tick_undef (s : State) : (s.tick).undef = s.undef := rfl
@[simp] theorem State.tick_pins (s : State) : (s.tick).pins = s.pins := rfl
@[simp] theorem State.tick_jtag (s : State) : (s.tick).jtag = s.jtag := rfl
@[simp] theorem State.tick_pcie (s : State) : (s.tick).pcie = s.pcie := rfl
@[simp] theorem State.tick_regs (s : State) : (s.tick).regs = s.regs := rfl
@[simp] theorem State.tick_snap (s : State) : (s.tick).snap = s.snap := rfl
@[simp] theorem State.tick_bed (s : State) : (s.tick).bed = s.bed := rfl
@[simp] theorem State.tick_bedPoison (s : State) : (s.tick).bedPoison = s.bedPoison := rfl
@[simp] theorem State.tick_hbm (s : State) : (s.tick).hbm = s.hbm := rfl
@[simp] theorem State.tick_hbmPoison (s : State) : (s.tick).hbmPoison = s.hbmPoison := rfl
@[simp] theorem State.tick_hbmKey (s : State) : (s.tick).hbmKey = s.hbmKey := rfl
@[simp] theorem State.tick_hbmReady (s : State) : (s.tick).hbmReady = s.hbmReady := rfl
@[simp] theorem State.tick_marks (s : State) : (s.tick).marks = s.marks := rfl
@[simp] theorem State.tick_markPtr (s : State) : (s.tick).markPtr = s.markPtr := rfl
@[simp] theorem State.tick_xlat (s : State) : (s.tick).xlat = s.xlat := rfl
@[simp] theorem State.tick_wq (s : State) : (s.tick).wq = s.wq := rfl
@[simp] theorem State.tick_jq (s : State) : (s.tick).jq = s.jq := rfl
@[simp] theorem State.tick_ring (s : State) : (s.tick).ring = s.ring := rfl
@[simp] theorem State.tick_relHead (s : State) : (s.tick).relHead = s.relHead := rfl
@[simp] theorem State.tick_flights (s : State) : (s.tick).flights = s.flights := rfl
@[simp] theorem State.tick_nextFlight (s : State) : (s.tick).nextFlight = s.nextFlight := rfl
@[simp] theorem State.tick_mapOp (s : State) : (s.tick).mapOp = s.mapOp := rfl
@[simp] theorem State.tick_bedPtr (s : State) : (s.tick).bedPtr = s.bedPtr := rfl
@[simp] theorem State.tick_bedDefer (s : State) : (s.tick).bedDefer = s.bedDefer := rfl
@[simp] theorem State.tick_bankOut (s : State) : (s.tick).bankOut = s.bankOut := rfl
@[simp] theorem State.tick_spareBad (s : State) : (s.tick).spareBad = s.spareBad := rfl
@[simp] theorem State.tick_winHit (s : State) : (s.tick).winHit = s.winHit := rfl
@[simp] theorem State.tick_unit (s : State) : (s.tick).unit = s.unit := rfl
@[simp] theorem State.tick_errWin (s : State) : (s.tick).errWin = s.errWin := rfl
@[simp] theorem State.tick_resident (s : State) : (s.tick).resident = s.resident := rfl
@[simp] theorem State.tick_image (s : State) : (s.tick).image = s.image := rfl
@[simp] theorem State.tick_libVer (s : State) : (s.tick).libVer = s.libVer := rfl
@[simp] theorem State.tick_pageMap (s : State) : (s.tick).pageMap = s.pageMap := rfl
@[simp] theorem State.tick_pfx (s : State) : (s.tick).pfx = s.pfx := rfl
@[simp] theorem State.tick_tensors (s : State) : (s.tick).tensors = s.tensors := rfl
@[simp] theorem State.tick_nandBytes (s : State) : (s.tick).nandBytes = s.nandBytes := rfl
@[simp] theorem State.tick_moves (s : State) : (s.tick).moves = s.moves := rfl
@[simp] theorem State.tick_builds (s : State) : (s.tick).builds = s.builds := rfl
@[simp] theorem State.tick_sched (s : State) : (s.tick).sched = s.sched := rfl
@[simp] theorem State.tick_schedQ (s : State) : (s.tick).schedQ = s.schedQ := rfl
@[simp] theorem State.tick_hbmQ (s : State) : (s.tick).hbmQ = s.hbmQ := rfl
@[simp] theorem State.tick_hbmRow (s : State) : (s.tick).hbmRow = s.hbmRow := rfl
@[simp] theorem State.tick_hbmTrr (s : State) : (s.tick).hbmTrr = s.hbmTrr := rfl
@[simp] theorem State.tick_hbmDue (s : State) : (s.tick).hbmDue = s.hbmDue := rfl
@[simp] theorem State.tick_hbmTrrDue (s : State) : (s.tick).hbmTrrDue = s.hbmTrrDue := rfl
@[simp] theorem State.tick_hbmData (s : State) : (s.tick).hbmData = s.hbmData := rfl
@[simp] theorem State.tick_hbmPtr (s : State) : (s.tick).hbmPtr = s.hbmPtr := rfl
@[simp] theorem State.tick_hbmDrain (s : State) : (s.tick).hbmDrain = s.hbmDrain := rfl
@[simp] theorem State.tick_hbmTrainTemp (s : State) : (s.tick).hbmTrainTemp = s.hbmTrainTemp := rfl
@[simp] theorem State.tick_retrainReq (s : State) : (s.tick).retrainReq = s.retrainReq := rfl
@[simp] theorem State.tick_retrain (s : State) : (s.tick).retrain = s.retrain := rfl
@[simp] theorem State.tick_laneCnt (s : State) : (s.tick).laneCnt = s.laneCnt := rfl
@[simp] theorem State.tick_lineRepair (s : State) : (s.tick).lineRepair = s.lineRepair := rfl
@[simp] theorem State.tick_nandSb (s : State) : (s.tick).nandSb = s.nandSb := rfl
@[simp] theorem State.tick_nandCnt (s : State) : (s.tick).nandCnt = s.nandCnt := rfl
@[simp] theorem State.tick_nandTemp (s : State) : (s.tick).nandTemp = s.nandTemp := rfl
@[simp] theorem State.tick_plArray (s : State) : (s.tick).plArray = s.plArray := rfl
@[simp] theorem State.tick_plEc (s : State) : (s.tick).plEc = s.plEc := rfl
@[simp] theorem State.tick_plMark (s : State) : (s.tick).plMark = s.plMark := rfl
@[simp] theorem State.tick_plBank0 (s : State) : (s.tick).plBank0 = s.plBank0 := rfl
@[simp] theorem State.tick_plBank1 (s : State) : (s.tick).plBank1 = s.plBank1 := rfl
@[simp] theorem State.tick_plPrefetch (s : State) : (s.tick).plPrefetch = s.plPrefetch := rfl
@[simp] theorem State.tick_plBranch (s : State) : (s.tick).plBranch = s.plBranch := rfl
@[simp] theorem State.tick_plLast (s : State) : (s.tick).plLast = s.plLast := rfl
@[simp] theorem State.tick_plRead (s : State) : (s.tick).plRead = s.plRead := rfl
@[simp] theorem State.tick_plFetch (s : State) : (s.tick).plFetch = s.plFetch := rfl
@[simp] theorem State.tick_tx (s : State) : (s.tick).tx = s.tx := rfl
@[simp] theorem State.tick_conn (s : State) : (s.tick).conn = s.conn := rfl
@[simp] theorem State.tick_rconn (s : State) : (s.tick).rconn = s.rconn := rfl
@[simp] theorem State.tick_rxq (s : State) : (s.tick).rxq = s.rxq := rfl
@[simp] theorem State.tick_rops (s : State) : (s.tick).rops = s.rops := rfl
@[simp] theorem State.tick_nextOpid (s : State) : (s.tick).nextOpid = s.nextOpid := rfl
@[simp] theorem State.tick_putFail (s : State) : (s.tick).putFail = s.putFail := rfl
@[simp] theorem State.tick_putOpen (s : State) : (s.tick).putOpen = s.putOpen := rfl
@[simp] theorem State.tick_pausedBy (s : State) : (s.tick).pausedBy = s.pausedBy := rfl
@[simp] theorem State.tick_pausing (s : State) : (s.tick).pausing = s.pausing := rfl
@[simp] theorem State.tick_groutNext (s : State) : (s.tick).groutNext = s.groutNext := rfl
@[simp] theorem State.tick_groutOff (s : State) : (s.tick).groutOff = s.groutOff := rfl
@[simp] theorem State.tick_fw (s : State) : (s.tick).fw = s.fw := rfl
@[simp] theorem State.tick_slotKey (s : State) : (s.tick).slotKey = s.slotKey := rfl
@[simp] theorem State.tick_nextKey (s : State) : (s.tick).nextKey = s.nextKey := rfl
@[simp] theorem State.tick_qnReq (s : State) : (s.tick).qnReq = s.qnReq := rfl
@[simp] theorem State.tick_qnPtr (s : State) : (s.tick).qnPtr = s.qnPtr := rfl
@[simp] theorem State.tick_mctpOut (s : State) : (s.tick).mctpOut = s.mctpOut := rfl
@[simp] theorem State.tick_mctpEid (s : State) : (s.tick).mctpEid = s.mctpEid := rfl
@[simp] theorem State.tick_mctpIn (s : State) : (s.tick).mctpIn = s.mctpIn := rfl
@[simp] theorem State.tick_dbg (s : State) : (s.tick).dbg = s.dbg := rfl
@[simp] theorem State.tick_dbgUsed (s : State) : (s.tick).dbgUsed = s.dbgUsed := rfl
@[simp] theorem State.tick_unlocking (s : State) : (s.tick).unlocking = s.unlocking := rfl
@[simp] theorem State.tick_session (s : State) : (s.tick).session = s.session := rfl
@[simp] theorem State.tick_drainTimer (s : State) : (s.tick).drainTimer = s.drainTimer := rfl
@[simp] theorem State.tick_flrTimer (s : State) : (s.tick).flrTimer = s.flrTimer := rfl
@[simp] theorem State.tick_cfgRec (s : State) : (s.tick).cfgRec = s.cfgRec := rfl
@[simp] theorem State.tick_recDue (s : State) : (s.tick).recDue = s.recDue := rfl
@[simp] theorem State.tick_pw (s : State) : (s.tick).pw = s.pw := rfl
@[simp] theorem State.tick_subst (s : State) : (s.tick).subst = s.subst := rfl
@[simp] theorem State.tick_roles (s : State) : (s.tick).roles = s.roles := rfl
@[simp] theorem State.tick_kcSram (s : State) : (s.tick).kcSram = s.kcSram := rfl
@[simp] theorem State.tick_qnSram (s : State) : (s.tick).qnSram = s.qnSram := rfl
@[simp] theorem State.tick_qcCache (s : State) : (s.tick).qcCache = s.qcCache := rfl

/-! `setMark` changes `marks` and `relHead` alone. -/

@[simp] theorem State.setMark_pending (s : State) (n : Nat) (v : DWord) : (s.setMark n v).pending = s.pending := rfl
@[simp] theorem State.setMark_timeNs (s : State) (n : Nat) (v : DWord) : (s.setMark n v).timeNs = s.timeNs := rfl
@[simp] theorem State.setMark_free (s : State) (n : Nat) (v : DWord) : (s.setMark n v).free = s.free := rfl
@[simp] theorem State.setMark_undef (s : State) (n : Nat) (v : DWord) : (s.setMark n v).undef = s.undef := rfl
@[simp] theorem State.setMark_pins (s : State) (n : Nat) (v : DWord) : (s.setMark n v).pins = s.pins := rfl
@[simp] theorem State.setMark_jtag (s : State) (n : Nat) (v : DWord) : (s.setMark n v).jtag = s.jtag := rfl
@[simp] theorem State.setMark_pcie (s : State) (n : Nat) (v : DWord) : (s.setMark n v).pcie = s.pcie := rfl
@[simp] theorem State.setMark_regs (s : State) (n : Nat) (v : DWord) : (s.setMark n v).regs = s.regs := rfl
@[simp] theorem State.setMark_snap (s : State) (n : Nat) (v : DWord) : (s.setMark n v).snap = s.snap := rfl
@[simp] theorem State.setMark_bed (s : State) (n : Nat) (v : DWord) : (s.setMark n v).bed = s.bed := rfl
@[simp] theorem State.setMark_bedPoison (s : State) (n : Nat) (v : DWord) : (s.setMark n v).bedPoison = s.bedPoison := rfl
@[simp] theorem State.setMark_hbm (s : State) (n : Nat) (v : DWord) : (s.setMark n v).hbm = s.hbm := rfl
@[simp] theorem State.setMark_hbmPoison (s : State) (n : Nat) (v : DWord) : (s.setMark n v).hbmPoison = s.hbmPoison := rfl
@[simp] theorem State.setMark_hbmKey (s : State) (n : Nat) (v : DWord) : (s.setMark n v).hbmKey = s.hbmKey := rfl
@[simp] theorem State.setMark_hbmReady (s : State) (n : Nat) (v : DWord) : (s.setMark n v).hbmReady = s.hbmReady := rfl
@[simp] theorem State.setMark_markPtr (s : State) (n : Nat) (v : DWord) : (s.setMark n v).markPtr = s.markPtr := rfl
@[simp] theorem State.setMark_xlat (s : State) (n : Nat) (v : DWord) : (s.setMark n v).xlat = s.xlat := rfl
@[simp] theorem State.setMark_wq (s : State) (n : Nat) (v : DWord) : (s.setMark n v).wq = s.wq := rfl
@[simp] theorem State.setMark_jq (s : State) (n : Nat) (v : DWord) : (s.setMark n v).jq = s.jq := rfl
@[simp] theorem State.setMark_ring (s : State) (n : Nat) (v : DWord) : (s.setMark n v).ring = s.ring := rfl
@[simp] theorem State.setMark_flights (s : State) (n : Nat) (v : DWord) : (s.setMark n v).flights = s.flights := rfl
@[simp] theorem State.setMark_nextFlight (s : State) (n : Nat) (v : DWord) : (s.setMark n v).nextFlight = s.nextFlight := rfl
@[simp] theorem State.setMark_mapOp (s : State) (n : Nat) (v : DWord) : (s.setMark n v).mapOp = s.mapOp := rfl
@[simp] theorem State.setMark_bedPtr (s : State) (n : Nat) (v : DWord) : (s.setMark n v).bedPtr = s.bedPtr := rfl
@[simp] theorem State.setMark_bedDefer (s : State) (n : Nat) (v : DWord) : (s.setMark n v).bedDefer = s.bedDefer := rfl
@[simp] theorem State.setMark_bankOut (s : State) (n : Nat) (v : DWord) : (s.setMark n v).bankOut = s.bankOut := rfl
@[simp] theorem State.setMark_spareBad (s : State) (n : Nat) (v : DWord) : (s.setMark n v).spareBad = s.spareBad := rfl
@[simp] theorem State.setMark_winHit (s : State) (n : Nat) (v : DWord) : (s.setMark n v).winHit = s.winHit := rfl
@[simp] theorem State.setMark_unit (s : State) (n : Nat) (v : DWord) : (s.setMark n v).unit = s.unit := rfl
@[simp] theorem State.setMark_errWin (s : State) (n : Nat) (v : DWord) : (s.setMark n v).errWin = s.errWin := rfl
@[simp] theorem State.setMark_resident (s : State) (n : Nat) (v : DWord) : (s.setMark n v).resident = s.resident := rfl
@[simp] theorem State.setMark_image (s : State) (n : Nat) (v : DWord) : (s.setMark n v).image = s.image := rfl
@[simp] theorem State.setMark_libVer (s : State) (n : Nat) (v : DWord) : (s.setMark n v).libVer = s.libVer := rfl
@[simp] theorem State.setMark_pageMap (s : State) (n : Nat) (v : DWord) : (s.setMark n v).pageMap = s.pageMap := rfl
@[simp] theorem State.setMark_pfx (s : State) (n : Nat) (v : DWord) : (s.setMark n v).pfx = s.pfx := rfl
@[simp] theorem State.setMark_tensors (s : State) (n : Nat) (v : DWord) : (s.setMark n v).tensors = s.tensors := rfl
@[simp] theorem State.setMark_nandBytes (s : State) (n : Nat) (v : DWord) : (s.setMark n v).nandBytes = s.nandBytes := rfl
@[simp] theorem State.setMark_moves (s : State) (n : Nat) (v : DWord) : (s.setMark n v).moves = s.moves := rfl
@[simp] theorem State.setMark_builds (s : State) (n : Nat) (v : DWord) : (s.setMark n v).builds = s.builds := rfl
@[simp] theorem State.setMark_sched (s : State) (n : Nat) (v : DWord) : (s.setMark n v).sched = s.sched := rfl
@[simp] theorem State.setMark_schedQ (s : State) (n : Nat) (v : DWord) : (s.setMark n v).schedQ = s.schedQ := rfl
@[simp] theorem State.setMark_hbmQ (s : State) (n : Nat) (v : DWord) : (s.setMark n v).hbmQ = s.hbmQ := rfl
@[simp] theorem State.setMark_hbmRow (s : State) (n : Nat) (v : DWord) : (s.setMark n v).hbmRow = s.hbmRow := rfl
@[simp] theorem State.setMark_hbmTrr (s : State) (n : Nat) (v : DWord) : (s.setMark n v).hbmTrr = s.hbmTrr := rfl
@[simp] theorem State.setMark_hbmDue (s : State) (n : Nat) (v : DWord) : (s.setMark n v).hbmDue = s.hbmDue := rfl
@[simp] theorem State.setMark_hbmTrrDue (s : State) (n : Nat) (v : DWord) : (s.setMark n v).hbmTrrDue = s.hbmTrrDue := rfl
@[simp] theorem State.setMark_hbmData (s : State) (n : Nat) (v : DWord) : (s.setMark n v).hbmData = s.hbmData := rfl
@[simp] theorem State.setMark_hbmPtr (s : State) (n : Nat) (v : DWord) : (s.setMark n v).hbmPtr = s.hbmPtr := rfl
@[simp] theorem State.setMark_hbmDrain (s : State) (n : Nat) (v : DWord) : (s.setMark n v).hbmDrain = s.hbmDrain := rfl
@[simp] theorem State.setMark_hbmTrainTemp (s : State) (n : Nat) (v : DWord) : (s.setMark n v).hbmTrainTemp = s.hbmTrainTemp := rfl
@[simp] theorem State.setMark_retrainReq (s : State) (n : Nat) (v : DWord) : (s.setMark n v).retrainReq = s.retrainReq := rfl
@[simp] theorem State.setMark_retrain (s : State) (n : Nat) (v : DWord) : (s.setMark n v).retrain = s.retrain := rfl
@[simp] theorem State.setMark_laneCnt (s : State) (n : Nat) (v : DWord) : (s.setMark n v).laneCnt = s.laneCnt := rfl
@[simp] theorem State.setMark_lineRepair (s : State) (n : Nat) (v : DWord) : (s.setMark n v).lineRepair = s.lineRepair := rfl
@[simp] theorem State.setMark_nandSb (s : State) (n : Nat) (v : DWord) : (s.setMark n v).nandSb = s.nandSb := rfl
@[simp] theorem State.setMark_nandCnt (s : State) (n : Nat) (v : DWord) : (s.setMark n v).nandCnt = s.nandCnt := rfl
@[simp] theorem State.setMark_nandTemp (s : State) (n : Nat) (v : DWord) : (s.setMark n v).nandTemp = s.nandTemp := rfl
@[simp] theorem State.setMark_plArray (s : State) (n : Nat) (v : DWord) : (s.setMark n v).plArray = s.plArray := rfl
@[simp] theorem State.setMark_plEc (s : State) (n : Nat) (v : DWord) : (s.setMark n v).plEc = s.plEc := rfl
@[simp] theorem State.setMark_plMark (s : State) (n : Nat) (v : DWord) : (s.setMark n v).plMark = s.plMark := rfl
@[simp] theorem State.setMark_plBank0 (s : State) (n : Nat) (v : DWord) : (s.setMark n v).plBank0 = s.plBank0 := rfl
@[simp] theorem State.setMark_plBank1 (s : State) (n : Nat) (v : DWord) : (s.setMark n v).plBank1 = s.plBank1 := rfl
@[simp] theorem State.setMark_plPrefetch (s : State) (n : Nat) (v : DWord) : (s.setMark n v).plPrefetch = s.plPrefetch := rfl
@[simp] theorem State.setMark_plBranch (s : State) (n : Nat) (v : DWord) : (s.setMark n v).plBranch = s.plBranch := rfl
@[simp] theorem State.setMark_plLast (s : State) (n : Nat) (v : DWord) : (s.setMark n v).plLast = s.plLast := rfl
@[simp] theorem State.setMark_plRead (s : State) (n : Nat) (v : DWord) : (s.setMark n v).plRead = s.plRead := rfl
@[simp] theorem State.setMark_plFetch (s : State) (n : Nat) (v : DWord) : (s.setMark n v).plFetch = s.plFetch := rfl
@[simp] theorem State.setMark_tx (s : State) (n : Nat) (v : DWord) : (s.setMark n v).tx = s.tx := rfl
@[simp] theorem State.setMark_conn (s : State) (n : Nat) (v : DWord) : (s.setMark n v).conn = s.conn := rfl
@[simp] theorem State.setMark_rconn (s : State) (n : Nat) (v : DWord) : (s.setMark n v).rconn = s.rconn := rfl
@[simp] theorem State.setMark_rxq (s : State) (n : Nat) (v : DWord) : (s.setMark n v).rxq = s.rxq := rfl
@[simp] theorem State.setMark_rops (s : State) (n : Nat) (v : DWord) : (s.setMark n v).rops = s.rops := rfl
@[simp] theorem State.setMark_nextOpid (s : State) (n : Nat) (v : DWord) : (s.setMark n v).nextOpid = s.nextOpid := rfl
@[simp] theorem State.setMark_putFail (s : State) (n : Nat) (v : DWord) : (s.setMark n v).putFail = s.putFail := rfl
@[simp] theorem State.setMark_putOpen (s : State) (n : Nat) (v : DWord) : (s.setMark n v).putOpen = s.putOpen := rfl
@[simp] theorem State.setMark_pausedBy (s : State) (n : Nat) (v : DWord) : (s.setMark n v).pausedBy = s.pausedBy := rfl
@[simp] theorem State.setMark_pausing (s : State) (n : Nat) (v : DWord) : (s.setMark n v).pausing = s.pausing := rfl
@[simp] theorem State.setMark_groutNext (s : State) (n : Nat) (v : DWord) : (s.setMark n v).groutNext = s.groutNext := rfl
@[simp] theorem State.setMark_groutOff (s : State) (n : Nat) (v : DWord) : (s.setMark n v).groutOff = s.groutOff := rfl
@[simp] theorem State.setMark_fw (s : State) (n : Nat) (v : DWord) : (s.setMark n v).fw = s.fw := rfl
@[simp] theorem State.setMark_slotKey (s : State) (n : Nat) (v : DWord) : (s.setMark n v).slotKey = s.slotKey := rfl
@[simp] theorem State.setMark_nextKey (s : State) (n : Nat) (v : DWord) : (s.setMark n v).nextKey = s.nextKey := rfl
@[simp] theorem State.setMark_qnReq (s : State) (n : Nat) (v : DWord) : (s.setMark n v).qnReq = s.qnReq := rfl
@[simp] theorem State.setMark_qnPtr (s : State) (n : Nat) (v : DWord) : (s.setMark n v).qnPtr = s.qnPtr := rfl
@[simp] theorem State.setMark_mctpOut (s : State) (n : Nat) (v : DWord) : (s.setMark n v).mctpOut = s.mctpOut := rfl
@[simp] theorem State.setMark_mctpEid (s : State) (n : Nat) (v : DWord) : (s.setMark n v).mctpEid = s.mctpEid := rfl
@[simp] theorem State.setMark_mctpIn (s : State) (n : Nat) (v : DWord) : (s.setMark n v).mctpIn = s.mctpIn := rfl
@[simp] theorem State.setMark_dbg (s : State) (n : Nat) (v : DWord) : (s.setMark n v).dbg = s.dbg := rfl
@[simp] theorem State.setMark_dbgUsed (s : State) (n : Nat) (v : DWord) : (s.setMark n v).dbgUsed = s.dbgUsed := rfl
@[simp] theorem State.setMark_unlocking (s : State) (n : Nat) (v : DWord) : (s.setMark n v).unlocking = s.unlocking := rfl
@[simp] theorem State.setMark_session (s : State) (n : Nat) (v : DWord) : (s.setMark n v).session = s.session := rfl
@[simp] theorem State.setMark_drainTimer (s : State) (n : Nat) (v : DWord) : (s.setMark n v).drainTimer = s.drainTimer := rfl
@[simp] theorem State.setMark_flrTimer (s : State) (n : Nat) (v : DWord) : (s.setMark n v).flrTimer = s.flrTimer := rfl
@[simp] theorem State.setMark_cfgRec (s : State) (n : Nat) (v : DWord) : (s.setMark n v).cfgRec = s.cfgRec := rfl
@[simp] theorem State.setMark_recDue (s : State) (n : Nat) (v : DWord) : (s.setMark n v).recDue = s.recDue := rfl
@[simp] theorem State.setMark_pw (s : State) (n : Nat) (v : DWord) : (s.setMark n v).pw = s.pw := rfl
@[simp] theorem State.setMark_subst (s : State) (n : Nat) (v : DWord) : (s.setMark n v).subst = s.subst := rfl
@[simp] theorem State.setMark_roles (s : State) (n : Nat) (v : DWord) : (s.setMark n v).roles = s.roles := rfl
@[simp] theorem State.setMark_kcSram (s : State) (n : Nat) (v : DWord) : (s.setMark n v).kcSram = s.kcSram := rfl
@[simp] theorem State.setMark_qnSram (s : State) (n : Nat) (v : DWord) : (s.setMark n v).qnSram = s.qnSram := rfl
@[simp] theorem State.setMark_qcCache (s : State) (n : Nat) (v : DWord) : (s.setMark n v).qcCache = s.qcCache := rfl

/-! `setUnit` changes `unit` alone. -/

@[simp] theorem State.setUnit_pending (s : State) (b : Blk) (i : Nat) (u : UnitSt) : (s.setUnit b i u).pending = s.pending := rfl
@[simp] theorem State.setUnit_timeNs (s : State) (b : Blk) (i : Nat) (u : UnitSt) : (s.setUnit b i u).timeNs = s.timeNs := rfl
@[simp] theorem State.setUnit_free (s : State) (b : Blk) (i : Nat) (u : UnitSt) : (s.setUnit b i u).free = s.free := rfl
@[simp] theorem State.setUnit_undef (s : State) (b : Blk) (i : Nat) (u : UnitSt) : (s.setUnit b i u).undef = s.undef := rfl
@[simp] theorem State.setUnit_pins (s : State) (b : Blk) (i : Nat) (u : UnitSt) : (s.setUnit b i u).pins = s.pins := rfl
@[simp] theorem State.setUnit_jtag (s : State) (b : Blk) (i : Nat) (u : UnitSt) : (s.setUnit b i u).jtag = s.jtag := rfl
@[simp] theorem State.setUnit_pcie (s : State) (b : Blk) (i : Nat) (u : UnitSt) : (s.setUnit b i u).pcie = s.pcie := rfl
@[simp] theorem State.setUnit_regs (s : State) (b : Blk) (i : Nat) (u : UnitSt) : (s.setUnit b i u).regs = s.regs := rfl
@[simp] theorem State.setUnit_snap (s : State) (b : Blk) (i : Nat) (u : UnitSt) : (s.setUnit b i u).snap = s.snap := rfl
@[simp] theorem State.setUnit_bed (s : State) (b : Blk) (i : Nat) (u : UnitSt) : (s.setUnit b i u).bed = s.bed := rfl
@[simp] theorem State.setUnit_bedPoison (s : State) (b : Blk) (i : Nat) (u : UnitSt) : (s.setUnit b i u).bedPoison = s.bedPoison := rfl
@[simp] theorem State.setUnit_hbm (s : State) (b : Blk) (i : Nat) (u : UnitSt) : (s.setUnit b i u).hbm = s.hbm := rfl
@[simp] theorem State.setUnit_hbmPoison (s : State) (b : Blk) (i : Nat) (u : UnitSt) : (s.setUnit b i u).hbmPoison = s.hbmPoison := rfl
@[simp] theorem State.setUnit_hbmKey (s : State) (b : Blk) (i : Nat) (u : UnitSt) : (s.setUnit b i u).hbmKey = s.hbmKey := rfl
@[simp] theorem State.setUnit_hbmReady (s : State) (b : Blk) (i : Nat) (u : UnitSt) : (s.setUnit b i u).hbmReady = s.hbmReady := rfl
@[simp] theorem State.setUnit_marks (s : State) (b : Blk) (i : Nat) (u : UnitSt) : (s.setUnit b i u).marks = s.marks := rfl
@[simp] theorem State.setUnit_markPtr (s : State) (b : Blk) (i : Nat) (u : UnitSt) : (s.setUnit b i u).markPtr = s.markPtr := rfl
@[simp] theorem State.setUnit_xlat (s : State) (b : Blk) (i : Nat) (u : UnitSt) : (s.setUnit b i u).xlat = s.xlat := rfl
@[simp] theorem State.setUnit_wq (s : State) (b : Blk) (i : Nat) (u : UnitSt) : (s.setUnit b i u).wq = s.wq := rfl
@[simp] theorem State.setUnit_jq (s : State) (b : Blk) (i : Nat) (u : UnitSt) : (s.setUnit b i u).jq = s.jq := rfl
@[simp] theorem State.setUnit_ring (s : State) (b : Blk) (i : Nat) (u : UnitSt) : (s.setUnit b i u).ring = s.ring := rfl
@[simp] theorem State.setUnit_relHead (s : State) (b : Blk) (i : Nat) (u : UnitSt) : (s.setUnit b i u).relHead = s.relHead := rfl
@[simp] theorem State.setUnit_flights (s : State) (b : Blk) (i : Nat) (u : UnitSt) : (s.setUnit b i u).flights = s.flights := rfl
@[simp] theorem State.setUnit_nextFlight (s : State) (b : Blk) (i : Nat) (u : UnitSt) : (s.setUnit b i u).nextFlight = s.nextFlight := rfl
@[simp] theorem State.setUnit_mapOp (s : State) (b : Blk) (i : Nat) (u : UnitSt) : (s.setUnit b i u).mapOp = s.mapOp := rfl
@[simp] theorem State.setUnit_bedPtr (s : State) (b : Blk) (i : Nat) (u : UnitSt) : (s.setUnit b i u).bedPtr = s.bedPtr := rfl
@[simp] theorem State.setUnit_bedDefer (s : State) (b : Blk) (i : Nat) (u : UnitSt) : (s.setUnit b i u).bedDefer = s.bedDefer := rfl
@[simp] theorem State.setUnit_bankOut (s : State) (b : Blk) (i : Nat) (u : UnitSt) : (s.setUnit b i u).bankOut = s.bankOut := rfl
@[simp] theorem State.setUnit_spareBad (s : State) (b : Blk) (i : Nat) (u : UnitSt) : (s.setUnit b i u).spareBad = s.spareBad := rfl
@[simp] theorem State.setUnit_winHit (s : State) (b : Blk) (i : Nat) (u : UnitSt) : (s.setUnit b i u).winHit = s.winHit := rfl
@[simp] theorem State.setUnit_errWin (s : State) (b : Blk) (i : Nat) (u : UnitSt) : (s.setUnit b i u).errWin = s.errWin := rfl
@[simp] theorem State.setUnit_resident (s : State) (b : Blk) (i : Nat) (u : UnitSt) : (s.setUnit b i u).resident = s.resident := rfl
@[simp] theorem State.setUnit_image (s : State) (b : Blk) (i : Nat) (u : UnitSt) : (s.setUnit b i u).image = s.image := rfl
@[simp] theorem State.setUnit_libVer (s : State) (b : Blk) (i : Nat) (u : UnitSt) : (s.setUnit b i u).libVer = s.libVer := rfl
@[simp] theorem State.setUnit_pageMap (s : State) (b : Blk) (i : Nat) (u : UnitSt) : (s.setUnit b i u).pageMap = s.pageMap := rfl
@[simp] theorem State.setUnit_pfx (s : State) (b : Blk) (i : Nat) (u : UnitSt) : (s.setUnit b i u).pfx = s.pfx := rfl
@[simp] theorem State.setUnit_tensors (s : State) (b : Blk) (i : Nat) (u : UnitSt) : (s.setUnit b i u).tensors = s.tensors := rfl
@[simp] theorem State.setUnit_nandBytes (s : State) (b : Blk) (i : Nat) (u : UnitSt) : (s.setUnit b i u).nandBytes = s.nandBytes := rfl
@[simp] theorem State.setUnit_moves (s : State) (b : Blk) (i : Nat) (u : UnitSt) : (s.setUnit b i u).moves = s.moves := rfl
@[simp] theorem State.setUnit_builds (s : State) (b : Blk) (i : Nat) (u : UnitSt) : (s.setUnit b i u).builds = s.builds := rfl
@[simp] theorem State.setUnit_sched (s : State) (b : Blk) (i : Nat) (u : UnitSt) : (s.setUnit b i u).sched = s.sched := rfl
@[simp] theorem State.setUnit_schedQ (s : State) (b : Blk) (i : Nat) (u : UnitSt) : (s.setUnit b i u).schedQ = s.schedQ := rfl
@[simp] theorem State.setUnit_hbmQ (s : State) (b : Blk) (i : Nat) (u : UnitSt) : (s.setUnit b i u).hbmQ = s.hbmQ := rfl
@[simp] theorem State.setUnit_hbmRow (s : State) (b : Blk) (i : Nat) (u : UnitSt) : (s.setUnit b i u).hbmRow = s.hbmRow := rfl
@[simp] theorem State.setUnit_hbmTrr (s : State) (b : Blk) (i : Nat) (u : UnitSt) : (s.setUnit b i u).hbmTrr = s.hbmTrr := rfl
@[simp] theorem State.setUnit_hbmDue (s : State) (b : Blk) (i : Nat) (u : UnitSt) : (s.setUnit b i u).hbmDue = s.hbmDue := rfl
@[simp] theorem State.setUnit_hbmTrrDue (s : State) (b : Blk) (i : Nat) (u : UnitSt) : (s.setUnit b i u).hbmTrrDue = s.hbmTrrDue := rfl
@[simp] theorem State.setUnit_hbmData (s : State) (b : Blk) (i : Nat) (u : UnitSt) : (s.setUnit b i u).hbmData = s.hbmData := rfl
@[simp] theorem State.setUnit_hbmPtr (s : State) (b : Blk) (i : Nat) (u : UnitSt) : (s.setUnit b i u).hbmPtr = s.hbmPtr := rfl
@[simp] theorem State.setUnit_hbmDrain (s : State) (b : Blk) (i : Nat) (u : UnitSt) : (s.setUnit b i u).hbmDrain = s.hbmDrain := rfl
@[simp] theorem State.setUnit_hbmTrainTemp (s : State) (b : Blk) (i : Nat) (u : UnitSt) : (s.setUnit b i u).hbmTrainTemp = s.hbmTrainTemp := rfl
@[simp] theorem State.setUnit_retrainReq (s : State) (b : Blk) (i : Nat) (u : UnitSt) : (s.setUnit b i u).retrainReq = s.retrainReq := rfl
@[simp] theorem State.setUnit_retrain (s : State) (b : Blk) (i : Nat) (u : UnitSt) : (s.setUnit b i u).retrain = s.retrain := rfl
@[simp] theorem State.setUnit_laneCnt (s : State) (b : Blk) (i : Nat) (u : UnitSt) : (s.setUnit b i u).laneCnt = s.laneCnt := rfl
@[simp] theorem State.setUnit_lineRepair (s : State) (b : Blk) (i : Nat) (u : UnitSt) : (s.setUnit b i u).lineRepair = s.lineRepair := rfl
@[simp] theorem State.setUnit_nandSb (s : State) (b : Blk) (i : Nat) (u : UnitSt) : (s.setUnit b i u).nandSb = s.nandSb := rfl
@[simp] theorem State.setUnit_nandCnt (s : State) (b : Blk) (i : Nat) (u : UnitSt) : (s.setUnit b i u).nandCnt = s.nandCnt := rfl
@[simp] theorem State.setUnit_nandTemp (s : State) (b : Blk) (i : Nat) (u : UnitSt) : (s.setUnit b i u).nandTemp = s.nandTemp := rfl
@[simp] theorem State.setUnit_plArray (s : State) (b : Blk) (i : Nat) (u : UnitSt) : (s.setUnit b i u).plArray = s.plArray := rfl
@[simp] theorem State.setUnit_plEc (s : State) (b : Blk) (i : Nat) (u : UnitSt) : (s.setUnit b i u).plEc = s.plEc := rfl
@[simp] theorem State.setUnit_plMark (s : State) (b : Blk) (i : Nat) (u : UnitSt) : (s.setUnit b i u).plMark = s.plMark := rfl
@[simp] theorem State.setUnit_plBank0 (s : State) (b : Blk) (i : Nat) (u : UnitSt) : (s.setUnit b i u).plBank0 = s.plBank0 := rfl
@[simp] theorem State.setUnit_plBank1 (s : State) (b : Blk) (i : Nat) (u : UnitSt) : (s.setUnit b i u).plBank1 = s.plBank1 := rfl
@[simp] theorem State.setUnit_plPrefetch (s : State) (b : Blk) (i : Nat) (u : UnitSt) : (s.setUnit b i u).plPrefetch = s.plPrefetch := rfl
@[simp] theorem State.setUnit_plBranch (s : State) (b : Blk) (i : Nat) (u : UnitSt) : (s.setUnit b i u).plBranch = s.plBranch := rfl
@[simp] theorem State.setUnit_plLast (s : State) (b : Blk) (i : Nat) (u : UnitSt) : (s.setUnit b i u).plLast = s.plLast := rfl
@[simp] theorem State.setUnit_plRead (s : State) (b : Blk) (i : Nat) (u : UnitSt) : (s.setUnit b i u).plRead = s.plRead := rfl
@[simp] theorem State.setUnit_plFetch (s : State) (b : Blk) (i : Nat) (u : UnitSt) : (s.setUnit b i u).plFetch = s.plFetch := rfl
@[simp] theorem State.setUnit_tx (s : State) (b : Blk) (i : Nat) (u : UnitSt) : (s.setUnit b i u).tx = s.tx := rfl
@[simp] theorem State.setUnit_conn (s : State) (b : Blk) (i : Nat) (u : UnitSt) : (s.setUnit b i u).conn = s.conn := rfl
@[simp] theorem State.setUnit_rconn (s : State) (b : Blk) (i : Nat) (u : UnitSt) : (s.setUnit b i u).rconn = s.rconn := rfl
@[simp] theorem State.setUnit_rxq (s : State) (b : Blk) (i : Nat) (u : UnitSt) : (s.setUnit b i u).rxq = s.rxq := rfl
@[simp] theorem State.setUnit_rops (s : State) (b : Blk) (i : Nat) (u : UnitSt) : (s.setUnit b i u).rops = s.rops := rfl
@[simp] theorem State.setUnit_nextOpid (s : State) (b : Blk) (i : Nat) (u : UnitSt) : (s.setUnit b i u).nextOpid = s.nextOpid := rfl
@[simp] theorem State.setUnit_putFail (s : State) (b : Blk) (i : Nat) (u : UnitSt) : (s.setUnit b i u).putFail = s.putFail := rfl
@[simp] theorem State.setUnit_putOpen (s : State) (b : Blk) (i : Nat) (u : UnitSt) : (s.setUnit b i u).putOpen = s.putOpen := rfl
@[simp] theorem State.setUnit_pausedBy (s : State) (b : Blk) (i : Nat) (u : UnitSt) : (s.setUnit b i u).pausedBy = s.pausedBy := rfl
@[simp] theorem State.setUnit_pausing (s : State) (b : Blk) (i : Nat) (u : UnitSt) : (s.setUnit b i u).pausing = s.pausing := rfl
@[simp] theorem State.setUnit_groutNext (s : State) (b : Blk) (i : Nat) (u : UnitSt) : (s.setUnit b i u).groutNext = s.groutNext := rfl
@[simp] theorem State.setUnit_groutOff (s : State) (b : Blk) (i : Nat) (u : UnitSt) : (s.setUnit b i u).groutOff = s.groutOff := rfl
@[simp] theorem State.setUnit_fw (s : State) (b : Blk) (i : Nat) (u : UnitSt) : (s.setUnit b i u).fw = s.fw := rfl
@[simp] theorem State.setUnit_slotKey (s : State) (b : Blk) (i : Nat) (u : UnitSt) : (s.setUnit b i u).slotKey = s.slotKey := rfl
@[simp] theorem State.setUnit_nextKey (s : State) (b : Blk) (i : Nat) (u : UnitSt) : (s.setUnit b i u).nextKey = s.nextKey := rfl
@[simp] theorem State.setUnit_qnReq (s : State) (b : Blk) (i : Nat) (u : UnitSt) : (s.setUnit b i u).qnReq = s.qnReq := rfl
@[simp] theorem State.setUnit_qnPtr (s : State) (b : Blk) (i : Nat) (u : UnitSt) : (s.setUnit b i u).qnPtr = s.qnPtr := rfl
@[simp] theorem State.setUnit_mctpOut (s : State) (b : Blk) (i : Nat) (u : UnitSt) : (s.setUnit b i u).mctpOut = s.mctpOut := rfl
@[simp] theorem State.setUnit_mctpEid (s : State) (b : Blk) (i : Nat) (u : UnitSt) : (s.setUnit b i u).mctpEid = s.mctpEid := rfl
@[simp] theorem State.setUnit_mctpIn (s : State) (b : Blk) (i : Nat) (u : UnitSt) : (s.setUnit b i u).mctpIn = s.mctpIn := rfl
@[simp] theorem State.setUnit_dbg (s : State) (b : Blk) (i : Nat) (u : UnitSt) : (s.setUnit b i u).dbg = s.dbg := rfl
@[simp] theorem State.setUnit_dbgUsed (s : State) (b : Blk) (i : Nat) (u : UnitSt) : (s.setUnit b i u).dbgUsed = s.dbgUsed := rfl
@[simp] theorem State.setUnit_unlocking (s : State) (b : Blk) (i : Nat) (u : UnitSt) : (s.setUnit b i u).unlocking = s.unlocking := rfl
@[simp] theorem State.setUnit_session (s : State) (b : Blk) (i : Nat) (u : UnitSt) : (s.setUnit b i u).session = s.session := rfl
@[simp] theorem State.setUnit_drainTimer (s : State) (b : Blk) (i : Nat) (u : UnitSt) : (s.setUnit b i u).drainTimer = s.drainTimer := rfl
@[simp] theorem State.setUnit_flrTimer (s : State) (b : Blk) (i : Nat) (u : UnitSt) : (s.setUnit b i u).flrTimer = s.flrTimer := rfl
@[simp] theorem State.setUnit_cfgRec (s : State) (b : Blk) (i : Nat) (u : UnitSt) : (s.setUnit b i u).cfgRec = s.cfgRec := rfl
@[simp] theorem State.setUnit_recDue (s : State) (b : Blk) (i : Nat) (u : UnitSt) : (s.setUnit b i u).recDue = s.recDue := rfl
@[simp] theorem State.setUnit_pw (s : State) (b : Blk) (i : Nat) (u : UnitSt) : (s.setUnit b i u).pw = s.pw := rfl
@[simp] theorem State.setUnit_subst (s : State) (b : Blk) (i : Nat) (u : UnitSt) : (s.setUnit b i u).subst = s.subst := rfl
@[simp] theorem State.setUnit_roles (s : State) (b : Blk) (i : Nat) (u : UnitSt) : (s.setUnit b i u).roles = s.roles := rfl
@[simp] theorem State.setUnit_kcSram (s : State) (b : Blk) (i : Nat) (u : UnitSt) : (s.setUnit b i u).kcSram = s.kcSram := rfl
@[simp] theorem State.setUnit_qnSram (s : State) (b : Blk) (i : Nat) (u : UnitSt) : (s.setUnit b i u).qnSram = s.qnSram := rfl
@[simp] theorem State.setUnit_qcCache (s : State) (b : Blk) (i : Nat) (u : UnitSt) : (s.setUnit b i u).qcCache = s.qcCache := rfl

/-! `putFlight` changes `flights` alone. -/

@[simp] theorem State.putFlight_pending (s : State) (f : Flight) : (s.putFlight f).pending = s.pending := rfl
@[simp] theorem State.putFlight_timeNs (s : State) (f : Flight) : (s.putFlight f).timeNs = s.timeNs := rfl
@[simp] theorem State.putFlight_free (s : State) (f : Flight) : (s.putFlight f).free = s.free := rfl
@[simp] theorem State.putFlight_undef (s : State) (f : Flight) : (s.putFlight f).undef = s.undef := rfl
@[simp] theorem State.putFlight_pins (s : State) (f : Flight) : (s.putFlight f).pins = s.pins := rfl
@[simp] theorem State.putFlight_jtag (s : State) (f : Flight) : (s.putFlight f).jtag = s.jtag := rfl
@[simp] theorem State.putFlight_pcie (s : State) (f : Flight) : (s.putFlight f).pcie = s.pcie := rfl
@[simp] theorem State.putFlight_regs (s : State) (f : Flight) : (s.putFlight f).regs = s.regs := rfl
@[simp] theorem State.putFlight_snap (s : State) (f : Flight) : (s.putFlight f).snap = s.snap := rfl
@[simp] theorem State.putFlight_bed (s : State) (f : Flight) : (s.putFlight f).bed = s.bed := rfl
@[simp] theorem State.putFlight_bedPoison (s : State) (f : Flight) : (s.putFlight f).bedPoison = s.bedPoison := rfl
@[simp] theorem State.putFlight_hbm (s : State) (f : Flight) : (s.putFlight f).hbm = s.hbm := rfl
@[simp] theorem State.putFlight_hbmPoison (s : State) (f : Flight) : (s.putFlight f).hbmPoison = s.hbmPoison := rfl
@[simp] theorem State.putFlight_hbmKey (s : State) (f : Flight) : (s.putFlight f).hbmKey = s.hbmKey := rfl
@[simp] theorem State.putFlight_hbmReady (s : State) (f : Flight) : (s.putFlight f).hbmReady = s.hbmReady := rfl
@[simp] theorem State.putFlight_marks (s : State) (f : Flight) : (s.putFlight f).marks = s.marks := rfl
@[simp] theorem State.putFlight_markPtr (s : State) (f : Flight) : (s.putFlight f).markPtr = s.markPtr := rfl
@[simp] theorem State.putFlight_xlat (s : State) (f : Flight) : (s.putFlight f).xlat = s.xlat := rfl
@[simp] theorem State.putFlight_wq (s : State) (f : Flight) : (s.putFlight f).wq = s.wq := rfl
@[simp] theorem State.putFlight_jq (s : State) (f : Flight) : (s.putFlight f).jq = s.jq := rfl
@[simp] theorem State.putFlight_ring (s : State) (f : Flight) : (s.putFlight f).ring = s.ring := rfl
@[simp] theorem State.putFlight_relHead (s : State) (f : Flight) : (s.putFlight f).relHead = s.relHead := rfl
@[simp] theorem State.putFlight_nextFlight (s : State) (f : Flight) : (s.putFlight f).nextFlight = s.nextFlight := rfl
@[simp] theorem State.putFlight_mapOp (s : State) (f : Flight) : (s.putFlight f).mapOp = s.mapOp := rfl
@[simp] theorem State.putFlight_bedPtr (s : State) (f : Flight) : (s.putFlight f).bedPtr = s.bedPtr := rfl
@[simp] theorem State.putFlight_bedDefer (s : State) (f : Flight) : (s.putFlight f).bedDefer = s.bedDefer := rfl
@[simp] theorem State.putFlight_bankOut (s : State) (f : Flight) : (s.putFlight f).bankOut = s.bankOut := rfl
@[simp] theorem State.putFlight_spareBad (s : State) (f : Flight) : (s.putFlight f).spareBad = s.spareBad := rfl
@[simp] theorem State.putFlight_winHit (s : State) (f : Flight) : (s.putFlight f).winHit = s.winHit := rfl
@[simp] theorem State.putFlight_unit (s : State) (f : Flight) : (s.putFlight f).unit = s.unit := rfl
@[simp] theorem State.putFlight_errWin (s : State) (f : Flight) : (s.putFlight f).errWin = s.errWin := rfl
@[simp] theorem State.putFlight_resident (s : State) (f : Flight) : (s.putFlight f).resident = s.resident := rfl
@[simp] theorem State.putFlight_image (s : State) (f : Flight) : (s.putFlight f).image = s.image := rfl
@[simp] theorem State.putFlight_libVer (s : State) (f : Flight) : (s.putFlight f).libVer = s.libVer := rfl
@[simp] theorem State.putFlight_pageMap (s : State) (f : Flight) : (s.putFlight f).pageMap = s.pageMap := rfl
@[simp] theorem State.putFlight_pfx (s : State) (f : Flight) : (s.putFlight f).pfx = s.pfx := rfl
@[simp] theorem State.putFlight_tensors (s : State) (f : Flight) : (s.putFlight f).tensors = s.tensors := rfl
@[simp] theorem State.putFlight_nandBytes (s : State) (f : Flight) : (s.putFlight f).nandBytes = s.nandBytes := rfl
@[simp] theorem State.putFlight_moves (s : State) (f : Flight) : (s.putFlight f).moves = s.moves := rfl
@[simp] theorem State.putFlight_builds (s : State) (f : Flight) : (s.putFlight f).builds = s.builds := rfl
@[simp] theorem State.putFlight_sched (s : State) (f : Flight) : (s.putFlight f).sched = s.sched := rfl
@[simp] theorem State.putFlight_schedQ (s : State) (f : Flight) : (s.putFlight f).schedQ = s.schedQ := rfl
@[simp] theorem State.putFlight_hbmQ (s : State) (f : Flight) : (s.putFlight f).hbmQ = s.hbmQ := rfl
@[simp] theorem State.putFlight_hbmRow (s : State) (f : Flight) : (s.putFlight f).hbmRow = s.hbmRow := rfl
@[simp] theorem State.putFlight_hbmTrr (s : State) (f : Flight) : (s.putFlight f).hbmTrr = s.hbmTrr := rfl
@[simp] theorem State.putFlight_hbmDue (s : State) (f : Flight) : (s.putFlight f).hbmDue = s.hbmDue := rfl
@[simp] theorem State.putFlight_hbmTrrDue (s : State) (f : Flight) : (s.putFlight f).hbmTrrDue = s.hbmTrrDue := rfl
@[simp] theorem State.putFlight_hbmData (s : State) (f : Flight) : (s.putFlight f).hbmData = s.hbmData := rfl
@[simp] theorem State.putFlight_hbmPtr (s : State) (f : Flight) : (s.putFlight f).hbmPtr = s.hbmPtr := rfl
@[simp] theorem State.putFlight_hbmDrain (s : State) (f : Flight) : (s.putFlight f).hbmDrain = s.hbmDrain := rfl
@[simp] theorem State.putFlight_hbmTrainTemp (s : State) (f : Flight) : (s.putFlight f).hbmTrainTemp = s.hbmTrainTemp := rfl
@[simp] theorem State.putFlight_retrainReq (s : State) (f : Flight) : (s.putFlight f).retrainReq = s.retrainReq := rfl
@[simp] theorem State.putFlight_retrain (s : State) (f : Flight) : (s.putFlight f).retrain = s.retrain := rfl
@[simp] theorem State.putFlight_laneCnt (s : State) (f : Flight) : (s.putFlight f).laneCnt = s.laneCnt := rfl
@[simp] theorem State.putFlight_lineRepair (s : State) (f : Flight) : (s.putFlight f).lineRepair = s.lineRepair := rfl
@[simp] theorem State.putFlight_nandSb (s : State) (f : Flight) : (s.putFlight f).nandSb = s.nandSb := rfl
@[simp] theorem State.putFlight_nandCnt (s : State) (f : Flight) : (s.putFlight f).nandCnt = s.nandCnt := rfl
@[simp] theorem State.putFlight_nandTemp (s : State) (f : Flight) : (s.putFlight f).nandTemp = s.nandTemp := rfl
@[simp] theorem State.putFlight_plArray (s : State) (f : Flight) : (s.putFlight f).plArray = s.plArray := rfl
@[simp] theorem State.putFlight_plEc (s : State) (f : Flight) : (s.putFlight f).plEc = s.plEc := rfl
@[simp] theorem State.putFlight_plMark (s : State) (f : Flight) : (s.putFlight f).plMark = s.plMark := rfl
@[simp] theorem State.putFlight_plBank0 (s : State) (f : Flight) : (s.putFlight f).plBank0 = s.plBank0 := rfl
@[simp] theorem State.putFlight_plBank1 (s : State) (f : Flight) : (s.putFlight f).plBank1 = s.plBank1 := rfl
@[simp] theorem State.putFlight_plPrefetch (s : State) (f : Flight) : (s.putFlight f).plPrefetch = s.plPrefetch := rfl
@[simp] theorem State.putFlight_plBranch (s : State) (f : Flight) : (s.putFlight f).plBranch = s.plBranch := rfl
@[simp] theorem State.putFlight_plLast (s : State) (f : Flight) : (s.putFlight f).plLast = s.plLast := rfl
@[simp] theorem State.putFlight_plRead (s : State) (f : Flight) : (s.putFlight f).plRead = s.plRead := rfl
@[simp] theorem State.putFlight_plFetch (s : State) (f : Flight) : (s.putFlight f).plFetch = s.plFetch := rfl
@[simp] theorem State.putFlight_tx (s : State) (f : Flight) : (s.putFlight f).tx = s.tx := rfl
@[simp] theorem State.putFlight_conn (s : State) (f : Flight) : (s.putFlight f).conn = s.conn := rfl
@[simp] theorem State.putFlight_rconn (s : State) (f : Flight) : (s.putFlight f).rconn = s.rconn := rfl
@[simp] theorem State.putFlight_rxq (s : State) (f : Flight) : (s.putFlight f).rxq = s.rxq := rfl
@[simp] theorem State.putFlight_rops (s : State) (f : Flight) : (s.putFlight f).rops = s.rops := rfl
@[simp] theorem State.putFlight_nextOpid (s : State) (f : Flight) : (s.putFlight f).nextOpid = s.nextOpid := rfl
@[simp] theorem State.putFlight_putFail (s : State) (f : Flight) : (s.putFlight f).putFail = s.putFail := rfl
@[simp] theorem State.putFlight_putOpen (s : State) (f : Flight) : (s.putFlight f).putOpen = s.putOpen := rfl
@[simp] theorem State.putFlight_pausedBy (s : State) (f : Flight) : (s.putFlight f).pausedBy = s.pausedBy := rfl
@[simp] theorem State.putFlight_pausing (s : State) (f : Flight) : (s.putFlight f).pausing = s.pausing := rfl
@[simp] theorem State.putFlight_groutNext (s : State) (f : Flight) : (s.putFlight f).groutNext = s.groutNext := rfl
@[simp] theorem State.putFlight_groutOff (s : State) (f : Flight) : (s.putFlight f).groutOff = s.groutOff := rfl
@[simp] theorem State.putFlight_fw (s : State) (f : Flight) : (s.putFlight f).fw = s.fw := rfl
@[simp] theorem State.putFlight_slotKey (s : State) (f : Flight) : (s.putFlight f).slotKey = s.slotKey := rfl
@[simp] theorem State.putFlight_nextKey (s : State) (f : Flight) : (s.putFlight f).nextKey = s.nextKey := rfl
@[simp] theorem State.putFlight_qnReq (s : State) (f : Flight) : (s.putFlight f).qnReq = s.qnReq := rfl
@[simp] theorem State.putFlight_qnPtr (s : State) (f : Flight) : (s.putFlight f).qnPtr = s.qnPtr := rfl
@[simp] theorem State.putFlight_mctpOut (s : State) (f : Flight) : (s.putFlight f).mctpOut = s.mctpOut := rfl
@[simp] theorem State.putFlight_mctpEid (s : State) (f : Flight) : (s.putFlight f).mctpEid = s.mctpEid := rfl
@[simp] theorem State.putFlight_mctpIn (s : State) (f : Flight) : (s.putFlight f).mctpIn = s.mctpIn := rfl
@[simp] theorem State.putFlight_dbg (s : State) (f : Flight) : (s.putFlight f).dbg = s.dbg := rfl
@[simp] theorem State.putFlight_dbgUsed (s : State) (f : Flight) : (s.putFlight f).dbgUsed = s.dbgUsed := rfl
@[simp] theorem State.putFlight_unlocking (s : State) (f : Flight) : (s.putFlight f).unlocking = s.unlocking := rfl
@[simp] theorem State.putFlight_session (s : State) (f : Flight) : (s.putFlight f).session = s.session := rfl
@[simp] theorem State.putFlight_drainTimer (s : State) (f : Flight) : (s.putFlight f).drainTimer = s.drainTimer := rfl
@[simp] theorem State.putFlight_flrTimer (s : State) (f : Flight) : (s.putFlight f).flrTimer = s.flrTimer := rfl
@[simp] theorem State.putFlight_cfgRec (s : State) (f : Flight) : (s.putFlight f).cfgRec = s.cfgRec := rfl
@[simp] theorem State.putFlight_recDue (s : State) (f : Flight) : (s.putFlight f).recDue = s.recDue := rfl
@[simp] theorem State.putFlight_pw (s : State) (f : Flight) : (s.putFlight f).pw = s.pw := rfl
@[simp] theorem State.putFlight_subst (s : State) (f : Flight) : (s.putFlight f).subst = s.subst := rfl
@[simp] theorem State.putFlight_roles (s : State) (f : Flight) : (s.putFlight f).roles = s.roles := rfl
@[simp] theorem State.putFlight_kcSram (s : State) (f : Flight) : (s.putFlight f).kcSram = s.kcSram := rfl
@[simp] theorem State.putFlight_qnSram (s : State) (f : Flight) : (s.putFlight f).qnSram = s.qnSram := rfl
@[simp] theorem State.putFlight_qcCache (s : State) (f : Flight) : (s.putFlight f).qcCache = s.qcCache := rfl

end Sys2Proof.Machine
end

