-- ==== Sys2Proof/Laws/Run.lean ====
section
/-! SUPPORT. How a command runs (undefined behaviour, held in reset, out of reset), and what registers and marks read after
they are written. -/

namespace Sys2Proof.Machine

-- One declaration after another: the package as one text then stays within the memory its check allows.
set_option Elab.async false

/-! Running a command. -/

theorem State.up_iff (s : State) : s.up = true ↔ s.pins.perstN = true ∧ s.undef = false := by
  simp [State.up]

theorem live_up {s : State} {f : State → State} (h : s.up = true) : live s f = .next (f s) := by
  obtain ⟨hp, hu⟩ := (State.up_iff s).1 h
  simp [live, hp, hu]

theorem live_undef {s : State} {f : State → State} (h : s.undef = true) : live s f = .fault .behaviourUndefined := by
  simp [live, h]

theorem live_low {s : State} {f : State → State} (hu : s.undef = false) (hp : s.pins.perstN = false) : live s f = .next s := by
  simp [live, hp, hu]

/-- Everything a command behind `live` can do. -/
theorem live_cases {s t : State} {f : State → State} (h : live s f = .next t) :
    s.undef = false ∧ ((s.pins.perstN = true ∧ t = f s) ∨ (s.pins.perstN = false ∧ t = s)) := by
  unfold live at h
  split at h
  · cases h
  · split at h <;> cases h <;> simp_all

theorem atPins_ok {s : State} {f : State → State} (h : s.undef = false) : atPins s f = .next (f s) := by simp [atPins, h]

theorem atPins_undef {s : State} {f : State → State} (h : s.undef = true) : atPins s f = .fault .behaviourUndefined := by
  simp [atPins, h]

/-- A command behind `live` stops exactly where behaviour is undefined. -/
theorem live_stops (s : State) (f : State → State) :
    live s f = .fault .behaviourUndefined ∧ s.undef = true ∨ ∃ t, live s f = .next t ∧ s.undef = false := by
  unfold live
  split
  · exact .inl ⟨rfl, ‹_›⟩
  · split <;> exact .inr ⟨_, rfl, by simpa using ‹¬ s.undef = true›⟩

theorem atPins_stops (s : State) (f : State → State) :
    atPins s f = .fault .behaviourUndefined ∧ s.undef = true ∨ ∃ t, atPins s f = .next t ∧ s.undef = false := by
  unfold atPins
  split
  · exact .inl ⟨rfl, ‹_›⟩
  · exact .inr ⟨_, rfl, by simpa using ‹¬ s.undef = true›⟩

/-! Canonical form, part by part. -/

theorem State.canon_regs {s : State} (h : s.canon = true) : smapWf resetOf s.regs = true := by
  simp only [State.canon, canonParts, Bool.and_eq_true] at h; exact h.1.2

theorem State.canon_marks {s : State} (h : s.canon = true) : smapWf (fun _ => (0 : DWord)) s.marks = true := by
  simp only [State.canon, canonParts, Bool.and_eq_true] at h; exact h.2

/-! Registers. -/

theorem State.reg_setReg_same {s : State} (a : Nat) (v : DWord) (h : smapWf resetOf s.regs = true) : (s.setReg a v).reg a = v :=
  smapGet_set_same resetOf a v h

theorem State.reg_setReg_other {s : State} {a b : Nat} (v : DWord) (h : smapWf resetOf s.regs = true) (hb : b ≠ a) :
    (s.setReg a v).reg b = s.reg b := smapGet_set_other resetOf v h hb

theorem State.setReg_wf {s : State} (a : Nat) (v : DWord) (h : smapWf resetOf s.regs = true) :
    smapWf resetOf (s.setReg a v).regs = true := smapWf_set a v h

theorem State.regN_setRegN_same {s : State} (a v : Nat) (h : smapWf resetOf s.regs = true) :
    (s.setRegN a v).regN a = v % 2 ^ 64 := by
  simp [State.regN, State.setRegN, State.reg_setReg_same a _ h]

theorem State.regN_setRegN_other {s : State} {a b : Nat} (v : Nat) (h : smapWf resetOf s.regs = true) (hb : b ≠ a) :
    (s.setRegN a v).regN b = s.regN b := by
  simp [State.regN, State.setRegN, State.reg_setReg_other _ h hb]

theorem State.setRegN_wf {s : State} (a v : Nat) (h : smapWf resetOf s.regs = true) :
    smapWf resetOf (s.setRegN a v).regs = true := State.setReg_wf a _ h

theorem State.modReg_wf {s : State} (a : Nat) (f : Nat → Nat) (h : smapWf resetOf s.regs = true) :
    smapWf resetOf (s.modReg a f).regs = true := State.setRegN_wf a _ h

theorem State.count_wf {s : State} (a n : Nat) (h : smapWf resetOf s.regs = true) :
    smapWf resetOf (s.count a n).regs = true := State.modReg_wf a _ h

theorem State.setField_wf {s : State} (a hi lo v : Nat) (h : smapWf resetOf s.regs = true) :
    smapWf resetOf (s.setField a hi lo v).regs = true := State.modReg_wf a _ h

theorem State.setBit_wf {s : State} (a n : Nat) (b : Bool) (h : smapWf resetOf s.regs = true) :
    smapWf resetOf (s.setBit a n b).regs = true := State.setField_wf a _ _ _ h

theorem State.reg_modReg_other {s : State} {a b : Nat} (f : Nat → Nat) (h : smapWf resetOf s.regs = true) (hb : b ≠ a) :
    (s.modReg a f).reg b = s.reg b := State.reg_setReg_other _ h hb

theorem State.reg_count_other {s : State} {a b : Nat} (n : Nat) (h : smapWf resetOf s.regs = true) (hb : b ≠ a) :
    (s.count a n).reg b = s.reg b := State.reg_modReg_other _ h hb

theorem State.regN_modReg_same {s : State} (a : Nat) (f : Nat → Nat) (h : smapWf resetOf s.regs = true) :
    (s.modReg a f).regN a = f (s.regN a) % 2 ^ 64 := State.regN_setRegN_same a _ h

theorem State.reg_setField_other {s : State} {a b : Nat} (hi lo v : Nat) (h : smapWf resetOf s.regs = true) (hb : b ≠ a) :
    (s.setField a hi lo v).reg b = s.reg b := State.reg_modReg_other _ h hb

theorem State.reg_setBit_other {s : State} {a c : Nat} (n : Nat) (b : Bool) (h : smapWf resetOf s.regs = true) (hc : c ≠ a) :
    (s.setBit a n b).reg c = s.reg c := State.reg_setField_other _ _ _ h hc

/-- A register's value stays below 2^64. -/
theorem State.regN_lt (s : State) (a : Nat) : s.regN a < 2 ^ 64 := (s.reg a).isLt

/-- The number with bits [hi:lo] replaced. -/
theorem bits_replace (r hi lo v : Nat) :
    bits (r - place (bits r hi lo) lo + place (v % 2 ^ (hi + 1 - lo)) lo) hi lo = v % 2 ^ (hi + 1 - lo) := by
  have hp : 0 < 2 ^ lo := Nat.two_pow_pos lo
  have hq : 0 < 2 ^ (hi + 1 - lo) := Nat.two_pow_pos _
  unfold bits place
  generalize hL : 2 ^ lo = L at *
  generalize 2 ^ (hi + 1 - lo) = M at *
  have h1 : r = L * (r / L) + r % L := (Nat.div_add_mod r L).symm
  have h2 : r / L = M * (r / L / M) + r / L % M := (Nat.div_add_mod _ M).symm
  generalize hA : r / L / M = A at *
  generalize hB : r / L % M = B at *
  have e : r - B * L + v % M * L = r % L + L * (M * A + v % M) := by
    have : r = L * (M * A + B) + r % L := by rw [← h2]; exact h1
    have e1 : L * (M * A + B) = L * (M * A) + B * L := by rw [Nat.mul_add, Nat.mul_comm L B]
    have e2 : L * (M * A + v % M) = L * (M * A) + v % M * L := by rw [Nat.mul_add, Nat.mul_comm L (v % M)]
    omega
  rw [e, Nat.add_mul_div_left _ _ hp, Nat.div_eq_of_lt (Nat.mod_lt r hp), Nat.zero_add, Nat.mul_add_mod, Nat.mod_mod]

/-- A field reads what was written to it. -/
theorem State.field_setField_same {s : State} (a hi lo v : Nat) (h : smapWf resetOf s.regs = true) (hl : lo ≤ hi)
    (hh : hi ≤ 63) :
    (s.setField a hi lo v).field a hi lo = v % 2 ^ (hi + 1 - lo) := by
  unfold State.field State.setField
  rw [State.regN_modReg_same a _ h]
  have hb := bits_replace (s.regN a) hi lo v
  revert hb
  generalize s.regN a - place (bits (s.regN a) hi lo) lo + place (v % 2 ^ (hi + 1 - lo)) lo = x
  intro hb
  rw [← hb]
  unfold bits
  have e : 2 ^ 64 = 2 ^ lo * (2 ^ (hi + 1 - lo) * 2 ^ (63 - hi)) := by
    rw [← Nat.pow_add, ← Nat.pow_add]; congr 1; omega
  rw [e, Nat.mod_mul_right_div_self, Nat.mod_mul_right_mod]

theorem State.regBit_setBit_same {s : State} (a n : Nat) (b : Bool) (h : smapWf resetOf s.regs = true) (hn : n ≤ 63) :
    (s.setBit a n b).regBit a n = b := by
  have hf := State.field_setField_same a n n (flag b) h (Nat.le_refl n) hn
  have e : n + 1 - n = 1 := by omega
  unfold State.field bits at hf
  rw [e] at hf
  unfold State.regBit State.setBit bit
  have : (s.setField a n n (flag b)).regN a / 2 ^ n % 2 = flag b % 2 := hf
  rw [this]
  cases b <;> decide

theorem bit_eq_testBit (v n : Nat) : bit v n = v.testBit n := (Nat.testBit_eq_decide_div_mod_eq ..).symm

/-- The number with one bit replaced, at another bit. -/
theorem bit_replace_other (r n m v : Nat) (h : m ≠ n) :
    bit (r - place (bits r n n) n + place (v % 2 ^ (n + 1 - n)) n) m = bit r m := by
  have e1 : n + 1 - n = 1 := by omega
  have hd : r = 2 ^ n * (r / 2 ^ n) + r % 2 ^ n := (Nat.div_add_mod r (2 ^ n)).symm
  have e : r - place (bits r n n) n + place (v % 2 ^ (n + 1 - n)) n = 2 ^ n * (2 * (r / 2 ^ n / 2) + v % 2) + r % 2 ^ n := by
    unfold place bits
    rw [e1, Nat.pow_one]
    have h2 : r / 2 ^ n = 2 * (r / 2 ^ n / 2) + r / 2 ^ n % 2 := (Nat.div_add_mod _ 2).symm
    generalize r / 2 ^ n / 2 = q at *
    generalize r / 2 ^ n % 2 = b at *
    rw [h2] at hd
    rw [Nat.mul_add] at hd ⊢
    rw [Nat.mul_comm b, Nat.mul_comm (v % 2)]
    omega
  rw [e, bit_eq_testBit, bit_eq_testBit]
  conv => rhs; rw [hd]
  have hl : r % 2 ^ n < 2 ^ n := Nat.mod_lt _ (Nat.two_pow_pos n)
  rw [Nat.testBit_two_pow_mul_add _ hl, Nat.testBit_two_pow_mul_add _ hl]
  split
  · rfl
  · have : m - n = (m - n - 1) + 1 := by omega
    rw [this, Nat.testBit_succ, Nat.testBit_succ]
    congr 1
    omega

theorem State.regBit_setBit_other {s : State} (a : Nat) {n m : Nat} (b : Bool) (h : smapWf resetOf s.regs = true) (hm : m ≠ n)
    (h63 : m ≤ 63) : (s.setBit a n b).regBit a m = s.regBit a m := by
  unfold State.regBit State.setBit State.setField
  rw [State.regN_modReg_same a _ h]
  rw [← bit_replace_other (s.regN a) n m (flag b) hm]
  simp only [bit_eq_testBit, Nat.testBit_mod_two_pow]
  have : m < 64 := by omega
  simp [this]

theorem State.regBit_setBit_elsewhere {s : State} {a c : Nat} (n m : Nat) (b : Bool) (h : smapWf resetOf s.regs = true) (hc : c ≠ a) :
    (s.setBit a n b).regBit c m = s.regBit c m := by
  unfold State.regBit State.regN
  rw [show (s.setBit a n b).reg c = s.reg c from State.reg_setField_other _ _ _ h hc]

/-! Marks. -/

theorem State.mark_setMark_same {s : State} (n : Nat) (v : DWord) (h : smapWf (fun _ => (0 : DWord)) s.marks = true) :
    (s.setMark n v).mark n = v := smapGet_set_same _ n v h

theorem State.mark_setMark_other {s : State} {n m : Nat} (v : DWord) (h : smapWf (fun _ => (0 : DWord)) s.marks = true)
    (hm : m ≠ n) : (s.setMark n v).mark m = s.mark m := smapGet_set_other _ v h hm

@[simp] theorem State.setReg_mark (s : State) (a : Nat) (v : DWord) (m : Nat) : (s.setReg a v).mark m = s.mark m := rfl
@[simp] theorem State.count_mark (s : State) (a n m : Nat) : (s.count a n).mark m = s.mark m := rfl
@[simp] theorem State.setMark_reg (s : State) (n : Nat) (v : DWord) (a : Nat) : (s.setMark n v).reg a = s.reg a := rfl
@[simp] theorem State.tick_reg (s : State) (a : Nat) : s.tick.reg a = s.reg a := rfl
@[simp] theorem State.tick_mark (s : State) (n : Nat) : s.tick.mark n = s.mark n := rfl
@[simp] theorem State.putFlight_reg (s : State) (f : Flight) (a : Nat) : (s.putFlight f).reg a = s.reg a := rfl
@[simp] theorem State.putFlight_mark (s : State) (f : Flight) (n : Nat) : (s.putFlight f).mark n = s.mark n := rfl

end Sys2Proof.Machine
end

