-- ==== Sys2Proof/Laws/Admit.lean ====
section
/-! SUPPORT. Which register writes the access rules let through: every write of the secure world that reaches a register, and no
write of the non-secure world that reaches a secure one (R12, R432). -/

namespace Sys2Proof.Machine

-- One declaration after another: the package as one text then stays within the memory its check allows.
set_option Elab.async false

/-- An address of a register that the tables define. -/
def reachable (addr : Nat) : Bool :=
  match pageOf addr with
  | none => false
  | some (b, i, p) => decide (addr % 0x1000 < 0x40) || (rowAt b i p (addr % 0x1000)).isSome

/-- An address beyond the header of a register marked secure. -/
def markedSecure (addr : Nat) : Bool :=
  match pageOf addr with
  | none => false
  | some (b, i, p) =>
    !decide (addr % 0x1000 < 0x40) && match rowAt b i p (addr % 0x1000) with
      | none => false
      | some (r, _, _) => decide (r.sec = .secure)

/-- A secure write that reaches a register acts. -/
theorem State.allow_secure {s : State} {addr : Nat} {act : State → State} (h : reachable addr = true) : s.allow true addr act = act s := by
  revert h
  unfold reachable State.allow
  generalize pageOf addr = q
  intro h
  cases q with
  | none => cases h
  | some q =>
    obtain ⟨b, i, p⟩ := q
    dsimp only at h ⊢
    by_cases c : addr % 0x1000 < 0x40
    · rw [if_pos c, Bool.not_true, Bool.and_false]
      exact if_neg Bool.false_ne_true
    · rw [decide_eq_false c, Bool.false_or] at h
      rw [if_neg c]
      cases hr : rowAt b i p (addr % 0x1000) with
      | none => rw [hr] at h; cases h
      | some r => exact if_neg Bool.false_ne_true

/-- A non-secure write of a register marked secure is discarded and recorded in the device page. -/
theorem State.allow_closed {s : State} {addr : Nat} {act : State → State} (h : markedSecure addr = true) :
    s.allow false addr act = s.devErr := by
  revert h
  unfold markedSecure State.allow
  generalize pageOf addr = q
  intro h
  cases q with
  | none => cases h
  | some q =>
    obtain ⟨b, i, p⟩ := q
    dsimp only at h ⊢
    rw [Bool.and_eq_true, Bool.not_eq_true', decide_eq_false_iff_not] at h
    obtain ⟨c, h⟩ := h
    rw [if_neg c]
    cases hr : rowAt b i p (addr % 0x1000) with
    | none => rw [hr] at h; cases h
    | some r =>
      rw [hr] at h
      refine if_pos ?_
      show (!false && s.closed b i r.1) = true
      unfold State.closed
      rw [of_decide_eq_true h]
      rfl

/-! The registers that have a command of their own. -/

theorem reach_MK_WR_DATA : reachable MK_WR_DATA = true ∧ markedSecure MK_WR_DATA = true := by decide
theorem reach_MK_WIN : ∀ t : Fin 16, reachable (MK_WIN t) = true ∧ markedSecure (MK_WIN t) = true := by decide
theorem reach_DP_CHIP_ID : reachable DP_CHIP_ID = true ∧ markedSecure DP_CHIP_ID = true := by decide
theorem reach_DP_MAC_PFX : reachable DP_MAC_PFX = true ∧ markedSecure DP_MAC_PFX = true := by decide
theorem reach_DP_CTL : ∀ p : Fin 8, reachable (DP_CTL p) = true ∧ markedSecure (DP_CTL p) = true := by decide
theorem reach_FC_XMAP : ∀ i : Fin 12, reachable (FC_XMAP i) = true ∧ markedSecure (FC_XMAP i) = true := by decide
theorem reach_FC_RETRAIN : ∀ i : Fin 8, reachable (FC_RETRAIN i) = true ∧ markedSecure (FC_RETRAIN i) = true := by decide
theorem reach_PWR_FSET : ∀ k : Fin 113, reachable (PWR_FSET k) = true ∧ markedSecure (PWR_FSET k) = true := by decide +kernel
theorem reach_PWR_DOM : ∀ d : Fin 215, reachable (PWR_DOM d) = true ∧ markedSecure (PWR_DOM d) = true := by decide +kernel
theorem reach_BED_TR_CFG : ∀ n : Fin 256, reachable (BED_TR_CFG n) = true ∧ markedSecure (BED_TR_CFG n) = true := by decide +kernel
theorem reach_QN_RGN : ∀ i : Fin 768, reachable (QN_RGN i) = true ∧ markedSecure (QN_RGN i) = true := by decide +kernel

end Sys2Proof.Machine
end

