-- ==== Sys2Proof/Laws/KeptBase.lean ====
section
/-! SUPPORT. What no command disturbs (canonical form, the queue of commands, whether behaviour is defined): the lemmas that
every later proof of it is assembled from. -/

namespace Sys2Proof.Machine

variable {qs : List Instr} {u : Bool}

theorem canon_iff (s : State) : s.canon = true ↔
    Memory.wf zeroByte s.bed = true ∧ Memory.wf zeroByte s.hbm = true ∧ Memory.wf zeroByte s.nandBytes = true
      ∧ Memory.wf erasedByte s.plArray = true ∧ smapWf resetOf s.regs = true ∧ smapWf (fun _ => (0 : DWord)) s.marks = true := by
  simp only [State.canon, canonParts, Bool.and_eq_true, and_assoc]

theorem kept_iff (s : State) : s.kept qs u = true ↔ s.pending = qs ∧ s.undef = u ∧ s.canon = true := by
  simp only [State.kept, keptParts, State.canon, Bool.and_eq_true, decide_eq_true_eq, and_assoc]

theorem keptParts_iff {pending : List Instr} {undef : Bool} {bed hbm nandBytes plArray : List Host.Cell}
    {regs marks : SMap DWord} : keptParts qs u pending undef bed hbm nandBytes plArray regs marks = true ↔
      (pending = qs ∧ undef = u) ∧ (Memory.wf zeroByte bed = true ∧ Memory.wf zeroByte hbm = true
        ∧ Memory.wf zeroByte nandBytes = true ∧ Memory.wf erasedByte plArray = true ∧ smapWf resetOf regs = true
        ∧ smapWf (fun _ => (0 : DWord)) marks = true) := by
  simp only [keptParts, canonParts, Bool.and_eq_true, decide_eq_true_eq, and_assoc]

theorem canon_of_kept {s : State} (h : s.kept qs u = true) : s.canon = true := ((kept_iff s).1 h).2.2
theorem pending_of_kept {s : State} (h : s.kept qs u = true) : s.pending = qs := ((kept_iff s).1 h).1
theorem undef_of_kept {s : State} (h : s.kept qs u = true) : s.undef = u := ((kept_iff s).1 h).2.1
theorem kept_self {s : State} (h : s.canon = true) : s.kept s.pending s.undef = true := (kept_iff s).2 ⟨rfl, rfl, h⟩

/-- A state looks at ten of its parts alone. -/
theorem kept_mk {pending : List Instr} {timeNs : Nat} {free : Nat} {undef : Bool} {pins : Pins} {jtag : Jtag} {pcie : Pcie} 
    {regs : SMap DWord} {snap : SMap DWord} {bed : List Host.Cell} {bedPoison : List Nat} {hbm : List Host.Cell} 
    {hbmPoison : List Nat} {hbmKey : List (Nat × Nat × Nat)} {hbmReady : Bool} {marks : SMap DWord} 
    {markPtr : SMap Nat} {xlat : List XEntry} {wq : List Posted} {jq : SMap JobQ} {ring : SMap Ring} 
    {relHead : List Nat} {flights : List Flight} {nextFlight : Nat} {mapOp : SMap MapOp} {bedPtr : SMap Nat} 
    {bedDefer : List (Nat × BedReq)} {bankOut : List Nat} {spareBad : List Nat} {winHit : List Nat} 
    {unit : SMap UnitSt} {errWin : SMap Nat} {resident : SMap Resident} {image : SMap Image} 
    {libVer : Option (BitVec 16)} {pageMap : SMap DWord} {pfx : SMap (BitVec 128)} {tensors : SMap Tensor} 
    {nandBytes : List Host.Cell} {moves : List Move} {builds : List Build} {sched : SMap Sched} 
    {schedQ : List SchedWait} {hbmQ : List HbmWait} {hbmRow : SMap Nat} {hbmTrr : SMap (List (Nat × Nat))} 
    {hbmDue : SMap Nat} {hbmTrrDue : List (Nat × Nat)} {hbmData : Bytes} {hbmPtr : SMap Nat} {hbmDrain : List Nat} 
    {hbmTrainTemp : SMap Byte} {retrainReq : List (Nat × Nat)} {retrain : SMap Retrain} {laneCnt : SMap Nat} 
    {lineRepair : SMap Nat} {nandSb : List Superblock} {nandCnt : SMap Nat} {nandTemp : SMap Byte} 
    {plArray : List Host.Cell} {plEc : SMap Word} {plMark : SMap Bool} {plBank0 : PlBank} {plBank1 : PlBank} 
    {plPrefetch : List Nat} {plBranch : List Nat} {plLast : Option Nat} {plRead : Word} {plFetch : Bytes} 
    {tx : List (Nat × Bytes)} {conn : List Conn} {rconn : List RConn} {rxq : List Frame} {rops : List ROp} 
    {nextOpid : Nat} {putFail : List ((Nat × Nat × Nat) × BitVec 16 × Nat)} {putOpen : List (Nat × Nat × Nat)} 
    {pausedBy : List (Nat × Nat)} {pausing : List (Nat × Nat)} {groutNext : SMap Nat} 
    {groutOff : List (Nat × Nat)} {fw : Fw} {slotKey : SMap Nat} {nextKey : Nat} {qnReq : List QReq} {qnPtr : Nat} 
    {mctpOut : List Bytes} {mctpEid : Byte} {mctpIn : List (Nat × Nat × Bytes)} {dbg : Option (BitVec 256 × Byte)} 
    {dbgUsed : Bool} {unlocking : Nat} {session : Option Session} {drainTimer : List Nat} {flrTimer : List Nat} 
    {cfgRec : Option CfgRec} {recDue : List Bytes} {pw : Pw} {subst : List Subst} {roles : SMap Nat} 
    {kcSram : List Host.Cell} {qnSram : List Host.Cell} {qcCache : List Host.Cell} :
    (State.mk pending timeNs free undef pins jtag pcie regs snap bed bedPoison hbm hbmPoison hbmKey hbmReady marks markPtr
      xlat wq jq ring relHead flights nextFlight mapOp bedPtr bedDefer bankOut spareBad winHit unit errWin resident
      image libVer pageMap pfx tensors nandBytes moves builds sched schedQ hbmQ hbmRow hbmTrr hbmDue hbmTrrDue
      hbmData hbmPtr hbmDrain hbmTrainTemp retrainReq retrain laneCnt lineRepair nandSb nandCnt nandTemp plArray
      plEc plMark plBank0 plBank1 plPrefetch plBranch plLast plRead plFetch tx conn rconn rxq rops nextOpid putFail
      putOpen pausedBy pausing groutNext groutOff fw slotKey nextKey qnReq qnPtr mctpOut mctpEid mctpIn dbg dbgUsed
      unlocking session drainTimer flrTimer cfgRec recDue pw subst roles kcSram qnSram qcCache).kept qs u
      = keptParts qs u pending undef bed hbm nandBytes plArray regs marks := rfl

theorem kept_of {s : State} (h : s.kept qs u = true) :
    keptParts qs u s.pending s.undef s.bed s.hbm s.nandBytes s.plArray s.regs s.marks = true := h

theorem wf_nil (d : Nat → Byte) : Memory.wf d [] = true := rfl
theorem smapWf_nil (d : Nat → DWord) : smapWf d [] = true := rfl

theorem kept_bed {s : State} (h : s.kept qs u = true) : Memory.wf zeroByte s.bed = true := (keptParts_iff.1 h).2.1
theorem kept_hbm {s : State} (h : s.kept qs u = true) : Memory.wf zeroByte s.hbm = true := (keptParts_iff.1 h).2.2.1
theorem kept_nand {s : State} (h : s.kept qs u = true) : Memory.wf zeroByte s.nandBytes = true := (keptParts_iff.1 h).2.2.2.1
theorem kept_pl {s : State} (h : s.kept qs u = true) : Memory.wf erasedByte s.plArray = true := (keptParts_iff.1 h).2.2.2.2.1
theorem kept_regs {s : State} (h : s.kept qs u = true) : smapWf resetOf s.regs = true := (keptParts_iff.1 h).2.2.2.2.2.1
theorem kept_marks {s : State} (h : s.kept qs u = true) : smapWf (fun _ => (0 : DWord)) s.marks = true :=
  (keptParts_iff.1 h).2.2.2.2.2.2

/-- One part replaced by another in canonical form. -/
theorem kept_setBed {s : State} {m : List Host.Cell} (h : s.kept qs u = true) (hm : Memory.wf zeroByte m = true) :
    keptParts qs u s.pending s.undef m s.hbm s.nandBytes s.plArray s.regs s.marks = true := by
  have := keptParts_iff.1 h; exact keptParts_iff.2 ⟨this.1, hm, this.2.2⟩
theorem kept_setHbm {s : State} {m : List Host.Cell} (h : s.kept qs u = true) (hm : Memory.wf zeroByte m = true) :
    keptParts qs u s.pending s.undef s.bed m s.nandBytes s.plArray s.regs s.marks = true := by
  have := keptParts_iff.1 h; exact keptParts_iff.2 ⟨this.1, this.2.1, hm, this.2.2.2⟩
theorem kept_setNand {s : State} {m : List Host.Cell} (h : s.kept qs u = true) (hm : Memory.wf zeroByte m = true) :
    keptParts qs u s.pending s.undef s.bed s.hbm m s.plArray s.regs s.marks = true := by
  have := keptParts_iff.1 h; exact keptParts_iff.2 ⟨this.1, this.2.1, this.2.2.1, hm, this.2.2.2.2⟩
theorem kept_setPl {s : State} {m : List Host.Cell} (h : s.kept qs u = true) (hm : Memory.wf erasedByte m = true) :
    keptParts qs u s.pending s.undef s.bed s.hbm s.nandBytes m s.regs s.marks = true := by
  have := keptParts_iff.1 h; exact keptParts_iff.2 ⟨this.1, this.2.1, this.2.2.1, this.2.2.2.1, hm, this.2.2.2.2.2⟩
theorem kept_setRegs {s : State} {m : SMap DWord} (h : s.kept qs u = true) (hm : smapWf resetOf m = true) :
    keptParts qs u s.pending s.undef s.bed s.hbm s.nandBytes s.plArray m s.marks = true := by
  have := keptParts_iff.1 h
  exact keptParts_iff.2 ⟨this.1, this.2.1, this.2.2.1, this.2.2.2.1, this.2.2.2.2.1, hm, this.2.2.2.2.2.2⟩
theorem kept_setMarks {s : State} {m : SMap DWord} (h : s.kept qs u = true) (hm : smapWf (fun _ => (0 : DWord)) m = true) :
    keptParts qs u s.pending s.undef s.bed s.hbm s.nandBytes s.plArray s.regs m = true := by
  have := keptParts_iff.1 h
  exact keptParts_iff.2 ⟨this.1, this.2.1, this.2.2.1, this.2.2.2.1, this.2.2.2.2.1, this.2.2.2.2.2.1, hm⟩

theorem wf_fold {d : Nat → Byte} {α : Type} {f : List Host.Cell → α → List Host.Cell} {l : List α} {m : List Host.Cell}
    (h : Memory.wf d m = true) (hf : ∀ m a, Memory.wf d m = true → Memory.wf d (f m a) = true) :
    Memory.wf d (l.foldl f m) = true := by
  induction l generalizing m with
  | nil => exact h
  | cons a l ih => exact ih (hf m a h)

theorem ite_kept {c : Prop} [Decidable c] {a b : State} (ha : c → a.kept qs u = true) (hb : ¬ c → b.kept qs u = true) :
    (if c then a else b).kept qs u = true := by
  split
  · exact ha ‹_›
  · exact hb ‹_›
theorem ite_kept1 {α : Type} {c : Prop} [Decidable c] {a b : State × α} (ha : c → a.1.kept qs u = true)
    (hb : ¬ c → b.1.kept qs u = true) : (if c then a else b).1.kept qs u = true := by
  split
  · exact ha ‹_›
  · exact hb ‹_›

theorem kept_fst {α : Type} {p : State × α} {s : State} {v : α} (h : p.1.kept qs u = true) (e : p = (s, v)) : s.kept qs u = true := by
  subst e; exact h
theorem kept_fstW {α : Type} {p : Work × α} {w : Work} {v : α} (h : p.1.s.kept qs u = true) (e : p = (w, v)) : w.s.kept qs u = true := by
  subst e; exact h
theorem kept_fstH {α : Type} {p : HodWork × α} {k : HodWork} {v : α} (h : p.1.w.s.kept qs u = true) (e : p = (k, v)) :
    k.w.s.kept qs u = true := by subst e; exact h

theorem kept_fold {α : Type} {f : State → α → State} {l : List α} {s : State} (h : s.kept qs u = true)
    (hf : ∀ s a, s.kept qs u = true → (f s a).kept qs u = true) : (l.foldl f s).kept qs u = true := by
  induction l generalizing s with
  | nil => exact h
  | cons a l ih => exact ih (hf s a h)
theorem kept_fold1 {α β : Type} {f : State × β → α → State × β} {l : List α} {p : State × β} (h : p.1.kept qs u = true)
    (hf : ∀ (p : State × β) a, p.1.kept qs u = true → (f p a).1.kept qs u = true) : (l.foldl f p).1.kept qs u = true := by
  induction l generalizing p with
  | nil => exact h
  | cons a l ih => exact ih (hf p a h)
theorem kept_foldW {α : Type} {f : Work → α → Work} {l : List α} {w : Work} (h : w.s.kept qs u = true)
    (hf : ∀ (w : Work) a, w.s.kept qs u = true → (f w a).s.kept qs u = true) : (l.foldl f w).s.kept qs u = true := by
  induction l generalizing w with
  | nil => exact h
  | cons a l ih => exact ih (hf w a h)
theorem kept_foldW1 {α β : Type} {f : Work × β → α → Work × β} {l : List α} {p : Work × β} (h : p.1.s.kept qs u = true)
    (hf : ∀ (p : Work × β) a, p.1.s.kept qs u = true → (f p a).1.s.kept qs u = true) : (l.foldl f p).1.s.kept qs u = true := by
  induction l generalizing p with
  | nil => exact h
  | cons a l ih => exact ih (hf p a h)
theorem kept_foldH {α : Type} {f : HodWork → α → HodWork} {l : List α} {w : HodWork} (h : w.w.s.kept qs u = true)
    (hf : ∀ (w : HodWork) a, w.w.s.kept qs u = true → (f w a).w.s.kept qs u = true) : (l.foldl f w).w.s.kept qs u = true := by
  induction l generalizing w with
  | nil => exact h
  | cons a l ih => exact ih (hf w a h)
theorem kept_foldH1 {α β : Type} {f : HodWork × β → α → HodWork × β} {l : List α} {p : HodWork × β} (h : p.1.w.s.kept qs u = true)
    (hf : ∀ (p : HodWork × β) a, p.1.w.s.kept qs u = true → (f p a).1.w.s.kept qs u = true) : (l.foldl f p).1.w.s.kept qs u = true := by
  induction l generalizing p with
  | nil => exact h
  | cons a l ih => exact ih (hf p a h)

end Sys2Proof.Machine
end

