-- ==== Sys2Proof/Laws/Flights.lean ====
section
/-! SUPPORT. Descriptors in flight: what replacing one changes, how the commands that run one start and settle, and how the
commands that apply a waiting command-page write reach it. -/

namespace Sys2Proof.Machine

-- One declaration after another: the package as one text then stays within the memory its check allows.
set_option Elab.async false

/-! Flights. -/

theorem find_map_same {l : List Flight} {f g : Flight} (h : l.find? (fun x => decide (x.id = f.id)) = some f) (hg : g.id = f.id) :
    (l.map fun x => if x.id = g.id then g else x).find? (fun x => decide (x.id = f.id)) = some g := by
  induction l with
  | nil => cases h
  | cons x l ih =>
    rw [List.map_cons, List.find?_cons]
    rw [List.find?_cons] at h
    by_cases hx : x.id = f.id
    · rw [if_pos (hx.trans hg.symm)]
      simp [hg]
    · rw [if_neg (fun e => hx (e.trans hg))]
      simp only [hx, decide_false] at h ⊢
      exact ih h

theorem find_map_other {l : List Flight} {g : Flight} {j : Nat} (hj : j ≠ g.id) :
    (l.map fun x => if x.id = g.id then g else x).find? (fun x => decide (x.id = j))
      = l.find? (fun x => decide (x.id = j)) := by
  induction l with
  | nil => rfl
  | cons x l ih =>
    rw [List.map_cons, List.find?_cons, List.find?_cons, ih]
    by_cases hx : x.id = g.id
    · rw [if_pos hx]
      simp [hx, (Ne.symm hj)]
    · rw [if_neg hx]

theorem State.flight_id {s : State} {id : Nat} {f : Flight} (h : s.flight id = some f) : f.id = id := by
  have := List.find?_some h
  simpa using this

theorem State.flight_putFlight_same {s : State} {id : Nat} {f g : Flight} (h : s.flight id = some f) (hg : g.id = f.id) :
    (s.putFlight g).flight id = some g := by
  have hi := State.flight_id h
  subst hi
  exact find_map_same h hg

theorem State.flight_putFlight_other {s : State} {j : Nat} {g : Flight} (hj : j ≠ g.id) :
    (s.putFlight g).flight j = s.flight j := find_map_other hj

/-! Running one. -/

theorem State.onFlight_some {s : State} {id : Nat} {f : Flight} (h : s.flight id = some f) (act : Flight → State → State) :
    s.onFlight id act = act f s := by
  unfold State.onFlight; rw [h]

theorem State.onFlight_none {s : State} {id : Nat} (h : s.flight id = none) (act : Flight → State → State) :
    s.onFlight id act = s := by
  unfold State.onFlight; rw [h]

theorem State.runFlight_ready {s : State} {id cls op : Nat} {ready : Flight → Bool} {body : Flight → Work → Work} {f : Flight}
    (h : s.flight id = some f) (hp : f.phase = .dispatched) (hc : dClass f.desc = cls) (ho : dOp f.desc = op)
    (hr : ready f = true) : s.runFlight id cls op ready body = (body f (Work.start s f.tenant f.strict)).settle f := by
  unfold State.runFlight
  rw [State.onFlight_some h, if_pos ⟨hp, hc, ho, hr⟩]

theorem State.rmoFlight_ready {s : State} {id op : Nat} {go : Flight → State → State} {f : Flight}
    (h : s.flight id = some f) (hp : f.phase = .dispatched) (hc : dClass f.desc = 7) (ho : dOp f.desc = op) :
    s.rmoFlight id op go = go f s := by
  unfold State.rmoFlight
  rw [State.onFlight_some h, if_pos ⟨hp, hc, ho⟩]

/-! Writes of lines: what they leave alone. -/

/-- A state as another, but for what writing memory changes. -/
def State.memFrom (s t : State) : State :=
  { s with bed := t.bed, bedPoison := t.bedPoison, hbm := t.hbm, hbmPoison := t.hbmPoison, hbmKey := t.hbmKey }

theorem State.memFrom_self (s : State) : s.memFrom s = s := rfl

theorem frame_of {s x : State} (h : x = s.memFrom x) : ∃ t, x = s.memFrom t := ⟨x, h⟩

theorem ite_frame {s a b : State} {c : Prop} [Decidable c] (ha : ∃ t, a = s.memFrom t) (hb : ∃ t, b = s.memFrom t) :
    ∃ t, (if c then a else b) = s.memFrom t := by
  split
  · exact ha
  · exact hb

theorem State.writeLine_frame (s : State) (tier : Tier) (key off : Nat) (bs : Bytes) :
    ∃ t, s.writeLine tier key off bs = s.memFrom t := by
  cases tier
  · exact frame_of rfl
  · unfold State.writeLine
    dsimp only
    exact ite_frame (frame_of rfl) (frame_of rfl)

theorem memFrom_fold {α : Type} {g : State → α → State} (hg : ∀ s a, ∃ t, g s a = s.memFrom t) :
    ∀ (l : List α) (s : State), ∃ t, l.foldl g s = s.memFrom t
  | [], s => ⟨s, rfl⟩
  | a :: l, s => by
    obtain ⟨t, ht⟩ := hg s a
    obtain ⟨u, hu⟩ := memFrom_fold hg l (g s a)
    refine ⟨u, ?_⟩
    rw [List.foldl_cons, hu, ht]
    rfl

theorem State.writePhys_frame (s : State) (tier : Tier) (key off : Nat) (bs : Bytes) :
    ∃ t, s.writePhys tier key off bs = s.memFrom t :=
  memFrom_fold (g := fun (s : State) (x : Nat × Nat) => s.writeLine tier key x.1 ((bs.drop (x.1 - off)).take x.2))
    (fun s x => State.writeLine_frame s tier key x.1 _) _ s

theorem Work.apply_frame (w : Work) : ∃ t, w.apply = w.s.memFrom t :=
  memFrom_fold (g := fun (s : State) (p : Put) => s.writePhys p.tier p.key p.off p.data)
    (fun s p => State.writePhys_frame s p.tier p.key p.off p.data) _ w.s

theorem Work.applySome_frame (w : Work) : ∃ t, w.applySome = w.s.tick.memFrom t := by
  unfold Work.applySome
  have key : ∀ (l : List Put) (acc : State × Nat), ∃ t, (l.foldl (fun (acc : State × Nat) p =>
      let bytes := p.data.zipIdx
      let s := bytes.foldl (fun s (b, i) =>
        if Config.freeBit w.s.free (acc.2 + i) then s.writePhys p.tier p.key (p.off + i) [b] else s) acc.1
      (s, acc.2 + p.data.length)) acc).1 = acc.1.memFrom t := by
    intro l
    induction l with
    | nil => exact fun acc => ⟨acc.1, rfl⟩
    | cons p l ih =>
      intro acc
      obtain ⟨t, ht⟩ := memFrom_fold (g := fun (s : State) (x : Byte × Nat) =>
        if Config.freeBit w.s.free (acc.2 + x.2) then s.writePhys p.tier p.key (p.off + x.2) [x.1] else s)
        (fun s x => by
          split
          · exact State.writePhys_frame ..
          · exact ⟨s, rfl⟩) p.data.zipIdx acc.1
      obtain ⟨u, hu⟩ := ih (p.data.zipIdx.foldl (fun (s : State) (x : Byte × Nat) =>
        if Config.freeBit w.s.free (acc.2 + x.2) then s.writePhys p.tier p.key (p.off + x.2) [x.1] else s) acc.1,
        acc.2 + p.data.length)
      exact ⟨u, by rw [List.foldl_cons]; refine hu.trans ?_; rw [ht]; rfl⟩
  obtain ⟨t, ht⟩ := key w.wr.reverse (w.s.tick, 0)
  exact ⟨t, ht⟩

/-- The flight an operation leaves. -/
def Work.flightOf (w : Work) (f : Flight) : Flight :=
  { f with
    phase := if w.out.isEmpty then .ran else .running
    codes := f.codes ++ (w.codes ++ w.err.toList).map fun c => (BitVec.ofNat 16 c.1, BitVec.ofNat 64 c.2)
    warn := f.warn + w.warn
    issued := true
    partly := f.partly || w.partly
    started := true
    late := if w.err.isSome ∨ w.strict then [] else w.late.reverse
    outRec := w.out.reverse }

/-- Everything that settling an operation does: memory changes, the free counter may step, and its own flight moves on. -/
theorem Work.settle_frame (w : Work) (f : Flight) :
    ∃ t n, w.settle f = ({ (w.s.memFrom t) with free := n }).putFlight (w.flightOf f) := by
  show ∃ t n, (if w.err.isSome ∨ w.strict then w.applySome else w.apply).putFlight (w.flightOf f) = _
  by_cases h : w.err.isSome ∨ w.strict
  · obtain ⟨t, ht⟩ := Work.applySome_frame w
    rw [if_pos h, ht]
    exact ⟨t, w.s.free + 1, rfl⟩
  · obtain ⟨t, ht⟩ := Work.apply_frame w
    rw [if_neg h, ht]
    exact ⟨t, w.s.free, rfl⟩

/-- An operation that has written nothing leaves memory alone. -/
theorem Work.settle_quiet {w : Work} (f : Flight) (h : w.wr = []) :
    ∃ n, w.settle f = ({ w.s with free := n }).putFlight (w.flightOf f) := by
  show ∃ n, (if w.err.isSome ∨ w.strict then w.applySome else w.apply).putFlight (w.flightOf f) = _
  by_cases hc : w.err.isSome ∨ w.strict
  · rw [if_pos hc]
    refine ⟨w.s.free + 1, ?_⟩
    unfold Work.applySome
    rw [h]
    rfl
  · rw [if_neg hc]
    refine ⟨w.s.free, ?_⟩
    unfold Work.apply
    rw [h]
    rfl

/-! Command-page writes. -/

theorem State.onFront_eq {s : State} {fn : Nat} {p : Posted} {want : Posted → Bool} {act : State → Posted → State}
    (hf : s.front fn = some p) (hw : want p = true) : s.onFront fn want act = act s p := by
  unfold State.onFront
  rw [hf]
  exact if_pos hw

/-- The last control bit of a CMD_JQn_CTL write. -/
theorem State.onCtl_done {s : State} {t q n : Nat} {p : Posted} {act : State → Nat → State}
    (hf : s.front t = some p) (hk : p.kind = .ctl q)
    (hn : n < 4) (hv : p.val.toNat % 16 = 2 ^ n) : s.onCtl t n act = (act s q).popDone t := by
  unfold State.onCtl
  have hw : p.val.toNat % 2 ^ n = 0 ∧ bit p.val.toNat n = true := by
    have hd := Nat.div_add_mod p.val.toNat 16
    rw [hv] at hd
    have : n = 0 ∨ n = 1 ∨ n = 2 ∨ n = 3 := by omega
    unfold bit
    rcases this with rfl | rfl | rfl | rfl <;> simp <;> omega
  rw [State.onFront_eq hf (by rw [hk]; simp [hw])]
  simp only [hk, hv, Nat.sub_self, if_true]

end Sys2Proof.Machine
end

