-- ==== Sys2Proof/Laws/Memory.lean ====
section
/-! SUPPORT. Where the writes of the Bed and of HBM land: every byte outside them reads as before. -/

namespace Sys2Proof.Machine

-- One declaration after another: the package as one text then stays within the memory its check allows.
set_option Elab.async false

/-- A byte of the Bed, and of HBM as it is held. -/
abbrev State.bedByte (s : State) (a : Nat) : Byte := memByte zeroByte s.bed a
abbrev State.hbmByte (s : State) (a : Nat) : Byte := memByte zeroByte s.hbm a

theorem cutFuel_within {f g off n : Nat} {p : Nat × Nat} (h : p ∈ cutFuel f g off n) : off ≤ p.1 ∧ p.1 + p.2 ≤ off + n := by
  induction f generalizing off n with
  | zero => simp [cutFuel] at h
  | succ f ih =>
    cases n with
    | zero => simp [cutFuel] at h
    | succ n =>
      simp only [cutFuel, List.mem_cons] at h
      rcases h with rfl | h
      · simp only; omega
      · have := ih h
        omega

theorem cut_within {g off n : Nat} {p : Nat × Nat} (h : p ∈ cut g off n) : off ≤ p.1 ∧ p.1 + p.2 ≤ off + n := cutFuel_within h

/-- Both memories in canonical form. -/
def State.memWf (s : State) : Prop := Memory.wf zeroByte s.bed = true ∧ Memory.wf zeroByte s.hbm = true

theorem State.canon_memWf {s : State} (h : s.canon = true) : s.memWf := by
  simp only [State.canon, canonParts, Bool.and_eq_true] at h
  exact ⟨h.1.1.1.1.1, h.1.1.1.1.2⟩

theorem State.memWf_writeLine {s : State} (tier : Tier) (key off : Nat) (bs : Bytes) (h : s.memWf) :
    (s.writeLine tier key off bs).memWf := by
  unfold State.writeLine
  cases tier
  · exact ⟨wf_memWrite _ _ h.1, h.2⟩
  · dsimp only
    apply dite_memWf
    · exact ⟨h.1, wf_memWrite _ _ h.2⟩
    · exact ⟨h.1, wf_memWrite _ _ h.2⟩
where
  dite_memWf {c : Prop} [Decidable c] {a b : State} (ha : a.memWf) (hb : b.memWf) : (if c then a else b).memWf := by
    split
    · exact ha
    · exact hb

/-- A property of two states that a fold keeps. -/
theorem foldl_keeps {α σ : Type} {P : σ → Prop} {g : σ → α → σ} {l : List α} {s : σ} (h : P s)
    (hg : ∀ s a, a ∈ l → P s → P (g s a)) : P (l.foldl g s) := by
  induction l generalizing s with
  | nil => exact h
  | cons a l ih =>
    exact ih (hg s a (List.mem_cons_self ..) h) fun s b hb => hg s b (List.mem_cons_of_mem _ hb)

/-- A write of a line of the Bed reaches its own bytes alone, and one of HBM no byte of the Bed. -/
theorem State.writeLine_bed {s : State} {tier : Tier} (key : Nat) {off : Nat} {bs : Bytes} (h : s.memWf) {x : Nat}
    (hx : tier = .bed → x < off ∨ off + bs.length ≤ x) : (s.writeLine tier key off bs).bedByte x = s.bedByte x := by
  unfold State.writeLine
  cases tier
  · exact memByte_memWrite_outside _ _ h.1 (hx rfl)
  · dsimp only
    exact ite_bed rfl rfl
where
  ite_bed {c : Prop} [Decidable c] {a b : State} {v : Byte} (ha : a.bedByte x = v) (hb : b.bedByte x = v) :
      (if c then a else b).bedByte x = v := by
    split
    · exact ha
    · exact hb

theorem State.lineUnder_length (s : State) (key line : Nat) (h : s.lineKey line = key) :
    (s.lineUnder key line).length = 64 := by
  unfold State.lineUnder
  simp [h, memRead]

theorem State.writePhys_bed {s : State} {tier : Tier} (key : Nat) {off : Nat} {bs : Bytes} (h : s.memWf) {x : Nat}
    (hx : tier = .bed → x < off ∨ off + bs.length ≤ x) :
    (s.writePhys tier key off bs).memWf ∧ (s.writePhys tier key off bs).bedByte x = s.bedByte x := by
  unfold State.writePhys
  refine foldl_keeps (P := fun t : State => t.memWf ∧ t.bedByte x = s.bedByte x)
    (g := fun (s : State) (x : Nat × Nat) => s.writeLine tier key x.1 ((bs.drop (x.1 - off)).take x.2)) ⟨h, rfl⟩ ?_
  intro t p hp ht
  refine ⟨State.memWf_writeLine tier key _ _ ht.1, ?_⟩
  rw [State.writeLine_bed key ht.1, ht.2]
  intro e
  have hw := cut_within hp
  have hl : ((bs.drop (p.1 - off)).take p.2).length ≤ p.2 := by simp only [List.length_take]; omega
  rcases hx e with hx | hx <;> omega

/-- The Bed bytes an operation's writes cover. -/
def Work.coversBed (w : Work) (x : Nat) : Bool :=
  w.wr.any fun p => decide (p.tier = .bed) && decide (p.off ≤ x) && decide (x < p.off + p.data.length)

theorem Work.not_covered {w : Work} {x : Nat} (h : w.coversBed x = false) {p : Put} (hp : p ∈ w.wr) (hb : p.tier = .bed) :
    x < p.off ∨ p.off + p.data.length ≤ x := by
  unfold Work.coversBed at h
  rw [List.any_eq_false] at h
  have := h p hp
  simp only [hb, decide_true, Bool.true_and, Bool.and_eq_true, decide_eq_true_eq] at this
  omega

theorem Work.apply_bed {w : Work} (h : w.s.memWf) {x : Nat} (hx : w.coversBed x = false) :
    w.apply.bedByte x = w.s.bedByte x := by
  unfold Work.apply
  refine (foldl_keeps (P := fun t : State => t.memWf ∧ t.bedByte x = w.s.bedByte x)
    (g := fun (s : State) (p : Put) => s.writePhys p.tier p.key p.off p.data) ⟨h, rfl⟩ ?_).2
  intro t p hp ht
  have := State.writePhys_bed p.key (off := p.off) (bs := p.data) ht.1 (x := x)
    (fun e => Work.not_covered hx (List.mem_reverse.1 hp) e)
  exact ⟨this.1, this.2.trans ht.2⟩

theorem Work.applySome_bed {w : Work} (h : w.s.memWf) {x : Nat} (hx : w.coversBed x = false) :
    w.applySome.bedByte x = w.s.bedByte x := by
  unfold Work.applySome
  refine (foldl_keeps (P := fun t : State × Nat => t.1.memWf ∧ t.1.bedByte x = w.s.bedByte x) ⟨h, rfl⟩ ?_).2
  intro t p hp ht
  refine foldl_keeps (P := fun t : State => t.memWf ∧ t.bedByte x = w.s.bedByte x)
    (g := fun (s : State) (y : Byte × Nat) =>
      if Config.freeBit w.s.free (t.2 + y.2) then s.writePhys p.tier p.key (p.off + y.2) [y.1] else s) ht ?_
  intro u y hy hu
  split
  · have hc := Work.not_covered hx (List.mem_reverse.1 hp)
    have hi : y.2 < p.data.length := by
      have := List.mem_zipIdx (x := y.1) (i := y.2) hy
      omega
    have := State.writePhys_bed p.key (off := p.off + y.2) (bs := [y.1]) hu.1 (x := x)
      (fun e => by
        simp only [List.length_singleton]
        rcases hc e with hc | hc <;> omega)
    exact ⟨this.1, this.2.trans hu.2⟩
  · exact hu

/-- Settling an operation changes no byte of the Bed outside the operation's own writes. -/
theorem Work.settle_bed {w : Work} (f : Flight) (h : w.s.memWf) {x : Nat} (hx : w.coversBed x = false) :
    (w.settle f).bedByte x = w.s.bedByte x := by
  unfold Work.settle
  dsimp only
  split
  · exact Work.applySome_bed h hx
  · exact Work.apply_bed h hx

/-! HBM, line by line: a write of a line held under another key rewrites the whole line (R386). -/

theorem leBytes_length (n v : Nat) : (leBytes n v).length = n := by
  induction n generalizing v with
  | zero => rfl
  | succ n ih => simp [leBytes, ih]

theorem xtsBlocks_length (f : Bytes → Bytes) {t : Bytes} (ht : t.length ≤ 16) (bs : List Bytes) :
    (xtsBlocks f t bs).length ≤ 16 * bs.length := by
  induction bs generalizing t with
  | nil => simp [xtsBlocks]
  | cons b bs ih =>
    have h := ih (t := xtsNext t) (by unfold xtsNext; exact Nat.le_of_eq (leBytes_length _ _))
    simp only [xtsBlocks, List.length_append, List.length_cons]
    have : (xorBytes (f (xorBytes b t)) t).length ≤ t.length := by simp only [xorBytes, List.length_zipWith]; omega
    omega

theorem aesEnc_length (key blk : Bytes) : (aesEnc key blk).length ≤ 16 := by
  unfold aesEnc
  simp only [xorBytes, shiftRows, List.length_zipWith, List.length_map, List.length_range]
  omega

theorem chunksFuel_length {α : Type} {f n k : Nat} {l : List α} (_hn : 0 < n) (hl : l.length ≤ n * k) :
    (chunksFuel f n l).length ≤ k := by
  induction f generalizing l k with
  | zero => simp [chunksFuel]
  | succ f ih =>
    cases l with
    | nil => simp [chunksFuel]
    | cons a l =>
      cases k with
      | zero => simp at hl
      | succ k =>
        simp only [chunksFuel, List.length_cons]
        have := ih (k := k) (l := (a :: l).drop n) (by
          simp only [List.length_drop, Nat.mul_succ] at hl ⊢
          omega)
        omega

theorem xts_length (f : Bytes → Bytes) {t l : Bytes} (ht : t.length ≤ 16) (hl : l.length ≤ 64) :
    (xtsBlocks f t (chunks 16 l)).length ≤ 64 := by
  have h1 := xtsBlocks_length f ht (chunks 16 l)
  have h2 : (chunks 16 l).length ≤ 4 := chunksFuel_length (by omega) (by omega)
  omega

theorem State.lineUnder_le (s : State) (key line : Nat) : (s.lineUnder key line).length ≤ 64 := by
  unfold State.lineUnder
  dsimp only
  split
  · simp [memRead]
  · exact xts_length _ (aesEnc_length ..) (xts_length _ (aesEnc_length ..) (by simp [memRead]))

theorem splice_length_le {α : Type} {l new : List α} {i n : Nat} (hl : l.length ≤ n) (hn : i + new.length ≤ n) :
    (splice l i new).length ≤ n := by
  simp only [splice, List.length_append, List.length_take, List.length_drop]
  omega

/-- A write of a line of HBM reaches that line alone, and one of the Bed no byte of HBM. -/
theorem State.writeLine_hbm {s : State} {tier : Tier} (key : Nat) {off : Nat} {bs : Bytes} (h : s.memWf) {x : Nat}
    (hb : off % 64 + bs.length ≤ 64) (hx : tier = .hbm → x / 64 ≠ off / 64) :
    (s.writeLine tier key off bs).hbmByte x = s.hbmByte x := by
  unfold State.writeLine
  cases tier
  · rfl
  · have hx := hx rfl
    dsimp only
    refine ite_hbm ?_ ?_
    · exact memByte_memWrite_outside _ _ h.2 (by omega)
    · have hl := splice_length_le (i := off % 64) (new := bs) (State.lineUnder_le
        { s with hbmPoison := if bs.length = 64 then s.hbmPoison.filter (· != off / 64) else s.hbmPoison } key (off / 64)) hb
      exact memByte_memWrite_outside _ _ h.2 (by omega)
where
  ite_hbm {c : Prop} [Decidable c] {a b : State} {v : Byte} (ha : a.hbmByte x = v) (hb : b.hbmByte x = v) :
      (if c then a else b).hbmByte x = v := by
    split
    · exact ha
    · exact hb

theorem cutFuel_line {f g off n : Nat} (hg : 0 < g) {p : Nat × Nat} (h : p ∈ cutFuel f g off n) : p.1 % g + p.2 ≤ g := by
  induction f generalizing off n with
  | zero => simp [cutFuel] at h
  | succ f ih =>
    cases n with
    | zero => simp [cutFuel] at h
    | succ n =>
      simp only [cutFuel, List.mem_cons] at h
      rcases h with rfl | h
      · have := Nat.mod_lt off hg
        simp only
        omega
      · exact ih h

/-- Whether a line of HBM holds bytes of a range. -/
def lineMeets (x off n : Nat) : Bool := decide (off / 64 ≤ x / 64) && decide (x / 64 * 64 < off + n)

theorem cutFuel_pos {f g off n : Nat} (hg : 0 < g) {p : Nat × Nat} (h : p ∈ cutFuel f g off n) : 0 < p.2 := by
  induction f generalizing off n with
  | zero => simp [cutFuel] at h
  | succ f ih =>
    cases n with
    | zero => simp [cutFuel] at h
    | succ n =>
      simp only [cutFuel, List.mem_cons] at h
      rcases h with rfl | h
      · have := Nat.mod_lt off hg
        simp only
        omega
      · exact ih h

theorem State.writePhys_hbm {s : State} {tier : Tier} (key : Nat) {off : Nat} {bs : Bytes} (h : s.memWf) {x : Nat}
    (hx : tier = .hbm → lineMeets x off bs.length = false) :
    (s.writePhys tier key off bs).memWf ∧ (s.writePhys tier key off bs).hbmByte x = s.hbmByte x := by
  unfold State.writePhys
  refine foldl_keeps (P := fun t : State => t.memWf ∧ t.hbmByte x = s.hbmByte x)
    (g := fun (s : State) (x : Nat × Nat) => s.writeLine tier key x.1 ((bs.drop (x.1 - off)).take x.2)) ⟨h, rfl⟩ ?_
  intro t p hp ht
  refine ⟨State.memWf_writeLine tier key _ _ ht.1, ?_⟩
  have hw := cut_within hp
  have hl : ((bs.drop (p.1 - off)).take p.2).length ≤ p.2 := by simp only [List.length_take]; omega
  have hc := cutFuel_line (by omega : 0 < 64) hp
  have hpos : 0 < p.2 := cutFuel_pos (by omega : 0 < 64) hp
  rw [State.writeLine_hbm key ht.1 (by omega), ht.2]
  intro e
  have := hx e
  unfold lineMeets at this
  simp only [Bool.and_eq_false_iff, decide_eq_false_iff_not] at this
  omega

/-- The HBM lines an operation's writes cover. -/
def Work.coversHbm (w : Work) (x : Nat) : Bool :=
  w.wr.any fun p => decide (p.tier = .hbm) && lineMeets x p.off p.data.length

theorem Work.not_coveredHbm {w : Work} {x : Nat} (h : w.coversHbm x = false) {p : Put} (hp : p ∈ w.wr) (hb : p.tier = .hbm) :
    lineMeets x p.off p.data.length = false := by
  unfold Work.coversHbm at h
  rw [List.any_eq_false] at h
  have := h p hp
  simpa [hb] using this

theorem Work.apply_hbm {w : Work} (h : w.s.memWf) {x : Nat} (hx : w.coversHbm x = false) :
    w.apply.hbmByte x = w.s.hbmByte x := by
  unfold Work.apply
  refine (foldl_keeps (P := fun t : State => t.memWf ∧ t.hbmByte x = w.s.hbmByte x)
    (g := fun (s : State) (p : Put) => s.writePhys p.tier p.key p.off p.data) ⟨h, rfl⟩ ?_).2
  intro t p hp ht
  have := State.writePhys_hbm p.key (off := p.off) (bs := p.data) ht.1 (x := x)
    (fun e => Work.not_coveredHbm hx (List.mem_reverse.1 hp) e)
  exact ⟨this.1, this.2.trans ht.2⟩

theorem Work.applySome_hbm {w : Work} (h : w.s.memWf) {x : Nat} (hx : w.coversHbm x = false) :
    w.applySome.hbmByte x = w.s.hbmByte x := by
  unfold Work.applySome
  refine (foldl_keeps (P := fun t : State × Nat => t.1.memWf ∧ t.1.hbmByte x = w.s.hbmByte x) ⟨h, rfl⟩ ?_).2
  intro t p hp ht
  refine foldl_keeps (P := fun t : State => t.memWf ∧ t.hbmByte x = w.s.hbmByte x)
    (g := fun (s : State) (y : Byte × Nat) =>
      if Config.freeBit w.s.free (t.2 + y.2) then s.writePhys p.tier p.key (p.off + y.2) [y.1] else s) ht ?_
  intro u y hy hu
  split
  · have hi : y.2 < p.data.length := by
      have := List.mem_zipIdx (x := y.1) (i := y.2) hy
      omega
    have := State.writePhys_hbm p.key (off := p.off + y.2) (bs := [y.1]) hu.1 (x := x)
      (fun e => by
        have hc := Work.not_coveredHbm hx (List.mem_reverse.1 hp) e
        unfold lineMeets at hc ⊢
        simp only [List.length_singleton, Bool.and_eq_false_iff, decide_eq_false_iff_not] at hc ⊢
        omega)
    exact ⟨this.1, this.2.trans hu.2⟩
  · exact hu

/-- Settling an operation changes no byte of HBM outside the lines of the operation's own writes. -/
theorem Work.settle_hbm {w : Work} (f : Flight) (h : w.s.memWf) {x : Nat} (hx : w.coversHbm x = false) :
    (w.settle f).hbmByte x = w.s.hbmByte x := by
  unfold Work.settle
  dsimp only
  split
  · exact Work.applySome_hbm h hx
  · exact Work.apply_hbm h hx

/-! Reads and writes of the Bed, whole: a byte written reads back. -/

theorem bed_written {bs : Bytes} {off : Nat} (f : Nat) : ∀ (s : State) (o n : Nat), Memory.wf zeroByte s.bed = true → off ≤ o →
    o + n ≤ off + bs.length → (n = 0 ∨ n + o % 64 ≤ 64 * f) →
    let t := (cutFuel f 64 o n).foldl (fun (s : State) (p : Nat × Nat) => s.writeLine .bed 0 p.1 ((bs.drop (p.1 - off)).take p.2)) s
    ∀ x, t.bedByte x = if o ≤ x ∧ x < o + n then bs.getD (x - off) 0 else s.bedByte x := by
  induction f with
  | zero =>
    intro s o n _ _ _ hn t x
    have h0 : n = 0 := by omega
    rw [if_neg (by omega)]
    rfl
  | succ f ih =>
    intro s o n hw ho hl hn t x
    cases n with
    | zero =>
      rw [if_neg (by omega)]
      rfl
    | succ n =>
      have hm : o % 64 < 64 := Nat.mod_lt _ (by omega)
      obtain ⟨k, hk⟩ : ∃ k, k = min (n + 1) (64 - o % 64) := ⟨_, rfl⟩
      have hlen : ((bs.drop (o - off)).take k).length = k := by
        simp only [List.length_take, List.length_drop]; omega
      have hw1 : Memory.wf zeroByte (s.writeLine .bed 0 o ((bs.drop (o - off)).take k)).bed = true := wf_memWrite _ _ hw
      have h1 := ih (s.writeLine .bed 0 o ((bs.drop (o - off)).take k)) (o + k) (n + 1 - k) hw1 (by omega) (by omega) (by omega) x
      have ht : t = (cutFuel f 64 (o + k) (n + 1 - k)).foldl
          (fun (s : State) (p : Nat × Nat) => s.writeLine .bed 0 p.1 ((bs.drop (p.1 - off)).take p.2))
          (s.writeLine .bed 0 o ((bs.drop (o - off)).take k)) := by
        rw [hk]; rfl
      rw [ht, h1]
      by_cases hx : o + k ≤ x ∧ x < o + k + (n + 1 - k)
      · rw [if_pos hx, if_pos (by omega)]
      · rw [if_neg hx]
        show memByte zeroByte (memWrite zeroByte s.bed o ((bs.drop (o - off)).take k)) x = _
        by_cases hi : o ≤ x ∧ x < o + k
        · have hb := memByte_memWrite_inside o ((bs.drop (o - off)).take k) hw (i := x - o) (by rw [hlen]; omega)
          rw [show o + (x - o) = x by omega] at hb
          rw [hb, if_pos (by omega), List.getElem_take, List.getElem_drop, List.getD_eq_getElem?_getD,
            List.getElem?_eq_getElem (by omega)]
          simp only [Option.getD_some]
          congr 1
          omega
        · rw [memByte_memWrite_outside o _ hw (by rw [hlen]; omega), if_neg (by omega)]

/-- What a write of the Bed leaves in every byte. -/
theorem State.writePhys_bed_byte {s : State} {off : Nat} {bs : Bytes} (h : Memory.wf zeroByte s.bed = true) (x : Nat) :
    (s.writePhys .bed 0 off bs).bedByte x = if off ≤ x ∧ x < off + bs.length then bs.getD (x - off) 0 else s.bedByte x :=
  bed_written (bs.length / 64 + 2) s off bs.length h (Nat.le_refl _) (Nat.le_refl _) (by
    right
    have : off % 64 < 64 := Nat.mod_lt _ (by omega)
    omega) x

theorem memRead_append (d : Nat → Byte) (m : List Host.Cell) (a k n : Nat) :
    memRead d m a k ++ memRead d m (a + k) n = memRead d m a (k + n) := by
  unfold memRead
  rw [List.range_add, List.map_append, List.map_map]
  congr 1
  apply List.map_congr_left
  intro i _
  simp only [Function.comp, Nat.add_assoc]

/-- A read of the Bed is its bytes in order. -/
theorem State.readPhys_bed (s : State) (off n : Nat) : s.readPhys .bed 0 off n = memRead zeroByte s.bed off n := by
  have key : ∀ f o n, (n = 0 ∨ n + o % 64 ≤ 64 * f) →
      (cutFuel f 64 o n).flatMap (fun (p : Nat × Nat) => s.readLine .bed 0 p.1 p.2) = memRead zeroByte s.bed o n := by
    intro f
    induction f with
    | zero =>
      intro o n hn
      have : n = 0 := by omega
      subst this
      rfl
    | succ f ih =>
      intro o n hn
      cases n with
      | zero => rfl
      | succ n =>
        have hm : o % 64 < 64 := Nat.mod_lt _ (by omega)
        obtain ⟨k, hk⟩ : ∃ k, k = min (n + 1) (64 - o % 64) := ⟨_, rfl⟩
        show (((o, min (n + 1) (64 - o % 64)) : Nat × Nat) :: cutFuel f 64 (o + min (n + 1) (64 - o % 64)) (n + 1 - min (n + 1) (64 - o % 64))).flatMap
          (fun (p : Nat × Nat) => s.readLine .bed 0 p.1 p.2) = _
        rw [← hk, List.flatMap_cons, ih (o + k) (n + 1 - k) (by omega)]
        show memRead zeroByte s.bed o k ++ _ = _
        rw [memRead_append, show k + (n + 1 - k) = n + 1 by omega]
  exact key (n / 64 + 2) off n (by
    right
    have : off % 64 < 64 := Nat.mod_lt _ (by omega)
    omega)

/-- A write of the Bed changes the Bed and its poison alone. -/
theorem State.writePhys_bed_frame (s : State) (key off : Nat) (bs : Bytes) :
    ∃ b p, s.writePhys .bed key off bs = { s with bed := b, bedPoison := p } := by
  unfold State.writePhys
  refine foldl_keeps (P := fun t : State => ∃ b p, t = { s with bed := b, bedPoison := p })
    (g := fun (s : State) (x : Nat × Nat) => s.writeLine .bed key x.1 ((bs.drop (x.1 - off)).take x.2)) ⟨_, _, rfl⟩ ?_
  rintro t a - ⟨b, p, rfl⟩
  exact ⟨_, _, rfl⟩

end Sys2Proof.Machine
end

