-- ==== Sys2Proof/Laws/AsideBase.lean ====
section
/-! SUPPORT. What the operation of an engine leaves alone while it runs: all of the state but its registers, the resident
operands, the loaded images, the Page Map, the Prefix Table and the free counter; and, where it may write an event (`ev`), the
ring and what lies in HBM. Its writes of memory come when it settles. -/

namespace Sys2Proof.Machine

-- One declaration after another: the package as one text then stays within the memory its check allows.
set_option Elab.async false

/-- A state is another, but for what the operation of an engine may touch. -/
def State.aside (s og : State) (ev : Bool) : Prop :=
  (ev = false → s.hbm = og.hbm ∧ s.hbmPoison = og.hbmPoison ∧ s.hbmKey = og.hbmKey ∧ s.ring = og.ring ∧ s.pcie = og.pcie)
    ∧ { s with free := og.free, regs := og.regs, resident := og.resident, image := og.image, pageMap := og.pageMap, pfx := og.pfx,
                   hbm := og.hbm, hbmPoison := og.hbmPoison, hbmKey := og.hbmKey, ring := og.ring, pcie := og.pcie } = og

/-- The same of the parts of a state. -/
def asideParts (og : State) (ev : Bool) (pending : List Instr) (timeNs : Nat) (undef : Bool) (pins : Pins) (jtag : Jtag) (pcie : Pcie)
    (snap : SMap DWord) (bed : List Host.Cell) (bedPoison : List Nat) (hbm : List Host.Cell)
    (hbmPoison : List Nat) (hbmKey : List (Nat × Nat × Nat)) (hbmReady : Bool) (marks : SMap DWord)
    (markPtr : SMap Nat) (xlat : List XEntry) (wq : List Posted) (jq : SMap JobQ) (ring : SMap Ring)
    (relHead : List Nat) (flights : List Flight) (nextFlight : Nat) (mapOp : SMap MapOp) (bedPtr : SMap Nat)
    (bedDefer : List (Nat × BedReq)) (bankOut : List Nat) (spareBad : List Nat) (winHit : List Nat)
    (unit : SMap UnitSt) (errWin : SMap Nat) (libVer : Option (BitVec 16)) (tensors : SMap Tensor)
    (nandBytes : List Host.Cell) (moves : List Move) (builds : List Build) (sched : SMap Sched)
    (schedQ : List SchedWait) (hbmQ : List HbmWait) (hbmRow : SMap Nat) (hbmTrr : SMap (List (Nat × Nat)))
    (hbmDue : SMap Nat) (hbmTrrDue : List (Nat × Nat)) (hbmData : Bytes) (hbmPtr : SMap Nat) (hbmDrain : List Nat)
    (hbmTrainTemp : SMap Byte) (retrainReq : List (Nat × Nat)) (retrain : SMap Retrain) (laneCnt : SMap Nat)
    (lineRepair : SMap Nat) (nandSb : List Superblock) (nandCnt : SMap Nat) (nandTemp : SMap Byte)
    (plArray : List Host.Cell) (plEc : SMap Word) (plMark : SMap Bool) (plBank0 : PlBank) (plBank1 : PlBank)
    (plPrefetch : List Nat) (plBranch : List Nat) (plLast : Option Nat) (plRead : Word) (plFetch : Bytes)
    (tx : List (Nat × Bytes)) (conn : List Conn) (rconn : List RConn) (rxq : List Frame) (rops : List ROp)
    (nextOpid : Nat) (putFail : List ((Nat × Nat × Nat) × BitVec 16 × Nat)) (putOpen : List (Nat × Nat × Nat))
    (pausedBy : List (Nat × Nat)) (pausing : List (Nat × Nat)) (groutNext : SMap Nat)
    (groutOff : List (Nat × Nat)) (fw : Fw) (slotKey : SMap Nat) (nextKey : Nat) (qnReq : List QReq) (qnPtr : Nat)
    (mctpOut : List Bytes) (mctpEid : Byte) (mctpIn : List (Nat × Nat × Bytes)) (dbg : Option (BitVec 256 × Byte))
    (dbgUsed : Bool) (unlocking : Nat) (session : Option Session) (drainTimer : List Nat) (flrTimer : List Nat)
    (cfgRec : Option CfgRec) (recDue : List Bytes) (pw : Pw) (subst : List Subst) (roles : SMap Nat)
    (kcSram : List Host.Cell) (qnSram : List Host.Cell) (qcCache : List Host.Cell) : Prop :=
  (ev = false → hbm = og.hbm ∧ hbmPoison = og.hbmPoison ∧ hbmKey = og.hbmKey ∧ ring = og.ring ∧ pcie = og.pcie)
    ∧ State.mk pending timeNs og.free undef pins jtag og.pcie og.regs snap bed bedPoison og.hbm og.hbmPoison og.hbmKey
    hbmReady marks markPtr xlat wq jq og.ring relHead flights nextFlight mapOp bedPtr bedDefer bankOut spareBad
    winHit unit errWin og.resident og.image libVer og.pageMap og.pfx tensors nandBytes moves builds sched schedQ
    hbmQ hbmRow hbmTrr hbmDue hbmTrrDue hbmData hbmPtr hbmDrain hbmTrainTemp retrainReq retrain laneCnt lineRepair
    nandSb nandCnt nandTemp plArray plEc plMark plBank0 plBank1 plPrefetch plBranch plLast plRead plFetch tx conn
    rconn rxq rops nextOpid putFail putOpen pausedBy pausing groutNext groutOff fw slotKey nextKey qnReq qnPtr
    mctpOut mctpEid mctpIn dbg dbgUsed unlocking session drainTimer flrTimer cfgRec recDue pw subst roles kcSram
    qnSram qcCache = og

variable {og : State} {ev : Bool}

theorem aside_mk {pending : List Instr} {timeNs : Nat} {free : Nat} {undef : Bool} {pins : Pins} {jtag : Jtag} {pcie : Pcie}
    {regs : SMap DWord} {snap : SMap DWord} {bed : List Host.Cell} {bedPoison : List Nat} {hbm : List Host.Cell}
    {hbmPoison : List Nat} {hbmKey : List (Nat × Nat × Nat)} {hbmReady : Bool} {marks : SMap DWord}
    {markPtr : SMap Nat} {xlat : List XEntry} {wq : List Posted} {jq : SMap JobQ} {ring : SMap Ring}
    {relHead : List Nat} {flights : List Flight} {nextFlight : Nat} {mapOp : SMap MapOp} {bedPtr : SMap Nat}
    {bedDefer : List (Nat × BedReq)} {bankOut : List Nat} {spareBad : List Nat} {winHit : List Nat}
    {unit : SMap UnitSt} {errWin : SMap Nat} {resident : SMap Resident} {image : SMap Image}
    {libVer : Option (BitVec 16)} {pageMap : SMap DWord} {pfx : SMap (BitVec 128)} {tensors : SMap Tensor}
    {nandBytes : List Host.Cell} {moves : List Move} {builds : List Build} {sched : SMap Sched}
    {schedQ : List SchedWait} {hbmQ : List HbmWait} {hbmRow : SMap Nat} {hbmTrr : SMap (List (Nat × Nat))}
    {hbmDue : SMap Nat} {hbmTrrDue : List (Nat × Nat)} {hbmData : Bytes} {hbmPtr : SMap Nat} {hbmDrain : List Nat}
    {hbmTrainTemp : SMap Byte} {retrainReq : List (Nat × Nat)} {retrain : SMap Retrain} {laneCnt : SMap Nat}
    {lineRepair : SMap Nat} {nandSb : List Superblock} {nandCnt : SMap Nat} {nandTemp : SMap Byte}
    {plArray : List Host.Cell} {plEc : SMap Word} {plMark : SMap Bool} {plBank0 : PlBank} {plBank1 : PlBank}
    {plPrefetch : List Nat} {plBranch : List Nat} {plLast : Option Nat} {plRead : Word} {plFetch : Bytes}
    {tx : List (Nat × Bytes)} {conn : List Conn} {rconn : List RConn} {rxq : List Frame} {rops : List ROp}
    {nextOpid : Nat} {putFail : List ((Nat × Nat × Nat) × BitVec 16 × Nat)} {putOpen : List (Nat × Nat × Nat)}
    {pausedBy : List (Nat × Nat)} {pausing : List (Nat × Nat)} {groutNext : SMap Nat}
    {groutOff : List (Nat × Nat)} {fw : Fw} {slotKey : SMap Nat} {nextKey : Nat} {qnReq : List QReq} {qnPtr : Nat}
    {mctpOut : List Bytes} {mctpEid : Byte} {mctpIn : List (Nat × Nat × Bytes)} {dbg : Option (BitVec 256 × Byte)}
    {dbgUsed : Bool} {unlocking : Nat} {session : Option Session} {drainTimer : List Nat} {flrTimer : List Nat}
    {cfgRec : Option CfgRec} {recDue : List Bytes} {pw : Pw} {subst : List Subst} {roles : SMap Nat}
    {kcSram : List Host.Cell} {qnSram : List Host.Cell} {qcCache : List Host.Cell} :
    (State.mk pending timeNs free undef pins jtag pcie regs snap bed bedPoison hbm hbmPoison hbmKey hbmReady marks markPtr
    xlat wq jq ring relHead flights nextFlight mapOp bedPtr bedDefer bankOut spareBad winHit unit errWin resident
    image libVer pageMap pfx tensors nandBytes moves builds sched schedQ hbmQ hbmRow hbmTrr hbmDue hbmTrrDue
    hbmData hbmPtr hbmDrain hbmTrainTemp retrainReq retrain laneCnt lineRepair nandSb nandCnt nandTemp plArray
    plEc plMark plBank0 plBank1 plPrefetch plBranch plLast plRead plFetch tx conn rconn rxq rops nextOpid putFail
    putOpen pausedBy pausing groutNext groutOff fw slotKey nextKey qnReq qnPtr mctpOut mctpEid mctpIn dbg dbgUsed
    unlocking session drainTimer flrTimer cfgRec recDue pw subst roles kcSram qnSram qcCache).aside og ev
      = asideParts og ev pending timeNs undef pins jtag pcie snap bed bedPoison hbm hbmPoison hbmKey hbmReady marks markPtr xlat wq jq
      ring relHead flights nextFlight mapOp bedPtr bedDefer bankOut spareBad winHit unit errWin libVer tensors
      nandBytes moves builds sched schedQ hbmQ hbmRow hbmTrr hbmDue hbmTrrDue hbmData hbmPtr hbmDrain hbmTrainTemp
      retrainReq retrain laneCnt lineRepair nandSb nandCnt nandTemp plArray plEc plMark plBank0 plBank1 plPrefetch
      plBranch plLast plRead plFetch tx conn rconn rxq rops nextOpid putFail putOpen pausedBy pausing groutNext
      groutOff fw slotKey nextKey qnReq qnPtr mctpOut mctpEid mctpIn dbg dbgUsed unlocking session drainTimer
      flrTimer cfgRec recDue pw subst roles kcSram qnSram qcCache := rfl

theorem aside_of {s : State} (h : s.aside og ev) : asideParts og ev s.pending s.timeNs s.undef s.pins s.jtag s.pcie s.snap s.bed s.bedPoison s.hbm s.hbmPoison s.hbmKey s.hbmReady
    s.marks s.markPtr s.xlat s.wq s.jq s.ring s.relHead s.flights s.nextFlight s.mapOp s.bedPtr s.bedDefer
    s.bankOut s.spareBad s.winHit s.unit s.errWin s.libVer s.tensors s.nandBytes s.moves s.builds s.sched s.schedQ
    s.hbmQ s.hbmRow s.hbmTrr s.hbmDue s.hbmTrrDue s.hbmData s.hbmPtr s.hbmDrain s.hbmTrainTemp s.retrainReq
    s.retrain s.laneCnt s.lineRepair s.nandSb s.nandCnt s.nandTemp s.plArray s.plEc s.plMark s.plBank0 s.plBank1
    s.plPrefetch s.plBranch s.plLast s.plRead s.plFetch s.tx s.conn s.rconn s.rxq s.rops s.nextOpid s.putFail
    s.putOpen s.pausedBy s.pausing s.groutNext s.groutOff s.fw s.slotKey s.nextKey s.qnReq s.qnPtr s.mctpOut
    s.mctpEid s.mctpIn s.dbg s.dbgUsed s.unlocking s.session s.drainTimer s.flrTimer s.cfgRec s.recDue s.pw
    s.subst s.roles s.kcSram s.qnSram s.qcCache := h

theorem aside_self (s : State) (ev : Bool) : s.aside s ev := ⟨fun _ => ⟨rfl, rfl, rfl, rfl, rfl⟩, rfl⟩

theorem ite_aside {c : Prop} [Decidable c] {a b : State} (ha : c → a.aside og ev) (hb : ¬ c → b.aside og ev) :
    (if c then a else b).aside og ev := by
  split
  · exact ha ‹_›
  · exact hb ‹_›
theorem ite_aside1 {α : Type} {c : Prop} [Decidable c] {a b : State × α} (ha : c → a.1.aside og ev)
    (hb : ¬ c → b.1.aside og ev) : (if c then a else b).1.aside og ev := by
  split
  · exact ha ‹_›
  · exact hb ‹_›

theorem aside_fst {α : Type} {p : State × α} {s : State} {v : α} (h : p.1.aside og ev) (e : p = (s, v)) : s.aside og ev := by
  subst e; exact h
theorem aside_fstW {α : Type} {p : Work × α} {w : Work} {v : α} (h : p.1.s.aside og ev) (e : p = (w, v)) : w.s.aside og ev := by
  subst e; exact h
theorem aside_fstH {α : Type} {p : HodWork × α} {k : HodWork} {v : α} (h : p.1.w.s.aside og ev) (e : p = (k, v)) :
    k.w.s.aside og ev := by subst e; exact h

theorem aside_fold {α : Type} {f : State → α → State} {l : List α} {s : State} (h : s.aside og ev)
    (hf : ∀ s a, s.aside og ev → (f s a).aside og ev) : (l.foldl f s).aside og ev := by
  induction l generalizing s with
  | nil => exact h
  | cons a l ih => exact ih (hf s a h)
theorem aside_fold1 {α β : Type} {f : State × β → α → State × β} {l : List α} {p : State × β} (h : p.1.aside og ev)
    (hf : ∀ (p : State × β) a, p.1.aside og ev → (f p a).1.aside og ev) : (l.foldl f p).1.aside og ev := by
  induction l generalizing p with
  | nil => exact h
  | cons a l ih => exact ih (hf p a h)
theorem aside_foldW {α : Type} {f : Work → α → Work} {l : List α} {w : Work} (h : w.s.aside og ev)
    (hf : ∀ (w : Work) a, w.s.aside og ev → (f w a).s.aside og ev) : (l.foldl f w).s.aside og ev := by
  induction l generalizing w with
  | nil => exact h
  | cons a l ih => exact ih (hf w a h)
theorem aside_foldW1 {α β : Type} {f : Work × β → α → Work × β} {l : List α} {p : Work × β} (h : p.1.s.aside og ev)
    (hf : ∀ (p : Work × β) a, p.1.s.aside og ev → (f p a).1.s.aside og ev) : (l.foldl f p).1.s.aside og ev := by
  induction l generalizing p with
  | nil => exact h
  | cons a l ih => exact ih (hf p a h)
theorem aside_foldH {α : Type} {f : HodWork → α → HodWork} {l : List α} {w : HodWork} (h : w.w.s.aside og ev)
    (hf : ∀ (w : HodWork) a, w.w.s.aside og ev → (f w a).w.s.aside og ev) : (l.foldl f w).w.s.aside og ev := by
  induction l generalizing w with
  | nil => exact h
  | cons a l ih => exact ih (hf w a h)
theorem aside_foldH1 {α β : Type} {f : HodWork × β → α → HodWork × β} {l : List α} {p : HodWork × β} (h : p.1.w.s.aside og ev)
    (hf : ∀ (p : HodWork × β) a, p.1.w.s.aside og ev → (f p a).1.w.s.aside og ev) : (l.foldl f p).1.w.s.aside og ev := by
  induction l generalizing p with
  | nil => exact h
  | cons a l ih => exact ih (hf p a h)

end Sys2Proof.Machine
end

