-- ==== Sys2Proof/Laws/Aside.lean ====
section
/-! SUPPORT. The functions of an engine's operation leave the rest of the state alone. -/

namespace Sys2Proof.Machine

-- One declaration after another: the package as one text then stays within the memory its check allows.
set_option Elab.async false

set_option linter.all false

variable {og : State} {ev : Bool}

theorem Work.veParams_op (w : Work) (d : BitVec 1024) : (w.veParams d).2.op = dOp d := by
  unfold Work.veParams
  rfl

theorem State.setReg_aside {a0 : State} {a1 : Nat} {a2 : DWord} (ha0 : (a0).aside og ev) :
    (@State.setReg a0 a1 a2).aside og ev := by
  exact ha0

theorem State.setRegN_aside {a0 : State} {a1 : Nat} {a2 : Nat} (ha0 : (a0).aside og ev) :
    (@State.setRegN a0 a1 a2).aside og ev := by
  unfold State.setRegN
  try dsimp only
  repeat' (first
    | with_reducible assumption
    | with_reducible apply State.setReg_aside
    | intro _
    | split
    | with_reducible apply aside_fold
    | with_reducible apply aside_fold1
    | with_reducible apply aside_foldW
    | with_reducible apply aside_foldW1
    | with_reducible apply aside_foldH
    | with_reducible apply aside_foldH1
    | with_reducible refine aside_fst ?_ (by with_reducible assumption)
    | with_reducible refine aside_fstW ?_ (by with_reducible assumption)
    | with_reducible refine aside_fstH ?_ (by with_reducible assumption)
    | (simp only [↓aside_mk]; with_reducible refine aside_of ?_))

theorem State.modReg_aside {a0 : State} {a1 : Nat} {a2 : Nat → Nat} (ha0 : (a0).aside og ev) :
    (@State.modReg a0 a1 a2).aside og ev := by
  unfold State.modReg
  try dsimp only
  repeat' (first
    | with_reducible assumption
    | with_reducible apply State.setRegN_aside
    | intro _
    | split
    | with_reducible apply aside_fold
    | with_reducible apply aside_fold1
    | with_reducible apply aside_foldW
    | with_reducible apply aside_foldW1
    | with_reducible apply aside_foldH
    | with_reducible apply aside_foldH1
    | with_reducible refine aside_fst ?_ (by with_reducible assumption)
    | with_reducible refine aside_fstW ?_ (by with_reducible assumption)
    | with_reducible refine aside_fstH ?_ (by with_reducible assumption)
    | (simp only [↓aside_mk]; with_reducible refine aside_of ?_))

theorem State.count_aside {a0 : State} {a1 : Nat} {a2 : Nat} (ha0 : (a0).aside og ev) :
    (@State.count a0 a1 a2).aside og ev := by
  unfold State.count
  try dsimp only
  repeat' (first
    | with_reducible assumption
    | with_reducible apply State.modReg_aside
    | intro _
    | split
    | with_reducible apply aside_fold
    | with_reducible apply aside_fold1
    | with_reducible apply aside_foldW
    | with_reducible apply aside_foldW1
    | with_reducible apply aside_foldH
    | with_reducible apply aside_foldH1
    | with_reducible refine aside_fst ?_ (by with_reducible assumption)
    | with_reducible refine aside_fstW ?_ (by with_reducible assumption)
    | with_reducible refine aside_fstH ?_ (by with_reducible assumption)
    | (simp only [↓aside_mk]; with_reducible refine aside_of ?_))

theorem State.setField_aside {a0 : State} {a1 : Nat} {a2 : Nat} {a3 : Nat} {a4 : Nat} (ha0 : (a0).aside og ev) :
    (@State.setField a0 a1 a2 a3 a4).aside og ev := by
  unfold State.setField
  try dsimp only
  repeat' (first
    | with_reducible assumption
    | with_reducible apply State.modReg_aside
    | intro _
    | split
    | with_reducible apply aside_fold
    | with_reducible apply aside_fold1
    | with_reducible apply aside_foldW
    | with_reducible apply aside_foldW1
    | with_reducible apply aside_foldH
    | with_reducible apply aside_foldH1
    | with_reducible refine aside_fst ?_ (by with_reducible assumption)
    | with_reducible refine aside_fstW ?_ (by with_reducible assumption)
    | with_reducible refine aside_fstH ?_ (by with_reducible assumption)
    | (simp only [↓aside_mk]; with_reducible refine aside_of ?_))

theorem State.setBit_aside {a0 : State} {a1 : Nat} {a2 : Nat} {a3 : Bool} (ha0 : (a0).aside og ev) :
    (@State.setBit a0 a1 a2 a3).aside og ev := by
  unfold State.setBit
  try dsimp only
  repeat' (first
    | with_reducible assumption
    | with_reducible apply State.setField_aside
    | intro _
    | split
    | with_reducible apply aside_fold
    | with_reducible apply aside_fold1
    | with_reducible apply aside_foldW
    | with_reducible apply aside_foldW1
    | with_reducible apply aside_foldH
    | with_reducible apply aside_foldH1
    | with_reducible refine aside_fst ?_ (by with_reducible assumption)
    | with_reducible refine aside_fstW ?_ (by with_reducible assumption)
    | with_reducible refine aside_fstH ?_ (by with_reducible assumption)
    | (simp only [↓aside_mk]; with_reducible refine aside_of ?_))

theorem State.blkErr_aside {a0 : State} {a1 : Blk} {a2 : Nat} {a3 : Nat} (ha0 : (a0).aside og ev) :
    (@State.blkErr a0 a1 a2 a3).aside og ev := by
  unfold State.blkErr
  try dsimp only
  repeat' (first
    | with_reducible assumption
    | with_reducible apply State.setBit_aside
    | intro _
    | split
    | with_reducible apply aside_fold
    | with_reducible apply aside_fold1
    | with_reducible apply aside_foldW
    | with_reducible apply aside_foldW1
    | with_reducible apply aside_foldH
    | with_reducible apply aside_foldH1
    | with_reducible refine aside_fst ?_ (by with_reducible assumption)
    | with_reducible refine aside_fstW ?_ (by with_reducible assumption)
    | with_reducible refine aside_fstH ?_ (by with_reducible assumption)
    | (simp only [↓aside_mk]; with_reducible refine aside_of ?_))

theorem State.tick_aside {a0 : State} (ha0 : (a0).aside og ev) :
    (@State.tick a0).aside og ev := by
  unfold State.tick
  try dsimp only
  repeat' (first
    | with_reducible assumption
    | intro _
    | split
    | with_reducible apply aside_fold
    | with_reducible apply aside_fold1
    | with_reducible apply aside_foldW
    | with_reducible apply aside_foldW1
    | with_reducible apply aside_foldH
    | with_reducible apply aside_foldH1
    | with_reducible refine aside_fst ?_ (by with_reducible assumption)
    | with_reducible refine aside_fstW ?_ (by with_reducible assumption)
    | with_reducible refine aside_fstH ?_ (by with_reducible assumption)
    | (simp only [↓aside_mk]; with_reducible refine aside_of ?_))

theorem State.tagLines_aside {a0 : State} {a1 : Nat} {a2 : Nat} {a3 : Nat} (ha0 : (a0).aside og ev) (he : ev = true) :
    (@State.tagLines a0 a1 a2 a3).aside og ev := by
  exact ⟨fun h => Bool.noConfusion (he.symm.trans h), ha0.2⟩

theorem State.writeLine_aside {a0 : State} {a2 : Nat} {a3 : Nat} {a4 : Bytes} (ha0 : (a0).aside og ev) (he : ev = true) :
    (@State.writeLine a0 .hbm a2 a3 a4).aside og ev := by
  unfold State.writeLine
  dsimp only
  exact ite_aside (fun _ => ⟨fun h => Bool.noConfusion (he.symm.trans h), ha0.2⟩) (fun _ => ⟨fun h => Bool.noConfusion (he.symm.trans h), ha0.2⟩)

theorem State.writePhys_aside {a0 : State} {a2 : Nat} {a3 : Nat} {a4 : Bytes} (ha0 : (a0).aside og ev) (he : ev = true) :
    (@State.writePhys a0 .hbm a2 a3 a4).aside og ev := by
  unfold State.writePhys
  try dsimp only
  repeat' (first
    | with_reducible assumption
    | with_reducible apply State.writeLine_aside
    | intro _
    | split
    | with_reducible apply aside_fold
    | with_reducible apply aside_fold1
    | with_reducible apply aside_foldW
    | with_reducible apply aside_foldW1
    | with_reducible apply aside_foldH
    | with_reducible apply aside_foldH1
    | with_reducible refine aside_fst ?_ (by with_reducible assumption)
    | with_reducible refine aside_fstW ?_ (by with_reducible assumption)
    | with_reducible refine aside_fstH ?_ (by with_reducible assumption)
    | (simp only [↓aside_mk]; with_reducible refine aside_of ?_))

theorem State.touch_aside {a0 : State} {a1 : Tier} (ha0 : (a0).aside og ev) :
    (@State.touch a0 a1).aside og ev := by
  unfold State.touch
  try dsimp only
  repeat' (first
    | with_reducible assumption
    | with_reducible apply State.setRegN_aside
    | intro _
    | split
    | with_reducible apply aside_fold
    | with_reducible apply aside_fold1
    | with_reducible apply aside_foldW
    | with_reducible apply aside_foldW1
    | with_reducible apply aside_foldH
    | with_reducible apply aside_foldH1
    | with_reducible refine aside_fst ?_ (by with_reducible assumption)
    | with_reducible refine aside_fstW ?_ (by with_reducible assumption)
    | with_reducible refine aside_fstH ?_ (by with_reducible assumption)
    | (simp only [↓aside_mk]; with_reducible refine aside_of ?_))

theorem State.logPoison_aside {a0 : State} {a1 : Tier} {a2 : Nat} (ha0 : (a0).aside og ev) :
    (@State.logPoison a0 a1 a2).aside og ev := by
  unfold State.logPoison
  try dsimp only
  repeat' (first
    | with_reducible assumption
    | with_reducible apply State.setRegN_aside
    | intro _
    | split
    | with_reducible apply aside_fold
    | with_reducible apply aside_fold1
    | with_reducible apply aside_foldW
    | with_reducible apply aside_foldW1
    | with_reducible apply aside_foldH
    | with_reducible apply aside_foldH1
    | with_reducible refine aside_fst ?_ (by with_reducible assumption)
    | with_reducible refine aside_fstW ?_ (by with_reducible assumption)
    | with_reducible refine aside_fstH ?_ (by with_reducible assumption)
    | (simp only [↓aside_mk]; with_reducible refine aside_of ?_))

theorem State.access_aside {a0 : State} {a1 : Who} {a2 : Tier} {a3 : Nat} {a4 : Nat} {a5 : Bool} (ha0 : (a0).aside og ev) :
    (@State.access a0 a1 a2 a3 a4 a5).1.aside og ev := by
  unfold State.access
  try dsimp only
  repeat' (first
    | with_reducible assumption
    | with_reducible apply State.touch_aside
    | with_reducible apply State.logPoison_aside
    | intro _
    | split
    | with_reducible apply aside_fold
    | with_reducible apply aside_fold1
    | with_reducible apply aside_foldW
    | with_reducible apply aside_foldW1
    | with_reducible apply aside_foldH
    | with_reducible apply aside_foldH1
    | with_reducible refine aside_fst ?_ (by with_reducible assumption)
    | with_reducible refine aside_fstW ?_ (by with_reducible assumption)
    | with_reducible refine aside_fstH ?_ (by with_reducible assumption)
    | (simp only [↓aside_mk]; with_reducible refine aside_of ?_))

theorem State.readFor_aside {a0 : State} {a1 : Who} {a2 : Tier} {a3 : Nat} {a4 : Nat} (ha0 : (a0).aside og ev) :
    (@State.readFor a0 a1 a2 a3 a4).1.aside og ev := by
  unfold State.readFor
  try dsimp only
  repeat' (first
    | with_reducible assumption
    | with_reducible apply State.access_aside
    | intro _
    | split
    | with_reducible apply aside_fold
    | with_reducible apply aside_fold1
    | with_reducible apply aside_foldW
    | with_reducible apply aside_foldW1
    | with_reducible apply aside_foldH
    | with_reducible apply aside_foldH1
    | with_reducible refine aside_fst ?_ (by with_reducible assumption)
    | with_reducible refine aside_fstW ?_ (by with_reducible assumption)
    | with_reducible refine aside_fstH ?_ (by with_reducible assumption)
    | (simp only [↓aside_mk]; with_reducible refine aside_of ?_))

theorem State.writeFor_aside {a0 : State} {a1 : Who} {a3 : Nat} {a4 : Bytes} (ha0 : (a0).aside og ev) (he : ev = true) :
    (@State.writeFor a0 a1 .hbm a3 a4).1.aside og ev := by
  unfold State.writeFor
  try dsimp only
  repeat' (first
    | with_reducible assumption
    | with_reducible apply State.access_aside
    | with_reducible apply State.writePhys_aside
    | intro _
    | split
    | with_reducible apply aside_fold
    | with_reducible apply aside_fold1
    | with_reducible apply aside_foldW
    | with_reducible apply aside_foldW1
    | with_reducible apply aside_foldH
    | with_reducible apply aside_foldH1
    | with_reducible refine aside_fst ?_ (by with_reducible assumption)
    | with_reducible refine aside_fstW ?_ (by with_reducible assumption)
    | with_reducible refine aside_fstH ?_ (by with_reducible assumption)
    | (simp only [↓aside_mk]; with_reducible refine aside_of ?_))

theorem State.setRing_aside {a0 : State} {a1 : Nat} {a2 : Ring} (ha0 : (a0).aside og ev) (he : ev = true) :
    (@State.setRing a0 a1 a2).aside og ev := by
  exact ⟨fun h => Bool.noConfusion (he.symm.trans h), ha0.2⟩

theorem State.msix_aside {a0 : State} {a1 : Nat} (ha0 : (a0).aside og ev) (he : ev = true) :
    (@State.msix a0 a1).aside og ev := by
  unfold State.msix
  exact ite_aside (fun _ => ⟨fun h => Bool.noConfusion (he.symm.trans h), ha0.2⟩) (fun _ => ⟨fun h => Bool.noConfusion (he.symm.trans h), ha0.2⟩)

theorem State.eventTry_aside {a0 : State} {a1 : Nat} {a2 : Event} (ha0 : (a0).aside og ev) (he : ev = true) :
    (@State.eventTry a0 a1 a2).1.aside og ev := by
  unfold State.eventTry
  try dsimp only
  repeat' (first
    | with_reducible assumption
    | with_reducible apply State.setRing_aside
    | with_reducible apply State.writeFor_aside
    | with_reducible apply State.setRegN_aside
    | with_reducible apply State.msix_aside
    | intro _
    | split
    | with_reducible apply aside_fold
    | with_reducible apply aside_fold1
    | with_reducible apply aside_foldW
    | with_reducible apply aside_foldW1
    | with_reducible apply aside_foldH
    | with_reducible apply aside_foldH1
    | with_reducible refine aside_fst ?_ (by with_reducible assumption)
    | with_reducible refine aside_fstW ?_ (by with_reducible assumption)
    | with_reducible refine aside_fstH ?_ (by with_reducible assumption)
    | (simp only [↓aside_mk]; with_reducible refine aside_of ?_))

theorem State.haltQuiet_aside {a0 : State} {a1 : Nat} {a2 : Nat} {a3 : Nat} (ha0 : (a0).aside og ev) :
    (@State.haltQuiet a0 a1 a2 a3).aside og ev := by
  unfold State.haltQuiet
  try dsimp only
  repeat' (first
    | with_reducible assumption
    | with_reducible apply State.setRegN_aside
    | intro _
    | split
    | with_reducible apply aside_fold
    | with_reducible apply aside_fold1
    | with_reducible apply aside_foldW
    | with_reducible apply aside_foldW1
    | with_reducible apply aside_foldH
    | with_reducible apply aside_foldH1
    | with_reducible refine aside_fst ?_ (by with_reducible assumption)
    | with_reducible refine aside_fstW ?_ (by with_reducible assumption)
    | with_reducible refine aside_fstH ?_ (by with_reducible assumption)
    | (simp only [↓aside_mk]; with_reducible refine aside_of ?_))

theorem State.haltAllQuiet_aside {a0 : State} {a1 : Nat} (ha0 : (a0).aside og ev) :
    (@State.haltAllQuiet a0 a1).aside og ev := by
  unfold State.haltAllQuiet
  try dsimp only
  repeat' (first
    | with_reducible assumption
    | with_reducible apply State.blkErr_aside
    | with_reducible apply State.haltQuiet_aside
    | intro _
    | split
    | with_reducible apply aside_fold
    | with_reducible apply aside_fold1
    | with_reducible apply aside_foldW
    | with_reducible apply aside_foldW1
    | with_reducible apply aside_foldH
    | with_reducible apply aside_foldH1
    | with_reducible refine aside_fst ?_ (by with_reducible assumption)
    | with_reducible refine aside_fstW ?_ (by with_reducible assumption)
    | with_reducible refine aside_fstH ?_ (by with_reducible assumption)
    | (simp only [↓aside_mk]; with_reducible refine aside_of ?_))

theorem State.event_aside {a0 : State} {a1 : Nat} {a2 : Event} (ha0 : (a0).aside og ev) (he : ev = true) :
    (@State.event a0 a1 a2).aside og ev := by
  unfold State.event
  try dsimp only
  repeat' (first
    | with_reducible assumption
    | with_reducible apply State.eventTry_aside
    | with_reducible apply State.blkErr_aside
    | with_reducible apply State.haltAllQuiet_aside
    | intro _
    | split
    | with_reducible apply aside_fold
    | with_reducible apply aside_fold1
    | with_reducible apply aside_foldW
    | with_reducible apply aside_foldW1
    | with_reducible apply aside_foldH
    | with_reducible apply aside_foldH1
    | with_reducible refine aside_fst ?_ (by with_reducible assumption)
    | with_reducible refine aside_fstW ?_ (by with_reducible assumption)
    | with_reducible refine aside_fstH ?_ (by with_reducible assumption)
    | (simp only [↓aside_mk]; with_reducible refine aside_of ?_))

theorem Work.fail_aside {a0 : Work} {a1 : Nat} {a2 : Nat} (ha0 : (a0).s.aside og ev) :
    (@Work.fail a0 a1 a2).s.aside og ev := by
  unfold Work.fail
  try dsimp only
  repeat' (first
    | with_reducible assumption
    | intro _
    | split
    | with_reducible apply aside_fold
    | with_reducible apply aside_fold1
    | with_reducible apply aside_foldW
    | with_reducible apply aside_foldW1
    | with_reducible apply aside_foldH
    | with_reducible apply aside_foldH1
    | with_reducible refine aside_fst ?_ (by with_reducible assumption)
    | with_reducible refine aside_fstW ?_ (by with_reducible assumption)
    | with_reducible refine aside_fstH ?_ (by with_reducible assumption)
    | (simp only [↓aside_mk]; with_reducible refine aside_of ?_))

theorem Work.onCommit_aside {a0 : Work} {a1 : Work → Work} (ha0 : (a0).s.aside og ev) (ha1 : ∀ y0, (y0).s.aside og ev → (a1 y0).s.aside og ev) :
    (@Work.onCommit a0 a1).s.aside og ev := by
  unfold Work.onCommit
  try dsimp only
  repeat' (first
    | with_reducible assumption
    | with_reducible apply ha1
    | intro _
    | split
    | with_reducible apply aside_fold
    | with_reducible apply aside_fold1
    | with_reducible apply aside_foldW
    | with_reducible apply aside_foldW1
    | with_reducible apply aside_foldH
    | with_reducible apply aside_foldH1
    | with_reducible refine aside_fst ?_ (by with_reducible assumption)
    | with_reducible refine aside_fstW ?_ (by with_reducible assumption)
    | with_reducible refine aside_fstH ?_ (by with_reducible assumption)
    | (simp only [↓aside_mk]; with_reducible refine aside_of ?_))

theorem Work.emit_aside {a0 : Work} {a1 : Nat} {a2 : Bytes} (ha0 : (a0).s.aside og ev) :
    (@Work.emit a0 a1 a2).s.aside og ev := by
  unfold Work.emit
  try dsimp only
  repeat' (first
    | with_reducible assumption
    | intro _
    | split
    | with_reducible apply aside_fold
    | with_reducible apply aside_fold1
    | with_reducible apply aside_foldW
    | with_reducible apply aside_foldW1
    | with_reducible apply aside_foldH
    | with_reducible apply aside_foldH1
    | with_reducible refine aside_fst ?_ (by with_reducible assumption)
    | with_reducible refine aside_fstW ?_ (by with_reducible assumption)
    | with_reducible refine aside_fstH ?_ (by with_reducible assumption)
    | (simp only [↓aside_mk]; with_reducible refine aside_of ?_))

theorem Work.mapS_aside {a0 : Work} {a1 : State → State} (ha0 : (a0).s.aside og ev) (ha1 : ∀ y0, (y0).aside og ev → (a1 y0).aside og ev) :
    (@Work.mapS a0 a1).s.aside og ev := by
  unfold Work.mapS
  try dsimp only
  repeat' (first
    | with_reducible assumption
    | with_reducible apply ha1
    | intro _
    | split
    | with_reducible apply aside_fold
    | with_reducible apply aside_fold1
    | with_reducible apply aside_foldW
    | with_reducible apply aside_foldW1
    | with_reducible apply aside_foldH
    | with_reducible apply aside_foldH1
    | with_reducible refine aside_fst ?_ (by with_reducible assumption)
    | with_reducible refine aside_fstW ?_ (by with_reducible assumption)
    | with_reducible refine aside_fstH ?_ (by with_reducible assumption)
    | (simp only [↓aside_mk]; with_reducible refine aside_of ?_))

theorem Work.andThen_aside {a0 : Work} {a1 : Work → Work} (ha0 : (a0).s.aside og ev) (ha1 : ∀ y0, (y0).s.aside og ev → (a1 y0).s.aside og ev) :
    (@Work.andThen a0 a1).s.aside og ev := by
  unfold Work.andThen
  try dsimp only
  repeat' (first
    | with_reducible assumption
    | with_reducible apply ha1
    | intro _
    | split
    | with_reducible apply aside_fold
    | with_reducible apply aside_fold1
    | with_reducible apply aside_foldW
    | with_reducible apply aside_foldW1
    | with_reducible apply aside_foldH
    | with_reducible apply aside_foldH1
    | with_reducible refine aside_fst ?_ (by with_reducible assumption)
    | with_reducible refine aside_fstW ?_ (by with_reducible assumption)
    | with_reducible refine aside_fstH ?_ (by with_reducible assumption)
    | (simp only [↓aside_mk]; with_reducible refine aside_of ?_))

theorem Work.each_aside {a0 : Type} {a1 : Work} {a2 : List a0} {a3 : Work → a0 → Work} (ha1 : (a1).s.aside og ev) (ha3 : ∀ y0 y1, (y0).s.aside og ev → (a3 y0 y1).s.aside og ev) :
    (@Work.each a0 a1 a2 a3).s.aside og ev := by
  unfold Work.each
  try dsimp only
  repeat' (first
    | with_reducible assumption
    | with_reducible apply ha3
    | intro _
    | split
    | with_reducible apply aside_fold
    | with_reducible apply aside_fold1
    | with_reducible apply aside_foldW
    | with_reducible apply aside_foldW1
    | with_reducible apply aside_foldH
    | with_reducible apply aside_foldH1
    | with_reducible refine aside_fst ?_ (by with_reducible assumption)
    | with_reducible refine aside_fstW ?_ (by with_reducible assumption)
    | with_reducible refine aside_fstH ?_ (by with_reducible assumption)
    | (simp only [↓aside_mk]; with_reducible refine aside_of ?_))

theorem Work.collect_aside {a0 : Type} {a1 : Type} {a2 : Work} {a3 : List a0} {a4 : Work → a0 → Work × a1} (ha2 : (a2).s.aside og ev) (ha4 : ∀ y0 y1, (y0).s.aside og ev → (a4 y0 y1).1.s.aside og ev) :
    (@Work.collect a0 a1 a2 a3 a4).1.s.aside og ev := by
  unfold Work.collect
  try dsimp only
  repeat' (first
    | with_reducible assumption
    | with_reducible apply ha4
    | intro _
    | split
    | with_reducible apply aside_fold
    | with_reducible apply aside_fold1
    | with_reducible apply aside_foldW
    | with_reducible apply aside_foldW1
    | with_reducible apply aside_foldH
    | with_reducible apply aside_foldH1
    | with_reducible refine aside_fst ?_ (by with_reducible assumption)
    | with_reducible refine aside_fstW ?_ (by with_reducible assumption)
    | with_reducible refine aside_fstH ?_ (by with_reducible assumption)
    | (simp only [↓aside_mk]; with_reducible refine aside_of ?_))

theorem Work.needLocal_aside {a0 : Work} {a1 : Nat} (ha0 : (a0).s.aside og ev) :
    (@Work.needLocal a0 a1).s.aside og ev := by
  unfold Work.needLocal
  try dsimp only
  repeat' (first
    | with_reducible assumption
    | with_reducible apply Work.fail_aside
    | intro _
    | split
    | with_reducible apply aside_fold
    | with_reducible apply aside_fold1
    | with_reducible apply aside_foldW
    | with_reducible apply aside_foldW1
    | with_reducible apply aside_foldH
    | with_reducible apply aside_foldH1
    | with_reducible refine aside_fst ?_ (by with_reducible assumption)
    | with_reducible refine aside_fstW ?_ (by with_reducible assumption)
    | with_reducible refine aside_fstH ?_ (by with_reducible assumption)
    | (simp only [↓aside_mk]; with_reducible refine aside_of ?_))

theorem Work.read_aside {a0 : Work} {a1 : Nat} {a2 : Nat} (ha0 : (a0).s.aside og ev) :
    (@Work.read a0 a1 a2).1.s.aside og ev := by
  unfold Work.read
  try dsimp only
  repeat' (first
    | with_reducible assumption
    | with_reducible apply Work.fail_aside
    | with_reducible apply State.readFor_aside
    | intro _
    | split
    | with_reducible apply aside_fold
    | with_reducible apply aside_fold1
    | with_reducible apply aside_foldW
    | with_reducible apply aside_foldW1
    | with_reducible apply aside_foldH
    | with_reducible apply aside_foldH1
    | with_reducible refine aside_fst ?_ (by with_reducible assumption)
    | with_reducible refine aside_fstW ?_ (by with_reducible assumption)
    | with_reducible refine aside_fstH ?_ (by with_reducible assumption)
    | (simp only [↓aside_mk]; with_reducible refine aside_of ?_))

theorem Work.writeRun_aside {a0 : Work} {a1 : Nat} {a2 : Tier} {a3 : Nat} {a4 : Bytes} (ha0 : (a0).s.aside og ev) :
    (@Work.writeRun a0 a1 a2 a3 a4).s.aside og ev := by
  unfold Work.writeRun
  try dsimp only
  repeat' (first
    | with_reducible assumption
    | with_reducible apply State.access_aside
    | with_reducible apply Work.fail_aside
    | intro _
    | split
    | with_reducible apply aside_fold
    | with_reducible apply aside_fold1
    | with_reducible apply aside_foldW
    | with_reducible apply aside_foldW1
    | with_reducible apply aside_foldH
    | with_reducible apply aside_foldH1
    | with_reducible refine aside_fst ?_ (by with_reducible assumption)
    | with_reducible refine aside_fstW ?_ (by with_reducible assumption)
    | with_reducible refine aside_fstH ?_ (by with_reducible assumption)
    | (simp only [↓aside_mk]; with_reducible refine aside_of ?_))

theorem Work.write_aside {a0 : Work} {a1 : Nat} {a2 : Bytes} (ha0 : (a0).s.aside og ev) :
    (@Work.write a0 a1 a2).s.aside og ev := by
  unfold Work.write
  try dsimp only
  repeat' (first
    | with_reducible assumption
    | with_reducible apply Work.fail_aside
    | with_reducible apply Work.writeRun_aside
    | intro _
    | split
    | with_reducible apply aside_fold
    | with_reducible apply aside_fold1
    | with_reducible apply aside_foldW
    | with_reducible apply aside_foldW1
    | with_reducible apply aside_foldH
    | with_reducible apply aside_foldH1
    | with_reducible refine aside_fst ?_ (by with_reducible assumption)
    | with_reducible refine aside_fstW ?_ (by with_reducible assumption)
    | with_reducible refine aside_fstH ?_ (by with_reducible assumption)
    | (simp only [↓aside_mk]; with_reducible refine aside_of ?_))

theorem Work.writeLate_aside {a0 : Work} {a1 : Nat} {a2 : Bytes} (ha0 : (a0).s.aside og ev) :
    (@Work.writeLate a0 a1 a2).s.aside og ev := by
  unfold Work.writeLate
  try dsimp only
  repeat' (first
    | with_reducible assumption
    | with_reducible apply Work.write_aside
    | intro _
    | split
    | with_reducible apply aside_fold
    | with_reducible apply aside_fold1
    | with_reducible apply aside_foldW
    | with_reducible apply aside_foldW1
    | with_reducible apply aside_foldH
    | with_reducible apply aside_foldH1
    | with_reducible refine aside_fst ?_ (by with_reducible assumption)
    | with_reducible refine aside_fstW ?_ (by with_reducible assumption)
    | with_reducible refine aside_fstH ?_ (by with_reducible assumption)
    | (simp only [↓aside_mk]; with_reducible refine aside_of ?_))

theorem Work.openOutputs_aside {a0 : Work} {a1 : Bool} (ha0 : (a0).s.aside og ev) :
    (@Work.openOutputs a0 a1).s.aside og ev := by
  unfold Work.openOutputs
  try dsimp only
  repeat' (first
    | with_reducible assumption
    | with_reducible apply State.tick_aside
    | intro _
    | split
    | with_reducible apply aside_fold
    | with_reducible apply aside_fold1
    | with_reducible apply aside_foldW
    | with_reducible apply aside_foldW1
    | with_reducible apply aside_foldH
    | with_reducible apply aside_foldH1
    | with_reducible refine aside_fst ?_ (by with_reducible assumption)
    | with_reducible refine aside_fstW ?_ (by with_reducible assumption)
    | with_reducible refine aside_fstH ?_ (by with_reducible assumption)
    | (simp only [↓aside_mk]; with_reducible refine aside_of ?_))

theorem Work.openLate_aside {a0 : Work} {a1 : Bool} (ha0 : (a0).s.aside og ev) :
    (@Work.openLate a0 a1).s.aside og ev := by
  unfold Work.openLate
  try dsimp only
  repeat' (first
    | with_reducible assumption
    | with_reducible apply Work.openOutputs_aside
    | intro _
    | split
    | with_reducible apply aside_fold
    | with_reducible apply aside_fold1
    | with_reducible apply aside_foldW
    | with_reducible apply aside_foldW1
    | with_reducible apply aside_foldH
    | with_reducible apply aside_foldH1
    | with_reducible refine aside_fst ?_ (by with_reducible assumption)
    | with_reducible refine aside_fstW ?_ (by with_reducible assumption)
    | with_reducible refine aside_fstH ?_ (by with_reducible assumption)
    | (simp only [↓aside_mk]; with_reducible refine aside_of ?_))

theorem Work.checkFields_aside {a0 : Work} {a1 : List (Bool × Nat)} (ha0 : (a0).s.aside og ev) :
    (@Work.checkFields a0 a1).s.aside og ev := by
  unfold Work.checkFields
  try dsimp only
  repeat' (first
    | with_reducible assumption
    | with_reducible apply Work.fail_aside
    | intro _
    | split
    | with_reducible apply aside_fold
    | with_reducible apply aside_fold1
    | with_reducible apply aside_foldW
    | with_reducible apply aside_foldW1
    | with_reducible apply aside_foldH
    | with_reducible apply aside_foldH1
    | with_reducible refine aside_fst ?_ (by with_reducible assumption)
    | with_reducible refine aside_fstW ?_ (by with_reducible assumption)
    | with_reducible refine aside_fstH ?_ (by with_reducible assumption)
    | (simp only [↓aside_mk]; with_reducible refine aside_of ?_))

theorem Work.readRows_aside {a0 : Work} {a1 : Nat} {a2 : Nat} {a3 : Nat} {a4 : Nat} {a5 : Nat} {a6 : Nat} {a7 : Nat} (ha0 : (a0).s.aside og ev) :
    (@Work.readRows a0 a1 a2 a3 a4 a5 a6 a7).1.s.aside og ev := by
  unfold Work.readRows
  try dsimp only
  repeat' (first
    | with_reducible assumption
    | with_reducible apply Work.collect_aside
    | with_reducible apply Work.read_aside
    | intro _
    | split
    | with_reducible apply aside_fold
    | with_reducible apply aside_fold1
    | with_reducible apply aside_foldW
    | with_reducible apply aside_foldW1
    | with_reducible apply aside_foldH
    | with_reducible apply aside_foldH1
    | with_reducible refine aside_fst ?_ (by with_reducible assumption)
    | with_reducible refine aside_fstW ?_ (by with_reducible assumption)
    | with_reducible refine aside_fstH ?_ (by with_reducible assumption)
    | (simp only [↓aside_mk]; with_reducible refine aside_of ?_))

theorem Work.ssrStart_aside {a0 : Work} {a1 : Nat} {a2 : Nat → Bool} (ha0 : (a0).s.aside og ev) :
    (@Work.ssrStart a0 a1 a2).1.s.aside og ev := by
  unfold Work.ssrStart
  try dsimp only
  repeat' (first
    | with_reducible assumption
    | with_reducible apply Work.read_aside
    | with_reducible apply Work.fail_aside
    | intro _
    | split
    | with_reducible apply aside_fold
    | with_reducible apply aside_fold1
    | with_reducible apply aside_foldW
    | with_reducible apply aside_foldW1
    | with_reducible apply aside_foldH
    | with_reducible apply aside_foldH1
    | with_reducible refine aside_fst ?_ (by with_reducible assumption)
    | with_reducible refine aside_fstW ?_ (by with_reducible assumption)
    | with_reducible refine aside_fstH ?_ (by with_reducible assumption)
    | (simp only [↓aside_mk]; with_reducible refine aside_of ?_))

theorem Work.ssrFinish_aside {a0 : Work} {a1 : Ssr} (ha0 : (a0).s.aside og ev) :
    (@Work.ssrFinish a0 a1).s.aside og ev := by
  unfold Work.ssrFinish
  try dsimp only
  repeat' (first
    | with_reducible assumption
    | with_reducible apply Work.onCommit_aside
    | with_reducible apply Work.writeLate_aside
    | intro _
    | split
    | with_reducible apply aside_fold
    | with_reducible apply aside_fold1
    | with_reducible apply aside_foldW
    | with_reducible apply aside_foldW1
    | with_reducible apply aside_foldH
    | with_reducible apply aside_foldH1
    | with_reducible refine aside_fst ?_ (by with_reducible assumption)
    | with_reducible refine aside_fstW ?_ (by with_reducible assumption)
    | with_reducible refine aside_fstH ?_ (by with_reducible assumption)
    | (simp only [↓aside_mk]; with_reducible refine aside_of ?_))

theorem State.stall_aside {a0 : State} {a1 : Nat} {a2 : Nat} (ha0 : (a0).aside og ev) :
    (@State.stall a0 a1 a2).aside og ev := by
  unfold State.stall
  try dsimp only
  repeat' (first
    | with_reducible assumption
    | with_reducible apply State.tick_aside
    | with_reducible apply State.count_aside
    | intro _
    | split
    | with_reducible apply aside_fold
    | with_reducible apply aside_fold1
    | with_reducible apply aside_foldW
    | with_reducible apply aside_foldW1
    | with_reducible apply aside_foldH
    | with_reducible apply aside_foldH1
    | with_reducible refine aside_fst ?_ (by with_reducible assumption)
    | with_reducible refine aside_fstW ?_ (by with_reducible assumption)
    | with_reducible refine aside_fstH ?_ (by with_reducible assumption)
    | (simp only [↓aside_mk]; with_reducible refine aside_of ?_))

theorem Work.tally_aside {a0 : Work} {a1 : Nat} {a2 : Nat} (ha0 : (a0).s.aside og ev) :
    (@Work.tally a0 a1 a2).s.aside og ev := by
  unfold Work.tally
  try dsimp only
  repeat' (first
    | with_reducible assumption
    | with_reducible apply Work.mapS_aside
    | with_reducible apply State.tick_aside
    | with_reducible apply State.count_aside
    | intro _
    | split
    | with_reducible apply aside_fold
    | with_reducible apply aside_fold1
    | with_reducible apply aside_foldW
    | with_reducible apply aside_foldW1
    | with_reducible apply aside_foldH
    | with_reducible apply aside_foldH1
    | with_reducible refine aside_fst ?_ (by with_reducible assumption)
    | with_reducible refine aside_fstW ?_ (by with_reducible assumption)
    | with_reducible refine aside_fstH ?_ (by with_reducible assumption)
    | (simp only [↓aside_mk]; with_reducible refine aside_of ?_))

theorem Work.stalled_aside {a0 : Work} {a1 : Nat} {a2 : Nat} (ha0 : (a0).s.aside og ev) :
    (@Work.stalled a0 a1 a2).s.aside og ev := by
  unfold Work.stalled
  try dsimp only
  repeat' (first
    | with_reducible assumption
    | with_reducible apply Work.mapS_aside
    | with_reducible apply State.stall_aside
    | intro _
    | split
    | with_reducible apply aside_fold
    | with_reducible apply aside_fold1
    | with_reducible apply aside_foldW
    | with_reducible apply aside_foldW1
    | with_reducible apply aside_foldH
    | with_reducible apply aside_foldH1
    | with_reducible refine aside_fst ?_ (by with_reducible assumption)
    | with_reducible refine aside_fstW ?_ (by with_reducible assumption)
    | with_reducible refine aside_fstH ?_ (by with_reducible assumption)
    | (simp only [↓aside_mk]; with_reducible refine aside_of ?_))

theorem Work.aeParams_aside {a0 : Work} {a1 : BitVec 1024} (ha0 : (a0).s.aside og ev) :
    (@Work.aeParams a0 a1).1.s.aside og ev := by
  unfold Work.aeParams
  try dsimp only
  repeat' (first
    | with_reducible assumption
    | with_reducible apply Work.read_aside
    | with_reducible apply Work.checkFields_aside
    | intro _
    | split
    | with_reducible apply aside_fold
    | with_reducible apply aside_fold1
    | with_reducible apply aside_foldW
    | with_reducible apply aside_foldW1
    | with_reducible apply aside_foldH
    | with_reducible apply aside_foldH1
    | with_reducible refine aside_fst ?_ (by with_reducible assumption)
    | with_reducible refine aside_fstW ?_ (by with_reducible assumption)
    | with_reducible refine aside_fstH ?_ (by with_reducible assumption)
    | (simp only [↓aside_mk]; with_reducible refine aside_of ?_))

theorem aeStart_aside {a0 : Flight} {a1 : Work} (ha1 : (a1).s.aside og ev) :
    (@aeStart a0 a1).1.s.aside og ev := by
  unfold aeStart
  try dsimp only
  repeat' (first
    | with_reducible assumption
    | with_reducible apply Work.aeParams_aside
    | with_reducible apply Work.each_aside
    | with_reducible apply Work.needLocal_aside
    | with_reducible apply Work.ssrStart_aside
    | intro _
    | split
    | with_reducible apply aside_fold
    | with_reducible apply aside_fold1
    | with_reducible apply aside_foldW
    | with_reducible apply aside_foldW1
    | with_reducible apply aside_foldH
    | with_reducible apply aside_foldH1
    | with_reducible refine aside_fst ?_ (by with_reducible assumption)
    | with_reducible refine aside_fstW ?_ (by with_reducible assumption)
    | with_reducible refine aside_fstH ?_ (by with_reducible assumption)
    | (simp only [↓aside_mk]; with_reducible refine aside_of ?_))

theorem Work.slice_aside {a0 : Work} {a1 : Nat} {a2 : Nat} {a3 : Nat} {a4 : Bool} {a5 : Nat} {a6 : Nat} {a7 : Nat × Nat} {a8 : Nat × Nat} (ha0 : (a0).s.aside og ev) :
    (@Work.slice a0 a1 a2 a3 a4 a5 a6 a7 a8).1.s.aside og ev := by
  unfold Work.slice
  try dsimp only
  repeat' (first
    | with_reducible assumption
    | with_reducible apply Work.readRows_aside
    | intro _
    | split
    | with_reducible apply aside_fold
    | with_reducible apply aside_fold1
    | with_reducible apply aside_foldW
    | with_reducible apply aside_foldW1
    | with_reducible apply aside_foldH
    | with_reducible apply aside_foldH1
    | with_reducible refine aside_fst ?_ (by with_reducible assumption)
    | with_reducible refine aside_fstW ?_ (by with_reducible assumption)
    | with_reducible refine aside_fstH ?_ (by with_reducible assumption)
    | (simp only [↓aside_mk]; with_reducible refine aside_of ?_))

theorem Work.loadRes_aside {a0 : Work} {a1 : Mat} {a2 : Nat} (ha0 : (a0).s.aside og ev) :
    (@Work.loadRes a0 a1 a2).1.s.aside og ev := by
  unfold Work.loadRes
  try dsimp only
  repeat' (first
    | with_reducible assumption
    | with_reducible apply Work.collect_aside
    | with_reducible apply Work.readRows_aside
    | intro _
    | split
    | with_reducible apply aside_fold
    | with_reducible apply aside_fold1
    | with_reducible apply aside_foldW
    | with_reducible apply aside_foldW1
    | with_reducible apply aside_foldH
    | with_reducible apply aside_foldH1
    | with_reducible refine aside_fst ?_ (by with_reducible assumption)
    | with_reducible refine aside_fstW ?_ (by with_reducible assumption)
    | with_reducible refine aside_fstH ?_ (by with_reducible assumption)
    | (simp only [↓aside_mk]; with_reducible refine aside_of ?_))

theorem State.setResident_aside {a0 : State} {a1 : Nat} {a2 : Resident} {a3 : Nat} (ha0 : (a0).aside og ev) :
    (@State.setResident a0 a1 a2 a3).aside og ev := by
  unfold State.setResident
  try dsimp only
  repeat' (first
    | with_reducible assumption
    | with_reducible apply State.setField_aside
    | with_reducible apply State.setBit_aside
    | with_reducible apply State.setReg_aside
    | intro _
    | split
    | with_reducible apply aside_fold
    | with_reducible apply aside_fold1
    | with_reducible apply aside_foldW
    | with_reducible apply aside_foldW1
    | with_reducible apply aside_foldH
    | with_reducible apply aside_foldH1
    | with_reducible refine aside_fst ?_ (by with_reducible assumption)
    | with_reducible refine aside_fstW ?_ (by with_reducible assumption)
    | with_reducible refine aside_fstH ?_ (by with_reducible assumption)
    | (simp only [↓aside_mk]; with_reducible refine aside_of ?_))

theorem State.clearResident_aside {a0 : State} {a1 : Nat} (ha0 : (a0).aside og ev) :
    (@State.clearResident a0 a1).aside og ev := by
  unfold State.clearResident
  try dsimp only
  repeat' (first
    | with_reducible assumption
    | with_reducible apply State.setField_aside
    | with_reducible apply State.setBit_aside
    | with_reducible apply State.setReg_aside
    | intro _
    | split
    | with_reducible apply aside_fold
    | with_reducible apply aside_fold1
    | with_reducible apply aside_foldW
    | with_reducible apply aside_foldW1
    | with_reducible apply aside_foldH
    | with_reducible apply aside_foldH1
    | with_reducible refine aside_fst ?_ (by with_reducible assumption)
    | with_reducible refine aside_fstW ?_ (by with_reducible assumption)
    | with_reducible refine aside_fstH ?_ (by with_reducible assumption)
    | (simp only [↓aside_mk]; with_reducible refine aside_of ?_))

theorem Work.matOut_aside {a0 : Work} {a1 : Flight} {a2 : Mat} {a3 : Bool} {a4 : Nat × Nat} {a5 : Nat × Nat} {a6 : List (List Word)} (ha0 : (a0).s.aside og ev) :
    (@Work.matOut a0 a1 a2 a3 a4 a5 a6).s.aside og ev := by
  unfold Work.matOut
  try dsimp only
  repeat' (first
    | with_reducible assumption
    | with_reducible apply Work.each_aside
    | with_reducible apply Work.emit_aside
    | with_reducible apply Work.read_aside
    | with_reducible apply Work.write_aside
    | intro _
    | split
    | with_reducible apply aside_fold
    | with_reducible apply aside_fold1
    | with_reducible apply aside_foldW
    | with_reducible apply aside_foldW1
    | with_reducible apply aside_foldH
    | with_reducible apply aside_foldH1
    | with_reducible refine aside_fst ?_ (by with_reducible assumption)
    | with_reducible refine aside_fstW ?_ (by with_reducible assumption)
    | with_reducible refine aside_fstH ?_ (by with_reducible assumption)
    | (simp only [↓aside_mk]; with_reducible refine aside_of ?_))

theorem Work.aSlice_aside {a0 : Work} {a1 : Flight} {a2 : Mat} {a3 : Option Ssr} {a4 : Nat × Nat} {a5 : Nat × Nat} {a6 : Nat} (ha0 : (a0).s.aside og ev) :
    (@Work.aSlice a0 a1 a2 a3 a4 a5 a6).1.s.aside og ev := by
  unfold Work.aSlice
  try dsimp only
  repeat' (first
    | with_reducible assumption
    | with_reducible apply Work.slice_aside
    | intro _
    | split
    | with_reducible apply aside_fold
    | with_reducible apply aside_fold1
    | with_reducible apply aside_foldW
    | with_reducible apply aside_foldW1
    | with_reducible apply aside_foldH
    | with_reducible apply aside_foldH1
    | with_reducible refine aside_fst ?_ (by with_reducible assumption)
    | with_reducible refine aside_fstW ?_ (by with_reducible assumption)
    | with_reducible refine aside_fstH ?_ (by with_reducible assumption)
    | (simp only [↓aside_mk]; with_reducible refine aside_of ?_))

theorem Work.bSlice_aside {a0 : Work} {a1 : Flight} {a2 : Mat} {a3 : Option Resident} {a4 : Nat × Nat} {a5 : Nat × Nat} {a6 : Nat} (ha0 : (a0).s.aside og ev) :
    (@Work.bSlice a0 a1 a2 a3 a4 a5 a6).1.s.aside og ev := by
  unfold Work.bSlice
  try dsimp only
  repeat' (first
    | with_reducible assumption
    | with_reducible apply Work.slice_aside
    | intro _
    | split
    | with_reducible apply aside_fold
    | with_reducible apply aside_fold1
    | with_reducible apply aside_foldW
    | with_reducible apply aside_foldW1
    | with_reducible apply aside_foldH
    | with_reducible apply aside_foldH1
    | with_reducible refine aside_fst ?_ (by with_reducible assumption)
    | with_reducible refine aside_fstW ?_ (by with_reducible assumption)
    | with_reducible refine aside_fstH ?_ (by with_reducible assumption)
    | (simp only [↓aside_mk]; with_reducible refine aside_of ?_))

theorem Work.accStart_aside {a0 : Work} {a1 : Mat} {a2 : Nat × Nat} {a3 : Nat × Nat} (ha0 : (a0).s.aside og ev) :
    (@Work.accStart a0 a1 a2 a3).1.s.aside og ev := by
  unfold Work.accStart
  try dsimp only
  repeat' (first
    | with_reducible assumption
    | with_reducible apply Work.readRows_aside
    | intro _
    | split
    | with_reducible apply aside_fold
    | with_reducible apply aside_fold1
    | with_reducible apply aside_foldW
    | with_reducible apply aside_foldW1
    | with_reducible apply aside_foldH
    | with_reducible apply aside_foldH1
    | with_reducible refine aside_fst ?_ (by with_reducible assumption)
    | with_reducible refine aside_fstW ?_ (by with_reducible assumption)
    | with_reducible refine aside_fstH ?_ (by with_reducible assumption)
    | (simp only [↓aside_mk]; with_reducible refine aside_of ?_))

theorem Work.product_aside {a0 : Work} {a1 : Flight} {a2 : Mat} {a3 : Option Resident} {a4 : Option Ssr} (ha0 : (a0).s.aside og ev) :
    (@Work.product a0 a1 a2 a3 a4).1.s.aside og ev := by
  unfold Work.product
  try dsimp only
  repeat' (first
    | with_reducible assumption
    | with_reducible apply Work.accStart_aside
    | with_reducible apply Work.bSlice_aside
    | with_reducible apply Work.aSlice_aside
    | with_reducible apply Work.andThen_aside
    | with_reducible apply Work.matOut_aside
    | intro _
    | split
    | with_reducible apply aside_fold
    | with_reducible apply aside_fold1
    | with_reducible apply aside_foldW
    | with_reducible apply aside_foldW1
    | with_reducible apply aside_foldH
    | with_reducible apply aside_foldH1
    | with_reducible refine aside_fst ?_ (by with_reducible assumption)
    | with_reducible refine aside_fstW ?_ (by with_reducible assumption)
    | with_reducible refine aside_fstH ?_ (by with_reducible assumption)
    | (simp only [↓aside_mk]; with_reducible refine aside_of ?_))

theorem Work.matmul_aside {a0 : Work} {a1 : Flight} {a2 : Mat} (ha0 : (a0).s.aside og ev) :
    (@Work.matmul a0 a1 a2).s.aside og ev := by
  unfold Work.matmul
  try dsimp only
  repeat' (first
    | with_reducible assumption
    | with_reducible apply Work.andThen_aside
    | with_reducible apply Work.mapS_aside
    | with_reducible apply State.count_aside
    | with_reducible apply Work.loadRes_aside
    | with_reducible apply State.setResident_aside
    | with_reducible apply Work.product_aside
    | with_reducible apply Work.openOutputs_aside
    | with_reducible apply Work.openLate_aside
    | with_reducible apply Work.ssrFinish_aside
    | with_reducible apply Work.tally_aside
    | with_reducible apply Work.stalled_aside
    | intro _
    | split
    | with_reducible apply aside_fold
    | with_reducible apply aside_fold1
    | with_reducible apply aside_foldW
    | with_reducible apply aside_foldW1
    | with_reducible apply aside_foldH
    | with_reducible apply aside_foldH1
    | with_reducible refine aside_fst ?_ (by with_reducible assumption)
    | with_reducible refine aside_fstW ?_ (by with_reducible assumption)
    | with_reducible refine aside_fstH ?_ (by with_reducible assumption)
    | (simp only [↓aside_mk]; with_reducible refine aside_of ?_))

theorem Work.partialSum_aside {a0 : Work} {a1 : Flight} {a2 : Mat} (ha0 : (a0).s.aside og ev) :
    (@Work.partialSum a0 a1 a2).s.aside og ev := by
  unfold Work.partialSum
  try dsimp only
  repeat' (first
    | with_reducible assumption
    | with_reducible apply Work.each_aside
    | with_reducible apply Work.collect_aside
    | with_reducible apply Work.readRows_aside
    | with_reducible apply Work.andThen_aside
    | with_reducible apply Work.matOut_aside
    | with_reducible apply Work.openOutputs_aside
    | with_reducible apply Work.stalled_aside
    | intro _
    | split
    | with_reducible apply aside_fold
    | with_reducible apply aside_fold1
    | with_reducible apply aside_foldW
    | with_reducible apply aside_foldW1
    | with_reducible apply aside_foldH
    | with_reducible apply aside_foldH1
    | with_reducible refine aside_fst ?_ (by with_reducible assumption)
    | with_reducible refine aside_fstW ?_ (by with_reducible assumption)
    | with_reducible refine aside_fstH ?_ (by with_reducible assumption)
    | (simp only [↓aside_mk]; with_reducible refine aside_of ?_))

theorem aeRun_aside {a0 : Flight} {a1 : Work} (ha1 : (a1).s.aside og ev) :
    (@aeRun a0 a1).s.aside og ev := by
  unfold aeRun
  try dsimp only
  repeat' (first
    | with_reducible assumption
    | with_reducible apply Work.andThen_aside
    | with_reducible apply Work.matmul_aside
    | with_reducible apply Work.partialSum_aside
    | with_reducible apply Work.loadRes_aside
    | with_reducible apply Work.onCommit_aside
    | with_reducible apply Work.mapS_aside
    | with_reducible apply State.setResident_aside
    | with_reducible apply Work.stalled_aside
    | with_reducible apply State.clearResident_aside
    | with_reducible apply State.stall_aside
    | intro _
    | split
    | with_reducible apply aside_fold
    | with_reducible apply aside_fold1
    | with_reducible apply aside_foldW
    | with_reducible apply aside_foldW1
    | with_reducible apply aside_foldH
    | with_reducible apply aside_foldH1
    | with_reducible refine aside_fst ?_ (by with_reducible assumption)
    | with_reducible refine aside_fstW ?_ (by with_reducible assumption)
    | with_reducible refine aside_fstH ?_ (by with_reducible assumption)
    | (simp only [↓aside_mk]; with_reducible refine aside_of ?_))

theorem Work.ceParams_aside {a0 : Work} {a1 : BitVec 1024} (ha0 : (a0).s.aside og ev) :
    (@Work.ceParams a0 a1).1.s.aside og ev := by
  unfold Work.ceParams
  try dsimp only
  repeat' (first
    | with_reducible assumption
    | with_reducible apply Work.read_aside
    | with_reducible apply Work.checkFields_aside
    | intro _
    | split
    | with_reducible apply aside_fold
    | with_reducible apply aside_fold1
    | with_reducible apply aside_foldW
    | with_reducible apply aside_foldW1
    | with_reducible apply aside_foldH
    | with_reducible apply aside_foldH1
    | with_reducible refine aside_fst ?_ (by with_reducible assumption)
    | with_reducible refine aside_fstW ?_ (by with_reducible assumption)
    | with_reducible refine aside_fstH ?_ (by with_reducible assumption)
    | (simp only [↓aside_mk]; with_reducible refine aside_of ?_))

theorem Work.fpRow_aside {a0 : Work} {a1 : Nat} {a2 : Nat} {a3 : Nat} {a4 : Nat} {a5 : Nat} (ha0 : (a0).s.aside og ev) :
    (@Work.fpRow a0 a1 a2 a3 a4 a5).1.s.aside og ev := by
  unfold Work.fpRow
  try dsimp only
  repeat' (first
    | with_reducible assumption
    | with_reducible apply Work.read_aside
    | intro _
    | split
    | with_reducible apply aside_fold
    | with_reducible apply aside_fold1
    | with_reducible apply aside_foldW
    | with_reducible apply aside_foldW1
    | with_reducible apply aside_foldH
    | with_reducible apply aside_foldH1
    | with_reducible refine aside_fst ?_ (by with_reducible assumption)
    | with_reducible refine aside_fstW ?_ (by with_reducible assumption)
    | with_reducible refine aside_fstH ?_ (by with_reducible assumption)
    | (simp only [↓aside_mk]; with_reducible refine aside_of ?_))

theorem Work.fpVec_aside {a0 : Work} {a1 : Bool} {a2 : Nat} {a3 : Nat} (ha0 : (a0).s.aside og ev) :
    (@Work.fpVec a0 a1 a2 a3).1.s.aside og ev := by
  unfold Work.fpVec
  try dsimp only
  repeat' (first
    | with_reducible assumption
    | with_reducible apply Work.read_aside
    | intro _
    | split
    | with_reducible apply aside_fold
    | with_reducible apply aside_fold1
    | with_reducible apply aside_foldW
    | with_reducible apply aside_foldW1
    | with_reducible apply aside_foldH
    | with_reducible apply aside_foldH1
    | with_reducible refine aside_fst ?_ (by with_reducible assumption)
    | with_reducible refine aside_fstW ?_ (by with_reducible assumption)
    | with_reducible refine aside_fstH ?_ (by with_reducible assumption)
    | (simp only [↓aside_mk]; with_reducible refine aside_of ?_))

theorem Work.ceRow_aside {a0 : Work} {a1 : Flight} {a2 : Chi} {a3 : ChiEnv} {a4 : Option Ssr} {a5 : Nat} (ha0 : (a0).s.aside og ev) :
    (@Work.ceRow a0 a1 a2 a3 a4 a5).1.s.aside og ev := by
  unfold Work.ceRow
  have h1 : ∀ p : Work × List Word, p = (if a2.xTr then (a0, recRow (a1.recsOf a2.trough) a2.xf a2.rows a2.cols (a1.linesOf a2.trough false / 8) a5)
    else a0.fpRow a2.x (a2.pitch 0) a2.xf a5 a2.xCols) → p.1.s.aside og ev := by
    rintro p rfl; split
    · exact ha0
    · exact Work.fpRow_aside ha0
  revert h1
  generalize (if a2.xTr = true then _ else _ : Work × List Word) = p1
  intro h1
  replace h1 := h1 _ rfl
  obtain ⟨w1, x⟩ := p1
  try dsimp only at h1 ⊢
  have h2 : ∀ p : Work × List Word, p = (if a2.useY then w1.fpRow a2.y (a2.pitch 1) a2.yf a5 a2.cols else (w1, [])) → p.1.s.aside og ev := by
    rintro p rfl; split
    · exact Work.fpRow_aside h1
    · exact h1
  revert h2
  generalize (if a2.useY = true then _ else _ : Work × List Word) = p1
  intro h2
  replace h2 := h2 _ rfl
  obtain ⟨w2, y⟩ := p1
  have h3 : ∀ p : Work × List Word, p = (if a2.useW then w2.fpRow (a2.addr 0x38) (a2.pitch 3) a2.wf a5 a2.cols else (w2, [])) → p.1.s.aside og ev := by
    rintro p rfl; split
    · exact Work.fpRow_aside h2
    · exact h2
  try dsimp only
  revert h3
  generalize (if a2.useW = true then _ else _ : Work × List Word) = p1
  intro h3
  replace h3 := h3 _ rfl
  obtain ⟨w3, v⟩ := p1
  try dsimp only at h3 ⊢
  split
  · exact h3
  · generalize a2.computeRow a3 x y v = cr
    obtain ⟨o, st, zr, wr⟩ := cr
    dsimp only
    have h4 : (if a2.isGate = true then w3.write (a2.z + a5 * a2.pitch 2) (wordBytes zr) else w3).s.aside og ev := by
      split
      · exact Work.write_aside h3
      · exact h3
    revert h4
    generalize (if a2.isGate = true then w3.write (a2.z + a5 * a2.pitch 2) (wordBytes zr) else w3) = w4
    intro h4
    have h5 : (if a2.isGate ∧ a2.gru = false then w4.write (a2.addr 0x38 + a5 * a2.pitch 3) (wordBytes wr) else w4).s.aside og ev := by
      split
      · exact Work.write_aside h4
      · exact h4
    revert h5
    generalize (if a2.isGate ∧ a2.gru = false then w4.write (a2.addr 0x38 + a5 * a2.pitch 3) (wordBytes wr) else w4) = w5
    intro h5
    cases a2.staged <;> simp only [if_true, if_false, Bool.false_eq_true] <;> split <;>
      (repeat' first | exact h5 | with_reducible apply Work.write_aside)

theorem Work.ceLoad_aside {a0 : Work} {a1 : Nat} {a2 : Nat} {a3 : Nat} {a4 : Nat} (ha0 : (a0).s.aside og ev) :
    (@Work.ceLoad a0 a1 a2 a3 a4).1.s.aside og ev := by
  unfold Work.ceLoad
  try dsimp only
  repeat' (first
    | with_reducible assumption
    | with_reducible apply Work.read_aside
    | with_reducible apply Work.fail_aside
    | with_reducible apply Work.mapS_aside
    | with_reducible apply State.tick_aside
    | with_reducible apply State.setRegN_aside
    | with_reducible apply State.count_aside
    | with_reducible apply State.setField_aside
    | with_reducible apply State.setBit_aside
    | intro _
    | split
    | with_reducible apply aside_fold
    | with_reducible apply aside_fold1
    | with_reducible apply aside_foldW
    | with_reducible apply aside_foldW1
    | with_reducible apply aside_foldH
    | with_reducible apply aside_foldH1
    | with_reducible refine aside_fst ?_ (by with_reducible assumption)
    | with_reducible refine aside_fstW ?_ (by with_reducible assumption)
    | with_reducible refine aside_fstH ?_ (by with_reducible assumption)
    | (simp only [↓aside_mk]; with_reducible refine aside_of ?_))

theorem Work.ceImage_aside {a0 : Work} {a1 : Nat} {a2 : Nat} {a3 : Nat} (ha0 : (a0).s.aside og ev) :
    (@Work.ceImage a0 a1 a2 a3).1.s.aside og ev := by
  unfold Work.ceImage
  try dsimp only
  repeat' (first
    | with_reducible assumption
    | with_reducible apply Work.needLocal_aside
    | with_reducible apply Work.read_aside
    | with_reducible apply Work.ceLoad_aside
    | intro _
    | split
    | with_reducible apply aside_fold
    | with_reducible apply aside_fold1
    | with_reducible apply aside_foldW
    | with_reducible apply aside_foldW1
    | with_reducible apply aside_foldH
    | with_reducible apply aside_foldH1
    | with_reducible refine aside_fst ?_ (by with_reducible assumption)
    | with_reducible refine aside_fstW ?_ (by with_reducible assumption)
    | with_reducible refine aside_fstH ?_ (by with_reducible assumption)
    | (simp only [↓aside_mk]; with_reducible refine aside_of ?_))

theorem ceStart_aside {a0 : Flight} {a1 : Work} (ha1 : (a1).s.aside og ev) :
    (@ceStart a0 a1).1.s.aside og ev := by
  unfold ceStart
  try dsimp only
  repeat' (first
    | with_reducible assumption
    | with_reducible apply Work.ceParams_aside
    | with_reducible apply Work.ceImage_aside
    | with_reducible apply Work.checkFields_aside
    | with_reducible apply Work.mapS_aside
    | with_reducible apply State.stall_aside
    | with_reducible apply Work.each_aside
    | with_reducible apply Work.needLocal_aside
    | with_reducible apply Work.ssrStart_aside
    | intro _
    | split
    | with_reducible apply aside_fold
    | with_reducible apply aside_fold1
    | with_reducible apply aside_foldW
    | with_reducible apply aside_foldW1
    | with_reducible apply aside_foldH
    | with_reducible apply aside_foldH1
    | with_reducible refine aside_fst ?_ (by with_reducible assumption)
    | with_reducible refine aside_fstW ?_ (by with_reducible assumption)
    | with_reducible refine aside_fstH ?_ (by with_reducible assumption)
    | (simp only [↓aside_mk]; with_reducible refine aside_of ?_))

theorem ceRun_aside {a0 : Flight} {a1 : Work} (ha1 : (a1).s.aside og ev) :
    (@ceRun a0 a1).s.aside og ev := by
  unfold ceRun
  try dsimp only
  repeat' (first
    | with_reducible assumption
    | with_reducible apply Work.fpVec_aside
    | with_reducible apply Work.ceRow_aside
    | with_reducible apply Work.openOutputs_aside
    | with_reducible apply Work.ssrFinish_aside
    | with_reducible apply Work.tally_aside
    | with_reducible apply Work.stalled_aside
    | intro _
    | split
    | with_reducible apply aside_fold
    | with_reducible apply aside_fold1
    | with_reducible apply aside_foldW
    | with_reducible apply aside_foldW1
    | with_reducible apply aside_foldH
    | with_reducible apply aside_foldH1
    | with_reducible refine aside_fst ?_ (by with_reducible assumption)
    | with_reducible refine aside_fstW ?_ (by with_reducible assumption)
    | with_reducible refine aside_fstH ?_ (by with_reducible assumption)
    | (simp only [↓aside_mk]; with_reducible refine aside_of ?_))

theorem State.setPage_aside {a0 : State} {a1 : Nat} {a2 : Nat} (ha0 : (a0).aside og ev) :
    (@State.setPage a0 a1 a2).aside og ev := by
  exact ha0

theorem State.poolPush_aside {a0 : State} {a1 : Nat} (ha0 : (a0).aside og ev) :
    (@State.poolPush a0 a1).aside og ev := by
  unfold State.poolPush
  try dsimp only
  repeat' (first
    | with_reducible assumption
    | with_reducible apply State.setPage_aside
    | with_reducible apply State.setField_aside
    | intro _
    | split
    | with_reducible apply aside_fold
    | with_reducible apply aside_fold1
    | with_reducible apply aside_foldW
    | with_reducible apply aside_foldW1
    | with_reducible apply aside_foldH
    | with_reducible apply aside_foldH1
    | with_reducible refine aside_fst ?_ (by with_reducible assumption)
    | with_reducible refine aside_fstW ?_ (by with_reducible assumption)
    | with_reducible refine aside_fstH ?_ (by with_reducible assumption)
    | (simp only [↓aside_mk]; with_reducible refine aside_of ?_))

theorem State.poolTake_aside {a0 : State} {a1 : Nat} {a2 : Nat} (ha0 : (a0).aside og ev) :
    (@State.poolTake a0 a1 a2).1.aside og ev := by
  unfold State.poolTake
  try dsimp only
  repeat' (first
    | with_reducible assumption
    | with_reducible apply State.setField_aside
    | intro _
    | split
    | with_reducible apply aside_fold
    | with_reducible apply aside_fold1
    | with_reducible apply aside_foldW
    | with_reducible apply aside_foldW1
    | with_reducible apply aside_foldH
    | with_reducible apply aside_foldH1
    | with_reducible refine aside_fst ?_ (by with_reducible assumption)
    | with_reducible refine aside_fstW ?_ (by with_reducible assumption)
    | with_reducible refine aside_fstH ?_ (by with_reducible assumption)
    | (simp only [↓aside_mk]; with_reducible refine aside_of ?_))

theorem State.poolPop_aside {a0 : State} {a1 : Nat} {a2 : Nat} {a3 : Option Nat} (ha0 : (a0).aside og ev) :
    (@State.poolPop a0 a1 a2 a3).1.aside og ev := by
  unfold State.poolPop
  try dsimp only
  repeat' (first
    | with_reducible assumption
    | with_reducible apply State.poolTake_aside
    | with_reducible apply State.setPage_aside
    | intro _
    | split
    | with_reducible apply aside_fold
    | with_reducible apply aside_fold1
    | with_reducible apply aside_foldW
    | with_reducible apply aside_foldW1
    | with_reducible apply aside_foldH
    | with_reducible apply aside_foldH1
    | with_reducible refine aside_fst ?_ (by with_reducible assumption)
    | with_reducible refine aside_fstW ?_ (by with_reducible assumption)
    | with_reducible refine aside_fstH ?_ (by with_reducible assumption)
    | (simp only [↓aside_mk]; with_reducible refine aside_of ?_))

theorem State.lowerRefsFuel_aside {a0 : Nat} {a1 : State} {a2 : Nat} (ha1 : (a1).aside og ev) :
    (@State.lowerRefsFuel a0 a1 a2).1.aside og ev := by
  induction a0 generalizing a1 a2 with
  | zero => exact ha1
  | succ n ih =>
    simp only [State.lowerRefsFuel]
    repeat' (first
        | with_reducible apply ih
        | with_reducible apply State.poolPush_aside
        | with_reducible apply State.setPage_aside
        | dsimp only
        | with_reducible assumption
        | intro _
        | split
        | with_reducible apply aside_fold
        | with_reducible apply aside_fold1
        | with_reducible apply aside_foldW
        | with_reducible apply aside_foldW1
        | with_reducible apply aside_foldH
        | with_reducible apply aside_foldH1
        | with_reducible refine aside_fst ?_ (by with_reducible assumption)
        | with_reducible refine aside_fstW ?_ (by with_reducible assumption)
        | with_reducible refine aside_fstH ?_ (by with_reducible assumption)
        | (simp only [↓aside_mk]; with_reducible refine aside_of ?_))

theorem State.lowerRefs_aside {a0 : State} {a1 : Nat} (ha0 : (a0).aside og ev) :
    (@State.lowerRefs a0 a1).1.aside og ev := by
  unfold State.lowerRefs
  try dsimp only
  repeat' (first
    | with_reducible assumption
    | with_reducible apply State.lowerRefsFuel_aside
    | intro _
    | split
    | with_reducible apply aside_fold
    | with_reducible apply aside_fold1
    | with_reducible apply aside_foldW
    | with_reducible apply aside_foldW1
    | with_reducible apply aside_foldH
    | with_reducible apply aside_foldH1
    | with_reducible refine aside_fst ?_ (by with_reducible assumption)
    | with_reducible refine aside_fstW ?_ (by with_reducible assumption)
    | with_reducible refine aside_fstH ?_ (by with_reducible assumption)
    | (simp only [↓aside_mk]; with_reducible refine aside_of ?_))

theorem State.setPfx_aside {a0 : State} {a1 : Nat} {a2 : Nat} (ha0 : (a0).aside og ev) :
    (@State.setPfx a0 a1 a2).aside og ev := by
  exact ha0

theorem State.pfxDrop_aside {a0 : State} {a1 : Nat} (ha0 : (a0).aside og ev) :
    (@State.pfxDrop a0 a1).aside og ev := by
  unfold State.pfxDrop
  try dsimp only
  repeat' (first
    | with_reducible assumption
    | with_reducible apply State.setPfx_aside
    | with_reducible apply State.lowerRefs_aside
    | with_reducible apply State.setPage_aside
    | intro _
    | split
    | with_reducible apply aside_fold
    | with_reducible apply aside_fold1
    | with_reducible apply aside_foldW
    | with_reducible apply aside_foldW1
    | with_reducible apply aside_foldH
    | with_reducible apply aside_foldH1
    | with_reducible refine aside_fst ?_ (by with_reducible assumption)
    | with_reducible refine aside_fstW ?_ (by with_reducible assumption)
    | with_reducible refine aside_fstH ?_ (by with_reducible assumption)
    | (simp only [↓aside_mk]; with_reducible refine aside_of ?_))

theorem Work.ltRead_aside {a0 : Work} {a1 : Nat} {a2 : Nat} (ha0 : (a0).s.aside og ev) :
    (@Work.ltRead a0 a1 a2).1.s.aside og ev := by
  unfold Work.ltRead
  try dsimp only
  repeat' (first
    | with_reducible assumption
    | with_reducible apply Work.collect_aside
    | with_reducible apply Work.read_aside
    | intro _
    | split
    | with_reducible apply aside_fold
    | with_reducible apply aside_fold1
    | with_reducible apply aside_foldW
    | with_reducible apply aside_foldW1
    | with_reducible apply aside_foldH
    | with_reducible apply aside_foldH1
    | with_reducible refine aside_fst ?_ (by with_reducible assumption)
    | with_reducible refine aside_fstW ?_ (by with_reducible assumption)
    | with_reducible refine aside_fstH ?_ (by with_reducible assumption)
    | (simp only [↓aside_mk]; with_reducible refine aside_of ?_))

theorem Work.ltStatus_aside {a0 : Work} {a1 : LtEntry} {a2 : Nat} (ha0 : (a0).s.aside og ev) :
    (@Work.ltStatus a0 a1 a2).s.aside og ev := by
  unfold Work.ltStatus
  try dsimp only
  repeat' (first
    | with_reducible assumption
    | with_reducible apply Work.write_aside
    | intro _
    | split
    | with_reducible apply aside_fold
    | with_reducible apply aside_fold1
    | with_reducible apply aside_foldW
    | with_reducible apply aside_foldW1
    | with_reducible apply aside_foldH
    | with_reducible apply aside_foldH1
    | with_reducible refine aside_fst ?_ (by with_reducible assumption)
    | with_reducible refine aside_fstW ?_ (by with_reducible assumption)
    | with_reducible refine aside_fstH ?_ (by with_reducible assumption)
    | (simp only [↓aside_mk]; with_reducible refine aside_of ?_))

theorem Work.ltCommit_aside {a0 : Work} {a1 : LtEntry} {a2 : Nat} {a3 : Nat} (ha0 : (a0).s.aside og ev) :
    (@Work.ltCommit a0 a1 a2 a3).s.aside og ev := by
  unfold Work.ltCommit
  try dsimp only
  repeat' (first
    | with_reducible assumption
    | with_reducible apply Work.write_aside
    | intro _
    | split
    | with_reducible apply aside_fold
    | with_reducible apply aside_fold1
    | with_reducible apply aside_foldW
    | with_reducible apply aside_foldW1
    | with_reducible apply aside_foldH
    | with_reducible apply aside_foldH1
    | with_reducible refine aside_fst ?_ (by with_reducible assumption)
    | with_reducible refine aside_fstW ?_ (by with_reducible assumption)
    | with_reducible refine aside_fstH ?_ (by with_reducible assumption)
    | (simp only [↓aside_mk]; with_reducible refine aside_of ?_))

theorem Work.entry_aside {a0 : Work} {a1 : List (Nat × Nat)} {a2 : LtEntry} {a3 : Work → Work} (ha0 : (a0).s.aside og ev) (ha3 : ∀ y0, (y0).s.aside og ev → (a3 y0).s.aside og ev) :
    (@Work.entry a0 a1 a2 a3).1.s.aside og ev := by
  unfold Work.entry
  try dsimp only
  repeat' (first
    | with_reducible assumption
    | with_reducible apply Work.ltStatus_aside
    | with_reducible apply ha3
    | intro _
    | split
    | with_reducible apply aside_fold
    | with_reducible apply aside_fold1
    | with_reducible apply aside_foldW
    | with_reducible apply aside_foldW1
    | with_reducible apply aside_foldH
    | with_reducible apply aside_foldH1
    | with_reducible refine aside_fst ?_ (by with_reducible assumption)
    | with_reducible refine aside_fstW ?_ (by with_reducible assumption)
    | with_reducible refine aside_fstH ?_ (by with_reducible assumption)
    | (simp only [↓aside_mk]; with_reducible refine aside_of ?_))

theorem Work.closeEntries_aside {a0 : Work} {a1 : List (Nat × Nat)} (ha0 : (a0).s.aside og ev) :
    (@Work.closeEntries a0 a1).s.aside og ev := by
  unfold Work.closeEntries
  try dsimp only
  repeat' (first
    | with_reducible assumption
    | intro _
    | split
    | with_reducible apply aside_fold
    | with_reducible apply aside_fold1
    | with_reducible apply aside_foldW
    | with_reducible apply aside_foldW1
    | with_reducible apply aside_foldH
    | with_reducible apply aside_foldH1
    | with_reducible refine aside_fst ?_ (by with_reducible assumption)
    | with_reducible refine aside_fstW ?_ (by with_reducible assumption)
    | with_reducible refine aside_fstH ?_ (by with_reducible assumption)
    | (simp only [↓aside_mk]; with_reducible refine aside_of ?_))

theorem Work.attendSeq_aside {a0 : Work} {a1 : Vou} {a2 : Nat} {a3 : Seq} {a4 : Nat} {a5 : Work → Nat → Nat → Work × List Num × List Num} (ha0 : (a0).s.aside og ev) (ha5 : ∀ y0 y1 y2, (y0).s.aside og ev → (a5 y0 y1 y2).1.s.aside og ev) :
    (@Work.attendSeq a0 a1 a2 a3 a4 a5).1.s.aside og ev := by
  unfold Work.attendSeq
  try dsimp only
  repeat' (first
    | with_reducible assumption
    | with_reducible apply Work.collect_aside
    | with_reducible apply Work.read_aside
    | with_reducible apply ha5
    | intro _
    | split
    | with_reducible apply aside_fold
    | with_reducible apply aside_fold1
    | with_reducible apply aside_foldW
    | with_reducible apply aside_foldW1
    | with_reducible apply aside_foldH
    | with_reducible apply aside_foldH1
    | with_reducible refine aside_fst ?_ (by with_reducible assumption)
    | with_reducible refine aside_fstW ?_ (by with_reducible assumption)
    | with_reducible refine aside_fstH ?_ (by with_reducible assumption)
    | (simp only [↓aside_mk]; with_reducible refine aside_of ?_))

theorem Work.attendOut_aside {a0 : Work} {a1 : Vou} {a2 : Nat} {a3 : Nat} {a4 : List (Nat × Nat × Run)} (ha0 : (a0).s.aside og ev) :
    (@Work.attendOut a0 a1 a2 a3 a4).s.aside og ev := by
  unfold Work.attendOut
  try dsimp only
  repeat' (first
    | with_reducible assumption
    | with_reducible apply Work.each_aside
    | with_reducible apply Work.write_aside
    | intro _
    | split
    | with_reducible apply aside_fold
    | with_reducible apply aside_fold1
    | with_reducible apply aside_foldW
    | with_reducible apply aside_foldW1
    | with_reducible apply aside_foldH
    | with_reducible apply aside_foldH1
    | with_reducible refine aside_fst ?_ (by with_reducible assumption)
    | with_reducible refine aside_fstW ?_ (by with_reducible assumption)
    | with_reducible refine aside_fstH ?_ (by with_reducible assumption)
    | (simp only [↓aside_mk]; with_reducible refine aside_of ?_))

theorem Work.slotKv_aside {a0 : Work} {a1 : Vou} {a2 : Nat} {a3 : Nat} {a4 : Nat} {a5 : Nat} (ha0 : (a0).s.aside og ev) :
    (@Work.slotKv a0 a1 a2 a3 a4 a5).1.s.aside og ev := by
  unfold Work.slotKv
  try dsimp only
  repeat' (first
    | with_reducible assumption
    | with_reducible apply Work.read_aside
    | intro _
    | split
    | with_reducible apply aside_fold
    | with_reducible apply aside_fold1
    | with_reducible apply aside_foldW
    | with_reducible apply aside_foldW1
    | with_reducible apply aside_foldH
    | with_reducible apply aside_foldH1
    | with_reducible refine aside_fst ?_ (by with_reducible assumption)
    | with_reducible refine aside_fstW ?_ (by with_reducible assumption)
    | with_reducible refine aside_fstH ?_ (by with_reducible assumption)
    | (simp only [↓aside_mk]; with_reducible refine aside_of ?_))

theorem State.popPages_aside {a0 : Nat} {a1 : Nat} {a2 : Nat} {a3 : State} {a4 : Option Nat} (ha3 : (a3).aside og ev) :
    (@State.popPages a0 a1 a2 a3 a4).1.aside og ev := by
  induction a2 generalizing a3 a4 with
  | zero => exact ha3
  | succ n ih =>
    simp only [State.popPages]
    split
    · rename_i he
      exact aside_fst (State.poolPop_aside ha3) he
    · rename_i he
      exact ih (aside_fst (State.poolPop_aside ha3) he)

theorem Work.allocate_aside {a0 : Work} {a1 : Vou} {a2 : Nat} {a3 : List LtEntry} (ha0 : (a0).s.aside og ev) :
    (@Work.allocate a0 a1 a2 a3).1.s.aside og ev := by
  unfold Work.allocate
  try dsimp only
  repeat' (first
    | with_reducible assumption
    | with_reducible apply Work.collect_aside
    | with_reducible apply State.popPages_aside
    | with_reducible apply State.poolPush_aside
    | intro _
    | split
    | with_reducible apply aside_fold
    | with_reducible apply aside_fold1
    | with_reducible apply aside_foldW
    | with_reducible apply aside_foldW1
    | with_reducible apply aside_foldH
    | with_reducible apply aside_foldH1
    | with_reducible refine aside_fst ?_ (by with_reducible assumption)
    | with_reducible refine aside_fstW ?_ (by with_reducible assumption)
    | with_reducible refine aside_fstH ?_ (by with_reducible assumption)
    | (simp only [↓aside_mk]; with_reducible refine aside_of ?_))

theorem Work.attendEntry_aside {a0 : Work} {a1 : Vou} {a2 : Nat} {a3 : Nat} {a4 : Alloc} (ha0 : (a0).s.aside og ev) :
    (@Work.attendEntry a0 a1 a2 a3 a4).s.aside og ev := by
  unfold Work.attendEntry
  try dsimp only
  repeat' (first
    | with_reducible assumption
    | with_reducible apply Work.fail_aside
    | with_reducible apply Work.collect_aside
    | with_reducible apply Work.read_aside
    | with_reducible apply Work.write_aside
    | with_reducible apply Work.slotKv_aside
    | with_reducible apply Work.attendSeq_aside
    | with_reducible apply Work.attendOut_aside
    | with_reducible apply Work.ltCommit_aside
    | with_reducible apply Work.tally_aside
    | with_reducible apply Work.stalled_aside
    | intro _
    | split
    | with_reducible apply aside_fold
    | with_reducible apply aside_fold1
    | with_reducible apply aside_foldW
    | with_reducible apply aside_foldW1
    | with_reducible apply aside_foldH
    | with_reducible apply aside_foldH1
    | with_reducible refine aside_fst ?_ (by with_reducible assumption)
    | with_reducible refine aside_fstW ?_ (by with_reducible assumption)
    | with_reducible refine aside_fstH ?_ (by with_reducible assumption)
    | (simp only [↓aside_mk]; with_reducible refine aside_of ?_))

theorem Work.attendTable_aside {a0 : Work} {a1 : Flight} {a2 : Vou} {a3 : Nat} (ha0 : (a0).s.aside og ev) (he : ev = true) :
    (@Work.attendTable a0 a1 a2 a3).s.aside og ev := by
  unfold Work.attendTable
  try dsimp only
  repeat' (first
    | with_reducible assumption
    | with_reducible apply Work.ltRead_aside
    | with_reducible apply Work.checkFields_aside
    | with_reducible apply Work.allocate_aside
    | with_reducible apply Work.entry_aside
    | with_reducible apply Work.attendEntry_aside
    | with_reducible apply State.poolPush_aside
    | with_reducible apply Work.closeEntries_aside
    | with_reducible apply Work.mapS_aside
    | with_reducible apply State.event_aside
    | with_reducible apply State.count_aside
    | intro _
    | split
    | with_reducible apply aside_fold
    | with_reducible apply aside_fold1
    | with_reducible apply aside_foldW
    | with_reducible apply aside_foldW1
    | with_reducible apply aside_foldH
    | with_reducible apply aside_foldH1
    | with_reducible refine aside_fst ?_ (by with_reducible assumption)
    | with_reducible refine aside_fstW ?_ (by with_reducible assumption)
    | with_reducible refine aside_fstH ?_ (by with_reducible assumption)
    | (simp only [↓aside_mk]; with_reducible refine aside_of ?_))

theorem Work.attendBlock_aside {a0 : Work} {a1 : Flight} {a2 : Vou} {a3 : Nat} (ha0 : (a0).s.aside og ev) :
    (@Work.attendBlock a0 a1 a2 a3).s.aside og ev := by
  unfold Work.attendBlock
  try dsimp only
  repeat' (first
    | with_reducible assumption
    | with_reducible apply Work.slotKv_aside
    | with_reducible apply Work.attendSeq_aside
    | with_reducible apply Work.attendOut_aside
    | with_reducible apply Work.tally_aside
    | with_reducible apply Work.stalled_aside
    | intro _
    | split
    | with_reducible apply aside_fold
    | with_reducible apply aside_fold1
    | with_reducible apply aside_foldW
    | with_reducible apply aside_foldW1
    | with_reducible apply aside_foldH
    | with_reducible apply aside_foldH1
    | with_reducible refine aside_fst ?_ (by with_reducible assumption)
    | with_reducible refine aside_fstW ?_ (by with_reducible assumption)
    | with_reducible refine aside_fstH ?_ (by with_reducible assumption)
    | (simp only [↓aside_mk]; with_reducible refine aside_of ?_))

theorem Work.poolGive_aside {a0 : Work} {a1 : Flight} {a2 : Vou} (ha0 : (a0).s.aside og ev) :
    (@Work.poolGive a0 a1 a2).s.aside og ev := by
  unfold Work.poolGive
  try dsimp only
  repeat' (first
    | with_reducible assumption
    | with_reducible apply Work.read_aside
    | with_reducible apply Work.fail_aside
    | with_reducible apply Work.mapS_aside
    | with_reducible apply State.setPage_aside
    | with_reducible apply State.poolPush_aside
    | intro _
    | split
    | with_reducible apply aside_fold
    | with_reducible apply aside_fold1
    | with_reducible apply aside_foldW
    | with_reducible apply aside_foldW1
    | with_reducible apply aside_foldH
    | with_reducible apply aside_foldH1
    | with_reducible refine aside_fst ?_ (by with_reducible assumption)
    | with_reducible refine aside_fstW ?_ (by with_reducible assumption)
    | with_reducible refine aside_fstH ?_ (by with_reducible assumption)
    | (simp only [↓aside_mk]; with_reducible refine aside_of ?_))

theorem State.reclaim_aside {a0 : Nat} {a1 : Nat} {a2 : Nat} {a3 : State} (ha3 : (a3).aside og ev) :
    (@State.reclaim a0 a1 a2 a3).1.aside og ev := by
  induction a2 generalizing a3 with
  | zero => exact ha3
  | succ n ih =>
    simp only [State.reclaim]
    split
    · rename_i he
      exact aside_fst (State.poolTake_aside ha3) he
    · rename_i he
      exact ih (State.setPage_aside (aside_fst (State.poolTake_aside ha3) he))

theorem Work.poolReclaim_aside {a0 : Work} {a1 : Flight} {a2 : Vou} (ha0 : (a0).s.aside og ev) :
    (@Work.poolReclaim a0 a1 a2).s.aside og ev := by
  unfold Work.poolReclaim
  try dsimp only
  repeat' (first
    | with_reducible assumption
    | with_reducible apply State.reclaim_aside
    | with_reducible apply Work.write_aside
    | with_reducible apply Work.andThen_aside
    | intro _
    | split
    | with_reducible apply aside_fold
    | with_reducible apply aside_fold1
    | with_reducible apply aside_foldW
    | with_reducible apply aside_foldW1
    | with_reducible apply aside_foldH
    | with_reducible apply aside_foldH1
    | with_reducible refine aside_fst ?_ (by with_reducible assumption)
    | with_reducible refine aside_fstW ?_ (by with_reducible assumption)
    | with_reducible refine aside_fstH ?_ (by with_reducible assumption)
    | (simp only [↓aside_mk]; with_reducible refine aside_of ?_))

theorem Work.overEntries_aside {a0 : Work} {a1 : Vou} {a2 : Work → LtEntry → Work} (ha0 : (a0).s.aside og ev) (ha2 : ∀ y0 y1, (y0).s.aside og ev → (a2 y0 y1).s.aside og ev) :
    (@Work.overEntries a0 a1 a2).s.aside og ev := by
  unfold Work.overEntries
  try dsimp only
  repeat' (first
    | with_reducible assumption
    | with_reducible apply Work.ltRead_aside
    | with_reducible apply Work.checkFields_aside
    | with_reducible apply Work.entry_aside
    | with_reducible apply Work.closeEntries_aside
    | with_reducible apply ha2
    | intro _
    | split
    | with_reducible apply aside_fold
    | with_reducible apply aside_fold1
    | with_reducible apply aside_foldW
    | with_reducible apply aside_foldW1
    | with_reducible apply aside_foldH
    | with_reducible apply aside_foldH1
    | with_reducible refine aside_fst ?_ (by with_reducible assumption)
    | with_reducible refine aside_fstW ?_ (by with_reducible assumption)
    | with_reducible refine aside_fstH ?_ (by with_reducible assumption)
    | (simp only [↓aside_mk]; with_reducible refine aside_of ?_))

theorem Work.chainFree_aside {a0 : Work} {a1 : Nat} {a2 : Nat} {a3 : LtEntry} (ha0 : (a0).s.aside og ev) :
    (@Work.chainFree a0 a1 a2 a3).s.aside og ev := by
  unfold Work.chainFree
  try dsimp only
  repeat' (first
    | with_reducible assumption
    | with_reducible apply Work.fail_aside
    | with_reducible apply Work.write_aside
    | with_reducible apply Work.andThen_aside
    | with_reducible apply State.lowerRefs_aside
    | with_reducible apply State.stall_aside
    | intro _
    | split
    | with_reducible apply aside_fold
    | with_reducible apply aside_fold1
    | with_reducible apply aside_foldW
    | with_reducible apply aside_foldW1
    | with_reducible apply aside_foldH
    | with_reducible apply aside_foldH1
    | with_reducible refine aside_fst ?_ (by with_reducible assumption)
    | with_reducible refine aside_fstW ?_ (by with_reducible assumption)
    | with_reducible refine aside_fstH ?_ (by with_reducible assumption)
    | (simp only [↓aside_mk]; with_reducible refine aside_of ?_))

theorem Work.hashPages_aside {a0 : Work} {a1 : Nat} {a2 : Nat} {a3 : Nat} {a4 : Nat} {a5 : Nat} {a6 : Nat} {a7 : Nat} (ha0 : (a0).s.aside og ev) :
    (@Work.hashPages a0 a1 a2 a3 a4 a5 a6 a7).1.s.aside og ev := by
  induction a5 generalizing a0 a6 a7 with
  | zero => exact ha0
  | succ n ih =>
    simp only [Work.hashPages]
    repeat' (first
        | with_reducible apply ih
        | with_reducible apply Work.read_aside
        | with_reducible assumption
        | intro _
        | split
        | with_reducible apply aside_fold
        | with_reducible apply aside_fold1
        | with_reducible apply aside_foldW
        | with_reducible apply aside_foldW1
        | with_reducible apply aside_foldH
        | with_reducible apply aside_foldH1
        | with_reducible refine aside_fst ?_ (by with_reducible assumption)
        | with_reducible refine aside_fstW ?_ (by with_reducible assumption)
        | with_reducible refine aside_fstH ?_ (by with_reducible assumption)
        | (simp only [↓aside_mk]; with_reducible refine aside_of ?_))

theorem Work.prefixMatch_aside {a0 : Work} {a1 : Nat} {a2 : Nat} {a3 : Vou} {a4 : LtEntry} (ha0 : (a0).s.aside og ev) :
    (@Work.prefixMatch a0 a1 a2 a3 a4).s.aside og ev := by
  unfold Work.prefixMatch
  try dsimp only
  repeat' (first
    | with_reducible assumption
    | with_reducible apply Work.fail_aside
    | with_reducible apply Work.hashPages_aside
    | with_reducible apply Work.mapS_aside
    | with_reducible apply State.stall_aside
    | with_reducible apply Work.ltCommit_aside
    | with_reducible apply Work.andThen_aside
    | with_reducible apply State.setPage_aside
    | intro _
    | split
    | with_reducible apply aside_fold
    | with_reducible apply aside_fold1
    | with_reducible apply aside_foldW
    | with_reducible apply aside_foldW1
    | with_reducible apply aside_foldH
    | with_reducible apply aside_foldH1
    | with_reducible refine aside_fst ?_ (by with_reducible assumption)
    | with_reducible refine aside_fstW ?_ (by with_reducible assumption)
    | with_reducible refine aside_fstH ?_ (by with_reducible assumption)
    | (simp only [↓aside_mk]; with_reducible refine aside_of ?_))

theorem Work.publishPage_aside {a0 : Work} {a1 : Nat} {a2 : Nat} {a3 : Nat} (ha0 : (a0).s.aside og ev) :
    (@Work.publishPage a0 a1 a2 a3).s.aside og ev := by
  unfold Work.publishPage
  try dsimp only
  repeat' (first
    | with_reducible assumption
    | with_reducible apply Work.fail_aside
    | with_reducible apply Work.mapS_aside
    | with_reducible apply State.count_aside
    | with_reducible apply State.setPfx_aside
    | with_reducible apply State.setPage_aside
    | intro _
    | split
    | with_reducible apply aside_fold
    | with_reducible apply aside_fold1
    | with_reducible apply aside_foldW
    | with_reducible apply aside_foldW1
    | with_reducible apply aside_foldH
    | with_reducible apply aside_foldH1
    | with_reducible refine aside_fst ?_ (by with_reducible assumption)
    | with_reducible refine aside_fstW ?_ (by with_reducible assumption)
    | with_reducible refine aside_fstH ?_ (by with_reducible assumption)
    | (simp only [↓aside_mk]; with_reducible refine aside_of ?_))

theorem Work.prefixPublish_aside {a0 : Work} {a1 : Nat} {a2 : Nat} {a3 : Vou} {a4 : LtEntry} (ha0 : (a0).s.aside og ev) :
    (@Work.prefixPublish a0 a1 a2 a3 a4).s.aside og ev := by
  unfold Work.prefixPublish
  try dsimp only
  repeat' (first
    | with_reducible assumption
    | with_reducible apply Work.fail_aside
    | with_reducible apply Work.hashPages_aside
    | with_reducible apply Work.mapS_aside
    | with_reducible apply State.stall_aside
    | with_reducible apply Work.each_aside
    | with_reducible apply Work.publishPage_aside
    | intro _
    | split
    | with_reducible apply aside_fold
    | with_reducible apply aside_fold1
    | with_reducible apply aside_foldW
    | with_reducible apply aside_foldW1
    | with_reducible apply aside_foldH
    | with_reducible apply aside_foldH1
    | with_reducible refine aside_fst ?_ (by with_reducible assumption)
    | with_reducible refine aside_fstW ?_ (by with_reducible assumption)
    | with_reducible refine aside_fstH ?_ (by with_reducible assumption)
    | (simp only [↓aside_mk]; with_reducible refine aside_of ?_))

theorem State.dropChain_aside {a0 : State} {a1 : Nat} {a2 : List Nat} (ha0 : (a0).aside og ev) :
    (@State.dropChain a0 a1 a2).aside og ev := by
  unfold State.dropChain
  try dsimp only
  repeat' (first
    | with_reducible assumption
    | with_reducible apply State.pfxDrop_aside
    | intro _
    | split
    | with_reducible apply aside_fold
    | with_reducible apply aside_fold1
    | with_reducible apply aside_foldW
    | with_reducible apply aside_foldW1
    | with_reducible apply aside_foldH
    | with_reducible apply aside_foldH1
    | with_reducible refine aside_fst ?_ (by with_reducible assumption)
    | with_reducible refine aside_fstW ?_ (by with_reducible assumption)
    | with_reducible refine aside_fstH ?_ (by with_reducible assumption)
    | (simp only [↓aside_mk]; with_reducible refine aside_of ?_))

theorem Work.prefixDrop_aside {a0 : Work} {a1 : Nat} {a2 : Nat} {a3 : LtEntry} (ha0 : (a0).s.aside og ev) :
    (@Work.prefixDrop a0 a1 a2 a3).s.aside og ev := by
  unfold Work.prefixDrop
  try dsimp only
  repeat' (first
    | with_reducible assumption
    | with_reducible apply Work.fail_aside
    | with_reducible apply Work.mapS_aside
    | with_reducible apply State.stall_aside
    | with_reducible apply State.dropChain_aside
    | intro _
    | split
    | with_reducible apply aside_fold
    | with_reducible apply aside_fold1
    | with_reducible apply aside_foldW
    | with_reducible apply aside_foldW1
    | with_reducible apply aside_foldH
    | with_reducible apply aside_foldH1
    | with_reducible refine aside_fst ?_ (by with_reducible assumption)
    | with_reducible refine aside_fstW ?_ (by with_reducible assumption)
    | with_reducible refine aside_fstH ?_ (by with_reducible assumption)
    | (simp only [↓aside_mk]; with_reducible refine aside_of ?_))

theorem State.dropAll_aside {a0 : State} {a1 : Nat} (ha0 : (a0).aside og ev) :
    (@State.dropAll a0 a1).aside og ev := by
  unfold State.dropAll
  try dsimp only
  repeat' (first
    | with_reducible assumption
    | with_reducible apply State.pfxDrop_aside
    | intro _
    | split
    | with_reducible apply aside_fold
    | with_reducible apply aside_fold1
    | with_reducible apply aside_foldW
    | with_reducible apply aside_foldW1
    | with_reducible apply aside_foldH
    | with_reducible apply aside_foldH1
    | with_reducible refine aside_fst ?_ (by with_reducible assumption)
    | with_reducible refine aside_fstW ?_ (by with_reducible assumption)
    | with_reducible refine aside_fstH ?_ (by with_reducible assumption)
    | (simp only [↓aside_mk]; with_reducible refine aside_of ?_))

theorem Work.veParams_aside {a0 : Work} {a1 : BitVec 1024} (ha0 : (a0).s.aside og ev) :
    (@Work.veParams a0 a1).1.s.aside og ev := by
  unfold Work.veParams
  try dsimp only
  repeat' (first
    | with_reducible assumption
    | with_reducible apply Work.read_aside
    | with_reducible apply Work.checkFields_aside
    | intro _
    | split
    | with_reducible apply aside_fold
    | with_reducible apply aside_fold1
    | with_reducible apply aside_foldW
    | with_reducible apply aside_foldW1
    | with_reducible apply aside_foldH
    | with_reducible apply aside_foldH1
    | with_reducible refine aside_fst ?_ (by with_reducible assumption)
    | with_reducible refine aside_fstW ?_ (by with_reducible assumption)
    | with_reducible refine aside_fstH ?_ (by with_reducible assumption)
    | (simp only [↓aside_mk]; with_reducible refine aside_of ?_))

theorem Work.veOperate_aside {a0 : Work} {a1 : Flight} {a2 : Vou} (ha0 : (a0).s.aside og ev) (he : a2.op = 1 → ev = true) :
    (@Work.veOperate a0 a1 a2).s.aside og ev := by
  unfold Work.veOperate
  try dsimp only
  repeat' (first
    | with_reducible assumption
    | with_reducible apply Work.each_aside
    | with_reducible apply Work.needLocal_aside
    | with_reducible apply Work.stalled_aside
    | with_reducible apply Work.andThen_aside
    | with_reducible apply Work.attendBlock_aside
    | with_reducible apply Work.attendTable_aside
    | with_reducible apply Work.mapS_aside
    | with_reducible apply Work.poolGive_aside
    | with_reducible apply State.stall_aside
    | with_reducible apply Work.poolReclaim_aside
    | with_reducible apply Work.overEntries_aside
    | with_reducible apply Work.chainFree_aside
    | with_reducible apply Work.prefixMatch_aside
    | with_reducible apply Work.prefixPublish_aside
    | with_reducible apply State.dropAll_aside
    | with_reducible apply Work.prefixDrop_aside
    | exact he (by assumption)
    | intro _
    | split
    | with_reducible apply aside_fold
    | with_reducible apply aside_fold1
    | with_reducible apply aside_foldW
    | with_reducible apply aside_foldW1
    | with_reducible apply aside_foldH
    | with_reducible apply aside_foldH1
    | with_reducible refine aside_fst ?_ (by with_reducible assumption)
    | with_reducible refine aside_fstW ?_ (by with_reducible assumption)
    | with_reducible refine aside_fstH ?_ (by with_reducible assumption)
    | (simp only [↓aside_mk]; with_reducible refine aside_of ?_))

theorem veRun_aside {a0 : Flight} {a1 : Work} (ha1 : (a1).s.aside og ev) (he : dOp a0.desc = 1 → ev = true) (ht : a0.tangled = false ∧ ((a1.veParams a0.desc).1.s.tangle a0).1 = []) :
    (@veRun a0 a1).s.aside og ev := by
  show (if (a1.veParams a0.desc).1.dead = true then (a1.veParams a0.desc).1
    else ((a1.veParams a0.desc).1.veOperate a0 (a1.veParams a0.desc).2).untangle a0 (a1.veParams a0.desc).2
      ((a1.veParams a0.desc).1.s.tangle a0).1 ((a1.veParams a0.desc).1.s.tangle a0).2).s.aside og ev
  have hp := Work.veParams_aside (a1 := a0.desc) ha1
  by_cases hd : (a1.veParams a0.desc).1.dead = true
  · rw [if_pos hd]; exact hp
  · rw [if_neg hd, ht.2]
    unfold Work.untangle
    rw [if_pos ⟨rfl, ht.1⟩]
    refine Work.veOperate_aside hp fun h => he ?_
    rw [← Work.veParams_op a1 a0.desc]
    exact h

theorem Work.leParams_aside {a0 : Work} {a1 : BitVec 1024} (ha0 : (a0).s.aside og ev) :
    (@Work.leParams a0 a1).1.s.aside og ev := by
  unfold Work.leParams
  try dsimp only
  repeat' (first
    | with_reducible assumption
    | with_reducible apply Work.read_aside
    | with_reducible apply Work.checkFields_aside
    | intro _
    | split
    | with_reducible apply aside_fold
    | with_reducible apply aside_fold1
    | with_reducible apply aside_foldW
    | with_reducible apply aside_foldW1
    | with_reducible apply aside_foldH
    | with_reducible apply aside_foldH1
    | with_reducible refine aside_fst ?_ (by with_reducible assumption)
    | with_reducible refine aside_fstW ?_ (by with_reducible assumption)
    | with_reducible refine aside_fstH ?_ (by with_reducible assumption)
    | (simp only [↓aside_mk]; with_reducible refine aside_of ?_))

theorem Work.scanStream_aside {a0 : Work} {a1 : Lin} {a2 : Nat} {a3 : List Word} {a4 : Nat} (ha0 : (a0).s.aside og ev) :
    (@Work.scanStream a0 a1 a2 a3 a4).1.s.aside og ev := by
  unfold Work.scanStream
  try dsimp only
  repeat' (first
    | with_reducible assumption
    | with_reducible apply Work.read_aside
    | with_reducible apply Work.fpRow_aside
    | with_reducible apply Work.write_aside
    | intro _
    | split
    | with_reducible apply aside_fold
    | with_reducible apply aside_fold1
    | with_reducible apply aside_foldW
    | with_reducible apply aside_foldW1
    | with_reducible apply aside_foldH
    | with_reducible apply aside_foldH1
    | with_reducible refine aside_fst ?_ (by with_reducible assumption)
    | with_reducible refine aside_fstW ?_ (by with_reducible assumption)
    | with_reducible refine aside_fstH ?_ (by with_reducible assumption)
    | (simp only [↓aside_mk]; with_reducible refine aside_of ?_))

theorem leRun_aside {a0 : Flight} {a1 : Work} (ha1 : (a1).s.aside og ev) :
    (@leRun a0 a1).s.aside og ev := by
  unfold leRun
  try dsimp only
  repeat' (first
    | with_reducible assumption
    | with_reducible apply Work.leParams_aside
    | with_reducible apply Work.each_aside
    | with_reducible apply Work.needLocal_aside
    | with_reducible apply Work.fpVec_aside
    | with_reducible apply Work.collect_aside
    | with_reducible apply Work.scanStream_aside
    | with_reducible apply Work.onCommit_aside
    | with_reducible apply Work.writeLate_aside
    | with_reducible apply Work.openLate_aside
    | with_reducible apply Work.openOutputs_aside
    | with_reducible apply Work.tally_aside
    | with_reducible apply Work.stalled_aside
    | intro _
    | split
    | with_reducible apply aside_fold
    | with_reducible apply aside_fold1
    | with_reducible apply aside_foldW
    | with_reducible apply aside_foldW1
    | with_reducible apply aside_foldH
    | with_reducible apply aside_foldH1
    | with_reducible refine aside_fst ?_ (by with_reducible assumption)
    | with_reducible refine aside_fstW ?_ (by with_reducible assumption)
    | with_reducible refine aside_fstH ?_ (by with_reducible assumption)
    | (simp only [↓aside_mk]; with_reducible refine aside_of ?_))

theorem Work.heParams_aside {a0 : Work} {a1 : BitVec 1024} (ha0 : (a0).s.aside og ev) :
    (@Work.heParams a0 a1).1.s.aside og ev := by
  unfold Work.heParams
  try dsimp only
  repeat' (first
    | with_reducible assumption
    | with_reducible apply Work.read_aside
    | with_reducible apply Work.fail_aside
    | intro _
    | split
    | with_reducible apply aside_fold
    | with_reducible apply aside_fold1
    | with_reducible apply aside_foldW
    | with_reducible apply aside_foldW1
    | with_reducible apply aside_foldH
    | with_reducible apply aside_foldH1
    | with_reducible refine aside_fst ?_ (by with_reducible assumption)
    | with_reducible refine aside_fstW ?_ (by with_reducible assumption)
    | with_reducible refine aside_fstH ?_ (by with_reducible assumption)
    | (simp only [↓aside_mk]; with_reducible refine aside_of ?_))

theorem heStart_aside {a0 : Flight} {a1 : Work} (ha1 : (a1).s.aside og ev) :
    (@heStart a0 a1).1.s.aside og ev := by
  unfold heStart
  try dsimp only
  repeat' (first
    | with_reducible assumption
    | with_reducible apply Work.read_aside
    | with_reducible apply Work.heParams_aside
    | with_reducible apply Work.mapS_aside
    | with_reducible apply State.count_aside
    | with_reducible apply Work.each_aside
    | with_reducible apply Work.needLocal_aside
    | with_reducible apply Work.ssrStart_aside
    | intro _
    | split
    | with_reducible apply aside_fold
    | with_reducible apply aside_fold1
    | with_reducible apply aside_foldW
    | with_reducible apply aside_foldW1
    | with_reducible apply aside_foldH
    | with_reducible apply aside_foldH1
    | with_reducible refine aside_fst ?_ (by with_reducible assumption)
    | with_reducible refine aside_fstW ?_ (by with_reducible assumption)
    | with_reducible refine aside_fstH ?_ (by with_reducible assumption)
    | (simp only [↓aside_mk]; with_reducible refine aside_of ?_))

theorem HodWork.read_aside {a0 : HodWork} {a1 : Nat} {a2 : Nat} (ha0 : (a0).w.s.aside og ev) :
    (@HodWork.read a0 a1 a2).1.w.s.aside og ev := by
  unfold HodWork.read
  try dsimp only
  repeat' (first
    | with_reducible assumption
    | with_reducible apply Work.read_aside
    | intro _
    | split
    | with_reducible apply aside_fold
    | with_reducible apply aside_fold1
    | with_reducible apply aside_foldW
    | with_reducible apply aside_foldW1
    | with_reducible apply aside_foldH
    | with_reducible apply aside_foldH1
    | with_reducible refine aside_fst ?_ (by with_reducible assumption)
    | with_reducible refine aside_fstW ?_ (by with_reducible assumption)
    | with_reducible refine aside_fstH ?_ (by with_reducible assumption)
    | (simp only [↓aside_mk]; with_reducible refine aside_of ?_))

theorem HodWork.write_aside {a0 : HodWork} {a1 : Bool} {a2 : Nat} {a3 : Bytes} (ha0 : (a0).w.s.aside og ev) :
    (@HodWork.write a0 a1 a2 a3).w.s.aside og ev := by
  unfold HodWork.write
  try dsimp only
  repeat' (first
    | with_reducible assumption
    | with_reducible apply Work.write_aside
    | intro _
    | split
    | with_reducible apply aside_fold
    | with_reducible apply aside_fold1
    | with_reducible apply aside_foldW
    | with_reducible apply aside_foldW1
    | with_reducible apply aside_foldH
    | with_reducible apply aside_foldH1
    | with_reducible refine aside_fst ?_ (by with_reducible assumption)
    | with_reducible refine aside_fstW ?_ (by with_reducible assumption)
    | with_reducible refine aside_fstH ?_ (by with_reducible assumption)
    | (simp only [↓aside_mk]; with_reducible refine aside_of ?_))

theorem HodWork.emit_aside {a0 : HodWork} {a1 : Nat} {a2 : Nat} {a3 : Bytes} (ha0 : (a0).w.s.aside og ev) :
    (@HodWork.emit a0 a1 a2 a3).w.s.aside og ev := by
  unfold HodWork.emit
  try dsimp only
  repeat' (first
    | with_reducible assumption
    | with_reducible apply Work.emit_aside
    | intro _
    | split
    | with_reducible apply aside_fold
    | with_reducible apply aside_fold1
    | with_reducible apply aside_foldW
    | with_reducible apply aside_foldW1
    | with_reducible apply aside_foldH
    | with_reducible apply aside_foldH1
    | with_reducible refine aside_fst ?_ (by with_reducible assumption)
    | with_reducible refine aside_fstW ?_ (by with_reducible assumption)
    | with_reducible refine aside_fstH ?_ (by with_reducible assumption)
    | (simp only [↓aside_mk]; with_reducible refine aside_of ?_))

theorem HodWork.feed_aside {a0 : HodWork} {a1 : Nat} {a2 : Bytes} (ha0 : (a0).w.s.aside og ev) :
    (@HodWork.feed a0 a1 a2).w.s.aside og ev := by
  unfold HodWork.feed
  try dsimp only
  repeat' (first
    | with_reducible assumption
    | with_reducible apply HodWork.emit_aside
    | intro _
    | split
    | with_reducible apply aside_fold
    | with_reducible apply aside_fold1
    | with_reducible apply aside_foldW
    | with_reducible apply aside_foldW1
    | with_reducible apply aside_foldH
    | with_reducible apply aside_foldH1
    | with_reducible refine aside_fst ?_ (by with_reducible assumption)
    | with_reducible refine aside_fstW ?_ (by with_reducible assumption)
    | with_reducible refine aside_fstH ?_ (by with_reducible assumption)
    | (simp only [↓aside_mk]; with_reducible refine aside_of ?_))

theorem HodWork.flush_aside {a0 : HodWork} {a1 : Nat} (ha0 : (a0).w.s.aside og ev) :
    (@HodWork.flush a0 a1).w.s.aside og ev := by
  unfold HodWork.flush
  try dsimp only
  repeat' (first
    | with_reducible assumption
    | with_reducible apply HodWork.emit_aside
    | intro _
    | split
    | with_reducible apply aside_fold
    | with_reducible apply aside_fold1
    | with_reducible apply aside_foldW
    | with_reducible apply aside_foldW1
    | with_reducible apply aside_foldH
    | with_reducible apply aside_foldH1
    | with_reducible refine aside_fst ?_ (by with_reducible assumption)
    | with_reducible refine aside_fstW ?_ (by with_reducible assumption)
    | with_reducible refine aside_fstH ?_ (by with_reducible assumption)
    | (simp only [↓aside_mk]; with_reducible refine aside_of ?_))

theorem HodWork.convert_aside {a0 : HodWork} {a1 : Hod} {a2 : List Nat} {a3 : Bytes} (ha0 : (a0).w.s.aside og ev) :
    (@HodWork.convert a0 a1 a2 a3).1.w.s.aside og ev := by
  unfold HodWork.convert
  try dsimp only
  repeat' (first
    | with_reducible assumption
    | intro _
    | split
    | with_reducible apply aside_fold
    | with_reducible apply aside_fold1
    | with_reducible apply aside_foldW
    | with_reducible apply aside_foldW1
    | with_reducible apply aside_foldH
    | with_reducible apply aside_foldH1
    | with_reducible refine aside_fst ?_ (by with_reducible assumption)
    | with_reducible refine aside_fstW ?_ (by with_reducible assumption)
    | with_reducible refine aside_fstH ?_ (by with_reducible assumption)
    | (simp only [↓aside_mk]; with_reducible refine aside_of ?_))

theorem HodWork.source_aside {a0 : HodWork} {a1 : Hod} {a2 : Bytes} {a3 : Int} {a4 : Nat} {a5 : Nat} (ha0 : (a0).w.s.aside og ev) :
    (@HodWork.source a0 a1 a2 a3 a4 a5).1.w.s.aside og ev := by
  unfold HodWork.source
  try dsimp only
  repeat' (first
    | with_reducible assumption
    | with_reducible apply HodWork.read_aside
    | intro _
    | split
    | with_reducible apply aside_fold
    | with_reducible apply aside_fold1
    | with_reducible apply aside_foldW
    | with_reducible apply aside_foldW1
    | with_reducible apply aside_foldH
    | with_reducible apply aside_foldH1
    | with_reducible refine aside_fst ?_ (by with_reducible assumption)
    | with_reducible refine aside_fstW ?_ (by with_reducible assumption)
    | with_reducible refine aside_fstH ?_ (by with_reducible assumption)
    | (simp only [↓aside_mk]; with_reducible refine aside_of ?_))

theorem HodWork.index_aside {a0 : HodWork} {a1 : Hod} {a2 : Nat} {a3 : List Nat} (ha0 : (a0).w.s.aside og ev) :
    (@HodWork.index a0 a1 a2 a3).1.w.s.aside og ev := by
  unfold HodWork.index
  try dsimp only
  repeat' (first
    | with_reducible assumption
    | with_reducible apply Work.read_aside
    | with_reducible apply Work.fail_aside
    | with_reducible apply State.count_aside
    | intro _
    | split
    | with_reducible apply aside_fold
    | with_reducible apply aside_fold1
    | with_reducible apply aside_foldW
    | with_reducible apply aside_foldW1
    | with_reducible apply aside_foldH
    | with_reducible apply aside_foldH1
    | with_reducible refine aside_fst ?_ (by with_reducible assumption)
    | with_reducible refine aside_fstW ?_ (by with_reducible assumption)
    | with_reducible refine aside_fstH ?_ (by with_reducible assumption)
    | (simp only [↓aside_mk]; with_reducible refine aside_of ?_))

theorem HodWork.row_aside {a0 : HodWork} {a1 : Hod} {a2 : Nat} {a3 : Bytes} {a4 : Nat} {a5 : List Nat} (ha0 : (a0).w.s.aside og ev) :
    (@HodWork.row a0 a1 a2 a3 a4 a5).w.s.aside og ev := by
  unfold HodWork.row
  try dsimp only
  repeat' (first
    | with_reducible assumption
    | with_reducible apply HodWork.index_aside
    | with_reducible apply HodWork.source_aside
    | with_reducible apply HodWork.convert_aside
    | with_reducible apply HodWork.feed_aside
    | with_reducible apply HodWork.write_aside
    | intro _
    | split
    | with_reducible apply aside_fold
    | with_reducible apply aside_fold1
    | with_reducible apply aside_foldW
    | with_reducible apply aside_foldW1
    | with_reducible apply aside_foldH
    | with_reducible apply aside_foldH1
    | with_reducible refine aside_fst ?_ (by with_reducible assumption)
    | with_reducible refine aside_fstW ?_ (by with_reducible assumption)
    | with_reducible refine aside_fstH ?_ (by with_reducible assumption)
    | (simp only [↓aside_mk]; with_reducible refine aside_of ?_))

theorem HodWork.rows_aside {a0 : HodWork} {a1 : Hod} {a2 : Nat} {a3 : Bytes} (ha0 : (a0).w.s.aside og ev) :
    (@HodWork.rows a0 a1 a2 a3).w.s.aside og ev := by
  unfold HodWork.rows
  try dsimp only
  repeat' (first
    | with_reducible assumption
    | with_reducible apply HodWork.row_aside
    | intro _
    | split
    | with_reducible apply aside_fold
    | with_reducible apply aside_fold1
    | with_reducible apply aside_foldW
    | with_reducible apply aside_foldW1
    | with_reducible apply aside_foldH
    | with_reducible apply aside_foldH1
    | with_reducible refine aside_fst ?_ (by with_reducible assumption)
    | with_reducible refine aside_fstW ?_ (by with_reducible assumption)
    | with_reducible refine aside_fstH ?_ (by with_reducible assumption)
    | (simp only [↓aside_mk]; with_reducible refine aside_of ?_))

theorem HodWork.transTile_aside {a0 : HodWork} {a1 : Hod} {a2 : Bytes} {a3 : Nat} {a4 : List Nat} {a5 : Nat × Nat} {a6 : Nat × Nat} (ha0 : (a0).w.s.aside og ev) :
    (@HodWork.transTile a0 a1 a2 a3 a4 a5 a6).w.s.aside og ev := by
  unfold HodWork.transTile
  try dsimp only
  repeat' (first
    | with_reducible assumption
    | with_reducible apply HodWork.source_aside
    | with_reducible apply HodWork.convert_aside
    | with_reducible apply HodWork.feed_aside
    | with_reducible apply HodWork.write_aside
    | intro _
    | split
    | with_reducible apply aside_fold
    | with_reducible apply aside_fold1
    | with_reducible apply aside_foldW
    | with_reducible apply aside_foldW1
    | with_reducible apply aside_foldH
    | with_reducible apply aside_foldH1
    | with_reducible refine aside_fst ?_ (by with_reducible assumption)
    | with_reducible refine aside_fstW ?_ (by with_reducible assumption)
    | with_reducible refine aside_fstH ?_ (by with_reducible assumption)
    | (simp only [↓aside_mk]; with_reducible refine aside_of ?_))

theorem HodWork.transTiles_aside {a0 : HodWork} {a1 : Hod} {a2 : Bytes} (ha0 : (a0).w.s.aside og ev) :
    (@HodWork.transTiles a0 a1 a2).w.s.aside og ev := by
  unfold HodWork.transTiles
  try dsimp only
  repeat' (first
    | with_reducible assumption
    | with_reducible apply HodWork.transTile_aside
    | intro _
    | split
    | with_reducible apply aside_fold
    | with_reducible apply aside_fold1
    | with_reducible apply aside_foldW
    | with_reducible apply aside_foldW1
    | with_reducible apply aside_foldH
    | with_reducible apply aside_foldH1
    | with_reducible refine aside_fst ?_ (by with_reducible assumption)
    | with_reducible refine aside_fstW ?_ (by with_reducible assumption)
    | with_reducible refine aside_fstH ?_ (by with_reducible assumption)
    | (simp only [↓aside_mk]; with_reducible refine aside_of ?_))

theorem HodWork.move_aside {a0 : HodWork} {a1 : Hod} {a2 : Nat} {a3 : Bytes} (ha0 : (a0).w.s.aside og ev) :
    (@HodWork.move a0 a1 a2 a3).w.s.aside og ev := by
  unfold HodWork.move
  try dsimp only
  repeat' (first
    | with_reducible assumption
    | with_reducible apply HodWork.transTiles_aside
    | with_reducible apply HodWork.flush_aside
    | with_reducible apply HodWork.rows_aside
    | intro _
    | split
    | with_reducible apply aside_fold
    | with_reducible apply aside_fold1
    | with_reducible apply aside_foldW
    | with_reducible apply aside_foldW1
    | with_reducible apply aside_foldH
    | with_reducible apply aside_foldH1
    | with_reducible refine aside_fst ?_ (by with_reducible assumption)
    | with_reducible refine aside_fstW ?_ (by with_reducible assumption)
    | with_reducible refine aside_fstH ?_ (by with_reducible assumption)
    | (simp only [↓aside_mk]; with_reducible refine aside_of ?_))

theorem HodWork.windowRow_aside {a0 : HodWork} {a1 : Hod} {a2 : Bytes} {a3 : Nat} {a4 : Nat} {a5 : Nat} (ha0 : (a0).w.s.aside og ev) :
    (@HodWork.windowRow a0 a1 a2 a3 a4 a5).1.w.s.aside og ev := by
  unfold HodWork.windowRow
  try dsimp only
  repeat' (first
    | with_reducible assumption
    | with_reducible apply HodWork.source_aside
    | with_reducible apply HodWork.convert_aside
    | intro _
    | split
    | with_reducible apply aside_fold
    | with_reducible apply aside_fold1
    | with_reducible apply aside_foldW
    | with_reducible apply aside_foldW1
    | with_reducible apply aside_foldH
    | with_reducible apply aside_foldH1
    | with_reducible refine aside_fst ?_ (by with_reducible assumption)
    | with_reducible refine aside_fstW ?_ (by with_reducible assumption)
    | with_reducible refine aside_fstH ?_ (by with_reducible assumption)
    | (simp only [↓aside_mk]; with_reducible refine aside_of ?_))

theorem HodWork.window_aside {a0 : HodWork} {a1 : Hod} {a2 : Bytes} (ha0 : (a0).w.s.aside og ev) :
    (@HodWork.window a0 a1 a2).w.s.aside og ev := by
  unfold HodWork.window
  try dsimp only
  repeat' (first
    | with_reducible assumption
    | with_reducible apply HodWork.windowRow_aside
    | with_reducible apply HodWork.emit_aside
    | with_reducible apply HodWork.write_aside
    | intro _
    | split
    | with_reducible apply aside_fold
    | with_reducible apply aside_fold1
    | with_reducible apply aside_foldW
    | with_reducible apply aside_foldW1
    | with_reducible apply aside_foldH
    | with_reducible apply aside_foldH1
    | with_reducible refine aside_fst ?_ (by with_reducible assumption)
    | with_reducible refine aside_fstW ?_ (by with_reducible assumption)
    | with_reducible refine aside_fstH ?_ (by with_reducible assumption)
    | (simp only [↓aside_mk]; with_reducible refine aside_of ?_))

theorem HodWork.tilesRun_aside {a0 : HodWork} {a1 : Hod} {a2 : Bytes} (ha0 : (a0).w.s.aside og ev) :
    (@HodWork.tilesRun a0 a1 a2).w.s.aside og ev := by
  unfold HodWork.tilesRun
  try dsimp only
  repeat' (first
    | with_reducible assumption
    | with_reducible apply HodWork.source_aside
    | with_reducible apply HodWork.convert_aside
    | with_reducible apply HodWork.emit_aside
    | intro _
    | split
    | with_reducible apply aside_fold
    | with_reducible apply aside_fold1
    | with_reducible apply aside_foldW
    | with_reducible apply aside_foldW1
    | with_reducible apply aside_foldH
    | with_reducible apply aside_foldH1
    | with_reducible refine aside_fst ?_ (by with_reducible assumption)
    | with_reducible refine aside_fstW ?_ (by with_reducible assumption)
    | with_reducible refine aside_fstH ?_ (by with_reducible assumption)
    | (simp only [↓aside_mk]; with_reducible refine aside_of ?_))

theorem heRun_aside {a0 : Flight} {a1 : Work} (ha1 : (a1).s.aside og ev) :
    (@heRun a0 a1).s.aside og ev := by
  unfold heRun
  try dsimp only
  repeat' (first
    | with_reducible assumption
    | with_reducible apply HodWork.window_aside
    | with_reducible apply HodWork.tilesRun_aside
    | with_reducible apply HodWork.move_aside
    | with_reducible apply Work.openOutputs_aside
    | with_reducible apply Work.openLate_aside
    | with_reducible apply Work.ssrFinish_aside
    | with_reducible apply Work.stalled_aside
    | with_reducible apply Work.mapS_aside
    | with_reducible apply State.count_aside
    | intro _
    | split
    | with_reducible apply aside_fold
    | with_reducible apply aside_fold1
    | with_reducible apply aside_foldW
    | with_reducible apply aside_foldW1
    | with_reducible apply aside_foldH
    | with_reducible apply aside_foldH1
    | with_reducible refine aside_fst ?_ (by with_reducible assumption)
    | with_reducible refine aside_fstW ?_ (by with_reducible assumption)
    | with_reducible refine aside_fstH ?_ (by with_reducible assumption)
    | (simp only [↓aside_mk]; with_reducible refine aside_of ?_))

end Sys2Proof.Machine
end

