-- ==== Sys2Proof/Laws/Exec.lean ====
section
/-! SUPPORT. How each command runs: behind `live`, or behind `atPins` for the pins and the JTAG port. -/

namespace Sys2Proof.Machine

/-- The commands that need no release of PERST_N. -/
def atPinsOnly : Instr → Bool
  | .refclkFLoss _ => true
  | .refclkFRestore _ => true
  | .perstNRelease => true
  | .perstNAssert => true
  | .coolFlowOkLow => true
  | .railOutOfRange => true
  | .refclkPcieLoss => true
  | .jtagTapReset => true
  | .jtagIdcode => true
  | .jtagBypass _ _ => true
  | .jtagSamplePreload _ => true
  | .jtagExtest _ => true
  | .coolFlowOkHigh => true
  | _ => false

/-! The meaning of each command. -/

theorem exec_registerWrite (sec : Bool) (addr : BitVec 26) (size : Nat) (v : DWord) (s : State) : exec (.registerWrite sec addr size v) s = execRegisterWrite sec addr size v s := rfl
theorem exec_commandWritePost (fn : Fin 17) (off : BitVec 16) (size : Nat) (v : DWord) (s : State) : exec (.commandWritePost fn off size v) s = execCommandWritePost fn off size v s := rfl
theorem exec_commandWriteApply (fn : Fin 17) (s : State) : exec (.commandWriteApply fn) s = execCommandWriteApply fn s := rfl
theorem exec_jqTailDoorbell (t : Fin 16) (s : State) : exec (.jqTailDoorbell t) s = execJqTailDoorbell t s := rfl
theorem exec_jqEnable (t : Fin 16) (s : State) : exec (.jqEnable t) s = execJqEnable t s := rfl
theorem exec_jqResume (t : Fin 16) (s : State) : exec (.jqResume t) s = execJqResume t s := rfl
theorem exec_jqDiscard (t : Fin 16) (s : State) : exec (.jqDiscard t) s = execJqDiscard t s := rfl
theorem exec_jqDisable (t : Fin 16) (s : State) : exec (.jqDisable t) s = execJqDisable t s := rfl
theorem exec_cqHeadUpdate (t : Fin 16) (s : State) : exec (.cqHeadUpdate t) s = execCqHeadUpdate t s := rfl
theorem exec_eqHeadUpdate (fn : Fin 17) (s : State) : exec (.eqHeadUpdate fn) s = execEqHeadUpdate fn s := rfl
theorem exec_map (t : Fin 16) (s : State) : exec (.map t) s = execMap t s := rfl
theorem exec_unmap (t : Fin 16) (s : State) : exec (.unmap t) s = execUnmap t s := rfl
theorem exec_mapOperationEnd (t : Fin 16) (s : State) : exec (.mapOperationEnd t) s = execMapOperationEnd t s := rfl
theorem exec_descriptorRelease (t : Fin 16) (q : Fin 8) (u : Nat) (s : State) : exec (.descriptorRelease t q u) s = execDescriptorRelease t q u s := rfl
theorem exec_descriptorComplete (id : Nat) (s : State) : exec (.descriptorComplete id) s = execDescriptorComplete id s := rfl
theorem exec_put (id : Nat) (s : State) : exec (.put id) s = execPut id s := rfl
theorem exec_get (id : Nat) (s : State) : exec (.get id) s = execGet id s := rfl
theorem exec_atomicAdd (id : Nat) (s : State) : exec (.atomicAdd id) s = execAtomicAdd id s := rfl
theorem exec_atomicSwap (id : Nat) (s : State) : exec (.atomicSwap id) s = execAtomicSwap id s := rfl
theorem exec_atomicCas (id : Nat) (s : State) : exec (.atomicCas id) s = execAtomicCas id s := rfl
theorem exec_atomicUmax (id : Nat) (s : State) : exec (.atomicUmax id) s = execAtomicUmax id s := rfl
theorem exec_atomicUmin (id : Nat) (s : State) : exec (.atomicUmin id) s = execAtomicUmin id s := rfl
theorem exec_atomicAnd (id : Nat) (s : State) : exec (.atomicAnd id) s = execAtomicAnd id s := rfl
theorem exec_atomicOr (id : Nat) (s : State) : exec (.atomicOr id) s = execAtomicOr id s := rfl
theorem exec_atomicXor (id : Nat) (s : State) : exec (.atomicXor id) s = execAtomicXor id s := rfl
theorem exec_signal (id : Nat) (s : State) : exec (.signal id) s = execSignal id s := rfl
theorem exec_meleopinDescriptor (id : Nat) (s : State) : exec (.meleopinDescriptor id) s = execMeleopinDescriptor id s := rfl
theorem exec_bedRequest (bank : Fin 1024) (reqs : List BedReq) (s : State) : exec (.bedRequest bank reqs) s = execBedRequest bank reqs s := rfl
theorem exec_bedPatrolScrub (found : List (Fin 1088 × Fin 3072 × Ecc)) (s : State) : exec (.bedPatrolScrub found) s = execBedPatrolScrub found s := rfl
theorem exec_spareBankCopyDone (g : Fin 64) (s : State) : exec (.spareBankCopyDone g) s = execSpareBankCopyDone g s := rfl
theorem exec_troughEnable (sec : Bool) (n : Fin 256) (v : Word) (s : State) : exec (.troughEnable sec n v) s = execTroughEnable sec n v s := rfl
theorem exec_troughDisable (sec : Bool) (n : Fin 256) (v : Word) (s : State) : exec (.troughDisable sec n v) s = execTroughDisable sec n v s := rfl
theorem exec_troughRecordProduce (id : Nat) (s : State) : exec (.troughRecordProduce id) s = execTroughRecordProduce id s := rfl
theorem exec_troughRecordConsume (id : Nat) (s : State) : exec (.troughRecordConsume id) s = execTroughRecordConsume id s := rfl
theorem exec_matmul (id : Nat) (s : State) : exec (.matmul id) s = execMatmul id s := rfl
theorem exec_partialSum (id : Nat) (s : State) : exec (.partialSum id) s = execPartialSum id s := rfl
theorem exec_loadRes (id : Nat) (s : State) : exec (.loadRes id) s = execLoadRes id s := rfl
theorem exec_releaseRes (id : Nat) (s : State) : exec (.releaseRes id) s = execReleaseRes id s := rfl
theorem exec_elementwise (id : Nat) (s : State) : exec (.elementwise id) s = execElementwise id s := rfl
theorem exec_epilogue (id : Nat) (s : State) : exec (.epilogue id) s = execEpilogue id s := rfl
theorem exec_softmax (id : Nat) (s : State) : exec (.softmax id) s = execSoftmax id s := rfl
theorem exec_layernorm (id : Nat) (s : State) : exec (.layernorm id) s = execLayernorm id s := rfl
theorem exec_rmsnorm (id : Nat) (s : State) : exec (.rmsnorm id) s = execRmsnorm id s := rfl
theorem exec_gate (id : Nat) (s : State) : exec (.gate id) s = execGate id s := rfl
theorem exec_ceLibDataRead (sec : Bool) (n : Fin 18) (s : State) : exec (.ceLibDataRead sec n) s = execCeLibDataRead sec n s := rfl
theorem exec_attend (id : Nat) (s : State) : exec (.attend id) s = execAttend id s := rfl
theorem exec_poolGive (id : Nat) (s : State) : exec (.poolGive id) s = execPoolGive id s := rfl
theorem exec_poolReclaim (id : Nat) (s : State) : exec (.poolReclaim id) s = execPoolReclaim id s := rfl
theorem exec_chainFree (id : Nat) (s : State) : exec (.chainFree id) s = execChainFree id s := rfl
theorem exec_prefixMatch (id : Nat) (s : State) : exec (.prefixMatch id) s = execPrefixMatch id s := rfl
theorem exec_prefixPublish (id : Nat) (s : State) : exec (.prefixPublish id) s = execPrefixPublish id s := rfl
theorem exec_prefixDrop (id : Nat) (s : State) : exec (.prefixDrop id) s = execPrefixDrop id s := rfl
theorem exec_scan (id : Nat) (s : State) : exec (.scan id) s = execScan id s := rfl
theorem exec_moverMove (id : Nat) (s : State) : exec (.moverMove id) s = execMoverMove id s := rfl
theorem exec_gather (id : Nat) (s : State) : exec (.gather id) s = execGather id s := rfl
theorem exec_scatter (id : Nat) (s : State) : exec (.scatter id) s = execScatter id s := rfl
theorem exec_window (id : Nat) (s : State) : exec (.window id) s = execWindow id s := rfl
theorem exec_tiles (id : Nat) (s : State) : exec (.tiles id) s = execTiles id s := rfl
theorem exec_create (id : Nat) (s : State) : exec (.create id) s = execCreate id s := rfl
theorem exec_tierMove (id : Nat) (s : State) : exec (.tierMove id) s = execTierMove id s := rfl
theorem exec_tierMoveDone (idx : Fin 262144) (uncorrectable : Bool) (rep : List NandReport) (s : State) : exec (.tierMoveDone idx uncorrectable rep) s = execTierMoveDone idx uncorrectable rep s := rfl
theorem exec_free (id : Nat) (s : State) : exec (.free id) s = execFree id s := rfl
theorem exec_freeRelease (id : Nat) (s : State) : exec (.freeRelease id) s = execFreeRelease id s := rfl
theorem exec_intake (id : Nat) (s : State) : exec (.intake id) s = execIntake id s := rfl
theorem exec_intakeBuildDone (id : Nat) (s : State) : exec (.intakeBuildDone id) s = execIntakeBuildDone id s := rfl
theorem exec_intakeCommit (id : Nat) (rep : List NandReport) (s : State) : exec (.intakeCommit id rep) s = execIntakeCommit id s rep := rfl
theorem exec_query (id : Nat) (s : State) : exec (.query id) s = execQuery id s := rfl
theorem exec_swap (id : Nat) (s : State) : exec (.swap id) s = execSwap id s := rfl
theorem exec_scrub (id : Nat) (rep : List NandReport) (s : State) : exec (.scrub id rep) s = execScrub id s rep := rfl
theorem exec_digestScrubPass (idx : Fin 262144) (rep : List NandReport) (s : State) : exec (.digestScrubPass idx rep) s = execDigestScrubPass idx s rep := rfl
theorem exec_scheduleEnable (t : Fin 16) (s : State) : exec (.scheduleEnable t) s = execScheduleEnable t s := rfl
theorem exec_scheduleResume (t : Fin 16) (s : State) : exec (.scheduleResume t) s = execScheduleResume t s := rfl
theorem exec_scheduleDisable (t : Fin 16) (s : State) : exec (.scheduleDisable t) s = execScheduleDisable t s := rfl
theorem exec_scheduleEntryRelease (t : Fin 16) (s : State) : exec (.scheduleEntryRelease t) s = execScheduleEntryRelease t s := rfl
theorem exec_hbmRequest (r : HbmReq) (s : State) : exec (.hbmRequest r) s = execHbmRequest r s := rfl
theorem exec_hbmCommandIssue (pc : Fin 256) (ecc : Ecc) (onDie : Bool) (lane : Option (Fin 36)) (parity : Nat) (s : State) :
    exec (.hbmCommandIssue pc ecc onDie lane parity) s = execHbmCommandIssue pc ecc onDie lane s parity := rfl
theorem exec_perBankRefresh (pc : Fin 256) (sid : Fin 3) (bank : Fin 16) (s : State) : exec (.perBankRefresh pc sid bank) s = execPerBankRefresh pc sid bank s := rfl
theorem exec_trrWindowEnd (fc : Fin 8) (s : State) : exec (.trrWindowEnd fc) s = execTrrWindowEnd fc s := rfl
theorem exec_hbmTraining (temps : List Byte) (sweeps : List (Fin 8 × Fin 16 × Sweep)) (s : State) : exec (.hbmTraining temps sweeps) s = execHbmTraining temps sweeps s := rfl
theorem exec_hbmFillComplete (s : State) : exec .hbmFillComplete s = execHbmFillComplete s := rfl
theorem exec_fcRetrain (sec : Bool) (fc : Fin 8) (v : Word) (s : State) : exec (.fcRetrain sec fc v) s = execFcRetrain sec fc v s := rfl
theorem exec_autoRetrain (fc : Fin 8) (temp : Byte) (s : State) : exec (.autoRetrain fc temp) s = execAutoRetrain fc temp s := rfl
theorem exec_retrainWindow (fc : Fin 8) (s : State) : exec (.retrainWindow fc) s = execRetrainWindow fc s := rfl
theorem exec_retrainComplete (fc : Fin 8) (sweeps : List Sweep) (s : State) : exec (.retrainComplete fc sweeps) s = execRetrainComplete fc sweeps s := rfl
theorem exec_hbmPatrolScrub (fc : Fin 8) (found : List (Nat × HbmFind)) (s : State) : exec (.hbmPatrolScrub fc found) s = execHbmPatrolScrub fc found s := rfl
theorem exec_xmapWrite (sec : Bool) (i : Fin 12) (v : DWord) (s : State) : exec (.xmapWrite sec i v) s = execXmapWrite sec i v s := rfl
theorem exec_nandChannelTraining (ch : Fin 16) (ok : Bool) (trn : BitVec 24) (temp : Byte) (s : State) : exec (.nandChannelTraining ch ok trn temp) s = execNandChannelTraining ch ok trn temp s := rfl
theorem exec_nandBackgroundErase (ch : Fin 16) (sb : Nat) (ok : Bool) (s : State) : exec (.nandBackgroundErase ch sb ok) s = execNandBackgroundErase ch sb ok s := rfl
theorem exec_nandDqRetrain (ch : Fin 16) (trn : BitVec 24) (temp : Byte) (s : State) : exec (.nandDqRetrain ch trn temp) s = execNandDqRetrain ch trn temp s := rfl
theorem exec_wearLevelRelocation (rep : List NandReport) (s : State) : exec (.wearLevelRelocation rep) s = execWearLevelRelocation s rep := rfl
theorem exec_readDisturbCopy (ch : Fin 16) (sb blk : Nat) (rep : List NandReport) (s : State) : exec (.readDisturbCopy ch sb blk rep) s = execReadDisturbCopy ch sb s blk rep := rfl
theorem exec_programLine (writes : List (Word × Word)) (s : State) : exec (.programLine writes) s = execProgramLine writes s := rfl
theorem exec_eraseBlock (writes : List (Word × Word)) (s : State) : exec (.eraseBlock writes) s = execEraseBlock writes s := rfl
theorem exec_plinthSuspend (addr : Word) (s : State) : exec (.plinthSuspend addr) s = execPlinthSuspend addr s := rfl
theorem exec_plinthResume (addr : Word) (s : State) : exec (.plinthResume addr) s = execPlinthResume addr s := rfl
theorem exec_clearErrors (addr : Word) (s : State) : exec (.clearErrors addr) s = execClearErrors addr s := rfl
theorem exec_resetToRead (addr : Word) (s : State) : exec (.resetToRead addr) s = execResetToRead addr s := rfl
theorem exec_plinthSuspendDone (bank : Bool) (s : State) : exec (.plinthSuspendDone bank) s = execPlinthSuspendDone bank s := rfl
theorem exec_plinthProgramDone (bank : Bool) (ok : Bool) (s : State) : exec (.plinthProgramDone bank ok) s = execPlinthProgramDone bank ok s := rfl
theorem exec_plinthEraseDone (bank : Bool) (ok : Bool) (s : State) : exec (.plinthEraseDone bank ok) s = execPlinthEraseDone bank ok s := rfl
theorem exec_plinthDataRead (addr : Word) (s : State) : exec (.plinthDataRead addr) s = execPlinthDataRead addr s := rfl
theorem exec_quoinBoot (s : State) : exec .quoinBoot s = execQuoinBoot s := rfl
theorem exec_quoinFetch (addr : Word) (s : State) : exec (.quoinFetch addr) s = execQuoinFetch addr s := rfl
theorem exec_autoSuspendResume (bank : Bool) (s : State) : exec (.autoSuspendResume bank) s = execAutoSuspendResume bank s := rfl
theorem exec_portEnable (sec : Bool) (p : Fin 8) (v : Word) (s : State) : exec (.portEnable sec p v) s = execPortEnable sec p v s := rfl
theorem exec_linkUp (p : Fin 8) (s : State) : exec (.linkUp p) s = execLinkUp p s := rfl
theorem exec_chipIdWrite (sec : Bool) (v : Word) (s : State) : exec (.chipIdWrite sec v) s = execChipIdWrite sec v s := rfl
theorem exec_macPfxWrite (sec : Bool) (v : Word) (s : State) : exec (.macPfxWrite sec v) s = execMacPfxWrite sec v s := rfl
theorem exec_requestFrameReceive (p : Fin 8) (frame : WireFrame) (s : State) : exec (.requestFrameReceive p frame) s = execRequestFrameReceive p frame s := rfl
theorem exec_frameApply (p : Fin 8) (s : State) : exec (.frameApply p) s = execFrameApply p s := rfl
theorem exec_pfcRepeat (p : Fin 8) (k : Fin 8) (s : State) : exec (.pfcRepeat p k) s = execPfcRepeat p k s := rfl
theorem exec_responseFrameReceive (p : Fin 8) (frame : WireFrame) (s : State) : exec (.responseFrameReceive p frame) s = execResponseFrameReceive p frame s := rfl
theorem exec_ackReceive (p : Fin 8) (frame : WireFrame) (s : State) : exec (.ackReceive p frame) s = execAckReceive p frame s := rfl
theorem exec_nakReceive (p : Fin 8) (frame : WireFrame) (s : State) : exec (.nakReceive p frame) s = execNakReceive p frame s := rfl
theorem exec_resyncReceive (p : Fin 8) (frame : WireFrame) (s : State) : exec (.resyncReceive p frame) s = execResyncReceive p frame s := rfl
theorem exec_resyncAckReceive (p : Fin 8) (frame : WireFrame) (s : State) : exec (.resyncAckReceive p frame) s = execResyncAckReceive p frame s := rfl
theorem exec_foreignFrameReceive (p : Fin 8) (frame : WireFrame) (s : State) : exec (.foreignFrameReceive p frame) s = execForeignFrameReceive p frame s := rfl
theorem exec_pfcFrameReceive (p : Fin 8) (frame : WireFrame) (s : State) : exec (.pfcFrameReceive p frame) s = execPfcFrameReceive p frame s := rfl
theorem exec_pauseExpiry (p : Fin 8) (k : Fin 8) (s : State) : exec (.pauseExpiry p k) s = execPauseExpiry p k s := rfl
theorem exec_ackTimeout (p : Fin 8) (k : Fin 8) (peer : BitVec 12) (s : State) : exec (.ackTimeout p k peer) s = execAckTimeout p k peer s := rfl
theorem exec_resyncRetry (p : Fin 8) (k : Fin 8) (peer : BitVec 12) (s : State) : exec (.resyncRetry p k peer) s = execResyncRetry p k peer s := rfl
theorem exec_resyncWaitTimeout (opid : BitVec 16) (s : State) : exec (.resyncWaitTimeout opid) s = execResyncWaitTimeout opid s := rfl
theorem exec_responseTimeout (opid : BitVec 16) (s : State) : exec (.responseTimeout opid) s = execResponseTimeout opid s := rfl
theorem exec_refclkFLoss (n : Fin 4) (s : State) : exec (.refclkFLoss n) s = execRefclkFLoss n s := rfl
theorem exec_refclkFRestore (n : Fin 4) (s : State) : exec (.refclkFRestore n) s = execRefclkFRestore n s := rfl
theorem exec_configRequest (fn : Fin 17) (wr : Bool) (off : BitVec 12) (v : Word) (s : State) : exec (.configRequest fn wr off v) s = execConfigRequest fn wr off v s := rfl
theorem exec_bar2Read (fn : Fin 17) (off : Word) (len : Nat) (s : State) : exec (.bar2Read fn off len) s = execBar2Read fn off len s := rfl
theorem exec_bar2Write (fn : Fin 17) (off : Word) (data : Bytes) (s : State) : exec (.bar2Write fn off data) s = execBar2Write fn off data s := rfl
theorem exec_perstNRelease (s : State) : exec .perstNRelease s = execPerstNRelease s := rfl
theorem exec_perstNAssert (s : State) : exec .perstNAssert s = execPerstNAssert s := rfl
theorem exec_firmwareReady (s : State) : exec .firmwareReady s = execFirmwareReady s := rfl
theorem exec_fwLoad (s : State) : exec .fwLoad s = execFwLoad s := rfl
theorem exec_fwUpdate (s : State) : exec .fwUpdate s = execFwUpdate s := rfl
theorem exec_fwVerifyDone (s : State) : exec .fwVerifyDone s = execFwVerifyDone s := rfl
theorem exec_meleopinStart (s : State) : exec .meleopinStart s = execMeleopinStart s := rfl
theorem exec_fwActivate (s : State) : exec .fwActivate s = execFwActivate s := rfl
theorem exec_fwUpdateTimeout (s : State) : exec .fwUpdateTimeout s = execFwUpdateTimeout s := rfl
theorem exec_fwDeferEnd (s : State) : exec .fwDeferEnd s = execFwDeferEnd s := rfl
theorem exec_fwDeferTimeout (s : State) : exec .fwDeferTimeout s = execFwDeferTimeout s := rfl
theorem exec_fwAdopt (s : State) : exec .fwAdopt s = execFwAdopt s := rfl
theorem exec_fwReset (s : State) : exec .fwReset s = execFwReset s := rfl
theorem exec_heartbeat (s : State) : exec .heartbeat s = execHeartbeat s := rfl
theorem exec_heartbeatIntervalEnd (s : State) : exec .heartbeatIntervalEnd s = execHeartbeatIntervalEnd s := rfl
theorem exec_hostAbsentTroughTimeout (s : State) : exec .hostAbsentTroughTimeout s = execHostAbsentTroughTimeout s := rfl
theorem exec_hotReset (s : State) : exec .hotReset s = execHotReset s := rfl
theorem exec_pfFlr (s : State) : exec .pfFlr s = execPfFlr s := rfl
theorem exec_vfFlr (t : Fin 16) (s : State) : exec (.vfFlr t) s = execVfFlr t s := rfl
theorem exec_vfFlrTimeout (t : Fin 16) (s : State) : exec (.vfFlrTimeout t) s = execVfFlrTimeout t s := rfl
theorem exec_mctpMessage (pkt : Bytes) (s : State) : exec (.mctpMessage pkt) s = execMctpMessage pkt s := rfl
theorem exec_mctpControlMessage (pkt : Bytes) (s : State) : exec (.mctpControlMessage pkt) s = execMctpControlMessage pkt s := rfl
theorem exec_mailboxGo (sec : Bool) (v : Word) (s : State) : exec (.mailboxGo sec v) s = execMailboxGo sec v s := rfl
theorem exec_tenantCreate (s : State) : exec .tenantCreate s = execTenantCreate s := rfl
theorem exec_tenantRemove (s : State) : exec .tenantRemove s = execTenantRemove s := rfl
theorem exec_tenantDrainDone (t : Fin 16) (s : State) : exec (.tenantDrainDone t) s = execTenantDrainDone t s := rfl
theorem exec_tenantDrainTimeout (t : Fin 16) (s : State) : exec (.tenantDrainTimeout t) s = execTenantDrainTimeout t s := rfl
theorem exec_tenantScrubDone (t : Fin 16) (s : State) : exec (.tenantScrubDone t) s = execTenantScrubDone t s := rfl
theorem exec_tenantStatus (s : State) : exec .tenantStatus s = execTenantStatus s := rfl
theorem exec_fabricSetup (s : State) : exec .fabricSetup s = execFabricSetup s := rfl
theorem exec_plinthRead (s : State) : exec .plinthRead s = execPlinthRead s := rfl
theorem exec_imageUpdateBegin (s : State) : exec .imageUpdateBegin s = execImageUpdateBegin s := rfl
theorem exec_imageUpdateData (s : State) : exec .imageUpdateData s = execImageUpdateData s := rfl
theorem exec_imageUpdateEnd (s : State) : exec .imageUpdateEnd s = execImageUpdateEnd s := rfl
theorem exec_imageUpdateAbort (s : State) : exec .imageUpdateAbort s = execImageUpdateAbort s := rfl
theorem exec_imageUpdateSessionTimeout (s : State) : exec .imageUpdateSessionTimeout s = execImageUpdateSessionTimeout s := rfl
theorem exec_svnRaise (s : State) : exec .svnRaise s = execSvnRaise s := rfl
theorem exec_debugChallenge (s : State) : exec .debugChallenge s = execDebugChallenge s := rfl
theorem exec_debugResponse (s : State) : exec .debugResponse s = execDebugResponse s := rfl
theorem exec_regionEntryWrite (sec : Bool) (tier : Fin 3) (i : Fin 256) (v : DWord) (s : State) : exec (.regionEntryWrite sec tier i v) s = execRegionEntryWrite sec tier i v s := rfl
theorem exec_counterSnapshot (s : State) : exec .counterSnapshot s = execCounterSnapshot s := rfl
theorem exec_capSet (s : State) : exec .capSet s = execCapSet s := rfl
theorem exec_capGet (s : State) : exec .capGet s = execCapGet s := rfl
theorem exec_energyRead (s : State) : exec .energyRead s = execEnergyRead s := rfl
theorem exec_voltageRead (s : State) : exec .voltageRead s = execVoltageRead s := rfl
theorem exec_thermalRead (s : State) : exec .thermalRead s = execThermalRead s := rfl
theorem exec_throttleRead (s : State) : exec .throttleRead s = execThrottleRead s := rfl
theorem exec_fsetWrite (sec : Bool) (k : Fin 113) (v : Word) (s : State) : exec (.fsetWrite sec k v) s = execFsetWrite sec k v s := rfl
theorem exec_rampStep (k : Fin 113) (s : State) : exec (.rampStep k) s = execRampStep k s := rfl
theorem exec_droopTrip (k : Fin 113) (s : State) : exec (.droopTrip k) s = execDroopTrip k s := rfl
theorem exec_droopClear (k : Fin 113) (s : State) : exec (.droopClear k) s = execDroopClear k s := rfl
theorem exec_voltageTargetChange (s : State) : exec .voltageTargetChange s = execVoltageTargetChange s := rfl
theorem exec_domainSwitch (sec : Bool) (d : Fin 215) (v : Word) (s : State) : exec (.domainSwitch sec d v) s = execDomainSwitch sec d v s := rfl
theorem exec_domainPowerUpDone (d : Fin 215) (s : State) : exec (.domainPowerUpDone d) s = execDomainPowerUpDone d s := rfl
theorem exec_powerSample (currents : List (Fin 215 × BitVec 16)) (aonMilliwatt stacksMilliwatt : Nat) (sensed : BitVec 10) (s : State) : exec (.powerSample currents aonMilliwatt stacksMilliwatt sensed) s = execPowerSample currents aonMilliwatt stacksMilliwatt sensed s := rfl
theorem exec_estCorrUpdate (measured estimated : Nat) (s : State) : exec (.estCorrUpdate measured estimated) s = execEstCorrUpdate measured estimated s := rfl
theorem exec_capLoopInterval (pdem pb : BitVec 16) (s : State) : exec (.capLoopInterval pdem pb) s = execCapLoopInterval pdem pb s := rfl
theorem exec_bubbleShareApply (s : State) : exec .bubbleShareApply s = execBubbleShareApply s := rfl
theorem exec_junctionSample (readings : List (BitVec 12)) (s : State) : exec (.junctionSample readings) s = execJunctionSample readings s := rfl
theorem exec_thermalCapUpdate (s : State) : exec .thermalCapUpdate s = execThermalCapUpdate s := rfl
theorem exec_coolFlowOkLow (s : State) : exec .coolFlowOkLow s = execCoolFlowOkLow s := rfl
theorem exec_coolantStop (s : State) : exec .coolantStop s = execCoolantStop s := rfl
theorem exec_cattrip (stack : Fin 8) (s : State) : exec (.cattrip stack) s = execCattrip stack s := rfl
theorem exec_stopPowerOff (s : State) : exec .stopPowerOff s = execStopPowerOff s := rfl
theorem exec_errorWindowEnd (b : Blk) (i : Nat) (s : State) : exec (.errorWindowEnd b i) s = execErrorWindowEnd b i s := rfl
theorem exec_unitUncorrectableError (b : Blk) (i : Nat) (reader : Option Nat) (s : State) : exec (.unitUncorrectableError b i reader) s = execUnitUncorrectableError b i reader s := rfl
theorem exec_retireRequest (sec : Bool) (u : RetireUnit) (c : RetireCause) (s : State) : exec (.retireRequest sec u c) s = execRetireRequest sec u c s := rfl
theorem exec_substitutionIdle (b : Blk) (i : Nat) (s : State) : exec (.substitutionIdle b i) s = execSubstitutionIdle b i s := rfl
theorem exec_substitutionComplete (b : Blk) (i : Nat) (s : State) : exec (.substitutionComplete b i) s = execSubstitutionComplete b i s := rfl
theorem exec_blockEnable (sec : Bool) (b : Blk) (i : Nat) (on : Bool) (s : State) : exec (.blockEnable sec b i on) s = execBlockEnable sec b i on s := rfl
theorem exec_blockDrain (sec : Bool) (b : Blk) (i : Nat) (on : Bool) (s : State) : exec (.blockDrain sec b i on) s = execBlockDrain sec b i on s := rfl
theorem exec_blockReset (sec : Bool) (b : Blk) (i : Nat) (s : State) : exec (.blockReset sec b i) s = execBlockReset sec b i s := rfl
theorem exec_blockResetDone (b : Blk) (i : Nat) (s : State) : exec (.blockResetDone b i) s = execBlockResetDone b i s := rfl
theorem exec_blockIdle (b : Blk) (i : Nat) (s : State) : exec (.blockIdle b i) s = execBlockIdle b i s := rfl
theorem exec_blockWorldWrite (sec : Bool) (b : Blk) (i : Nat) (v : Word) (s : State) : exec (.blockWorldWrite sec b i v) s = execBlockWorldWrite sec b i v s := rfl
theorem exec_markWrite (sec : Bool) (v : DWord) (s : State) : exec (.markWrite sec v) s = execMarkWrite sec v s := rfl
theorem exec_markWindowWrite (sec : Bool) (t : Fin 16) (v : Word) (s : State) : exec (.markWindowWrite sec t v) s = execMarkWindowWrite sec t v s := rfl
theorem exec_railOutOfRange (s : State) : exec .railOutOfRange s = execRailOutOfRange s := rfl
theorem exec_refclkPcieLoss (s : State) : exec .refclkPcieLoss s = execRefclkPcieLoss s := rfl
theorem exec_smbusClockLowTimeout (s : State) : exec .smbusClockLowTimeout s = execSmbusClockLowTimeout s := rfl
theorem exec_jtagTapReset (s : State) : exec .jtagTapReset s = execJtagTapReset s := rfl
theorem exec_jtagIdcode (s : State) : exec .jtagIdcode s = execJtagIdcode s := rfl
theorem exec_jtagBypass (ir : BitVec 4) (tdi : Bool) (s : State) : exec (.jtagBypass ir tdi) s = execJtagBypass ir tdi s := rfl
theorem exec_jtagSamplePreload (tdi : BitVec 11) (s : State) : exec (.jtagSamplePreload tdi) s = execJtagSamplePreload tdi s := rfl
theorem exec_jtagExtest (tdi : BitVec 11) (s : State) : exec (.jtagExtest tdi) s = execJtagExtest tdi s := rfl
theorem exec_registerRead (sec : Bool) (addr : BitVec 26) (size : Nat) (s : State) : exec (.registerRead sec addr size) s = execRegisterRead sec addr size s := rfl
theorem exec_linkDown (p : Fin 8) (s : State) : exec (.linkDown p) s = execLinkDown p s := rfl
theorem exec_coolFlowOkHigh (s : State) : exec .coolFlowOkHigh s = execCoolFlowOkHigh s := rfl
theorem exec_hbmStackHot (fc : Fin 8) (temp : Byte) (s : State) : exec (.hbmStackHot fc temp) s = execHbmStackHot fc temp s := rfl
theorem exec_pcieLinkUp (gts : Nat) (lanes : Nat) (s : State) : exec (.pcieLinkUp gts lanes) s = execPcieLinkUp gts lanes s := rfl
theorem exec_configSpaceReady (s : State) : exec .configSpaceReady s = execConfigSpaceReady s := rfl
/-- Every other command runs behind `live`. -/
theorem exec_live (c : Instr) (s : State) (h : atPinsOnly c = false) : ∃ f : State → State, exec c s = live s f := by
  cases c with
  | registerWrite _ _ _ _ => unfold exec execRegisterWrite; exact ⟨_, rfl⟩
  | commandWritePost _ _ _ _ => unfold exec execCommandWritePost; exact ⟨_, rfl⟩
  | commandWriteApply _ => unfold exec execCommandWriteApply; exact ⟨_, rfl⟩
  | jqTailDoorbell _ => unfold exec execJqTailDoorbell; exact ⟨_, rfl⟩
  | jqEnable _ => unfold exec execJqEnable; exact ⟨_, rfl⟩
  | jqResume _ => unfold exec execJqResume; exact ⟨_, rfl⟩
  | jqDiscard _ => unfold exec execJqDiscard; exact ⟨_, rfl⟩
  | jqDisable _ => unfold exec execJqDisable; exact ⟨_, rfl⟩
  | cqHeadUpdate _ => unfold exec execCqHeadUpdate; exact ⟨_, rfl⟩
  | eqHeadUpdate _ => unfold exec execEqHeadUpdate; exact ⟨_, rfl⟩
  | map _ => unfold exec execMap; exact ⟨_, rfl⟩
  | unmap _ => unfold exec execUnmap; exact ⟨_, rfl⟩
  | mapOperationEnd _ => unfold exec execMapOperationEnd; exact ⟨_, rfl⟩
  | descriptorRelease _ _ _ => unfold exec execDescriptorRelease; exact ⟨_, rfl⟩
  | descriptorComplete _ => unfold exec execDescriptorComplete; exact ⟨_, rfl⟩
  | put _ => unfold exec execPut; exact ⟨_, rfl⟩
  | get _ => unfold exec execGet; exact ⟨_, rfl⟩
  | atomicAdd _ => unfold exec execAtomicAdd; exact ⟨_, rfl⟩
  | atomicSwap _ => unfold exec execAtomicSwap; exact ⟨_, rfl⟩
  | atomicCas _ => unfold exec execAtomicCas; exact ⟨_, rfl⟩
  | atomicUmax _ => unfold exec execAtomicUmax; exact ⟨_, rfl⟩
  | atomicUmin _ => unfold exec execAtomicUmin; exact ⟨_, rfl⟩
  | atomicAnd _ => unfold exec execAtomicAnd; exact ⟨_, rfl⟩
  | atomicOr _ => unfold exec execAtomicOr; exact ⟨_, rfl⟩
  | atomicXor _ => unfold exec execAtomicXor; exact ⟨_, rfl⟩
  | signal _ => unfold exec execSignal; exact ⟨_, rfl⟩
  | meleopinDescriptor _ => unfold exec execMeleopinDescriptor; exact ⟨_, rfl⟩
  | bedRequest _ _ => unfold exec execBedRequest; exact ⟨_, rfl⟩
  | bedPatrolScrub _ => unfold exec execBedPatrolScrub; exact ⟨_, rfl⟩
  | spareBankCopyDone _ => unfold exec execSpareBankCopyDone; exact ⟨_, rfl⟩
  | troughEnable _ _ _ => unfold exec execTroughEnable; exact ⟨_, rfl⟩
  | troughDisable _ _ _ => unfold exec execTroughDisable; exact ⟨_, rfl⟩
  | troughRecordProduce _ => unfold exec execTroughRecordProduce; exact ⟨_, rfl⟩
  | troughRecordConsume _ => unfold exec execTroughRecordConsume; exact ⟨_, rfl⟩
  | matmul _ => unfold exec execMatmul; exact ⟨_, rfl⟩
  | partialSum _ => unfold exec execPartialSum; exact ⟨_, rfl⟩
  | loadRes _ => unfold exec execLoadRes; exact ⟨_, rfl⟩
  | releaseRes _ => unfold exec execReleaseRes; exact ⟨_, rfl⟩
  | elementwise _ => unfold exec execElementwise; exact ⟨_, rfl⟩
  | epilogue _ => unfold exec execEpilogue; exact ⟨_, rfl⟩
  | softmax _ => unfold exec execSoftmax; exact ⟨_, rfl⟩
  | layernorm _ => unfold exec execLayernorm; exact ⟨_, rfl⟩
  | rmsnorm _ => unfold exec execRmsnorm; exact ⟨_, rfl⟩
  | gate _ => unfold exec execGate; exact ⟨_, rfl⟩
  | ceLibDataRead _ _ => unfold exec execCeLibDataRead; exact ⟨_, rfl⟩
  | attend _ => unfold exec execAttend; exact ⟨_, rfl⟩
  | poolGive _ => unfold exec execPoolGive; exact ⟨_, rfl⟩
  | poolReclaim _ => unfold exec execPoolReclaim; exact ⟨_, rfl⟩
  | chainFree _ => unfold exec execChainFree; exact ⟨_, rfl⟩
  | prefixMatch _ => unfold exec execPrefixMatch; exact ⟨_, rfl⟩
  | prefixPublish _ => unfold exec execPrefixPublish; exact ⟨_, rfl⟩
  | prefixDrop _ => unfold exec execPrefixDrop; exact ⟨_, rfl⟩
  | scan _ => unfold exec execScan; exact ⟨_, rfl⟩
  | moverMove _ => unfold exec execMoverMove; exact ⟨_, rfl⟩
  | gather _ => unfold exec execGather; exact ⟨_, rfl⟩
  | scatter _ => unfold exec execScatter; exact ⟨_, rfl⟩
  | window _ => unfold exec execWindow; exact ⟨_, rfl⟩
  | tiles _ => unfold exec execTiles; exact ⟨_, rfl⟩
  | create _ => unfold exec execCreate; exact ⟨_, rfl⟩
  | tierMove _ => unfold exec execTierMove; exact ⟨_, rfl⟩
  | tierMoveDone _ _ _ => unfold exec execTierMoveDone; exact ⟨_, rfl⟩
  | free _ => unfold exec execFree; exact ⟨_, rfl⟩
  | freeRelease _ => unfold exec execFreeRelease; exact ⟨_, rfl⟩
  | intake _ => unfold exec execIntake; exact ⟨_, rfl⟩
  | intakeBuildDone _ => unfold exec execIntakeBuildDone; exact ⟨_, rfl⟩
  | intakeCommit _ _ => unfold exec execIntakeCommit; exact ⟨_, rfl⟩
  | query _ => unfold exec execQuery; exact ⟨_, rfl⟩
  | swap _ => unfold exec execSwap; exact ⟨_, rfl⟩
  | scrub _ _ => unfold exec execScrub; exact ⟨_, rfl⟩
  | digestScrubPass _ _ => unfold exec execDigestScrubPass; exact ⟨_, rfl⟩
  | scheduleEnable _ => unfold exec execScheduleEnable; exact ⟨_, rfl⟩
  | scheduleResume _ => unfold exec execScheduleResume; exact ⟨_, rfl⟩
  | scheduleDisable _ => unfold exec execScheduleDisable; exact ⟨_, rfl⟩
  | scheduleEntryRelease _ => unfold exec execScheduleEntryRelease; exact ⟨_, rfl⟩
  | hbmRequest _ => unfold exec execHbmRequest; exact ⟨_, rfl⟩
  | hbmCommandIssue _ _ _ _ _ => unfold exec execHbmCommandIssue; exact ⟨_, rfl⟩
  | perBankRefresh _ _ _ => unfold exec execPerBankRefresh; exact ⟨_, rfl⟩
  | trrWindowEnd _ => unfold exec execTrrWindowEnd; exact ⟨_, rfl⟩
  | hbmTraining _ _ => unfold exec execHbmTraining; exact ⟨_, rfl⟩
  | hbmFillComplete => unfold exec execHbmFillComplete; exact ⟨_, rfl⟩
  | fcRetrain _ _ _ => unfold exec execFcRetrain; exact ⟨_, rfl⟩
  | autoRetrain _ _ => unfold exec execAutoRetrain; exact ⟨_, rfl⟩
  | retrainWindow _ => unfold exec execRetrainWindow; exact ⟨_, rfl⟩
  | retrainComplete _ _ => unfold exec execRetrainComplete; exact ⟨_, rfl⟩
  | hbmPatrolScrub _ _ => unfold exec execHbmPatrolScrub; exact ⟨_, rfl⟩
  | xmapWrite _ _ _ => unfold exec execXmapWrite; exact ⟨_, rfl⟩
  | nandChannelTraining _ _ _ _ => unfold exec execNandChannelTraining; exact ⟨_, rfl⟩
  | nandBackgroundErase _ _ _ => unfold exec execNandBackgroundErase; exact ⟨_, rfl⟩
  | nandDqRetrain _ _ _ => unfold exec execNandDqRetrain; exact ⟨_, rfl⟩
  | wearLevelRelocation _ => unfold exec execWearLevelRelocation; exact ⟨_, rfl⟩
  | readDisturbCopy _ _ _ _ => unfold exec execReadDisturbCopy; exact ⟨_, rfl⟩
  | programLine _ => unfold exec execProgramLine; exact ⟨_, rfl⟩
  | eraseBlock _ => unfold exec execEraseBlock; exact ⟨_, rfl⟩
  | plinthSuspend _ => unfold exec execPlinthSuspend; exact ⟨_, rfl⟩
  | plinthResume _ => unfold exec execPlinthResume; exact ⟨_, rfl⟩
  | clearErrors _ => unfold exec execClearErrors; exact ⟨_, rfl⟩
  | resetToRead _ => unfold exec execResetToRead; exact ⟨_, rfl⟩
  | plinthSuspendDone _ => unfold exec execPlinthSuspendDone; exact ⟨_, rfl⟩
  | plinthProgramDone _ _ => unfold exec execPlinthProgramDone; exact ⟨_, rfl⟩
  | plinthEraseDone _ _ => unfold exec execPlinthEraseDone; exact ⟨_, rfl⟩
  | plinthDataRead _ => unfold exec execPlinthDataRead; exact ⟨_, rfl⟩
  | quoinBoot => unfold exec execQuoinBoot; exact ⟨_, rfl⟩
  | quoinFetch _ => unfold exec execQuoinFetch; exact ⟨_, rfl⟩
  | autoSuspendResume _ => unfold exec execAutoSuspendResume; exact ⟨_, rfl⟩
  | portEnable _ _ _ => unfold exec execPortEnable; exact ⟨_, rfl⟩
  | linkUp _ => unfold exec execLinkUp; exact ⟨_, rfl⟩
  | chipIdWrite _ _ => unfold exec execChipIdWrite; exact ⟨_, rfl⟩
  | macPfxWrite _ _ => unfold exec execMacPfxWrite; exact ⟨_, rfl⟩
  | requestFrameReceive _ _ => unfold exec execRequestFrameReceive; exact ⟨_, rfl⟩
  | frameApply _ => unfold exec execFrameApply; exact ⟨_, rfl⟩
  | pfcRepeat _ _ => unfold exec execPfcRepeat; exact ⟨_, rfl⟩
  | responseFrameReceive _ _ => unfold exec execResponseFrameReceive; exact ⟨_, rfl⟩
  | ackReceive _ _ => unfold exec execAckReceive; exact ⟨_, rfl⟩
  | nakReceive _ _ => unfold exec execNakReceive; exact ⟨_, rfl⟩
  | resyncReceive _ _ => unfold exec execResyncReceive; exact ⟨_, rfl⟩
  | resyncAckReceive _ _ => unfold exec execResyncAckReceive; exact ⟨_, rfl⟩
  | foreignFrameReceive _ _ => unfold exec execForeignFrameReceive; exact ⟨_, rfl⟩
  | pfcFrameReceive _ _ => unfold exec execPfcFrameReceive; exact ⟨_, rfl⟩
  | pauseExpiry _ _ => unfold exec execPauseExpiry; exact ⟨_, rfl⟩
  | ackTimeout _ _ _ => unfold exec execAckTimeout; exact ⟨_, rfl⟩
  | resyncRetry _ _ _ => unfold exec execResyncRetry; exact ⟨_, rfl⟩
  | resyncWaitTimeout _ => unfold exec execResyncWaitTimeout; exact ⟨_, rfl⟩
  | responseTimeout _ => unfold exec execResponseTimeout; exact ⟨_, rfl⟩
  | refclkFLoss _ => cases h
  | refclkFRestore _ => cases h
  | configRequest _ _ _ _ => unfold exec execConfigRequest; exact ⟨_, rfl⟩
  | bar2Read _ _ _ => unfold exec execBar2Read; exact ⟨_, rfl⟩
  | bar2Write _ _ _ => unfold exec execBar2Write; exact ⟨_, rfl⟩
  | perstNRelease => cases h
  | perstNAssert => cases h
  | firmwareReady => unfold exec execFirmwareReady; exact ⟨_, rfl⟩
  | fwLoad => unfold exec execFwLoad; exact ⟨_, rfl⟩
  | fwUpdate => unfold exec execFwUpdate; exact ⟨_, rfl⟩
  | fwVerifyDone => unfold exec execFwVerifyDone; exact ⟨_, rfl⟩
  | meleopinStart => unfold exec execMeleopinStart; exact ⟨_, rfl⟩
  | fwActivate => unfold exec execFwActivate; exact ⟨_, rfl⟩
  | fwUpdateTimeout => unfold exec execFwUpdateTimeout; exact ⟨_, rfl⟩
  | fwDeferEnd => unfold exec execFwDeferEnd; exact ⟨_, rfl⟩
  | fwDeferTimeout => unfold exec execFwDeferTimeout; exact ⟨_, rfl⟩
  | fwAdopt => unfold exec execFwAdopt; exact ⟨_, rfl⟩
  | fwReset => unfold exec execFwReset; exact ⟨_, rfl⟩
  | heartbeat => unfold exec execHeartbeat; exact ⟨_, rfl⟩
  | heartbeatIntervalEnd => unfold exec execHeartbeatIntervalEnd; exact ⟨_, rfl⟩
  | hostAbsentTroughTimeout => unfold exec execHostAbsentTroughTimeout; exact ⟨_, rfl⟩
  | hotReset => unfold exec execHotReset; exact ⟨_, rfl⟩
  | pfFlr => unfold exec execPfFlr; exact ⟨_, rfl⟩
  | vfFlr _ => unfold exec execVfFlr; exact ⟨_, rfl⟩
  | vfFlrTimeout _ => unfold exec execVfFlrTimeout; exact ⟨_, rfl⟩
  | mctpMessage _ => unfold exec execMctpMessage; exact ⟨_, rfl⟩
  | mctpControlMessage _ => unfold exec execMctpControlMessage; exact ⟨_, rfl⟩
  | mailboxGo _ _ => unfold exec execMailboxGo; exact ⟨_, rfl⟩
  | tenantCreate => unfold exec execTenantCreate; exact ⟨_, rfl⟩
  | tenantRemove => unfold exec execTenantRemove; exact ⟨_, rfl⟩
  | tenantDrainDone _ => unfold exec execTenantDrainDone; exact ⟨_, rfl⟩
  | tenantDrainTimeout _ => unfold exec execTenantDrainTimeout; exact ⟨_, rfl⟩
  | tenantScrubDone _ => unfold exec execTenantScrubDone; exact ⟨_, rfl⟩
  | tenantStatus => unfold exec execTenantStatus; exact ⟨_, rfl⟩
  | fabricSetup => unfold exec execFabricSetup; exact ⟨_, rfl⟩
  | plinthRead => unfold exec execPlinthRead; exact ⟨_, rfl⟩
  | imageUpdateBegin => unfold exec execImageUpdateBegin; exact ⟨_, rfl⟩
  | imageUpdateData => unfold exec execImageUpdateData; exact ⟨_, rfl⟩
  | imageUpdateEnd => unfold exec execImageUpdateEnd; exact ⟨_, rfl⟩
  | imageUpdateAbort => unfold exec execImageUpdateAbort; exact ⟨_, rfl⟩
  | imageUpdateSessionTimeout => unfold exec execImageUpdateSessionTimeout; exact ⟨_, rfl⟩
  | svnRaise => unfold exec execSvnRaise; exact ⟨_, rfl⟩
  | debugChallenge => unfold exec execDebugChallenge; exact ⟨_, rfl⟩
  | debugResponse => unfold exec execDebugResponse; exact ⟨_, rfl⟩
  | regionEntryWrite _ _ _ _ => unfold exec execRegionEntryWrite; exact ⟨_, rfl⟩
  | counterSnapshot => unfold exec execCounterSnapshot; exact ⟨_, rfl⟩
  | capSet => unfold exec execCapSet; exact ⟨_, rfl⟩
  | capGet => unfold exec execCapGet; exact ⟨_, rfl⟩
  | energyRead => unfold exec execEnergyRead; exact ⟨_, rfl⟩
  | voltageRead => unfold exec execVoltageRead; exact ⟨_, rfl⟩
  | thermalRead => unfold exec execThermalRead; exact ⟨_, rfl⟩
  | throttleRead => unfold exec execThrottleRead; exact ⟨_, rfl⟩
  | fsetWrite _ _ _ => unfold exec execFsetWrite; exact ⟨_, rfl⟩
  | rampStep _ => unfold exec execRampStep; exact ⟨_, rfl⟩
  | droopTrip _ => unfold exec execDroopTrip; exact ⟨_, rfl⟩
  | droopClear _ => unfold exec execDroopClear; exact ⟨_, rfl⟩
  | voltageTargetChange => unfold exec execVoltageTargetChange; exact ⟨_, rfl⟩
  | domainSwitch _ _ _ => unfold exec execDomainSwitch; exact ⟨_, rfl⟩
  | domainPowerUpDone _ => unfold exec execDomainPowerUpDone; exact ⟨_, rfl⟩
  | powerSample _ _ _ _ => unfold exec execPowerSample; exact ⟨_, rfl⟩
  | estCorrUpdate _ _ => unfold exec execEstCorrUpdate; exact ⟨_, rfl⟩
  | capLoopInterval _ _ => unfold exec execCapLoopInterval; exact ⟨_, rfl⟩
  | bubbleShareApply => unfold exec execBubbleShareApply; exact ⟨_, rfl⟩
  | junctionSample _ => unfold exec execJunctionSample; exact ⟨_, rfl⟩
  | thermalCapUpdate => unfold exec execThermalCapUpdate; exact ⟨_, rfl⟩
  | coolFlowOkLow => cases h
  | coolantStop => unfold exec execCoolantStop; exact ⟨_, rfl⟩
  | cattrip _ => unfold exec execCattrip; exact ⟨_, rfl⟩
  | stopPowerOff => unfold exec execStopPowerOff; exact ⟨_, rfl⟩
  | errorWindowEnd _ _ => unfold exec execErrorWindowEnd; exact ⟨_, rfl⟩
  | unitUncorrectableError _ _ _ => unfold exec execUnitUncorrectableError; exact ⟨_, rfl⟩
  | retireRequest _ _ _ => unfold exec execRetireRequest; exact ⟨_, rfl⟩
  | substitutionIdle _ _ => unfold exec execSubstitutionIdle; exact ⟨_, rfl⟩
  | substitutionComplete _ _ => unfold exec execSubstitutionComplete; exact ⟨_, rfl⟩
  | blockEnable _ _ _ _ => unfold exec execBlockEnable; exact ⟨_, rfl⟩
  | blockDrain _ _ _ _ => unfold exec execBlockDrain; exact ⟨_, rfl⟩
  | blockReset _ _ _ => unfold exec execBlockReset; exact ⟨_, rfl⟩
  | blockResetDone _ _ => unfold exec execBlockResetDone; exact ⟨_, rfl⟩
  | blockIdle _ _ => unfold exec execBlockIdle; exact ⟨_, rfl⟩
  | blockWorldWrite _ _ _ _ => unfold exec execBlockWorldWrite; exact ⟨_, rfl⟩
  | markWrite _ _ => unfold exec execMarkWrite; exact ⟨_, rfl⟩
  | markWindowWrite _ _ _ => unfold exec execMarkWindowWrite; exact ⟨_, rfl⟩
  | railOutOfRange => cases h
  | refclkPcieLoss => cases h
  | smbusClockLowTimeout => unfold exec execSmbusClockLowTimeout; exact ⟨_, rfl⟩
  | jtagTapReset => cases h
  | jtagIdcode => cases h
  | jtagBypass _ _ => cases h
  | jtagSamplePreload _ => cases h
  | jtagExtest _ => cases h
  | registerRead _ _ _ => unfold exec execRegisterRead; exact ⟨_, rfl⟩
  | linkDown _ => unfold exec execLinkDown; exact ⟨_, rfl⟩
  | coolFlowOkHigh => cases h
  | hbmStackHot _ _ => unfold exec execHbmStackHot; exact ⟨_, rfl⟩
  | pcieLinkUp _ _ => unfold exec execPcieLinkUp; exact ⟨_, rfl⟩
  | configSpaceReady => unfold exec execConfigSpaceReady; exact ⟨_, rfl⟩

/-- The pins and the JTAG port but PERST_N run behind `atPins`. -/
theorem exec_atPins (c : Instr) (s : State) (h : atPinsOnly c = true) (hc : c ≠ .perstNAssert) :
    ∃ f : State → State, exec c s = atPins s f := by
  cases c with
  | registerWrite _ _ _ _ => cases h
  | commandWritePost _ _ _ _ => cases h
  | commandWriteApply _ => cases h
  | jqTailDoorbell _ => cases h
  | jqEnable _ => cases h
  | jqResume _ => cases h
  | jqDiscard _ => cases h
  | jqDisable _ => cases h
  | cqHeadUpdate _ => cases h
  | eqHeadUpdate _ => cases h
  | map _ => cases h
  | unmap _ => cases h
  | mapOperationEnd _ => cases h
  | descriptorRelease _ _ _ => cases h
  | descriptorComplete _ => cases h
  | put _ => cases h
  | get _ => cases h
  | atomicAdd _ => cases h
  | atomicSwap _ => cases h
  | atomicCas _ => cases h
  | atomicUmax _ => cases h
  | atomicUmin _ => cases h
  | atomicAnd _ => cases h
  | atomicOr _ => cases h
  | atomicXor _ => cases h
  | signal _ => cases h
  | meleopinDescriptor _ => cases h
  | bedRequest _ _ => cases h
  | bedPatrolScrub _ => cases h
  | spareBankCopyDone _ => cases h
  | troughEnable _ _ _ => cases h
  | troughDisable _ _ _ => cases h
  | troughRecordProduce _ => cases h
  | troughRecordConsume _ => cases h
  | matmul _ => cases h
  | partialSum _ => cases h
  | loadRes _ => cases h
  | releaseRes _ => cases h
  | elementwise _ => cases h
  | epilogue _ => cases h
  | softmax _ => cases h
  | layernorm _ => cases h
  | rmsnorm _ => cases h
  | gate _ => cases h
  | ceLibDataRead _ _ => cases h
  | attend _ => cases h
  | poolGive _ => cases h
  | poolReclaim _ => cases h
  | chainFree _ => cases h
  | prefixMatch _ => cases h
  | prefixPublish _ => cases h
  | prefixDrop _ => cases h
  | scan _ => cases h
  | moverMove _ => cases h
  | gather _ => cases h
  | scatter _ => cases h
  | window _ => cases h
  | tiles _ => cases h
  | create _ => cases h
  | tierMove _ => cases h
  | tierMoveDone _ _ _ => cases h
  | free _ => cases h
  | freeRelease _ => cases h
  | intake _ => cases h
  | intakeBuildDone _ => cases h
  | intakeCommit _ _ => cases h
  | query _ => cases h
  | swap _ => cases h
  | scrub _ _ => cases h
  | digestScrubPass _ _ => cases h
  | scheduleEnable _ => cases h
  | scheduleResume _ => cases h
  | scheduleDisable _ => cases h
  | scheduleEntryRelease _ => cases h
  | hbmRequest _ => cases h
  | hbmCommandIssue _ _ _ _ _ => cases h
  | perBankRefresh _ _ _ => cases h
  | trrWindowEnd _ => cases h
  | hbmTraining _ _ => cases h
  | hbmFillComplete => cases h
  | fcRetrain _ _ _ => cases h
  | autoRetrain _ _ => cases h
  | retrainWindow _ => cases h
  | retrainComplete _ _ => cases h
  | hbmPatrolScrub _ _ => cases h
  | xmapWrite _ _ _ => cases h
  | nandChannelTraining _ _ _ _ => cases h
  | nandBackgroundErase _ _ _ => cases h
  | nandDqRetrain _ _ _ => cases h
  | wearLevelRelocation _ => cases h
  | readDisturbCopy _ _ _ _ => cases h
  | programLine _ => cases h
  | eraseBlock _ => cases h
  | plinthSuspend _ => cases h
  | plinthResume _ => cases h
  | clearErrors _ => cases h
  | resetToRead _ => cases h
  | plinthSuspendDone _ => cases h
  | plinthProgramDone _ _ => cases h
  | plinthEraseDone _ _ => cases h
  | plinthDataRead _ => cases h
  | quoinBoot => cases h
  | quoinFetch _ => cases h
  | autoSuspendResume _ => cases h
  | portEnable _ _ _ => cases h
  | linkUp _ => cases h
  | chipIdWrite _ _ => cases h
  | macPfxWrite _ _ => cases h
  | requestFrameReceive _ _ => cases h
  | frameApply _ => cases h
  | pfcRepeat _ _ => cases h
  | responseFrameReceive _ _ => cases h
  | ackReceive _ _ => cases h
  | nakReceive _ _ => cases h
  | resyncReceive _ _ => cases h
  | resyncAckReceive _ _ => cases h
  | foreignFrameReceive _ _ => cases h
  | pfcFrameReceive _ _ => cases h
  | pauseExpiry _ _ => cases h
  | ackTimeout _ _ _ => cases h
  | resyncRetry _ _ _ => cases h
  | resyncWaitTimeout _ => cases h
  | responseTimeout _ => cases h
  | refclkFLoss _ => unfold exec execRefclkFLoss; exact ⟨_, rfl⟩
  | refclkFRestore _ => unfold exec execRefclkFRestore; exact ⟨_, rfl⟩
  | configRequest _ _ _ _ => cases h
  | bar2Read _ _ _ => cases h
  | bar2Write _ _ _ => cases h
  | perstNRelease => unfold exec execPerstNRelease; exact ⟨_, rfl⟩
  | perstNAssert => exact absurd rfl hc
  | firmwareReady => cases h
  | fwLoad => cases h
  | fwUpdate => cases h
  | fwVerifyDone => cases h
  | meleopinStart => cases h
  | fwActivate => cases h
  | fwUpdateTimeout => cases h
  | fwDeferEnd => cases h
  | fwDeferTimeout => cases h
  | fwAdopt => cases h
  | fwReset => cases h
  | heartbeat => cases h
  | heartbeatIntervalEnd => cases h
  | hostAbsentTroughTimeout => cases h
  | hotReset => cases h
  | pfFlr => cases h
  | vfFlr _ => cases h
  | vfFlrTimeout _ => cases h
  | mctpMessage _ => cases h
  | mctpControlMessage _ => cases h
  | mailboxGo _ _ => cases h
  | tenantCreate => cases h
  | tenantRemove => cases h
  | tenantDrainDone _ => cases h
  | tenantDrainTimeout _ => cases h
  | tenantScrubDone _ => cases h
  | tenantStatus => cases h
  | fabricSetup => cases h
  | plinthRead => cases h
  | imageUpdateBegin => cases h
  | imageUpdateData => cases h
  | imageUpdateEnd => cases h
  | imageUpdateAbort => cases h
  | imageUpdateSessionTimeout => cases h
  | svnRaise => cases h
  | debugChallenge => cases h
  | debugResponse => cases h
  | regionEntryWrite _ _ _ _ => cases h
  | counterSnapshot => cases h
  | capSet => cases h
  | capGet => cases h
  | energyRead => cases h
  | voltageRead => cases h
  | thermalRead => cases h
  | throttleRead => cases h
  | fsetWrite _ _ _ => cases h
  | rampStep _ => cases h
  | droopTrip _ => cases h
  | droopClear _ => cases h
  | voltageTargetChange => cases h
  | domainSwitch _ _ _ => cases h
  | domainPowerUpDone _ => cases h
  | powerSample _ _ _ _ => cases h
  | estCorrUpdate _ _ => cases h
  | capLoopInterval _ _ => cases h
  | bubbleShareApply => cases h
  | junctionSample _ => cases h
  | thermalCapUpdate => cases h
  | coolFlowOkLow => unfold exec execCoolFlowOkLow; exact ⟨_, rfl⟩
  | coolantStop => cases h
  | cattrip _ => cases h
  | stopPowerOff => cases h
  | errorWindowEnd _ _ => cases h
  | unitUncorrectableError _ _ _ => cases h
  | retireRequest _ _ _ => cases h
  | substitutionIdle _ _ => cases h
  | substitutionComplete _ _ => cases h
  | blockEnable _ _ _ _ => cases h
  | blockDrain _ _ _ _ => cases h
  | blockReset _ _ _ => cases h
  | blockResetDone _ _ => cases h
  | blockIdle _ _ => cases h
  | blockWorldWrite _ _ _ _ => cases h
  | markWrite _ _ => cases h
  | markWindowWrite _ _ _ => cases h
  | railOutOfRange => unfold exec execRailOutOfRange; exact ⟨_, rfl⟩
  | refclkPcieLoss => unfold exec execRefclkPcieLoss; exact ⟨_, rfl⟩
  | smbusClockLowTimeout => cases h
  | jtagTapReset => unfold exec execJtagTapReset; exact ⟨_, rfl⟩
  | jtagIdcode => unfold exec execJtagIdcode; exact ⟨_, rfl⟩
  | jtagBypass _ _ => unfold exec execJtagBypass; exact ⟨_, rfl⟩
  | jtagSamplePreload _ => unfold exec execJtagSamplePreload; exact ⟨_, rfl⟩
  | jtagExtest _ => unfold exec execJtagExtest; exact ⟨_, rfl⟩
  | registerRead _ _ _ => cases h
  | linkDown _ => cases h
  | coolFlowOkHigh => unfold exec execCoolFlowOkHigh; exact ⟨_, rfl⟩
  | hbmStackHot _ _ => cases h
  | pcieLinkUp _ _ => cases h
  | configSpaceReady => cases h

end Sys2Proof.Machine
end

