-- ==== Sys2Proof/Laws/KeptLow.lean ====
section
/-! SUPPORT. What no command disturbs is kept. -/

namespace Sys2Proof.Machine

variable {qs : List Instr} {u : Bool}

theorem State.setReg_kept {a0 : State} {a1 : Nat} {a2 : DWord} (ha0 : (a0).kept qs u = true) :
    (@State.setReg a0 a1 a2).kept qs u = true := by
  simp only [State.setReg, ↓kept_mk]
  exact kept_setRegs ha0 (smapWf_set _ _ (kept_regs ha0))

theorem State.setRegN_kept {a0 : State} {a1 : Nat} {a2 : Nat} (ha0 : (a0).kept qs u = true) :
    (@State.setRegN a0 a1 a2).kept qs u = true := by
  unfold State.setRegN
  try dsimp only
  repeat' (first
    | with_reducible assumption
    | with_reducible apply State.setReg_kept
    | intro _
    | split
    | with_reducible apply kept_fold
    | with_reducible apply kept_fold1
    | with_reducible apply kept_foldW
    | with_reducible apply kept_foldW1
    | with_reducible apply kept_foldH
    | with_reducible apply kept_foldH1
    | with_reducible refine kept_fst ?_ (by with_reducible assumption)
    | with_reducible refine kept_fstW ?_ (by with_reducible assumption)
    | with_reducible refine kept_fstH ?_ (by with_reducible assumption)
    | (simp only [↓kept_mk]; with_reducible refine kept_of ?_))

theorem State.modReg_kept {a0 : State} {a1 : Nat} {a2 : Nat → Nat} (ha0 : (a0).kept qs u = true) :
    (@State.modReg a0 a1 a2).kept qs u = true := by
  unfold State.modReg
  try dsimp only
  repeat' (first
    | with_reducible assumption
    | with_reducible apply State.setRegN_kept
    | intro _
    | split
    | with_reducible apply kept_fold
    | with_reducible apply kept_fold1
    | with_reducible apply kept_foldW
    | with_reducible apply kept_foldW1
    | with_reducible apply kept_foldH
    | with_reducible apply kept_foldH1
    | with_reducible refine kept_fst ?_ (by with_reducible assumption)
    | with_reducible refine kept_fstW ?_ (by with_reducible assumption)
    | with_reducible refine kept_fstH ?_ (by with_reducible assumption)
    | (simp only [↓kept_mk]; with_reducible refine kept_of ?_))

theorem State.count_kept {a0 : State} {a1 : Nat} {a2 : Nat} (ha0 : (a0).kept qs u = true) :
    (@State.count a0 a1 a2).kept qs u = true := by
  unfold State.count
  try dsimp only
  repeat' (first
    | with_reducible assumption
    | with_reducible apply State.modReg_kept
    | intro _
    | split
    | with_reducible apply kept_fold
    | with_reducible apply kept_fold1
    | with_reducible apply kept_foldW
    | with_reducible apply kept_foldW1
    | with_reducible apply kept_foldH
    | with_reducible apply kept_foldH1
    | with_reducible refine kept_fst ?_ (by with_reducible assumption)
    | with_reducible refine kept_fstW ?_ (by with_reducible assumption)
    | with_reducible refine kept_fstH ?_ (by with_reducible assumption)
    | (simp only [↓kept_mk]; with_reducible refine kept_of ?_))

theorem State.setField_kept {a0 : State} {a1 : Nat} {a2 : Nat} {a3 : Nat} {a4 : Nat} (ha0 : (a0).kept qs u = true) :
    (@State.setField a0 a1 a2 a3 a4).kept qs u = true := by
  unfold State.setField
  try dsimp only
  repeat' (first
    | with_reducible assumption
    | with_reducible apply State.modReg_kept
    | intro _
    | split
    | with_reducible apply kept_fold
    | with_reducible apply kept_fold1
    | with_reducible apply kept_foldW
    | with_reducible apply kept_foldW1
    | with_reducible apply kept_foldH
    | with_reducible apply kept_foldH1
    | with_reducible refine kept_fst ?_ (by with_reducible assumption)
    | with_reducible refine kept_fstW ?_ (by with_reducible assumption)
    | with_reducible refine kept_fstH ?_ (by with_reducible assumption)
    | (simp only [↓kept_mk]; with_reducible refine kept_of ?_))

theorem State.setBit_kept {a0 : State} {a1 : Nat} {a2 : Nat} {a3 : Bool} (ha0 : (a0).kept qs u = true) :
    (@State.setBit a0 a1 a2 a3).kept qs u = true := by
  unfold State.setBit
  try dsimp only
  repeat' (first
    | with_reducible assumption
    | with_reducible apply State.setField_kept
    | intro _
    | split
    | with_reducible apply kept_fold
    | with_reducible apply kept_fold1
    | with_reducible apply kept_foldW
    | with_reducible apply kept_foldW1
    | with_reducible apply kept_foldH
    | with_reducible apply kept_foldH1
    | with_reducible refine kept_fst ?_ (by with_reducible assumption)
    | with_reducible refine kept_fstW ?_ (by with_reducible assumption)
    | with_reducible refine kept_fstH ?_ (by with_reducible assumption)
    | (simp only [↓kept_mk]; with_reducible refine kept_of ?_))

theorem State.resetRegs_kept {a0 : State} {a1 : Nat → Bool} (ha0 : (a0).kept qs u = true) :
    (@State.resetRegs a0 a1).kept qs u = true := by
  simp only [State.resetRegs, ↓kept_mk]
  exact kept_setRegs ha0 (smapWf_clear _ (kept_regs ha0))

theorem State.blkErr_kept {a0 : State} {a1 : Blk} {a2 : Nat} {a3 : Nat} (ha0 : (a0).kept qs u = true) :
    (@State.blkErr a0 a1 a2 a3).kept qs u = true := by
  unfold State.blkErr
  try dsimp only
  repeat' (first
    | with_reducible assumption
    | with_reducible apply State.setBit_kept
    | intro _
    | split
    | with_reducible apply kept_fold
    | with_reducible apply kept_fold1
    | with_reducible apply kept_foldW
    | with_reducible apply kept_foldW1
    | with_reducible apply kept_foldH
    | with_reducible apply kept_foldH1
    | with_reducible refine kept_fst ?_ (by with_reducible assumption)
    | with_reducible refine kept_fstW ?_ (by with_reducible assumption)
    | with_reducible refine kept_fstH ?_ (by with_reducible assumption)
    | (simp only [↓kept_mk]; with_reducible refine kept_of ?_))

theorem State.tick_kept {a0 : State} (ha0 : (a0).kept qs u = true) :
    (@State.tick a0).kept qs u = true := by
  unfold State.tick
  try dsimp only
  repeat' (first
    | with_reducible assumption
    | intro _
    | split
    | with_reducible apply kept_fold
    | with_reducible apply kept_fold1
    | with_reducible apply kept_foldW
    | with_reducible apply kept_foldW1
    | with_reducible apply kept_foldH
    | with_reducible apply kept_foldH1
    | with_reducible refine kept_fst ?_ (by with_reducible assumption)
    | with_reducible refine kept_fstW ?_ (by with_reducible assumption)
    | with_reducible refine kept_fstH ?_ (by with_reducible assumption)
    | (simp only [↓kept_mk]; with_reducible refine kept_of ?_))

theorem State.tagLines_kept {a0 : State} {a1 : Nat} {a2 : Nat} {a3 : Nat} (ha0 : (a0).kept qs u = true) :
    (@State.tagLines a0 a1 a2 a3).kept qs u = true := by
  unfold State.tagLines
  try dsimp only
  repeat' (first
    | with_reducible assumption
    | intro _
    | split
    | with_reducible apply kept_fold
    | with_reducible apply kept_fold1
    | with_reducible apply kept_foldW
    | with_reducible apply kept_foldW1
    | with_reducible apply kept_foldH
    | with_reducible apply kept_foldH1
    | with_reducible refine kept_fst ?_ (by with_reducible assumption)
    | with_reducible refine kept_fstW ?_ (by with_reducible assumption)
    | with_reducible refine kept_fstH ?_ (by with_reducible assumption)
    | (simp only [↓kept_mk]; with_reducible refine kept_of ?_))

theorem State.poison_kept {a0 : State} {a1 : Tier} {a2 : Nat} (ha0 : (a0).kept qs u = true) :
    (@State.poison a0 a1 a2).kept qs u = true := by
  unfold State.poison
  try dsimp only
  repeat' (first
    | with_reducible assumption
    | intro _
    | split
    | with_reducible apply kept_fold
    | with_reducible apply kept_fold1
    | with_reducible apply kept_foldW
    | with_reducible apply kept_foldW1
    | with_reducible apply kept_foldH
    | with_reducible apply kept_foldH1
    | with_reducible refine kept_fst ?_ (by with_reducible assumption)
    | with_reducible refine kept_fstW ?_ (by with_reducible assumption)
    | with_reducible refine kept_fstH ?_ (by with_reducible assumption)
    | (simp only [↓kept_mk]; with_reducible refine kept_of ?_))

theorem State.writeLine_kept {a0 : State} {a1 : Tier} {a2 : Nat} {a3 : Nat} {a4 : Bytes} (ha0 : (a0).kept qs u = true) :
    (@State.writeLine a0 a1 a2 a3 a4).kept qs u = true := by
  unfold State.writeLine
  dsimp only
  repeat' split
  all_goals simp only [↓kept_mk]
  all_goals first
    | exact kept_setBed ha0 (wf_memWrite _ _ (kept_bed ha0))
    | exact kept_setHbm ha0 (wf_memWrite _ _ (kept_hbm ha0))

theorem State.writePhys_kept {a0 : State} {a1 : Tier} {a2 : Nat} {a3 : Nat} {a4 : Bytes} (ha0 : (a0).kept qs u = true) :
    (@State.writePhys a0 a1 a2 a3 a4).kept qs u = true := by
  unfold State.writePhys
  try dsimp only
  repeat' (first
    | with_reducible assumption
    | with_reducible apply State.writeLine_kept
    | intro _
    | split
    | with_reducible apply kept_fold
    | with_reducible apply kept_fold1
    | with_reducible apply kept_foldW
    | with_reducible apply kept_foldW1
    | with_reducible apply kept_foldH
    | with_reducible apply kept_foldH1
    | with_reducible refine kept_fst ?_ (by with_reducible assumption)
    | with_reducible refine kept_fstW ?_ (by with_reducible assumption)
    | with_reducible refine kept_fstH ?_ (by with_reducible assumption)
    | (simp only [↓kept_mk]; with_reducible refine kept_of ?_))

theorem State.zeroPhys_kept {a0 : State} {a1 : Tier} {a2 : Nat} {a3 : Nat} {a4 : Nat} (ha0 : (a0).kept qs u = true) :
    (@State.zeroPhys a0 a1 a2 a3 a4).kept qs u = true := by
  unfold State.zeroPhys
  dsimp only
  split
  · simp only [↓kept_mk]
    exact kept_setBed ha0 (wf_memClear _ _ (kept_bed ha0))
  · simp only [↓kept_mk]
    exact kept_setHbm ha0 (wf_memClear _ _ (kept_hbm ha0))

theorem State.touch_kept {a0 : State} {a1 : Tier} (ha0 : (a0).kept qs u = true) :
    (@State.touch a0 a1).kept qs u = true := by
  unfold State.touch
  try dsimp only
  repeat' (first
    | with_reducible assumption
    | with_reducible apply State.setRegN_kept
    | intro _
    | split
    | with_reducible apply kept_fold
    | with_reducible apply kept_fold1
    | with_reducible apply kept_foldW
    | with_reducible apply kept_foldW1
    | with_reducible apply kept_foldH
    | with_reducible apply kept_foldH1
    | with_reducible refine kept_fst ?_ (by with_reducible assumption)
    | with_reducible refine kept_fstW ?_ (by with_reducible assumption)
    | with_reducible refine kept_fstH ?_ (by with_reducible assumption)
    | (simp only [↓kept_mk]; with_reducible refine kept_of ?_))

theorem State.logPoison_kept {a0 : State} {a1 : Tier} {a2 : Nat} (ha0 : (a0).kept qs u = true) :
    (@State.logPoison a0 a1 a2).kept qs u = true := by
  unfold State.logPoison
  try dsimp only
  repeat' (first
    | with_reducible assumption
    | with_reducible apply State.setRegN_kept
    | intro _
    | split
    | with_reducible apply kept_fold
    | with_reducible apply kept_fold1
    | with_reducible apply kept_foldW
    | with_reducible apply kept_foldW1
    | with_reducible apply kept_foldH
    | with_reducible apply kept_foldH1
    | with_reducible refine kept_fst ?_ (by with_reducible assumption)
    | with_reducible refine kept_fstW ?_ (by with_reducible assumption)
    | with_reducible refine kept_fstH ?_ (by with_reducible assumption)
    | (simp only [↓kept_mk]; with_reducible refine kept_of ?_))

theorem State.access_kept {a0 : State} {a1 : Who} {a2 : Tier} {a3 : Nat} {a4 : Nat} {a5 : Bool} (ha0 : (a0).kept qs u = true) :
    (@State.access a0 a1 a2 a3 a4 a5).1.kept qs u = true := by
  unfold State.access
  try dsimp only
  repeat' (first
    | with_reducible assumption
    | with_reducible apply State.touch_kept
    | with_reducible apply State.logPoison_kept
    | intro _
    | split
    | with_reducible apply kept_fold
    | with_reducible apply kept_fold1
    | with_reducible apply kept_foldW
    | with_reducible apply kept_foldW1
    | with_reducible apply kept_foldH
    | with_reducible apply kept_foldH1
    | with_reducible refine kept_fst ?_ (by with_reducible assumption)
    | with_reducible refine kept_fstW ?_ (by with_reducible assumption)
    | with_reducible refine kept_fstH ?_ (by with_reducible assumption)
    | (simp only [↓kept_mk]; with_reducible refine kept_of ?_))

theorem State.readFor_kept {a0 : State} {a1 : Who} {a2 : Tier} {a3 : Nat} {a4 : Nat} (ha0 : (a0).kept qs u = true) :
    (@State.readFor a0 a1 a2 a3 a4).1.kept qs u = true := by
  unfold State.readFor
  try dsimp only
  repeat' (first
    | with_reducible assumption
    | with_reducible apply State.access_kept
    | intro _
    | split
    | with_reducible apply kept_fold
    | with_reducible apply kept_fold1
    | with_reducible apply kept_foldW
    | with_reducible apply kept_foldW1
    | with_reducible apply kept_foldH
    | with_reducible apply kept_foldH1
    | with_reducible refine kept_fst ?_ (by with_reducible assumption)
    | with_reducible refine kept_fstW ?_ (by with_reducible assumption)
    | with_reducible refine kept_fstH ?_ (by with_reducible assumption)
    | (simp only [↓kept_mk]; with_reducible refine kept_of ?_))

theorem State.writeFor_kept {a0 : State} {a1 : Who} {a2 : Tier} {a3 : Nat} {a4 : Bytes} (ha0 : (a0).kept qs u = true) :
    (@State.writeFor a0 a1 a2 a3 a4).1.kept qs u = true := by
  unfold State.writeFor
  try dsimp only
  repeat' (first
    | with_reducible assumption
    | with_reducible apply State.access_kept
    | with_reducible apply State.writePhys_kept
    | intro _
    | split
    | with_reducible apply kept_fold
    | with_reducible apply kept_fold1
    | with_reducible apply kept_foldW
    | with_reducible apply kept_foldW1
    | with_reducible apply kept_foldH
    | with_reducible apply kept_foldH1
    | with_reducible refine kept_fst ?_ (by with_reducible assumption)
    | with_reducible refine kept_fstW ?_ (by with_reducible assumption)
    | with_reducible refine kept_fstH ?_ (by with_reducible assumption)
    | (simp only [↓kept_mk]; with_reducible refine kept_of ?_))

theorem State.setRing_kept {a0 : State} {a1 : Nat} {a2 : Ring} (ha0 : (a0).kept qs u = true) :
    (@State.setRing a0 a1 a2).kept qs u = true := by
  unfold State.setRing
  try dsimp only
  repeat' (first
    | with_reducible assumption
    | intro _
    | split
    | with_reducible apply kept_fold
    | with_reducible apply kept_fold1
    | with_reducible apply kept_foldW
    | with_reducible apply kept_foldW1
    | with_reducible apply kept_foldH
    | with_reducible apply kept_foldH1
    | with_reducible refine kept_fst ?_ (by with_reducible assumption)
    | with_reducible refine kept_fstW ?_ (by with_reducible assumption)
    | with_reducible refine kept_fstH ?_ (by with_reducible assumption)
    | (simp only [↓kept_mk]; with_reducible refine kept_of ?_))

theorem State.msix_kept {a0 : State} {a1 : Nat} (ha0 : (a0).kept qs u = true) :
    (@State.msix a0 a1).kept qs u = true := by
  unfold State.msix
  try dsimp only
  repeat' (first
    | with_reducible assumption
    | intro _
    | split
    | with_reducible apply kept_fold
    | with_reducible apply kept_fold1
    | with_reducible apply kept_foldW
    | with_reducible apply kept_foldW1
    | with_reducible apply kept_foldH
    | with_reducible apply kept_foldH1
    | with_reducible refine kept_fst ?_ (by with_reducible assumption)
    | with_reducible refine kept_fstW ?_ (by with_reducible assumption)
    | with_reducible refine kept_fstH ?_ (by with_reducible assumption)
    | (simp only [↓kept_mk]; with_reducible refine kept_of ?_))

theorem State.eventTry_kept {a0 : State} {a1 : Nat} {a2 : Event} (ha0 : (a0).kept qs u = true) :
    (@State.eventTry a0 a1 a2).1.kept qs u = true := by
  unfold State.eventTry
  try dsimp only
  repeat' (first
    | with_reducible assumption
    | with_reducible apply State.setRing_kept
    | with_reducible apply State.writeFor_kept
    | with_reducible apply State.setRegN_kept
    | with_reducible apply State.msix_kept
    | intro _
    | split
    | with_reducible apply kept_fold
    | with_reducible apply kept_fold1
    | with_reducible apply kept_foldW
    | with_reducible apply kept_foldW1
    | with_reducible apply kept_foldH
    | with_reducible apply kept_foldH1
    | with_reducible refine kept_fst ?_ (by with_reducible assumption)
    | with_reducible refine kept_fstW ?_ (by with_reducible assumption)
    | with_reducible refine kept_fstH ?_ (by with_reducible assumption)
    | (simp only [↓kept_mk]; with_reducible refine kept_of ?_))

theorem State.setJobQ_kept {a0 : State} {a1 : Nat} {a2 : Nat} {a3 : JobQ} (ha0 : (a0).kept qs u = true) :
    (@State.setJobQ a0 a1 a2 a3).kept qs u = true := by
  unfold State.setJobQ
  try dsimp only
  repeat' (first
    | with_reducible assumption
    | intro _
    | split
    | with_reducible apply kept_fold
    | with_reducible apply kept_fold1
    | with_reducible apply kept_foldW
    | with_reducible apply kept_foldW1
    | with_reducible apply kept_foldH
    | with_reducible apply kept_foldH1
    | with_reducible refine kept_fst ?_ (by with_reducible assumption)
    | with_reducible refine kept_fstW ?_ (by with_reducible assumption)
    | with_reducible refine kept_fstH ?_ (by with_reducible assumption)
    | (simp only [↓kept_mk]; with_reducible refine kept_of ?_))

theorem State.jqHead_kept {a0 : State} {a1 : Nat} {a2 : Nat} (ha0 : (a0).kept qs u = true) :
    (@State.jqHead a0 a1 a2).1.kept qs u = true := by
  unfold State.jqHead
  try dsimp only
  repeat' (first
    | with_reducible assumption
    | with_reducible apply State.readFor_kept
    | intro _
    | split
    | with_reducible apply kept_fold
    | with_reducible apply kept_fold1
    | with_reducible apply kept_foldW
    | with_reducible apply kept_foldW1
    | with_reducible apply kept_foldH
    | with_reducible apply kept_foldH1
    | with_reducible refine kept_fst ?_ (by with_reducible assumption)
    | with_reducible refine kept_fstW ?_ (by with_reducible assumption)
    | with_reducible refine kept_fstH ?_ (by with_reducible assumption)
    | (simp only [↓kept_mk]; with_reducible refine kept_of ?_))

theorem State.latch_kept {a0 : State} (ha0 : (a0).kept qs u = true) :
    (@State.latch a0).kept qs u = true := by
  unfold State.latch
  try dsimp only
  repeat' (first
    | with_reducible assumption
    | intro _
    | split
    | with_reducible apply kept_fold
    | with_reducible apply kept_fold1
    | with_reducible apply kept_foldW
    | with_reducible apply kept_foldW1
    | with_reducible apply kept_foldH
    | with_reducible apply kept_foldH1
    | with_reducible refine kept_fst ?_ (by with_reducible assumption)
    | with_reducible refine kept_fstW ?_ (by with_reducible assumption)
    | with_reducible refine kept_fstH ?_ (by with_reducible assumption)
    | (simp only [↓kept_mk]; with_reducible refine kept_of ?_))

theorem State.unlatch_kept {a0 : State} {a1 : Nat} {a2 : Nat} (ha0 : (a0).kept qs u = true) :
    (@State.unlatch a0 a1 a2).kept qs u = true := by
  unfold State.unlatch
  try dsimp only
  repeat' (first
    | with_reducible assumption
    | intro _
    | split
    | with_reducible apply kept_fold
    | with_reducible apply kept_fold1
    | with_reducible apply kept_foldW
    | with_reducible apply kept_foldW1
    | with_reducible apply kept_foldH
    | with_reducible apply kept_foldH1
    | with_reducible refine kept_fst ?_ (by with_reducible assumption)
    | with_reducible refine kept_fstW ?_ (by with_reducible assumption)
    | with_reducible refine kept_fstH ?_ (by with_reducible assumption)
    | (simp only [↓kept_mk]; with_reducible refine kept_of ?_))

theorem State.setMark_kept {a0 : State} {a1 : Nat} {a2 : DWord} (ha0 : (a0).kept qs u = true) :
    (@State.setMark a0 a1 a2).kept qs u = true := by
  simp only [State.setMark, ↓kept_mk]
  exact kept_setMarks ha0 (smapWf_set _ _ (kept_marks ha0))

theorem State.markServed_kept {a0 : State} {a1 : Nat} {a2 : Nat} (ha0 : (a0).kept qs u = true) :
    (@State.markServed a0 a1 a2).kept qs u = true := by
  unfold State.markServed
  try dsimp only
  repeat' (first
    | with_reducible assumption
    | intro _
    | split
    | with_reducible apply kept_fold
    | with_reducible apply kept_fold1
    | with_reducible apply kept_foldW
    | with_reducible apply kept_foldW1
    | with_reducible apply kept_foldH
    | with_reducible apply kept_foldH1
    | with_reducible refine kept_fst ?_ (by with_reducible assumption)
    | with_reducible refine kept_fstW ?_ (by with_reducible assumption)
    | with_reducible refine kept_fstH ?_ (by with_reducible assumption)
    | (simp only [↓kept_mk]; with_reducible refine kept_of ?_))

theorem State.signalMark_kept {a0 : State} {a1 : Nat} {a2 : Nat} {a3 : Bool} (ha0 : (a0).kept qs u = true) :
    (@State.signalMark a0 a1 a2 a3).kept qs u = true := by
  unfold State.signalMark
  try dsimp only
  repeat' (first
    | with_reducible assumption
    | with_reducible apply State.count_kept
    | with_reducible apply State.setMark_kept
    | with_reducible apply State.markServed_kept
    | intro _
    | split
    | with_reducible apply kept_fold
    | with_reducible apply kept_fold1
    | with_reducible apply kept_foldW
    | with_reducible apply kept_foldW1
    | with_reducible apply kept_foldH
    | with_reducible apply kept_foldH1
    | with_reducible refine kept_fst ?_ (by with_reducible assumption)
    | with_reducible refine kept_fstW ?_ (by with_reducible assumption)
    | with_reducible refine kept_fstH ?_ (by with_reducible assumption)
    | (simp only [↓kept_mk]; with_reducible refine kept_of ?_))

theorem State.jqRefresh_kept {a0 : State} {a1 : Nat} {a2 : Nat} (ha0 : (a0).kept qs u = true) :
    (@State.jqRefresh a0 a1 a2).kept qs u = true := by
  unfold State.jqRefresh
  try dsimp only
  repeat' (first
    | with_reducible assumption
    | with_reducible apply State.setField_kept
    | intro _
    | split
    | with_reducible apply kept_fold
    | with_reducible apply kept_fold1
    | with_reducible apply kept_foldW
    | with_reducible apply kept_foldW1
    | with_reducible apply kept_foldH
    | with_reducible apply kept_foldH1
    | with_reducible refine kept_fst ?_ (by with_reducible assumption)
    | with_reducible refine kept_fstW ?_ (by with_reducible assumption)
    | with_reducible refine kept_fstH ?_ (by with_reducible assumption)
    | (simp only [↓kept_mk]; with_reducible refine kept_of ?_))

theorem State.park_kept {a0 : State} {a1 : Nat} {a2 : Nat} (ha0 : (a0).kept qs u = true) :
    (@State.park a0 a1 a2).kept qs u = true := by
  unfold State.park
  try dsimp only
  repeat' (first
    | with_reducible assumption
    | with_reducible apply State.setJobQ_kept
    | intro _
    | split
    | with_reducible apply kept_fold
    | with_reducible apply kept_fold1
    | with_reducible apply kept_foldW
    | with_reducible apply kept_foldW1
    | with_reducible apply kept_foldH
    | with_reducible apply kept_foldH1
    | with_reducible refine kept_fst ?_ (by with_reducible assumption)
    | with_reducible refine kept_fstW ?_ (by with_reducible assumption)
    | with_reducible refine kept_fstH ?_ (by with_reducible assumption)
    | (simp only [↓kept_mk]; with_reducible refine kept_of ?_))

theorem State.haltQuiet_kept {a0 : State} {a1 : Nat} {a2 : Nat} {a3 : Nat} (ha0 : (a0).kept qs u = true) :
    (@State.haltQuiet a0 a1 a2 a3).kept qs u = true := by
  unfold State.haltQuiet
  try dsimp only
  repeat' (first
    | with_reducible assumption
    | with_reducible apply State.setRegN_kept
    | intro _
    | split
    | with_reducible apply kept_fold
    | with_reducible apply kept_fold1
    | with_reducible apply kept_foldW
    | with_reducible apply kept_foldW1
    | with_reducible apply kept_foldH
    | with_reducible apply kept_foldH1
    | with_reducible refine kept_fst ?_ (by with_reducible assumption)
    | with_reducible refine kept_fstW ?_ (by with_reducible assumption)
    | with_reducible refine kept_fstH ?_ (by with_reducible assumption)
    | (simp only [↓kept_mk]; with_reducible refine kept_of ?_))

theorem State.haltAllQuiet_kept {a0 : State} {a1 : Nat} (ha0 : (a0).kept qs u = true) :
    (@State.haltAllQuiet a0 a1).kept qs u = true := by
  unfold State.haltAllQuiet
  try dsimp only
  repeat' (first
    | with_reducible assumption
    | with_reducible apply State.blkErr_kept
    | with_reducible apply State.haltQuiet_kept
    | intro _
    | split
    | with_reducible apply kept_fold
    | with_reducible apply kept_fold1
    | with_reducible apply kept_foldW
    | with_reducible apply kept_foldW1
    | with_reducible apply kept_foldH
    | with_reducible apply kept_foldH1
    | with_reducible refine kept_fst ?_ (by with_reducible assumption)
    | with_reducible refine kept_fstW ?_ (by with_reducible assumption)
    | with_reducible refine kept_fstH ?_ (by with_reducible assumption)
    | (simp only [↓kept_mk]; with_reducible refine kept_of ?_))

theorem State.event_kept {a0 : State} {a1 : Nat} {a2 : Event} (ha0 : (a0).kept qs u = true) :
    (@State.event a0 a1 a2).kept qs u = true := by
  unfold State.event
  try dsimp only
  repeat' (first
    | with_reducible assumption
    | with_reducible apply State.eventTry_kept
    | with_reducible apply State.blkErr_kept
    | with_reducible apply State.haltAllQuiet_kept
    | intro _
    | split
    | with_reducible apply kept_fold
    | with_reducible apply kept_fold1
    | with_reducible apply kept_foldW
    | with_reducible apply kept_foldW1
    | with_reducible apply kept_foldH
    | with_reducible apply kept_foldH1
    | with_reducible refine kept_fst ?_ (by with_reducible assumption)
    | with_reducible refine kept_fstW ?_ (by with_reducible assumption)
    | with_reducible refine kept_fstH ?_ (by with_reducible assumption)
    | (simp only [↓kept_mk]; with_reducible refine kept_of ?_))

theorem State.pfEvent_kept {a0 : State} {a1 : Event} (ha0 : (a0).kept qs u = true) :
    (@State.pfEvent a0 a1).kept qs u = true := by
  unfold State.pfEvent
  try dsimp only
  repeat' (first
    | with_reducible assumption
    | with_reducible apply State.event_kept
    | intro _
    | split
    | with_reducible apply kept_fold
    | with_reducible apply kept_fold1
    | with_reducible apply kept_foldW
    | with_reducible apply kept_foldW1
    | with_reducible apply kept_foldH
    | with_reducible apply kept_foldH1
    | with_reducible refine kept_fst ?_ (by with_reducible assumption)
    | with_reducible refine kept_fstW ?_ (by with_reducible assumption)
    | with_reducible refine kept_fstH ?_ (by with_reducible assumption)
    | (simp only [↓kept_mk]; with_reducible refine kept_of ?_))

theorem State.halt_kept {a0 : State} {a1 : Nat} {a2 : Nat} {a3 : Nat} (ha0 : (a0).kept qs u = true) :
    (@State.halt a0 a1 a2 a3).kept qs u = true := by
  unfold State.halt
  try dsimp only
  repeat' (first
    | with_reducible assumption
    | with_reducible apply State.event_kept
    | with_reducible apply State.haltQuiet_kept
    | intro _
    | split
    | with_reducible apply kept_fold
    | with_reducible apply kept_fold1
    | with_reducible apply kept_foldW
    | with_reducible apply kept_foldW1
    | with_reducible apply kept_foldH
    | with_reducible apply kept_foldH1
    | with_reducible refine kept_fst ?_ (by with_reducible assumption)
    | with_reducible refine kept_fstW ?_ (by with_reducible assumption)
    | with_reducible refine kept_fstH ?_ (by with_reducible assumption)
    | (simp only [↓kept_mk]; with_reducible refine kept_of ?_))

theorem State.haltRefused_kept {a0 : State} {a1 : Nat} {a2 : Nat} (ha0 : (a0).kept qs u = true) :
    (@State.haltRefused a0 a1 a2).kept qs u = true := by
  unfold State.haltRefused
  try dsimp only
  repeat' (first
    | with_reducible assumption
    | with_reducible apply State.setRegN_kept
    | with_reducible apply State.event_kept
    | intro _
    | split
    | with_reducible apply kept_fold
    | with_reducible apply kept_fold1
    | with_reducible apply kept_foldW
    | with_reducible apply kept_foldW1
    | with_reducible apply kept_foldH
    | with_reducible apply kept_foldH1
    | with_reducible refine kept_fst ?_ (by with_reducible assumption)
    | with_reducible refine kept_fstW ?_ (by with_reducible assumption)
    | with_reducible refine kept_fstH ?_ (by with_reducible assumption)
    | (simp only [↓kept_mk]; with_reducible refine kept_of ?_))

theorem State.haltAll_kept {a0 : State} {a1 : Nat} (ha0 : (a0).kept qs u = true) :
    (@State.haltAll a0 a1).kept qs u = true := by
  unfold State.haltAll
  try dsimp only
  repeat' (first
    | with_reducible assumption
    | with_reducible apply State.blkErr_kept
    | with_reducible apply State.halt_kept
    | intro _
    | split
    | with_reducible apply kept_fold
    | with_reducible apply kept_fold1
    | with_reducible apply kept_foldW
    | with_reducible apply kept_foldW1
    | with_reducible apply kept_foldH
    | with_reducible apply kept_foldH1
    | with_reducible refine kept_fst ?_ (by with_reducible assumption)
    | with_reducible refine kept_fstW ?_ (by with_reducible assumption)
    | with_reducible refine kept_fstH ?_ (by with_reducible assumption)
    | (simp only [↓kept_mk]; with_reducible refine kept_of ?_))

theorem State.cqWrite_kept {a0 : State} {a1 : Nat} {a2 : Bool → Bytes} (ha0 : (a0).kept qs u = true) :
    (@State.cqWrite a0 a1 a2).kept qs u = true := by
  unfold State.cqWrite
  try dsimp only
  repeat' (first
    | with_reducible assumption
    | with_reducible apply State.writeFor_kept
    | with_reducible apply State.haltAll_kept
    | with_reducible apply State.setRing_kept
    | with_reducible apply State.setRegN_kept
    | intro _
    | split
    | with_reducible apply kept_fold
    | with_reducible apply kept_fold1
    | with_reducible apply kept_foldW
    | with_reducible apply kept_foldW1
    | with_reducible apply kept_foldH
    | with_reducible apply kept_foldH1
    | with_reducible refine kept_fst ?_ (by with_reducible assumption)
    | with_reducible refine kept_fstW ?_ (by with_reducible assumption)
    | with_reducible refine kept_fstH ?_ (by with_reducible assumption)
    | (simp only [↓kept_mk]; with_reducible refine kept_of ?_))

theorem State.setUnit_kept {a0 : State} {a1 : Blk} {a2 : Nat} {a3 : UnitSt} (ha0 : (a0).kept qs u = true) :
    (@State.setUnit a0 a1 a2 a3).kept qs u = true := by
  unfold State.setUnit
  try dsimp only
  repeat' (first
    | with_reducible assumption
    | intro _
    | split
    | with_reducible apply kept_fold
    | with_reducible apply kept_fold1
    | with_reducible apply kept_foldW
    | with_reducible apply kept_foldW1
    | with_reducible apply kept_foldH
    | with_reducible apply kept_foldH1
    | with_reducible refine kept_fst ?_ (by with_reducible assumption)
    | with_reducible refine kept_fstW ?_ (by with_reducible assumption)
    | with_reducible refine kept_fstH ?_ (by with_reducible assumption)
    | (simp only [↓kept_mk]; with_reducible refine kept_of ?_))

theorem live_kept {a0 : State} {a1 : State → State} (ha0 : (a0).kept qs u = true) (ha1 : ∀ y0, (y0).kept qs u = true → (a1 y0).kept qs u = true) :
    ∀ t, @live a0 a1 = .next t → t.kept qs u = true := by
  intro t h
  simp only [live] at h
  split at h
  · cases h
  · split at h
    · cases h; exact ha1 _ ha0
    · cases h; exact ha0

theorem atPins_kept {a0 : State} {a1 : State → State} (ha0 : (a0).kept qs u = true) (ha1 : ∀ y0, (y0).kept qs u = true → (a1 y0).kept qs u = true) :
    ∀ t, @atPins a0 a1 = .next t → t.kept qs u = true := by
  intro t h
  simp only [atPins] at h
  split at h
  · cases h
  · cases h; exact ha1 _ ha0

theorem State.devErr_kept {a0 : State} (ha0 : (a0).kept qs u = true) :
    (@State.devErr a0).kept qs u = true := by
  unfold State.devErr
  try dsimp only
  repeat' (first
    | with_reducible assumption
    | with_reducible apply State.blkErr_kept
    | intro _
    | split
    | with_reducible apply kept_fold
    | with_reducible apply kept_fold1
    | with_reducible apply kept_foldW
    | with_reducible apply kept_foldW1
    | with_reducible apply kept_foldH
    | with_reducible apply kept_foldH1
    | with_reducible refine kept_fst ?_ (by with_reducible assumption)
    | with_reducible refine kept_fstW ?_ (by with_reducible assumption)
    | with_reducible refine kept_fstH ?_ (by with_reducible assumption)
    | (simp only [↓kept_mk]; with_reducible refine kept_of ?_))

theorem State.allow_kept {a0 : State} {a1 : Bool} {a2 : Nat} {a3 : State → State} (ha0 : (a0).kept qs u = true) (ha3 : ∀ y0, (y0).kept qs u = true → (a3 y0).kept qs u = true) :
    (@State.allow a0 a1 a2 a3).kept qs u = true := by
  unfold State.allow
  try dsimp only
  repeat' (first
    | with_reducible assumption
    | with_reducible apply State.devErr_kept
    | with_reducible apply State.blkErr_kept
    | with_reducible apply ha3
    | intro _
    | split
    | with_reducible apply kept_fold
    | with_reducible apply kept_fold1
    | with_reducible apply kept_foldW
    | with_reducible apply kept_foldW1
    | with_reducible apply kept_foldH
    | with_reducible apply kept_foldH1
    | with_reducible refine kept_fst ?_ (by with_reducible assumption)
    | with_reducible refine kept_fstW ?_ (by with_reducible assumption)
    | with_reducible refine kept_fstH ?_ (by with_reducible assumption)
    | (simp only [↓kept_mk]; with_reducible refine kept_of ?_))

theorem State.storeReg_kept {a0 : State} {a1 : Blk} {a2 : Nat} {a3 : Reg} {a4 : Nat} {a5 : Nat} (ha0 : (a0).kept qs u = true) :
    (@State.storeReg a0 a1 a2 a3 a4 a5).kept qs u = true := by
  unfold State.storeReg
  try dsimp only
  repeat' (first
    | with_reducible assumption
    | with_reducible apply State.modReg_kept
    | with_reducible apply State.setRegN_kept
    | with_reducible apply State.blkErr_kept
    | intro _
    | split
    | with_reducible apply kept_fold
    | with_reducible apply kept_fold1
    | with_reducible apply kept_foldW
    | with_reducible apply kept_foldW1
    | with_reducible apply kept_foldH
    | with_reducible apply kept_foldH1
    | with_reducible refine kept_fst ?_ (by with_reducible assumption)
    | with_reducible refine kept_fstW ?_ (by with_reducible assumption)
    | with_reducible refine kept_fstH ?_ (by with_reducible assumption)
    | (simp only [↓kept_mk]; with_reducible refine kept_of ?_))

end Sys2Proof.Machine
end

