-- ==== Sys2Proof/Laws/KeptOps.lean ====
section
/-! SUPPORT. What no command disturbs is kept. -/

namespace Sys2Proof.Machine

variable {qs : List Instr} {u : Bool}

theorem Work.start_kept {a0 : State} {a1 : Nat} {a2 : Bool} (ha0 : (a0).kept qs u = true) :
    (@Work.start a0 a1 a2).s.kept qs u = true := by
  unfold Work.start
  try dsimp only
  repeat' (first
    | with_reducible assumption
    | intro _
    | split
    | with_reducible apply kept_fold
    | with_reducible apply kept_fold1
    | with_reducible apply kept_foldW
    | with_reducible apply kept_foldW1
    | with_reducible apply kept_foldH
    | with_reducible apply kept_foldH1
    | with_reducible refine kept_fst ?_ (by with_reducible assumption)
    | with_reducible refine kept_fstW ?_ (by with_reducible assumption)
    | with_reducible refine kept_fstH ?_ (by with_reducible assumption)
    | (simp only [↓kept_mk]; with_reducible refine kept_of ?_))

theorem Work.fail_kept {a0 : Work} {a1 : Nat} {a2 : Nat} (ha0 : (a0).s.kept qs u = true) :
    (@Work.fail a0 a1 a2).s.kept qs u = true := by
  unfold Work.fail
  try dsimp only
  repeat' (first
    | with_reducible assumption
    | intro _
    | split
    | with_reducible apply kept_fold
    | with_reducible apply kept_fold1
    | with_reducible apply kept_foldW
    | with_reducible apply kept_foldW1
    | with_reducible apply kept_foldH
    | with_reducible apply kept_foldH1
    | with_reducible refine kept_fst ?_ (by with_reducible assumption)
    | with_reducible refine kept_fstW ?_ (by with_reducible assumption)
    | with_reducible refine kept_fstH ?_ (by with_reducible assumption)
    | (simp only [↓kept_mk]; with_reducible refine kept_of ?_))

theorem Work.onCommit_kept {a0 : Work} {a1 : Work → Work} (ha0 : (a0).s.kept qs u = true) (ha1 : ∀ y0, (y0).s.kept qs u = true → (a1 y0).s.kept qs u = true) :
    (@Work.onCommit a0 a1).s.kept qs u = true := by
  unfold Work.onCommit
  try dsimp only
  repeat' (first
    | with_reducible assumption
    | with_reducible apply ha1
    | intro _
    | split
    | with_reducible apply kept_fold
    | with_reducible apply kept_fold1
    | with_reducible apply kept_foldW
    | with_reducible apply kept_foldW1
    | with_reducible apply kept_foldH
    | with_reducible apply kept_foldH1
    | with_reducible refine kept_fst ?_ (by with_reducible assumption)
    | with_reducible refine kept_fstW ?_ (by with_reducible assumption)
    | with_reducible refine kept_fstH ?_ (by with_reducible assumption)
    | (simp only [↓kept_mk]; with_reducible refine kept_of ?_))

theorem Work.emit_kept {a0 : Work} {a1 : Nat} {a2 : Bytes} (ha0 : (a0).s.kept qs u = true) :
    (@Work.emit a0 a1 a2).s.kept qs u = true := by
  unfold Work.emit
  try dsimp only
  repeat' (first
    | with_reducible assumption
    | intro _
    | split
    | with_reducible apply kept_fold
    | with_reducible apply kept_fold1
    | with_reducible apply kept_foldW
    | with_reducible apply kept_foldW1
    | with_reducible apply kept_foldH
    | with_reducible apply kept_foldH1
    | with_reducible refine kept_fst ?_ (by with_reducible assumption)
    | with_reducible refine kept_fstW ?_ (by with_reducible assumption)
    | with_reducible refine kept_fstH ?_ (by with_reducible assumption)
    | (simp only [↓kept_mk]; with_reducible refine kept_of ?_))

theorem Work.mapS_kept {a0 : Work} {a1 : State → State} (ha0 : (a0).s.kept qs u = true) (ha1 : ∀ y0, (y0).kept qs u = true → (a1 y0).kept qs u = true) :
    (@Work.mapS a0 a1).s.kept qs u = true := by
  unfold Work.mapS
  try dsimp only
  repeat' (first
    | with_reducible assumption
    | with_reducible apply ha1
    | intro _
    | split
    | with_reducible apply kept_fold
    | with_reducible apply kept_fold1
    | with_reducible apply kept_foldW
    | with_reducible apply kept_foldW1
    | with_reducible apply kept_foldH
    | with_reducible apply kept_foldH1
    | with_reducible refine kept_fst ?_ (by with_reducible assumption)
    | with_reducible refine kept_fstW ?_ (by with_reducible assumption)
    | with_reducible refine kept_fstH ?_ (by with_reducible assumption)
    | (simp only [↓kept_mk]; with_reducible refine kept_of ?_))

theorem Work.andThen_kept {a0 : Work} {a1 : Work → Work} (ha0 : (a0).s.kept qs u = true) (ha1 : ∀ y0, (y0).s.kept qs u = true → (a1 y0).s.kept qs u = true) :
    (@Work.andThen a0 a1).s.kept qs u = true := by
  unfold Work.andThen
  try dsimp only
  repeat' (first
    | with_reducible assumption
    | with_reducible apply ha1
    | intro _
    | split
    | with_reducible apply kept_fold
    | with_reducible apply kept_fold1
    | with_reducible apply kept_foldW
    | with_reducible apply kept_foldW1
    | with_reducible apply kept_foldH
    | with_reducible apply kept_foldH1
    | with_reducible refine kept_fst ?_ (by with_reducible assumption)
    | with_reducible refine kept_fstW ?_ (by with_reducible assumption)
    | with_reducible refine kept_fstH ?_ (by with_reducible assumption)
    | (simp only [↓kept_mk]; with_reducible refine kept_of ?_))

theorem Work.each_kept {a0 : Type} {a1 : Work} {a2 : List a0} {a3 : Work → a0 → Work} (ha1 : (a1).s.kept qs u = true) (ha3 : ∀ y0 y1, (y0).s.kept qs u = true → (a3 y0 y1).s.kept qs u = true) :
    (@Work.each a0 a1 a2 a3).s.kept qs u = true := by
  unfold Work.each
  try dsimp only
  repeat' (first
    | with_reducible assumption
    | with_reducible apply ha3
    | intro _
    | split
    | with_reducible apply kept_fold
    | with_reducible apply kept_fold1
    | with_reducible apply kept_foldW
    | with_reducible apply kept_foldW1
    | with_reducible apply kept_foldH
    | with_reducible apply kept_foldH1
    | with_reducible refine kept_fst ?_ (by with_reducible assumption)
    | with_reducible refine kept_fstW ?_ (by with_reducible assumption)
    | with_reducible refine kept_fstH ?_ (by with_reducible assumption)
    | (simp only [↓kept_mk]; with_reducible refine kept_of ?_))

theorem Work.collect_kept {a0 : Type} {a1 : Type} {a2 : Work} {a3 : List a0} {a4 : Work → a0 → Work × a1} (ha2 : (a2).s.kept qs u = true) (ha4 : ∀ y0 y1, (y0).s.kept qs u = true → (a4 y0 y1).1.s.kept qs u = true) :
    (@Work.collect a0 a1 a2 a3 a4).1.s.kept qs u = true := by
  unfold Work.collect
  try dsimp only
  repeat' (first
    | with_reducible assumption
    | with_reducible apply ha4
    | intro _
    | split
    | with_reducible apply kept_fold
    | with_reducible apply kept_fold1
    | with_reducible apply kept_foldW
    | with_reducible apply kept_foldW1
    | with_reducible apply kept_foldH
    | with_reducible apply kept_foldH1
    | with_reducible refine kept_fst ?_ (by with_reducible assumption)
    | with_reducible refine kept_fstW ?_ (by with_reducible assumption)
    | with_reducible refine kept_fstH ?_ (by with_reducible assumption)
    | (simp only [↓kept_mk]; with_reducible refine kept_of ?_))

theorem Work.needLocal_kept {a0 : Work} {a1 : Nat} (ha0 : (a0).s.kept qs u = true) :
    (@Work.needLocal a0 a1).s.kept qs u = true := by
  unfold Work.needLocal
  try dsimp only
  repeat' (first
    | with_reducible assumption
    | with_reducible apply Work.fail_kept
    | intro _
    | split
    | with_reducible apply kept_fold
    | with_reducible apply kept_fold1
    | with_reducible apply kept_foldW
    | with_reducible apply kept_foldW1
    | with_reducible apply kept_foldH
    | with_reducible apply kept_foldH1
    | with_reducible refine kept_fst ?_ (by with_reducible assumption)
    | with_reducible refine kept_fstW ?_ (by with_reducible assumption)
    | with_reducible refine kept_fstH ?_ (by with_reducible assumption)
    | (simp only [↓kept_mk]; with_reducible refine kept_of ?_))

theorem Work.read_kept {a0 : Work} {a1 : Nat} {a2 : Nat} (ha0 : (a0).s.kept qs u = true) :
    (@Work.read a0 a1 a2).1.s.kept qs u = true := by
  unfold Work.read
  try dsimp only
  repeat' (first
    | with_reducible assumption
    | with_reducible apply Work.fail_kept
    | with_reducible apply State.readFor_kept
    | intro _
    | split
    | with_reducible apply kept_fold
    | with_reducible apply kept_fold1
    | with_reducible apply kept_foldW
    | with_reducible apply kept_foldW1
    | with_reducible apply kept_foldH
    | with_reducible apply kept_foldH1
    | with_reducible refine kept_fst ?_ (by with_reducible assumption)
    | with_reducible refine kept_fstW ?_ (by with_reducible assumption)
    | with_reducible refine kept_fstH ?_ (by with_reducible assumption)
    | (simp only [↓kept_mk]; with_reducible refine kept_of ?_))

theorem Work.writeRun_kept {a0 : Work} {a1 : Nat} {a2 : Tier} {a3 : Nat} {a4 : Bytes} (ha0 : (a0).s.kept qs u = true) :
    (@Work.writeRun a0 a1 a2 a3 a4).s.kept qs u = true := by
  unfold Work.writeRun
  try dsimp only
  repeat' (first
    | with_reducible assumption
    | with_reducible apply State.access_kept
    | with_reducible apply Work.fail_kept
    | intro _
    | split
    | with_reducible apply kept_fold
    | with_reducible apply kept_fold1
    | with_reducible apply kept_foldW
    | with_reducible apply kept_foldW1
    | with_reducible apply kept_foldH
    | with_reducible apply kept_foldH1
    | with_reducible refine kept_fst ?_ (by with_reducible assumption)
    | with_reducible refine kept_fstW ?_ (by with_reducible assumption)
    | with_reducible refine kept_fstH ?_ (by with_reducible assumption)
    | (simp only [↓kept_mk]; with_reducible refine kept_of ?_))

theorem Work.write_kept {a0 : Work} {a1 : Nat} {a2 : Bytes} (ha0 : (a0).s.kept qs u = true) :
    (@Work.write a0 a1 a2).s.kept qs u = true := by
  unfold Work.write
  try dsimp only
  repeat' (first
    | with_reducible assumption
    | with_reducible apply Work.fail_kept
    | with_reducible apply Work.writeRun_kept
    | intro _
    | split
    | with_reducible apply kept_fold
    | with_reducible apply kept_fold1
    | with_reducible apply kept_foldW
    | with_reducible apply kept_foldW1
    | with_reducible apply kept_foldH
    | with_reducible apply kept_foldH1
    | with_reducible refine kept_fst ?_ (by with_reducible assumption)
    | with_reducible refine kept_fstW ?_ (by with_reducible assumption)
    | with_reducible refine kept_fstH ?_ (by with_reducible assumption)
    | (simp only [↓kept_mk]; with_reducible refine kept_of ?_))

theorem Work.writeLate_kept {a0 : Work} {a1 : Nat} {a2 : Bytes} (ha0 : (a0).s.kept qs u = true) :
    (@Work.writeLate a0 a1 a2).s.kept qs u = true := by
  unfold Work.writeLate
  try dsimp only
  repeat' (first
    | with_reducible assumption
    | with_reducible apply Work.write_kept
    | intro _
    | split
    | with_reducible apply kept_fold
    | with_reducible apply kept_fold1
    | with_reducible apply kept_foldW
    | with_reducible apply kept_foldW1
    | with_reducible apply kept_foldH
    | with_reducible apply kept_foldH1
    | with_reducible refine kept_fst ?_ (by with_reducible assumption)
    | with_reducible refine kept_fstW ?_ (by with_reducible assumption)
    | with_reducible refine kept_fstH ?_ (by with_reducible assumption)
    | (simp only [↓kept_mk]; with_reducible refine kept_of ?_))

theorem Work.openOutputs_kept {a0 : Work} {a1 : Bool} (ha0 : (a0).s.kept qs u = true) :
    (@Work.openOutputs a0 a1).s.kept qs u = true := by
  unfold Work.openOutputs
  try dsimp only
  repeat' (first
    | with_reducible assumption
    | with_reducible apply State.tick_kept
    | intro _
    | split
    | with_reducible apply kept_fold
    | with_reducible apply kept_fold1
    | with_reducible apply kept_foldW
    | with_reducible apply kept_foldW1
    | with_reducible apply kept_foldH
    | with_reducible apply kept_foldH1
    | with_reducible refine kept_fst ?_ (by with_reducible assumption)
    | with_reducible refine kept_fstW ?_ (by with_reducible assumption)
    | with_reducible refine kept_fstH ?_ (by with_reducible assumption)
    | (simp only [↓kept_mk]; with_reducible refine kept_of ?_))

theorem Work.openLate_kept {a0 : Work} {a1 : Bool} (ha0 : (a0).s.kept qs u = true) :
    (@Work.openLate a0 a1).s.kept qs u = true := by
  unfold Work.openLate
  try dsimp only
  repeat' (first
    | with_reducible assumption
    | with_reducible apply Work.openOutputs_kept
    | intro _
    | split
    | with_reducible apply kept_fold
    | with_reducible apply kept_fold1
    | with_reducible apply kept_foldW
    | with_reducible apply kept_foldW1
    | with_reducible apply kept_foldH
    | with_reducible apply kept_foldH1
    | with_reducible refine kept_fst ?_ (by with_reducible assumption)
    | with_reducible refine kept_fstW ?_ (by with_reducible assumption)
    | with_reducible refine kept_fstH ?_ (by with_reducible assumption)
    | (simp only [↓kept_mk]; with_reducible refine kept_of ?_))

theorem Work.apply_kept {a0 : Work} (ha0 : (a0).s.kept qs u = true) :
    (@Work.apply a0).kept qs u = true := by
  unfold Work.apply
  try dsimp only
  repeat' (first
    | with_reducible assumption
    | with_reducible apply State.writePhys_kept
    | intro _
    | split
    | with_reducible apply kept_fold
    | with_reducible apply kept_fold1
    | with_reducible apply kept_foldW
    | with_reducible apply kept_foldW1
    | with_reducible apply kept_foldH
    | with_reducible apply kept_foldH1
    | with_reducible refine kept_fst ?_ (by with_reducible assumption)
    | with_reducible refine kept_fstW ?_ (by with_reducible assumption)
    | with_reducible refine kept_fstH ?_ (by with_reducible assumption)
    | (simp only [↓kept_mk]; with_reducible refine kept_of ?_))

theorem Work.applySome_kept {a0 : Work} (ha0 : (a0).s.kept qs u = true) :
    (@Work.applySome a0).kept qs u = true := by
  unfold Work.applySome
  try dsimp only
  repeat' (first
    | with_reducible assumption
    | with_reducible apply State.writePhys_kept
    | with_reducible apply State.tick_kept
    | intro _
    | split
    | with_reducible apply kept_fold
    | with_reducible apply kept_fold1
    | with_reducible apply kept_foldW
    | with_reducible apply kept_foldW1
    | with_reducible apply kept_foldH
    | with_reducible apply kept_foldH1
    | with_reducible refine kept_fst ?_ (by with_reducible assumption)
    | with_reducible refine kept_fstW ?_ (by with_reducible assumption)
    | with_reducible refine kept_fstH ?_ (by with_reducible assumption)
    | (simp only [↓kept_mk]; with_reducible refine kept_of ?_))

theorem Work.checkFields_kept {a0 : Work} {a1 : List (Bool × Nat)} (ha0 : (a0).s.kept qs u = true) :
    (@Work.checkFields a0 a1).s.kept qs u = true := by
  unfold Work.checkFields
  try dsimp only
  repeat' (first
    | with_reducible assumption
    | with_reducible apply Work.fail_kept
    | intro _
    | split
    | with_reducible apply kept_fold
    | with_reducible apply kept_fold1
    | with_reducible apply kept_foldW
    | with_reducible apply kept_foldW1
    | with_reducible apply kept_foldH
    | with_reducible apply kept_foldH1
    | with_reducible refine kept_fst ?_ (by with_reducible assumption)
    | with_reducible refine kept_fstW ?_ (by with_reducible assumption)
    | with_reducible refine kept_fstH ?_ (by with_reducible assumption)
    | (simp only [↓kept_mk]; with_reducible refine kept_of ?_))

theorem Work.readRows_kept {a0 : Work} {a1 : Nat} {a2 : Nat} {a3 : Nat} {a4 : Nat} {a5 : Nat} {a6 : Nat} {a7 : Nat} (ha0 : (a0).s.kept qs u = true) :
    (@Work.readRows a0 a1 a2 a3 a4 a5 a6 a7).1.s.kept qs u = true := by
  unfold Work.readRows
  try dsimp only
  repeat' (first
    | with_reducible assumption
    | with_reducible apply Work.collect_kept
    | with_reducible apply Work.read_kept
    | intro _
    | split
    | with_reducible apply kept_fold
    | with_reducible apply kept_fold1
    | with_reducible apply kept_foldW
    | with_reducible apply kept_foldW1
    | with_reducible apply kept_foldH
    | with_reducible apply kept_foldH1
    | with_reducible refine kept_fst ?_ (by with_reducible assumption)
    | with_reducible refine kept_fstW ?_ (by with_reducible assumption)
    | with_reducible refine kept_fstH ?_ (by with_reducible assumption)
    | (simp only [↓kept_mk]; with_reducible refine kept_of ?_))

theorem Work.ssrStart_kept {a0 : Work} {a1 : Nat} {a2 : Nat → Bool} (ha0 : (a0).s.kept qs u = true) :
    (@Work.ssrStart a0 a1 a2).1.s.kept qs u = true := by
  unfold Work.ssrStart
  try dsimp only
  repeat' (first
    | with_reducible assumption
    | with_reducible apply Work.read_kept
    | with_reducible apply Work.fail_kept
    | intro _
    | split
    | with_reducible apply kept_fold
    | with_reducible apply kept_fold1
    | with_reducible apply kept_foldW
    | with_reducible apply kept_foldW1
    | with_reducible apply kept_foldH
    | with_reducible apply kept_foldH1
    | with_reducible refine kept_fst ?_ (by with_reducible assumption)
    | with_reducible refine kept_fstW ?_ (by with_reducible assumption)
    | with_reducible refine kept_fstH ?_ (by with_reducible assumption)
    | (simp only [↓kept_mk]; with_reducible refine kept_of ?_))

theorem Work.ssrFinish_kept {a0 : Work} {a1 : Ssr} (ha0 : (a0).s.kept qs u = true) :
    (@Work.ssrFinish a0 a1).s.kept qs u = true := by
  unfold Work.ssrFinish
  try dsimp only
  repeat' (first
    | with_reducible assumption
    | with_reducible apply Work.onCommit_kept
    | with_reducible apply Work.writeLate_kept
    | intro _
    | split
    | with_reducible apply kept_fold
    | with_reducible apply kept_fold1
    | with_reducible apply kept_foldW
    | with_reducible apply kept_foldW1
    | with_reducible apply kept_foldH
    | with_reducible apply kept_foldH1
    | with_reducible refine kept_fst ?_ (by with_reducible assumption)
    | with_reducible refine kept_fstW ?_ (by with_reducible assumption)
    | with_reducible refine kept_fstH ?_ (by with_reducible assumption)
    | (simp only [↓kept_mk]; with_reducible refine kept_of ?_))

theorem State.putFlight_kept {a0 : State} {a1 : Flight} (ha0 : (a0).kept qs u = true) :
    (@State.putFlight a0 a1).kept qs u = true := by
  unfold State.putFlight
  try dsimp only
  repeat' (first
    | with_reducible assumption
    | intro _
    | split
    | with_reducible apply kept_fold
    | with_reducible apply kept_fold1
    | with_reducible apply kept_foldW
    | with_reducible apply kept_foldW1
    | with_reducible apply kept_foldH
    | with_reducible apply kept_foldH1
    | with_reducible refine kept_fst ?_ (by with_reducible assumption)
    | with_reducible refine kept_fstW ?_ (by with_reducible assumption)
    | with_reducible refine kept_fstH ?_ (by with_reducible assumption)
    | (simp only [↓kept_mk]; with_reducible refine kept_of ?_))

theorem State.dropFlight_kept {a0 : State} {a1 : Nat} (ha0 : (a0).kept qs u = true) :
    (@State.dropFlight a0 a1).kept qs u = true := by
  unfold State.dropFlight
  try dsimp only
  repeat' (first
    | with_reducible assumption
    | intro _
    | split
    | with_reducible apply kept_fold
    | with_reducible apply kept_fold1
    | with_reducible apply kept_foldW
    | with_reducible apply kept_foldW1
    | with_reducible apply kept_foldH
    | with_reducible apply kept_foldH1
    | with_reducible refine kept_fst ?_ (by with_reducible assumption)
    | with_reducible refine kept_fstW ?_ (by with_reducible assumption)
    | with_reducible refine kept_fstH ?_ (by with_reducible assumption)
    | (simp only [↓kept_mk]; with_reducible refine kept_of ?_))

theorem State.onFlight_kept {a0 : State} {a1 : Nat} {a2 : Flight → State → State} (ha0 : (a0).kept qs u = true) (ha2 : ∀ y0 y1, (y1).kept qs u = true → (a2 y0 y1).kept qs u = true) :
    (@State.onFlight a0 a1 a2).kept qs u = true := by
  unfold State.onFlight
  try dsimp only
  repeat' (first
    | with_reducible assumption
    | with_reducible apply ha2
    | intro _
    | split
    | with_reducible apply kept_fold
    | with_reducible apply kept_fold1
    | with_reducible apply kept_foldW
    | with_reducible apply kept_foldW1
    | with_reducible apply kept_foldH
    | with_reducible apply kept_foldH1
    | with_reducible refine kept_fst ?_ (by with_reducible assumption)
    | with_reducible refine kept_fstW ?_ (by with_reducible assumption)
    | with_reducible refine kept_fstH ?_ (by with_reducible assumption)
    | (simp only [↓kept_mk]; with_reducible refine kept_of ?_))

theorem Work.settle_kept {a0 : Work} {a1 : Flight} (ha0 : (a0).s.kept qs u = true) :
    (@Work.settle a0 a1).kept qs u = true := by
  unfold Work.settle
  try dsimp only
  repeat' (first
    | with_reducible assumption
    | with_reducible apply Work.applySome_kept
    | with_reducible apply Work.apply_kept
    | with_reducible apply State.putFlight_kept
    | intro _
    | split
    | with_reducible apply kept_fold
    | with_reducible apply kept_fold1
    | with_reducible apply kept_foldW
    | with_reducible apply kept_foldW1
    | with_reducible apply kept_foldH
    | with_reducible apply kept_foldH1
    | with_reducible refine kept_fst ?_ (by with_reducible assumption)
    | with_reducible refine kept_fstW ?_ (by with_reducible assumption)
    | with_reducible refine kept_fstH ?_ (by with_reducible assumption)
    | (simp only [↓kept_mk]; with_reducible refine kept_of ?_))

theorem State.runFlight_kept {a0 : State} {a1 : Nat} {a2 : Nat} {a3 : Nat} {a4 : Flight → Bool} {a5 : Flight → Work → Work} (ha0 : (a0).kept qs u = true) (ha5 : ∀ y0 y1, (y1).s.kept qs u = true → (a5 y0 y1).s.kept qs u = true) :
    (@State.runFlight a0 a1 a2 a3 a4 a5).kept qs u = true := by
  unfold State.runFlight
  try dsimp only
  repeat' (first
    | with_reducible assumption
    | with_reducible apply State.onFlight_kept
    | with_reducible apply Work.settle_kept
    | with_reducible apply Work.start_kept
    | with_reducible apply ha5
    | intro _
    | split
    | with_reducible apply kept_fold
    | with_reducible apply kept_fold1
    | with_reducible apply kept_foldW
    | with_reducible apply kept_foldW1
    | with_reducible apply kept_foldH
    | with_reducible apply kept_foldH1
    | with_reducible refine kept_fst ?_ (by with_reducible assumption)
    | with_reducible refine kept_fstW ?_ (by with_reducible assumption)
    | with_reducible refine kept_fstH ?_ (by with_reducible assumption)
    | (simp only [↓kept_mk]; with_reducible refine kept_of ?_))

theorem State.endEarly_kept {a0 : State} {a1 : Nat} {a2 : Nat} {a3 : Tier} {a4 : Nat} (ha0 : (a0).kept qs u = true) :
    (@State.endEarly a0 a1 a2 a3 a4).kept qs u = true := by
  unfold State.endEarly
  try dsimp only
  repeat' (first
    | with_reducible assumption
    | with_reducible apply State.onFlight_kept
    | with_reducible apply State.putFlight_kept
    | intro _
    | split
    | with_reducible apply kept_fold
    | with_reducible apply kept_fold1
    | with_reducible apply kept_foldW
    | with_reducible apply kept_foldW1
    | with_reducible apply kept_foldH
    | with_reducible apply kept_foldH1
    | with_reducible refine kept_fst ?_ (by with_reducible assumption)
    | with_reducible refine kept_fstW ?_ (by with_reducible assumption)
    | with_reducible refine kept_fstH ?_ (by with_reducible assumption)
    | (simp only [↓kept_mk]; with_reducible refine kept_of ?_))

theorem State.stall_kept {a0 : State} {a1 : Nat} {a2 : Nat} (ha0 : (a0).kept qs u = true) :
    (@State.stall a0 a1 a2).kept qs u = true := by
  unfold State.stall
  try dsimp only
  repeat' (first
    | with_reducible assumption
    | with_reducible apply State.tick_kept
    | with_reducible apply State.count_kept
    | intro _
    | split
    | with_reducible apply kept_fold
    | with_reducible apply kept_fold1
    | with_reducible apply kept_foldW
    | with_reducible apply kept_foldW1
    | with_reducible apply kept_foldH
    | with_reducible apply kept_foldH1
    | with_reducible refine kept_fst ?_ (by with_reducible assumption)
    | with_reducible refine kept_fstW ?_ (by with_reducible assumption)
    | with_reducible refine kept_fstH ?_ (by with_reducible assumption)
    | (simp only [↓kept_mk]; with_reducible refine kept_of ?_))

theorem Work.tally_kept {a0 : Work} {a1 : Nat} {a2 : Nat} (ha0 : (a0).s.kept qs u = true) :
    (@Work.tally a0 a1 a2).s.kept qs u = true := by
  unfold Work.tally
  try dsimp only
  repeat' (first
    | with_reducible assumption
    | with_reducible apply Work.mapS_kept
    | with_reducible apply State.tick_kept
    | with_reducible apply State.count_kept
    | intro _
    | split
    | with_reducible apply kept_fold
    | with_reducible apply kept_fold1
    | with_reducible apply kept_foldW
    | with_reducible apply kept_foldW1
    | with_reducible apply kept_foldH
    | with_reducible apply kept_foldH1
    | with_reducible refine kept_fst ?_ (by with_reducible assumption)
    | with_reducible refine kept_fstW ?_ (by with_reducible assumption)
    | with_reducible refine kept_fstH ?_ (by with_reducible assumption)
    | (simp only [↓kept_mk]; with_reducible refine kept_of ?_))

theorem Work.stalled_kept {a0 : Work} {a1 : Nat} {a2 : Nat} (ha0 : (a0).s.kept qs u = true) :
    (@Work.stalled a0 a1 a2).s.kept qs u = true := by
  unfold Work.stalled
  try dsimp only
  repeat' (first
    | with_reducible assumption
    | with_reducible apply Work.mapS_kept
    | with_reducible apply State.stall_kept
    | intro _
    | split
    | with_reducible apply kept_fold
    | with_reducible apply kept_fold1
    | with_reducible apply kept_foldW
    | with_reducible apply kept_foldW1
    | with_reducible apply kept_foldH
    | with_reducible apply kept_foldH1
    | with_reducible refine kept_fst ?_ (by with_reducible assumption)
    | with_reducible refine kept_fstW ?_ (by with_reducible assumption)
    | with_reducible refine kept_fstH ?_ (by with_reducible assumption)
    | (simp only [↓kept_mk]; with_reducible refine kept_of ?_))

theorem State.waited_kept {a0 : State} {a1 : Flight} (ha0 : (a0).kept qs u = true) :
    (@State.waited a0 a1).kept qs u = true := by
  unfold State.waited
  try dsimp only
  repeat' (first
    | with_reducible assumption
    | with_reducible apply State.stall_kept
    | intro _
    | split
    | with_reducible apply kept_fold
    | with_reducible apply kept_fold1
    | with_reducible apply kept_foldW
    | with_reducible apply kept_foldW1
    | with_reducible apply kept_foldH
    | with_reducible apply kept_foldH1
    | with_reducible refine kept_fst ?_ (by with_reducible assumption)
    | with_reducible refine kept_fstW ?_ (by with_reducible assumption)
    | with_reducible refine kept_fstH ?_ (by with_reducible assumption)
    | (simp only [↓kept_mk]; with_reducible refine kept_of ?_))

theorem State.begin_kept {a0 : State} {a1 : Flight} {a2 : Flight → Work → Work × Started} (ha0 : (a0).kept qs u = true) (ha2 : ∀ y0 y1, (y1).s.kept qs u = true → (a2 y0 y1).1.s.kept qs u = true) :
    (@State.begin a0 a1 a2).kept qs u = true := by
  unfold State.begin
  try dsimp only
  repeat' (first
    | with_reducible assumption
    | with_reducible apply Work.start_kept
    | with_reducible apply State.waited_kept
    | with_reducible apply State.putFlight_kept
    | with_reducible apply ha2
    | intro _
    | split
    | with_reducible apply kept_fold
    | with_reducible apply kept_fold1
    | with_reducible apply kept_foldW
    | with_reducible apply kept_foldW1
    | with_reducible apply kept_foldH
    | with_reducible apply kept_foldH1
    | with_reducible refine kept_fst ?_ (by with_reducible assumption)
    | with_reducible refine kept_fstW ?_ (by with_reducible assumption)
    | with_reducible refine kept_fstH ?_ (by with_reducible assumption)
    | (simp only [↓kept_mk]; with_reducible refine kept_of ?_))

theorem State.runStarted_kept {a0 : State} {a1 : Nat} {a2 : Nat} {a3 : Nat} {a4 : Flight → Work → Work × Started} {a5 : Flight → Work → Work} (ha0 : (a0).kept qs u = true) (ha4 : ∀ y0 y1, (y1).s.kept qs u = true → (a4 y0 y1).1.s.kept qs u = true) (ha5 : ∀ y0 y1, (y1).s.kept qs u = true → (a5 y0 y1).s.kept qs u = true) :
    (@State.runStarted a0 a1 a2 a3 a4 a5).kept qs u = true := by
  unfold State.runStarted
  try dsimp only
  repeat' (first
    | with_reducible assumption
    | with_reducible apply State.onFlight_kept
    | with_reducible apply State.begin_kept
    | with_reducible apply Work.settle_kept
    | with_reducible apply Work.start_kept
    | with_reducible apply ha4
    | with_reducible apply ha5
    | intro _
    | split
    | with_reducible apply kept_fold
    | with_reducible apply kept_fold1
    | with_reducible apply kept_foldW
    | with_reducible apply kept_foldW1
    | with_reducible apply kept_foldH
    | with_reducible apply kept_foldH1
    | with_reducible refine kept_fst ?_ (by with_reducible assumption)
    | with_reducible refine kept_fstW ?_ (by with_reducible assumption)
    | with_reducible refine kept_fstH ?_ (by with_reducible assumption)
    | (simp only [↓kept_mk]; with_reducible refine kept_of ?_))

theorem State.setTensor_kept {a0 : State} {a1 : Nat} {a2 : Tensor} (ha0 : (a0).kept qs u = true) :
    (@State.setTensor a0 a1 a2).kept qs u = true := by
  unfold State.setTensor
  try dsimp only
  repeat' (first
    | with_reducible assumption
    | intro _
    | split
    | with_reducible apply kept_fold
    | with_reducible apply kept_fold1
    | with_reducible apply kept_foldW
    | with_reducible apply kept_foldW1
    | with_reducible apply kept_foldH
    | with_reducible apply kept_foldH1
    | with_reducible refine kept_fst ?_ (by with_reducible assumption)
    | with_reducible refine kept_fstW ?_ (by with_reducible assumption)
    | with_reducible refine kept_fstH ?_ (by with_reducible assumption)
    | (simp only [↓kept_mk]; with_reducible refine kept_of ?_))

theorem State.poisonTensor_kept {a0 : State} {a1 : Nat} (ha0 : (a0).kept qs u = true) :
    (@State.poisonTensor a0 a1).kept qs u = true := by
  unfold State.poisonTensor
  try dsimp only
  repeat' (first
    | with_reducible assumption
    | with_reducible apply State.setTensor_kept
    | with_reducible apply State.setRegN_kept
    | with_reducible apply State.event_kept
    | intro _
    | split
    | with_reducible apply kept_fold
    | with_reducible apply kept_fold1
    | with_reducible apply kept_foldW
    | with_reducible apply kept_foldW1
    | with_reducible apply kept_foldH
    | with_reducible apply kept_foldH1
    | with_reducible refine kept_fst ?_ (by with_reducible assumption)
    | with_reducible refine kept_fstW ?_ (by with_reducible assumption)
    | with_reducible refine kept_fstH ?_ (by with_reducible assumption)
    | (simp only [↓kept_mk]; with_reducible refine kept_of ?_))

theorem State.poisonLine_kept {a0 : State} {a1 : Tier} {a2 : Nat} (ha0 : (a0).kept qs u = true) :
    (@State.poisonLine a0 a1 a2).kept qs u = true := by
  unfold State.poisonLine
  try dsimp only
  repeat' (first
    | with_reducible assumption
    | with_reducible apply State.poison_kept
    | with_reducible apply State.poisonTensor_kept
    | intro _
    | split
    | with_reducible apply kept_fold
    | with_reducible apply kept_fold1
    | with_reducible apply kept_foldW
    | with_reducible apply kept_foldW1
    | with_reducible apply kept_foldH
    | with_reducible apply kept_foldH1
    | with_reducible refine kept_fst ?_ (by with_reducible assumption)
    | with_reducible refine kept_fstW ?_ (by with_reducible assumption)
    | with_reducible refine kept_fstH ?_ (by with_reducible assumption)
    | (simp only [↓kept_mk]; with_reducible refine kept_of ?_))

theorem State.blkEvent_kept {a0 : State} {a1 : Blk} {a2 : Nat} {a3 : Nat} {a4 : Event} (ha0 : (a0).kept qs u = true) :
    (@State.blkEvent a0 a1 a2 a3 a4).kept qs u = true := by
  unfold State.blkEvent
  try dsimp only
  repeat' (first
    | with_reducible assumption
    | with_reducible apply State.blkErr_kept
    | with_reducible apply State.pfEvent_kept
    | intro _
    | split
    | with_reducible apply kept_fold
    | with_reducible apply kept_fold1
    | with_reducible apply kept_foldW
    | with_reducible apply kept_foldW1
    | with_reducible apply kept_foldH
    | with_reducible apply kept_foldH1
    | with_reducible refine kept_fst ?_ (by with_reducible assumption)
    | with_reducible refine kept_fstW ?_ (by with_reducible assumption)
    | with_reducible refine kept_fstH ?_ (by with_reducible assumption)
    | (simp only [↓kept_mk]; with_reducible refine kept_of ?_))

theorem State.unitRetired_kept {a0 : State} {a1 : Blk} {a2 : Nat} {a3 : Nat} {a4 : Nat} (ha0 : (a0).kept qs u = true) :
    (@State.unitRetired a0 a1 a2 a3 a4).kept qs u = true := by
  unfold State.unitRetired
  try dsimp only
  repeat' (first
    | with_reducible assumption
    | with_reducible apply State.blkEvent_kept
    | intro _
    | split
    | with_reducible apply kept_fold
    | with_reducible apply kept_fold1
    | with_reducible apply kept_foldW
    | with_reducible apply kept_foldW1
    | with_reducible apply kept_foldH
    | with_reducible apply kept_foldH1
    | with_reducible refine kept_fst ?_ (by with_reducible assumption)
    | with_reducible refine kept_fstW ?_ (by with_reducible assumption)
    | with_reducible refine kept_fstH ?_ (by with_reducible assumption)
    | (simp only [↓kept_mk]; with_reducible refine kept_of ?_))

theorem State.noSpare_kept {a0 : State} {a1 : Blk} {a2 : Nat} {a3 : Nat} {a4 : Nat} (ha0 : (a0).kept qs u = true) :
    (@State.noSpare a0 a1 a2 a3 a4).kept qs u = true := by
  unfold State.noSpare
  try dsimp only
  repeat' (first
    | with_reducible assumption
    | with_reducible apply State.blkEvent_kept
    | intro _
    | split
    | with_reducible apply kept_fold
    | with_reducible apply kept_fold1
    | with_reducible apply kept_foldW
    | with_reducible apply kept_foldW1
    | with_reducible apply kept_foldH
    | with_reducible apply kept_foldH1
    | with_reducible refine kept_fst ?_ (by with_reducible assumption)
    | with_reducible refine kept_fstW ?_ (by with_reducible assumption)
    | with_reducible refine kept_fstH ?_ (by with_reducible assumption)
    | (simp only [↓kept_mk]; with_reducible refine kept_of ?_))

theorem State.leak_kept {a0 : State} {a1 : Blk} {a2 : Nat} (ha0 : (a0).kept qs u = true) :
    (@State.leak a0 a1 a2).1.kept qs u = true := by
  unfold State.leak
  try dsimp only
  repeat' (first
    | with_reducible assumption
    | with_reducible apply State.blkErr_kept
    | with_reducible apply State.setField_kept
    | intro _
    | split
    | with_reducible apply kept_fold
    | with_reducible apply kept_fold1
    | with_reducible apply kept_foldW
    | with_reducible apply kept_foldW1
    | with_reducible apply kept_foldH
    | with_reducible apply kept_foldH1
    | with_reducible refine kept_fst ?_ (by with_reducible assumption)
    | with_reducible refine kept_fstW ?_ (by with_reducible assumption)
    | with_reducible refine kept_fstH ?_ (by with_reducible assumption)
    | (simp only [↓kept_mk]; with_reducible refine kept_of ?_))

theorem State.uncorrectable_kept {a0 : State} {a1 : Blk} {a2 : Nat} (ha0 : (a0).kept qs u = true) :
    (@State.uncorrectable a0 a1 a2).kept qs u = true := by
  unfold State.uncorrectable
  try dsimp only
  repeat' (first
    | with_reducible assumption
    | with_reducible apply State.blkErr_kept
    | with_reducible apply State.setField_kept
    | intro _
    | split
    | with_reducible apply kept_fold
    | with_reducible apply kept_fold1
    | with_reducible apply kept_foldW
    | with_reducible apply kept_foldW1
    | with_reducible apply kept_foldH
    | with_reducible apply kept_foldH1
    | with_reducible refine kept_fst ?_ (by with_reducible assumption)
    | with_reducible refine kept_fstW ?_ (by with_reducible assumption)
    | with_reducible refine kept_fstH ?_ (by with_reducible assumption)
    | (simp only [↓kept_mk]; with_reducible refine kept_of ?_))

theorem Work.aeParams_kept {a0 : Work} {a1 : BitVec 1024} (ha0 : (a0).s.kept qs u = true) :
    (@Work.aeParams a0 a1).1.s.kept qs u = true := by
  unfold Work.aeParams
  try dsimp only
  repeat' (first
    | with_reducible assumption
    | with_reducible apply Work.read_kept
    | with_reducible apply Work.checkFields_kept
    | intro _
    | split
    | with_reducible apply kept_fold
    | with_reducible apply kept_fold1
    | with_reducible apply kept_foldW
    | with_reducible apply kept_foldW1
    | with_reducible apply kept_foldH
    | with_reducible apply kept_foldH1
    | with_reducible refine kept_fst ?_ (by with_reducible assumption)
    | with_reducible refine kept_fstW ?_ (by with_reducible assumption)
    | with_reducible refine kept_fstH ?_ (by with_reducible assumption)
    | (simp only [↓kept_mk]; with_reducible refine kept_of ?_))

theorem aeStart_kept {a0 : Flight} {a1 : Work} (ha1 : (a1).s.kept qs u = true) :
    (@aeStart a0 a1).1.s.kept qs u = true := by
  unfold aeStart
  try dsimp only
  repeat' (first
    | with_reducible assumption
    | with_reducible apply Work.aeParams_kept
    | with_reducible apply Work.each_kept
    | with_reducible apply Work.needLocal_kept
    | with_reducible apply Work.ssrStart_kept
    | intro _
    | split
    | with_reducible apply kept_fold
    | with_reducible apply kept_fold1
    | with_reducible apply kept_foldW
    | with_reducible apply kept_foldW1
    | with_reducible apply kept_foldH
    | with_reducible apply kept_foldH1
    | with_reducible refine kept_fst ?_ (by with_reducible assumption)
    | with_reducible refine kept_fstW ?_ (by with_reducible assumption)
    | with_reducible refine kept_fstH ?_ (by with_reducible assumption)
    | (simp only [↓kept_mk]; with_reducible refine kept_of ?_))

theorem Work.slice_kept {a0 : Work} {a1 : Nat} {a2 : Nat} {a3 : Nat} {a4 : Bool} {a5 : Nat} {a6 : Nat} {a7 : Nat × Nat} {a8 : Nat × Nat} (ha0 : (a0).s.kept qs u = true) :
    (@Work.slice a0 a1 a2 a3 a4 a5 a6 a7 a8).1.s.kept qs u = true := by
  unfold Work.slice
  try dsimp only
  repeat' (first
    | with_reducible assumption
    | with_reducible apply Work.readRows_kept
    | intro _
    | split
    | with_reducible apply kept_fold
    | with_reducible apply kept_fold1
    | with_reducible apply kept_foldW
    | with_reducible apply kept_foldW1
    | with_reducible apply kept_foldH
    | with_reducible apply kept_foldH1
    | with_reducible refine kept_fst ?_ (by with_reducible assumption)
    | with_reducible refine kept_fstW ?_ (by with_reducible assumption)
    | with_reducible refine kept_fstH ?_ (by with_reducible assumption)
    | (simp only [↓kept_mk]; with_reducible refine kept_of ?_))

theorem Work.loadRes_kept {a0 : Work} {a1 : Mat} {a2 : Nat} (ha0 : (a0).s.kept qs u = true) :
    (@Work.loadRes a0 a1 a2).1.s.kept qs u = true := by
  unfold Work.loadRes
  try dsimp only
  repeat' (first
    | with_reducible assumption
    | with_reducible apply Work.collect_kept
    | with_reducible apply Work.readRows_kept
    | intro _
    | split
    | with_reducible apply kept_fold
    | with_reducible apply kept_fold1
    | with_reducible apply kept_foldW
    | with_reducible apply kept_foldW1
    | with_reducible apply kept_foldH
    | with_reducible apply kept_foldH1
    | with_reducible refine kept_fst ?_ (by with_reducible assumption)
    | with_reducible refine kept_fstW ?_ (by with_reducible assumption)
    | with_reducible refine kept_fstH ?_ (by with_reducible assumption)
    | (simp only [↓kept_mk]; with_reducible refine kept_of ?_))

theorem State.setResident_kept {a0 : State} {a1 : Nat} {a2 : Resident} {a3 : Nat} (ha0 : (a0).kept qs u = true) :
    (@State.setResident a0 a1 a2 a3).kept qs u = true := by
  unfold State.setResident
  try dsimp only
  repeat' (first
    | with_reducible assumption
    | with_reducible apply State.setField_kept
    | with_reducible apply State.setBit_kept
    | with_reducible apply State.setReg_kept
    | intro _
    | split
    | with_reducible apply kept_fold
    | with_reducible apply kept_fold1
    | with_reducible apply kept_foldW
    | with_reducible apply kept_foldW1
    | with_reducible apply kept_foldH
    | with_reducible apply kept_foldH1
    | with_reducible refine kept_fst ?_ (by with_reducible assumption)
    | with_reducible refine kept_fstW ?_ (by with_reducible assumption)
    | with_reducible refine kept_fstH ?_ (by with_reducible assumption)
    | (simp only [↓kept_mk]; with_reducible refine kept_of ?_))

theorem State.clearResident_kept {a0 : State} {a1 : Nat} (ha0 : (a0).kept qs u = true) :
    (@State.clearResident a0 a1).kept qs u = true := by
  unfold State.clearResident
  try dsimp only
  repeat' (first
    | with_reducible assumption
    | with_reducible apply State.setField_kept
    | with_reducible apply State.setBit_kept
    | with_reducible apply State.setReg_kept
    | intro _
    | split
    | with_reducible apply kept_fold
    | with_reducible apply kept_fold1
    | with_reducible apply kept_foldW
    | with_reducible apply kept_foldW1
    | with_reducible apply kept_foldH
    | with_reducible apply kept_foldH1
    | with_reducible refine kept_fst ?_ (by with_reducible assumption)
    | with_reducible refine kept_fstW ?_ (by with_reducible assumption)
    | with_reducible refine kept_fstH ?_ (by with_reducible assumption)
    | (simp only [↓kept_mk]; with_reducible refine kept_of ?_))

theorem Work.matOut_kept {a0 : Work} {a1 : Flight} {a2 : Mat} {a3 : Bool} {a4 : Nat × Nat} {a5 : Nat × Nat} {a6 : List (List Word)} (ha0 : (a0).s.kept qs u = true) :
    (@Work.matOut a0 a1 a2 a3 a4 a5 a6).s.kept qs u = true := by
  unfold Work.matOut
  try dsimp only
  repeat' (first
    | with_reducible assumption
    | with_reducible apply Work.each_kept
    | with_reducible apply Work.emit_kept
    | with_reducible apply Work.read_kept
    | with_reducible apply Work.write_kept
    | intro _
    | split
    | with_reducible apply kept_fold
    | with_reducible apply kept_fold1
    | with_reducible apply kept_foldW
    | with_reducible apply kept_foldW1
    | with_reducible apply kept_foldH
    | with_reducible apply kept_foldH1
    | with_reducible refine kept_fst ?_ (by with_reducible assumption)
    | with_reducible refine kept_fstW ?_ (by with_reducible assumption)
    | with_reducible refine kept_fstH ?_ (by with_reducible assumption)
    | (simp only [↓kept_mk]; with_reducible refine kept_of ?_))

theorem Work.aSlice_kept {a0 : Work} {a1 : Flight} {a2 : Mat} {a3 : Option Ssr} {a4 : Nat × Nat} {a5 : Nat × Nat} {a6 : Nat} (ha0 : (a0).s.kept qs u = true) :
    (@Work.aSlice a0 a1 a2 a3 a4 a5 a6).1.s.kept qs u = true := by
  unfold Work.aSlice
  try dsimp only
  repeat' (first
    | with_reducible assumption
    | with_reducible apply Work.slice_kept
    | intro _
    | split
    | with_reducible apply kept_fold
    | with_reducible apply kept_fold1
    | with_reducible apply kept_foldW
    | with_reducible apply kept_foldW1
    | with_reducible apply kept_foldH
    | with_reducible apply kept_foldH1
    | with_reducible refine kept_fst ?_ (by with_reducible assumption)
    | with_reducible refine kept_fstW ?_ (by with_reducible assumption)
    | with_reducible refine kept_fstH ?_ (by with_reducible assumption)
    | (simp only [↓kept_mk]; with_reducible refine kept_of ?_))

theorem Work.bSlice_kept {a0 : Work} {a1 : Flight} {a2 : Mat} {a3 : Option Resident} {a4 : Nat × Nat} {a5 : Nat × Nat} {a6 : Nat} (ha0 : (a0).s.kept qs u = true) :
    (@Work.bSlice a0 a1 a2 a3 a4 a5 a6).1.s.kept qs u = true := by
  unfold Work.bSlice
  try dsimp only
  repeat' (first
    | with_reducible assumption
    | with_reducible apply Work.slice_kept
    | intro _
    | split
    | with_reducible apply kept_fold
    | with_reducible apply kept_fold1
    | with_reducible apply kept_foldW
    | with_reducible apply kept_foldW1
    | with_reducible apply kept_foldH
    | with_reducible apply kept_foldH1
    | with_reducible refine kept_fst ?_ (by with_reducible assumption)
    | with_reducible refine kept_fstW ?_ (by with_reducible assumption)
    | with_reducible refine kept_fstH ?_ (by with_reducible assumption)
    | (simp only [↓kept_mk]; with_reducible refine kept_of ?_))

theorem Work.accStart_kept {a0 : Work} {a1 : Mat} {a2 : Nat × Nat} {a3 : Nat × Nat} (ha0 : (a0).s.kept qs u = true) :
    (@Work.accStart a0 a1 a2 a3).1.s.kept qs u = true := by
  unfold Work.accStart
  try dsimp only
  repeat' (first
    | with_reducible assumption
    | with_reducible apply Work.readRows_kept
    | intro _
    | split
    | with_reducible apply kept_fold
    | with_reducible apply kept_fold1
    | with_reducible apply kept_foldW
    | with_reducible apply kept_foldW1
    | with_reducible apply kept_foldH
    | with_reducible apply kept_foldH1
    | with_reducible refine kept_fst ?_ (by with_reducible assumption)
    | with_reducible refine kept_fstW ?_ (by with_reducible assumption)
    | with_reducible refine kept_fstH ?_ (by with_reducible assumption)
    | (simp only [↓kept_mk]; with_reducible refine kept_of ?_))

theorem Work.product_kept {a0 : Work} {a1 : Flight} {a2 : Mat} {a3 : Option Resident} {a4 : Option Ssr} (ha0 : (a0).s.kept qs u = true) :
    (@Work.product a0 a1 a2 a3 a4).1.s.kept qs u = true := by
  unfold Work.product
  try dsimp only
  repeat' (first
    | with_reducible assumption
    | with_reducible apply Work.accStart_kept
    | with_reducible apply Work.bSlice_kept
    | with_reducible apply Work.aSlice_kept
    | with_reducible apply Work.andThen_kept
    | with_reducible apply Work.matOut_kept
    | intro _
    | split
    | with_reducible apply kept_fold
    | with_reducible apply kept_fold1
    | with_reducible apply kept_foldW
    | with_reducible apply kept_foldW1
    | with_reducible apply kept_foldH
    | with_reducible apply kept_foldH1
    | with_reducible refine kept_fst ?_ (by with_reducible assumption)
    | with_reducible refine kept_fstW ?_ (by with_reducible assumption)
    | with_reducible refine kept_fstH ?_ (by with_reducible assumption)
    | (simp only [↓kept_mk]; with_reducible refine kept_of ?_))

theorem Work.matmul_kept {a0 : Work} {a1 : Flight} {a2 : Mat} (ha0 : (a0).s.kept qs u = true) :
    (@Work.matmul a0 a1 a2).s.kept qs u = true := by
  unfold Work.matmul
  try dsimp only
  repeat' (first
    | with_reducible assumption
    | with_reducible apply Work.andThen_kept
    | with_reducible apply Work.mapS_kept
    | with_reducible apply State.count_kept
    | with_reducible apply Work.loadRes_kept
    | with_reducible apply State.setResident_kept
    | with_reducible apply Work.product_kept
    | with_reducible apply Work.openOutputs_kept
    | with_reducible apply Work.openLate_kept
    | with_reducible apply Work.ssrFinish_kept
    | with_reducible apply Work.tally_kept
    | with_reducible apply Work.stalled_kept
    | intro _
    | split
    | with_reducible apply kept_fold
    | with_reducible apply kept_fold1
    | with_reducible apply kept_foldW
    | with_reducible apply kept_foldW1
    | with_reducible apply kept_foldH
    | with_reducible apply kept_foldH1
    | with_reducible refine kept_fst ?_ (by with_reducible assumption)
    | with_reducible refine kept_fstW ?_ (by with_reducible assumption)
    | with_reducible refine kept_fstH ?_ (by with_reducible assumption)
    | (simp only [↓kept_mk]; with_reducible refine kept_of ?_))

theorem Work.partialSum_kept {a0 : Work} {a1 : Flight} {a2 : Mat} (ha0 : (a0).s.kept qs u = true) :
    (@Work.partialSum a0 a1 a2).s.kept qs u = true := by
  unfold Work.partialSum
  try dsimp only
  repeat' (first
    | with_reducible assumption
    | with_reducible apply Work.each_kept
    | with_reducible apply Work.collect_kept
    | with_reducible apply Work.readRows_kept
    | with_reducible apply Work.andThen_kept
    | with_reducible apply Work.matOut_kept
    | with_reducible apply Work.openOutputs_kept
    | with_reducible apply Work.stalled_kept
    | intro _
    | split
    | with_reducible apply kept_fold
    | with_reducible apply kept_fold1
    | with_reducible apply kept_foldW
    | with_reducible apply kept_foldW1
    | with_reducible apply kept_foldH
    | with_reducible apply kept_foldH1
    | with_reducible refine kept_fst ?_ (by with_reducible assumption)
    | with_reducible refine kept_fstW ?_ (by with_reducible assumption)
    | with_reducible refine kept_fstH ?_ (by with_reducible assumption)
    | (simp only [↓kept_mk]; with_reducible refine kept_of ?_))

theorem aeRun_kept {a0 : Flight} {a1 : Work} (ha1 : (a1).s.kept qs u = true) :
    (@aeRun a0 a1).s.kept qs u = true := by
  unfold aeRun
  try dsimp only
  repeat' (first
    | with_reducible assumption
    | with_reducible apply Work.andThen_kept
    | with_reducible apply Work.matmul_kept
    | with_reducible apply Work.partialSum_kept
    | with_reducible apply Work.loadRes_kept
    | with_reducible apply Work.onCommit_kept
    | with_reducible apply Work.mapS_kept
    | with_reducible apply State.setResident_kept
    | with_reducible apply Work.stalled_kept
    | with_reducible apply State.clearResident_kept
    | with_reducible apply State.stall_kept
    | intro _
    | split
    | with_reducible apply kept_fold
    | with_reducible apply kept_fold1
    | with_reducible apply kept_foldW
    | with_reducible apply kept_foldW1
    | with_reducible apply kept_foldH
    | with_reducible apply kept_foldH1
    | with_reducible refine kept_fst ?_ (by with_reducible assumption)
    | with_reducible refine kept_fstW ?_ (by with_reducible assumption)
    | with_reducible refine kept_fstH ?_ (by with_reducible assumption)
    | (simp only [↓kept_mk]; with_reducible refine kept_of ?_))

theorem State.aeFlight_kept {a0 : State} {a1 : Nat} {a2 : Nat} (ha0 : (a0).kept qs u = true) :
    (@State.aeFlight a0 a1 a2).kept qs u = true := by
  unfold State.aeFlight
  try dsimp only
  repeat' (first
    | with_reducible assumption
    | with_reducible apply State.runStarted_kept
    | with_reducible apply aeStart_kept
    | with_reducible apply aeRun_kept
    | intro _
    | split
    | with_reducible apply kept_fold
    | with_reducible apply kept_fold1
    | with_reducible apply kept_foldW
    | with_reducible apply kept_foldW1
    | with_reducible apply kept_foldH
    | with_reducible apply kept_foldH1
    | with_reducible refine kept_fst ?_ (by with_reducible assumption)
    | with_reducible refine kept_fstW ?_ (by with_reducible assumption)
    | with_reducible refine kept_fstH ?_ (by with_reducible assumption)
    | (simp only [↓kept_mk]; with_reducible refine kept_of ?_))

theorem execMatmul_kept {a0 : Nat} {a1 : State} (ha1 : (a1).kept qs u = true) :
    ∀ t, @execMatmul a0 a1 = .next t → t.kept qs u = true := by
  unfold execMatmul
  refine live_kept ha1 ?_
  try dsimp only
  repeat' (first
    | with_reducible assumption
    | with_reducible apply State.aeFlight_kept
    | intro _
    | split
    | with_reducible apply kept_fold
    | with_reducible apply kept_fold1
    | with_reducible apply kept_foldW
    | with_reducible apply kept_foldW1
    | with_reducible apply kept_foldH
    | with_reducible apply kept_foldH1
    | with_reducible refine kept_fst ?_ (by with_reducible assumption)
    | with_reducible refine kept_fstW ?_ (by with_reducible assumption)
    | with_reducible refine kept_fstH ?_ (by with_reducible assumption)
    | (simp only [↓kept_mk]; with_reducible refine kept_of ?_))

theorem execPartialSum_kept {a0 : Nat} {a1 : State} (ha1 : (a1).kept qs u = true) :
    ∀ t, @execPartialSum a0 a1 = .next t → t.kept qs u = true := by
  unfold execPartialSum
  refine live_kept ha1 ?_
  try dsimp only
  repeat' (first
    | with_reducible assumption
    | with_reducible apply State.aeFlight_kept
    | intro _
    | split
    | with_reducible apply kept_fold
    | with_reducible apply kept_fold1
    | with_reducible apply kept_foldW
    | with_reducible apply kept_foldW1
    | with_reducible apply kept_foldH
    | with_reducible apply kept_foldH1
    | with_reducible refine kept_fst ?_ (by with_reducible assumption)
    | with_reducible refine kept_fstW ?_ (by with_reducible assumption)
    | with_reducible refine kept_fstH ?_ (by with_reducible assumption)
    | (simp only [↓kept_mk]; with_reducible refine kept_of ?_))

theorem execLoadRes_kept {a0 : Nat} {a1 : State} (ha1 : (a1).kept qs u = true) :
    ∀ t, @execLoadRes a0 a1 = .next t → t.kept qs u = true := by
  unfold execLoadRes
  refine live_kept ha1 ?_
  try dsimp only
  repeat' (first
    | with_reducible assumption
    | with_reducible apply State.aeFlight_kept
    | intro _
    | split
    | with_reducible apply kept_fold
    | with_reducible apply kept_fold1
    | with_reducible apply kept_foldW
    | with_reducible apply kept_foldW1
    | with_reducible apply kept_foldH
    | with_reducible apply kept_foldH1
    | with_reducible refine kept_fst ?_ (by with_reducible assumption)
    | with_reducible refine kept_fstW ?_ (by with_reducible assumption)
    | with_reducible refine kept_fstH ?_ (by with_reducible assumption)
    | (simp only [↓kept_mk]; with_reducible refine kept_of ?_))

theorem execReleaseRes_kept {a0 : Nat} {a1 : State} (ha1 : (a1).kept qs u = true) :
    ∀ t, @execReleaseRes a0 a1 = .next t → t.kept qs u = true := by
  unfold execReleaseRes
  refine live_kept ha1 ?_
  try dsimp only
  repeat' (first
    | with_reducible assumption
    | with_reducible apply State.aeFlight_kept
    | intro _
    | split
    | with_reducible apply kept_fold
    | with_reducible apply kept_fold1
    | with_reducible apply kept_foldW
    | with_reducible apply kept_foldW1
    | with_reducible apply kept_foldH
    | with_reducible apply kept_foldH1
    | with_reducible refine kept_fst ?_ (by with_reducible assumption)
    | with_reducible refine kept_fstW ?_ (by with_reducible assumption)
    | with_reducible refine kept_fstH ?_ (by with_reducible assumption)
    | (simp only [↓kept_mk]; with_reducible refine kept_of ?_))

theorem Work.ceParams_kept {a0 : Work} {a1 : BitVec 1024} (ha0 : (a0).s.kept qs u = true) :
    (@Work.ceParams a0 a1).1.s.kept qs u = true := by
  unfold Work.ceParams
  try dsimp only
  repeat' (first
    | with_reducible assumption
    | with_reducible apply Work.read_kept
    | with_reducible apply Work.checkFields_kept
    | intro _
    | split
    | with_reducible apply kept_fold
    | with_reducible apply kept_fold1
    | with_reducible apply kept_foldW
    | with_reducible apply kept_foldW1
    | with_reducible apply kept_foldH
    | with_reducible apply kept_foldH1
    | with_reducible refine kept_fst ?_ (by with_reducible assumption)
    | with_reducible refine kept_fstW ?_ (by with_reducible assumption)
    | with_reducible refine kept_fstH ?_ (by with_reducible assumption)
    | (simp only [↓kept_mk]; with_reducible refine kept_of ?_))

theorem Work.fpRow_kept {a0 : Work} {a1 : Nat} {a2 : Nat} {a3 : Nat} {a4 : Nat} {a5 : Nat} (ha0 : (a0).s.kept qs u = true) :
    (@Work.fpRow a0 a1 a2 a3 a4 a5).1.s.kept qs u = true := by
  unfold Work.fpRow
  try dsimp only
  repeat' (first
    | with_reducible assumption
    | with_reducible apply Work.read_kept
    | intro _
    | split
    | with_reducible apply kept_fold
    | with_reducible apply kept_fold1
    | with_reducible apply kept_foldW
    | with_reducible apply kept_foldW1
    | with_reducible apply kept_foldH
    | with_reducible apply kept_foldH1
    | with_reducible refine kept_fst ?_ (by with_reducible assumption)
    | with_reducible refine kept_fstW ?_ (by with_reducible assumption)
    | with_reducible refine kept_fstH ?_ (by with_reducible assumption)
    | (simp only [↓kept_mk]; with_reducible refine kept_of ?_))

theorem Work.fpVec_kept {a0 : Work} {a1 : Bool} {a2 : Nat} {a3 : Nat} (ha0 : (a0).s.kept qs u = true) :
    (@Work.fpVec a0 a1 a2 a3).1.s.kept qs u = true := by
  unfold Work.fpVec
  try dsimp only
  repeat' (first
    | with_reducible assumption
    | with_reducible apply Work.read_kept
    | intro _
    | split
    | with_reducible apply kept_fold
    | with_reducible apply kept_fold1
    | with_reducible apply kept_foldW
    | with_reducible apply kept_foldW1
    | with_reducible apply kept_foldH
    | with_reducible apply kept_foldH1
    | with_reducible refine kept_fst ?_ (by with_reducible assumption)
    | with_reducible refine kept_fstW ?_ (by with_reducible assumption)
    | with_reducible refine kept_fstH ?_ (by with_reducible assumption)
    | (simp only [↓kept_mk]; with_reducible refine kept_of ?_))

theorem Work.ceRow_kept {a0 : Work} {a1 : Flight} {a2 : Chi} {a3 : ChiEnv} {a4 : Option Ssr} {a5 : Nat} (ha0 : (a0).s.kept qs u = true) :
    (@Work.ceRow a0 a1 a2 a3 a4 a5).1.s.kept qs u = true := by
  unfold Work.ceRow
  have h1 : ∀ p : Work × List Word, p = (if a2.xTr then (a0, recRow (a1.recsOf a2.trough) a2.xf a2.rows a2.cols (a1.linesOf a2.trough false / 8) a5)
    else a0.fpRow a2.x (a2.pitch 0) a2.xf a5 a2.xCols) → p.1.s.kept qs u = true := by
    rintro p rfl; split
    · exact ha0
    · exact Work.fpRow_kept ha0
  revert h1
  generalize (if a2.xTr = true then _ else _ : Work × List Word) = p1
  intro h1
  replace h1 := h1 _ rfl
  obtain ⟨w1, x⟩ := p1
  try dsimp only at h1 ⊢
  have h2 : ∀ p : Work × List Word, p = (if a2.useY then w1.fpRow a2.y (a2.pitch 1) a2.yf a5 a2.cols else (w1, [])) → p.1.s.kept qs u = true := by
    rintro p rfl; split
    · exact Work.fpRow_kept h1
    · exact h1
  revert h2
  generalize (if a2.useY = true then _ else _ : Work × List Word) = p1
  intro h2
  replace h2 := h2 _ rfl
  obtain ⟨w2, y⟩ := p1
  have h3 : ∀ p : Work × List Word, p = (if a2.useW then w2.fpRow (a2.addr 0x38) (a2.pitch 3) a2.wf a5 a2.cols else (w2, [])) → p.1.s.kept qs u = true := by
    rintro p rfl; split
    · exact Work.fpRow_kept h2
    · exact h2
  try dsimp only
  revert h3
  generalize (if a2.useW = true then _ else _ : Work × List Word) = p1
  intro h3
  replace h3 := h3 _ rfl
  obtain ⟨w3, v⟩ := p1
  try dsimp only at h3 ⊢
  split
  · exact h3
  · generalize a2.computeRow a3 x y v = cr
    obtain ⟨o, st, zr, wr⟩ := cr
    dsimp only
    have h4 : (if a2.isGate = true then w3.write (a2.z + a5 * a2.pitch 2) (wordBytes zr) else w3).s.kept qs u = true := by
      split
      · exact Work.write_kept h3
      · exact h3
    revert h4
    generalize (if a2.isGate = true then w3.write (a2.z + a5 * a2.pitch 2) (wordBytes zr) else w3) = w4
    intro h4
    have h5 : (if a2.isGate ∧ a2.gru = false then w4.write (a2.addr 0x38 + a5 * a2.pitch 3) (wordBytes wr) else w4).s.kept qs u = true := by
      split
      · exact Work.write_kept h4
      · exact h4
    revert h5
    generalize (if a2.isGate ∧ a2.gru = false then w4.write (a2.addr 0x38 + a5 * a2.pitch 3) (wordBytes wr) else w4) = w5
    intro h5
    cases a2.staged <;> simp only [if_true, if_false, Bool.false_eq_true] <;> split <;>
      (repeat' first | exact h5 | with_reducible apply Work.write_kept)

theorem Work.ceLoad_kept {a0 : Work} {a1 : Nat} {a2 : Nat} {a3 : Nat} {a4 : Nat} (ha0 : (a0).s.kept qs u = true) :
    (@Work.ceLoad a0 a1 a2 a3 a4).1.s.kept qs u = true := by
  unfold Work.ceLoad
  try dsimp only
  repeat' (first
    | with_reducible assumption
    | with_reducible apply Work.read_kept
    | with_reducible apply Work.fail_kept
    | with_reducible apply Work.mapS_kept
    | with_reducible apply State.tick_kept
    | with_reducible apply State.setRegN_kept
    | with_reducible apply State.count_kept
    | with_reducible apply State.setField_kept
    | with_reducible apply State.setBit_kept
    | intro _
    | split
    | with_reducible apply kept_fold
    | with_reducible apply kept_fold1
    | with_reducible apply kept_foldW
    | with_reducible apply kept_foldW1
    | with_reducible apply kept_foldH
    | with_reducible apply kept_foldH1
    | with_reducible refine kept_fst ?_ (by with_reducible assumption)
    | with_reducible refine kept_fstW ?_ (by with_reducible assumption)
    | with_reducible refine kept_fstH ?_ (by with_reducible assumption)
    | (simp only [↓kept_mk]; with_reducible refine kept_of ?_))

theorem Work.ceImage_kept {a0 : Work} {a1 : Nat} {a2 : Nat} {a3 : Nat} (ha0 : (a0).s.kept qs u = true) :
    (@Work.ceImage a0 a1 a2 a3).1.s.kept qs u = true := by
  unfold Work.ceImage
  try dsimp only
  repeat' (first
    | with_reducible assumption
    | with_reducible apply Work.needLocal_kept
    | with_reducible apply Work.read_kept
    | with_reducible apply Work.ceLoad_kept
    | intro _
    | split
    | with_reducible apply kept_fold
    | with_reducible apply kept_fold1
    | with_reducible apply kept_foldW
    | with_reducible apply kept_foldW1
    | with_reducible apply kept_foldH
    | with_reducible apply kept_foldH1
    | with_reducible refine kept_fst ?_ (by with_reducible assumption)
    | with_reducible refine kept_fstW ?_ (by with_reducible assumption)
    | with_reducible refine kept_fstH ?_ (by with_reducible assumption)
    | (simp only [↓kept_mk]; with_reducible refine kept_of ?_))

theorem ceStart_kept {a0 : Flight} {a1 : Work} (ha1 : (a1).s.kept qs u = true) :
    (@ceStart a0 a1).1.s.kept qs u = true := by
  unfold ceStart
  try dsimp only
  repeat' (first
    | with_reducible assumption
    | with_reducible apply Work.ceParams_kept
    | with_reducible apply Work.ceImage_kept
    | with_reducible apply Work.checkFields_kept
    | with_reducible apply Work.mapS_kept
    | with_reducible apply State.stall_kept
    | with_reducible apply Work.each_kept
    | with_reducible apply Work.needLocal_kept
    | with_reducible apply Work.ssrStart_kept
    | intro _
    | split
    | with_reducible apply kept_fold
    | with_reducible apply kept_fold1
    | with_reducible apply kept_foldW
    | with_reducible apply kept_foldW1
    | with_reducible apply kept_foldH
    | with_reducible apply kept_foldH1
    | with_reducible refine kept_fst ?_ (by with_reducible assumption)
    | with_reducible refine kept_fstW ?_ (by with_reducible assumption)
    | with_reducible refine kept_fstH ?_ (by with_reducible assumption)
    | (simp only [↓kept_mk]; with_reducible refine kept_of ?_))

theorem ceRun_kept {a0 : Flight} {a1 : Work} (ha1 : (a1).s.kept qs u = true) :
    (@ceRun a0 a1).s.kept qs u = true := by
  unfold ceRun
  try dsimp only
  repeat' (first
    | with_reducible assumption
    | with_reducible apply Work.fpVec_kept
    | with_reducible apply Work.ceRow_kept
    | with_reducible apply Work.openOutputs_kept
    | with_reducible apply Work.ssrFinish_kept
    | with_reducible apply Work.tally_kept
    | with_reducible apply Work.stalled_kept
    | intro _
    | split
    | with_reducible apply kept_fold
    | with_reducible apply kept_fold1
    | with_reducible apply kept_foldW
    | with_reducible apply kept_foldW1
    | with_reducible apply kept_foldH
    | with_reducible apply kept_foldH1
    | with_reducible refine kept_fst ?_ (by with_reducible assumption)
    | with_reducible refine kept_fstW ?_ (by with_reducible assumption)
    | with_reducible refine kept_fstH ?_ (by with_reducible assumption)
    | (simp only [↓kept_mk]; with_reducible refine kept_of ?_))

theorem State.ceFlight_kept {a0 : State} {a1 : Nat} {a2 : Nat} (ha0 : (a0).kept qs u = true) :
    (@State.ceFlight a0 a1 a2).kept qs u = true := by
  unfold State.ceFlight
  try dsimp only
  repeat' (first
    | with_reducible assumption
    | with_reducible apply State.runStarted_kept
    | with_reducible apply ceStart_kept
    | with_reducible apply ceRun_kept
    | intro _
    | split
    | with_reducible apply kept_fold
    | with_reducible apply kept_fold1
    | with_reducible apply kept_foldW
    | with_reducible apply kept_foldW1
    | with_reducible apply kept_foldH
    | with_reducible apply kept_foldH1
    | with_reducible refine kept_fst ?_ (by with_reducible assumption)
    | with_reducible refine kept_fstW ?_ (by with_reducible assumption)
    | with_reducible refine kept_fstH ?_ (by with_reducible assumption)
    | (simp only [↓kept_mk]; with_reducible refine kept_of ?_))

theorem execElementwise_kept {a0 : Nat} {a1 : State} (ha1 : (a1).kept qs u = true) :
    ∀ t, @execElementwise a0 a1 = .next t → t.kept qs u = true := by
  unfold execElementwise
  refine live_kept ha1 ?_
  try dsimp only
  repeat' (first
    | with_reducible assumption
    | with_reducible apply State.ceFlight_kept
    | intro _
    | split
    | with_reducible apply kept_fold
    | with_reducible apply kept_fold1
    | with_reducible apply kept_foldW
    | with_reducible apply kept_foldW1
    | with_reducible apply kept_foldH
    | with_reducible apply kept_foldH1
    | with_reducible refine kept_fst ?_ (by with_reducible assumption)
    | with_reducible refine kept_fstW ?_ (by with_reducible assumption)
    | with_reducible refine kept_fstH ?_ (by with_reducible assumption)
    | (simp only [↓kept_mk]; with_reducible refine kept_of ?_))

theorem execEpilogue_kept {a0 : Nat} {a1 : State} (ha1 : (a1).kept qs u = true) :
    ∀ t, @execEpilogue a0 a1 = .next t → t.kept qs u = true := by
  unfold execEpilogue
  refine live_kept ha1 ?_
  try dsimp only
  repeat' (first
    | with_reducible assumption
    | with_reducible apply State.ceFlight_kept
    | intro _
    | split
    | with_reducible apply kept_fold
    | with_reducible apply kept_fold1
    | with_reducible apply kept_foldW
    | with_reducible apply kept_foldW1
    | with_reducible apply kept_foldH
    | with_reducible apply kept_foldH1
    | with_reducible refine kept_fst ?_ (by with_reducible assumption)
    | with_reducible refine kept_fstW ?_ (by with_reducible assumption)
    | with_reducible refine kept_fstH ?_ (by with_reducible assumption)
    | (simp only [↓kept_mk]; with_reducible refine kept_of ?_))

theorem execSoftmax_kept {a0 : Nat} {a1 : State} (ha1 : (a1).kept qs u = true) :
    ∀ t, @execSoftmax a0 a1 = .next t → t.kept qs u = true := by
  unfold execSoftmax
  refine live_kept ha1 ?_
  try dsimp only
  repeat' (first
    | with_reducible assumption
    | with_reducible apply State.ceFlight_kept
    | intro _
    | split
    | with_reducible apply kept_fold
    | with_reducible apply kept_fold1
    | with_reducible apply kept_foldW
    | with_reducible apply kept_foldW1
    | with_reducible apply kept_foldH
    | with_reducible apply kept_foldH1
    | with_reducible refine kept_fst ?_ (by with_reducible assumption)
    | with_reducible refine kept_fstW ?_ (by with_reducible assumption)
    | with_reducible refine kept_fstH ?_ (by with_reducible assumption)
    | (simp only [↓kept_mk]; with_reducible refine kept_of ?_))

theorem execLayernorm_kept {a0 : Nat} {a1 : State} (ha1 : (a1).kept qs u = true) :
    ∀ t, @execLayernorm a0 a1 = .next t → t.kept qs u = true := by
  unfold execLayernorm
  refine live_kept ha1 ?_
  try dsimp only
  repeat' (first
    | with_reducible assumption
    | with_reducible apply State.ceFlight_kept
    | intro _
    | split
    | with_reducible apply kept_fold
    | with_reducible apply kept_fold1
    | with_reducible apply kept_foldW
    | with_reducible apply kept_foldW1
    | with_reducible apply kept_foldH
    | with_reducible apply kept_foldH1
    | with_reducible refine kept_fst ?_ (by with_reducible assumption)
    | with_reducible refine kept_fstW ?_ (by with_reducible assumption)
    | with_reducible refine kept_fstH ?_ (by with_reducible assumption)
    | (simp only [↓kept_mk]; with_reducible refine kept_of ?_))

theorem execRmsnorm_kept {a0 : Nat} {a1 : State} (ha1 : (a1).kept qs u = true) :
    ∀ t, @execRmsnorm a0 a1 = .next t → t.kept qs u = true := by
  unfold execRmsnorm
  refine live_kept ha1 ?_
  try dsimp only
  repeat' (first
    | with_reducible assumption
    | with_reducible apply State.ceFlight_kept
    | intro _
    | split
    | with_reducible apply kept_fold
    | with_reducible apply kept_fold1
    | with_reducible apply kept_foldW
    | with_reducible apply kept_foldW1
    | with_reducible apply kept_foldH
    | with_reducible apply kept_foldH1
    | with_reducible refine kept_fst ?_ (by with_reducible assumption)
    | with_reducible refine kept_fstW ?_ (by with_reducible assumption)
    | with_reducible refine kept_fstH ?_ (by with_reducible assumption)
    | (simp only [↓kept_mk]; with_reducible refine kept_of ?_))

theorem execGate_kept {a0 : Nat} {a1 : State} (ha1 : (a1).kept qs u = true) :
    ∀ t, @execGate a0 a1 = .next t → t.kept qs u = true := by
  unfold execGate
  refine live_kept ha1 ?_
  try dsimp only
  repeat' (first
    | with_reducible assumption
    | with_reducible apply State.ceFlight_kept
    | intro _
    | split
    | with_reducible apply kept_fold
    | with_reducible apply kept_fold1
    | with_reducible apply kept_foldW
    | with_reducible apply kept_foldW1
    | with_reducible apply kept_foldH
    | with_reducible apply kept_foldH1
    | with_reducible refine kept_fst ?_ (by with_reducible assumption)
    | with_reducible refine kept_fstW ?_ (by with_reducible assumption)
    | with_reducible refine kept_fstH ?_ (by with_reducible assumption)
    | (simp only [↓kept_mk]; with_reducible refine kept_of ?_))

theorem State.libRead_kept {a0 : State} {a1 : Nat} (ha0 : (a0).kept qs u = true) :
    (@State.libRead a0 a1).1.kept qs u = true := by
  unfold State.libRead
  try dsimp only
  repeat' (first
    | with_reducible assumption
    | with_reducible apply State.setRegN_kept
    | intro _
    | split
    | with_reducible apply kept_fold
    | with_reducible apply kept_fold1
    | with_reducible apply kept_foldW
    | with_reducible apply kept_foldW1
    | with_reducible apply kept_foldH
    | with_reducible apply kept_foldH1
    | with_reducible refine kept_fst ?_ (by with_reducible assumption)
    | with_reducible refine kept_fstW ?_ (by with_reducible assumption)
    | with_reducible refine kept_fstH ?_ (by with_reducible assumption)
    | (simp only [↓kept_mk]; with_reducible refine kept_of ?_))

end Sys2Proof.Machine
end

