-- ==== Sys2Proof/Laws/KeptEngines.lean ====
section
/-! SUPPORT. What no command disturbs is kept. -/

namespace Sys2Proof.Machine

variable {qs : List Instr} {u : Bool}

theorem State.setPage_kept {a0 : State} {a1 : Nat} {a2 : Nat} (ha0 : (a0).kept qs u = true) :
    (@State.setPage a0 a1 a2).kept qs u = true := by
  unfold State.setPage
  try dsimp only
  repeat' (first
    | with_reducible assumption
    | intro _
    | split
    | with_reducible apply kept_fold
    | with_reducible apply kept_fold1
    | with_reducible apply kept_foldW
    | with_reducible apply kept_foldW1
    | with_reducible apply kept_foldH
    | with_reducible apply kept_foldH1
    | with_reducible refine kept_fst ?_ (by with_reducible assumption)
    | with_reducible refine kept_fstW ?_ (by with_reducible assumption)
    | with_reducible refine kept_fstH ?_ (by with_reducible assumption)
    | (simp only [↓kept_mk]; with_reducible refine kept_of ?_))

theorem State.poolPush_kept {a0 : State} {a1 : Nat} (ha0 : (a0).kept qs u = true) :
    (@State.poolPush a0 a1).kept qs u = true := by
  unfold State.poolPush
  try dsimp only
  repeat' (first
    | with_reducible assumption
    | with_reducible apply State.setPage_kept
    | with_reducible apply State.setField_kept
    | intro _
    | split
    | with_reducible apply kept_fold
    | with_reducible apply kept_fold1
    | with_reducible apply kept_foldW
    | with_reducible apply kept_foldW1
    | with_reducible apply kept_foldH
    | with_reducible apply kept_foldH1
    | with_reducible refine kept_fst ?_ (by with_reducible assumption)
    | with_reducible refine kept_fstW ?_ (by with_reducible assumption)
    | with_reducible refine kept_fstH ?_ (by with_reducible assumption)
    | (simp only [↓kept_mk]; with_reducible refine kept_of ?_))

theorem State.poolTake_kept {a0 : State} {a1 : Nat} {a2 : Nat} (ha0 : (a0).kept qs u = true) :
    (@State.poolTake a0 a1 a2).1.kept qs u = true := by
  unfold State.poolTake
  try dsimp only
  repeat' (first
    | with_reducible assumption
    | with_reducible apply State.setField_kept
    | intro _
    | split
    | with_reducible apply kept_fold
    | with_reducible apply kept_fold1
    | with_reducible apply kept_foldW
    | with_reducible apply kept_foldW1
    | with_reducible apply kept_foldH
    | with_reducible apply kept_foldH1
    | with_reducible refine kept_fst ?_ (by with_reducible assumption)
    | with_reducible refine kept_fstW ?_ (by with_reducible assumption)
    | with_reducible refine kept_fstH ?_ (by with_reducible assumption)
    | (simp only [↓kept_mk]; with_reducible refine kept_of ?_))

theorem State.poolPop_kept {a0 : State} {a1 : Nat} {a2 : Nat} {a3 : Option Nat} (ha0 : (a0).kept qs u = true) :
    (@State.poolPop a0 a1 a2 a3).1.kept qs u = true := by
  unfold State.poolPop
  try dsimp only
  repeat' (first
    | with_reducible assumption
    | with_reducible apply State.poolTake_kept
    | with_reducible apply State.setPage_kept
    | intro _
    | split
    | with_reducible apply kept_fold
    | with_reducible apply kept_fold1
    | with_reducible apply kept_foldW
    | with_reducible apply kept_foldW1
    | with_reducible apply kept_foldH
    | with_reducible apply kept_foldH1
    | with_reducible refine kept_fst ?_ (by with_reducible assumption)
    | with_reducible refine kept_fstW ?_ (by with_reducible assumption)
    | with_reducible refine kept_fstH ?_ (by with_reducible assumption)
    | (simp only [↓kept_mk]; with_reducible refine kept_of ?_))

theorem State.lowerRefsFuel_kept {a0 : Nat} {a1 : State} {a2 : Nat} (ha1 : (a1).kept qs u = true) :
    (@State.lowerRefsFuel a0 a1 a2).1.kept qs u = true := by
  induction a0 generalizing a1 a2 with
  | zero => exact ha1
  | succ n ih =>
    simp only [State.lowerRefsFuel]
    repeat' (first
        | with_reducible apply ih
        | with_reducible apply State.poolPush_kept
        | with_reducible apply State.setPage_kept
        | dsimp only
        | with_reducible assumption
        | intro _
        | split
        | with_reducible apply kept_fold
        | with_reducible apply kept_fold1
        | with_reducible apply kept_foldW
        | with_reducible apply kept_foldW1
        | with_reducible apply kept_foldH
        | with_reducible apply kept_foldH1
        | with_reducible refine kept_fst ?_ (by with_reducible assumption)
        | with_reducible refine kept_fstW ?_ (by with_reducible assumption)
        | with_reducible refine kept_fstH ?_ (by with_reducible assumption)
        | (simp only [↓kept_mk]; with_reducible refine kept_of ?_)
        | (simp only [↓kept_mk]; with_reducible refine kept_setPl ?_ ?_)
        | (simp only [↓kept_mk]; with_reducible refine kept_setNand ?_ ?_)
        | (simp only [↓kept_mk]; with_reducible refine kept_setBed ?_ ?_)
        | (simp only [↓kept_mk]; with_reducible refine kept_setHbm ?_ ?_)
        | (simp only [↓kept_mk]; with_reducible refine kept_setRegs ?_ ?_)
        | (simp only [↓kept_mk]; with_reducible refine kept_setMarks ?_ ?_)
        | with_reducible exact wf_nil _
        | with_reducible exact smapWf_nil _
        | with_reducible apply wf_memWrite
        | with_reducible apply wf_memClear
        | with_reducible apply smapWf_set
        | with_reducible apply smapWf_clear
        | with_reducible apply wf_fold
        | with_reducible refine kept_pl (qs := qs) (u := u) ?_
        | with_reducible refine kept_nand (qs := qs) (u := u) ?_
        | with_reducible refine kept_bed (qs := qs) (u := u) ?_
        | with_reducible refine kept_hbm (qs := qs) (u := u) ?_
        | with_reducible refine kept_regs (qs := qs) (u := u) ?_
        | with_reducible refine kept_marks (qs := qs) (u := u) ?_)

theorem State.lowerRefs_kept {a0 : State} {a1 : Nat} (ha0 : (a0).kept qs u = true) :
    (@State.lowerRefs a0 a1).1.kept qs u = true := by
  unfold State.lowerRefs
  try dsimp only
  repeat' (first
    | with_reducible assumption
    | with_reducible apply State.lowerRefsFuel_kept
    | intro _
    | split
    | with_reducible apply kept_fold
    | with_reducible apply kept_fold1
    | with_reducible apply kept_foldW
    | with_reducible apply kept_foldW1
    | with_reducible apply kept_foldH
    | with_reducible apply kept_foldH1
    | with_reducible refine kept_fst ?_ (by with_reducible assumption)
    | with_reducible refine kept_fstW ?_ (by with_reducible assumption)
    | with_reducible refine kept_fstH ?_ (by with_reducible assumption)
    | (simp only [↓kept_mk]; with_reducible refine kept_of ?_))

theorem State.setPfx_kept {a0 : State} {a1 : Nat} {a2 : Nat} (ha0 : (a0).kept qs u = true) :
    (@State.setPfx a0 a1 a2).kept qs u = true := by
  unfold State.setPfx
  try dsimp only
  repeat' (first
    | with_reducible assumption
    | intro _
    | split
    | with_reducible apply kept_fold
    | with_reducible apply kept_fold1
    | with_reducible apply kept_foldW
    | with_reducible apply kept_foldW1
    | with_reducible apply kept_foldH
    | with_reducible apply kept_foldH1
    | with_reducible refine kept_fst ?_ (by with_reducible assumption)
    | with_reducible refine kept_fstW ?_ (by with_reducible assumption)
    | with_reducible refine kept_fstH ?_ (by with_reducible assumption)
    | (simp only [↓kept_mk]; with_reducible refine kept_of ?_))

theorem State.pfxDrop_kept {a0 : State} {a1 : Nat} (ha0 : (a0).kept qs u = true) :
    (@State.pfxDrop a0 a1).kept qs u = true := by
  unfold State.pfxDrop
  try dsimp only
  repeat' (first
    | with_reducible assumption
    | with_reducible apply State.setPfx_kept
    | with_reducible apply State.lowerRefs_kept
    | with_reducible apply State.setPage_kept
    | intro _
    | split
    | with_reducible apply kept_fold
    | with_reducible apply kept_fold1
    | with_reducible apply kept_foldW
    | with_reducible apply kept_foldW1
    | with_reducible apply kept_foldH
    | with_reducible apply kept_foldH1
    | with_reducible refine kept_fst ?_ (by with_reducible assumption)
    | with_reducible refine kept_fstW ?_ (by with_reducible assumption)
    | with_reducible refine kept_fstH ?_ (by with_reducible assumption)
    | (simp only [↓kept_mk]; with_reducible refine kept_of ?_))

theorem Work.ltRead_kept {a0 : Work} {a1 : Nat} {a2 : Nat} (ha0 : (a0).s.kept qs u = true) :
    (@Work.ltRead a0 a1 a2).1.s.kept qs u = true := by
  unfold Work.ltRead
  try dsimp only
  repeat' (first
    | with_reducible assumption
    | with_reducible apply Work.collect_kept
    | with_reducible apply Work.read_kept
    | intro _
    | split
    | with_reducible apply kept_fold
    | with_reducible apply kept_fold1
    | with_reducible apply kept_foldW
    | with_reducible apply kept_foldW1
    | with_reducible apply kept_foldH
    | with_reducible apply kept_foldH1
    | with_reducible refine kept_fst ?_ (by with_reducible assumption)
    | with_reducible refine kept_fstW ?_ (by with_reducible assumption)
    | with_reducible refine kept_fstH ?_ (by with_reducible assumption)
    | (simp only [↓kept_mk]; with_reducible refine kept_of ?_))

theorem Work.ltStatus_kept {a0 : Work} {a1 : LtEntry} {a2 : Nat} (ha0 : (a0).s.kept qs u = true) :
    (@Work.ltStatus a0 a1 a2).s.kept qs u = true := by
  unfold Work.ltStatus
  try dsimp only
  repeat' (first
    | with_reducible assumption
    | with_reducible apply Work.write_kept
    | intro _
    | split
    | with_reducible apply kept_fold
    | with_reducible apply kept_fold1
    | with_reducible apply kept_foldW
    | with_reducible apply kept_foldW1
    | with_reducible apply kept_foldH
    | with_reducible apply kept_foldH1
    | with_reducible refine kept_fst ?_ (by with_reducible assumption)
    | with_reducible refine kept_fstW ?_ (by with_reducible assumption)
    | with_reducible refine kept_fstH ?_ (by with_reducible assumption)
    | (simp only [↓kept_mk]; with_reducible refine kept_of ?_))

theorem Work.ltCommit_kept {a0 : Work} {a1 : LtEntry} {a2 : Nat} {a3 : Nat} (ha0 : (a0).s.kept qs u = true) :
    (@Work.ltCommit a0 a1 a2 a3).s.kept qs u = true := by
  unfold Work.ltCommit
  try dsimp only
  repeat' (first
    | with_reducible assumption
    | with_reducible apply Work.write_kept
    | intro _
    | split
    | with_reducible apply kept_fold
    | with_reducible apply kept_fold1
    | with_reducible apply kept_foldW
    | with_reducible apply kept_foldW1
    | with_reducible apply kept_foldH
    | with_reducible apply kept_foldH1
    | with_reducible refine kept_fst ?_ (by with_reducible assumption)
    | with_reducible refine kept_fstW ?_ (by with_reducible assumption)
    | with_reducible refine kept_fstH ?_ (by with_reducible assumption)
    | (simp only [↓kept_mk]; with_reducible refine kept_of ?_))

theorem Work.entry_kept {a0 : Work} {a1 : List (Nat × Nat)} {a2 : LtEntry} {a3 : Work → Work} (ha0 : (a0).s.kept qs u = true) (ha3 : ∀ y0, (y0).s.kept qs u = true → (a3 y0).s.kept qs u = true) :
    (@Work.entry a0 a1 a2 a3).1.s.kept qs u = true := by
  unfold Work.entry
  try dsimp only
  repeat' (first
    | with_reducible assumption
    | with_reducible apply Work.ltStatus_kept
    | with_reducible apply ha3
    | intro _
    | split
    | with_reducible apply kept_fold
    | with_reducible apply kept_fold1
    | with_reducible apply kept_foldW
    | with_reducible apply kept_foldW1
    | with_reducible apply kept_foldH
    | with_reducible apply kept_foldH1
    | with_reducible refine kept_fst ?_ (by with_reducible assumption)
    | with_reducible refine kept_fstW ?_ (by with_reducible assumption)
    | with_reducible refine kept_fstH ?_ (by with_reducible assumption)
    | (simp only [↓kept_mk]; with_reducible refine kept_of ?_))

theorem Work.closeEntries_kept {a0 : Work} {a1 : List (Nat × Nat)} (ha0 : (a0).s.kept qs u = true) :
    (@Work.closeEntries a0 a1).s.kept qs u = true := by
  unfold Work.closeEntries
  try dsimp only
  repeat' (first
    | with_reducible assumption
    | intro _
    | split
    | with_reducible apply kept_fold
    | with_reducible apply kept_fold1
    | with_reducible apply kept_foldW
    | with_reducible apply kept_foldW1
    | with_reducible apply kept_foldH
    | with_reducible apply kept_foldH1
    | with_reducible refine kept_fst ?_ (by with_reducible assumption)
    | with_reducible refine kept_fstW ?_ (by with_reducible assumption)
    | with_reducible refine kept_fstH ?_ (by with_reducible assumption)
    | (simp only [↓kept_mk]; with_reducible refine kept_of ?_))

theorem Work.attendSeq_kept {a0 : Work} {a1 : Vou} {a2 : Nat} {a3 : Seq} {a4 : Nat} {a5 : Work → Nat → Nat → Work × List Num × List Num} (ha0 : (a0).s.kept qs u = true) (ha5 : ∀ y0 y1 y2, (y0).s.kept qs u = true → (a5 y0 y1 y2).1.s.kept qs u = true) :
    (@Work.attendSeq a0 a1 a2 a3 a4 a5).1.s.kept qs u = true := by
  unfold Work.attendSeq
  try dsimp only
  repeat' (first
    | with_reducible assumption
    | with_reducible apply Work.collect_kept
    | with_reducible apply Work.read_kept
    | with_reducible apply ha5
    | intro _
    | split
    | with_reducible apply kept_fold
    | with_reducible apply kept_fold1
    | with_reducible apply kept_foldW
    | with_reducible apply kept_foldW1
    | with_reducible apply kept_foldH
    | with_reducible apply kept_foldH1
    | with_reducible refine kept_fst ?_ (by with_reducible assumption)
    | with_reducible refine kept_fstW ?_ (by with_reducible assumption)
    | with_reducible refine kept_fstH ?_ (by with_reducible assumption)
    | (simp only [↓kept_mk]; with_reducible refine kept_of ?_))

theorem Work.attendOut_kept {a0 : Work} {a1 : Vou} {a2 : Nat} {a3 : Nat} {a4 : List (Nat × Nat × Run)} (ha0 : (a0).s.kept qs u = true) :
    (@Work.attendOut a0 a1 a2 a3 a4).s.kept qs u = true := by
  unfold Work.attendOut
  try dsimp only
  repeat' (first
    | with_reducible assumption
    | with_reducible apply Work.each_kept
    | with_reducible apply Work.write_kept
    | intro _
    | split
    | with_reducible apply kept_fold
    | with_reducible apply kept_fold1
    | with_reducible apply kept_foldW
    | with_reducible apply kept_foldW1
    | with_reducible apply kept_foldH
    | with_reducible apply kept_foldH1
    | with_reducible refine kept_fst ?_ (by with_reducible assumption)
    | with_reducible refine kept_fstW ?_ (by with_reducible assumption)
    | with_reducible refine kept_fstH ?_ (by with_reducible assumption)
    | (simp only [↓kept_mk]; with_reducible refine kept_of ?_))

theorem Work.slotKv_kept {a0 : Work} {a1 : Vou} {a2 : Nat} {a3 : Nat} {a4 : Nat} {a5 : Nat} (ha0 : (a0).s.kept qs u = true) :
    (@Work.slotKv a0 a1 a2 a3 a4 a5).1.s.kept qs u = true := by
  unfold Work.slotKv
  try dsimp only
  repeat' (first
    | with_reducible assumption
    | with_reducible apply Work.read_kept
    | intro _
    | split
    | with_reducible apply kept_fold
    | with_reducible apply kept_fold1
    | with_reducible apply kept_foldW
    | with_reducible apply kept_foldW1
    | with_reducible apply kept_foldH
    | with_reducible apply kept_foldH1
    | with_reducible refine kept_fst ?_ (by with_reducible assumption)
    | with_reducible refine kept_fstW ?_ (by with_reducible assumption)
    | with_reducible refine kept_fstH ?_ (by with_reducible assumption)
    | (simp only [↓kept_mk]; with_reducible refine kept_of ?_))

theorem State.popPages_kept {a0 : Nat} {a1 : Nat} {a2 : Nat} {a3 : State} {a4 : Option Nat} (ha3 : (a3).kept qs u = true) :
    (@State.popPages a0 a1 a2 a3 a4).1.kept qs u = true := by
  induction a2 generalizing a3 a4 with
  | zero => exact ha3
  | succ n ih =>
    simp only [State.popPages]
    repeat' (first
        | with_reducible apply ih
        | with_reducible apply State.poolPop_kept
        | with_reducible assumption
        | intro _
        | split
        | with_reducible apply kept_fold
        | with_reducible apply kept_fold1
        | with_reducible apply kept_foldW
        | with_reducible apply kept_foldW1
        | with_reducible apply kept_foldH
        | with_reducible apply kept_foldH1
        | with_reducible refine kept_fst ?_ (by with_reducible assumption)
        | with_reducible refine kept_fstW ?_ (by with_reducible assumption)
        | with_reducible refine kept_fstH ?_ (by with_reducible assumption)
        | (simp only [↓kept_mk]; with_reducible refine kept_of ?_)
        | (simp only [↓kept_mk]; with_reducible refine kept_setPl ?_ ?_)
        | (simp only [↓kept_mk]; with_reducible refine kept_setNand ?_ ?_)
        | (simp only [↓kept_mk]; with_reducible refine kept_setBed ?_ ?_)
        | (simp only [↓kept_mk]; with_reducible refine kept_setHbm ?_ ?_)
        | (simp only [↓kept_mk]; with_reducible refine kept_setRegs ?_ ?_)
        | (simp only [↓kept_mk]; with_reducible refine kept_setMarks ?_ ?_)
        | with_reducible exact wf_nil _
        | with_reducible exact smapWf_nil _
        | with_reducible apply wf_memWrite
        | with_reducible apply wf_memClear
        | with_reducible apply smapWf_set
        | with_reducible apply smapWf_clear
        | with_reducible apply wf_fold
        | with_reducible refine kept_pl (qs := qs) (u := u) ?_
        | with_reducible refine kept_nand (qs := qs) (u := u) ?_
        | with_reducible refine kept_bed (qs := qs) (u := u) ?_
        | with_reducible refine kept_hbm (qs := qs) (u := u) ?_
        | with_reducible refine kept_regs (qs := qs) (u := u) ?_
        | with_reducible refine kept_marks (qs := qs) (u := u) ?_)

theorem Work.allocate_kept {a0 : Work} {a1 : Vou} {a2 : Nat} {a3 : List LtEntry} (ha0 : (a0).s.kept qs u = true) :
    (@Work.allocate a0 a1 a2 a3).1.s.kept qs u = true := by
  unfold Work.allocate
  try dsimp only
  repeat' (first
    | with_reducible assumption
    | with_reducible apply Work.collect_kept
    | with_reducible apply State.popPages_kept
    | with_reducible apply State.poolPush_kept
    | intro _
    | split
    | with_reducible apply kept_fold
    | with_reducible apply kept_fold1
    | with_reducible apply kept_foldW
    | with_reducible apply kept_foldW1
    | with_reducible apply kept_foldH
    | with_reducible apply kept_foldH1
    | with_reducible refine kept_fst ?_ (by with_reducible assumption)
    | with_reducible refine kept_fstW ?_ (by with_reducible assumption)
    | with_reducible refine kept_fstH ?_ (by with_reducible assumption)
    | (simp only [↓kept_mk]; with_reducible refine kept_of ?_))

theorem Work.attendEntry_kept {a0 : Work} {a1 : Vou} {a2 : Nat} {a3 : Nat} {a4 : Alloc} (ha0 : (a0).s.kept qs u = true) :
    (@Work.attendEntry a0 a1 a2 a3 a4).s.kept qs u = true := by
  unfold Work.attendEntry
  try dsimp only
  repeat' (first
    | with_reducible assumption
    | with_reducible apply Work.fail_kept
    | with_reducible apply Work.collect_kept
    | with_reducible apply Work.read_kept
    | with_reducible apply Work.write_kept
    | with_reducible apply Work.slotKv_kept
    | with_reducible apply Work.attendSeq_kept
    | with_reducible apply Work.attendOut_kept
    | with_reducible apply Work.ltCommit_kept
    | with_reducible apply Work.tally_kept
    | with_reducible apply Work.stalled_kept
    | intro _
    | split
    | with_reducible apply kept_fold
    | with_reducible apply kept_fold1
    | with_reducible apply kept_foldW
    | with_reducible apply kept_foldW1
    | with_reducible apply kept_foldH
    | with_reducible apply kept_foldH1
    | with_reducible refine kept_fst ?_ (by with_reducible assumption)
    | with_reducible refine kept_fstW ?_ (by with_reducible assumption)
    | with_reducible refine kept_fstH ?_ (by with_reducible assumption)
    | (simp only [↓kept_mk]; with_reducible refine kept_of ?_))

theorem Work.attendTable_kept {a0 : Work} {a1 : Flight} {a2 : Vou} {a3 : Nat} (ha0 : (a0).s.kept qs u = true) :
    (@Work.attendTable a0 a1 a2 a3).s.kept qs u = true := by
  unfold Work.attendTable
  try dsimp only
  repeat' (first
    | with_reducible assumption
    | with_reducible apply Work.ltRead_kept
    | with_reducible apply Work.checkFields_kept
    | with_reducible apply Work.allocate_kept
    | with_reducible apply Work.entry_kept
    | with_reducible apply Work.attendEntry_kept
    | with_reducible apply State.poolPush_kept
    | with_reducible apply Work.closeEntries_kept
    | with_reducible apply Work.mapS_kept
    | with_reducible apply State.event_kept
    | with_reducible apply State.count_kept
    | intro _
    | split
    | with_reducible apply kept_fold
    | with_reducible apply kept_fold1
    | with_reducible apply kept_foldW
    | with_reducible apply kept_foldW1
    | with_reducible apply kept_foldH
    | with_reducible apply kept_foldH1
    | with_reducible refine kept_fst ?_ (by with_reducible assumption)
    | with_reducible refine kept_fstW ?_ (by with_reducible assumption)
    | with_reducible refine kept_fstH ?_ (by with_reducible assumption)
    | (simp only [↓kept_mk]; with_reducible refine kept_of ?_))

theorem Work.attendBlock_kept {a0 : Work} {a1 : Flight} {a2 : Vou} {a3 : Nat} (ha0 : (a0).s.kept qs u = true) :
    (@Work.attendBlock a0 a1 a2 a3).s.kept qs u = true := by
  unfold Work.attendBlock
  try dsimp only
  repeat' (first
    | with_reducible assumption
    | with_reducible apply Work.slotKv_kept
    | with_reducible apply Work.attendSeq_kept
    | with_reducible apply Work.attendOut_kept
    | with_reducible apply Work.tally_kept
    | with_reducible apply Work.stalled_kept
    | intro _
    | split
    | with_reducible apply kept_fold
    | with_reducible apply kept_fold1
    | with_reducible apply kept_foldW
    | with_reducible apply kept_foldW1
    | with_reducible apply kept_foldH
    | with_reducible apply kept_foldH1
    | with_reducible refine kept_fst ?_ (by with_reducible assumption)
    | with_reducible refine kept_fstW ?_ (by with_reducible assumption)
    | with_reducible refine kept_fstH ?_ (by with_reducible assumption)
    | (simp only [↓kept_mk]; with_reducible refine kept_of ?_))

theorem Work.poolGive_kept {a0 : Work} {a1 : Flight} {a2 : Vou} (ha0 : (a0).s.kept qs u = true) :
    (@Work.poolGive a0 a1 a2).s.kept qs u = true := by
  unfold Work.poolGive
  try dsimp only
  repeat' (first
    | with_reducible assumption
    | with_reducible apply Work.read_kept
    | with_reducible apply Work.fail_kept
    | with_reducible apply Work.mapS_kept
    | with_reducible apply State.setPage_kept
    | with_reducible apply State.poolPush_kept
    | intro _
    | split
    | with_reducible apply kept_fold
    | with_reducible apply kept_fold1
    | with_reducible apply kept_foldW
    | with_reducible apply kept_foldW1
    | with_reducible apply kept_foldH
    | with_reducible apply kept_foldH1
    | with_reducible refine kept_fst ?_ (by with_reducible assumption)
    | with_reducible refine kept_fstW ?_ (by with_reducible assumption)
    | with_reducible refine kept_fstH ?_ (by with_reducible assumption)
    | (simp only [↓kept_mk]; with_reducible refine kept_of ?_))

theorem State.reclaim_kept {a0 : Nat} {a1 : Nat} {a2 : Nat} {a3 : State} (ha3 : (a3).kept qs u = true) :
    (@State.reclaim a0 a1 a2 a3).1.kept qs u = true := by
  induction a2 generalizing a3 with
  | zero => exact ha3
  | succ n ih =>
    simp only [State.reclaim]
    repeat' (first
        | with_reducible apply ih
        | with_reducible apply State.poolTake_kept
        | with_reducible apply State.setPage_kept
        | with_reducible assumption
        | intro _
        | split
        | with_reducible apply kept_fold
        | with_reducible apply kept_fold1
        | with_reducible apply kept_foldW
        | with_reducible apply kept_foldW1
        | with_reducible apply kept_foldH
        | with_reducible apply kept_foldH1
        | with_reducible refine kept_fst ?_ (by with_reducible assumption)
        | with_reducible refine kept_fstW ?_ (by with_reducible assumption)
        | with_reducible refine kept_fstH ?_ (by with_reducible assumption)
        | (simp only [↓kept_mk]; with_reducible refine kept_of ?_)
        | (simp only [↓kept_mk]; with_reducible refine kept_setPl ?_ ?_)
        | (simp only [↓kept_mk]; with_reducible refine kept_setNand ?_ ?_)
        | (simp only [↓kept_mk]; with_reducible refine kept_setBed ?_ ?_)
        | (simp only [↓kept_mk]; with_reducible refine kept_setHbm ?_ ?_)
        | (simp only [↓kept_mk]; with_reducible refine kept_setRegs ?_ ?_)
        | (simp only [↓kept_mk]; with_reducible refine kept_setMarks ?_ ?_)
        | with_reducible exact wf_nil _
        | with_reducible exact smapWf_nil _
        | with_reducible apply wf_memWrite
        | with_reducible apply wf_memClear
        | with_reducible apply smapWf_set
        | with_reducible apply smapWf_clear
        | with_reducible apply wf_fold
        | with_reducible refine kept_pl (qs := qs) (u := u) ?_
        | with_reducible refine kept_nand (qs := qs) (u := u) ?_
        | with_reducible refine kept_bed (qs := qs) (u := u) ?_
        | with_reducible refine kept_hbm (qs := qs) (u := u) ?_
        | with_reducible refine kept_regs (qs := qs) (u := u) ?_
        | with_reducible refine kept_marks (qs := qs) (u := u) ?_)

theorem Work.poolReclaim_kept {a0 : Work} {a1 : Flight} {a2 : Vou} (ha0 : (a0).s.kept qs u = true) :
    (@Work.poolReclaim a0 a1 a2).s.kept qs u = true := by
  unfold Work.poolReclaim
  try dsimp only
  repeat' (first
    | with_reducible assumption
    | with_reducible apply State.reclaim_kept
    | with_reducible apply Work.write_kept
    | with_reducible apply Work.andThen_kept
    | intro _
    | split
    | with_reducible apply kept_fold
    | with_reducible apply kept_fold1
    | with_reducible apply kept_foldW
    | with_reducible apply kept_foldW1
    | with_reducible apply kept_foldH
    | with_reducible apply kept_foldH1
    | with_reducible refine kept_fst ?_ (by with_reducible assumption)
    | with_reducible refine kept_fstW ?_ (by with_reducible assumption)
    | with_reducible refine kept_fstH ?_ (by with_reducible assumption)
    | (simp only [↓kept_mk]; with_reducible refine kept_of ?_))

theorem Work.overEntries_kept {a0 : Work} {a1 : Vou} {a2 : Work → LtEntry → Work} (ha0 : (a0).s.kept qs u = true) (ha2 : ∀ y0 y1, (y0).s.kept qs u = true → (a2 y0 y1).s.kept qs u = true) :
    (@Work.overEntries a0 a1 a2).s.kept qs u = true := by
  unfold Work.overEntries
  try dsimp only
  repeat' (first
    | with_reducible assumption
    | with_reducible apply Work.ltRead_kept
    | with_reducible apply Work.checkFields_kept
    | with_reducible apply Work.entry_kept
    | with_reducible apply Work.closeEntries_kept
    | with_reducible apply ha2
    | intro _
    | split
    | with_reducible apply kept_fold
    | with_reducible apply kept_fold1
    | with_reducible apply kept_foldW
    | with_reducible apply kept_foldW1
    | with_reducible apply kept_foldH
    | with_reducible apply kept_foldH1
    | with_reducible refine kept_fst ?_ (by with_reducible assumption)
    | with_reducible refine kept_fstW ?_ (by with_reducible assumption)
    | with_reducible refine kept_fstH ?_ (by with_reducible assumption)
    | (simp only [↓kept_mk]; with_reducible refine kept_of ?_))

theorem Work.chainFree_kept {a0 : Work} {a1 : Nat} {a2 : Nat} {a3 : LtEntry} (ha0 : (a0).s.kept qs u = true) :
    (@Work.chainFree a0 a1 a2 a3).s.kept qs u = true := by
  unfold Work.chainFree
  try dsimp only
  repeat' (first
    | with_reducible assumption
    | with_reducible apply Work.fail_kept
    | with_reducible apply Work.write_kept
    | with_reducible apply Work.andThen_kept
    | with_reducible apply State.lowerRefs_kept
    | with_reducible apply State.stall_kept
    | intro _
    | split
    | with_reducible apply kept_fold
    | with_reducible apply kept_fold1
    | with_reducible apply kept_foldW
    | with_reducible apply kept_foldW1
    | with_reducible apply kept_foldH
    | with_reducible apply kept_foldH1
    | with_reducible refine kept_fst ?_ (by with_reducible assumption)
    | with_reducible refine kept_fstW ?_ (by with_reducible assumption)
    | with_reducible refine kept_fstH ?_ (by with_reducible assumption)
    | (simp only [↓kept_mk]; with_reducible refine kept_of ?_))

theorem Work.hashPages_kept {a0 : Work} {a1 : Nat} {a2 : Nat} {a3 : Nat} {a4 : Nat} {a5 : Nat} {a6 : Nat} {a7 : Nat} (ha0 : (a0).s.kept qs u = true) :
    (@Work.hashPages a0 a1 a2 a3 a4 a5 a6 a7).1.s.kept qs u = true := by
  induction a5 generalizing a0 a6 a7 with
  | zero => exact ha0
  | succ n ih =>
    simp only [Work.hashPages]
    repeat' (first
        | with_reducible apply ih
        | with_reducible apply Work.read_kept
        | with_reducible assumption
        | intro _
        | split
        | with_reducible apply kept_fold
        | with_reducible apply kept_fold1
        | with_reducible apply kept_foldW
        | with_reducible apply kept_foldW1
        | with_reducible apply kept_foldH
        | with_reducible apply kept_foldH1
        | with_reducible refine kept_fst ?_ (by with_reducible assumption)
        | with_reducible refine kept_fstW ?_ (by with_reducible assumption)
        | with_reducible refine kept_fstH ?_ (by with_reducible assumption)
        | (simp only [↓kept_mk]; with_reducible refine kept_of ?_)
        | (simp only [↓kept_mk]; with_reducible refine kept_setPl ?_ ?_)
        | (simp only [↓kept_mk]; with_reducible refine kept_setNand ?_ ?_)
        | (simp only [↓kept_mk]; with_reducible refine kept_setBed ?_ ?_)
        | (simp only [↓kept_mk]; with_reducible refine kept_setHbm ?_ ?_)
        | (simp only [↓kept_mk]; with_reducible refine kept_setRegs ?_ ?_)
        | (simp only [↓kept_mk]; with_reducible refine kept_setMarks ?_ ?_)
        | with_reducible exact wf_nil _
        | with_reducible exact smapWf_nil _
        | with_reducible apply wf_memWrite
        | with_reducible apply wf_memClear
        | with_reducible apply smapWf_set
        | with_reducible apply smapWf_clear
        | with_reducible apply wf_fold
        | with_reducible refine kept_pl (qs := qs) (u := u) ?_
        | with_reducible refine kept_nand (qs := qs) (u := u) ?_
        | with_reducible refine kept_bed (qs := qs) (u := u) ?_
        | with_reducible refine kept_hbm (qs := qs) (u := u) ?_
        | with_reducible refine kept_regs (qs := qs) (u := u) ?_
        | with_reducible refine kept_marks (qs := qs) (u := u) ?_)

theorem Work.prefixMatch_kept {a0 : Work} {a1 : Nat} {a2 : Nat} {a3 : Vou} {a4 : LtEntry} (ha0 : (a0).s.kept qs u = true) :
    (@Work.prefixMatch a0 a1 a2 a3 a4).s.kept qs u = true := by
  unfold Work.prefixMatch
  try dsimp only
  repeat' (first
    | with_reducible assumption
    | with_reducible apply Work.fail_kept
    | with_reducible apply Work.hashPages_kept
    | with_reducible apply Work.mapS_kept
    | with_reducible apply State.stall_kept
    | with_reducible apply Work.ltCommit_kept
    | with_reducible apply Work.andThen_kept
    | with_reducible apply State.setPage_kept
    | intro _
    | split
    | with_reducible apply kept_fold
    | with_reducible apply kept_fold1
    | with_reducible apply kept_foldW
    | with_reducible apply kept_foldW1
    | with_reducible apply kept_foldH
    | with_reducible apply kept_foldH1
    | with_reducible refine kept_fst ?_ (by with_reducible assumption)
    | with_reducible refine kept_fstW ?_ (by with_reducible assumption)
    | with_reducible refine kept_fstH ?_ (by with_reducible assumption)
    | (simp only [↓kept_mk]; with_reducible refine kept_of ?_))

theorem Work.publishPage_kept {a0 : Work} {a1 : Nat} {a2 : Nat} {a3 : Nat} (ha0 : (a0).s.kept qs u = true) :
    (@Work.publishPage a0 a1 a2 a3).s.kept qs u = true := by
  unfold Work.publishPage
  try dsimp only
  repeat' (first
    | with_reducible assumption
    | with_reducible apply Work.fail_kept
    | with_reducible apply Work.mapS_kept
    | with_reducible apply State.count_kept
    | with_reducible apply State.setPfx_kept
    | with_reducible apply State.setPage_kept
    | intro _
    | split
    | with_reducible apply kept_fold
    | with_reducible apply kept_fold1
    | with_reducible apply kept_foldW
    | with_reducible apply kept_foldW1
    | with_reducible apply kept_foldH
    | with_reducible apply kept_foldH1
    | with_reducible refine kept_fst ?_ (by with_reducible assumption)
    | with_reducible refine kept_fstW ?_ (by with_reducible assumption)
    | with_reducible refine kept_fstH ?_ (by with_reducible assumption)
    | (simp only [↓kept_mk]; with_reducible refine kept_of ?_))

theorem Work.prefixPublish_kept {a0 : Work} {a1 : Nat} {a2 : Nat} {a3 : Vou} {a4 : LtEntry} (ha0 : (a0).s.kept qs u = true) :
    (@Work.prefixPublish a0 a1 a2 a3 a4).s.kept qs u = true := by
  unfold Work.prefixPublish
  try dsimp only
  repeat' (first
    | with_reducible assumption
    | with_reducible apply Work.fail_kept
    | with_reducible apply Work.hashPages_kept
    | with_reducible apply Work.mapS_kept
    | with_reducible apply State.stall_kept
    | with_reducible apply Work.each_kept
    | with_reducible apply Work.publishPage_kept
    | intro _
    | split
    | with_reducible apply kept_fold
    | with_reducible apply kept_fold1
    | with_reducible apply kept_foldW
    | with_reducible apply kept_foldW1
    | with_reducible apply kept_foldH
    | with_reducible apply kept_foldH1
    | with_reducible refine kept_fst ?_ (by with_reducible assumption)
    | with_reducible refine kept_fstW ?_ (by with_reducible assumption)
    | with_reducible refine kept_fstH ?_ (by with_reducible assumption)
    | (simp only [↓kept_mk]; with_reducible refine kept_of ?_))

theorem State.dropChain_kept {a0 : State} {a1 : Nat} {a2 : List Nat} (ha0 : (a0).kept qs u = true) :
    (@State.dropChain a0 a1 a2).kept qs u = true := by
  unfold State.dropChain
  try dsimp only
  repeat' (first
    | with_reducible assumption
    | with_reducible apply State.pfxDrop_kept
    | intro _
    | split
    | with_reducible apply kept_fold
    | with_reducible apply kept_fold1
    | with_reducible apply kept_foldW
    | with_reducible apply kept_foldW1
    | with_reducible apply kept_foldH
    | with_reducible apply kept_foldH1
    | with_reducible refine kept_fst ?_ (by with_reducible assumption)
    | with_reducible refine kept_fstW ?_ (by with_reducible assumption)
    | with_reducible refine kept_fstH ?_ (by with_reducible assumption)
    | (simp only [↓kept_mk]; with_reducible refine kept_of ?_))

theorem Work.prefixDrop_kept {a0 : Work} {a1 : Nat} {a2 : Nat} {a3 : LtEntry} (ha0 : (a0).s.kept qs u = true) :
    (@Work.prefixDrop a0 a1 a2 a3).s.kept qs u = true := by
  unfold Work.prefixDrop
  try dsimp only
  repeat' (first
    | with_reducible assumption
    | with_reducible apply Work.fail_kept
    | with_reducible apply Work.mapS_kept
    | with_reducible apply State.stall_kept
    | with_reducible apply State.dropChain_kept
    | intro _
    | split
    | with_reducible apply kept_fold
    | with_reducible apply kept_fold1
    | with_reducible apply kept_foldW
    | with_reducible apply kept_foldW1
    | with_reducible apply kept_foldH
    | with_reducible apply kept_foldH1
    | with_reducible refine kept_fst ?_ (by with_reducible assumption)
    | with_reducible refine kept_fstW ?_ (by with_reducible assumption)
    | with_reducible refine kept_fstH ?_ (by with_reducible assumption)
    | (simp only [↓kept_mk]; with_reducible refine kept_of ?_))

theorem State.dropAll_kept {a0 : State} {a1 : Nat} (ha0 : (a0).kept qs u = true) :
    (@State.dropAll a0 a1).kept qs u = true := by
  unfold State.dropAll
  try dsimp only
  repeat' (first
    | with_reducible assumption
    | with_reducible apply State.pfxDrop_kept
    | intro _
    | split
    | with_reducible apply kept_fold
    | with_reducible apply kept_fold1
    | with_reducible apply kept_foldW
    | with_reducible apply kept_foldW1
    | with_reducible apply kept_foldH
    | with_reducible apply kept_foldH1
    | with_reducible refine kept_fst ?_ (by with_reducible assumption)
    | with_reducible refine kept_fstW ?_ (by with_reducible assumption)
    | with_reducible refine kept_fstH ?_ (by with_reducible assumption)
    | (simp only [↓kept_mk]; with_reducible refine kept_of ?_))

theorem Work.veParams_kept {a0 : Work} {a1 : BitVec 1024} (ha0 : (a0).s.kept qs u = true) :
    (@Work.veParams a0 a1).1.s.kept qs u = true := by
  unfold Work.veParams
  try dsimp only
  repeat' (first
    | with_reducible assumption
    | with_reducible apply Work.read_kept
    | with_reducible apply Work.checkFields_kept
    | intro _
    | split
    | with_reducible apply kept_fold
    | with_reducible apply kept_fold1
    | with_reducible apply kept_foldW
    | with_reducible apply kept_foldW1
    | with_reducible apply kept_foldH
    | with_reducible apply kept_foldH1
    | with_reducible refine kept_fst ?_ (by with_reducible assumption)
    | with_reducible refine kept_fstW ?_ (by with_reducible assumption)
    | with_reducible refine kept_fstH ?_ (by with_reducible assumption)
    | (simp only [↓kept_mk]; with_reducible refine kept_of ?_))

theorem State.scramble_kept {a0 : State} {a1 : Nat} {a2 : Nat} {a3 : Nat} (ha0 : (a0).kept qs u = true) :
    (@State.scramble a0 a1 a2 a3).kept qs u = true := by
  unfold State.scramble
  try dsimp only
  repeat' (first
    | with_reducible assumption
    | with_reducible apply State.writeFor_kept
    | with_reducible apply State.tick_kept
    | intro _
    | split
    | with_reducible apply kept_fold
    | with_reducible apply kept_fold1
    | with_reducible apply kept_foldW
    | with_reducible apply kept_foldW1
    | with_reducible apply kept_foldH
    | with_reducible apply kept_foldH1
    | with_reducible refine kept_fst ?_ (by with_reducible assumption)
    | with_reducible refine kept_fstW ?_ (by with_reducible assumption)
    | with_reducible refine kept_fstH ?_ (by with_reducible assumption)
    | (simp only [↓kept_mk]; with_reducible refine kept_of ?_))

theorem State.scramblePage_kept {a0 : State} {a1 : Nat} {a2 : Nat} {a3 : Nat} (ha0 : (a0).kept qs u = true) :
    (@State.scramblePage a0 a1 a2 a3).kept qs u = true := by
  unfold State.scramblePage
  try dsimp only
  repeat' (first
    | with_reducible assumption
    | with_reducible apply State.setPage_kept
    | with_reducible apply State.tick_kept
    | with_reducible apply State.scramble_kept
    | intro _
    | split
    | with_reducible apply kept_fold
    | with_reducible apply kept_fold1
    | with_reducible apply kept_foldW
    | with_reducible apply kept_foldW1
    | with_reducible apply kept_foldH
    | with_reducible apply kept_foldH1
    | with_reducible refine kept_fst ?_ (by with_reducible assumption)
    | with_reducible refine kept_fstW ?_ (by with_reducible assumption)
    | with_reducible refine kept_fstH ?_ (by with_reducible assumption)
    | (simp only [↓kept_mk]; with_reducible refine kept_of ?_))

theorem State.scrambleOut_kept {a0 : State} {a1 : Nat} {a2 : Vou} {a3 : List LtEntry} (ha0 : (a0).kept qs u = true) :
    (@State.scrambleOut a0 a1 a2 a3).kept qs u = true := by
  unfold State.scrambleOut
  try dsimp only
  repeat' (first
    | with_reducible assumption
    | with_reducible apply State.scramble_kept
    | intro _
    | split
    | with_reducible apply kept_fold
    | with_reducible apply kept_fold1
    | with_reducible apply kept_foldW
    | with_reducible apply kept_foldW1
    | with_reducible apply kept_foldH
    | with_reducible apply kept_foldH1
    | with_reducible refine kept_fst ?_ (by with_reducible assumption)
    | with_reducible refine kept_fstW ?_ (by with_reducible assumption)
    | with_reducible refine kept_fstH ?_ (by with_reducible assumption)
    | (simp only [↓kept_mk]; with_reducible refine kept_of ?_))

theorem Work.untangle_kept {a0 : Work} {a1 : Flight} {a2 : Vou} {a3 : List (Flight × Vou)} {a4 : List LtEntry} (ha0 : (a0).s.kept qs u = true) :
    (@Work.untangle a0 a1 a2 a3 a4).s.kept qs u = true := by
  unfold Work.untangle
  try dsimp only
  repeat' (first
    | with_reducible assumption
    | with_reducible apply Work.openOutputs_kept
    | with_reducible apply Work.mapS_kept
    | with_reducible apply State.scramble_kept
    | with_reducible apply State.scramblePage_kept
    | with_reducible apply State.scrambleOut_kept
    | with_reducible apply State.putFlight_kept
    | intro _
    | split
    | with_reducible apply kept_fold
    | with_reducible apply kept_fold1
    | with_reducible apply kept_foldW
    | with_reducible apply kept_foldW1
    | with_reducible apply kept_foldH
    | with_reducible apply kept_foldH1
    | with_reducible refine kept_fst ?_ (by with_reducible assumption)
    | with_reducible refine kept_fstW ?_ (by with_reducible assumption)
    | with_reducible refine kept_fstH ?_ (by with_reducible assumption)
    | (simp only [↓kept_mk]; with_reducible refine kept_of ?_))

theorem Work.veOperate_kept {a0 : Work} {a1 : Flight} {a2 : Vou} (ha0 : (a0).s.kept qs u = true) :
    (@Work.veOperate a0 a1 a2).s.kept qs u = true := by
  unfold Work.veOperate
  try dsimp only
  repeat' (first
    | with_reducible assumption
    | with_reducible apply Work.each_kept
    | with_reducible apply Work.needLocal_kept
    | with_reducible apply Work.stalled_kept
    | with_reducible apply Work.andThen_kept
    | with_reducible apply Work.attendBlock_kept
    | with_reducible apply Work.attendTable_kept
    | with_reducible apply Work.mapS_kept
    | with_reducible apply Work.poolGive_kept
    | with_reducible apply State.stall_kept
    | with_reducible apply Work.poolReclaim_kept
    | with_reducible apply Work.overEntries_kept
    | with_reducible apply Work.chainFree_kept
    | with_reducible apply Work.prefixMatch_kept
    | with_reducible apply Work.prefixPublish_kept
    | with_reducible apply State.dropAll_kept
    | with_reducible apply Work.prefixDrop_kept
    | intro _
    | split
    | with_reducible apply kept_fold
    | with_reducible apply kept_fold1
    | with_reducible apply kept_foldW
    | with_reducible apply kept_foldW1
    | with_reducible apply kept_foldH
    | with_reducible apply kept_foldH1
    | with_reducible refine kept_fst ?_ (by with_reducible assumption)
    | with_reducible refine kept_fstW ?_ (by with_reducible assumption)
    | with_reducible refine kept_fstH ?_ (by with_reducible assumption)
    | (simp only [↓kept_mk]; with_reducible refine kept_of ?_))

theorem veRun_kept {a0 : Flight} {a1 : Work} (ha1 : (a1).s.kept qs u = true) :
    (@veRun a0 a1).s.kept qs u = true := by
  unfold veRun
  try dsimp only
  repeat' (first
    | with_reducible assumption
    | with_reducible apply Work.veParams_kept
    | with_reducible apply Work.untangle_kept
    | with_reducible apply Work.veOperate_kept
    | intro _
    | split
    | with_reducible apply kept_fold
    | with_reducible apply kept_fold1
    | with_reducible apply kept_foldW
    | with_reducible apply kept_foldW1
    | with_reducible apply kept_foldH
    | with_reducible apply kept_foldH1
    | with_reducible refine kept_fst ?_ (by with_reducible assumption)
    | with_reducible refine kept_fstW ?_ (by with_reducible assumption)
    | with_reducible refine kept_fstH ?_ (by with_reducible assumption)
    | (simp only [↓kept_mk]; with_reducible refine kept_of ?_))

theorem State.veFlight_kept {a0 : State} {a1 : Nat} {a2 : Nat} (ha0 : (a0).kept qs u = true) :
    (@State.veFlight a0 a1 a2).kept qs u = true := by
  unfold State.veFlight
  try dsimp only
  repeat' (first
    | with_reducible assumption
    | with_reducible apply State.runFlight_kept
    | with_reducible apply veRun_kept
    | intro _
    | split
    | with_reducible apply kept_fold
    | with_reducible apply kept_fold1
    | with_reducible apply kept_foldW
    | with_reducible apply kept_foldW1
    | with_reducible apply kept_foldH
    | with_reducible apply kept_foldH1
    | with_reducible refine kept_fst ?_ (by with_reducible assumption)
    | with_reducible refine kept_fstW ?_ (by with_reducible assumption)
    | with_reducible refine kept_fstH ?_ (by with_reducible assumption)
    | (simp only [↓kept_mk]; with_reducible refine kept_of ?_))

theorem execAttend_kept {a0 : Nat} {a1 : State} (ha1 : (a1).kept qs u = true) :
    ∀ t, @execAttend a0 a1 = .next t → t.kept qs u = true := by
  unfold execAttend
  refine live_kept ha1 ?_
  try dsimp only
  repeat' (first
    | with_reducible assumption
    | with_reducible apply State.veFlight_kept
    | intro _
    | split
    | with_reducible apply kept_fold
    | with_reducible apply kept_fold1
    | with_reducible apply kept_foldW
    | with_reducible apply kept_foldW1
    | with_reducible apply kept_foldH
    | with_reducible apply kept_foldH1
    | with_reducible refine kept_fst ?_ (by with_reducible assumption)
    | with_reducible refine kept_fstW ?_ (by with_reducible assumption)
    | with_reducible refine kept_fstH ?_ (by with_reducible assumption)
    | (simp only [↓kept_mk]; with_reducible refine kept_of ?_))

theorem execPoolGive_kept {a0 : Nat} {a1 : State} (ha1 : (a1).kept qs u = true) :
    ∀ t, @execPoolGive a0 a1 = .next t → t.kept qs u = true := by
  unfold execPoolGive
  refine live_kept ha1 ?_
  try dsimp only
  repeat' (first
    | with_reducible assumption
    | with_reducible apply State.veFlight_kept
    | intro _
    | split
    | with_reducible apply kept_fold
    | with_reducible apply kept_fold1
    | with_reducible apply kept_foldW
    | with_reducible apply kept_foldW1
    | with_reducible apply kept_foldH
    | with_reducible apply kept_foldH1
    | with_reducible refine kept_fst ?_ (by with_reducible assumption)
    | with_reducible refine kept_fstW ?_ (by with_reducible assumption)
    | with_reducible refine kept_fstH ?_ (by with_reducible assumption)
    | (simp only [↓kept_mk]; with_reducible refine kept_of ?_))

theorem execPoolReclaim_kept {a0 : Nat} {a1 : State} (ha1 : (a1).kept qs u = true) :
    ∀ t, @execPoolReclaim a0 a1 = .next t → t.kept qs u = true := by
  unfold execPoolReclaim
  refine live_kept ha1 ?_
  try dsimp only
  repeat' (first
    | with_reducible assumption
    | with_reducible apply State.veFlight_kept
    | intro _
    | split
    | with_reducible apply kept_fold
    | with_reducible apply kept_fold1
    | with_reducible apply kept_foldW
    | with_reducible apply kept_foldW1
    | with_reducible apply kept_foldH
    | with_reducible apply kept_foldH1
    | with_reducible refine kept_fst ?_ (by with_reducible assumption)
    | with_reducible refine kept_fstW ?_ (by with_reducible assumption)
    | with_reducible refine kept_fstH ?_ (by with_reducible assumption)
    | (simp only [↓kept_mk]; with_reducible refine kept_of ?_))

theorem execChainFree_kept {a0 : Nat} {a1 : State} (ha1 : (a1).kept qs u = true) :
    ∀ t, @execChainFree a0 a1 = .next t → t.kept qs u = true := by
  unfold execChainFree
  refine live_kept ha1 ?_
  try dsimp only
  repeat' (first
    | with_reducible assumption
    | with_reducible apply State.veFlight_kept
    | intro _
    | split
    | with_reducible apply kept_fold
    | with_reducible apply kept_fold1
    | with_reducible apply kept_foldW
    | with_reducible apply kept_foldW1
    | with_reducible apply kept_foldH
    | with_reducible apply kept_foldH1
    | with_reducible refine kept_fst ?_ (by with_reducible assumption)
    | with_reducible refine kept_fstW ?_ (by with_reducible assumption)
    | with_reducible refine kept_fstH ?_ (by with_reducible assumption)
    | (simp only [↓kept_mk]; with_reducible refine kept_of ?_))

theorem execPrefixMatch_kept {a0 : Nat} {a1 : State} (ha1 : (a1).kept qs u = true) :
    ∀ t, @execPrefixMatch a0 a1 = .next t → t.kept qs u = true := by
  unfold execPrefixMatch
  refine live_kept ha1 ?_
  try dsimp only
  repeat' (first
    | with_reducible assumption
    | with_reducible apply State.veFlight_kept
    | intro _
    | split
    | with_reducible apply kept_fold
    | with_reducible apply kept_fold1
    | with_reducible apply kept_foldW
    | with_reducible apply kept_foldW1
    | with_reducible apply kept_foldH
    | with_reducible apply kept_foldH1
    | with_reducible refine kept_fst ?_ (by with_reducible assumption)
    | with_reducible refine kept_fstW ?_ (by with_reducible assumption)
    | with_reducible refine kept_fstH ?_ (by with_reducible assumption)
    | (simp only [↓kept_mk]; with_reducible refine kept_of ?_))

theorem execPrefixPublish_kept {a0 : Nat} {a1 : State} (ha1 : (a1).kept qs u = true) :
    ∀ t, @execPrefixPublish a0 a1 = .next t → t.kept qs u = true := by
  unfold execPrefixPublish
  refine live_kept ha1 ?_
  try dsimp only
  repeat' (first
    | with_reducible assumption
    | with_reducible apply State.veFlight_kept
    | intro _
    | split
    | with_reducible apply kept_fold
    | with_reducible apply kept_fold1
    | with_reducible apply kept_foldW
    | with_reducible apply kept_foldW1
    | with_reducible apply kept_foldH
    | with_reducible apply kept_foldH1
    | with_reducible refine kept_fst ?_ (by with_reducible assumption)
    | with_reducible refine kept_fstW ?_ (by with_reducible assumption)
    | with_reducible refine kept_fstH ?_ (by with_reducible assumption)
    | (simp only [↓kept_mk]; with_reducible refine kept_of ?_))

theorem execPrefixDrop_kept {a0 : Nat} {a1 : State} (ha1 : (a1).kept qs u = true) :
    ∀ t, @execPrefixDrop a0 a1 = .next t → t.kept qs u = true := by
  unfold execPrefixDrop
  refine live_kept ha1 ?_
  try dsimp only
  repeat' (first
    | with_reducible assumption
    | with_reducible apply State.veFlight_kept
    | intro _
    | split
    | with_reducible apply kept_fold
    | with_reducible apply kept_fold1
    | with_reducible apply kept_foldW
    | with_reducible apply kept_foldW1
    | with_reducible apply kept_foldH
    | with_reducible apply kept_foldH1
    | with_reducible refine kept_fst ?_ (by with_reducible assumption)
    | with_reducible refine kept_fstW ?_ (by with_reducible assumption)
    | with_reducible refine kept_fstH ?_ (by with_reducible assumption)
    | (simp only [↓kept_mk]; with_reducible refine kept_of ?_))

theorem Work.leParams_kept {a0 : Work} {a1 : BitVec 1024} (ha0 : (a0).s.kept qs u = true) :
    (@Work.leParams a0 a1).1.s.kept qs u = true := by
  unfold Work.leParams
  try dsimp only
  repeat' (first
    | with_reducible assumption
    | with_reducible apply Work.read_kept
    | with_reducible apply Work.checkFields_kept
    | intro _
    | split
    | with_reducible apply kept_fold
    | with_reducible apply kept_fold1
    | with_reducible apply kept_foldW
    | with_reducible apply kept_foldW1
    | with_reducible apply kept_foldH
    | with_reducible apply kept_foldH1
    | with_reducible refine kept_fst ?_ (by with_reducible assumption)
    | with_reducible refine kept_fstW ?_ (by with_reducible assumption)
    | with_reducible refine kept_fstH ?_ (by with_reducible assumption)
    | (simp only [↓kept_mk]; with_reducible refine kept_of ?_))

theorem Work.scanStream_kept {a0 : Work} {a1 : Lin} {a2 : Nat} {a3 : List Word} {a4 : Nat} (ha0 : (a0).s.kept qs u = true) :
    (@Work.scanStream a0 a1 a2 a3 a4).1.s.kept qs u = true := by
  unfold Work.scanStream
  try dsimp only
  repeat' (first
    | with_reducible assumption
    | with_reducible apply Work.read_kept
    | with_reducible apply Work.fpRow_kept
    | with_reducible apply Work.write_kept
    | intro _
    | split
    | with_reducible apply kept_fold
    | with_reducible apply kept_fold1
    | with_reducible apply kept_foldW
    | with_reducible apply kept_foldW1
    | with_reducible apply kept_foldH
    | with_reducible apply kept_foldH1
    | with_reducible refine kept_fst ?_ (by with_reducible assumption)
    | with_reducible refine kept_fstW ?_ (by with_reducible assumption)
    | with_reducible refine kept_fstH ?_ (by with_reducible assumption)
    | (simp only [↓kept_mk]; with_reducible refine kept_of ?_))

theorem leRun_kept {a0 : Flight} {a1 : Work} (ha1 : (a1).s.kept qs u = true) :
    (@leRun a0 a1).s.kept qs u = true := by
  unfold leRun
  try dsimp only
  repeat' (first
    | with_reducible assumption
    | with_reducible apply Work.leParams_kept
    | with_reducible apply Work.each_kept
    | with_reducible apply Work.needLocal_kept
    | with_reducible apply Work.fpVec_kept
    | with_reducible apply Work.collect_kept
    | with_reducible apply Work.scanStream_kept
    | with_reducible apply Work.onCommit_kept
    | with_reducible apply Work.writeLate_kept
    | with_reducible apply Work.openLate_kept
    | with_reducible apply Work.openOutputs_kept
    | with_reducible apply Work.tally_kept
    | with_reducible apply Work.stalled_kept
    | intro _
    | split
    | with_reducible apply kept_fold
    | with_reducible apply kept_fold1
    | with_reducible apply kept_foldW
    | with_reducible apply kept_foldW1
    | with_reducible apply kept_foldH
    | with_reducible apply kept_foldH1
    | with_reducible refine kept_fst ?_ (by with_reducible assumption)
    | with_reducible refine kept_fstW ?_ (by with_reducible assumption)
    | with_reducible refine kept_fstH ?_ (by with_reducible assumption)
    | (simp only [↓kept_mk]; with_reducible refine kept_of ?_))

theorem execScan_kept {a0 : Nat} {a1 : State} (ha1 : (a1).kept qs u = true) :
    ∀ t, @execScan a0 a1 = .next t → t.kept qs u = true := by
  unfold execScan
  refine live_kept ha1 ?_
  try dsimp only
  repeat' (first
    | with_reducible assumption
    | with_reducible apply State.runFlight_kept
    | with_reducible apply leRun_kept
    | intro _
    | split
    | with_reducible apply kept_fold
    | with_reducible apply kept_fold1
    | with_reducible apply kept_foldW
    | with_reducible apply kept_foldW1
    | with_reducible apply kept_foldH
    | with_reducible apply kept_foldH1
    | with_reducible refine kept_fst ?_ (by with_reducible assumption)
    | with_reducible refine kept_fstW ?_ (by with_reducible assumption)
    | with_reducible refine kept_fstH ?_ (by with_reducible assumption)
    | (simp only [↓kept_mk]; with_reducible refine kept_of ?_))

theorem Work.heParams_kept {a0 : Work} {a1 : BitVec 1024} (ha0 : (a0).s.kept qs u = true) :
    (@Work.heParams a0 a1).1.s.kept qs u = true := by
  unfold Work.heParams
  try dsimp only
  repeat' (first
    | with_reducible assumption
    | with_reducible apply Work.read_kept
    | with_reducible apply Work.fail_kept
    | intro _
    | split
    | with_reducible apply kept_fold
    | with_reducible apply kept_fold1
    | with_reducible apply kept_foldW
    | with_reducible apply kept_foldW1
    | with_reducible apply kept_foldH
    | with_reducible apply kept_foldH1
    | with_reducible refine kept_fst ?_ (by with_reducible assumption)
    | with_reducible refine kept_fstW ?_ (by with_reducible assumption)
    | with_reducible refine kept_fstH ?_ (by with_reducible assumption)
    | (simp only [↓kept_mk]; with_reducible refine kept_of ?_))

theorem heStart_kept {a0 : Flight} {a1 : Work} (ha1 : (a1).s.kept qs u = true) :
    (@heStart a0 a1).1.s.kept qs u = true := by
  unfold heStart
  try dsimp only
  repeat' (first
    | with_reducible assumption
    | with_reducible apply Work.read_kept
    | with_reducible apply Work.heParams_kept
    | with_reducible apply Work.mapS_kept
    | with_reducible apply State.count_kept
    | with_reducible apply Work.each_kept
    | with_reducible apply Work.needLocal_kept
    | with_reducible apply Work.ssrStart_kept
    | intro _
    | split
    | with_reducible apply kept_fold
    | with_reducible apply kept_fold1
    | with_reducible apply kept_foldW
    | with_reducible apply kept_foldW1
    | with_reducible apply kept_foldH
    | with_reducible apply kept_foldH1
    | with_reducible refine kept_fst ?_ (by with_reducible assumption)
    | with_reducible refine kept_fstW ?_ (by with_reducible assumption)
    | with_reducible refine kept_fstH ?_ (by with_reducible assumption)
    | (simp only [↓kept_mk]; with_reducible refine kept_of ?_))

theorem HodWork.read_kept {a0 : HodWork} {a1 : Nat} {a2 : Nat} (ha0 : (a0).w.s.kept qs u = true) :
    (@HodWork.read a0 a1 a2).1.w.s.kept qs u = true := by
  unfold HodWork.read
  try dsimp only
  repeat' (first
    | with_reducible assumption
    | with_reducible apply Work.read_kept
    | intro _
    | split
    | with_reducible apply kept_fold
    | with_reducible apply kept_fold1
    | with_reducible apply kept_foldW
    | with_reducible apply kept_foldW1
    | with_reducible apply kept_foldH
    | with_reducible apply kept_foldH1
    | with_reducible refine kept_fst ?_ (by with_reducible assumption)
    | with_reducible refine kept_fstW ?_ (by with_reducible assumption)
    | with_reducible refine kept_fstH ?_ (by with_reducible assumption)
    | (simp only [↓kept_mk]; with_reducible refine kept_of ?_))

theorem HodWork.write_kept {a0 : HodWork} {a1 : Bool} {a2 : Nat} {a3 : Bytes} (ha0 : (a0).w.s.kept qs u = true) :
    (@HodWork.write a0 a1 a2 a3).w.s.kept qs u = true := by
  unfold HodWork.write
  try dsimp only
  repeat' (first
    | with_reducible assumption
    | with_reducible apply Work.write_kept
    | intro _
    | split
    | with_reducible apply kept_fold
    | with_reducible apply kept_fold1
    | with_reducible apply kept_foldW
    | with_reducible apply kept_foldW1
    | with_reducible apply kept_foldH
    | with_reducible apply kept_foldH1
    | with_reducible refine kept_fst ?_ (by with_reducible assumption)
    | with_reducible refine kept_fstW ?_ (by with_reducible assumption)
    | with_reducible refine kept_fstH ?_ (by with_reducible assumption)
    | (simp only [↓kept_mk]; with_reducible refine kept_of ?_))

theorem HodWork.emit_kept {a0 : HodWork} {a1 : Nat} {a2 : Nat} {a3 : Bytes} (ha0 : (a0).w.s.kept qs u = true) :
    (@HodWork.emit a0 a1 a2 a3).w.s.kept qs u = true := by
  unfold HodWork.emit
  try dsimp only
  repeat' (first
    | with_reducible assumption
    | with_reducible apply Work.emit_kept
    | intro _
    | split
    | with_reducible apply kept_fold
    | with_reducible apply kept_fold1
    | with_reducible apply kept_foldW
    | with_reducible apply kept_foldW1
    | with_reducible apply kept_foldH
    | with_reducible apply kept_foldH1
    | with_reducible refine kept_fst ?_ (by with_reducible assumption)
    | with_reducible refine kept_fstW ?_ (by with_reducible assumption)
    | with_reducible refine kept_fstH ?_ (by with_reducible assumption)
    | (simp only [↓kept_mk]; with_reducible refine kept_of ?_))

theorem HodWork.feed_kept {a0 : HodWork} {a1 : Nat} {a2 : Bytes} (ha0 : (a0).w.s.kept qs u = true) :
    (@HodWork.feed a0 a1 a2).w.s.kept qs u = true := by
  unfold HodWork.feed
  try dsimp only
  repeat' (first
    | with_reducible assumption
    | with_reducible apply HodWork.emit_kept
    | intro _
    | split
    | with_reducible apply kept_fold
    | with_reducible apply kept_fold1
    | with_reducible apply kept_foldW
    | with_reducible apply kept_foldW1
    | with_reducible apply kept_foldH
    | with_reducible apply kept_foldH1
    | with_reducible refine kept_fst ?_ (by with_reducible assumption)
    | with_reducible refine kept_fstW ?_ (by with_reducible assumption)
    | with_reducible refine kept_fstH ?_ (by with_reducible assumption)
    | (simp only [↓kept_mk]; with_reducible refine kept_of ?_))

theorem HodWork.flush_kept {a0 : HodWork} {a1 : Nat} (ha0 : (a0).w.s.kept qs u = true) :
    (@HodWork.flush a0 a1).w.s.kept qs u = true := by
  unfold HodWork.flush
  try dsimp only
  repeat' (first
    | with_reducible assumption
    | with_reducible apply HodWork.emit_kept
    | intro _
    | split
    | with_reducible apply kept_fold
    | with_reducible apply kept_fold1
    | with_reducible apply kept_foldW
    | with_reducible apply kept_foldW1
    | with_reducible apply kept_foldH
    | with_reducible apply kept_foldH1
    | with_reducible refine kept_fst ?_ (by with_reducible assumption)
    | with_reducible refine kept_fstW ?_ (by with_reducible assumption)
    | with_reducible refine kept_fstH ?_ (by with_reducible assumption)
    | (simp only [↓kept_mk]; with_reducible refine kept_of ?_))

theorem HodWork.convert_kept {a0 : HodWork} {a1 : Hod} {a2 : List Nat} {a3 : Bytes} (ha0 : (a0).w.s.kept qs u = true) :
    (@HodWork.convert a0 a1 a2 a3).1.w.s.kept qs u = true := by
  unfold HodWork.convert
  try dsimp only
  repeat' (first
    | with_reducible assumption
    | intro _
    | split
    | with_reducible apply kept_fold
    | with_reducible apply kept_fold1
    | with_reducible apply kept_foldW
    | with_reducible apply kept_foldW1
    | with_reducible apply kept_foldH
    | with_reducible apply kept_foldH1
    | with_reducible refine kept_fst ?_ (by with_reducible assumption)
    | with_reducible refine kept_fstW ?_ (by with_reducible assumption)
    | with_reducible refine kept_fstH ?_ (by with_reducible assumption)
    | (simp only [↓kept_mk]; with_reducible refine kept_of ?_))

theorem HodWork.source_kept {a0 : HodWork} {a1 : Hod} {a2 : Bytes} {a3 : Int} {a4 : Nat} {a5 : Nat} (ha0 : (a0).w.s.kept qs u = true) :
    (@HodWork.source a0 a1 a2 a3 a4 a5).1.w.s.kept qs u = true := by
  unfold HodWork.source
  try dsimp only
  repeat' (first
    | with_reducible assumption
    | with_reducible apply HodWork.read_kept
    | intro _
    | split
    | with_reducible apply kept_fold
    | with_reducible apply kept_fold1
    | with_reducible apply kept_foldW
    | with_reducible apply kept_foldW1
    | with_reducible apply kept_foldH
    | with_reducible apply kept_foldH1
    | with_reducible refine kept_fst ?_ (by with_reducible assumption)
    | with_reducible refine kept_fstW ?_ (by with_reducible assumption)
    | with_reducible refine kept_fstH ?_ (by with_reducible assumption)
    | (simp only [↓kept_mk]; with_reducible refine kept_of ?_))

theorem HodWork.index_kept {a0 : HodWork} {a1 : Hod} {a2 : Nat} {a3 : List Nat} (ha0 : (a0).w.s.kept qs u = true) :
    (@HodWork.index a0 a1 a2 a3).1.w.s.kept qs u = true := by
  unfold HodWork.index
  try dsimp only
  repeat' (first
    | with_reducible assumption
    | with_reducible apply Work.read_kept
    | with_reducible apply Work.fail_kept
    | with_reducible apply State.count_kept
    | intro _
    | split
    | with_reducible apply kept_fold
    | with_reducible apply kept_fold1
    | with_reducible apply kept_foldW
    | with_reducible apply kept_foldW1
    | with_reducible apply kept_foldH
    | with_reducible apply kept_foldH1
    | with_reducible refine kept_fst ?_ (by with_reducible assumption)
    | with_reducible refine kept_fstW ?_ (by with_reducible assumption)
    | with_reducible refine kept_fstH ?_ (by with_reducible assumption)
    | (simp only [↓kept_mk]; with_reducible refine kept_of ?_))

theorem HodWork.row_kept {a0 : HodWork} {a1 : Hod} {a2 : Nat} {a3 : Bytes} {a4 : Nat} {a5 : List Nat} (ha0 : (a0).w.s.kept qs u = true) :
    (@HodWork.row a0 a1 a2 a3 a4 a5).w.s.kept qs u = true := by
  unfold HodWork.row
  try dsimp only
  repeat' (first
    | with_reducible assumption
    | with_reducible apply HodWork.index_kept
    | with_reducible apply HodWork.source_kept
    | with_reducible apply HodWork.convert_kept
    | with_reducible apply HodWork.feed_kept
    | with_reducible apply HodWork.write_kept
    | intro _
    | split
    | with_reducible apply kept_fold
    | with_reducible apply kept_fold1
    | with_reducible apply kept_foldW
    | with_reducible apply kept_foldW1
    | with_reducible apply kept_foldH
    | with_reducible apply kept_foldH1
    | with_reducible refine kept_fst ?_ (by with_reducible assumption)
    | with_reducible refine kept_fstW ?_ (by with_reducible assumption)
    | with_reducible refine kept_fstH ?_ (by with_reducible assumption)
    | (simp only [↓kept_mk]; with_reducible refine kept_of ?_))

theorem HodWork.rows_kept {a0 : HodWork} {a1 : Hod} {a2 : Nat} {a3 : Bytes} (ha0 : (a0).w.s.kept qs u = true) :
    (@HodWork.rows a0 a1 a2 a3).w.s.kept qs u = true := by
  unfold HodWork.rows
  try dsimp only
  repeat' (first
    | with_reducible assumption
    | with_reducible apply HodWork.row_kept
    | intro _
    | split
    | with_reducible apply kept_fold
    | with_reducible apply kept_fold1
    | with_reducible apply kept_foldW
    | with_reducible apply kept_foldW1
    | with_reducible apply kept_foldH
    | with_reducible apply kept_foldH1
    | with_reducible refine kept_fst ?_ (by with_reducible assumption)
    | with_reducible refine kept_fstW ?_ (by with_reducible assumption)
    | with_reducible refine kept_fstH ?_ (by with_reducible assumption)
    | (simp only [↓kept_mk]; with_reducible refine kept_of ?_))

theorem HodWork.transTile_kept {a0 : HodWork} {a1 : Hod} {a2 : Bytes} {a3 : Nat} {a4 : List Nat} {a5 : Nat × Nat} {a6 : Nat × Nat} (ha0 : (a0).w.s.kept qs u = true) :
    (@HodWork.transTile a0 a1 a2 a3 a4 a5 a6).w.s.kept qs u = true := by
  unfold HodWork.transTile
  try dsimp only
  repeat' (first
    | with_reducible assumption
    | with_reducible apply HodWork.source_kept
    | with_reducible apply HodWork.convert_kept
    | with_reducible apply HodWork.feed_kept
    | with_reducible apply HodWork.write_kept
    | intro _
    | split
    | with_reducible apply kept_fold
    | with_reducible apply kept_fold1
    | with_reducible apply kept_foldW
    | with_reducible apply kept_foldW1
    | with_reducible apply kept_foldH
    | with_reducible apply kept_foldH1
    | with_reducible refine kept_fst ?_ (by with_reducible assumption)
    | with_reducible refine kept_fstW ?_ (by with_reducible assumption)
    | with_reducible refine kept_fstH ?_ (by with_reducible assumption)
    | (simp only [↓kept_mk]; with_reducible refine kept_of ?_))

theorem HodWork.transTiles_kept {a0 : HodWork} {a1 : Hod} {a2 : Bytes} (ha0 : (a0).w.s.kept qs u = true) :
    (@HodWork.transTiles a0 a1 a2).w.s.kept qs u = true := by
  unfold HodWork.transTiles
  try dsimp only
  repeat' (first
    | with_reducible assumption
    | with_reducible apply HodWork.transTile_kept
    | intro _
    | split
    | with_reducible apply kept_fold
    | with_reducible apply kept_fold1
    | with_reducible apply kept_foldW
    | with_reducible apply kept_foldW1
    | with_reducible apply kept_foldH
    | with_reducible apply kept_foldH1
    | with_reducible refine kept_fst ?_ (by with_reducible assumption)
    | with_reducible refine kept_fstW ?_ (by with_reducible assumption)
    | with_reducible refine kept_fstH ?_ (by with_reducible assumption)
    | (simp only [↓kept_mk]; with_reducible refine kept_of ?_))

theorem HodWork.move_kept {a0 : HodWork} {a1 : Hod} {a2 : Nat} {a3 : Bytes} (ha0 : (a0).w.s.kept qs u = true) :
    (@HodWork.move a0 a1 a2 a3).w.s.kept qs u = true := by
  unfold HodWork.move
  try dsimp only
  repeat' (first
    | with_reducible assumption
    | with_reducible apply HodWork.transTiles_kept
    | with_reducible apply HodWork.flush_kept
    | with_reducible apply HodWork.rows_kept
    | intro _
    | split
    | with_reducible apply kept_fold
    | with_reducible apply kept_fold1
    | with_reducible apply kept_foldW
    | with_reducible apply kept_foldW1
    | with_reducible apply kept_foldH
    | with_reducible apply kept_foldH1
    | with_reducible refine kept_fst ?_ (by with_reducible assumption)
    | with_reducible refine kept_fstW ?_ (by with_reducible assumption)
    | with_reducible refine kept_fstH ?_ (by with_reducible assumption)
    | (simp only [↓kept_mk]; with_reducible refine kept_of ?_))

theorem HodWork.windowRow_kept {a0 : HodWork} {a1 : Hod} {a2 : Bytes} {a3 : Nat} {a4 : Nat} {a5 : Nat} (ha0 : (a0).w.s.kept qs u = true) :
    (@HodWork.windowRow a0 a1 a2 a3 a4 a5).1.w.s.kept qs u = true := by
  unfold HodWork.windowRow
  try dsimp only
  repeat' (first
    | with_reducible assumption
    | with_reducible apply HodWork.source_kept
    | with_reducible apply HodWork.convert_kept
    | intro _
    | split
    | with_reducible apply kept_fold
    | with_reducible apply kept_fold1
    | with_reducible apply kept_foldW
    | with_reducible apply kept_foldW1
    | with_reducible apply kept_foldH
    | with_reducible apply kept_foldH1
    | with_reducible refine kept_fst ?_ (by with_reducible assumption)
    | with_reducible refine kept_fstW ?_ (by with_reducible assumption)
    | with_reducible refine kept_fstH ?_ (by with_reducible assumption)
    | (simp only [↓kept_mk]; with_reducible refine kept_of ?_))

theorem HodWork.window_kept {a0 : HodWork} {a1 : Hod} {a2 : Bytes} (ha0 : (a0).w.s.kept qs u = true) :
    (@HodWork.window a0 a1 a2).w.s.kept qs u = true := by
  unfold HodWork.window
  try dsimp only
  repeat' (first
    | with_reducible assumption
    | with_reducible apply HodWork.windowRow_kept
    | with_reducible apply HodWork.emit_kept
    | with_reducible apply HodWork.write_kept
    | intro _
    | split
    | with_reducible apply kept_fold
    | with_reducible apply kept_fold1
    | with_reducible apply kept_foldW
    | with_reducible apply kept_foldW1
    | with_reducible apply kept_foldH
    | with_reducible apply kept_foldH1
    | with_reducible refine kept_fst ?_ (by with_reducible assumption)
    | with_reducible refine kept_fstW ?_ (by with_reducible assumption)
    | with_reducible refine kept_fstH ?_ (by with_reducible assumption)
    | (simp only [↓kept_mk]; with_reducible refine kept_of ?_))

theorem HodWork.tilesRun_kept {a0 : HodWork} {a1 : Hod} {a2 : Bytes} (ha0 : (a0).w.s.kept qs u = true) :
    (@HodWork.tilesRun a0 a1 a2).w.s.kept qs u = true := by
  unfold HodWork.tilesRun
  try dsimp only
  repeat' (first
    | with_reducible assumption
    | with_reducible apply HodWork.source_kept
    | with_reducible apply HodWork.convert_kept
    | with_reducible apply HodWork.emit_kept
    | intro _
    | split
    | with_reducible apply kept_fold
    | with_reducible apply kept_fold1
    | with_reducible apply kept_foldW
    | with_reducible apply kept_foldW1
    | with_reducible apply kept_foldH
    | with_reducible apply kept_foldH1
    | with_reducible refine kept_fst ?_ (by with_reducible assumption)
    | with_reducible refine kept_fstW ?_ (by with_reducible assumption)
    | with_reducible refine kept_fstH ?_ (by with_reducible assumption)
    | (simp only [↓kept_mk]; with_reducible refine kept_of ?_))

theorem heRun_kept {a0 : Flight} {a1 : Work} (ha1 : (a1).s.kept qs u = true) :
    (@heRun a0 a1).s.kept qs u = true := by
  unfold heRun
  try dsimp only
  repeat' (first
    | with_reducible assumption
    | with_reducible apply HodWork.window_kept
    | with_reducible apply HodWork.tilesRun_kept
    | with_reducible apply HodWork.move_kept
    | with_reducible apply Work.openOutputs_kept
    | with_reducible apply Work.openLate_kept
    | with_reducible apply Work.ssrFinish_kept
    | with_reducible apply Work.stalled_kept
    | with_reducible apply Work.mapS_kept
    | with_reducible apply State.count_kept
    | intro _
    | split
    | with_reducible apply kept_fold
    | with_reducible apply kept_fold1
    | with_reducible apply kept_foldW
    | with_reducible apply kept_foldW1
    | with_reducible apply kept_foldH
    | with_reducible apply kept_foldH1
    | with_reducible refine kept_fst ?_ (by with_reducible assumption)
    | with_reducible refine kept_fstW ?_ (by with_reducible assumption)
    | with_reducible refine kept_fstH ?_ (by with_reducible assumption)
    | (simp only [↓kept_mk]; with_reducible refine kept_of ?_))

theorem State.heFlight_kept {a0 : State} {a1 : Nat} {a2 : Nat} (ha0 : (a0).kept qs u = true) :
    (@State.heFlight a0 a1 a2).kept qs u = true := by
  unfold State.heFlight
  try dsimp only
  repeat' (first
    | with_reducible assumption
    | with_reducible apply State.runStarted_kept
    | with_reducible apply heStart_kept
    | with_reducible apply heRun_kept
    | intro _
    | split
    | with_reducible apply kept_fold
    | with_reducible apply kept_fold1
    | with_reducible apply kept_foldW
    | with_reducible apply kept_foldW1
    | with_reducible apply kept_foldH
    | with_reducible apply kept_foldH1
    | with_reducible refine kept_fst ?_ (by with_reducible assumption)
    | with_reducible refine kept_fstW ?_ (by with_reducible assumption)
    | with_reducible refine kept_fstH ?_ (by with_reducible assumption)
    | (simp only [↓kept_mk]; with_reducible refine kept_of ?_))

theorem execMoverMove_kept {a0 : Nat} {a1 : State} (ha1 : (a1).kept qs u = true) :
    ∀ t, @execMoverMove a0 a1 = .next t → t.kept qs u = true := by
  unfold execMoverMove
  refine live_kept ha1 ?_
  try dsimp only
  repeat' (first
    | with_reducible assumption
    | with_reducible apply State.heFlight_kept
    | intro _
    | split
    | with_reducible apply kept_fold
    | with_reducible apply kept_fold1
    | with_reducible apply kept_foldW
    | with_reducible apply kept_foldW1
    | with_reducible apply kept_foldH
    | with_reducible apply kept_foldH1
    | with_reducible refine kept_fst ?_ (by with_reducible assumption)
    | with_reducible refine kept_fstW ?_ (by with_reducible assumption)
    | with_reducible refine kept_fstH ?_ (by with_reducible assumption)
    | (simp only [↓kept_mk]; with_reducible refine kept_of ?_))

theorem execGather_kept {a0 : Nat} {a1 : State} (ha1 : (a1).kept qs u = true) :
    ∀ t, @execGather a0 a1 = .next t → t.kept qs u = true := by
  unfold execGather
  refine live_kept ha1 ?_
  try dsimp only
  repeat' (first
    | with_reducible assumption
    | with_reducible apply State.heFlight_kept
    | intro _
    | split
    | with_reducible apply kept_fold
    | with_reducible apply kept_fold1
    | with_reducible apply kept_foldW
    | with_reducible apply kept_foldW1
    | with_reducible apply kept_foldH
    | with_reducible apply kept_foldH1
    | with_reducible refine kept_fst ?_ (by with_reducible assumption)
    | with_reducible refine kept_fstW ?_ (by with_reducible assumption)
    | with_reducible refine kept_fstH ?_ (by with_reducible assumption)
    | (simp only [↓kept_mk]; with_reducible refine kept_of ?_))

theorem execScatter_kept {a0 : Nat} {a1 : State} (ha1 : (a1).kept qs u = true) :
    ∀ t, @execScatter a0 a1 = .next t → t.kept qs u = true := by
  unfold execScatter
  refine live_kept ha1 ?_
  try dsimp only
  repeat' (first
    | with_reducible assumption
    | with_reducible apply State.heFlight_kept
    | intro _
    | split
    | with_reducible apply kept_fold
    | with_reducible apply kept_fold1
    | with_reducible apply kept_foldW
    | with_reducible apply kept_foldW1
    | with_reducible apply kept_foldH
    | with_reducible apply kept_foldH1
    | with_reducible refine kept_fst ?_ (by with_reducible assumption)
    | with_reducible refine kept_fstW ?_ (by with_reducible assumption)
    | with_reducible refine kept_fstH ?_ (by with_reducible assumption)
    | (simp only [↓kept_mk]; with_reducible refine kept_of ?_))

theorem execWindow_kept {a0 : Nat} {a1 : State} (ha1 : (a1).kept qs u = true) :
    ∀ t, @execWindow a0 a1 = .next t → t.kept qs u = true := by
  unfold execWindow
  refine live_kept ha1 ?_
  try dsimp only
  repeat' (first
    | with_reducible assumption
    | with_reducible apply State.heFlight_kept
    | intro _
    | split
    | with_reducible apply kept_fold
    | with_reducible apply kept_fold1
    | with_reducible apply kept_foldW
    | with_reducible apply kept_foldW1
    | with_reducible apply kept_foldH
    | with_reducible apply kept_foldH1
    | with_reducible refine kept_fst ?_ (by with_reducible assumption)
    | with_reducible refine kept_fstW ?_ (by with_reducible assumption)
    | with_reducible refine kept_fstH ?_ (by with_reducible assumption)
    | (simp only [↓kept_mk]; with_reducible refine kept_of ?_))

theorem execTiles_kept {a0 : Nat} {a1 : State} (ha1 : (a1).kept qs u = true) :
    ∀ t, @execTiles a0 a1 = .next t → t.kept qs u = true := by
  unfold execTiles
  refine live_kept ha1 ?_
  try dsimp only
  repeat' (first
    | with_reducible assumption
    | with_reducible apply State.heFlight_kept
    | intro _
    | split
    | with_reducible apply kept_fold
    | with_reducible apply kept_fold1
    | with_reducible apply kept_foldW
    | with_reducible apply kept_foldW1
    | with_reducible apply kept_foldH
    | with_reducible apply kept_foldH1
    | with_reducible refine kept_fst ?_ (by with_reducible assumption)
    | with_reducible refine kept_fstW ?_ (by with_reducible assumption)
    | with_reducible refine kept_fstH ?_ (by with_reducible assumption)
    | (simp only [↓kept_mk]; with_reducible refine kept_of ?_))

end Sys2Proof.Machine
end

