-- ==== Sys2Proof/Laws/KeptParts.lean ====
section
/-! SUPPORT. What no command disturbs is kept. -/

namespace Sys2Proof.Machine

variable {qs : List Instr} {u : Bool}

theorem State.plCount_kept {a0 : State} {a1 : Nat} (ha0 : (a0).kept qs u = true) :
    (@State.plCount a0 a1).kept qs u = true := by
  unfold State.plCount
  try dsimp only
  repeat' (first
    | with_reducible assumption
    | intro _
    | split
    | with_reducible apply kept_fold
    | with_reducible apply kept_fold1
    | with_reducible apply kept_foldW
    | with_reducible apply kept_foldW1
    | with_reducible apply kept_foldH
    | with_reducible apply kept_foldH1
    | with_reducible refine kept_fst ?_ (by with_reducible assumption)
    | with_reducible refine kept_fstW ?_ (by with_reducible assumption)
    | with_reducible refine kept_fstH ?_ (by with_reducible assumption)
    | (simp only [↓kept_mk]; with_reducible refine kept_of ?_))

theorem State.plTally_kept {a0 : State} (ha0 : (a0).kept qs u = true) :
    (@State.plTally a0).kept qs u = true := by
  unfold State.plTally
  try dsimp only
  repeat' (first
    | with_reducible assumption
    | with_reducible apply State.setField_kept
    | intro _
    | split
    | with_reducible apply kept_fold
    | with_reducible apply kept_fold1
    | with_reducible apply kept_foldW
    | with_reducible apply kept_foldW1
    | with_reducible apply kept_foldH
    | with_reducible apply kept_foldH1
    | with_reducible refine kept_fst ?_ (by with_reducible assumption)
    | with_reducible refine kept_fstW ?_ (by with_reducible assumption)
    | with_reducible refine kept_fstH ?_ (by with_reducible assumption)
    | (simp only [↓kept_mk]; with_reducible refine kept_of ?_))

theorem State.plFlag_kept {a0 : State} {a1 : Nat} (ha0 : (a0).kept qs u = true) :
    (@State.plFlag a0 a1).kept qs u = true := by
  unfold State.plFlag
  try dsimp only
  repeat' (first
    | with_reducible assumption
    | with_reducible apply State.setRegN_kept
    | intro _
    | split
    | with_reducible apply kept_fold
    | with_reducible apply kept_fold1
    | with_reducible apply kept_foldW
    | with_reducible apply kept_foldW1
    | with_reducible apply kept_foldH
    | with_reducible apply kept_foldH1
    | with_reducible refine kept_fst ?_ (by with_reducible assumption)
    | with_reducible refine kept_fstW ?_ (by with_reducible assumption)
    | with_reducible refine kept_fstH ?_ (by with_reducible assumption)
    | (simp only [↓kept_mk]; with_reducible refine kept_of ?_))

theorem State.plErased_kept {a0 : State} {a1 : Nat} (ha0 : (a0).kept qs u = true) :
    (@State.plErased a0 a1).kept qs u = true := by
  unfold State.plErased
  try dsimp only
  repeat' (first
    | with_reducible assumption
    | with_reducible apply State.plTally_kept
    | with_reducible apply State.setBit_kept
    | intro _
    | split
    | with_reducible apply kept_fold
    | with_reducible apply kept_fold1
    | with_reducible apply kept_foldW
    | with_reducible apply kept_foldW1
    | with_reducible apply kept_foldH
    | with_reducible apply kept_foldH1
    | with_reducible refine kept_fst ?_ (by with_reducible assumption)
    | with_reducible refine kept_fstW ?_ (by with_reducible assumption)
    | with_reducible refine kept_fstH ?_ (by with_reducible assumption)
    | (simp only [↓kept_mk]; with_reducible refine kept_of ?_)
    | (simp only [↓kept_mk]; with_reducible refine kept_setPl ?_ ?_)
    | (simp only [↓kept_mk]; with_reducible refine kept_setNand ?_ ?_)
    | (simp only [↓kept_mk]; with_reducible refine kept_setBed ?_ ?_)
    | (simp only [↓kept_mk]; with_reducible refine kept_setHbm ?_ ?_)
    | (simp only [↓kept_mk]; with_reducible refine kept_setRegs ?_ ?_)
    | (simp only [↓kept_mk]; with_reducible refine kept_setMarks ?_ ?_)
    | with_reducible exact wf_nil _
    | with_reducible exact smapWf_nil _
    | with_reducible apply wf_memWrite
    | with_reducible apply wf_memClear
    | with_reducible apply smapWf_set
    | with_reducible apply smapWf_clear
    | with_reducible apply wf_fold
    | with_reducible refine kept_pl (qs := qs) (u := u) ?_
    | with_reducible refine kept_nand (qs := qs) (u := u) ?_
    | with_reducible refine kept_bed (qs := qs) (u := u) ?_
    | with_reducible refine kept_hbm (qs := qs) (u := u) ?_
    | with_reducible refine kept_regs (qs := qs) (u := u) ?_
    | with_reducible refine kept_marks (qs := qs) (u := u) ?_)

theorem State.plShow_kept {a0 : State} {a1 : Nat} (ha0 : (a0).kept qs u = true) :
    (@State.plShow a0 a1).kept qs u = true := by
  unfold State.plShow
  try dsimp only
  repeat' (first
    | with_reducible assumption
    | with_reducible apply State.setBit_kept
    | with_reducible apply State.setField_kept
    | intro _
    | split
    | with_reducible apply kept_fold
    | with_reducible apply kept_fold1
    | with_reducible apply kept_foldW
    | with_reducible apply kept_foldW1
    | with_reducible apply kept_foldH
    | with_reducible apply kept_foldH1
    | with_reducible refine kept_fst ?_ (by with_reducible assumption)
    | with_reducible refine kept_fstW ?_ (by with_reducible assumption)
    | with_reducible refine kept_fstH ?_ (by with_reducible assumption)
    | (simp only [↓kept_mk]; with_reducible refine kept_of ?_))

theorem State.setPlBank_kept {a0 : State} {a1 : Nat} {a2 : PlBank} (ha0 : (a0).kept qs u = true) :
    (@State.setPlBank a0 a1 a2).kept qs u = true := by
  unfold State.setPlBank
  try dsimp only
  repeat' (first
    | with_reducible assumption
    | with_reducible apply State.plShow_kept
    | intro _
    | split
    | with_reducible apply kept_fold
    | with_reducible apply kept_fold1
    | with_reducible apply kept_foldW
    | with_reducible apply kept_foldW1
    | with_reducible apply kept_foldH
    | with_reducible apply kept_foldH1
    | with_reducible refine kept_fst ?_ (by with_reducible assumption)
    | with_reducible refine kept_fstW ?_ (by with_reducible assumption)
    | with_reducible refine kept_fstH ?_ (by with_reducible assumption)
    | (simp only [↓kept_mk]; with_reducible refine kept_of ?_))

theorem State.plErr_kept {a0 : State} {a1 : Nat} {a2 : Nat} (ha0 : (a0).kept qs u = true) :
    (@State.plErr a0 a1 a2).kept qs u = true := by
  unfold State.plErr
  try dsimp only
  repeat' (first
    | with_reducible assumption
    | with_reducible apply State.setBit_kept
    | intro _
    | split
    | with_reducible apply kept_fold
    | with_reducible apply kept_fold1
    | with_reducible apply kept_foldW
    | with_reducible apply kept_foldW1
    | with_reducible apply kept_foldH
    | with_reducible apply kept_foldH1
    | with_reducible refine kept_fst ?_ (by with_reducible assumption)
    | with_reducible refine kept_fstW ?_ (by with_reducible assumption)
    | with_reducible refine kept_fstH ?_ (by with_reducible assumption)
    | (simp only [↓kept_mk]; with_reducible refine kept_of ?_))

theorem State.plBreak_kept {a0 : State} {a1 : Nat} (ha0 : (a0).kept qs u = true) :
    (@State.plBreak a0 a1).kept qs u = true := by
  unfold State.plBreak
  try dsimp only
  repeat' (first
    | with_reducible assumption
    | with_reducible apply State.plErr_kept
    | with_reducible apply State.setPlBank_kept
    | intro _
    | split
    | with_reducible apply kept_fold
    | with_reducible apply kept_fold1
    | with_reducible apply kept_foldW
    | with_reducible apply kept_foldW1
    | with_reducible apply kept_foldH
    | with_reducible apply kept_foldH1
    | with_reducible refine kept_fst ?_ (by with_reducible assumption)
    | with_reducible refine kept_fstW ?_ (by with_reducible assumption)
    | with_reducible refine kept_fstH ?_ (by with_reducible assumption)
    | (simp only [↓kept_mk]; with_reducible refine kept_of ?_))

theorem State.plInvalidate_kept {a0 : State} {a1 : Nat} (ha0 : (a0).kept qs u = true) :
    (@State.plInvalidate a0 a1).kept qs u = true := by
  unfold State.plInvalidate
  try dsimp only
  repeat' (first
    | with_reducible assumption
    | intro _
    | split
    | with_reducible apply kept_fold
    | with_reducible apply kept_fold1
    | with_reducible apply kept_foldW
    | with_reducible apply kept_foldW1
    | with_reducible apply kept_foldH
    | with_reducible apply kept_foldH1
    | with_reducible refine kept_fst ?_ (by with_reducible assumption)
    | with_reducible refine kept_fstW ?_ (by with_reducible assumption)
    | with_reducible refine kept_fstH ?_ (by with_reducible assumption)
    | (simp only [↓kept_mk]; with_reducible refine kept_of ?_))

theorem State.plStart_kept {a0 : State} {a1 : Nat} {a2 : PlOp} (ha0 : (a0).kept qs u = true) :
    (@State.plStart a0 a1 a2).kept qs u = true := by
  unfold State.plStart
  try dsimp only
  repeat' (first
    | with_reducible assumption
    | with_reducible apply State.plCount_kept
    | with_reducible apply State.setPlBank_kept
    | with_reducible apply State.plInvalidate_kept
    | intro _
    | split
    | with_reducible apply kept_fold
    | with_reducible apply kept_fold1
    | with_reducible apply kept_foldW
    | with_reducible apply kept_foldW1
    | with_reducible apply kept_foldH
    | with_reducible apply kept_foldH1
    | with_reducible refine kept_fst ?_ (by with_reducible assumption)
    | with_reducible refine kept_fstW ?_ (by with_reducible assumption)
    | with_reducible refine kept_fstH ?_ (by with_reducible assumption)
    | (simp only [↓kept_mk]; with_reducible refine kept_of ?_))

theorem State.plAsk_kept {a0 : State} {a1 : Nat} {a2 : PlOp} (ha0 : (a0).kept qs u = true) :
    (@State.plAsk a0 a1 a2).kept qs u = true := by
  unfold State.plAsk
  try dsimp only
  repeat' (first
    | with_reducible assumption
    | with_reducible apply State.setPlBank_kept
    | with_reducible apply State.plErr_kept
    | with_reducible apply State.plStart_kept
    | intro _
    | split
    | with_reducible apply kept_fold
    | with_reducible apply kept_fold1
    | with_reducible apply kept_foldW
    | with_reducible apply kept_foldW1
    | with_reducible apply kept_foldH
    | with_reducible apply kept_foldH1
    | with_reducible refine kept_fst ?_ (by with_reducible assumption)
    | with_reducible refine kept_fstW ?_ (by with_reducible assumption)
    | with_reducible refine kept_fstH ?_ (by with_reducible assumption)
    | (simp only [↓kept_mk]; with_reducible refine kept_of ?_))

theorem State.plFault_kept {a0 : State} {a1 : Nat} (ha0 : (a0).kept qs u = true) :
    (@State.plFault a0 a1).kept qs u = true := by
  unfold State.plFault
  try dsimp only
  repeat' (first
    | with_reducible assumption
    | with_reducible apply State.setRegN_kept
    | intro _
    | split
    | with_reducible apply kept_fold
    | with_reducible apply kept_fold1
    | with_reducible apply kept_foldW
    | with_reducible apply kept_foldW1
    | with_reducible apply kept_foldH
    | with_reducible apply kept_foldH1
    | with_reducible refine kept_fst ?_ (by with_reducible assumption)
    | with_reducible refine kept_fstW ?_ (by with_reducible assumption)
    | with_reducible refine kept_fstH ?_ (by with_reducible assumption)
    | (simp only [↓kept_mk]; with_reducible refine kept_of ?_))

theorem State.plServe_kept {a0 : State} {a1 : Nat} (ha0 : (a0).kept qs u = true) :
    (@State.plServe a0 a1).kept qs u = true := by
  unfold State.plServe
  try dsimp only
  repeat' (first
    | with_reducible assumption
    | with_reducible apply State.count_kept
    | intro _
    | split
    | with_reducible apply kept_fold
    | with_reducible apply kept_fold1
    | with_reducible apply kept_foldW
    | with_reducible apply kept_foldW1
    | with_reducible apply kept_foldH
    | with_reducible apply kept_foldH1
    | with_reducible refine kept_fst ?_ (by with_reducible assumption)
    | with_reducible refine kept_fstW ?_ (by with_reducible assumption)
    | with_reducible refine kept_fstH ?_ (by with_reducible assumption)
    | (simp only [↓kept_mk]; with_reducible refine kept_of ?_))

theorem State.plEnd_kept {a0 : State} {a1 : Nat} (ha0 : (a0).kept qs u = true) :
    (@State.plEnd a0 a1).kept qs u = true := by
  unfold State.plEnd
  try dsimp only
  repeat' (first
    | with_reducible assumption
    | with_reducible apply State.setPlBank_kept
    | with_reducible apply State.setBit_kept
    | with_reducible apply State.plServe_kept
    | intro _
    | split
    | with_reducible apply kept_fold
    | with_reducible apply kept_fold1
    | with_reducible apply kept_foldW
    | with_reducible apply kept_foldW1
    | with_reducible apply kept_foldH
    | with_reducible apply kept_foldH1
    | with_reducible refine kept_fst ?_ (by with_reducible assumption)
    | with_reducible refine kept_fstW ?_ (by with_reducible assumption)
    | with_reducible refine kept_fstH ?_ (by with_reducible assumption)
    | (simp only [↓kept_mk]; with_reducible refine kept_of ?_))

theorem State.plProgrammed_kept {a0 : State} {a1 : Nat} {a2 : PlOp} {a3 : Bool} (ha0 : (a0).kept qs u = true) :
    (@State.plProgrammed a0 a1 a2 a3).kept qs u = true := by
  unfold State.plProgrammed
  extract_lets old want got s1 s2 s3
  have h1 : s1.kept qs u = true := ite_kept (fun _ => ha0) fun _ => State.tick_kept ha0
  clear_value s1 got
  have h2 : s2.kept qs u = true := by
    simp only [s2, ↓kept_mk]
    exact kept_setPl h1 (wf_memWrite _ _ (kept_pl h1))
  clear_value s2
  have h3 : s3.kept qs u = true := ite_kept (fun _ => State.plErr_kept h2) fun _ => kept_of h2
  exact State.plEnd_kept h3

theorem State.plEraseEnd_kept {a0 : State} {a1 : Nat} {a2 : PlOp} (ha0 : (a0).kept qs u = true) :
    (@State.plEraseEnd a0 a1 a2).kept qs u = true := by
  unfold State.plEraseEnd
  try dsimp only
  repeat' (first
    | with_reducible assumption
    | with_reducible apply State.plEnd_kept
    | with_reducible apply State.plErased_kept
    | intro _
    | split
    | with_reducible apply kept_fold
    | with_reducible apply kept_fold1
    | with_reducible apply kept_foldW
    | with_reducible apply kept_foldW1
    | with_reducible apply kept_foldH
    | with_reducible apply kept_foldH1
    | with_reducible refine kept_fst ?_ (by with_reducible assumption)
    | with_reducible refine kept_fstW ?_ (by with_reducible assumption)
    | with_reducible refine kept_fstH ?_ (by with_reducible assumption)
    | (simp only [↓kept_mk]; with_reducible refine kept_of ?_))

theorem State.plNow_kept {a0 : State} {a1 : PlOp} (ha0 : (a0).kept qs u = true) :
    (@State.plNow a0 a1).kept qs u = true := by
  unfold State.plNow
  try dsimp only
  repeat' (first
    | with_reducible assumption
    | with_reducible apply State.plAsk_kept
    | with_reducible apply State.plEraseEnd_kept
    | with_reducible apply State.plProgrammed_kept
    | intro _
    | split
    | with_reducible apply kept_fold
    | with_reducible apply kept_fold1
    | with_reducible apply kept_foldW
    | with_reducible apply kept_foldW1
    | with_reducible apply kept_foldH
    | with_reducible apply kept_foldH1
    | with_reducible refine kept_fst ?_ (by with_reducible assumption)
    | with_reducible refine kept_fstW ?_ (by with_reducible assumption)
    | with_reducible refine kept_fstH ?_ (by with_reducible assumption)
    | (simp only [↓kept_mk]; with_reducible refine kept_of ?_))

theorem State.writeCopy_kept {a0 : State} {a1 : Bytes} {a2 : Nat} (ha0 : (a0).kept qs u = true) :
    (@State.writeCopy a0 a1 a2).kept qs u = true := by
  unfold State.writeCopy
  try dsimp only
  repeat' (first
    | with_reducible assumption
    | with_reducible apply State.plNow_kept
    | intro _
    | split
    | with_reducible apply kept_fold
    | with_reducible apply kept_fold1
    | with_reducible apply kept_foldW
    | with_reducible apply kept_foldW1
    | with_reducible apply kept_foldH
    | with_reducible apply kept_foldH1
    | with_reducible refine kept_fst ?_ (by with_reducible assumption)
    | with_reducible refine kept_fstW ?_ (by with_reducible assumption)
    | with_reducible refine kept_fstH ?_ (by with_reducible assumption)
    | (simp only [↓kept_mk]; with_reducible refine kept_of ?_)
    | (simp only [↓kept_mk]; with_reducible refine kept_setPl ?_ ?_)
    | (simp only [↓kept_mk]; with_reducible refine kept_setNand ?_ ?_)
    | (simp only [↓kept_mk]; with_reducible refine kept_setBed ?_ ?_)
    | (simp only [↓kept_mk]; with_reducible refine kept_setHbm ?_ ?_)
    | (simp only [↓kept_mk]; with_reducible refine kept_setRegs ?_ ?_)
    | (simp only [↓kept_mk]; with_reducible refine kept_setMarks ?_ ?_)
    | with_reducible exact wf_nil _
    | with_reducible exact smapWf_nil _
    | with_reducible apply wf_memWrite
    | with_reducible apply wf_memClear
    | with_reducible apply smapWf_set
    | with_reducible apply smapWf_clear
    | with_reducible apply wf_fold
    | with_reducible refine kept_pl (qs := qs) (u := u) ?_
    | with_reducible refine kept_nand (qs := qs) (u := u) ?_
    | with_reducible refine kept_bed (qs := qs) (u := u) ?_
    | with_reducible refine kept_hbm (qs := qs) (u := u) ?_
    | with_reducible refine kept_regs (qs := qs) (u := u) ?_
    | with_reducible refine kept_marks (qs := qs) (u := u) ?_)

theorem State.writeDue_kept {a0 : State} (ha0 : (a0).kept qs u = true) :
    (@State.writeDue a0).kept qs u = true := by
  unfold State.writeDue
  try dsimp only
  repeat' (first
    | with_reducible assumption
    | with_reducible apply State.writeCopy_kept
    | intro _
    | split
    | with_reducible apply kept_fold
    | with_reducible apply kept_fold1
    | with_reducible apply kept_foldW
    | with_reducible apply kept_foldW1
    | with_reducible apply kept_foldH
    | with_reducible apply kept_foldH1
    | with_reducible refine kept_fst ?_ (by with_reducible assumption)
    | with_reducible refine kept_fstW ?_ (by with_reducible assumption)
    | with_reducible refine kept_fstH ?_ (by with_reducible assumption)
    | (simp only [↓kept_mk]; with_reducible refine kept_of ?_))

theorem State.newRecord_kept {a0 : State} {a1 : Bool} (ha0 : (a0).kept qs u = true) :
    (@State.newRecord a0 a1).kept qs u = true := by
  unfold State.newRecord
  try dsimp only
  repeat' (first
    | with_reducible assumption
    | with_reducible apply State.writeDue_kept
    | with_reducible apply State.setRegN_kept
    | intro _
    | split
    | with_reducible apply kept_fold
    | with_reducible apply kept_fold1
    | with_reducible apply kept_foldW
    | with_reducible apply kept_foldW1
    | with_reducible apply kept_foldH
    | with_reducible apply kept_foldH1
    | with_reducible refine kept_fst ?_ (by with_reducible assumption)
    | with_reducible refine kept_fstW ?_ (by with_reducible assumption)
    | with_reducible refine kept_fstH ?_ (by with_reducible assumption)
    | (simp only [↓kept_mk]; with_reducible refine kept_of ?_))

theorem State.record_kept {a0 : State} (ha0 : (a0).kept qs u = true) :
    (@State.record a0).kept qs u = true := by
  unfold State.record
  try dsimp only
  repeat' (first
    | with_reducible assumption
    | with_reducible apply State.newRecord_kept
    | intro _
    | split
    | with_reducible apply kept_fold
    | with_reducible apply kept_fold1
    | with_reducible apply kept_foldW
    | with_reducible apply kept_foldW1
    | with_reducible apply kept_foldH
    | with_reducible apply kept_foldH1
    | with_reducible refine kept_fst ?_ (by with_reducible assumption)
    | with_reducible refine kept_fstW ?_ (by with_reducible assumption)
    | with_reducible refine kept_fstH ?_ (by with_reducible assumption)
    | (simp only [↓kept_mk]; with_reducible refine kept_of ?_))

theorem State.plSuspend_kept {a0 : State} {a1 : Nat} (ha0 : (a0).kept qs u = true) :
    (@State.plSuspend a0 a1).kept qs u = true := by
  unfold State.plSuspend
  try dsimp only
  repeat' (first
    | with_reducible assumption
    | with_reducible apply State.plErr_kept
    | with_reducible apply State.setPlBank_kept
    | intro _
    | split
    | with_reducible apply kept_fold
    | with_reducible apply kept_fold1
    | with_reducible apply kept_foldW
    | with_reducible apply kept_foldW1
    | with_reducible apply kept_foldH
    | with_reducible apply kept_foldH1
    | with_reducible refine kept_fst ?_ (by with_reducible assumption)
    | with_reducible refine kept_fstW ?_ (by with_reducible assumption)
    | with_reducible refine kept_fstH ?_ (by with_reducible assumption)
    | (simp only [↓kept_mk]; with_reducible refine kept_of ?_))

theorem State.plResume_kept {a0 : State} {a1 : Nat} (ha0 : (a0).kept qs u = true) :
    (@State.plResume a0 a1).kept qs u = true := by
  unfold State.plResume
  try dsimp only
  repeat' (first
    | with_reducible assumption
    | with_reducible apply State.plErr_kept
    | with_reducible apply State.setPlBank_kept
    | intro _
    | split
    | with_reducible apply kept_fold
    | with_reducible apply kept_fold1
    | with_reducible apply kept_foldW
    | with_reducible apply kept_foldW1
    | with_reducible apply kept_foldH
    | with_reducible apply kept_foldH1
    | with_reducible refine kept_fst ?_ (by with_reducible assumption)
    | with_reducible refine kept_fstW ?_ (by with_reducible assumption)
    | with_reducible refine kept_fstH ?_ (by with_reducible assumption)
    | (simp only [↓kept_mk]; with_reducible refine kept_of ?_))

theorem State.plWrite_kept {a0 : State} {a1 : Nat} {a2 : Nat} (ha0 : (a0).kept qs u = true) :
    (@State.plWrite a0 a1 a2).kept qs u = true := by
  unfold State.plWrite
  refine ite_kept (fun _ => ha0) fun _ => ?_
  extract_lets a b off k goes susp
  have ht : ∀ q, (goes q).kept qs u = true := fun q => State.setPlBank_kept ha0
  clear_value a b off k goes susp
  have step1 : ∀ {c : Prop} [Decidable c] {x y : State}, x.kept qs u = true → y.kept qs u = true → (if c then x else y).kept qs u = true :=
    fun hx hy => ite_kept (fun _ => hx) fun _ => hy
  refine step1 (step1 (State.plErr_kept ha0) (State.plBreak_kept ha0)) (step1 (step1 (State.plSuspend_kept ha0) (State.plErr_kept ha0)) ?_)
  split
  · exact step1 (step1 (State.plBreak_kept ha0) (step1 ha0 (ht _))) (step1 (ht _) (State.plAsk_kept ha0))
  · repeat' first
      | exact ha0
      | exact ht _
      | with_reducible apply State.plAsk_kept
      | with_reducible apply State.plBreak_kept
      | with_reducible apply State.plSuspend_kept
      | with_reducible apply State.plResume_kept
      | with_reducible apply State.setField_kept
        | with_reducible apply State.plErr_kept
      | with_reducible apply step1

theorem State.plWrites_kept {a0 : State} {a1 : List (Word × Word)} (ha0 : (a0).kept qs u = true) :
    (@State.plWrites a0 a1).kept qs u = true := by
  unfold State.plWrites
  try dsimp only
  repeat' (first
    | with_reducible assumption
    | with_reducible apply State.plWrite_kept
    | intro _
    | split
    | with_reducible apply kept_fold
    | with_reducible apply kept_fold1
    | with_reducible apply kept_foldW
    | with_reducible apply kept_foldW1
    | with_reducible apply kept_foldH
    | with_reducible apply kept_foldH1
    | with_reducible refine kept_fst ?_ (by with_reducible assumption)
    | with_reducible refine kept_fstW ?_ (by with_reducible assumption)
    | with_reducible refine kept_fstH ?_ (by with_reducible assumption)
    | (simp only [↓kept_mk]; with_reducible refine kept_of ?_))

theorem execProgramLine_kept {a0 : List (Word × Word)} {a1 : State} (ha1 : (a1).kept qs u = true) :
    ∀ t, @execProgramLine a0 a1 = .next t → t.kept qs u = true := by
  unfold execProgramLine
  refine live_kept ha1 ?_
  try dsimp only
  repeat' (first
    | with_reducible assumption
    | with_reducible apply State.plWrites_kept
    | intro _
    | split
    | with_reducible apply kept_fold
    | with_reducible apply kept_fold1
    | with_reducible apply kept_foldW
    | with_reducible apply kept_foldW1
    | with_reducible apply kept_foldH
    | with_reducible apply kept_foldH1
    | with_reducible refine kept_fst ?_ (by with_reducible assumption)
    | with_reducible refine kept_fstW ?_ (by with_reducible assumption)
    | with_reducible refine kept_fstH ?_ (by with_reducible assumption)
    | (simp only [↓kept_mk]; with_reducible refine kept_of ?_))

theorem execEraseBlock_kept {a0 : List (Word × Word)} {a1 : State} (ha1 : (a1).kept qs u = true) :
    ∀ t, @execEraseBlock a0 a1 = .next t → t.kept qs u = true := by
  unfold execEraseBlock
  refine live_kept ha1 ?_
  try dsimp only
  repeat' (first
    | with_reducible assumption
    | with_reducible apply State.plWrites_kept
    | intro _
    | split
    | with_reducible apply kept_fold
    | with_reducible apply kept_fold1
    | with_reducible apply kept_foldW
    | with_reducible apply kept_foldW1
    | with_reducible apply kept_foldH
    | with_reducible apply kept_foldH1
    | with_reducible refine kept_fst ?_ (by with_reducible assumption)
    | with_reducible refine kept_fstW ?_ (by with_reducible assumption)
    | with_reducible refine kept_fstH ?_ (by with_reducible assumption)
    | (simp only [↓kept_mk]; with_reducible refine kept_of ?_))

theorem execPlinthSuspend_kept {a0 : Word} {a1 : State} (ha1 : (a1).kept qs u = true) :
    ∀ t, @execPlinthSuspend a0 a1 = .next t → t.kept qs u = true := by
  unfold execPlinthSuspend
  refine live_kept ha1 ?_
  try dsimp only
  repeat' (first
    | with_reducible assumption
    | with_reducible apply State.plWrite_kept
    | intro _
    | split
    | with_reducible apply kept_fold
    | with_reducible apply kept_fold1
    | with_reducible apply kept_foldW
    | with_reducible apply kept_foldW1
    | with_reducible apply kept_foldH
    | with_reducible apply kept_foldH1
    | with_reducible refine kept_fst ?_ (by with_reducible assumption)
    | with_reducible refine kept_fstW ?_ (by with_reducible assumption)
    | with_reducible refine kept_fstH ?_ (by with_reducible assumption)
    | (simp only [↓kept_mk]; with_reducible refine kept_of ?_))

theorem execPlinthResume_kept {a0 : Word} {a1 : State} (ha1 : (a1).kept qs u = true) :
    ∀ t, @execPlinthResume a0 a1 = .next t → t.kept qs u = true := by
  unfold execPlinthResume
  refine live_kept ha1 ?_
  try dsimp only
  repeat' (first
    | with_reducible assumption
    | with_reducible apply State.plWrite_kept
    | intro _
    | split
    | with_reducible apply kept_fold
    | with_reducible apply kept_fold1
    | with_reducible apply kept_foldW
    | with_reducible apply kept_foldW1
    | with_reducible apply kept_foldH
    | with_reducible apply kept_foldH1
    | with_reducible refine kept_fst ?_ (by with_reducible assumption)
    | with_reducible refine kept_fstW ?_ (by with_reducible assumption)
    | with_reducible refine kept_fstH ?_ (by with_reducible assumption)
    | (simp only [↓kept_mk]; with_reducible refine kept_of ?_))

theorem execClearErrors_kept {a0 : Word} {a1 : State} (ha1 : (a1).kept qs u = true) :
    ∀ t, @execClearErrors a0 a1 = .next t → t.kept qs u = true := by
  unfold execClearErrors
  refine live_kept ha1 ?_
  try dsimp only
  repeat' (first
    | with_reducible assumption
    | with_reducible apply State.plWrite_kept
    | intro _
    | split
    | with_reducible apply kept_fold
    | with_reducible apply kept_fold1
    | with_reducible apply kept_foldW
    | with_reducible apply kept_foldW1
    | with_reducible apply kept_foldH
    | with_reducible apply kept_foldH1
    | with_reducible refine kept_fst ?_ (by with_reducible assumption)
    | with_reducible refine kept_fstW ?_ (by with_reducible assumption)
    | with_reducible refine kept_fstH ?_ (by with_reducible assumption)
    | (simp only [↓kept_mk]; with_reducible refine kept_of ?_))

theorem execResetToRead_kept {a0 : Word} {a1 : State} (ha1 : (a1).kept qs u = true) :
    ∀ t, @execResetToRead a0 a1 = .next t → t.kept qs u = true := by
  unfold execResetToRead
  refine live_kept ha1 ?_
  try dsimp only
  repeat' (first
    | with_reducible assumption
    | with_reducible apply State.plWrite_kept
    | intro _
    | split
    | with_reducible apply kept_fold
    | with_reducible apply kept_fold1
    | with_reducible apply kept_foldW
    | with_reducible apply kept_foldW1
    | with_reducible apply kept_foldH
    | with_reducible apply kept_foldH1
    | with_reducible refine kept_fst ?_ (by with_reducible assumption)
    | with_reducible refine kept_fstW ?_ (by with_reducible assumption)
    | with_reducible refine kept_fstH ?_ (by with_reducible assumption)
    | (simp only [↓kept_mk]; with_reducible refine kept_of ?_))

theorem State.plBlockData_kept {a0 : State} {a1 : Nat} {a2 : Nat} (ha0 : (a0).kept qs u = true) :
    (@State.plBlockData a0 a1 a2).1.kept qs u = true := by
  unfold State.plBlockData
  try dsimp only
  repeat' (first
    | with_reducible assumption
    | with_reducible apply State.plFlag_kept
    | intro _
    | split
    | with_reducible apply kept_fold
    | with_reducible apply kept_fold1
    | with_reducible apply kept_foldW
    | with_reducible apply kept_foldW1
    | with_reducible apply kept_foldH
    | with_reducible apply kept_foldH1
    | with_reducible refine kept_fst ?_ (by with_reducible assumption)
    | with_reducible refine kept_fstW ?_ (by with_reducible assumption)
    | with_reducible refine kept_fstH ?_ (by with_reducible assumption)
    | (simp only [↓kept_mk]; with_reducible refine kept_of ?_))

theorem State.plData_kept {a0 : State} {a1 : Nat} {a2 : Nat} (ha0 : (a0).kept qs u = true) :
    (@State.plData a0 a1 a2).1.kept qs u = true := by
  unfold State.plData
  try dsimp only
  repeat' (first
    | with_reducible assumption
    | with_reducible apply State.plBlockData_kept
    | intro _
    | split
    | with_reducible apply kept_fold
    | with_reducible apply kept_fold1
    | with_reducible apply kept_foldW
    | with_reducible apply kept_foldW1
    | with_reducible apply kept_foldH
    | with_reducible apply kept_foldH1
    | with_reducible refine kept_fst ?_ (by with_reducible assumption)
    | with_reducible refine kept_fstW ?_ (by with_reducible assumption)
    | with_reducible refine kept_fstH ?_ (by with_reducible assumption)
    | (simp only [↓kept_mk]; with_reducible refine kept_of ?_))

theorem execPlinthDataRead_kept {a0 : Word} {a1 : State} (ha1 : (a1).kept qs u = true) :
    ∀ t, @execPlinthDataRead a0 a1 = .next t → t.kept qs u = true := by
  have hk : ∀ (s : State) (x : Nat), s.kept qs u = true →
      ({ (s.plData x 4).1 with plRead := BitVec.ofNat 32 (leNat (s.plData x 4).2) } : State).kept qs u = true :=
    fun s x h => kept_of (State.plData_kept h)
  unfold execPlinthDataRead
  refine live_kept ha1 ?_
  intro s h
  exact ite_kept (fun _ => h) fun _ => hk s _ h

theorem execQuoinFetch_kept {a0 : Word} {a1 : State} (ha1 : (a1).kept qs u = true) :
    ∀ t, @execQuoinFetch a0 a1 = .next t → t.kept qs u = true := by
  unfold execQuoinFetch
  refine live_kept ha1 ?_
  intro s h
  refine ite_kept (fun _ => h) fun _ => ?_
  extract_lets a b blk k
  clear_value a b blk k
  refine ite_kept (fun _ => State.plFault_kept h) fun _ => ite_kept (fun _ => ?_) fun _ => State.plServe_kept h
  split
  · exact ite_kept (fun _ => State.setPlBank_kept h) fun _ => State.plFault_kept h
  · exact h

theorem execPlinthSuspendDone_kept {a0 : Bool} {a1 : State} (ha1 : (a1).kept qs u = true) :
    ∀ t, @execPlinthSuspendDone a0 a1 = .next t → t.kept qs u = true := by
  unfold execPlinthSuspendDone
  refine live_kept ha1 ?_
  try dsimp only
  repeat' (first
    | with_reducible assumption
    | with_reducible apply State.setPlBank_kept
    | with_reducible apply State.plServe_kept
    | intro _
    | split
    | with_reducible apply kept_fold
    | with_reducible apply kept_fold1
    | with_reducible apply kept_foldW
    | with_reducible apply kept_foldW1
    | with_reducible apply kept_foldH
    | with_reducible apply kept_foldH1
    | with_reducible refine kept_fst ?_ (by with_reducible assumption)
    | with_reducible refine kept_fstW ?_ (by with_reducible assumption)
    | with_reducible refine kept_fstH ?_ (by with_reducible assumption)
    | (simp only [↓kept_mk]; with_reducible refine kept_of ?_))

theorem execAutoSuspendResume_kept {a0 : Bool} {a1 : State} (ha1 : (a1).kept qs u = true) :
    ∀ t, @execAutoSuspendResume a0 a1 = .next t → t.kept qs u = true := by
  unfold execAutoSuspendResume
  refine live_kept ha1 ?_
  try dsimp only
  repeat' (first
    | with_reducible assumption
    | with_reducible apply State.plResume_kept
    | intro _
    | split
    | with_reducible apply kept_fold
    | with_reducible apply kept_fold1
    | with_reducible apply kept_foldW
    | with_reducible apply kept_foldW1
    | with_reducible apply kept_foldH
    | with_reducible apply kept_foldH1
    | with_reducible refine kept_fst ?_ (by with_reducible assumption)
    | with_reducible refine kept_fstW ?_ (by with_reducible assumption)
    | with_reducible refine kept_fstH ?_ (by with_reducible assumption)
    | (simp only [↓kept_mk]; with_reducible refine kept_of ?_))

theorem State.plTorn_kept {a0 : State} {a1 : PlOp} (ha0 : (a0).kept qs u = true) :
    (@State.plTorn a0 a1).kept qs u = true := by
  unfold State.plTorn
  try dsimp only
  repeat' (first
    | with_reducible assumption
    | with_reducible apply State.tick_kept
    | intro _
    | split
    | with_reducible apply kept_fold
    | with_reducible apply kept_fold1
    | with_reducible apply kept_foldW
    | with_reducible apply kept_foldW1
    | with_reducible apply kept_foldH
    | with_reducible apply kept_foldH1
    | with_reducible refine kept_fst ?_ (by with_reducible assumption)
    | with_reducible refine kept_fstW ?_ (by with_reducible assumption)
    | with_reducible refine kept_fstH ?_ (by with_reducible assumption)
    | (simp only [↓kept_mk]; with_reducible refine kept_of ?_)
    | (simp only [↓kept_mk]; with_reducible refine kept_setPl ?_ ?_)
    | (simp only [↓kept_mk]; with_reducible refine kept_setNand ?_ ?_)
    | (simp only [↓kept_mk]; with_reducible refine kept_setBed ?_ ?_)
    | (simp only [↓kept_mk]; with_reducible refine kept_setHbm ?_ ?_)
    | (simp only [↓kept_mk]; with_reducible refine kept_setRegs ?_ ?_)
    | (simp only [↓kept_mk]; with_reducible refine kept_setMarks ?_ ?_)
    | with_reducible exact wf_nil _
    | with_reducible exact smapWf_nil _
    | with_reducible apply wf_memWrite
    | with_reducible apply wf_memClear
    | with_reducible apply smapWf_set
    | with_reducible apply smapWf_clear
    | with_reducible apply wf_fold
    | with_reducible refine kept_pl (qs := qs) (u := u) ?_
    | with_reducible refine kept_nand (qs := qs) (u := u) ?_
    | with_reducible refine kept_bed (qs := qs) (u := u) ?_
    | with_reducible refine kept_hbm (qs := qs) (u := u) ?_
    | with_reducible refine kept_regs (qs := qs) (u := u) ?_
    | with_reducible refine kept_marks (qs := qs) (u := u) ?_)

theorem execPlinthProgramDone_kept {a0 : Bool} {a1 : Bool} {a2 : State} (ha2 : (a2).kept qs u = true) :
    ∀ t, @execPlinthProgramDone a0 a1 a2 = .next t → t.kept qs u = true := by
  unfold execPlinthProgramDone
  refine live_kept ha2 ?_
  try dsimp only
  repeat' (first
    | with_reducible assumption
    | with_reducible apply State.writeDue_kept
    | with_reducible apply State.plProgrammed_kept
    | intro _
    | split
    | with_reducible apply kept_fold
    | with_reducible apply kept_fold1
    | with_reducible apply kept_foldW
    | with_reducible apply kept_foldW1
    | with_reducible apply kept_foldH
    | with_reducible apply kept_foldH1
    | with_reducible refine kept_fst ?_ (by with_reducible assumption)
    | with_reducible refine kept_fstW ?_ (by with_reducible assumption)
    | with_reducible refine kept_fstH ?_ (by with_reducible assumption)
    | (simp only [↓kept_mk]; with_reducible refine kept_of ?_)
    | (simp only [↓kept_mk]; with_reducible refine kept_setPl ?_ ?_)
    | (simp only [↓kept_mk]; with_reducible refine kept_setNand ?_ ?_)
    | (simp only [↓kept_mk]; with_reducible refine kept_setBed ?_ ?_)
    | (simp only [↓kept_mk]; with_reducible refine kept_setHbm ?_ ?_)
    | (simp only [↓kept_mk]; with_reducible refine kept_setRegs ?_ ?_)
    | (simp only [↓kept_mk]; with_reducible refine kept_setMarks ?_ ?_)
    | with_reducible exact wf_nil _
    | with_reducible exact smapWf_nil _
    | with_reducible apply wf_memWrite
    | with_reducible apply wf_memClear
    | with_reducible apply smapWf_set
    | with_reducible apply smapWf_clear
    | with_reducible apply wf_fold
    | with_reducible refine kept_pl (qs := qs) (u := u) ?_
    | with_reducible refine kept_nand (qs := qs) (u := u) ?_
    | with_reducible refine kept_bed (qs := qs) (u := u) ?_
    | with_reducible refine kept_hbm (qs := qs) (u := u) ?_
    | with_reducible refine kept_regs (qs := qs) (u := u) ?_
    | with_reducible refine kept_marks (qs := qs) (u := u) ?_)

theorem execPlinthEraseDone_kept {a0 : Bool} {a1 : Bool} {a2 : State} (ha2 : (a2).kept qs u = true) :
    ∀ t, @execPlinthEraseDone a0 a1 a2 = .next t → t.kept qs u = true := by
  unfold execPlinthEraseDone
  refine live_kept ha2 ?_
  try dsimp only
  repeat' (first
    | with_reducible assumption
    | with_reducible apply State.writeDue_kept
    | with_reducible apply State.plEraseEnd_kept
    | with_reducible apply State.tick_kept
    | with_reducible apply State.plEnd_kept
    | with_reducible apply State.plErr_kept
    | intro _
    | split
    | with_reducible apply kept_fold
    | with_reducible apply kept_fold1
    | with_reducible apply kept_foldW
    | with_reducible apply kept_foldW1
    | with_reducible apply kept_foldH
    | with_reducible apply kept_foldH1
    | with_reducible refine kept_fst ?_ (by with_reducible assumption)
    | with_reducible refine kept_fstW ?_ (by with_reducible assumption)
    | with_reducible refine kept_fstH ?_ (by with_reducible assumption)
    | (simp only [↓kept_mk]; with_reducible refine kept_of ?_)
    | (simp only [↓kept_mk]; with_reducible refine kept_setPl ?_ ?_)
    | (simp only [↓kept_mk]; with_reducible refine kept_setNand ?_ ?_)
    | (simp only [↓kept_mk]; with_reducible refine kept_setBed ?_ ?_)
    | (simp only [↓kept_mk]; with_reducible refine kept_setHbm ?_ ?_)
    | (simp only [↓kept_mk]; with_reducible refine kept_setRegs ?_ ?_)
    | (simp only [↓kept_mk]; with_reducible refine kept_setMarks ?_ ?_)
    | with_reducible exact wf_nil _
    | with_reducible exact smapWf_nil _
    | with_reducible apply wf_memWrite
    | with_reducible apply wf_memClear
    | with_reducible apply smapWf_set
    | with_reducible apply smapWf_clear
    | with_reducible apply wf_fold
    | with_reducible refine kept_pl (qs := qs) (u := u) ?_
    | with_reducible refine kept_nand (qs := qs) (u := u) ?_
    | with_reducible refine kept_bed (qs := qs) (u := u) ?_
    | with_reducible refine kept_hbm (qs := qs) (u := u) ?_
    | with_reducible refine kept_regs (qs := qs) (u := u) ?_
    | with_reducible refine kept_marks (qs := qs) (u := u) ?_)

theorem State.xipCtl_kept {a0 : State} {a1 : Nat} (ha0 : (a0).kept qs u = true) :
    (@State.xipCtl a0 a1).kept qs u = true := by
  unfold State.xipCtl
  try dsimp only
  repeat' (first
    | with_reducible assumption
    | with_reducible apply State.setRegN_kept
    | with_reducible apply State.setField_kept
    | intro _
    | split
    | with_reducible apply kept_fold
    | with_reducible apply kept_fold1
    | with_reducible apply kept_foldW
    | with_reducible apply kept_foldW1
    | with_reducible apply kept_foldH
    | with_reducible apply kept_foldH1
    | with_reducible refine kept_fst ?_ (by with_reducible assumption)
    | with_reducible refine kept_fstW ?_ (by with_reducible assumption)
    | with_reducible refine kept_fstH ?_ (by with_reducible assumption)
    | (simp only [↓kept_mk]; with_reducible refine kept_of ?_))

theorem State.plScan_kept {a0 : State} (ha0 : (a0).kept qs u = true) :
    (@State.plScan a0).kept qs u = true := by
  unfold State.plScan
  try dsimp only
  repeat' (first
    | with_reducible assumption
    | with_reducible apply State.setBit_kept
    | with_reducible apply State.setField_kept
    | with_reducible apply State.plTally_kept
    | intro _
    | split
    | with_reducible apply kept_fold
    | with_reducible apply kept_fold1
    | with_reducible apply kept_foldW
    | with_reducible apply kept_foldW1
    | with_reducible apply kept_foldH
    | with_reducible apply kept_foldH1
    | with_reducible refine kept_fst ?_ (by with_reducible assumption)
    | with_reducible refine kept_fstW ?_ (by with_reducible assumption)
    | with_reducible refine kept_fstH ?_ (by with_reducible assumption)
    | (simp only [↓kept_mk]; with_reducible refine kept_of ?_))

theorem State.plChoose_kept {a0 : State} (ha0 : (a0).kept qs u = true) :
    (@State.plChoose a0).kept qs u = true := by
  unfold State.plChoose
  try dsimp only
  repeat' (first
    | with_reducible assumption
    | with_reducible apply State.plFlag_kept
    | with_reducible apply State.writeCopy_kept
    | with_reducible apply State.setRegN_kept
    | intro _
    | split
    | with_reducible apply kept_fold
    | with_reducible apply kept_fold1
    | with_reducible apply kept_foldW
    | with_reducible apply kept_foldW1
    | with_reducible apply kept_foldH
    | with_reducible apply kept_foldH1
    | with_reducible refine kept_fst ?_ (by with_reducible assumption)
    | with_reducible refine kept_fstW ?_ (by with_reducible assumption)
    | with_reducible refine kept_fstH ?_ (by with_reducible assumption)
    | (simp only [↓kept_mk]; with_reducible refine kept_of ?_))

theorem State.plTake_kept {a0 : State} {a1 : CfgRec} (ha0 : (a0).kept qs u = true) :
    (@State.plTake a0 a1).kept qs u = true := by
  unfold State.plTake
  try dsimp only
  repeat' (first
    | with_reducible assumption
    | with_reducible apply State.setUnit_kept
    | with_reducible apply State.setRegN_kept
    | with_reducible apply State.setBit_kept
    | with_reducible apply State.setReg_kept
    | intro _
    | split
    | with_reducible apply kept_fold
    | with_reducible apply kept_fold1
    | with_reducible apply kept_foldW
    | with_reducible apply kept_foldW1
    | with_reducible apply kept_foldH
    | with_reducible apply kept_foldH1
    | with_reducible refine kept_fst ?_ (by with_reducible assumption)
    | with_reducible refine kept_fstW ?_ (by with_reducible assumption)
    | with_reducible refine kept_fstH ?_ (by with_reducible assumption)
    | (simp only [↓kept_mk]; with_reducible refine kept_of ?_))

theorem State.newKey_kept {a0 : State} {a1 : Nat} (ha0 : (a0).kept qs u = true) :
    (@State.newKey a0 a1).kept qs u = true := by
  unfold State.newKey
  try dsimp only
  repeat' (first
    | with_reducible assumption
    | intro _
    | split
    | with_reducible apply kept_fold
    | with_reducible apply kept_fold1
    | with_reducible apply kept_foldW
    | with_reducible apply kept_foldW1
    | with_reducible apply kept_foldH
    | with_reducible apply kept_foldH1
    | with_reducible refine kept_fst ?_ (by with_reducible assumption)
    | with_reducible refine kept_fstW ?_ (by with_reducible assumption)
    | with_reducible refine kept_fstH ?_ (by with_reducible assumption)
    | (simp only [↓kept_mk]; with_reducible refine kept_of ?_))

theorem State.bootRegions_kept {a0 : State} (ha0 : (a0).kept qs u = true) :
    (@State.bootRegions a0).kept qs u = true := by
  unfold State.bootRegions
  try dsimp only
  repeat' (first
    | with_reducible assumption
    | with_reducible apply State.setRegN_kept
    | intro _
    | split
    | with_reducible apply kept_fold
    | with_reducible apply kept_fold1
    | with_reducible apply kept_foldW
    | with_reducible apply kept_foldW1
    | with_reducible apply kept_foldH
    | with_reducible apply kept_foldH1
    | with_reducible refine kept_fst ?_ (by with_reducible assumption)
    | with_reducible refine kept_fstW ?_ (by with_reducible assumption)
    | with_reducible refine kept_fstH ?_ (by with_reducible assumption)
    | (simp only [↓kept_mk]; with_reducible refine kept_of ?_))

theorem execQuoinBoot_kept {a0 : State} (ha0 : (a0).kept qs u = true) :
    ∀ t, @execQuoinBoot a0 = .next t → t.kept qs u = true := by
  unfold execQuoinBoot
  refine live_kept ha0 ?_
  try dsimp only
  repeat' (first
    | with_reducible assumption
    | with_reducible apply State.plChoose_kept
    | with_reducible apply State.plServe_kept
    | with_reducible apply State.plTake_kept
    | with_reducible apply State.tick_kept
    | with_reducible apply State.newKey_kept
    | with_reducible apply State.bootRegions_kept
    | intro _
    | split
    | with_reducible apply kept_fold
    | with_reducible apply kept_fold1
    | with_reducible apply kept_foldW
    | with_reducible apply kept_foldW1
    | with_reducible apply kept_foldH
    | with_reducible apply kept_foldH1
    | with_reducible refine kept_fst ?_ (by with_reducible assumption)
    | with_reducible refine kept_fstW ?_ (by with_reducible assumption)
    | with_reducible refine kept_fstH ?_ (by with_reducible assumption)
    | (simp only [↓kept_mk]; with_reducible refine kept_of ?_))

theorem State.xmapWrite_kept {a0 : State} {a1 : Nat} {a2 : Nat} (ha0 : (a0).kept qs u = true) :
    (@State.xmapWrite a0 a1 a2).kept qs u = true := by
  unfold State.xmapWrite
  try dsimp only
  repeat' (first
    | with_reducible assumption
    | with_reducible apply State.blkErr_kept
    | with_reducible apply State.setRegN_kept
    | intro _
    | split
    | with_reducible apply kept_fold
    | with_reducible apply kept_fold1
    | with_reducible apply kept_foldW
    | with_reducible apply kept_foldW1
    | with_reducible apply kept_foldH
    | with_reducible apply kept_foldH1
    | with_reducible refine kept_fst ?_ (by with_reducible assumption)
    | with_reducible refine kept_fstW ?_ (by with_reducible assumption)
    | with_reducible refine kept_fstH ?_ (by with_reducible assumption)
    | (simp only [↓kept_mk]; with_reducible refine kept_of ?_))

theorem execXmapWrite_kept {a0 : Bool} {a1 : Fin 12} {a2 : DWord} {a3 : State} (ha3 : (a3).kept qs u = true) :
    ∀ t, @execXmapWrite a0 a1 a2 a3 = .next t → t.kept qs u = true := by
  unfold execXmapWrite
  refine live_kept ha3 ?_
  try dsimp only
  repeat' (first
    | with_reducible assumption
    | with_reducible apply State.allow_kept
    | with_reducible apply State.xmapWrite_kept
    | intro _
    | split
    | with_reducible apply kept_fold
    | with_reducible apply kept_fold1
    | with_reducible apply kept_foldW
    | with_reducible apply kept_foldW1
    | with_reducible apply kept_foldH
    | with_reducible apply kept_foldH1
    | with_reducible refine kept_fst ?_ (by with_reducible assumption)
    | with_reducible refine kept_fstW ?_ (by with_reducible assumption)
    | with_reducible refine kept_fstH ?_ (by with_reducible assumption)
    | (simp only [↓kept_mk]; with_reducible refine kept_of ?_))

theorem execHbmRequest_kept {a0 : HbmReq} {a1 : State} (ha1 : (a1).kept qs u = true) :
    ∀ t, @execHbmRequest a0 a1 = .next t → t.kept qs u = true := by
  unfold execHbmRequest
  refine live_kept ha1 ?_
  try dsimp only
  repeat' (first
    | with_reducible assumption
    | with_reducible apply State.touch_kept
    | intro _
    | split
    | with_reducible apply kept_fold
    | with_reducible apply kept_fold1
    | with_reducible apply kept_foldW
    | with_reducible apply kept_foldW1
    | with_reducible apply kept_foldH
    | with_reducible apply kept_foldH1
    | with_reducible refine kept_fst ?_ (by with_reducible assumption)
    | with_reducible refine kept_fstW ?_ (by with_reducible assumption)
    | with_reducible refine kept_fstH ?_ (by with_reducible assumption)
    | (simp only [↓kept_mk]; with_reducible refine kept_of ?_))

theorem State.drainUpdate_kept {a0 : State} {a1 : Nat} (ha0 : (a0).kept qs u = true) :
    (@State.drainUpdate a0 a1).kept qs u = true := by
  unfold State.drainUpdate
  try dsimp only
  repeat' (first
    | with_reducible assumption
    | intro _
    | split
    | with_reducible apply kept_fold
    | with_reducible apply kept_fold1
    | with_reducible apply kept_foldW
    | with_reducible apply kept_foldW1
    | with_reducible apply kept_foldH
    | with_reducible apply kept_foldH1
    | with_reducible refine kept_fst ?_ (by with_reducible assumption)
    | with_reducible refine kept_fstW ?_ (by with_reducible assumption)
    | with_reducible refine kept_fstH ?_ (by with_reducible assumption)
    | (simp only [↓kept_mk]; with_reducible refine kept_of ?_))

theorem State.activate_kept {a0 : State} {a1 : Nat} {a2 : Nat} (ha0 : (a0).kept qs u = true) :
    (@State.activate a0 a1 a2).kept qs u = true := by
  unfold State.activate
  try dsimp only
  repeat' (first
    | with_reducible assumption
    | intro _
    | split
    | with_reducible apply kept_fold
    | with_reducible apply kept_fold1
    | with_reducible apply kept_foldW
    | with_reducible apply kept_foldW1
    | with_reducible apply kept_foldH
    | with_reducible apply kept_foldH1
    | with_reducible refine kept_fst ?_ (by with_reducible assumption)
    | with_reducible refine kept_fstW ?_ (by with_reducible assumption)
    | with_reducible refine kept_fstH ?_ (by with_reducible assumption)
    | (simp only [↓kept_mk]; with_reducible refine kept_of ?_))

theorem State.precharge_kept {a0 : State} {a1 : Nat} (ha0 : (a0).kept qs u = true) :
    (@State.precharge a0 a1).kept qs u = true := by
  unfold State.precharge
  try dsimp only
  repeat' (first
    | with_reducible assumption
    | intro _
    | split
    | with_reducible apply kept_fold
    | with_reducible apply kept_fold1
    | with_reducible apply kept_foldW
    | with_reducible apply kept_foldW1
    | with_reducible apply kept_foldH
    | with_reducible apply kept_foldH1
    | with_reducible refine kept_fst ?_ (by with_reducible assumption)
    | with_reducible refine kept_fstW ?_ (by with_reducible assumption)
    | with_reducible refine kept_fstH ?_ (by with_reducible assumption)
    | (simp only [↓kept_mk]; with_reducible refine kept_of ?_))

theorem State.targeted_kept {a0 : State} {a1 : Nat} {a2 : Nat} (ha0 : (a0).kept qs u = true) :
    (@State.targeted a0 a1 a2).kept qs u = true := by
  unfold State.targeted
  try dsimp only
  repeat' (first
    | with_reducible assumption
    | with_reducible apply State.precharge_kept
    | with_reducible apply State.activate_kept
    | with_reducible apply State.count_kept
    | intro _
    | split
    | with_reducible apply kept_fold
    | with_reducible apply kept_fold1
    | with_reducible apply kept_foldW
    | with_reducible apply kept_foldW1
    | with_reducible apply kept_foldH
    | with_reducible apply kept_foldH1
    | with_reducible refine kept_fst ?_ (by with_reducible assumption)
    | with_reducible refine kept_fstW ?_ (by with_reducible assumption)
    | with_reducible refine kept_fstH ?_ (by with_reducible assumption)
    | (simp only [↓kept_mk]; with_reducible refine kept_of ?_))

theorem State.laneRepair_kept {a0 : State} {a1 : Nat} {a2 : Nat} (ha0 : (a0).kept qs u = true) :
    (@State.laneRepair a0 a1 a2).kept qs u = true := by
  unfold State.laneRepair
  try dsimp only
  repeat' (first
    | with_reducible assumption
    | with_reducible apply State.setField_kept
    | with_reducible apply State.setBit_kept
    | intro _
    | split
    | with_reducible apply kept_fold
    | with_reducible apply kept_fold1
    | with_reducible apply kept_foldW
    | with_reducible apply kept_foldW1
    | with_reducible apply kept_foldH
    | with_reducible apply kept_foldH1
    | with_reducible refine kept_fst ?_ (by with_reducible assumption)
    | with_reducible refine kept_fstW ?_ (by with_reducible assumption)
    | with_reducible refine kept_fstH ?_ (by with_reducible assumption)
    | (simp only [↓kept_mk]; with_reducible refine kept_of ?_))

theorem State.laneCorrected_kept {a0 : State} {a1 : Nat} {a2 : Nat} (ha0 : (a0).kept qs u = true) :
    (@State.laneCorrected a0 a1 a2).kept qs u = true := by
  unfold State.laneCorrected
  try dsimp only
  repeat' (first
    | with_reducible assumption
    | with_reducible apply State.blkErr_kept
    | with_reducible apply State.noSpare_kept
    | intro _
    | split
    | with_reducible apply kept_fold
    | with_reducible apply kept_fold1
    | with_reducible apply kept_foldW
    | with_reducible apply kept_foldW1
    | with_reducible apply kept_foldH
    | with_reducible apply kept_foldH1
    | with_reducible refine kept_fst ?_ (by with_reducible assumption)
    | with_reducible refine kept_fstW ?_ (by with_reducible assumption)
    | with_reducible refine kept_fstH ?_ (by with_reducible assumption)
    | (simp only [↓kept_mk]; with_reducible refine kept_of ?_))

theorem State.hbmCorrected_kept {a0 : State} {a1 : Nat} (ha0 : (a0).kept qs u = true) :
    (@State.hbmCorrected a0 a1).kept qs u = true := by
  unfold State.hbmCorrected
  try dsimp only
  repeat' (first
    | with_reducible assumption
    | with_reducible apply State.blkErr_kept
    | with_reducible apply State.setRegN_kept
    | with_reducible apply State.count_kept
    | with_reducible apply State.noSpare_kept
    | intro _
    | split
    | with_reducible apply kept_fold
    | with_reducible apply kept_fold1
    | with_reducible apply kept_foldW
    | with_reducible apply kept_foldW1
    | with_reducible apply kept_foldH
    | with_reducible apply kept_foldH1
    | with_reducible refine kept_fst ?_ (by with_reducible assumption)
    | with_reducible refine kept_fstW ?_ (by with_reducible assumption)
    | with_reducible refine kept_fstH ?_ (by with_reducible assumption)
    | (simp only [↓kept_mk]; with_reducible refine kept_of ?_))

theorem State.hbmEcc_kept {a0 : State} {a1 : Nat} {a2 : HbmFind} (ha0 : (a0).kept qs u = true) :
    (@State.hbmEcc a0 a1 a2).kept qs u = true := by
  unfold State.hbmEcc
  try dsimp only
  repeat' (first
    | with_reducible assumption
    | with_reducible apply State.count_kept
    | with_reducible apply State.hbmCorrected_kept
    | with_reducible apply State.laneCorrected_kept
    | with_reducible apply State.uncorrectable_kept
    | with_reducible apply State.poisonLine_kept
    | with_reducible apply State.setRegN_kept
    | intro _
    | split
    | with_reducible apply kept_fold
    | with_reducible apply kept_fold1
    | with_reducible apply kept_foldW
    | with_reducible apply kept_foldW1
    | with_reducible apply kept_foldH
    | with_reducible apply kept_foldH1
    | with_reducible refine kept_fst ?_ (by with_reducible assumption)
    | with_reducible refine kept_fstW ?_ (by with_reducible assumption)
    | with_reducible refine kept_fstH ?_ (by with_reducible assumption)
    | (simp only [↓kept_mk]; with_reducible refine kept_of ?_))

theorem State.hbmRead_kept {a0 : State} {a1 : HbmReq} {a2 : HbmFind} (ha0 : (a0).kept qs u = true) :
    (@State.hbmRead a0 a1 a2).kept qs u = true := by
  unfold State.hbmRead
  try dsimp only
  repeat' (first
    | with_reducible assumption
    | with_reducible apply State.hbmEcc_kept
    | with_reducible apply State.endEarly_kept
    | intro _
    | split
    | with_reducible apply kept_fold
    | with_reducible apply kept_fold1
    | with_reducible apply kept_foldW
    | with_reducible apply kept_foldW1
    | with_reducible apply kept_foldH
    | with_reducible apply kept_foldH1
    | with_reducible refine kept_fst ?_ (by with_reducible assumption)
    | with_reducible refine kept_fstW ?_ (by with_reducible assumption)
    | with_reducible refine kept_fstH ?_ (by with_reducible assumption)
    | (simp only [↓kept_mk]; with_reducible refine kept_of ?_))

theorem State.serveHbm_kept {a0 : State} {a1 : HbmWait} {a2 : HbmFind} (ha0 : (a0).kept qs u = true) :
    (@State.serveHbm a0 a1 a2).kept qs u = true := by
  unfold State.serveHbm
  try dsimp only
  repeat' (first
    | with_reducible assumption
    | with_reducible apply State.activate_kept
    | with_reducible apply State.count_kept
    | with_reducible apply State.writeLine_kept
    | with_reducible apply State.hbmRead_kept
    | intro _
    | split
    | with_reducible apply kept_fold
    | with_reducible apply kept_fold1
    | with_reducible apply kept_foldW
    | with_reducible apply kept_foldW1
    | with_reducible apply kept_foldH
    | with_reducible apply kept_foldH1
    | with_reducible refine kept_fst ?_ (by with_reducible assumption)
    | with_reducible refine kept_fstW ?_ (by with_reducible assumption)
    | with_reducible refine kept_fstH ?_ (by with_reducible assumption)
    | (simp only [↓kept_mk]; with_reducible refine kept_of ?_))

theorem execHbmCommandIssue_kept {a0 : Fin 256} {a1 : Ecc} {a2 : Bool} {a4 : Option (Fin 36)} {a5 : Nat} {a3 : State} (ha3 : (a3).kept qs u = true) :
    ∀ t, @execHbmCommandIssue a0 a1 a2 a4 a3 a5 = .next t → t.kept qs u = true := by
  unfold execHbmCommandIssue
  refine live_kept ha3 ?_
  try dsimp only
  repeat' (first
    | with_reducible assumption
    | with_reducible apply State.count_kept
    | with_reducible apply State.precharge_kept
    | with_reducible apply State.targeted_kept
    | with_reducible apply State.drainUpdate_kept
    | with_reducible apply State.serveHbm_kept
    | intro _
    | split
    | with_reducible apply kept_fold
    | with_reducible apply kept_fold1
    | with_reducible apply kept_foldW
    | with_reducible apply kept_foldW1
    | with_reducible apply kept_foldH
    | with_reducible apply kept_foldH1
    | with_reducible refine kept_fst ?_ (by with_reducible assumption)
    | with_reducible refine kept_fstW ?_ (by with_reducible assumption)
    | with_reducible refine kept_fstH ?_ (by with_reducible assumption)
    | (simp only [↓kept_mk]; with_reducible refine kept_of ?_))

theorem execPerBankRefresh_kept {a0 : Fin 256} {a1 : Fin 3} {a2 : Fin 16} {a3 : State} (ha3 : (a3).kept qs u = true) :
    ∀ t, @execPerBankRefresh a0 a1 a2 a3 = .next t → t.kept qs u = true := by
  unfold execPerBankRefresh
  refine live_kept ha3 ?_
  try dsimp only
  repeat' (first
    | with_reducible assumption
    | with_reducible apply State.precharge_kept
    | intro _
    | split
    | with_reducible apply kept_fold
    | with_reducible apply kept_fold1
    | with_reducible apply kept_foldW
    | with_reducible apply kept_foldW1
    | with_reducible apply kept_foldH
    | with_reducible apply kept_foldH1
    | with_reducible refine kept_fst ?_ (by with_reducible assumption)
    | with_reducible refine kept_fstW ?_ (by with_reducible assumption)
    | with_reducible refine kept_fstH ?_ (by with_reducible assumption)
    | (simp only [↓kept_mk]; with_reducible refine kept_of ?_))

theorem execTrrWindowEnd_kept {a0 : Fin 8} {a1 : State} (ha1 : (a1).kept qs u = true) :
    ∀ t, @execTrrWindowEnd a0 a1 = .next t → t.kept qs u = true := by
  unfold execTrrWindowEnd
  refine live_kept ha1 ?_
  try dsimp only
  repeat' (first
    | with_reducible assumption
    | intro _
    | split
    | with_reducible apply kept_fold
    | with_reducible apply kept_fold1
    | with_reducible apply kept_foldW
    | with_reducible apply kept_foldW1
    | with_reducible apply kept_foldH
    | with_reducible apply kept_foldH1
    | with_reducible refine kept_fst ?_ (by with_reducible assumption)
    | with_reducible refine kept_fstW ?_ (by with_reducible assumption)
    | with_reducible refine kept_fstH ?_ (by with_reducible assumption)
    | (simp only [↓kept_mk]; with_reducible refine kept_of ?_))

theorem execHbmPatrolScrub_kept {a0 : Fin 8} {a1 : List (Nat × HbmFind)} {a2 : State} (ha2 : (a2).kept qs u = true) :
    ∀ t, @execHbmPatrolScrub a0 a1 a2 = .next t → t.kept qs u = true := by
  unfold execHbmPatrolScrub
  refine live_kept ha2 ?_
  try dsimp only
  repeat' (first
    | with_reducible assumption
    | with_reducible apply State.serveHbm_kept
    | with_reducible apply State.touch_kept
    | intro _
    | split
    | with_reducible apply kept_fold
    | with_reducible apply kept_fold1
    | with_reducible apply kept_foldW
    | with_reducible apply kept_foldW1
    | with_reducible apply kept_foldH
    | with_reducible apply kept_foldH1
    | with_reducible refine kept_fst ?_ (by with_reducible assumption)
    | with_reducible refine kept_fstW ?_ (by with_reducible assumption)
    | with_reducible refine kept_fstH ?_ (by with_reducible assumption)
    | (simp only [↓kept_mk]; with_reducible refine kept_of ?_))

theorem State.putTraining_kept {a0 : State} {a1 : Nat} {a2 : Nat} {a3 : List (Nat × Nat) × List (Nat × Nat)} (ha0 : (a0).kept qs u = true) :
    (@State.putTraining a0 a1 a2 a3).kept qs u = true := by
  unfold State.putTraining
  try dsimp only
  repeat' (first
    | with_reducible assumption
    | with_reducible apply State.setRegN_kept
    | with_reducible apply State.laneRepair_kept
    | intro _
    | split
    | with_reducible apply kept_fold
    | with_reducible apply kept_fold1
    | with_reducible apply kept_foldW
    | with_reducible apply kept_foldW1
    | with_reducible apply kept_foldH
    | with_reducible apply kept_foldH1
    | with_reducible refine kept_fst ?_ (by with_reducible assumption)
    | with_reducible refine kept_fstW ?_ (by with_reducible assumption)
    | with_reducible refine kept_fstH ?_ (by with_reducible assumption)
    | (simp only [↓kept_mk]; with_reducible refine kept_of ?_))

theorem State.degrade_kept {a0 : State} {a1 : Nat} {a2 : Nat} (ha0 : (a0).kept qs u = true) :
    (@State.degrade a0 a1 a2).kept qs u = true := by
  unfold State.degrade
  try dsimp only
  repeat' (first
    | with_reducible assumption
    | with_reducible apply State.setBit_kept
    | with_reducible apply State.pfEvent_kept
    | intro _
    | split
    | with_reducible apply kept_fold
    | with_reducible apply kept_fold1
    | with_reducible apply kept_foldW
    | with_reducible apply kept_foldW1
    | with_reducible apply kept_foldH
    | with_reducible apply kept_foldH1
    | with_reducible refine kept_fst ?_ (by with_reducible assumption)
    | with_reducible refine kept_fstW ?_ (by with_reducible assumption)
    | with_reducible refine kept_fstH ?_ (by with_reducible assumption)
    | (simp only [↓kept_mk]; with_reducible refine kept_of ?_))

theorem State.stackTemp_kept {a0 : State} {a1 : Nat} {a2 : Byte} (ha0 : (a0).kept qs u = true) :
    (@State.stackTemp a0 a1 a2).kept qs u = true := by
  unfold State.stackTemp
  try dsimp only
  repeat' (first
    | with_reducible assumption
    | with_reducible apply State.setBit_kept
    | with_reducible apply State.setField_kept
    | intro _
    | split
    | with_reducible apply kept_fold
    | with_reducible apply kept_fold1
    | with_reducible apply kept_foldW
    | with_reducible apply kept_foldW1
    | with_reducible apply kept_foldH
    | with_reducible apply kept_foldH1
    | with_reducible refine kept_fst ?_ (by with_reducible assumption)
    | with_reducible refine kept_fstW ?_ (by with_reducible assumption)
    | with_reducible refine kept_fstH ?_ (by with_reducible assumption)
    | (simp only [↓kept_mk]; with_reducible refine kept_of ?_))

theorem State.applyRepairs_kept {a0 : State} (ha0 : (a0).kept qs u = true) :
    (@State.applyRepairs a0).kept qs u = true := by
  unfold State.applyRepairs
  try dsimp only
  repeat' (first
    | with_reducible assumption
    | with_reducible apply State.setRegN_kept
    | intro _
    | split
    | with_reducible apply kept_fold
    | with_reducible apply kept_fold1
    | with_reducible apply kept_foldW
    | with_reducible apply kept_foldW1
    | with_reducible apply kept_foldH
    | with_reducible apply kept_foldH1
    | with_reducible refine kept_fst ?_ (by with_reducible assumption)
    | with_reducible refine kept_fstW ?_ (by with_reducible assumption)
    | with_reducible refine kept_fstH ?_ (by with_reducible assumption)
    | (simp only [↓kept_mk]; with_reducible refine kept_of ?_))

theorem execHbmTraining_kept {a0 : List Byte} {a1 : List (Fin 8 × Fin 16 × Sweep)} {a2 : State} (ha2 : (a2).kept qs u = true) :
    ∀ t, @execHbmTraining a0 a1 a2 = .next t → t.kept qs u = true := by
  unfold execHbmTraining
  refine live_kept ha2 ?_
  try dsimp only
  repeat' (first
    | with_reducible assumption
    | with_reducible apply State.stackTemp_kept
    | with_reducible apply State.applyRepairs_kept
    | with_reducible apply State.putTraining_kept
    | with_reducible apply State.tick_kept
    | with_reducible apply State.degrade_kept
    | with_reducible apply State.setBit_kept
    | with_reducible apply State.record_kept
    | intro _
    | split
    | with_reducible apply kept_fold
    | with_reducible apply kept_fold1
    | with_reducible apply kept_foldW
    | with_reducible apply kept_foldW1
    | with_reducible apply kept_foldH
    | with_reducible apply kept_foldH1
    | with_reducible refine kept_fst ?_ (by with_reducible assumption)
    | with_reducible refine kept_fstW ?_ (by with_reducible assumption)
    | with_reducible refine kept_fstH ?_ (by with_reducible assumption)
    | (simp only [↓kept_mk]; with_reducible refine kept_of ?_))

theorem execHbmFillComplete_kept {a0 : State} (ha0 : (a0).kept qs u = true) :
    ∀ t, @execHbmFillComplete a0 = .next t → t.kept qs u = true := by
  unfold execHbmFillComplete
  refine live_kept ha0 ?_
  try dsimp only
  repeat' (first
    | with_reducible assumption
    | intro _
    | split
    | with_reducible apply kept_fold
    | with_reducible apply kept_fold1
    | with_reducible apply kept_foldW
    | with_reducible apply kept_foldW1
    | with_reducible apply kept_foldH
    | with_reducible apply kept_foldH1
    | with_reducible refine kept_fst ?_ (by with_reducible assumption)
    | with_reducible refine kept_fstW ?_ (by with_reducible assumption)
    | with_reducible refine kept_fstH ?_ (by with_reducible assumption)
    | (simp only [↓kept_mk]; with_reducible refine kept_of ?_)
    | (simp only [↓kept_mk]; with_reducible refine kept_setPl ?_ ?_)
    | (simp only [↓kept_mk]; with_reducible refine kept_setNand ?_ ?_)
    | (simp only [↓kept_mk]; with_reducible refine kept_setBed ?_ ?_)
    | (simp only [↓kept_mk]; with_reducible refine kept_setHbm ?_ ?_)
    | (simp only [↓kept_mk]; with_reducible refine kept_setRegs ?_ ?_)
    | (simp only [↓kept_mk]; with_reducible refine kept_setMarks ?_ ?_)
    | with_reducible exact wf_nil _
    | with_reducible exact smapWf_nil _
    | with_reducible apply wf_memWrite
    | with_reducible apply wf_memClear
    | with_reducible apply smapWf_set
    | with_reducible apply smapWf_clear
    | with_reducible apply wf_fold
    | with_reducible refine kept_pl (qs := qs) (u := u) ?_
    | with_reducible refine kept_nand (qs := qs) (u := u) ?_
    | with_reducible refine kept_bed (qs := qs) (u := u) ?_
    | with_reducible refine kept_hbm (qs := qs) (u := u) ?_
    | with_reducible refine kept_regs (qs := qs) (u := u) ?_
    | with_reducible refine kept_marks (qs := qs) (u := u) ?_)

theorem State.nextRetrain_kept {a0 : State} {a1 : Nat} (ha0 : (a0).kept qs u = true) :
    (@State.nextRetrain a0 a1).kept qs u = true := by
  unfold State.nextRetrain
  try dsimp only
  repeat' (first
    | with_reducible assumption
    | with_reducible apply State.setField_kept
    | with_reducible apply State.setBit_kept
    | with_reducible apply State.setRegN_kept
    | intro _
    | split
    | with_reducible apply kept_fold
    | with_reducible apply kept_fold1
    | with_reducible apply kept_foldW
    | with_reducible apply kept_foldW1
    | with_reducible apply kept_foldH
    | with_reducible apply kept_foldH1
    | with_reducible refine kept_fst ?_ (by with_reducible assumption)
    | with_reducible refine kept_fstW ?_ (by with_reducible assumption)
    | with_reducible refine kept_fstH ?_ (by with_reducible assumption)
    | (simp only [↓kept_mk]; with_reducible refine kept_of ?_))

theorem State.askRetrain_kept {a0 : State} {a1 : Nat} {a2 : Nat} (ha0 : (a0).kept qs u = true) :
    (@State.askRetrain a0 a1 a2).kept qs u = true := by
  unfold State.askRetrain
  try dsimp only
  repeat' (first
    | with_reducible assumption
    | with_reducible apply State.nextRetrain_kept
    | intro _
    | split
    | with_reducible apply kept_fold
    | with_reducible apply kept_fold1
    | with_reducible apply kept_foldW
    | with_reducible apply kept_foldW1
    | with_reducible apply kept_foldH
    | with_reducible apply kept_foldH1
    | with_reducible refine kept_fst ?_ (by with_reducible assumption)
    | with_reducible refine kept_fstW ?_ (by with_reducible assumption)
    | with_reducible refine kept_fstH ?_ (by with_reducible assumption)
    | (simp only [↓kept_mk]; with_reducible refine kept_of ?_))

theorem State.retrainWrite_kept {a0 : State} {a1 : Nat} {a2 : Nat} (ha0 : (a0).kept qs u = true) :
    (@State.retrainWrite a0 a1 a2).kept qs u = true := by
  unfold State.retrainWrite
  try dsimp only
  repeat' (first
    | with_reducible assumption
    | with_reducible apply State.askRetrain_kept
    | intro _
    | split
    | with_reducible apply kept_fold
    | with_reducible apply kept_fold1
    | with_reducible apply kept_foldW
    | with_reducible apply kept_foldW1
    | with_reducible apply kept_foldH
    | with_reducible apply kept_foldH1
    | with_reducible refine kept_fst ?_ (by with_reducible assumption)
    | with_reducible refine kept_fstW ?_ (by with_reducible assumption)
    | with_reducible refine kept_fstH ?_ (by with_reducible assumption)
    | (simp only [↓kept_mk]; with_reducible refine kept_of ?_))

theorem execFcRetrain_kept {a0 : Bool} {a1 : Fin 8} {a2 : Word} {a3 : State} (ha3 : (a3).kept qs u = true) :
    ∀ t, @execFcRetrain a0 a1 a2 a3 = .next t → t.kept qs u = true := by
  unfold execFcRetrain
  refine live_kept ha3 ?_
  try dsimp only
  repeat' (first
    | with_reducible assumption
    | with_reducible apply State.allow_kept
    | with_reducible apply State.retrainWrite_kept
    | intro _
    | split
    | with_reducible apply kept_fold
    | with_reducible apply kept_fold1
    | with_reducible apply kept_foldW
    | with_reducible apply kept_foldW1
    | with_reducible apply kept_foldH
    | with_reducible apply kept_foldH1
    | with_reducible refine kept_fst ?_ (by with_reducible assumption)
    | with_reducible refine kept_fstW ?_ (by with_reducible assumption)
    | with_reducible refine kept_fstH ?_ (by with_reducible assumption)
    | (simp only [↓kept_mk]; with_reducible refine kept_of ?_))

theorem execAutoRetrain_kept {a0 : Fin 8} {a1 : Byte} {a2 : State} (ha2 : (a2).kept qs u = true) :
    ∀ t, @execAutoRetrain a0 a1 a2 = .next t → t.kept qs u = true := by
  unfold execAutoRetrain
  refine live_kept ha2 ?_
  try dsimp only
  repeat' (first
    | with_reducible assumption
    | with_reducible apply State.stackTemp_kept
    | with_reducible apply State.askRetrain_kept
    | intro _
    | split
    | with_reducible apply kept_fold
    | with_reducible apply kept_fold1
    | with_reducible apply kept_foldW
    | with_reducible apply kept_foldW1
    | with_reducible apply kept_foldH
    | with_reducible apply kept_foldH1
    | with_reducible refine kept_fst ?_ (by with_reducible assumption)
    | with_reducible refine kept_fstW ?_ (by with_reducible assumption)
    | with_reducible refine kept_fstH ?_ (by with_reducible assumption)
    | (simp only [↓kept_mk]; with_reducible refine kept_of ?_))

theorem execRetrainWindow_kept {a0 : Fin 8} {a1 : State} (ha1 : (a1).kept qs u = true) :
    ∀ t, @execRetrainWindow a0 a1 = .next t → t.kept qs u = true := by
  unfold execRetrainWindow
  refine live_kept ha1 ?_
  try dsimp only
  repeat' (first
    | with_reducible assumption
    | with_reducible apply State.setField_kept
    | intro _
    | split
    | with_reducible apply kept_fold
    | with_reducible apply kept_fold1
    | with_reducible apply kept_foldW
    | with_reducible apply kept_foldW1
    | with_reducible apply kept_foldH
    | with_reducible apply kept_foldH1
    | with_reducible refine kept_fst ?_ (by with_reducible assumption)
    | with_reducible refine kept_fstW ?_ (by with_reducible assumption)
    | with_reducible refine kept_fstH ?_ (by with_reducible assumption)
    | (simp only [↓kept_mk]; with_reducible refine kept_of ?_))

theorem State.retrainFail_kept {a0 : State} {a1 : Nat} {a2 : Nat} {a3 : List (Nat × Nat)} (ha0 : (a0).kept qs u = true) :
    (@State.retrainFail a0 a1 a2 a3).kept qs u = true := by
  unfold State.retrainFail
  try dsimp only
  repeat' (first
    | with_reducible assumption
    | with_reducible apply State.degrade_kept
    | with_reducible apply State.setBit_kept
    | intro _
    | split
    | with_reducible apply kept_fold
    | with_reducible apply kept_fold1
    | with_reducible apply kept_foldW
    | with_reducible apply kept_foldW1
    | with_reducible apply kept_foldH
    | with_reducible apply kept_foldH1
    | with_reducible refine kept_fst ?_ (by with_reducible assumption)
    | with_reducible refine kept_fstW ?_ (by with_reducible assumption)
    | with_reducible refine kept_fstH ?_ (by with_reducible assumption)
    | (simp only [↓kept_mk]; with_reducible refine kept_of ?_))

theorem execRetrainComplete_kept {a0 : Fin 8} {a1 : List Sweep} {a2 : State} (ha2 : (a2).kept qs u = true) :
    ∀ t, @execRetrainComplete a0 a1 a2 = .next t → t.kept qs u = true := by
  unfold execRetrainComplete
  refine live_kept ha2 ?_
  try dsimp only
  repeat' (first
    | with_reducible assumption
    | with_reducible apply State.setField_kept
    | with_reducible apply State.setBit_kept
    | with_reducible apply State.laneRepair_kept
    | with_reducible apply State.retrainFail_kept
    | with_reducible apply State.tick_kept
    | with_reducible apply State.putTraining_kept
    | with_reducible apply State.record_kept
    | with_reducible apply State.nextRetrain_kept
    | intro _
    | split
    | with_reducible apply kept_fold
    | with_reducible apply kept_fold1
    | with_reducible apply kept_foldW
    | with_reducible apply kept_foldW1
    | with_reducible apply kept_foldH
    | with_reducible apply kept_foldH1
    | with_reducible refine kept_fst ?_ (by with_reducible assumption)
    | with_reducible refine kept_fstW ?_ (by with_reducible assumption)
    | with_reducible refine kept_fstH ?_ (by with_reducible assumption)
    | (simp only [↓kept_mk]; with_reducible refine kept_of ?_))

theorem execHbmStackHot_kept {a0 : Fin 8} {a1 : Byte} {a2 : State} (ha2 : (a2).kept qs u = true) :
    ∀ t, @execHbmStackHot a0 a1 a2 = .next t → t.kept qs u = true := by
  unfold execHbmStackHot
  refine live_kept ha2 ?_
  try dsimp only
  repeat' (first
    | with_reducible assumption
    | with_reducible apply State.stackTemp_kept
    | intro _
    | split
    | with_reducible apply kept_fold
    | with_reducible apply kept_fold1
    | with_reducible apply kept_foldW
    | with_reducible apply kept_foldW1
    | with_reducible apply kept_foldH
    | with_reducible apply kept_foldH1
    | with_reducible refine kept_fst ?_ (by with_reducible assumption)
    | with_reducible refine kept_fstW ?_ (by with_reducible assumption)
    | with_reducible refine kept_fstH ?_ (by with_reducible assumption)
    | (simp only [↓kept_mk]; with_reducible refine kept_of ?_))

theorem State.bankCopy_kept {a0 : State} {a1 : Nat} {a2 : Nat} (ha0 : (a0).kept qs u = true) :
    (@State.bankCopy a0 a1 a2).kept qs u = true := by
  unfold State.bankCopy
  try dsimp only
  repeat' (first
    | with_reducible assumption
    | with_reducible apply State.setRegN_kept
    | intro _
    | split
    | with_reducible apply kept_fold
    | with_reducible apply kept_fold1
    | with_reducible apply kept_foldW
    | with_reducible apply kept_foldW1
    | with_reducible apply kept_foldH
    | with_reducible apply kept_foldH1
    | with_reducible refine kept_fst ?_ (by with_reducible assumption)
    | with_reducible refine kept_fstW ?_ (by with_reducible assumption)
    | with_reducible refine kept_fstH ?_ (by with_reducible assumption)
    | (simp only [↓kept_mk]; with_reducible refine kept_of ?_))

theorem State.spareOut_kept {a0 : State} {a1 : Nat} (ha0 : (a0).kept qs u = true) :
    (@State.spareOut a0 a1).kept qs u = true := by
  unfold State.spareOut
  try dsimp only
  repeat' (first
    | with_reducible assumption
    | with_reducible apply State.record_kept
    | with_reducible apply State.unitRetired_kept
    | with_reducible apply State.setRegN_kept
    | intro _
    | split
    | with_reducible apply kept_fold
    | with_reducible apply kept_fold1
    | with_reducible apply kept_foldW
    | with_reducible apply kept_foldW1
    | with_reducible apply kept_foldH
    | with_reducible apply kept_foldH1
    | with_reducible refine kept_fst ?_ (by with_reducible assumption)
    | with_reducible refine kept_fstW ?_ (by with_reducible assumption)
    | with_reducible refine kept_fstH ?_ (by with_reducible assumption)
    | (simp only [↓kept_mk]; with_reducible refine kept_of ?_))

theorem State.bankRetire_kept {a0 : State} {a1 : Nat} (ha0 : (a0).kept qs u = true) :
    (@State.bankRetire a0 a1).kept qs u = true := by
  unfold State.bankRetire
  try dsimp only
  repeat' (first
    | with_reducible assumption
    | with_reducible apply State.bankCopy_kept
    | with_reducible apply State.spareOut_kept
    | intro _
    | split
    | with_reducible apply kept_fold
    | with_reducible apply kept_fold1
    | with_reducible apply kept_foldW
    | with_reducible apply kept_foldW1
    | with_reducible apply kept_foldH
    | with_reducible apply kept_foldH1
    | with_reducible refine kept_fst ?_ (by with_reducible assumption)
    | with_reducible refine kept_fstW ?_ (by with_reducible assumption)
    | with_reducible refine kept_fstH ?_ (by with_reducible assumption)
    | (simp only [↓kept_mk]; with_reducible refine kept_of ?_))

theorem State.bankCorrected_kept {a0 : State} {a1 : Nat} (ha0 : (a0).kept qs u = true) :
    (@State.bankCorrected a0 a1).kept qs u = true := by
  unfold State.bankCorrected
  try dsimp only
  repeat' (first
    | with_reducible assumption
    | with_reducible apply State.setField_kept
    | with_reducible apply State.blkErr_kept
    | with_reducible apply State.bankRetire_kept
    | intro _
    | split
    | with_reducible apply kept_fold
    | with_reducible apply kept_fold1
    | with_reducible apply kept_foldW
    | with_reducible apply kept_foldW1
    | with_reducible apply kept_foldH
    | with_reducible apply kept_foldH1
    | with_reducible refine kept_fst ?_ (by with_reducible assumption)
    | with_reducible refine kept_fstW ?_ (by with_reducible assumption)
    | with_reducible refine kept_fstH ?_ (by with_reducible assumption)
    | (simp only [↓kept_mk]; with_reducible refine kept_of ?_))

theorem State.bedEcc_kept {a0 : State} {a1 : Nat} {a2 : Nat} {a3 : Ecc} (ha0 : (a0).kept qs u = true) :
    (@State.bedEcc a0 a1 a2 a3).kept qs u = true := by
  unfold State.bedEcc
  try dsimp only
  repeat' (first
    | with_reducible assumption
    | with_reducible apply State.bankCorrected_kept
    | with_reducible apply State.poisonLine_kept
    | with_reducible apply State.uncorrectable_kept
    | intro _
    | split
    | with_reducible apply kept_fold
    | with_reducible apply kept_fold1
    | with_reducible apply kept_foldW
    | with_reducible apply kept_foldW1
    | with_reducible apply kept_foldH
    | with_reducible apply kept_foldH1
    | with_reducible refine kept_fst ?_ (by with_reducible assumption)
    | with_reducible refine kept_fstW ?_ (by with_reducible assumption)
    | with_reducible refine kept_fstH ?_ (by with_reducible assumption)
    | (simp only [↓kept_mk]; with_reducible refine kept_of ?_))

theorem State.bedServe_kept {a0 : State} {a1 : Nat} {a2 : BedReq} (ha0 : (a0).kept qs u = true) :
    (@State.bedServe a0 a1 a2).kept qs u = true := by
  unfold State.bedServe
  try dsimp only
  repeat' (first
    | with_reducible assumption
    | with_reducible apply State.writeLine_kept
    | with_reducible apply State.bedEcc_kept
    | with_reducible apply State.logPoison_kept
    | with_reducible apply State.endEarly_kept
    | intro _
    | split
    | with_reducible apply kept_fold
    | with_reducible apply kept_fold1
    | with_reducible apply kept_foldW
    | with_reducible apply kept_foldW1
    | with_reducible apply kept_foldH
    | with_reducible apply kept_foldH1
    | with_reducible refine kept_fst ?_ (by with_reducible assumption)
    | with_reducible refine kept_fstW ?_ (by with_reducible assumption)
    | with_reducible refine kept_fstH ?_ (by with_reducible assumption)
    | (simp only [↓kept_mk]; with_reducible refine kept_of ?_))

theorem State.bedConflict_kept {a0 : State} {a1 : Nat} {a2 : BedReq} (ha0 : (a0).kept qs u = true) :
    (@State.bedConflict a0 a1 a2).kept qs u = true := by
  unfold State.bedConflict
  try dsimp only
  repeat' (first
    | with_reducible assumption
    | with_reducible apply State.count_kept
    | with_reducible apply State.setRegN_kept
    | with_reducible apply State.putFlight_kept
    | with_reducible apply State.endEarly_kept
    | intro _
    | split
    | with_reducible apply kept_fold
    | with_reducible apply kept_fold1
    | with_reducible apply kept_foldW
    | with_reducible apply kept_foldW1
    | with_reducible apply kept_foldH
    | with_reducible apply kept_foldH1
    | with_reducible refine kept_fst ?_ (by with_reducible assumption)
    | with_reducible refine kept_fstW ?_ (by with_reducible assumption)
    | with_reducible refine kept_fstH ?_ (by with_reducible assumption)
    | (simp only [↓kept_mk]; with_reducible refine kept_of ?_))

theorem execBedRequest_kept {a0 : Fin 1024} {a1 : List BedReq} {a2 : State} (ha2 : (a2).kept qs u = true) :
    ∀ t, @execBedRequest a0 a1 a2 = .next t → t.kept qs u = true := by
  unfold execBedRequest
  refine live_kept ha2 ?_
  try dsimp only
  repeat' (first
    | with_reducible assumption
    | with_reducible apply State.bedServe_kept
    | with_reducible apply State.bedConflict_kept
    | intro _
    | split
    | with_reducible apply kept_fold
    | with_reducible apply kept_fold1
    | with_reducible apply kept_foldW
    | with_reducible apply kept_foldW1
    | with_reducible apply kept_foldH
    | with_reducible apply kept_foldH1
    | with_reducible refine kept_fst ?_ (by with_reducible assumption)
    | with_reducible refine kept_fstW ?_ (by with_reducible assumption)
    | with_reducible refine kept_fstH ?_ (by with_reducible assumption)
    | (simp only [↓kept_mk]; with_reducible refine kept_of ?_))

theorem State.spareEcc_kept {a0 : State} {a1 : Nat} {a2 : Nat} {a3 : Ecc} (ha0 : (a0).kept qs u = true) :
    (@State.spareEcc a0 a1 a2 a3).kept qs u = true := by
  unfold State.spareEcc
  try dsimp only
  repeat' (first
    | with_reducible assumption
    | with_reducible apply State.bankCorrected_kept
    | with_reducible apply State.uncorrectable_kept
    | intro _
    | split
    | with_reducible apply kept_fold
    | with_reducible apply kept_fold1
    | with_reducible apply kept_foldW
    | with_reducible apply kept_foldW1
    | with_reducible apply kept_foldH
    | with_reducible apply kept_foldH1
    | with_reducible refine kept_fst ?_ (by with_reducible assumption)
    | with_reducible refine kept_fstW ?_ (by with_reducible assumption)
    | with_reducible refine kept_fstH ?_ (by with_reducible assumption)
    | (simp only [↓kept_mk]; with_reducible refine kept_of ?_))

theorem execBedPatrolScrub_kept {a0 : List (Fin 1088 × Fin 3072 × Ecc)} {a1 : State} (ha1 : (a1).kept qs u = true) :
    ∀ t, @execBedPatrolScrub a0 a1 = .next t → t.kept qs u = true := by
  unfold execBedPatrolScrub
  refine live_kept ha1 ?_
  try dsimp only
  repeat' (first
    | with_reducible assumption
    | with_reducible apply State.bedEcc_kept
    | with_reducible apply State.spareEcc_kept
    | intro _
    | split
    | with_reducible apply kept_fold
    | with_reducible apply kept_fold1
    | with_reducible apply kept_foldW
    | with_reducible apply kept_foldW1
    | with_reducible apply kept_foldH
    | with_reducible apply kept_foldH1
    | with_reducible refine kept_fst ?_ (by with_reducible assumption)
    | with_reducible refine kept_fstW ?_ (by with_reducible assumption)
    | with_reducible refine kept_fstH ?_ (by with_reducible assumption)
    | (simp only [↓kept_mk]; with_reducible refine kept_of ?_))

theorem State.spareLines_kept {a0 : State} {a1 : Nat} {a2 : Nat} (ha0 : (a0).kept qs u = true) :
    (@State.spareLines a0 a1 a2).kept qs u = true := by
  unfold State.spareLines
  try dsimp only
  repeat' (first
    | with_reducible assumption
    | with_reducible apply State.poisonLine_kept
    | with_reducible apply State.tick_kept
    | intro _
    | split
    | with_reducible apply kept_fold
    | with_reducible apply kept_fold1
    | with_reducible apply kept_foldW
    | with_reducible apply kept_foldW1
    | with_reducible apply kept_foldH
    | with_reducible apply kept_foldH1
    | with_reducible refine kept_fst ?_ (by with_reducible assumption)
    | with_reducible refine kept_fstW ?_ (by with_reducible assumption)
    | with_reducible refine kept_fstH ?_ (by with_reducible assumption)
    | (simp only [↓kept_mk]; with_reducible refine kept_of ?_))

theorem execSpareBankCopyDone_kept {a0 : Fin 64} {a1 : State} (ha1 : (a1).kept qs u = true) :
    ∀ t, @execSpareBankCopyDone a0 a1 = .next t → t.kept qs u = true := by
  unfold execSpareBankCopyDone
  refine live_kept ha1 ?_
  try dsimp only
  repeat' (first
    | with_reducible assumption
    | with_reducible apply State.setRegN_kept
    | with_reducible apply State.spareLines_kept
    | with_reducible apply State.record_kept
    | with_reducible apply State.unitRetired_kept
    | intro _
    | split
    | with_reducible apply kept_fold
    | with_reducible apply kept_fold1
    | with_reducible apply kept_foldW
    | with_reducible apply kept_foldW1
    | with_reducible apply kept_foldH
    | with_reducible apply kept_foldH1
    | with_reducible refine kept_fst ?_ (by with_reducible assumption)
    | with_reducible refine kept_fstW ?_ (by with_reducible assumption)
    | with_reducible refine kept_fstH ?_ (by with_reducible assumption)
    | (simp only [↓kept_mk]; with_reducible refine kept_of ?_))

theorem State.troughEnd_kept {a0 : State} {a1 : Flight} {a2 : TrUse} {a3 : Nat} (ha0 : (a0).kept qs u = true) :
    (@State.troughEnd a0 a1 a2 a3).kept qs u = true := by
  unfold State.troughEnd
  try dsimp only
  repeat' (first
    | with_reducible assumption
    | with_reducible apply State.waited_kept
    | with_reducible apply State.putFlight_kept
    | intro _
    | split
    | with_reducible apply kept_fold
    | with_reducible apply kept_fold1
    | with_reducible apply kept_foldW
    | with_reducible apply kept_foldW1
    | with_reducible apply kept_foldH
    | with_reducible apply kept_foldH1
    | with_reducible refine kept_fst ?_ (by with_reducible assumption)
    | with_reducible refine kept_fstW ?_ (by with_reducible assumption)
    | with_reducible refine kept_fstH ?_ (by with_reducible assumption)
    | (simp only [↓kept_mk]; with_reducible refine kept_of ?_))

theorem State.troughAbort_kept {a0 : State} {a1 : Nat} (ha0 : (a0).kept qs u = true) :
    (@State.troughAbort a0 a1).kept qs u = true := by
  unfold State.troughAbort
  try dsimp only
  repeat' (first
    | with_reducible assumption
    | with_reducible apply State.setBit_kept
    | with_reducible apply State.onFlight_kept
    | with_reducible apply State.troughEnd_kept
    | intro _
    | split
    | with_reducible apply kept_fold
    | with_reducible apply kept_fold1
    | with_reducible apply kept_foldW
    | with_reducible apply kept_foldW1
    | with_reducible apply kept_foldH
    | with_reducible apply kept_foldH1
    | with_reducible refine kept_fst ?_ (by with_reducible assumption)
    | with_reducible refine kept_fstW ?_ (by with_reducible assumption)
    | with_reducible refine kept_fstH ?_ (by with_reducible assumption)
    | (simp only [↓kept_mk]; with_reducible refine kept_of ?_))

theorem State.troughOn_kept {a0 : State} {a1 : Nat} {a2 : Nat} (ha0 : (a0).kept qs u = true) :
    (@State.troughOn a0 a1 a2).kept qs u = true := by
  unfold State.troughOn
  try dsimp only
  repeat' (first
    | with_reducible assumption
    | with_reducible apply State.setMark_kept
    | with_reducible apply State.setRegN_kept
    | intro _
    | split
    | with_reducible apply kept_fold
    | with_reducible apply kept_fold1
    | with_reducible apply kept_foldW
    | with_reducible apply kept_foldW1
    | with_reducible apply kept_foldH
    | with_reducible apply kept_foldH1
    | with_reducible refine kept_fst ?_ (by with_reducible assumption)
    | with_reducible refine kept_fstW ?_ (by with_reducible assumption)
    | with_reducible refine kept_fstH ?_ (by with_reducible assumption)
    | (simp only [↓kept_mk]; with_reducible refine kept_of ?_))

theorem State.memGet_kept {a0 : State} {a1 : Nat} {a2 : Nat} {a3 : Nat} {a4 : Nat} (ha0 : (a0).kept qs u = true) :
    (@State.memGet a0 a1 a2 a3 a4).1.kept qs u = true := by
  unfold State.memGet
  try dsimp only
  repeat' (first
    | with_reducible assumption
    | with_reducible apply State.readFor_kept
    | intro _
    | split
    | with_reducible apply kept_fold
    | with_reducible apply kept_fold1
    | with_reducible apply kept_foldW
    | with_reducible apply kept_foldW1
    | with_reducible apply kept_foldH
    | with_reducible apply kept_foldH1
    | with_reducible refine kept_fst ?_ (by with_reducible assumption)
    | with_reducible refine kept_fstW ?_ (by with_reducible assumption)
    | with_reducible refine kept_fstH ?_ (by with_reducible assumption)
    | (simp only [↓kept_mk]; with_reducible refine kept_of ?_))

theorem State.memPut_kept {a0 : State} {a1 : Nat} {a2 : Nat} {a3 : Nat} {a4 : Nat} {a5 : Bytes} (ha0 : (a0).kept qs u = true) :
    (@State.memPut a0 a1 a2 a3 a4 a5).1.kept qs u = true := by
  unfold State.memPut
  try dsimp only
  repeat' (first
    | with_reducible assumption
    | with_reducible apply State.writeFor_kept
    | with_reducible apply State.setMark_kept
    | with_reducible apply State.markServed_kept
    | intro _
    | split
    | with_reducible apply kept_fold
    | with_reducible apply kept_fold1
    | with_reducible apply kept_foldW
    | with_reducible apply kept_foldW1
    | with_reducible apply kept_foldH
    | with_reducible apply kept_foldH1
    | with_reducible refine kept_fst ?_ (by with_reducible assumption)
    | with_reducible refine kept_fstW ?_ (by with_reducible assumption)
    | with_reducible refine kept_fstH ?_ (by with_reducible assumption)
    | (simp only [↓kept_mk]; with_reducible refine kept_of ?_))

theorem State.memAtomic_kept {a0 : State} {a1 : Nat} {a2 : Nat} {a3 : Nat} {a4 : Nat} {a5 : Nat} {a6 : DWord} {a7 : DWord} (ha0 : (a0).kept qs u = true) :
    (@State.memAtomic a0 a1 a2 a3 a4 a5 a6 a7).1.kept qs u = true := by
  unfold State.memAtomic
  try dsimp only
  repeat' (first
    | with_reducible assumption
    | with_reducible apply State.readFor_kept
    | with_reducible apply State.writeFor_kept
    | with_reducible apply State.setMark_kept
    | with_reducible apply State.markServed_kept
    | intro _
    | split
    | with_reducible apply kept_fold
    | with_reducible apply kept_fold1
    | with_reducible apply kept_foldW
    | with_reducible apply kept_foldW1
    | with_reducible apply kept_foldH
    | with_reducible apply kept_foldH1
    | with_reducible refine kept_fst ?_ (by with_reducible assumption)
    | with_reducible refine kept_fstW ?_ (by with_reducible assumption)
    | with_reducible refine kept_fstH ?_ (by with_reducible assumption)
    | (simp only [↓kept_mk]; with_reducible refine kept_of ?_))

theorem State.memSignal_kept {a0 : State} {a1 : Nat} {a2 : Nat} {a3 : Nat} {a4 : Nat} {a5 : Bool} (ha0 : (a0).kept qs u = true) :
    (@State.memSignal a0 a1 a2 a3 a4 a5).1.kept qs u = true := by
  unfold State.memSignal
  try dsimp only
  repeat' (first
    | with_reducible assumption
    | with_reducible apply State.signalMark_kept
    | intro _
    | split
    | with_reducible apply kept_fold
    | with_reducible apply kept_fold1
    | with_reducible apply kept_foldW
    | with_reducible apply kept_foldW1
    | with_reducible apply kept_foldH
    | with_reducible apply kept_foldH1
    | with_reducible refine kept_fst ?_ (by with_reducible assumption)
    | with_reducible refine kept_fstW ?_ (by with_reducible assumption)
    | with_reducible refine kept_fstH ?_ (by with_reducible assumption)
    | (simp only [↓kept_mk]; with_reducible refine kept_of ?_))

theorem State.send_kept {a0 : State} {a1 : Nat} {a2 : Bytes} (ha0 : (a0).kept qs u = true) :
    (@State.send a0 a1 a2).kept qs u = true := by
  unfold State.send
  try dsimp only
  repeat' (first
    | with_reducible assumption
    | intro _
    | split
    | with_reducible apply kept_fold
    | with_reducible apply kept_fold1
    | with_reducible apply kept_foldW
    | with_reducible apply kept_foldW1
    | with_reducible apply kept_foldH
    | with_reducible apply kept_foldH1
    | with_reducible refine kept_fst ?_ (by with_reducible assumption)
    | with_reducible refine kept_fstW ?_ (by with_reducible assumption)
    | with_reducible refine kept_fstH ?_ (by with_reducible assumption)
    | (simp only [↓kept_mk]; with_reducible refine kept_of ?_))

theorem State.sendDziura_kept {a0 : State} {a1 : Nat} {a2 : Bytes} (ha0 : (a0).kept qs u = true) :
    (@State.sendDziura a0 a1 a2).kept qs u = true := by
  unfold State.sendDziura
  try dsimp only
  repeat' (first
    | with_reducible assumption
    | with_reducible apply State.count_kept
    | with_reducible apply State.send_kept
    | intro _
    | split
    | with_reducible apply kept_fold
    | with_reducible apply kept_fold1
    | with_reducible apply kept_foldW
    | with_reducible apply kept_foldW1
    | with_reducible apply kept_foldH
    | with_reducible apply kept_foldH1
    | with_reducible refine kept_fst ?_ (by with_reducible assumption)
    | with_reducible refine kept_fstW ?_ (by with_reducible assumption)
    | with_reducible refine kept_fstH ?_ (by with_reducible assumption)
    | (simp only [↓kept_mk]; with_reducible refine kept_of ?_))

theorem State.connOf_kept {a0 : State} {a1 : Nat} {a2 : Nat} {a3 : Nat} (ha0 : (a0).kept qs u = true) :
    (@State.connOf a0 a1 a2 a3).1.kept qs u = true := by
  unfold State.connOf
  try dsimp only
  repeat' (first
    | with_reducible assumption
    | with_reducible apply State.tick_kept
    | intro _
    | split
    | with_reducible apply kept_fold
    | with_reducible apply kept_fold1
    | with_reducible apply kept_foldW
    | with_reducible apply kept_foldW1
    | with_reducible apply kept_foldH
    | with_reducible apply kept_foldH1
    | with_reducible refine kept_fst ?_ (by with_reducible assumption)
    | with_reducible refine kept_fstW ?_ (by with_reducible assumption)
    | with_reducible refine kept_fstH ?_ (by with_reducible assumption)
    | (simp only [↓kept_mk]; with_reducible refine kept_of ?_))

theorem State.putConn_kept {a0 : State} {a1 : Conn} (ha0 : (a0).kept qs u = true) :
    (@State.putConn a0 a1).kept qs u = true := by
  unfold State.putConn
  try dsimp only
  repeat' (first
    | with_reducible assumption
    | intro _
    | split
    | with_reducible apply kept_fold
    | with_reducible apply kept_fold1
    | with_reducible apply kept_foldW
    | with_reducible apply kept_foldW1
    | with_reducible apply kept_foldH
    | with_reducible apply kept_foldH1
    | with_reducible refine kept_fst ?_ (by with_reducible assumption)
    | with_reducible refine kept_fstW ?_ (by with_reducible assumption)
    | with_reducible refine kept_fstH ?_ (by with_reducible assumption)
    | (simp only [↓kept_mk]; with_reducible refine kept_of ?_))

theorem State.putRConn_kept {a0 : State} {a1 : RConn} (ha0 : (a0).kept qs u = true) :
    (@State.putRConn a0 a1).kept qs u = true := by
  unfold State.putRConn
  try dsimp only
  repeat' (first
    | with_reducible assumption
    | intro _
    | split
    | with_reducible apply kept_fold
    | with_reducible apply kept_fold1
    | with_reducible apply kept_foldW
    | with_reducible apply kept_foldW1
    | with_reducible apply kept_foldH
    | with_reducible apply kept_foldH1
    | with_reducible refine kept_fst ?_ (by with_reducible assumption)
    | with_reducible refine kept_fstW ?_ (by with_reducible assumption)
    | with_reducible refine kept_fstH ?_ (by with_reducible assumption)
    | (simp only [↓kept_mk]; with_reducible refine kept_of ?_))

theorem State.transmit_kept {a0 : State} {a1 : Conn} {a2 : Frame} (ha0 : (a0).kept qs u = true) :
    (@State.transmit a0 a1 a2).1.kept qs u = true := by
  unfold State.transmit
  try dsimp only
  repeat' (first
    | with_reducible assumption
    | with_reducible apply State.sendDziura_kept
    | intro _
    | split
    | with_reducible apply kept_fold
    | with_reducible apply kept_fold1
    | with_reducible apply kept_foldW
    | with_reducible apply kept_foldW1
    | with_reducible apply kept_foldH
    | with_reducible apply kept_foldH1
    | with_reducible refine kept_fst ?_ (by with_reducible assumption)
    | with_reducible refine kept_fstW ?_ (by with_reducible assumption)
    | with_reducible refine kept_fstH ?_ (by with_reducible assumption)
    | (simp only [↓kept_mk]; with_reducible refine kept_of ?_))

theorem State.pumpFuel_kept {a0 : Nat} {a1 : State} {a2 : Conn} (ha1 : (a1).kept qs u = true) :
    (@State.pumpFuel a0 a1 a2).kept qs u = true := by
  induction a0 generalizing a1 a2 with
  | zero => exact State.putConn_kept ha1
  | succ n ih =>
    simp only [State.pumpFuel]
    repeat' (first
        | with_reducible apply ih
        | with_reducible apply State.putConn_kept
        | with_reducible apply State.transmit_kept
        | with_reducible assumption
        | intro _
        | split
        | with_reducible apply kept_fold
        | with_reducible apply kept_fold1
        | with_reducible apply kept_foldW
        | with_reducible apply kept_foldW1
        | with_reducible apply kept_foldH
        | with_reducible apply kept_foldH1
        | with_reducible refine kept_fst ?_ (by with_reducible assumption)
        | with_reducible refine kept_fstW ?_ (by with_reducible assumption)
        | with_reducible refine kept_fstH ?_ (by with_reducible assumption)
        | (simp only [↓kept_mk]; with_reducible refine kept_of ?_)
        | (simp only [↓kept_mk]; with_reducible refine kept_setPl ?_ ?_)
        | (simp only [↓kept_mk]; with_reducible refine kept_setNand ?_ ?_)
        | (simp only [↓kept_mk]; with_reducible refine kept_setBed ?_ ?_)
        | (simp only [↓kept_mk]; with_reducible refine kept_setHbm ?_ ?_)
        | (simp only [↓kept_mk]; with_reducible refine kept_setRegs ?_ ?_)
        | (simp only [↓kept_mk]; with_reducible refine kept_setMarks ?_ ?_)
        | with_reducible exact wf_nil _
        | with_reducible exact smapWf_nil _
        | with_reducible apply wf_memWrite
        | with_reducible apply wf_memClear
        | with_reducible apply smapWf_set
        | with_reducible apply smapWf_clear
        | with_reducible apply wf_fold
        | with_reducible refine kept_pl (qs := qs) (u := u) ?_
        | with_reducible refine kept_nand (qs := qs) (u := u) ?_
        | with_reducible refine kept_bed (qs := qs) (u := u) ?_
        | with_reducible refine kept_hbm (qs := qs) (u := u) ?_
        | with_reducible refine kept_regs (qs := qs) (u := u) ?_
        | with_reducible refine kept_marks (qs := qs) (u := u) ?_)

theorem State.pump_kept {a0 : State} {a1 : Conn} (ha0 : (a0).kept qs u = true) :
    (@State.pump a0 a1).kept qs u = true := by
  unfold State.pump
  try dsimp only
  repeat' (first
    | with_reducible assumption
    | with_reducible apply State.pumpFuel_kept
    | intro _
    | split
    | with_reducible apply kept_fold
    | with_reducible apply kept_fold1
    | with_reducible apply kept_foldW
    | with_reducible apply kept_foldW1
    | with_reducible apply kept_foldH
    | with_reducible apply kept_foldH1
    | with_reducible refine kept_fst ?_ (by with_reducible assumption)
    | with_reducible refine kept_fstW ?_ (by with_reducible assumption)
    | with_reducible refine kept_fstH ?_ (by with_reducible assumption)
    | (simp only [↓kept_mk]; with_reducible refine kept_of ?_))

theorem State.enqueue_kept {a0 : State} {a1 : Nat} {a2 : Nat} {a3 : Nat} {a4 : List Frame} (ha0 : (a0).kept qs u = true) :
    (@State.enqueue a0 a1 a2 a3 a4).kept qs u = true := by
  unfold State.enqueue
  try dsimp only
  repeat' (first
    | with_reducible assumption
    | with_reducible apply State.connOf_kept
    | with_reducible apply State.pump_kept
    | intro _
    | split
    | with_reducible apply kept_fold
    | with_reducible apply kept_fold1
    | with_reducible apply kept_foldW
    | with_reducible apply kept_foldW1
    | with_reducible apply kept_foldH
    | with_reducible apply kept_foldH1
    | with_reducible refine kept_fst ?_ (by with_reducible assumption)
    | with_reducible refine kept_fstW ?_ (by with_reducible assumption)
    | with_reducible refine kept_fstH ?_ (by with_reducible assumption)
    | (simp only [↓kept_mk]; with_reducible refine kept_of ?_))

theorem State.sendControl_kept {a0 : State} {a1 : Frame} {a2 : Word} (ha0 : (a0).kept qs u = true) :
    (@State.sendControl a0 a1 a2).kept qs u = true := by
  unfold State.sendControl
  try dsimp only
  repeat' (first
    | with_reducible assumption
    | with_reducible apply State.sendDziura_kept
    | intro _
    | split
    | with_reducible apply kept_fold
    | with_reducible apply kept_fold1
    | with_reducible apply kept_foldW
    | with_reducible apply kept_foldW1
    | with_reducible apply kept_foldH
    | with_reducible apply kept_foldH1
    | with_reducible refine kept_fst ?_ (by with_reducible assumption)
    | with_reducible refine kept_fstW ?_ (by with_reducible assumption)
    | with_reducible refine kept_fstH ?_ (by with_reducible assumption)
    | (simp only [↓kept_mk]; with_reducible refine kept_of ?_))

theorem State.sendResync_kept {a0 : State} {a1 : Conn} (ha0 : (a0).kept qs u = true) :
    (@State.sendResync a0 a1).kept qs u = true := by
  unfold State.sendResync
  try dsimp only
  repeat' (first
    | with_reducible assumption
    | with_reducible apply State.putConn_kept
    | with_reducible apply State.sendControl_kept
    | intro _
    | split
    | with_reducible apply kept_fold
    | with_reducible apply kept_fold1
    | with_reducible apply kept_foldW
    | with_reducible apply kept_foldW1
    | with_reducible apply kept_foldH
    | with_reducible apply kept_foldH1
    | with_reducible refine kept_fst ?_ (by with_reducible assumption)
    | with_reducible refine kept_fstW ?_ (by with_reducible assumption)
    | with_reducible refine kept_fstH ?_ (by with_reducible assumption)
    | (simp only [↓kept_mk]; with_reducible refine kept_of ?_))

theorem State.answer_kept {a0 : State} {a1 : RConn} {a2 : Nat} {a3 : Nat} (ha0 : (a0).kept qs u = true) :
    (@State.answer a0 a1 a2 a3).kept qs u = true := by
  unfold State.answer
  try dsimp only
  repeat' (first
    | with_reducible assumption
    | with_reducible apply State.putRConn_kept
    | with_reducible apply State.sendControl_kept
    | intro _
    | split
    | with_reducible apply kept_fold
    | with_reducible apply kept_fold1
    | with_reducible apply kept_foldW
    | with_reducible apply kept_foldW1
    | with_reducible apply kept_foldH
    | with_reducible apply kept_foldH1
    | with_reducible refine kept_fst ?_ (by with_reducible assumption)
    | with_reducible refine kept_fstW ?_ (by with_reducible assumption)
    | with_reducible refine kept_fstH ?_ (by with_reducible assumption)
    | (simp only [↓kept_mk]; with_reducible refine kept_of ?_))

theorem State.endOp_kept {a0 : State} {a1 : Nat} {a2 : Nat} {a3 : Nat} (ha0 : (a0).kept qs u = true) :
    (@State.endOp a0 a1 a2 a3).kept qs u = true := by
  unfold State.endOp
  try dsimp only
  repeat' (first
    | with_reducible assumption
    | with_reducible apply State.count_kept
    | with_reducible apply State.memPut_kept
    | with_reducible apply State.tick_kept
    | with_reducible apply State.onFlight_kept
    | with_reducible apply State.putFlight_kept
    | intro _
    | split
    | with_reducible apply kept_fold
    | with_reducible apply kept_fold1
    | with_reducible apply kept_foldW
    | with_reducible apply kept_foldW1
    | with_reducible apply kept_foldH
    | with_reducible apply kept_foldH1
    | with_reducible refine kept_fst ?_ (by with_reducible assumption)
    | with_reducible refine kept_fstW ?_ (by with_reducible assumption)
    | with_reducible refine kept_fstH ?_ (by with_reducible assumption)
    | (simp only [↓kept_mk]; with_reducible refine kept_of ?_))

theorem State.failConn_kept {a0 : State} {a1 : Conn} (ha0 : (a0).kept qs u = true) :
    (@State.failConn a0 a1).kept qs u = true := by
  unfold State.failConn
  try dsimp only
  repeat' (first
    | with_reducible assumption
    | with_reducible apply State.endOp_kept
    | with_reducible apply State.event_kept
    | with_reducible apply State.pfEvent_kept
    | with_reducible apply State.sendResync_kept
    | intro _
    | split
    | with_reducible apply kept_fold
    | with_reducible apply kept_fold1
    | with_reducible apply kept_foldW
    | with_reducible apply kept_foldW1
    | with_reducible apply kept_foldH
    | with_reducible apply kept_foldH1
    | with_reducible refine kept_fst ?_ (by with_reducible assumption)
    | with_reducible refine kept_fstW ?_ (by with_reducible assumption)
    | with_reducible refine kept_fstH ?_ (by with_reducible assumption)
    | (simp only [↓kept_mk]; with_reducible refine kept_of ?_))

theorem State.retransmit_kept {a0 : State} {a1 : Conn} {a2 : Bool} (ha0 : (a0).kept qs u = true) :
    (@State.retransmit a0 a1 a2).kept qs u = true := by
  unfold State.retransmit
  try dsimp only
  repeat' (first
    | with_reducible assumption
    | with_reducible apply State.failConn_kept
    | with_reducible apply State.putConn_kept
    | with_reducible apply State.count_kept
    | with_reducible apply State.sendDziura_kept
    | intro _
    | split
    | with_reducible apply kept_fold
    | with_reducible apply kept_fold1
    | with_reducible apply kept_foldW
    | with_reducible apply kept_foldW1
    | with_reducible apply kept_foldH
    | with_reducible apply kept_foldH1
    | with_reducible refine kept_fst ?_ (by with_reducible assumption)
    | with_reducible refine kept_fstW ?_ (by with_reducible assumption)
    | with_reducible refine kept_fstH ?_ (by with_reducible assumption)
    | (simp only [↓kept_mk]; with_reducible refine kept_of ?_))

theorem State.acked_kept {a0 : State} {a1 : Nat} {a2 : Nat} {a3 : Nat} {a4 : Nat} (ha0 : (a0).kept qs u = true) :
    (@State.acked a0 a1 a2 a3 a4).kept qs u = true := by
  unfold State.acked
  try dsimp only
  repeat' (first
    | with_reducible assumption
    | with_reducible apply State.pump_kept
    | intro _
    | split
    | with_reducible apply kept_fold
    | with_reducible apply kept_fold1
    | with_reducible apply kept_foldW
    | with_reducible apply kept_foldW1
    | with_reducible apply kept_foldH
    | with_reducible apply kept_foldH1
    | with_reducible refine kept_fst ?_ (by with_reducible assumption)
    | with_reducible refine kept_fstW ?_ (by with_reducible assumption)
    | with_reducible refine kept_fstH ?_ (by with_reducible assumption)
    | (simp only [↓kept_mk]; with_reducible refine kept_of ?_))

theorem State.wake_kept {a0 : State} {a1 : Conn} (ha0 : (a0).kept qs u = true) :
    (@State.wake a0 a1).kept qs u = true := by
  unfold State.wake
  try dsimp only
  repeat' (first
    | with_reducible assumption
    | with_reducible apply State.sendResync_kept
    | with_reducible apply State.putConn_kept
    | with_reducible apply State.retransmit_kept
    | with_reducible apply State.pump_kept
    | intro _
    | split
    | with_reducible apply kept_fold
    | with_reducible apply kept_fold1
    | with_reducible apply kept_foldW
    | with_reducible apply kept_foldW1
    | with_reducible apply kept_foldH
    | with_reducible apply kept_foldH1
    | with_reducible refine kept_fst ?_ (by with_reducible assumption)
    | with_reducible refine kept_fstW ?_ (by with_reducible assumption)
    | with_reducible refine kept_fstH ?_ (by with_reducible assumption)
    | (simp only [↓kept_mk]; with_reducible refine kept_of ?_))

theorem State.pumpAll_kept {a0 : State} {a1 : Nat} {a2 : Nat} (ha0 : (a0).kept qs u = true) :
    (@State.pumpAll a0 a1 a2).kept qs u = true := by
  unfold State.pumpAll
  try dsimp only
  repeat' (first
    | with_reducible assumption
    | with_reducible apply State.answer_kept
    | with_reducible apply State.wake_kept
    | intro _
    | split
    | with_reducible apply kept_fold
    | with_reducible apply kept_fold1
    | with_reducible apply kept_foldW
    | with_reducible apply kept_foldW1
    | with_reducible apply kept_foldH
    | with_reducible apply kept_foldH1
    | with_reducible refine kept_fst ?_ (by with_reducible assumption)
    | with_reducible refine kept_fstW ?_ (by with_reducible assumption)
    | with_reducible refine kept_fstH ?_ (by with_reducible assumption)
    | (simp only [↓kept_mk]; with_reducible refine kept_of ?_))

theorem State.remoteOp_kept {a0 : State} {a1 : Option Nat} {a2 : Nat} {a3 : Nat} {a4 : Nat} {a5 : Nat} {a6 : Nat} {a7 : Nat} {a8 : Nat} {a9 : Nat → List ReqFrame} (ha0 : (a0).kept qs u = true) :
    (@State.remoteOp a0 a1 a2 a3 a4 a5 a6 a7 a8 a9).1.kept qs u = true := by
  unfold State.remoteOp
  try dsimp only
  repeat' (first
    | with_reducible assumption
    | with_reducible apply State.enqueue_kept
    | intro _
    | split
    | with_reducible apply kept_fold
    | with_reducible apply kept_fold1
    | with_reducible apply kept_foldW
    | with_reducible apply kept_foldW1
    | with_reducible apply kept_foldH
    | with_reducible apply kept_foldH1
    | with_reducible refine kept_fst ?_ (by with_reducible assumption)
    | with_reducible refine kept_fstW ?_ (by with_reducible assumption)
    | with_reducible refine kept_fstH ?_ (by with_reducible assumption)
    | (simp only [↓kept_mk]; with_reducible refine kept_of ?_))

theorem State.signalSlot_kept {a0 : State} {a1 : Nat} {a2 : Nat} {a3 : Nat} {a4 : Nat} (ha0 : (a0).kept qs u = true) :
    (@State.signalSlot a0 a1 a2 a3 a4).kept qs u = true := by
  unfold State.signalSlot
  try dsimp only
  repeat' (first
    | with_reducible assumption
    | with_reducible apply State.remoteOp_kept
    | with_reducible apply State.signalMark_kept
    | intro _
    | split
    | with_reducible apply kept_fold
    | with_reducible apply kept_fold1
    | with_reducible apply kept_foldW
    | with_reducible apply kept_foldW1
    | with_reducible apply kept_foldH
    | with_reducible apply kept_foldH1
    | with_reducible refine kept_fst ?_ (by with_reducible assumption)
    | with_reducible refine kept_fstW ?_ (by with_reducible assumption)
    | with_reducible refine kept_fstH ?_ (by with_reducible assumption)
    | (simp only [↓kept_mk]; with_reducible refine kept_of ?_))

theorem State.showPausing_kept {a0 : State} {a1 : Nat} (ha0 : (a0).kept qs u = true) :
    (@State.showPausing a0 a1).kept qs u = true := by
  unfold State.showPausing
  try dsimp only
  repeat' (first
    | with_reducible assumption
    | with_reducible apply State.setField_kept
    | intro _
    | split
    | with_reducible apply kept_fold
    | with_reducible apply kept_fold1
    | with_reducible apply kept_foldW
    | with_reducible apply kept_foldW1
    | with_reducible apply kept_foldH
    | with_reducible apply kept_foldH1
    | with_reducible refine kept_fst ?_ (by with_reducible assumption)
    | with_reducible refine kept_fstW ?_ (by with_reducible assumption)
    | with_reducible refine kept_fstH ?_ (by with_reducible assumption)
    | (simp only [↓kept_mk]; with_reducible refine kept_of ?_))

theorem State.pauseUpdate_kept {a0 : State} {a1 : Nat} (ha0 : (a0).kept qs u = true) :
    (@State.pauseUpdate a0 a1).kept qs u = true := by
  unfold State.pauseUpdate
  try dsimp only
  repeat' (first
    | with_reducible assumption
    | with_reducible apply State.send_kept
    | with_reducible apply State.showPausing_kept
    | intro _
    | split
    | with_reducible apply kept_fold
    | with_reducible apply kept_fold1
    | with_reducible apply kept_foldW
    | with_reducible apply kept_foldW1
    | with_reducible apply kept_foldH
    | with_reducible apply kept_foldH1
    | with_reducible refine kept_fst ?_ (by with_reducible assumption)
    | with_reducible refine kept_fstW ?_ (by with_reducible assumption)
    | with_reducible refine kept_fstH ?_ (by with_reducible assumption)
    | (simp only [↓kept_mk]; with_reducible refine kept_of ?_))

theorem State.discard_kept {a0 : State} {a1 : Nat} {a2 : Heard} (ha0 : (a0).kept qs u = true) :
    (@State.discard a0 a1 a2).kept qs u = true := by
  unfold State.discard
  try dsimp only
  repeat' (first
    | with_reducible assumption
    | with_reducible apply State.count_kept
    | intro _
    | split
    | with_reducible apply kept_fold
    | with_reducible apply kept_fold1
    | with_reducible apply kept_foldW
    | with_reducible apply kept_foldW1
    | with_reducible apply kept_foldH
    | with_reducible apply kept_foldH1
    | with_reducible refine kept_fst ?_ (by with_reducible assumption)
    | with_reducible refine kept_fstW ?_ (by with_reducible assumption)
    | with_reducible refine kept_fstH ?_ (by with_reducible assumption)
    | (simp only [↓kept_mk]; with_reducible refine kept_of ?_))

theorem State.respond_kept {a0 : State} {a1 : Frame} {a2 : Nat} {a3 : Nat} {a4 : Bytes} (ha0 : (a0).kept qs u = true) :
    (@State.respond a0 a1 a2 a3 a4).kept qs u = true := by
  unfold State.respond
  try dsimp only
  repeat' (first
    | with_reducible assumption
    | with_reducible apply State.enqueue_kept
    | intro _
    | split
    | with_reducible apply kept_fold
    | with_reducible apply kept_fold1
    | with_reducible apply kept_foldW
    | with_reducible apply kept_foldW1
    | with_reducible apply kept_foldH
    | with_reducible apply kept_foldH1
    | with_reducible refine kept_fst ?_ (by with_reducible assumption)
    | with_reducible refine kept_fstW ?_ (by with_reducible assumption)
    | with_reducible refine kept_fstH ?_ (by with_reducible assumption)
    | (simp only [↓kept_mk]; with_reducible refine kept_of ?_))

theorem State.serve_kept {a0 : State} {a1 : Nat} {a2 : Frame} (ha0 : (a0).kept qs u = true) :
    (@State.serve a0 a1 a2).1.kept qs u = true := by
  unfold State.serve
  try dsimp only
  repeat' (first
    | with_reducible assumption
    | with_reducible apply State.memPut_kept
    | with_reducible apply State.memGet_kept
    | with_reducible apply State.memAtomic_kept
    | with_reducible apply State.tick_kept
    | with_reducible apply State.memSignal_kept
    | intro _
    | split
    | with_reducible apply kept_fold
    | with_reducible apply kept_fold1
    | with_reducible apply kept_foldW
    | with_reducible apply kept_foldW1
    | with_reducible apply kept_foldH
    | with_reducible apply kept_foldH1
    | with_reducible refine kept_fst ?_ (by with_reducible assumption)
    | with_reducible refine kept_fstW ?_ (by with_reducible assumption)
    | with_reducible refine kept_fstH ?_ (by with_reducible assumption)
    | (simp only [↓kept_mk]; with_reducible refine kept_of ?_))

theorem State.finishReq_kept {a0 : State} {a1 : Frame} {a2 : Nat} {a3 : Nat} {a4 : Bytes} (ha0 : (a0).kept qs u = true) :
    (@State.finishReq a0 a1 a2 a3 a4).kept qs u = true := by
  unfold State.finishReq
  try dsimp only
  repeat' (first
    | with_reducible assumption
    | with_reducible apply State.count_kept
    | with_reducible apply State.respond_kept
    | intro _
    | split
    | with_reducible apply kept_fold
    | with_reducible apply kept_fold1
    | with_reducible apply kept_foldW
    | with_reducible apply kept_foldW1
    | with_reducible apply kept_foldH
    | with_reducible apply kept_foldH1
    | with_reducible refine kept_fst ?_ (by with_reducible assumption)
    | with_reducible refine kept_fstW ?_ (by with_reducible assumption)
    | with_reducible refine kept_fstH ?_ (by with_reducible assumption)
    | (simp only [↓kept_mk]; with_reducible refine kept_of ?_))

theorem State.accept_kept {a0 : State} {a1 : RConn} {a2 : Frame} (ha0 : (a0).kept qs u = true) :
    (@State.accept a0 a1 a2).kept qs u = true := by
  unfold State.accept
  try dsimp only
  repeat' (first
    | with_reducible assumption
    | with_reducible apply State.count_kept
    | with_reducible apply State.answer_kept
    | with_reducible apply State.pauseUpdate_kept
    | intro _
    | split
    | with_reducible apply kept_fold
    | with_reducible apply kept_fold1
    | with_reducible apply kept_foldW
    | with_reducible apply kept_foldW1
    | with_reducible apply kept_foldH
    | with_reducible apply kept_foldH1
    | with_reducible refine kept_fst ?_ (by with_reducible assumption)
    | with_reducible refine kept_fstW ?_ (by with_reducible assumption)
    | with_reducible refine kept_fstH ?_ (by with_reducible assumption)
    | (simp only [↓kept_mk]; with_reducible refine kept_of ?_))

theorem State.inOrder_kept {a0 : State} {a1 : Frame} {a2 : State → RConn → State} (ha0 : (a0).kept qs u = true) (ha2 : ∀ y0 y1, (y0).kept qs u = true → (a2 y0 y1).kept qs u = true) :
    (@State.inOrder a0 a1 a2).kept qs u = true := by
  unfold State.inOrder
  try dsimp only
  repeat' (first
    | with_reducible assumption
    | with_reducible apply State.acked_kept
    | with_reducible apply State.answer_kept
    | with_reducible apply State.count_kept
    | with_reducible apply ha2
    | intro _
    | split
    | with_reducible apply kept_fold
    | with_reducible apply kept_fold1
    | with_reducible apply kept_foldW
    | with_reducible apply kept_foldW1
    | with_reducible apply kept_foldH
    | with_reducible apply kept_foldH1
    | with_reducible refine kept_fst ?_ (by with_reducible assumption)
    | with_reducible refine kept_fstW ?_ (by with_reducible assumption)
    | with_reducible refine kept_fstH ?_ (by with_reducible assumption)
    | (simp only [↓kept_mk]; with_reducible refine kept_of ?_))

theorem State.fec_kept {a0 : State} {a1 : Nat} {a2 : WireFrame} (ha0 : (a0).kept qs u = true) :
    (@State.fec a0 a1 a2).kept qs u = true := by
  unfold State.fec
  try dsimp only
  repeat' (first
    | with_reducible assumption
    | with_reducible apply State.count_kept
    | intro _
    | split
    | with_reducible apply kept_fold
    | with_reducible apply kept_fold1
    | with_reducible apply kept_foldW
    | with_reducible apply kept_foldW1
    | with_reducible apply kept_foldH
    | with_reducible apply kept_foldH1
    | with_reducible refine kept_fst ?_ (by with_reducible assumption)
    | with_reducible refine kept_fstW ?_ (by with_reducible assumption)
    | with_reducible refine kept_fstH ?_ (by with_reducible assumption)
    | (simp only [↓kept_mk]; with_reducible refine kept_of ?_))

theorem State.receive_kept {a0 : State} {a1 : Nat} {a2 : Nat} {a3 : WireFrame} {a4 : State → Frame → State} (ha0 : (a0).kept qs u = true) (ha4 : ∀ y0 y1, (y0).kept qs u = true → (a4 y0 y1).kept qs u = true) :
    (@State.receive a0 a1 a2 a3 a4).kept qs u = true := by
  unfold State.receive
  try dsimp only
  repeat' (first
    | with_reducible assumption
    | with_reducible apply State.fec_kept
    | with_reducible apply State.discard_kept
    | with_reducible apply ha4
    | intro _
    | split
    | with_reducible apply kept_fold
    | with_reducible apply kept_fold1
    | with_reducible apply kept_foldW
    | with_reducible apply kept_foldW1
    | with_reducible apply kept_foldH
    | with_reducible apply kept_foldH1
    | with_reducible refine kept_fst ?_ (by with_reducible assumption)
    | with_reducible refine kept_fstW ?_ (by with_reducible assumption)
    | with_reducible refine kept_fstH ?_ (by with_reducible assumption)
    | (simp only [↓kept_mk]; with_reducible refine kept_of ?_))

theorem execRequestFrameReceive_kept {a0 : Fin 8} {a1 : WireFrame} {a2 : State} (ha2 : (a2).kept qs u = true) :
    ∀ t, @execRequestFrameReceive a0 a1 a2 = .next t → t.kept qs u = true := by
  unfold execRequestFrameReceive
  refine live_kept ha2 ?_
  try dsimp only
  repeat' (first
    | with_reducible assumption
    | with_reducible apply State.receive_kept
    | with_reducible apply State.inOrder_kept
    | with_reducible apply State.count_kept
    | with_reducible apply State.answer_kept
    | with_reducible apply State.finishReq_kept
    | with_reducible apply State.accept_kept
    | intro _
    | split
    | with_reducible apply kept_fold
    | with_reducible apply kept_fold1
    | with_reducible apply kept_foldW
    | with_reducible apply kept_foldW1
    | with_reducible apply kept_foldH
    | with_reducible apply kept_foldH1
    | with_reducible refine kept_fst ?_ (by with_reducible assumption)
    | with_reducible refine kept_fstW ?_ (by with_reducible assumption)
    | with_reducible refine kept_fstH ?_ (by with_reducible assumption)
    | (simp only [↓kept_mk]; with_reducible refine kept_of ?_))

theorem State.applyReq_kept {a0 : State} {a1 : Frame} (ha0 : (a0).kept qs u = true) :
    (@State.applyReq a0 a1).kept qs u = true := by
  unfold State.applyReq
  try dsimp only
  repeat' (first
    | with_reducible assumption
    | with_reducible apply State.finishReq_kept
    | with_reducible apply State.serve_kept
    | intro _
    | split
    | with_reducible apply kept_fold
    | with_reducible apply kept_fold1
    | with_reducible apply kept_foldW
    | with_reducible apply kept_foldW1
    | with_reducible apply kept_foldH
    | with_reducible apply kept_foldH1
    | with_reducible refine kept_fst ?_ (by with_reducible assumption)
    | with_reducible refine kept_fstW ?_ (by with_reducible assumption)
    | with_reducible refine kept_fstH ?_ (by with_reducible assumption)
    | (simp only [↓kept_mk]; with_reducible refine kept_of ?_))

theorem execPfcRepeat_kept {a0 : Fin 8} {a1 : Fin 8} {a2 : State} (ha2 : (a2).kept qs u = true) :
    ∀ t, @execPfcRepeat a0 a1 a2 = .next t → t.kept qs u = true := by
  unfold execPfcRepeat
  refine live_kept ha2 ?_
  try dsimp only
  repeat' (first
    | with_reducible assumption
    | with_reducible apply State.send_kept
    | intro _
    | split
    | with_reducible apply kept_fold
    | with_reducible apply kept_fold1
    | with_reducible apply kept_foldW
    | with_reducible apply kept_foldW1
    | with_reducible apply kept_foldH
    | with_reducible apply kept_foldH1
    | with_reducible refine kept_fst ?_ (by with_reducible assumption)
    | with_reducible refine kept_fstW ?_ (by with_reducible assumption)
    | with_reducible refine kept_fstH ?_ (by with_reducible assumption)
    | (simp only [↓kept_mk]; with_reducible refine kept_of ?_))

theorem execAckReceive_kept {a0 : Fin 8} {a1 : WireFrame} {a2 : State} (ha2 : (a2).kept qs u = true) :
    ∀ t, @execAckReceive a0 a1 a2 = .next t → t.kept qs u = true := by
  unfold execAckReceive
  refine live_kept ha2 ?_
  try dsimp only
  repeat' (first
    | with_reducible assumption
    | with_reducible apply State.receive_kept
    | with_reducible apply State.acked_kept
    | intro _
    | split
    | with_reducible apply kept_fold
    | with_reducible apply kept_fold1
    | with_reducible apply kept_foldW
    | with_reducible apply kept_foldW1
    | with_reducible apply kept_foldH
    | with_reducible apply kept_foldH1
    | with_reducible refine kept_fst ?_ (by with_reducible assumption)
    | with_reducible refine kept_fstW ?_ (by with_reducible assumption)
    | with_reducible refine kept_fstH ?_ (by with_reducible assumption)
    | (simp only [↓kept_mk]; with_reducible refine kept_of ?_))

theorem execNakReceive_kept {a0 : Fin 8} {a1 : WireFrame} {a2 : State} (ha2 : (a2).kept qs u = true) :
    ∀ t, @execNakReceive a0 a1 a2 = .next t → t.kept qs u = true := by
  unfold execNakReceive
  refine live_kept ha2 ?_
  try dsimp only
  repeat' (first
    | with_reducible assumption
    | with_reducible apply State.receive_kept
    | with_reducible apply State.acked_kept
    | with_reducible apply State.putConn_kept
    | with_reducible apply State.retransmit_kept
    | intro _
    | split
    | with_reducible apply kept_fold
    | with_reducible apply kept_fold1
    | with_reducible apply kept_foldW
    | with_reducible apply kept_foldW1
    | with_reducible apply kept_foldH
    | with_reducible apply kept_foldH1
    | with_reducible refine kept_fst ?_ (by with_reducible assumption)
    | with_reducible refine kept_fstW ?_ (by with_reducible assumption)
    | with_reducible refine kept_fstH ?_ (by with_reducible assumption)
    | (simp only [↓kept_mk]; with_reducible refine kept_of ?_))

theorem execResyncReceive_kept {a0 : Fin 8} {a1 : WireFrame} {a2 : State} (ha2 : (a2).kept qs u = true) :
    ∀ t, @execResyncReceive a0 a1 a2 = .next t → t.kept qs u = true := by
  unfold execResyncReceive
  refine live_kept ha2 ?_
  try dsimp only
  repeat' (first
    | with_reducible assumption
    | with_reducible apply State.receive_kept
    | with_reducible apply State.answer_kept
    | intro _
    | split
    | with_reducible apply kept_fold
    | with_reducible apply kept_fold1
    | with_reducible apply kept_foldW
    | with_reducible apply kept_foldW1
    | with_reducible apply kept_foldH
    | with_reducible apply kept_foldH1
    | with_reducible refine kept_fst ?_ (by with_reducible assumption)
    | with_reducible refine kept_fstW ?_ (by with_reducible assumption)
    | with_reducible refine kept_fstH ?_ (by with_reducible assumption)
    | (simp only [↓kept_mk]; with_reducible refine kept_of ?_))

theorem execResyncAckReceive_kept {a0 : Fin 8} {a1 : WireFrame} {a2 : State} (ha2 : (a2).kept qs u = true) :
    ∀ t, @execResyncAckReceive a0 a1 a2 = .next t → t.kept qs u = true := by
  unfold execResyncAckReceive
  refine live_kept ha2 ?_
  try dsimp only
  repeat' (first
    | with_reducible assumption
    | with_reducible apply State.receive_kept
    | with_reducible apply State.pump_kept
    | intro _
    | split
    | with_reducible apply kept_fold
    | with_reducible apply kept_fold1
    | with_reducible apply kept_foldW
    | with_reducible apply kept_foldW1
    | with_reducible apply kept_foldH
    | with_reducible apply kept_foldH1
    | with_reducible refine kept_fst ?_ (by with_reducible assumption)
    | with_reducible refine kept_fstW ?_ (by with_reducible assumption)
    | with_reducible refine kept_fstH ?_ (by with_reducible assumption)
    | (simp only [↓kept_mk]; with_reducible refine kept_of ?_))

theorem execForeignFrameReceive_kept {a0 : Fin 8} {a1 : WireFrame} {a2 : State} (ha2 : (a2).kept qs u = true) :
    ∀ t, @execForeignFrameReceive a0 a1 a2 = .next t → t.kept qs u = true := by
  unfold execForeignFrameReceive
  refine live_kept ha2 ?_
  try dsimp only
  repeat' (first
    | with_reducible assumption
    | with_reducible apply State.fec_kept
    | with_reducible apply State.discard_kept
    | intro _
    | split
    | with_reducible apply kept_fold
    | with_reducible apply kept_fold1
    | with_reducible apply kept_foldW
    | with_reducible apply kept_foldW1
    | with_reducible apply kept_foldH
    | with_reducible apply kept_foldH1
    | with_reducible refine kept_fst ?_ (by with_reducible assumption)
    | with_reducible refine kept_fstW ?_ (by with_reducible assumption)
    | with_reducible refine kept_fstH ?_ (by with_reducible assumption)
    | (simp only [↓kept_mk]; with_reducible refine kept_of ?_))

theorem State.showPaused_kept {a0 : State} {a1 : Nat} (ha0 : (a0).kept qs u = true) :
    (@State.showPaused a0 a1).kept qs u = true := by
  unfold State.showPaused
  try dsimp only
  repeat' (first
    | with_reducible assumption
    | with_reducible apply State.setField_kept
    | intro _
    | split
    | with_reducible apply kept_fold
    | with_reducible apply kept_fold1
    | with_reducible apply kept_foldW
    | with_reducible apply kept_foldW1
    | with_reducible apply kept_foldH
    | with_reducible apply kept_foldH1
    | with_reducible refine kept_fst ?_ (by with_reducible assumption)
    | with_reducible refine kept_fstW ?_ (by with_reducible assumption)
    | with_reducible refine kept_fstH ?_ (by with_reducible assumption)
    | (simp only [↓kept_mk]; with_reducible refine kept_of ?_))

theorem State.setPaused_kept {a0 : State} {a1 : Nat} {a2 : Nat} {a3 : Bool} (ha0 : (a0).kept qs u = true) :
    (@State.setPaused a0 a1 a2 a3).kept qs u = true := by
  unfold State.setPaused
  try dsimp only
  repeat' (first
    | with_reducible assumption
    | with_reducible apply State.showPaused_kept
    | with_reducible apply State.pumpAll_kept
    | intro _
    | split
    | with_reducible apply kept_fold
    | with_reducible apply kept_fold1
    | with_reducible apply kept_foldW
    | with_reducible apply kept_foldW1
    | with_reducible apply kept_foldH
    | with_reducible apply kept_foldH1
    | with_reducible refine kept_fst ?_ (by with_reducible assumption)
    | with_reducible refine kept_fstW ?_ (by with_reducible assumption)
    | with_reducible refine kept_fstH ?_ (by with_reducible assumption)
    | (simp only [↓kept_mk]; with_reducible refine kept_of ?_))

theorem execPfcFrameReceive_kept {a0 : Fin 8} {a1 : WireFrame} {a2 : State} (ha2 : (a2).kept qs u = true) :
    ∀ t, @execPfcFrameReceive a0 a1 a2 = .next t → t.kept qs u = true := by
  unfold execPfcFrameReceive
  refine live_kept ha2 ?_
  try dsimp only
  repeat' (first
    | with_reducible assumption
    | with_reducible apply State.fec_kept
    | with_reducible apply State.setPaused_kept
    | intro _
    | split
    | with_reducible apply kept_fold
    | with_reducible apply kept_fold1
    | with_reducible apply kept_foldW
    | with_reducible apply kept_foldW1
    | with_reducible apply kept_foldH
    | with_reducible apply kept_foldH1
    | with_reducible refine kept_fst ?_ (by with_reducible assumption)
    | with_reducible refine kept_fstW ?_ (by with_reducible assumption)
    | with_reducible refine kept_fstH ?_ (by with_reducible assumption)
    | (simp only [↓kept_mk]; with_reducible refine kept_of ?_))

theorem execPauseExpiry_kept {a0 : Fin 8} {a1 : Fin 8} {a2 : State} (ha2 : (a2).kept qs u = true) :
    ∀ t, @execPauseExpiry a0 a1 a2 = .next t → t.kept qs u = true := by
  unfold execPauseExpiry
  refine live_kept ha2 ?_
  try dsimp only
  repeat' (first
    | with_reducible assumption
    | with_reducible apply State.setPaused_kept
    | intro _
    | split
    | with_reducible apply kept_fold
    | with_reducible apply kept_fold1
    | with_reducible apply kept_foldW
    | with_reducible apply kept_foldW1
    | with_reducible apply kept_foldH
    | with_reducible apply kept_foldH1
    | with_reducible refine kept_fst ?_ (by with_reducible assumption)
    | with_reducible refine kept_fstW ?_ (by with_reducible assumption)
    | with_reducible refine kept_fstH ?_ (by with_reducible assumption)
    | (simp only [↓kept_mk]; with_reducible refine kept_of ?_))

theorem execAckTimeout_kept {a0 : Fin 8} {a1 : Fin 8} {a2 : BitVec 12} {a3 : State} (ha3 : (a3).kept qs u = true) :
    ∀ t, @execAckTimeout a0 a1 a2 a3 = .next t → t.kept qs u = true := by
  unfold execAckTimeout
  refine live_kept ha3 ?_
  try dsimp only
  repeat' (first
    | with_reducible assumption
    | with_reducible apply State.retransmit_kept
    | intro _
    | split
    | with_reducible apply kept_fold
    | with_reducible apply kept_fold1
    | with_reducible apply kept_foldW
    | with_reducible apply kept_foldW1
    | with_reducible apply kept_foldH
    | with_reducible apply kept_foldH1
    | with_reducible refine kept_fst ?_ (by with_reducible assumption)
    | with_reducible refine kept_fstW ?_ (by with_reducible assumption)
    | with_reducible refine kept_fstH ?_ (by with_reducible assumption)
    | (simp only [↓kept_mk]; with_reducible refine kept_of ?_))

theorem execResyncRetry_kept {a0 : Fin 8} {a1 : Fin 8} {a2 : BitVec 12} {a3 : State} (ha3 : (a3).kept qs u = true) :
    ∀ t, @execResyncRetry a0 a1 a2 a3 = .next t → t.kept qs u = true := by
  unfold execResyncRetry
  refine live_kept ha3 ?_
  try dsimp only
  repeat' (first
    | with_reducible assumption
    | with_reducible apply State.sendResync_kept
    | intro _
    | split
    | with_reducible apply kept_fold
    | with_reducible apply kept_fold1
    | with_reducible apply kept_foldW
    | with_reducible apply kept_foldW1
    | with_reducible apply kept_foldH
    | with_reducible apply kept_foldH1
    | with_reducible refine kept_fst ?_ (by with_reducible assumption)
    | with_reducible refine kept_fstW ?_ (by with_reducible assumption)
    | with_reducible refine kept_fstH ?_ (by with_reducible assumption)
    | (simp only [↓kept_mk]; with_reducible refine kept_of ?_))

theorem execResyncWaitTimeout_kept {a0 : BitVec 16} {a1 : State} (ha1 : (a1).kept qs u = true) :
    ∀ t, @execResyncWaitTimeout a0 a1 = .next t → t.kept qs u = true := by
  unfold execResyncWaitTimeout
  refine live_kept ha1 ?_
  try dsimp only
  repeat' (first
    | with_reducible assumption
    | with_reducible apply State.endOp_kept
    | intro _
    | split
    | with_reducible apply kept_fold
    | with_reducible apply kept_fold1
    | with_reducible apply kept_foldW
    | with_reducible apply kept_foldW1
    | with_reducible apply kept_foldH
    | with_reducible apply kept_foldH1
    | with_reducible refine kept_fst ?_ (by with_reducible assumption)
    | with_reducible refine kept_fstW ?_ (by with_reducible assumption)
    | with_reducible refine kept_fstH ?_ (by with_reducible assumption)
    | (simp only [↓kept_mk]; with_reducible refine kept_of ?_))

theorem execResponseTimeout_kept {a0 : BitVec 16} {a1 : State} (ha1 : (a1).kept qs u = true) :
    ∀ t, @execResponseTimeout a0 a1 = .next t → t.kept qs u = true := by
  unfold execResponseTimeout
  refine live_kept ha1 ?_
  try dsimp only
  repeat' (first
    | with_reducible assumption
    | with_reducible apply State.endOp_kept
    | intro _
    | split
    | with_reducible apply kept_fold
    | with_reducible apply kept_fold1
    | with_reducible apply kept_foldW
    | with_reducible apply kept_foldW1
    | with_reducible apply kept_foldH
    | with_reducible apply kept_foldH1
    | with_reducible refine kept_fst ?_ (by with_reducible assumption)
    | with_reducible refine kept_fstW ?_ (by with_reducible assumption)
    | with_reducible refine kept_fstH ?_ (by with_reducible assumption)
    | (simp only [↓kept_mk]; with_reducible refine kept_of ?_))

theorem State.dropLink_kept {a0 : State} {a1 : Nat} (ha0 : (a0).kept qs u = true) :
    (@State.dropLink a0 a1).kept qs u = true := by
  unfold State.dropLink
  try dsimp only
  repeat' (first
    | with_reducible assumption
    | with_reducible apply State.setRegN_kept
    | intro _
    | split
    | with_reducible apply kept_fold
    | with_reducible apply kept_fold1
    | with_reducible apply kept_foldW
    | with_reducible apply kept_foldW1
    | with_reducible apply kept_foldH
    | with_reducible apply kept_foldH1
    | with_reducible refine kept_fst ?_ (by with_reducible assumption)
    | with_reducible refine kept_fstW ?_ (by with_reducible assumption)
    | with_reducible refine kept_fstH ?_ (by with_reducible assumption)
    | (simp only [↓kept_mk]; with_reducible refine kept_of ?_))

theorem State.freshPort_kept {a0 : State} {a1 : Nat} (ha0 : (a0).kept qs u = true) :
    (@State.freshPort a0 a1).kept qs u = true := by
  unfold State.freshPort
  try dsimp only
  repeat' (first
    | with_reducible assumption
    | intro _
    | split
    | with_reducible apply kept_fold
    | with_reducible apply kept_fold1
    | with_reducible apply kept_foldW
    | with_reducible apply kept_foldW1
    | with_reducible apply kept_foldH
    | with_reducible apply kept_foldH1
    | with_reducible refine kept_fst ?_ (by with_reducible assumption)
    | with_reducible refine kept_fstW ?_ (by with_reducible assumption)
    | with_reducible refine kept_fstH ?_ (by with_reducible assumption)
    | (simp only [↓kept_mk]; with_reducible refine kept_of ?_))

theorem State.portWrite_kept {a0 : State} {a1 : Nat} {a2 : Nat} (ha0 : (a0).kept qs u = true) :
    (@State.portWrite a0 a1 a2).kept qs u = true := by
  unfold State.portWrite
  try dsimp only
  repeat' (first
    | with_reducible assumption
    | with_reducible apply State.setRegN_kept
    | with_reducible apply State.freshPort_kept
    | with_reducible apply State.dropLink_kept
    | intro _
    | split
    | with_reducible apply kept_fold
    | with_reducible apply kept_fold1
    | with_reducible apply kept_foldW
    | with_reducible apply kept_foldW1
    | with_reducible apply kept_foldH
    | with_reducible apply kept_foldH1
    | with_reducible refine kept_fst ?_ (by with_reducible assumption)
    | with_reducible refine kept_fstW ?_ (by with_reducible assumption)
    | with_reducible refine kept_fstH ?_ (by with_reducible assumption)
    | (simp only [↓kept_mk]; with_reducible refine kept_of ?_))

theorem execPortEnable_kept {a0 : Bool} {a1 : Fin 8} {a2 : Word} {a3 : State} (ha3 : (a3).kept qs u = true) :
    ∀ t, @execPortEnable a0 a1 a2 a3 = .next t → t.kept qs u = true := by
  unfold execPortEnable
  refine live_kept ha3 ?_
  try dsimp only
  repeat' (first
    | with_reducible assumption
    | with_reducible apply State.allow_kept
    | with_reducible apply State.portWrite_kept
    | intro _
    | split
    | with_reducible apply kept_fold
    | with_reducible apply kept_fold1
    | with_reducible apply kept_foldW
    | with_reducible apply kept_foldW1
    | with_reducible apply kept_foldH
    | with_reducible apply kept_foldH1
    | with_reducible refine kept_fst ?_ (by with_reducible assumption)
    | with_reducible refine kept_fstW ?_ (by with_reducible assumption)
    | with_reducible refine kept_fstH ?_ (by with_reducible assumption)
    | (simp only [↓kept_mk]; with_reducible refine kept_of ?_))

theorem execLinkUp_kept {a0 : Fin 8} {a1 : State} (ha1 : (a1).kept qs u = true) :
    ∀ t, @execLinkUp a0 a1 = .next t → t.kept qs u = true := by
  unfold execLinkUp
  refine live_kept ha1 ?_
  try dsimp only
  repeat' (first
    | with_reducible assumption
    | with_reducible apply State.setRegN_kept
    | with_reducible apply State.pumpAll_kept
    | intro _
    | split
    | with_reducible apply kept_fold
    | with_reducible apply kept_fold1
    | with_reducible apply kept_foldW
    | with_reducible apply kept_foldW1
    | with_reducible apply kept_foldH
    | with_reducible apply kept_foldH1
    | with_reducible refine kept_fst ?_ (by with_reducible assumption)
    | with_reducible refine kept_fstW ?_ (by with_reducible assumption)
    | with_reducible refine kept_fstH ?_ (by with_reducible assumption)
    | (simp only [↓kept_mk]; with_reducible refine kept_of ?_))

theorem execLinkDown_kept {a0 : Fin 8} {a1 : State} (ha1 : (a1).kept qs u = true) :
    ∀ t, @execLinkDown a0 a1 = .next t → t.kept qs u = true := by
  unfold execLinkDown
  refine live_kept ha1 ?_
  try dsimp only
  repeat' (first
    | with_reducible assumption
    | with_reducible apply State.dropLink_kept
    | intro _
    | split
    | with_reducible apply kept_fold
    | with_reducible apply kept_fold1
    | with_reducible apply kept_foldW
    | with_reducible apply kept_foldW1
    | with_reducible apply kept_foldH
    | with_reducible apply kept_foldH1
    | with_reducible refine kept_fst ?_ (by with_reducible assumption)
    | with_reducible refine kept_fstW ?_ (by with_reducible assumption)
    | with_reducible refine kept_fstH ?_ (by with_reducible assumption)
    | (simp only [↓kept_mk]; with_reducible refine kept_of ?_))

theorem State.chipIdWrite_kept {a0 : State} {a1 : Nat} (ha0 : (a0).kept qs u = true) :
    (@State.chipIdWrite a0 a1).kept qs u = true := by
  unfold State.chipIdWrite
  try dsimp only
  repeat' (first
    | with_reducible assumption
    | with_reducible apply State.blkErr_kept
    | with_reducible apply State.setRegN_kept
    | with_reducible apply State.pumpAll_kept
    | with_reducible apply State.endOp_kept
    | intro _
    | split
    | with_reducible apply kept_fold
    | with_reducible apply kept_fold1
    | with_reducible apply kept_foldW
    | with_reducible apply kept_foldW1
    | with_reducible apply kept_foldH
    | with_reducible apply kept_foldH1
    | with_reducible refine kept_fst ?_ (by with_reducible assumption)
    | with_reducible refine kept_fstW ?_ (by with_reducible assumption)
    | with_reducible refine kept_fstH ?_ (by with_reducible assumption)
    | (simp only [↓kept_mk]; with_reducible refine kept_of ?_))

theorem execChipIdWrite_kept {a0 : Bool} {a1 : Word} {a2 : State} (ha2 : (a2).kept qs u = true) :
    ∀ t, @execChipIdWrite a0 a1 a2 = .next t → t.kept qs u = true := by
  unfold execChipIdWrite
  refine live_kept ha2 ?_
  try dsimp only
  repeat' (first
    | with_reducible assumption
    | with_reducible apply State.allow_kept
    | with_reducible apply State.chipIdWrite_kept
    | intro _
    | split
    | with_reducible apply kept_fold
    | with_reducible apply kept_fold1
    | with_reducible apply kept_foldW
    | with_reducible apply kept_foldW1
    | with_reducible apply kept_foldH
    | with_reducible apply kept_foldH1
    | with_reducible refine kept_fst ?_ (by with_reducible assumption)
    | with_reducible refine kept_fstW ?_ (by with_reducible assumption)
    | with_reducible refine kept_fstH ?_ (by with_reducible assumption)
    | (simp only [↓kept_mk]; with_reducible refine kept_of ?_))

theorem State.macPfxWrite_kept {a0 : State} {a1 : Nat} (ha0 : (a0).kept qs u = true) :
    (@State.macPfxWrite a0 a1).kept qs u = true := by
  unfold State.macPfxWrite
  try dsimp only
  repeat' (first
    | with_reducible assumption
    | with_reducible apply State.setRegN_kept
    | with_reducible apply State.blkErr_kept
    | intro _
    | split
    | with_reducible apply kept_fold
    | with_reducible apply kept_fold1
    | with_reducible apply kept_foldW
    | with_reducible apply kept_foldW1
    | with_reducible apply kept_foldH
    | with_reducible apply kept_foldH1
    | with_reducible refine kept_fst ?_ (by with_reducible assumption)
    | with_reducible refine kept_fstW ?_ (by with_reducible assumption)
    | with_reducible refine kept_fstH ?_ (by with_reducible assumption)
    | (simp only [↓kept_mk]; with_reducible refine kept_of ?_))

theorem execMacPfxWrite_kept {a0 : Bool} {a1 : Word} {a2 : State} (ha2 : (a2).kept qs u = true) :
    ∀ t, @execMacPfxWrite a0 a1 a2 = .next t → t.kept qs u = true := by
  unfold execMacPfxWrite
  refine live_kept ha2 ?_
  try dsimp only
  repeat' (first
    | with_reducible assumption
    | with_reducible apply State.allow_kept
    | with_reducible apply State.macPfxWrite_kept
    | intro _
    | split
    | with_reducible apply kept_fold
    | with_reducible apply kept_fold1
    | with_reducible apply kept_foldW
    | with_reducible apply kept_foldW1
    | with_reducible apply kept_foldH
    | with_reducible apply kept_foldH1
    | with_reducible refine kept_fst ?_ (by with_reducible assumption)
    | with_reducible refine kept_fstW ?_ (by with_reducible assumption)
    | with_reducible refine kept_fstH ?_ (by with_reducible assumption)
    | (simp only [↓kept_mk]; with_reducible refine kept_of ?_))

theorem execRefclkFLoss_kept {a0 : Fin 4} {a1 : State} (ha1 : (a1).kept qs u = true) :
    ∀ t, @execRefclkFLoss a0 a1 = .next t → t.kept qs u = true := by
  unfold execRefclkFLoss
  refine atPins_kept ha1 ?_
  try dsimp only
  repeat' (first
    | with_reducible assumption
    | with_reducible apply State.dropLink_kept
    | intro _
    | split
    | with_reducible apply kept_fold
    | with_reducible apply kept_fold1
    | with_reducible apply kept_foldW
    | with_reducible apply kept_foldW1
    | with_reducible apply kept_foldH
    | with_reducible apply kept_foldH1
    | with_reducible refine kept_fst ?_ (by with_reducible assumption)
    | with_reducible refine kept_fstW ?_ (by with_reducible assumption)
    | with_reducible refine kept_fstH ?_ (by with_reducible assumption)
    | (simp only [↓kept_mk]; with_reducible refine kept_of ?_))

theorem execRefclkFRestore_kept {a0 : Fin 4} {a1 : State} (ha1 : (a1).kept qs u = true) :
    ∀ t, @execRefclkFRestore a0 a1 = .next t → t.kept qs u = true := by
  unfold execRefclkFRestore
  refine atPins_kept ha1 ?_
  try dsimp only
  repeat' (first
    | with_reducible assumption
    | intro _
    | split
    | with_reducible apply kept_fold
    | with_reducible apply kept_fold1
    | with_reducible apply kept_foldW
    | with_reducible apply kept_foldW1
    | with_reducible apply kept_foldH
    | with_reducible apply kept_foldH1
    | with_reducible refine kept_fst ?_ (by with_reducible assumption)
    | with_reducible refine kept_fstW ?_ (by with_reducible assumption)
    | with_reducible refine kept_fstH ?_ (by with_reducible assumption)
    | (simp only [↓kept_mk]; with_reducible refine kept_of ?_))

theorem State.putSuperblock_kept {a0 : State} {a1 : Superblock} (ha0 : (a0).kept qs u = true) :
    (@State.putSuperblock a0 a1).kept qs u = true := by
  unfold State.putSuperblock
  try dsimp only
  repeat' (first
    | with_reducible assumption
    | intro _
    | split
    | with_reducible apply kept_fold
    | with_reducible apply kept_fold1
    | with_reducible apply kept_foldW
    | with_reducible apply kept_foldW1
    | with_reducible apply kept_foldH
    | with_reducible apply kept_foldH1
    | with_reducible refine kept_fst ?_ (by with_reducible assumption)
    | with_reducible refine kept_fstW ?_ (by with_reducible assumption)
    | with_reducible refine kept_fstH ?_ (by with_reducible assumption)
    | (simp only [↓kept_mk]; with_reducible refine kept_of ?_))

theorem State.nandWriteFuel_kept {a0 : Nat} {a1 : State} {a2 : List (Nat × Nat)} (ha1 : (a1).kept qs u = true) :
    (@State.nandWriteFuel a0 a1 a2).kept qs u = true := by
  induction a0 generalizing a1 a2 with
  | zero => exact ha1
  | succ n ih =>
    cases a2 with
    | nil => exact ha1
    | cons x xs =>
      simp only [State.nandWriteFuel]
      repeat' (first
          | with_reducible apply ih
          | with_reducible apply State.putSuperblock_kept
          | with_reducible apply State.tick_kept
          | with_reducible assumption
          | intro _
          | split
          | with_reducible apply kept_fold
          | with_reducible apply kept_fold1
          | with_reducible apply kept_foldW
          | with_reducible apply kept_foldW1
          | with_reducible apply kept_foldH
          | with_reducible apply kept_foldH1
          | with_reducible refine kept_fst ?_ (by with_reducible assumption)
          | with_reducible refine kept_fstW ?_ (by with_reducible assumption)
          | with_reducible refine kept_fstH ?_ (by with_reducible assumption)
          | (simp only [↓kept_mk]; with_reducible refine kept_of ?_)
          | (simp only [↓kept_mk]; with_reducible refine kept_setPl ?_ ?_)
          | (simp only [↓kept_mk]; with_reducible refine kept_setNand ?_ ?_)
          | (simp only [↓kept_mk]; with_reducible refine kept_setBed ?_ ?_)
          | (simp only [↓kept_mk]; with_reducible refine kept_setHbm ?_ ?_)
          | (simp only [↓kept_mk]; with_reducible refine kept_setRegs ?_ ?_)
          | (simp only [↓kept_mk]; with_reducible refine kept_setMarks ?_ ?_)
          | with_reducible exact wf_nil _
          | with_reducible exact smapWf_nil _
          | with_reducible apply wf_memWrite
          | with_reducible apply wf_memClear
          | with_reducible apply smapWf_set
          | with_reducible apply smapWf_clear
          | with_reducible apply wf_fold
          | with_reducible refine kept_pl (qs := qs) (u := u) ?_
          | with_reducible refine kept_nand (qs := qs) (u := u) ?_
          | with_reducible refine kept_bed (qs := qs) (u := u) ?_
          | with_reducible refine kept_hbm (qs := qs) (u := u) ?_
          | with_reducible refine kept_regs (qs := qs) (u := u) ?_
          | with_reducible refine kept_marks (qs := qs) (u := u) ?_)

theorem State.nandWrite_kept {a0 : State} {a1 : List (Nat × Nat)} (ha0 : (a0).kept qs u = true) :
    (@State.nandWrite a0 a1).kept qs u = true := by
  unfold State.nandWrite
  try dsimp only
  repeat' (first
    | with_reducible assumption
    | with_reducible apply State.count_kept
    | with_reducible apply State.nandWriteFuel_kept
    | intro _
    | split
    | with_reducible apply kept_fold
    | with_reducible apply kept_fold1
    | with_reducible apply kept_foldW
    | with_reducible apply kept_foldW1
    | with_reducible apply kept_foldH
    | with_reducible apply kept_foldH1
    | with_reducible refine kept_fst ?_ (by with_reducible assumption)
    | with_reducible refine kept_fstW ?_ (by with_reducible assumption)
    | with_reducible refine kept_fstH ?_ (by with_reducible assumption)
    | (simp only [↓kept_mk]; with_reducible refine kept_of ?_))

theorem State.showBacklog_kept {a0 : State} (ha0 : (a0).kept qs u = true) :
    (@State.showBacklog a0).kept qs u = true := by
  unfold State.showBacklog
  try dsimp only
  repeat' (first
    | with_reducible assumption
    | with_reducible apply State.setBit_kept
    | intro _
    | split
    | with_reducible apply kept_fold
    | with_reducible apply kept_fold1
    | with_reducible apply kept_foldW
    | with_reducible apply kept_foldW1
    | with_reducible apply kept_foldH
    | with_reducible apply kept_foldH1
    | with_reducible refine kept_fst ?_ (by with_reducible assumption)
    | with_reducible refine kept_fstW ?_ (by with_reducible assumption)
    | with_reducible refine kept_fstH ?_ (by with_reducible assumption)
    | (simp only [↓kept_mk]; with_reducible refine kept_of ?_))

theorem State.nandForget_kept {a0 : State} {a1 : NandUnit → Bool} (ha0 : (a0).kept qs u = true) :
    (@State.nandForget a0 a1).kept qs u = true := by
  unfold State.nandForget
  try dsimp only
  repeat' (first
    | with_reducible assumption
    | with_reducible apply State.showBacklog_kept
    | intro _
    | split
    | with_reducible apply kept_fold
    | with_reducible apply kept_fold1
    | with_reducible apply kept_foldW
    | with_reducible apply kept_foldW1
    | with_reducible apply kept_foldH
    | with_reducible apply kept_foldH1
    | with_reducible refine kept_fst ?_ (by with_reducible assumption)
    | with_reducible refine kept_fstW ?_ (by with_reducible assumption)
    | with_reducible refine kept_fstH ?_ (by with_reducible assumption)
    | (simp only [↓kept_mk]; with_reducible refine kept_of ?_))

theorem State.nandPlace_kept {a0 : State} {a1 : Nat} {a2 : Nat} (ha0 : (a0).kept qs u = true) :
    (@State.nandPlace a0 a1 a2).kept qs u = true := by
  unfold State.nandPlace
  try dsimp only
  repeat' (first
    | with_reducible assumption
    | with_reducible apply State.nandWrite_kept
    | intro _
    | split
    | with_reducible apply kept_fold
    | with_reducible apply kept_fold1
    | with_reducible apply kept_foldW
    | with_reducible apply kept_foldW1
    | with_reducible apply kept_foldH
    | with_reducible apply kept_foldH1
    | with_reducible refine kept_fst ?_ (by with_reducible assumption)
    | with_reducible refine kept_fstW ?_ (by with_reducible assumption)
    | with_reducible refine kept_fstH ?_ (by with_reducible assumption)
    | (simp only [↓kept_mk]; with_reducible refine kept_of ?_))

theorem State.nandRelease_kept {a0 : State} {a1 : Nat} (ha0 : (a0).kept qs u = true) :
    (@State.nandRelease a0 a1).kept qs u = true := by
  simp only [State.nandRelease, ↓kept_mk]
  have h := State.nandForget_kept (a1 := fun k => decide (k.1 = a1)) ha0
  exact kept_setNand h (smapWf_clear _ (kept_nand ha0))

theorem State.nandReads_kept {a0 : State} {a1 : Nat} (ha0 : (a0).kept qs u = true) :
    (@State.nandReads a0 a1).kept qs u = true := by
  unfold State.nandReads
  try dsimp only
  repeat' (first
    | with_reducible assumption
    | with_reducible apply State.tick_kept
    | intro _
    | split
    | with_reducible apply kept_fold
    | with_reducible apply kept_fold1
    | with_reducible apply kept_foldW
    | with_reducible apply kept_foldW1
    | with_reducible apply kept_foldH
    | with_reducible apply kept_foldH1
    | with_reducible refine kept_fst ?_ (by with_reducible assumption)
    | with_reducible refine kept_fstW ?_ (by with_reducible assumption)
    | with_reducible refine kept_fstH ?_ (by with_reducible assumption)
    | (simp only [↓kept_mk]; with_reducible refine kept_of ?_))

theorem State.nandSpare_kept {a0 : State} {a1 : Nat} (ha0 : (a0).kept qs u = true) :
    (@State.nandSpare a0 a1).kept qs u = true := by
  unfold State.nandSpare
  try dsimp only
  repeat' (first
    | with_reducible assumption
    | with_reducible apply State.setField_kept
    | with_reducible apply State.setBit_kept
    | with_reducible apply State.pfEvent_kept
    | intro _
    | split
    | with_reducible apply kept_fold
    | with_reducible apply kept_fold1
    | with_reducible apply kept_foldW
    | with_reducible apply kept_foldW1
    | with_reducible apply kept_foldH
    | with_reducible apply kept_foldH1
    | with_reducible refine kept_fst ?_ (by with_reducible assumption)
    | with_reducible refine kept_fstW ?_ (by with_reducible assumption)
    | with_reducible refine kept_fstH ?_ (by with_reducible assumption)
    | (simp only [↓kept_mk]; with_reducible refine kept_of ?_))

theorem State.nandRetire_kept {a0 : State} {a1 : Nat} (ha0 : (a0).kept qs u = true) :
    (@State.nandRetire a0 a1).kept qs u = true := by
  unfold State.nandRetire
  try dsimp only
  repeat' (first
    | with_reducible assumption
    | with_reducible apply State.nandSpare_kept
    | with_reducible apply State.setField_kept
    | intro _
    | split
    | with_reducible apply kept_fold
    | with_reducible apply kept_fold1
    | with_reducible apply kept_foldW
    | with_reducible apply kept_foldW1
    | with_reducible apply kept_foldH
    | with_reducible apply kept_foldH1
    | with_reducible refine kept_fst ?_ (by with_reducible assumption)
    | with_reducible refine kept_fstW ?_ (by with_reducible assumption)
    | with_reducible refine kept_fstH ?_ (by with_reducible assumption)
    | (simp only [↓kept_mk]; with_reducible refine kept_of ?_))

theorem State.nandLeak_kept {a0 : State} {a1 : Nat} (ha0 : (a0).kept qs u = true) :
    (@State.nandLeak a0 a1).kept qs u = true := by
  unfold State.nandLeak
  try dsimp only
  repeat' (first
    | with_reducible assumption
    | with_reducible apply State.blkErr_kept
    | with_reducible apply State.noSpare_kept
    | intro _
    | split
    | with_reducible apply kept_fold
    | with_reducible apply kept_fold1
    | with_reducible apply kept_foldW
    | with_reducible apply kept_foldW1
    | with_reducible apply kept_foldH
    | with_reducible apply kept_foldH1
    | with_reducible refine kept_fst ?_ (by with_reducible assumption)
    | with_reducible refine kept_fstW ?_ (by with_reducible assumption)
    | with_reducible refine kept_fstH ?_ (by with_reducible assumption)
    | (simp only [↓kept_mk]; with_reducible refine kept_of ?_))

theorem State.nandCorrected_kept {a0 : State} {a1 : Nat} {a2 : Nat} (ha0 : (a0).kept qs u = true) :
    (@State.nandCorrected a0 a1 a2).kept qs u = true := by
  unfold State.nandCorrected
  try dsimp only
  repeat' (first
    | with_reducible assumption
    | with_reducible apply State.nandLeak_kept
    | intro _
    | split
    | with_reducible apply kept_fold
    | with_reducible apply kept_fold1
    | with_reducible apply kept_foldW
    | with_reducible apply kept_foldW1
    | with_reducible apply kept_foldH
    | with_reducible apply kept_foldH1
    | with_reducible refine kept_fst ?_ (by with_reducible assumption)
    | with_reducible refine kept_fstW ?_ (by with_reducible assumption)
    | with_reducible refine kept_fstH ?_ (by with_reducible assumption)
    | (simp only [↓kept_mk]; with_reducible refine kept_of ?_))

theorem State.nandReport_kept {a0 : State} {a1 : List NandReport} (ha0 : (a0).kept qs u = true) :
    (@State.nandReport a0 a1).kept qs u = true := by
  unfold State.nandReport
  try dsimp only
  repeat' (first
    | with_reducible assumption
    | with_reducible apply State.count_kept
    | with_reducible apply State.tick_kept
    | with_reducible apply State.nandRetire_kept
    | with_reducible apply State.nandCorrected_kept
    | intro _
    | split
    | with_reducible apply kept_fold
    | with_reducible apply kept_fold1
    | with_reducible apply kept_foldW
    | with_reducible apply kept_foldW1
    | with_reducible apply kept_foldH
    | with_reducible apply kept_foldH1
    | with_reducible refine kept_fst ?_ (by with_reducible assumption)
    | with_reducible refine kept_fstW ?_ (by with_reducible assumption)
    | with_reducible refine kept_fstH ?_ (by with_reducible assumption)
    | (simp only [↓kept_mk]; with_reducible refine kept_of ?_))

theorem State.nandLost_kept {a0 : State} {a1 : List NandReport} {a2 : List NandUnit} (ha0 : (a0).kept qs u = true) :
    (@State.nandLost a0 a1 a2).kept qs u = true := by
  unfold State.nandLost
  try dsimp only
  repeat' (first
    | with_reducible assumption
    | with_reducible apply State.poisonTensor_kept
    | intro _
    | split
    | with_reducible apply kept_fold
    | with_reducible apply kept_fold1
    | with_reducible apply kept_foldW
    | with_reducible apply kept_foldW1
    | with_reducible apply kept_foldH
    | with_reducible apply kept_foldH1
    | with_reducible refine kept_fst ?_ (by with_reducible assumption)
    | with_reducible refine kept_fstW ?_ (by with_reducible assumption)
    | with_reducible refine kept_fstH ?_ (by with_reducible assumption)
    | (simp only [↓kept_mk]; with_reducible refine kept_of ?_))

theorem execNandChannelTraining_kept {a0 : Fin 16} {a1 : Bool} {a2 : BitVec 24} {a3 : Byte} {a4 : State} (ha4 : (a4).kept qs u = true) :
    ∀ t, @execNandChannelTraining a0 a1 a2 a3 a4 = .next t → t.kept qs u = true := by
  unfold execNandChannelTraining
  refine live_kept ha4 ?_
  try dsimp only
  repeat' (first
    | with_reducible assumption
    | with_reducible apply State.setRegN_kept
    | with_reducible apply State.setBit_kept
    | with_reducible apply State.showBacklog_kept
    | with_reducible apply State.setField_kept
    | with_reducible apply State.pfEvent_kept
    | intro _
    | split
    | with_reducible apply kept_fold
    | with_reducible apply kept_fold1
    | with_reducible apply kept_foldW
    | with_reducible apply kept_foldW1
    | with_reducible apply kept_foldH
    | with_reducible apply kept_foldH1
    | with_reducible refine kept_fst ?_ (by with_reducible assumption)
    | with_reducible refine kept_fstW ?_ (by with_reducible assumption)
    | with_reducible refine kept_fstH ?_ (by with_reducible assumption)
    | (simp only [↓kept_mk]; with_reducible refine kept_of ?_))

theorem execNandBackgroundErase_kept {a0 : Fin 16} {a1 : Nat} {a2 : Bool} {a3 : State} (ha3 : (a3).kept qs u = true) :
    ∀ t, @execNandBackgroundErase a0 a1 a2 a3 = .next t → t.kept qs u = true := by
  unfold execNandBackgroundErase
  refine live_kept ha3 ?_
  try dsimp only
  repeat' (first
    | with_reducible assumption
    | with_reducible apply State.showBacklog_kept
    | with_reducible apply State.putSuperblock_kept
    | with_reducible apply State.nandSpare_kept
    | with_reducible apply State.tick_kept
    | with_reducible apply State.nandRetire_kept
    | intro _
    | split
    | with_reducible apply kept_fold
    | with_reducible apply kept_fold1
    | with_reducible apply kept_foldW
    | with_reducible apply kept_foldW1
    | with_reducible apply kept_foldH
    | with_reducible apply kept_foldH1
    | with_reducible refine kept_fst ?_ (by with_reducible assumption)
    | with_reducible refine kept_fstW ?_ (by with_reducible assumption)
    | with_reducible refine kept_fstH ?_ (by with_reducible assumption)
    | (simp only [↓kept_mk]; with_reducible refine kept_of ?_))

theorem execNandDqRetrain_kept {a0 : Fin 16} {a1 : BitVec 24} {a2 : Byte} {a3 : State} (ha3 : (a3).kept qs u = true) :
    ∀ t, @execNandDqRetrain a0 a1 a2 a3 = .next t → t.kept qs u = true := by
  unfold execNandDqRetrain
  refine live_kept ha3 ?_
  try dsimp only
  repeat' (first
    | with_reducible assumption
    | with_reducible apply State.setField_kept
    | with_reducible apply State.setRegN_kept
    | intro _
    | split
    | with_reducible apply kept_fold
    | with_reducible apply kept_fold1
    | with_reducible apply kept_foldW
    | with_reducible apply kept_foldW1
    | with_reducible apply kept_foldH
    | with_reducible apply kept_foldH1
    | with_reducible refine kept_fst ?_ (by with_reducible assumption)
    | with_reducible refine kept_fstW ?_ (by with_reducible assumption)
    | with_reducible refine kept_fstH ?_ (by with_reducible assumption)
    | (simp only [↓kept_mk]; with_reducible refine kept_of ?_))

theorem State.nandRelocate_kept {a0 : State} {a1 : Superblock} {a2 : List NandReport} {a3 : List NandUnit} (ha0 : (a0).kept qs u = true) :
    (@State.nandRelocate a0 a1 a2 a3).kept qs u = true := by
  unfold State.nandRelocate
  try dsimp only
  repeat' (first
    | with_reducible assumption
    | with_reducible apply State.putSuperblock_kept
    | with_reducible apply State.showBacklog_kept
    | with_reducible apply State.nandLost_kept
    | with_reducible apply State.nandReport_kept
    | with_reducible apply State.nandWrite_kept
    | intro _
    | split
    | with_reducible apply kept_fold
    | with_reducible apply kept_fold1
    | with_reducible apply kept_foldW
    | with_reducible apply kept_foldW1
    | with_reducible apply kept_foldH
    | with_reducible apply kept_foldH1
    | with_reducible refine kept_fst ?_ (by with_reducible assumption)
    | with_reducible refine kept_fstW ?_ (by with_reducible assumption)
    | with_reducible refine kept_fstH ?_ (by with_reducible assumption)
    | (simp only [↓kept_mk]; with_reducible refine kept_of ?_))

theorem execWearLevelRelocation_kept {a0 : List NandReport} {a1 : State} (ha1 : (a1).kept qs u = true) :
    ∀ t, @execWearLevelRelocation a1 a0 = .next t → t.kept qs u = true := by
  unfold execWearLevelRelocation
  refine live_kept ha1 ?_
  try dsimp only
  repeat' (first
    | with_reducible assumption
    | with_reducible apply State.count_kept
    | with_reducible apply State.nandRelocate_kept
    | intro _
    | split
    | with_reducible apply kept_fold
    | with_reducible apply kept_fold1
    | with_reducible apply kept_foldW
    | with_reducible apply kept_foldW1
    | with_reducible apply kept_foldH
    | with_reducible apply kept_foldH1
    | with_reducible refine kept_fst ?_ (by with_reducible assumption)
    | with_reducible refine kept_fstW ?_ (by with_reducible assumption)
    | with_reducible refine kept_fstH ?_ (by with_reducible assumption)
    | (simp only [↓kept_mk]; with_reducible refine kept_of ?_))

theorem execReadDisturbCopy_kept {a0 : Fin 16} {a1 : Nat} {a2 : Nat} {a3 : List NandReport} {a4 : State} (ha4 : (a4).kept qs u = true) :
    ∀ t, @execReadDisturbCopy a0 a1 a4 a2 a3 = .next t → t.kept qs u = true := by
  unfold execReadDisturbCopy
  refine live_kept ha4 ?_
  try dsimp only
  repeat' (first
    | with_reducible assumption
    | with_reducible apply State.count_kept
    | with_reducible apply State.nandRelocate_kept
    | intro _
    | split
    | with_reducible apply kept_fold
    | with_reducible apply kept_fold1
    | with_reducible apply kept_foldW
    | with_reducible apply kept_foldW1
    | with_reducible apply kept_foldH
    | with_reducible apply kept_foldH1
    | with_reducible refine kept_fst ?_ (by with_reducible assumption)
    | with_reducible refine kept_fstW ?_ (by with_reducible assumption)
    | with_reducible refine kept_fstH ?_ (by with_reducible assumption)
    | (simp only [↓kept_mk]; with_reducible refine kept_of ?_))

theorem State.placeGranules_kept {a0 : State} {a1 : Nat} {a2 : Bool} {a3 : Bool} {a4 : Option Nat} {a5 : List (Nat × Bool)} (ha0 : (a0).kept qs u = true) :
    (@State.placeGranules a0 a1 a2 a3 a4 a5).1.kept qs u = true := by
  unfold State.placeGranules
  try dsimp only
  repeat' (first
    | with_reducible assumption
    | with_reducible apply State.tick_kept
    | intro _
    | split
    | with_reducible apply kept_fold
    | with_reducible apply kept_fold1
    | with_reducible apply kept_foldW
    | with_reducible apply kept_foldW1
    | with_reducible apply kept_foldH
    | with_reducible apply kept_foldH1
    | with_reducible refine kept_fst ?_ (by with_reducible assumption)
    | with_reducible refine kept_fstW ?_ (by with_reducible assumption)
    | with_reducible refine kept_fstH ?_ (by with_reducible assumption)
    | (simp only [↓kept_mk]; with_reducible refine kept_of ?_))

theorem State.zeroEnts_kept {a0 : State} {a1 : Nat} {a2 : List XEntry} (ha0 : (a0).kept qs u = true) :
    (@State.zeroEnts a0 a1 a2).kept qs u = true := by
  unfold State.zeroEnts
  try dsimp only
  repeat' (first
    | with_reducible assumption
    | with_reducible apply State.zeroPhys_kept
    | intro _
    | split
    | with_reducible apply kept_fold
    | with_reducible apply kept_fold1
    | with_reducible apply kept_foldW
    | with_reducible apply kept_foldW1
    | with_reducible apply kept_foldH
    | with_reducible apply kept_foldH1
    | with_reducible refine kept_fst ?_ (by with_reducible assumption)
    | with_reducible refine kept_fstW ?_ (by with_reducible assumption)
    | with_reducible refine kept_fstH ?_ (by with_reducible assumption)
    | (simp only [↓kept_mk]; with_reducible refine kept_of ?_))

end Sys2Proof.Machine
end

