-- ==== Sys2Proof/Laws/Plinth.lean ====
section
/-! SUPPORT. The Plinth array: what an operation cut short leaves alone, and what the scan of markers sets. -/

namespace Sys2Proof.Machine

-- One declaration after another: the package as one text then stays within the memory its check allows.
set_option Elab.async false

theorem State.plTorn_erase {s : State} {o : PlOp} (he : o.erase = true) : ∃ bs : Bytes, bs.length = plBlock
    ∧ s.plTorn o = { s.tick with plArray := memWrite erasedByte s.plArray (o.block * plBlock) bs } :=
  ⟨s.freeBytes plBlock, by simp only [State.freeBytes, List.length_map, List.length_range], by unfold State.plTorn; exact if_pos he⟩

theorem State.plTorn_program {s : State} {o : PlOp} (he : ¬ o.erase = true) :
    ∃ bs : Bytes, bs.length ≤ 32 ∧ s.plTorn o = { s.tick with plArray := memWrite erasedByte s.plArray (32 * o.line) bs } := by
  unfold State.plTorn; rw [if_neg he]
  refine ⟨_, ?_, rfl⟩
  simp only [State.plPart, List.length_zipWith, memRead, List.length_map, List.length_range, State.freeBytes]
  omega

/-- An operation cut short changes the array alone, and there its block or line alone. -/
theorem State.plTorn_frame {s : State} {o : PlOp} {a : Nat} (h : s.canon = true)
    (ha : if o.erase then a / plBlock ≠ o.block else a / 32 ≠ o.line) :
    memByte erasedByte (s.plTorn o).plArray a = memByte erasedByte s.plArray a := by
  have hp := kept_pl (kept_self h)
  by_cases he : o.erase = true
  · have hb := (if_pos he).mp ha
    obtain ⟨bs, hl, e⟩ := State.plTorn_erase (s := s) he
    rw [e]
    refine memByte_memWrite_outside _ _ hp ?_
    rw [hl]
    have e : plBlock = 131072 := rfl
    rw [e] at hb ⊢
    omega
  · have hb := (if_neg he).mp ha
    obtain ⟨bs, hl, e⟩ := State.plTorn_program (s := s) he
    rw [e]
    exact memByte_memWrite_outside _ _ hp (by omega)

theorem State.plTorn_eq (s : State) (o : PlOp) :
    s.plTorn o = { s with free := (s.plTorn o).free, plArray := (s.plTorn o).plArray } := by
  by_cases he : o.erase = true
  · obtain ⟨bs, hl, e⟩ := State.plTorn_erase (s := s) he
    rw [e]; rfl
  · obtain ⟨bs, hl, e⟩ := State.plTorn_program (s := s) he
    rw [e]; rfl

theorem State.plTorn_all_eq {l : List PlOp} {s : State} : l.foldl State.plTorn s
    = { s with free := (l.foldl State.plTorn s).free, plArray := (l.foldl State.plTorn s).plArray } := by
  induction l generalizing s with
  | nil => rfl
  | cons o l ih =>
    rw [List.foldl_cons, ih]
    generalize l.foldl State.plTorn (s.plTorn o) = x
    rw [State.plTorn_eq s o]

theorem State.plTorn_all_frame {l : List PlOp} {s : State} {a : Nat} (h : s.canon = true)
    (ha : ∀ o ∈ l, if o.erase then a / plBlock ≠ o.block else a / 32 ≠ o.line) :
    memByte erasedByte (l.foldl State.plTorn s).plArray a = memByte erasedByte s.plArray a := by
  induction l generalizing s with
  | nil => rfl
  | cons o l ih =>
    rw [List.foldl_cons, ih (canon_of_kept (State.plTorn_kept (kept_self h))) (fun o h => ha o (List.mem_cons_of_mem _ h)),
      State.plTorn_frame h (ha o List.mem_cons_self)]

/-- The scan of markers (R315): the bits of marked blocks are set, the others stay, and nothing else changes. -/
theorem State.scan_marks {l : SMap Bool} {s : State} (hw : smapWf resetOf s.regs = true) (hl : ∀ e ∈ l, e.1 < 512) :
    smapWf resetOf (l.foldl (fun (s : State) e => s.setBit (PL_INDET (e.1 / 32)) (e.1 % 32) true) s).regs = true
    ∧ { l.foldl (fun (s : State) e => s.setBit (PL_INDET (e.1 / 32)) (e.1 % 32) true) s with regs := s.regs } = s
    ∧ (∀ b, s.plIndet b = true → (l.foldl (fun (s : State) e => s.setBit (PL_INDET (e.1 / 32)) (e.1 % 32) true) s).plIndet b = true)
    ∧ (∀ e ∈ l, (l.foldl (fun (s : State) e => s.setBit (PL_INDET (e.1 / 32)) (e.1 % 32) true) s).plIndet e.1 = true)
    ∧ ∀ a, (∀ w < 16, a ≠ PL_INDET w) →
        (l.foldl (fun (s : State) e => s.setBit (PL_INDET (e.1 / 32)) (e.1 % 32) true) s).reg a = s.reg a := by
  induction l generalizing s with
  | nil => exact ⟨hw, rfl, fun _ h => h, fun _ h => absurd h List.not_mem_nil, fun _ _ => rfl⟩
  | cons e l ih =>
    have hw' : smapWf resetOf (s.setBit (PL_INDET (e.1 / 32)) (e.1 % 32) true).regs = true := State.setField_wf _ _ _ _ hw
    have hstep : ∀ b, (s.plIndet b = true ∨ b = e.1) → (s.setBit (PL_INDET (e.1 / 32)) (e.1 % 32) true).plIndet b = true := by
      intro b hb
      unfold State.plIndet at *
      by_cases hwd : b / 32 = e.1 / 32
      · by_cases hbt : b % 32 = e.1 % 32
        · rw [hwd, hbt]; exact State.regBit_setBit_same _ _ _ hw (by omega)
        · rw [hwd] at hb ⊢
          rw [State.regBit_setBit_other _ _ hw hbt (by omega)]
          exact hb.resolve_right (by intro h; subst h; exact hbt rfl)
      · have : PL_INDET (b / 32) ≠ PL_INDET (e.1 / 32) := by unfold PL_INDET; omega
        rw [State.regBit_setBit_elsewhere _ _ _ hw this]
        exact hb.resolve_right (by intro h; subst h; exact hwd rfl)
    obtain ⟨h1, h2, h3, h4, h5⟩ := ih hw' (fun e h => hl e (List.mem_cons_of_mem _ h))
    refine ⟨h1, ?_, fun b hb => h3 b (hstep b (.inl hb)), fun f hf => ?_, fun a ha => ?_⟩
    · rw [List.foldl_cons]
      generalize l.foldl _ _ = x at h2 ⊢
      have := congrArg (fun (y : State) => { y with regs := s.regs }) h2
      exact this
    · rcases List.mem_cons.1 hf with rfl | hf
      · exact h3 _ (hstep _ (.inr rfl))
      · exact h4 f hf
    · rw [List.foldl_cons, h5 a ha]
      have : a ≠ PL_INDET (e.1 / 32) := ha _ (by have := hl e List.mem_cons_self; omega)
      exact State.reg_setField_other _ _ _ hw this

/-! What the array's operations touch. -/

/-- A state is another, but for the array, its banks and buffers, registers and the free counter. -/
def OnArray (s og : State) : Prop :=
  { s with
    regs := og.regs, free := og.free, plArray := og.plArray, plEc := og.plEc, plMark := og.plMark, plBank0 := og.plBank0, plBank1 := og.plBank1
    plPrefetch := og.plPrefetch, plBranch := og.plBranch, plLast := og.plLast, plFetch := og.plFetch } = og

theorem OnArray.self (s : State) : OnArray s s := rfl

theorem OnArray.trans {s m og : State} (h1 : OnArray s m) (h2 : OnArray m og) : OnArray s og :=
  (congrArg (fun x : State => ({ x with
    regs := og.regs, free := og.free, plArray := og.plArray, plEc := og.plEc, plMark := og.plMark, plBank0 := og.plBank0, plBank1 := og.plBank1
    plPrefetch := og.plPrefetch, plBranch := og.plBranch, plLast := og.plLast, plFetch := og.plFetch } : State)) h1 : _).trans h2

theorem OnArray.fold {α : Type} {og : State} {f : State → α → State} {l : List α} (hf : ∀ s a, OnArray (f s a) s) :
    ∀ {s : State}, OnArray s og → OnArray (l.foldl f s) og := by
  induction l with
  | nil => exact fun h => h
  | cons a l ih => exact fun h => ih ((hf _ a).trans h)

theorem setBit_array {u og : State} (a n : Nat) (v : Bool) (h : OnArray u og) : OnArray (u.setBit a n v) og := h

theorem setField_array {u og : State} (a hi lo v : Nat) (h : OnArray u og) : OnArray (u.setField a hi lo v) og := h

theorem bank0_array {u og : State} (k : PlBank) (h : OnArray u og) : OnArray { u with plBank0 := k } og := h

theorem bank1_array {u og : State} (k : PlBank) (h : OnArray u og) : OnArray { u with plBank1 := k } og := h

theorem plShow_array (s : State) (b : Nat) : OnArray (s.plShow b) s := by
  have h : OnArray ((s.setBit (plStat b) 0 ((s.plBank b).op.any fun o => !o.susp)).setBit (plStat b) 1 ((s.plBank b).op.any (fun o => o.susp) || (s.plBank b).held.isSome)) s :=
    setBit_array _ _ _ (setBit_array _ _ _ (OnArray.self s))
  unfold State.plShow
  dsimp only
  generalize (s.setBit (plStat b) 0 ((s.plBank b).op.any fun o => !o.susp)).setBit (plStat b) 1 ((s.plBank b).op.any (fun o => o.susp) || (s.plBank b).held.isSome) = t at h ⊢
  cases (s.plBank b).op with
  | none => exact h
  | some o => exact setField_array _ _ _ _ (setField_array _ _ _ _ (setBit_array _ _ _ h))

theorem setPlBank_array (s : State) (b : Nat) (k : PlBank) : OnArray (s.setPlBank b k) s := by
  unfold State.setPlBank
  refine (plShow_array _ b).trans ?_
  split
  · rfl
  · rfl

theorem plStart_array (s : State) (b : Nat) (o : PlOp) : OnArray (s.plStart b o) s := by
  unfold State.plStart
  refine (setPlBank_array _ b _).trans ?_
  split
  · rfl
  · rfl

theorem plAsk_array (s : State) (b : Nat) (o : PlOp) : OnArray (s.plAsk b o) s := by
  unfold State.plAsk
  have h := setPlBank_array s b { s.plBank b with seq := .read }
  generalize s.setPlBank b { s.plBank b with seq := .read } = t at h ⊢
  dsimp only
  split
  · exact setBit_array _ _ _ h
  · have h2 : ∀ (c d : Bool) (u : State), OnArray u s →
        OnArray (if d = true then (if c = true then u.plErr b 6 else u).plErr b 7 else if c = true then u.plErr b 6 else u) s := by
      intro c d u hu
      cases c <;> cases d <;> exact hu
    have h2 := h2 (t.plLocked o.block) (!o.erase && t.plIndet o.block) t h
    split
    · exact h2
    · exact (plStart_array _ b o).trans h2

theorem plServe_array (s : State) (a : Nat) : OnArray (s.plServe a) s := rfl

theorem plEnd_array (s : State) (b : Nat) : OnArray (s.plEnd b) s := by
  have h := setPlBank_array s b { s.plBank b with op := none, held := none }
  have h2 : ∀ (t : State), OnArray t s → ∀ h' : Option PlOp, OnArray (match h' with
      | none => t
      | some o => if b = 0 then { t.setBit (plStat b) 1 true with plBank0 := { (t.setBit (plStat b) 1 true).plBank0 with op := some o } }
        else { t.setBit (plStat b) 1 true with plBank1 := { (t.setBit (plStat b) 1 true).plBank1 with op := some o } }) s := by
    intro t h h'
    cases h' with
    | none => exact h
    | some o =>
      dsimp only
      split
      · exact bank0_array _ (setBit_array _ _ _ h)
      · exact bank1_array _ (setBit_array _ _ _ h)
  have h2 := h2 _ h (s.plBank b).held
  unfold State.plEnd
  dsimp only
  split
  · exact (plServe_array _ _).trans h2
  · exact h2

theorem plProgrammed_array (s : State) (b : Nat) (o : PlOp) (ok : Bool) : OnArray (s.plProgrammed b o ok) s := by
  unfold State.plProgrammed
  refine (plEnd_array _ b).trans ?_
  dsimp only
  split
  · cases ok <;> rfl
  · cases ok <;> rfl

theorem plEraseEnd_array (s : State) (b : Nat) (o : PlOp) : OnArray (s.plEraseEnd b o) s :=
  (plEnd_array _ b).trans rfl

/-- A program or erase that Quoin runs to its end touches the array, its banks and buffers, registers and the free counter alone. -/
theorem plNow_array (s : State) (o : PlOp) : OnArray (s.plNow o) s := by
  unfold State.plNow
  have h := plAsk_array s (o.block / 256) o
  dsimp only
  split
  · exact h
  · split
    · exact (plEraseEnd_array _ _ _).trans h
    · exact (plProgrammed_array _ _ _ _).trans h

theorem writeCopy_array (s : State) (r : Bytes) (blk : Nat) : OnArray (s.writeCopy r blk) s :=
  OnArray.fold (fun _ _ => plNow_array _ _) (plNow_array s _)

/-- Writing the records that are due touches, besides, the list of them. -/
theorem writeDue_array (s : State) : OnArray { s.writeDue with recDue := s.recDue } s := by
  unfold State.writeDue
  split
  · have h : OnArray (s.recDue.foldl (fun (s : State) r => cfgBlocks.foldl (fun s b => s.writeCopy r b) s) s) s :=
      OnArray.fold (fun u r => OnArray.fold (fun v b => writeCopy_array v r b) (OnArray.self u)) (OnArray.self s)
    have e : (s.recDue.foldl (fun (s : State) r => cfgBlocks.foldl (fun s b => s.writeCopy r b) s) s).recDue = s.recDue := (congrArg State.recDue h :)
    generalize s.recDue.foldl (fun (s : State) r => cfgBlocks.foldl (fun s b => s.writeCopy r b) s) s = t at h e ⊢
    rw [← e]
    exact h
  · rfl

end Sys2Proof.Machine
end

