-- ==== Sys2Proof/Laws/Steps.lean ====
section
/-! SUPPORT. Small facts that the claims about single commands share. -/

namespace Sys2Proof.Machine

-- One declaration after another: the package as one text then stays within the memory its check allows.
set_option Elab.async false

/-- A state is another but for registers and the free counter. -/
def calm (s og : State) : Prop := ∃ r k, s = { og with regs := r, free := k }

theorem calm_self (s : State) : calm s s := ⟨s.regs, s.free, rfl⟩

theorem calm_setRegN {s og : State} (a v : Nat) (h : calm s og) : calm (s.setRegN a v) og := by
  obtain ⟨r, k, rfl⟩ := h; exact ⟨_, _, rfl⟩

theorem calm_tick {s og : State} (h : calm s og) : calm s.tick og := by
  obtain ⟨r, k, rfl⟩ := h; exact ⟨_, _, rfl⟩

theorem calm_count {s og : State} (a v : Nat) (h : calm s og) : calm (s.count a v) og := by
  obtain ⟨r, k, rfl⟩ := h; exact ⟨_, _, rfl⟩

theorem calm_touch {s og : State} (tier : Tier) (h : calm s og) : calm (s.touch tier) og := by
  unfold State.touch
  cases tier
  · exact h
  · exact calm_setRegN _ _ h

theorem calm_log {s og : State} (tier : Tier) (a : Nat) (h : calm s og) : calm (s.logPoison tier a) og := by
  unfold State.logPoison
  cases tier
  · exact calm_setRegN _ _ h
  · exact h

theorem calm_access {s og : State} (who : Who) (tier : Tier) (off n : Nat) (wr : Bool) (h : calm s og) :
    calm (s.access who tier off n wr).1 og := by
  unfold State.access
  dsimp only
  refine foldl_keeps (P := fun x : Access => calm x.1 og) h ?_
  rintro ⟨s, r⟩ a _ hx
  dsimp only at hx ⊢
  cases r with
  | error e => exact hx
  | ok l =>
    dsimp only
    split
    · exact hx
    · split
      · exact calm_touch _ hx
      · split
        · exact calm_log _ _ (calm_touch _ hx)
        · exact calm_touch _ hx

theorem calm_readFor {s og : State} (who : Who) (tier : Tier) (off n : Nat) (h : calm s og) :
    calm (s.readFor who tier off n).1 og := by
  unfold State.readFor
  have := calm_access who tier off n false h
  split <;> (rename_i e; rw [e] at this; exact this)

theorem field_of {s t : State} {a hi lo : Nat} (h : t.reg a = s.reg a) : t.field a hi lo = s.field a hi lo := by
  unfold State.field State.regN
  rw [h]

theorem regBit_of {s t : State} {a n : Nat} (h : t.reg a = s.reg a) : t.regBit a n = s.regBit a n := by
  unfold State.regBit State.regN; rw [h]

theorem mark_of {t s : State} (h : t.marks = s.marks) (n : Nat) : t.mark n = s.mark n := by unfold State.mark; rw [h]

theorem reg_of {t s : State} (h : t.regs = s.regs) (n : Nat) : t.reg n = s.reg n := by unfold State.reg; rw [h]

theorem setRegN_word (s : State) (a : Nat) (w : Word) : s.setRegN a w.toNat = s.setReg a (w.setWidth 64) := by
  unfold State.setRegN
  rw [BitVec.ofNat_toNat]

theorem signal_facts {s : State} (hw : smapWf resetOf s.regs = true) (hm : smapWf (fun _ => (0 : DWord)) s.marks = true) (n inc : Nat) :
    let t := s.signalMark n inc false
    t.mark n = s.mark n + BitVec.ofNat 64 inc ∧ (∀ m, m ≠ n → t.mark m = s.mark m) ∧ (∀ a, a ≠ MK_SIG_CNT → t.reg a = s.reg a)
      ∧ { t with marks := s.marks, regs := s.regs, markPtr := s.markPtr, relHead := s.relHead } = s := by
  refine ⟨State.mark_setMark_same n _ hm, fun m h => State.mark_setMark_other _ hm h, fun a ha => ?_, rfl⟩
  exact State.reg_count_other (s := (s.markServed n portSignals).setMark n (s.mark n + BitVec.ofNat 64 inc)) 1 hw ha

theorem chip_putFlight (v : State) (g : Flight) : (v.putFlight g).chip = v.chip := rfl

/-- The descriptor that a failed access has ended early (R83). -/
def Flight.early (f : Flight) (c d : Nat) : Flight :=
  { f.addCode c d with
    strict := true, outRec := []
    phase := if !f.outRec.isEmpty || (decide (f.phase = .dispatched) && f.started && !f.hasRecs) then .ran else f.phase }

theorem endEarly_facts {v : State} {id c p : Nat} {tier : Tier} {g : Flight} (hg : v.flight id = some g) :
    ∃ t, v.endEarly id c tier p = t ∧ (∀ fl, { t with flights := fl } = { v with flights := fl })
      ∧ t.flight id = some (g.early c (gaOf v.chip tier.space (v.tenantOff g.tenant tier p))) ∧ ∀ j, j ≠ id → t.flight j = v.flight j := by
  have hid := State.flight_id hg
  refine ⟨_, State.onFlight_some hg _, fun _ => rfl, State.flight_putFlight_same hg rfl, fun j hj => ?_⟩
  exact State.flight_putFlight_other (fun e => hj (e.trans hid))

theorem quarry_run {s : State} {id op : Nat} {f : Flight} {body : Flight → Work → Work} (hf : s.flight id = some f) (hp : f.phase = .dispatched)
    (hc : dClass f.desc = 6) (ho : dOp f.desc = op) (ht : s.quarryTurn f = true) :
    s.quarry id op body = (body f (Work.start s f.tenant f.strict)).settle f := by
  unfold State.quarry
  exact State.runFlight_ready hf hp hc ho ht

theorem quiet_ok {u : State} {f : Flight} (t : Nat) (st : Bool) : ∃ n, (Work.start u t st).settle f
    = { u with free := n }.putFlight { f with phase := .ran, issued := true, started := true, late := [], outRec := [], codes := f.codes ++ [] } := by
  obtain ⟨n, hn⟩ := Work.settle_quiet (w := Work.start u t st) f rfl
  refine ⟨n, hn.trans ?_⟩
  unfold Work.flightOf Work.start
  simp

theorem quiet_bad {u : State} {f : Flight} (t : Nat) (st : Bool) (c d : Nat) : ∃ n, ((Work.start u t st).fail c d).settle f
    = { u with free := n }.putFlight { f with phase := .ran, issued := true, started := true, late := [], outRec := [], codes := f.codes ++ [(BitVec.ofNat 16 c, BitVec.ofNat 64 d)] } := by
  obtain ⟨n, hn⟩ := Work.settle_quiet (w := (Work.start u t st).fail c d) f rfl
  refine ⟨n, hn.trans ?_⟩
  unfold Work.flightOf Work.fail Work.start
  simp

theorem start_run {s : State} {id op : Nat} {f : Flight} {ready : Flight → Bool} {act : Flight → State → State × Option (Nat × Nat)}
    (hf : s.flight id = some f) (hp : f.phase = .dispatched) (hc : dClass f.desc = 6) (ho : dOp f.desc = op) (ht : s.quarryTurn f = true)
    (hr : ready f = true) :
    s.quarryStart id op ready act = (match act f s with
      | (s, some (c, d)) => s.putFlight { f.endWith c d with issued := true }
      | (s, none) => s.putFlight { f with phase := .running, issued := true }) := by
  unfold State.quarryStart
  exact (State.onFlight_some hf _).trans (if_pos ⟨hp, hc, ho, ht, hr⟩)

theorem bits_low (v n : Nat) : bits v n 0 = v % 2 ^ (n + 1) := by
  unfold bits
  rw [Nat.pow_zero, Nat.div_one, Nat.sub_zero]

theorem gaBed (c o : Nat) : gaOf c spBed o = c * 2 ^ 52 + o := by
  simp [gaOf, place, spBed]

theorem filter_all {α : Type} {l : List α} {p : α → Bool} (h : ∀ a ∈ l, p a = true) : l.filter p = l := List.filter_eq_self.2 h

theorem filter_no {α : Type} {l : List α} {p : α → Bool} (h : ∀ a ∈ l, p a = false) : l.filter p = [] := by
  rw [List.filter_eq_nil_iff]; intro a ha; rw [h a ha]; simp

/-- Clearing physical memory, and filling the entries of a tensor, change memory alone. -/
theorem zeroPhys_frame {og s : State} (tier : Tier) (key off n : Nat) (h : ∃ m, s = og.memFrom m) :
    ∃ m, s.zeroPhys tier key off n = og.memFrom m := by
  obtain ⟨m, rfl⟩ := h
  unfold State.zeroPhys
  cases tier
  · exact frame_of rfl
  · exact frame_of rfl

theorem fillEnts_frame (s : State) (t base : Nat) (es : List XEntry) (cells : List Host.Cell) :
    ∃ m, s.fillEnts t base es cells = s.memFrom m := by
  unfold State.fillEnts State.zeroEnts
  dsimp only
  refine foldl_keeps (P := fun u : State => ∃ m, u = s.memFrom m) ?_ ?_
  · refine foldl_keeps (P := fun u : State => ∃ m, u = s.memFrom m) ⟨s, rfl⟩ ?_
    intro u e _ hu
    exact zeroPhys_frame _ _ _ _ hu
  · rintro u e - ⟨m, rfl⟩
    split
    · exact frame_of rfl
    · exact frame_of rfl

/-- A read by an operation changes registers and the free counter at most. -/
theorem calm_read {w : Work} {og : State} (a n : Nat) (h : calm w.s og) : calm (w.read a n).1.s og := by
  unfold Work.read
  dsimp only
  split
  · exact h
  · split
    · unfold Work.fail; split <;> exact h
    · have := calm_readFor (.tenant w.t) ‹_› ‹_› n h
      split
      · rename_i e
        rw [e] at this
        unfold Work.fail
        split <;> exact this
      · rename_i e
        rw [e] at this
        exact this

/-! The least and the greatest of a list of numbers. -/

theorem foldl_max (l : List Nat) : ∀ x, x ≤ l.foldl max x ∧ (∀ y ∈ l, y ≤ l.foldl max x) ∧ (l.foldl max x = x ∨ l.foldl max x ∈ l) := by
  induction l with
  | nil => intro x; exact ⟨Nat.le_refl _, by simp, .inl rfl⟩
  | cons a l ih =>
    intro x
    obtain ⟨h1, h2, h3⟩ := ih (max x a)
    simp only [List.foldl_cons]
    refine ⟨by omega, fun y hy => ?_, ?_⟩
    · rcases List.mem_cons.1 hy with rfl | hy
      · omega
      · exact h2 y hy
    · rcases h3 with h3 | h3
      · rcases Nat.le_total x a with hx | hx
        · exact .inr (by rw [h3, Nat.max_eq_right hx]; exact List.mem_cons_self ..)
        · exact .inl (by rw [h3, Nat.max_eq_left hx])
      · exact .inr (List.mem_cons_of_mem _ h3)

theorem maxOr_facts (l : List Nat) : (∀ y ∈ l, y ≤ maxOr 0 l) ∧ (l ≠ [] → maxOr 0 l ∈ l) := by
  cases l with
  | nil => exact ⟨by simp, fun h => absurd rfl h⟩
  | cons a l =>
    obtain ⟨h1, h2, h3⟩ := foldl_max l a
    refine ⟨fun y hy => ?_, fun _ => ?_⟩
    · rcases List.mem_cons.1 hy with rfl | hy
      · exact h1
      · exact h2 y hy
    · show l.foldl max a ∈ a :: l
      rcases h3 with h3 | h3
      · rw [h3]; exact List.mem_cons_self ..
      · exact List.mem_cons_of_mem _ h3

theorem foldl_min (l : List Nat) : ∀ x, l.foldl min x ≤ x ∧ (∀ y ∈ l, l.foldl min x ≤ y) ∧ (l.foldl min x = x ∨ l.foldl min x ∈ l) := by
  induction l with
  | nil => intro x; exact ⟨Nat.le_refl _, by simp, .inl rfl⟩
  | cons a l ih =>
    intro x
    obtain ⟨h1, h2, h3⟩ := ih (min x a)
    simp only [List.foldl_cons]
    refine ⟨by omega, fun y hy => ?_, ?_⟩
    · rcases List.mem_cons.1 hy with rfl | hy
      · omega
      · exact h2 y hy
    · rcases h3 with h3 | h3
      · rcases Nat.le_total x a with hx | hx
        · exact .inl (by rw [h3, Nat.min_eq_left hx])
        · exact .inr (by rw [h3, Nat.min_eq_right hx]; exact List.mem_cons_self ..)
      · exact .inr (List.mem_cons_of_mem _ h3)

theorem minOr_facts (l : List Nat) (h : l ≠ []) : minOr 0 l ∈ l ∧ ∀ y ∈ l, minOr 0 l ≤ y := by
  cases l with
  | nil => exact absurd rfl h
  | cons a l =>
    obtain ⟨h1, h2, h3⟩ := foldl_min l a
    refine ⟨?_, fun y hy => ?_⟩
    · show l.foldl min a ∈ a :: l
      rcases h3 with h3 | h3
      · rw [h3]; exact List.mem_cons_self ..
      · exact List.mem_cons_of_mem _ h3
    · rcases List.mem_cons.1 hy with rfl | hy
      · exact h1
      · exact h2 y hy


theorem smapFind_insert_same {β : Type} (m : SMap β) (k : Nat) (v : β) : smapFind (smapInsert m k v) k = some v := by
  induction m with
  | nil => simp [smapInsert, smapFind]
  | cons e m ih =>
    obtain ⟨a, x⟩ := e
    simp only [smapInsert]
    split
    · simp [smapFind]
    · split
      · simp [smapFind]
      · simp only [smapFind]
        rw [if_neg (by assumption), if_neg (by assumption)]
        exact ih

theorem pick_some {α : Type} {l : List α} (h : l ≠ []) (n : Nat) : ∃ x ∈ l, l[n % max 1 l.length]? = some x := by
  have hl : 0 < l.length := List.length_pos_iff.2 h
  have hi : n % max 1 l.length < l.length := by
    rw [Nat.max_eq_right hl]
    exact Nat.mod_lt _ hl
  exact ⟨l[n % max 1 l.length], List.getElem_mem hi, List.getElem?_eq_getElem hi⟩

end Sys2Proof.Machine
end

