-- ==== Sys2Proof/Laws/PlinthSeq.lean ====
section
/-! SUPPORT. The Plinth's writes one at a time: what each write does to a bank on the way of a command sequence, what asking
for an operation answers, what the array's bytes are after a write, and how an operation ends. -/

namespace Sys2Proof.Machine

-- One declaration after another: the package as one text then stays within the memory its check allows.
set_option Elab.async false

theorem bit_low (x y k m : Nat) (hm : m < k) (h : x % 2 ^ k = y % 2 ^ k) : bit x m = bit y m := by
  have e : ∀ z : Nat, bit z m = (z % 2 ^ k).testBit m := by
    intro z
    rw [bit_eq_testBit, Nat.testBit_mod_two_pow]
    simp [hm]
  rw [e, e, h]

theorem replace_low (r hi lo v : Nat) : (r - place (bits r hi lo) lo + place (v % 2 ^ (hi + 1 - lo)) lo) % 2 ^ lo = r % 2 ^ lo := by
  unfold place bits
  have h1 : r / 2 ^ lo % 2 ^ (hi + 1 - lo) * 2 ^ lo ≤ r :=
    Nat.le_trans (Nat.mul_le_mul_right _ (Nat.mod_le _ _)) (Nat.div_mul_le_self r (2 ^ lo))
  rw [Nat.add_mul_mod_self_right]
  generalize r / 2 ^ lo % 2 ^ (hi + 1 - lo) = q at *
  have : r = (r - q * 2 ^ lo) + q * 2 ^ lo := by omega
  conv => rhs; rw [this, Nat.add_mul_mod_self_right]

theorem State.regBit_setField_below {s : State} (a hi lo v : Nat) {m : Nat} (h : smapWf resetOf s.regs = true) (hm : m < lo) (h63 : m ≤ 63) :
    (s.setField a hi lo v).regBit a m = s.regBit a m := by
  unfold State.regBit State.setField
  rw [State.regN_modReg_same a _ h]
  have e := bit_low _ _ lo m hm (replace_low (s.regN a) hi lo v)
  refine Eq.trans ?_ e
  have e2 : ∀ x : Nat, bit (x % 2 ^ 64) m = bit x m := fun x => bit_low _ _ 64 m (by omega) (Nat.mod_mod x (2 ^ 64))
  rw [e2]

/-- The sequence of a Plinth bank has come to a point, and nothing else has changed but its status word. -/
def AtSeq (s : State) (b : Nat) (q : PlSeq) (t : State) : Prop :=
  smapWf resetOf t.regs = true ∧ (∀ r, r ≠ plStat b → t.reg r = s.reg r) ∧ t.plBank b = { s.plBank b with seq := q }
    ∧ t.plBank (1 - b) = s.plBank (1 - b) ∧ { t with regs := s.regs, plBank0 := s.plBank0, plBank1 := s.plBank1 } = s

theorem regs_frame {u v : State} (h : { v with regs := u.regs } = u) (a hi lo x : Nat) : { v.setField a hi lo x with regs := u.regs } = u := h

theorem regs_frame1 {u v : State} (h : { v with regs := u.regs } = u) (a n : Nat) (x : Bool) : { v.setBit a n x with regs := u.regs } = u := h

theorem plShow_facts (u : State) (b : Nat) (hw : smapWf resetOf u.regs = true) :
    smapWf resetOf (u.plShow b).regs = true ∧ (∀ r, r ≠ plStat b → (u.plShow b).reg r = u.reg r) ∧ { u.plShow b with regs := u.regs } = u
      ∧ ((u.plBank b).op.any (fun o => !o.susp) = true → (u.plShow b).regBit (plStat b) 0 = true) := by
  have w1 := State.setBit_wf (s := u) (plStat b) 0 ((u.plBank b).op.any fun o => !o.susp) hw
  have w2 := State.setBit_wf (plStat b) 1 ((u.plBank b).op.any (fun o => o.susp) || (u.plBank b).held.isSome) w1
  unfold State.plShow
  dsimp only
  cases hop : (u.plBank b).op with
  | none =>
    rw [hop] at w1 w2
    dsimp only
    refine ⟨w2, fun r hr => ?_, rfl, fun e => by simp at e⟩
    rw [State.reg_setBit_other _ _ w1 hr, State.reg_setBit_other _ _ hw hr]
  | some o =>
    rw [hop] at w1 w2
    dsimp only
    have w3 := State.setBit_wf (plStat b) 2 o.auto w2
    have w4 := State.setField_wf (plStat b) 15 8 (if o.erase then 0x30 else 0xA0) w3
    refine ⟨State.setField_wf _ _ _ _ w4, fun r hr => ?_, ?_, fun e => ?_⟩
    · rw [State.reg_setField_other _ _ _ w4 hr, State.reg_setField_other _ _ _ w3 hr, State.reg_setBit_other _ _ w2 hr,
        State.reg_setBit_other _ _ w1 hr, State.reg_setBit_other _ _ hw hr]
    · exact regs_frame (regs_frame (regs_frame1 (regs_frame1 (regs_frame1 rfl _ _ _) _ _ _) _ _ _) _ _ _ _) _ _ _ _
    · rw [State.regBit_setField_below _ _ _ _ w4 (by omega) (by omega), State.regBit_setField_below _ _ _ _ w3 (by omega) (by omega),
        State.regBit_setBit_other _ _ w2 (by omega) (by omega), State.regBit_setBit_other _ _ w1 (by omega) (by omega),
        State.regBit_setBit_same _ _ _ hw (by omega)]
      exact e

theorem setPl_facts (u : State) {b : Nat} (hb : b = 0 ∨ b = 1) (k : PlBank) (hw : smapWf resetOf u.regs = true) :
    let t := u.setPlBank b k
    smapWf resetOf t.regs = true ∧ (∀ r, r ≠ plStat b → t.reg r = u.reg r) ∧ t.plBank b = k ∧ t.plBank (1 - b) = u.plBank (1 - b)
      ∧ { t with regs := u.regs, plBank0 := u.plBank0, plBank1 := u.plBank1 } = u
      ∧ (k.op.any (fun o => !o.susp) = true → t.regBit (plStat b) 0 = true) := by
  intro t
  have ht : t = (if b = 0 then { u with plBank0 := k } else { u with plBank1 := k }).plShow b := rfl
  rcases hb with rfl | rfl
  · obtain ⟨h1, h2, h3, h4⟩ := plShow_facts { u with plBank0 := k } 0 hw
    rw [if_pos rfl] at ht
    rw [ht]
    generalize State.plShow { u with plBank0 := k } 0 = v at h1 h2 h3 h4
    exact ⟨h1, h2, (congrArg State.plBank0 h3 :), (congrArg State.plBank1 h3 :),
      (congrArg (fun x : State => ({ x with plBank0 := u.plBank0, plBank1 := u.plBank1 } : State)) h3 :), h4⟩
  · obtain ⟨h1, h2, h3, h4⟩ := plShow_facts { u with plBank1 := k } 1 hw
    rw [if_neg (by omega)] at ht
    rw [ht]
    generalize State.plShow { u with plBank1 := k } 1 = v at h1 h2 h3 h4
    exact ⟨h1, h2, (congrArg State.plBank1 h3 :), (congrArg State.plBank0 h3 :),
      (congrArg (fun x : State => ({ x with plBank0 := u.plBank0, plBank1 := u.plBank1 } : State)) h3 :), h4⟩

theorem frame_pl {s t v : State} (h1 : { t with regs := s.regs, plBank0 := s.plBank0, plBank1 := s.plBank1 } = s)
    (h2 : { v with regs := t.regs, plBank0 := t.plBank0, plBank1 := t.plBank1 } = t) :
    { v with regs := s.regs, plBank0 := s.plBank0, plBank1 := s.plBank1 } = s :=
  (congrArg (fun x : State => ({ x with regs := s.regs, plBank0 := s.plBank0, plBank1 := s.plBank1 } : State)) h2 :).trans h1

theorem at_set {s t : State} {b : Nat} {q : PlSeq} (hb : b = 0 ∨ b = 1) (q' : PlSeq) (h : AtSeq s b q t) :
    AtSeq s b q' (t.setPlBank b { t.plBank b with seq := q' }) := by
  obtain ⟨h1, h2, h3, h4, h5⟩ := h
  obtain ⟨g1, g2, g3, g4, g5, -⟩ := setPl_facts t hb { t.plBank b with seq := q' } h1
  refine ⟨g1, fun r hr => (g2 r hr).trans (h2 r hr), ?_, g4.trans h4, frame_pl h5 g5⟩
  rw [g3, h3]

/-- What a write does to a bank that is not busy. -/
def plAct (s : State) (b a off v : Nat) : State :=
  let k := s.plBank b
  let into (q : PlSeq) : State := s.setPlBank b { k with seq := q }
  let suspended := k.op.any fun o => o.susp
  match k.seq with
  | .prog auto base words =>
    let cont := if words.isEmpty then decide (a % 32 = 0) else decide (a = base + 4 * words.length)
    let line := if words.isEmpty then a else base
    let words := words ++ [BitVec.ofNat 32 v]
    if !cont then (if v ≠ 0xF0 then s.plBreak b else if suspended then s else into .read)
    else if words.length < 8 then into (.prog auto line words)
    else s.plAsk b (plOpOf false line (words.flatMap fun w => leBytes 4 w.toNat) auto)
  | q =>
    if v = 0xF0 then (if suspended then s else into .read)
    else if v = 0xAA ∧ off = 0x1554 ∧ q = .read then into .u1
    else if v = 0xAA ∧ off = 0x1554 ∧ q = .er1 then into .er2
    else if v = 0x55 ∧ off = 0x0AA8 ∧ q = .u1 then into .u2
    else if v = 0x55 ∧ off = 0x0AA8 ∧ q = .er2 then into .er3
    else if (v = 0xA0 ∨ v = 0xA1) ∧ off = 0x1554 ∧ q = .u2 then into (.prog (decide (v = 0xA1)) 0 [])
    else if v = 0x80 ∧ off = 0x1554 ∧ q = .u2 then into .er1
    else if (v = 0x30 ∨ v = 0x31) ∧ q = .er3 then s.plAsk b (plOpOf true a [] (decide (v = 0x31)))
    else if q ≠ .read then s.plBreak b
    else if v = 0xB0 then s.plSuspend b
    else if v = 0xD0 then s.plResume b
    else if v = 0x50 then s.setField (plStat b) 7 3 0
    else s.plBreak b

theorem plWrite_gen (s : State) {addr a b off : Nat} (v : Nat) (h : ¬ (addr < plBase ∨ plBase + 2 * plBankBytes ≤ addr)) (ha : addr - plBase = a)
    (hb : a / plBankBytes = b) (ho : a % plBankBytes = off) :
    s.plWrite addr v = if a % 4 ≠ 0 then (if s.plBusy b then s.plErr b 5 else s.plBreak b)
      else if s.plBusy b then (if v = 0xB0 then s.plSuspend b else s.plErr b 5) else plAct s b a off v := by
  subst hb ho
  unfold State.plWrite
  rw [if_neg h, ha]
  rfl

theorem plWrite_in (s : State) {b off : Nat} (hb : b = 0 ∨ b = 1) (ho : off < 0x2000000) (v : Nat) :
    s.plWrite (0x20000000 + b * 0x2000000 + off) v = if off % 4 ≠ 0 then (if s.plBusy b then s.plErr b 5 else s.plBreak b)
      else if s.plBusy b then (if v = 0xB0 then s.plSuspend b else s.plErr b 5) else plAct s b (b * 0x2000000 + off) off v := by
  have := plWrite_gen s (addr := 0x20000000 + b * 0x2000000 + off) (a := b * 0x2000000 + off) (b := b) (off := off) v
    (by unfold plBase plBankBytes; omega) (by unfold plBase; omega) (by unfold plBankBytes; omega) (by unfold plBankBytes; omega)
  rw [this]
  have e4 : (b * 0x2000000 + off) % 4 = off % 4 := by omega
  rw [e4]

theorem busy_at {s t : State} {b : Nat} {q : PlSeq} (h : AtSeq s b q t) (hn : s.plBusy b = false) : t.plBusy b = false := by
  unfold State.plBusy at *
  rw [h.2.2.1]
  exact hn

theorem plAct_read (t : State) {b a off v : Nat} (hq : (t.plBank b).seq = .read) (ho : off = 0x1554) (hv : v = 0xAA) :
    plAct t b a off v = t.setPlBank b { t.plBank b with seq := .u1 } := by
  subst ho hv
  unfold plAct
  dsimp only
  rw [hq]
  simp

theorem plAct_u1 (t : State) {b a off v : Nat} (hq : (t.plBank b).seq = .u1) (ho : off = 0x0AA8) (hv : v = 0x55) :
    plAct t b a off v = t.setPlBank b { t.plBank b with seq := .u2 } := by
  subst ho hv
  unfold plAct
  dsimp only
  rw [hq]
  simp

theorem plAct_u2p (t : State) {b a off v : Nat} (auto : Bool) (hq : (t.plBank b).seq = .u2) (ho : off = 0x1554) (hv : v = if auto then 0xA1 else 0xA0) :
    plAct t b a off v = t.setPlBank b { t.plBank b with seq := .prog auto 0 [] } := by
  subst ho hv
  unfold plAct
  dsimp only
  rw [hq]
  cases auto <;> simp

theorem plAct_u2e (t : State) {b a off v : Nat} (hq : (t.plBank b).seq = .u2) (ho : off = 0x1554) (hv : v = 0x80) :
    plAct t b a off v = t.setPlBank b { t.plBank b with seq := .er1 } := by
  subst ho hv
  unfold plAct
  dsimp only
  rw [hq]
  simp

theorem plAct_er1 (t : State) {b a off v : Nat} (hq : (t.plBank b).seq = .er1) (ho : off = 0x1554) (hv : v = 0xAA) :
    plAct t b a off v = t.setPlBank b { t.plBank b with seq := .er2 } := by
  subst ho hv
  unfold plAct
  dsimp only
  rw [hq]
  simp

theorem plAct_er2 (t : State) {b a off v : Nat} (hq : (t.plBank b).seq = .er2) (ho : off = 0x0AA8) (hv : v = 0x55) :
    plAct t b a off v = t.setPlBank b { t.plBank b with seq := .er3 } := by
  subst ho hv
  unfold plAct
  dsimp only
  rw [hq]
  simp

theorem plAct_er3 (t : State) {b a off v : Nat} (auto : Bool) (hq : (t.plBank b).seq = .er3) (hv : v = if auto then 0x31 else 0x30) :
    plAct t b a off v = t.plAsk b (plOpOf true a [] auto) := by
  subst hv
  unfold plAct
  dsimp only
  rw [hq]
  cases auto <;> simp

theorem plAct_prog (t : State) {b a off v : Nat} {auto : Bool} {line : Nat} {ws : List Word} (hq : (t.plBank b).seq = .prog auto line ws)
    (hc : if ws = [] then a % 32 = 0 else a = line + 4 * ws.length) :
    plAct t b a off v = if ws.length + 1 < 8 then t.setPlBank b { t.plBank b with seq := .prog auto (if ws = [] then a else line) (ws ++ [BitVec.ofNat 32 v]) }
      else t.plAsk b (plOpOf false (if ws = [] then a else line) ((ws ++ [BitVec.ofNat 32 v]).flatMap fun w => leBytes 4 w.toNat) auto) := by
  unfold plAct
  dsimp only
  rw [hq]
  dsimp only
  cases ws with
  | nil =>
    rw [if_pos rfl] at hc
    simp [hc]
  | cons x ws =>
    rw [if_neg (by simp)] at hc
    simp [hc]

theorem stat_low {b : Nat} (n : Nat) : PL_WP n ≠ plStat b ∧ PL_INDET n ≠ plStat b := by
  have e : pageAddr .pl 0 0 = 0xE0000 := by decide
  unfold plStat PL_WP PL_INDET PL_BANK0_STAT PL_BANK1_STAT
  rw [e]
  split <;> constructor <;> omega

/-- What the bank's command has left of the state. -/
def LeftOf (s : State) (b : Nat) (t : State) : Prop :=
  t.plBank (1 - b) = s.plBank (1 - b) ∧ (∀ r, r ≠ plStat b → t.reg r = s.reg r)
    ∧ { t with regs := s.regs, plBank0 := s.plBank0, plBank1 := s.plBank1, plMark := s.plMark, plEc := s.plEc
               plPrefetch := s.plPrefetch, plBranch := s.plBranch } = s

theorem atSeq_left {s t : State} {b : Nat} {q : PlSeq} (h : AtSeq s b q t) : LeftOf s b t ∧ t.plMark = s.plMark ∧ t.plEc = s.plEc := by
  obtain ⟨h1, h2, h3, h4, h5⟩ := h
  refine ⟨⟨h4, h2, ?_⟩, (congrArg State.plMark h5 :), (congrArg State.plEc h5 :)⟩
  exact (congrArg (fun x : State => ({ x with plMark := s.plMark, plEc := s.plEc, plPrefetch := s.plPrefetch, plBranch := s.plBranch } : State)) h5 :)

theorem err_facts {s u : State} {b n : Nat} (h : AtSeq s b .read u) (hq : (s.plBank b).seq = .read) (hn : n ≤ 63) :
    LeftOf s b (u.setBit (plStat b) n true) ∧ (u.setBit (plStat b) n true).regBit (plStat b) n = true
      ∧ (u.setBit (plStat b) n true).plBank b = s.plBank b ∧ (u.setBit (plStat b) n true).plMark = s.plMark ∧ (u.setBit (plStat b) n true).plEc = s.plEc
      ∧ AtSeq s b .read (u.setBit (plStat b) n true) := by
  obtain ⟨h1, h2, h3, h4, h5⟩ := h
  have ha : AtSeq s b .read (u.setBit (plStat b) n true) :=
    ⟨State.setBit_wf _ _ _ h1, fun r hr => (State.reg_setBit_other _ _ h1 hr).trans (h2 r hr), h3, h4, h5⟩
  obtain ⟨g1, g2, g3⟩ := atSeq_left ha
  refine ⟨g1, State.regBit_setBit_same _ _ _ h1 hn, ?_, g2, g3, ha⟩
  show u.plBank b = s.plBank b
  rw [h3, ← hq]

theorem ops_same {s u : State} {b : Nat} (hb : b = 0 ∨ b = 1) (h : AtSeq s b .read u) :
    ([0, 1].flatMap fun i => (u.plBank i).op.toList ++ (u.plBank i).held.toList)
      = [0, 1].flatMap fun i => (s.plBank i).op.toList ++ (s.plBank i).held.toList := by
  obtain ⟨h1, h2, h3, h4, h5⟩ := h
  rcases hb with rfl | rfl
  · have h4 : u.plBank 1 = s.plBank 1 := h4
    simp only [List.flatMap_cons, List.flatMap_nil]
    rw [h3, h4]
  · have h4 : u.plBank 0 = s.plBank 0 := h4
    simp only [List.flatMap_cons, List.flatMap_nil]
    rw [h3, h4]

theorem start_facts {s u : State} {b : Nat} (hb : b = 0 ∨ b = 1) (h : AtSeq s b .read u) (o : PlOp) (ho : o.susp = false) :
    let t := u.plStart b o
    LeftOf s b t ∧ t.plBank b = { seq := .read, op := some o, held := (s.plBank b).op.or (s.plBank b).held }
      ∧ t.plMark = smapInsert s.plMark o.block (!o.erase)
      ∧ t.plEc = (if o.erase then smapSet (fun _ => 0) s.plEc o.block
          (BitVec.ofNat 32 (min 0xFFFFFFFF ((smapGet (fun _ => (0 : Word)) s.plEc o.block).toNat + 1))) else s.plEc)
      ∧ t.regBit (plStat b) 0 = true ∧ ∀ l ∈ t.plPrefetch ++ t.plBranch, l * 32 / plBankBytes ≠ b := by
  intro t
  obtain ⟨h1, h2, h3, h4, h5⟩ := h
  have hec : u.plEc = s.plEc := (congrArg State.plEc h5 :)
  have hmk : u.plMark = s.plMark := (congrArg State.plMark h5 :)
  obtain ⟨v, hv⟩ : ∃ v, v = (({ (if o.erase then u.plCount o.block else u) with plMark := smapInsert (if o.erase then u.plCount o.block else u).plMark o.block (!o.erase) } : State).plInvalidate b) := ⟨_, rfl⟩
  have ht : t = v.setPlBank b { seq := .read, op := some o, held := (u.plBank b).op.or (u.plBank b).held } := by rw [hv]; rfl
  have v1 : v.regs = u.regs := by rw [hv]; cases o.erase <;> rfl
  have v2 : ∀ i, v.plBank i = u.plBank i := by intro i; rw [hv]; cases o.erase <;> rfl
  have v3 : { v with plMark := u.plMark, plEc := u.plEc, plPrefetch := u.plPrefetch, plBranch := u.plBranch } = u := by
    rw [hv]; cases o.erase <;> rfl
  have v4 : v.plMark = smapInsert s.plMark o.block (!o.erase) := by rw [hv, ← hmk]; cases o.erase <;> rfl
  have v5 : v.plEc = (if o.erase then smapSet (fun _ => 0) s.plEc o.block
          (BitVec.ofNat 32 (min 0xFFFFFFFF ((smapGet (fun _ => (0 : Word)) s.plEc o.block).toNat + 1))) else s.plEc) := by
    rw [hv, ← hec]; cases o.erase <;> rfl
  have v6 : ∀ l ∈ v.plPrefetch ++ v.plBranch, l * 32 / plBankBytes ≠ b := by
    rw [hv]
    intro l hl e
    rcases List.mem_append.1 hl with hl | hl
    · have := (List.mem_filter.1 hl).2
      rw [e] at this
      simp at this
    · have := (List.mem_filter.1 hl).2
      rw [e] at this
      simp at this
  clear hv
  have hvw : smapWf resetOf v.regs = true := by rw [v1]; exact h1
  obtain ⟨g1, g2, g3, g4, g5, g6⟩ := setPl_facts v hb { seq := .read, op := some o, held := (u.plBank b).op.or (u.plBank b).held } hvw
  rw [ht]
  generalize v.setPlBank b { seq := .read, op := some o, held := (u.plBank b).op.or (u.plBank b).held } = w at g1 g2 g3 g4 g5 g6
  refine ⟨⟨?_, fun r hr => ?_, ?_⟩, ?_, ?_, ?_, g6 (by simp [ho]), ?_⟩
  · rw [g4, v2, h4]
  · rw [g2 r hr]
    refine Eq.trans ?_ (h2 r hr)
    exact reg_of v1 r
  · have a1 := (congrArg (fun x : State => ({ x with regs := s.regs, plBank0 := s.plBank0, plBank1 := s.plBank1, plMark := s.plMark, plEc := s.plEc, plPrefetch := s.plPrefetch, plBranch := s.plBranch } : State)) g5 :)
    have a2 := (congrArg (fun x : State => ({ x with regs := s.regs, plBank0 := s.plBank0, plBank1 := s.plBank1, plMark := s.plMark, plEc := s.plEc, plPrefetch := s.plPrefetch, plBranch := s.plBranch } : State)) v3 :)
    have a3 := (congrArg (fun x : State => ({ x with plMark := s.plMark, plEc := s.plEc, plPrefetch := s.plPrefetch, plBranch := s.plBranch } : State)) h5 :)
    exact a1.trans (a2.trans a3)
  · rw [g3, h3]
  · exact (congrArg State.plMark g5 :).trans v4
  · exact (congrArg State.plEc g5 :).trans v5
  · have e1 : w.plPrefetch = v.plPrefetch := (congrArg State.plPrefetch g5 :)
    have e2 : w.plBranch = v.plBranch := (congrArg State.plBranch g5 :)
    rw [e1, e2]
    exact v6

theorem ask_facts {s t : State} {b : Nat} {q : PlSeq} (hb : b = 0 ∨ b = 1) (h : AtSeq s b q t) (hq : (s.plBank b).seq = .read) (o : PlOp) (ho : o.susp = false) :
    let w := t.plAsk b o
    let ops := [0, 1].flatMap fun i => (s.plBank i).op.toList ++ (s.plBank i).held.toList
    let same (t : State) : Prop := t.plBank b = s.plBank b ∧ t.plMark = s.plMark ∧ t.plEc = s.plEc
    let inWay := ∃ p ∈ ops, p.erase = false ∨ p.susp = false ∨ o.erase = true ∨ p.block = o.block
    LeftOf s b w
      ∧ (inWay → w.regBit (plStat b) 5 = true ∧ same w)
      ∧ (¬ inWay → s.plLocked o.block = true → w.regBit (plStat b) 6 = true ∧ same w)
      ∧ (¬ inWay → o.erase = false → s.plIndet o.block = true → w.regBit (plStat b) 7 = true ∧ same w)
      ∧ (¬ inWay → s.plLocked o.block = false → (o.erase = true ∨ s.plIndet o.block = false) →
          w.plBank b = { seq := .read, op := some o, held := (s.plBank b).op.or (s.plBank b).held }
          ∧ w.plMark = smapInsert s.plMark o.block (!o.erase)
          ∧ w.plEc = (if o.erase then smapSet (fun _ => 0) s.plEc o.block
              (BitVec.ofNat 32 (min 0xFFFFFFFF ((smapGet (fun _ => (0 : Word)) s.plEc o.block).toNat + 1))) else s.plEc)
          ∧ w.regBit (plStat b) 0 = true ∧ ∀ l ∈ w.plPrefetch ++ w.plBranch, l * 32 / plBankBytes ≠ b) := by
  intro w ops same inWay
  have hu := at_set hb .read h
  obtain ⟨u, hu'⟩ : ∃ u, u = t.setPlBank b { t.plBank b with seq := .read } := ⟨_, rfl⟩
  rw [← hu'] at hu
  have hops := ops_same hb hu
  have hlock : u.plLocked o.block = s.plLocked o.block := regBit_of (hu.2.1 _ (stat_low _).1)
  have hind : u.plIndet o.block = s.plIndet o.block := regBit_of (hu.2.1 _ (stat_low _).2)
  have hw : w = (if (!ops.all fun p => p.erase && p.susp && !o.erase && p.block != o.block) = true then u.setBit (plStat b) 5 true
      else
        let locked := s.plLocked o.block
        let indet := !o.erase && s.plIndet o.block
        let v := if locked then u.setBit (plStat b) 6 true else u
        let v := if indet then v.setBit (plStat b) 7 true else v
        if locked || indet then v else v.plStart b o) := by
    rw [← hlock, ← hind]
    simp only [ops]
    rw [← hops, hu']
    rfl
  have hclear : (!ops.all fun p => p.erase && p.susp && !o.erase && p.block != o.block) = true ↔ inWay := by
    simp only [inWay, Bool.not_eq_true', List.all_eq_false]
    constructor
    · rintro ⟨p, h1, h2⟩
      refine ⟨p, h1, ?_⟩
      cases e1 : p.erase
      · exact .inl rfl
      · cases e2 : p.susp
        · exact .inr (.inl rfl)
        · cases e3 : o.erase
          · refine .inr (.inr (.inr ?_))
            rw [e1, e2, e3] at h2
            simpa using h2
          · exact .inr (.inr (.inl rfl))
    · rintro ⟨p, h1, h2⟩
      refine ⟨p, h1, ?_⟩
      rcases h2 with h2 | h2 | h2 | h2 <;> simp [h2]
  by_cases hway : inWay
  · rw [if_pos (hclear.2 hway)] at hw
    obtain ⟨f1, f2, f3, f4, f5, -⟩ := err_facts (n := 5) hu hq (by omega)
    rw [hw]
    exact ⟨f1, fun _ => ⟨f2, f3, f4, f5⟩, fun k => absurd hway k, fun k => absurd hway k, fun k => absurd hway k⟩
  · rw [if_neg (fun k => hway (hclear.1 k))] at hw
    dsimp only at hw
    cases e1 : s.plLocked o.block
    · rw [e1] at hw
      cases e2 : (!o.erase && s.plIndet o.block)
      · rw [e2] at hw
        have hw : w = u.plStart b o := hw
        rw [hw]
        obtain ⟨f1, f2, f3, f4, f5, f6⟩ := start_facts hb hu o ho
        refine ⟨f1, fun k => absurd k hway, fun _ k => (by cases k), fun _ k1 k2 => ?_, fun _ _ _ => ⟨f2, f3, f4, f5, f6⟩⟩
        rw [k1, k2] at e2; simp at e2
      · rw [e2] at hw
        have hw : w = u.setBit (plStat b) 7 true := hw
        obtain ⟨f1, f2, f3, f4, f5, -⟩ := err_facts (n := 7) hu hq (by omega)
        rw [hw]
        refine ⟨f1, fun k => absurd k hway, fun _ k => (by cases k), fun _ k1 k2 => ⟨f2, f3, f4, f5⟩, fun _ _ k => ?_⟩
        rw [Bool.and_eq_true] at e2
        rcases k with k | k
        · rw [k] at e2; simp at e2
        · rw [k] at e2; simp at e2
    · rw [e1] at hw
      obtain ⟨f1, f2, f3, f4, f5, f6⟩ := err_facts (n := 6) hu hq (by omega)
      cases e2 : (!o.erase && s.plIndet o.block)
      · rw [e2] at hw
        have hw : w = u.setBit (plStat b) 6 true := hw
        rw [hw]
        refine ⟨f1, fun k => absurd k hway, fun _ k => ⟨f2, f3, f4, f5⟩, fun _ k1 k2 => ?_, fun _ k => (by cases k)⟩
        rw [k1, k2] at e2; simp at e2
      · rw [e2] at hw
        have hw : w = (u.setBit (plStat b) 6 true).setBit (plStat b) 7 true := hw
        obtain ⟨d1, d2, d3, d4, d5, -⟩ := err_facts (n := 7) f6 hq (by omega)
        rw [hw]
        refine ⟨d1, fun k => absurd k hway, fun _ k => ⟨?_, d3, d4, d5⟩, fun _ k1 k2 => ⟨d2, d3, d4, d5⟩, fun _ k => (by cases k)⟩
        exact (State.regBit_setBit_other _ _ (State.setBit_wf _ _ _ hu.1) (by omega) (by omega)).trans f2

theorem word_toNat {n : Nat} (h : n < 2 ^ 32) : (BitVec.ofNat 32 n).toNat = n := by
  rw [BitVec.toNat_ofNat]
  exact Nat.mod_eq_of_lt h

/-- One write to a bank that is not busy, on the way of a sequence. -/
theorem write_at {s t : State} {b : Nat} {q : PlSeq} (hb : b = 0 ∨ b = 1) (h : AtSeq s b q t) (hn : s.plBusy b = false) {off : Nat} (ho : off < 0x2000000)
    (h4 : off % 4 = 0) (v : Word) :
    t.plWrite (BitVec.ofNat 32 (0x20000000 + b * 0x2000000 + off)).toNat v.toNat = plAct t b (b * 0x2000000 + off) off v.toNat := by
  rw [word_toNat (by omega), plWrite_in t hb ho, if_neg (by omega), busy_at h hn]
  rfl

theorem seq_at {s t : State} {b : Nat} {q : PlSeq} (h : AtSeq s b q t) : (t.plBank b).seq = q := by rw [h.2.2.1]

theorem prog_words {s : State} {b a : Nat} (hb : b = 0 ∨ b = 1) (hn : s.plBusy b = false) (ha : a < 0x2000000) (h32 : a % 32 = 0) (auto : Bool) :
    ∀ (ws : List Word) (done : List Word) (t : State), ws ≠ [] → done.length + ws.length = 8 →
      AtSeq s b (.prog auto (if done = [] then 0 else b * 0x2000000 + a) done) t →
      ∃ q t', AtSeq s b q t' ∧ ((ws.zipIdx done.length).map fun (w, i) => (BitVec.ofNat 32 (0x20000000 + b * 0x2000000 + (a + 4 * i)), w)).foldl
          (fun (u : State) (w : Word × Word) => u.plWrite w.1.toNat w.2.toNat) t
        = t'.plAsk b (plOpOf false (b * 0x2000000 + a) ((done ++ ws).flatMap fun w => leBytes 4 w.toNat) auto) := by
  intro ws
  induction ws with
  | nil => intro done t h; exact absurd rfl h
  | cons w ws ih =>
    intro done t _ hl h
    rw [List.length_cons] at hl
    simp only [List.zipIdx_cons, List.map_cons, List.foldl_cons]
    rw [write_at hb h hn (by omega) (by omega)]
    rw [plAct_prog t (seq_at h) (by
      by_cases hd : done = []
      · rw [if_pos hd, hd]; simp only [List.length_nil]; omega
      · rw [if_neg hd, if_neg hd]; omega)]
    rw [BitVec.ofNat_toNat, BitVec.setWidth_eq]
    have hline : (if done = [] then b * 0x2000000 + (a + 4 * done.length) else (if done = [] then 0 else b * 0x2000000 + a)) = b * 0x2000000 + a := by
      by_cases hd : done = []
      · rw [if_pos hd, hd]; simp
      · rw [if_neg hd, if_neg hd]
    rw [hline]
    by_cases h8 : done.length + 1 < 8
    · rw [if_pos h8]
      have h' := at_set hb (.prog auto (b * 0x2000000 + a) (done ++ [w])) h
      have := ih (done ++ [w]) (t.setPlBank b { t.plBank b with seq := .prog auto (b * 0x2000000 + a) (done ++ [w]) })
        (by intro e; rw [e] at hl; simp only [List.length_nil] at hl; omega) (by rw [List.length_append, List.length_singleton]; omega)
        (by rw [if_neg (by simp)]; exact h')
      rw [List.length_append, List.length_singleton, List.append_assoc] at this
      exact this
    · rw [if_neg h8]
      have hw : ws = [] := List.eq_nil_of_length_eq_zero (by omega)
      subst hw
      exact ⟨_, t, h, rfl⟩

theorem fold_pair {α β : Type} (f : α → β → α) (x y : β) (u : α) : [x, y].foldl f u = f (f u x) y := rfl

theorem fold_single {α β : Type} (f : α → β → α) (x : β) (u : α) : [x].foldl f u = f u x := rfl

theorem fold_one (A v : Word) (u : State) : [(A, v)].foldl (fun (u : State) (w : Word × Word) => u.plWrite w.1.toNat w.2.toNat) u
    = u.plWrite A.toNat v.toNat := fold_single _ _ _

theorem fold_two (A B v w : Word) (u : State) : [(A, v), (B, w)].foldl (fun (u : State) (w : Word × Word) => u.plWrite w.1.toNat w.2.toNat) u
    = (u.plWrite A.toNat v.toNat).plWrite B.toNat w.toNat := fold_pair _ _ _ _

theorem un_read {s t : State} {b : Nat} (hb : b = 0 ∨ b = 1) (hn : s.plBusy b = false) (ht : AtSeq s b .read t) :
    AtSeq s b .u2 ([(BitVec.ofNat 32 (0x20000000 + b * 0x2000000 + 0x1554), (0xAA : Word)), (BitVec.ofNat 32 (0x20000000 + b * 0x2000000 + 0x0AA8), 0x55)].foldl
      (fun (u : State) (w : Word × Word) => u.plWrite w.1.toNat w.2.toNat) t) := by
  rw [fold_two]
  rw [write_at hb ht hn (by omega) (by omega)]
  rw [plAct_read t (seq_at ht) (v := BitVec.toNat (170 : Word)) rfl (by decide)]
  have h1 := at_set hb .u1 ht
  rw [write_at hb h1 hn (by omega) (by omega), plAct_u1 _ (seq_at h1) (v := BitVec.toNat (85 : Word)) rfl (by decide)]
  exact at_set hb .u2 h1

theorem un_er {s t : State} {b : Nat} (hb : b = 0 ∨ b = 1) (hn : s.plBusy b = false) (ht : AtSeq s b .er1 t) :
    AtSeq s b .er3 ([(BitVec.ofNat 32 (0x20000000 + b * 0x2000000 + 0x1554), (0xAA : Word)), (BitVec.ofNat 32 (0x20000000 + b * 0x2000000 + 0x0AA8), 0x55)].foldl
      (fun (u : State) (w : Word × Word) => u.plWrite w.1.toNat w.2.toNat) t) := by
  rw [fold_two]
  rw [write_at hb ht hn (by omega) (by omega)]
  rw [plAct_er1 t (seq_at ht) (v := BitVec.toNat (170 : Word)) rfl (by decide)]
  have h1 := at_set hb .er2 ht
  rw [write_at hb h1 hn (by omega) (by omega), plAct_er2 _ (seq_at h1) (v := BitVec.toNat (85 : Word)) rfl (by decide)]
  exact at_set hb .er3 h1

theorem at_start {s : State} {b : Nat} (hc : s.canon = true) (hq : (s.plBank b).seq = .read) : AtSeq s b .read s :=
  ⟨State.canon_regs hc, fun _ _ => rfl, by rw [← hq], rfl, rfl⟩

theorem smapGet_clear {β : Type} [DecidableEq β] {d : Nat → β} (p : Nat → Bool) : ∀ (m : SMap β) (lo k : Nat), smapWfFrom d lo m = true →
    smapGet d (smapClear p m) k = if p k then d k else smapGet d m k := by
  intro m
  induction m with
  | nil => intro lo k h; show d k = _; split <;> rfl
  | cons e m ih =>
    intro lo k h
    obtain ⟨a, w⟩ := e
    simp only [smapWfFrom, Bool.and_eq_true, decide_eq_true_eq] at h
    have hc : smapClear p ((a, w) :: m) = if p a then smapClear p m else (a, w) :: smapClear p m := by
      unfold smapClear
      rw [List.filter_cons]
      cases p a <;> rfl
    rw [hc]
    by_cases hk : k = a
    · subst hk
      cases hp : p k
      · simp [smapGet]
      · rw [if_pos rfl, ih _ k h.2, if_pos hp, if_pos rfl]
    · cases hp : p a
      · rw [if_neg (by simp)]
        simp only [smapGet, if_neg hk]
        by_cases hlt : k < a
        · rw [if_pos hlt]
          split <;> rfl
        · rw [if_neg hlt, if_neg hlt]
          exact ih _ k h.2
      · rw [if_pos rfl, ih _ k h.2]
        simp only [smapGet, if_neg hk]
        by_cases hlt : k < a
        · rw [if_pos hlt, smapGet_below d h.2 (by omega)]
        · rw [if_neg hlt]

theorem getD_zipWith {f : Byte → Byte → Byte} {as bs : List Byte} {i : Nat} (ha : i < as.length) (hb : i < bs.length) :
    (List.zipWith f as bs).getD i 0 = f (as.getD i 0) (bs.getD i 0) := by
  simp only [List.getD_eq_getElem?_getD]
  rw [List.getElem?_zipWith, List.getElem?_eq_getElem ha, List.getElem?_eq_getElem hb]
  rfl

theorem getD_memRead (d : Nat → Byte) (m : List Host.Cell) (a : Nat) {n i : Nat} (h : i < n) : (memRead d m a n).getD i 0 = memByte d m (a + i) := by
  unfold memRead
  rw [List.getD_eq_getElem?_getD, List.getElem?_map, List.getElem?_range h]
  rfl

theorem pl_written {m : List Host.Cell} (a : Nat) (bs : Bytes) (h : Memory.wf erasedByte m = true) (x : Nat) :
    memByte erasedByte (memWrite erasedByte m a bs) x = if a ≤ x ∧ x < a + bs.length then bs.getD (x - a) 0 else memByte erasedByte m x := by
  by_cases hx : a ≤ x ∧ x < a + bs.length
  · rw [if_pos hx]
    have hi : x - a < bs.length := by omega
    have := memByte_memWrite_inside a bs h hi
    rw [show a + (x - a) = x by omega] at this
    rw [this, List.getD_eq_getElem?_getD, List.getElem?_eq_getElem hi]
    rfl
  · rw [if_neg hx]
    exact memByte_memWrite_outside a bs h (by omega)

theorem and_and_or (o d f : Byte) : (o &&& (d ||| f)) &&& o = o &&& (d ||| f) ∧ (o &&& (d ||| f)) &&& (o &&& d) = o &&& d := by
  constructor
  · ext i; simp; intro a b; exact a
  · ext i
    simp only [BitVec.getElem_and, BitVec.getElem_or]
    cases o[i] <;> cases d[i] <;> cases f[i] <;> rfl

/-- A bank whose operation has ended, before a fetch that waited is served. -/
def State.plFreed (s : State) (b : Nat) : State :=
  let k := s.plBank b
  let s := s.setPlBank b { k with op := none, held := none }
  match k.held with
  | none => s
  | some o =>
    let s := s.setBit (plStat b) 1 true
    if b = 0 then { s with plBank0 := { s.plBank0 with op := some o } } else { s with plBank1 := { s.plBank1 with op := some o } }

theorem plEnd_eq (s : State) (b : Nat) : s.plEnd b = match (s.plBank b).op.bind PlOp.fetch with
    | some a => (s.plFreed b).plServe a
    | none => s.plFreed b := rfl

theorem plEnd_facts (u : State) {b : Nat} (hb : b = 0 ∨ b = 1) (hu : smapWf resetOf u.regs = true) :
    let l := u.plBank b
    let v := u.setPlBank b { l with op := none, held := none }
    (l.held = none → u.plFreed b = v)
      ∧ ∀ o, l.held = some o → (u.plFreed b).plBank b = { l with op := some o, held := none }
          ∧ (u.plFreed b).regs = (v.setBit (plStat b) 1 true).regs ∧ (u.plFreed b).plBank (1 - b) = u.plBank (1 - b) := by
  intro l v
  obtain ⟨f1, f2, f3, f4, -, -⟩ := setPl_facts u hb { l with op := none, held := none } hu
  refine ⟨fun e => ?_, fun o e => ?_⟩
  · unfold State.plFreed
    dsimp only
    rw [show (u.plBank b).held = _ from e]
  · have hv : u.plFreed b = if b = 0 then { v.setBit (plStat b) 1 true with plBank0 := { (v.setBit (plStat b) 1 true).plBank0 with op := some o } }
        else { v.setBit (plStat b) 1 true with plBank1 := { (v.setBit (plStat b) 1 true).plBank1 with op := some o } } := by
      unfold State.plFreed
      dsimp only
      rw [show (u.plBank b).held = _ from e]
    rw [hv]
    clear hv e
    generalize hv : v = w
    have f3 : w.plBank b = { l with op := none, held := none } := by rw [← hv]; exact f3
    have f4 : w.plBank (1 - b) = u.plBank (1 - b) := by rw [← hv]; exact f4
    rcases hb with rfl | rfl
    · rw [if_pos rfl]
      refine ⟨?_, rfl, f4⟩
      have f3 : w.plBank0 = _ := f3
      show { w.plBank0 with op := some o } = _
      rw [f3]
    · rw [if_neg (by omega)]
      refine ⟨?_, rfl, f4⟩
      have f3 : w.plBank1 = _ := f3
      show { w.plBank1 with op := some o } = _
      rw [f3]

end Sys2Proof.Machine
end

