-- ==== Sys2Proof/Laws/Fabric.lean ====
section
/-! SUPPORT. The fabric ports: what sending touches, and what a connection sends when it may (R326, R330, R339). -/

namespace Sys2Proof.Machine

-- One declaration after another: the package as one text then stays within the memory its check allows.
set_option Elab.async false

/-- A state is another, but for what sending at port p touches: octets sent, contexts, operations, and the frame counter. -/
def Wired (p : Nat) (s og : State) : Prop :=
  { s with regs := og.regs, tx := og.tx, conn := og.conn, rops := og.rops } = og
    ∧ (smapWf resetOf og.regs = true → smapWf resetOf s.regs = true ∧ ∀ a, a ≠ DP_TX_FRAMES p → s.reg a = og.reg a)

theorem wired_self (p : Nat) (s : State) : Wired p s s := ⟨rfl, fun h => ⟨h, fun _ _ => rfl⟩⟩

theorem wired_trans {p : Nat} {s m og : State} (h1 : Wired p s m) (h2 : Wired p m og) : Wired p s og := by
  refine ⟨(congrArg (fun x : State => ({ x with regs := og.regs, tx := og.tx, conn := og.conn, rops := og.rops } : State)) h1.1 : _).trans h2.1, fun h => ?_⟩
  obtain ⟨a1, a2⟩ := h2.2 h
  obtain ⟨b1, b2⟩ := h1.2 a1
  exact ⟨b1, fun a ha => (b2 a ha).trans (a2 a ha)⟩

theorem wired_send (p q : Nat) (s : State) (bs : Bytes) : Wired p (s.send q bs) s := by
  unfold State.send
  by_cases h : s.speaks q = true
  · rw [if_pos h]; exact ⟨rfl, fun h => ⟨h, fun _ _ => rfl⟩⟩
  · rw [if_neg h]; exact wired_self p s

theorem wired_count (p n : Nat) (s : State) : Wired p (s.count (DP_TX_FRAMES p) n) s :=
  ⟨rfl, fun h => ⟨State.count_wf _ _ h, fun _ ha => State.reg_count_other _ h ha⟩⟩

theorem wired_sendDziura (p : Nat) (s : State) (bs : Bytes) : Wired p (s.sendDziura p bs) s := by
  unfold State.sendDziura
  by_cases h : s.speaks p = true
  · rw [if_pos h]; exact wired_trans (wired_count p 1 _) (wired_send p p s bs)
  · rw [if_neg h]; exact wired_self p s

theorem sendDziura_conn (p : Nat) (s : State) (bs : Bytes) : (s.sendDziura p bs).conn = s.conn := by
  unfold State.sendDziura State.send
  by_cases h : s.speaks p = true
  · rw [if_pos h, if_pos h]; rfl
  · rw [if_neg h]

/-- What a port that can send sends stands first among the sent frames. -/
theorem sendDziura_tx {p : Nat} {s : State} (bs : Bytes) (h : s.speaks p = true) : (s.sendDziura p bs).tx = (p, bs) :: s.tx := by
  unfold State.sendDziura State.send
  rw [if_pos h, if_pos h]
  rfl

theorem wired_putConn (p : Nat) (s : State) (c : Conn) : Wired p (s.putConn c) s := ⟨rfl, fun h => ⟨h, fun _ _ => rfl⟩⟩

theorem wired_rops (p : Nat) (s : State) (l : List ROp) : Wired p { s with rops := l } s := ⟨rfl, fun h => ⟨h, fun _ _ => rfl⟩⟩

/-- What a frame's transmission leaves: it is sent, and it stands last among the unacknowledged frames with its PSN. -/
theorem transmit_facts (s : State) (c : Conn) (f : Frame) (hs : s.speaks c.port = true) :
    ∃ x : Sent, x.psn = c.psn ∧ x.retries = 0 ∧ x.nak2 = false ∧ x.req = (if f.type = ftRequest then some f.opid else none)
      ∧ (s.transmit c f).2 = { c with psn := (c.psn + 1) % 0x1000000, unacked := c.unacked ++ [x] }
      ∧ (s.transmit c f).1.tx = (c.port, x.bytes) :: s.tx ∧ (s.transmit c f).1.conn = s.conn
      ∧ Wired c.port (s.transmit c f).1 s := by
  unfold State.transmit
  dsimp only
  generalize s.seal _ _ _ = bytes
  refine ⟨{ psn := c.psn, bytes := bytes, req := if f.type = ftRequest then some f.opid else none, retries := 0, nak2 := false },
    rfl, rfl, rfl, rfl, rfl, ?_⟩
  by_cases h : f.type = ftRequest
  · rw [if_pos h]
    exact ⟨sendDziura_tx _ hs, sendDziura_conn _ _ _, wired_trans (wired_rops _ _ _) (wired_sendDziura _ _ _)⟩
  · rw [if_neg h]
    exact ⟨sendDziura_tx _ hs, sendDziura_conn _ _ _, wired_sendDziura _ _ _⟩

/-- Where a connection stands in the way of its next frame (R330, R334, R339). -/
def Held (s : State) (c : Conn) (f : Frame) : Prop :=
  c.resync = true ∨ s.paused c.port c.tc = true ∨ s.speaks c.port = false ∨ s.heldBack c.port f = true ∨ 256 ≤ c.unacked.length
    ∨ 0x200000 < (s.putConn c).txHeld c.port + f.room

theorem wired_paused {p : Nat} {s og : State} (h : Wired p s og) (q k : Nat) : s.paused q k = og.paused q k := by
  have := (congrArg State.pausedBy h.1 : _)
  unfold State.paused
  rw [show s.pausedBy = og.pausedBy from this]

/-- PSNs given to frames sent in one go. -/
def psns (c : Conn) (n : Nat) : List Nat := (List.range n).map fun i => if i = 0 then c.psn else (c.psn + i) % 0x1000000

/-- What a connection sends when it may: the first frames of its queue, in order and with the PSNs that follow, until the queue is
empty or the next frame is held back. -/
theorem pumpFuel_facts (n : Nat) : ∀ (s : State) (c : Conn), c.queue.length < n →
    ∃ (k : Nat) (xs : List Sent) (e : Conn) (w : State),
      k ≤ c.queue.length ∧ xs.length = k ∧ xs.map (·.psn) = psns c k ∧ (∀ x ∈ xs, x.retries = 0)
      ∧ e = { c with queue := c.queue.drop k, unacked := c.unacked ++ xs, psn := if k = 0 then c.psn else (c.psn + k) % 0x1000000 }
      ∧ State.pumpFuel n s c = w.putConn e ∧ w.conn = s.conn
      ∧ w.tx = (xs.map fun x => (c.port, x.bytes)).reverse ++ s.tx
      ∧ (∀ f l, e.queue = f :: l → c.resync = true ∨ s.paused c.port c.tc = true ∨ w.speaks c.port = false ∨ w.heldBack c.port f = true ∨ 256 ≤ e.unacked.length
          ∨ 0x200000 < (w.putConn e).txHeld c.port + f.room)
      ∧ (c.unacked.length ≤ 256 → e.unacked.length ≤ 256)
      ∧ (c.resync = true ∨ s.paused c.port c.tc = true → k = 0)
      ∧ Wired c.port w s := by
  induction n with
  | zero => intro s c h; omega
  | succ n ih =>
    intro s c h
    unfold State.pumpFuel
    cases hq : c.queue with
    | nil =>
      refine ⟨0, [], c, s, Nat.zero_le _, rfl, rfl, fun x h => absurd h List.not_mem_nil, ?_, rfl, rfl, rfl, ?_, id, fun _ => rfl, wired_self _ _⟩
      · rw [List.append_nil, if_pos rfl, List.drop_nil, ← hq]
      · intro f l e
        rw [hq] at e; cases e
    | cons f rest =>
      dsimp only
      by_cases hh : c.resync = true ∨ s.paused c.port c.tc = true ∨ (!s.speaks c.port) = true ∨ s.heldBack c.port f = true ∨ 256 ≤ c.unacked.length ∨ 0x200000 < (s.putConn c).txHeld c.port + f.room
      · rw [if_pos hh]
        refine ⟨0, [], c, s, Nat.zero_le _, rfl, rfl, fun x h => absurd h List.not_mem_nil, ?_, rfl, rfl, rfl, ?_, id, fun _ => rfl, wired_self _ _⟩
        · rw [List.append_nil, if_pos rfl, List.drop_zero, ← hq]
        · intro f2 l e
          rw [hq] at e
          cases e
          rcases hh with a | a | a | a
          · exact .inl a
          · exact .inr (.inl a)
          · exact .inr (.inr (.inl (by rw [Bool.not_eq_true'] at a; exact a)))
          · exact .inr (.inr (.inr a))
      · rw [if_neg hh]
        obtain ⟨x, x1, x2, x3, x4, x5, x6, x7, x8⟩ := transmit_facts s { c with queue := rest } f (by
          have : ¬ (!s.speaks c.port) = true := fun a => hh (.inr (.inr (.inl a)))
          simpa using this)
        have hlen : rest.length < n := by rw [hq, List.length_cons] at h; omega
        generalize ht : s.transmit { c with queue := rest } f = t at x5 x6 x7 x8
        obtain ⟨s1, c1⟩ := t
        dsimp only at x5 x6 x7 x8 ⊢
        subst x5
        obtain ⟨k, xs, e, w, h1, h2, h3, h4, h5, h6, h7, h8, h9, h10, h11, h12⟩ := ih s1 { c with queue := rest, psn := (c.psn + 1) % 0x1000000, unacked := c.unacked ++ [x] } hlen
        dsimp only at h1 h3 h5 h8 h9 h10 h11 h12
        refine ⟨k + 1, x :: xs, e, w, ?_, ?_, ?_, ?_, ?_, h6, ?_, ?_, ?_, ?_, ?_, wired_trans h12 x8⟩
        · rw [List.length_cons]; omega
        · rw [List.length_cons, h2]
        · rw [List.map_cons, h3, x1]
          unfold psns
          rw [List.range_succ_eq_map, List.map_cons, if_pos rfl, List.map_map]
          congr 1
          refine List.map_congr_left fun i _ => ?_
          show _ = if i + 1 = 0 then c.psn else (c.psn + (i + 1)) % 0x1000000
          rw [if_neg (Nat.succ_ne_zero i)]
          show (if i = 0 then (c.psn + 1) % 0x1000000 else ((c.psn + 1) % 0x1000000 + i) % 0x1000000) = _
          by_cases hi : i = 0
          · rw [if_pos hi, hi]
          · rw [if_neg hi]; omega
        · intro y hy
          rcases List.mem_cons.1 hy with rfl | hy
          · exact x2
          · exact h4 y hy
        · rw [h5]
          have : (if k = 0 then (c.psn + 1) % 0x1000000 else ((c.psn + 1) % 0x1000000 + k) % 0x1000000) = if k + 1 = 0 then c.psn else (c.psn + (k + 1)) % 0x1000000 := by
            rw [if_neg (Nat.succ_ne_zero k)]
            by_cases hk : k = 0
            · rw [if_pos hk, hk]
            · rw [if_neg hk]; omega
          rw [this, List.append_assoc, List.singleton_append, List.drop_succ_cons]
        · rw [h7, x7]
        · rw [h8, x6, List.map_cons, List.reverse_cons, List.append_assoc, List.singleton_append]
        · intro f2 l he
          rcases h9 f2 l he with a | a | a
          · exact .inl a
          · exact .inr (.inl (by rw [← wired_paused x8]; exact a))
          · exact .inr (.inr a)
        · intro _
          refine h10 ?_
          rw [List.length_append, List.length_singleton]
          have : ¬ 256 ≤ c.unacked.length := fun a => hh (.inr (.inr (.inr (.inr (.inl a)))))
          omega
        · intro a
          exfalso
          rcases a with a | a
          · exact hh (.inl a)
          · exact hh (.inr (.inl a))

theorem pump_facts (s : State) (c : Conn) :
    ∃ (k : Nat) (xs : List Sent) (e : Conn) (w : State),
      k ≤ c.queue.length ∧ xs.length = k ∧ xs.map (·.psn) = psns c k ∧ (∀ x ∈ xs, x.retries = 0)
      ∧ e = { c with queue := c.queue.drop k, unacked := c.unacked ++ xs, psn := if k = 0 then c.psn else (c.psn + k) % 0x1000000 }
      ∧ s.pump c = w.putConn e ∧ w.conn = s.conn
      ∧ w.tx = (xs.map fun x => (c.port, x.bytes)).reverse ++ s.tx
      ∧ (∀ f l, e.queue = f :: l → c.resync = true ∨ s.paused c.port c.tc = true ∨ w.speaks c.port = false ∨ w.heldBack c.port f = true ∨ 256 ≤ e.unacked.length
          ∨ 0x200000 < (w.putConn e).txHeld c.port + f.room)
      ∧ (c.unacked.length ≤ 256 → e.unacked.length ≤ 256)
      ∧ (c.resync = true ∨ s.paused c.port c.tc = true → k = 0)
      ∧ Wired c.port w s := pumpFuel_facts _ s c (Nat.lt_succ_self _)

theorem wired_pump (s : State) (c : Conn) : Wired c.port (s.pump c) s := by
  obtain ⟨k, xs, e, w, -, -, -, -, -, h6, -, -, -, -, -, h12⟩ := pump_facts s c
  rw [h6]
  exact wired_trans (wired_putConn _ _ _) h12

theorem foldl_wired {α : Type} {p : Nat} {f : State → α → State} (hf : ∀ s a, Wired p (f s a) s) (l : List α) : ∀ s, Wired p (l.foldl f s) s := by
  induction l with
  | nil => exact fun s => wired_self p s
  | cons a l ih => exact fun s => wired_trans (ih (f s a)) (hf s a)

theorem find_at {l : List Conn} {p k q : Nat} {d : Conn} (h : l.find? (·.at p k q) = some d) : d.port = p ∧ d.tc = k ∧ d.peer = q := by
  have := List.find?_some h
  unfold Conn.at at this
  rw [Bool.and_eq_true, Bool.and_eq_true, decide_eq_true_eq, decide_eq_true_eq, decide_eq_true_eq] at this
  exact ⟨this.1.1, this.1.2, this.2⟩

/-- Nothing but new frames waits at a port and class: no answer, no RESYNC, no retransmission that a NAK asked for. -/
def State.unasked (s : State) (p k : Nat) : Prop :=
  (∀ c ∈ s.rconn, c.port = p → c.tc = k → c.due = []) ∧ ∀ c ∈ s.conn, c.port = p → c.tc = k → c.nak = none ∧ c.rsDue = false

/-- A connection that has nothing else to send sends what its queue may. -/
theorem wake_eq {s : State} {c : Conn} (h : s.conn.find? (·.at c.port c.tc c.peer) = some c) (h1 : c.nak = none) (h2 : c.rsDue = false) :
    s.wake c = if c.resync = true then s else s.pump c := by
  unfold State.wake
  by_cases hr : c.resync = true
  · rw [if_pos hr, if_pos hr, h2]
    exact if_neg Bool.false_ne_true
  · rw [if_neg hr, if_neg hr, h1]
    dsimp only
    rw [h]

theorem unasked_pump {s : State} {c : Conn} {p k : Nat} (h : s.unasked p k) (h1 : c.nak = none) (h2 : c.rsDue = false) : (s.pump c).unasked p k := by
  obtain ⟨n, xs, e, w, -, -, -, -, h5, h6, h7, -, -, -, -, h12⟩ := pump_facts s c
  rw [h6]
  have hr : w.rconn = s.rconn := (congrArg State.rconn h12.1 :)
  refine ⟨fun d hd => h.1 d (hr ▸ hd), fun d hd => ?_⟩
  obtain ⟨x, hx, rfl⟩ := List.mem_map.1 (show d ∈ w.conn.map _ from hd)
  rw [h7] at hx
  by_cases ha : x.at e.port e.tc e.peer = true
  · rw [if_pos ha, h5]; exact fun _ _ => ⟨h1, h2⟩
  · rw [if_neg ha]; exact h.2 x hx

/-- What sending does at a port and class where nothing but new frames waits. -/
theorem wired_pumpAll (s : State) (p k : Nat) (h : s.unasked p k) : Wired p (s.pumpAll p k) s := by
  have hd : ∀ l : List RConn, (∀ c ∈ l, c.due = []) → ∀ s : State,
      l.foldl (fun (s : State) c => c.due.foldl (fun (s : State) d => s.answer { s.rconnOf p k c.peer with due := [] } d.1 d.2) s) s = s := by
    intro l
    induction l with
    | nil => exact fun _ _ => rfl
    | cons c l ih =>
      intro hl s
      rw [List.foldl_cons, hl c List.mem_cons_self]
      exact ih (fun x hx => hl x (List.mem_cons_of_mem _ hx)) s
  unfold State.pumpAll
  dsimp only
  rw [hd _ fun c hc => h.1 c (List.mem_filter.1 hc).1 (of_decide_eq_true (List.mem_filter.1 hc).2).1 (of_decide_eq_true (List.mem_filter.1 hc).2).2]
  refine (foldl_keeps (P := fun u : State => Wired p u s ∧ u.unasked p k) ⟨wired_self p s, h⟩ ?_).1
  rintro u d - ⟨hw, hu⟩
  cases hf : u.conn.find? (·.at p k d.peer) with
  | none => exact ⟨hw, hu⟩
  | some c =>
    obtain ⟨e1, e2, e3⟩ := find_at hf
    obtain ⟨n1, n2⟩ := hu.2 c (List.mem_of_find?_eq_some hf) e1 e2
    dsimp only
    rw [wake_eq (by rw [e1, e2, e3]; exact hf) n1 n2]
    by_cases hr : c.resync = true
    · rw [if_pos hr]; exact ⟨hw, hu⟩
    · rw [if_neg hr]
      exact ⟨wired_trans (e1 ▸ wired_pump u c) hw, unasked_pump hu n1 n2⟩

theorem wired_connOf (p : Nat) (s : State) (port tc peer : Nat) :
    Wired p { (s.connOf port tc peer).1 with free := s.free } s ∧ (s.connOf port tc peer).2.port = port := by
  unfold State.connOf
  cases hf : s.conn.find? (·.at port tc peer) with
  | some c => exact ⟨wired_self _ _, (find_at hf).1⟩
  | none => exact ⟨⟨rfl, fun h => ⟨h, fun _ _ => rfl⟩⟩, rfl⟩

/-- Putting frames in a connection's queue touches what sending touches, and the free counter where the context is new. -/
theorem enqueue_frame (s : State) (port tc peer : Nat) (fs : List Frame) :
    Wired port { s.enqueue port tc peer fs with free := s.free } s := by
  obtain ⟨h1, h2⟩ := wired_connOf port s port tc peer
  have e : s.enqueue port tc peer fs = (s.connOf port tc peer).1.pump { (s.connOf port tc peer).2 with queue := (s.connOf port tc peer).2.queue ++ fs } := rfl
  rw [e]
  generalize (s.connOf port tc peer).1 = u at h1 ⊢
  have hw := wired_pump u { (s.connOf port tc peer).2 with queue := (s.connOf port tc peer).2.queue ++ fs }
  rw [show ({ (s.connOf port tc peer).2 with queue := (s.connOf port tc peer).2.queue ++ fs } : Conn).port = port from h2] at hw
  have h3 : Wired port { u.pump { (s.connOf port tc peer).2 with queue := (s.connOf port tc peer).2.queue ++ fs } with free := s.free } { u with free := s.free } :=
    ⟨(congrArg (fun x : State => ({ x with free := s.free } : State)) hw.1 : _), hw.2⟩
  exact wired_trans h3 h1

/-- Pieces of a list, by where they start. -/
theorem chunksFuel_eq {α : Type} {n : Nat} (hn : 0 < n) : ∀ (f : Nat) (l : List α), l.length ≤ f →
    chunksFuel f n l = (List.range ((l.length + n - 1) / n)).map fun i => (l.drop (n * i)).take n := by
  intro f
  induction f with
  | zero =>
    intro l h
    rw [List.eq_nil_of_length_eq_zero (Nat.le_zero.1 h)]
    have : (([] : List α).length + n - 1) / n = 0 := Nat.div_eq_of_lt (by rw [List.length_nil]; omega)
    rw [this]
    rfl
  | succ f ih =>
    intro l h
    cases l with
    | nil =>
      have : (([] : List α).length + n - 1) / n = 0 := Nat.div_eq_of_lt (by rw [List.length_nil]; omega)
      rw [this]
      rfl
    | cons a l =>
      have e : chunksFuel (f + 1) n (a :: l) = (a :: l).take n :: chunksFuel f n ((a :: l).drop n) := rfl
      have hl : ((a :: l).drop n).length ≤ f := by rw [List.length_drop, List.length_cons]; rw [List.length_cons] at h; omega
      rw [e, ih _ hl]
      have hc : ((a :: l).length + n - 1) / n = (((a :: l).drop n).length + n - 1) / n + 1 := by
        rw [List.length_drop, List.length_cons]
        by_cases hle : n ≤ l.length + 1
        · rw [show l.length + 1 + n - 1 = (l.length + 1 - n + n - 1) + n by omega, Nat.add_div_right _ hn]
        · rw [show l.length + 1 - n + n - 1 = n - 1 by omega, Nat.div_eq_of_lt (show n - 1 < n by omega),
            show l.length + 1 + n - 1 = l.length + n by omega, Nat.add_div_right _ hn, Nat.div_eq_of_lt (by omega)]
      rw [hc, List.range_succ_eq_map, List.map_cons, Nat.mul_zero, List.drop_zero, List.map_map]
      congr 1
      refine List.map_congr_left fun i _ => ?_
      rw [List.drop_drop]
      show _ = ((a :: l).drop (n * (i + 1))).take n
      rw [Nat.mul_add, Nat.mul_one, Nat.add_comm]

theorem chunks_eq {α : Type} {n : Nat} (hn : 0 < n) (l : List α) :
    chunks n l = (List.range ((l.length + n - 1) / n)).map fun i => (l.drop (n * i)).take n := chunksFuel_eq hn _ _ (Nat.le_refl _)

end Sys2Proof.Machine
end

