-- ==== Sys2Proof/Laws/Firmware.lean ====
section
/-! SUPPORT. The firmware's command-page writes: when the oldest write of the PF is a CMD_FW_CTL or CMD_HEARTBEAT write, and how
its bits are acted on. -/

namespace Sys2Proof.Machine

-- One declaration after another: the package as one text then stays within the memory its check allows.
set_option Elab.async false

theorem kind_fwCtl {p : Posted} (h : p.kind = .fwCtl) : p.fn = 16 ∧ p.addr = CMD_FW_CTL := by
  unfold Posted.kind at h
  dsimp only at h
  split at h
  · cases h
  · cases h
  · split at h
    · cases h
    · split at h
      · cases h
      · split at h
        · cases h
        · split at h
          · assumption
          · split at h <;> cases h

theorem kind_heartbeat {p : Posted} (h : p.kind = .heartbeat) : p.fn = 16 ∧ p.addr = CMD_HEARTBEAT := by
  unfold Posted.kind at h
  dsimp only at h
  split at h
  · cases h
  · cases h
  · split at h
    · cases h
    · split at h
      · cases h
      · split at h
        · cases h
        · split at h
          · cases h
          · split at h
            · assumption
            · cases h

/-- It is the turn of bit n of a CMD_FW_CTL write: the write is the PF's front, and n is its lowest bit. -/
def FwTurn (s : State) (n : Nat) (p : Posted) : Prop :=
  s.front 16 = some p ∧ p.kind = .fwCtl ∧ p.val.toNat % 2 ^ n = 0 ∧ p.val.getLsbD n = true

theorem State.onFwCtl_turn {s : State} {n : Nat} {p : Posted} {act : State → State} (h : FwTurn s n p) :
    s.onFwCtl n act = if p.val.toNat % 16 - 2 ^ n = 0 then (act s).popDone 16 else (act s).setFront 16 (p.val.toNat % 16 - 2 ^ n) := by
  obtain ⟨h1, h3, h4, h5⟩ := h
  unfold State.onFwCtl State.onFront
  rw [h1]
  have hb : bit p.val.toNat n = true := by rw [bit_eq_testBit]; exact h5
  dsimp only
  refine if_pos ?_
  show (decide (p.kind = .fwCtl) && decide (p.val.toNat % 2 ^ n = 0) && bit p.val.toNat n) = true
  rw [hb, Bool.and_true, Bool.and_eq_true, decide_eq_true_eq, decide_eq_true_eq]
  exact ⟨h3, h4⟩

theorem State.onFwCtl_other {s : State} {n : Nat} {act : State → State} (h : ∀ p, ¬ FwTurn s n p) : s.onFwCtl n act = s := by
  unfold State.onFwCtl State.onFront
  cases h1 : s.front 16 with
  | none => rfl
  | some p =>
    dsimp only
    refine if_neg ?_
    intro e
    simp only [Bool.and_eq_true, decide_eq_true_eq] at e
    refine h p ⟨h1, e.1.1, e.1.2, ?_⟩
    have := e.2
    rw [bit_eq_testBit] at this
    exact this

end Sys2Proof.Machine
end

