-- ==== Sys2Proof/Laws/KeptQuarry.lean ====
section
/-! SUPPORT. What no command disturbs is kept. -/

namespace Sys2Proof.Machine

variable {qs : List Instr} {u : Bool}

theorem Work.withTensor_kept {a0 : Work} {a1 : Nat} {a2 : Work → Nat → Work} (ha0 : (a0).s.kept qs u = true) (ha2 : ∀ y0 y1, (y0).s.kept qs u = true → (a2 y0 y1).s.kept qs u = true) :
    (@Work.withTensor a0 a1 a2).s.kept qs u = true := by
  unfold Work.withTensor
  try dsimp only
  repeat' (first
    | with_reducible assumption
    | with_reducible apply Work.fail_kept
    | with_reducible apply ha2
    | intro _
    | split
    | with_reducible apply kept_fold
    | with_reducible apply kept_fold1
    | with_reducible apply kept_foldW
    | with_reducible apply kept_foldW1
    | with_reducible apply kept_foldH
    | with_reducible apply kept_foldH1
    | with_reducible refine kept_fst ?_ (by with_reducible assumption)
    | with_reducible refine kept_fstW ?_ (by with_reducible assumption)
    | with_reducible refine kept_fstH ?_ (by with_reducible assumption)
    | (simp only [↓kept_mk]; with_reducible refine kept_of ?_))

theorem State.quarry_kept {a0 : State} {a1 : Nat} {a2 : Nat} {a3 : Flight → Work → Work} (ha0 : (a0).kept qs u = true) (ha3 : ∀ y0 y1, (y1).s.kept qs u = true → (a3 y0 y1).s.kept qs u = true) :
    (@State.quarry a0 a1 a2 a3).kept qs u = true := by
  unfold State.quarry
  try dsimp only
  repeat' (first
    | with_reducible assumption
    | with_reducible apply State.runFlight_kept
    | with_reducible apply ha3
    | intro _
    | split
    | with_reducible apply kept_fold
    | with_reducible apply kept_fold1
    | with_reducible apply kept_foldW
    | with_reducible apply kept_foldW1
    | with_reducible apply kept_foldH
    | with_reducible apply kept_foldH1
    | with_reducible refine kept_fst ?_ (by with_reducible assumption)
    | with_reducible refine kept_fstW ?_ (by with_reducible assumption)
    | with_reducible refine kept_fstH ?_ (by with_reducible assumption)
    | (simp only [↓kept_mk]; with_reducible refine kept_of ?_))

theorem State.quarryStart_kept {a0 : State} {a1 : Nat} {a2 : Nat} {a3 : Flight → Bool} {a4 : Flight → State → State × Option (Nat × Nat)} (ha0 : (a0).kept qs u = true) (ha4 : ∀ y0 y1, (y1).kept qs u = true → (a4 y0 y1).1.kept qs u = true) :
    (@State.quarryStart a0 a1 a2 a3 a4).kept qs u = true := by
  unfold State.quarryStart
  try dsimp only
  repeat' (first
    | with_reducible assumption
    | with_reducible apply State.onFlight_kept
    | with_reducible apply State.putFlight_kept
    | with_reducible apply ha4
    | intro _
    | split
    | with_reducible apply kept_fold
    | with_reducible apply kept_fold1
    | with_reducible apply kept_foldW
    | with_reducible apply kept_foldW1
    | with_reducible apply kept_foldH
    | with_reducible apply kept_foldH1
    | with_reducible refine kept_fst ?_ (by with_reducible assumption)
    | with_reducible refine kept_fstW ?_ (by with_reducible assumption)
    | with_reducible refine kept_fstH ?_ (by with_reducible assumption)
    | (simp only [↓kept_mk]; with_reducible refine kept_of ?_))

theorem Work.result_kept {a0 : Work} {a1 : Qrr} {a2 : Bytes} (ha0 : (a0).s.kept qs u = true) :
    (@Work.result a0 a1 a2).s.kept qs u = true := by
  unfold Work.result
  try dsimp only
  repeat' (first
    | with_reducible assumption
    | with_reducible apply Work.write_kept
    | intro _
    | split
    | with_reducible apply kept_fold
    | with_reducible apply kept_fold1
    | with_reducible apply kept_foldW
    | with_reducible apply kept_foldW1
    | with_reducible apply kept_foldH
    | with_reducible apply kept_foldH1
    | with_reducible refine kept_fst ?_ (by with_reducible assumption)
    | with_reducible refine kept_fstW ?_ (by with_reducible assumption)
    | with_reducible refine kept_fstH ?_ (by with_reducible assumption)
    | (simp only [↓kept_mk]; with_reducible refine kept_of ?_))

theorem Work.create_kept {a0 : Work} {a1 : Qrr} (ha0 : (a0).s.kept qs u = true) :
    (@Work.create a0 a1).s.kept qs u = true := by
  unfold Work.create
  try dsimp only
  repeat' (first
    | with_reducible assumption
    | with_reducible apply Work.fail_kept
    | with_reducible apply Work.result_kept
    | with_reducible apply Work.andThen_kept
    | with_reducible apply Work.mapS_kept
    | with_reducible apply State.setTensor_kept
    | intro _
    | split
    | with_reducible apply kept_fold
    | with_reducible apply kept_fold1
    | with_reducible apply kept_foldW
    | with_reducible apply kept_foldW1
    | with_reducible apply kept_foldH
    | with_reducible apply kept_foldH1
    | with_reducible refine kept_fst ?_ (by with_reducible assumption)
    | with_reducible refine kept_fstW ?_ (by with_reducible assumption)
    | with_reducible refine kept_fstH ?_ (by with_reducible assumption)
    | (simp only [↓kept_mk]; with_reducible refine kept_of ?_))

theorem execCreate_kept {a0 : Nat} {a1 : State} (ha1 : (a1).kept qs u = true) :
    ∀ t, @execCreate a0 a1 = .next t → t.kept qs u = true := by
  unfold execCreate
  refine live_kept ha1 ?_
  try dsimp only
  repeat' (first
    | with_reducible assumption
    | with_reducible apply State.quarry_kept
    | with_reducible apply Work.create_kept
    | intro _
    | split
    | with_reducible apply kept_fold
    | with_reducible apply kept_fold1
    | with_reducible apply kept_foldW
    | with_reducible apply kept_foldW1
    | with_reducible apply kept_foldH
    | with_reducible apply kept_foldH1
    | with_reducible refine kept_fst ?_ (by with_reducible assumption)
    | with_reducible refine kept_fstW ?_ (by with_reducible assumption)
    | with_reducible refine kept_fstH ?_ (by with_reducible assumption)
    | (simp only [↓kept_mk]; with_reducible refine kept_of ?_))

theorem execQuery_kept {a0 : Nat} {a1 : State} (ha1 : (a1).kept qs u = true) :
    ∀ t, @execQuery a0 a1 = .next t → t.kept qs u = true := by
  unfold execQuery
  refine live_kept ha1 ?_
  try dsimp only
  repeat' (first
    | with_reducible assumption
    | with_reducible apply State.quarry_kept
    | with_reducible apply Work.withTensor_kept
    | with_reducible apply Work.result_kept
    | intro _
    | split
    | with_reducible apply kept_fold
    | with_reducible apply kept_fold1
    | with_reducible apply kept_foldW
    | with_reducible apply kept_foldW1
    | with_reducible apply kept_foldH
    | with_reducible apply kept_foldH1
    | with_reducible refine kept_fst ?_ (by with_reducible assumption)
    | with_reducible refine kept_fstW ?_ (by with_reducible assumption)
    | with_reducible refine kept_fstH ?_ (by with_reducible assumption)
    | (simp only [↓kept_mk]; with_reducible refine kept_of ?_))

theorem State.fillEnts_kept {a0 : State} {a1 : Nat} {a2 : Nat} {a3 : List XEntry} {a4 : List Host.Cell} (ha0 : (a0).kept qs u = true) :
    (@State.fillEnts a0 a1 a2 a3 a4).kept qs u = true := by
  unfold State.fillEnts
  repeat' (first
      | exact smapWf_set _ _ ‹_›
      | with_reducible assumption
      | with_reducible apply State.zeroEnts_kept
      | intro _
      | split
      | with_reducible apply kept_fold
      | with_reducible apply kept_fold1
      | with_reducible apply kept_foldW
      | with_reducible apply kept_foldW1
      | with_reducible apply kept_foldH
      | with_reducible apply kept_foldH1
      | with_reducible refine kept_fst ?_ (by with_reducible assumption)
      | with_reducible refine kept_fstW ?_ (by with_reducible assumption)
      | with_reducible refine kept_fstH ?_ (by with_reducible assumption)
      | (simp only [↓kept_mk]; with_reducible refine kept_of ?_)
      | (simp only [↓kept_mk]; with_reducible refine kept_setPl ?_ ?_)
      | (simp only [↓kept_mk]; with_reducible refine kept_setNand ?_ ?_)
      | (simp only [↓kept_mk]; with_reducible refine kept_setBed ?_ ?_)
      | (simp only [↓kept_mk]; with_reducible refine kept_setHbm ?_ ?_)
      | (simp only [↓kept_mk]; with_reducible refine kept_setRegs ?_ ?_)
      | (simp only [↓kept_mk]; with_reducible refine kept_setMarks ?_ ?_)
      | with_reducible exact wf_nil _
      | with_reducible exact smapWf_nil _
      | with_reducible apply wf_memWrite
      | with_reducible apply wf_memClear
      | with_reducible apply smapWf_set
      | with_reducible apply smapWf_clear
      | with_reducible apply wf_fold
      | with_reducible refine kept_pl (qs := qs) (u := u) ?_
      | with_reducible refine kept_nand (qs := qs) (u := u) ?_
      | with_reducible refine kept_bed (qs := qs) (u := u) ?_
      | with_reducible refine kept_hbm (qs := qs) (u := u) ?_
      | with_reducible refine kept_regs (qs := qs) (u := u) ?_
      | with_reducible refine kept_marks (qs := qs) (u := u) ?_)

theorem State.moveStart_kept {a0 : State} {a1 : Nat} {a2 : Nat} {a3 : MoveBy} (ha0 : (a0).kept qs u = true) :
    (@State.moveStart a0 a1 a2 a3).1.kept qs u = true := by
  unfold State.moveStart
  try dsimp only
  repeat' (first
    | with_reducible assumption
    | with_reducible apply State.placeGranules_kept
    | with_reducible apply State.setTensor_kept
    | intro _
    | split
    | with_reducible apply kept_fold
    | with_reducible apply kept_fold1
    | with_reducible apply kept_foldW
    | with_reducible apply kept_foldW1
    | with_reducible apply kept_foldH
    | with_reducible apply kept_foldH1
    | with_reducible refine kept_fst ?_ (by with_reducible assumption)
    | with_reducible refine kept_fstW ?_ (by with_reducible assumption)
    | with_reducible refine kept_fstH ?_ (by with_reducible assumption)
    | (simp only [↓kept_mk]; with_reducible refine kept_of ?_))

theorem execTierMove_kept {a0 : Nat} {a1 : State} (ha1 : (a1).kept qs u = true) :
    ∀ t, @execTierMove a0 a1 = .next t → t.kept qs u = true := by
  unfold execTierMove
  refine live_kept ha1 ?_
  try dsimp only
  repeat' (first
    | with_reducible assumption
    | with_reducible apply State.quarryStart_kept
    | with_reducible apply State.moveStart_kept
    | intro _
    | split
    | with_reducible apply kept_fold
    | with_reducible apply kept_fold1
    | with_reducible apply kept_foldW
    | with_reducible apply kept_foldW1
    | with_reducible apply kept_foldH
    | with_reducible apply kept_foldH1
    | with_reducible refine kept_fst ?_ (by with_reducible assumption)
    | with_reducible refine kept_fstW ?_ (by with_reducible assumption)
    | with_reducible refine kept_fstH ?_ (by with_reducible assumption)
    | (simp only [↓kept_mk]; with_reducible refine kept_of ?_))

theorem State.scanMove_kept {a0 : State} {a1 : Flight} {a2 : Nat} (ha0 : (a0).kept qs u = true) :
    (@State.scanMove a0 a1 a2).kept qs u = true := by
  unfold State.scanMove
  try dsimp only
  repeat' (first
    | with_reducible assumption
    | with_reducible apply State.putFlight_kept
    | with_reducible apply State.moveStart_kept
    | intro _
    | split
    | with_reducible apply kept_fold
    | with_reducible apply kept_fold1
    | with_reducible apply kept_foldW
    | with_reducible apply kept_foldW1
    | with_reducible apply kept_foldH
    | with_reducible apply kept_foldH1
    | with_reducible refine kept_fst ?_ (by with_reducible assumption)
    | with_reducible refine kept_fstW ?_ (by with_reducible assumption)
    | with_reducible refine kept_fstH ?_ (by with_reducible assumption)
    | (simp only [↓kept_mk]; with_reducible refine kept_of ?_))

theorem State.resolveScan_kept {a0 : State} {a1 : Flight} {a2 : Nat} (ha0 : (a0).kept qs u = true) :
    (@State.resolveScan a0 a1 a2).kept qs u = true := by
  unfold State.resolveScan
  try dsimp only
  repeat' (first
    | with_reducible assumption
    | with_reducible apply State.putFlight_kept
    | with_reducible apply State.scanMove_kept
    | intro _
    | split
    | with_reducible apply kept_fold
    | with_reducible apply kept_fold1
    | with_reducible apply kept_foldW
    | with_reducible apply kept_foldW1
    | with_reducible apply kept_foldH
    | with_reducible apply kept_foldH1
    | with_reducible refine kept_fst ?_ (by with_reducible assumption)
    | with_reducible refine kept_fstW ?_ (by with_reducible assumption)
    | with_reducible refine kept_fstH ?_ (by with_reducible assumption)
    | (simp only [↓kept_mk]; with_reducible refine kept_of ?_))

theorem State.schedHalt_kept {a0 : State} {a1 : Nat} {a2 : Nat} {a3 : Nat} {a4 : Nat} (ha0 : (a0).kept qs u = true) :
    (@State.schedHalt a0 a1 a2 a3 a4).kept qs u = true := by
  unfold State.schedHalt
  try dsimp only
  repeat' (first
    | with_reducible assumption
    | with_reducible apply State.setRegN_kept
    | with_reducible apply State.event_kept
    | intro _
    | split
    | with_reducible apply kept_fold
    | with_reducible apply kept_fold1
    | with_reducible apply kept_foldW
    | with_reducible apply kept_foldW1
    | with_reducible apply kept_foldH
    | with_reducible apply kept_foldH1
    | with_reducible refine kept_fst ?_ (by with_reducible assumption)
    | with_reducible refine kept_fstW ?_ (by with_reducible assumption)
    | with_reducible refine kept_fstH ?_ (by with_reducible assumption)
    | (simp only [↓kept_mk]; with_reducible refine kept_of ?_))

theorem State.schedEnd_kept {a0 : State} {a1 : Nat} {a2 : Nat} {a3 : Nat} {a4 : Nat} {a5 : Nat} (ha0 : (a0).kept qs u = true) :
    (@State.schedEnd a0 a1 a2 a3 a4 a5).kept qs u = true := by
  unfold State.schedEnd
  try dsimp only
  repeat' (first
    | with_reducible assumption
    | with_reducible apply State.signalSlot_kept
    | with_reducible apply State.schedHalt_kept
    | intro _
    | split
    | with_reducible apply kept_fold
    | with_reducible apply kept_fold1
    | with_reducible apply kept_foldW
    | with_reducible apply kept_foldW1
    | with_reducible apply kept_foldH
    | with_reducible apply kept_foldH1
    | with_reducible refine kept_fst ?_ (by with_reducible assumption)
    | with_reducible refine kept_fstW ?_ (by with_reducible assumption)
    | with_reducible refine kept_fstH ?_ (by with_reducible assumption)
    | (simp only [↓kept_mk]; with_reducible refine kept_of ?_))

theorem State.schedStart_kept {a0 : State} {a1 : SchedWait} (ha0 : (a0).kept qs u = true) :
    (@State.schedStart a0 a1).kept qs u = true := by
  unfold State.schedStart
  try dsimp only
  repeat' (first
    | with_reducible assumption
    | with_reducible apply State.schedEnd_kept
    | with_reducible apply State.moveStart_kept
    | intro _
    | split
    | with_reducible apply kept_fold
    | with_reducible apply kept_fold1
    | with_reducible apply kept_foldW
    | with_reducible apply kept_foldW1
    | with_reducible apply kept_foldH
    | with_reducible apply kept_foldH1
    | with_reducible refine kept_fst ?_ (by with_reducible assumption)
    | with_reducible refine kept_fstW ?_ (by with_reducible assumption)
    | with_reducible refine kept_fstH ?_ (by with_reducible assumption)
    | (simp only [↓kept_mk]; with_reducible refine kept_of ?_))

theorem State.wakeScans_kept {a0 : State} (ha0 : (a0).kept qs u = true) :
    (@State.wakeScans a0).kept qs u = true := by
  unfold State.wakeScans
  try dsimp only
  repeat' (first
    | with_reducible assumption
    | with_reducible apply State.schedStart_kept
    | with_reducible apply State.onFlight_kept
    | with_reducible apply State.scanMove_kept
    | with_reducible apply State.resolveScan_kept
    | intro _
    | split
    | with_reducible apply kept_fold
    | with_reducible apply kept_fold1
    | with_reducible apply kept_foldW
    | with_reducible apply kept_foldW1
    | with_reducible apply kept_foldH
    | with_reducible apply kept_foldH1
    | with_reducible refine kept_fst ?_ (by with_reducible assumption)
    | with_reducible refine kept_fstW ?_ (by with_reducible assumption)
    | with_reducible refine kept_fstH ?_ (by with_reducible assumption)
    | (simp only [↓kept_mk]; with_reducible refine kept_of ?_))

theorem State.moveEnd_kept {a0 : State} {a1 : Move} {a2 : Nat} {a3 : Nat} (ha0 : (a0).kept qs u = true) :
    (@State.moveEnd a0 a1 a2 a3).kept qs u = true := by
  unfold State.moveEnd
  try dsimp only
  repeat' (first
    | with_reducible assumption
    | with_reducible apply State.schedEnd_kept
    | with_reducible apply State.onFlight_kept
    | with_reducible apply State.putFlight_kept
    | intro _
    | split
    | with_reducible apply kept_fold
    | with_reducible apply kept_fold1
    | with_reducible apply kept_foldW
    | with_reducible apply kept_foldW1
    | with_reducible apply kept_foldH
    | with_reducible apply kept_foldH1
    | with_reducible refine kept_fst ?_ (by with_reducible assumption)
    | with_reducible refine kept_fstW ?_ (by with_reducible assumption)
    | with_reducible refine kept_fstH ?_ (by with_reducible assumption)
    | (simp only [↓kept_mk]; with_reducible refine kept_of ?_))

theorem execTierMoveDone_kept {a0 : Fin 262144} {a1 : Bool} {a2 : List NandReport} {a3 : State} (ha3 : (a3).kept qs u = true) :
    ∀ t, @execTierMoveDone a0 a1 a2 a3 = .next t → t.kept qs u = true := by
  unfold execTierMoveDone
  refine live_kept ha3 ?_
  dsimp only
  repeat' (first
      | exact smapWf_set _ _ ‹_›
      | with_reducible assumption
      | with_reducible apply State.nandReport_kept
      | with_reducible apply State.nandReads_kept
      | with_reducible apply State.setTensor_kept
      | with_reducible apply State.wakeScans_kept
      | with_reducible apply State.moveEnd_kept
      | with_reducible apply State.poisonTensor_kept
      | with_reducible apply State.nandRelease_kept
      | with_reducible apply State.count_kept
      | with_reducible apply State.nandPlace_kept
      | with_reducible apply State.fillEnts_kept
      | intro _
      | split
      | with_reducible apply kept_fold
      | with_reducible apply kept_fold1
      | with_reducible apply kept_foldW
      | with_reducible apply kept_foldW1
      | with_reducible apply kept_foldH
      | with_reducible apply kept_foldH1
      | with_reducible refine kept_fst ?_ (by with_reducible assumption)
      | with_reducible refine kept_fstW ?_ (by with_reducible assumption)
      | with_reducible refine kept_fstH ?_ (by with_reducible assumption)
      | (simp only [↓kept_mk]; with_reducible refine kept_of ?_)
      | (simp only [↓kept_mk]; with_reducible refine kept_setPl ?_ ?_)
      | (simp only [↓kept_mk]; with_reducible refine kept_setNand ?_ ?_)
      | (simp only [↓kept_mk]; with_reducible refine kept_setBed ?_ ?_)
      | (simp only [↓kept_mk]; with_reducible refine kept_setHbm ?_ ?_)
      | (simp only [↓kept_mk]; with_reducible refine kept_setRegs ?_ ?_)
      | (simp only [↓kept_mk]; with_reducible refine kept_setMarks ?_ ?_)
      | with_reducible exact wf_nil _
      | with_reducible exact smapWf_nil _
      | with_reducible apply wf_memWrite
      | with_reducible apply wf_memClear
      | with_reducible apply smapWf_set
      | with_reducible apply smapWf_clear
      | with_reducible apply wf_fold
      | with_reducible refine kept_pl (qs := qs) (u := u) ?_
      | with_reducible refine kept_nand (qs := qs) (u := u) ?_
      | with_reducible refine kept_bed (qs := qs) (u := u) ?_
      | with_reducible refine kept_hbm (qs := qs) (u := u) ?_
      | with_reducible refine kept_regs (qs := qs) (u := u) ?_
      | with_reducible refine kept_marks (qs := qs) (u := u) ?_)

theorem execFree_kept {a0 : Nat} {a1 : State} (ha1 : (a1).kept qs u = true) :
    ∀ t, @execFree a0 a1 = .next t → t.kept qs u = true := by
  unfold execFree
  refine live_kept ha1 ?_
  try dsimp only
  repeat' (first
    | with_reducible assumption
    | with_reducible apply State.quarryStart_kept
    | intro _
    | split
    | with_reducible apply kept_fold
    | with_reducible apply kept_fold1
    | with_reducible apply kept_foldW
    | with_reducible apply kept_foldW1
    | with_reducible apply kept_foldH
    | with_reducible apply kept_foldH1
    | with_reducible refine kept_fst ?_ (by with_reducible assumption)
    | with_reducible refine kept_fstW ?_ (by with_reducible assumption)
    | with_reducible refine kept_fstH ?_ (by with_reducible assumption)
    | (simp only [↓kept_mk]; with_reducible refine kept_of ?_))

theorem State.releaseTensor_kept {a0 : State} {a1 : Nat} (ha0 : (a0).kept qs u = true) :
    (@State.releaseTensor a0 a1).kept qs u = true := by
  unfold State.releaseTensor
  try dsimp only
  repeat' (first
    | with_reducible assumption
    | with_reducible apply State.nandRelease_kept
    | with_reducible apply State.setTensor_kept
    | intro _
    | split
    | with_reducible apply kept_fold
    | with_reducible apply kept_fold1
    | with_reducible apply kept_foldW
    | with_reducible apply kept_foldW1
    | with_reducible apply kept_foldH
    | with_reducible apply kept_foldH1
    | with_reducible refine kept_fst ?_ (by with_reducible assumption)
    | with_reducible refine kept_fstW ?_ (by with_reducible assumption)
    | with_reducible refine kept_fstH ?_ (by with_reducible assumption)
    | (simp only [↓kept_mk]; with_reducible refine kept_of ?_))

theorem execFreeRelease_kept {a0 : Nat} {a1 : State} (ha1 : (a1).kept qs u = true) :
    ∀ t, @execFreeRelease a0 a1 = .next t → t.kept qs u = true := by
  unfold execFreeRelease
  refine live_kept ha1 ?_
  try dsimp only
  repeat' (first
    | with_reducible assumption
    | with_reducible apply State.onFlight_kept
    | with_reducible apply State.wakeScans_kept
    | with_reducible apply State.putFlight_kept
    | with_reducible apply State.releaseTensor_kept
    | intro _
    | split
    | with_reducible apply kept_fold
    | with_reducible apply kept_fold1
    | with_reducible apply kept_foldW
    | with_reducible apply kept_foldW1
    | with_reducible apply kept_foldH
    | with_reducible apply kept_foldH1
    | with_reducible refine kept_fst ?_ (by with_reducible assumption)
    | with_reducible refine kept_fstW ?_ (by with_reducible assumption)
    | with_reducible refine kept_fstH ?_ (by with_reducible assumption)
    | (simp only [↓kept_mk]; with_reducible refine kept_of ?_))

theorem State.setSched_kept {a0 : State} {a1 : Nat} {a2 : Sched} (ha0 : (a0).kept qs u = true) :
    (@State.setSched a0 a1 a2).kept qs u = true := by
  unfold State.setSched
  try dsimp only
  repeat' (first
    | with_reducible assumption
    | intro _
    | split
    | with_reducible apply kept_fold
    | with_reducible apply kept_fold1
    | with_reducible apply kept_foldW
    | with_reducible apply kept_foldW1
    | with_reducible apply kept_foldH
    | with_reducible apply kept_foldH1
    | with_reducible refine kept_fst ?_ (by with_reducible assumption)
    | with_reducible refine kept_fstW ?_ (by with_reducible assumption)
    | with_reducible refine kept_fstH ?_ (by with_reducible assumption)
    | (simp only [↓kept_mk]; with_reducible refine kept_of ?_))

theorem State.schedEnable_kept {a0 : State} {a1 : Nat} (ha0 : (a0).kept qs u = true) :
    (@State.schedEnable a0 a1).kept qs u = true := by
  unfold State.schedEnable
  try dsimp only
  repeat' (first
    | with_reducible assumption
    | with_reducible apply State.setRegN_kept
    | with_reducible apply State.setSched_kept
    | intro _
    | split
    | with_reducible apply kept_fold
    | with_reducible apply kept_fold1
    | with_reducible apply kept_foldW
    | with_reducible apply kept_foldW1
    | with_reducible apply kept_foldH
    | with_reducible apply kept_foldH1
    | with_reducible refine kept_fst ?_ (by with_reducible assumption)
    | with_reducible refine kept_fstW ?_ (by with_reducible assumption)
    | with_reducible refine kept_fstH ?_ (by with_reducible assumption)
    | (simp only [↓kept_mk]; with_reducible refine kept_of ?_))

theorem State.schedResume_kept {a0 : State} {a1 : Nat} (ha0 : (a0).kept qs u = true) :
    (@State.schedResume a0 a1).kept qs u = true := by
  unfold State.schedResume
  try dsimp only
  repeat' (first
    | with_reducible assumption
    | with_reducible apply State.setRegN_kept
    | intro _
    | split
    | with_reducible apply kept_fold
    | with_reducible apply kept_fold1
    | with_reducible apply kept_foldW
    | with_reducible apply kept_foldW1
    | with_reducible apply kept_foldH
    | with_reducible apply kept_foldH1
    | with_reducible refine kept_fst ?_ (by with_reducible assumption)
    | with_reducible refine kept_fstW ?_ (by with_reducible assumption)
    | with_reducible refine kept_fstH ?_ (by with_reducible assumption)
    | (simp only [↓kept_mk]; with_reducible refine kept_of ?_))

theorem State.schedDisable_kept {a0 : State} {a1 : Nat} (ha0 : (a0).kept qs u = true) :
    (@State.schedDisable a0 a1).kept qs u = true := by
  unfold State.schedDisable
  try dsimp only
  repeat' (first
    | with_reducible assumption
    | with_reducible apply State.setField_kept
    | intro _
    | split
    | with_reducible apply kept_fold
    | with_reducible apply kept_fold1
    | with_reducible apply kept_foldW
    | with_reducible apply kept_foldW1
    | with_reducible apply kept_foldH
    | with_reducible apply kept_foldH1
    | with_reducible refine kept_fst ?_ (by with_reducible assumption)
    | with_reducible refine kept_fstW ?_ (by with_reducible assumption)
    | with_reducible refine kept_fstH ?_ (by with_reducible assumption)
    | (simp only [↓kept_mk]; with_reducible refine kept_of ?_))

theorem execScheduleEnable_kept {a0 : Fin 16} {a1 : State} (ha1 : (a1).kept qs u = true) :
    ∀ t, @execScheduleEnable a0 a1 = .next t → t.kept qs u = true := by
  unfold execScheduleEnable
  refine live_kept ha1 ?_
  try dsimp only
  repeat' (first
    | with_reducible assumption
    | with_reducible apply State.schedEnable_kept
    | intro _
    | split
    | with_reducible apply kept_fold
    | with_reducible apply kept_fold1
    | with_reducible apply kept_foldW
    | with_reducible apply kept_foldW1
    | with_reducible apply kept_foldH
    | with_reducible apply kept_foldH1
    | with_reducible refine kept_fst ?_ (by with_reducible assumption)
    | with_reducible refine kept_fstW ?_ (by with_reducible assumption)
    | with_reducible refine kept_fstH ?_ (by with_reducible assumption)
    | (simp only [↓kept_mk]; with_reducible refine kept_of ?_))

theorem execScheduleResume_kept {a0 : Fin 16} {a1 : State} (ha1 : (a1).kept qs u = true) :
    ∀ t, @execScheduleResume a0 a1 = .next t → t.kept qs u = true := by
  unfold execScheduleResume
  refine live_kept ha1 ?_
  try dsimp only
  repeat' (first
    | with_reducible assumption
    | with_reducible apply State.schedResume_kept
    | intro _
    | split
    | with_reducible apply kept_fold
    | with_reducible apply kept_fold1
    | with_reducible apply kept_foldW
    | with_reducible apply kept_foldW1
    | with_reducible apply kept_foldH
    | with_reducible apply kept_foldH1
    | with_reducible refine kept_fst ?_ (by with_reducible assumption)
    | with_reducible refine kept_fstW ?_ (by with_reducible assumption)
    | with_reducible refine kept_fstH ?_ (by with_reducible assumption)
    | (simp only [↓kept_mk]; with_reducible refine kept_of ?_))

theorem execScheduleDisable_kept {a0 : Fin 16} {a1 : State} (ha1 : (a1).kept qs u = true) :
    ∀ t, @execScheduleDisable a0 a1 = .next t → t.kept qs u = true := by
  unfold execScheduleDisable
  refine live_kept ha1 ?_
  try dsimp only
  repeat' (first
    | with_reducible assumption
    | with_reducible apply State.schedDisable_kept
    | intro _
    | split
    | with_reducible apply kept_fold
    | with_reducible apply kept_fold1
    | with_reducible apply kept_foldW
    | with_reducible apply kept_foldW1
    | with_reducible apply kept_foldH
    | with_reducible apply kept_foldH1
    | with_reducible refine kept_fst ?_ (by with_reducible assumption)
    | with_reducible refine kept_fstW ?_ (by with_reducible assumption)
    | with_reducible refine kept_fstH ?_ (by with_reducible assumption)
    | (simp only [↓kept_mk]; with_reducible refine kept_of ?_))

theorem State.schedNext_kept {a0 : State} {a1 : Nat} (ha0 : (a0).kept qs u = true) :
    (@State.schedNext a0 a1).kept qs u = true := by
  unfold State.schedNext
  try dsimp only
  repeat' (first
    | with_reducible assumption
    | with_reducible apply State.setField_kept
    | with_reducible apply State.setSched_kept
    | with_reducible apply State.modReg_kept
    | intro _
    | split
    | with_reducible apply kept_fold
    | with_reducible apply kept_fold1
    | with_reducible apply kept_foldW
    | with_reducible apply kept_foldW1
    | with_reducible apply kept_foldH
    | with_reducible apply kept_foldH1
    | with_reducible refine kept_fst ?_ (by with_reducible assumption)
    | with_reducible refine kept_fstW ?_ (by with_reducible assumption)
    | with_reducible refine kept_fstH ?_ (by with_reducible assumption)
    | (simp only [↓kept_mk]; with_reducible refine kept_of ?_))

theorem execScheduleEntryRelease_kept {a0 : Fin 16} {a1 : State} (ha1 : (a1).kept qs u = true) :
    ∀ t, @execScheduleEntryRelease a0 a1 = .next t → t.kept qs u = true := by
  unfold execScheduleEntryRelease
  refine live_kept ha1 ?_
  try dsimp only
  repeat' (first
    | with_reducible assumption
    | with_reducible apply State.readFor_kept
    | with_reducible apply State.schedHalt_kept
    | with_reducible apply State.schedNext_kept
    | with_reducible apply State.schedEnd_kept
    | with_reducible apply State.schedStart_kept
    | intro _
    | split
    | with_reducible apply kept_fold
    | with_reducible apply kept_fold1
    | with_reducible apply kept_foldW
    | with_reducible apply kept_foldW1
    | with_reducible apply kept_foldH
    | with_reducible apply kept_foldH1
    | with_reducible refine kept_fst ?_ (by with_reducible assumption)
    | with_reducible refine kept_fstW ?_ (by with_reducible assumption)
    | with_reducible refine kept_fstH ?_ (by with_reducible assumption)
    | (simp only [↓kept_mk]; with_reducible refine kept_of ?_))

theorem intakeFault_kept {a0 : State} {a1 : Nat} {a2 : Nat} (ha0 : (a0).kept qs u = true) :
    (@intakeFault a0 a1 a2).1.kept qs u = true := by
  unfold intakeFault
  try dsimp only
  repeat' (first
    | with_reducible assumption
    | with_reducible apply State.count_kept
    | intro _
    | split
    | with_reducible apply kept_fold
    | with_reducible apply kept_fold1
    | with_reducible apply kept_foldW
    | with_reducible apply kept_foldW1
    | with_reducible apply kept_foldH
    | with_reducible apply kept_foldH1
    | with_reducible refine kept_fst ?_ (by with_reducible assumption)
    | with_reducible refine kept_fstW ?_ (by with_reducible assumption)
    | with_reducible refine kept_fstH ?_ (by with_reducible assumption)
    | (simp only [↓kept_mk]; with_reducible refine kept_of ?_))

theorem execIntake_kept {a0 : Nat} {a1 : State} (ha1 : (a1).kept qs u = true) :
    ∀ t, @execIntake a0 a1 = .next t → t.kept qs u = true := by
  unfold execIntake
  refine live_kept ha1 ?_
  try dsimp only
  repeat' (first
    | with_reducible assumption
    | with_reducible apply State.quarryStart_kept
    | with_reducible apply intakeFault_kept
    | with_reducible apply Work.read_kept
    | with_reducible apply Work.start_kept
    | with_reducible apply State.placeGranules_kept
    | intro _
    | split
    | with_reducible apply kept_fold
    | with_reducible apply kept_fold1
    | with_reducible apply kept_foldW
    | with_reducible apply kept_foldW1
    | with_reducible apply kept_foldH
    | with_reducible apply kept_foldH1
    | with_reducible refine kept_fst ?_ (by with_reducible assumption)
    | with_reducible refine kept_fstW ?_ (by with_reducible assumption)
    | with_reducible refine kept_fstH ?_ (by with_reducible assumption)
    | (simp only [↓kept_mk]; with_reducible refine kept_of ?_))

theorem State.intakeDrop_kept {a0 : State} {a1 : Flight} {a2 : Nat} {a3 : Nat} (ha0 : (a0).kept qs u = true) :
    (@State.intakeDrop a0 a1 a2 a3).kept qs u = true := by
  unfold State.intakeDrop
  try dsimp only
  repeat' (first
    | with_reducible assumption
    | with_reducible apply State.wakeScans_kept
    | with_reducible apply State.putFlight_kept
    | with_reducible apply State.count_kept
    | intro _
    | split
    | with_reducible apply kept_fold
    | with_reducible apply kept_fold1
    | with_reducible apply kept_foldW
    | with_reducible apply kept_foldW1
    | with_reducible apply kept_foldH
    | with_reducible apply kept_foldH1
    | with_reducible refine kept_fst ?_ (by with_reducible assumption)
    | with_reducible refine kept_fstW ?_ (by with_reducible assumption)
    | with_reducible refine kept_fstH ?_ (by with_reducible assumption)
    | (simp only [↓kept_mk]; with_reducible refine kept_of ?_))

theorem execIntakeBuildDone_kept {a0 : Nat} {a1 : State} (ha1 : (a1).kept qs u = true) :
    ∀ t, @execIntakeBuildDone a0 a1 = .next t → t.kept qs u = true := by
  unfold execIntakeBuildDone
  refine live_kept ha1 ?_
  try dsimp only
  repeat' (first
    | with_reducible assumption
    | with_reducible apply State.onFlight_kept
    | with_reducible apply Work.read_kept
    | with_reducible apply Work.start_kept
    | with_reducible apply State.intakeDrop_kept
    | with_reducible apply State.fillEnts_kept
    | intro _
    | split
    | with_reducible apply kept_fold
    | with_reducible apply kept_fold1
    | with_reducible apply kept_foldW
    | with_reducible apply kept_foldW1
    | with_reducible apply kept_foldH
    | with_reducible apply kept_foldH1
    | with_reducible refine kept_fst ?_ (by with_reducible assumption)
    | with_reducible refine kept_fstW ?_ (by with_reducible assumption)
    | with_reducible refine kept_fstH ?_ (by with_reducible assumption)
    | (simp only [↓kept_mk]; with_reducible refine kept_of ?_))

theorem State.commit_kept {a0 : State} {a1 : Build} {a2 : Bool} {a3 : BitVec 256} {a4 : List NandReport} (ha0 : (a0).kept qs u = true) :
    (@State.commit a0 a1 a2 a3 a4).kept qs u = true := by
  unfold State.commit
  dsimp only
  repeat' (first
      | exact smapWf_set _ _ ‹_›
      | with_reducible assumption
      | with_reducible apply State.nandRelease_kept
      | with_reducible apply State.nandReport_kept
      | with_reducible apply State.nandPlace_kept
      | with_reducible apply State.count_kept
      | with_reducible apply State.setTensor_kept
      | intro _
      | split
      | with_reducible apply kept_fold
      | with_reducible apply kept_fold1
      | with_reducible apply kept_foldW
      | with_reducible apply kept_foldW1
      | with_reducible apply kept_foldH
      | with_reducible apply kept_foldH1
      | with_reducible refine kept_fst ?_ (by with_reducible assumption)
      | with_reducible refine kept_fstW ?_ (by with_reducible assumption)
      | with_reducible refine kept_fstH ?_ (by with_reducible assumption)
      | (simp only [↓kept_mk]; with_reducible refine kept_of ?_)
      | (simp only [↓kept_mk]; with_reducible refine kept_setPl ?_ ?_)
      | (simp only [↓kept_mk]; with_reducible refine kept_setNand ?_ ?_)
      | (simp only [↓kept_mk]; with_reducible refine kept_setBed ?_ ?_)
      | (simp only [↓kept_mk]; with_reducible refine kept_setHbm ?_ ?_)
      | (simp only [↓kept_mk]; with_reducible refine kept_setRegs ?_ ?_)
      | (simp only [↓kept_mk]; with_reducible refine kept_setMarks ?_ ?_)
      | with_reducible exact wf_nil _
      | with_reducible exact smapWf_nil _
      | with_reducible apply wf_memWrite
      | with_reducible apply wf_memClear
      | with_reducible apply smapWf_set
      | with_reducible apply smapWf_clear
      | with_reducible apply wf_fold
      | with_reducible refine kept_pl (qs := qs) (u := u) ?_
      | with_reducible refine kept_nand (qs := qs) (u := u) ?_
      | with_reducible refine kept_bed (qs := qs) (u := u) ?_
      | with_reducible refine kept_hbm (qs := qs) (u := u) ?_
      | with_reducible refine kept_regs (qs := qs) (u := u) ?_
      | with_reducible refine kept_marks (qs := qs) (u := u) ?_)

theorem execIntakeCommit_kept {a0 : Nat} {a1 : List NandReport} {a2 : State} (ha2 : (a2).kept qs u = true) :
    ∀ t, @execIntakeCommit a0 a2 a1 = .next t → t.kept qs u = true := by
  unfold execIntakeCommit
  refine live_kept ha2 ?_
  try dsimp only
  repeat' (first
    | with_reducible assumption
    | with_reducible apply State.onFlight_kept
    | with_reducible apply Work.result_kept
    | with_reducible apply Work.start_kept
    | with_reducible apply State.intakeDrop_kept
    | with_reducible apply State.wakeScans_kept
    | with_reducible apply State.putFlight_kept
    | with_reducible apply Work.apply_kept
    | with_reducible apply State.commit_kept
    | intro _
    | split
    | with_reducible apply kept_fold
    | with_reducible apply kept_fold1
    | with_reducible apply kept_foldW
    | with_reducible apply kept_foldW1
    | with_reducible apply kept_foldH
    | with_reducible apply kept_foldH1
    | with_reducible refine kept_fst ?_ (by with_reducible assumption)
    | with_reducible refine kept_fstW ?_ (by with_reducible assumption)
    | with_reducible refine kept_fstH ?_ (by with_reducible assumption)
    | (simp only [↓kept_mk]; with_reducible refine kept_of ?_))

theorem State.swapTensors_kept {a0 : State} {a1 : Nat} {a2 : Nat} (ha0 : (a0).kept qs u = true) :
    (@State.swapTensors a0 a1 a2).kept qs u = true := by
  unfold State.swapTensors
  try dsimp only
  repeat' (first
    | with_reducible assumption
    | with_reducible apply State.setTensor_kept
    | intro _
    | split
    | with_reducible apply kept_fold
    | with_reducible apply kept_fold1
    | with_reducible apply kept_foldW
    | with_reducible apply kept_foldW1
    | with_reducible apply kept_foldH
    | with_reducible apply kept_foldH1
    | with_reducible refine kept_fst ?_ (by with_reducible assumption)
    | with_reducible refine kept_fstW ?_ (by with_reducible assumption)
    | with_reducible refine kept_fstH ?_ (by with_reducible assumption)
    | (simp only [↓kept_mk]; with_reducible refine kept_of ?_))

theorem execSwap_kept {a0 : Nat} {a1 : State} (ha1 : (a1).kept qs u = true) :
    ∀ t, @execSwap a0 a1 = .next t → t.kept qs u = true := by
  unfold execSwap
  refine live_kept ha1 ?_
  try dsimp only
  repeat' (first
    | with_reducible assumption
    | with_reducible apply State.quarry_kept
    | with_reducible apply Work.withTensor_kept
    | with_reducible apply Work.fail_kept
    | with_reducible apply Work.mapS_kept
    | with_reducible apply State.swapTensors_kept
    | intro _
    | split
    | with_reducible apply kept_fold
    | with_reducible apply kept_fold1
    | with_reducible apply kept_foldW
    | with_reducible apply kept_foldW1
    | with_reducible apply kept_foldH
    | with_reducible apply kept_foldH1
    | with_reducible refine kept_fst ?_ (by with_reducible assumption)
    | with_reducible refine kept_fstW ?_ (by with_reducible assumption)
    | with_reducible refine kept_fstH ?_ (by with_reducible assumption)
    | (simp only [↓kept_mk]; with_reducible refine kept_of ?_))

theorem State.scrubTensor_kept {a0 : State} {a1 : Nat} {a2 : List NandReport} (ha0 : (a0).kept qs u = true) :
    (@State.scrubTensor a0 a1 a2).1.kept qs u = true := by
  unfold State.scrubTensor
  try dsimp only
  repeat' (first
    | with_reducible assumption
    | with_reducible apply State.nandReport_kept
    | with_reducible apply State.nandReads_kept
    | with_reducible apply State.count_kept
    | with_reducible apply State.setTensor_kept
    | with_reducible apply State.poisonTensor_kept
    | intro _
    | split
    | with_reducible apply kept_fold
    | with_reducible apply kept_fold1
    | with_reducible apply kept_foldW
    | with_reducible apply kept_foldW1
    | with_reducible apply kept_foldH
    | with_reducible apply kept_foldH1
    | with_reducible refine kept_fst ?_ (by with_reducible assumption)
    | with_reducible refine kept_fstW ?_ (by with_reducible assumption)
    | with_reducible refine kept_fstH ?_ (by with_reducible assumption)
    | (simp only [↓kept_mk]; with_reducible refine kept_of ?_))

theorem execScrub_kept {a0 : Nat} {a1 : List NandReport} {a2 : State} (ha2 : (a2).kept qs u = true) :
    ∀ t, @execScrub a0 a2 a1 = .next t → t.kept qs u = true := by
  unfold execScrub
  refine live_kept ha2 ?_
  try dsimp only
  repeat' (first
    | with_reducible assumption
    | with_reducible apply State.quarry_kept
    | with_reducible apply Work.withTensor_kept
    | with_reducible apply State.scrubTensor_kept
    | with_reducible apply Work.result_kept
    | with_reducible apply Work.fail_kept
    | intro _
    | split
    | with_reducible apply kept_fold
    | with_reducible apply kept_fold1
    | with_reducible apply kept_foldW
    | with_reducible apply kept_foldW1
    | with_reducible apply kept_foldH
    | with_reducible apply kept_foldH1
    | with_reducible refine kept_fst ?_ (by with_reducible assumption)
    | with_reducible refine kept_fstW ?_ (by with_reducible assumption)
    | with_reducible refine kept_fstH ?_ (by with_reducible assumption)
    | (simp only [↓kept_mk]; with_reducible refine kept_of ?_))

theorem execDigestScrubPass_kept {a0 : Fin 262144} {a1 : List NandReport} {a2 : State} (ha2 : (a2).kept qs u = true) :
    ∀ t, @execDigestScrubPass a0 a2 a1 = .next t → t.kept qs u = true := by
  unfold execDigestScrubPass
  refine live_kept ha2 ?_
  try dsimp only
  repeat' (first
    | with_reducible assumption
    | with_reducible apply State.scrubTensor_kept
    | intro _
    | split
    | with_reducible apply kept_fold
    | with_reducible apply kept_fold1
    | with_reducible apply kept_foldW
    | with_reducible apply kept_foldW1
    | with_reducible apply kept_foldH
    | with_reducible apply kept_foldH1
    | with_reducible refine kept_fst ?_ (by with_reducible assumption)
    | with_reducible refine kept_fstW ?_ (by with_reducible assumption)
    | with_reducible refine kept_fstH ?_ (by with_reducible assumption)
    | (simp only [↓kept_mk]; with_reducible refine kept_of ?_))

theorem blockStep_kept {a0 : State} {a1 : Flight} (ha0 : (a0).kept qs u = true) :
    (@blockStep a0 a1).1.s.kept qs u = true := by
  unfold blockStep
  try dsimp only
  repeat' (first
    | with_reducible assumption
    | with_reducible apply Work.start_kept
    | with_reducible apply Work.aeParams_kept
    | with_reducible apply Work.ceParams_kept
    | with_reducible apply Work.veParams_kept
    | with_reducible apply Work.leParams_kept
    | with_reducible apply Work.heParams_kept
    | intro _
    | split
    | with_reducible apply kept_fold
    | with_reducible apply kept_fold1
    | with_reducible apply kept_foldW
    | with_reducible apply kept_foldW1
    | with_reducible apply kept_foldH
    | with_reducible apply kept_foldH1
    | with_reducible refine kept_fst ?_ (by with_reducible assumption)
    | with_reducible refine kept_fstW ?_ (by with_reducible assumption)
    | with_reducible refine kept_fstH ?_ (by with_reducible assumption)
    | (simp only [↓kept_mk]; with_reducible refine kept_of ?_))

theorem classStart_kept {a0 : Nat} {a1 : Flight} {a2 : Work} (ha2 : (a2).s.kept qs u = true) :
    (@classStart a0 a1 a2).1.s.kept qs u = true := by
  unfold classStart
  try dsimp only
  repeat' (first
    | with_reducible assumption
    | with_reducible apply aeStart_kept
    | with_reducible apply ceStart_kept
    | with_reducible apply heStart_kept
    | intro _
    | split
    | with_reducible apply kept_fold
    | with_reducible apply kept_fold1
    | with_reducible apply kept_foldW
    | with_reducible apply kept_foldW1
    | with_reducible apply kept_foldH
    | with_reducible apply kept_foldH1
    | with_reducible refine kept_fst ?_ (by with_reducible assumption)
    | with_reducible refine kept_fstW ?_ (by with_reducible assumption)
    | with_reducible refine kept_fstH ?_ (by with_reducible assumption)
    | (simp only [↓kept_mk]; with_reducible refine kept_of ?_))

theorem State.jqAdvance_kept {a0 : State} {a1 : Nat} {a2 : Nat} {a3 : Bool} (ha0 : (a0).kept qs u = true) :
    (@State.jqAdvance a0 a1 a2 a3).kept qs u = true := by
  unfold State.jqAdvance
  try dsimp only
  repeat' (first
    | with_reducible assumption
    | with_reducible apply State.setRegN_kept
    | with_reducible apply State.setJobQ_kept
    | with_reducible apply State.unlatch_kept
    | with_reducible apply State.jqRefresh_kept
    | with_reducible apply State.latch_kept
    | with_reducible apply State.park_kept
    | intro _
    | split
    | with_reducible apply kept_fold
    | with_reducible apply kept_fold1
    | with_reducible apply kept_foldW
    | with_reducible apply kept_foldW1
    | with_reducible apply kept_foldH
    | with_reducible apply kept_foldH1
    | with_reducible refine kept_fst ?_ (by with_reducible assumption)
    | with_reducible refine kept_fstW ?_ (by with_reducible assumption)
    | with_reducible refine kept_fstH ?_ (by with_reducible assumption)
    | (simp only [↓kept_mk]; with_reducible refine kept_of ?_))

theorem State.addFlight_kept {a0 : State} {a1 : Flight} (ha0 : (a0).kept qs u = true) :
    (@State.addFlight a0 a1).kept qs u = true := by
  unfold State.addFlight
  try dsimp only
  repeat' (first
    | with_reducible assumption
    | intro _
    | split
    | with_reducible apply kept_fold
    | with_reducible apply kept_fold1
    | with_reducible apply kept_foldW
    | with_reducible apply kept_foldW1
    | with_reducible apply kept_foldH
    | with_reducible apply kept_foldH1
    | with_reducible refine kept_fst ?_ (by with_reducible assumption)
    | with_reducible refine kept_fstW ?_ (by with_reducible assumption)
    | with_reducible refine kept_fstH ?_ (by with_reducible assumption)
    | (simp only [↓kept_mk]; with_reducible refine kept_of ?_))

theorem State.undispatched_kept {a0 : State} {a1 : Flight} {a2 : Nat} {a3 : Nat} (ha0 : (a0).kept qs u = true) :
    (@State.undispatched a0 a1 a2 a3).kept qs u = true := by
  unfold State.undispatched
  try dsimp only
  repeat' (first
    | with_reducible assumption
    | with_reducible apply State.jqAdvance_kept
    | with_reducible apply State.addFlight_kept
    | intro _
    | split
    | with_reducible apply kept_fold
    | with_reducible apply kept_fold1
    | with_reducible apply kept_foldW
    | with_reducible apply kept_foldW1
    | with_reducible apply kept_foldH
    | with_reducible apply kept_foldH1
    | with_reducible refine kept_fst ?_ (by with_reducible assumption)
    | with_reducible refine kept_fstW ?_ (by with_reducible assumption)
    | with_reducible refine kept_fstH ?_ (by with_reducible assumption)
    | (simp only [↓kept_mk]; with_reducible refine kept_of ?_))

theorem State.clearImage_kept {a0 : State} {a1 : Nat} (ha0 : (a0).kept qs u = true) :
    (@State.clearImage a0 a1).kept qs u = true := by
  unfold State.clearImage
  try dsimp only
  repeat' (first
    | with_reducible assumption
    | with_reducible apply State.setReg_kept
    | with_reducible apply State.setField_kept
    | with_reducible apply State.setBit_kept
    | intro _
    | split
    | with_reducible apply kept_fold
    | with_reducible apply kept_fold1
    | with_reducible apply kept_foldW
    | with_reducible apply kept_foldW1
    | with_reducible apply kept_foldH
    | with_reducible apply kept_foldH1
    | with_reducible refine kept_fst ?_ (by with_reducible assumption)
    | with_reducible refine kept_fstW ?_ (by with_reducible assumption)
    | with_reducible refine kept_fstH ?_ (by with_reducible assumption)
    | (simp only [↓kept_mk]; with_reducible refine kept_of ?_))

theorem State.engage_kept {a0 : State} {a1 : Flight} (ha0 : (a0).kept qs u = true) :
    (@State.engage a0 a1).kept qs u = true := by
  unfold State.engage
  try dsimp only
  repeat' (first
    | with_reducible assumption
    | with_reducible apply State.clearResident_kept
    | with_reducible apply State.clearImage_kept
    | with_reducible apply State.setUnit_kept
    | with_reducible apply State.setRegN_kept
    | with_reducible apply State.setField_kept
    | with_reducible apply State.setBit_kept
    | intro _
    | split
    | with_reducible apply kept_fold
    | with_reducible apply kept_fold1
    | with_reducible apply kept_foldW
    | with_reducible apply kept_foldW1
    | with_reducible apply kept_foldH
    | with_reducible apply kept_foldH1
    | with_reducible refine kept_fst ?_ (by with_reducible assumption)
    | with_reducible refine kept_fstW ?_ (by with_reducible assumption)
    | with_reducible refine kept_fstH ?_ (by with_reducible assumption)
    | (simp only [↓kept_mk]; with_reducible refine kept_of ?_))

theorem State.dispatch_kept {a0 : State} {a1 : Flight} {a2 : Nat} (ha0 : (a0).kept qs u = true) :
    (@State.dispatch a0 a1 a2).kept qs u = true := by
  unfold State.dispatch
  try dsimp only
  repeat' (first
    | with_reducible assumption
    | with_reducible apply State.putFlight_kept
    | with_reducible apply State.addFlight_kept
    | with_reducible apply State.jqAdvance_kept
    | with_reducible apply State.engage_kept
    | with_reducible apply State.count_kept
    | intro _
    | split
    | with_reducible apply kept_fold
    | with_reducible apply kept_fold1
    | with_reducible apply kept_foldW
    | with_reducible apply kept_foldW1
    | with_reducible apply kept_foldH
    | with_reducible apply kept_foldH1
    | with_reducible refine kept_fst ?_ (by with_reducible assumption)
    | with_reducible refine kept_fstW ?_ (by with_reducible assumption)
    | with_reducible refine kept_fstH ?_ (by with_reducible assumption)
    | (simp only [↓kept_mk]; with_reducible refine kept_of ?_))

theorem State.stays_kept {a0 : State} {a1 : Nat} {a2 : Nat} (ha0 : (a0).kept qs u = true) :
    (@State.stays a0 a1 a2).kept qs u = true := by
  unfold State.stays
  try dsimp only
  repeat' (first
    | with_reducible assumption
    | intro _
    | split
    | with_reducible apply kept_fold
    | with_reducible apply kept_fold1
    | with_reducible apply kept_foldW
    | with_reducible apply kept_foldW1
    | with_reducible apply kept_foldH
    | with_reducible apply kept_foldH1
    | with_reducible refine kept_fst ?_ (by with_reducible assumption)
    | with_reducible refine kept_fstW ?_ (by with_reducible assumption)
    | with_reducible refine kept_fstH ?_ (by with_reducible assumption)
    | (simp only [↓kept_mk]; with_reducible refine kept_of ?_))

theorem State.undispatchable_kept {a0 : State} {a1 : Flight} {a2 : Nat} (ha0 : (a0).kept qs u = true) :
    (@State.undispatchable a0 a1 a2).kept qs u = true := by
  unfold State.undispatchable
  try dsimp only
  repeat' (first
    | with_reducible assumption
    | with_reducible apply blockStep_kept
    | with_reducible apply State.undispatched_kept
    | intro _
    | split
    | with_reducible apply kept_fold
    | with_reducible apply kept_fold1
    | with_reducible apply kept_foldW
    | with_reducible apply kept_foldW1
    | with_reducible apply kept_foldH
    | with_reducible apply kept_foldH1
    | with_reducible refine kept_fst ?_ (by with_reducible assumption)
    | with_reducible refine kept_fstW ?_ (by with_reducible assumption)
    | with_reducible refine kept_fstH ?_ (by with_reducible assumption)
    | (simp only [↓kept_mk]; with_reducible refine kept_of ?_))

theorem State.releaseHeld_kept {a0 : State} {a1 : Flight} {a2 : Nat} (ha0 : (a0).kept qs u = true) :
    (@State.releaseHeld a0 a1 a2).kept qs u = true := by
  unfold State.releaseHeld
  try dsimp only
  repeat' (first
    | with_reducible assumption
    | with_reducible apply State.count_kept
    | with_reducible apply State.dispatch_kept
    | with_reducible apply blockStep_kept
    | with_reducible apply State.undispatchable_kept
    | with_reducible apply State.resolveScan_kept
    | with_reducible apply State.addFlight_kept
    | with_reducible apply State.stays_kept
    | intro _
    | split
    | with_reducible apply kept_fold
    | with_reducible apply kept_fold1
    | with_reducible apply kept_foldW
    | with_reducible apply kept_foldW1
    | with_reducible apply kept_foldH
    | with_reducible apply kept_foldH1
    | with_reducible refine kept_fst ?_ (by with_reducible assumption)
    | with_reducible refine kept_fstW ?_ (by with_reducible assumption)
    | with_reducible refine kept_fstH ?_ (by with_reducible assumption)
    | (simp only [↓kept_mk]; with_reducible refine kept_of ?_))

theorem State.release_kept {a0 : State} {a1 : Nat} {a2 : Nat} {a3 : Nat} (ha0 : (a0).kept qs u = true) :
    (@State.release a0 a1 a2 a3).kept qs u = true := by
  unfold State.release
  try dsimp only
  repeat' (first
    | with_reducible assumption
    | with_reducible apply State.jqHead_kept
    | with_reducible apply State.undispatched_kept
    | with_reducible apply State.haltAll_kept
    | with_reducible apply State.undispatchable_kept
    | with_reducible apply State.releaseHeld_kept
    | intro _
    | split
    | with_reducible apply kept_fold
    | with_reducible apply kept_fold1
    | with_reducible apply kept_foldW
    | with_reducible apply kept_foldW1
    | with_reducible apply kept_foldH
    | with_reducible apply kept_foldH1
    | with_reducible refine kept_fst ?_ (by with_reducible assumption)
    | with_reducible refine kept_fstW ?_ (by with_reducible assumption)
    | with_reducible refine kept_fstH ?_ (by with_reducible assumption)
    | (simp only [↓kept_mk]; with_reducible refine kept_of ?_))

theorem State.reDispatch_kept {a0 : State} {a1 : Flight} {a2 : Nat} (ha0 : (a0).kept qs u = true) :
    (@State.reDispatch a0 a1 a2).kept qs u = true := by
  unfold State.reDispatch
  try dsimp only
  repeat' (first
    | with_reducible assumption
    | with_reducible apply State.putFlight_kept
    | with_reducible apply State.engage_kept
    | intro _
    | split
    | with_reducible apply kept_fold
    | with_reducible apply kept_fold1
    | with_reducible apply kept_foldW
    | with_reducible apply kept_foldW1
    | with_reducible apply kept_foldH
    | with_reducible apply kept_foldH1
    | with_reducible refine kept_fst ?_ (by with_reducible assumption)
    | with_reducible refine kept_fstW ?_ (by with_reducible assumption)
    | with_reducible refine kept_fstH ?_ (by with_reducible assumption)
    | (simp only [↓kept_mk]; with_reducible refine kept_of ?_))

theorem execDescriptorRelease_kept {a0 : Fin 16} {a1 : Fin 8} {a2 : Nat} {a3 : State} (ha3 : (a3).kept qs u = true) :
    ∀ t, @execDescriptorRelease a0 a1 a2 a3 = .next t → t.kept qs u = true := by
  unfold execDescriptorRelease
  refine live_kept ha3 ?_
  try dsimp only
  repeat' (first
    | with_reducible assumption
    | with_reducible apply State.reDispatch_kept
    | with_reducible apply State.dispatch_kept
    | with_reducible apply State.release_kept
    | intro _
    | split
    | with_reducible apply kept_fold
    | with_reducible apply kept_fold1
    | with_reducible apply kept_foldW
    | with_reducible apply kept_foldW1
    | with_reducible apply kept_foldH
    | with_reducible apply kept_foldH1
    | with_reducible refine kept_fst ?_ (by with_reducible assumption)
    | with_reducible refine kept_fstW ?_ (by with_reducible assumption)
    | with_reducible refine kept_fstH ?_ (by with_reducible assumption)
    | (simp only [↓kept_mk]; with_reducible refine kept_of ?_))

theorem State.applySignals_kept {a0 : State} {a1 : Flight} {a2 : Nat} (ha0 : (a0).kept qs u = true) :
    (@State.applySignals a0 a1 a2).kept qs u = true := by
  unfold State.applySignals
  try dsimp only
  repeat' (first
    | with_reducible assumption
    | with_reducible apply State.signalSlot_kept
    | intro _
    | split
    | with_reducible apply kept_fold
    | with_reducible apply kept_fold1
    | with_reducible apply kept_foldW
    | with_reducible apply kept_foldW1
    | with_reducible apply kept_foldH
    | with_reducible apply kept_foldH1
    | with_reducible refine kept_fst ?_ (by with_reducible assumption)
    | with_reducible refine kept_fstW ?_ (by with_reducible assumption)
    | with_reducible refine kept_fstH ?_ (by with_reducible assumption)
    | (simp only [↓kept_mk]; with_reducible refine kept_of ?_))

theorem State.troughClear_kept {a0 : State} {a1 : Nat} (ha0 : (a0).kept qs u = true) :
    (@State.troughClear a0 a1).kept qs u = true := by
  unfold State.troughClear
  try dsimp only
  repeat' (first
    | with_reducible assumption
    | with_reducible apply State.setBit_kept
    | with_reducible apply State.troughAbort_kept
    | intro _
    | split
    | with_reducible apply kept_fold
    | with_reducible apply kept_fold1
    | with_reducible apply kept_foldW
    | with_reducible apply kept_foldW1
    | with_reducible apply kept_foldH
    | with_reducible apply kept_foldH1
    | with_reducible refine kept_fst ?_ (by with_reducible assumption)
    | with_reducible refine kept_fstW ?_ (by with_reducible assumption)
    | with_reducible refine kept_fstH ?_ (by with_reducible assumption)
    | (simp only [↓kept_mk]; with_reducible refine kept_of ?_))

theorem Flight.done_kept {a0 : Flight} {a1 : State} (ha1 : (a1).kept qs u = true) :
    (@Flight.done a0 a1).kept qs u = true := by
  unfold Flight.done
  try dsimp only
  repeat' (first
    | with_reducible assumption
    | with_reducible apply State.writePhys_kept
    | with_reducible apply State.applySignals_kept
    | with_reducible apply State.cqWrite_kept
    | with_reducible apply State.event_kept
    | with_reducible apply State.halt_kept
    | with_reducible apply State.count_kept
    | with_reducible apply State.setBit_kept
    | with_reducible apply State.jqAdvance_kept
    | with_reducible apply State.troughClear_kept
    | with_reducible apply State.dropFlight_kept
    | intro _
    | split
    | with_reducible apply kept_fold
    | with_reducible apply kept_fold1
    | with_reducible apply kept_foldW
    | with_reducible apply kept_foldW1
    | with_reducible apply kept_foldH
    | with_reducible apply kept_foldH1
    | with_reducible refine kept_fst ?_ (by with_reducible assumption)
    | with_reducible refine kept_fstW ?_ (by with_reducible assumption)
    | with_reducible refine kept_fstH ?_ (by with_reducible assumption)
    | (simp only [↓kept_mk]; with_reducible refine kept_of ?_))

theorem State.complete_kept {a0 : State} {a1 : Nat} (ha0 : (a0).kept qs u = true) :
    (@State.complete a0 a1).kept qs u = true := by
  unfold State.complete
  try dsimp only
  repeat' (first
    | with_reducible assumption
    | with_reducible apply State.onFlight_kept
    | with_reducible apply State.wakeScans_kept
    | with_reducible apply Flight.done_kept
    | intro _
    | split
    | with_reducible apply kept_fold
    | with_reducible apply kept_fold1
    | with_reducible apply kept_foldW
    | with_reducible apply kept_foldW1
    | with_reducible apply kept_foldH
    | with_reducible apply kept_foldH1
    | with_reducible refine kept_fst ?_ (by with_reducible assumption)
    | with_reducible refine kept_fstW ?_ (by with_reducible assumption)
    | with_reducible refine kept_fstH ?_ (by with_reducible assumption)
    | (simp only [↓kept_mk]; with_reducible refine kept_of ?_))

theorem execDescriptorComplete_kept {a0 : Nat} {a1 : State} (ha1 : (a1).kept qs u = true) :
    ∀ t, @execDescriptorComplete a0 a1 = .next t → t.kept qs u = true := by
  unfold execDescriptorComplete
  refine live_kept ha1 ?_
  try dsimp only
  repeat' (first
    | with_reducible assumption
    | with_reducible apply State.complete_kept
    | intro _
    | split
    | with_reducible apply kept_fold
    | with_reducible apply kept_fold1
    | with_reducible apply kept_foldW
    | with_reducible apply kept_foldW1
    | with_reducible apply kept_foldH
    | with_reducible apply kept_foldH1
    | with_reducible refine kept_fst ?_ (by with_reducible assumption)
    | with_reducible refine kept_fstW ?_ (by with_reducible assumption)
    | with_reducible refine kept_fstH ?_ (by with_reducible assumption)
    | (simp only [↓kept_mk]; with_reducible refine kept_of ?_))

theorem execMeleopinDescriptor_kept {a0 : Nat} {a1 : State} (ha1 : (a1).kept qs u = true) :
    ∀ t, @execMeleopinDescriptor a0 a1 = .next t → t.kept qs u = true := by
  unfold execMeleopinDescriptor
  refine live_kept ha1 ?_
  try dsimp only
  repeat' (first
    | with_reducible assumption
    | with_reducible apply State.runFlight_kept
    | intro _
    | split
    | with_reducible apply kept_fold
    | with_reducible apply kept_fold1
    | with_reducible apply kept_foldW
    | with_reducible apply kept_foldW1
    | with_reducible apply kept_foldH
    | with_reducible apply kept_foldH1
    | with_reducible refine kept_fst ?_ (by with_reducible assumption)
    | with_reducible refine kept_fstW ?_ (by with_reducible assumption)
    | with_reducible refine kept_fstH ?_ (by with_reducible assumption)
    | (simp only [↓kept_mk]; with_reducible refine kept_of ?_))

theorem State.troughWrite_kept {a0 : State} {a1 : Nat} {a2 : Nat} (ha0 : (a0).kept qs u = true) :
    (@State.troughWrite a0 a1 a2).kept qs u = true := by
  unfold State.troughWrite
  try dsimp only
  repeat' (first
    | with_reducible assumption
    | with_reducible apply State.blkErr_kept
    | with_reducible apply State.troughOn_kept
    | with_reducible apply State.troughAbort_kept
    | with_reducible apply State.setRegN_kept
    | intro _
    | split
    | with_reducible apply kept_fold
    | with_reducible apply kept_fold1
    | with_reducible apply kept_foldW
    | with_reducible apply kept_foldW1
    | with_reducible apply kept_foldH
    | with_reducible apply kept_foldH1
    | with_reducible refine kept_fst ?_ (by with_reducible assumption)
    | with_reducible refine kept_fstW ?_ (by with_reducible assumption)
    | with_reducible refine kept_fstH ?_ (by with_reducible assumption)
    | (simp only [↓kept_mk]; with_reducible refine kept_of ?_))

theorem execTroughEnable_kept {a0 : Bool} {a1 : Fin 256} {a2 : Word} {a3 : State} (ha3 : (a3).kept qs u = true) :
    ∀ t, @execTroughEnable a0 a1 a2 a3 = .next t → t.kept qs u = true := by
  unfold execTroughEnable
  refine live_kept ha3 ?_
  try dsimp only
  repeat' (first
    | with_reducible assumption
    | with_reducible apply State.allow_kept
    | with_reducible apply State.troughWrite_kept
    | intro _
    | split
    | with_reducible apply kept_fold
    | with_reducible apply kept_fold1
    | with_reducible apply kept_foldW
    | with_reducible apply kept_foldW1
    | with_reducible apply kept_foldH
    | with_reducible apply kept_foldH1
    | with_reducible refine kept_fst ?_ (by with_reducible assumption)
    | with_reducible refine kept_fstW ?_ (by with_reducible assumption)
    | with_reducible refine kept_fstH ?_ (by with_reducible assumption)
    | (simp only [↓kept_mk]; with_reducible refine kept_of ?_))

theorem execTroughDisable_kept {a0 : Bool} {a1 : Fin 256} {a2 : Word} {a3 : State} (ha3 : (a3).kept qs u = true) :
    ∀ t, @execTroughDisable a0 a1 a2 a3 = .next t → t.kept qs u = true := by
  unfold execTroughDisable
  refine live_kept ha3 ?_
  try dsimp only
  repeat' (first
    | with_reducible assumption
    | with_reducible apply State.allow_kept
    | with_reducible apply State.troughWrite_kept
    | intro _
    | split
    | with_reducible apply kept_fold
    | with_reducible apply kept_fold1
    | with_reducible apply kept_foldW
    | with_reducible apply kept_foldW1
    | with_reducible apply kept_foldH
    | with_reducible apply kept_foldH1
    | with_reducible refine kept_fst ?_ (by with_reducible assumption)
    | with_reducible refine kept_fstW ?_ (by with_reducible assumption)
    | with_reducible refine kept_fstH ?_ (by with_reducible assumption)
    | (simp only [↓kept_mk]; with_reducible refine kept_of ?_))

theorem State.atTrough_kept {a0 : State} {a1 : Flight} {a2 : TrUse} {a3 : State → State} (ha0 : (a0).kept qs u = true) (ha3 : ∀ y0, (y0).kept qs u = true → (a3 y0).kept qs u = true) :
    (@State.atTrough a0 a1 a2 a3).kept qs u = true := by
  unfold State.atTrough
  try dsimp only
  repeat' (first
    | with_reducible assumption
    | with_reducible apply State.troughEnd_kept
    | with_reducible apply State.setBit_kept
    | with_reducible apply State.waited_kept
    | with_reducible apply State.putFlight_kept
    | with_reducible apply ha3
    | intro _
    | split
    | with_reducible apply kept_fold
    | with_reducible apply kept_fold1
    | with_reducible apply kept_foldW
    | with_reducible apply kept_foldW1
    | with_reducible apply kept_foldH
    | with_reducible apply kept_foldH1
    | with_reducible refine kept_fst ?_ (by with_reducible assumption)
    | with_reducible refine kept_fstW ?_ (by with_reducible assumption)
    | with_reducible refine kept_fstH ?_ (by with_reducible assumption)
    | (simp only [↓kept_mk]; with_reducible refine kept_of ?_))

theorem execTroughRecordProduce_kept {a0 : Nat} {a1 : State} (ha1 : (a1).kept qs u = true) :
    ∀ t, @execTroughRecordProduce a0 a1 = .next t → t.kept qs u = true := by
  unfold execTroughRecordProduce
  refine live_kept ha1 ?_
  try dsimp only
  repeat' (first
    | with_reducible assumption
    | with_reducible apply State.onFlight_kept
    | with_reducible apply State.atTrough_kept
    | with_reducible apply State.writePhys_kept
    | with_reducible apply State.putFlight_kept
    | with_reducible apply State.signalMark_kept
    | intro _
    | split
    | with_reducible apply kept_fold
    | with_reducible apply kept_fold1
    | with_reducible apply kept_foldW
    | with_reducible apply kept_foldW1
    | with_reducible apply kept_foldH
    | with_reducible apply kept_foldH1
    | with_reducible refine kept_fst ?_ (by with_reducible assumption)
    | with_reducible refine kept_fstW ?_ (by with_reducible assumption)
    | with_reducible refine kept_fstH ?_ (by with_reducible assumption)
    | (simp only [↓kept_mk]; with_reducible refine kept_of ?_))

theorem State.consume_kept {a0 : State} {a1 : Flight} {a2 : TrUse} (ha0 : (a0).kept qs u = true) :
    (@State.consume a0 a1 a2).kept qs u = true := by
  unfold State.consume
  try dsimp only
  repeat' (first
    | with_reducible assumption
    | with_reducible apply State.logPoison_kept
    | with_reducible apply State.waited_kept
    | with_reducible apply State.putFlight_kept
    | with_reducible apply State.signalMark_kept
    | intro _
    | split
    | with_reducible apply kept_fold
    | with_reducible apply kept_fold1
    | with_reducible apply kept_foldW
    | with_reducible apply kept_foldW1
    | with_reducible apply kept_foldH
    | with_reducible apply kept_foldH1
    | with_reducible refine kept_fst ?_ (by with_reducible assumption)
    | with_reducible refine kept_fstW ?_ (by with_reducible assumption)
    | with_reducible refine kept_fstH ?_ (by with_reducible assumption)
    | (simp only [↓kept_mk]; with_reducible refine kept_of ?_))

theorem execTroughRecordConsume_kept {a0 : Nat} {a1 : State} (ha1 : (a1).kept qs u = true) :
    ∀ t, @execTroughRecordConsume a0 a1 = .next t → t.kept qs u = true := by
  unfold execTroughRecordConsume
  refine live_kept ha1 ?_
  try dsimp only
  repeat' (first
    | with_reducible assumption
    | with_reducible apply State.onFlight_kept
    | with_reducible apply State.begin_kept
    | with_reducible apply classStart_kept
    | with_reducible apply State.putFlight_kept
    | with_reducible apply State.atTrough_kept
    | with_reducible apply State.consume_kept
    | intro _
    | split
    | with_reducible apply kept_fold
    | with_reducible apply kept_fold1
    | with_reducible apply kept_foldW
    | with_reducible apply kept_foldW1
    | with_reducible apply kept_foldH
    | with_reducible apply kept_foldH1
    | with_reducible refine kept_fst ?_ (by with_reducible assumption)
    | with_reducible refine kept_fstW ?_ (by with_reducible assumption)
    | with_reducible refine kept_fstH ?_ (by with_reducible assumption)
    | (simp only [↓kept_mk]; with_reducible refine kept_of ?_))

end Sys2Proof.Machine
end

