-- ==== Sys2Proof/Laws/KeptService.lean ====
section
/-! SUPPORT. What no command disturbs is kept. -/

namespace Sys2Proof.Machine

variable {qs : List Instr} {u : Bool}

theorem State.pwrErr_kept {a0 : State} (ha0 : (a0).kept qs u = true) :
    (@State.pwrErr a0).kept qs u = true := by
  unfold State.pwrErr
  try dsimp only
  repeat' (first
    | with_reducible assumption
    | with_reducible apply State.blkErr_kept
    | intro _
    | split
    | with_reducible apply kept_fold
    | with_reducible apply kept_fold1
    | with_reducible apply kept_foldW
    | with_reducible apply kept_foldW1
    | with_reducible apply kept_foldH
    | with_reducible apply kept_foldH1
    | with_reducible refine kept_fst ?_ (by with_reducible assumption)
    | with_reducible refine kept_fstW ?_ (by with_reducible assumption)
    | with_reducible refine kept_fstH ?_ (by with_reducible assumption)
    | (simp only [↓kept_mk]; with_reducible refine kept_of ?_))

theorem State.showCap_kept {a0 : State} (ha0 : (a0).kept qs u = true) :
    (@State.showCap a0).kept qs u = true := by
  unfold State.showCap
  try dsimp only
  repeat' (first
    | with_reducible assumption
    | with_reducible apply State.setField_kept
    | with_reducible apply State.setBit_kept
    | intro _
    | split
    | with_reducible apply kept_fold
    | with_reducible apply kept_fold1
    | with_reducible apply kept_foldW
    | with_reducible apply kept_foldW1
    | with_reducible apply kept_foldH
    | with_reducible apply kept_foldH1
    | with_reducible refine kept_fst ?_ (by with_reducible assumption)
    | with_reducible refine kept_fstW ?_ (by with_reducible assumption)
    | with_reducible refine kept_fstH ?_ (by with_reducible assumption)
    | (simp only [↓kept_mk]; with_reducible refine kept_of ?_))

theorem State.capWrite_kept {a0 : State} {a1 : Nat} (ha0 : (a0).kept qs u = true) :
    (@State.capWrite a0 a1).kept qs u = true := by
  unfold State.capWrite
  try dsimp only
  repeat' (first
    | with_reducible assumption
    | with_reducible apply State.showCap_kept
    | with_reducible apply State.setRegN_kept
    | with_reducible apply State.pwrErr_kept
    | intro _
    | split
    | with_reducible apply kept_fold
    | with_reducible apply kept_fold1
    | with_reducible apply kept_foldW
    | with_reducible apply kept_foldW1
    | with_reducible apply kept_foldH
    | with_reducible apply kept_foldH1
    | with_reducible refine kept_fst ?_ (by with_reducible assumption)
    | with_reducible refine kept_fstW ?_ (by with_reducible assumption)
    | with_reducible refine kept_fstH ?_ (by with_reducible assumption)
    | (simp only [↓kept_mk]; with_reducible refine kept_of ?_))

theorem State.showRamp_kept {a0 : State} {a1 : Nat} (ha0 : (a0).kept qs u = true) :
    (@State.showRamp a0 a1).kept qs u = true := by
  unfold State.showRamp
  try dsimp only
  repeat' (first
    | with_reducible assumption
    | with_reducible apply State.setBit_kept
    | intro _
    | split
    | with_reducible apply kept_fold
    | with_reducible apply kept_fold1
    | with_reducible apply kept_foldW
    | with_reducible apply kept_foldW1
    | with_reducible apply kept_foldH
    | with_reducible apply kept_foldH1
    | with_reducible refine kept_fst ?_ (by with_reducible assumption)
    | with_reducible refine kept_fstW ?_ (by with_reducible assumption)
    | with_reducible refine kept_fstH ?_ (by with_reducible assumption)
    | (simp only [↓kept_mk]; with_reducible refine kept_of ?_))

theorem State.fsetWrite_kept {a0 : State} {a1 : Nat} {a2 : Nat} (ha0 : (a0).kept qs u = true) :
    (@State.fsetWrite a0 a1 a2).kept qs u = true := by
  unfold State.fsetWrite
  try dsimp only
  repeat' (first
    | with_reducible assumption
    | with_reducible apply State.pwrErr_kept
    | with_reducible apply State.setRegN_kept
    | with_reducible apply State.showRamp_kept
    | intro _
    | split
    | with_reducible apply kept_fold
    | with_reducible apply kept_fold1
    | with_reducible apply kept_foldW
    | with_reducible apply kept_foldW1
    | with_reducible apply kept_foldH
    | with_reducible apply kept_foldH1
    | with_reducible refine kept_fst ?_ (by with_reducible assumption)
    | with_reducible refine kept_fstW ?_ (by with_reducible assumption)
    | with_reducible refine kept_fstH ?_ (by with_reducible assumption)
    | (simp only [↓kept_mk]; with_reducible refine kept_of ?_))

theorem execFsetWrite_kept {a0 : Bool} {a1 : Fin 113} {a2 : Word} {a3 : State} (ha3 : (a3).kept qs u = true) :
    ∀ t, @execFsetWrite a0 a1 a2 a3 = .next t → t.kept qs u = true := by
  unfold execFsetWrite
  refine live_kept ha3 ?_
  try dsimp only
  repeat' (first
    | with_reducible assumption
    | with_reducible apply State.allow_kept
    | with_reducible apply State.fsetWrite_kept
    | intro _
    | split
    | with_reducible apply kept_fold
    | with_reducible apply kept_fold1
    | with_reducible apply kept_foldW
    | with_reducible apply kept_foldW1
    | with_reducible apply kept_foldH
    | with_reducible apply kept_foldH1
    | with_reducible refine kept_fst ?_ (by with_reducible assumption)
    | with_reducible refine kept_fstW ?_ (by with_reducible assumption)
    | with_reducible refine kept_fstH ?_ (by with_reducible assumption)
    | (simp only [↓kept_mk]; with_reducible refine kept_of ?_))

theorem execRampStep_kept {a0 : Fin 113} {a1 : State} (ha1 : (a1).kept qs u = true) :
    ∀ t, @execRampStep a0 a1 = .next t → t.kept qs u = true := by
  unfold execRampStep
  refine live_kept ha1 ?_
  try dsimp only
  repeat' (first
    | with_reducible assumption
    | with_reducible apply State.showRamp_kept
    | with_reducible apply State.setBit_kept
    | with_reducible apply State.setField_kept
    | intro _
    | split
    | with_reducible apply kept_fold
    | with_reducible apply kept_fold1
    | with_reducible apply kept_foldW
    | with_reducible apply kept_foldW1
    | with_reducible apply kept_foldH
    | with_reducible apply kept_foldH1
    | with_reducible refine kept_fst ?_ (by with_reducible assumption)
    | with_reducible refine kept_fstW ?_ (by with_reducible assumption)
    | with_reducible refine kept_fstH ?_ (by with_reducible assumption)
    | (simp only [↓kept_mk]; with_reducible refine kept_of ?_))

theorem execDroopTrip_kept {a0 : Fin 113} {a1 : State} (ha1 : (a1).kept qs u = true) :
    ∀ t, @execDroopTrip a0 a1 = .next t → t.kept qs u = true := by
  unfold execDroopTrip
  refine live_kept ha1 ?_
  try dsimp only
  repeat' (first
    | with_reducible assumption
    | with_reducible apply State.setField_kept
    | with_reducible apply State.setBit_kept
    | with_reducible apply State.showRamp_kept
    | intro _
    | split
    | with_reducible apply kept_fold
    | with_reducible apply kept_fold1
    | with_reducible apply kept_foldW
    | with_reducible apply kept_foldW1
    | with_reducible apply kept_foldH
    | with_reducible apply kept_foldH1
    | with_reducible refine kept_fst ?_ (by with_reducible assumption)
    | with_reducible refine kept_fstW ?_ (by with_reducible assumption)
    | with_reducible refine kept_fstH ?_ (by with_reducible assumption)
    | (simp only [↓kept_mk]; with_reducible refine kept_of ?_))

theorem execDroopClear_kept {a0 : Fin 113} {a1 : State} (ha1 : (a1).kept qs u = true) :
    ∀ t, @execDroopClear a0 a1 = .next t → t.kept qs u = true := by
  unfold execDroopClear
  refine live_kept ha1 ?_
  try dsimp only
  repeat' (first
    | with_reducible assumption
    | with_reducible apply State.showRamp_kept
    | with_reducible apply State.setBit_kept
    | intro _
    | split
    | with_reducible apply kept_fold
    | with_reducible apply kept_fold1
    | with_reducible apply kept_foldW
    | with_reducible apply kept_foldW1
    | with_reducible apply kept_foldH
    | with_reducible apply kept_foldH1
    | with_reducible refine kept_fst ?_ (by with_reducible assumption)
    | with_reducible refine kept_fstW ?_ (by with_reducible assumption)
    | with_reducible refine kept_fstH ?_ (by with_reducible assumption)
    | (simp only [↓kept_mk]; with_reducible refine kept_of ?_))

theorem execVoltageTargetChange_kept {a0 : State} (ha0 : (a0).kept qs u = true) :
    ∀ t, @execVoltageTargetChange a0 = .next t → t.kept qs u = true := by
  unfold execVoltageTargetChange
  refine live_kept ha0 ?_
  try dsimp only
  repeat' (first
    | with_reducible assumption
    | with_reducible apply State.showCap_kept
    | with_reducible apply State.setField_kept
    | intro _
    | split
    | with_reducible apply kept_fold
    | with_reducible apply kept_fold1
    | with_reducible apply kept_foldW
    | with_reducible apply kept_foldW1
    | with_reducible apply kept_foldH
    | with_reducible apply kept_foldH1
    | with_reducible refine kept_fst ?_ (by with_reducible assumption)
    | with_reducible refine kept_fstW ?_ (by with_reducible assumption)
    | with_reducible refine kept_fstH ?_ (by with_reducible assumption)
    | (simp only [↓kept_mk]; with_reducible refine kept_of ?_))

theorem State.unitLost_kept {a0 : State} {a1 : Blk} {a2 : Nat} (ha0 : (a0).kept qs u = true) :
    (@State.unitLost a0 a1 a2).kept qs u = true := by
  unfold State.unitLost
  try dsimp only
  repeat' (first
    | with_reducible assumption
    | with_reducible apply State.resetRegs_kept
    | with_reducible apply State.setUnit_kept
    | intro _
    | split
    | with_reducible apply kept_fold
    | with_reducible apply kept_fold1
    | with_reducible apply kept_foldW
    | with_reducible apply kept_foldW1
    | with_reducible apply kept_foldH
    | with_reducible apply kept_foldH1
    | with_reducible refine kept_fst ?_ (by with_reducible assumption)
    | with_reducible refine kept_fstW ?_ (by with_reducible assumption)
    | with_reducible refine kept_fstH ?_ (by with_reducible assumption)
    | (simp only [↓kept_mk]; with_reducible refine kept_of ?_))

theorem State.domOff_kept {a0 : State} {a1 : Nat} (ha0 : (a0).kept qs u = true) :
    (@State.domOff a0 a1).kept qs u = true := by
  unfold State.domOff
  try dsimp only
  repeat' (first
    | with_reducible assumption
    | with_reducible apply State.setRegN_kept
    | with_reducible apply State.unitLost_kept
    | intro _
    | split
    | with_reducible apply kept_fold
    | with_reducible apply kept_fold1
    | with_reducible apply kept_foldW
    | with_reducible apply kept_foldW1
    | with_reducible apply kept_foldH
    | with_reducible apply kept_foldH1
    | with_reducible refine kept_fst ?_ (by with_reducible assumption)
    | with_reducible refine kept_fstW ?_ (by with_reducible assumption)
    | with_reducible refine kept_fstH ?_ (by with_reducible assumption)
    | (simp only [↓kept_mk]; with_reducible refine kept_of ?_))

theorem State.domNext_kept {a0 : State} (ha0 : (a0).kept qs u = true) :
    (@State.domNext a0).kept qs u = true := by
  unfold State.domNext
  try dsimp only
  repeat' (first
    | with_reducible assumption
    | with_reducible apply State.tick_kept
    | intro _
    | split
    | with_reducible apply kept_fold
    | with_reducible apply kept_fold1
    | with_reducible apply kept_foldW
    | with_reducible apply kept_foldW1
    | with_reducible apply kept_foldH
    | with_reducible apply kept_foldH1
    | with_reducible refine kept_fst ?_ (by with_reducible assumption)
    | with_reducible refine kept_fstW ?_ (by with_reducible assumption)
    | with_reducible refine kept_fstH ?_ (by with_reducible assumption)
    | (simp only [↓kept_mk]; with_reducible refine kept_of ?_))

theorem State.domOn_kept {a0 : State} {a1 : Nat} (ha0 : (a0).kept qs u = true) :
    (@State.domOn a0 a1).kept qs u = true := by
  unfold State.domOn
  try dsimp only
  repeat' (first
    | with_reducible assumption
    | with_reducible apply State.setBit_kept
    | with_reducible apply State.domNext_kept
    | with_reducible apply State.setRegN_kept
    | intro _
    | split
    | with_reducible apply kept_fold
    | with_reducible apply kept_fold1
    | with_reducible apply kept_foldW
    | with_reducible apply kept_foldW1
    | with_reducible apply kept_foldH
    | with_reducible apply kept_foldH1
    | with_reducible refine kept_fst ?_ (by with_reducible assumption)
    | with_reducible refine kept_fstW ?_ (by with_reducible assumption)
    | with_reducible refine kept_fstH ?_ (by with_reducible assumption)
    | (simp only [↓kept_mk]; with_reducible refine kept_of ?_))

theorem State.domWrite_kept {a0 : State} {a1 : Nat} {a2 : Bool} (ha0 : (a0).kept qs u = true) :
    (@State.domWrite a0 a1 a2).kept qs u = true := by
  unfold State.domWrite
  try dsimp only
  repeat' (first
    | with_reducible assumption
    | with_reducible apply State.domOn_kept
    | with_reducible apply State.domNext_kept
    | with_reducible apply State.domOff_kept
    | with_reducible apply State.pwrErr_kept
    | intro _
    | split
    | with_reducible apply kept_fold
    | with_reducible apply kept_fold1
    | with_reducible apply kept_foldW
    | with_reducible apply kept_foldW1
    | with_reducible apply kept_foldH
    | with_reducible apply kept_foldH1
    | with_reducible refine kept_fst ?_ (by with_reducible assumption)
    | with_reducible refine kept_fstW ?_ (by with_reducible assumption)
    | with_reducible refine kept_fstH ?_ (by with_reducible assumption)
    | (simp only [↓kept_mk]; with_reducible refine kept_of ?_))

theorem execDomainSwitch_kept {a0 : Bool} {a1 : Fin 215} {a2 : Word} {a3 : State} (ha3 : (a3).kept qs u = true) :
    ∀ t, @execDomainSwitch a0 a1 a2 a3 = .next t → t.kept qs u = true := by
  unfold execDomainSwitch
  refine live_kept ha3 ?_
  try dsimp only
  repeat' (first
    | with_reducible assumption
    | with_reducible apply State.allow_kept
    | with_reducible apply State.domWrite_kept
    | intro _
    | split
    | with_reducible apply kept_fold
    | with_reducible apply kept_fold1
    | with_reducible apply kept_foldW
    | with_reducible apply kept_foldW1
    | with_reducible apply kept_foldH
    | with_reducible apply kept_foldH1
    | with_reducible refine kept_fst ?_ (by with_reducible assumption)
    | with_reducible refine kept_fstW ?_ (by with_reducible assumption)
    | with_reducible refine kept_fstH ?_ (by with_reducible assumption)
    | (simp only [↓kept_mk]; with_reducible refine kept_of ?_))

theorem State.unitStart_kept {a0 : State} {a1 : Blk} {a2 : Nat} (ha0 : (a0).kept qs u = true) :
    (@State.unitStart a0 a1 a2).kept qs u = true := by
  unfold State.unitStart
  try dsimp only
  repeat' (first
    | with_reducible assumption
    | with_reducible apply State.setRegN_kept
    | with_reducible apply State.setUnit_kept
    | intro _
    | split
    | with_reducible apply kept_fold
    | with_reducible apply kept_fold1
    | with_reducible apply kept_foldW
    | with_reducible apply kept_foldW1
    | with_reducible apply kept_foldH
    | with_reducible apply kept_foldH1
    | with_reducible refine kept_fst ?_ (by with_reducible assumption)
    | with_reducible refine kept_fstW ?_ (by with_reducible assumption)
    | with_reducible refine kept_fstH ?_ (by with_reducible assumption)
    | (simp only [↓kept_mk]; with_reducible refine kept_of ?_))

theorem execDomainPowerUpDone_kept {a0 : Fin 215} {a1 : State} (ha1 : (a1).kept qs u = true) :
    ∀ t, @execDomainPowerUpDone a0 a1 = .next t → t.kept qs u = true := by
  unfold execDomainPowerUpDone
  refine live_kept ha1 ?_
  try dsimp only
  repeat' (first
    | with_reducible assumption
    | with_reducible apply State.setRegN_kept
    | with_reducible apply State.unitStart_kept
    | with_reducible apply State.domNext_kept
    | intro _
    | split
    | with_reducible apply kept_fold
    | with_reducible apply kept_fold1
    | with_reducible apply kept_foldW
    | with_reducible apply kept_foldW1
    | with_reducible apply kept_foldH
    | with_reducible apply kept_foldH1
    | with_reducible refine kept_fst ?_ (by with_reducible assumption)
    | with_reducible refine kept_fstW ?_ (by with_reducible assumption)
    | with_reducible refine kept_fstH ?_ (by with_reducible assumption)
    | (simp only [↓kept_mk]; with_reducible refine kept_of ?_))

theorem execPowerSample_kept {a0 : List (Fin 215 × BitVec 16)} {a1 : Nat} {a2 : Nat} {a3 : BitVec 10} {a4 : State} (ha4 : (a4).kept qs u = true) :
    ∀ t, @execPowerSample a0 a1 a2 a3 a4 = .next t → t.kept qs u = true := by
  unfold execPowerSample
  refine live_kept ha4 ?_
  try dsimp only
  repeat' (first
    | with_reducible assumption
    | with_reducible apply State.setRegN_kept
    | with_reducible apply State.setField_kept
    | with_reducible apply State.count_kept
    | with_reducible apply State.tick_kept
    | with_reducible apply State.showRamp_kept
    | with_reducible apply State.setBit_kept
    | intro _
    | split
    | with_reducible apply kept_fold
    | with_reducible apply kept_fold1
    | with_reducible apply kept_foldW
    | with_reducible apply kept_foldW1
    | with_reducible apply kept_foldH
    | with_reducible apply kept_foldH1
    | with_reducible refine kept_fst ?_ (by with_reducible assumption)
    | with_reducible refine kept_fstW ?_ (by with_reducible assumption)
    | with_reducible refine kept_fstH ?_ (by with_reducible assumption)
    | (simp only [↓kept_mk]; with_reducible refine kept_of ?_))

theorem execEstCorrUpdate_kept {a0 : Nat} {a1 : Nat} {a2 : State} (ha2 : (a2).kept qs u = true) :
    ∀ t, @execEstCorrUpdate a0 a1 a2 = .next t → t.kept qs u = true := by
  unfold execEstCorrUpdate
  refine live_kept ha2 ?_
  try dsimp only
  repeat' (first
    | with_reducible assumption
    | with_reducible apply State.setRegN_kept
    | with_reducible apply State.tick_kept
    | intro _
    | split
    | with_reducible apply kept_fold
    | with_reducible apply kept_fold1
    | with_reducible apply kept_foldW
    | with_reducible apply kept_foldW1
    | with_reducible apply kept_foldH
    | with_reducible apply kept_foldH1
    | with_reducible refine kept_fst ?_ (by with_reducible assumption)
    | with_reducible refine kept_fstW ?_ (by with_reducible assumption)
    | with_reducible refine kept_fstH ?_ (by with_reducible assumption)
    | (simp only [↓kept_mk]; with_reducible refine kept_of ?_))

theorem execCapLoopInterval_kept {a0 : BitVec 16} {a1 : BitVec 16} {a2 : State} (ha2 : (a2).kept qs u = true) :
    ∀ t, @execCapLoopInterval a0 a1 a2 = .next t → t.kept qs u = true := by
  unfold execCapLoopInterval
  refine live_kept ha2 ?_
  try dsimp only
  repeat' (first
    | with_reducible assumption
    | with_reducible apply State.setField_kept
    | intro _
    | split
    | with_reducible apply kept_fold
    | with_reducible apply kept_fold1
    | with_reducible apply kept_foldW
    | with_reducible apply kept_foldW1
    | with_reducible apply kept_foldH
    | with_reducible apply kept_foldH1
    | with_reducible refine kept_fst ?_ (by with_reducible assumption)
    | with_reducible refine kept_fstW ?_ (by with_reducible assumption)
    | with_reducible refine kept_fstH ?_ (by with_reducible assumption)
    | (simp only [↓kept_mk]; with_reducible refine kept_of ?_))

theorem State.staging_kept {a0 : State} {a1 : Bool} (ha0 : (a0).kept qs u = true) :
    (@State.staging a0 a1).kept qs u = true := by
  unfold State.staging
  try dsimp only
  repeat' (first
    | with_reducible assumption
    | with_reducible apply State.setBit_kept
    | intro _
    | split
    | with_reducible apply kept_fold
    | with_reducible apply kept_fold1
    | with_reducible apply kept_foldW
    | with_reducible apply kept_foldW1
    | with_reducible apply kept_foldH
    | with_reducible apply kept_foldH1
    | with_reducible refine kept_fst ?_ (by with_reducible assumption)
    | with_reducible refine kept_fstW ?_ (by with_reducible assumption)
    | with_reducible refine kept_fstH ?_ (by with_reducible assumption)
    | (simp only [↓kept_mk]; with_reducible refine kept_of ?_))

theorem State.setUpd_kept {a0 : State} {a1 : Nat} (ha0 : (a0).kept qs u = true) :
    (@State.setUpd a0 a1).kept qs u = true := by
  unfold State.setUpd
  try dsimp only
  repeat' (first
    | with_reducible assumption
    | with_reducible apply State.setField_kept
    | intro _
    | split
    | with_reducible apply kept_fold
    | with_reducible apply kept_fold1
    | with_reducible apply kept_foldW
    | with_reducible apply kept_foldW1
    | with_reducible apply kept_foldH
    | with_reducible apply kept_foldH1
    | with_reducible refine kept_fst ?_ (by with_reducible assumption)
    | with_reducible refine kept_fstW ?_ (by with_reducible assumption)
    | with_reducible refine kept_fstH ?_ (by with_reducible assumption)
    | (simp only [↓kept_mk]; with_reducible refine kept_of ?_))

theorem State.parkAll_kept {a0 : State} (ha0 : (a0).kept qs u = true) :
    (@State.parkAll a0).kept qs u = true := by
  unfold State.parkAll
  try dsimp only
  repeat' (first
    | with_reducible assumption
    | with_reducible apply State.park_kept
    | intro _
    | split
    | with_reducible apply kept_fold
    | with_reducible apply kept_fold1
    | with_reducible apply kept_foldW
    | with_reducible apply kept_foldW1
    | with_reducible apply kept_foldH
    | with_reducible apply kept_foldH1
    | with_reducible refine kept_fst ?_ (by with_reducible assumption)
    | with_reducible refine kept_fstW ?_ (by with_reducible assumption)
    | with_reducible refine kept_fstH ?_ (by with_reducible assumption)
    | (simp only [↓kept_mk]; with_reducible refine kept_of ?_))

theorem State.unpark_kept {a0 : State} (ha0 : (a0).kept qs u = true) :
    (@State.unpark a0).kept qs u = true := by
  unfold State.unpark
  try dsimp only
  repeat' (first
    | with_reducible assumption
    | intro _
    | split
    | with_reducible apply kept_fold
    | with_reducible apply kept_fold1
    | with_reducible apply kept_foldW
    | with_reducible apply kept_foldW1
    | with_reducible apply kept_foldH
    | with_reducible apply kept_foldH1
    | with_reducible refine kept_fst ?_ (by with_reducible assumption)
    | with_reducible refine kept_fstW ?_ (by with_reducible assumption)
    | with_reducible refine kept_fstH ?_ (by with_reducible assumption)
    | (simp only [↓kept_mk]; with_reducible refine kept_of ?_))

theorem execBubbleShareApply_kept {a0 : State} (ha0 : (a0).kept qs u = true) :
    ∀ t, @execBubbleShareApply a0 = .next t → t.kept qs u = true := by
  unfold execBubbleShareApply
  refine live_kept ha0 ?_
  try dsimp only
  repeat' (first
    | with_reducible assumption
    | with_reducible apply State.setBit_kept
    | with_reducible apply State.setField_kept
    | with_reducible apply State.unpark_kept
    | with_reducible apply State.setUpd_kept
    | intro _
    | split
    | with_reducible apply kept_fold
    | with_reducible apply kept_fold1
    | with_reducible apply kept_foldW
    | with_reducible apply kept_foldW1
    | with_reducible apply kept_foldH
    | with_reducible apply kept_foldH1
    | with_reducible refine kept_fst ?_ (by with_reducible assumption)
    | with_reducible refine kept_fstW ?_ (by with_reducible assumption)
    | with_reducible refine kept_fstH ?_ (by with_reducible assumption)
    | (simp only [↓kept_mk]; with_reducible refine kept_of ?_))

theorem State.updEnds_kept {a0 : State} {a1 : Nat} (ha0 : (a0).kept qs u = true) :
    (@State.updEnds a0 a1).kept qs u = true := by
  unfold State.updEnds
  try dsimp only
  repeat' (first
    | with_reducible assumption
    | with_reducible apply State.unpark_kept
    | with_reducible apply State.setUpd_kept
    | with_reducible apply State.pfEvent_kept
    | intro _
    | split
    | with_reducible apply kept_fold
    | with_reducible apply kept_fold1
    | with_reducible apply kept_foldW
    | with_reducible apply kept_foldW1
    | with_reducible apply kept_foldH
    | with_reducible apply kept_foldH1
    | with_reducible refine kept_fst ?_ (by with_reducible assumption)
    | with_reducible refine kept_fstW ?_ (by with_reducible assumption)
    | with_reducible refine kept_fstH ?_ (by with_reducible assumption)
    | (simp only [↓kept_mk]; with_reducible refine kept_of ?_))

theorem State.endUpdate_kept {a0 : State} {a1 : Nat} (ha0 : (a0).kept qs u = true) :
    (@State.endUpdate a0 a1).kept qs u = true := by
  unfold State.endUpdate
  try dsimp only
  repeat' (first
    | with_reducible assumption
    | with_reducible apply State.staging_kept
    | with_reducible apply State.updEnds_kept
    | intro _
    | split
    | with_reducible apply kept_fold
    | with_reducible apply kept_fold1
    | with_reducible apply kept_foldW
    | with_reducible apply kept_foldW1
    | with_reducible apply kept_foldH
    | with_reducible apply kept_foldH1
    | with_reducible refine kept_fst ?_ (by with_reducible assumption)
    | with_reducible refine kept_fstW ?_ (by with_reducible assumption)
    | with_reducible refine kept_fstH ?_ (by with_reducible assumption)
    | (simp only [↓kept_mk]; with_reducible refine kept_of ?_))

theorem State.stopNow_kept {a0 : State} (ha0 : (a0).kept qs u = true) :
    (@State.stopNow a0).kept qs u = true := by
  unfold State.stopNow
  try dsimp only
  repeat' (first
    | with_reducible assumption
    | with_reducible apply State.staging_kept
    | with_reducible apply State.endUpdate_kept
    | with_reducible apply State.setBit_kept
    | with_reducible apply State.setRegN_kept
    | with_reducible apply State.msix_kept
    | with_reducible apply State.setField_kept
    | intro _
    | split
    | with_reducible apply kept_fold
    | with_reducible apply kept_fold1
    | with_reducible apply kept_foldW
    | with_reducible apply kept_foldW1
    | with_reducible apply kept_foldH
    | with_reducible apply kept_foldH1
    | with_reducible refine kept_fst ?_ (by with_reducible assumption)
    | with_reducible refine kept_fstW ?_ (by with_reducible assumption)
    | with_reducible refine kept_fstH ?_ (by with_reducible assumption)
    | (simp only [↓kept_mk]; with_reducible refine kept_of ?_))

theorem State.refuseUpdate_kept {a0 : State} {a1 : Nat} (ha0 : (a0).kept qs u = true) :
    (@State.refuseUpdate a0 a1).kept qs u = true := by
  unfold State.refuseUpdate
  try dsimp only
  repeat' (first
    | with_reducible assumption
    | with_reducible apply State.endUpdate_kept
    | with_reducible apply State.setField_kept
    | intro _
    | split
    | with_reducible apply kept_fold
    | with_reducible apply kept_fold1
    | with_reducible apply kept_foldW
    | with_reducible apply kept_foldW1
    | with_reducible apply kept_foldH
    | with_reducible apply kept_foldH1
    | with_reducible refine kept_fst ?_ (by with_reducible assumption)
    | with_reducible refine kept_fstW ?_ (by with_reducible assumption)
    | with_reducible refine kept_fstH ?_ (by with_reducible assumption)
    | (simp only [↓kept_mk]; with_reducible refine kept_of ?_))

theorem State.latchStop_kept {a0 : State} {a1 : Nat} (ha0 : (a0).kept qs u = true) :
    (@State.latchStop a0 a1).kept qs u = true := by
  unfold State.latchStop
  try dsimp only
  repeat' (first
    | with_reducible assumption
    | with_reducible apply State.setBit_kept
    | with_reducible apply State.stopNow_kept
    | with_reducible apply State.refuseUpdate_kept
    | intro _
    | split
    | with_reducible apply kept_fold
    | with_reducible apply kept_fold1
    | with_reducible apply kept_foldW
    | with_reducible apply kept_foldW1
    | with_reducible apply kept_foldH
    | with_reducible apply kept_foldH1
    | with_reducible refine kept_fst ?_ (by with_reducible assumption)
    | with_reducible refine kept_fstW ?_ (by with_reducible assumption)
    | with_reducible refine kept_fstH ?_ (by with_reducible assumption)
    | (simp only [↓kept_mk]; with_reducible refine kept_of ?_))

theorem State.thermalTrip_kept {a0 : State} (ha0 : (a0).kept qs u = true) :
    (@State.thermalTrip a0).kept qs u = true := by
  unfold State.thermalTrip
  try dsimp only
  repeat' (first
    | with_reducible assumption
    | with_reducible apply State.latchStop_kept
    | intro _
    | split
    | with_reducible apply kept_fold
    | with_reducible apply kept_fold1
    | with_reducible apply kept_foldW
    | with_reducible apply kept_foldW1
    | with_reducible apply kept_foldH
    | with_reducible apply kept_foldH1
    | with_reducible refine kept_fst ?_ (by with_reducible assumption)
    | with_reducible refine kept_fstW ?_ (by with_reducible assumption)
    | with_reducible refine kept_fstH ?_ (by with_reducible assumption)
    | (simp only [↓kept_mk]; with_reducible refine kept_of ?_))

theorem execJunctionSample_kept {a0 : List (BitVec 12)} {a1 : State} (ha1 : (a1).kept qs u = true) :
    ∀ t, @execJunctionSample a0 a1 = .next t → t.kept qs u = true := by
  unfold execJunctionSample
  refine live_kept ha1 ?_
  try dsimp only
  repeat' (first
    | with_reducible assumption
    | with_reducible apply State.setRegN_kept
    | with_reducible apply State.tick_kept
    | with_reducible apply State.setField_kept
    | with_reducible apply State.setBit_kept
    | with_reducible apply State.thermalTrip_kept
    | intro _
    | split
    | with_reducible apply kept_fold
    | with_reducible apply kept_fold1
    | with_reducible apply kept_foldW
    | with_reducible apply kept_foldW1
    | with_reducible apply kept_foldH
    | with_reducible apply kept_foldH1
    | with_reducible refine kept_fst ?_ (by with_reducible assumption)
    | with_reducible refine kept_fstW ?_ (by with_reducible assumption)
    | with_reducible refine kept_fstH ?_ (by with_reducible assumption)
    | (simp only [↓kept_mk]; with_reducible refine kept_of ?_))

theorem execThermalCapUpdate_kept {a0 : State} (ha0 : (a0).kept qs u = true) :
    ∀ t, @execThermalCapUpdate a0 = .next t → t.kept qs u = true := by
  unfold execThermalCapUpdate
  refine live_kept ha0 ?_
  try dsimp only
  repeat' (first
    | with_reducible assumption
    | with_reducible apply State.showCap_kept
    | with_reducible apply State.setField_kept
    | intro _
    | split
    | with_reducible apply kept_fold
    | with_reducible apply kept_fold1
    | with_reducible apply kept_foldW
    | with_reducible apply kept_foldW1
    | with_reducible apply kept_foldH
    | with_reducible apply kept_foldH1
    | with_reducible refine kept_fst ?_ (by with_reducible assumption)
    | with_reducible refine kept_fstW ?_ (by with_reducible assumption)
    | with_reducible refine kept_fstH ?_ (by with_reducible assumption)
    | (simp only [↓kept_mk]; with_reducible refine kept_of ?_))

theorem execCoolFlowOkLow_kept {a0 : State} (ha0 : (a0).kept qs u = true) :
    ∀ t, @execCoolFlowOkLow a0 = .next t → t.kept qs u = true := by
  unfold execCoolFlowOkLow
  refine atPins_kept ha0 ?_
  try dsimp only
  repeat' (first
    | with_reducible assumption
    | intro _
    | split
    | with_reducible apply kept_fold
    | with_reducible apply kept_fold1
    | with_reducible apply kept_foldW
    | with_reducible apply kept_foldW1
    | with_reducible apply kept_foldH
    | with_reducible apply kept_foldH1
    | with_reducible refine kept_fst ?_ (by with_reducible assumption)
    | with_reducible refine kept_fstW ?_ (by with_reducible assumption)
    | with_reducible refine kept_fstH ?_ (by with_reducible assumption)
    | (simp only [↓kept_mk]; with_reducible refine kept_of ?_))

theorem execCoolFlowOkHigh_kept {a0 : State} (ha0 : (a0).kept qs u = true) :
    ∀ t, @execCoolFlowOkHigh a0 = .next t → t.kept qs u = true := by
  unfold execCoolFlowOkHigh
  refine atPins_kept ha0 ?_
  try dsimp only
  repeat' (first
    | with_reducible assumption
    | intro _
    | split
    | with_reducible apply kept_fold
    | with_reducible apply kept_fold1
    | with_reducible apply kept_foldW
    | with_reducible apply kept_foldW1
    | with_reducible apply kept_foldH
    | with_reducible apply kept_foldH1
    | with_reducible refine kept_fst ?_ (by with_reducible assumption)
    | with_reducible refine kept_fstW ?_ (by with_reducible assumption)
    | with_reducible refine kept_fstH ?_ (by with_reducible assumption)
    | (simp only [↓kept_mk]; with_reducible refine kept_of ?_))

theorem execCoolantStop_kept {a0 : State} (ha0 : (a0).kept qs u = true) :
    ∀ t, @execCoolantStop a0 = .next t → t.kept qs u = true := by
  unfold execCoolantStop
  refine live_kept ha0 ?_
  try dsimp only
  repeat' (first
    | with_reducible assumption
    | with_reducible apply State.latchStop_kept
    | with_reducible apply State.setBit_kept
    | intro _
    | split
    | with_reducible apply kept_fold
    | with_reducible apply kept_fold1
    | with_reducible apply kept_foldW
    | with_reducible apply kept_foldW1
    | with_reducible apply kept_foldH
    | with_reducible apply kept_foldH1
    | with_reducible refine kept_fst ?_ (by with_reducible assumption)
    | with_reducible refine kept_fstW ?_ (by with_reducible assumption)
    | with_reducible refine kept_fstH ?_ (by with_reducible assumption)
    | (simp only [↓kept_mk]; with_reducible refine kept_of ?_))

theorem execCattrip_kept {a0 : Fin 8} {a1 : State} (ha1 : (a1).kept qs u = true) :
    ∀ t, @execCattrip a0 a1 = .next t → t.kept qs u = true := by
  unfold execCattrip
  refine live_kept ha1 ?_
  try dsimp only
  repeat' (first
    | with_reducible assumption
    | with_reducible apply State.setField_kept
    | with_reducible apply State.setBit_kept
    | with_reducible apply State.thermalTrip_kept
    | intro _
    | split
    | with_reducible apply kept_fold
    | with_reducible apply kept_fold1
    | with_reducible apply kept_foldW
    | with_reducible apply kept_foldW1
    | with_reducible apply kept_foldH
    | with_reducible apply kept_foldH1
    | with_reducible refine kept_fst ?_ (by with_reducible assumption)
    | with_reducible refine kept_fstW ?_ (by with_reducible assumption)
    | with_reducible refine kept_fstH ?_ (by with_reducible assumption)
    | (simp only [↓kept_mk]; with_reducible refine kept_of ?_))

theorem State.contentLost_kept {a0 : State} (ha0 : (a0).kept qs u = true) :
    (@State.contentLost a0).kept qs u = true := by
  have h := keptParts_iff.1 ha0
  exact keptParts_iff.2 ⟨h.1, wf_nil _, wf_nil _, wf_nil _, h.2.2.2.2⟩

theorem execStopPowerOff_kept {a0 : State} (ha0 : (a0).kept qs u = true) :
    ∀ t, @execStopPowerOff a0 = .next t → t.kept qs u = true := by
  unfold execStopPowerOff
  refine live_kept ha0 ?_
  try dsimp only
  repeat' (first
    | with_reducible assumption
    | with_reducible apply State.setRegN_kept
    | with_reducible apply State.contentLost_kept
    | with_reducible apply State.resetRegs_kept
    | intro _
    | split
    | with_reducible apply kept_fold
    | with_reducible apply kept_fold1
    | with_reducible apply kept_foldW
    | with_reducible apply kept_foldW1
    | with_reducible apply kept_foldH
    | with_reducible apply kept_foldH1
    | with_reducible refine kept_fst ?_ (by with_reducible assumption)
    | with_reducible refine kept_fstW ?_ (by with_reducible assumption)
    | with_reducible refine kept_fstH ?_ (by with_reducible assumption)
    | (simp only [↓kept_mk]; with_reducible refine kept_of ?_))

theorem execErrorWindowEnd_kept {a0 : Blk} {a1 : Nat} {a2 : State} (ha2 : (a2).kept qs u = true) :
    ∀ t, @execErrorWindowEnd a0 a1 a2 = .next t → t.kept qs u = true := by
  unfold execErrorWindowEnd
  refine live_kept ha2 ?_
  try dsimp only
  repeat' (first
    | with_reducible assumption
    | with_reducible apply State.noSpare_kept
    | with_reducible apply State.modReg_kept
    | with_reducible apply State.setField_kept
    | intro _
    | split
    | with_reducible apply kept_fold
    | with_reducible apply kept_fold1
    | with_reducible apply kept_foldW
    | with_reducible apply kept_foldW1
    | with_reducible apply kept_foldH
    | with_reducible apply kept_foldH1
    | with_reducible refine kept_fst ?_ (by with_reducible assumption)
    | with_reducible refine kept_fstW ?_ (by with_reducible assumption)
    | with_reducible refine kept_fstH ?_ (by with_reducible assumption)
    | (simp only [↓kept_mk]; with_reducible refine kept_of ?_))

theorem State.evict_kept {a0 : State} {a1 : Blk} {a2 : Nat} (ha0 : (a0).kept qs u = true) :
    (@State.evict a0 a1 a2).kept qs u = true := by
  unfold State.evict
  try dsimp only
  repeat' (first
    | with_reducible assumption
    | with_reducible apply State.setBit_kept
    | with_reducible apply State.putFlight_kept
    | intro _
    | split
    | with_reducible apply kept_fold
    | with_reducible apply kept_fold1
    | with_reducible apply kept_foldW
    | with_reducible apply kept_foldW1
    | with_reducible apply kept_foldH
    | with_reducible apply kept_foldH1
    | with_reducible refine kept_fst ?_ (by with_reducible assumption)
    | with_reducible refine kept_fstW ?_ (by with_reducible assumption)
    | with_reducible refine kept_fstH ?_ (by with_reducible assumption)
    | (simp only [↓kept_mk]; with_reducible refine kept_of ?_))

theorem State.unitOff_kept {a0 : State} {a1 : Blk} {a2 : Nat} (ha0 : (a0).kept qs u = true) :
    (@State.unitOff a0 a1 a2).kept qs u = true := by
  unfold State.unitOff
  try dsimp only
  repeat' (first
    | with_reducible assumption
    | with_reducible apply State.domNext_kept
    | with_reducible apply State.domOff_kept
    | intro _
    | split
    | with_reducible apply kept_fold
    | with_reducible apply kept_fold1
    | with_reducible apply kept_foldW
    | with_reducible apply kept_foldW1
    | with_reducible apply kept_foldH
    | with_reducible apply kept_foldH1
    | with_reducible refine kept_fst ?_ (by with_reducible assumption)
    | with_reducible refine kept_fstW ?_ (by with_reducible assumption)
    | with_reducible refine kept_fstH ?_ (by with_reducible assumption)
    | (simp only [↓kept_mk]; with_reducible refine kept_of ?_))

theorem State.substNext_kept {a0 : State} {a1 : Subst} (ha0 : (a0).kept qs u = true) :
    (@State.substNext a0 a1).kept qs u = true := by
  unfold State.substNext
  try dsimp only
  repeat' (first
    | with_reducible assumption
    | with_reducible apply State.setUnit_kept
    | with_reducible apply State.domOn_kept
    | with_reducible apply State.unitRetired_kept
    | with_reducible apply State.record_kept
    | with_reducible apply State.unitOff_kept
    | with_reducible apply State.noSpare_kept
    | intro _
    | split
    | with_reducible apply kept_fold
    | with_reducible apply kept_fold1
    | with_reducible apply kept_foldW
    | with_reducible apply kept_foldW1
    | with_reducible apply kept_foldH
    | with_reducible apply kept_foldH1
    | with_reducible refine kept_fst ?_ (by with_reducible assumption)
    | with_reducible refine kept_fstW ?_ (by with_reducible assumption)
    | with_reducible refine kept_fstH ?_ (by with_reducible assumption)
    | (simp only [↓kept_mk]; with_reducible refine kept_of ?_))

theorem State.retire_kept {a0 : State} {a1 : Blk} {a2 : Nat} (ha0 : (a0).kept qs u = true) :
    (@State.retire a0 a1 a2).kept qs u = true := by
  unfold State.retire
  try dsimp only
  repeat' (first
    | with_reducible assumption
    | with_reducible apply State.setUnit_kept
    | with_reducible apply State.unitRetired_kept
    | with_reducible apply State.record_kept
    | with_reducible apply State.unitOff_kept
    | with_reducible apply State.substNext_kept
    | with_reducible apply State.evict_kept
    | intro _
    | split
    | with_reducible apply kept_fold
    | with_reducible apply kept_fold1
    | with_reducible apply kept_foldW
    | with_reducible apply kept_foldW1
    | with_reducible apply kept_foldH
    | with_reducible apply kept_foldH1
    | with_reducible refine kept_fst ?_ (by with_reducible assumption)
    | with_reducible refine kept_fstW ?_ (by with_reducible assumption)
    | with_reducible refine kept_fstH ?_ (by with_reducible assumption)
    | (simp only [↓kept_mk]; with_reducible refine kept_of ?_))

theorem State.blockFails_kept {a0 : State} {a1 : Blk} {a2 : Nat} (ha0 : (a0).kept qs u = true) :
    (@State.blockFails a0 a1 a2).kept qs u = true := by
  unfold State.blockFails
  try dsimp only
  repeat' (first
    | with_reducible assumption
    | with_reducible apply State.retire_kept
    | with_reducible apply State.noSpare_kept
    | intro _
    | split
    | with_reducible apply kept_fold
    | with_reducible apply kept_fold1
    | with_reducible apply kept_foldW
    | with_reducible apply kept_foldW1
    | with_reducible apply kept_foldH
    | with_reducible apply kept_foldH1
    | with_reducible refine kept_fst ?_ (by with_reducible assumption)
    | with_reducible refine kept_fstW ?_ (by with_reducible assumption)
    | with_reducible refine kept_fstH ?_ (by with_reducible assumption)
    | (simp only [↓kept_mk]; with_reducible refine kept_of ?_))

theorem execUnitUncorrectableError_kept {a0 : Blk} {a1 : Nat} {a2 : Option Nat} {a3 : State} (ha3 : (a3).kept qs u = true) :
    ∀ t, @execUnitUncorrectableError a0 a1 a2 a3 = .next t → t.kept qs u = true := by
  unfold execUnitUncorrectableError
  refine live_kept ha3 ?_
  try dsimp only
  repeat' (first
    | with_reducible assumption
    | with_reducible apply State.uncorrectable_kept
    | with_reducible apply State.onFlight_kept
    | with_reducible apply State.putFlight_kept
    | with_reducible apply State.blockFails_kept
    | intro _
    | split
    | with_reducible apply kept_fold
    | with_reducible apply kept_fold1
    | with_reducible apply kept_foldW
    | with_reducible apply kept_foldW1
    | with_reducible apply kept_foldH
    | with_reducible apply kept_foldH1
    | with_reducible refine kept_fst ?_ (by with_reducible assumption)
    | with_reducible refine kept_fstW ?_ (by with_reducible assumption)
    | with_reducible refine kept_fstH ?_ (by with_reducible assumption)
    | (simp only [↓kept_mk]; with_reducible refine kept_of ?_))

theorem State.groutRetire_kept {a0 : State} {a1 : Nat} {a2 : Nat} (ha0 : (a0).kept qs u = true) :
    (@State.groutRetire a0 a1 a2).kept qs u = true := by
  unfold State.groutRetire
  try dsimp only
  repeat' (first
    | with_reducible assumption
    | intro _
    | split
    | with_reducible apply kept_fold
    | with_reducible apply kept_fold1
    | with_reducible apply kept_foldW
    | with_reducible apply kept_foldW1
    | with_reducible apply kept_foldH
    | with_reducible apply kept_foldH1
    | with_reducible refine kept_fst ?_ (by with_reducible assumption)
    | with_reducible refine kept_fstW ?_ (by with_reducible assumption)
    | with_reducible refine kept_fstH ?_ (by with_reducible assumption)
    | (simp only [↓kept_mk]; with_reducible refine kept_of ?_))

theorem State.laneRetire_kept {a0 : State} {a1 : Nat} {a2 : Nat} (ha0 : (a0).kept qs u = true) :
    (@State.laneRetire a0 a1 a2).kept qs u = true := by
  unfold State.laneRetire
  try dsimp only
  repeat' (first
    | with_reducible assumption
    | with_reducible apply State.noSpare_kept
    | intro _
    | split
    | with_reducible apply kept_fold
    | with_reducible apply kept_fold1
    | with_reducible apply kept_foldW
    | with_reducible apply kept_foldW1
    | with_reducible apply kept_foldH
    | with_reducible apply kept_foldH1
    | with_reducible refine kept_fst ?_ (by with_reducible assumption)
    | with_reducible refine kept_fstW ?_ (by with_reducible assumption)
    | with_reducible refine kept_fstH ?_ (by with_reducible assumption)
    | (simp only [↓kept_mk]; with_reducible refine kept_of ?_))

theorem execRetireRequest_kept {a0 : Bool} {a1 : RetireUnit} {a2 : RetireCause} {a3 : State} (ha3 : (a3).kept qs u = true) :
    ∀ t, @execRetireRequest a0 a1 a2 a3 = .next t → t.kept qs u = true := by
  unfold execRetireRequest
  refine live_kept ha3 ?_
  try dsimp only
  repeat' (first
    | with_reducible assumption
    | with_reducible apply State.allow_kept
    | with_reducible apply State.blkErr_kept
    | with_reducible apply State.blockFails_kept
    | with_reducible apply State.bankRetire_kept
    | with_reducible apply State.laneRetire_kept
    | with_reducible apply State.groutRetire_kept
    | with_reducible apply State.leak_kept
    | with_reducible apply State.bankCorrected_kept
    | with_reducible apply State.laneCorrected_kept
    | with_reducible apply State.hbmCorrected_kept
    | intro _
    | split
    | with_reducible apply kept_fold
    | with_reducible apply kept_fold1
    | with_reducible apply kept_foldW
    | with_reducible apply kept_foldW1
    | with_reducible apply kept_foldH
    | with_reducible apply kept_foldH1
    | with_reducible refine kept_fst ?_ (by with_reducible assumption)
    | with_reducible refine kept_fstW ?_ (by with_reducible assumption)
    | with_reducible refine kept_fstH ?_ (by with_reducible assumption)
    | (simp only [↓kept_mk]; with_reducible refine kept_of ?_))

theorem execSubstitutionIdle_kept {a0 : Blk} {a1 : Nat} {a2 : State} (ha2 : (a2).kept qs u = true) :
    ∀ t, @execSubstitutionIdle a0 a1 a2 = .next t → t.kept qs u = true := by
  unfold execSubstitutionIdle
  refine live_kept ha2 ?_
  try dsimp only
  repeat' (first
    | with_reducible assumption
    | with_reducible apply State.substNext_kept
    | intro _
    | split
    | with_reducible apply kept_fold
    | with_reducible apply kept_fold1
    | with_reducible apply kept_foldW
    | with_reducible apply kept_foldW1
    | with_reducible apply kept_foldH
    | with_reducible apply kept_foldH1
    | with_reducible refine kept_fst ?_ (by with_reducible assumption)
    | with_reducible refine kept_fstW ?_ (by with_reducible assumption)
    | with_reducible refine kept_fstH ?_ (by with_reducible assumption)
    | (simp only [↓kept_mk]; with_reducible refine kept_of ?_))

theorem execSubstitutionComplete_kept {a0 : Blk} {a1 : Nat} {a2 : State} (ha2 : (a2).kept qs u = true) :
    ∀ t, @execSubstitutionComplete a0 a1 a2 = .next t → t.kept qs u = true := by
  unfold execSubstitutionComplete
  refine live_kept ha2 ?_
  try dsimp only
  repeat' (first
    | with_reducible assumption
    | with_reducible apply State.setRegN_kept
    | with_reducible apply State.setUnit_kept
    | with_reducible apply State.unitRetired_kept
    | with_reducible apply State.record_kept
    | with_reducible apply State.unitOff_kept
    | intro _
    | split
    | with_reducible apply kept_fold
    | with_reducible apply kept_fold1
    | with_reducible apply kept_foldW
    | with_reducible apply kept_foldW1
    | with_reducible apply kept_foldH
    | with_reducible apply kept_foldH1
    | with_reducible refine kept_fst ?_ (by with_reducible assumption)
    | with_reducible refine kept_fstW ?_ (by with_reducible assumption)
    | with_reducible refine kept_fstH ?_ (by with_reducible assumption)
    | (simp only [↓kept_mk]; with_reducible refine kept_of ?_))

theorem State.ctlAllow_kept {a0 : State} {a1 : Bool} {a2 : Blk} {a3 : Nat} {a4 : State → State} (ha0 : (a0).kept qs u = true) (ha4 : ∀ y0, (y0).kept qs u = true → (a4 y0).kept qs u = true) :
    (@State.ctlAllow a0 a1 a2 a3 a4).kept qs u = true := by
  unfold State.ctlAllow
  try dsimp only
  repeat' (first
    | with_reducible assumption
    | with_reducible apply State.allow_kept
    | with_reducible apply State.blkErr_kept
    | with_reducible apply ha4
    | intro _
    | split
    | with_reducible apply kept_fold
    | with_reducible apply kept_fold1
    | with_reducible apply kept_foldW
    | with_reducible apply kept_foldW1
    | with_reducible apply kept_foldH
    | with_reducible apply kept_foldH1
    | with_reducible refine kept_fst ?_ (by with_reducible assumption)
    | with_reducible refine kept_fstW ?_ (by with_reducible assumption)
    | with_reducible refine kept_fstH ?_ (by with_reducible assumption)
    | (simp only [↓kept_mk]; with_reducible refine kept_of ?_))

theorem State.blkEnable_kept {a0 : State} {a1 : Blk} {a2 : Nat} {a3 : Bool} (ha0 : (a0).kept qs u = true) :
    (@State.blkEnable a0 a1 a2 a3).kept qs u = true := by
  unfold State.blkEnable
  try dsimp only
  repeat' (first
    | with_reducible assumption
    | with_reducible apply State.setBit_kept
    | with_reducible apply State.setUnit_kept
    | intro _
    | split
    | with_reducible apply kept_fold
    | with_reducible apply kept_fold1
    | with_reducible apply kept_foldW
    | with_reducible apply kept_foldW1
    | with_reducible apply kept_foldH
    | with_reducible apply kept_foldH1
    | with_reducible refine kept_fst ?_ (by with_reducible assumption)
    | with_reducible refine kept_fstW ?_ (by with_reducible assumption)
    | with_reducible refine kept_fstH ?_ (by with_reducible assumption)
    | (simp only [↓kept_mk]; with_reducible refine kept_of ?_))

theorem execBlockEnable_kept {a0 : Bool} {a1 : Blk} {a2 : Nat} {a3 : Bool} {a4 : State} (ha4 : (a4).kept qs u = true) :
    ∀ t, @execBlockEnable a0 a1 a2 a3 a4 = .next t → t.kept qs u = true := by
  unfold execBlockEnable
  refine live_kept ha4 ?_
  try dsimp only
  repeat' (first
    | with_reducible assumption
    | with_reducible apply State.ctlAllow_kept
    | with_reducible apply State.blkEnable_kept
    | intro _
    | split
    | with_reducible apply kept_fold
    | with_reducible apply kept_fold1
    | with_reducible apply kept_foldW
    | with_reducible apply kept_foldW1
    | with_reducible apply kept_foldH
    | with_reducible apply kept_foldH1
    | with_reducible refine kept_fst ?_ (by with_reducible assumption)
    | with_reducible refine kept_fstW ?_ (by with_reducible assumption)
    | with_reducible refine kept_fstH ?_ (by with_reducible assumption)
    | (simp only [↓kept_mk]; with_reducible refine kept_of ?_))

theorem State.blkDrain_kept {a0 : State} {a1 : Blk} {a2 : Nat} {a3 : Bool} (ha0 : (a0).kept qs u = true) :
    (@State.blkDrain a0 a1 a2 a3).kept qs u = true := by
  unfold State.blkDrain
  try dsimp only
  repeat' (first
    | with_reducible assumption
    | with_reducible apply State.setBit_kept
    | with_reducible apply State.pumpAll_kept
    | intro _
    | split
    | with_reducible apply kept_fold
    | with_reducible apply kept_fold1
    | with_reducible apply kept_foldW
    | with_reducible apply kept_foldW1
    | with_reducible apply kept_foldH
    | with_reducible apply kept_foldH1
    | with_reducible refine kept_fst ?_ (by with_reducible assumption)
    | with_reducible refine kept_fstW ?_ (by with_reducible assumption)
    | with_reducible refine kept_fstH ?_ (by with_reducible assumption)
    | (simp only [↓kept_mk]; with_reducible refine kept_of ?_))

theorem execBlockDrain_kept {a0 : Bool} {a1 : Blk} {a2 : Nat} {a3 : Bool} {a4 : State} (ha4 : (a4).kept qs u = true) :
    ∀ t, @execBlockDrain a0 a1 a2 a3 a4 = .next t → t.kept qs u = true := by
  unfold execBlockDrain
  refine live_kept ha4 ?_
  try dsimp only
  repeat' (first
    | with_reducible assumption
    | with_reducible apply State.ctlAllow_kept
    | with_reducible apply State.blkDrain_kept
    | intro _
    | split
    | with_reducible apply kept_fold
    | with_reducible apply kept_fold1
    | with_reducible apply kept_foldW
    | with_reducible apply kept_foldW1
    | with_reducible apply kept_foldH
    | with_reducible apply kept_foldH1
    | with_reducible refine kept_fst ?_ (by with_reducible assumption)
    | with_reducible refine kept_fstW ?_ (by with_reducible assumption)
    | with_reducible refine kept_fstH ?_ (by with_reducible assumption)
    | (simp only [↓kept_mk]; with_reducible refine kept_of ?_))

theorem execBlockIdle_kept {a0 : Blk} {a1 : Nat} {a2 : State} (ha2 : (a2).kept qs u = true) :
    ∀ t, @execBlockIdle a0 a1 a2 = .next t → t.kept qs u = true := by
  unfold execBlockIdle
  refine live_kept ha2 ?_
  try dsimp only
  repeat' (first
    | with_reducible assumption
    | with_reducible apply State.setUnit_kept
    | intro _
    | split
    | with_reducible apply kept_fold
    | with_reducible apply kept_fold1
    | with_reducible apply kept_foldW
    | with_reducible apply kept_foldW1
    | with_reducible apply kept_foldH
    | with_reducible apply kept_foldH1
    | with_reducible refine kept_fst ?_ (by with_reducible assumption)
    | with_reducible refine kept_fstW ?_ (by with_reducible assumption)
    | with_reducible refine kept_fstH ?_ (by with_reducible assumption)
    | (simp only [↓kept_mk]; with_reducible refine kept_of ?_))

theorem State.endAll_kept {a0 : State} {a1 : Blk} {a2 : Nat} (ha0 : (a0).kept qs u = true) :
    (@State.endAll a0 a1 a2).kept qs u = true := by
  unfold State.endAll
  try dsimp only
  repeat' (first
    | with_reducible assumption
    | with_reducible apply State.resetRegs_kept
    | with_reducible apply State.setRegN_kept
    | with_reducible apply State.setBit_kept
    | with_reducible apply State.pauseUpdate_kept
    | with_reducible apply State.freshPort_kept
    | with_reducible apply State.writeDue_kept
    | with_reducible apply State.setPlBank_kept
    | with_reducible apply State.plTorn_kept
    | intro _
    | split
    | with_reducible apply kept_fold
    | with_reducible apply kept_fold1
    | with_reducible apply kept_foldW
    | with_reducible apply kept_foldW1
    | with_reducible apply kept_foldH
    | with_reducible apply kept_foldH1
    | with_reducible refine kept_fst ?_ (by with_reducible assumption)
    | with_reducible refine kept_fstW ?_ (by with_reducible assumption)
    | with_reducible refine kept_fstH ?_ (by with_reducible assumption)
    | (simp only [↓kept_mk]; with_reducible refine kept_of ?_)
    | (simp only [↓kept_mk]; with_reducible refine kept_setPl ?_ ?_)
    | (simp only [↓kept_mk]; with_reducible refine kept_setNand ?_ ?_)
    | (simp only [↓kept_mk]; with_reducible refine kept_setBed ?_ ?_)
    | (simp only [↓kept_mk]; with_reducible refine kept_setHbm ?_ ?_)
    | (simp only [↓kept_mk]; with_reducible refine kept_setRegs ?_ ?_)
    | (simp only [↓kept_mk]; with_reducible refine kept_setMarks ?_ ?_)
    | with_reducible exact wf_nil _
    | with_reducible exact smapWf_nil _
    | with_reducible apply wf_memWrite
    | with_reducible apply wf_memClear
    | with_reducible apply smapWf_set
    | with_reducible apply smapWf_clear
    | with_reducible apply wf_fold
    | with_reducible refine kept_pl (qs := qs) (u := u) ?_
    | with_reducible refine kept_nand (qs := qs) (u := u) ?_
    | with_reducible refine kept_bed (qs := qs) (u := u) ?_
    | with_reducible refine kept_hbm (qs := qs) (u := u) ?_
    | with_reducible refine kept_regs (qs := qs) (u := u) ?_
    | with_reducible refine kept_marks (qs := qs) (u := u) ?_)

theorem State.blkReset_kept {a0 : State} {a1 : Blk} {a2 : Nat} (ha0 : (a0).kept qs u = true) :
    (@State.blkReset a0 a1 a2).kept qs u = true := by
  unfold State.blkReset
  try dsimp only
  repeat' (first
    | with_reducible assumption
    | with_reducible apply State.setBit_kept
    | with_reducible apply State.endAll_kept
    | with_reducible apply State.resetRegs_kept
    | with_reducible apply State.setUnit_kept
    | intro _
    | split
    | with_reducible apply kept_fold
    | with_reducible apply kept_fold1
    | with_reducible apply kept_foldW
    | with_reducible apply kept_foldW1
    | with_reducible apply kept_foldH
    | with_reducible apply kept_foldH1
    | with_reducible refine kept_fst ?_ (by with_reducible assumption)
    | with_reducible refine kept_fstW ?_ (by with_reducible assumption)
    | with_reducible refine kept_fstH ?_ (by with_reducible assumption)
    | (simp only [↓kept_mk]; with_reducible refine kept_of ?_))

theorem execBlockReset_kept {a0 : Bool} {a1 : Blk} {a2 : Nat} {a3 : State} (ha3 : (a3).kept qs u = true) :
    ∀ t, @execBlockReset a0 a1 a2 a3 = .next t → t.kept qs u = true := by
  unfold execBlockReset
  refine live_kept ha3 ?_
  try dsimp only
  repeat' (first
    | with_reducible assumption
    | with_reducible apply State.allow_kept
    | with_reducible apply State.blkReset_kept
    | intro _
    | split
    | with_reducible apply kept_fold
    | with_reducible apply kept_fold1
    | with_reducible apply kept_foldW
    | with_reducible apply kept_foldW1
    | with_reducible apply kept_foldH
    | with_reducible apply kept_foldH1
    | with_reducible refine kept_fst ?_ (by with_reducible assumption)
    | with_reducible refine kept_fstW ?_ (by with_reducible assumption)
    | with_reducible refine kept_fstH ?_ (by with_reducible assumption)
    | (simp only [↓kept_mk]; with_reducible refine kept_of ?_))

theorem execBlockResetDone_kept {a0 : Blk} {a1 : Nat} {a2 : State} (ha2 : (a2).kept qs u = true) :
    ∀ t, @execBlockResetDone a0 a1 a2 = .next t → t.kept qs u = true := by
  unfold execBlockResetDone
  refine live_kept ha2 ?_
  try dsimp only
  repeat' (first
    | with_reducible assumption
    | with_reducible apply State.setUnit_kept
    | intro _
    | split
    | with_reducible apply kept_fold
    | with_reducible apply kept_fold1
    | with_reducible apply kept_foldW
    | with_reducible apply kept_foldW1
    | with_reducible apply kept_foldH
    | with_reducible apply kept_foldH1
    | with_reducible refine kept_fst ?_ (by with_reducible assumption)
    | with_reducible refine kept_fstW ?_ (by with_reducible assumption)
    | with_reducible refine kept_fstH ?_ (by with_reducible assumption)
    | (simp only [↓kept_mk]; with_reducible refine kept_of ?_))

theorem State.worldWrite_kept {a0 : State} {a1 : Blk} {a2 : Nat} {a3 : Nat} (ha0 : (a0).kept qs u = true) :
    (@State.worldWrite a0 a1 a2 a3).kept qs u = true := by
  unfold State.worldWrite
  try dsimp only
  repeat' (first
    | with_reducible assumption
    | with_reducible apply State.blkErr_kept
    | with_reducible apply State.setRegN_kept
    | intro _
    | split
    | with_reducible apply kept_fold
    | with_reducible apply kept_fold1
    | with_reducible apply kept_foldW
    | with_reducible apply kept_foldW1
    | with_reducible apply kept_foldH
    | with_reducible apply kept_foldH1
    | with_reducible refine kept_fst ?_ (by with_reducible assumption)
    | with_reducible refine kept_fstW ?_ (by with_reducible assumption)
    | with_reducible refine kept_fstH ?_ (by with_reducible assumption)
    | (simp only [↓kept_mk]; with_reducible refine kept_of ?_))

theorem State.ctlWrite_kept {a0 : State} {a1 : Blk} {a2 : Nat} {a3 : Nat} (ha0 : (a0).kept qs u = true) :
    (@State.ctlWrite a0 a1 a2 a3).kept qs u = true := by
  unfold State.ctlWrite
  try dsimp only
  repeat' (first
    | with_reducible assumption
    | with_reducible apply State.blkReset_kept
    | with_reducible apply State.blkErr_kept
    | with_reducible apply State.blockFails_kept
    | with_reducible apply State.blkEnable_kept
    | with_reducible apply State.blkDrain_kept
    | intro _
    | split
    | with_reducible apply kept_fold
    | with_reducible apply kept_fold1
    | with_reducible apply kept_foldW
    | with_reducible apply kept_foldW1
    | with_reducible apply kept_foldH
    | with_reducible apply kept_foldH1
    | with_reducible refine kept_fst ?_ (by with_reducible assumption)
    | with_reducible refine kept_fstW ?_ (by with_reducible assumption)
    | with_reducible refine kept_fstH ?_ (by with_reducible assumption)
    | (simp only [↓kept_mk]; with_reducible refine kept_of ?_))

theorem State.headerWrite_kept {a0 : State} {a1 : Blk} {a2 : Nat} {a3 : Nat} {a4 : Nat} (ha0 : (a0).kept qs u = true) :
    (@State.headerWrite a0 a1 a2 a3 a4).kept qs u = true := by
  unfold State.headerWrite
  try dsimp only
  repeat' (first
    | with_reducible assumption
    | with_reducible apply State.worldWrite_kept
    | with_reducible apply State.ctlWrite_kept
    | with_reducible apply State.modReg_kept
    | with_reducible apply State.setRegN_kept
    | with_reducible apply State.blkErr_kept
    | intro _
    | split
    | with_reducible apply kept_fold
    | with_reducible apply kept_fold1
    | with_reducible apply kept_foldW
    | with_reducible apply kept_foldW1
    | with_reducible apply kept_foldH
    | with_reducible apply kept_foldH1
    | with_reducible refine kept_fst ?_ (by with_reducible assumption)
    | with_reducible refine kept_fstW ?_ (by with_reducible assumption)
    | with_reducible refine kept_fstH ?_ (by with_reducible assumption)
    | (simp only [↓kept_mk]; with_reducible refine kept_of ?_))

theorem execBlockWorldWrite_kept {a0 : Bool} {a1 : Blk} {a2 : Nat} {a3 : Word} {a4 : State} (ha4 : (a4).kept qs u = true) :
    ∀ t, @execBlockWorldWrite a0 a1 a2 a3 a4 = .next t → t.kept qs u = true := by
  unfold execBlockWorldWrite
  refine live_kept ha4 ?_
  try dsimp only
  repeat' (first
    | with_reducible assumption
    | with_reducible apply State.allow_kept
    | with_reducible apply State.worldWrite_kept
    | intro _
    | split
    | with_reducible apply kept_fold
    | with_reducible apply kept_fold1
    | with_reducible apply kept_foldW
    | with_reducible apply kept_foldW1
    | with_reducible apply kept_foldH
    | with_reducible apply kept_foldH1
    | with_reducible refine kept_fst ?_ (by with_reducible assumption)
    | with_reducible refine kept_fstW ?_ (by with_reducible assumption)
    | with_reducible refine kept_fstH ?_ (by with_reducible assumption)
    | (simp only [↓kept_mk]; with_reducible refine kept_of ?_))

theorem State.wdone_kept {a0 : State} {a1 : Nat} (ha0 : (a0).kept qs u = true) :
    (@State.wdone a0 a1).kept qs u = true := by
  unfold State.wdone
  try dsimp only
  repeat' (first
    | with_reducible assumption
    | with_reducible apply State.modReg_kept
    | intro _
    | split
    | with_reducible apply kept_fold
    | with_reducible apply kept_fold1
    | with_reducible apply kept_foldW
    | with_reducible apply kept_foldW1
    | with_reducible apply kept_foldH
    | with_reducible apply kept_foldH1
    | with_reducible refine kept_fst ?_ (by with_reducible assumption)
    | with_reducible refine kept_fstW ?_ (by with_reducible assumption)
    | with_reducible refine kept_fstH ?_ (by with_reducible assumption)
    | (simp only [↓kept_mk]; with_reducible refine kept_of ?_))

theorem State.popDone_kept {a0 : State} {a1 : Nat} (ha0 : (a0).kept qs u = true) :
    (@State.popDone a0 a1).kept qs u = true := by
  unfold State.popDone
  try dsimp only
  repeat' (first
    | with_reducible assumption
    | with_reducible apply State.wdone_kept
    | intro _
    | split
    | with_reducible apply kept_fold
    | with_reducible apply kept_fold1
    | with_reducible apply kept_foldW
    | with_reducible apply kept_foldW1
    | with_reducible apply kept_foldH
    | with_reducible apply kept_foldH1
    | with_reducible refine kept_fst ?_ (by with_reducible assumption)
    | with_reducible refine kept_fstW ?_ (by with_reducible assumption)
    | with_reducible refine kept_fstH ?_ (by with_reducible assumption)
    | (simp only [↓kept_mk]; with_reducible refine kept_of ?_))

theorem State.setFront_kept {a0 : State} {a1 : Nat} {a2 : Nat} (ha0 : (a0).kept qs u = true) :
    (@State.setFront a0 a1 a2).kept qs u = true := by
  unfold State.setFront
  try dsimp only
  repeat' (first
    | with_reducible assumption
    | intro _
    | split
    | with_reducible apply kept_fold
    | with_reducible apply kept_fold1
    | with_reducible apply kept_foldW
    | with_reducible apply kept_foldW1
    | with_reducible apply kept_foldH
    | with_reducible apply kept_foldH1
    | with_reducible refine kept_fst ?_ (by with_reducible assumption)
    | with_reducible refine kept_fstW ?_ (by with_reducible assumption)
    | with_reducible refine kept_fstH ?_ (by with_reducible assumption)
    | (simp only [↓kept_mk]; with_reducible refine kept_of ?_))

theorem State.cmdErr_kept {a0 : State} {a1 : Nat} (ha0 : (a0).kept qs u = true) :
    (@State.cmdErr a0 a1).kept qs u = true := by
  unfold State.cmdErr
  try dsimp only
  repeat' (first
    | with_reducible assumption
    | with_reducible apply State.blkErr_kept
    | intro _
    | split
    | with_reducible apply kept_fold
    | with_reducible apply kept_fold1
    | with_reducible apply kept_foldW
    | with_reducible apply kept_foldW1
    | with_reducible apply kept_foldH
    | with_reducible apply kept_foldH1
    | with_reducible refine kept_fst ?_ (by with_reducible assumption)
    | with_reducible refine kept_fstW ?_ (by with_reducible assumption)
    | with_reducible refine kept_fstH ?_ (by with_reducible assumption)
    | (simp only [↓kept_mk]; with_reducible refine kept_of ?_))

theorem State.wdrop_kept {a0 : State} {a1 : Nat} (ha0 : (a0).kept qs u = true) :
    (@State.wdrop a0 a1).kept qs u = true := by
  unfold State.wdrop
  try dsimp only
  repeat' (first
    | with_reducible assumption
    | with_reducible apply State.modReg_kept
    | intro _
    | split
    | with_reducible apply kept_fold
    | with_reducible apply kept_fold1
    | with_reducible apply kept_foldW
    | with_reducible apply kept_foldW1
    | with_reducible apply kept_foldH
    | with_reducible apply kept_foldH1
    | with_reducible refine kept_fst ?_ (by with_reducible assumption)
    | with_reducible refine kept_fstW ?_ (by with_reducible assumption)
    | with_reducible refine kept_fstH ?_ (by with_reducible assumption)
    | (simp only [↓kept_mk]; with_reducible refine kept_of ?_))

theorem State.enterWrite_kept {a0 : State} {a1 : Posted} (ha0 : (a0).kept qs u = true) :
    (@State.enterWrite a0 a1).kept qs u = true := by
  unfold State.enterWrite
  try dsimp only
  repeat' (first
    | with_reducible assumption
    | with_reducible apply State.wdone_kept
    | with_reducible apply State.wdrop_kept
    | with_reducible apply State.event_kept
    | with_reducible apply State.modReg_kept
    | intro _
    | split
    | with_reducible apply kept_fold
    | with_reducible apply kept_fold1
    | with_reducible apply kept_foldW
    | with_reducible apply kept_foldW1
    | with_reducible apply kept_foldH
    | with_reducible apply kept_foldH1
    | with_reducible refine kept_fst ?_ (by with_reducible assumption)
    | with_reducible refine kept_fstW ?_ (by with_reducible assumption)
    | with_reducible refine kept_fstH ?_ (by with_reducible assumption)
    | (simp only [↓kept_mk]; with_reducible refine kept_of ?_))

theorem State.postOne_kept {a0 : State} {a1 : Bool} {a2 : Nat} {a3 : Nat} {a4 : Nat} {a5 : Nat} (ha0 : (a0).kept qs u = true) :
    (@State.postOne a0 a1 a2 a3 a4 a5).kept qs u = true := by
  unfold State.postOne
  try dsimp only
  repeat' (first
    | with_reducible assumption
    | with_reducible apply State.allow_kept
    | with_reducible apply State.enterWrite_kept
    | with_reducible apply State.wdrop_kept
    | with_reducible apply State.cmdErr_kept
    | with_reducible apply State.setRegN_kept
    | intro _
    | split
    | with_reducible apply kept_fold
    | with_reducible apply kept_fold1
    | with_reducible apply kept_foldW
    | with_reducible apply kept_foldW1
    | with_reducible apply kept_foldH
    | with_reducible apply kept_foldH1
    | with_reducible refine kept_fst ?_ (by with_reducible assumption)
    | with_reducible refine kept_fstW ?_ (by with_reducible assumption)
    | with_reducible refine kept_fstH ?_ (by with_reducible assumption)
    | (simp only [↓kept_mk]; with_reducible refine kept_of ?_))

theorem State.post_kept {a0 : State} {a1 : Bool} {a2 : Nat} {a3 : Nat} {a4 : Nat} {a5 : Nat} (ha0 : (a0).kept qs u = true) :
    (@State.post a0 a1 a2 a3 a4 a5).kept qs u = true := by
  unfold State.post
  try dsimp only
  repeat' (first
    | with_reducible assumption
    | with_reducible apply State.postOne_kept
    | intro _
    | split
    | with_reducible apply kept_fold
    | with_reducible apply kept_fold1
    | with_reducible apply kept_foldW
    | with_reducible apply kept_foldW1
    | with_reducible apply kept_foldH
    | with_reducible apply kept_foldH1
    | with_reducible refine kept_fst ?_ (by with_reducible assumption)
    | with_reducible refine kept_fstW ?_ (by with_reducible assumption)
    | with_reducible refine kept_fstH ?_ (by with_reducible assumption)
    | (simp only [↓kept_mk]; with_reducible refine kept_of ?_))

theorem execCommandWritePost_kept {a0 : Fin 17} {a1 : BitVec 16} {a2 : Nat} {a3 : DWord} {a4 : State} (ha4 : (a4).kept qs u = true) :
    ∀ t, @execCommandWritePost a0 a1 a2 a3 a4 = .next t → t.kept qs u = true := by
  unfold execCommandWritePost
  refine live_kept ha4 ?_
  try dsimp only
  repeat' (first
    | with_reducible assumption
    | with_reducible apply State.post_kept
    | intro _
    | split
    | with_reducible apply kept_fold
    | with_reducible apply kept_fold1
    | with_reducible apply kept_foldW
    | with_reducible apply kept_foldW1
    | with_reducible apply kept_foldH
    | with_reducible apply kept_foldH1
    | with_reducible refine kept_fst ?_ (by with_reducible assumption)
    | with_reducible refine kept_fstW ?_ (by with_reducible assumption)
    | with_reducible refine kept_fstH ?_ (by with_reducible assumption)
    | (simp only [↓kept_mk]; with_reducible refine kept_of ?_))

theorem State.applyPlain_kept {a0 : State} {a1 : Posted} (ha0 : (a0).kept qs u = true) :
    (@State.applyPlain a0 a1).kept qs u = true := by
  unfold State.applyPlain
  try dsimp only
  repeat' (first
    | with_reducible assumption
    | with_reducible apply State.headerWrite_kept
    | with_reducible apply State.cmdErr_kept
    | with_reducible apply State.setRegN_kept
    | with_reducible apply State.storeReg_kept
    | intro _
    | split
    | with_reducible apply kept_fold
    | with_reducible apply kept_fold1
    | with_reducible apply kept_foldW
    | with_reducible apply kept_foldW1
    | with_reducible apply kept_foldH
    | with_reducible apply kept_foldH1
    | with_reducible refine kept_fst ?_ (by with_reducible assumption)
    | with_reducible refine kept_fstW ?_ (by with_reducible assumption)
    | with_reducible refine kept_fstH ?_ (by with_reducible assumption)
    | (simp only [↓kept_mk]; with_reducible refine kept_of ?_))

theorem State.onFront_kept {a0 : State} {a1 : Nat} {a2 : Posted → Bool} {a3 : State → Posted → State} (ha0 : (a0).kept qs u = true) (ha3 : ∀ y0 y1, (y0).kept qs u = true → (a3 y0 y1).kept qs u = true) :
    (@State.onFront a0 a1 a2 a3).kept qs u = true := by
  unfold State.onFront
  try dsimp only
  repeat' (first
    | with_reducible assumption
    | with_reducible apply ha3
    | intro _
    | split
    | with_reducible apply kept_fold
    | with_reducible apply kept_fold1
    | with_reducible apply kept_foldW
    | with_reducible apply kept_foldW1
    | with_reducible apply kept_foldH
    | with_reducible apply kept_foldH1
    | with_reducible refine kept_fst ?_ (by with_reducible assumption)
    | with_reducible refine kept_fstW ?_ (by with_reducible assumption)
    | with_reducible refine kept_fstH ?_ (by with_reducible assumption)
    | (simp only [↓kept_mk]; with_reducible refine kept_of ?_))

theorem execCommandWriteApply_kept {a0 : Fin 17} {a1 : State} (ha1 : (a1).kept qs u = true) :
    ∀ t, @execCommandWriteApply a0 a1 = .next t → t.kept qs u = true := by
  unfold execCommandWriteApply
  refine live_kept ha1 ?_
  try dsimp only
  repeat' (first
    | with_reducible assumption
    | with_reducible apply State.onFront_kept
    | with_reducible apply State.popDone_kept
    | with_reducible apply State.applyPlain_kept
    | with_reducible apply State.cmdErr_kept
    | intro _
    | split
    | with_reducible apply kept_fold
    | with_reducible apply kept_fold1
    | with_reducible apply kept_foldW
    | with_reducible apply kept_foldW1
    | with_reducible apply kept_foldH
    | with_reducible apply kept_foldH1
    | with_reducible refine kept_fst ?_ (by with_reducible assumption)
    | with_reducible refine kept_fstW ?_ (by with_reducible assumption)
    | with_reducible refine kept_fstH ?_ (by with_reducible assumption)
    | (simp only [↓kept_mk]; with_reducible refine kept_of ?_))

theorem execJqTailDoorbell_kept {a0 : Fin 16} {a1 : State} (ha1 : (a1).kept qs u = true) :
    ∀ t, @execJqTailDoorbell a0 a1 = .next t → t.kept qs u = true := by
  unfold execJqTailDoorbell
  refine live_kept ha1 ?_
  try dsimp only
  repeat' (first
    | with_reducible assumption
    | with_reducible apply State.onFront_kept
    | with_reducible apply State.haltRefused_kept
    | with_reducible apply State.setRegN_kept
    | with_reducible apply State.latch_kept
    | with_reducible apply State.jqRefresh_kept
    | with_reducible apply State.popDone_kept
    | intro _
    | split
    | with_reducible apply kept_fold
    | with_reducible apply kept_fold1
    | with_reducible apply kept_foldW
    | with_reducible apply kept_foldW1
    | with_reducible apply kept_foldH
    | with_reducible apply kept_foldH1
    | with_reducible refine kept_fst ?_ (by with_reducible assumption)
    | with_reducible refine kept_fstW ?_ (by with_reducible assumption)
    | with_reducible refine kept_fstH ?_ (by with_reducible assumption)
    | (simp only [↓kept_mk]; with_reducible refine kept_of ?_))

theorem State.onCtl_kept {a0 : State} {a1 : Nat} {a2 : Nat} {a3 : State → Nat → State} (ha0 : (a0).kept qs u = true) (ha3 : ∀ y0 y1, (y0).kept qs u = true → (a3 y0 y1).kept qs u = true) :
    (@State.onCtl a0 a1 a2 a3).kept qs u = true := by
  unfold State.onCtl
  try dsimp only
  repeat' (first
    | with_reducible assumption
    | with_reducible apply State.onFront_kept
    | with_reducible apply State.popDone_kept
    | with_reducible apply State.setFront_kept
    | with_reducible apply ha3
    | intro _
    | split
    | with_reducible apply kept_fold
    | with_reducible apply kept_fold1
    | with_reducible apply kept_foldW
    | with_reducible apply kept_foldW1
    | with_reducible apply kept_foldH
    | with_reducible apply kept_foldH1
    | with_reducible refine kept_fst ?_ (by with_reducible assumption)
    | with_reducible refine kept_fstW ?_ (by with_reducible assumption)
    | with_reducible refine kept_fstH ?_ (by with_reducible assumption)
    | (simp only [↓kept_mk]; with_reducible refine kept_of ?_))

theorem State.jqOn_kept {a0 : State} {a1 : Nat} {a2 : Nat} (ha0 : (a0).kept qs u = true) :
    (@State.jqOn a0 a1 a2).kept qs u = true := by
  unfold State.jqOn
  try dsimp only
  repeat' (first
    | with_reducible assumption
    | with_reducible apply State.setJobQ_kept
    | with_reducible apply State.latch_kept
    | with_reducible apply State.jqRefresh_kept
    | with_reducible apply State.setRegN_kept
    | intro _
    | split
    | with_reducible apply kept_fold
    | with_reducible apply kept_fold1
    | with_reducible apply kept_foldW
    | with_reducible apply kept_foldW1
    | with_reducible apply kept_foldH
    | with_reducible apply kept_foldH1
    | with_reducible refine kept_fst ?_ (by with_reducible assumption)
    | with_reducible refine kept_fstW ?_ (by with_reducible assumption)
    | with_reducible refine kept_fstH ?_ (by with_reducible assumption)
    | (simp only [↓kept_mk]; with_reducible refine kept_of ?_))

theorem execJqEnable_kept {a0 : Fin 16} {a1 : State} (ha1 : (a1).kept qs u = true) :
    ∀ t, @execJqEnable a0 a1 = .next t → t.kept qs u = true := by
  unfold execJqEnable
  refine live_kept ha1 ?_
  try dsimp only
  repeat' (first
    | with_reducible assumption
    | with_reducible apply State.onFront_kept
    | with_reducible apply State.popDone_kept
    | with_reducible apply State.cmdErr_kept
    | with_reducible apply State.onCtl_kept
    | with_reducible apply State.jqOn_kept
    | intro _
    | split
    | with_reducible apply kept_fold
    | with_reducible apply kept_fold1
    | with_reducible apply kept_foldW
    | with_reducible apply kept_foldW1
    | with_reducible apply kept_foldH
    | with_reducible apply kept_foldH1
    | with_reducible refine kept_fst ?_ (by with_reducible assumption)
    | with_reducible refine kept_fstW ?_ (by with_reducible assumption)
    | with_reducible refine kept_fstH ?_ (by with_reducible assumption)
    | (simp only [↓kept_mk]; with_reducible refine kept_of ?_))

theorem execJqResume_kept {a0 : Fin 16} {a1 : State} (ha1 : (a1).kept qs u = true) :
    ∀ t, @execJqResume a0 a1 = .next t → t.kept qs u = true := by
  unfold execJqResume
  refine live_kept ha1 ?_
  try dsimp only
  repeat' (first
    | with_reducible assumption
    | with_reducible apply State.onCtl_kept
    | with_reducible apply State.latch_kept
    | with_reducible apply State.jqRefresh_kept
    | with_reducible apply State.park_kept
    | intro _
    | split
    | with_reducible apply kept_fold
    | with_reducible apply kept_fold1
    | with_reducible apply kept_foldW
    | with_reducible apply kept_foldW1
    | with_reducible apply kept_foldH
    | with_reducible apply kept_foldH1
    | with_reducible refine kept_fst ?_ (by with_reducible assumption)
    | with_reducible refine kept_fstW ?_ (by with_reducible assumption)
    | with_reducible refine kept_fstH ?_ (by with_reducible assumption)
    | (simp only [↓kept_mk]; with_reducible refine kept_of ?_))

theorem execJqDiscard_kept {a0 : Fin 16} {a1 : State} (ha1 : (a1).kept qs u = true) :
    ∀ t, @execJqDiscard a0 a1 = .next t → t.kept qs u = true := by
  unfold execJqDiscard
  refine live_kept ha1 ?_
  try dsimp only
  repeat' (first
    | with_reducible assumption
    | with_reducible apply State.onCtl_kept
    | with_reducible apply State.unlatch_kept
    | with_reducible apply State.setRegN_kept
    | with_reducible apply State.park_kept
    | with_reducible apply State.jqRefresh_kept
    | intro _
    | split
    | with_reducible apply kept_fold
    | with_reducible apply kept_fold1
    | with_reducible apply kept_foldW
    | with_reducible apply kept_foldW1
    | with_reducible apply kept_foldH
    | with_reducible apply kept_foldH1
    | with_reducible refine kept_fst ?_ (by with_reducible assumption)
    | with_reducible refine kept_fstW ?_ (by with_reducible assumption)
    | with_reducible refine kept_fstH ?_ (by with_reducible assumption)
    | (simp only [↓kept_mk]; with_reducible refine kept_of ?_))

theorem execJqDisable_kept {a0 : Fin 16} {a1 : State} (ha1 : (a1).kept qs u = true) :
    ∀ t, @execJqDisable a0 a1 = .next t → t.kept qs u = true := by
  unfold execJqDisable
  refine live_kept ha1 ?_
  try dsimp only
  repeat' (first
    | with_reducible assumption
    | with_reducible apply State.onCtl_kept
    | with_reducible apply State.unlatch_kept
    | with_reducible apply State.setRegN_kept
    | with_reducible apply State.setJobQ_kept
    | intro _
    | split
    | with_reducible apply kept_fold
    | with_reducible apply kept_fold1
    | with_reducible apply kept_foldW
    | with_reducible apply kept_foldW1
    | with_reducible apply kept_foldH
    | with_reducible apply kept_foldH1
    | with_reducible refine kept_fst ?_ (by with_reducible assumption)
    | with_reducible refine kept_fstW ?_ (by with_reducible assumption)
    | with_reducible refine kept_fstH ?_ (by with_reducible assumption)
    | (simp only [↓kept_mk]; with_reducible refine kept_of ?_))

theorem State.ringHead_kept {a0 : State} {a1 : Nat} {a2 : Nat} {a3 : Nat} {a4 : Nat} (ha0 : (a0).kept qs u = true) :
    (@State.ringHead a0 a1 a2 a3 a4).kept qs u = true := by
  unfold State.ringHead
  try dsimp only
  repeat' (first
    | with_reducible assumption
    | with_reducible apply State.setRing_kept
    | with_reducible apply State.setRegN_kept
    | intro _
    | split
    | with_reducible apply kept_fold
    | with_reducible apply kept_fold1
    | with_reducible apply kept_foldW
    | with_reducible apply kept_foldW1
    | with_reducible apply kept_foldH
    | with_reducible apply kept_foldH1
    | with_reducible refine kept_fst ?_ (by with_reducible assumption)
    | with_reducible refine kept_fstW ?_ (by with_reducible assumption)
    | with_reducible refine kept_fstH ?_ (by with_reducible assumption)
    | (simp only [↓kept_mk]; with_reducible refine kept_of ?_))

theorem execCqHeadUpdate_kept {a0 : Fin 16} {a1 : State} (ha1 : (a1).kept qs u = true) :
    ∀ t, @execCqHeadUpdate a0 a1 = .next t → t.kept qs u = true := by
  unfold execCqHeadUpdate
  refine live_kept ha1 ?_
  try dsimp only
  repeat' (first
    | with_reducible assumption
    | with_reducible apply State.onFront_kept
    | with_reducible apply State.popDone_kept
    | with_reducible apply State.ringHead_kept
    | intro _
    | split
    | with_reducible apply kept_fold
    | with_reducible apply kept_fold1
    | with_reducible apply kept_foldW
    | with_reducible apply kept_foldW1
    | with_reducible apply kept_foldH
    | with_reducible apply kept_foldH1
    | with_reducible refine kept_fst ?_ (by with_reducible assumption)
    | with_reducible refine kept_fstW ?_ (by with_reducible assumption)
    | with_reducible refine kept_fstH ?_ (by with_reducible assumption)
    | (simp only [↓kept_mk]; with_reducible refine kept_of ?_))

theorem execEqHeadUpdate_kept {a0 : Fin 17} {a1 : State} (ha1 : (a1).kept qs u = true) :
    ∀ t, @execEqHeadUpdate a0 a1 = .next t → t.kept qs u = true := by
  unfold execEqHeadUpdate
  refine live_kept ha1 ?_
  try dsimp only
  repeat' (first
    | with_reducible assumption
    | with_reducible apply State.onFront_kept
    | with_reducible apply State.popDone_kept
    | with_reducible apply State.ringHead_kept
    | intro _
    | split
    | with_reducible apply kept_fold
    | with_reducible apply kept_fold1
    | with_reducible apply kept_foldW
    | with_reducible apply kept_foldW1
    | with_reducible apply kept_foldH
    | with_reducible apply kept_foldH1
    | with_reducible refine kept_fst ?_ (by with_reducible assumption)
    | with_reducible refine kept_fstW ?_ (by with_reducible assumption)
    | with_reducible refine kept_fstH ?_ (by with_reducible assumption)
    | (simp only [↓kept_mk]; with_reducible refine kept_of ?_))

theorem State.mapStart_kept {a0 : State} {a1 : Nat} {a2 : Posted} {a3 : Bool → State → State × MapOp} (ha0 : (a0).kept qs u = true) (ha3 : ∀ y0 y1, (y1).kept qs u = true → (a3 y0 y1).1.kept qs u = true) :
    (@State.mapStart a0 a1 a2 a3).kept qs u = true := by
  unfold State.mapStart
  try dsimp only
  repeat' (first
    | with_reducible assumption
    | with_reducible apply State.popDone_kept
    | with_reducible apply State.cmdErr_kept
    | with_reducible apply State.setBit_kept
    | with_reducible apply ha3
    | intro _
    | split
    | with_reducible apply kept_fold
    | with_reducible apply kept_fold1
    | with_reducible apply kept_foldW
    | with_reducible apply kept_foldW1
    | with_reducible apply kept_foldH
    | with_reducible apply kept_foldH1
    | with_reducible refine kept_fst ?_ (by with_reducible assumption)
    | with_reducible refine kept_fstW ?_ (by with_reducible assumption)
    | with_reducible refine kept_fstH ?_ (by with_reducible assumption)
    | (simp only [↓kept_mk]; with_reducible refine kept_of ?_))

theorem execMap_kept {a0 : Fin 16} {a1 : State} (ha1 : (a1).kept qs u = true) :
    ∀ t, @execMap a0 a1 = .next t → t.kept qs u = true := by
  unfold execMap
  refine live_kept ha1 ?_
  try dsimp only
  repeat' (first
    | with_reducible assumption
    | with_reducible apply State.onFront_kept
    | with_reducible apply State.mapStart_kept
    | with_reducible apply State.placeGranules_kept
    | with_reducible apply State.zeroEnts_kept
    | intro _
    | split
    | with_reducible apply kept_fold
    | with_reducible apply kept_fold1
    | with_reducible apply kept_foldW
    | with_reducible apply kept_foldW1
    | with_reducible apply kept_foldH
    | with_reducible apply kept_foldH1
    | with_reducible refine kept_fst ?_ (by with_reducible assumption)
    | with_reducible refine kept_fstW ?_ (by with_reducible assumption)
    | with_reducible refine kept_fstH ?_ (by with_reducible assumption)
    | (simp only [↓kept_mk]; with_reducible refine kept_of ?_))

theorem execUnmap_kept {a0 : Fin 16} {a1 : State} (ha1 : (a1).kept qs u = true) :
    ∀ t, @execUnmap a0 a1 = .next t → t.kept qs u = true := by
  unfold execUnmap
  refine live_kept ha1 ?_
  try dsimp only
  repeat' (first
    | with_reducible assumption
    | with_reducible apply State.onFront_kept
    | with_reducible apply State.mapStart_kept
    | intro _
    | split
    | with_reducible apply kept_fold
    | with_reducible apply kept_fold1
    | with_reducible apply kept_foldW
    | with_reducible apply kept_foldW1
    | with_reducible apply kept_foldH
    | with_reducible apply kept_foldH1
    | with_reducible refine kept_fst ?_ (by with_reducible assumption)
    | with_reducible refine kept_fstW ?_ (by with_reducible assumption)
    | with_reducible refine kept_fstH ?_ (by with_reducible assumption)
    | (simp only [↓kept_mk]; with_reducible refine kept_of ?_))

theorem execMapOperationEnd_kept {a0 : Fin 16} {a1 : State} (ha1 : (a1).kept qs u = true) :
    ∀ t, @execMapOperationEnd a0 a1 = .next t → t.kept qs u = true := by
  unfold execMapOperationEnd
  refine live_kept ha1 ?_
  try dsimp only
  repeat' (first
    | with_reducible assumption
    | with_reducible apply State.modReg_kept
    | with_reducible apply State.setRegN_kept
    | intro _
    | split
    | with_reducible apply kept_fold
    | with_reducible apply kept_fold1
    | with_reducible apply kept_foldW
    | with_reducible apply kept_foldW1
    | with_reducible apply kept_foldH
    | with_reducible apply kept_foldH1
    | with_reducible refine kept_fst ?_ (by with_reducible assumption)
    | with_reducible refine kept_fstW ?_ (by with_reducible assumption)
    | with_reducible refine kept_fstH ?_ (by with_reducible assumption)
    | (simp only [↓kept_mk]; with_reducible refine kept_of ?_))

end Sys2Proof.Machine
end

