-- ==== Sys2Proof/Laws/KeptHost.lean ====
section
/-! SUPPORT. What no command disturbs is kept. -/

namespace Sys2Proof.Machine

variable {qs : List Instr} {u : Bool}

theorem State.mctpSend_kept {a0 : State} {a1 : Nat} {a2 : Nat} {a3 : Bytes} (ha0 : (a0).kept qs u = true) :
    (@State.mctpSend a0 a1 a2 a3).kept qs u = true := by
  unfold State.mctpSend
  try dsimp only
  repeat' (first
    | with_reducible assumption
    | intro _
    | split
    | with_reducible apply kept_fold
    | with_reducible apply kept_fold1
    | with_reducible apply kept_foldW
    | with_reducible apply kept_foldW1
    | with_reducible apply kept_foldH
    | with_reducible apply kept_foldH1
    | with_reducible refine kept_fst ?_ (by with_reducible assumption)
    | with_reducible refine kept_fstW ?_ (by with_reducible assumption)
    | with_reducible refine kept_fstH ?_ (by with_reducible assumption)
    | (simp only [↓kept_mk]; with_reducible refine kept_of ?_))

theorem State.qnAnswer_kept {a0 : State} {a1 : QReq} {a2 : Nat} {a3 : Bytes} (ha0 : (a0).kept qs u = true) :
    (@State.qnAnswer a0 a1 a2 a3).kept qs u = true := by
  unfold State.qnAnswer
  try dsimp only
  repeat' (first
    | with_reducible assumption
    | with_reducible apply State.mctpSend_kept
    | with_reducible apply State.setRegN_kept
    | intro _
    | split
    | with_reducible apply kept_fold
    | with_reducible apply kept_fold1
    | with_reducible apply kept_foldW
    | with_reducible apply kept_foldW1
    | with_reducible apply kept_foldH
    | with_reducible apply kept_foldH1
    | with_reducible refine kept_fst ?_ (by with_reducible assumption)
    | with_reducible refine kept_fstW ?_ (by with_reducible assumption)
    | with_reducible refine kept_fstH ?_ (by with_reducible assumption)
    | (simp only [↓kept_mk]; with_reducible refine kept_of ?_))

theorem State.qnTake_kept {a0 : State} {a1 : QReq} (ha0 : (a0).kept qs u = true) :
    (@State.qnTake a0 a1).kept qs u = true := by
  unfold State.qnTake
  try dsimp only
  repeat' (first
    | with_reducible assumption
    | intro _
    | split
    | with_reducible apply kept_fold
    | with_reducible apply kept_fold1
    | with_reducible apply kept_foldW
    | with_reducible apply kept_foldW1
    | with_reducible apply kept_foldH
    | with_reducible apply kept_foldH1
    | with_reducible refine kept_fst ?_ (by with_reducible assumption)
    | with_reducible refine kept_fstW ?_ (by with_reducible assumption)
    | with_reducible refine kept_fstH ?_ (by with_reducible assumption)
    | (simp only [↓kept_mk]; with_reducible refine kept_of ?_))

theorem State.qnSkimFuel_kept {a0 : Nat} {a1 : State} (ha1 : (a1).kept qs u = true) :
    (@State.qnSkimFuel a0 a1).kept qs u = true := by
  induction a0 generalizing a1 with
  | zero => exact ha1
  | succ n ih =>
    simp only [State.qnSkimFuel]
    repeat' (first
        | with_reducible apply ih
        | with_reducible apply State.qnAnswer_kept
        | with_reducible apply State.qnTake_kept
        | with_reducible assumption
        | intro _
        | split
        | with_reducible apply kept_fold
        | with_reducible apply kept_fold1
        | with_reducible apply kept_foldW
        | with_reducible apply kept_foldW1
        | with_reducible apply kept_foldH
        | with_reducible apply kept_foldH1
        | with_reducible refine kept_fst ?_ (by with_reducible assumption)
        | with_reducible refine kept_fstW ?_ (by with_reducible assumption)
        | with_reducible refine kept_fstH ?_ (by with_reducible assumption)
        | (simp only [↓kept_mk]; with_reducible refine kept_of ?_)
        | (simp only [↓kept_mk]; with_reducible refine kept_setPl ?_ ?_)
        | (simp only [↓kept_mk]; with_reducible refine kept_setNand ?_ ?_)
        | (simp only [↓kept_mk]; with_reducible refine kept_setBed ?_ ?_)
        | (simp only [↓kept_mk]; with_reducible refine kept_setHbm ?_ ?_)
        | (simp only [↓kept_mk]; with_reducible refine kept_setRegs ?_ ?_)
        | (simp only [↓kept_mk]; with_reducible refine kept_setMarks ?_ ?_)
        | with_reducible exact wf_nil _
        | with_reducible exact smapWf_nil _
        | with_reducible apply wf_memWrite
        | with_reducible apply wf_memClear
        | with_reducible apply smapWf_set
        | with_reducible apply smapWf_clear
        | with_reducible apply wf_fold
        | with_reducible refine kept_pl (qs := qs) (u := u) ?_
        | with_reducible refine kept_nand (qs := qs) (u := u) ?_
        | with_reducible refine kept_bed (qs := qs) (u := u) ?_
        | with_reducible refine kept_hbm (qs := qs) (u := u) ?_
        | with_reducible refine kept_regs (qs := qs) (u := u) ?_
        | with_reducible refine kept_marks (qs := qs) (u := u) ?_)

theorem State.qnEnter_kept {a0 : State} {a1 : QReq} (ha0 : (a0).kept qs u = true) :
    (@State.qnEnter a0 a1).kept qs u = true := by
  unfold State.qnEnter
  try dsimp only
  repeat' (first
    | with_reducible assumption
    | with_reducible apply State.qnSkimFuel_kept
    | intro _
    | split
    | with_reducible apply kept_fold
    | with_reducible apply kept_fold1
    | with_reducible apply kept_foldW
    | with_reducible apply kept_foldW1
    | with_reducible apply kept_foldH
    | with_reducible apply kept_foldH1
    | with_reducible refine kept_fst ?_ (by with_reducible assumption)
    | with_reducible refine kept_fstW ?_ (by with_reducible assumption)
    | with_reducible refine kept_fstH ?_ (by with_reducible assumption)
    | (simp only [↓kept_mk]; with_reducible refine kept_of ?_))

theorem State.qnServe_kept {a0 : State} {a1 : Nat} {a2 : QReq → Bool} {a3 : State → QReq → QnOut} (ha0 : (a0).kept qs u = true) (ha3 : ∀ y0 y1, (y0).kept qs u = true → (a3 y0 y1).1.kept qs u = true) :
    (@State.qnServe a0 a1 a2 a3).kept qs u = true := by
  unfold State.qnServe
  try dsimp only
  repeat' (first
    | with_reducible assumption
    | with_reducible apply State.qnTake_kept
    | with_reducible apply State.qnAnswer_kept
    | with_reducible apply State.qnSkimFuel_kept
    | with_reducible apply ha3
    | intro _
    | split
    | with_reducible apply kept_fold
    | with_reducible apply kept_fold1
    | with_reducible apply kept_foldW
    | with_reducible apply kept_foldW1
    | with_reducible apply kept_foldH
    | with_reducible apply kept_foldH1
    | with_reducible refine kept_fst ?_ (by with_reducible assumption)
    | with_reducible refine kept_fstW ?_ (by with_reducible assumption)
    | with_reducible refine kept_fstH ?_ (by with_reducible assumption)
    | (simp only [↓kept_mk]; with_reducible refine kept_of ?_))

theorem State.qnCommand_kept {a0 : State} {a1 : Nat} {a2 : Nat} {a3 : State → Bytes → QnOut} (ha0 : (a0).kept qs u = true) (ha3 : ∀ y0 y1, (y0).kept qs u = true → (a3 y0 y1).1.kept qs u = true) :
    (@State.qnCommand a0 a1 a2 a3).kept qs u = true := by
  unfold State.qnCommand
  try dsimp only
  repeat' (first
    | with_reducible assumption
    | with_reducible apply State.qnServe_kept
    | with_reducible apply ha3
    | intro _
    | split
    | with_reducible apply kept_fold
    | with_reducible apply kept_fold1
    | with_reducible apply kept_foldW
    | with_reducible apply kept_foldW1
    | with_reducible apply kept_foldH
    | with_reducible apply kept_foldH1
    | with_reducible refine kept_fst ?_ (by with_reducible assumption)
    | with_reducible refine kept_fstW ?_ (by with_reducible assumption)
    | with_reducible refine kept_fstH ?_ (by with_reducible assumption)
    | (simp only [↓kept_mk]; with_reducible refine kept_of ?_))

theorem State.mailboxWrite_kept {a0 : State} {a1 : Bool} {a2 : Bool} (ha0 : (a0).kept qs u = true) :
    (@State.mailboxWrite a0 a1 a2).kept qs u = true := by
  unfold State.mailboxWrite
  try dsimp only
  repeat' (first
    | with_reducible assumption
    | with_reducible apply State.blkErr_kept
    | with_reducible apply State.qnEnter_kept
    | with_reducible apply State.setRegN_kept
    | intro _
    | split
    | with_reducible apply kept_fold
    | with_reducible apply kept_fold1
    | with_reducible apply kept_foldW
    | with_reducible apply kept_foldW1
    | with_reducible apply kept_foldH
    | with_reducible apply kept_foldH1
    | with_reducible refine kept_fst ?_ (by with_reducible assumption)
    | with_reducible refine kept_fstW ?_ (by with_reducible assumption)
    | with_reducible refine kept_fstH ?_ (by with_reducible assumption)
    | (simp only [↓kept_mk]; with_reducible refine kept_of ?_))

theorem execMailboxGo_kept {a0 : Bool} {a1 : Word} {a2 : State} (ha2 : (a2).kept qs u = true) :
    ∀ t, @execMailboxGo a0 a1 a2 = .next t → t.kept qs u = true := by
  unfold execMailboxGo
  refine live_kept ha2 ?_
  try dsimp only
  repeat' (first
    | with_reducible assumption
    | with_reducible apply State.allow_kept
    | with_reducible apply State.mailboxWrite_kept
    | intro _
    | split
    | with_reducible apply kept_fold
    | with_reducible apply kept_fold1
    | with_reducible apply kept_foldW
    | with_reducible apply kept_foldW1
    | with_reducible apply kept_foldH
    | with_reducible apply kept_foldH1
    | with_reducible refine kept_fst ?_ (by with_reducible assumption)
    | with_reducible refine kept_fstW ?_ (by with_reducible assumption)
    | with_reducible refine kept_fstH ?_ (by with_reducible assumption)
    | (simp only [↓kept_mk]; with_reducible refine kept_of ?_))

theorem State.mctpAssemble_kept {a0 : State} {a1 : MctpPkt} (ha0 : (a0).kept qs u = true) :
    (@State.mctpAssemble a0 a1).1.kept qs u = true := by
  unfold State.mctpAssemble
  try dsimp only
  repeat' (first
    | with_reducible assumption
    | intro _
    | split
    | with_reducible apply kept_fold
    | with_reducible apply kept_fold1
    | with_reducible apply kept_foldW
    | with_reducible apply kept_foldW1
    | with_reducible apply kept_foldH
    | with_reducible apply kept_foldH1
    | with_reducible refine kept_fst ?_ (by with_reducible assumption)
    | with_reducible refine kept_fstW ?_ (by with_reducible assumption)
    | with_reducible refine kept_fstH ?_ (by with_reducible assumption)
    | (simp only [↓kept_mk]; with_reducible refine kept_of ?_))

theorem State.mctpTake_kept {a0 : State} {a1 : Bytes} {a2 : Byte} {a3 : State → MctpPkt → Bytes → State} (ha0 : (a0).kept qs u = true) (ha3 : ∀ y0 y1 y2, (y0).kept qs u = true → (a3 y0 y1 y2).kept qs u = true) :
    (@State.mctpTake a0 a1 a2 a3).kept qs u = true := by
  unfold State.mctpTake
  try dsimp only
  repeat' (first
    | with_reducible assumption
    | with_reducible apply State.mctpAssemble_kept
    | with_reducible apply ha3
    | intro _
    | split
    | with_reducible apply kept_fold
    | with_reducible apply kept_fold1
    | with_reducible apply kept_foldW
    | with_reducible apply kept_foldW1
    | with_reducible apply kept_foldH
    | with_reducible apply kept_foldH1
    | with_reducible refine kept_fst ?_ (by with_reducible assumption)
    | with_reducible refine kept_fstW ?_ (by with_reducible assumption)
    | with_reducible refine kept_fstH ?_ (by with_reducible assumption)
    | (simp only [↓kept_mk]; with_reducible refine kept_of ?_))

theorem execMctpMessage_kept {a0 : Bytes} {a1 : State} (ha1 : (a1).kept qs u = true) :
    ∀ t, @execMctpMessage a0 a1 = .next t → t.kept qs u = true := by
  unfold execMctpMessage
  refine live_kept ha1 ?_
  try dsimp only
  repeat' (first
    | with_reducible assumption
    | with_reducible apply State.mctpTake_kept
    | with_reducible apply State.qnAnswer_kept
    | with_reducible apply State.qnEnter_kept
    | intro _
    | split
    | with_reducible apply kept_fold
    | with_reducible apply kept_fold1
    | with_reducible apply kept_foldW
    | with_reducible apply kept_foldW1
    | with_reducible apply kept_foldH
    | with_reducible apply kept_foldH1
    | with_reducible refine kept_fst ?_ (by with_reducible assumption)
    | with_reducible refine kept_fstW ?_ (by with_reducible assumption)
    | with_reducible refine kept_fstH ?_ (by with_reducible assumption)
    | (simp only [↓kept_mk]; with_reducible refine kept_of ?_))

theorem State.mctpControl_kept {a0 : State} {a1 : Nat} {a2 : Bytes} (ha0 : (a0).kept qs u = true) :
    (@State.mctpControl a0 a1 a2).1.kept qs u = true := by
  unfold State.mctpControl
  try dsimp only
  repeat' (first
    | with_reducible assumption
    | intro _
    | split
    | with_reducible apply kept_fold
    | with_reducible apply kept_fold1
    | with_reducible apply kept_foldW
    | with_reducible apply kept_foldW1
    | with_reducible apply kept_foldH
    | with_reducible apply kept_foldH1
    | with_reducible refine kept_fst ?_ (by with_reducible assumption)
    | with_reducible refine kept_fstW ?_ (by with_reducible assumption)
    | with_reducible refine kept_fstH ?_ (by with_reducible assumption)
    | (simp only [↓kept_mk]; with_reducible refine kept_of ?_))

theorem execMctpControlMessage_kept {a0 : Bytes} {a1 : State} (ha1 : (a1).kept qs u = true) :
    ∀ t, @execMctpControlMessage a0 a1 = .next t → t.kept qs u = true := by
  unfold execMctpControlMessage
  refine live_kept ha1 ?_
  try dsimp only
  repeat' (first
    | with_reducible assumption
    | with_reducible apply State.mctpTake_kept
    | with_reducible apply State.mctpControl_kept
    | with_reducible apply State.mctpSend_kept
    | intro _
    | split
    | with_reducible apply kept_fold
    | with_reducible apply kept_fold1
    | with_reducible apply kept_foldW
    | with_reducible apply kept_foldW1
    | with_reducible apply kept_foldH
    | with_reducible apply kept_foldH1
    | with_reducible refine kept_fst ?_ (by with_reducible assumption)
    | with_reducible refine kept_fstW ?_ (by with_reducible assumption)
    | with_reducible refine kept_fstH ?_ (by with_reducible assumption)
    | (simp only [↓kept_mk]; with_reducible refine kept_of ?_))

theorem State.resetPages_kept {a0 : State} {a1 : Nat} (ha0 : (a0).kept qs u = true) :
    (@State.resetPages a0 a1).kept qs u = true := by
  unfold State.resetPages
  try dsimp only
  repeat' (first
    | with_reducible assumption
    | with_reducible apply State.resetRegs_kept
    | intro _
    | split
    | with_reducible apply kept_fold
    | with_reducible apply kept_fold1
    | with_reducible apply kept_foldW
    | with_reducible apply kept_foldW1
    | with_reducible apply kept_foldH
    | with_reducible apply kept_foldH1
    | with_reducible refine kept_fst ?_ (by with_reducible assumption)
    | with_reducible refine kept_fstW ?_ (by with_reducible assumption)
    | with_reducible refine kept_fstH ?_ (by with_reducible assumption)
    | (simp only [↓kept_mk]; with_reducible refine kept_of ?_))

theorem State.zeroWindow_kept {a0 : State} {a1 : Nat} (ha0 : (a0).kept qs u = true) :
    (@State.zeroWindow a0 a1).kept qs u = true := by
  unfold State.zeroWindow
  try dsimp only
  repeat' (first
    | with_reducible assumption
    | intro _
    | split
    | with_reducible apply kept_fold
    | with_reducible apply kept_fold1
    | with_reducible apply kept_foldW
    | with_reducible apply kept_foldW1
    | with_reducible apply kept_foldH
    | with_reducible apply kept_foldH1
    | with_reducible refine kept_fst ?_ (by with_reducible assumption)
    | with_reducible refine kept_fstW ?_ (by with_reducible assumption)
    | with_reducible refine kept_fstH ?_ (by with_reducible assumption)
    | (simp only [↓kept_mk]; with_reducible refine kept_of ?_)
    | (simp only [↓kept_mk]; with_reducible refine kept_setPl ?_ ?_)
    | (simp only [↓kept_mk]; with_reducible refine kept_setNand ?_ ?_)
    | (simp only [↓kept_mk]; with_reducible refine kept_setBed ?_ ?_)
    | (simp only [↓kept_mk]; with_reducible refine kept_setHbm ?_ ?_)
    | (simp only [↓kept_mk]; with_reducible refine kept_setRegs ?_ ?_)
    | (simp only [↓kept_mk]; with_reducible refine kept_setMarks ?_ ?_)
    | with_reducible exact wf_nil _
    | with_reducible exact smapWf_nil _
    | with_reducible apply wf_memWrite
    | with_reducible apply wf_memClear
    | with_reducible apply smapWf_set
    | with_reducible apply smapWf_clear
    | with_reducible apply wf_fold
    | with_reducible refine kept_pl (qs := qs) (u := u) ?_
    | with_reducible refine kept_nand (qs := qs) (u := u) ?_
    | with_reducible refine kept_bed (qs := qs) (u := u) ?_
    | with_reducible refine kept_hbm (qs := qs) (u := u) ?_
    | with_reducible refine kept_regs (qs := qs) (u := u) ?_
    | with_reducible refine kept_marks (qs := qs) (u := u) ?_)

theorem State.createTenant_kept {a0 : State} {a1 : Bytes} (ha0 : (a0).kept qs u = true) :
    (@State.createTenant a0 a1).1.kept qs u = true := by
  unfold State.createTenant
  try dsimp only
  repeat' (first
    | with_reducible assumption
    | with_reducible apply State.newKey_kept
    | with_reducible apply State.setRegN_kept
    | with_reducible apply State.tick_kept
    | with_reducible apply State.zeroWindow_kept
    | with_reducible apply State.resetPages_kept
    | intro _
    | split
    | with_reducible apply kept_fold
    | with_reducible apply kept_fold1
    | with_reducible apply kept_foldW
    | with_reducible apply kept_foldW1
    | with_reducible apply kept_foldH
    | with_reducible apply kept_foldH1
    | with_reducible refine kept_fst ?_ (by with_reducible assumption)
    | with_reducible refine kept_fstW ?_ (by with_reducible assumption)
    | with_reducible refine kept_fstH ?_ (by with_reducible assumption)
    | (simp only [↓kept_mk]; with_reducible refine kept_of ?_))

theorem execTenantCreate_kept {a0 : State} (ha0 : (a0).kept qs u = true) :
    ∀ t, @execTenantCreate a0 = .next t → t.kept qs u = true := by
  unfold execTenantCreate
  refine live_kept ha0 ?_
  try dsimp only
  repeat' (first
    | with_reducible assumption
    | with_reducible apply State.qnCommand_kept
    | with_reducible apply State.createTenant_kept
    | intro _
    | split
    | with_reducible apply kept_fold
    | with_reducible apply kept_fold1
    | with_reducible apply kept_foldW
    | with_reducible apply kept_foldW1
    | with_reducible apply kept_foldH
    | with_reducible apply kept_foldH1
    | with_reducible refine kept_fst ?_ (by with_reducible assumption)
    | with_reducible refine kept_fstW ?_ (by with_reducible assumption)
    | with_reducible refine kept_fstH ?_ (by with_reducible assumption)
    | (simp only [↓kept_mk]; with_reducible refine kept_of ?_))

theorem State.dropPending_kept {a0 : State} {a1 : Nat} (ha0 : (a0).kept qs u = true) :
    (@State.dropPending a0 a1).kept qs u = true := by
  unfold State.dropPending
  try dsimp only
  repeat' (first
    | with_reducible assumption
    | with_reducible apply State.setRegN_kept
    | with_reducible apply State.unlatch_kept
    | with_reducible apply State.setJobQ_kept
    | with_reducible apply State.jqRefresh_kept
    | intro _
    | split
    | with_reducible apply kept_fold
    | with_reducible apply kept_fold1
    | with_reducible apply kept_foldW
    | with_reducible apply kept_foldW1
    | with_reducible apply kept_foldH
    | with_reducible apply kept_foldH1
    | with_reducible refine kept_fst ?_ (by with_reducible assumption)
    | with_reducible refine kept_fstW ?_ (by with_reducible assumption)
    | with_reducible refine kept_fstH ?_ (by with_reducible assumption)
    | (simp only [↓kept_mk]; with_reducible refine kept_of ?_))

theorem State.schedRetire_kept {a0 : State} {a1 : Nat} (ha0 : (a0).kept qs u = true) :
    (@State.schedRetire a0 a1).kept qs u = true := by
  unfold State.schedRetire
  try dsimp only
  repeat' (first
    | with_reducible assumption
    | with_reducible apply State.schedEnd_kept
    | intro _
    | split
    | with_reducible apply kept_fold
    | with_reducible apply kept_fold1
    | with_reducible apply kept_foldW
    | with_reducible apply kept_foldW1
    | with_reducible apply kept_foldH
    | with_reducible apply kept_foldH1
    | with_reducible refine kept_fst ?_ (by with_reducible assumption)
    | with_reducible refine kept_fstW ?_ (by with_reducible assumption)
    | with_reducible refine kept_fstH ?_ (by with_reducible assumption)
    | (simp only [↓kept_mk]; with_reducible refine kept_of ?_))

theorem State.retireTenant_kept {a0 : State} {a1 : Nat} (ha0 : (a0).kept qs u = true) :
    (@State.retireTenant a0 a1).kept qs u = true := by
  unfold State.retireTenant
  try dsimp only
  repeat' (first
    | with_reducible assumption
    | with_reducible apply State.dropPending_kept
    | with_reducible apply State.setField_kept
    | with_reducible apply State.schedRetire_kept
    | with_reducible apply State.schedDisable_kept
    | intro _
    | split
    | with_reducible apply kept_fold
    | with_reducible apply kept_fold1
    | with_reducible apply kept_foldW
    | with_reducible apply kept_foldW1
    | with_reducible apply kept_foldH
    | with_reducible apply kept_foldH1
    | with_reducible refine kept_fst ?_ (by with_reducible assumption)
    | with_reducible refine kept_fstW ?_ (by with_reducible assumption)
    | with_reducible refine kept_fstH ?_ (by with_reducible assumption)
    | (simp only [↓kept_mk]; with_reducible refine kept_of ?_))

theorem execTenantRemove_kept {a0 : State} (ha0 : (a0).kept qs u = true) :
    ∀ t, @execTenantRemove a0 = .next t → t.kept qs u = true := by
  unfold execTenantRemove
  refine live_kept ha0 ?_
  try dsimp only
  repeat' (first
    | with_reducible assumption
    | with_reducible apply State.qnCommand_kept
    | with_reducible apply State.retireTenant_kept
    | intro _
    | split
    | with_reducible apply kept_fold
    | with_reducible apply kept_fold1
    | with_reducible apply kept_foldW
    | with_reducible apply kept_foldW1
    | with_reducible apply kept_foldH
    | with_reducible apply kept_foldH1
    | with_reducible refine kept_fst ?_ (by with_reducible assumption)
    | with_reducible refine kept_fstW ?_ (by with_reducible assumption)
    | with_reducible refine kept_fstH ?_ (by with_reducible assumption)
    | (simp only [↓kept_mk]; with_reducible refine kept_of ?_))

theorem State.startScrub_kept {a0 : State} {a1 : Nat} (ha0 : (a0).kept qs u = true) :
    (@State.startScrub a0 a1).kept qs u = true := by
  unfold State.startScrub
  try dsimp only
  repeat' (first
    | with_reducible assumption
    | with_reducible apply State.setField_kept
    | intro _
    | split
    | with_reducible apply kept_fold
    | with_reducible apply kept_fold1
    | with_reducible apply kept_foldW
    | with_reducible apply kept_foldW1
    | with_reducible apply kept_foldH
    | with_reducible apply kept_foldH1
    | with_reducible refine kept_fst ?_ (by with_reducible assumption)
    | with_reducible refine kept_fstW ?_ (by with_reducible assumption)
    | with_reducible refine kept_fstH ?_ (by with_reducible assumption)
    | (simp only [↓kept_mk]; with_reducible refine kept_of ?_))

theorem execTenantDrainDone_kept {a0 : Fin 16} {a1 : State} (ha1 : (a1).kept qs u = true) :
    ∀ t, @execTenantDrainDone a0 a1 = .next t → t.kept qs u = true := by
  unfold execTenantDrainDone
  refine live_kept ha1 ?_
  try dsimp only
  repeat' (first
    | with_reducible assumption
    | with_reducible apply State.startScrub_kept
    | intro _
    | split
    | with_reducible apply kept_fold
    | with_reducible apply kept_fold1
    | with_reducible apply kept_foldW
    | with_reducible apply kept_foldW1
    | with_reducible apply kept_foldH
    | with_reducible apply kept_foldH1
    | with_reducible refine kept_fst ?_ (by with_reducible assumption)
    | with_reducible refine kept_fstW ?_ (by with_reducible assumption)
    | with_reducible refine kept_fstH ?_ (by with_reducible assumption)
    | (simp only [↓kept_mk]; with_reducible refine kept_of ?_))

theorem State.resetBusy_kept {a0 : State} {a1 : Nat} (ha0 : (a0).kept qs u = true) :
    (@State.resetBusy a0 a1).kept qs u = true := by
  unfold State.resetBusy
  try dsimp only
  repeat' (first
    | with_reducible assumption
    | with_reducible apply State.count_kept
    | with_reducible apply State.blkReset_kept
    | intro _
    | split
    | with_reducible apply kept_fold
    | with_reducible apply kept_fold1
    | with_reducible apply kept_foldW
    | with_reducible apply kept_foldW1
    | with_reducible apply kept_foldH
    | with_reducible apply kept_foldH1
    | with_reducible refine kept_fst ?_ (by with_reducible assumption)
    | with_reducible refine kept_fstW ?_ (by with_reducible assumption)
    | with_reducible refine kept_fstH ?_ (by with_reducible assumption)
    | (simp only [↓kept_mk]; with_reducible refine kept_of ?_))

theorem execTenantDrainTimeout_kept {a0 : Fin 16} {a1 : State} (ha1 : (a1).kept qs u = true) :
    ∀ t, @execTenantDrainTimeout a0 a1 = .next t → t.kept qs u = true := by
  unfold execTenantDrainTimeout
  refine live_kept ha1 ?_
  try dsimp only
  repeat' (first
    | with_reducible assumption
    | with_reducible apply State.startScrub_kept
    | with_reducible apply State.resetBusy_kept
    | intro _
    | split
    | with_reducible apply kept_fold
    | with_reducible apply kept_fold1
    | with_reducible apply kept_foldW
    | with_reducible apply kept_foldW1
    | with_reducible apply kept_foldH
    | with_reducible apply kept_foldH1
    | with_reducible refine kept_fst ?_ (by with_reducible assumption)
    | with_reducible refine kept_fstW ?_ (by with_reducible assumption)
    | with_reducible refine kept_fstH ?_ (by with_reducible assumption)
    | (simp only [↓kept_mk]; with_reducible refine kept_of ?_))

theorem State.scrubTenant_kept {a0 : State} {a1 : Nat} (ha0 : (a0).kept qs u = true) :
    (@State.scrubTenant a0 a1).kept qs u = true := by
  unfold State.scrubTenant
  try dsimp only
  repeat' (first
    | with_reducible assumption
    | with_reducible apply State.dropAll_kept
    | with_reducible apply State.zeroWindow_kept
    | with_reducible apply State.releaseTensor_kept
    | with_reducible apply State.zeroEnts_kept
    | with_reducible apply State.setRegN_kept
    | with_reducible apply State.resetPages_kept
    | intro _
    | split
    | with_reducible apply kept_fold
    | with_reducible apply kept_fold1
    | with_reducible apply kept_foldW
    | with_reducible apply kept_foldW1
    | with_reducible apply kept_foldH
    | with_reducible apply kept_foldH1
    | with_reducible refine kept_fst ?_ (by with_reducible assumption)
    | with_reducible refine kept_fstW ?_ (by with_reducible assumption)
    | with_reducible refine kept_fstH ?_ (by with_reducible assumption)
    | (simp only [↓kept_mk]; with_reducible refine kept_of ?_))

theorem State.unlockNext_kept {a0 : State} (ha0 : (a0).kept qs u = true) :
    (@State.unlockNext a0).kept qs u = true := by
  unfold State.unlockNext
  try dsimp only
  repeat' (first
    | with_reducible assumption
    | with_reducible apply State.setField_kept
    | with_reducible apply State.newKey_kept
    | intro _
    | split
    | with_reducible apply kept_fold
    | with_reducible apply kept_fold1
    | with_reducible apply kept_foldW
    | with_reducible apply kept_foldW1
    | with_reducible apply kept_foldH
    | with_reducible apply kept_foldH1
    | with_reducible refine kept_fst ?_ (by with_reducible assumption)
    | with_reducible refine kept_fstW ?_ (by with_reducible assumption)
    | with_reducible refine kept_fstH ?_ (by with_reducible assumption)
    | (simp only [↓kept_mk]; with_reducible refine kept_of ?_))

theorem execTenantScrubDone_kept {a0 : Fin 16} {a1 : State} (ha1 : (a1).kept qs u = true) :
    ∀ t, @execTenantScrubDone a0 a1 = .next t → t.kept qs u = true := by
  unfold execTenantScrubDone
  refine live_kept ha1 ?_
  try dsimp only
  repeat' (first
    | with_reducible assumption
    | with_reducible apply State.unlockNext_kept
    | with_reducible apply State.scrubTenant_kept
    | intro _
    | split
    | with_reducible apply kept_fold
    | with_reducible apply kept_fold1
    | with_reducible apply kept_foldW
    | with_reducible apply kept_foldW1
    | with_reducible apply kept_foldH
    | with_reducible apply kept_foldH1
    | with_reducible refine kept_fst ?_ (by with_reducible assumption)
    | with_reducible refine kept_fstW ?_ (by with_reducible assumption)
    | with_reducible refine kept_fstH ?_ (by with_reducible assumption)
    | (simp only [↓kept_mk]; with_reducible refine kept_of ?_))

theorem execTenantStatus_kept {a0 : State} (ha0 : (a0).kept qs u = true) :
    ∀ t, @execTenantStatus a0 = .next t → t.kept qs u = true := by
  unfold execTenantStatus
  refine live_kept ha0 ?_
  try dsimp only
  repeat' (first
    | with_reducible assumption
    | with_reducible apply State.qnCommand_kept
    | intro _
    | split
    | with_reducible apply kept_fold
    | with_reducible apply kept_fold1
    | with_reducible apply kept_foldW
    | with_reducible apply kept_foldW1
    | with_reducible apply kept_foldH
    | with_reducible apply kept_foldH1
    | with_reducible refine kept_fst ?_ (by with_reducible assumption)
    | with_reducible refine kept_fstW ?_ (by with_reducible assumption)
    | with_reducible refine kept_fstH ?_ (by with_reducible assumption)
    | (simp only [↓kept_mk]; with_reducible refine kept_of ?_))

theorem execFabricSetup_kept {a0 : State} (ha0 : (a0).kept qs u = true) :
    ∀ t, @execFabricSetup a0 = .next t → t.kept qs u = true := by
  unfold execFabricSetup
  refine live_kept ha0 ?_
  try dsimp only
  repeat' (first
    | with_reducible assumption
    | with_reducible apply State.qnCommand_kept
    | with_reducible apply State.setRegN_kept
    | intro _
    | split
    | with_reducible apply kept_fold
    | with_reducible apply kept_fold1
    | with_reducible apply kept_foldW
    | with_reducible apply kept_foldW1
    | with_reducible apply kept_foldH
    | with_reducible apply kept_foldH1
    | with_reducible refine kept_fst ?_ (by with_reducible assumption)
    | with_reducible refine kept_fstW ?_ (by with_reducible assumption)
    | with_reducible refine kept_fstH ?_ (by with_reducible assumption)
    | (simp only [↓kept_mk]; with_reducible refine kept_of ?_))

theorem execPlinthRead_kept {a0 : State} (ha0 : (a0).kept qs u = true) :
    ∀ t, @execPlinthRead a0 = .next t → t.kept qs u = true := by
  unfold execPlinthRead
  refine live_kept ha0 ?_
  try dsimp only
  repeat' (first
    | with_reducible assumption
    | with_reducible apply State.qnCommand_kept
    | with_reducible apply State.plData_kept
    | intro _
    | split
    | with_reducible apply kept_fold
    | with_reducible apply kept_fold1
    | with_reducible apply kept_foldW
    | with_reducible apply kept_foldW1
    | with_reducible apply kept_foldH
    | with_reducible apply kept_foldH1
    | with_reducible refine kept_fst ?_ (by with_reducible assumption)
    | with_reducible refine kept_fstW ?_ (by with_reducible assumption)
    | with_reducible refine kept_fstH ?_ (by with_reducible assumption)
    | (simp only [↓kept_mk]; with_reducible refine kept_of ?_))

theorem State.imagePart_kept {a0 : State} {a1 : Nat} {a2 : Nat} {a3 : State → Bytes → QnOut} (ha0 : (a0).kept qs u = true) (ha3 : ∀ y0 y1, (y0).kept qs u = true → (a3 y0 y1).1.kept qs u = true) :
    (@State.imagePart a0 a1 a2 a3).kept qs u = true := by
  unfold State.imagePart
  try dsimp only
  repeat' (first
    | with_reducible assumption
    | with_reducible apply State.qnServe_kept
    | with_reducible apply ha3
    | intro _
    | split
    | with_reducible apply kept_fold
    | with_reducible apply kept_fold1
    | with_reducible apply kept_foldW
    | with_reducible apply kept_foldW1
    | with_reducible apply kept_foldH
    | with_reducible apply kept_foldH1
    | with_reducible refine kept_fst ?_ (by with_reducible assumption)
    | with_reducible refine kept_fstW ?_ (by with_reducible assumption)
    | with_reducible refine kept_fstH ?_ (by with_reducible assumption)
    | (simp only [↓kept_mk]; with_reducible refine kept_of ?_))

theorem execImageUpdateBegin_kept {a0 : State} (ha0 : (a0).kept qs u = true) :
    ∀ t, @execImageUpdateBegin a0 = .next t → t.kept qs u = true := by
  unfold execImageUpdateBegin
  refine live_kept ha0 ?_
  try dsimp only
  repeat' (first
    | with_reducible assumption
    | with_reducible apply State.imagePart_kept
    | intro _
    | split
    | with_reducible apply kept_fold
    | with_reducible apply kept_fold1
    | with_reducible apply kept_foldW
    | with_reducible apply kept_foldW1
    | with_reducible apply kept_foldH
    | with_reducible apply kept_foldH1
    | with_reducible refine kept_fst ?_ (by with_reducible assumption)
    | with_reducible refine kept_fstW ?_ (by with_reducible assumption)
    | with_reducible refine kept_fstH ?_ (by with_reducible assumption)
    | (simp only [↓kept_mk]; with_reducible refine kept_of ?_))

theorem State.imageLine_kept {a0 : State} {a1 : Bool} {a2 : Nat} {a3 : Bytes} (ha0 : (a0).kept qs u = true) :
    (@State.imageLine a0 a1 a2 a3).kept qs u = true := by
  unfold State.imageLine
  try dsimp only
  repeat' (first
    | with_reducible assumption
    | with_reducible apply State.plNow_kept
    | intro _
    | split
    | with_reducible apply kept_fold
    | with_reducible apply kept_fold1
    | with_reducible apply kept_foldW
    | with_reducible apply kept_foldW1
    | with_reducible apply kept_foldH
    | with_reducible apply kept_foldH1
    | with_reducible refine kept_fst ?_ (by with_reducible assumption)
    | with_reducible refine kept_fstW ?_ (by with_reducible assumption)
    | with_reducible refine kept_fstH ?_ (by with_reducible assumption)
    | (simp only [↓kept_mk]; with_reducible refine kept_of ?_)
    | (simp only [↓kept_mk]; with_reducible refine kept_setPl ?_ ?_)
    | (simp only [↓kept_mk]; with_reducible refine kept_setNand ?_ ?_)
    | (simp only [↓kept_mk]; with_reducible refine kept_setBed ?_ ?_)
    | (simp only [↓kept_mk]; with_reducible refine kept_setHbm ?_ ?_)
    | (simp only [↓kept_mk]; with_reducible refine kept_setRegs ?_ ?_)
    | (simp only [↓kept_mk]; with_reducible refine kept_setMarks ?_ ?_)
    | with_reducible exact wf_nil _
    | with_reducible exact smapWf_nil _
    | with_reducible apply wf_memWrite
    | with_reducible apply wf_memClear
    | with_reducible apply smapWf_set
    | with_reducible apply smapWf_clear
    | with_reducible apply wf_fold
    | with_reducible refine kept_pl (qs := qs) (u := u) ?_
    | with_reducible refine kept_nand (qs := qs) (u := u) ?_
    | with_reducible refine kept_bed (qs := qs) (u := u) ?_
    | with_reducible refine kept_hbm (qs := qs) (u := u) ?_
    | with_reducible refine kept_regs (qs := qs) (u := u) ?_
    | with_reducible refine kept_marks (qs := qs) (u := u) ?_)

theorem execImageUpdateData_kept {a0 : State} (ha0 : (a0).kept qs u = true) :
    ∀ t, @execImageUpdateData a0 = .next t → t.kept qs u = true := by
  unfold execImageUpdateData
  refine live_kept ha0 ?_
  try dsimp only
  repeat' (first
    | with_reducible assumption
    | with_reducible apply State.imagePart_kept
    | with_reducible apply State.imageLine_kept
    | intro _
    | split
    | with_reducible apply kept_fold
    | with_reducible apply kept_fold1
    | with_reducible apply kept_foldW
    | with_reducible apply kept_foldW1
    | with_reducible apply kept_foldH
    | with_reducible apply kept_foldH1
    | with_reducible refine kept_fst ?_ (by with_reducible assumption)
    | with_reducible refine kept_fstW ?_ (by with_reducible assumption)
    | with_reducible refine kept_fstH ?_ (by with_reducible assumption)
    | (simp only [↓kept_mk]; with_reducible refine kept_of ?_))

theorem execImageUpdateEnd_kept {a0 : State} (ha0 : (a0).kept qs u = true) :
    ∀ t, @execImageUpdateEnd a0 = .next t → t.kept qs u = true := by
  unfold execImageUpdateEnd
  refine live_kept ha0 ?_
  try dsimp only
  repeat' (first
    | with_reducible assumption
    | with_reducible apply State.imagePart_kept
    | with_reducible apply State.newRecord_kept
    | intro _
    | split
    | with_reducible apply kept_fold
    | with_reducible apply kept_fold1
    | with_reducible apply kept_foldW
    | with_reducible apply kept_foldW1
    | with_reducible apply kept_foldH
    | with_reducible apply kept_foldH1
    | with_reducible refine kept_fst ?_ (by with_reducible assumption)
    | with_reducible refine kept_fstW ?_ (by with_reducible assumption)
    | with_reducible refine kept_fstH ?_ (by with_reducible assumption)
    | (simp only [↓kept_mk]; with_reducible refine kept_of ?_))

theorem execImageUpdateAbort_kept {a0 : State} (ha0 : (a0).kept qs u = true) :
    ∀ t, @execImageUpdateAbort a0 = .next t → t.kept qs u = true := by
  unfold execImageUpdateAbort
  refine live_kept ha0 ?_
  try dsimp only
  repeat' (first
    | with_reducible assumption
    | with_reducible apply State.imagePart_kept
    | intro _
    | split
    | with_reducible apply kept_fold
    | with_reducible apply kept_fold1
    | with_reducible apply kept_foldW
    | with_reducible apply kept_foldW1
    | with_reducible apply kept_foldH
    | with_reducible apply kept_foldH1
    | with_reducible refine kept_fst ?_ (by with_reducible assumption)
    | with_reducible refine kept_fstW ?_ (by with_reducible assumption)
    | with_reducible refine kept_fstH ?_ (by with_reducible assumption)
    | (simp only [↓kept_mk]; with_reducible refine kept_of ?_))

theorem execImageUpdateSessionTimeout_kept {a0 : State} (ha0 : (a0).kept qs u = true) :
    ∀ t, @execImageUpdateSessionTimeout a0 = .next t → t.kept qs u = true := by
  unfold execImageUpdateSessionTimeout
  refine live_kept ha0 ?_
  try dsimp only
  repeat' (first
    | with_reducible assumption
    | intro _
    | split
    | with_reducible apply kept_fold
    | with_reducible apply kept_fold1
    | with_reducible apply kept_foldW
    | with_reducible apply kept_foldW1
    | with_reducible apply kept_foldH
    | with_reducible apply kept_foldH1
    | with_reducible refine kept_fst ?_ (by with_reducible assumption)
    | with_reducible refine kept_fstW ?_ (by with_reducible assumption)
    | with_reducible refine kept_fstH ?_ (by with_reducible assumption)
    | (simp only [↓kept_mk]; with_reducible refine kept_of ?_))

theorem execSvnRaise_kept {a0 : State} (ha0 : (a0).kept qs u = true) :
    ∀ t, @execSvnRaise a0 = .next t → t.kept qs u = true := by
  unfold execSvnRaise
  refine live_kept ha0 ?_
  try dsimp only
  repeat' (first
    | with_reducible assumption
    | with_reducible apply State.qnCommand_kept
    | with_reducible apply State.record_kept
    | with_reducible apply State.setRegN_kept
    | intro _
    | split
    | with_reducible apply kept_fold
    | with_reducible apply kept_fold1
    | with_reducible apply kept_foldW
    | with_reducible apply kept_foldW1
    | with_reducible apply kept_foldH
    | with_reducible apply kept_foldH1
    | with_reducible refine kept_fst ?_ (by with_reducible assumption)
    | with_reducible refine kept_fstW ?_ (by with_reducible assumption)
    | with_reducible refine kept_fstH ?_ (by with_reducible assumption)
    | (simp only [↓kept_mk]; with_reducible refine kept_of ?_))

theorem execDebugChallenge_kept {a0 : State} (ha0 : (a0).kept qs u = true) :
    ∀ t, @execDebugChallenge a0 = .next t → t.kept qs u = true := by
  unfold execDebugChallenge
  refine live_kept ha0 ?_
  try dsimp only
  repeat' (first
    | with_reducible assumption
    | with_reducible apply State.qnCommand_kept
    | with_reducible apply State.tick_kept
    | intro _
    | split
    | with_reducible apply kept_fold
    | with_reducible apply kept_fold1
    | with_reducible apply kept_foldW
    | with_reducible apply kept_foldW1
    | with_reducible apply kept_foldH
    | with_reducible apply kept_foldH1
    | with_reducible refine kept_fst ?_ (by with_reducible assumption)
    | with_reducible refine kept_fstW ?_ (by with_reducible assumption)
    | with_reducible refine kept_fstH ?_ (by with_reducible assumption)
    | (simp only [↓kept_mk]; with_reducible refine kept_of ?_))

theorem execDebugResponse_kept {a0 : State} (ha0 : (a0).kept qs u = true) :
    ∀ t, @execDebugResponse a0 = .next t → t.kept qs u = true := by
  unfold execDebugResponse
  refine live_kept ha0 ?_
  try dsimp only
  repeat' (first
    | with_reducible assumption
    | with_reducible apply State.qnCommand_kept
    | with_reducible apply State.retireTenant_kept
    | with_reducible apply State.unlockNext_kept
    | intro _
    | split
    | with_reducible apply kept_fold
    | with_reducible apply kept_fold1
    | with_reducible apply kept_foldW
    | with_reducible apply kept_foldW1
    | with_reducible apply kept_foldH
    | with_reducible apply kept_foldH1
    | with_reducible refine kept_fst ?_ (by with_reducible assumption)
    | with_reducible refine kept_fstW ?_ (by with_reducible assumption)
    | with_reducible refine kept_fstH ?_ (by with_reducible assumption)
    | (simp only [↓kept_mk]; with_reducible refine kept_of ?_))

theorem State.regionWrite_kept {a0 : State} {a1 : Nat} {a2 : Nat} (ha0 : (a0).kept qs u = true) :
    (@State.regionWrite a0 a1 a2).kept qs u = true := by
  unfold State.regionWrite
  try dsimp only
  repeat' (first
    | with_reducible assumption
    | with_reducible apply State.setRegN_kept
    | intro _
    | split
    | with_reducible apply kept_fold
    | with_reducible apply kept_fold1
    | with_reducible apply kept_foldW
    | with_reducible apply kept_foldW1
    | with_reducible apply kept_foldH
    | with_reducible apply kept_foldH1
    | with_reducible refine kept_fst ?_ (by with_reducible assumption)
    | with_reducible refine kept_fstW ?_ (by with_reducible assumption)
    | with_reducible refine kept_fstH ?_ (by with_reducible assumption)
    | (simp only [↓kept_mk]; with_reducible refine kept_of ?_))

theorem execRegionEntryWrite_kept {a0 : Bool} {a1 : Fin 3} {a2 : Fin 256} {a3 : DWord} {a4 : State} (ha4 : (a4).kept qs u = true) :
    ∀ t, @execRegionEntryWrite a0 a1 a2 a3 a4 = .next t → t.kept qs u = true := by
  unfold execRegionEntryWrite
  refine live_kept ha4 ?_
  try dsimp only
  repeat' (first
    | with_reducible assumption
    | with_reducible apply State.allow_kept
    | with_reducible apply State.regionWrite_kept
    | intro _
    | split
    | with_reducible apply kept_fold
    | with_reducible apply kept_fold1
    | with_reducible apply kept_foldW
    | with_reducible apply kept_foldW1
    | with_reducible apply kept_foldH
    | with_reducible apply kept_foldH1
    | with_reducible refine kept_fst ?_ (by with_reducible assumption)
    | with_reducible refine kept_fstW ?_ (by with_reducible assumption)
    | with_reducible refine kept_fstH ?_ (by with_reducible assumption)
    | (simp only [↓kept_mk]; with_reducible refine kept_of ?_))

theorem execCounterSnapshot_kept {a0 : State} (ha0 : (a0).kept qs u = true) :
    ∀ t, @execCounterSnapshot a0 = .next t → t.kept qs u = true := by
  unfold execCounterSnapshot
  refine live_kept ha0 ?_
  try dsimp only
  repeat' (first
    | with_reducible assumption
    | intro _
    | split
    | with_reducible apply kept_fold
    | with_reducible apply kept_fold1
    | with_reducible apply kept_foldW
    | with_reducible apply kept_foldW1
    | with_reducible apply kept_foldH
    | with_reducible apply kept_foldH1
    | with_reducible refine kept_fst ?_ (by with_reducible assumption)
    | with_reducible refine kept_fstW ?_ (by with_reducible assumption)
    | with_reducible refine kept_fstH ?_ (by with_reducible assumption)
    | (simp only [↓kept_mk]; with_reducible refine kept_of ?_))

theorem execCapSet_kept {a0 : State} (ha0 : (a0).kept qs u = true) :
    ∀ t, @execCapSet a0 = .next t → t.kept qs u = true := by
  unfold execCapSet
  refine live_kept ha0 ?_
  try dsimp only
  repeat' (first
    | with_reducible assumption
    | with_reducible apply State.qnCommand_kept
    | with_reducible apply State.capWrite_kept
    | intro _
    | split
    | with_reducible apply kept_fold
    | with_reducible apply kept_fold1
    | with_reducible apply kept_foldW
    | with_reducible apply kept_foldW1
    | with_reducible apply kept_foldH
    | with_reducible apply kept_foldH1
    | with_reducible refine kept_fst ?_ (by with_reducible assumption)
    | with_reducible refine kept_fstW ?_ (by with_reducible assumption)
    | with_reducible refine kept_fstH ?_ (by with_reducible assumption)
    | (simp only [↓kept_mk]; with_reducible refine kept_of ?_))

theorem execCapGet_kept {a0 : State} (ha0 : (a0).kept qs u = true) :
    ∀ t, @execCapGet a0 = .next t → t.kept qs u = true := by
  unfold execCapGet
  refine live_kept ha0 ?_
  try dsimp only
  repeat' (first
    | with_reducible assumption
    | with_reducible apply State.qnCommand_kept
    | intro _
    | split
    | with_reducible apply kept_fold
    | with_reducible apply kept_fold1
    | with_reducible apply kept_foldW
    | with_reducible apply kept_foldW1
    | with_reducible apply kept_foldH
    | with_reducible apply kept_foldH1
    | with_reducible refine kept_fst ?_ (by with_reducible assumption)
    | with_reducible refine kept_fstW ?_ (by with_reducible assumption)
    | with_reducible refine kept_fstH ?_ (by with_reducible assumption)
    | (simp only [↓kept_mk]; with_reducible refine kept_of ?_))

theorem execEnergyRead_kept {a0 : State} (ha0 : (a0).kept qs u = true) :
    ∀ t, @execEnergyRead a0 = .next t → t.kept qs u = true := by
  unfold execEnergyRead
  refine live_kept ha0 ?_
  try dsimp only
  repeat' (first
    | with_reducible assumption
    | with_reducible apply State.qnCommand_kept
    | intro _
    | split
    | with_reducible apply kept_fold
    | with_reducible apply kept_fold1
    | with_reducible apply kept_foldW
    | with_reducible apply kept_foldW1
    | with_reducible apply kept_foldH
    | with_reducible apply kept_foldH1
    | with_reducible refine kept_fst ?_ (by with_reducible assumption)
    | with_reducible refine kept_fstW ?_ (by with_reducible assumption)
    | with_reducible refine kept_fstH ?_ (by with_reducible assumption)
    | (simp only [↓kept_mk]; with_reducible refine kept_of ?_))

theorem execVoltageRead_kept {a0 : State} (ha0 : (a0).kept qs u = true) :
    ∀ t, @execVoltageRead a0 = .next t → t.kept qs u = true := by
  unfold execVoltageRead
  refine live_kept ha0 ?_
  try dsimp only
  repeat' (first
    | with_reducible assumption
    | with_reducible apply State.qnCommand_kept
    | intro _
    | split
    | with_reducible apply kept_fold
    | with_reducible apply kept_fold1
    | with_reducible apply kept_foldW
    | with_reducible apply kept_foldW1
    | with_reducible apply kept_foldH
    | with_reducible apply kept_foldH1
    | with_reducible refine kept_fst ?_ (by with_reducible assumption)
    | with_reducible refine kept_fstW ?_ (by with_reducible assumption)
    | with_reducible refine kept_fstH ?_ (by with_reducible assumption)
    | (simp only [↓kept_mk]; with_reducible refine kept_of ?_))

theorem execThermalRead_kept {a0 : State} (ha0 : (a0).kept qs u = true) :
    ∀ t, @execThermalRead a0 = .next t → t.kept qs u = true := by
  unfold execThermalRead
  refine live_kept ha0 ?_
  try dsimp only
  repeat' (first
    | with_reducible assumption
    | with_reducible apply State.qnCommand_kept
    | intro _
    | split
    | with_reducible apply kept_fold
    | with_reducible apply kept_fold1
    | with_reducible apply kept_foldW
    | with_reducible apply kept_foldW1
    | with_reducible apply kept_foldH
    | with_reducible apply kept_foldH1
    | with_reducible refine kept_fst ?_ (by with_reducible assumption)
    | with_reducible refine kept_fstW ?_ (by with_reducible assumption)
    | with_reducible refine kept_fstH ?_ (by with_reducible assumption)
    | (simp only [↓kept_mk]; with_reducible refine kept_of ?_))

theorem execThrottleRead_kept {a0 : State} (ha0 : (a0).kept qs u = true) :
    ∀ t, @execThrottleRead a0 = .next t → t.kept qs u = true := by
  unfold execThrottleRead
  refine live_kept ha0 ?_
  try dsimp only
  repeat' (first
    | with_reducible assumption
    | with_reducible apply State.qnCommand_kept
    | intro _
    | split
    | with_reducible apply kept_fold
    | with_reducible apply kept_fold1
    | with_reducible apply kept_foldW
    | with_reducible apply kept_foldW1
    | with_reducible apply kept_foldH
    | with_reducible apply kept_foldH1
    | with_reducible refine kept_fst ?_ (by with_reducible assumption)
    | with_reducible refine kept_fstW ?_ (by with_reducible assumption)
    | with_reducible refine kept_fstH ?_ (by with_reducible assumption)
    | (simp only [↓kept_mk]; with_reducible refine kept_of ?_))

theorem execConfigRequest_kept {a0 : Fin 17} {a1 : Bool} {a2 : BitVec 12} {a3 : Word} {a4 : State} (ha4 : (a4).kept qs u = true) :
    ∀ t, @execConfigRequest a0 a1 a2 a3 a4 = .next t → t.kept qs u = true := by
  unfold execConfigRequest
  refine live_kept ha4 ?_
  try dsimp only
  repeat' (first
    | with_reducible assumption
    | intro _
    | split
    | with_reducible apply kept_fold
    | with_reducible apply kept_fold1
    | with_reducible apply kept_foldW
    | with_reducible apply kept_foldW1
    | with_reducible apply kept_foldH
    | with_reducible apply kept_foldH1
    | with_reducible refine kept_fst ?_ (by with_reducible assumption)
    | with_reducible refine kept_fstW ?_ (by with_reducible assumption)
    | with_reducible refine kept_fstH ?_ (by with_reducible assumption)
    | (simp only [↓kept_mk]; with_reducible refine kept_of ?_))

theorem State.hostData_kept {a0 : State} {a1 : Bytes} {a2 : Bool} (ha0 : (a0).kept qs u = true) :
    (@State.hostData a0 a1 a2).kept qs u = true := by
  unfold State.hostData
  try dsimp only
  repeat' (first
    | with_reducible assumption
    | intro _
    | split
    | with_reducible apply kept_fold
    | with_reducible apply kept_fold1
    | with_reducible apply kept_foldW
    | with_reducible apply kept_foldW1
    | with_reducible apply kept_foldH
    | with_reducible apply kept_foldH1
    | with_reducible refine kept_fst ?_ (by with_reducible assumption)
    | with_reducible refine kept_fstW ?_ (by with_reducible assumption)
    | with_reducible refine kept_fstH ?_ (by with_reducible assumption)
    | (simp only [↓kept_mk]; with_reducible refine kept_of ?_))

theorem execBar2Read_kept {a0 : Fin 17} {a1 : Word} {a2 : Nat} {a3 : State} (ha3 : (a3).kept qs u = true) :
    ∀ t, @execBar2Read a0 a1 a2 a3 = .next t → t.kept qs u = true := by
  unfold execBar2Read
  refine live_kept ha3 ?_
  try dsimp only
  repeat' (first
    | with_reducible assumption
    | with_reducible apply State.readFor_kept
    | with_reducible apply State.hostData_kept
    | with_reducible apply State.tick_kept
    | with_reducible apply State.cmdErr_kept
    | intro _
    | split
    | with_reducible apply kept_fold
    | with_reducible apply kept_fold1
    | with_reducible apply kept_foldW
    | with_reducible apply kept_foldW1
    | with_reducible apply kept_foldH
    | with_reducible apply kept_foldH1
    | with_reducible refine kept_fst ?_ (by with_reducible assumption)
    | with_reducible refine kept_fstW ?_ (by with_reducible assumption)
    | with_reducible refine kept_fstH ?_ (by with_reducible assumption)
    | (simp only [↓kept_mk]; with_reducible refine kept_of ?_))

theorem execBar2Write_kept {a0 : Fin 17} {a1 : Word} {a2 : Bytes} {a3 : State} (ha3 : (a3).kept qs u = true) :
    ∀ t, @execBar2Write a0 a1 a2 a3 = .next t → t.kept qs u = true := by
  unfold execBar2Write
  refine live_kept ha3 ?_
  try dsimp only
  repeat' (first
    | with_reducible assumption
    | with_reducible apply State.writeFor_kept
    | with_reducible apply State.cmdErr_kept
    | intro _
    | split
    | with_reducible apply kept_fold
    | with_reducible apply kept_fold1
    | with_reducible apply kept_foldW
    | with_reducible apply kept_foldW1
    | with_reducible apply kept_foldH
    | with_reducible apply kept_foldH1
    | with_reducible refine kept_fst ?_ (by with_reducible assumption)
    | with_reducible refine kept_fstW ?_ (by with_reducible assumption)
    | with_reducible refine kept_fstH ?_ (by with_reducible assumption)
    | (simp only [↓kept_mk]; with_reducible refine kept_of ?_))

theorem State.setFw_kept {a0 : State} {a1 : Nat} (ha0 : (a0).kept qs u = true) :
    (@State.setFw a0 a1).kept qs u = true := by
  unfold State.setFw
  try dsimp only
  repeat' (first
    | with_reducible assumption
    | with_reducible apply State.setField_kept
    | intro _
    | split
    | with_reducible apply kept_fold
    | with_reducible apply kept_fold1
    | with_reducible apply kept_foldW
    | with_reducible apply kept_foldW1
    | with_reducible apply kept_foldH
    | with_reducible apply kept_foldH1
    | with_reducible refine kept_fst ?_ (by with_reducible assumption)
    | with_reducible refine kept_fstW ?_ (by with_reducible assumption)
    | with_reducible refine kept_fstH ?_ (by with_reducible assumption)
    | (simp only [↓kept_mk]; with_reducible refine kept_of ?_))

theorem State.setErr_kept {a0 : State} {a1 : Nat} (ha0 : (a0).kept qs u = true) :
    (@State.setErr a0 a1).kept qs u = true := by
  unfold State.setErr
  try dsimp only
  repeat' (first
    | with_reducible assumption
    | with_reducible apply State.setField_kept
    | intro _
    | split
    | with_reducible apply kept_fold
    | with_reducible apply kept_fold1
    | with_reducible apply kept_foldW
    | with_reducible apply kept_foldW1
    | with_reducible apply kept_foldH
    | with_reducible apply kept_foldH1
    | with_reducible refine kept_fst ?_ (by with_reducible assumption)
    | with_reducible refine kept_fstW ?_ (by with_reducible assumption)
    | with_reducible refine kept_fstH ?_ (by with_reducible assumption)
    | (simp only [↓kept_mk]; with_reducible refine kept_of ?_))

theorem execFirmwareReady_kept {a0 : State} (ha0 : (a0).kept qs u = true) :
    ∀ t, @execFirmwareReady a0 = .next t → t.kept qs u = true := by
  unfold execFirmwareReady
  refine live_kept ha0 ?_
  try dsimp only
  repeat' (first
    | with_reducible assumption
    | with_reducible apply State.setFw_kept
    | intro _
    | split
    | with_reducible apply kept_fold
    | with_reducible apply kept_fold1
    | with_reducible apply kept_foldW
    | with_reducible apply kept_foldW1
    | with_reducible apply kept_foldH
    | with_reducible apply kept_foldH1
    | with_reducible refine kept_fst ?_ (by with_reducible assumption)
    | with_reducible refine kept_fstW ?_ (by with_reducible assumption)
    | with_reducible refine kept_fstH ?_ (by with_reducible assumption)
    | (simp only [↓kept_mk]; with_reducible refine kept_of ?_))

theorem State.onFwCtl_kept {a0 : State} {a1 : Nat} {a2 : State → State} (ha0 : (a0).kept qs u = true) (ha2 : ∀ y0, (y0).kept qs u = true → (a2 y0).kept qs u = true) :
    (@State.onFwCtl a0 a1 a2).kept qs u = true := by
  unfold State.onFwCtl
  try dsimp only
  repeat' (first
    | with_reducible assumption
    | with_reducible apply State.onFront_kept
    | with_reducible apply State.popDone_kept
    | with_reducible apply State.setFront_kept
    | with_reducible apply ha2
    | intro _
    | split
    | with_reducible apply kept_fold
    | with_reducible apply kept_fold1
    | with_reducible apply kept_foldW
    | with_reducible apply kept_foldW1
    | with_reducible apply kept_foldH
    | with_reducible apply kept_foldH1
    | with_reducible refine kept_fst ?_ (by with_reducible assumption)
    | with_reducible refine kept_fstW ?_ (by with_reducible assumption)
    | with_reducible refine kept_fstH ?_ (by with_reducible assumption)
    | (simp only [↓kept_mk]; with_reducible refine kept_of ?_))

theorem execFwLoad_kept {a0 : State} (ha0 : (a0).kept qs u = true) :
    ∀ t, @execFwLoad a0 = .next t → t.kept qs u = true := by
  unfold execFwLoad
  refine live_kept ha0 ?_
  try dsimp only
  repeat' (first
    | with_reducible assumption
    | with_reducible apply State.onFwCtl_kept
    | with_reducible apply State.staging_kept
    | with_reducible apply State.setErr_kept
    | with_reducible apply State.setFw_kept
    | intro _
    | split
    | with_reducible apply kept_fold
    | with_reducible apply kept_fold1
    | with_reducible apply kept_foldW
    | with_reducible apply kept_foldW1
    | with_reducible apply kept_foldH
    | with_reducible apply kept_foldH1
    | with_reducible refine kept_fst ?_ (by with_reducible assumption)
    | with_reducible refine kept_fstW ?_ (by with_reducible assumption)
    | with_reducible refine kept_fstH ?_ (by with_reducible assumption)
    | (simp only [↓kept_mk]; with_reducible refine kept_of ?_))

theorem execFwUpdate_kept {a0 : State} (ha0 : (a0).kept qs u = true) :
    ∀ t, @execFwUpdate a0 = .next t → t.kept qs u = true := by
  unfold execFwUpdate
  refine live_kept ha0 ?_
  try dsimp only
  repeat' (first
    | with_reducible assumption
    | with_reducible apply State.onFwCtl_kept
    | with_reducible apply State.updEnds_kept
    | with_reducible apply State.setErr_kept
    | with_reducible apply State.staging_kept
    | with_reducible apply State.setUpd_kept
    | intro _
    | split
    | with_reducible apply kept_fold
    | with_reducible apply kept_fold1
    | with_reducible apply kept_foldW
    | with_reducible apply kept_foldW1
    | with_reducible apply kept_foldH
    | with_reducible apply kept_foldH1
    | with_reducible refine kept_fst ?_ (by with_reducible assumption)
    | with_reducible refine kept_fstW ?_ (by with_reducible assumption)
    | with_reducible refine kept_fstH ?_ (by with_reducible assumption)
    | (simp only [↓kept_mk]; with_reducible refine kept_of ?_))

theorem State.updWait_kept {a0 : State} {a1 : ImgHdr} (ha0 : (a0).kept qs u = true) :
    (@State.updWait a0 a1).kept qs u = true := by
  unfold State.updWait
  try dsimp only
  repeat' (first
    | with_reducible assumption
    | with_reducible apply State.setUpd_kept
    | with_reducible apply State.parkAll_kept
    | intro _
    | split
    | with_reducible apply kept_fold
    | with_reducible apply kept_fold1
    | with_reducible apply kept_foldW
    | with_reducible apply kept_foldW1
    | with_reducible apply kept_foldH
    | with_reducible apply kept_foldH1
    | with_reducible refine kept_fst ?_ (by with_reducible assumption)
    | with_reducible refine kept_fstW ?_ (by with_reducible assumption)
    | with_reducible refine kept_fstH ?_ (by with_reducible assumption)
    | (simp only [↓kept_mk]; with_reducible refine kept_of ?_))

theorem execFwVerifyDone_kept {a0 : State} (ha0 : (a0).kept qs u = true) :
    ∀ t, @execFwVerifyDone a0 = .next t → t.kept qs u = true := by
  unfold execFwVerifyDone
  refine live_kept ha0 ?_
  try dsimp only
  repeat' (first
    | with_reducible assumption
    | with_reducible apply State.staging_kept
    | with_reducible apply State.touch_kept
    | with_reducible apply State.updEnds_kept
    | with_reducible apply State.setErr_kept
    | with_reducible apply State.updWait_kept
    | with_reducible apply State.setFw_kept
    | intro _
    | split
    | with_reducible apply kept_fold
    | with_reducible apply kept_fold1
    | with_reducible apply kept_foldW
    | with_reducible apply kept_foldW1
    | with_reducible apply kept_foldH
    | with_reducible apply kept_foldH1
    | with_reducible refine kept_fst ?_ (by with_reducible assumption)
    | with_reducible refine kept_fstW ?_ (by with_reducible assumption)
    | with_reducible refine kept_fstH ?_ (by with_reducible assumption)
    | (simp only [↓kept_mk]; with_reducible refine kept_of ?_))

theorem State.eachUnit_kept {a0 : State} {a1 : List Blk} {a2 : State → Blk → Nat → State} (ha0 : (a0).kept qs u = true) (ha2 : ∀ y0 y1 y2, (y0).kept qs u = true → (a2 y0 y1 y2).kept qs u = true) :
    (@State.eachUnit a0 a1 a2).kept qs u = true := by
  unfold State.eachUnit
  try dsimp only
  repeat' (first
    | with_reducible assumption
    | with_reducible apply ha2
    | intro _
    | split
    | with_reducible apply kept_fold
    | with_reducible apply kept_fold1
    | with_reducible apply kept_foldW
    | with_reducible apply kept_foldW1
    | with_reducible apply kept_foldH
    | with_reducible apply kept_foldH1
    | with_reducible refine kept_fst ?_ (by with_reducible assumption)
    | with_reducible refine kept_fstW ?_ (by with_reducible assumption)
    | with_reducible refine kept_fstH ?_ (by with_reducible assumption)
    | (simp only [↓kept_mk]; with_reducible refine kept_of ?_))

theorem State.islandsUp_kept {a0 : State} (ha0 : (a0).kept qs u = true) :
    (@State.islandsUp a0).kept qs u = true := by
  unfold State.islandsUp
  try dsimp only
  repeat' (first
    | with_reducible assumption
    | with_reducible apply State.showRamp_kept
    | with_reducible apply State.setField_kept
    | with_reducible apply State.setRegN_kept
    | with_reducible apply State.showCap_kept
    | intro _
    | split
    | with_reducible apply kept_fold
    | with_reducible apply kept_fold1
    | with_reducible apply kept_foldW
    | with_reducible apply kept_foldW1
    | with_reducible apply kept_foldH
    | with_reducible apply kept_foldH1
    | with_reducible refine kept_fst ?_ (by with_reducible assumption)
    | with_reducible refine kept_fstW ?_ (by with_reducible assumption)
    | with_reducible refine kept_fstH ?_ (by with_reducible assumption)
    | (simp only [↓kept_mk]; with_reducible refine kept_of ?_))

theorem State.marksClear_kept {a0 : State} (ha0 : (a0).kept qs u = true) :
    (@State.marksClear a0).kept qs u = true := by
  unfold State.marksClear
  repeat' (first
      | exact smapWf_nil _
      | with_reducible assumption
      | with_reducible apply State.setBit_kept
      | intro _
      | split
      | with_reducible apply kept_fold
      | with_reducible apply kept_fold1
      | with_reducible apply kept_foldW
      | with_reducible apply kept_foldW1
      | with_reducible apply kept_foldH
      | with_reducible apply kept_foldH1
      | with_reducible refine kept_fst ?_ (by with_reducible assumption)
      | with_reducible refine kept_fstW ?_ (by with_reducible assumption)
      | with_reducible refine kept_fstH ?_ (by with_reducible assumption)
      | (simp only [↓kept_mk]; with_reducible refine kept_of ?_)
      | (simp only [↓kept_mk]; with_reducible refine kept_setPl ?_ ?_)
      | (simp only [↓kept_mk]; with_reducible refine kept_setNand ?_ ?_)
      | (simp only [↓kept_mk]; with_reducible refine kept_setBed ?_ ?_)
      | (simp only [↓kept_mk]; with_reducible refine kept_setHbm ?_ ?_)
      | (simp only [↓kept_mk]; with_reducible refine kept_setRegs ?_ ?_)
      | (simp only [↓kept_mk]; with_reducible refine kept_setMarks ?_ ?_)
      | with_reducible exact wf_nil _
      | with_reducible exact smapWf_nil _
      | with_reducible apply wf_memWrite
      | with_reducible apply wf_memClear
      | with_reducible apply smapWf_set
      | with_reducible apply smapWf_clear
      | with_reducible apply wf_fold
      | with_reducible refine kept_pl (qs := qs) (u := u) ?_
      | with_reducible refine kept_nand (qs := qs) (u := u) ?_
      | with_reducible refine kept_bed (qs := qs) (u := u) ?_
      | with_reducible refine kept_hbm (qs := qs) (u := u) ?_
      | with_reducible refine kept_regs (qs := qs) (u := u) ?_
      | with_reducible refine kept_marks (qs := qs) (u := u) ?_)

theorem State.pagesClear_kept {a0 : State} (ha0 : (a0).kept qs u = true) :
    (@State.pagesClear a0).kept qs u = true := by
  unfold State.pagesClear
  try dsimp only
  repeat' (first
    | with_reducible assumption
    | with_reducible apply State.setRegN_kept
    | intro _
    | split
    | with_reducible apply kept_fold
    | with_reducible apply kept_fold1
    | with_reducible apply kept_foldW
    | with_reducible apply kept_foldW1
    | with_reducible apply kept_foldH
    | with_reducible apply kept_foldH1
    | with_reducible refine kept_fst ?_ (by with_reducible assumption)
    | with_reducible refine kept_fstW ?_ (by with_reducible assumption)
    | with_reducible refine kept_fstH ?_ (by with_reducible assumption)
    | (simp only [↓kept_mk]; with_reducible refine kept_of ?_))

theorem State.shadowsReset_kept {a0 : State} (ha0 : (a0).kept qs u = true) :
    (@State.shadowsReset a0).kept qs u = true := by
  unfold State.shadowsReset
  try dsimp only
  repeat' (first
    | with_reducible assumption
    | with_reducible apply State.resetRegs_kept
    | intro _
    | split
    | with_reducible apply kept_fold
    | with_reducible apply kept_fold1
    | with_reducible apply kept_foldW
    | with_reducible apply kept_foldW1
    | with_reducible apply kept_foldH
    | with_reducible apply kept_foldH1
    | with_reducible refine kept_fst ?_ (by with_reducible assumption)
    | with_reducible refine kept_fstW ?_ (by with_reducible assumption)
    | with_reducible refine kept_fstH ?_ (by with_reducible assumption)
    | (simp only [↓kept_mk]; with_reducible refine kept_of ?_))

theorem State.runs_kept {a0 : State} {a1 : ImgHdr} (ha0 : (a0).kept qs u = true) :
    (@State.runs a0 a1).kept qs u = true := by
  unfold State.runs
  try dsimp only
  repeat' (first
    | with_reducible assumption
    | with_reducible apply State.setRegN_kept
    | intro _
    | split
    | with_reducible apply kept_fold
    | with_reducible apply kept_fold1
    | with_reducible apply kept_foldW
    | with_reducible apply kept_foldW1
    | with_reducible apply kept_foldH
    | with_reducible apply kept_foldH1
    | with_reducible refine kept_fst ?_ (by with_reducible assumption)
    | with_reducible refine kept_fstW ?_ (by with_reducible assumption)
    | with_reducible refine kept_fstH ?_ (by with_reducible assumption)
    | (simp only [↓kept_mk]; with_reducible refine kept_of ?_))

theorem State.unitsUp_kept {a0 : State} (ha0 : (a0).kept qs u = true) :
    (@State.unitsUp a0).kept qs u = true := by
  unfold State.unitsUp
  try dsimp only
  repeat' (first
    | with_reducible assumption
    | with_reducible apply State.eachUnit_kept
    | with_reducible apply State.blkEnable_kept
    | with_reducible apply State.setRegN_kept
    | intro _
    | split
    | with_reducible apply kept_fold
    | with_reducible apply kept_fold1
    | with_reducible apply kept_foldW
    | with_reducible apply kept_foldW1
    | with_reducible apply kept_foldH
    | with_reducible apply kept_foldH1
    | with_reducible refine kept_fst ?_ (by with_reducible assumption)
    | with_reducible refine kept_fstW ?_ (by with_reducible assumption)
    | with_reducible refine kept_fstH ?_ (by with_reducible assumption)
    | (simp only [↓kept_mk]; with_reducible refine kept_of ?_))

theorem State.survivorNamed_kept {a0 : State} (ha0 : (a0).kept qs u = true) :
    (@State.survivorNamed a0).kept qs u = true := by
  unfold State.survivorNamed
  try dsimp only
  repeat' (first
    | with_reducible assumption
    | with_reducible apply State.setRegN_kept
    | intro _
    | split
    | with_reducible apply kept_fold
    | with_reducible apply kept_fold1
    | with_reducible apply kept_foldW
    | with_reducible apply kept_foldW1
    | with_reducible apply kept_foldH
    | with_reducible apply kept_foldH1
    | with_reducible refine kept_fst ?_ (by with_reducible assumption)
    | with_reducible refine kept_fstW ?_ (by with_reducible assumption)
    | with_reducible refine kept_fstH ?_ (by with_reducible assumption)
    | (simp only [↓kept_mk]; with_reducible refine kept_of ?_))

theorem State.cfgReport_kept {a0 : State} (ha0 : (a0).kept qs u = true) :
    (@State.cfgReport a0).kept qs u = true := by
  unfold State.cfgReport
  try dsimp only
  repeat' (first
    | with_reducible assumption
    | with_reducible apply State.pfEvent_kept
    | intro _
    | split
    | with_reducible apply kept_fold
    | with_reducible apply kept_fold1
    | with_reducible apply kept_foldW
    | with_reducible apply kept_foldW1
    | with_reducible apply kept_foldH
    | with_reducible apply kept_foldH1
    | with_reducible refine kept_fst ?_ (by with_reducible assumption)
    | with_reducible refine kept_fstW ?_ (by with_reducible assumption)
    | with_reducible refine kept_fstH ?_ (by with_reducible assumption)
    | (simp only [↓kept_mk]; with_reducible refine kept_of ?_))

theorem State.running_kept {a0 : State} {a1 : ImgHdr} (ha0 : (a0).kept qs u = true) :
    (@State.running a0 a1).kept qs u = true := by
  unfold State.running
  try dsimp only
  repeat' (first
    | with_reducible assumption
    | with_reducible apply State.setFw_kept
    | with_reducible apply State.setRegN_kept
    | with_reducible apply State.runs_kept
    | with_reducible apply State.survivorNamed_kept
    | intro _
    | split
    | with_reducible apply kept_fold
    | with_reducible apply kept_fold1
    | with_reducible apply kept_foldW
    | with_reducible apply kept_foldW1
    | with_reducible apply kept_foldH
    | with_reducible apply kept_foldH1
    | with_reducible refine kept_fst ?_ (by with_reducible assumption)
    | with_reducible refine kept_fstW ?_ (by with_reducible assumption)
    | with_reducible refine kept_fstH ?_ (by with_reducible assumption)
    | (simp only [↓kept_mk]; with_reducible refine kept_of ?_))

theorem execMeleopinStart_kept {a0 : State} (ha0 : (a0).kept qs u = true) :
    ∀ t, @execMeleopinStart a0 = .next t → t.kept qs u = true := by
  unfold execMeleopinStart
  refine live_kept ha0 ?_
  try dsimp only
  repeat' (first
    | with_reducible assumption
    | with_reducible apply State.cfgReport_kept
    | with_reducible apply State.running_kept
    | with_reducible apply State.shadowsReset_kept
    | with_reducible apply State.marksClear_kept
    | with_reducible apply State.pagesClear_kept
    | with_reducible apply State.islandsUp_kept
    | with_reducible apply State.unitsUp_kept
    | intro _
    | split
    | with_reducible apply kept_fold
    | with_reducible apply kept_fold1
    | with_reducible apply kept_foldW
    | with_reducible apply kept_foldW1
    | with_reducible apply kept_foldH
    | with_reducible apply kept_foldH1
    | with_reducible refine kept_fst ?_ (by with_reducible assumption)
    | with_reducible refine kept_fstW ?_ (by with_reducible assumption)
    | with_reducible refine kept_fstH ?_ (by with_reducible assumption)
    | (simp only [↓kept_mk]; with_reducible refine kept_of ?_))

theorem execFwActivate_kept {a0 : State} (ha0 : (a0).kept qs u = true) :
    ∀ t, @execFwActivate a0 = .next t → t.kept qs u = true := by
  unfold execFwActivate
  refine live_kept ha0 ?_
  try dsimp only
  repeat' (first
    | with_reducible assumption
    | with_reducible apply State.updEnds_kept
    | with_reducible apply State.runs_kept
    | intro _
    | split
    | with_reducible apply kept_fold
    | with_reducible apply kept_fold1
    | with_reducible apply kept_foldW
    | with_reducible apply kept_foldW1
    | with_reducible apply kept_foldH
    | with_reducible apply kept_foldH1
    | with_reducible refine kept_fst ?_ (by with_reducible assumption)
    | with_reducible refine kept_fstW ?_ (by with_reducible assumption)
    | with_reducible refine kept_fstH ?_ (by with_reducible assumption)
    | (simp only [↓kept_mk]; with_reducible refine kept_of ?_))

theorem execFwUpdateTimeout_kept {a0 : State} (ha0 : (a0).kept qs u = true) :
    ∀ t, @execFwUpdateTimeout a0 = .next t → t.kept qs u = true := by
  unfold execFwUpdateTimeout
  refine live_kept ha0 ?_
  try dsimp only
  repeat' (first
    | with_reducible assumption
    | with_reducible apply State.updEnds_kept
    | intro _
    | split
    | with_reducible apply kept_fold
    | with_reducible apply kept_fold1
    | with_reducible apply kept_foldW
    | with_reducible apply kept_foldW1
    | with_reducible apply kept_foldH
    | with_reducible apply kept_foldH1
    | with_reducible refine kept_fst ?_ (by with_reducible assumption)
    | with_reducible refine kept_fstW ?_ (by with_reducible assumption)
    | with_reducible refine kept_fstH ?_ (by with_reducible assumption)
    | (simp only [↓kept_mk]; with_reducible refine kept_of ?_))

theorem execFwDeferEnd_kept {a0 : State} (ha0 : (a0).kept qs u = true) :
    ∀ t, @execFwDeferEnd a0 = .next t → t.kept qs u = true := by
  unfold execFwDeferEnd
  refine live_kept ha0 ?_
  try dsimp only
  repeat' (first
    | with_reducible assumption
    | with_reducible apply State.parkAll_kept
    | with_reducible apply State.setUpd_kept
    | intro _
    | split
    | with_reducible apply kept_fold
    | with_reducible apply kept_fold1
    | with_reducible apply kept_foldW
    | with_reducible apply kept_foldW1
    | with_reducible apply kept_foldH
    | with_reducible apply kept_foldH1
    | with_reducible refine kept_fst ?_ (by with_reducible assumption)
    | with_reducible refine kept_fstW ?_ (by with_reducible assumption)
    | with_reducible refine kept_fstH ?_ (by with_reducible assumption)
    | (simp only [↓kept_mk]; with_reducible refine kept_of ?_))

theorem execFwDeferTimeout_kept {a0 : State} (ha0 : (a0).kept qs u = true) :
    ∀ t, @execFwDeferTimeout a0 = .next t → t.kept qs u = true := by
  unfold execFwDeferTimeout
  refine live_kept ha0 ?_
  try dsimp only
  repeat' (first
    | with_reducible assumption
    | with_reducible apply State.updEnds_kept
    | intro _
    | split
    | with_reducible apply kept_fold
    | with_reducible apply kept_fold1
    | with_reducible apply kept_foldW
    | with_reducible apply kept_foldW1
    | with_reducible apply kept_foldH
    | with_reducible apply kept_foldH1
    | with_reducible refine kept_fst ?_ (by with_reducible assumption)
    | with_reducible refine kept_fstW ?_ (by with_reducible assumption)
    | with_reducible refine kept_fstH ?_ (by with_reducible assumption)
    | (simp only [↓kept_mk]; with_reducible refine kept_of ?_))

theorem execHeartbeat_kept {a0 : State} (ha0 : (a0).kept qs u = true) :
    ∀ t, @execHeartbeat a0 = .next t → t.kept qs u = true := by
  unfold execHeartbeat
  refine live_kept ha0 ?_
  try dsimp only
  repeat' (first
    | with_reducible assumption
    | with_reducible apply State.onFront_kept
    | with_reducible apply State.popDone_kept
    | intro _
    | split
    | with_reducible apply kept_fold
    | with_reducible apply kept_fold1
    | with_reducible apply kept_foldW
    | with_reducible apply kept_foldW1
    | with_reducible apply kept_foldH
    | with_reducible apply kept_foldH1
    | with_reducible refine kept_fst ?_ (by with_reducible assumption)
    | with_reducible refine kept_fstW ?_ (by with_reducible assumption)
    | with_reducible refine kept_fstH ?_ (by with_reducible assumption)
    | (simp only [↓kept_mk]; with_reducible refine kept_of ?_))

theorem State.goAbsent_kept {a0 : State} (ha0 : (a0).kept qs u = true) :
    (@State.goAbsent a0).kept qs u = true := by
  unfold State.goAbsent
  try dsimp only
  repeat' (first
    | with_reducible assumption
    | with_reducible apply State.endUpdate_kept
    | with_reducible apply State.setFw_kept
    | intro _
    | split
    | with_reducible apply kept_fold
    | with_reducible apply kept_fold1
    | with_reducible apply kept_foldW
    | with_reducible apply kept_foldW1
    | with_reducible apply kept_foldH
    | with_reducible apply kept_foldH1
    | with_reducible refine kept_fst ?_ (by with_reducible assumption)
    | with_reducible refine kept_fstW ?_ (by with_reducible assumption)
    | with_reducible refine kept_fstH ?_ (by with_reducible assumption)
    | (simp only [↓kept_mk]; with_reducible refine kept_of ?_))

theorem execHeartbeatIntervalEnd_kept {a0 : State} (ha0 : (a0).kept qs u = true) :
    ∀ t, @execHeartbeatIntervalEnd a0 = .next t → t.kept qs u = true := by
  unfold execHeartbeatIntervalEnd
  refine live_kept ha0 ?_
  try dsimp only
  repeat' (first
    | with_reducible assumption
    | with_reducible apply State.goAbsent_kept
    | intro _
    | split
    | with_reducible apply kept_fold
    | with_reducible apply kept_fold1
    | with_reducible apply kept_foldW
    | with_reducible apply kept_foldW1
    | with_reducible apply kept_foldH
    | with_reducible apply kept_foldH1
    | with_reducible refine kept_fst ?_ (by with_reducible assumption)
    | with_reducible refine kept_fstW ?_ (by with_reducible assumption)
    | with_reducible refine kept_fstH ?_ (by with_reducible assumption)
    | (simp only [↓kept_mk]; with_reducible refine kept_of ?_))

theorem State.abortWaiters_kept {a0 : State} {a1 : List Nat} (ha0 : (a0).kept qs u = true) :
    (@State.abortWaiters a0 a1).kept qs u = true := by
  unfold State.abortWaiters
  try dsimp only
  repeat' (first
    | with_reducible assumption
    | with_reducible apply State.setBit_kept
    | with_reducible apply State.troughEnd_kept
    | intro _
    | split
    | with_reducible apply kept_fold
    | with_reducible apply kept_fold1
    | with_reducible apply kept_foldW
    | with_reducible apply kept_foldW1
    | with_reducible apply kept_foldH
    | with_reducible apply kept_foldH1
    | with_reducible refine kept_fst ?_ (by with_reducible assumption)
    | with_reducible refine kept_fstW ?_ (by with_reducible assumption)
    | with_reducible refine kept_fstH ?_ (by with_reducible assumption)
    | (simp only [↓kept_mk]; with_reducible refine kept_of ?_))

theorem execHostAbsentTroughTimeout_kept {a0 : State} (ha0 : (a0).kept qs u = true) :
    ∀ t, @execHostAbsentTroughTimeout a0 = .next t → t.kept qs u = true := by
  unfold execHostAbsentTroughTimeout
  refine live_kept ha0 ?_
  try dsimp only
  repeat' (first
    | with_reducible assumption
    | with_reducible apply State.complete_kept
    | with_reducible apply State.abortWaiters_kept
    | with_reducible apply State.writePhys_kept
    | with_reducible apply State.touch_kept
    | intro _
    | split
    | with_reducible apply kept_fold
    | with_reducible apply kept_fold1
    | with_reducible apply kept_foldW
    | with_reducible apply kept_foldW1
    | with_reducible apply kept_foldH
    | with_reducible apply kept_foldH1
    | with_reducible refine kept_fst ?_ (by with_reducible assumption)
    | with_reducible refine kept_fstW ?_ (by with_reducible assumption)
    | with_reducible refine kept_fstH ?_ (by with_reducible assumption)
    | (simp only [↓kept_mk]; with_reducible refine kept_of ?_))

theorem State.msixAll_kept {a0 : State} (ha0 : (a0).kept qs u = true) :
    (@State.msixAll a0).kept qs u = true := by
  unfold State.msixAll
  try dsimp only
  repeat' (first
    | with_reducible assumption
    | with_reducible apply State.msix_kept
    | intro _
    | split
    | with_reducible apply kept_fold
    | with_reducible apply kept_fold1
    | with_reducible apply kept_foldW
    | with_reducible apply kept_foldW1
    | with_reducible apply kept_foldH
    | with_reducible apply kept_foldH1
    | with_reducible refine kept_fst ?_ (by with_reducible assumption)
    | with_reducible refine kept_fstW ?_ (by with_reducible assumption)
    | with_reducible refine kept_fstH ?_ (by with_reducible assumption)
    | (simp only [↓kept_mk]; with_reducible refine kept_of ?_))

theorem execFwAdopt_kept {a0 : State} (ha0 : (a0).kept qs u = true) :
    ∀ t, @execFwAdopt a0 = .next t → t.kept qs u = true := by
  unfold execFwAdopt
  refine live_kept ha0 ?_
  try dsimp only
  repeat' (first
    | with_reducible assumption
    | with_reducible apply State.onFwCtl_kept
    | with_reducible apply State.latch_kept
    | with_reducible apply State.msixAll_kept
    | with_reducible apply State.setFw_kept
    | intro _
    | split
    | with_reducible apply kept_fold
    | with_reducible apply kept_fold1
    | with_reducible apply kept_foldW
    | with_reducible apply kept_foldW1
    | with_reducible apply kept_foldH
    | with_reducible apply kept_foldH1
    | with_reducible refine kept_fst ?_ (by with_reducible assumption)
    | with_reducible refine kept_fstW ?_ (by with_reducible assumption)
    | with_reducible refine kept_fstH ?_ (by with_reducible assumption)
    | (simp only [↓kept_mk]; with_reducible refine kept_of ?_))

theorem State.fwFresh_kept {a0 : State} (ha0 : (a0).kept qs u = true) :
    (@State.fwFresh a0).kept qs u = true := by
  unfold State.fwFresh
  try dsimp only
  repeat' (first
    | with_reducible assumption
    | with_reducible apply State.resetRegs_kept
    | with_reducible apply State.staging_kept
    | intro _
    | split
    | with_reducible apply kept_fold
    | with_reducible apply kept_fold1
    | with_reducible apply kept_foldW
    | with_reducible apply kept_foldW1
    | with_reducible apply kept_foldH
    | with_reducible apply kept_foldH1
    | with_reducible refine kept_fst ?_ (by with_reducible assumption)
    | with_reducible refine kept_fstW ?_ (by with_reducible assumption)
    | with_reducible refine kept_fstH ?_ (by with_reducible assumption)
    | (simp only [↓kept_mk]; with_reducible refine kept_of ?_))

theorem State.contentGone_kept {a0 : State} (ha0 : (a0).kept qs u = true) :
    (@State.contentGone a0).kept qs u = true := by
  have h := keptParts_iff.1 ha0
  exact keptParts_iff.2 ⟨h.1, wf_nil _, wf_nil _, wf_nil _, h.2.2.2.2⟩

theorem State.dropWrites_kept {a0 : State} (ha0 : (a0).kept qs u = true) :
    (@State.dropWrites a0).kept qs u = true := by
  unfold State.dropWrites
  try dsimp only
  repeat' (first
    | with_reducible assumption
    | with_reducible apply State.modReg_kept
    | intro _
    | split
    | with_reducible apply kept_fold
    | with_reducible apply kept_fold1
    | with_reducible apply kept_foldW
    | with_reducible apply kept_foldW1
    | with_reducible apply kept_foldH
    | with_reducible apply kept_foldH1
    | with_reducible refine kept_fst ?_ (by with_reducible assumption)
    | with_reducible refine kept_fstW ?_ (by with_reducible assumption)
    | with_reducible refine kept_fstH ?_ (by with_reducible assumption)
    | (simp only [↓kept_mk]; with_reducible refine kept_of ?_))

theorem State.devReset_kept {a0 : State} (ha0 : (a0).kept qs u = true) :
    (@State.devReset a0).kept qs u = true := by
  unfold State.devReset
  try dsimp only
  repeat' (first
    | with_reducible assumption
    | with_reducible apply State.retireTenant_kept
    | with_reducible apply State.fwFresh_kept
    | with_reducible apply State.contentGone_kept
    | with_reducible apply State.dropWrites_kept
    | intro _
    | split
    | with_reducible apply kept_fold
    | with_reducible apply kept_fold1
    | with_reducible apply kept_foldW
    | with_reducible apply kept_foldW1
    | with_reducible apply kept_foldH
    | with_reducible apply kept_foldH1
    | with_reducible refine kept_fst ?_ (by with_reducible assumption)
    | with_reducible refine kept_fstW ?_ (by with_reducible assumption)
    | with_reducible refine kept_fstH ?_ (by with_reducible assumption)
    | (simp only [↓kept_mk]; with_reducible refine kept_of ?_))

theorem execFwReset_kept {a0 : State} (ha0 : (a0).kept qs u = true) :
    ∀ t, @execFwReset a0 = .next t → t.kept qs u = true := by
  unfold execFwReset
  refine live_kept ha0 ?_
  try dsimp only
  repeat' (first
    | with_reducible assumption
    | with_reducible apply State.onFront_kept
    | with_reducible apply State.popDone_kept
    | with_reducible apply State.devReset_kept
    | intro _
    | split
    | with_reducible apply kept_fold
    | with_reducible apply kept_fold1
    | with_reducible apply kept_foldW
    | with_reducible apply kept_foldW1
    | with_reducible apply kept_foldH
    | with_reducible apply kept_foldH1
    | with_reducible refine kept_fst ?_ (by with_reducible assumption)
    | with_reducible refine kept_fstW ?_ (by with_reducible assumption)
    | with_reducible refine kept_fstH ?_ (by with_reducible assumption)
    | (simp only [↓kept_mk]; with_reducible refine kept_of ?_))

theorem execPfFlr_kept {a0 : State} (ha0 : (a0).kept qs u = true) :
    ∀ t, @execPfFlr a0 = .next t → t.kept qs u = true := by
  unfold execPfFlr
  refine live_kept ha0 ?_
  try dsimp only
  repeat' (first
    | with_reducible assumption
    | with_reducible apply State.devReset_kept
    | intro _
    | split
    | with_reducible apply kept_fold
    | with_reducible apply kept_fold1
    | with_reducible apply kept_foldW
    | with_reducible apply kept_foldW1
    | with_reducible apply kept_foldH
    | with_reducible apply kept_foldH1
    | with_reducible refine kept_fst ?_ (by with_reducible assumption)
    | with_reducible refine kept_fstW ?_ (by with_reducible assumption)
    | with_reducible refine kept_fstH ?_ (by with_reducible assumption)
    | (simp only [↓kept_mk]; with_reducible refine kept_of ?_))

theorem execHotReset_kept {a0 : State} (ha0 : (a0).kept qs u = true) :
    ∀ t, @execHotReset a0 = .next t → t.kept qs u = true := by
  unfold execHotReset
  refine live_kept ha0 ?_
  try dsimp only
  repeat' (first
    | with_reducible assumption
    | intro _
    | split
    | with_reducible apply kept_fold
    | with_reducible apply kept_fold1
    | with_reducible apply kept_foldW
    | with_reducible apply kept_foldW1
    | with_reducible apply kept_foldH
    | with_reducible apply kept_foldH1
    | with_reducible refine kept_fst ?_ (by with_reducible assumption)
    | with_reducible refine kept_fstW ?_ (by with_reducible assumption)
    | with_reducible refine kept_fstH ?_ (by with_reducible assumption)
    | (simp only [↓kept_mk]; with_reducible refine kept_of ?_))

theorem execVfFlr_kept {a0 : Fin 16} {a1 : State} (ha1 : (a1).kept qs u = true) :
    ∀ t, @execVfFlr a0 a1 = .next t → t.kept qs u = true := by
  unfold execVfFlr
  refine live_kept ha1 ?_
  try dsimp only
  repeat' (first
    | with_reducible assumption
    | with_reducible apply State.dropPending_kept
    | with_reducible apply State.resetPages_kept
    | intro _
    | split
    | with_reducible apply kept_fold
    | with_reducible apply kept_fold1
    | with_reducible apply kept_foldW
    | with_reducible apply kept_foldW1
    | with_reducible apply kept_foldH
    | with_reducible apply kept_foldH1
    | with_reducible refine kept_fst ?_ (by with_reducible assumption)
    | with_reducible refine kept_fstW ?_ (by with_reducible assumption)
    | with_reducible refine kept_fstH ?_ (by with_reducible assumption)
    | (simp only [↓kept_mk]; with_reducible refine kept_of ?_))

theorem execVfFlrTimeout_kept {a0 : Fin 16} {a1 : State} (ha1 : (a1).kept qs u = true) :
    ∀ t, @execVfFlrTimeout a0 a1 = .next t → t.kept qs u = true := by
  unfold execVfFlrTimeout
  refine live_kept ha1 ?_
  try dsimp only
  repeat' (first
    | with_reducible assumption
    | with_reducible apply State.blkReset_kept
    | intro _
    | split
    | with_reducible apply kept_fold
    | with_reducible apply kept_fold1
    | with_reducible apply kept_foldW
    | with_reducible apply kept_foldW1
    | with_reducible apply kept_foldH
    | with_reducible apply kept_foldH1
    | with_reducible refine kept_fst ?_ (by with_reducible assumption)
    | with_reducible refine kept_fstW ?_ (by with_reducible assumption)
    | with_reducible refine kept_fstH ?_ (by with_reducible assumption)
    | (simp only [↓kept_mk]; with_reducible refine kept_of ?_))

theorem State.regRead_kept {a0 : State} {a1 : Bool} {a2 : Blk} {a3 : Nat} {a4 : Nat} {a5 : Reg} {a6 : Nat} (ha0 : (a0).kept qs u = true) :
    (@State.regRead a0 a1 a2 a3 a4 a5 a6).1.kept qs u = true := by
  unfold State.regRead
  try dsimp only
  repeat' (first
    | with_reducible assumption
    | with_reducible apply State.libRead_kept
    | intro _
    | split
    | with_reducible apply kept_fold
    | with_reducible apply kept_fold1
    | with_reducible apply kept_foldW
    | with_reducible apply kept_foldW1
    | with_reducible apply kept_foldH
    | with_reducible apply kept_foldH1
    | with_reducible refine kept_fst ?_ (by with_reducible assumption)
    | with_reducible refine kept_fstW ?_ (by with_reducible assumption)
    | with_reducible refine kept_fstH ?_ (by with_reducible assumption)
    | (simp only [↓kept_mk]; with_reducible refine kept_of ?_))

theorem State.read4_kept {a0 : State} {a1 : Bool} {a2 : Nat} (ha0 : (a0).kept qs u = true) :
    (@State.read4 a0 a1 a2).1.kept qs u = true := by
  unfold State.read4
  try dsimp only
  repeat' (first
    | with_reducible assumption
    | with_reducible apply State.devErr_kept
    | with_reducible apply State.blkErr_kept
    | with_reducible apply State.regRead_kept
    | intro _
    | split
    | with_reducible apply kept_fold
    | with_reducible apply kept_fold1
    | with_reducible apply kept_foldW
    | with_reducible apply kept_foldW1
    | with_reducible apply kept_foldH
    | with_reducible apply kept_foldH1
    | with_reducible refine kept_fst ?_ (by with_reducible assumption)
    | with_reducible refine kept_fstW ?_ (by with_reducible assumption)
    | with_reducible refine kept_fstH ?_ (by with_reducible assumption)
    | (simp only [↓kept_mk]; with_reducible refine kept_of ?_))

theorem State.busRead_kept {a0 : State} {a1 : Bool} {a2 : Nat} {a3 : Nat} (ha0 : (a0).kept qs u = true) :
    (@State.busRead a0 a1 a2 a3).1.kept qs u = true := by
  unfold State.busRead
  refine ite_kept1 (fun _ => ha0) fun _ => ite_kept1 (fun _ => State.read4_kept ha0) fun _ => ?_
  split
  · exact State.regRead_kept ha0
  · show ((a0.read4 a1 a2).1.read4 a1 (a2 + 4)).1.kept qs u = true
    exact State.read4_kept (State.read4_kept ha0)

theorem execRegisterRead_kept {a0 : Bool} {a1 : BitVec 26} {a2 : Nat} {a3 : State} (ha3 : (a3).kept qs u = true) :
    ∀ t, @execRegisterRead a0 a1 a2 a3 = .next t → t.kept qs u = true := by
  unfold execRegisterRead
  refine live_kept ha3 ?_
  try dsimp only
  repeat' (first
    | with_reducible assumption
    | with_reducible apply State.busRead_kept
    | intro _
    | split
    | with_reducible apply kept_fold
    | with_reducible apply kept_fold1
    | with_reducible apply kept_foldW
    | with_reducible apply kept_foldW1
    | with_reducible apply kept_foldH
    | with_reducible apply kept_foldH1
    | with_reducible refine kept_fst ?_ (by with_reducible assumption)
    | with_reducible refine kept_fstW ?_ (by with_reducible assumption)
    | with_reducible refine kept_fstH ?_ (by with_reducible assumption)
    | (simp only [↓kept_mk]; with_reducible refine kept_of ?_))

theorem execCeLibDataRead_kept {a0 : Bool} {a1 : Fin 18} {a2 : State} (ha2 : (a2).kept qs u = true) :
    ∀ t, @execCeLibDataRead a0 a1 a2 = .next t → t.kept qs u = true := by
  unfold execCeLibDataRead
  refine live_kept ha2 ?_
  try dsimp only
  repeat' (first
    | with_reducible assumption
    | with_reducible apply State.busRead_kept
    | intro _
    | split
    | with_reducible apply kept_fold
    | with_reducible apply kept_fold1
    | with_reducible apply kept_foldW
    | with_reducible apply kept_foldW1
    | with_reducible apply kept_foldH
    | with_reducible apply kept_foldH1
    | with_reducible refine kept_fst ?_ (by with_reducible assumption)
    | with_reducible refine kept_fstW ?_ (by with_reducible assumption)
    | with_reducible refine kept_fstH ?_ (by with_reducible assumption)
    | (simp only [↓kept_mk]; with_reducible refine kept_of ?_))

theorem State.troughSet_kept {a0 : State} {a1 : Nat} {a2 : Reg} {a3 : Nat} {a4 : Nat} (ha0 : (a0).kept qs u = true) :
    (@State.troughSet a0 a1 a2 a3 a4).kept qs u = true := by
  unfold State.troughSet
  try dsimp only
  repeat' (first
    | with_reducible assumption
    | with_reducible apply State.blkErr_kept
    | with_reducible apply State.storeReg_kept
    | intro _
    | split
    | with_reducible apply kept_fold
    | with_reducible apply kept_fold1
    | with_reducible apply kept_foldW
    | with_reducible apply kept_foldW1
    | with_reducible apply kept_foldH
    | with_reducible apply kept_foldH1
    | with_reducible refine kept_fst ?_ (by with_reducible assumption)
    | with_reducible refine kept_fstW ?_ (by with_reducible assumption)
    | with_reducible refine kept_fstH ?_ (by with_reducible assumption)
    | (simp only [↓kept_mk]; with_reducible refine kept_of ?_))

theorem State.markWrite_kept {a0 : State} {a1 : Nat} (ha0 : (a0).kept qs u = true) :
    (@State.markWrite a0 a1).kept qs u = true := by
  unfold State.markWrite
  try dsimp only
  repeat' (first
    | with_reducible assumption
    | with_reducible apply State.setMark_kept
    | with_reducible apply State.markServed_kept
    | intro _
    | split
    | with_reducible apply kept_fold
    | with_reducible apply kept_fold1
    | with_reducible apply kept_foldW
    | with_reducible apply kept_foldW1
    | with_reducible apply kept_foldH
    | with_reducible apply kept_foldH1
    | with_reducible refine kept_fst ?_ (by with_reducible assumption)
    | with_reducible refine kept_fstW ?_ (by with_reducible assumption)
    | with_reducible refine kept_fstH ?_ (by with_reducible assumption)
    | (simp only [↓kept_mk]; with_reducible refine kept_of ?_))

theorem execMarkWrite_kept {a0 : Bool} {a1 : DWord} {a2 : State} (ha2 : (a2).kept qs u = true) :
    ∀ t, @execMarkWrite a0 a1 a2 = .next t → t.kept qs u = true := by
  unfold execMarkWrite
  refine live_kept ha2 ?_
  try dsimp only
  repeat' (first
    | with_reducible assumption
    | with_reducible apply State.allow_kept
    | with_reducible apply State.markWrite_kept
    | intro _
    | split
    | with_reducible apply kept_fold
    | with_reducible apply kept_fold1
    | with_reducible apply kept_foldW
    | with_reducible apply kept_foldW1
    | with_reducible apply kept_foldH
    | with_reducible apply kept_foldH1
    | with_reducible refine kept_fst ?_ (by with_reducible assumption)
    | with_reducible refine kept_fstW ?_ (by with_reducible assumption)
    | with_reducible refine kept_fstH ?_ (by with_reducible assumption)
    | (simp only [↓kept_mk]; with_reducible refine kept_of ?_))

theorem State.windowWrite_kept {a0 : State} {a1 : Nat} {a2 : Nat} (ha0 : (a0).kept qs u = true) :
    (@State.windowWrite a0 a1 a2).kept qs u = true := by
  unfold State.windowWrite
  try dsimp only
  repeat' (first
    | with_reducible assumption
    | with_reducible apply State.blkErr_kept
    | with_reducible apply State.setRegN_kept
    | intro _
    | split
    | with_reducible apply kept_fold
    | with_reducible apply kept_fold1
    | with_reducible apply kept_foldW
    | with_reducible apply kept_foldW1
    | with_reducible apply kept_foldH
    | with_reducible apply kept_foldH1
    | with_reducible refine kept_fst ?_ (by with_reducible assumption)
    | with_reducible refine kept_fstW ?_ (by with_reducible assumption)
    | with_reducible refine kept_fstH ?_ (by with_reducible assumption)
    | (simp only [↓kept_mk]; with_reducible refine kept_of ?_))

theorem execMarkWindowWrite_kept {a0 : Bool} {a1 : Fin 16} {a2 : Word} {a3 : State} (ha3 : (a3).kept qs u = true) :
    ∀ t, @execMarkWindowWrite a0 a1 a2 a3 = .next t → t.kept qs u = true := by
  unfold execMarkWindowWrite
  refine live_kept ha3 ?_
  try dsimp only
  repeat' (first
    | with_reducible assumption
    | with_reducible apply State.allow_kept
    | with_reducible apply State.windowWrite_kept
    | intro _
    | split
    | with_reducible apply kept_fold
    | with_reducible apply kept_fold1
    | with_reducible apply kept_foldW
    | with_reducible apply kept_foldW1
    | with_reducible apply kept_foldH
    | with_reducible apply kept_foldH1
    | with_reducible refine kept_fst ?_ (by with_reducible assumption)
    | with_reducible refine kept_fstW ?_ (by with_reducible assumption)
    | with_reducible refine kept_fstH ?_ (by with_reducible assumption)
    | (simp only [↓kept_mk]; with_reducible refine kept_of ?_))

theorem State.schedWrite_kept {a0 : State} {a1 : Nat} {a2 : Nat} (ha0 : (a0).kept qs u = true) :
    (@State.schedWrite a0 a1 a2).kept qs u = true := by
  unfold State.schedWrite
  try dsimp only
  repeat' (first
    | with_reducible assumption
    | with_reducible apply State.schedEnable_kept
    | with_reducible apply State.schedResume_kept
    | with_reducible apply State.schedDisable_kept
    | intro _
    | split
    | with_reducible apply kept_fold
    | with_reducible apply kept_fold1
    | with_reducible apply kept_foldW
    | with_reducible apply kept_foldW1
    | with_reducible apply kept_foldH
    | with_reducible apply kept_foldH1
    | with_reducible refine kept_fst ?_ (by with_reducible assumption)
    | with_reducible refine kept_fstW ?_ (by with_reducible assumption)
    | with_reducible refine kept_fstH ?_ (by with_reducible assumption)
    | (simp only [↓kept_mk]; with_reducible refine kept_of ?_))

theorem State.pfcWrite_kept {a0 : State} {a1 : Nat} {a2 : Bool} {a3 : Nat} (ha0 : (a0).kept qs u = true) :
    (@State.pfcWrite a0 a1 a2 a3).kept qs u = true := by
  unfold State.pfcWrite
  try dsimp only
  repeat' (first
    | with_reducible assumption
    | with_reducible apply State.blkErr_kept
    | with_reducible apply State.pauseUpdate_kept
    | with_reducible apply State.setRegN_kept
    | intro _
    | split
    | with_reducible apply kept_fold
    | with_reducible apply kept_fold1
    | with_reducible apply kept_foldW
    | with_reducible apply kept_foldW1
    | with_reducible apply kept_foldH
    | with_reducible apply kept_foldH1
    | with_reducible refine kept_fst ?_ (by with_reducible assumption)
    | with_reducible refine kept_fstW ?_ (by with_reducible assumption)
    | with_reducible refine kept_fstH ?_ (by with_reducible assumption)
    | (simp only [↓kept_mk]; with_reducible refine kept_of ?_))

theorem State.regWrite_kept {a0 : State} {a1 : Blk} {a2 : Nat} {a3 : Nat} {a4 : Reg} {a5 : Nat} {a6 : Nat} (ha0 : (a0).kept qs u = true) :
    (@State.regWrite a0 a1 a2 a3 a4 a5 a6).kept qs u = true := by
  unfold State.regWrite
  try dsimp only
  repeat' (first
    | with_reducible assumption
    | with_reducible apply State.retrainWrite_kept
    | with_reducible apply State.xmapWrite_kept
    | with_reducible apply State.storeReg_kept
    | with_reducible apply State.portWrite_kept
    | with_reducible apply State.pfcWrite_kept
    | with_reducible apply State.chipIdWrite_kept
    | with_reducible apply State.macPfxWrite_kept
    | with_reducible apply State.markWrite_kept
    | with_reducible apply State.windowWrite_kept
    | with_reducible apply State.capWrite_kept
    | with_reducible apply State.fsetWrite_kept
    | with_reducible apply State.domWrite_kept
    | with_reducible apply State.mailboxWrite_kept
    | with_reducible apply State.regionWrite_kept
    | with_reducible apply State.xipCtl_kept
    | with_reducible apply State.modReg_kept
    | with_reducible apply State.schedWrite_kept
    | with_reducible apply State.troughWrite_kept
    | with_reducible apply State.troughSet_kept
    | intro _
    | split
    | with_reducible apply kept_fold
    | with_reducible apply kept_fold1
    | with_reducible apply kept_foldW
    | with_reducible apply kept_foldW1
    | with_reducible apply kept_foldH
    | with_reducible apply kept_foldH1
    | with_reducible refine kept_fst ?_ (by with_reducible assumption)
    | with_reducible refine kept_fstW ?_ (by with_reducible assumption)
    | with_reducible refine kept_fstH ?_ (by with_reducible assumption)
    | (simp only [↓kept_mk]; with_reducible refine kept_of ?_))

theorem State.halfValue_kept {a0 : State} {a1 : Reg} {a2 : Nat} {a3 : Nat} {a4 : Nat} (ha0 : (a0).kept qs u = true) :
    (@State.halfValue a0 a1 a2 a3 a4).1.kept qs u = true := by
  unfold State.halfValue
  try dsimp only
  repeat' (first
    | with_reducible assumption
    | with_reducible apply State.tick_kept
    | intro _
    | split
    | with_reducible apply kept_fold
    | with_reducible apply kept_fold1
    | with_reducible apply kept_foldW
    | with_reducible apply kept_foldW1
    | with_reducible apply kept_foldH
    | with_reducible apply kept_foldH1
    | with_reducible refine kept_fst ?_ (by with_reducible assumption)
    | with_reducible refine kept_fstW ?_ (by with_reducible assumption)
    | with_reducible refine kept_fstH ?_ (by with_reducible assumption)
    | (simp only [↓kept_mk]; with_reducible refine kept_of ?_))

theorem State.write4_kept {a0 : State} {a1 : Bool} {a2 : Nat} {a3 : Nat} (ha0 : (a0).kept qs u = true) :
    (@State.write4 a0 a1 a2 a3).kept qs u = true := by
  unfold State.write4
  repeat' (first
      | exact State.allow_kept ha0 (fun _ h => h)
      | with_reducible assumption
      | with_reducible apply State.allow_kept
      | with_reducible apply State.headerWrite_kept
      | with_reducible apply State.halfValue_kept
      | with_reducible apply State.regWrite_kept
      | intro _
      | split
      | with_reducible apply kept_fold
      | with_reducible apply kept_fold1
      | with_reducible apply kept_foldW
      | with_reducible apply kept_foldW1
      | with_reducible apply kept_foldH
      | with_reducible apply kept_foldH1
      | with_reducible refine kept_fst ?_ (by with_reducible assumption)
      | with_reducible refine kept_fstW ?_ (by with_reducible assumption)
      | with_reducible refine kept_fstH ?_ (by with_reducible assumption)
      | (simp only [↓kept_mk]; with_reducible refine kept_of ?_)
      | (simp only [↓kept_mk]; with_reducible refine kept_setPl ?_ ?_)
      | (simp only [↓kept_mk]; with_reducible refine kept_setNand ?_ ?_)
      | (simp only [↓kept_mk]; with_reducible refine kept_setBed ?_ ?_)
      | (simp only [↓kept_mk]; with_reducible refine kept_setHbm ?_ ?_)
      | (simp only [↓kept_mk]; with_reducible refine kept_setRegs ?_ ?_)
      | (simp only [↓kept_mk]; with_reducible refine kept_setMarks ?_ ?_)
      | with_reducible exact wf_nil _
      | with_reducible exact smapWf_nil _
      | with_reducible apply wf_memWrite
      | with_reducible apply wf_memClear
      | with_reducible apply smapWf_set
      | with_reducible apply smapWf_clear
      | with_reducible apply wf_fold
      | with_reducible refine kept_pl (qs := qs) (u := u) ?_
      | with_reducible refine kept_nand (qs := qs) (u := u) ?_
      | with_reducible refine kept_bed (qs := qs) (u := u) ?_
      | with_reducible refine kept_hbm (qs := qs) (u := u) ?_
      | with_reducible refine kept_regs (qs := qs) (u := u) ?_
      | with_reducible refine kept_marks (qs := qs) (u := u) ?_)

theorem State.busWrite_kept {a0 : State} {a1 : Bool} {a2 : Nat} {a3 : Nat} {a4 : Nat} (ha0 : (a0).kept qs u = true) :
    (@State.busWrite a0 a1 a2 a3 a4).kept qs u = true := by
  unfold State.busWrite
  try dsimp only
  repeat' (first
    | with_reducible assumption
    | with_reducible apply State.post_kept
    | with_reducible apply State.write4_kept
    | with_reducible apply State.allow_kept
    | with_reducible apply State.regWrite_kept
    | intro _
    | split
    | with_reducible apply kept_fold
    | with_reducible apply kept_fold1
    | with_reducible apply kept_foldW
    | with_reducible apply kept_foldW1
    | with_reducible apply kept_foldH
    | with_reducible apply kept_foldH1
    | with_reducible refine kept_fst ?_ (by with_reducible assumption)
    | with_reducible refine kept_fstW ?_ (by with_reducible assumption)
    | with_reducible refine kept_fstH ?_ (by with_reducible assumption)
    | (simp only [↓kept_mk]; with_reducible refine kept_of ?_))

theorem execRegisterWrite_kept {a0 : Bool} {a1 : BitVec 26} {a2 : Nat} {a3 : DWord} {a4 : State} (ha4 : (a4).kept qs u = true) :
    ∀ t, @execRegisterWrite a0 a1 a2 a3 a4 = .next t → t.kept qs u = true := by
  unfold execRegisterWrite
  refine live_kept ha4 ?_
  try dsimp only
  repeat' (first
    | with_reducible assumption
    | with_reducible apply State.busWrite_kept
    | intro _
    | split
    | with_reducible apply kept_fold
    | with_reducible apply kept_fold1
    | with_reducible apply kept_foldW
    | with_reducible apply kept_foldW1
    | with_reducible apply kept_foldH
    | with_reducible apply kept_foldH1
    | with_reducible refine kept_fst ?_ (by with_reducible assumption)
    | with_reducible refine kept_fstW ?_ (by with_reducible assumption)
    | with_reducible refine kept_fstH ?_ (by with_reducible assumption)
    | (simp only [↓kept_mk]; with_reducible refine kept_of ?_))

theorem execPerstNRelease_kept {a0 : State} (ha0 : (a0).kept qs u = true) :
    ∀ t, @execPerstNRelease a0 = .next t → t.kept qs u = true := by
  unfold execPerstNRelease
  refine atPins_kept ha0 ?_
  try dsimp only
  repeat' (first
    | with_reducible assumption
    | with_reducible apply State.plScan_kept
    | intro _
    | split
    | with_reducible apply kept_fold
    | with_reducible apply kept_fold1
    | with_reducible apply kept_foldW
    | with_reducible apply kept_foldW1
    | with_reducible apply kept_foldH
    | with_reducible apply kept_foldH1
    | with_reducible refine kept_fst ?_ (by with_reducible assumption)
    | with_reducible refine kept_fstW ?_ (by with_reducible assumption)
    | with_reducible refine kept_fstH ?_ (by with_reducible assumption)
    | (simp only [↓kept_mk]; with_reducible refine kept_of ?_))

theorem State.inReset_kept {a0 : State} (ha0 : a0.kept qs u = true)  :
    a0.inReset.kept qs false = true := by
  unfold State.inReset
  dsimp only
  generalize List.flatMap _ _ = l
  have h : (l.foldl State.plTorn a0).kept qs u = true := kept_fold ha0 fun s o h => State.plTorn_kept h
  revert h
  generalize l.foldl State.plTorn a0 = s
  intro h
  have h := keptParts_iff.1 h
  simp only [↓kept_mk]
  exact keptParts_iff.2 ⟨⟨h.1.1, rfl⟩, wf_nil _, wf_nil _, wf_nil _, h.2.2.2.2.1, smapWf_nil _, smapWf_nil _⟩

theorem execPerstNAssert_kept {a0 : State} (ha0 : a0.kept qs u = true)  :
    ∀ t, execPerstNAssert a0 = .next t → t.kept qs (u && !a0.pins.perstN) = true := by
  intro t h
  cases h
  cases hp : a0.pins.perstN
  · simpa [hp] using ha0
  · simpa [hp] using State.inReset_kept ha0

theorem execRailOutOfRange_kept {a0 : State} (ha0 : a0.kept qs u = true)  :
    ∀ t, execRailOutOfRange a0 = .next t → t.kept qs (u || a0.pins.perstN) = true := by
  intro t h
  simp only [execRailOutOfRange, atPins] at h
  split at h
  · cases h
  · cases h
    split
    · rename_i hp
      have h := keptParts_iff.1 ha0
      simp only [hp, Bool.or_true]
      exact keptParts_iff.2 ⟨⟨h.1.1, rfl⟩, h.2⟩
    · rename_i hp
      simpa [hp] using ha0

theorem execRefclkPcieLoss_kept {a0 : State} (ha0 : a0.kept qs u = true)  :
    ∀ t, execRefclkPcieLoss a0 = .next t → t.kept qs (u || a0.pins.perstN) = true := by
  intro t h
  simp only [execRefclkPcieLoss, atPins] at h
  split at h
  · cases h
  · cases h
    split
    · rename_i hp
      have h := keptParts_iff.1 ha0
      simp only [hp, Bool.or_true]
      exact keptParts_iff.2 ⟨⟨h.1.1, rfl⟩, h.2⟩
    · rename_i hp
      simpa [hp] using ha0

theorem execPcieLinkUp_kept {a0 : Nat} {a1 : Nat} {a2 : State} (ha2 : (a2).kept qs u = true) :
    ∀ t, @execPcieLinkUp a0 a1 a2 = .next t → t.kept qs u = true := by
  unfold execPcieLinkUp
  refine live_kept ha2 ?_
  try dsimp only
  repeat' (first
    | with_reducible assumption
    | intro _
    | split
    | with_reducible apply kept_fold
    | with_reducible apply kept_fold1
    | with_reducible apply kept_foldW
    | with_reducible apply kept_foldW1
    | with_reducible apply kept_foldH
    | with_reducible apply kept_foldH1
    | with_reducible refine kept_fst ?_ (by with_reducible assumption)
    | with_reducible refine kept_fstW ?_ (by with_reducible assumption)
    | with_reducible refine kept_fstH ?_ (by with_reducible assumption)
    | (simp only [↓kept_mk]; with_reducible refine kept_of ?_))

theorem execConfigSpaceReady_kept {a0 : State} (ha0 : (a0).kept qs u = true) :
    ∀ t, @execConfigSpaceReady a0 = .next t → t.kept qs u = true := by
  unfold execConfigSpaceReady
  refine live_kept ha0 ?_
  try dsimp only
  repeat' (first
    | with_reducible assumption
    | intro _
    | split
    | with_reducible apply kept_fold
    | with_reducible apply kept_fold1
    | with_reducible apply kept_foldW
    | with_reducible apply kept_foldW1
    | with_reducible apply kept_foldH
    | with_reducible apply kept_foldH1
    | with_reducible refine kept_fst ?_ (by with_reducible assumption)
    | with_reducible refine kept_fstW ?_ (by with_reducible assumption)
    | with_reducible refine kept_fstH ?_ (by with_reducible assumption)
    | (simp only [↓kept_mk]; with_reducible refine kept_of ?_))

theorem execSmbusClockLowTimeout_kept {a0 : State} (ha0 : (a0).kept qs u = true) :
    ∀ t, @execSmbusClockLowTimeout a0 = .next t → t.kept qs u = true := by
  unfold execSmbusClockLowTimeout
  refine live_kept ha0 ?_
  try dsimp only
  repeat' (first
    | with_reducible assumption
    | intro _
    | split
    | with_reducible apply kept_fold
    | with_reducible apply kept_fold1
    | with_reducible apply kept_foldW
    | with_reducible apply kept_foldW1
    | with_reducible apply kept_foldH
    | with_reducible apply kept_foldH1
    | with_reducible refine kept_fst ?_ (by with_reducible assumption)
    | with_reducible refine kept_fstW ?_ (by with_reducible assumption)
    | with_reducible refine kept_fstH ?_ (by with_reducible assumption)
    | (simp only [↓kept_mk]; with_reducible refine kept_of ?_))

theorem execJtagTapReset_kept {a0 : State} (ha0 : (a0).kept qs u = true) :
    ∀ t, @execJtagTapReset a0 = .next t → t.kept qs u = true := by
  unfold execJtagTapReset
  refine atPins_kept ha0 ?_
  try dsimp only
  repeat' (first
    | with_reducible assumption
    | intro _
    | split
    | with_reducible apply kept_fold
    | with_reducible apply kept_fold1
    | with_reducible apply kept_foldW
    | with_reducible apply kept_foldW1
    | with_reducible apply kept_foldH
    | with_reducible apply kept_foldH1
    | with_reducible refine kept_fst ?_ (by with_reducible assumption)
    | with_reducible refine kept_fstW ?_ (by with_reducible assumption)
    | with_reducible refine kept_fstH ?_ (by with_reducible assumption)
    | (simp only [↓kept_mk]; with_reducible refine kept_of ?_))

theorem execJtagIdcode_kept {a0 : State} (ha0 : (a0).kept qs u = true) :
    ∀ t, @execJtagIdcode a0 = .next t → t.kept qs u = true := by
  unfold execJtagIdcode
  refine atPins_kept ha0 ?_
  try dsimp only
  repeat' (first
    | with_reducible assumption
    | intro _
    | split
    | with_reducible apply kept_fold
    | with_reducible apply kept_fold1
    | with_reducible apply kept_foldW
    | with_reducible apply kept_foldW1
    | with_reducible apply kept_foldH
    | with_reducible apply kept_foldH1
    | with_reducible refine kept_fst ?_ (by with_reducible assumption)
    | with_reducible refine kept_fstW ?_ (by with_reducible assumption)
    | with_reducible refine kept_fstH ?_ (by with_reducible assumption)
    | (simp only [↓kept_mk]; with_reducible refine kept_of ?_))

theorem execJtagBypass_kept {a0 : BitVec 4} {a1 : Bool} {a2 : State} (ha2 : (a2).kept qs u = true) :
    ∀ t, @execJtagBypass a0 a1 a2 = .next t → t.kept qs u = true := by
  unfold execJtagBypass
  refine atPins_kept ha2 ?_
  try dsimp only
  repeat' (first
    | with_reducible assumption
    | with_reducible apply State.tick_kept
    | intro _
    | split
    | with_reducible apply kept_fold
    | with_reducible apply kept_fold1
    | with_reducible apply kept_foldW
    | with_reducible apply kept_foldW1
    | with_reducible apply kept_foldH
    | with_reducible apply kept_foldH1
    | with_reducible refine kept_fst ?_ (by with_reducible assumption)
    | with_reducible refine kept_fstW ?_ (by with_reducible assumption)
    | with_reducible refine kept_fstH ?_ (by with_reducible assumption)
    | (simp only [↓kept_mk]; with_reducible refine kept_of ?_))

theorem State.scanThrough_kept {a0 : State} {a1 : BitVec 4} {a2 : BitVec 11} {a3 : Bool} (ha0 : (a0).kept qs u = true) :
    (@State.scanThrough a0 a1 a2 a3).kept qs u = true := by
  unfold State.scanThrough
  try dsimp only
  repeat' (first
    | with_reducible assumption
    | with_reducible apply State.tick_kept
    | intro _
    | split
    | with_reducible apply kept_fold
    | with_reducible apply kept_fold1
    | with_reducible apply kept_foldW
    | with_reducible apply kept_foldW1
    | with_reducible apply kept_foldH
    | with_reducible apply kept_foldH1
    | with_reducible refine kept_fst ?_ (by with_reducible assumption)
    | with_reducible refine kept_fstW ?_ (by with_reducible assumption)
    | with_reducible refine kept_fstH ?_ (by with_reducible assumption)
    | (simp only [↓kept_mk]; with_reducible refine kept_of ?_))

theorem execJtagSamplePreload_kept {a0 : BitVec 11} {a1 : State} (ha1 : (a1).kept qs u = true) :
    ∀ t, @execJtagSamplePreload a0 a1 = .next t → t.kept qs u = true := by
  unfold execJtagSamplePreload
  refine atPins_kept ha1 ?_
  try dsimp only
  repeat' (first
    | with_reducible assumption
    | with_reducible apply State.scanThrough_kept
    | intro _
    | split
    | with_reducible apply kept_fold
    | with_reducible apply kept_fold1
    | with_reducible apply kept_foldW
    | with_reducible apply kept_foldW1
    | with_reducible apply kept_foldH
    | with_reducible apply kept_foldH1
    | with_reducible refine kept_fst ?_ (by with_reducible assumption)
    | with_reducible refine kept_fstW ?_ (by with_reducible assumption)
    | with_reducible refine kept_fstH ?_ (by with_reducible assumption)
    | (simp only [↓kept_mk]; with_reducible refine kept_of ?_))

theorem execJtagExtest_kept {a0 : BitVec 11} {a1 : State} (ha1 : (a1).kept qs u = true) :
    ∀ t, @execJtagExtest a0 a1 = .next t → t.kept qs u = true := by
  unfold execJtagExtest
  refine atPins_kept ha1 ?_
  try dsimp only
  repeat' (first
    | with_reducible assumption
    | with_reducible apply State.scanThrough_kept
    | intro _
    | split
    | with_reducible apply kept_fold
    | with_reducible apply kept_fold1
    | with_reducible apply kept_foldW
    | with_reducible apply kept_foldW1
    | with_reducible apply kept_foldH
    | with_reducible apply kept_foldH1
    | with_reducible refine kept_fst ?_ (by with_reducible assumption)
    | with_reducible refine kept_fstW ?_ (by with_reducible assumption)
    | with_reducible refine kept_fstH ?_ (by with_reducible assumption)
    | (simp only [↓kept_mk]; with_reducible refine kept_of ?_))

theorem State.getAny_kept {a0 : State} {a1 : Nat} {a2 : Nat} {a3 : Nat} {a4 : Nat} (ha0 : (a0).kept qs u = true) :
    (@State.getAny a0 a1 a2 a3 a4).1.kept qs u = true := by
  unfold State.getAny
  try dsimp only
  repeat' (first
    | with_reducible assumption
    | with_reducible apply State.busRead_kept
    | with_reducible apply State.memGet_kept
    | intro _
    | split
    | with_reducible apply kept_fold
    | with_reducible apply kept_fold1
    | with_reducible apply kept_foldW
    | with_reducible apply kept_foldW1
    | with_reducible apply kept_foldH
    | with_reducible apply kept_foldH1
    | with_reducible refine kept_fst ?_ (by with_reducible assumption)
    | with_reducible refine kept_fstW ?_ (by with_reducible assumption)
    | with_reducible refine kept_fstH ?_ (by with_reducible assumption)
    | (simp only [↓kept_mk]; with_reducible refine kept_of ?_))

theorem State.putAny_kept {a0 : State} {a1 : Nat} {a2 : Nat} {a3 : Nat} {a4 : Nat} {a5 : Bytes} (ha0 : (a0).kept qs u = true) :
    (@State.putAny a0 a1 a2 a3 a4 a5).1.kept qs u = true := by
  unfold State.putAny
  try dsimp only
  repeat' (first
    | with_reducible assumption
    | with_reducible apply State.busWrite_kept
    | with_reducible apply State.memPut_kept
    | intro _
    | split
    | with_reducible apply kept_fold
    | with_reducible apply kept_fold1
    | with_reducible apply kept_foldW
    | with_reducible apply kept_foldW1
    | with_reducible apply kept_foldH
    | with_reducible apply kept_foldH1
    | with_reducible refine kept_fst ?_ (by with_reducible assumption)
    | with_reducible refine kept_fstW ?_ (by with_reducible assumption)
    | with_reducible refine kept_fstH ?_ (by with_reducible assumption)
    | (simp only [↓kept_mk]; with_reducible refine kept_of ?_))

theorem Work.getLocal_kept {a0 : Work} {a1 : Nat} {a2 : Nat} (ha0 : (a0).s.kept qs u = true) :
    (@Work.getLocal a0 a1 a2).1.s.kept qs u = true := by
  unfold Work.getLocal
  try dsimp only
  repeat' (first
    | with_reducible assumption
    | with_reducible apply State.getAny_kept
    | with_reducible apply Work.fail_kept
    | intro _
    | split
    | with_reducible apply kept_fold
    | with_reducible apply kept_fold1
    | with_reducible apply kept_foldW
    | with_reducible apply kept_foldW1
    | with_reducible apply kept_foldH
    | with_reducible apply kept_foldH1
    | with_reducible refine kept_fst ?_ (by with_reducible assumption)
    | with_reducible refine kept_fstW ?_ (by with_reducible assumption)
    | with_reducible refine kept_fstH ?_ (by with_reducible assumption)
    | (simp only [↓kept_mk]; with_reducible refine kept_of ?_))

theorem Work.putLocal_kept {a0 : Work} {a1 : Nat} {a2 : Nat} {a3 : Bytes} (ha0 : (a0).s.kept qs u = true) :
    (@Work.putLocal a0 a1 a2 a3).s.kept qs u = true := by
  unfold Work.putLocal
  try dsimp only
  repeat' (first
    | with_reducible assumption
    | with_reducible apply Work.write_kept
    | with_reducible apply State.putAny_kept
    | with_reducible apply Work.fail_kept
    | intro _
    | split
    | with_reducible apply kept_fold
    | with_reducible apply kept_fold1
    | with_reducible apply kept_foldW
    | with_reducible apply kept_foldW1
    | with_reducible apply kept_foldH
    | with_reducible apply kept_foldH1
    | with_reducible refine kept_fst ?_ (by with_reducible assumption)
    | with_reducible refine kept_fstW ?_ (by with_reducible assumption)
    | with_reducible refine kept_fstH ?_ (by with_reducible assumption)
    | (simp only [↓kept_mk]; with_reducible refine kept_of ?_))

theorem Work.checkDest_kept {a0 : Work} {a1 : Nat} {a2 : Nat} (ha0 : (a0).s.kept qs u = true) :
    (@Work.checkDest a0 a1 a2).s.kept qs u = true := by
  unfold Work.checkDest
  try dsimp only
  repeat' (first
    | with_reducible assumption
    | with_reducible apply Work.fail_kept
    | intro _
    | split
    | with_reducible apply kept_fold
    | with_reducible apply kept_fold1
    | with_reducible apply kept_foldW
    | with_reducible apply kept_foldW1
    | with_reducible apply kept_foldH
    | with_reducible apply kept_foldH1
    | with_reducible refine kept_fst ?_ (by with_reducible assumption)
    | with_reducible refine kept_fstW ?_ (by with_reducible assumption)
    | with_reducible refine kept_fstH ?_ (by with_reducible assumption)
    | (simp only [↓kept_mk]; with_reducible refine kept_of ?_))

theorem Work.mustBeLocal_kept {a0 : Work} {a1 : Nat} (ha0 : (a0).s.kept qs u = true) :
    (@Work.mustBeLocal a0 a1).s.kept qs u = true := by
  unfold Work.mustBeLocal
  try dsimp only
  repeat' (first
    | with_reducible assumption
    | with_reducible apply Work.fail_kept
    | intro _
    | split
    | with_reducible apply kept_fold
    | with_reducible apply kept_fold1
    | with_reducible apply kept_foldW
    | with_reducible apply kept_foldW1
    | with_reducible apply kept_foldH
    | with_reducible apply kept_foldH1
    | with_reducible refine kept_fst ?_ (by with_reducible assumption)
    | with_reducible refine kept_fstW ?_ (by with_reducible assumption)
    | with_reducible refine kept_fstH ?_ (by with_reducible assumption)
    | (simp only [↓kept_mk]; with_reducible refine kept_of ?_))

theorem Work.checkRemote_kept {a0 : Work} {a1 : Nat} (ha0 : (a0).s.kept qs u = true) :
    (@Work.checkRemote a0 a1).s.kept qs u = true := by
  unfold Work.checkRemote
  try dsimp only
  repeat' (first
    | with_reducible assumption
    | with_reducible apply Work.fail_kept
    | intro _
    | split
    | with_reducible apply kept_fold
    | with_reducible apply kept_fold1
    | with_reducible apply kept_foldW
    | with_reducible apply kept_foldW1
    | with_reducible apply kept_foldH
    | with_reducible apply kept_foldH1
    | with_reducible refine kept_fst ?_ (by with_reducible assumption)
    | with_reducible refine kept_fstW ?_ (by with_reducible assumption)
    | with_reducible refine kept_fstH ?_ (by with_reducible assumption)
    | (simp only [↓kept_mk]; with_reducible refine kept_of ?_))

theorem Work.tallyMover_kept {a0 : Work} {a1 : Nat} {a2 : Nat} {a3 : Nat} {a4 : Nat} (ha0 : (a0).s.kept qs u = true) :
    (@Work.tallyMover a0 a1 a2 a3 a4).s.kept qs u = true := by
  unfold Work.tallyMover
  try dsimp only
  repeat' (first
    | with_reducible assumption
    | with_reducible apply Work.stalled_kept
    | with_reducible apply Work.mapS_kept
    | with_reducible apply State.count_kept
    | intro _
    | split
    | with_reducible apply kept_fold
    | with_reducible apply kept_fold1
    | with_reducible apply kept_foldW
    | with_reducible apply kept_foldW1
    | with_reducible apply kept_foldH
    | with_reducible apply kept_foldH1
    | with_reducible refine kept_fst ?_ (by with_reducible assumption)
    | with_reducible refine kept_fstW ?_ (by with_reducible assumption)
    | with_reducible refine kept_fstH ?_ (by with_reducible assumption)
    | (simp only [↓kept_mk]; with_reducible refine kept_of ?_))

theorem Work.source_kept {a0 : Work} {a1 : Nat} {a2 : Nat} (ha0 : (a0).s.kept qs u = true) :
    (@Work.source a0 a1 a2).1.s.kept qs u = true := by
  unfold Work.source
  try dsimp only
  repeat' (first
    | with_reducible assumption
    | with_reducible apply Work.getLocal_kept
    | intro _
    | split
    | with_reducible apply kept_fold
    | with_reducible apply kept_fold1
    | with_reducible apply kept_foldW
    | with_reducible apply kept_foldW1
    | with_reducible apply kept_foldH
    | with_reducible apply kept_foldH1
    | with_reducible refine kept_fst ?_ (by with_reducible assumption)
    | with_reducible refine kept_fstW ?_ (by with_reducible assumption)
    | with_reducible refine kept_fstH ?_ (by with_reducible assumption)
    | (simp only [↓kept_mk]; with_reducible refine kept_of ?_))

theorem Work.copyLocal_kept {a0 : Work} {a1 : Nat} {a2 : Nat} {a3 : Nat} {a4 : Nat} (ha0 : (a0).s.kept qs u = true) :
    (@Work.copyLocal a0 a1 a2 a3 a4).s.kept qs u = true := by
  unfold Work.copyLocal
  try dsimp only
  repeat' (first
    | with_reducible assumption
    | with_reducible apply Work.checkDest_kept
    | with_reducible apply Work.source_kept
    | with_reducible apply Work.mapS_kept
    | with_reducible apply State.tick_kept
    | with_reducible apply Work.putLocal_kept
    | with_reducible apply Work.fail_kept
    | with_reducible apply Work.tallyMover_kept
    | intro _
    | split
    | with_reducible apply kept_fold
    | with_reducible apply kept_fold1
    | with_reducible apply kept_foldW
    | with_reducible apply kept_foldW1
    | with_reducible apply kept_foldH
    | with_reducible apply kept_foldH1
    | with_reducible refine kept_fst ?_ (by with_reducible assumption)
    | with_reducible refine kept_fstW ?_ (by with_reducible assumption)
    | with_reducible refine kept_fstH ?_ (by with_reducible assumption)
    | (simp only [↓kept_mk]; with_reducible refine kept_of ?_))

theorem State.rmoRemote_kept {a0 : State} {a1 : Flight} {a2 : Nat} {a3 : Nat} {a4 : Nat} {a5 : Nat → List ReqFrame} (ha0 : (a0).kept qs u = true) :
    (@State.rmoRemote a0 a1 a2 a3 a4 a5).kept qs u = true := by
  unfold State.rmoRemote
  try dsimp only
  repeat' (first
    | with_reducible assumption
    | with_reducible apply State.remoteOp_kept
    | with_reducible apply State.putFlight_kept
    | intro _
    | split
    | with_reducible apply kept_fold
    | with_reducible apply kept_fold1
    | with_reducible apply kept_foldW
    | with_reducible apply kept_foldW1
    | with_reducible apply kept_foldH
    | with_reducible apply kept_foldH1
    | with_reducible refine kept_fst ?_ (by with_reducible assumption)
    | with_reducible refine kept_fstW ?_ (by with_reducible assumption)
    | with_reducible refine kept_fstH ?_ (by with_reducible assumption)
    | (simp only [↓kept_mk]; with_reducible refine kept_of ?_))

theorem State.rmoFlight_kept {a0 : State} {a1 : Nat} {a2 : Nat} {a3 : Flight → State → State} (ha0 : (a0).kept qs u = true) (ha3 : ∀ y0 y1, (y1).kept qs u = true → (a3 y0 y1).kept qs u = true) :
    (@State.rmoFlight a0 a1 a2 a3).kept qs u = true := by
  unfold State.rmoFlight
  try dsimp only
  repeat' (first
    | with_reducible assumption
    | with_reducible apply State.onFlight_kept
    | with_reducible apply ha3
    | intro _
    | split
    | with_reducible apply kept_fold
    | with_reducible apply kept_fold1
    | with_reducible apply kept_foldW
    | with_reducible apply kept_foldW1
    | with_reducible apply kept_foldH
    | with_reducible apply kept_foldH1
    | with_reducible refine kept_fst ?_ (by with_reducible assumption)
    | with_reducible refine kept_fstW ?_ (by with_reducible assumption)
    | with_reducible refine kept_fstH ?_ (by with_reducible assumption)
    | (simp only [↓kept_mk]; with_reducible refine kept_of ?_))

theorem Flight.work_kept {a0 : Flight} {a1 : State} (ha1 : (a1).kept qs u = true) :
    (@Flight.work a0 a1).s.kept qs u = true := by
  unfold Flight.work
  try dsimp only
  repeat' (first
    | with_reducible assumption
    | with_reducible apply Work.start_kept
    | intro _
    | split
    | with_reducible apply kept_fold
    | with_reducible apply kept_fold1
    | with_reducible apply kept_foldW
    | with_reducible apply kept_foldW1
    | with_reducible apply kept_foldH
    | with_reducible apply kept_foldH1
    | with_reducible refine kept_fst ?_ (by with_reducible assumption)
    | with_reducible refine kept_fstW ?_ (by with_reducible assumption)
    | with_reducible refine kept_fstH ?_ (by with_reducible assumption)
    | (simp only [↓kept_mk]; with_reducible refine kept_of ?_))

theorem rmoPut_kept {a0 : Flight} {a1 : State} (ha1 : (a1).kept qs u = true) :
    (@rmoPut a0 a1).kept qs u = true := by
  unfold rmoPut
  try dsimp only
  repeat' (first
    | with_reducible assumption
    | with_reducible apply Work.checkRemote_kept
    | with_reducible apply Work.mustBeLocal_kept
    | with_reducible apply Flight.work_kept
    | with_reducible apply Work.settle_kept
    | with_reducible apply Work.copyLocal_kept
    | with_reducible apply Work.source_kept
    | with_reducible apply Work.tallyMover_kept
    | with_reducible apply State.rmoRemote_kept
    | intro _
    | split
    | with_reducible apply kept_fold
    | with_reducible apply kept_fold1
    | with_reducible apply kept_foldW
    | with_reducible apply kept_foldW1
    | with_reducible apply kept_foldH
    | with_reducible apply kept_foldH1
    | with_reducible refine kept_fst ?_ (by with_reducible assumption)
    | with_reducible refine kept_fstW ?_ (by with_reducible assumption)
    | with_reducible refine kept_fstH ?_ (by with_reducible assumption)
    | (simp only [↓kept_mk]; with_reducible refine kept_of ?_))

theorem rmoGet_kept {a0 : Flight} {a1 : State} (ha1 : (a1).kept qs u = true) :
    (@rmoGet a0 a1).kept qs u = true := by
  unfold rmoGet
  try dsimp only
  repeat' (first
    | with_reducible assumption
    | with_reducible apply Work.checkRemote_kept
    | with_reducible apply Work.mustBeLocal_kept
    | with_reducible apply Flight.work_kept
    | with_reducible apply Work.settle_kept
    | with_reducible apply Work.copyLocal_kept
    | with_reducible apply Work.checkDest_kept
    | with_reducible apply Work.tallyMover_kept
    | with_reducible apply State.rmoRemote_kept
    | intro _
    | split
    | with_reducible apply kept_fold
    | with_reducible apply kept_fold1
    | with_reducible apply kept_foldW
    | with_reducible apply kept_foldW1
    | with_reducible apply kept_foldH
    | with_reducible apply kept_foldH1
    | with_reducible refine kept_fst ?_ (by with_reducible assumption)
    | with_reducible refine kept_fstW ?_ (by with_reducible assumption)
    | with_reducible refine kept_fstH ?_ (by with_reducible assumption)
    | (simp only [↓kept_mk]; with_reducible refine kept_of ?_))

theorem Work.atomicLocal_kept {a0 : Work} {a1 : Nat} {a2 : Nat} {a3 : Nat} {a4 : Nat} {a5 : Nat} {a6 : Nat} (ha0 : (a0).s.kept qs u = true) :
    (@Work.atomicLocal a0 a1 a2 a3 a4 a5 a6).s.kept qs u = true := by
  unfold Work.atomicLocal
  try dsimp only
  repeat' (first
    | with_reducible assumption
    | with_reducible apply State.memAtomic_kept
    | with_reducible apply Work.fail_kept
    | with_reducible apply Work.tallyMover_kept
    | with_reducible apply Work.putLocal_kept
    | with_reducible apply Work.mapS_kept
    | with_reducible apply State.tick_kept
    | intro _
    | split
    | with_reducible apply kept_fold
    | with_reducible apply kept_fold1
    | with_reducible apply kept_foldW
    | with_reducible apply kept_foldW1
    | with_reducible apply kept_foldH
    | with_reducible apply kept_foldH1
    | with_reducible refine kept_fst ?_ (by with_reducible assumption)
    | with_reducible refine kept_fstW ?_ (by with_reducible assumption)
    | with_reducible refine kept_fstH ?_ (by with_reducible assumption)
    | (simp only [↓kept_mk]; with_reducible refine kept_of ?_))

theorem rmoAtomic_kept {a0 : Flight} {a1 : State} (ha1 : (a1).kept qs u = true) :
    (@rmoAtomic a0 a1).kept qs u = true := by
  unfold rmoAtomic
  try dsimp only
  repeat' (first
    | with_reducible assumption
    | with_reducible apply Flight.work_kept
    | with_reducible apply Work.mustBeLocal_kept
    | with_reducible apply Work.checkRemote_kept
    | with_reducible apply Work.checkDest_kept
    | with_reducible apply Work.settle_kept
    | with_reducible apply Work.atomicLocal_kept
    | with_reducible apply Work.tallyMover_kept
    | with_reducible apply State.rmoRemote_kept
    | intro _
    | split
    | with_reducible apply kept_fold
    | with_reducible apply kept_fold1
    | with_reducible apply kept_foldW
    | with_reducible apply kept_foldW1
    | with_reducible apply kept_foldH
    | with_reducible apply kept_foldH1
    | with_reducible refine kept_fst ?_ (by with_reducible assumption)
    | with_reducible refine kept_fstW ?_ (by with_reducible assumption)
    | with_reducible refine kept_fstH ?_ (by with_reducible assumption)
    | (simp only [↓kept_mk]; with_reducible refine kept_of ?_))

theorem rmoSignal_kept {a0 : Flight} {a1 : State} (ha1 : (a1).kept qs u = true) :
    (@rmoSignal a0 a1).kept qs u = true := by
  unfold rmoSignal
  try dsimp only
  repeat' (first
    | with_reducible assumption
    | with_reducible apply Work.checkRemote_kept
    | with_reducible apply Flight.work_kept
    | with_reducible apply Work.settle_kept
    | with_reducible apply State.memSignal_kept
    | with_reducible apply Work.fail_kept
    | with_reducible apply Work.tallyMover_kept
    | with_reducible apply State.rmoRemote_kept
    | intro _
    | split
    | with_reducible apply kept_fold
    | with_reducible apply kept_fold1
    | with_reducible apply kept_foldW
    | with_reducible apply kept_foldW1
    | with_reducible apply kept_foldH
    | with_reducible apply kept_foldH1
    | with_reducible refine kept_fst ?_ (by with_reducible assumption)
    | with_reducible refine kept_fstW ?_ (by with_reducible assumption)
    | with_reducible refine kept_fstH ?_ (by with_reducible assumption)
    | (simp only [↓kept_mk]; with_reducible refine kept_of ?_))

theorem execPut_kept {a0 : Nat} {a1 : State} (ha1 : (a1).kept qs u = true) :
    ∀ t, @execPut a0 a1 = .next t → t.kept qs u = true := by
  unfold execPut
  refine live_kept ha1 ?_
  try dsimp only
  repeat' (first
    | with_reducible assumption
    | with_reducible apply State.rmoFlight_kept
    | with_reducible apply rmoPut_kept
    | intro _
    | split
    | with_reducible apply kept_fold
    | with_reducible apply kept_fold1
    | with_reducible apply kept_foldW
    | with_reducible apply kept_foldW1
    | with_reducible apply kept_foldH
    | with_reducible apply kept_foldH1
    | with_reducible refine kept_fst ?_ (by with_reducible assumption)
    | with_reducible refine kept_fstW ?_ (by with_reducible assumption)
    | with_reducible refine kept_fstH ?_ (by with_reducible assumption)
    | (simp only [↓kept_mk]; with_reducible refine kept_of ?_))

theorem execGet_kept {a0 : Nat} {a1 : State} (ha1 : (a1).kept qs u = true) :
    ∀ t, @execGet a0 a1 = .next t → t.kept qs u = true := by
  unfold execGet
  refine live_kept ha1 ?_
  try dsimp only
  repeat' (first
    | with_reducible assumption
    | with_reducible apply State.rmoFlight_kept
    | with_reducible apply rmoGet_kept
    | intro _
    | split
    | with_reducible apply kept_fold
    | with_reducible apply kept_fold1
    | with_reducible apply kept_foldW
    | with_reducible apply kept_foldW1
    | with_reducible apply kept_foldH
    | with_reducible apply kept_foldH1
    | with_reducible refine kept_fst ?_ (by with_reducible assumption)
    | with_reducible refine kept_fstW ?_ (by with_reducible assumption)
    | with_reducible refine kept_fstH ?_ (by with_reducible assumption)
    | (simp only [↓kept_mk]; with_reducible refine kept_of ?_))

theorem execAtomicAdd_kept {a0 : Nat} {a1 : State} (ha1 : (a1).kept qs u = true) :
    ∀ t, @execAtomicAdd a0 a1 = .next t → t.kept qs u = true := by
  unfold execAtomicAdd
  refine live_kept ha1 ?_
  try dsimp only
  repeat' (first
    | with_reducible assumption
    | with_reducible apply State.rmoFlight_kept
    | with_reducible apply rmoAtomic_kept
    | intro _
    | split
    | with_reducible apply kept_fold
    | with_reducible apply kept_fold1
    | with_reducible apply kept_foldW
    | with_reducible apply kept_foldW1
    | with_reducible apply kept_foldH
    | with_reducible apply kept_foldH1
    | with_reducible refine kept_fst ?_ (by with_reducible assumption)
    | with_reducible refine kept_fstW ?_ (by with_reducible assumption)
    | with_reducible refine kept_fstH ?_ (by with_reducible assumption)
    | (simp only [↓kept_mk]; with_reducible refine kept_of ?_))

theorem execAtomicSwap_kept {a0 : Nat} {a1 : State} (ha1 : (a1).kept qs u = true) :
    ∀ t, @execAtomicSwap a0 a1 = .next t → t.kept qs u = true := by
  unfold execAtomicSwap
  refine live_kept ha1 ?_
  try dsimp only
  repeat' (first
    | with_reducible assumption
    | with_reducible apply State.rmoFlight_kept
    | with_reducible apply rmoAtomic_kept
    | intro _
    | split
    | with_reducible apply kept_fold
    | with_reducible apply kept_fold1
    | with_reducible apply kept_foldW
    | with_reducible apply kept_foldW1
    | with_reducible apply kept_foldH
    | with_reducible apply kept_foldH1
    | with_reducible refine kept_fst ?_ (by with_reducible assumption)
    | with_reducible refine kept_fstW ?_ (by with_reducible assumption)
    | with_reducible refine kept_fstH ?_ (by with_reducible assumption)
    | (simp only [↓kept_mk]; with_reducible refine kept_of ?_))

theorem execAtomicCas_kept {a0 : Nat} {a1 : State} (ha1 : (a1).kept qs u = true) :
    ∀ t, @execAtomicCas a0 a1 = .next t → t.kept qs u = true := by
  unfold execAtomicCas
  refine live_kept ha1 ?_
  try dsimp only
  repeat' (first
    | with_reducible assumption
    | with_reducible apply State.rmoFlight_kept
    | with_reducible apply rmoAtomic_kept
    | intro _
    | split
    | with_reducible apply kept_fold
    | with_reducible apply kept_fold1
    | with_reducible apply kept_foldW
    | with_reducible apply kept_foldW1
    | with_reducible apply kept_foldH
    | with_reducible apply kept_foldH1
    | with_reducible refine kept_fst ?_ (by with_reducible assumption)
    | with_reducible refine kept_fstW ?_ (by with_reducible assumption)
    | with_reducible refine kept_fstH ?_ (by with_reducible assumption)
    | (simp only [↓kept_mk]; with_reducible refine kept_of ?_))

theorem execAtomicUmax_kept {a0 : Nat} {a1 : State} (ha1 : (a1).kept qs u = true) :
    ∀ t, @execAtomicUmax a0 a1 = .next t → t.kept qs u = true := by
  unfold execAtomicUmax
  refine live_kept ha1 ?_
  try dsimp only
  repeat' (first
    | with_reducible assumption
    | with_reducible apply State.rmoFlight_kept
    | with_reducible apply rmoAtomic_kept
    | intro _
    | split
    | with_reducible apply kept_fold
    | with_reducible apply kept_fold1
    | with_reducible apply kept_foldW
    | with_reducible apply kept_foldW1
    | with_reducible apply kept_foldH
    | with_reducible apply kept_foldH1
    | with_reducible refine kept_fst ?_ (by with_reducible assumption)
    | with_reducible refine kept_fstW ?_ (by with_reducible assumption)
    | with_reducible refine kept_fstH ?_ (by with_reducible assumption)
    | (simp only [↓kept_mk]; with_reducible refine kept_of ?_))

theorem execAtomicUmin_kept {a0 : Nat} {a1 : State} (ha1 : (a1).kept qs u = true) :
    ∀ t, @execAtomicUmin a0 a1 = .next t → t.kept qs u = true := by
  unfold execAtomicUmin
  refine live_kept ha1 ?_
  try dsimp only
  repeat' (first
    | with_reducible assumption
    | with_reducible apply State.rmoFlight_kept
    | with_reducible apply rmoAtomic_kept
    | intro _
    | split
    | with_reducible apply kept_fold
    | with_reducible apply kept_fold1
    | with_reducible apply kept_foldW
    | with_reducible apply kept_foldW1
    | with_reducible apply kept_foldH
    | with_reducible apply kept_foldH1
    | with_reducible refine kept_fst ?_ (by with_reducible assumption)
    | with_reducible refine kept_fstW ?_ (by with_reducible assumption)
    | with_reducible refine kept_fstH ?_ (by with_reducible assumption)
    | (simp only [↓kept_mk]; with_reducible refine kept_of ?_))

theorem execAtomicAnd_kept {a0 : Nat} {a1 : State} (ha1 : (a1).kept qs u = true) :
    ∀ t, @execAtomicAnd a0 a1 = .next t → t.kept qs u = true := by
  unfold execAtomicAnd
  refine live_kept ha1 ?_
  try dsimp only
  repeat' (first
    | with_reducible assumption
    | with_reducible apply State.rmoFlight_kept
    | with_reducible apply rmoAtomic_kept
    | intro _
    | split
    | with_reducible apply kept_fold
    | with_reducible apply kept_fold1
    | with_reducible apply kept_foldW
    | with_reducible apply kept_foldW1
    | with_reducible apply kept_foldH
    | with_reducible apply kept_foldH1
    | with_reducible refine kept_fst ?_ (by with_reducible assumption)
    | with_reducible refine kept_fstW ?_ (by with_reducible assumption)
    | with_reducible refine kept_fstH ?_ (by with_reducible assumption)
    | (simp only [↓kept_mk]; with_reducible refine kept_of ?_))

theorem execAtomicOr_kept {a0 : Nat} {a1 : State} (ha1 : (a1).kept qs u = true) :
    ∀ t, @execAtomicOr a0 a1 = .next t → t.kept qs u = true := by
  unfold execAtomicOr
  refine live_kept ha1 ?_
  try dsimp only
  repeat' (first
    | with_reducible assumption
    | with_reducible apply State.rmoFlight_kept
    | with_reducible apply rmoAtomic_kept
    | intro _
    | split
    | with_reducible apply kept_fold
    | with_reducible apply kept_fold1
    | with_reducible apply kept_foldW
    | with_reducible apply kept_foldW1
    | with_reducible apply kept_foldH
    | with_reducible apply kept_foldH1
    | with_reducible refine kept_fst ?_ (by with_reducible assumption)
    | with_reducible refine kept_fstW ?_ (by with_reducible assumption)
    | with_reducible refine kept_fstH ?_ (by with_reducible assumption)
    | (simp only [↓kept_mk]; with_reducible refine kept_of ?_))

theorem execAtomicXor_kept {a0 : Nat} {a1 : State} (ha1 : (a1).kept qs u = true) :
    ∀ t, @execAtomicXor a0 a1 = .next t → t.kept qs u = true := by
  unfold execAtomicXor
  refine live_kept ha1 ?_
  try dsimp only
  repeat' (first
    | with_reducible assumption
    | with_reducible apply State.rmoFlight_kept
    | with_reducible apply rmoAtomic_kept
    | intro _
    | split
    | with_reducible apply kept_fold
    | with_reducible apply kept_fold1
    | with_reducible apply kept_foldW
    | with_reducible apply kept_foldW1
    | with_reducible apply kept_foldH
    | with_reducible apply kept_foldH1
    | with_reducible refine kept_fst ?_ (by with_reducible assumption)
    | with_reducible refine kept_fstW ?_ (by with_reducible assumption)
    | with_reducible refine kept_fstH ?_ (by with_reducible assumption)
    | (simp only [↓kept_mk]; with_reducible refine kept_of ?_))

theorem execSignal_kept {a0 : Nat} {a1 : State} (ha1 : (a1).kept qs u = true) :
    ∀ t, @execSignal a0 a1 = .next t → t.kept qs u = true := by
  unfold execSignal
  refine live_kept ha1 ?_
  try dsimp only
  repeat' (first
    | with_reducible assumption
    | with_reducible apply State.rmoFlight_kept
    | with_reducible apply rmoSignal_kept
    | intro _
    | split
    | with_reducible apply kept_fold
    | with_reducible apply kept_fold1
    | with_reducible apply kept_foldW
    | with_reducible apply kept_foldW1
    | with_reducible apply kept_foldH
    | with_reducible apply kept_foldH1
    | with_reducible refine kept_fst ?_ (by with_reducible assumption)
    | with_reducible refine kept_fstW ?_ (by with_reducible assumption)
    | with_reducible refine kept_fstH ?_ (by with_reducible assumption)
    | (simp only [↓kept_mk]; with_reducible refine kept_of ?_))

theorem State.landData_kept {a0 : State} {a1 : ROp} {a2 : Frame} (ha0 : (a0).kept qs u = true) :
    (@State.landData a0 a1 a2).1.kept qs u = true := by
  unfold State.landData
  try dsimp only
  repeat' (first
    | with_reducible assumption
    | with_reducible apply State.putAny_kept
    | with_reducible apply State.count_kept
    | intro _
    | split
    | with_reducible apply kept_fold
    | with_reducible apply kept_fold1
    | with_reducible apply kept_foldW
    | with_reducible apply kept_foldW1
    | with_reducible apply kept_foldH
    | with_reducible apply kept_foldH1
    | with_reducible refine kept_fst ?_ (by with_reducible assumption)
    | with_reducible refine kept_fstW ?_ (by with_reducible assumption)
    | with_reducible refine kept_fstH ?_ (by with_reducible assumption)
    | (simp only [↓kept_mk]; with_reducible refine kept_of ?_))

theorem State.deliver_kept {a0 : State} {a1 : Frame} (ha0 : (a0).kept qs u = true) :
    (@State.deliver a0 a1).kept qs u = true := by
  unfold State.deliver
  try dsimp only
  repeat' (first
    | with_reducible assumption
    | with_reducible apply State.landData_kept
    | with_reducible apply State.endOp_kept
    | intro _
    | split
    | with_reducible apply kept_fold
    | with_reducible apply kept_fold1
    | with_reducible apply kept_foldW
    | with_reducible apply kept_foldW1
    | with_reducible apply kept_foldH
    | with_reducible apply kept_foldH1
    | with_reducible refine kept_fst ?_ (by with_reducible assumption)
    | with_reducible refine kept_fstW ?_ (by with_reducible assumption)
    | with_reducible refine kept_fstH ?_ (by with_reducible assumption)
    | (simp only [↓kept_mk]; with_reducible refine kept_of ?_))

theorem execFrameApply_kept {a0 : Fin 8} {a1 : State} (ha1 : (a1).kept qs u = true) :
    ∀ t, @execFrameApply a0 a1 = .next t → t.kept qs u = true := by
  unfold execFrameApply
  refine live_kept ha1 ?_
  try dsimp only
  repeat' (first
    | with_reducible assumption
    | with_reducible apply State.applyReq_kept
    | with_reducible apply State.deliver_kept
    | with_reducible apply State.pauseUpdate_kept
    | intro _
    | split
    | with_reducible apply kept_fold
    | with_reducible apply kept_fold1
    | with_reducible apply kept_foldW
    | with_reducible apply kept_foldW1
    | with_reducible apply kept_foldH
    | with_reducible apply kept_foldH1
    | with_reducible refine kept_fst ?_ (by with_reducible assumption)
    | with_reducible refine kept_fstW ?_ (by with_reducible assumption)
    | with_reducible refine kept_fstH ?_ (by with_reducible assumption)
    | (simp only [↓kept_mk]; with_reducible refine kept_of ?_))

theorem execResponseFrameReceive_kept {a0 : Fin 8} {a1 : WireFrame} {a2 : State} (ha2 : (a2).kept qs u = true) :
    ∀ t, @execResponseFrameReceive a0 a1 a2 = .next t → t.kept qs u = true := by
  unfold execResponseFrameReceive
  refine live_kept ha2 ?_
  try dsimp only
  repeat' (first
    | with_reducible assumption
    | with_reducible apply State.receive_kept
    | with_reducible apply State.inOrder_kept
    | with_reducible apply State.accept_kept
    | with_reducible apply State.deliver_kept
    | with_reducible apply State.count_kept
    | with_reducible apply State.answer_kept
    | intro _
    | split
    | with_reducible apply kept_fold
    | with_reducible apply kept_fold1
    | with_reducible apply kept_foldW
    | with_reducible apply kept_foldW1
    | with_reducible apply kept_foldH
    | with_reducible apply kept_foldH1
    | with_reducible refine kept_fst ?_ (by with_reducible assumption)
    | with_reducible refine kept_fstW ?_ (by with_reducible assumption)
    | with_reducible refine kept_fstH ?_ (by with_reducible assumption)
    | (simp only [↓kept_mk]; with_reducible refine kept_of ?_))

end Sys2Proof.Machine
end

