-- ==== Sys2Proof/Laws/Writes.lean ====
section
/-! SUPPORT. Runs of register writes: a state that differs from another in its registers alone, at addresses of a set. -/

namespace Sys2Proof.Machine

-- One declaration after another: the package as one text then stays within the memory its check allows.
set_option Elab.async false

/-- From u to v, only registers at addresses of A have changed. -/
def Writes (A : Nat → Prop) (u v : State) : Prop :=
  smapWf resetOf v.regs = true ∧ (∀ a, ¬ A a → v.reg a = u.reg a) ∧ v = { u with regs := v.regs }

theorem Writes.refl {A : Nat → Prop} {u : State} (h : smapWf resetOf u.regs = true) : Writes A u u := ⟨h, fun _ _ => rfl, rfl⟩

theorem Writes.trans {A : Nat → Prop} {u v w : State} (h : Writes A u v) (k : Writes A v w) : Writes A u w := by
  refine ⟨k.1, fun a ha => (k.2.1 a ha).trans (h.2.1 a ha), k.2.2.trans ?_⟩
  have := congrArg (fun x : State => ({ x with regs := w.regs } : State)) h.2.2
  exact this

theorem Writes.set {A : Nat → Prop} {u v : State} (a n : Nat) (ha : A a) (h : Writes A u v) : Writes A u (v.setRegN a n) :=
  h.trans ⟨State.setRegN_wf _ _ h.1, fun _ hb => State.reg_setReg_other _ h.1 (fun e => hb (e ▸ ha)), rfl⟩

theorem Writes.modify {A : Nat → Prop} {u v : State} (a : Nat) (f : Nat → Nat) (ha : A a) (h : Writes A u v) :
    Writes A u (v.modReg a f) := h.set a _ ha

theorem Writes.field {A : Nat → Prop} {u v : State} (a hi lo n : Nat) (ha : A a) (h : Writes A u v) :
    Writes A u (v.setField a hi lo n) := h.set a _ ha

theorem Writes.fold {α : Type} {A : Nat → Prop} {u : State} {g : State → α → State} {l : List α} {v : State} (h : Writes A u v)
    (hg : ∀ w x, x ∈ l → Writes A u w → Writes A u (g w x)) : Writes A u (l.foldl g v) := foldl_keeps h hg

theorem Writes.mono {A B : Nat → Prop} {u v : State} (h : Writes A u v) (hs : ∀ a, A a → B a) : Writes B u v :=
  ⟨h.1, fun a ha => h.2.1 a fun e => ha (hs a e), h.2.2⟩

/-- A run of writes to registers apart from each other leaves each with its value. -/
theorem setAll {α : Type} (l : List α) (R V : α → Nat) (hp : l.Pairwise fun x y => R x ≠ R y) : ∀ u : State,
    smapWf resetOf u.regs = true →
    let v := l.foldl (fun (s : State) x => s.setRegN (R x) (V x)) u
    Writes (fun a => ∃ x, x ∈ l ∧ a = R x) u v ∧ ∀ x, x ∈ l → v.regN (R x) = V x % 2 ^ 64 := by
  induction l with
  | nil => exact fun u h => ⟨.refl h, fun _ h => absurd h List.not_mem_nil⟩
  | cons x l ih =>
    intro u h v
    obtain ⟨h1, h2⟩ := List.pairwise_cons.1 hp
    have hw : smapWf resetOf (u.setRegN (R x) (V x)).regs = true := State.setRegN_wf _ _ h
    obtain ⟨i1, i2⟩ := ih h2 _ hw
    have w1 : Writes (fun a => ∃ y, y ∈ x :: l ∧ a = R y) u (u.setRegN (R x) (V x)) := (Writes.refl h).set _ _ ⟨x, List.mem_cons_self, rfl⟩
    refine ⟨w1.trans (i1.mono fun a ⟨y, hy, e⟩ => ⟨y, List.mem_cons_of_mem _ hy, e⟩), fun y hy => ?_⟩
    rcases List.mem_cons.1 hy with rfl | hy
    · have : (l.foldl (fun (s : State) x => s.setRegN (R x) (V x)) (u.setRegN (R y) (V y))).reg (R y) = (u.setRegN (R y) (V y)).reg (R y) :=
        i1.2.1 _ fun ⟨z, hz, e⟩ => h1 z hz e
      have e : (l.foldl (fun (s : State) x => s.setRegN (R x) (V x)) (u.setRegN (R y) (V y))).regN (R y) = V y % 2 ^ 64 := by
        unfold State.regN
        rw [this]
        exact State.regN_setRegN_same _ _ h
      exact e
    · exact i2 y hy

theorem regN_of {t s : State} {a : Nat} (h : t.reg a = s.reg a) : t.regN a = s.regN a := by unfold State.regN; rw [h]

end Sys2Proof.Machine
end

