-- ==== Sys2Proof/Laws/Power.lean ====
section
/-! SUPPORT. Fields of a register beside one that is written, and what the shared operations of power and clocks do: the ramp
shown, the cap shown, the next power-up and the power-off of a domain. -/

namespace Sys2Proof.Machine

-- One declaration after another: the package as one text then stays within the memory its check allows.
set_option Elab.async false

/-- A number with one field replaced agrees with it at every bit outside the field. -/
theorem replace_testBit (r hi lo v m : Nat) (hl : lo ≤ hi) (hm : m < lo ∨ hi < m) :
    (r - place (bits r hi lo) lo + place (v % 2 ^ (hi + 1 - lo)) lo).testBit m = r.testBit m := by
  unfold bits place
  have hL : 0 < 2 ^ lo := Nat.two_pow_pos lo
  have hM : 0 < 2 ^ (hi + 1 - lo) := Nat.two_pow_pos _
  have h1 : r = 2 ^ lo * (r / 2 ^ lo) + r % 2 ^ lo := (Nat.div_add_mod r _).symm
  have h2 : r / 2 ^ lo = 2 ^ (hi + 1 - lo) * (r / 2 ^ lo / 2 ^ (hi + 1 - lo)) + r / 2 ^ lo % 2 ^ (hi + 1 - lo) := (Nat.div_add_mod _ _).symm
  have g1 : r % 2 ^ lo < 2 ^ lo := Nat.mod_lt _ hL
  have g2 : r / 2 ^ lo % 2 ^ (hi + 1 - lo) < 2 ^ (hi + 1 - lo) := Nat.mod_lt _ hM
  have g3 : v % 2 ^ (hi + 1 - lo) < 2 ^ (hi + 1 - lo) := Nat.mod_lt _ hM
  generalize hB : r / 2 ^ lo % 2 ^ (hi + 1 - lo) = B at *
  generalize r / 2 ^ lo / 2 ^ (hi + 1 - lo) = A at *
  generalize r / 2 ^ lo = Q at *
  generalize r % 2 ^ lo = C at *
  generalize v % 2 ^ (hi + 1 - lo) = V at *
  have e : r - B * 2 ^ lo + V * 2 ^ lo = 2 ^ lo * (2 ^ (hi + 1 - lo) * A + V) + C := by
    rw [h1, h2]
    generalize 2 ^ (hi + 1 - lo) * A = X
    generalize 2 ^ lo = L
    rw [Nat.mul_add, Nat.mul_add, Nat.mul_comm B, Nat.mul_comm V]
    omega
  rw [e, h1, h2, Nat.testBit_two_pow_mul_add _ g1, Nat.testBit_two_pow_mul_add _ g1]
  split
  · rfl
  · rw [Nat.testBit_two_pow_mul_add _ g3, Nat.testBit_two_pow_mul_add _ g2, if_neg (by omega), if_neg (by omega)]

/-- A field of a number as bits. -/
theorem bits_testBit (v hi lo j : Nat) : (bits v hi lo).testBit j = (decide (j < hi + 1 - lo) && v.testBit (lo + j)) := by
  unfold bits
  rw [Nat.testBit_mod_two_pow, Nat.testBit_div_two_pow, Nat.add_comm j]

/-- A field beside the one written keeps its value. -/
theorem State.field_setField_apart {s : State} (a : Nat) {hi lo g l : Nat} (v : Nat) (h : smapWf resetOf s.regs = true) (hl : lo ≤ hi)
    (hg : g ≤ 63) (hd : g < lo ∨ hi < l) : (s.setField a hi lo v).field a g l = s.field a g l := by
  refine Nat.eq_of_testBit_eq fun j => ?_
  unfold State.field State.setField
  rw [bits_testBit, bits_testBit, State.regN_modReg_same a _ h, Nat.testBit_mod_two_pow]
  by_cases c : j < g + 1 - l
  · have d : l + j < 64 := by omega
    rw [replace_testBit _ _ _ _ _ hl (by omega), decide_eq_true c, decide_eq_true d]
    rfl
  · rw [decide_eq_false c]; rfl

theorem bit_field (s : State) (a n : Nat) : s.regBit a n = decide (s.field a n n = 1) := by
  unfold State.regBit State.field bit bits
  rw [show n + 1 - n = 1 by omega, Nat.pow_one]

/-- A field beside the bit written keeps its value. -/
theorem State.field_setBit_apart {s : State} (a : Nat) {n g l : Nat} (b : Bool) (h : smapWf resetOf s.regs = true)
    (hg : g ≤ 63) (hd : g < n ∨ n < l) : (s.setBit a n b).field a g l = s.field a g l :=
  State.field_setField_apart a _ h (Nat.le_refl n) hg hd

/-- A bit beside the field written keeps its value. -/
theorem State.regBit_setField_apart {s : State} (a : Nat) {hi lo n : Nat} (v : Nat) (h : smapWf resetOf s.regs = true) (hl : lo ≤ hi)
    (hn : n ≤ 63) (hd : n < lo ∨ hi < n) : (s.setField a hi lo v).regBit a n = s.regBit a n := by
  rw [bit_field, bit_field, State.field_setField_apart a v h hl hn hd]

theorem State.field_setField_elsewhere {s : State} {a c : Nat} (hi lo v g l : Nat) (h : smapWf resetOf s.regs = true) (hc : c ≠ a) :
    (s.setField a hi lo v).field c g l = s.field c g l := field_of (State.reg_setField_other _ _ _ h hc)

/-! Ramps. -/

/-- Whether a ramp may take its next step depends on the droop flag, the frequency, the target, the voltage and the junction. -/
theorem State.mayStep_of {s t : State} {k : Nat} (h1 : t.regBit (PWR_FSTAT k) 14 = s.regBit (PWR_FSTAT k) 14) (h2 : t.mhz k = s.mhz k)
    (h3 : t.reg (PWR_FSET k) = s.reg (PWR_FSET k)) (h4 : t.reg PWR_VTARGET = s.reg PWR_VTARGET) (h5 : t.reg PWR_TJ = s.reg PWR_TJ) :
    t.mayStep k = s.mayStep k := by
  unfold State.mayStep State.nextStep State.vNeeds State.vSensed State.junction State.mhzTarget
  rw [h1, h2, field_of h3, field_of h4, field_of h5]

theorem fstat_apart : ∀ k : Fin 113, PWR_FSET k ≠ PWR_FSTAT k ∧ PWR_VTARGET ≠ PWR_FSTAT k ∧ PWR_TJ ≠ PWR_FSTAT k
    ∧ PWR_STATUS ≠ PWR_FSTAT k := by decide +kernel

/-- Showing a ramp writes bits 12, 13 and 15 of its status register and nothing else. -/
theorem State.showRamp_facts {s : State} (k : Fin 113) (hw : smapWf resetOf s.regs = true) :
    let t := s.showRamp k
    Writes (· = PWR_FSTAT k) s t
    ∧ t.mhz k = s.mhz k
    ∧ t.regBit (PWR_FSTAT k) 12 = decide (s.mhz k ≠ s.mhzTarget k)
    ∧ t.regBit (PWR_FSTAT k) 13 = (s.regBit (PWR_FSTAT k) 13 && decide (s.mhz k ≠ s.mhzTarget k))
    ∧ t.regBit (PWR_FSTAT k) 14 = s.regBit (PWR_FSTAT k) 14
    ∧ t.regBit (PWR_FSTAT k) 15 = (decide (s.mhz k ≠ s.mhzTarget k) && !s.mayStep k)
    ∧ t.field (PWR_FSTAT k) 31 16 = s.field (PWR_FSTAT k) 31 16 := by
  obtain ⟨a1, a2, a3, -⟩ := fstat_apart k
  intro t
  generalize hon : decide (s.mhz k ≠ s.mhzTarget k) = on
  generalize hu : (if on = true then s else s.setBit (PWR_FSTAT k) 13 false) = u
  have hu0 : Writes (· = PWR_FSTAT k) s u := by
    rw [← hu]
    cases on
    · exact (Writes.refl hw).field _ _ _ _ rfl
    · exact .refl hw
  have u12 : u.field (PWR_FSTAT k) 11 0 = s.field (PWR_FSTAT k) 11 0 := by
    rw [← hu]; cases on
    · exact State.field_setBit_apart _ _ hw (by decide) (.inl (by decide))
    · rfl
  have u13 : u.regBit (PWR_FSTAT k) 13 = (s.regBit (PWR_FSTAT k) 13 && on) := by
    rw [← hu]; cases on
    · rw [Bool.and_false]; exact State.regBit_setBit_same _ _ _ hw (by decide)
    · rw [Bool.and_true]; rfl
  have u14 : u.regBit (PWR_FSTAT k) 14 = s.regBit (PWR_FSTAT k) 14 := by
    rw [← hu]; cases on
    · exact State.regBit_setBit_other _ _ hw (by decide) (by decide)
    · rfl
  have u31 : u.field (PWR_FSTAT k) 31 16 = s.field (PWR_FSTAT k) 31 16 := by
    rw [← hu]; cases on
    · exact State.field_setBit_apart _ _ hw (by decide) (.inr (by decide))
    · rfl
  generalize hv : u.setBit (PWR_FSTAT k) 12 on = v
  have hvw : Writes (· = PWR_FSTAT k) s v := by rw [← hv]; exact hu0.field _ _ _ _ rfl
  have v11 : v.field (PWR_FSTAT k) 11 0 = s.field (PWR_FSTAT k) 11 0 := by
    rw [← hv]; exact (State.field_setBit_apart _ _ hu0.1 (by decide) (.inl (by decide))).trans u12
  have v12 : v.regBit (PWR_FSTAT k) 12 = on := by rw [← hv]; exact State.regBit_setBit_same _ _ _ hu0.1 (by decide)
  have v13 : v.regBit (PWR_FSTAT k) 13 = (s.regBit (PWR_FSTAT k) 13 && on) := by
    rw [← hv]; exact (State.regBit_setBit_other _ _ hu0.1 (by decide) (by decide)).trans u13
  have v14 : v.regBit (PWR_FSTAT k) 14 = s.regBit (PWR_FSTAT k) 14 := by
    rw [← hv]; exact (State.regBit_setBit_other _ _ hu0.1 (by decide) (by decide)).trans u14
  have v31 : v.field (PWR_FSTAT k) 31 16 = s.field (PWR_FSTAT k) 31 16 := by
    rw [← hv]; exact (State.field_setBit_apart _ _ hu0.1 (by decide) (.inr (by decide))).trans u31
  have vm : v.mayStep k = s.mayStep k := State.mayStep_of v14 v11 (hvw.2.1 _ a1) (hvw.2.1 _ a2) (hvw.2.1 _ a3)
  have e : t = v.setBit (PWR_FSTAT k) 15 (on && !s.mayStep k) := by
    show s.showRamp k = _
    unfold State.showRamp
    dsimp only
    rw [hon, hu, hv, vm]
  rw [e]
  refine ⟨hvw.field _ _ _ _ rfl, ?_, ?_, ?_, ?_, ?_, ?_⟩
  · exact (State.field_setBit_apart _ _ hvw.1 (by decide) (.inl (by decide))).trans v11
  · exact (State.regBit_setBit_other _ _ hvw.1 (by decide) (by decide)).trans v12
  · exact (State.regBit_setBit_other _ _ hvw.1 (by decide) (by decide)).trans v13
  · exact (State.regBit_setBit_other _ _ hvw.1 (by decide) (by decide)).trans v14
  · exact State.regBit_setBit_same _ _ _ hvw.1 (by decide)
  · exact (State.field_setBit_apart _ _ hvw.1 (by decide) (.inr (by decide))).trans v31

/-! The cap. -/

theorem bits_lt (v hi lo : Nat) : bits v hi lo < 2 ^ (hi + 1 - lo) := Nat.mod_lt _ (Nat.two_pow_pos _)

/-- Showing the cap writes PWR_EFF_CAP[10:0] and PWR_STATUS[7] and nothing else. -/
theorem State.showCap_facts {s : State} (hw : smapWf resetOf s.regs = true) :
    let t := s.showCap
    Writes (fun a => a = PWR_EFF_CAP ∨ a = PWR_STATUS) s t
    ∧ t.field PWR_EFF_CAP 10 0 = s.effCap
    ∧ t.thermalCap = s.thermalCap
    ∧ t.regBit PWR_STATUS 7 = decide (s.thermalCap < s.field PWR_CAP 10 0)
    ∧ (∀ n, n ≤ 63 → n ≠ 7 → t.regBit PWR_STATUS n = s.regBit PWR_STATUS n)
    ∧ t.field PWR_STATUS 5 0 = s.field PWR_STATUS 5 0 := by
  intro t
  have ne : PWR_EFF_CAP ≠ PWR_STATUS := by decide
  have nc : PWR_CAP ≠ PWR_EFF_CAP := by decide
  generalize hu : s.setField PWR_EFF_CAP 10 0 s.effCap = u
  have uw : Writes (fun a => a = PWR_EFF_CAP ∨ a = PWR_STATUS) s u := by rw [← hu]; exact (Writes.refl hw).field _ _ _ _ (.inl rfl)
  have ut : u.thermalCap = s.thermalCap := by
    rw [← hu]; exact State.field_setField_apart _ _ hw (by decide) (by decide) (.inr (by decide))
  have uc : u.field PWR_CAP 10 0 = s.field PWR_CAP 10 0 := by rw [← hu]; exact State.field_setField_elsewhere _ _ _ _ _ hw nc
  have ue : u.field PWR_EFF_CAP 10 0 = s.effCap := by
    rw [← hu, State.field_setField_same _ _ _ _ hw (by decide) (by decide)]
    refine Nat.mod_eq_of_lt (Nat.lt_of_le_of_lt (Nat.le_trans (Nat.min_le_left _ _) (Nat.min_le_left _ _)) (bits_lt _ 10 0))
  have us : ∀ n, u.regBit PWR_STATUS n = s.regBit PWR_STATUS n := fun n => by
    rw [← hu]; exact regBit_of (State.reg_setField_other _ _ _ hw ne.symm)
  have us5 : u.field PWR_STATUS 5 0 = s.field PWR_STATUS 5 0 := by rw [← hu]; exact State.field_setField_elsewhere _ _ _ _ _ hw ne.symm
  have e : t = u.setBit PWR_STATUS 7 (decide (s.thermalCap < s.field PWR_CAP 10 0)) := by
    show s.showCap = _
    unfold State.showCap
    dsimp only
    rw [hu, ut, uc]
  rw [e]
  refine ⟨uw.field _ _ _ _ (.inr rfl), ?_, ?_, ?_, ?_, ?_⟩
  · exact (State.field_setField_elsewhere _ _ _ _ _ uw.1 ne).trans ue
  · exact (State.field_setField_elsewhere _ _ _ _ _ uw.1 ne).trans ut
  · exact State.regBit_setBit_same _ _ _ uw.1 (by decide)
  · exact fun n hn h7 => (State.regBit_setBit_other _ _ uw.1 h7 hn).trans (us n)
  · exact (State.field_setBit_apart _ _ uw.1 (by decide) (.inl (by decide))).trans us5

/-! Domains. -/

/-- The next power-up: none beside one under way or with none waiting, else one of those that wait. -/
theorem State.domNext_facts (s : State) :
    (s.pw.domBusy ≠ none → s.domNext = s)
    ∧ ((∀ d, d < 215 → ¬ (s.regBit (PWR_DOM d) 2 = true ∧ s.regBit (PWR_DOM d) 1 = false)) → s.domNext = s)
    ∧ ((∃ d, d < 215 ∧ s.regBit (PWR_DOM d) 2 = true ∧ s.regBit (PWR_DOM d) 1 = false) → s.pw.domBusy = none →
        ∃ d, d < 215 ∧ s.regBit (PWR_DOM d) 2 = true ∧ s.regBit (PWR_DOM d) 1 = false
          ∧ s.domNext = { s.tick with pw := { s.pw with domBusy := some d } }) := by
  have mem : ∀ d, d ∈ (List.range 215).filter (fun d => s.regBit (PWR_DOM d) 2 && !s.regBit (PWR_DOM d) 1) ↔
      d < 215 ∧ s.regBit (PWR_DOM d) 2 = true ∧ s.regBit (PWR_DOM d) 1 = false := fun d => by
    rw [List.mem_filter, List.mem_range, Bool.and_eq_true, Bool.not_eq_true']
  unfold State.domNext
  generalize (List.range 215).filter (fun d => s.regBit (PWR_DOM d) 2 && !s.regBit (PWR_DOM d) 1) = l at mem
  refine ⟨fun h => ?_, fun h => ?_, fun ⟨d, hd⟩ h => ?_⟩
  · cases e : s.pw.domBusy with
    | none => exact absurd e h
    | some _ => rfl
  · have : l = [] := List.eq_nil_iff_forall_not_mem.2 fun d hd => h d ((mem d).1 hd).1 ((mem d).1 hd).2
    rw [this]
    cases s.pw.domBusy <;> rfl
  · have hl : l ≠ [] := List.ne_nil_of_mem ((mem d).2 hd)
    have hn : Config.freeNat s.free % l.length < l.length := Nat.mod_lt _ (List.length_pos_iff.2 hl)
    refine ⟨l[Config.freeNat s.free % l.length], ((mem _).1 (List.getElem_mem hn)).1, ((mem _).1 (List.getElem_mem hn)).2.1, ((mem _).1 (List.getElem_mem hn)).2.2, ?_⟩
    rw [h]
    dsimp only
    rw [List.getElem?_eq_getElem hn]

/-- When a domain may be switched off (R405, Table 16.2). -/
theorem State.maySwitchOff_iff (s : State) {d : Nat} (hd : d < 215) :
    s.maySwitchOff d = true ↔
      (d < 92 ∧ (∃ b i, unitOfDomain d = some (b, i) ∧ blkIdleBit (s.blkState b i) = true))
      ∨ (92 ≤ d ∧ d < 156 ∧ ∀ i, i < 17 → 17 * (d - 92) + i ∈ s.bankOut)
      ∨ (((172 ≤ d ∧ d < 196) ∨ 203 ≤ d) ∧ s.domUsed d = false)
      ∨ (197 ≤ d ∧ d < 202 ∧ s.inService .kc (d - 197) = false ∧ blkIdleBit (s.blkState .kc (d - 197)) = true) := by
  unfold State.maySwitchOff
  by_cases c1 : d < 92
  · rw [if_pos c1]
    cases e : unitOfDomain d with
    | none => exact ⟨(fun h => by cases h), (fun h => by
        rcases h with ⟨-, b, i, h, -⟩ | h | h | h
        · cases h
        all_goals omega)⟩
    | some p =>
      obtain ⟨b, i⟩ := p
      refine ⟨fun h => .inl ⟨c1, b, i, rfl, h⟩, fun h => ?_⟩
      rcases h with ⟨-, b', i', h, g⟩ | h | h | h
      · cases h; exact g
      all_goals omega
  · rw [if_neg c1]
    by_cases c2 : d < 156
    · rw [if_pos c2, List.all_eq_true]
      refine ⟨fun h => .inr (.inl ⟨by omega, c2, fun i hi => by simpa using h i (List.mem_range.2 hi)⟩), fun h => ?_⟩
      rcases h with h | ⟨-, -, h⟩ | h | h
      · omega
      · exact fun i hi => by simpa using h i (List.mem_range.1 hi)
      all_goals omega
    · rw [if_neg c2]
      by_cases c3 : d < 172
      · rw [if_pos c3]; exact ⟨(fun h => by cases h), fun h => by omega⟩
      · rw [if_neg c3]
        by_cases c4 : d = 196
        · rw [if_pos c4]; exact ⟨(fun h => by cases h), fun h => by omega⟩
        · rw [if_neg c4]
          by_cases c5 : d < 197
          · rw [if_pos c5, Bool.not_eq_true']
            exact ⟨fun h => .inr (.inr (.inl ⟨.inl ⟨by omega, by omega⟩, h⟩)), fun h => by
              rcases h with h | h | h | h
              · omega
              · omega
              · exact h.2
              · omega⟩
          · rw [if_neg c5]
            by_cases c6 : d < 202
            · rw [if_pos c6, Bool.and_eq_true, Bool.not_eq_true']
              exact ⟨fun h => .inr (.inr (.inr ⟨by omega, c6, h.1, h.2⟩)), fun h => by
                rcases h with h | h | h | h
                · omega
                · omega
                · omega
                · exact h.2.2⟩
            · rw [if_neg c6]
              by_cases c7 : d = 202
              · rw [if_pos c7]; exact ⟨(fun h => by cases h), fun h => by omega⟩
              · rw [if_neg c7, Bool.not_eq_true']
                exact ⟨fun h => .inr (.inr (.inl ⟨.inr (by omega), h⟩)), fun h => by
                  rcases h with h | h | h | h
                  · omega
                  · omega
                  · exact h.2
                  · omega⟩

end Sys2Proof.Machine
end

