-- ==== Sys2Proof/Laws/Quoin.lean ====
section
/-! SUPPORT. Quoin's service: when its next request is one a command serves, what serving it comes to, and which request is
next. -/

namespace Sys2Proof.Machine

-- One declaration after another: the package as one text then stays within the memory its check allows.
set_option Elab.async false

/-- Answer a served request, and then those behind it that no command serves. -/
def State.qnFinish (s : State) (r : QReq) (res : Nat) (resp : Bytes) : State :=
  State.qnSkimFuel (s.qnAnswer r res resp).qnReq.length (s.qnAnswer r res resp)

/-- Where no request is next that the command serves, nothing happens. -/
theorem State.qnServe_other {s : State} {code : Nat} {want : QReq → Bool} {act : State → QReq → QnOut}
    (h : ∀ r, s.qnNext = some r → ¬ (r.code = code ∧ want r = true)) : s.qnServe code want act = s := by
  unfold State.qnServe
  cases hn : s.qnNext with
  | none => rfl
  | some r => exact if_neg (h r hn)

/-- A request from a source that may not make it is refused. -/
theorem State.qnServe_denied {s : State} {code : Nat} {want : QReq → Bool} {act : State → QReq → QnOut} {r : QReq}
    (hn : s.qnNext = some r) (hc : r.code = code) (hw : want r = true) (hp : s.qnPermits code r.src = false) :
    s.qnServe code want act = (s.qnTake r).qnFinish r 2 [] := by
  have ht : (s.qnTake r).qnPermits code r.src = false := hp
  unfold State.qnServe
  rw [hn]
  dsimp only
  rw [if_pos ⟨hc, hw⟩, ht]
  rfl

/-- A request that may be made is answered with what the command gives. -/
theorem State.qnServe_served {s : State} {code : Nat} {want : QReq → Bool} {act : State → QReq → QnOut} {r : QReq}
    (hn : s.qnNext = some r) (hc : r.code = code) (hw : want r = true) (hp : s.qnPermits code r.src = true) :
    s.qnServe code want act
      = (act (s.qnTake r) r).1.qnFinish r (act (s.qnTake r) r).2.1 (act (s.qnTake r) r).2.2 := by
  have ht : (s.qnTake r).qnPermits code r.src = true := hp
  unfold State.qnServe
  rw [hn]
  dsimp only
  rw [if_pos ⟨hc, hw⟩, ht]
  rfl

theorem State.qnCommand_other {s : State} {code n : Nat} {act : State → Bytes → QnOut}
    (h : ∀ r, s.qnNext = some r → r.code ≠ code) : s.qnCommand code n act = s :=
  State.qnServe_other fun r hr e => h r hr e.1

theorem State.qnCommand_denied {s : State} {code n : Nat} {act : State → Bytes → QnOut} {r : QReq}
    (hn : s.qnNext = some r) (hc : r.code = code) (hp : s.qnPermits code r.src = false) :
    s.qnCommand code n act = (s.qnTake r).qnFinish r 2 [] := State.qnServe_denied hn hc rfl hp

theorem State.qnCommand_short {s : State} {code n : Nat} {act : State → Bytes → QnOut} {r : QReq}
    (hn : s.qnNext = some r) (hc : r.code = code) (hp : s.qnPermits code r.src = true) (hl : r.payload.length < n) :
    s.qnCommand code n act = (s.qnTake r).qnFinish r 3 [] := by
  unfold State.qnCommand
  rw [State.qnServe_served hn hc rfl hp, if_pos hl]
  rfl

theorem State.qnCommand_served {s : State} {code n : Nat} {act : State → Bytes → QnOut} {r : QReq}
    (hn : s.qnNext = some r) (hc : r.code = code) (hp : s.qnPermits code r.src = true) (hl : n ≤ r.payload.length) :
    s.qnCommand code n act = (act (s.qnTake r) r.payload).1.qnFinish r (act (s.qnTake r) r.payload).2.1
      (act (s.qnTake r) r.payload).2.2 := by
  unfold State.qnCommand
  rw [State.qnServe_served hn hc rfl hp, if_neg (by omega)]

/-- What a request must be to serve one part of IMAGE_UPDATE. -/
def ImagePart (s : State) (part : Nat) (r : QReq) : Prop :=
  s.qnNext = some r ∧ r.code = 0x11 ∧ r.payload.head?.map BitVec.toNat = some part

theorem State.imagePart_other {s : State} {part n : Nat} {act : State → Bytes → QnOut} (h : ∀ r, ¬ ImagePart s part r) :
    s.imagePart part n act = s :=
  State.qnServe_other fun r hr e => h r ⟨hr, e.1, of_decide_eq_true e.2⟩

theorem State.imagePart_denied {s : State} {part n : Nat} {act : State → Bytes → QnOut} {r : QReq} (h : ImagePart s part r)
    (hp : s.qnPermits 0x11 r.src = false) : s.imagePart part n act = (s.qnTake r).qnFinish r 2 [] :=
  State.qnServe_denied h.1 h.2.1 (decide_eq_true h.2.2) hp

theorem State.imagePart_short {s : State} {part n : Nat} {act : State → Bytes → QnOut} {r : QReq} (h : ImagePart s part r)
    (hp : s.qnPermits 0x11 r.src = true) (hl : r.payload.length < n ∨ pfield r.payload 1 3 ≠ 0) :
    s.imagePart part n act = (s.qnTake r).qnFinish r 3 [] := by
  unfold State.imagePart
  rw [State.qnServe_served h.1 h.2.1 (decide_eq_true h.2.2) hp, if_pos hl]
  rfl

theorem State.imagePart_served {s : State} {part n : Nat} {act : State → Bytes → QnOut} {r : QReq} (h : ImagePart s part r)
    (hp : s.qnPermits 0x11 r.src = true) (hl : n ≤ r.payload.length) (hz : pfield r.payload 1 3 = 0) :
    s.imagePart part n act = (act (s.qnTake r) r.payload).1.qnFinish r (act (s.qnTake r) r.payload).2.1
      (act (s.qnTake r) r.payload).2.2 := by
  unfold State.imagePart
  rw [State.qnServe_served h.1 h.2.1 (decide_eq_true h.2.2) hp, if_neg (by rintro (a | a); omega; exact a hz)]

/-- A mailbox's go register is open to its own world. -/
theorem State.allow_mailbox (s : State) (sec : Bool) (act : State → State) : s.allow sec (mbCtl sec) act = act s := by
  cases sec
  · have hp : pageOf (mbCtl false) = some (.qn, 0, 0) := by decide +kernel
    have hr : ((rowAt .qn 0 0 (mbCtl false % 0x1000)).map fun x => decide (x.1.sec = .secure)) = some false := by decide +kernel
    unfold State.allow
    rw [hp]
    dsimp only
    rw [if_neg (by decide +kernel)]
    cases hx : rowAt .qn 0 0 (mbCtl false % 0x1000) with
    | none => rw [hx] at hr; cases hr
    | some x =>
      rw [hx] at hr
      have hs : decide (x.1.sec = .secure) = false := Option.some.inj hr
      refine if_neg ?_
      unfold State.closed
      rw [hs]
      simp
  · exact State.allow_secure (by decide +kernel)

/-- Whether a request stands first: none before it is from its source or names its slot. -/
def Foremost (before : List QReq) (r : QReq) : Prop := ∀ q, q ∈ before → q.src ≠ r.src ∧ (r.slot = none ∨ q.slot ≠ r.slot)

theorem mem_qnHeads {l : List QReq} : ∀ {before : List QReq} {r : QReq}, r ∈ qnHeads before l ↔
    ∃ pre rest, l = pre ++ r :: rest ∧ Foremost (before ++ pre) r := by
  induction l with
  | nil =>
    intro before r
    refine ⟨fun h => absurd h List.not_mem_nil, ?_⟩
    rintro ⟨pre, rest, e, -⟩
    cases pre <;> cases e
  | cons a l ih =>
    intro before r
    have hf : (before.all fun q => q.src != a.src && (a.slot.isNone || q.slot != a.slot)) = true ↔ Foremost before a := by
      simp [Foremost]
    have hu : r ∈ qnHeads before (a :: l) ↔ (Foremost before a ∧ r = a) ∨ r ∈ qnHeads (before ++ [a]) l := by
      show r ∈ (if (before.all fun q => q.src != a.src && (a.slot.isNone || q.slot != a.slot)) = true then [a] else [])
        ++ qnHeads (before ++ [a]) l ↔ _
      rw [List.mem_append]
      by_cases h : Foremost before a
      · rw [if_pos (hf.2 h), List.mem_singleton]
        simp [h]
      · rw [if_neg (fun e => h (hf.1 e))]
        simp [h]
    rw [hu, ih]
    constructor
    · rintro (⟨h, rfl⟩ | ⟨pre, rest, rfl, h⟩)
      · exact ⟨[], l, rfl, by rw [List.append_nil]; exact h⟩
      · refine ⟨a :: pre, rest, rfl, ?_⟩
        rw [List.append_assoc] at h
        exact h
    · rintro ⟨pre, rest, e, h⟩
      cases pre with
      | nil =>
        cases e
        rw [List.append_nil] at h
        exact .inl ⟨h, rfl⟩
      | cons b pre =>
        cases e
        refine .inr ⟨pre, rest, rfl, ?_⟩
        rw [List.append_assoc]
        exact h

/-- Turns until Quoin's pointer reaches a source. -/
def State.qnTurn (s : State) (r : QReq) : Nat := (r.src + 3 - s.qnPtr) % 3

theorem qnPick_facts (s : State) (l : List QReq) : ∀ acc : Option QReq,
    let res := l.foldl (fun acc r => match acc with
      | none => some r
      | some a => if (r.src + 3 - s.qnPtr) % 3 < (a.src + 3 - s.qnPtr) % 3 then some r else some a) acc
    (res = none → acc = none ∧ l = []) ∧ ∀ r, res = some r → (acc = some r ∨ r ∈ l)
      ∧ (∀ a, acc = some a → s.qnTurn r ≤ s.qnTurn a) ∧ ∀ q ∈ l, s.qnTurn r ≤ s.qnTurn q := by
  induction l with
  | nil =>
    intro acc
    exact ⟨fun h => ⟨h, rfl⟩, fun r h => ⟨.inl h, fun a ha => by rw [show acc = some r from h] at ha; cases ha; exact Nat.le_refl _,
      fun _ h => absurd h List.not_mem_nil⟩⟩
  | cons b l ih =>
    intro acc
    cases acc with
    | none =>
      obtain ⟨i1, i2⟩ := ih (some b)
      refine ⟨fun h => (by cases (i1 h).1), fun r h => ?_⟩
      obtain ⟨j1, j2, j3⟩ := i2 r h
      refine ⟨.inr ?_, fun _ h => (by cases h), fun q hq => ?_⟩
      · rcases j1 with e | e
        · cases e; exact List.mem_cons_self
        · exact List.mem_cons_of_mem _ e
      · rcases List.mem_cons.1 hq with rfl | hq
        · exact j2 _ rfl
        · exact j3 q hq
    | some a =>
      by_cases hlt : s.qnTurn b < s.qnTurn a
      · have e : (if (b.src + 3 - s.qnPtr) % 3 < (a.src + 3 - s.qnPtr) % 3 then some b else some a) = some b := if_pos hlt
        obtain ⟨i1, i2⟩ := ih (some b)
        rw [← e] at i1 i2
        refine ⟨fun h => (by have := (i1 h).1; rw [e] at this; cases this), fun r h => ?_⟩
        obtain ⟨j1, j2, j3⟩ := i2 r h
        rw [e] at j1 j2
        refine ⟨.inr ?_, fun x hx => ?_, fun q hq => ?_⟩
        · rcases j1 with e | e
          · cases e; exact List.mem_cons_self
          · exact List.mem_cons_of_mem _ e
        · cases hx; exact Nat.le_trans (j2 _ rfl) (Nat.le_of_lt hlt)
        · rcases List.mem_cons.1 hq with rfl | hq
          · exact j2 _ rfl
          · exact j3 q hq
      · have e : (if (b.src + 3 - s.qnPtr) % 3 < (a.src + 3 - s.qnPtr) % 3 then some b else some a) = some a := if_neg hlt
        obtain ⟨i1, i2⟩ := ih (some a)
        rw [← e] at i1 i2
        refine ⟨fun h => (by have := (i1 h).1; rw [e] at this; cases this), fun r h => ?_⟩
        obtain ⟨j1, j2, j3⟩ := i2 r h
        rw [e] at j1 j2
        refine ⟨?_, fun x hx => ?_, fun q hq => ?_⟩
        · rcases j1 with e | e
          · exact .inl e
          · exact .inr (List.mem_cons_of_mem _ e)
        · exact j2 _ hx
        · rcases List.mem_cons.1 hq with rfl | hq
          · exact Nat.le_trans (j2 _ rfl) (Nat.le_of_not_lt hlt)
          · exact j3 q hq

end Sys2Proof.Machine
end

