-- ==== Sys2Proof/Laws/Record.lean ====
section
/-! SUPPORT. The writing of a configuration record: what one erase and one program of a free array leave, and the bytes a copy
holds once it is written. -/

namespace Sys2Proof.Machine

-- One declaration after another: the package as one text then stays within the memory its check allows.
set_option Elab.async false

/-- Registers and array in canonical form, and no operation in either bank. -/
def Calm (s : State) : Prop :=
  smapWf resetOf s.regs = true ∧ Memory.wf erasedByte s.plArray = true
    ∧ ∀ b, b = 0 ∨ b = 1 → (s.plBank b).op = none ∧ (s.plBank b).held = none

/-- What an ended operation of a free array leaves: the registers it may change are its bank's status, PL_STATUS and a bit of PL_INDET. -/
def Rest (s : State) (b : Nat) (t : State) : Prop :=
  Calm t ∧ ∀ r, r ≠ plStat b → r ≠ PL_STATUS → (∀ n, n < 16 → r ≠ PL_INDET n) → t.reg r = s.reg r

theorem ask_calm {s : State} {b : Nat} (hb : b = 0 ∨ b = 1) (hc : Calm s) (o : PlOp)
    (hl : s.plLocked o.block = false) (hi : o.erase = true ∨ s.plIndet o.block = false) :
    let t := s.plAsk b o
    smapWf resetOf t.regs = true ∧ t.plBank b = { seq := .read, op := some o, held := none } ∧ t.plBank (1 - b) = s.plBank (1 - b)
      ∧ t.plArray = s.plArray ∧ ∀ r, r ≠ plStat b → t.reg r = s.reg r := by
  obtain ⟨hw, ha, hn⟩ := hc
  intro t
  have ht : t = s.plAsk b o := rfl
  obtain ⟨f1, f2, f3, f4, f5, -⟩ := setPl_facts s hb { s.plBank b with seq := .read } hw
  unfold State.plAsk at ht
  generalize s.setPlBank b { s.plBank b with seq := .read } = u at f1 f2 f3 f4 f5 ht
  have harr : u.plArray = s.plArray := (congrArg State.plArray f5 :)
  have hno : ∀ i, i = 0 ∨ i = 1 → (u.plBank i).op = none ∧ (u.plBank i).held = none := by
    intro i hi
    by_cases e : i = b
    · rw [e, f3]; exact hn b hb
    · rw [show i = 1 - b by omega, f4]; exact hn (1 - b) (by omega)
  have hops : ([0, 1].flatMap fun i => (u.plBank i).op.toList ++ (u.plBank i).held.toList) = [] := by
    obtain ⟨a0, c0⟩ := hno 0 (.inl rfl)
    obtain ⟨a1, c1⟩ := hno 1 (.inr rfl)
    simp [a0, c0, a1, c1]
  have hlu : u.plLocked o.block = false := by
    unfold State.plLocked State.regBit State.regN at *
    rw [f2 _ (stat_low _).1]; exact hl
  have hiu : (!o.erase && u.plIndet o.block) = false := by
    rcases hi with e | e
    · rw [e]; rfl
    · have : u.plIndet o.block = false := by
        unfold State.plIndet State.regBit State.regN at *
        rw [f2 _ (stat_low _).2]; exact e
      rw [this, Bool.and_false]
  dsimp only at ht
  rw [hops, hlu, hiu] at ht
  have ht : t = u.plStart b o := ht
  rw [ht]
  unfold State.plStart
  have hm : ∀ m : State, m.regs = u.regs → m.plArray = u.plArray → m.plBank0 = u.plBank0 → m.plBank1 = u.plBank1 →
      let t := (m.plInvalidate b).setPlBank b { seq := .read, op := some o, held := (u.plBank b).op.or (u.plBank b).held }
      smapWf resetOf t.regs = true ∧ t.plBank b = { seq := .read, op := some o, held := none } ∧ t.plBank (1 - b) = s.plBank (1 - b)
        ∧ t.plArray = s.plArray ∧ ∀ r, r ≠ plStat b → t.reg r = s.reg r := by
    intro m m1 m2 m3 m4 t
    obtain ⟨g1, g2, g3, g4, g5, -⟩ := setPl_facts (m.plInvalidate b) hb { seq := .read, op := some o, held := (u.plBank b).op.or (u.plBank b).held }
      (show smapWf resetOf m.regs = true by rw [m1]; exact f1)
    refine ⟨g1, ?_, ?_, ?_, fun r hr => ?_⟩
    · rw [(hno b hb).1, (hno b hb).2] at g3
      show State.plBank (State.setPlBank _ b { seq := .read, op := some o, held := (u.plBank b).op.or (u.plBank b).held }) b = _
      rw [(hno b hb).1, (hno b hb).2]
      exact g3
    · refine g4.trans (Eq.trans ?_ f4)
      show (if 1 - b = 0 then m.plBank0 else m.plBank1) = if 1 - b = 0 then u.plBank0 else u.plBank1
      rw [m3, m4]
    · exact ((congrArg State.plArray g5 :)).trans (m2.trans harr)
    · refine (g2 r hr).trans (Eq.trans ?_ (f2 r hr))
      show smapGet resetOf m.regs r = smapGet resetOf u.regs r
      rw [m1]
  by_cases he : o.erase = true
  · rw [he]
    exact hm { u.plCount o.block with plMark := smapInsert (u.plCount o.block).plMark o.block (!true) } rfl rfl rfl rfl
  · rw [eq_false_of_ne_true he]
    exact hm { u with plMark := smapInsert u.plMark o.block (!false) } rfl rfl rfl rfl

/-- The end of the only operation, which no fetch waits for. -/
theorem end_calm {t : State} {b : Nat} {o : PlOp} (hb : b = 0 ∨ b = 1) (hw : smapWf resetOf t.regs = true) (ha : Memory.wf erasedByte t.plArray = true)
    (hk : t.plBank b = { seq := .read, op := some o, held := none }) (ho : o.fetch = none)
    (hn : (t.plBank (1 - b)).op = none ∧ (t.plBank (1 - b)).held = none) :
    Calm (t.plEnd b) ∧ (t.plEnd b).plArray = t.plArray ∧ ∀ r, r ≠ plStat b → (t.plEnd b).reg r = t.reg r := by
  have he : t.plEnd b = t.setPlBank b { t.plBank b with op := none, held := none } := by
    rw [plEnd_eq, hk]
    dsimp only [Option.bind]
    rw [ho]
    refine (plEnd_facts t hb hw).1 ?_ |>.trans ?_
    · rw [hk]
    · rw [hk]
  rw [he]
  obtain ⟨g1, g2, g3, g4, g5, -⟩ := setPl_facts t hb { t.plBank b with op := none, held := none } hw
  have e : (t.setPlBank b { t.plBank b with op := none, held := none }).plArray = t.plArray := (congrArg State.plArray g5 :)
  refine ⟨⟨g1, by rw [e]; exact ha, fun i hi => ?_⟩, e, g2⟩
  by_cases h : i = b
  · rw [h, g3]; exact ⟨rfl, rfl⟩
  · rw [show i = 1 - b by omega, g4]; exact hn

theorem status_apart (b n : Nat) : PL_STATUS ≠ PL_WP n ∧ (∀ m, PL_INDET m ≠ PL_WP n ∨ m = n + 16 ∨ 16 ≤ n) ∧ PL_STATUS ≠ PL_INDET n
    ∧ PL_STATUS ≠ plStat b := by
  have e : pageAddr .pl 0 0 = 0xE0000 := by decide
  unfold plStat PL_WP PL_INDET PL_STATUS PL_BANK0_STAT PL_BANK1_STAT
  rw [e]
  refine ⟨by omega, fun m => by omega, by omega, ?_⟩
  split <;> omega

/-- One erase of a free array whose block is open. -/
theorem now_erase {s : State} {blk : Nat} (hb : blk < 512) (hc : Calm s) (hl : s.plLocked blk = false) :
    let t := s.plNow (plOpOf true (blk * plBlock) [] false)
    Rest s (blk / 256) t ∧ t.plArray = memClear s.plArray (blk * plBlock) plBlock ∧ t.plIndet blk = false := by
  have hbk : (plOpOf true (blk * plBlock) [] false).block = blk := Nat.mul_div_cancel _ (by decide : 0 < plBlock)
  have hbb : blk / 256 = 0 ∨ blk / 256 = 1 := by omega
  obtain ⟨h1, h2, h3, h4, h5⟩ := ask_calm hbb hc (plOpOf true (blk * plBlock) [] false) (by rw [hbk]; exact hl) (.inl rfl)
  intro t
  have ht : t = s.plNow (plOpOf true (blk * plBlock) [] false) := rfl
  unfold State.plNow at ht
  rw [hbk] at ht
  dsimp only at ht
  generalize s.plAsk (blk / 256) (plOpOf true (blk * plBlock) [] false) = u at h1 h2 h3 h4 h5 ht
  have ht : t = if (u.plBank (blk / 256)).op.isNone then u else u.plEraseEnd (blk / 256) (plOpOf true (blk * plBlock) [] false) := ht
  rw [h2] at ht
  have ht : t = (u.plErased (plOpOf true (blk * plBlock) [] false).block).plEnd (blk / 256) := ht
  rw [hbk] at ht
  have w1 : smapWf resetOf ({ u with plArray := memClear u.plArray (blk * plBlock) plBlock, plMark := smapErase u.plMark blk } : State).regs = true := h1
  have w2 := State.setBit_wf (PL_INDET (blk / 32)) (blk % 32) false w1
  have w3 : smapWf resetOf (u.plErased blk).regs = true := State.setField_wf _ _ _ _ w2
  have ea : (u.plErased blk).plArray = memClear u.plArray (blk * plBlock) plBlock := rfl
  have ek : ∀ i, (u.plErased blk).plBank i = u.plBank i := fun i => rfl
  have hn := hc.2.2 (1 - blk / 256) (by omega)
  obtain ⟨g1, g2, g3⟩ := end_calm (o := plOpOf true (blk * plBlock) [] false) hbb w3 (by rw [ea, h4]; exact wf_memClear _ _ hc.2.1)
    (by rw [ek]; exact h2) rfl (by rw [ek, h3]; exact hn)
  rw [ht]
  refine ⟨⟨g1, fun r r1 r2 r3 => ?_⟩, by rw [g2, ea, h4], ?_⟩
  · rw [g3 r r1, ← h5 r r1]
    exact (State.reg_setField_other _ _ _ w2 r2).trans (State.reg_setBit_other _ _ w1 (r3 _ (by omega)))
  · unfold State.plIndet State.regBit State.regN
    rw [g3 _ (stat_low _).2]
    have e : (u.plErased blk).reg (PL_INDET (blk / 32)) = (State.setBit { u with plArray := memClear u.plArray (blk * plBlock) plBlock, plMark := smapErase u.plMark blk } (PL_INDET (blk / 32)) (blk % 32) false).reg (PL_INDET (blk / 32)) :=
      State.reg_setField_other _ _ _ w2 (fun e => (status_apart 0 (blk / 32)).2.2.1 e.symm)
    rw [e]
    exact State.regBit_setBit_same _ _ _ w1 (by omega)

/-- One program of a line of a free array whose block is open and erased. -/
theorem now_program {s : State} {blk i : Nat} (hb : blk < 512) (hi : i < 4096) (l : Bytes) (hll : l.length = 32) (hc : Calm s) (hl : s.plLocked blk = false)
    (hx : s.plIndet blk = false) (hff : ∀ j, j < 32 → memByte erasedByte s.plArray (blk * plBlock + 32 * i + j) = 0xFF) :
    let t := s.plNow (plOpOf false (blk * plBlock + 32 * i) l false)
    Rest s (blk / 256) t ∧ t.plArray = memWrite erasedByte s.plArray (blk * plBlock + 32 * i) l ∧ t.plIndet blk = false := by
  have hbk : (plOpOf false (blk * plBlock + 32 * i) l false).block = blk := by
    show (blk * plBlock + 32 * i) / plBlock = blk
    unfold plBlock; omega
  have hln : 32 * (plOpOf false (blk * plBlock + 32 * i) l false).line = blk * plBlock + 32 * i := by
    show 32 * ((blk * plBlock + 32 * i) / 32) = _
    unfold plBlock; omega
  have hbb : blk / 256 = 0 ∨ blk / 256 = 1 := by omega
  obtain ⟨h1, h2, h3, h4, h5⟩ := ask_calm hbb hc (plOpOf false (blk * plBlock + 32 * i) l false) (by rw [hbk]; exact hl) (.inr (by rw [hbk]; exact hx))
  intro t
  have ht : t = s.plNow (plOpOf false (blk * plBlock + 32 * i) l false) := rfl
  unfold State.plNow at ht
  rw [hbk] at ht
  dsimp only at ht
  have hd : (plOpOf false (blk * plBlock + 32 * i) l false).data = l := rfl
  have hf : (plOpOf false (blk * plBlock + 32 * i) l false).fetch = none := rfl
  have he : (plOpOf false (blk * plBlock + 32 * i) l false).erase = false := rfl
  generalize plOpOf false (blk * plBlock + 32 * i) l false = o at *
  generalize s.plAsk (blk / 256) o = u at h1 h2 h3 h4 h5 ht
  have ht : t = if (u.plBank (blk / 256)).op.isNone then u else if o.erase then u.plEraseEnd (blk / 256) o else u.plProgrammed (blk / 256) o true := ht
  rw [h2, he] at ht
  have ht : t = u.plProgrammed (blk / 256) o true := ht
  have hw : List.zipWith (fun (x y : Byte) => x &&& y) (memRead erasedByte u.plArray (32 * o.line) 32) o.data = l := by
    rw [hd, hln, h4]
    have hrl : (memRead erasedByte s.plArray (blk * plBlock + 32 * i) 32).length = 32 := by unfold memRead; simp
    refine List.ext_getElem (by rw [List.length_zipWith]; omega) fun j j1 j2 => ?_
    rw [List.getElem_zipWith]
    have e := getD_memRead erasedByte s.plArray (blk * plBlock + 32 * i) (n := 32) (i := j) (by omega)
    rw [List.getD_eq_getElem?_getD, List.getElem?_eq_getElem (by omega), hff j (by omega)] at e
    have e : (memRead erasedByte s.plArray (blk * plBlock + 32 * i) 32)[j] = 0xFF := e
    rw [e]
    exact BitVec.allOnes_and (w := 8) (x := l[j])
  have ht : t = ({ u with plArray := memWrite erasedByte u.plArray (blk * plBlock + 32 * i) l, plMark := smapErase u.plMark o.block } : State).plEnd (blk / 256) := by
    rw [ht]
    unfold State.plProgrammed
    dsimp only
    rw [hw, hd, hln]
    have e : (l != l) = false := by simp
    rw [e]
    rfl
  have hn := hc.2.2 (1 - blk / 256) (by omega)
  obtain ⟨g1, g2, g3⟩ := end_calm (t := { u with plArray := memWrite erasedByte u.plArray (blk * plBlock + 32 * i) l, plMark := smapErase u.plMark o.block })
    (o := o) hbb h1 (show Memory.wf erasedByte (memWrite erasedByte u.plArray (blk * plBlock + 32 * i) l) = true by rw [h4]; exact wf_memWrite _ _ hc.2.1)
    h2 hf (by
      show (u.plBank (1 - blk / 256)).op = none ∧ (u.plBank (1 - blk / 256)).held = none
      rw [h3]; exact hn)
  rw [ht]
  refine ⟨⟨g1, fun r r1 r2 r3 => ?_⟩, ?_, ?_⟩
  · rw [g3 r r1, ← h5 r r1]
    rfl
  · rw [g2]
    show memWrite erasedByte u.plArray _ l = _
    rw [h4]
  · unfold State.plIndet State.regBit State.regN at hx ⊢
    rw [g3 _ (stat_low _).2]
    show bit (u.reg (PL_INDET (blk / 32))).toNat (blk % 32) = false
    rw [h5 _ (stat_low _).2]
    exact hx

theorem zipIdx_range {α : Type} (n : Nat) (f : Nat → α) : ((List.range n).map f).zipIdx = (List.range n).map fun i => (f i, i) := by
  refine List.ext_getElem (by simp) fun i h1 h2 => ?_
  simp

/-- A block that Quoin writes: whether it is open. -/
theorem rest_locked {s t : State} {b : Nat} (h : Rest s b t) (k : Nat) (_hk : k < 512) : t.plLocked k = s.plLocked k := by
  unfold State.plLocked State.regBit State.regN
  rw [h.2 _ (stat_low _).1 (fun e => (status_apart 0 (k / 32)).1 e.symm) (fun n hn e => by
    have e0 : pageAddr .pl 0 0 = 0xE0000 := by decide
    unfold PL_WP PL_INDET at e
    omega)]

/-- Lines of a copy programmed one after another over an erased block. -/
theorem lines_written {s : State} {blk : Nat} (hb : blk < 512) (r : Bytes) (hr : r.length = 1024) (hc : Calm s) (hl : s.plLocked blk = false)
    (hx : s.plIndet blk = false) (hff : ∀ j, j < 1024 → memByte erasedByte s.plArray (blk * plBlock + j) = 0xFF) : ∀ n, n ≤ 32 →
    let t := (List.range n).foldl (fun (s : State) i => s.plNow (plOpOf false (blk * plBlock + 32 * i) ((r.drop (32 * i)).take 32) false)) s
    Rest s (blk / 256) t ∧ t.plIndet blk = false
      ∧ ∀ x, memByte erasedByte t.plArray x = if blk * plBlock ≤ x ∧ x < blk * plBlock + 32 * n then r.getD (x - blk * plBlock) 0
          else memByte erasedByte s.plArray x := by
  intro n
  induction n with
  | zero => exact fun _ => ⟨⟨hc, fun _ _ _ _ => rfl⟩, hx, fun x => (if_neg (by omega)).symm⟩
  | succ n ih =>
    intro hn
    obtain ⟨i1, i2, i3⟩ := ih (by omega)
    rw [List.range_succ, List.foldl_append]
    generalize (List.range n).foldl (fun (s : State) i => s.plNow (plOpOf false (blk * plBlock + 32 * i) ((r.drop (32 * i)).take 32) false)) s = u at i1 i2 i3
    have hlen : ((r.drop (32 * n)).take 32).length = 32 := by rw [List.length_take, List.length_drop]; omega
    obtain ⟨g1, g2, g3⟩ := now_program hb (i := n) (by omega) ((r.drop (32 * n)).take 32) hlen i1.1 ((rest_locked i1 blk hb).trans hl) i2
      (fun j hj => by rw [i3, if_neg (by omega), Nat.add_assoc]; exact hff (32 * n + j) (by omega))
    show let t := u.plNow (plOpOf false (blk * plBlock + 32 * n) ((r.drop (32 * n)).take 32) false)
      Rest s (blk / 256) t ∧ t.plIndet blk = false ∧ _
    intro t
    refine ⟨⟨g1.1, fun a a1 a2 a3 => (g1.2 a a1 a2 a3).trans (i1.2 a a1 a2 a3)⟩, g3, fun x => ?_⟩
    show memByte erasedByte (u.plNow (plOpOf false (blk * plBlock + 32 * n) ((r.drop (32 * n)).take 32) false)).plArray x = _
    rw [g2, pl_written _ _ i1.1.2.1, hlen, i3]
    by_cases h1 : blk * plBlock + 32 * n ≤ x ∧ x < blk * plBlock + 32 * n + 32
    · rw [if_pos h1, if_pos (by omega), List.getD_eq_getElem?_getD, List.getD_eq_getElem?_getD, List.getElem?_take_of_lt (by omega), List.getElem?_drop,
        show 32 * n + (x - (blk * plBlock + 32 * n)) = x - blk * plBlock by omega]
    · rw [if_neg h1]
      by_cases h2 : blk * plBlock ≤ x ∧ x < blk * plBlock + 32 * n
      · rw [if_pos h2, if_pos (by omega)]
      · rw [if_neg h2, if_neg (by omega)]

/-- Writing one copy of a record over a free array whose block is open: the copy's bytes, the block's rest erased, nothing else. -/
theorem copy_written {s : State} {blk : Nat} (hb : blk < 512) (r : Bytes) (hr : r.length = 1024) (hc : Calm s) (hl : s.plLocked blk = false) :
    Rest s (blk / 256) (s.writeCopy r blk) ∧ (s.writeCopy r blk).plIndet blk = false
      ∧ ∀ x, memByte erasedByte (s.writeCopy r blk).plArray x = if blk * 0x20000 ≤ x ∧ x < blk * 0x20000 + 1024 then r.getD (x - blk * 0x20000) 0
          else if x / 0x20000 = blk then 0xFF else memByte erasedByte s.plArray x := by
  have he : s.writeCopy r blk = (List.range 32).foldl (fun (s : State) i => s.plNow (plOpOf false (blk * plBlock + 32 * i) ((r.drop (32 * i)).take 32) false))
      (s.plNow (plOpOf true (blk * plBlock) [] false)) := by
    unfold State.writeCopy
    rw [chunks_eq (by omega) r, hr, zipIdx_range, List.foldl_map]
  rw [he]
  obtain ⟨g1, g2, g3⟩ := now_erase hb hc hl
  generalize s.plNow (plOpOf true (blk * plBlock) [] false) = u at g1 g2 g3
  have hcl : ∀ x, memByte erasedByte u.plArray x = if x / 0x20000 = blk then 0xFF else memByte erasedByte s.plArray x := by
    intro x
    have e2 : memByte erasedByte u.plArray x
        = smapGet erasedByte (smapClear (fun k => decide (blk * plBlock ≤ k) && decide (k < blk * plBlock + plBlock)) s.plArray) x := by rw [g2]; rfl
    rw [e2, smapGet_clear _ _ 0 x hc.2.1]
    have e3 : ((decide (blk * plBlock ≤ x) && decide (x < blk * plBlock + plBlock)) = true) ↔ x / 0x20000 = blk := by
      rw [Bool.and_eq_true, decide_eq_true_eq, decide_eq_true_eq]
      unfold plBlock
      omega
    by_cases hx : x / 0x20000 = blk
    · rw [if_pos (e3.2 hx), if_pos hx]; rfl
    · rw [if_neg (fun h => hx (e3.1 h)), if_neg hx]; rfl
  obtain ⟨l1, l2, l3⟩ := lines_written hb r hr g1.1 ((rest_locked g1 blk hb).trans hl) g3 (fun j hj => by
    rw [hcl, if_pos (by unfold plBlock; omega)]) 32 (by omega)
  generalize (List.range 32).foldl (fun (s : State) i => s.plNow (plOpOf false (blk * plBlock + 32 * i) ((r.drop (32 * i)).take 32) false)) u = t at l1 l2 l3
  refine ⟨⟨l1.1, fun a a1 a2 a3 => (l1.2 a a1 a2 a3).trans (g1.2 a a1 a2 a3)⟩, l2, fun x => ?_⟩
  rw [l3, hcl]
  rfl

end Sys2Proof.Machine
end

