-- ==== Sys2Proof/Laws/Tenants.lean ====
section
/-! SUPPORT. Tenants on their way out: what discarding their work, retiring their slot and resetting a block can change. -/

namespace Sys2Proof.Machine

-- One declaration after another: the package as one text then stays within the memory its check allows.
set_option Elab.async false

/-- Discarding what a tenant has not dispatched changes the registers and records of its queues. -/
theorem drop_fold (t : Nat) (l : List Nat) : ∀ u : State, smapWf resetOf u.regs = true →
    let v := l.foldl (fun (s : State) q =>
      let s := s.setRegN (CMD_JQ_HEAD t q) (s.regN (CMD_JQ_TAIL t q))
      let s := (s.setJobQ t q { s.jobQ t q with lastEnd := true }).unlatch t q
      if s.jqState t q = 1 then s.jqRefresh t q else s) u
    smapWf resetOf v.regs = true ∧ (∀ y : State, { v with regs := y.regs, jq := y.jq, relHead := y.relHead } = { u with regs := y.regs, jq := y.jq, relHead := y.relHead })
    ∧ ∀ a, (∀ q ∈ l, a ≠ CMD_JQ_HEAD t q ∧ a ≠ CMD_JQ_STAT t q) → v.reg a = u.reg a := by
  induction l with
  | nil => exact fun u hu => ⟨hu, fun _ => rfl, fun _ _ => rfl⟩
  | cons q l ih =>
    intro u hu v
    have h1 : ∀ w : State, w = ((u.setRegN (CMD_JQ_HEAD t q) (u.regN (CMD_JQ_TAIL t q))).setJobQ t q { (u.setRegN (CMD_JQ_HEAD t q) (u.regN (CMD_JQ_TAIL t q))).jobQ t q with lastEnd := true }).unlatch t q →
        smapWf resetOf w.regs = true ∧ (∀ y : State, { w with regs := y.regs, jq := y.jq, relHead := y.relHead } = { u with regs := y.regs, jq := y.jq, relHead := y.relHead })
        ∧ ∀ a, a ≠ CMD_JQ_HEAD t q → w.reg a = u.reg a := by
      rintro w rfl
      exact ⟨State.setRegN_wf _ _ hu, fun _ => rfl, fun a ha => State.reg_setReg_other (s := u) _ hu ha⟩
    have h2 : ∀ w : State, smapWf resetOf w.regs = true →
        smapWf resetOf (if w.jqState t q = 1 then w.jqRefresh t q else w).regs = true
        ∧ (∀ y : State, { (if w.jqState t q = 1 then w.jqRefresh t q else w) with regs := y.regs, jq := y.jq, relHead := y.relHead } = { w with regs := y.regs, jq := y.jq, relHead := y.relHead })
        ∧ ∀ a, a ≠ CMD_JQ_STAT t q → (if w.jqState t q = 1 then w.jqRefresh t q else w).reg a = w.reg a := by
      intro w hw
      by_cases e : w.jqState t q = 1
      · rw [if_pos e]; exact ⟨State.setField_wf _ _ _ _ hw, fun _ => rfl, fun a ha => State.reg_setField_other _ _ _ hw ha⟩
      · rw [if_neg e]; exact ⟨hw, fun _ => rfl, fun _ _ => rfl⟩
    obtain ⟨a1, a2, a3⟩ := h1 _ rfl
    obtain ⟨b1, b2, b3⟩ := h2 _ a1
    obtain ⟨c1, c2, c3⟩ := ih _ b1
    refine ⟨c1, fun y => ((c2 y).trans (b2 y)).trans (a2 y), fun a ha => ?_⟩
    exact ((c3 a fun r hr => ha r (List.mem_cons_of_mem _ hr)).trans (b3 a (ha q List.mem_cons_self).2)).trans (a3 a (ha q List.mem_cons_self).1)

/-- What discarding undispatched work changes: flights it holds, and the heads and states of its queues. -/
theorem dropPending_facts (s : State) (t : Nat) (hw : smapWf resetOf s.regs = true) :
    let v := s.dropPending t
    smapWf resetOf v.regs = true ∧ (∀ y : State, { v with regs := y.regs, jq := y.jq, relHead := y.relHead, flights := y.flights } = { s with regs := y.regs, jq := y.jq, relHead := y.relHead, flights := y.flights })
    ∧ v.flights = s.flights.filter (fun f => !(f.held && decide (f.tenant = t)))
    ∧ ∀ a, (∀ q, q < 8 → a ≠ CMD_JQ_HEAD t q ∧ a ≠ CMD_JQ_STAT t q) → v.reg a = s.reg a := by
  obtain ⟨c1, c2, c3⟩ := drop_fold t (List.range 8) { s with flights := s.flights.filter fun f => !(f.held && decide (f.tenant = t)) } hw
  exact ⟨c1, fun y => (congrArg (fun z : State => ({ z with flights := y.flights } : State)) (c2 y) : _), (congrArg State.flights (c2 s) :), fun a ha => c3 a fun q hq => ha q (List.mem_range.1 hq)⟩

/-- A tenant's queue registers lie in its own pages. -/
theorem own_jq : ∀ t : Fin 16, ∀ q : Fin 8, ownRegs .cmd t (CMD_JQ_HEAD t q) = true ∧ ownRegs .cmd t (CMD_JQ_STAT t q) = true := by decide +kernel

/-- Slot states lie apart from queue registers. -/
theorem slot_apart : ∀ t u : Fin 16, ∀ q : Fin 8, QN_TSTAT t ≠ CMD_JQ_HEAD u q ∧ QN_TSTAT t ≠ CMD_JQ_STAT u q := by decide +kernel

/-- Slot states lie apart from schedule states and from each other. -/
theorem slot_apart2 : ∀ t u : Fin 16, QN_TSTAT t ≠ QC_SCHED_STAT u ∧ (t ≠ u → QN_TSTAT t ≠ QN_TSTAT u) := by decide +kernel

/-- With no scheduled move of the tenant waiting, none ends. -/
theorem schedRetire_none {s : State} {t : Nat} (h : ∀ w ∈ s.schedQ, w.t ≠ t) : s.schedRetire t = s := by
  have e1 : (s.schedQ.filter fun w => decide (w.t = t)) = [] := filter_no fun w hw => decide_eq_false (h w hw)
  have e2 : (s.schedQ.filter fun w => w.t != t) = s.schedQ := filter_all fun w hw => bne_iff_ne.2 (h w hw)
  unfold State.schedRetire
  dsimp only
  rw [e1, e2]
  rfl

theorem retire_none {s : State} {t : Nat} (h : ∀ w ∈ ((s.setField (QN_TSTAT t) 1 0 2).dropPending t).schedQ, w.t ≠ t) :
    s.retireTenant t = ({ (s.setField (QN_TSTAT t) 1 0 2).dropPending t with
      flights := ((s.setField (QN_TSTAT t) 1 0 2).dropPending t).flights.map fun f =>
        if (decide (f.tenant = t) && !f.issued && (decide (f.phase = .dispatched) || decide (f.phase = .redispatch))) = true then f.endWith stKeyRetired 0 else f
      pcie := { ((s.setField (QN_TSTAT t) 1 0 2).dropPending t).pcie with vfOn := ((s.setField (QN_TSTAT t) 1 0 2).dropPending t).pcie.vfOn &&& ~~~(BitVec.ofNat 16 (2 ^ t)) }
      drainTimer := insertNat t ((s.setField (QN_TSTAT t) 1 0 2).dropPending t).drainTimer } : State).schedDisable t := by
  unfold State.retireTenant
  exact schedRetire_none h

/-- What the first steps of a removal change (R389), where no scheduled move of the tenant waits. -/
theorem retire_facts (s : State) (t : Fin 16) (hw : smapWf resetOf s.regs = true) (hq : ∀ w ∈ s.schedQ, w.t ≠ t.val) :
    let v := s.retireTenant t
    smapWf resetOf v.regs = true ∧ (∀ y : State, { v with regs := y.regs, jq := y.jq, relHead := y.relHead, flights := y.flights, pcie := y.pcie, drainTimer := y.drainTimer } = { s with regs := y.regs, jq := y.jq, relHead := y.relHead, flights := y.flights, pcie := y.pcie, drainTimer := y.drainTimer })
    ∧ v.slot t = 2 ∧ ∀ u : Fin 16, u ≠ t → v.reg (QN_TSTAT u) = s.reg (QN_TSTAT u) := by
  have h1 : smapWf resetOf (s.setField (QN_TSTAT t) 1 0 2).regs = true := State.setField_wf _ _ _ _ hw
  obtain ⟨d1, d2, -, d4⟩ := dropPending_facts (s.setField (QN_TSTAT t) 1 0 2) t h1
  have f1 : (s.setField (QN_TSTAT t) 1 0 2).field (QN_TSTAT t) 1 0 = 2 := State.field_setField_same (s := s) (QN_TSTAT t) 1 0 2 hw (by omega) (by omega)
  have f2 : ∀ a, a ≠ QN_TSTAT t → (s.setField (QN_TSTAT t) 1 0 2).reg a = s.reg a := fun a ha => State.reg_setField_other (s := s) _ _ _ hw ha
  have d2 := fun y : State => (d2 y).trans (show _ = { s with regs := y.regs, jq := y.jq, relHead := y.relHead, flights := y.flights } from rfl)
  have hr : ∃ (F : List Flight) (P : Pcie) (D : List Nat), s.retireTenant t = ({ (s.setField (QN_TSTAT t) 1 0 2).dropPending t with flights := F, pcie := P, drainTimer := D } : State).schedDisable t := by
    refine ⟨_, _, _, retire_none ?_⟩
    rw [show ((s.setField (QN_TSTAT t) 1 0 2).dropPending t).schedQ = s.schedQ from (congrArg State.schedQ (d2 s) :)]
    exact hq
  obtain ⟨F, P, D, hr⟩ := hr
  rw [hr]
  clear hr
  generalize (s.setField (QN_TSTAT t) 1 0 2).dropPending t = v at *
  have g1 : smapWf resetOf ({ v with flights := F, pcie := P, drainTimer := D } : State).regs = true := d1
  refine ⟨State.setField_wf _ _ _ _ g1, fun y => ?_, ?_, fun u hu => ?_⟩
  · exact (congrArg (fun z : State => ({ z with pcie := y.pcie, drainTimer := y.drainTimer } : State)) (d2 y) : _)
  · refine (field_of (State.reg_setField_other (s := { v with flights := F, pcie := P, drainTimer := D }) _ _ _ g1 (slot_apart2 t t).1)).trans ?_
    refine (field_of (s := s.setField (QN_TSTAT t) 1 0 2) (d4 _ fun q hq => slot_apart t t ⟨q, hq⟩)).trans f1
  · refine (State.reg_setField_other (s := { v with flights := F, pcie := P, drainTimer := D }) _ _ _ g1 (slot_apart2 u t).1).trans ?_
    exact (d4 _ fun q hq => slot_apart u t ⟨q, hq⟩).trans (f2 _ ((slot_apart2 u t).2 hu))

/-- Retiring every LIVE slot of a list. -/
theorem retire_fold (l : List Nat) : ∀ s : State, s.schedQ = [] → (∀ t ∈ l, t < 16) → smapWf resetOf s.regs = true →
    let v := l.foldl (fun (s : State) t => if s.slot t = 1 then s.retireTenant t else s) s
    smapWf resetOf v.regs = true ∧ (∀ y : State, { v with regs := y.regs, jq := y.jq, relHead := y.relHead, flights := y.flights, pcie := y.pcie, drainTimer := y.drainTimer } = { s with regs := y.regs, jq := y.jq, relHead := y.relHead, flights := y.flights, pcie := y.pcie, drainTimer := y.drainTimer })
    ∧ (∀ t ∈ l, s.slot t = 1 → v.slot t = 2) ∧ (∀ t, t < 16 → t ∉ l → v.slot t = s.slot t) ∧ ∀ t, t < 16 → s.slot t = 2 → v.slot t = 2 := by
  induction l with
  | nil => exact fun s _ _ hw => ⟨hw, fun _ => rfl, fun _ h => absurd h List.not_mem_nil, fun _ _ _ => rfl, fun _ _ h => h⟩
  | cons a l ih =>
    intro s hq hl hw v
    have ha : a < 16 := hl a List.mem_cons_self
    have step : ∀ w : State, w = (if s.slot a = 1 then s.retireTenant a else s) →
        smapWf resetOf w.regs = true ∧ (∀ y : State, { w with regs := y.regs, jq := y.jq, relHead := y.relHead, flights := y.flights, pcie := y.pcie, drainTimer := y.drainTimer } = { s with regs := y.regs, jq := y.jq, relHead := y.relHead, flights := y.flights, pcie := y.pcie, drainTimer := y.drainTimer })
        ∧ (s.slot a = 1 → w.slot a = 2) ∧ (s.slot a ≠ 1 → w.slot a = s.slot a) ∧ ∀ u, u < 16 → u ≠ a → w.slot u = s.slot u := by
      rintro w rfl
      by_cases e : s.slot a = 1
      · rw [if_pos e]
        obtain ⟨r1, r2, r3, r4⟩ := retire_facts s ⟨a, ha⟩ hw (by rw [hq]; exact fun _ h => absurd h List.not_mem_nil)
        exact ⟨r1, r2, fun _ => r3, fun n => absurd e n, fun u hu hn => field_of (r4 ⟨u, hu⟩ fun q => hn (congrArg Fin.val q))⟩
      · rw [if_neg e]
        exact ⟨hw, fun _ => rfl, fun n => absurd n e, fun _ => rfl, fun _ _ _ => rfl⟩
    obtain ⟨w1, w2, w3, w4, w5⟩ := step _ rfl
    obtain ⟨i1, i2, i3, i4, i5⟩ := ih (if s.slot a = 1 then s.retireTenant a else s) ((congrArg State.schedQ (w2 s) :).trans hq) (fun t ht => hl t (List.mem_cons_of_mem _ ht)) w1
    refine ⟨i1, fun y => (i2 y).trans (w2 y), fun t ht h1 => ?_, fun t ht hn => ?_, fun t ht h2 => ?_⟩
    · by_cases e : t = a
      · exact i5 t (hl t ht) (by rw [e]; exact w3 (by rw [← e]; exact h1))
      · exact i3 t ((List.mem_cons.1 ht).resolve_left e) ((w5 t (hl t ht) e).trans h1)
    · refine (i4 t ht fun h => hn (List.mem_cons_of_mem _ h)).trans (w5 t ht fun e => hn (by rw [e]; exact List.mem_cons_self))
    · refine i5 t ht ?_
      by_cases e : t = a
      · subst e; exact (w4 (by omega)).trans h2
      · exact (w5 t ht e).trans h2

/-- A slot that is not LIVE is left as it is. -/
theorem retire_not (l : List Nat) : ∀ s : State, s.schedQ = [] → (∀ t ∈ l, t < 16) → smapWf resetOf s.regs = true →
    ∀ t, t < 16 → s.slot t ≠ 1 → (l.foldl (fun (s : State) t => if s.slot t = 1 then s.retireTenant t else s) s).slot t = s.slot t := by
  induction l with
  | nil => exact fun s _ _ _ _ _ _ => rfl
  | cons a l ih =>
    intro s hq hl hw t ht hn
    have ha : a < 16 := hl a List.mem_cons_self
    have step : ∀ w : State, w = (if s.slot a = 1 then s.retireTenant a else s) → smapWf resetOf w.regs = true ∧ w.slot t = s.slot t ∧ w.schedQ = [] := by
      rintro w rfl
      by_cases e : s.slot a = 1
      · rw [if_pos e]
        obtain ⟨r1, r2, -, r4⟩ := retire_facts s ⟨a, ha⟩ hw (by rw [hq]; exact fun _ h => absurd h List.not_mem_nil)
        refine ⟨r1, field_of (r4 ⟨t, ht⟩ fun q => hn ?_), (congrArg State.schedQ (r2 s) :).trans hq⟩
        have q : t = a := congrArg Fin.val q
        rw [q]
        exact e
      · rw [if_neg e]
        exact ⟨hw, rfl, hq⟩
    obtain ⟨w1, w2, w3⟩ := step _ rfl
    exact (ih _ w3 (fun t ht => hl t (List.mem_cons_of_mem _ ht)) w1 t ht (by rw [w2]; exact hn)).trans w2

/-- An inserted number is a member. -/
theorem mem_insertNat (x : Nat) (l : List Nat) : x ∈ insertNat x l := by
  induction l with
  | nil => exact List.mem_cons_self
  | cons y l ih =>
    show x ∈ (if x = y then y :: l else if x < y then x :: y :: l else y :: insertNat x l)
    split
    · rw [‹x = y›]; exact List.mem_cons_self
    · split
      · exact List.mem_cons_self
      · exact List.mem_cons_of_mem _ ih

/-- From s to u no memory, mark, key, waiting write or reset timer has changed, and no descriptor has come in flight. -/
def Spared (s u : State) : Prop := u.bed = s.bed ∧ u.hbm = s.hbm ∧ u.marks = s.marks ∧ u.slotKey = s.slotKey ∧ u.wq = s.wq ∧ u.flrTimer = s.flrTimer ∧ ∀ f, f ∈ u.flights → f ∈ s.flights

/-- Nothing has changed. -/
theorem spared_self (s : State) : Spared s s := ⟨rfl, rfl, rfl, rfl, rfl, rfl, fun _ h => h⟩

theorem spared_send {s u : State} (p : Nat) (bs : Bytes) (h : Spared s u) : Spared s (u.send p bs) := by
  unfold State.send
  split
  · exact h
  · exact h

/-- Port flow control changes none of it. -/
theorem spared_pause {s u : State} (p : Nat) (h : Spared s u) : Spared s (u.pauseUpdate p) := by
  unfold State.pauseUpdate
  have show_ : ∀ v : State, Spared s v → Spared s (v.showPausing p) := fun v hv => hv
  have pausing : ∀ (v : State) (l : List (Nat × Nat)), Spared s v → Spared s { v with pausing := l } := fun v l hv => hv
  dsimp only
  apply show_
  split
  · refine foldl_keeps (P := fun v : State => Spared s v) h ?_
    intro v k _ hv
    split
    · exact pausing _ _ (spared_send _ _ hv)
    · exact hv
  · split
    · refine foldl_keeps (P := fun v : State => Spared s v) h ?_
      intro v k _ hv
      split
      · exact pausing _ _ (spared_send _ _ hv)
      · exact hv
    · exact h

/-- What the array's operations touch is none of it. -/
theorem spared_array {s u v : State} (h : Spared s u) (ha : OnArray v u) : Spared s v := by
  obtain ⟨h1, h2, h3, h4, h5, h6, h7⟩ := h
  exact ⟨(congrArg State.bed ha :).trans h1, (congrArg State.hbm ha :).trans h2, (congrArg State.marks ha :).trans h3,
    (congrArg State.slotKey ha :).trans h4, (congrArg State.wq ha :).trans h5, (congrArg State.flrTimer ha :).trans h6,
    fun f hf => h7 f ((congrArg State.flights ha :) ▸ hf)⟩

/-- A Plinth operation cut short changes none of it. -/
theorem spared_torn {s u : State} (o : PlOp) (h : Spared s u) : Spared s (u.plTorn o) := by
  unfold State.plTorn
  split
  · exact h
  · exact h

/-- Ending the operations on a block changes none of it. -/
theorem spared_end {s u : State} (b : Blk) (i : Nat) (h : Spared s u) : Spared s (u.endAll b i) := by
  have other : ∀ u : State, Spared s u → Spared s { u with flights := u.flights.filter fun f => !f.onUnit b i } := fun u h =>
    ⟨h.1, h.2.1, h.2.2.1, h.2.2.2.1, h.2.2.2.2.1, h.2.2.2.2.2.1, fun f hf => h.2.2.2.2.2.2 f (List.mem_filter.1 hf).1⟩
  cases b
  case qc => exact ⟨h.1, h.2.1, h.2.2.1, h.2.2.2.1, h.2.2.2.2.1, h.2.2.2.2.2.1, fun f hf => h.2.2.2.2.2.2 f (List.mem_filter.1 hf).1⟩
  case fc => exact h
  case dp =>
    refine spared_pause i ?_
    exact ⟨h.1, h.2.1, h.2.2.1, h.2.2.2.1, h.2.2.2.2.1, h.2.2.2.2.2.1, fun f hf => h.2.2.2.2.2.2 f (List.mem_filter.1 hf).1⟩
  case bed => exact h
  case qn => exact h
  case pl =>
    have h1 : ∀ l : List PlOp, Spared s (l.foldl State.plTorn u) := fun l =>
      foldl_keeps (P := fun v : State => Spared s v) h fun v o _ hv => spared_torn o hv
    have h2 : ∀ v : State, Spared s v → Spared s v.writeDue := fun v hv => spared_array (v := { v.writeDue with recDue := v.recDue }) hv (writeDue_array v)
    exact h2 _ (spared_array (spared_array (h1 _) (setPlBank_array _ 0 plIdle)) (setPlBank_array _ 1 plIdle))
  all_goals exact other u h

/-- A block reset changes none of it. -/
theorem spared_reset {s u : State} (b : Blk) (i : Nat) (h : Spared s u) : Spared s (u.blkReset b i) := by
  have he := spared_end b i h
  unfold State.blkReset
  generalize u.endAll b i = v at he ⊢
  dsimp only
  split
  · exact he
  · split
    · exact he
    · exact he

end Sys2Proof.Machine
end

