-- ==== Sys2Proof/Tests/Slice0.lean ====
section
/-! SUPPORT. Tests of the model: commands the surroundings cannot send, states that meet the hypotheses of the claims, and
single steps with the results the spec gives. -/

namespace Sys2Proof.Tests

open Sys2Proof.Machine

-- One declaration after another: the package as one text then stays within the memory its check allows.
set_option Elab.async false

/-- The part out of reset, with nothing in it. -/
def fresh : State := { State.reset with pins := { State.reset.pins with perstN := true } }

theorem witness_up : fresh.up = true ∧ fresh.canon = true := by decide
theorem witness_undefined : ({ fresh with undef := true } : State).undef = true ∧ Instr.jtagIdcode ≠ .perstNAssert := by decide
theorem witness_becomes_undefined : ∃ t, exec .railOutOfRange fresh = .next t ∧ fresh.undef = false ∧ t.undef = true :=
  ⟨_, rfl, by decide, by decide⟩
theorem witness_step : ∃ t, step { fresh with pending := [.jtagIdcode, .jtagTapReset] } = .next t ∧ t.pending = [.jtagTapReset] :=
  ⟨_, rfl, by decide⟩
theorem witness_idle : State.reset.pending = [] := by decide
theorem witness_held : State.reset.undef = false ∧ State.reset.pins.perstN = false := by decide

theorem witness_perst_assert : fresh.pins.perstN = true ∧ fresh.canon = true := by decide
theorem witness_perst_release : State.reset.undef = false ∧ State.reset.pins.perstN = false ∧ State.reset.canon = true := by decide
theorem witness_perst_release_marked : ∀ e ∈ ({ State.reset with plMark := [(3, false)] } : State).plMark, e.1 < 512 := by decide
theorem witness_jtag_bypass : (15 : BitVec 4) ≠ 0 ∧ (15 : BitVec 4) ≠ 1 ∧ (15 : BitVec 4) ≠ 2 := by decide
theorem witness_link_down : fresh.pcie.linkUp = false ∧ 25 ∈ [640, 320, 160, 80, 50, 25] ∧ 1 ∈ [16, 8, 4, 1] := by decide

theorem witness_odd_access : ¬ (((4 : Nat) = 4 ∨ (4 : Nat) = 8) ∧ (2 : BitVec 26).toNat % 4 = 0) := by decide
theorem witness_plain_register : pageOf 0x50044 = some (.bed, 0, 0) ∧ (rowAt .bed 0 0 0x44).any (fun r => r.2.2 == 0 && r.1.bytes == 4 && r.1.acc == .rw && r.1.ok.holds 1 && !r.1.ok.holds 0) = true := by decide

/-- Out of reset, Meleopin running (state 4), tenant 0 live with rings of 256 entries, one command-page write waiting for it. -/
def withWrite (off v : Nat) : State :=
  { (((fresh.setRegN CMD_FW_STAT 4).setRegN (QN_TSTAT 0) 1).setRegN (CMD_CQ_SIZE 0) 8).setRegN (CMD_JQ_SIZE 0 0) 8 with
    wq := [{ fn := 0, off := off, size := 4, val := BitVec.ofNat 64 v }] }

/-- What the claims about the write that is applied next suppose: the state is out of reset and the write is the front of its kind. -/
def fronts (off v : Nat) (k : CmdKind) : Bool :=
  (withWrite off v).up && decide (((withWrite off v).front 0).map Posted.kind = some k)

theorem witness_fronts : fronts 0x104C 1 (.tail 0) = true ∧ fronts 0x104C 256 (.tail 0) = true ∧ fronts 0x1058 1 (.ctl 0) = true
    ∧ fronts 0x1058 9 (.ctl 0) = true ∧ fronts 0x1058 2 (.ctl 0) = true ∧ fronts 0x1058 4 (.ctl 0) = true ∧ fronts 0x1058 8 (.ctl 0) = true
    ∧ fronts 0x1058 0 (.ctl 0) = true ∧ fronts 0x114C 1 .cqHead = true ∧ fronts 0x116C 1 .eqHead = true
    ∧ fronts 0x2050 1 .map = true ∧ fronts 0x2050 2 .map = true ∧ fronts 0x2050 3 .map = true ∧ fronts 0x1148 1 .plain = true := by decide +kernel
theorem witness_tail : (withWrite 0x104C 1).jqSize 0 0 = 256 := by decide +kernel
theorem witness_enable : (withWrite 0x1058 1).regN (CMD_CQ_SIZE 0) ≠ 0 ∧ ((withWrite 0x1058 1).jobQ 0 0).enabled = false := by decide +kernel
theorem witness_post : (withWrite 0x1148 1).takes 0 (cmdAddr 0 0x1048) = true ∧ fresh.takes 0 (cmdAddr 0 0x1048) = false
    ∧ coalesces 0 (cmdAddr 0 0x1048) = false ∧ coalesces 0 (cmdAddr 0 0x104C) = true := by decide +kernel

/-- The write of a tail below the ring size moves the tail and is counted (R67, R356). -/
theorem test_doorbell : (match exec (.jqTailDoorbell 0) (withWrite 0x104C 1) with
    | .next t => decide (t.regN (CMD_JQ_TAIL 0 0) = 1 ∧ t.regN (CMD_WDONE 0) = 1 ∧ t.wq = [])
    | _ => false) = true := by decide +kernel
/-- Enable shows an empty ring as idle (R66). -/
theorem test_enable : (match exec (.jqEnable 0) (withWrite 0x1058 1) with
    | .next t => (t.jobQ 0 0).enabled && decide (t.field (CMD_JQ_STAT 0 0) 1 0 = 0)
    | _ => false) = true := by decide +kernel
/-- Disable shows state 3 (R66). -/
theorem test_disable : (match exec (.jqDisable 0) (withWrite 0x1058 8) with
    | .next t => decide (t.field (CMD_JQ_STAT 0 0) 1 0 = 3)
    | _ => false) = true := by decide +kernel

/-- A descriptor of a class and an OP, and nothing else. -/
def plainDesc (cls op : Nat) : BitVec 1024 := BitVec.ofNat 1024 (cls + 16 + op * 256)

/-- The part out of reset with one dispatched descriptor in flight, of tenant 0 on unit 0. -/
def flying (b : Blk) (d : BitVec 1024) : State :=
  { fresh with flights := [{ (fresh.newFlight 0 0 0 d) with cls := b, unit := 0 }], nextFlight := 1 }

theorem witness_class_f : (flying .cmd (plainDesc 15 0)).up = true
    ∧ ((flying .cmd (plainDesc 15 0)).flight 0).any (fun f => decide (f.phase = .dispatched ∧ dClass f.desc = 15 ∧ dOp f.desc = 0)) = true := by decide +kernel

/-- A queue of tenant 0 that is ready: Meleopin runs, the tenant is live, the queue is enabled and holds one descriptor. -/
def ready : State :=
  let s := ({ fresh with hbmReady := true }.setRegN CMD_FW_STAT 4).setRegN (QN_TSTAT 0) 1
  let s := ((s.setRegN (CMD_CQ_SIZE 0) 6).setRegN (CMD_JQ_SIZE 0 0) 6).setRegN (CMD_JQ_TAIL 0 0) 1
  (s.setRegN (CMD_JQ_STAT 0 0) 1).setJobQ 0 0 { enabled := true, lastEnd := true, parked := false }

theorem witness_ready : ready.up = true ∧ ready.jqReady 0 0 = true ∧ ready.waitingAgain 0 0 0 = none ∧ ready.flights = [] := by decide
theorem witness_not_ready : fresh.jqReady 0 0 = false ∧ fresh.waitingAgain 0 0 0 = none := by decide
/-- The same with the ring's first 64 KiB mapped, and a descriptor at its head. -/
def queued (d : BitVec 1024) : State :=
  { ready with
    xlat := [{ tenant := 0, bed := false, off := 0, big := false, phys := 512, ro := false, poison := false, src := none }]
    hbm := memWrite zeroByte [] 0x2000000 (leBytes 128 d.toNat) }

/-- The descriptor a release finds, with the state it leaves. -/
def found (d : BitVec 1024) : Option (State × BitVec 1024) :=
  match (queued d).readFor (.tenant 0) .hbm ((queued d).regN (CMD_JQ_BASE 0 0)) 128 with
  | (s, .ok bs) => some (s, BitVec.ofNat 1024 (leNat bs))
  | _ => none

theorem witness_release_f : (found (plainDesc 15 0)).any (fun x => decide (x.2 = plainDesc 15 0 ∧ descBad x.1 x.2 = none ∧ x.1.markOutside 0 x.2 = none)) = true := by decide +kernel
theorem witness_release_bad : (found (plainDesc 0 0)).any (fun x => decide (descBad x.1 x.2 = some 0)) = true := by decide +kernel
theorem witness_release_mark : (found (plainDesc 15 0 + 0x10000)).any (fun x => decide (descBad x.1 x.2 = none ∧ x.1.markOutside 0 x.2 = some 0)) = true := by decide +kernel
theorem witness_release_unit : (found (plainDesc 3 2 + (1#1024 <<< 0x280))).any (fun x => decide (dClass x.2 = 3)) = true := by decide +kernel
theorem witness_release_fault : ((ready.readFor (.tenant 0) .hbm 0 128).2.toOption).isNone = true := by decide +kernel
theorem witness_precedence : chooseStatus [(0x0001, 5), (0x0040, 7), (0x0070, 0)] = (0x40, 7) := by decide

/-- A class 0x7 descriptor of an OP with its destination, its source and its first operand. -/
def memDesc (op dst src opnd : Nat) : BitVec 1024 :=
  BitVec.ofNat 1024 (7 + 16 + op * 256 + dst * 2 ^ 0x280 + src * 2 ^ 0x2C0 + opnd * 2 ^ 0x340)

/-- One such descriptor in flight, with a window of four marks from mark 8 on for its tenant. -/
def moving (op dst src opnd : Nat) : State := (flying .he (memDesc op dst src opnd)).setRegN (MK_WIN 0) (8 + 4 * 65536)

/-- What the claims about class 0x7 suppose of a descriptor. -/
def supposes (op dst src : Nat) : Bool :=
  let s := moving op dst src 5
  (s.flight 0).any fun f => s.up && s.canon && decide (f.phase = .dispatched ∧ dClass f.desc = 7 ∧ dOp f.desc = op ∧ rmoSrc f.desc = src
    ∧ rmoDst f.desc = dst ∧ f.tenant = 0) && decide (s.field (MK_WIN 0) 31 16 = 4 ∧ s.chip = 0)

theorem witness_atomics : supposes 0x10 (4 * 2 ^ 48 + 24) 0 = true ∧ supposes 0x11 (4 * 2 ^ 48 + 24) 0 = true ∧ supposes 0x12 (4 * 2 ^ 48 + 24) 0 = true
    ∧ supposes 0x13 (4 * 2 ^ 48) 0 = true ∧ supposes 0x14 (4 * 2 ^ 48) 0 = true ∧ supposes 0x15 (4 * 2 ^ 48) 0 = true
    ∧ supposes 0x16 (4 * 2 ^ 48) 0 = true ∧ supposes 0x17 (4 * 2 ^ 48) 0 = true := by decide +kernel
theorem witness_atomic_outside : supposes 0x10 (4 * 2 ^ 48 + 4) 0 = true ∧ supposes 0x10 (4 * 2 ^ 48 + 32) 0 = true := by decide +kernel
theorem witness_signal : supposes 0x20 (4 * 2 ^ 48 + 8) 0 = true := by decide +kernel
theorem witness_copies : supposes 1 0x40 0x80 = true ∧ supposes 2 (2 ^ 48) 0x80 = true := by decide +kernel
theorem witness_remote : supposes 1 0x40 (2 ^ 52) = true ∧ supposes 2 (2 ^ 52) 0x40 = true ∧ supposes 0x10 0x40 (2 ^ 52) = true
    ∧ supposes 1 (2 ^ 52 + 3 * 2 ^ 48) 0x40 = true := by decide +kernel

/-- What the claims about engine operations suppose of a descriptor of a class and an OP. -/
def engineReady (b : Blk) (cls op : Nat) : Bool :=
  let s := flying b (plainDesc cls op)
  (s.flight 0).any fun f => s.up && s.canon && decide (f.phase = .dispatched ∧ dClass f.desc = cls ∧ dOp f.desc = op)

/-- A descriptor that a turn starts, and whose start ends it: it runs no operation. -/
def startEnds (b : Blk) (cls op : Nat) : Bool :=
  let s := flying b (plainDesc cls op)
  (s.flight 0).any fun f => !f.started && ((s.begin f (classStart cls)).flight 0).any fun k => decide (k.phase ≠ .dispatched)

/-- A descriptor that has started and has every record it waits for. -/
def running (b : Blk) (cls op : Nat) : Bool :=
  let s := flying b (plainDesc cls op)
  let s := { s with flights := s.flights.map fun f : Flight => { f with started := true } }
  (s.flight 0).any fun f => s.up && s.canon && f.started && f.hasRecs && decide (f.phase = .dispatched ∧ dClass f.desc = cls ∧ dOp f.desc = op)

theorem witness_engines : (List.range 4).all (fun i => engineReady .ae 1 (i + 1) && running .ae 1 (i + 1)) = true
    ∧ (List.range 6).all (fun i => engineReady .ce 2 (i + 1) && running .ce 2 (i + 1)) = true
    ∧ (List.range 5).all (fun i => engineReady .he 5 (i + 1) && running .he 5 (i + 1)) = true := by decide +kernel
theorem witness_engine_starts : startEnds .ae 1 1 = true ∧ startEnds .ce 2 1 = true ∧ startEnds .he 5 1 = true := by decide +kernel

/-- An attention descriptor with which no other is tangled. -/
def untangled (op : Nat) : Bool :=
  let s := flying .ve (plainDesc 3 op)
  (s.flight 0).any fun f => !f.tangled && ((((Work.start s f.tenant f.strict).veParams f.desc).1.s).tangle f).1.isEmpty
theorem witness_attention : (List.range 7).all (fun i => engineReady .ve 3 (i + 1) && untangled (i + 1)) = true
    ∧ engineReady .le 4 1 = true := by decide +kernel

/-- The part out of reset with the Bed as it is, and one bank's requests. -/
def bedReq (port off : Nat) (wr : Option (Nat × Bytes)) : BedReq := { port := port, flight := none, off := off, wr := wr, ecc := .clean }

theorem witness_bed : fresh.up = true ∧ fresh.canon = true ∧ fresh.regBit (BLK_CTL .bed 0) 1 = false ∧ fresh.bedDefer = []
    ∧ (bedReq 73 0x400000 none).off / 64 % 1024 = 0 ∧ fresh.poisonAt .bed 0x400000 = false := by decide
theorem witness_bed_conflict : ((bedReq 73 0x400000 none).port + 114 - fresh.bedPointer 0) % 114 < ((bedReq 74 0x410000 none).port + 114 - fresh.bedPointer 0) % 114
    ∧ ({ bedReq 74 0x410000 none with flight := some 0 }).flight = some 0 ∧ ((flying .he (plainDesc 5 1)).flight 0).any (fun f => !f.strict) = true
    ∧ bit (plainDesc 5 1).toNat 25 = false ∧ bit (plainDesc 5 1 + 0x2000000).toNat 25 = true := by decide +kernel
theorem test_bed_example_3_1 : bankHome 298 = 316 ∧ bankSpare 18 = 322 ∧ fresh.bankOf 298 = 316 ∧ fresh.bankServes 316 = some 298 := by decide
theorem witness_bed_errors : fresh.regBit BED_MODE 1 = true ∧ fresh.bankServes 0 = some 0 ∧ fresh.bankCount 0 + 1 < fresh.field BED_CE_THRESH 15 0
    ∧ (fresh.setRegN BED_CE_THRESH 1).field BED_CE_THRESH 15 0 = 1 ∧ (fresh.setRegN BED_MODE 0).regBit BED_MODE 1 = false
    ∧ ({ fresh with bedPoison := [65536] }).poisonAt .bed 0x400000 = true := by decide
theorem witness_copy : (fresh.setRegN (BED_REMAP 3) (3 + 4 * 7)).regBit (BED_REMAP 3) 1 = true
    ∧ (List.range 64).all (fun j => j == 3 || !(fresh.setRegN (BED_REMAP 3) (3 + 4 * 7)).remaps j 7) = true := by decide

/-- Trough 5, of two records of one line at 0x1000. -/
def troughed : State := (fresh.setRegN (BED_TR_BASE 5) 0x1000).setRegN (BED_TR_CFG 5) (1 + 2 + 0x100)

theorem witness_trough_on : troughed.regBit (BED_TR_CFG 5) 0 = true ∧ troughed.canon = true ∧ fresh.regBit (BED_TR_CFG 5) 0 = false
    ∧ troughed.field (BED_TR_CFG 5) 4 1 = 1 ∧ (troughed.setMark 61450 2).canon = true := by decide
/-- A producer of trough 5 with one record left, on tensor mover 0, to which the trough is bound. -/
def producing : State :=
  { troughed.setRegN (BED_TR_PROD 5) (classCode .he) with
    flights := [{ (fresh.newFlight 0 0 0 (plainDesc 5 1)) with
      cls := .he, unit := 0, phase := .running, started := true, outRec := [(5, [1, 2, 3])]
      uses := [{ n := 5, out := true, count := 1, k := 0, base := 0x1000, slots := 2, lines := 1 }] }] }

theorem witness_produce : ((producing.flight 0).any fun f => decide (f.phase = .running ∧ f.outRec = [(5, [1, 2, 3])])
      && ((f.uses.find? fun u => decide (u.n = 5) && u.out).any fun u => decide (u.k + 1 ≤ 2 ∧ producing.bound f.cls u = some f.unit
        ∧ f.waitsAt 5 = some u))) = true
    ∧ producing.canon = true ∧ producing.regBit (BED_TR_CFG 5) 0 = true := by decide +kernel
theorem witness_produce_waits : (producing.setMark 61451 0).mark 61451 = 0
    ∧ ((producing.flight 0).any fun f => f.uses.all fun u => decide (0 + 2 ^ 1 < { u with k := 2 }.k + 1)) = true := by decide +kernel
theorem witness_produce_off : ({ producing with regs := [] }).regBit (BED_TR_CFG 5) 0 = false := by decide +kernel
theorem witness_produce_elsewhere : ((producing.flight 0).any fun f => f.uses.all fun u =>
    decide ((producing.setRegN (BED_TR_PROD 5) (classCode .ae)).bound f.cls u ≠ some f.unit)) = true := by decide +kernel
/-- A MOVE of 64 bytes whose source is trough 5: its parameter block at 0, mapped to 64 KiB of the Bed. -/
def consuming (tail : Nat) : State :=
  { (troughed.setRegN (BED_TR_CONS 5) (classCode .he)).setMark 61450 (BitVec.ofNat 64 tail) with
    xlat := [{ tenant := 0, bed := true, off := 0, big := false, phys := 1, ro := false, poison := false, src := none }]
    bed := memWrite zeroByte [] 0x10000 (leBytes 4 0x101 ++ leBytes 4 1 ++ [5] ++ List.replicate 23 0 ++ leBytes 4 64
      ++ (List.range 5).flatMap fun _ => leBytes 4 1)
    flights := [{ (fresh.newFlight 0 0 0 (plainDesc 5 1)) with cls := .he, unit := 0 }] }
/-- It started, with the use of the trough that its block names. -/
def consumer (tail : Nat) : State :=
  let s := consuming tail
  { s with flights := s.flights.map fun f : Flight => { f with
      started := true, uses := [{ n := 5, out := false, count := 1, k := 0, base := 0x1000, slots := 2, lines := 1 }] } }

theorem witness_consume : ((consumer 1).flight 0).any (fun f => decide (f.phase = .dispatched ∧ f.started = true ∧ f.strict = false)
    && ((consumer 1).nextUse f).any fun u => decide (u.n = 5 ∧ (consumer 1).bound f.cls u = some f.unit ∧ u.k < 1 ∧ f.waitsAt 5 = some u)) = true
    ∧ (consumer 1).canon = true ∧ (consumer 0).canon = true ∧ ((consumer 0).mark 61450).toNat = 0 := by decide +kernel
theorem witness_consumer_starts : ((consuming 1).flight 0).any (fun f => decide (f.phase = .dispatched ∧ f.started = false ∧ dClass f.desc = 5)
    && (((consuming 1).begin f (classStart 5)).flight 0).any fun k => decide (k.uses = [{ n := 5, out := false, count := 1, k := 0, base := 0x1000, slots := 2, lines := 1 }])) = true := by decide +kernel
theorem witness_library : (fresh.setRegN (BLK_WORLD .ce 3) 0xFF00).regBit (BLK_WORLD .ce 3) 0 = false ∧ fresh.regBit (BLK_WORLD .ce 3) 0 = true := by decide

/-- What a release finds at the head of queue 0 of tenant 0 in a state. -/
def headOf (s : State) : Option (State × BitVec 1024) :=
  match s.readFor (.tenant 0) .hbm (s.regN (CMD_JQ_BASE 0 0)) 128 with
  | (s, .ok bs) => some (s, BitVec.ofNat 1024 (leNat bs))
  | _ => none
/-- A flight of queue 0 of tenant 0 that has come off a retiring engine, pinned to an index that names no unit. -/
def again : State :=
  { ready with flights := [{ (ready.newFlight 0 0 0 (plainDesc 3 2 + 0x3F80000000)) with cls := .ve, unit := 0, phase := .redispatch }] }
/-- A unit that takes tenant 0's descriptors. -/
def serves (s : State) (b : Blk) (u : Nat) : State :=
  (s.setRegN (BLK_WORLD b u) 0xFF00).setUnit b u { s.unitAt b u with st := .idle }
/-- A descriptor of queue 0 of tenant 0 at the head of the queue, its parameter block at the Bed's 64 KiB mapped at 0. -/
def blocked (d : BitVec 1024) (block : Bytes) : State :=
  { queued d with
    xlat := [{ tenant := 0, bed := true, off := 0, big := false, phys := 1, ro := false, poison := false, src := none },
             { tenant := 0, bed := false, off := 0, big := false, phys := 512, ro := false, poison := false, src := none }]
    bed := memWrite zeroByte [] 0x10000 block }
/-- The parameter block of a MOVE of 64 bytes whose source is trough 5. -/
def moveBlock : Bytes := leBytes 4 0x101 ++ leBytes 4 1 ++ [5] ++ List.replicate 23 0 ++ leBytes 4 64 ++ (List.range 5).flatMap fun _ => leBytes 4 1
/-- A SCAN descriptor of one position and 16 channels, its state named by handle 1. -/
def scanDesc : BitVec 1024 := BitVec.ofNat 1024 (4 + 16 + 256 + 2 ^ 0x380 + 16 * 2 ^ 0x3A0 + 2 ^ 0x3C0)
def scanBlock : Bytes :=
  leBytes 4 0x0E0E0E ++ leBytes 4 0x0A ++ (List.range 6).flatMap (fun _ => leBytes 4 64) ++ leBytes 8 1 ++ leBytes 4 64 ++ List.replicate 84 0

theorem witness_waiting_again : (again.waitingAgain 0 0 0).isSome = true ∧ again.up = true := by decide +kernel
theorem witness_held_back : (let s : State := { ready with flights := [{ (ready.newFlight 0 0 0 (plainDesc 4 1)) with phase := .waitMove, inRec := [(0, [])] }] }
    decide (s.waitingAgain 0 0 0 = none) && s.jqReady 0 0 && (s.flights.find? fun f => f.held && decide (f.tenant = 0) && decide (f.queue = 0)).isSome) = true := by
  decide +kernel
theorem witness_release_not : (headOf ((queued (plainDesc 15 0 + 0x10000 + (2 ^ 16 * 5) <<< 0x80)).setRegN (MK_WIN 0) 0x40000)).any (fun x =>
    decide (descBad x.1 x.2 = none ∧ x.1.markOutside 0 x.2 = none ∧ dWait x.2 0 = some (0, 5)) && !x.1.waitHolds 0 0 5 && !x.1.relHead.contains 0) = true := by
  decide +kernel
theorem witness_release_trough : (headOf (blocked (plainDesc 5 1) moveBlock)).any (fun x =>
    decide (descBad x.1 x.2 = none) && decide (x.1.troughBar .he 0 x.2 (blockStep x.1 (x.1.newFlight 0 0 0 x.2)).2 = some 5)) = true := by
  decide +kernel
theorem witness_release_scan : (headOf (blocked scanDesc scanBlock)).any (fun x =>
    decide (descBad x.1 x.2 = none ∧ x.1.troughBar .le 0 x.2 (blockStep x.1 (x.1.newFlight 0 0 0 x.2)).2 = none ∧ scanHandle x.1 0 x.2 = some 1)) = true := by
  decide +kernel
theorem witness_release_dispatch : (headOf (serves (queued (plainDesc 3 2 + (1 : BitVec 1024) <<< 0x380)) .ve 0)).any (fun x =>
    decide (descBad x.1 x.2 = none ∧ x.1.troughBar .ve 0 x.2 (blockStep x.1 (x.1.newFlight 0 0 0 x.2)).2 = none)
      && x.1.unitOk (x.1.newFlight 0 0 0 x.2) [] 0 && !x.1.unitOk (x.1.newFlight 0 0 0 x.2) [] 1) = true := by
  decide +kernel
theorem witness_release_poison : ((let s := queued (plainDesc 15 0)
    ({ s with hbmPoison := [0x2000000 / 64] } : State).readFor (.tenant 0) .hbm (s.regN (CMD_JQ_BASE 0 0)) 128).2) matches .error (0x40, _) := by
  decide +kernel

/-- A class 0x6 descriptor and the handle of a tensor at its first generation. -/
def qrrDesc (op handle arg0 arg1 arg2 ctl result : Nat) : BitVec 1024 :=
  BitVec.ofNat 1024 (6 + 16 + op * 256 + handle * 2 ^ 0x280 + arg0 * 2 ^ 0x2C0 + arg1 * 2 ^ 0x300 + arg2 * 2 ^ 0x340 + ctl * 2 ^ 0x380
    + result * 2 ^ 0x3C0)
def tensorAt (i : Nat) : Nat := 2 * 2 ^ 48 + 2 ^ 32 + i
/-- A tensor of 64 bytes of tenant 0. -/
def stored (off home : Nat) : Tensor :=
  { used := true, gen := 1, bytes := 64, hbmOff := BitVec.ofNat 64 off, bedOff := BitVec.ofNat 64 (2 ^ 64 - 1), home := home, ro := false
    digested := true, poisoned := false, moving := false, nandOk := true, tenant := 0, moves := 0, scrubbed := 0, digest := 0 }
/-- Tensors 0 and 1 in HBM with a granule each, tensor 2 without a home, tensor 3 of another tenant, and one descriptor of class 0x6. -/
def quarrying (d : BitVec 1024) : State :=
  { fresh.setRegN QC_SCRUB_CTL 1 with
    tensors := [(0, stored 0x10000 2), (1, stored 0x20000 2), (2, stored 0x30000 0), (3, { stored 0 0 with tenant := 1 })]
    xlat := [{ tenant := 0, bed := false, off := 0, big := false, phys := 512, ro := false, poison := false, src := none },
             { tenant := 0, bed := false, off := 1, big := false, phys := 513, ro := false, poison := false, src := some 0 },
             { tenant := 0, bed := false, off := 2, big := false, phys := 514, ro := false, poison := false, src := some 1 }]
    flights := [{ (fresh.newFlight 0 0 0 d) with cls := .qc, unit := 0 }], nextFlight := 1 }
/-- What the claims about class 0x6 suppose of a descriptor. -/
def quarryReady (s : State) (op : Nat) : Bool :=
  (s.flight 0).any fun f => s.up && decide (f.phase = .dispatched ∧ dClass f.desc = 6 ∧ dOp f.desc = op) && s.quarryTurn f

theorem witness_quarry : ([1, 2, 3, 5, 6, 7].all fun op => quarryReady (quarrying (qrrDesc op (tensorAt 0) (tensorAt 1) 0 0 0 0)) op) = true := by decide +kernel
theorem witness_handles : (quarrying 0).resolve 0 (tensorAt 4) matches .error 0x10 := by decide +kernel
theorem witness_handle_tenant : (quarrying 0).resolve 0 (tensorAt 3) matches .error 0x11 := by decide +kernel
theorem witness_handle_good : (quarrying 0).resolve 0 (tensorAt 1) matches .ok 1 := by decide +kernel
theorem witness_create : lowestTensor (quarrying 0).tensors 0 = 4
    ∧ firstOverlap ((quarrying 0).spaceHeld 0 false) 0x20000 65536 = some 0x20000 ∧ firstOverlap ((quarrying 0).spaceHeld 0 false) 0x40000 65536 = none := by
  decide +kernel
theorem witness_create_result : ((Work.start (quarrying 0) 0 false).result (Qrr.of (qrrDesc 1 0 0 0 64 0 (2 ^ 48))) [0]).err = none
    ∧ ((Work.start (quarrying 0) 0 false).result (Qrr.of (qrrDesc 1 0 0 0 64 0 (2 ^ 48 + 0x900000))) [0]).err.isSome = true := by decide +kernel
theorem witness_swap_pinned : (let s := quarrying 0
    ({ s with flights := [{ (s.newFlight 0 0 0 (plainDesc 4 1)) with pin := some 0 }] } : State).pinned 0) = true := by decide +kernel
theorem witness_swap_sound : (let s := quarrying 0
    decide ((s.tensor 0).bytes = (s.tensor 1).bytes ∧ (s.tensor 0).home = (s.tensor 1).home ∧ (s.tensor 0).moving = false ∧ (s.tensor 1).moving = false
      ∧ s.pinned 0 = false ∧ s.pinned 1 = false ∧ s.inBuild 0 = false ∧ s.inBuild 1 = false)) = true := by decide +kernel
theorem witness_scrub : ((quarrying 0).scrubTensor 0 []).2 = 0x42 ∧ ((quarrying 0).scrubTensor 2 []).2 = 0x42
    ∧ (({ quarrying 0 with hbmPoison := [513 * 1024] } : State).scrubTensor 0 []).2 = 0x41
    ∧ (({ quarrying 0 with tensors := [(0, { stored 0x10000 2 with digested := false })] } : State).scrubTensor 0 []).2 = 0 := by decide +kernel
theorem witness_scrub_pass : (quarrying 0).regBit QC_SCRUB_CTL 0 = true ∧ ((quarrying 0).tensor 0).digested = true ∧ (quarrying 0).inMove 0 = false
    ∧ (quarrying 0).inBuild 0 = false ∧ (fresh.setRegN QC_SCRUB_CTL 0).regBit QC_SCRUB_CTL 0 = false := by decide +kernel

/-- The same with quotas and every NAND channel in service; and one scheduled move or MOVE descriptor under way on tensor 2. -/
def quotas (s : State) : State :=
  (((s.setRegN (QC_QBED 0) 64).setRegN (QC_QHBM 0) 64).setRegN (QC_QNAND 0) 64).setRegN QC_NAND_STATUS 0xFFFF0001
def movingTo (tier home : Nat) (by_ : MoveBy) : State :=
  { quarrying 0 with
    tensors := [(2, { stored 0x30000 home with moving := true })]
    flights := [{ (fresh.newFlight 0 0 0 (qrrDesc 3 (tensorAt 2) 0 0 0 0 0)) with cls := .qc, unit := 0, phase := .running }]
    moves := [{ idx := 2, tier := tier, by_ := by_, ents := [] }] }

theorem witness_move_start : ([(2, 0), (1, 0), (3, 0), (2, 2)].all fun (x : Nat × Nat) => (quarrying 0).moveReady x.2 x.1 || x.1 == 3) = true
    ∧ ((quarrying 0).tensor 0).home = 2 ∧ ((quarrying 0).tensor 0).off true = none ∧ ((quarrying 0).tensor 2).off false ≠ none
    ∧ (quarrying 0).nandRo = false ∧ (quarrying 0).regN (QC_QHBM 0) = 0 := by decide +kernel
/-- A granule finds its place wherever the search from a free value starts: the search from 0 finds one. -/
theorem place_one {s : State} {t o : Nat} {bed ro : Bool} {src : Option Nat}
    (h : (fitFuel (s.taken bed []) (tierUnits bed) 1 ((s.taken bed []).length + 1) 0).isSome = true) :
    (s.placeGranules t bed ro src [(o, false)]).2.isSome = true := by
  unfold State.placeGranules
  dsimp only [List.foldl]
  cases hf : s.fit bed [] (if (false : Bool) = true then 32 else 1) with
  | some p => rfl
  | none =>
    have hn : (fitFuel (s.taken bed []) (tierUnits bed) 1 ((s.taken bed []).length + 1) 0) = none := by
      have := hf
      unfold State.fit at this
      simp only [Bool.false_eq_true, if_false, Option.or_eq_none_iff] at this
      exact this.2
    rw [hn] at h
    cases h
theorem witness_move_fits : (let s := quotas (quarrying 0); let x := s.tensor 2
    decide (s.usage 0 false + granCharge (x.gran false) ≤ s.regN (QC_QHBM 0))
      && s.nandQuotaOk 0 (units64 x.bytes) && !(quarrying 0).nandQuotaOk 0 (units64 x.bytes)) = true := by decide +kernel
theorem witness_nand_ready : (let s := { quarrying 0 with hbmReady := true }.setRegN QC_NAND_STATUS 1; s.nandReady && s.moveReady 0 3) = true := by decide +kernel
theorem witness_move_done : ([(2, 0), (3, 2), (1, 3)].all fun (x : Nat × Nat) =>
    let s := movingTo x.1 x.2 (.flight 0)
    (s.moves.find? fun m => decide (m.idx = 2)).isSome && !s.tensorDamaged 2 && !(s.tensor 2).poisoned && !s.nandRo
      && (s.flight 0).any fun f => decide (f.phase = .running ∧ dClass f.desc = 6 ∧ dOp f.desc = 3) && s.inMove 2 && !s.pinned 2 && !s.inMove 0) = true := by
  decide +kernel
theorem witness_move_read_only : ((movingTo 3 2 (.flight 0)).setRegN QC_NAND_STATUS 4).nandRo = true := by decide +kernel
theorem witness_move_wait : (let s := { movingTo 1 2 (.flight 0) with flights := [{ (fresh.newFlight 0 0 0 (plainDesc 4 1)) with phase := .waitMove }] }
    (s.flight 0).any fun f => decide (f.phase = .waitMove)) = true := by decide +kernel

/-- A shard image of one row of 4 bytes as they are, its digest in place or not, at 0 of tenant 0's HBM space. -/
def shardHead : Bytes :=
  leBytes 4 0x44524853 ++ leBytes 2 1 ++ leBytes 2 0x80 ++ leBytes 8 4 ++ leBytes 8 4 ++ [0, 0, 9, 9, 0, 0, 0, 0] ++ leBytes 4 1 ++ leBytes 4 4 ++ leBytes 8 4
    ++ List.replicate 16 0
def shardImage (good : Bool) : Bytes :=
  shardHead ++ (if good then sha256 (shardHead ++ [1, 2, 3, 4]) else List.replicate 32 0) ++ List.replicate 32 0 ++ [1, 2, 3, 4]
/-- An INTAKE of it to HBM for a tensor, with a commit wait. -/
def intakeDesc (i wait : Nat) : BitVec 1024 := qrrDesc 4 (tensorAt i) (2 ^ 48) 132 wait 2 0
def intaking (i wait : Nat) (good : Bool) : State :=
  { quotas ((quarrying (intakeDesc i wait)).setRegN (MK_WIN 0) 0x40000) with hbm := memWrite zeroByte [] 0x2000000 (shardImage good) }
/-- An intake that builds, or has built and waits for its commit. -/
def building (built good : Bool) (wait : Nat) : State :=
  { intaking 2 wait good with
    builds := [{ id := 0, idx := 2, tier := 2, tenant := 0, data := (shardImage good).take 128, built := built, ents := [], wait := BitVec.ofNat 64 wait }] }

theorem witness_place : ((quotas (quarrying 0)).placeGranules 0 false false (some 2) (((quotas (quarrying 0)).tensor 2).gran false)).2.isSome = true
    ∧ ((intaking 2 0 true).placeGranules 0 false false (some 2) (((intaking 2 0 true).tensor 2).gran false)).2.isSome = true :=
  ⟨place_one (by decide +kernel), place_one (by decide +kernel)⟩
theorem witness_intake : quarryReady (intaking 2 0 true) 4 = true ∧ (intaking 2 0 true).builds.length < 8 := by decide +kernel
theorem witness_intake_shard : (let s := intaking 2 0 true
    match (Work.start s 0 false).read (2 ^ 48) 128 with
    | (w, b) => decide (w.err = none ∧ firstBad (({ b := b } : Shard).bad 132) = none ∧ ({ b := b } : Shard).outLen = 4)
        && (let x := w.s.tensor 2; decide (w.s.usage 0 false + granCharge (x.gran false) ≤ w.s.regN (QC_QHBM 0)))) = true := by decide +kernel
theorem witness_intake_bad : (let s := intaking 2 0 true
    match (Work.start s 0 false).read (2 ^ 48) 128 with
    | (_, b) => decide (firstBad (({ b := b } : Shard).bad 131) = some 8)) = true
    ∧ ((Work.start (intaking 2 0 true) 0 false).read 0 128).1.err.isSome = true
    ∧ (intaking 2 0 true).markOf 0 4 = none ∧ (intaking 2 0 true).markOf 0 3 = some 3 := by decide +kernel
theorem witness_build : ([true, false].all fun good =>
    let s := building false good 0
    (s.builds.find? fun b => decide (b.id = 0) && !b.built).isSome
      && match (Work.start s 0 false).read (2 ^ 48 + 128) 4 with
        | (w, pay) => decide (w.err = none ∧ pay = [1, 2, 3, 4]) && (({ b := (shardImage good).take 128 } : Shard).expand pay).toOption.isSome) = true := by
  decide +kernel
theorem witness_build_digest : sha256 (((shardImage true).take 128).take 64 ++ [1, 2, 3, 4]) = (((shardImage true).take 128).drop 64).take 32
    ∧ sha256 (((shardImage false).take 128).take 64 ++ [1, 2, 3, 4]) ≠ (((shardImage false).take 128).drop 64).take 32 := by decide +kernel
theorem witness_build_expand : ({ b := ((shardImage true).take 128).set 0x10 5 } : Shard).expand [1, 2, 3, 4] matches .error 0x10 := by decide +kernel
theorem witness_commit : (let s := building true true 0
    (s.builds.find? fun b => decide (b.id = 0) && b.built).any fun b => s.commitHolds b && !s.pinned b.idx) = true
    ∧ ((building true true 0x50000).builds.any fun b => !(building true true 0x50000).commitHolds b) = true := by decide +kernel

/-- A schedule of tenant 0 with two entries at 0 of its HBM space: the first waits for mark 0 to reach `target`. -/
def scheduled (stat pass entry target : Nat) : State :=
  let s := { quotas (quarrying 0) with
    hbm := memWrite zeroByte [] 0x2000000 (leBytes 8 (tensorAt 0) ++ leBytes 8 (target * 65536) ++ leBytes 8 0 ++ leBytes 8 2)
    sched := [(0, { pass := pass, entry := entry })] }
  ((((s.setRegN (QC_SCHED_STAT 0) stat).setRegN (QC_TMODE 0) 1).setRegN (QC_SCHED_LEN 0) 2).setRegN (QN_TSTAT 0) 1).setRegN (MK_WIN 0) 0x40000
theorem witness_schedule : (scheduled 1 0 0 0).field (QC_SCHED_STAT 0) 1 0 = 1 ∧ (scheduled 2 0 0 0).field (QC_SCHED_STAT 0) 1 0 = 2
    ∧ fresh.field (QC_SCHED_STAT 0) 1 0 = 0 ∧ (scheduled 1 0 0 0).regBit (QC_TMODE 0) 0 = true ∧ (scheduled 1 0 0 0).slot 0 = 1
    ∧ (scheduled 1 0 0 0).field (QC_SCHED_LEN 0) 15 0 = 2 := by decide +kernel
theorem witness_schedule_entry : ([0, 5].all fun target =>
    match (scheduled 1 0 0 target).readFor (.tenant 0) .hbm 0 32 with
    | (u, .ok b) => decide (leNat ((b.drop 8).take 8) = target * 65536 ∧ u.markOf 0 0 = some 0 ∧ (u.mark 0).toNat = 0)
    | _ => false) = true := by decide +kernel
theorem witness_schedule_unread : ((scheduled 1 0 0 0).readFor (.tenant 0) .hbm 0x40000 32).2 matches .error _ := by decide +kernel
theorem witness_schedule_start : (let s := { (scheduled 1 0 0 0).setRegN (QC_SCHED_DEPTH 0) 1 with flights := [] }
    [(tensorAt 0, 2), (tensorAt 0, 0), (tensorAt 4, 2), (tensorAt 2, 2)].all fun (x : Nat × Nat) =>
      s.schedReady { id := 1, t := 0, entry := 0, h := x.1, tier := x.2, sig := 0 }) = true
    ∧ (scheduled 1 0 0 0).schedReady { id := 1, t := 0, entry := 0, h := tensorAt 0, tier := 3, sig := 0 } = false := by decide +kernel
theorem witness_schedule_next : 0 + 1 < (scheduled 1 0 0 0).field (QC_SCHED_LEN 0) 15 0 ∧ (scheduled 1 0 1 0).field (QC_SCHED_LEN 0) 15 0 ≤ 1 + 1 := by
  decide +kernel

/-- HBM trained and filled, with requests waiting in pseudo-channel 0's controller. -/
def footing (q : List HbmWait) : State :=
  { (((List.range 8).foldl (fun u i => u.setBit (FC_STATUS i) 0 true) fresh).setRegN (FC_CTL 0) 3) with hbmReady := true, hbmQ := q }
/-- A request at a place of pseudo-channel 0, of a port. -/
def waitAt (port : Fin 10) (row age : Nat) (wr : Option Bytes) : HbmWait :=
  { req := { port := port, flight := none, off := 0, wr := wr }, pc := 0, bank := 0, row := row, at_ := age }

theorem witness_hbm_request : (footing []).hbmReady = true ∧ (footing []).regBit (BLK_CTL .fc 0) 1 = false ∧ fresh.hbmReady = false ∧ (footing []).canon = true
    ∧ ((footing (List.replicate 64 (waitAt 0 0 0 (some [1])))).hbmQ.filter fun w => decide (w.pc = 0) && w.req.wr.isSome).length = 64
    ∧ ((footing (List.replicate 63 (waitAt 0 0 0 (some [1])))).hbmQ.filter fun w => decide (w.pc = 0) && w.req.wr.isSome).length = 63 := by decide +kernel
theorem witness_refresh : (footing []).regBit (FC_STATUS 0) 0 = true ∧ fresh.regBit (FC_STATUS 0) 0 = false
    ∧ smapGet (fun _ => 0) ({ footing [] with hbmDue := [(5, 8)] } : State).hbmDue 5 = 8 ∧ smapGet (fun _ => 0) (footing []).hbmDue 5 = 0 := by decide +kernel
theorem witness_issue_refresh : (({ footing [] with hbmDue := [(47, 1)] } : State).hbmDue.map Prod.fst).find? (fun k => decide (k / 48 = 0)) = some 47 := by decide
theorem witness_issue_trr : ({ footing [] with hbmTrrDue := [(3, 7)] } : State).hbmTrrDue.find? (fun x => decide (x.1 / 48 = 0)) = some (3, 7) := by decide
theorem witness_issue : (let s := footing [waitAt 0 5 0 none, waitAt 2 6 0 (some [1])]; let u := s.drainUpdate 0
    (u.hbmQ.filter fun w => decide (w.pc = 0) && (w.req.wr.isNone || u.hbmDrain.contains 0)).isEmpty = false
      ∧ s.hbmDue = [] ∧ s.hbmTrrDue = [] ∧ (s.poisonAt .hbm 0 = false) ∧ ({ s with hbmPoison := [0] } : State).poisonAt .hbm 0 = true) := by decide +kernel
theorem witness_trr_table : ([(5, 3)].find? fun (e : Nat × Nat) => decide (e.1 = 5)) = some (5, 3)
    ∧ ((List.replicate 16 (1, 3)).find? fun (e : Nat × Nat) => decide (e.1 = 5)) = none ∧ minOr 0 ((List.replicate 16 (1, 3)).map Prod.snd) + 1 < 5 := by decide
/-- A row enters the table, and reaches a threshold of 4 (R287). -/
theorem test_trr : trrStep 4 [] 9 = ([(9, 1)], false) ∧ trrStep 4 [(9, 3)] 9 = ([(9, 0)], true) := by decide
/-- Address 0x12_3456_7A40 lies in pseudo-channel 107, bank group 4 and bank 3 of stack ID 2, row 2257 (Example 11.1). -/
theorem test_example_11_1 : (let p := fresh.hbmPlace 0x1234567A40; decide (p.pc = 107 ∧ p.bank = 16 * 2 + 4 * 3 + 3 ∧ p.row = 2257)) = true := by decide +kernel

theorem witness_training : fresh.fw.booted = false ∧ ({ fresh with fw := { fresh.fw with booted := true } } : State).fw.booted = true
    ∧ (List.range 8).all (fun i => !fresh.regBit (FC_STATUS i) 0) = true ∧ (List.range 8).all (fun i => (footing []).regBit (FC_STATUS i) 0) = true
    ∧ ({ footing [] with hbmReady := false } : State).hbmReady = false := by decide +kernel
theorem witness_patrol : (footing []).regBit (FC_CTL 0) 0 = true ∧ fresh.hbmReady = false := by decide +kernel
/-- The eye of a sweep with one longest run. -/
theorem eye_single {free k a n : Nat} {v : BitVec 128}
    (h : (runsFuel v 128 0 none).filter (fun r => decide (r.2 = maxOr 0 ((runsFuel v 128 0 none).map Prod.snd))) = [(a, n)]) :
    eyeOf free k v = ((a + (a + n - 1)) / 2, n) := by
  unfold eyeOf
  dsimp only
  rw [h]
  simp [Nat.mod_one]
/-- Delays 40 to 63 pass, and 40 to 62. -/
def eye24 : BitVec 128 := BitVec.ofNat 128 (2 ^ 64 - 2 ^ 40)
def eye23 : BitVec 128 := BitVec.ofNat 128 (2 ^ 63 - 2 ^ 40)
theorem eye24_is (free k : Nat) : eyeOf free k eye24 = (51, 24) := eye_single (v := eye24) (a := 40) (n := 24) (by decide +kernel)
theorem eye23_is (free k : Nat) : eyeOf free k eye23 = (51, 23) := eye_single (v := eye23) (a := 40) (n := 23) (by decide +kernel)
/-- An eye of 24 steps is wide enough, one of 23 is not (R289). -/
theorem witness_eyes (free k : Nat) : bit (trnOf free k eye24 eye24) 28 = false ∧ bit (trnOf free k eye24 eye23) 28 = true
    ∧ eye24.getLsbD 40 = true := by
  unfold trnOf
  rw [eye24_is, eye24_is, eye23_is]
  decide
theorem witness_lane : ({ lane := 0, rd := 0, wr := 0, bits := List.replicate 8 (0, 0) } : Sweep).bits.length = 8 := by decide

/-- A retrain of channel 3 of controller 0 that has had some windows. -/
def retraining (windows : Nat) : State := { footing [] with retrain := [(0, { ch := 3, windows := windows })] }
theorem witness_retrain : smapFind (retraining 1023).retrain 0 = some { ch := 3, windows := 1023 } ∧ smapFind (footing []).retrain 0 = none
    ∧ (retraining 1024).hbmDue = [] ∧ (retraining 1024).hbmTrrDue = [] ∧ bit (0x103 : Word).toNat 8 = true ∧ bit (0x3 : Word).toNat 8 = false := by decide +kernel
theorem witness_retrain_due : ({ retraining 0 with hbmDue := [(96 * 3, 1)] } : State).hbmDue.any (fun e => decide (e.1 / 96 = 16 * 0 + 3)) = true := by decide +kernel
theorem witness_auto : (footing []).regBit (FC_CTL 0) 1 = true ∧ (fresh.setRegN (FC_CTL 0) 0).regBit (FC_CTL 0) 1 = false := by decide +kernel
theorem witness_asked : (0, 3) ∈ ({ footing [] with retrainReq := [(0, 3), (0, 1)] } : State).retrainReq
    ∧ (({ footing [] with retrainReq := [(0, 3), (0, 1)] } : State).retrainReq.filter fun r => decide (r.1 = 0)).map Prod.snd = [3, 1] := by decide
/-- Windows are counted to 1,024 (R291). -/
theorem test_windows : (match exec (.retrainWindow 0) (retraining 1023) with
    | .next t => decide (t.field (FC_RETRAIN_STAT 0) 31 16 = 1024)
    | _ => false) = true ∧ (match exec (.retrainWindow 0) (retraining 1024) with
    | .next t => decide (t = retraining 1024)
    | _ => false) = true := by decide +kernel

/-- NAND channel 0 trained, with a superblock that holds a unit in erase block 7, one to be erased, and one worn far more. -/
def flash : State :=
  { (fresh.setRegN QC_NAND_STATUS 0xFFFF0001).setRegN (QC_NCH_STAT 0) 1 with
    nandSb := [{ ch := 0, idx := 0, erases := 5, reads := [(7, 0xFFFFFF)], units := [{ idx := 3, unit := 0, blk := 7 }], st := .holding },
               { ch := 0, idx := 1, erases := 9, reads := [], units := [], st := .dirty },
               { ch := 0, idx := 2, erases := 0xFFFFF, reads := [], units := [], st := .free }] }

theorem witness_nand_training : fresh.nandTrained 3 = false ∧ flash.nandTrained 0 = true := by decide +kernel
theorem witness_nand_erase : (flash.superblock 0 1).st = .dirty ∧ flash.nandIn 0 = true ∧ (flash.superblock 0 0).st = .holding := by decide +kernel
theorem witness_nand_retrain : signedOf 8 20 = 20 ∧ signedOf 8 0xEC = -20 ∧ fresh.nandIn 0 = false := by decide +kernel
theorem witness_wear : (flash.nandSb.filter fun b => decide (b.st = .holding)) ≠ [] ∧ flash.nandEc.2 = 0xFFFFF
    ∧ flash.nandEc.1 ≤ 5 ∧ flash.field QC_NAND_WL_DELTA 15 0 + 5 < 0xFFFFF := by
  refine ⟨by decide, by decide, ?_, by decide +kernel⟩
  show (if flash.nandSb.length < 16 * Config.nandSuperblocks then 0 else minOr 0 (flash.nandSb.map (·.erases))) ≤ 5
  split
  · exact Nat.zero_le 5
  · decide
theorem witness_disturb : (flash.superblock 0 0).units.filter (fun u => decide (u.blk = 7)) ≠ []
    ∧ flash.field QC_NAND_RD_THRESH 23 0 ≤ smapGet (fun _ => 0) (flash.superblock 0 0).reads 7
    ∧ (flash.superblock 0 0).units.filter (fun u => decide (u.blk = 8)) = [] := by decide +kernel

/-- The Plinth's bank 1 with an operation, and the writes of Table 12.3. -/
def plinth (o : Option PlOp) : State := fresh.setPlBank 1 { seq := .read, op := o, held := none }
def plOp (erase susp : Bool) (block : Nat) : PlOp :=
  { erase := erase, block := block, line := 4096 * block, data := List.replicate 32 0, auto := false, susp := susp, asked := false, fetch := none }

theorem witness_plinth : (plinth none).canon = true ∧ ((plinth none).plBank 1).seq = .read ∧ ((plinth none).plBank 1).op = none
    ∧ ((plinth (some (plOp true false 300))).plBank 1).op = some (plOp true false 300) ∧ (plOp true false 300).susp = false
    ∧ ((plinth (some (plOp true true 300))).plBank 1).op = some (plOp true true 300) ∧ (plinth (some (plOp true true 300))).plEraseHeld = true
    ∧ (plinth none).plLocked 300 = false ∧ (plinth none).plIndet 300 = false := by decide +kernel
theorem witness_plinth_refused : ((plinth none).setRegN (PL_WP (300 / 32)) 0xFFFFFFFF).plLocked 300 = true
    ∧ ((plinth none).setRegN (PL_INDET (300 / 32)) 0xFFFFFFFF).plIndet 300 = true := by decide +kernel
theorem witness_plinth_data : ({ seq := .prog false 0x40 [1], op := none, held := none } : PlBank).seq = .prog false 0x40 [1] ∧ 0x40 + 4 * 1 ≠ 0x40 := by decide

/-- The erase of block 300 of Example 12.1. -/
def example121 : State :=
  match exec (.eraseBlock [(0x22001554, 0xAA), (0x22000AA8, 0x55), (0x22001554, 0x80), (0x22001554, 0xAA), (0x22000AA8, 0x55), (0x22580000, 0x31)])
      { fresh with plEc := [(300, 4117)] } with
  | .next t => t
  | _ => fresh
theorem test_example_12_1 : example121.plBusy 1 = true ∧ smapFind example121.plEc 300 = some 4118 ∧ smapFind example121.plMark 300 = some false
    ∧ ((example121.plBank 1).op.any fun o => o.auto && o.erase && decide (o.block = 300)) = true := by decide +kernel
/-- A fetch from block 256 asks for an auto-suspend; one from block 300 takes the exception. -/
theorem test_example_12_1_fetch : (match exec (.quoinFetch 0x22000400) example121 with
    | .next t => (t.plBank 1).op.any fun o => o.asked && decide (o.fetch = some 0x2000400)
    | _ => false) = true ∧ (match exec (.quoinFetch 0x22580100) example121 with
    | .next t => decide (t.regN PL_FAULT_ADDR = 2 ^ 31 + 0x2580100)
    | _ => false) = true := by decide +kernel
theorem test_example_12_1_end : (match exec (.plinthEraseDone true true) example121 with
    | .next t => decide (t.regN (plStat 1) = 0x012C3004 ∧ t.plMark = [])
    | _ => false) = true := by decide +kernel

theorem witness_plinth_ends : ((plinth (some { plOp true false 300 with asked := true })).plBank 1).op.any (fun o => o.asked && !o.susp) = true
    ∧ ((plinth (some { plOp true true 300 with fetch := some 0x2000400 })).plBank 1).op.any (fun o => o.susp && o.fetch.isSome) = true
    ∧ (plinth (some { plOp true true 300 with fetch := some 0x2000400 })).plBusy 0 = false
    ∧ (plinth (some { plOp true true 300 with fetch := some 0x2000400 })).plBusy 1 = false
    ∧ ((plinth (some (plOp false false 300))).plBank 1).op.any (fun o => !o.erase && !o.susp && decide (o.data.length = 32)) = true := by decide +kernel
theorem witness_plinth_held : ({ seq := .read, op := some (plOp false false 301), held := some (plOp true true 300) } : PlBank).held.isSome = true
    ∧ smapWf resetOf fresh.regs = true ∧ fresh.plFree = true ∧ (plinth (some (plOp true false 300))).plFree = false := by decide +kernel
theorem witness_fetch : (0x22000400 : Word).toNat = 0x20000000 + 0x2000400 ∧ (0x24000000 : Word).toNat ≥ 0x24000000 ∧ fresh.regBit PL_XIP_CTL 0 = true
    ∧ fresh.regBit PL_XIP_CTL 1 = true ∧ (fresh.setRegN PL_XIP_CTL 0).regBit PL_XIP_CTL 0 = false := by decide +kernel

/-- A configuration record (Table 17.2), and the Plinth after some are written over its copies. -/
def recordOf (seq svn : Nat) : CfgRec :=
  { seq := seq, minSvn := BitVec.ofNat 32 svn, slotB := false, spares := [], retired := [], bedmap := [], repairs := [] }

theorem crcByte_lt {c : Nat} (h : c < 2 ^ 32) (b : Byte) : crc32Byte c b < 2 ^ 32 := by
  unfold crc32Byte
  have hstep : ∀ (l : List Nat) (x : Nat), x < 2 ^ 32 → l.foldl (fun c _ => if c % 2 = 1 then Nat.xor (c / 2) 0xEDB88320 else c / 2) x < 2 ^ 32 := by
    intro l
    induction l with
    | nil => exact fun x hx => hx
    | cons a l ih =>
      intro x hx
      refine ih _ ?_
      show (if x % 2 = 1 then Nat.xor (x / 2) 0xEDB88320 else x / 2) < 2 ^ 32
      split
      · exact Nat.xor_lt_two_pow (by omega) (by decide)
      · omega
  exact hstep _ _ (Nat.xor_lt_two_pow h (by have := b.isLt; omega))
theorem crc_lt (bs : Bytes) : crc32 bs < 2 ^ 32 := by
  unfold crc32
  have hf : ∀ (l : Bytes) (x : Nat), x < 2 ^ 32 → l.foldl crc32Byte x < 2 ^ 32 := by
    intro l
    induction l with
    | nil => exact fun x hx => hx
    | cons a l ih => exact fun x hx => ih _ (crcByte_lt hx a)
  exact Nat.xor_lt_two_pow (hf bs _ (by decide)) (by decide)
theorem leNat_leBytes (n v : Nat) : leNat (leBytes n v) = v % 256 ^ n := by
  induction n generalizing v with
  | zero => rw [Nat.pow_zero, Nat.mod_one]; rfl
  | succ n ih =>
    show (BitVec.ofNat 8 v).toNat + 256 * leNat (leBytes n (v / 256)) = _
    rw [ih, BitVec.toNat_ofNat, show 256 ^ (n + 1) = 256 * 256 ^ n from Nat.pow_succ', Nat.mod_mul]
theorem flat_length {α : Type} (n k : Nat) (f : Nat → List α) (h : ∀ i, (f i).length = k) : ((List.range n).flatMap f).length = n * k := by
  induction n with
  | zero => simp
  | succ n ih => rw [List.range_succ, List.flatMap_append, List.length_append, ih]; simp [h, Nat.succ_mul]
/-- The encoding of a record is valid. -/
theorem record_valid (r : CfgRec) : cfgValid r.bytes = true ∧ r.bytes.length = 1024 ∧ pfield r.bytes 8 8 = r.seq % 2 ^ 64 := by
  obtain ⟨body, hb, hl, h0⟩ : ∃ body, r.bytes = body ++ leBytes 4 (crc32 body) ∧ body.length = 0x3FC
      ∧ ∃ rest, body = leBytes 4 0x47464E43 ++ leBytes 2 1 ++ leBytes 2 0x400 ++ leBytes 8 r.seq ++ rest := by
    unfold CfgRec.bytes
    dsimp only
    refine ⟨_, rfl, ?_, leBytes 4 r.minSvn.toNat ++ leBytes 1 (flag r.slotB) ++ List.replicate 11 0
      ++ (List.range 6).flatMap (fun c => leBytes 8 (r.spares.getD c 0).toNat ++ leBytes 8 (r.retired.getD c 0).toNat)
      ++ (List.range 64).flatMap (fun i => leBytes 4 (r.bedmap.getD i 0).toNat)
      ++ (List.range 128).flatMap (fun i => leBytes 2 (r.repairs.getD i 0).toNat) ++ List.replicate 0x17C 0, ?_⟩
    · simp only [List.length_append, leBytes_length, List.length_replicate]
      rw [flat_length 6 16 _ (fun i => by simp [leBytes_length]), flat_length 64 4 _ (fun i => leBytes_length _ _),
        flat_length 128 2 _ (fun i => leBytes_length _ _)]
    · simp only [List.append_assoc]
  obtain ⟨rest, h0⟩ := h0
  have hcrc : (r.bytes.drop 0x3FC).take 4 = leBytes 4 (crc32 body) ∧ r.bytes.take 0x3FC = body := by
    rw [hb, ← hl]
    exact ⟨by rw [List.drop_left]; exact List.take_of_length_le (Nat.le_of_eq (leBytes_length _ _)), List.take_left⟩
  have hhead : r.bytes = leBytes 4 0x47464E43 ++ (leBytes 2 1 ++ (leBytes 2 0x400 ++ (leBytes 8 r.seq ++ (rest ++ leBytes 4 (crc32 body))))) := by
    rw [hb, h0]; simp only [List.append_assoc]
  refine ⟨?_, by rw [hb, List.length_append, leBytes_length, hl], ?_⟩
  · unfold cfgValid cfgCrcOk
    have e : pfield r.bytes 0x3FC 4 = crc32 (r.bytes.take 0x3FC) := by
      unfold pfield
      rw [hcrc.1, hcrc.2, leNat_leBytes, Nat.mod_eq_of_lt (show crc32 body < 256 ^ 4 from crc_lt _)]
    rw [e, hhead]
    simp [pfield, leBytes, leNat]
  · rw [hhead, ← List.append_assoc, ← List.append_assoc]
    unfold pfield
    rw [List.drop_left' (by simp [leBytes_length]), List.take_left' (leBytes_length _ _)]
    exact (leNat_leBytes 8 r.seq).trans (congrArg (r.seq % ·) (by decide))

theorem calm_fresh : Calm fresh := ⟨by decide, by decide, fun b hb => by rcases hb with rfl | rfl <;> decide⟩
/-- A copy just written reads as the record. -/
theorem copy_is {s : State} {blk : Nat} (hb : blk < 512) (hc : Calm s) (hl : s.plLocked blk = false) (r : CfgRec) :
    (s.writeCopy r.bytes blk).cfgCopy blk = r.bytes := by
  obtain ⟨-, -, h⟩ := copy_written hb r.bytes (record_valid r).2.1 hc hl
  refine List.ext_getElem (by simp [State.cfgCopy, memRead, (record_valid r).2.1]) fun i h1 h2 => ?_
  have hi : i < 1024 := by rw [(record_valid r).2.1] at h2; exact h2
  have : (s.writeCopy r.bytes blk).cfgCopy blk = (List.range 1024).map fun j => memByte erasedByte (s.writeCopy r.bytes blk).plArray (blk * plBlock + j) := rfl
  simp only [this, List.getElem_map, List.getElem_range]
  rw [h, if_pos (by unfold plBlock; omega)]
  unfold plBlock
  rw [show blk * 131072 + i - blk * 0x20000 = i by omega, List.getD_eq_getElem?_getD, List.getElem?_eq_getElem h2]
  rfl
/-- A copy of another block is as it was. -/
theorem copy_other {s : State} {blk c : Nat} (hb : blk < 512) (hc : Calm s) (hl : s.plLocked blk = false) (hn : c ≠ blk) (r : CfgRec) :
    (s.writeCopy r.bytes blk).cfgCopy c = s.cfgCopy c := by
  obtain ⟨-, -, h⟩ := copy_written hb r.bytes (record_valid r).2.1 hc hl
  unfold State.cfgCopy memRead
  refine List.map_congr_left fun j hj => ?_
  have hj := List.mem_range.1 hj
  show memByte erasedByte (s.writeCopy r.bytes blk).plArray (c * plBlock + j) = memByte erasedByte s.plArray (c * plBlock + j)
  rw [h, if_neg (by unfold plBlock; omega), if_neg (by unfold plBlock; omega)]
/-- Two records over copies 1 and 2: the first start of Example 17.2 (SEQ 42 and 41, copy 3 unreadable), and its third (SEQ 42 twice, with
different minimum SVNs). -/
def copies (a b : CfgRec) : State := (fresh.writeCopy a.bytes 4).writeCopy b.bytes 256
theorem witness_config (a b : CfgRec) : (copies a b).cfgCopy 4 = a.bytes ∧ (copies a b).cfgCopy 256 = b.bytes ∧ cfgValid ((copies a b).cfgCopy 4) = true
    ∧ cfgValid ((copies a b).cfgCopy 256) = true ∧ (copies a b).plIndet 256 = false ∧ Calm (copies a b) := by
  obtain ⟨g, gi, -⟩ := copy_written (by decide : 4 < 512) a.bytes (record_valid a).2.1 calm_fresh (by decide)
  have hl : (fresh.writeCopy a.bytes 4).plLocked 256 = false := (rest_locked g 256 (by decide)).trans (by decide)
  obtain ⟨k, ki, -⟩ := copy_written (by decide : 256 < 512) b.bytes (record_valid b).2.1 g.1 hl
  have e1 : (copies a b).cfgCopy 4 = a.bytes := (copy_other (by decide) g.1 hl (by decide) b).trans (copy_is (by decide) calm_fresh (by decide) a)
  have e2 : (copies a b).cfgCopy 256 = b.bytes := copy_is (by decide) g.1 hl b
  exact ⟨e1, e2, by rw [e1]; exact (record_valid a).1, by rw [e2]; exact (record_valid b).1, ki, k.1⟩
theorem witness_config_seq : pfield (recordOf 42 7).bytes 8 8 = 42 ∧ pfield (recordOf 41 6).bytes 8 8 = 41
    ∧ (recordOf 42 7).bytes ≠ (recordOf 42 6).bytes := by
  refine ⟨(record_valid _).2.2, (record_valid _).2.2, fun h => ?_⟩
  have : pfield (recordOf 42 7).bytes 0x10 4 = pfield (recordOf 42 6).bytes 0x10 4 := by rw [h]
  exact absurd this (by decide +kernel)
theorem witness_config_none : cfgValid (fresh.cfgCopy 4) = false ∧ fresh.fw.booted = false ∧ fresh.plLocked 258 = false ∧ fresh.plIndet 258 = false := by
  decide +kernel

/-- Chip 1 with port 0 up, tenant 0 live as fabric tenant 7 with 64 KiB of the Bed, and both contexts of its connection with chip 2. -/
def fabric : State :=
  { (((fresh.setRegN DP_CHIP_ID (2 ^ 31 + 1)).setRegN (DP_STATUS 0) 1).setRegN (DP_FTID 0) (7 + 2 ^ 16)).setRegN (QN_TSTAT 0) 1 with
    xlat := [{ tenant := 0, bed := true, off := 0, big := false, phys := 1, ro := false, poison := false, src := none }]
    rconn := [{ port := 0, tc := 0, peer := 2, exp := 5, epoch := 9, ctl := 0, due := [] }]
    conn := [{ port := 0, tc := 0, peer := 2, psn := 3, epoch := 9, ctl := 0, resync := false, queue := []
               unacked := [{ psn := 2, bytes := [0], req := some 4, retries := 3, nak2 := false }], nak := none, rsDue := false }]
    rops := [{ opid := 4, flight := none, tenant := 0, port := 0, tc := 0, peer := 2, opc := 1, dst := 0, len := 0, got := 0, sent := true, grout := none }] }
/-- A frame of chip 2 to chip 1, as it stands on the wire. -/
def frameOf (type psn flags : Nat) (payload : Bytes) : Frame :=
  { fabric.blankFrame 0 0 1 with type := type, src := 2, psn := psn, flags := flags, ftid := 7, opid := 4, opc := if type = 1 then 1 else 0
                                 len := payload.length, explen := payload.length, payload := payload, addr := if type = 5 then 11 else 64 }
def onWire (f : Frame) (epoch : Word) (sealed : Bool) : WireFrame :=
  { octets := fabric.seal f epoch (if sealed then some fabric.fabricKey else none), corr := 0, uncorr := 0 }
/-- What chip 1 makes of it. -/
def heardAs (s : State) (w : WireFrame) : Option Frame := match s.hear 0 w.octets with | .frame f => some f | _ => none

theorem witness_hear_request : ((heardAs fabric (onWire (frameOf 1 5 16 [1, 2, 3, 4]) 9 false)).any fun f =>
    decide (f.type = 1 ∧ f.psn = 5 ∧ f.payload = [1, 2, 3, 4] ∧ f.ackV = false) && !f.damaged && bit f.flags 4
      && decide (f.wire ≤ fabric.rxFree 0 ∧ fabric.reqCheck f = 0)) = true := by decide +kernel
theorem witness_hear_response : ((heardAs fabric (onWire (frameOf 2 5 16 []) 9 false)).any fun f => decide (f.type = 2 ∧ f.psn = 5)) = true
    ∧ fabric.rxq = [] := by decide +kernel
theorem witness_hear_damage : (heardAs fabric (onWire { frameOf 1 5 16 [1, 2] with explen := 3 } 9 false)).any Frame.damaged = true
    ∧ fabric.hear 0 (onWire { frameOf 1 5 16 [] with status := 0, type := 7 } 9 false).octets = .damaged
    ∧ fabric.hear 0 (onWire { frameOf 1 5 16 [] with dst := 3 } 9 false).octets = .foreign
    ∧ fabric.hear 0 ((onWire (frameOf 1 5 16 []) 9 false).octets.set 30 1) = .unseen
    ∧ fabric.hear 0 (onWire { frameOf 1 5 17 [] with payload := List.replicate 16 0 } 9 false).octets = .forged := by decide +kernel
theorem witness_hear_order : (5 + 2 ^ 24 - 6) % 2 ^ 24 ≥ 2 ^ 23 ∧ (7 + 2 ^ 24 - 5) % 2 ^ 24 = 2 := by decide
theorem witness_hear_pfc : fabric.hear 0 (fabric.pfcFrame 0 3 0xFFFF) matches .pfc _ _ := by decide +kernel
theorem witness_hear_ack : ((heardAs fabric (onWire { frameOf 3 0 0 [] with ack := 2, ackV := true } 9 true)).any fun f => decide (f.type = 3 ∧ f.ackV = true)) = true := by
  decide +kernel
theorem witness_hear_nak : ((heardAs fabric (onWire { frameOf 4 0 0 [] with reason := 2 } 9 true)).any fun f => decide (f.type = 4 ∧ f.reason = 2)) = true
    ∧ (fabric.conn.find? (·.at 0 0 2)).any (fun c => !c.resync && !c.unacked.isEmpty && c.unacked.any fun x => decide (3 ≤ x.retries)) = true := by
  decide +kernel
theorem witness_hear_resync : ((heardAs fabric (onWire (frameOf 5 0 0 []) 11 true)).any fun f => decide (f.type = 5)) = true := by decide +kernel
theorem witness_hear_resync_ack : ((heardAs fabric (onWire (frameOf 6 0 0 []) 9 true)).any fun f => decide (f.type = 6)) = true := by decide +kernel

theorem witness_link : (let s := (fresh.setRegN DP_CHIP_ID (2 ^ 31 + 1)).setRegN (DP_CTL 0) 1
    s.regBit (DP_CTL 0) 0 && s.regBit DP_CHIP_ID 31 && s.pins.refclkF.getLsbD 0 && !s.link 0) = true ∧ fabric.link 0 = true ∧ fresh.link 0 = false
    ∧ fabric.canon = true ∧ fabric.up = true := by decide +kernel
theorem witness_no_answers : (∀ c ∈ fabric.rconn, c.due = []) ∧ ∀ c ∈ fabric.conn, c.nak = none ∧ c.rsDue = false := by decide
/-- A request of 1 MiB on the wire waits in port 0's receive buffer, and its class is being paused. -/
def congested : State := { fabric with rxq := [{ frameOf 1 5 16 [] with wire := 0x400000 }], pausing := [(0, 0)] }
theorem witness_pause : congested.rxFree 0 < congested.regN (DP_PFC_XOFF 0) ∧ congested.pausing.contains (0, 0) = true
    ∧ fabric.regN (DP_PFC_XON 0) < fabric.rxFree 0 ∧ ¬ fabric.rxFree 0 < fabric.regN (DP_PFC_XOFF 0)
    ∧ ({ fabric with pausedBy := [(0, 0)] } : State).paused 0 0 = true := by decide +kernel
theorem witness_apply : congested.rxq.find? (fun f => decide (f.port = 0)) = some { frameOf 1 5 16 [] with wire := 0x400000 } := by decide +kernel
theorem witness_req_check : (fabric.setBit PWR_STATUS 9 true).stopped = true ∧ (fabric.setRegN CMD_FW_STAT 5).hostAbsent = true ∧ fabric.stopped = false
    ∧ fabric.ftidTenant 8 = none ∧ (fabric.setRegN (QN_TSTAT 0) 0).slot 0 ≠ 1 := by decide +kernel
theorem witness_put_failed : ({ fabric with putFail := [((0, 2, 4), 0x10, 64)] } : State).putFailed (frameOf 1 5 16 []) = some (0x10, 64)
    ∧ bit (frameOf 1 5 16 []).flags 4 = true ∧ bit (frameOf 1 5 0 []).flags 4 = false := by decide +kernel
theorem witness_operation : (fabric.rops.find? fun r => decide (r.opid = 4)).any (fun r => r.sent) = true
    ∧ (fabric.conn.any fun c => c.unacked.any fun x => decide (x.req = some 4)) = true
    ∧ (({ fabric with conn := [] } : State).conn.all fun c => c.unacked.all fun x => decide (x.req ≠ some 4)) = true := by decide
theorem witness_stuck : (let s := { fabric with
      rops := fabric.rops.map fun r : ROp => { r with sent := false }, conn := fabric.conn.map fun c : Conn => { c with resync := true } }
    s.rops.any fun r => !r.sent && s.conn.any fun c => decide (c.port = r.port ∧ c.tc = r.tc ∧ c.peer = r.peer) && c.resync) = true := by decide
theorem witness_plane : fabric.plane 2 0 = some 0 ∧ fresh.plane 2 0 = none ∧ fabric.regBit DP_CHIP_ID 31 = true ∧ fresh.regBit DP_CHIP_ID 31 = false
    ∧ fabric.regBit (DP_TC_CFG 0) 0 = false := by decide +kernel

/-- The PCI Express link's configuration space is ready, and HBM serves. -/
def hosted : State := { fresh with pcie := { fresh.pcie with cfgReady := true }, hbmReady := true }
theorem witness_config_request : hosted.pcie.cfgReady = true ∧ fresh.pcie.cfgReady = false := by decide
/-- The window of tenant 0 on the Bed, 64 KiB mapped; a line of it poisoned, or the PF's window on the Bed, or past its end. -/
def windowed (fn base : Nat) : State :=
  { hosted.setRegN (CMD_WIN_BASE fn) (2 ^ 16 + base) with
    xlat := [{ tenant := 0, bed := true, off := 0, big := false, phys := 1, ro := false, poison := false, src := none }], bedPoison := [1030] }
theorem witness_window : ((windowed 0 0).readFor (.tenant 0) .bed 0 64).2 matches .ok _ := by decide +kernel
theorem witness_window_poison : ((windowed 0 0).readFor (.tenant 0) .bed 0x180 64).2 matches .error (0x40, _) := by decide +kernel
theorem witness_window_fault : (((windowed 0 0).readFor (.tenant 0) .bed 0x10000 64).2 matches .error (0x10, _)) ∧ ((windowed 0 0).writeFor (.tenant 0) .bed 0x10000 [1]).2.toOption.isNone
    ∧ ((windowed 0 0).writeFor (.tenant 0) .bed 0x40 [1]).2.toOption.isSome := by decide +kernel
theorem witness_window_secure : ((windowed 16 0).setRegN (QN_RGN 0) 3).secureUnit 0 0 = true ∧ Tier.bed.table = 0 ∧ Tier.bed.size ≤ 1 * 2 ^ 32
    ∧ ((windowed 16 1).reg (CMD_WIN_BASE 16)).getLsbD 16 = true ∧ (fresh.reg (CMD_WIN_BASE 16)).getLsbD 16 = false := by decide +kernel

/-- A write of CMD_FW_CTL waits for the PF. -/
def firmware (v stat : Nat) : State :=
  { fresh.setRegN CMD_FW_STAT stat with wq := [{ fn := 16, off := 0x90, size := 4, val := BitVec.ofNat 64 v }] }
/-- What the claims about CMD_FW_CTL suppose of its write. -/
def fwTurn (s : State) (n : Nat) : Bool := (s.front 16).any fun p => decide (p.kind = .fwCtl ∧ p.val.toNat % 2 ^ n = 0) && p.val.getLsbD n
theorem witness_fw_turns : fwTurn (firmware 1 1) 0 = true ∧ fwTurn (firmware 3 6) 0 = true ∧ fwTurn (firmware 2 4) 1 = true ∧ fwTurn (firmware 4 5) 2 = true
    ∧ fwTurn (firmware 8 4) 3 = true ∧ fwTurn fresh 0 = false ∧ fwTurn (firmware 2 0) 0 = false := by decide +kernel
/-- Every condition of firmware readiness but the state holds. -/
def fwReady : State :=
  let s := (List.range 16).foldl (fun u ch => u.setRegN (QC_NCH_STAT ch) 1) fresh
  { s with fw := { s.fw with booted := true }, hbmReady := true, pcie := { s.pcie with cfgReady := true } }
theorem witness_fw_ready : fwReady.field CMD_FW_STAT 3 0 = 0 ∧ fwReady.fw.booted = true ∧ fwReady.hbmReady = true ∧ fwReady.pcie.cfgReady = true
    ∧ ((List.range 16).all fun ch => fwReady.nandTrained ch && decide (fwReady.slot ch = 0)) = true := by decide +kernel
/-- A candidate header, and firmware in a state and an update state with it. -/
def imageHdr : ImgHdr := { ifver := 0x10000, imgver := 5, svn := 3 }
def firmwareAt (stat : Nat) : State := { fresh.setRegN CMD_FW_STAT stat with fw := { fresh.fw with cand := some imageHdr, verify := some true } }
theorem witness_start : (firmwareAt 3).fw.cand = some imageHdr ∧ (firmwareAt 3).field CMD_FW_STAT 3 0 = 3 ∧ (firmwareAt 3).canon = true
    ∧ (firmwareAt 3).fw.verify = some true ∧ ({ (firmwareAt 3).fw with verify := some false } : Fw).verify = some false := by decide +kernel
/-- An image of the right shape under one key of two: it has 512 bytes, its payload none. -/
def imageBytes (k : Byte) : Bytes :=
  leBytes 4 0x4E504C4D ++ leBytes 2 1 ++ leBytes 2 0x200 ++ leBytes 4 0 ++ leBytes 4 0 ++ leBytes 4 3 ++ leBytes 4 0 ++ leBytes 8 0
    ++ List.replicate 32 0 ++ List.replicate 96 k ++ List.replicate 352 0
theorem witness_image_shape : (imageBytes 1).length = 512 ∧ (imageBytes 2).length = 512 ∧ pfield (imageBytes 1) 0 4 = 0x4E504C4D ∧ pfield (imageBytes 1) 4 2 = 1
    ∧ pfield (imageBytes 1) 6 2 = 0x200 ∧ 0x200 + pfield (imageBytes 1) 0x18 8 = 512 ∧ imageZeros (imageBytes 1) = true ∧ imageZeros (imageBytes 2) = true
    ∧ pfield (imageBytes 1) 0x10 4 = 3 := by decide +kernel
/-- At least one of the two keys is not the fused one. -/
theorem witness_image_key : ¬ (BitVec.ofNat 384 (beNat (sha384 (((imageBytes 1).drop 0x40).take 96))) = Config.releaseKeyDigest
    ∧ BitVec.ofNat 384 (beNat (sha384 (((imageBytes 2).drop 0x40).take 96))) = Config.releaseKeyDigest) := by
  rintro ⟨h1, h2⟩
  exact absurd (h1.trans h2.symm) (by decide +kernel)
theorem witness_update : (firmwareAt 0x204).field CMD_FW_STAT 11 8 = 2 ∧ (firmwareAt 0x204).field CMD_FW_STAT 3 0 = 4
    ∧ ((List.range 128).all fun k => !((firmwareAt 0x204).jobQ (k / 8) (k % 8)).enabled) = true ∧ (firmwareAt 0x304).field CMD_FW_STAT 11 8 = 3
    ∧ (firmwareAt 0x304).regBit PWR_STATUS 6 = false ∧ ((firmwareAt 4).setBit PWR_STATUS 9 true).regBit PWR_STATUS 9 = true
    ∧ (firmwareAt 0x204).canon = true := by decide +kernel

/-- A heartbeat write waits for the PF; firmware in states 4 and 5. -/
def beating (stat : Nat) : State :=
  { fresh.setRegN CMD_FW_STAT stat with
    wq := [{ fn := 16, off := CMD_HEARTBEAT % 0x1000, size := 4, val := 1 }], fw := { fresh.fw with absentTimer := decide (stat = 5) } }
theorem witness_heartbeat : ((beating 4).front 16).any (fun p => decide (p.kind = .heartbeat)) = true ∧ (beating 4).field CMD_FW_STAT 3 0 = 4
    ∧ (beating 5).fw.absentTimer = true ∧ (beating 5).field CMD_FW_STAT 3 0 = 5 ∧ (beating 4).canon = true ∧ (beating 5).canon = true := by decide +kernel
theorem witness_interval : (beating 4).fw.hbSeen = false ∧ (beating 4).fw.missed + 1 < (beating 4).field CMD_HB_CFG 7 0
    ∧ ¬ ({ beating 4 with fw := { (beating 4).fw with missed := 2 } } : State).fw.missed + 1 < (beating 4).field CMD_HB_CFG 7 0 := by decide +kernel
/-- Without a heartbeat in the third interval after the last, the host is absent (R373, Example 14.1). -/
theorem test_host_absent : (match exec .heartbeatIntervalEnd { beating 4 with fw := { (beating 4).fw with missed := 2 } } with
    | .next t => decide (t.field CMD_FW_STAT 3 0 = 5) && t.fw.absentTimer
    | _ => false) = true := by decide +kernel
theorem witness_blocked : ((consumer 0).flights.any fun f => ((consumer 0).blockedAt f).isSome) = true
    ∧ ((consumer 1).flights.all fun f => ((consumer 1).blockedAt f).isNone) = true := by decide +kernel

/-- Tenant 0's function-level reset is timed, and a descriptor of it is left. -/
def flring : State := { flying .ae (plainDesc 1 1) with flrTimer := [0] }
theorem witness_flr : 0 ∈ flring.flrTimer ∧ 0 ∉ fresh.flrTimer ∧ flring.canon = true ∧ flring.stopped = false ∧ flring.schedQ = []
    ∧ (fresh.setBit PWR_STATUS 9 true).stopped = true ∧ (fresh.setRegN (QN_TSTAT 0) 1).slot 0 = 1 := by decide +kernel

/-- A command of the PF's mailbox, of the secure one, and of MCTP. -/
def asking (src code : Nat) (payload : Bytes) : State :=
  { fresh with qnReq := [{ src := src, code := code, payload := payload, eid := 8, tag := 8 }] }
theorem witness_quoin_next : ([(1, 0), (2, 0), (3, 2), (4, 0), (0x10, 1), (0x11, 0), (0x20, 0), (0x30, 0), (0x31, 0), (0x40, 1), (0x45, 0)].all fun (x : Nat × Nat) =>
    (asking x.2 x.1 []).qnNext.any (fun r => decide (r.code = x.1)) && fresh.qnPermits x.1 x.2) = true
    ∧ fresh.qnPermits 1 2 = false ∧ (fresh.setRegN QN_POLICY 1).qnPermits 1 2 = true ∧ fresh.qnNext = none := by decide +kernel
theorem witness_update_parts : ([0, 1, 2, 3].all fun part => (asking 0 0x11 [BitVec.ofNat 8 part]).qnNext.any fun r =>
    decide (r.payload.head?.map BitVec.toNat = some part)) = true ∧ fresh.plFree = true ∧ pfield [0, 0, 0, 0] 1 3 = 0 ∧ pfield [0, 1, 0, 0] 1 3 ≠ 0 := by decide +kernel
theorem witness_mailbox : fresh.regBit (mbStat true) 0 = false ∧ (fresh.setRegN (mbStat true) 1).regBit (mbStat true) 0 = true
    ∧ (3 : Word).getLsbD 0 = true := by decide +kernel
/-- An MCTP packet to the part: one message of a type. -/
def mctpPacket (msg : Bytes) : Bytes :=
  let p : Bytes := [0x9E, 0x0F, BitVec.ofNat 8 (msg.length + 5), 0x21, 0x01, fresh.mctpEid, 8, 0xC8] ++ msg
  p ++ [pec p]
theorem witness_mctp : (fresh.mctpParse (mctpPacket [0x7E, 0x1F, 0x9A, 3, 0, 1, 0, 0])).isSome = true ∧ fresh.mctpParse [0] = none
    ∧ ((fresh.mctpParse (mctpPacket [0x7E, 0x1F, 0x9A, 3, 0, 1, 0, 0])).any fun p =>
      decide ((fresh.mctpAssemble p).2 = some [0x7E, 0x1F, 0x9A, 3, 0, 1, 0, 0] ∧ 8 ≤ p.tag)) = true
    ∧ ((fresh.mctpParse (mctpPacket [0, 0x80, 2])).any fun p => decide ((fresh.mctpAssemble p).2 = some [0, 0x80, 2])) = true := by decide +kernel

/-- A tenant's creation: the fields of Table 15.3 the conditions look at. -/
def creating (t ftid n : Nat) : State :=
  asking 0 1 ([BitVec.ofNat 8 t, 0, BitVec.ofNat 8 ftid, 0] ++ leBytes 4 n ++ List.replicate 0x38 0)
def createBad (s : State) (ftid n : Nat) : Bool :=
  decide (ftid = 0) || s.ftidTaken 0 ftid || decide (n = 0) || decide (61440 < (s.windows.map Prod.snd).foldl (· + ·) 0 + n)
theorem witness_creation : (creating 0 7 61440).qnNext.any (fun r => decide (0x40 ≤ r.payload.length ∧ pfield r.payload 2 2 = 7 ∧ pfield r.payload 4 2 = 61440
      ∧ pfield r.payload 0 1 = 0)) = true
    ∧ createBad fresh 7 61440 = false ∧ fresh.slot 0 = 0 ∧ fresh.dbgUsed = false
    ∧ createBad fresh 0 1 = true ∧ createBad fresh 7 0 = true ∧ createBad fresh 7 61441 = true
    ∧ createBad (fresh.setRegN (QN_TSTAT 1) (1 + 2 ^ 16 * 7)) 7 1 = true
    ∧ (creating 0 7 1).canon = true ∧ ({ fresh with dbgUsed := true } : State).dbgUsed = true := by decide +kernel
/-- Two windows that leave only pieces, and a tenant in each other state. -/
def pieces : State := ((fresh.setRegN (MK_WIN 1) (10000 + 2 ^ 16 * 40000)).setRegN (QN_TSTAT 1) 1)
theorem witness_placed : (pieces.windowPlace 11440).isSome = true ∧ createBad pieces 7 11440 = false := by
  have hw : pieces.windows = [(10000, 40000)] := by decide +kernel
  refine ⟨?_, by decide +kernel⟩
  simp only [State.windowPlace, hw, List.find?_isSome]
  exact ⟨50000, by simp, by decide⟩
theorem witness_no_place : pieces.windowPlace 21440 = none ∧ createBad pieces 7 21440 = false := by
  have hw : pieces.windows = [(10000, 40000)] := by decide +kernel
  refine ⟨?_, by decide +kernel⟩
  simp only [State.windowPlace, hw, List.find?_eq_none]
  intro b _
  simp
  omega
theorem witness_slots : [0, 1, 2, 3].map (fun v => (fresh.setRegN (QN_TSTAT 0) v).slot 0) = [0, 1, 2, 3]
    ∧ fresh.field CMD_FW_STAT 11 8 ≠ 2 ∧ fresh.field CMD_FW_STAT 11 8 ≠ 3 := by decide +kernel
/-- The fabric's setup: a chip number at its bound, every port off, and one on. -/
theorem witness_setup : (asking 0 4 (leBytes 2 0xFFF ++ List.replicate 32 0)).qnNext.any (fun r =>
      decide (34 ≤ r.payload.length ∧ pfield r.payload 0 2 ≤ 0xFFF)) = true
    ∧ 0xFFF < pfield (leBytes 2 0x1000) 0 2 ∧ ((List.range 8).all fun i => !fresh.dpOn i) = true
    ∧ ((List.range 8).any fun i => (fresh.setRegN (DP_CTL 0) 1).dpOn i) = true := by decide +kernel
/-- A tenant draining, with nothing of it left and with a descriptor of it. -/
theorem witness_drain : let s := ({ fresh with drainTimer := [0] }.setRegN (QN_TSTAT 0) 2 : State)
    let b := ({ flying .ae (plainDesc 1 1) with drainTimer := [0] }.setRegN (QN_TSTAT 0) 2 : State)
    s.slot 0 = 2 ∧ s.drainUnits 0 = [] ∧ s.flights = [] ∧ 0 ∈ s.drainTimer ∧ s.canon = true
    ∧ b.slot 0 = 2 ∧ (b.flights.any fun f => decide (f.tenant = 0)) = true ∧ b.canon = true ∧ s.schedQ = [] ∧ s.unlocking = 0 := by decide +kernel

/-- The Plinth reads of R393: 240 bytes, the array's end, a block the scan found indeterminate, and a busy bank. -/
theorem witness_plinth_part : 240 ≤ 240 ∧ 0x3FFFF10 + 240 ≤ 0x4000000 ∧ 0x4000000 < 0x3FFFF11 + 240 ∧ 240 < 241
    ∧ cut plBlock 0x20000 0 = [] ∧ (cut plBlock 0x1FFFF 2).length = 2
    ∧ fresh.plBusy 0 = false ∧ fresh.plIndet 1 = false ∧ (fresh.setRegN (PL_INDET 0) 2).plIndet 1 = true
    ∧ (asking 0 0x10 (leBytes 4 0x3FFFF10 ++ leBytes 4 240)).canon = true := by decide +kernel
/-- An update session part of the way, and one whose lines are all there. -/
def updating (got len : Nat) (part : Nat) (payload : Bytes) : State :=
  { asking 0 0x11 ([BitVec.ofNat 8 part, 0, 0, 0] ++ payload) with session := some { len := len, got := got, slotB := true, last := some (0, [0]) } }
theorem witness_session : fresh.session = none ∧ (updating 0 512 0 []).session ≠ none ∧ fresh.plFree = true
    ∧ 512 % 32 = 0 ∧ ¬ 512 < 512 ∧ ¬ 15990784 < 15990784 ∧ 15990784 % 32 = 0 ∧ 511 < 512
    ∧ (updating 480 512 1 (leBytes 4 480 ++ List.replicate 32 0)).session.any (fun x => decide (480 = x.got ∧ ¬ x.len < 480 + 32 ∧ x.last ≠ some (480, List.replicate 32 0))) = true
    ∧ (updating 480 512 1 (leBytes 4 512 ++ List.replicate 32 0)).session.any (fun x => decide (512 ≠ x.got ∨ x.len < 512 + 32)) = true
    ∧ (updating 1 512 1 (leBytes 4 0 ++ [0])).session.any (fun x => decide (x.last = some (0, [0]))) = true
    ∧ (updating 511 512 2 []).session.any (fun x => decide (x.got < x.len)) = true
    ∧ (updating 512 512 2 []).session.any (fun x => decide (¬ x.got < x.len)) = true
    ∧ (updating 512 512 3 []).canon = true := by decide +kernel
/-- An image's lines: the first of a block, one beyond it, a protected block and an indeterminate one. -/
theorem witness_lines : fresh.plLocked (imageBlock true) = false ∧ imageBlock true * plBlock % plBlock = 0 ∧ (imageBlock true * plBlock + 32) % plBlock ≠ 0
    ∧ 15990752 % 32 = 0 ∧ 15990752 + 32 ≤ 15990784
    ∧ (fresh.setRegN (PL_WP (imageBlock true / 32)) (2 ^ (imageBlock true % 32))).plLocked (imageBlock true) = true
    ∧ (fresh.setRegN (PL_INDET (imageBlock true / 32)) (2 ^ (imageBlock true % 32))).plIndet (imageBlock true) = true := by decide +kernel
theorem witness_svn : (fresh.setRegN QN_MIN_SVN 3).regN QN_MIN_SVN = 3 ∧ fresh.fw.running = none
    ∧ ({ fresh with dbg := some (5, 2) } : State).dbg = some (5, 2) ∧ fresh.dbg = none ∧ fresh.schedQ = [] := by decide +kernel
/-- CAP_SET at both ends of its range, and beside them. -/
theorem test_cap_set : ([299, 300, 1100, 1101].map fun w => match exec .capSet (asking 1 0x40 (leBytes 2 w)) with
    | .next t => t.regN PWR_CAP == w
    | _ => false) = [false, true, true, false] := by decide +kernel
theorem witness_unlock : fresh.unlocking = 0 ∧ ({ fresh with unlocking := 2 } : State).unlocking = 2 ∧ fresh.slot 15 = 0
    ∧ (fresh.setRegN (QN_TSTAT 15) 1).slot 15 ≠ 0 := by decide +kernel

/-- An island at 800 MHz with a target of 825, and its flags. -/
def island (set stat : Nat) : State := (fresh.setRegN (PWR_FSET 0) set).setRegN (PWR_FSTAT 0) stat
theorem witness_island : (islandRange 0).any (fun r => decide (r.1 ≤ r.2 ∧ r.1 % 25 = 0 ∧ r.2 % 25 = 0)) = true
    ∧ (island 825 (800 + 2 ^ 12)).regBit (PWR_FSTAT 0) 12 = true ∧ (island 800 800).regBit (PWR_FSTAT 0) 12 = false
    ∧ (island 800 (800 + 2 ^ 14)).regBit (PWR_FSTAT 0) 14 = true ∧ (island 800 800).regBit (PWR_FSTAT 0) 14 = false
    ∧ ((List.range 113).any fun k => (islandRange k).isNone) = true ∧ (island 800 800).canon = true := by decide +kernel
/-- One step down is always allowed, and ends at the target (R399). -/
theorem test_ramp_down : (match exec (.rampStep 0) (island 800 (825 + 2 ^ 12)) with
    | .next t => t.regN (PWR_FSTAT 0) == 800
    | _ => false) = true := by decide +kernel
/-- A droop counts once and holds the ramp (R402). -/
theorem test_droop : (match exec (.droopTrip 0) (island 800 800) with
    | .next t => t.regN (PWR_FSTAT 0) == 800 + 2 ^ 14 + 2 ^ 16
    | _ => false) = true := by decide +kernel
/-- Each kind of domain switched on, in use and not (Table 16.2). -/
def domOn (d : Nat) : State := fresh.setRegN (PWR_DOM d) 3
def unitIn (s : State) (b : Blk) (i : Nat) (f : UnitSt → UnitSt) : State := s.setUnit b i (f (s.unitAt b i))
theorem witness_domain : (domOn 0).regBit (PWR_DOM 0) 0 = true ∧ blkIdleBit ((domOn 0).blkState .ae 0) = true ∧ blkIdleBit ((unitIn ((flying .ae (plainDesc 1 1)).setRegN (PWR_DOM 0) 3) .ae 0 fun u => { u with st := .idle }).blkState .ae 0) = false
    ∧ ((List.range 17).all fun i => ({ domOn 92 with bankOut := List.range 17 } : State).bankOut.contains (17 * (92 - 92) + i)) = true ∧ (domOn 92).bankOut = []
    ∧ (domOn 172).domUsed 172 = false ∧ ((domOn 172).setRegN (DP_CTL 0) 1).domUsed 172 = true
    ∧ (unitIn (domOn 201) .kc 4 fun u => { u with retired := true }).inService .kc 4 = false ∧ blkIdleBit ((unitIn (domOn 201) .kc 4 fun u => { u with retired := true }).blkState .kc 4) = true
    ∧ (domOn 201).inService .kc 4 = true ∧ fresh.pw.domBusy = none ∧ fresh.stopped = false
    ∧ (domOn 0).canon = true := by decide +kernel
theorem witness_power_up : let s : State := { fresh.setRegN (PWR_DOM 0) 5 with pw := { fresh.pw with domBusy := some 0 } }
    s.pw.domBusy = some 0 ∧ s.regBit (PWR_DOM 0) 2 = true ∧ s.regBit (PWR_DOM 0) 1 = false ∧ unitOfDomain 92 = none ∧ unitOfDomain 0 = some (.ae, 0)
    ∧ (s.unitAt .ae 0).st ≠ .substituting ∧ s.canon = true := by decide +kernel
/-- The voltage's target: the highest frequency asked for, and an island that still ramps. -/
theorem witness_voltage : ((List.range 113).all fun k => decide ((fresh.setRegN (PWR_FSTAT 0) (2 ^ 12)).field (PWR_FSET k) 11 0 ≤ 4095)) = true
    ∧ (islandRange 0).isSome = true ∧ (fresh.setRegN (PWR_FSTAT 0) (2 ^ 12)).regBit (PWR_FSTAT 0) 12 = true := by decide +kernel

/-- The chip's power at the bound of the fast comparator, and one step above it (R414): 600 W at 600 mV. -/
def metered : State := ((fresh.setRegN PWR_FAST_W 60).setRegN PWR_VTARGET (600 + 2 ^ 16 * 600))
theorem witness_fast : min (10000 * metered.field PWR_FAST_W 10 0) (17100 * metered.field PWR_VTARGET 9 0) = 600000
    ∧ (1000 * 600 + 10 * 0 = 600000 ∧ 600000 < 1000 * 600 + 10 * 1)
    ∧ metered.pw.fastHits = 0 ∧ 1 ≤ ({ metered with pw := { metered.pw with fastHits := 1 } } : State).pw.fastHits
    ∧ metered.canon = true ∧ (fresh.setRegN (PWR_FSTAT 0) (2 ^ 15)).regBit (PWR_FSTAT 0) 15 = true := by decide +kernel
theorem witness_correction : ∀ r : Nat, r * 100 < 100 * 0x10000 + 100 → 100 * 0x10000 < (r + 1) * 100 → r = 0x10000 := by omega
/-- Demand 800 W over a cap of 700 W with 200 W to save gives 32 of 64 (R408), at the cap none, and more than 48 saturates. -/
def capped : State := (fresh.setRegN PWR_CAP 700).setRegN PWR_EFF_CAP (700 + 2 ^ 16 * 700) |>.setRegN PWR_VTARGET (600 + 2 ^ 16 * 600)
theorem test_share : ([(700, 200), (701, 0), (800, 200), (900, 200), (850, 200)].map fun (d, b) => match exec (.capLoopInterval (BitVec.ofNat 16 d) (BitVec.ofNat 16 b)) capped with
    | .next t => t.pw.pend
    | _ => none) = [some (0, false), some (48, true), some (32, false), some (48, true), some (48, true)] := by decide +kernel
theorem witness_bubble : fresh.pw.pend = none ∧ ({ fresh with pw := { fresh.pw with pend := some (48, true) } } : State).pw.pend = some (48, true)
    ∧ (fresh.setRegN CMD_FW_STAT (4 + 2 ^ 8 * 2)).field CMD_FW_STAT 11 8 = 2 := by decide +kernel
/-- The thermal cap goes down by 10 W at the limit and back at the release, never below 300 W nor above the cap (R411). -/
theorem test_thermal_cap : ([(true, false, 305), (false, true, 695), (true, true, 500)].map fun (l, r, w) =>
    match exec .thermalCapUpdate { capped.setRegN PWR_EFF_CAP (2 ^ 16 * w) with pw := { capped.pw with atLimit := l, atRelease := r } } with
    | .next t => t.field PWR_EFF_CAP 26 16
    | _ => 0) = [300, 700, 500] := by decide +kernel

/-- A junction sensor at 115 °C for the second sample in a row, at 114.875, and the first time (R413). -/
theorem witness_trip : 920 ≤ (920 : BitVec 12).toInt ∧ ¬ 920 ≤ (919 : BitVec 12).toInt ∧ ¬ 920 ≤ (0x800 : BitVec 12).toInt
    ∧ ({ fresh with pw := { fresh.pw with tripHits := 2 } } : State).pw.tripHits.getLsbD 1 = true ∧ fresh.pw.tripHits = 0
    ∧ (fresh.setBit PWR_STOP_LOG 1 true).regBit PWR_STOP_LOG 1 = true ∧ fresh.regBit PWR_STOP_LOG 1 = false := by decide +kernel
theorem witness_coolant : fresh.pw.coolArmed = false ∧ ({ fresh with pins := { fresh.pins with coolFlowOk := false }, pw := { fresh.pw with coolArmed := true } } : State).up = true
    ∧ fresh.regBit PWR_STOP_LOG 2 = false ∧ (fresh.setBit PWR_STOP_LOG 2 true).regBit PWR_STOP_LOG 2 = true
    ∧ fresh.stopped = false ∧ (fresh.setBit PWR_STATUS 10 true).stopped = true
    ∧ ([1, 2, 3].all fun v => (fresh.setField CMD_FW_STAT 11 8 v).field CMD_FW_STAT 11 8 = v) = true
    ∧ fresh.pw.offArmed = false ∧ ({ fresh with pw := { fresh.pw with offArmed := true } } : State).up = true := by decide +kernel
theorem witness_flight_stop : (fresh.newFlight 0 0 0 0).held = false
    ∧ ({ fresh.newFlight 0 0 0 (plainDesc 4 1) with inRec := [(0, [])] } : Flight).held = true := by decide +kernel
/-- The coolant stop ends a descriptor with ABORTED_STOP, and one power-off later nothing is left of it (R415, R416). -/
theorem test_coolant_stop : (match exec .coolantStop { flying .ae (plainDesc 1 1) with pins := { fresh.pins with coolFlowOk := false }, pw := { fresh.pw with coolArmed := true } } with
    | .next t => (t.field CMD_FW_STAT 3 0, t.flights.map (·.codes), t.regN PWR_STOP_LOG, t.regN PWR_STATUS / 512, t.pw.offArmed)
    | _ => (0, [], 0, 0, false)) = (7, [[(0x00F1, 0)]], 1, 1, true) := by decide +kernel

/-- Engine 0 retiring with its spare chosen: the first standby engine of its lane. -/
def spared : State := unitIn fresh .ae 32 fun u => { u with standby := true }
def replacing (idle : Bool) : State :=
  { spared with subst := [{ blk := .ae, old := 0, spare := if idle then some 32 else none, idle := idle }] }
theorem witness_replacing : blkInstance .ae 0 = true ∧ spared.spareFor .ae 0 = some 32 ∧ (replacing false).working .ae 0 = false
    ∧ (replacing false).subst.find? (fun y => decide (y.blk = .ae) && decide (y.old = 0) && (y.idle == false)) = some { blk := .ae, old := 0, spare := none, idle := false }
    ∧ (replacing true).subst.find? (fun y => decide (y.blk = .ae) && decide (y.old = 0) && y.idle) = some { blk := .ae, old := 0, spare := some 32, idle := true }
    ∧ domainOf .ae 32 = some 32 ∧ spared.powered 32 = true ∧ (spared.setRegN (PWR_DOM 32) 0).powered 32 = false ∧ 32 < (placeOf .ae).count
    ∧ smapWf unitReset (replacing true).unit = true ∧ smapWf (fun k => k % 256) (replacing true).roles = true ∧ fresh.subst = [] ∧ (replacing true).canon = true := by decide +kernel
/-- No spare of the engine's kind is left. -/
theorem witness_spent : fresh.spareFor .ae 0 = none ∧ (fresh.unitAt .kc 0).retired = false ∧ ((unitIn fresh .kc 0 fun u => { u with retired := true }).unitAt .kc 0).retired = true := by decide +kernel
/-- Corrected errors: the threshold's last and the one before it (R420). -/
theorem witness_threshold : bits (smapGet errWinReset fresh.errWin (unitKey .ae 0)) 31 16 = 16
    ∧ min 0xFFFF ((fresh.setRegN (BLK_ERR_CNT .ae 0) 15).field (BLK_ERR_CNT .ae 0) 15 0 + 1) = 16 ∧ fresh.field (BLK_ERR_CNT .ae 0) 15 0 = 0 := by decide +kernel
theorem witness_reader : ((flying .ae (plainDesc 1 1)).flights.any fun f => f.onUnit .ae 0 && decide (f.phase ≠ .ran ∧ some f.id = some 0)) = true
    ∧ ((flying .ae (plainDesc 1 1)).flights.map Flight.id).Nodup ∧ ((flying .ae (plainDesc 1 1)).flights.all fun f => decide (f.tenant < 16)) = true := by decide +kernel
theorem witness_lane_spare : (smapFind fresh.lineRepair 0).isSome = false ∧ (smapFind ({ fresh with lineRepair := [(0, 3)] } : State).lineRepair 0).isSome = true
    ∧ fresh.regBit (FC_REPAIR 0 0) 0 = false ∧ (fresh.setRegN (FC_REPAIR 0 0) 1).regBit (FC_REPAIR 0 0) 0 = true := by decide +kernel
/-- A bank that serves, one that is being copied, and all the spares spent. -/
theorem witness_bank : fresh.bankServes 0 = some 0 ∧ fresh.spareFree 0 = true ∧ (fresh.setRegN (BED_REMAP 0) 3).regBit (BED_REMAP 0) 1 = true
    ∧ (fresh.setRegN (BED_REMAP 0) 3).field (BED_REMAP 0) 11 2 = 0 ∧ (fresh.setRegN (BED_REMAP 0) 3).bankServes 0 = some 0
    ∧ ({ fresh with bankOut := (List.range 64).map bankSpare } : State).spareFree 63 = false := by decide +kernel
/-- Example 17.1: a window halves a count, and bank 0's 64th correction asks for its spare (R86, R420). -/
theorem test_window : (match exec (.errorWindowEnd .ae 0) (fresh.setRegN (BLK_ERR_CNT .ae 0) (25 + 2 ^ 16 * 3)) with
    | .next t => t.regN (BLK_ERR_CNT .ae 0) == 12 + 2 ^ 16 * 3
    | _ => false) = true := by decide +kernel
theorem test_bank_threshold : ([62, 63].map fun n => match exec (.retireRequest true (.bank 0) .corrected) (fresh.setRegN (BED_CEC 0) n) with
    | .next t => (t.field (BED_CEC 0) 15 0, t.regN (BED_REMAP 0))
    | _ => (0, 0)) = [(63, 0), (64, 3)] := by decide +kernel

theorem witness_blocks : ([Blk.ae, .qc, .fc, .dp, .bed, .qn, .pl, .dev, .cmd, .pm, .mk, .pwr].all fun b => blkInstance b 0) = true
    ∧ (fresh.unitAt .ae 0).retired = false ∧ (fresh.unitAt .ae 0).st ≠ .off
    ∧ ((unitIn fresh .ae 0 fun u => { u with st := .off }).unitAt .ae 0).st = .off
    ∧ ((unitIn fresh .ae 0 fun u => { u with st := .draining }).unitAt .ae 0).st = .draining ∧ fresh.working .ae 0 = false
    ∧ (flying .ae (plainDesc 1 1)).working .ae 0 = true ∧ (unitIn fresh .ae 0 fun u => { u with st := .draining }).canon = true := by decide +kernel
/-- A block's disable waits for the work it holds (R435). -/
theorem test_disable_waits : ([false, true].map fun busy => match exec (.blockEnable true .ae 0 false)
      (unitIn (if busy then flying .ae (plainDesc 1 1) else fresh) .ae 0 fun u => { u with st := .idle }) with
    | .next t => (t.unitAt .ae 0).st
    | _ => .off) = [.disabled, .draining] := by decide +kernel

/-- Commands the surroundings cannot send, one for each check. -/
def sweepOf (lane n : Nat) : Sweep := { lane := lane, rd := 0, wr := 0, bits := List.replicate n (0, 0) }
def asks (port off : Nat) (wr : Option (Nat × Bytes)) : Instr := .bedRequest 0 [{ port := port, flight := none, off := off, wr := wr, ecc := .clean }]
theorem test_ill_formed : ([.descriptorRelease 0 0 34, asks 106 0 none, asks 112 0 none, asks 114 0 none, asks 0 0xC000000 none, asks 0 1 none,
      asks 0 0 (some (63, [0, 0])), .hbmRequest { port := 0, flight := none, off := 0x4800000000, wr := none },
      .hbmRequest { port := 0, flight := none, off := 63, wr := some [0, 0] }, .hbmTraining [0] [], .hbmTraining (List.replicate 8 0) [(0, 0, sweepOf 9 8)],
      .hbmTraining (List.replicate 8 0) [(0, 0, sweepOf 8 7)], .retrainComplete 0 [], .retrainComplete 0 (List.replicate 9 (sweepOf 9 8)), .junctionSample [0],
      .errorWindowEnd .ae 34, .unitUncorrectableError .ce 18 none, .retireRequest true (.block .ve 9) .request, .substitutionIdle .le 5,
      .substitutionComplete .he 26, .blockEnable true .kc 5 true, .blockDrain true .qc 1 true, .blockReset true .fc 8, .blockResetDone .dp 8,
      .blockIdle .ae 34, .blockWorldWrite true .ae 34 0, .pcieLinkUp 320 2, .pcieLinkUp 100 16, .bar2Write 0 0 (List.replicate 513 0)] : List Instr).map Instr.wf
    = List.replicate 29 false := by decide +kernel
theorem test_well_formed : ([.descriptorRelease 0 0 33, .descriptorRelease 0 0 0xFF, asks 105 0 none, asks 113 0xBFFFFC0 (some (63, [0])),
      .hbmRequest { port := 0, flight := none, off := 0x47FFFFFFFF, wr := some [0] }, .hbmTraining (List.replicate 8 0) [(0, 0, sweepOf 8 8)],
      .retrainComplete 0 (List.replicate 9 (sweepOf 8 8)), .junctionSample (List.replicate 64 0), .errorWindowEnd .ae 33, .retireRequest true (.block .ve 8) .request,
      .pcieLinkUp 640 1, .bar2Write 0 0 (List.replicate 512 0)] : List Instr).map Instr.wf = List.replicate 12 true := by decide +kernel

/-- AE20's page and AE05's (Example 18.1); BLK_ID of AE20. -/
theorem test_pages : pageOf 0x1024000 = some (.ae, 20, 0) ∧ pageOf 0x15000 = some (.ae, 5, 0) ∧ (fresh.read4 true 0x1024000).2 = 0x0A011400 := by decide +kernel
/-- Mapped bank 298 lies in physical bank 316, and its group's spare is bank 322 (Example 3.1). -/
theorem test_bank : bankHome 298 = 316 ∧ bankSpare (298 / 16) = 322 ∧ fresh.bankOf 298 = 316 := by decide +kernel
/-- Example 4.2: 0.75 × 2^−9, rounded half to even and clipped. -/
theorem test_requant : [87381, 3072, 1024, -1024, -2731].map (fun a => min (max (requantNative a 0x60000000 40) (-128)) 127) = [127, 4, 2, -2, -4] := by decide
/-- DP3_RX2_P and _N are BW71 and BY71; BV71 and CA71 are ground (Example 19.1). -/
theorem test_ball : ballAt 56 71 = .fabric 3 2 false true ∧ ballAt 57 71 = .fabric 3 2 false false ∧ ballAt 55 71 = .ground ∧ ballAt 58 71 = .ground
    ∧ [55, 56, 57, 58].map rowName = [['B', 'V'], ['B', 'W'], ['B', 'Y'], ['C', 'A']] := by decide

end Sys2Proof.Tests
end

namespace Sys2Proof.Machine

/-! ### Which commands stop, reset, and register accesses of an odd form -/

theorem exec_perstNAssert_next (s : State) : ∃ t, exec .perstNAssert s = .next t := ⟨_, rfl⟩

/-- A command that waits for defined behaviour stops exactly where the behaviour is undefined. -/
theorem exec_stops_or_answers (c : Instr) (s : State) (hc : c ≠ .perstNAssert) :
    exec c s = .fault .behaviourUndefined ∧ s.undef = true ∨ ∃ t, exec c s = .next t ∧ s.undef = false := by
  by_cases h : atPinsOnly c = true
  · obtain ⟨f, hf⟩ := exec_atPins c s h hc
    rw [hf]
    exact atPins_stops s f
  · obtain ⟨f, hf⟩ := exec_live c s (by simpa using h)
    rw [hf]
    exact live_stops s f

/-- Settles O2: PERST_N_ASSERT always answers, and every other command runs behind `live` or `atPins`. -/
theorem onlyUndefinedBehaviourStops : Obligations.OnlyUndefinedBehaviourStops := by
  intro c s
  by_cases hc : c = .perstNAssert
  · subst hc
    obtain ⟨t, ht⟩ := exec_perstNAssert_next s
    exact .inl ⟨⟨t, ht⟩, .inr rfl⟩
  · rcases exec_stops_or_answers c s hc with ⟨he, hu⟩ | ⟨t, he, hu⟩
    · exact .inr ⟨he, hu, hc⟩
    · exact .inl ⟨⟨t, he⟩, .inl hu⟩

/-- Settles O5: at reset every map is empty, so each part of the state reads its default. -/
theorem resetIsCanonical : Obligations.ResetIsCanonical :=
  ⟨by decide, rfl, rfl, rfl, rfl, fun _ => rfl, fun _ => rfl⟩

/-- Reset cuts the Plinth's operations short; of the array nothing but their blocks and lines may change. -/
theorem State.inReset_eq (s : State) :
    s.inReset = { State.reset with
      pending := s.pending, free := s.inReset.free, nextKey := s.nextKey, jtag := s.jtag
      pins := { s.pins with perstN := false, thermTrip := false, smbReleased := true }
      plArray := s.inReset.plArray, plEc := s.plEc, plMark := s.plMark, nandSb := s.nandSb.map Superblock.lost } := by
  unfold State.inReset
  dsimp only
  rw [State.plTorn_all_eq]

theorem State.inReset_array {s : State} {a : Nat} (h : s.canon = true)
    (ha : ∀ k ∈ [s.plBank0, s.plBank1], ∀ o ∈ k.op.toList ++ k.held.toList,
      if o.erase then a / plBlock ≠ o.block else a / 32 ≠ o.line) :
    memByte erasedByte s.inReset.plArray a = memByte erasedByte s.plArray a := by
  refine State.plTorn_all_frame h fun o ho => ?_
  obtain ⟨k, hk, hok⟩ := List.mem_flatMap.1 ho
  exact ha k hk o hok

theorem PL_INDET_ne_PL_STATUS (w : Nat) : PL_INDET w ≠ PL_STATUS := by unfold PL_INDET PL_STATUS; omega

theorem State.plIndet_of_reg {s t : State} {b : Nat} (h : t.reg (PL_INDET (b / 32)) = s.reg (PL_INDET (b / 32))) :
    t.plIndet b = s.plIndet b := regBit_of h

/-- The scan of R315: every marked block is indeterminate; only PL_INDET and PL_STATUS change. -/
theorem State.plScan_facts {s : State} (hw : smapWf resetOf s.regs = true) (hm : ∀ e ∈ s.plMark, e.1 < 512) :
    { s.plScan with regs := s.regs } = s ∧ (∀ e ∈ s.plMark, s.plScan.plIndet e.1 = true)
      ∧ ∀ a, (∀ w < 16, a ≠ PL_INDET w) → a ≠ PL_STATUS → s.plScan.reg a = s.reg a := by
  obtain ⟨hwf, hframe, -, hset, hreg⟩ := State.scan_marks hw hm
  have hs : s.plScan = ((s.plMark.foldl (fun (s : State) e => s.setBit (PL_INDET (e.1 / 32)) (e.1 % 32) true) s).plTally.setBit
      PL_STATUS 0 true).setField PL_STATUS 2 1 ((s.plMark.foldl (fun (s : State) e => s.setBit (PL_INDET (e.1 / 32)) (e.1 % 32) true) s).regN PL_XIP_CTL % 4) := rfl
  generalize s.plMark.foldl (fun (s : State) e => s.setBit (PL_INDET (e.1 / 32)) (e.1 % 32) true) s = u at hwf hframe hset hreg hs
  have hwr : Writes (· = PL_STATUS) u s.plScan := by
    rw [hs]
    have hone : ∀ {v} (hi lo n : Nat), Writes (· = PL_STATUS) u v → Writes (· = PL_STATUS) u (v.setField PL_STATUS hi lo n) :=
      fun hi lo n h => h.field PL_STATUS hi lo n rfl
    exact hone _ _ _ (hone _ _ _ (hone _ _ _ (Writes.refl hwf)))
  obtain ⟨-, hother, heq⟩ := hwr
  refine ⟨?_, fun e he => ?_, fun a ha hst => ?_⟩
  · rw [heq]
    exact hframe
  · rw [State.plIndet_of_reg (hother _ (PL_INDET_ne_PL_STATUS _))]
    exact hset e he
  · rw [hother a hst, hreg a ha]

/-- Settles O8: the fundamental reset by `inReset_eq` and `inReset_array`, its release by `plScan_facts`. -/
theorem perstResetsAndScans : Obligations.PerstResetsAndScans := by
  refine ⟨fun s => ⟨fun hp => ?_, fun hp => ?_⟩, fun s hu => ⟨fun hp => ?_, fun hp hc hm => ?_⟩⟩
  · rw [exec_perstNAssert, execPerstNAssert, hp]; rfl
  · refine ⟨s.inReset, ?_, State.inReset_eq s, fun hc a ha => State.inReset_array hc ha⟩
    rw [exec_perstNAssert, execPerstNAssert, hp]; rfl
  · rw [exec_perstNRelease, execPerstNRelease, atPins_ok hu, hp]; rfl
  · let v : State := { s with pins := { s.pins with perstN := true, smbReleased := false }
                              pw := { s.pw with coolArmed := !s.pins.coolFlowOk } }
    have he : exec .perstNRelease s = .next v.plScan := by
      rw [exec_perstNRelease, execPerstNRelease, atPins_ok hu, hp]; rfl
    obtain ⟨hframe, hset, hreg⟩ := State.plScan_facts (s := v) (State.canon_regs hc) hm
    refine ⟨v.plScan, he, congrArg State.pins hframe, congrArg State.pw hframe, ?_, hset, hreg⟩
    have hback := congrArg (fun x : State => ({ x with pins := s.pins, pw := s.pw, regs := s.regs } : State)) hframe
    exact hback

/-- Settles O13: an access of another size or alignment is turned away before the register space is looked at. -/
theorem oddAccessesDiscarded : Obligations.OddAccessesDiscarded := by
  intro s sec addr size v hu hodd
  have hbad : accessOk addr.toNat size = false := Bool.eq_false_iff.2 fun h => hodd (by simpa [accessOk] using h)
  constructor
  · rw [exec_registerWrite, execRegisterWrite, live_up hu, State.busWrite, hbad]
    rfl
  · rw [exec_registerRead, execRegisterRead, live_up hu, State.busRead, hbad]
    rfl

/-! ### The status of a completion, its record and the command that writes it -/

theorem leNat_leBytes (n v : Nat) : leNat (leBytes n v) = v % 256 ^ n := by
  induction n generalizing v with
  | zero => simp [leBytes, leNat, Nat.mod_one]
  | succ n ih =>
    have hlow : (BitVec.ofNat 8 v).toNat = v % 256 := by simp
    rw [leBytes, leNat, ih, hlow, Nat.pow_succ', Nat.mod_mul]

/-- The place of a status in the order of R16, codes of one class sharing it. -/
def statusPlace (c : Nat) : Nat :=
  if c = 0x00F1 then 0 else if c = 0x00F0 then 1 else if isFault c then 2 else if c = 0x0070 then 3 else if c ≠ 0 then 4 else 5

/-- The six classes of R16, each with its rank. -/
theorem stRank_class (c : Nat) :
    c = 0xF1 ∧ stRank c = 0 ∧ statusPlace c = 0 ∨ c = 0xF0 ∧ stRank c = 1 ∧ statusPlace c = 1
      ∨ stRank c = 2 + c ∧ statusPlace c = 2 ∨ c = 0x70 ∧ stRank c = 0x200 ∧ statusPlace c = 3
      ∨ c ≠ 0 ∧ stRank c = 0x300 + c ∧ statusPlace c = 4 ∨ c = 0 ∧ stRank c = 0x400 ∧ statusPlace c = 5 := by
  by_cases stop : c = 0xF1
  · subst stop; decide
  by_cases absent : c = 0xF0
  · subst absent; decide
  by_cases ok : c = 0
  · subst ok; decide
  by_cases retired : c = 0x70
  · subst retired; decide
  by_cases warning : c = 1 ∨ c = 0x20
  · rcases warning with rfl | rfl <;> decide
  · have hw := not_or.1 warning
    simp [stRank, statusPlace, isFault, stStop, stHostAbsent, stOk, stEngineRetired, stBedConflict, stIndexRange, *]

theorem stRank_le_place {c d : Nat} (hc : c ≤ 0xFF) (hd : d ≤ 0xFF) (h : stRank c ≤ stRank d) :
    statusPlace c < statusPlace d ∨ statusPlace c = statusPlace d ∧ c ≤ d := by
  have := stRank_class c
  have := stRank_class d
  omega

theorem stRank_lt_ok {c : Nat} (hc : c ≤ 0xFF) (h : c ≠ 0) : stRank c < stRank stOk := by
  have := stRank_class c
  have hok : stRank stOk = 0x400 := rfl
  omega

/-- One more condition replaces the choice where it comes before it. -/
theorem chooseStatus_append (codes : List (BitVec 16 × DWord)) (x : BitVec 16 × DWord) :
    chooseStatus (codes ++ [x]) = if stRank x.1.toNat < stRank (chooseStatus codes).1 ∨ (x.1 = 0 ∧ (chooseStatus codes).1 = stOk)
      then (x.1.toNat, x.2.toNat) else chooseStatus codes := by
  unfold chooseStatus
  rw [List.foldl_append]
  rfl

/-- Induction on a list from its end, the order in which `chooseStatus` and the other folds of the model read it. -/
theorem list_append_induction {α : Type} {P : List α → Prop} (nil : P []) (append_singleton : ∀ l a, P l → P (l ++ [a])) (l : List α) :
    P l := by
  have hrev : ∀ m : List α, P m.reverse := by
    intro m
    induction m with
    | nil => exact nil
    | cons a m ih =>
      rw [List.reverse_cons]
      exact append_singleton _ a ih
  rw [← List.reverse_reverse l]
  exact hrev _

/-- The condition chosen is one of those met, and none has a lower rank. -/
theorem chooseStatus_first (codes : List (BitVec 16 × DWord)) (hb : ∀ c ∈ codes, c.1.toNat ≤ 0xFF) (hne : codes ≠ []) :
    ∃ c ∈ codes, chooseStatus codes = (c.1.toNat, c.2.toNat) ∧ ∀ d ∈ codes, stRank c.1.toNat ≤ stRank d.1.toNat := by
  induction codes using list_append_induction with
  | nil => exact absurd rfl hne
  | append_singleton codes x ih =>
    have hx : x.1.toNat ≤ 0xFF := hb x (by simp)
    rw [chooseStatus_append]
    by_cases hnil : codes = []
    · subst hnil
      have htake : stRank x.1.toNat < stRank (chooseStatus []).1 ∨ (x.1 = 0 ∧ (chooseStatus []).1 = stOk) := by
        by_cases h0 : x.1 = 0
        · exact .inr ⟨h0, rfl⟩
        · exact .inl (stRank_lt_ok hx fun h => h0 (BitVec.eq_of_toNat_eq h))
      rw [if_pos htake]
      exact ⟨x, by simp, rfl, by simp⟩
    · obtain ⟨c, hc, hch, hmin⟩ := ih (fun c h => hb c (List.mem_append_left _ h)) hnil
      rw [hch]
      have hlast : ∀ (e : BitVec 16 × DWord), stRank e.1.toNat ≤ stRank c.1.toNat → stRank e.1.toNat ≤ stRank x.1.toNat →
          ∀ d ∈ codes ++ [x], stRank e.1.toNat ≤ stRank d.1.toNat := by
        intro e hec hex d hd
        rcases List.mem_append.1 hd with hd | hd
        · exact Nat.le_trans hec (hmin d hd)
        · rw [List.mem_singleton.1 hd]; exact hex
      split
      next h =>
        refine ⟨x, by simp, rfl, hlast x ?_ (Nat.le_refl _)⟩
        rcases h with h | ⟨h0, hcok⟩
        · exact Nat.le_of_lt h
        · rw [h0, show c.1.toNat = stOk from hcok]; exact Nat.le_refl _
      next h =>
        exact ⟨c, List.mem_append_left _ hc, rfl, hlast c (Nat.le_refl _) (Nat.not_lt.1 fun hlt => h (.inl hlt))⟩

/-- The first two bytes of a completion record are its status. -/
theorem Flight.record_status (f : Flight) (st : Nat × Nat) (ph : Bool) : leNat ((f.record st ph).take 2) = st.1 % 0x10000 := by
  have htake : (f.record st ph).take 2 = leBytes 2 st.1 := by
    unfold Flight.record
    simp only [List.append_assoc]
    exact List.take_left' (leBytes_length 2 st.1)
  rw [htake]
  exact leNat_leBytes 2 st.1

/-- Settles O23: `chooseStatus_first` with the ranks read as the order of R16. -/
theorem statusByPrecedence : Obligations.StatusByPrecedence := by
  refine ⟨rfl, fun codes hb hne => ?_, fun f codes ph h => ?_⟩
  · obtain ⟨c, hc, hch, hmin⟩ := chooseStatus_first codes hb hne
    exact ⟨c, hc, hch, fun d hd => stRank_le_place (hb c hc) (hb d hd) (hmin d hd)⟩
  · rw [Flight.record_status, Nat.mod_eq_of_lt h]

theorem leNat_take_leBytes (n v : Nat) (post : Bytes) : leNat ((leBytes n v ++ post).take n) = v % 256 ^ n := by
  rw [List.take_left' (leBytes_length n v), leNat_leBytes]

theorem drop_leBytes_append {n o : Nat} (h : n ≤ o) (v : Nat) (post : Bytes) : (leBytes n v ++ post).drop o = post.drop (o - n) := by
  rw [List.drop_append, leBytes_length, List.drop_eq_nil_of_le (by rw [leBytes_length]; exact h), List.nil_append]

/-- The completion record of Table 2.9, field by field. -/
theorem Flight.record_layout (f : Flight) (st : Nat × Nat) (ph : Bool) :
    let r := f.record st ph
    let at_ (o n : Nat) : Nat := leNat ((r.drop o).take n)
    r.length = 32 ∧ at_ 0 2 = st.1 % 0x10000 ∧ at_ 2 2 = dTag f.desc ∧ at_ 4 4 = dUser f.desc
      ∧ at_ 8 1 = (dClass f.desc + 16 * f.queue + 128 * flag ph) % 256 ∧ at_ 9 1 = f.unit % 256 ∧ at_ 10 2 = f.index % 0x10000
      ∧ at_ 12 4 = min f.warn 0xFFFFFFFF ∧ at_ 16 8 = st.2 % 2 ^ 64 := by
  have htag : dTag f.desc < 2 ^ 16 := bits_lt _ _ _
  have huser : dUser f.desc < 2 ^ 32 := bits_lt _ _ _
  have hassoc : f.record st ph = leBytes 2 st.1 ++ (leBytes 2 (dTag f.desc) ++ (leBytes 4 (dUser f.desc)
      ++ (leBytes 1 (dClass f.desc + place f.queue 4 + place (flag ph) 7) ++ (leBytes 1 f.unit ++ (leBytes 2 f.index
      ++ (leBytes 4 (min f.warn 0xFFFFFFFF) ++ (leBytes 8 st.2 ++ leBytes 8 0))))))) := by
    simp only [Flight.record, List.append_assoc]
  dsimp only
  rw [hassoc]
  refine ⟨by simp only [List.length_append, leBytes_length], ?_⟩
  simp only [List.drop_zero, drop_leBytes_append, leNat_take_leBytes, Nat.reduceLeDiff, Nat.reduceSub, Nat.reducePow, place, true_and, and_true]
  omega

theorem State.wakeScans_none {s : State} (hq : s.schedQ = []) (hf : ∀ g ∈ s.flights, g.phase ≠ .waitMove) : s.wakeScans = s := by
  unfold State.wakeScans
  have hscans : s.flights.filter (fun f => decide (f.phase = .waitMove) && f.base.isNone) = [] :=
    filter_no fun g hg => by rw [decide_eq_false (hf g hg), Bool.false_and]
  rw [hscans, hq]
  rfl

theorem State.applySignals_none {s : State} {f : Flight} {code : Nat} (h : ∀ n < 4, dSig f.desc n = none) : s.applySignals f code = s := by
  unfold State.applySignals
  refine foldl_keeps (P := fun t => t = s) rfl fun t n hn ht => ?_
  rw [h n (List.mem_range.1 hn)]
  exact ht

/-- A descriptor of class 0xF that is QUIET, ends with OK and has neither signal nor event leaves flight and does nothing else. -/
theorem Flight.done_quiet {f : Flight} {s : State} (hc : f.codes = []) (hq : bit f.desc.toNat 27 = true) (he : bit f.desc.toNat 26 = false)
    (hs : ∀ n < 4, dSig f.desc n = none) (hu : f.unit = 0xFF) (hr : f.inRec = []) (hl : f.late = []) :
    f.done s = s.dropFlight f.id := by
  have hheld : f.held = false := by unfold Flight.held; rw [hr]; exact Bool.and_false _
  have hok : chooseStatus f.codes = (stOk, 0) := by rw [hc]; rfl
  have hfault : isFault stOk = false := rfl
  unfold Flight.done
  simp only [hok, hfault, hl, hq, he, hu, hheld, List.foldl_nil, State.applySignals_none hs, Bool.true_and, Bool.false_and, decide_true,
    Bool.or_true, if_true, Bool.false_eq_true, if_false]

theorem execDescriptorComplete_ran {s : State} {id : Nat} {f : Flight} (hu : s.up = true) (hf : s.flight id = some f)
    (hp : f.phase = .ran) (hr : f.noRecord = true ∨ s.cqFull f.tenant = false) :
    exec (.descriptorComplete id) s = .next ((f.done s).wakeScans) := by
  rw [exec_descriptorComplete, execDescriptorComplete, live_up hu, State.complete, State.onFlight_some hf, if_pos ⟨hp, hr⟩]

theorem execDescriptorComplete_waits {s : State} {id : Nat} {f : Flight} (hu : s.up = true) (hf : s.flight id = some f)
    (h : ¬ (f.phase = .ran ∧ (f.noRecord = true ∨ s.cqFull f.tenant = false))) :
    exec (.descriptorComplete id) s = .next s := by
  rw [exec_descriptorComplete, execDescriptorComplete, live_up hu, State.complete, State.onFlight_some hf, if_neg h]

/-- Settles O24: completion waits for its record's room, the record is `record_layout`, and class 0xF runs an empty operation. -/
theorem descriptorCompletes : Obligations.DescriptorCompletes := by
  intro s id f hu hf
  refine ⟨fun hp hr => execDescriptorComplete_ran hu hf hp hr, fun hp hn hc => ?_, fun hp => ?_, ?_, fun st ph => f.record_layout st ph, ?_⟩
  · exact execDescriptorComplete_waits hu hf fun h => by simp [hn, hc] at h
  · exact execDescriptorComplete_waits hu hf fun h => hp h.1
  · intro hp hc hcodes hq he hs hunit hrec hlate hsched hmove
    rw [execDescriptorComplete_ran hu hf hp (.inr hc), Flight.done_quiet hcodes hq he hs hunit hrec hlate, State.flight_id hf,
      State.wakeScans_none (s := s.dropFlight id) hsched fun g hg => hmove g (List.mem_filter.1 hg).1]
    rfl
  · intro hp hcls hop
    obtain ⟨n, hn⟩ := quiet_ok (u := s) (f := f) f.tenant f.strict
    refine ⟨n, ?_⟩
    rw [exec_meleopinDescriptor, execMeleopinDescriptor, live_up hu, State.runFlight_ready hf hp hcls hop rfl, hn, List.append_nil]

/-! ### Writes entering the queue of a command page (R355 to R360) -/

/-- Whether an offset of a function's command pages begins a 64-bit register. -/
theorem wideRow_eq_any (row : Option (Reg × Nat × Nat)) :
    (match row with | some (r, _, 0) => decide (r.bytes = 8) | _ => false) = row.any (fun r => decide (r.2.2 = 0 ∧ r.1.bytes = 8)) := by
  rcases row with _ | ⟨r, k, _ | byte⟩
  · rfl
  · simp
  · simp

theorem State.post_eq (s : State) (sec : Bool) (fn off size v : Nat) :
    s.post sec fn off size v = if accessOk off size = false then s
      else if size = 8 ∧ (rowAt .cmd fn (off / 0x1000) (off % 0x1000)).any (fun r => decide (r.2.2 = 0 ∧ r.1.bytes = 8)) = false then
        (s.postOne sec fn off 4 (v % 2 ^ 32)).postOne sec fn (off + 4) 4 (v / 2 ^ 32)
      else s.postOne sec fn off size v := by
  have hwide := wideRow_eq_any (rowAt .cmd fn (off / 0x1000) (off % 0x1000))
  unfold State.post
  cases hok : accessOk off size
  · rfl
  · rw [← hwide]; rfl

/-- A write of a register beyond the header: what each branch of R355 to R360 does with it. -/
theorem State.postOne_register {s : State} {sec : Bool} {fn off size v : Nat} {r : Reg} {k byte : Nat} (ho : 0x40 ≤ off % 0x1000)
    (hrow : rowAt .cmd fn (off / 0x1000) (off % 0x1000) = some (r, k, byte)) :
    s.postOne sec fn off size v = if s.takes fn (cmdAddr fn off - byte) = false then s.wdrop fn
      else if cmdAddr fn off - byte = CMD_WIN_BASE fn then
        s.setRegN (cmdAddr fn off - byte) (Nat.land (s.mergeHalf (cmdAddr fn off - byte) byte size r.bytes v) r.mask)
      else if cmdAddr fn off - byte = CMD_WARRIVE fn ∨ cmdAddr fn off - byte = CMD_WDROP fn then s
      else s.enterWrite { fn := fn, off := off, size := size, val := BitVec.ofNat 64 v } := by
  unfold State.postOne
  rw [if_neg (Nat.not_lt.2 ho), hrow]
  simp only [Bool.not_eq_true']

/-- Whether a waiting write is to the register of another. -/
def Posted.sameReg (p q : Posted) : Bool := decide (q.fn = p.fn) && decide (q.addr = p.addr)

/-- The writes of a function that wait (R358). -/
def State.waiting (s : State) (fn : Nat) : List Posted := s.wq.filter fun q => decide (q.fn = fn)

theorem State.enterWrite_room {s : State} {p : Posted} (hm : (coalesces p.fn p.addr && s.wq.any p.sameReg) = false)
    (hroom : (s.waiting p.fn).length < 64) :
    s.enterWrite p = { s with wq := s.wq ++ [p] }.modReg (CMD_WARRIVE p.fn) fun n => (n + 1) % 2 ^ 32 := by
  unfold State.enterWrite
  change (coalesces p.fn p.addr && s.wq.any fun q => decide (q.fn = p.fn) && decide (q.addr = p.addr)) = false at hm
  simp only [hm, Bool.false_eq_true, if_false]
  exact if_neg (Nat.not_le.2 hroom)

theorem State.enterWrite_full {s : State} {p : Posted} (hm : (coalesces p.fn p.addr && s.wq.any p.sameReg) = false)
    (hfull : 64 ≤ (s.waiting p.fn).length) :
    s.enterWrite p = (s.wdrop p.fn).event p.fn
      { type := 0x0003, cls := classCode .cmd, inst := p.fn, tenant := if p.fn < 16 then p.fn else 0xFF,
        arg0 := (s.wdrop p.fn).regN (CMD_WDROP p.fn) } := by
  unfold State.enterWrite
  change (coalesces p.fn p.addr && s.wq.any fun q => decide (q.fn = p.fn) && decide (q.addr = p.addr)) = false at hm
  simp only [hm, Bool.false_eq_true, if_false]
  exact if_pos hfull

/-- A write that replaces one waiting for its register leaves at least one place free. -/
theorem waiting_replaced_lt {wq : List Posted} {p : Posted} (hany : wq.any p.sameReg = true) :
    ((wq.filter fun q => !p.sameReg q).filter fun q => decide (q.fn = p.fn)).length < (wq.filter fun q => decide (q.fn = p.fn)).length := by
  obtain ⟨q, hq, hs⟩ := List.any_eq_true.1 hany
  have hfn : decide (q.fn = p.fn) = true := (Bool.and_eq_true_iff.1 hs).1
  have hswap : ((wq.filter fun q => !p.sameReg q).filter fun q => decide (q.fn = p.fn))
      = (wq.filter fun q => decide (q.fn = p.fn)).filter fun q => !p.sameReg q := by
    rw [List.filter_filter, List.filter_filter]
    exact List.filter_congr fun q _ => Bool.and_comm _ _
  rw [hswap]
  refine List.length_filter_lt_length_iff_exists.2 ⟨q, List.mem_filter.2 ⟨hq, hfn⟩, ?_⟩
  rw [hs]
  exact Bool.false_ne_true

theorem State.enterWrite_coalesces {s : State} {p : Posted} (hc : coalesces p.fn p.addr = true) (hany : s.wq.any p.sameReg = true)
    (hroom : (s.waiting p.fn).length ≤ 64) :
    s.enterWrite p = { { s with wq := s.wq.filter fun q => !p.sameReg q }.wdone p.fn with
        wq := (s.wq.filter fun q => !p.sameReg q) ++ [p] }.modReg (CMD_WARRIVE p.fn) fun n => (n + 1) % 2 ^ 32 := by
  have hlt := Nat.lt_of_lt_of_le (waiting_replaced_lt hany) hroom
  have hm : (coalesces p.fn p.addr && s.wq.any p.sameReg) = true := by rw [hc, hany]; rfl
  unfold State.enterWrite
  change (coalesces p.fn p.addr && s.wq.any fun q => decide (q.fn = p.fn) && decide (q.addr = p.addr)) = true at hm
  simp only [hm, if_true]
  exact if_neg (Nat.not_le.2 hlt)

/-- Settles O18: `post_eq` for the size, `postOne_register` for the register, and the `enterWrite` rules for the queue. -/
theorem commandWritesQueue : Obligations.CommandWritesQueue := by
  intro s fn hu
  refine ⟨fun off size v => ?_, fun off size v r k byte ho hrow => ?_⟩
  · rw [exec_commandWritePost, execCommandWritePost, live_up hu, State.post_eq]
  · have hpost := State.postOne_register (s := s) (sec := false) (size := size) (v := v) ho hrow
    refine ⟨fun ht => ?_, fun ht hw => ?_, fun ht hw hro => ?_, fun ht hw ha hd => ?_⟩
    · rw [hpost, if_pos ht]
    · rw [hpost, if_neg (Bool.not_eq_false _ ▸ ht), if_pos hw]
    · rw [hpost, if_neg (Bool.not_eq_false _ ▸ ht), if_neg hw, if_pos hro]
    · have henter := hpost.trans ((if_neg (Bool.not_eq_false _ ▸ ht)).trans ((if_neg hw).trans (if_neg (not_or.2 ⟨ha, hd⟩))))
      refine ⟨fun hm hown => ?_, fun hm hown => ?_, fun hc hany hown => ?_⟩
      · exact henter.trans (State.enterWrite_room (Bool.and_eq_false_iff.2 hm) hown)
      · exact henter.trans (State.enterWrite_full (Bool.and_eq_false_iff.2 hm) hown)
      · exact henter.trans (State.enterWrite_coalesces hc hany hown)

/-! ### Register accesses: closed and undefined registers, plain registers, marks and the Chisel library -/

theorem accessOk_word {a : Nat} (h : a % 4 = 0) : accessOk a 4 = true := by
  unfold accessOk
  simp [h]

/-- A 32-bit write outside the command pages goes to `write4`. -/
theorem State.busWrite_word {s : State} {sec : Bool} {a v : Nat} (h : a % 4 = 0) (hc : ∀ i p, pageOf a ≠ some (.cmd, i, p)) :
    s.busWrite sec a 4 v = s.write4 sec a v := by
  unfold State.busWrite
  rw [accessOk_word h]
  split
  · contradiction
  · split
    next i p hp => exact absurd hp (hc i p)
    next => rfl

theorem State.busRead_word {s : State} {sec : Bool} {a : Nat} (h : a % 4 = 0) : s.busRead sec a 4 = s.read4 sec a := by
  unfold State.busRead
  rw [accessOk_word h]
  rfl

theorem exec_registerWrite_word {s : State} {sec : Bool} {addr : BitVec 26} {v : DWord} (hu : s.up = true) (h : addr.toNat % 4 = 0)
    (hc : ∀ i p, pageOf addr.toNat ≠ some (.cmd, i, p)) :
    exec (.registerWrite sec addr 4 v) s = .next (s.write4 sec addr.toNat v.toNat) := by
  rw [exec_registerWrite, execRegisterWrite, live_up hu, State.busWrite_word h hc]

theorem exec_registerRead_word {s t : State} {sec : Bool} {addr : BitVec 26} {n : Nat} (hu : s.up = true) (h : addr.toNat % 4 = 0)
    (hr : s.read4 sec addr.toNat = (t, n)) :
    exec (.registerRead sec addr 4) s = .next { t with pcie := { t.pcie with rdData := BitVec.ofNat 64 n } } := by
  rw [exec_registerRead, execRegisterRead, live_up hu, State.busRead_word h, hr]

section
variable {s : State} {sec : Bool} {a v : Nat} {b : Blk} {i p k byte : Nat} {r : Reg}

theorem State.write4_unmapped (hp : pageOf a = none) : s.write4 sec a v = s.devErr := by
  unfold State.write4 State.allow
  rw [hp]

theorem State.read4_unmapped (hp : pageOf a = none) : s.read4 sec a = (s.devErr, 0) := by
  unfold State.read4
  rw [hp]

/-- A write beyond the header of a page other than the device's passes the access rules, then changes its register. -/
theorem State.write4_page (hp : pageOf a = some (b, i, p)) (hd : b ≠ .dev) (ho : 0x40 ≤ a % 0x1000) :
    s.write4 sec a v = match rowAt b i p (a % 0x1000) with
      | none => if !sec && s.blkSecure b i && b != .qn then s.devErr else s.blkErr b i 5
      | some (r, _, byte) => if !sec && s.closed b i r then s.devErr
          else (s.halfValue r (a - byte) byte v).1.regWrite b i p r (a - byte) (s.halfValue r (a - byte) byte v).2 := by
  unfold State.write4 State.allow
  rw [hp]
  split
  next h => exact absurd (congrArg Prod.fst (Option.some.inj h)) hd
  next b' i' p' _ h =>
    obtain ⟨rfl, rfl, rfl⟩ : b = b' ∧ i = i' ∧ p = p' := by simpa using h
    refine (if_neg (Nat.not_lt.2 ho)).trans ?_
    rcases rowAt b i p (a % 0x1000) with _ | ⟨r, k, byte⟩
    · rfl
    · exact congrArg (fun t => if !sec && s.closed b i r then s.devErr else t) (if_neg (Nat.not_lt.2 ho))
  next h => cases h

theorem State.read4_page (hp : pageOf a = some (b, i, p)) (hd : b ≠ .dev) (ho : 0x40 ≤ a % 0x1000) :
    s.read4 sec a = match rowAt b i p (a % 0x1000) with
      | none => (if !sec && s.blkSecure b i && b != .qn then s.devErr else s.blkErr b i 5, 0)
      | some (r, _, byte) => if !sec && s.closed b i r then (s.devErr, 0)
          else ((s.regRead sec b i p r (a - byte)).1, (s.regRead sec b i p r (a - byte)).2 / 2 ^ (8 * byte) % 2 ^ 32) := by
  unfold State.read4
  rw [hp]
  dsimp only
  refine (if_neg (Nat.not_lt.2 ho)).trans ((if_neg (fun h => hd h.1)).trans ?_)
  cases rowAt b i p (a % 0x1000) <;> rfl

theorem State.closed_of_secure (h : r.sec = .secure) : s.closed b i r = true := by
  unfold State.closed
  rw [decide_eq_true h, Bool.true_or]

end

/-- Settles O14: `write4_page` and `read4_page` at a closed register and at an offset no row defines. -/
theorem closedRegistersKeepOut : Obligations.ClosedRegistersKeepOut := by
  intro s addr v hu h4
  refine ⟨fun b i p r k hp hd hc ho hrow hsec => ⟨?_, ?_⟩, fun sec hp => ⟨?_, ?_⟩, fun b i p hp hd hc ho hrow => ⟨?_, ?_⟩⟩
  · rw [exec_registerWrite_word hu h4 (by rw [hp]; rintro i p ⟨⟩; exact hc rfl), State.write4_page hp hd ho, hrow]
    exact congrArg _ (if_pos (State.closed_of_secure hsec))
  · refine exec_registerRead_word hu h4 ?_
    rw [State.read4_page hp hd ho, hrow]
    exact if_pos (State.closed_of_secure hsec)
  · rw [exec_registerWrite_word hu h4 (by rw [hp]; rintro i p ⟨⟩), State.write4_unmapped hp]
  · exact exec_registerRead_word hu h4 (State.read4_unmapped hp)
  · rw [exec_registerWrite_word hu h4 (by rw [hp]; rintro i p ⟨⟩; exact hc rfl), State.write4_page hp hd ho, hrow]
    rfl
  · refine exec_registerRead_word hu h4 ?_
    rw [State.read4_page hp hd ho, hrow]
    rfl

/-- Pages whose registers beyond the header are all plain: those of the engines, the Keystone cores and the Page Map, and the Bed's own. -/
def plainPage (b : Blk) (p : Nat) : Prop := b ∈ [Blk.ae, .ce, .ve, .le, .he, .pm, .kc] ∨ (b = .bed ∧ p < 8)

theorem State.regWrite_plain {s : State} {b : Blk} {i p a v : Nat} {r : Reg} (h : plainPage b p) :
    s.regWrite b i p r a v = s.storeReg b i r a v := by
  rcases h with h | ⟨rfl, hp⟩
  · simp only [List.mem_cons, List.not_mem_nil, or_false] at h
    rcases h with rfl | rfl | rfl | rfl | rfl | rfl | rfl <;> rfl
  · exact if_pos hp

theorem plainPage_ne {b : Blk} {p : Nat} (h : plainPage b p) : b ≠ .dev ∧ b ≠ .cmd := by
  rcases h with h | ⟨rfl, -⟩
  · constructor <;> rintro rfl <;> revert h <;> decide
  · decide

/-- A secure write of a plain 32-bit register stores by the access code. -/
theorem exec_registerWrite_plain {s : State} {addr : BitVec 26} {v : DWord} {b : Blk} {i p k : Nat} {r : Reg} (hu : s.up = true)
    (h4 : addr.toNat % 4 = 0) (hpl : plainPage b p) (hp : pageOf addr.toNat = some (b, i, p)) (ho : 0x40 ≤ addr.toNat % 0x1000)
    (hrow : rowAt b i p (addr.toNat % 0x1000) = some (r, k, 0)) (hb : r.bytes = 4) :
    exec (.registerWrite true addr 4 v) s = .next (s.storeReg b i r addr.toNat (v.toNat % 2 ^ 32)) := by
  have hhalf : s.halfValue r addr.toNat 0 v.toNat = (s, v.toNat % 2 ^ 32) := if_pos hb
  rw [exec_registerWrite_word hu h4 (by rw [hp]; rintro i p ⟨⟩; exact (plainPage_ne hpl).2 rfl),
    State.write4_page hp (plainPage_ne hpl).1 ho, hrow]
  dsimp only
  rw [Nat.sub_zero, hhalf]
  exact congrArg _ ((if_neg Bool.false_ne_true).trans (State.regWrite_plain hpl))

section
variable {s : State} {b : Blk} {i a v : Nat} {r : Reg}

theorem State.storeReg_rw (h : r.acc = .rw ∨ r.acc = .rws) :
    s.storeReg b i r a v = if r.ok.holds (Nat.land v r.mask) then s.setRegN a (Nat.land v r.mask) else s.blkErr b i 5 := by
  unfold State.storeReg
  rcases h with h | h <;> rw [h]

theorem State.storeReg_w1c (h : r.acc = .w1c) : s.storeReg b i r a v = s.modReg a fun old => old - Nat.land old (Nat.land v r.mask) := by
  unfold State.storeReg
  rw [h]

theorem State.storeReg_ro (h : r.acc = .ro) : s.storeReg b i r a v = s := by
  unfold State.storeReg
  rw [h]

end

/-- A read-write register of the Bed's own pages shows what it holds. -/
theorem State.read4_bed {s : State} {a i p k x : Nat} {r : Reg} (hlt : p < 8) (hp : pageOf a = some (.bed, i, p)) (ho : 0x40 ≤ a % 0x1000)
    (hrow : rowAt .bed i p (a % 0x1000) = some (r, k, 0)) (hacc : r.acc = .rw) (hx : x < 2 ^ 32) (hreg : s.reg a = BitVec.ofNat 64 x) :
    s.read4 true a = (s, x) := by
  have hN : s.regN a = x := by
    unfold State.regN
    rw [hreg, BitVec.toNat_ofNat, Nat.mod_eq_of_lt (Nat.lt_trans hx (by decide))]
  have hview : s.regView .bed i p (a % 0x1000) a = x := (if_pos hlt).trans hN
  have hread : s.regRead true .bed i p r a = (s, x) := by
    unfold State.regRead
    simp [hacc, hview]
  rw [State.read4_page hp (by decide) ho, hrow]
  dsimp only
  rw [Nat.sub_zero, hread]
  simpa using Nat.mod_eq_of_lt hx

/-- Settles O15: a plain write is `storeReg` by its access code, and `read4_bed` shows what the Bed holds. -/
theorem plainRegisterWrites : Obligations.PlainRegisterWrites := by
  intro s addr v b i p k r hu h4 hpl hp ho hrow hb
  have hwrite := exec_registerWrite_plain (v := v) hu h4 hpl hp ho hrow hb
  refine ⟨fun hacc hok => ?_, fun hacc hok => ?_, fun hacc => ?_, fun hacc => ?_, ?_⟩
  · rw [hwrite, State.storeReg_rw hacc, if_pos hok]
    rfl
  · rw [hwrite, State.storeReg_rw hacc, if_neg (Bool.eq_false_iff.1 hok)]
  · rw [hwrite, State.storeReg_w1c hacc]
    rfl
  · rw [hwrite, State.storeReg_ro hacc]
  · rintro rfl hacc x hx hreg
    have hlt : p < 8 := hpl.elim (fun h => absurd h (by decide)) And.right
    exact exec_registerRead_word hu h4 (State.read4_bed hlt hp ho hrow hacc hx hreg)

/-! Marks. -/

section
variable {s : State} {t v : Nat}

/-- The windows of the other tenants, as base and count. -/
def State.otherWindows (s : State) (t : Nat) : List (Nat × Nat) :=
  ((List.range 16).filter (· != t)).map fun u => (s.field (MK_WIN u) 15 0, s.field (MK_WIN u) 31 16)

theorem State.mem_otherWindows {w : Nat × Nat} :
    w ∈ s.otherWindows t ↔ ∃ u < 16, u ≠ t ∧ w = (s.field (MK_WIN u) 15 0, s.field (MK_WIN u) 31 16) := by
  unfold State.otherWindows
  simp only [List.mem_map, List.mem_filter, List.mem_range, bne_iff_ne, and_assoc, eq_comm (a := w)]

/-- Whether two windows of marks, each of a count above 0, share a mark. -/
def windowsMeet (base n : Nat) (w : Nat × Nat) : Bool :=
  decide (0 < n) && decide (0 < w.2) && decide (base < w.1 + w.2) && decide (w.1 < base + n)

theorem windowsMeet_iff {base n : Nat} {w : Nat × Nat} :
    windowsMeet base n w = true ↔ 0 < n ∧ 0 < w.2 ∧ base < w.1 + w.2 ∧ w.1 < base + n := by
  unfold windowsMeet
  simp only [Bool.and_eq_true, decide_eq_true_eq, and_assoc]

theorem State.windowWrite_eq (hv : v < 2 ^ 32) : s.windowWrite t v
    = if 61440 < v % 0x10000 + v / 0x10000 ∨ (s.otherWindows t).any (windowsMeet (v % 0x10000) (v / 0x10000)) = true ∨ s.slot t = 1 ∨ s.slot t = 2
      then s.blkErr .mk 0 5 else s.setRegN (MK_WIN t) v := by
  have hlo : bits v 15 0 = v % 0x10000 := by simp [bits]
  have hhi : bits v 31 16 = v / 0x10000 := by simp [bits]; omega
  unfold State.windowWrite
  rw [hlo, hhi, Nat.mod_eq_of_lt hv]
  rfl

theorem exec_markWindowWrite_secure {t : Fin 16} {v : Word} (hu : s.up = true) :
    exec (.markWindowWrite true t v) s = .next (s.windowWrite t v.toNat) := by
  rw [exec_markWindowWrite, execMarkWindowWrite, live_up hu, State.allow_secure (reach_MK_WIN t).1]

end

/-- Settles O16: both registers are marked secure; the window is judged by `windowWrite_eq`. -/
theorem markRegisterWrites : Obligations.MarkRegisterWrites := by
  intro s hu
  refine ⟨fun v => ⟨?_, ?_⟩, fun t v => ⟨?_, fun ⟨hfit, hlive, hret, hoth⟩ => ?_, fun hbad => ?_, fun u hu16 hne hn hm hlo hhi => ?_⟩⟩
  · rw [exec_markWrite, execMarkWrite, live_up hu, State.allow_secure reach_MK_WR_DATA.1, State.markWrite, BitVec.ofNat_toNat,
      BitVec.setWidth_eq]
  · rw [exec_markWrite, execMarkWrite, live_up hu, State.allow_closed reach_MK_WR_DATA.2]
  · rw [exec_markWindowWrite, execMarkWindowWrite, live_up hu, State.allow_closed (reach_MK_WIN t).2]
  · have hmeet : ¬ (s.otherWindows t).any (windowsMeet (v.toNat % 0x10000) (v.toNat / 0x10000)) = true := by
      rintro h
      obtain ⟨w, hw, hm⟩ := List.any_eq_true.1 h
      obtain ⟨u, hu16, hne, rfl⟩ := State.mem_otherWindows.1 hw
      have := windowsMeet_iff.1 hm
      have := hoth u hu16 hne
      omega
    rw [exec_markWindowWrite_secure hu, State.windowWrite_eq v.isLt,
      if_neg (not_or.2 ⟨Nat.not_lt.2 hfit, not_or.2 ⟨hmeet, not_or.2 ⟨hlive, hret⟩⟩⟩), setRegN_word]
  · rw [exec_markWindowWrite_secure hu, State.windowWrite_eq v.isLt, if_pos (hbad.imp_right .inr)]
  · have hmeet : (s.otherWindows t).any (windowsMeet (v.toNat % 0x10000) (v.toNat / 0x10000)) = true :=
      List.any_eq_true.2 ⟨_, State.mem_otherWindows.2 ⟨u, hu16, hne, rfl⟩, windowsMeet_iff.2 ⟨hn, hm, hlo, hhi⟩⟩
    rw [exec_markWindowWrite_secure hu, State.windowWrite_eq v.isLt, if_pos (.inr (.inl hmeet))]

/-! The Chisel library. -/

/-- CE_LIB_DATA of a Chisel engine is a read-only register without a secure mark. -/
theorem row_CE_LIB_DATA : ∀ n : Fin 18, pageOf (CE_LIB_DATA n) = some (.ce, n.val, 0) ∧ CE_LIB_DATA n % 0x1000 = 0x80
    ∧ CE_LIB_DATA n % 4 = 0
    ∧ rowAt .ce n 0 0x80 = some (⟨.ce, 0, 17, 0, 1, 0x80, 1, 4, 4, .ro, .none, 0, .val 0, .any⟩, 0, 0) := by decide

theorem State.read4_CE_LIB_DATA (s : State) (sec : Bool) (n : Fin 18) : s.read4 sec (CE_LIB_DATA n)
    = if !sec && s.blkSecure .ce n then (s.devErr, 0) else ((s.libRead n).1, (s.libRead n).2.toNat) := by
  obtain ⟨hp, ho, -, hrow⟩ := row_CE_LIB_DATA n
  have hread : ∀ r : Reg, r.acc = .ro → s.regRead sec .ce n 0 r (CE_LIB_DATA n) = ((s.libRead n).1, (s.libRead n).2.toNat) := by
    intro r hr
    unfold State.regRead
    simp [hr, ho]
  rw [State.read4_page hp (by decide) (by rw [ho]; decide), ho, hrow]
  dsimp only
  rw [Nat.sub_zero, hread _ rfl]
  have hclosed : ∀ r : Reg, r.sec = .none → s.closed .ce n r = s.blkSecure .ce n := by
    intro r hr
    unfold State.closed
    simp [hr]
  rw [hclosed _ rfl]
  simp [Nat.mod_eq_of_lt (s.libRead n).2.isLt]

theorem exec_ceLibDataRead_word {s t : State} {sec : Bool} {n : Fin 18} {x : Nat} (hu : s.up = true)
    (hr : s.read4 sec (CE_LIB_DATA n) = (t, x)) :
    exec (.ceLibDataRead sec n) s = .next { t with pcie := { t.pcie with rdData := BitVec.ofNat 64 x } } := by
  rw [exec_ceLibDataRead, execCeLibDataRead, live_up hu, State.busRead_word (row_CE_LIB_DATA n).2.2.1, hr]

/-- Settles O32: `read4_CE_LIB_DATA`, where the block is open to the access and where it is not. -/
theorem libraryWordReads : Obligations.LibraryWordReads := by
  intro s sec n hu
  refine ⟨fun hopen => ?_, fun hsec hblk => ?_⟩
  · have hgo : (!sec && s.blkSecure .ce n) = false := by
      rcases hopen with rfl | h
      · rfl
      · rw [show s.blkSecure .ce n = false from h, Bool.and_false]
    rw [exec_ceLibDataRead_word hu ((s.read4_CE_LIB_DATA sec n).trans (if_neg (Bool.eq_false_iff.1 hgo)))]
    simp only [State.libRead, place, Nat.reducePow, BitVec.ofNat_toNat]
    rfl
  · have hstop : (!sec && s.blkSecure .ce n) = true := by rw [hsec, show s.blkSecure .ce n = true from hblk]; rfl
    rw [exec_ceLibDataRead_word hu ((s.read4_CE_LIB_DATA sec n).trans (if_pos hstop))]
    rfl

/-! ### Live retraining of an HBM channel (R291 to R293) -/

/-- The channels of a controller that ask for a retrain, in the order they asked. -/
def State.retrainAsked (s : State) (fc : Nat) : List Nat := (s.retrainReq.filter fun r => decide (r.1 = fc)).map Prod.snd

section
variable {s : State} {fc ch : Nat}

theorem State.retrainWrite_idle {v : Nat} (h : bit v 8 = false) : s.retrainWrite fc v = s := by
  unfold State.retrainWrite
  rw [h]
  rfl

theorem State.retrainWrite_start {v : Nat} (h : bit v 8 = true) : s.retrainWrite fc v = s.askRetrain fc (v % 16) := by
  unfold State.retrainWrite
  rw [h]
  rfl

theorem State.askRetrain_waiting (h : (fc, ch) ∈ s.retrainReq) : s.askRetrain fc ch = s.nextRetrain fc := by
  unfold State.askRetrain
  rw [if_pos (List.contains_iff_mem.2 h)]

theorem State.askRetrain_new (h : (fc, ch) ∉ s.retrainReq) :
    s.askRetrain fc ch = ({ s with retrainReq := s.retrainReq ++ [(fc, ch)] } : State).nextRetrain fc := by
  unfold State.askRetrain
  rw [if_neg (fun hc => h (List.contains_iff_mem.1 hc))]

theorem State.nextRetrain_running {r : Retrain} (h : smapFind s.retrain fc = some r) : s.nextRetrain fc = s := by
  unfold State.nextRetrain
  rw [h]
  rfl

theorem State.nextRetrain_none (h : s.retrainAsked fc = []) : s.nextRetrain fc = s :=
  if_pos (.inr (List.isEmpty_iff.2 h))

/-- The lowest waiting channel starts, shown in the status registers. -/
theorem State.nextRetrain_lowest (hrun : smapFind s.retrain fc = none) (hask : s.retrainAsked fc ≠ []) :
    ∃ ch ∈ s.retrainAsked fc, (∀ c ∈ s.retrainAsked fc, ch ≤ c) ∧ s.nextRetrain fc
      = ((({ s with retrain := smapInsert s.retrain fc { ch := ch, windows := 0 }
                    retrainReq := s.retrainReq.filter fun r => r != (fc, ch) } : State).setBit (FC_STATUS fc) 1 true).setField
            (FC_STATUS fc) 5 2 ch).setRegN (FC_RETRAIN_STAT fc) (1 + ch * 2 ^ 4) := by
  obtain ⟨hmem, hmin⟩ := minOr_facts _ hask
  refine ⟨minOr 0 (s.retrainAsked fc), hmem, hmin, if_neg ?_⟩
  rintro (h | h)
  · rw [hrun] at h; cases h
  · exact hask (List.isEmpty_iff.1 h)

end

section
variable {s : State} {fc : Fin 8} {r : Retrain} {ws : List Sweep}

theorem exec_retrainWindow_idle (hu : s.up = true) (h : smapFind s.retrain fc = none) : exec (.retrainWindow fc) s = .next s := by
  rw [exec_retrainWindow, execRetrainWindow, live_up hu, h]

theorem exec_retrainComplete_idle (hu : s.up = true) (h : smapFind s.retrain fc = none) : exec (.retrainComplete fc ws) s = .next s := by
  rw [exec_retrainComplete, execRetrainComplete, live_up hu, h]

/-- Neither a refresh nor a targeted refresh is due on a channel. -/
def State.channelClear (s : State) (channel : Nat) : Prop :=
  (∀ e ∈ s.hbmDue, ¬ e.1 / 96 = channel) ∧ ∀ x ∈ s.hbmTrrDue, ¬ x.1 / 96 = channel

theorem State.channelClear_iff {channel : Nat} : s.channelClear channel
    ↔ ((s.hbmDue.map Prod.fst).any fun k => decide (k / 96 = channel)) = false ∧ (s.hbmTrrDue.any fun x => decide (x.1 / 96 = channel)) = false := by
  unfold State.channelClear
  simp only [List.any_eq_false, List.mem_map, forall_exists_index, and_imp, decide_eq_true_eq, forall_apply_eq_imp_iff₂]

/-- RETRAIN_WINDOW of a running retrain: a window where one is left and the channel is clear. -/
theorem exec_retrainWindow_running (hu : s.up = true) (h : smapFind s.retrain fc = some r) :
    (1024 ≤ r.windows ∨ ¬ s.channelClear (16 * fc + r.ch) → exec (.retrainWindow fc) s = .next s)
    ∧ (r.windows < 1024 → s.channelClear (16 * fc + r.ch) → exec (.retrainWindow fc) s
        = .next (({ s with retrain := smapInsert s.retrain fc { r with windows := r.windows + 1 }
                           hbmRow := s.hbmRow.filter fun e => !decide (e.1 / 96 = 16 * fc + r.ch) } : State).setField
              (FC_RETRAIN_STAT fc) 31 16 (r.windows + 1))) := by
  rw [exec_retrainWindow, execRetrainWindow, live_up hu, h, State.channelClear_iff]
  refine ⟨fun hn => congrArg _ (if_neg fun hgo => ?_), fun hw hc => congrArg _ (if_pos ⟨hw, hc⟩)⟩
  exact hn.elim (fun hw => Nat.not_le.2 hgo.1 hw) (fun hc => hc hgo.2)

theorem exec_retrainComplete_early (hu : s.up = true) (h : smapFind s.retrain fc = some r) (hw : r.windows < 1024) :
    exec (.retrainComplete fc ws) s = .next s := by
  rw [exec_retrainComplete, execRetrainComplete, live_up hu, h]
  exact congrArg _ (if_pos hw)

/-- The state in which a retrain has ended, its outcome not yet stored. -/
def State.retrainEnded (s : State) (fc : Nat) : State :=
  (({ s with retrain := smapErase s.retrain fc } : State).setBit (FC_STATUS fc) 1 false).setField (FC_STATUS fc) 5 2 0

/-- The repairs of a channel that are due: those asked for on a pseudo-channel whose spare lane is free. -/
def State.repairsDue (s : State) (channel : Nat) : List (Nat × Nat) :=
  (s.lineRepair.filter fun e => decide (e.1 / 2 = channel)).filter fun e => !s.laneUsed e.1

/-- The state with the repairs that are due made. -/
def State.repaired (s : State) (channel : Nat) : State := (s.repairsDue channel).foldl (fun (v : State) (pc, lane) => v.laneRepair pc lane) s

/-- The new delays and repairs of a channel taken together (R292, R293). -/
def State.retrainTaken (s : State) (fc ch : Nat) (t : List (Nat × Nat) × List (Nat × Nat)) : State :=
  { (s.repaired (16 * fc + ch)).tick.putTraining fc ch t with
    lineRepair := smapClear (fun k => decide (k / 2 = 16 * fc + ch)) s.lineRepair }

/-- The end of a retrain by the outcome of its sweeps: whether a lane fell short, and whether a lane was repaired. -/
def State.retrainOutcome (s : State) (fc ch : Nat) (t : List (Nat × Nat) × List (Nat × Nat)) : State :=
  let failed := t.1.any fun x => bit x.2 28
  let v := (if failed then s.tick.retrainFail fc ch t.1 else s.retrainTaken fc ch t).setField (FC_RETRAIN_STAT fc) 1 0 (if failed then 3 else 2)
  (if failed || ((s.repairsDue (16 * fc + ch)).isEmpty && t.2.isEmpty) then v else v.record).nextRetrain fc

/-- RETRAIN_COMPLETE after the last window: the outcome of the sweeps decides. -/
theorem exec_retrainComplete_last (hu : s.up = true) (h : smapFind s.retrain fc = some r) (hw : 1024 ≤ r.windows) :
    exec (.retrainComplete fc ws) s = .next ((s.retrainEnded fc).retrainOutcome fc r.ch
      (((s.retrainEnded fc).repaired (16 * fc + r.ch)).trainChannel fc r.ch ws)) := by
  rw [exec_retrainComplete, execRetrainComplete, live_up hu, h]
  exact congrArg _ (if_neg (Nat.not_lt.2 hw))

end

section
variable {s : State} {fc ch : Nat} {t : List (Nat × Nat) × List (Nat × Nat)}

theorem State.retrainOutcome_failed (h : ∃ x ∈ t.1, bit x.2 28 = true) :
    s.retrainOutcome fc ch t = ((s.tick.retrainFail fc ch t.1).setField (FC_RETRAIN_STAT fc) 1 0 3).nextRetrain fc := by
  unfold State.retrainOutcome
  rw [List.any_eq_true.2 h]
  rfl

theorem State.retrainOutcome_taken (h : ∀ x ∈ t.1, bit x.2 28 = false) (hnone : s.repairsDue (16 * fc + ch) = [] ∧ t.2 = []) :
    s.retrainOutcome fc ch t = ((s.retrainTaken fc ch t).setField (FC_RETRAIN_STAT fc) 1 0 2).nextRetrain fc := by
  unfold State.retrainOutcome
  rw [List.any_eq_false.2 fun x hx => Bool.eq_false_iff.1 (h x hx), hnone.1, hnone.2]
  rfl

theorem State.retrainOutcome_repaired (h : ∀ x ∈ t.1, bit x.2 28 = false) (hsome : ¬ (s.repairsDue (16 * fc + ch) = [] ∧ t.2 = [])) :
    s.retrainOutcome fc ch t = ((s.retrainTaken fc ch t).setField (FC_RETRAIN_STAT fc) 1 0 2).record.nextRetrain fc := by
  have hrec : ((s.repairsDue (16 * fc + ch)).isEmpty && t.2.isEmpty) = false := by
    rw [← Bool.not_eq_true, Bool.and_eq_true, List.isEmpty_iff, List.isEmpty_iff]
    exact hsome
  unfold State.retrainOutcome
  rw [List.any_eq_false.2 fun x hx => Bool.eq_false_iff.1 (h x hx), hrec]
  rfl

end

/-- Settles O39: a lemma for each command and for the two steps `askRetrain` and `nextRetrain` that they share. -/
theorem hbmRetrainsLive : Obligations.HbmRetrainsLive := by
  intro s fc hu
  refine ⟨fun v => ?_, fun v hv => ?_, fun v hv => ?_, fun temp => ⟨fun hoff => ?_, fun hon => ?_⟩,
    fun u => ⟨fun ch => State.askRetrain_waiting, fun ch => State.askRetrain_new, fun r => State.nextRetrain_running,
      State.nextRetrain_none, State.nextRetrain_lowest⟩,
    fun h => ⟨exec_retrainWindow_idle hu h, fun ws => exec_retrainComplete_idle hu h⟩, fun r h => ?_⟩
  · rw [exec_fcRetrain, execFcRetrain, live_up hu, State.allow_closed (reach_FC_RETRAIN fc).2]
  · rw [exec_fcRetrain, execFcRetrain, live_up hu, State.allow_secure (reach_FC_RETRAIN fc).1, State.retrainWrite_idle hv]
  · rw [exec_fcRetrain, execFcRetrain, live_up hu, State.allow_secure (reach_FC_RETRAIN fc).1, State.retrainWrite_start hv]
  · rw [exec_autoRetrain, execAutoRetrain, live_up hu]
    exact congrArg _ (if_neg hoff)
  · rw [exec_autoRetrain, execAutoRetrain, live_up hu]
    exact congrArg _ (if_pos hon)
  · obtain ⟨hwait, hwindow⟩ := exec_retrainWindow_running hu h
    refine ⟨hwait, hwindow, fun hw ws => exec_retrainComplete_early hu h hw, fun hw ws => ?_⟩
    have hlast := exec_retrainComplete_last (ws := ws) hu h hw
    refine ⟨fun hfail => ?_, fun hok hnone => ?_, fun hok hsome => ?_⟩
    · exact hlast.trans (congrArg _ (State.retrainOutcome_failed hfail))
    · exact hlast.trans (congrArg _ (State.retrainOutcome_taken hok hnone))
    · exact hlast.trans (congrArg _ (State.retrainOutcome_repaired hok hsome))

/-! ### Tensors of Quarry: CREATE, QUERY, SWAP and SCRUB (R248, R251, R252, R272, R273) -/

/-- Every index below the lowest unused one is used. -/
theorem lowestTensor_used (m : SMap Tensor) (k j : Nat) (hk : k ≤ j) (hj : j < lowestTensor m k) : (smapGet tensorUnused m j).used = true := by
  induction m generalizing k with
  | nil => exact absurd hj (Nat.not_lt.2 hk)
  | cons e m ih =>
    obtain ⟨a, x⟩ := e
    rw [lowestTensor, ite_self] at hj
    split at hj
    next h =>
      obtain ⟨rfl, hused⟩ := h
      rcases Nat.eq_or_lt_of_le hk with rfl | hlt
      · simpa [smapGet] using hused
      · have hrest := ih (a + 1) hlt hj
        simpa [smapGet, Nat.ne_of_gt hlt, Nat.ne_of_lt hlt, Nat.not_lt.2 (Nat.le_of_lt hlt)] using hrest
    next => exact absurd hj (Nat.not_lt.2 hk)

section
variable {s : State} {t h c i : Nat} {st : Bool} {act : Work → Nat → Work}

theorem withTensor_error (hr : s.resolve t h = .error c) : (Work.start s t st).withTensor h act = (Work.start s t st).fail c h := by
  unfold Work.withTensor
  rw [show (Work.start s t st).s.resolve (Work.start s t st).t h = .error c from hr]
  rfl

theorem withTensor_ok (hr : s.resolve t h = .ok i) : (Work.start s t st).withTensor h act = act (Work.start s t st) i := by
  unfold Work.withTensor
  rw [show (Work.start s t st).s.resolve (Work.start s t st).t h = .ok i from hr]
  rfl

end

/-! CREATE. -/

/-- The first offset of what a CREATE asks for in one space that is held already. -/
def State.createHeld (s : State) (t : Nat) (q : Qrr) (bed : Bool) (off : Nat) : Option Nat :=
  if off = noOffset then none else firstOverlap (s.spaceHeld t bed) off (units64 q.arg2 * 0x10000)

/-- The record of a created tensor. -/
def State.createRecord (s : State) (t : Nat) (q : Qrr) (i : Nat) : Tensor :=
  { tensorUnused i with
    used := true, gen := (s.tensor i).gen + 1, bytes := q.arg2, hbmOff := BitVec.ofNat 64 q.arg0, bedOff := BitVec.ofNat 64 q.arg1,
    ro := q.ro, nandOk := q.nandOk, tenant := t }

section
variable {s : State} {t : Nat} {st : Bool} {q : Qrr}

theorem Work.create_overlap {o : Nat} (h : (s.createHeld t q false q.arg0).or (s.createHeld t q true q.arg1) = some o) :
    (Work.start s t st).create q = (Work.start s t st).fail stProtection o := by
  change (match (s.createHeld t q false q.arg0).or (s.createHeld t q true q.arg1) with
    | some o => (Work.start s t st).fail stProtection o
    | none => _) = _
  rw [h]

theorem Work.create_free (h : (s.createHeld t q false q.arg0).or (s.createHeld t q true q.arg1) = none)
    (hi : lowestTensor s.tensors 0 < 0x40000) :
    (Work.start s t st).create q = ((Work.start s t st).result q (leBytes 8 (gaOf s.chip 2
        (((s.tensor (lowestTensor s.tensors 0)).gen + 1).toNat * 2 ^ 32 + lowestTensor s.tensors 0)))).andThen fun w =>
      w.mapS fun u => u.setTensor (lowestTensor s.tensors 0) (s.createRecord t q (lowestTensor s.tensors 0)) := by
  change (match (s.createHeld t q false q.arg0).or (s.createHeld t q true q.arg1) with
    | some o => (Work.start s t st).fail stProtection o
    | none => _) = _
  rw [h]
  exact if_neg (Nat.not_le.2 hi)

end

theorem Work.andThen_alive {w : Work} {act : Work → Work} (h : w.err = none) : w.andThen act = act w := by
  unfold Work.andThen Work.dead
  rw [h]
  rfl

theorem Work.andThen_dead {w : Work} {act : Work → Work} (h : w.err.isSome = true) : w.andThen act = w := if_pos h

/-! SWAP. -/

/-- A tensor that neither moves nor is pinned nor held by an intake. -/
def State.tensorFree (s : State) (k : Nat) : Prop := (s.tensor k).moving = false ∧ s.pinned k = false ∧ s.inBuild k = false

/-- What SWAP asks of its two tensors (R272). -/
def State.swapSound (s : State) (i j : Nat) : Prop :=
  (s.tensor i).bytes = (s.tensor j).bytes ∧ (s.tensor i).home = (s.tensor j).home ∧ ((s.tensor i).home = 1 ∨ (s.tensor i).home = 2)
    ∧ s.tensorFree i ∧ s.tensorFree j

/-- Whether SWAP refuses a tensor as held. -/
def State.tensorHeld (s : State) (k : Nat) : Bool := (s.tensor k).moving || s.pinned k || s.inBuild k

theorem State.tensorHeld_iff {s : State} {k : Nat} : s.tensorHeld k = true ↔ ¬ s.tensorFree k := by
  unfold State.tensorHeld State.tensorFree
  cases (s.tensor k).moving <;> cases s.pinned k <;> cases s.inBuild k <;> decide

theorem State.swapSound_iff {s : State} {i j : Nat} :
    ((s.tensor i).bytes ≠ (s.tensor j).bytes ∨ (s.tensor i).home ≠ (s.tensor j).home ∨ ((s.tensor i).home ≠ 1 ∧ (s.tensor i).home ≠ 2)
      ∨ s.tensorHeld i = true ∨ s.tensorHeld j = true) ↔ ¬ s.swapSound i j := by
  unfold State.swapSound
  rw [State.tensorHeld_iff, State.tensorHeld_iff]
  simp only [Classical.not_and_iff_not_or_not, not_or, ne_eq]

theorem reback_src {x : Tensor} {i : Nat} {bed poison ro : Bool} {units : List Nat} : ∀ e ∈ reback x i bed poison ro units, e.src = some i := by
  intro e he
  unfold reback at he
  obtain ⟨⟨o, big⟩, -, he⟩ := List.mem_flatMap.1 he
  cases big
  · rw [List.mem_singleton.1 he]
  · dsimp only at he
    split at he
    · split at he
      · rw [List.mem_singleton.1 he]
      · obtain ⟨-, -, rfl⟩ := List.mem_map.1 he
        rfl
    · rw [List.mem_singleton.1 he]

/-- The entries of two distinct tensors appended to entries of neither: what a filter by tensor finds. -/
theorem swapped_entries {rest xs ys : List XEntry} {i j : Nat} (hne : i ≠ j) (hx : ∀ e ∈ xs, e.src = some i) (hy : ∀ e ∈ ys, e.src = some j) :
    let l := rest.filter (fun e => e.src != some i && e.src != some j) ++ xs ++ ys
    l.filter (fun e => e.src != some i && e.src != some j) = rest.filter (fun e => e.src != some i && e.src != some j)
      ∧ l.filter (fun e => decide (e.src = some i)) = xs ∧ l.filter (fun e => decide (e.src = some j)) = ys := by
  have hrest : ∀ e ∈ rest.filter (fun e => e.src != some i && e.src != some j), e.src ≠ some i ∧ e.src ≠ some j := by
    intro e he
    simpa using (List.mem_filter.1 he).2
  dsimp only
  simp only [List.filter_append]
  refine ⟨?_, ?_, ?_⟩
  · rw [filter_all (l := rest.filter _) fun e he => by simp [hrest e he], filter_no (l := xs) fun e he => by simp [hx e he],
      filter_no (l := ys) fun e he => by simp [hy e he]]
    simp
  · rw [filter_no fun e he => by simp [hrest e he], filter_all fun e he => by simp [hx e he], filter_no fun e he => by simp [hy e he, hne.symm]]
    simp
  · rw [filter_no fun e he => by simp [hrest e he], filter_no fun e he => by simp [hx e he, hne], filter_all fun e he => by simp [hy e he]]
    simp

/-- The exchange of two tensors (R272): their records, and their entries of the translation. -/
theorem State.swapTensors_facts {s : State} {i j : Nat} (hne : i ≠ j) :
    let x := s.tensor i
    let y := s.tensor j
    let t := s.swapTensors i j
    { t with xlat := s.xlat }
        = (s.setTensor i { x with digest := y.digest, digested := y.digested, poisoned := y.poisoned, ro := y.ro }).setTensor j
            { y with digest := x.digest, digested := x.digested, poisoned := x.poisoned, ro := x.ro }
      ∧ t.xlat.filter (fun e => e.src != some i && e.src != some j) = s.xlat.filter (fun e => e.src != some i && e.src != some j)
      ∧ t.homeEnts i = reback x i (decide (x.home = 1)) y.poisoned y.ro (s.backing j)
      ∧ t.homeEnts j = reback y j (decide (x.home = 1)) x.poisoned x.ro (s.backing i) := by
  unfold State.swapTensors
  rw [if_neg hne]
  exact ⟨rfl, swapped_entries hne reback_src reback_src⟩

/-! SCRUB. -/

section
variable {s : State} {i : Nat} {rep : List NandReport}

/-- The state after a scrub has read the tensor: the NAND's reports heard, the pass stamped and counted. -/
def State.scrubRead (s : State) (i : Nat) (rep : List NandReport) : State :=
  let v := if (s.tensor i).home = 3 then (s.nandReads i).nandReport rep else s
  (v.setTensor i { s.tensor i with scrubbed := v.timeNs / 1000000000 }).count QC_SCRUB_CNT 1

/-- Whether a scrub finds the tensor's bytes lost. -/
def State.scrubLost (s : State) (i : Nat) (rep : List NandReport) : Prop :=
  ((s.tensor i).home = 3 ∧ rep.any (fun r => decide (r.uec ≠ 0)) = true) ∨ (s.scrubRead i rep).tensorDamaged i = true

theorem State.scrubTensor_eq : s.scrubTensor i rep =
    if (decide ((s.tensor i).home = 3) && rep.any fun r => decide (r.uec ≠ 0)) || (s.scrubRead i rep).tensorDamaged i then
      (if (s.tensor i).poisoned then s.scrubRead i rep else (s.scrubRead i rep).poisonTensor i, stShardLost)
    else if (s.tensor i).digested ∧ (s.scrubRead i rep).tensorDigest i ≠ (s.tensor i).digest then
      (if (s.tensor i).poisoned then (s.scrubRead i rep).count QC_SCRUB_FAIL 1
        else ((s.scrubRead i rep).count QC_SCRUB_FAIL 1).poisonTensor i, stDigestMismatch)
    else (s.scrubRead i rep, stOk) := rfl

theorem State.scrubLost_iff : s.scrubLost i rep
    ↔ ((decide ((s.tensor i).home = 3) && rep.any fun r => decide (r.uec ≠ 0)) || (s.scrubRead i rep).tensorDamaged i) = true := by
  unfold State.scrubLost
  rw [Bool.or_eq_true, Bool.and_eq_true, decide_eq_true_eq]

theorem State.scrubTensor_lost (h : s.scrubLost i rep) :
    s.scrubTensor i rep = (if (s.tensor i).poisoned then s.scrubRead i rep else (s.scrubRead i rep).poisonTensor i, stShardLost) := by
  rw [State.scrubTensor_eq, if_pos (State.scrubLost_iff.1 h)]

theorem State.scrubTensor_mismatch (h : ¬ s.scrubLost i rep) (hd : (s.tensor i).digested = true)
    (hne : (s.scrubRead i rep).tensorDigest i ≠ (s.tensor i).digest) :
    s.scrubTensor i rep = (if (s.tensor i).poisoned then (s.scrubRead i rep).count QC_SCRUB_FAIL 1
      else ((s.scrubRead i rep).count QC_SCRUB_FAIL 1).poisonTensor i, stDigestMismatch) := by
  rw [State.scrubTensor_eq, if_neg (fun hl => h (State.scrubLost_iff.2 hl)), if_pos ⟨hd, hne⟩]

theorem State.scrubTensor_sound (h : ¬ s.scrubLost i rep)
    (hd : (s.tensor i).digested = true → (s.scrubRead i rep).tensorDigest i = (s.tensor i).digest) :
    s.scrubTensor i rep = (s.scrubRead i rep, stOk) := by
  rw [State.scrubTensor_eq, if_neg (fun hl => h (State.scrubLost_iff.2 hl)), if_neg (fun hm => hm.2 (hd hm.1))]

end

/-- Whether the background pass scrubs a tensor (R273). -/
def State.scrubPasses (s : State) (i : Nat) : Prop :=
  s.regBit QC_SCRUB_CTL 0 = true ∧ (s.tensor i).used = true ∧ (s.tensor i).digested = true ∧ (s.tensor i).home ≠ 0
    ∧ (!(s.inMove i || s.inBuild i)) = true

theorem exec_digestScrubPass_runs {s : State} {idx : Fin 262144} {rep : List NandReport} (hu : s.up = true) (h : s.scrubPasses idx) :
    exec (.digestScrubPass idx rep) s = .next (s.scrubTensor idx rep).1 := by
  rw [exec_digestScrubPass, execDigestScrubPass, live_up hu]
  exact congrArg _ (if_pos h)

theorem exec_digestScrubPass_skips {s : State} {idx : Fin 262144} {rep : List NandReport} (hu : s.up = true) (h : ¬ s.scrubPasses idx) :
    exec (.digestScrubPass idx rep) s = .next s := by
  rw [exec_digestScrubPass, execDigestScrubPass, live_up hu]
  exact congrArg _ (if_neg h)

/-! The four operations. -/

section
variable {s : State} {id : Nat} {f : Flight}

/-- A class 0x6 descriptor whose turn on its tensors has come. -/
structure QuarryTurn (s : State) (id : Nat) (f : Flight) : Prop where
  up : s.up = true
  flight : s.flight id = some f
  phase : f.phase = .dispatched
  cls : dClass f.desc = 6
  turn : s.quarryTurn f = true

theorem exec_create_turn (h : QuarryTurn s id f) (ho : dOp f.desc = 1) :
    exec (.create id) s = .next (((Work.start s f.tenant f.strict).create (Qrr.of f.desc)).settle f) := by
  rw [exec_create, execCreate, live_up h.up, quarry_run h.flight h.phase h.cls ho h.turn]

theorem exec_query_turn (h : QuarryTurn s id f) (ho : dOp f.desc = 5) :
    exec (.query id) s = .next (((Work.start s f.tenant f.strict).withTensor (Qrr.of f.desc).handle fun w i =>
      w.result (Qrr.of f.desc) (w.s.tensorRecord i)).settle f) := by
  rw [exec_query, execQuery, live_up h.up, quarry_run h.flight h.phase h.cls ho h.turn]

/-- What SWAP does with its two tensors. -/
def Work.swap (w : Work) (i j : Nat) : Work :=
  if (w.s.tensor i).bytes ≠ (w.s.tensor j).bytes ∨ (w.s.tensor i).home ≠ (w.s.tensor j).home
      ∨ ((w.s.tensor i).home ≠ 1 ∧ (w.s.tensor i).home ≠ 2) ∨ w.s.tensorHeld i = true ∨ w.s.tensorHeld j = true then w.fail stProtection 0
  else w.mapS fun s => s.swapTensors i j

theorem exec_swap_turn (h : QuarryTurn s id f) (ho : dOp f.desc = 6) :
    exec (.swap id) s = .next (((Work.start s f.tenant f.strict).withTensor (Qrr.of f.desc).handle fun w i =>
      w.withTensor (Qrr.of f.desc).arg0 fun w j => w.swap i j).settle f) := by
  rw [exec_swap, execSwap, live_up h.up, quarry_run h.flight h.phase h.cls ho h.turn]
  rfl

/-- What SCRUB does with its tensor. -/
def Work.scrub (w : Work) (q : Qrr) (rep : List NandReport) (i : Nat) : Work :=
  if (w.s.scrubTensor i rep).2 = stOk then
    ({ w with s := (w.s.scrubTensor i rep).1 } : Work).result q (digestBytes ((w.s.scrubTensor i rep).1.tensor i).digest)
  else ({ w with s := (w.s.scrubTensor i rep).1 } : Work).fail (w.s.scrubTensor i rep).2 0

theorem exec_scrub_turn {rep : List NandReport} (h : QuarryTurn s id f) (ho : dOp f.desc = 7) :
    exec (.scrub id rep) s = .next (((Work.start s f.tenant f.strict).withTensor (Qrr.of f.desc).handle fun w i =>
      w.scrub (Qrr.of f.desc) rep i).settle f) := by
  rw [exec_scrub, execScrub, live_up h.up, quarry_run h.flight h.phase h.cls ho h.turn]
  rfl

theorem settle_failed {u : State} {c d : Nat} : ∃ n, (Host.Outcome.next (((Work.start u f.tenant f.strict).fail c d).settle f) : Out)
    = .next ({ u with free := n }.putFlight { f with
        phase := .ran, issued := true, started := true, late := [], outRec := [],
        codes := f.codes ++ [(BitVec.ofNat 16 c, BitVec.ofNat 64 d)] }) :=
  (quiet_bad f.tenant f.strict c d).imp fun _ => congrArg _

theorem settle_done {u : State} : ∃ n, (Host.Outcome.next ((Work.start u f.tenant f.strict).settle f) : Out)
    = .next ({ u with free := n }.putFlight { f with
        phase := .ran, issued := true, started := true, late := [], outRec := [], codes := f.codes ++ [] }) :=
  (quiet_ok f.tenant f.strict).imp fun _ => congrArg _

theorem Work.swap_unsound {t : Nat} {st : Bool} {i j : Nat} (h : ¬ s.swapSound i j) :
    (Work.start s t st).swap i j = (Work.start s t st).fail stProtection 0 := if_pos (State.swapSound_iff.2 h)

theorem Work.swap_sound {t : Nat} {st : Bool} {i j : Nat} (h : s.swapSound i j) :
    (Work.start s t st).swap i j = Work.start (s.swapTensors i j) t st := if_neg fun hb => State.swapSound_iff.1 hb h

theorem Work.scrub_ok {t : Nat} {st : Bool} {q : Qrr} {rep : List NandReport} {i : Nat} {v : State} (h : s.scrubTensor i rep = (v, stOk)) :
    (Work.start s t st).scrub q rep i = (Work.start v t st).result q (digestBytes (v.tensor i).digest) := by
  unfold Work.scrub
  rw [show (Work.start s t st).s.scrubTensor i rep = (v, stOk) from h]
  rfl

theorem Work.scrub_failed {t : Nat} {st : Bool} {q : Qrr} {rep : List NandReport} {i c : Nat} {v : State}
    (h : s.scrubTensor i rep = (v, c)) (hc : c ≠ stOk) : (Work.start s t st).scrub q rep i = (Work.start v t st).fail c 0 := by
  unfold Work.scrub
  rw [show (Work.start s t st).s.scrubTensor i rep = (v, c) from h]
  exact if_neg hc

/-- A handle that does not resolve ends QUERY, SWAP and SCRUB with its status. -/
theorem exec_unresolved {rep : List NandReport} {c : Instr} {op st : Nat} (h : QuarryTurn s id f)
    (hc : (c, op) ∈ [(Instr.query id, 5), (.swap id, 6), (.scrub id rep, 7)]) (ho : dOp f.desc = op)
    (hr : s.resolve f.tenant (Qrr.of f.desc).handle = .error st) :
    exec c s = .next (((Work.start s f.tenant f.strict).fail st (Qrr.of f.desc).handle).settle f) := by
  simp only [List.mem_cons, List.not_mem_nil, or_false, Prod.mk.injEq] at hc
  rcases hc with ⟨rfl, rfl⟩ | ⟨rfl, rfl⟩ | ⟨rfl, rfl⟩
  · rw [exec_query_turn h ho, withTensor_error hr]
  · rw [exec_swap_turn h ho, withTensor_error hr]
  · rw [exec_scrub_turn h ho, withTensor_error hr]

end

/-- Settles O33: each operation runs at its turn (`exec_create_turn` and its like) and does what its own lemmas say. -/
theorem quarryTensorOperations : Obligations.QuarryTensorOperations := by
  intro s rep hu
  refine ⟨fun id f hf hp hcls hturn => ?_, fun idx => ⟨fun hskip => ?_, fun hctl hused hdig hhome hmove hbuild => ?_,
    State.scrubTensor_lost, State.scrubTensor_mismatch, State.scrubTensor_sound⟩⟩
  · have h : QuarryTurn s id f := ⟨hu, hf, hp, hcls, hturn⟩
    refine ⟨fun c op st hc ho hr => ?_, fun ho => ⟨fun o hheld => ?_, fun j => lowestTensor_used _ 0 j (Nat.zero_le j), fun hheld hi => ⟨fun herr => ?_, fun herr => ?_⟩⟩,
      fun i hr => ⟨fun ho => ?_, fun j ho hr2 => ⟨fun hbad => ?_, fun hok hij => ?_, fun hok hij => ?_⟩, fun ho v c hv => ⟨fun hc => ?_, fun hc => ?_⟩⟩⟩
    · rw [exec_unresolved h hc ho hr]
      exact settle_failed
    · rw [exec_create_turn h ho, Work.create_overlap hheld]
      exact settle_failed
    · rw [exec_create_turn h ho, Work.create_free hheld hi, Work.andThen_alive herr]
      rfl
    · rw [exec_create_turn h ho, Work.create_free hheld hi, Work.andThen_dead herr]
    · rw [exec_query_turn h ho, withTensor_ok hr]
      rfl
    · rw [exec_swap_turn h ho, withTensor_ok hr, withTensor_ok hr2, Work.swap_unsound hbad]
      exact settle_failed
    · subst hij
      rw [exec_swap_turn h ho, withTensor_ok hr, withTensor_ok hr2, Work.swap_sound hok, State.swapTensors, if_pos rfl]
      exact settle_done
    · rw [exec_swap_turn h ho, withTensor_ok hr, withTensor_ok hr2, Work.swap_sound hok]
      obtain ⟨n, hn⟩ := settle_done (f := f) (u := s.swapTensors i j)
      exact ⟨s.swapTensors i j, n, hn, State.swapTensors_facts hij⟩
    · subst hc
      rw [exec_scrub_turn h ho, withTensor_ok hr, Work.scrub_ok hv]
      rfl
    · rw [exec_scrub_turn h ho, withTensor_ok hr, Work.scrub_failed hv hc]
      exact settle_failed
  · refine exec_digestScrubPass_skips hu fun ⟨hctl, hused, hdig, hhome, hturn⟩ => ?_
    simp [hctl, hused, hdig, hhome] at hskip
    rcases hskip with hm | hb
    · simp [hm] at hturn
    · simp [hb] at hturn
  · exact exec_digestScrubPass_runs hu ⟨hctl, hused, hdig, hhome, by rw [hmove, hbuild]; rfl⟩

/-! ### Fabric ports: links, and the pauses of their classes (R324, R326, R338, R339, R451) -/

section
variable {s u : State} {p q k j : Nat} {on : Bool}

theorem DP_STATUS_ne_DP_TX_FRAMES (p : Nat) : DP_STATUS p ≠ DP_TX_FRAMES p := by unfold DP_STATUS DP_TX_FRAMES; omega

/-! What waits at a port while a class resumes. -/

/-- A property that pumping keeps holds after a class in which nothing but new frames waits has been pumped. -/
theorem State.pumpAll_keeps {P : State → Prop} (h : s.unasked p k) (hs : P s)
    (hp : ∀ u c, P u → c.nak = none → c.rsDue = false → P (u.pump c)) : P (s.pumpAll p k) := by
  have hdue : (s.rconn.filter fun c => decide (c.port = p ∧ c.tc = k)).foldl (fun (s : State) c =>
      c.due.foldl (fun (s : State) d => s.answer { s.rconnOf p k c.peer with due := [] } d.1 d.2) s) s = s := by
    refine foldl_keeps (P := fun t => t = s) rfl fun t c hc ht => ?_
    obtain ⟨hmem, hat⟩ := List.mem_filter.1 hc
    rw [h.1 c hmem (of_decide_eq_true hat).1 (of_decide_eq_true hat).2]
    exact ht
  unfold State.pumpAll
  dsimp only
  rw [hdue]
  refine (foldl_keeps (P := fun u : State => P u ∧ u.unasked p k) ⟨hs, h⟩ ?_).1
  rintro u d - ⟨hu, hun⟩
  cases hf : u.conn.find? (·.at p k d.peer) with
  | none => exact ⟨hu, hun⟩
  | some c =>
    obtain ⟨e1, e2, e3⟩ := find_at hf
    obtain ⟨n1, n2⟩ := hun.2 c (List.mem_of_find?_eq_some hf) e1 e2
    dsimp only
    rw [wake_eq (by rw [e1, e2, e3]; exact hf) n1 n2]
    split
    · exact ⟨hu, hun⟩
    · exact ⟨hp u c hu n1 n2, unasked_pump hun n1 n2⟩

theorem unasked_pumpAll (h : s.unasked p k) (hj : s.unasked q j) : (s.pumpAll p k).unasked q j :=
  State.pumpAll_keeps (P := fun u => u.unasked q j) h hj fun _ _ hu => unasked_pump hu

/-! Pausing one class. -/

/-- The state with one class shown as paused or not, before anything is sent. -/
def State.markPaused (s : State) (p k : Nat) (on : Bool) : State :=
  let rest := s.pausedBy.filter fun x => x != (p, k)
  ({ s with pausedBy := if on then rest ++ [(p, k)] else rest }).showPaused p

theorem State.setPaused_on : s.setPaused p k true = s.markPaused p k true := rfl

theorem State.setPaused_off : s.setPaused p k false = (s.markPaused p k false).pumpAll p k := rfl

theorem State.markPaused_frame : { s.markPaused p k on with regs := s.regs, pausedBy := s.pausedBy } = s := rfl

theorem State.markPaused_wf (h : smapWf resetOf s.regs = true) : smapWf resetOf (s.markPaused p k on).regs = true :=
  State.setField_wf _ _ _ _ h

theorem State.markPaused_paused : (s.markPaused p k on).paused q j = if q = p ∧ j = k then on else s.paused q j := by
  unfold State.paused
  change (if on then (s.pausedBy.filter fun x => x != (p, k)) ++ [(p, k)] else s.pausedBy.filter fun x => x != (p, k)).contains (q, j) = _
  rw [Bool.eq_iff_iff]
  cases on <;> by_cases hq : q = p ∧ j = k <;> simp [hq]

/-- A sum of distinct powers of two below 2^8. -/
theorem maskSum_lt (b : Nat → Bool) : ((List.range 8).map fun j => if b j then 2 ^ j else 0).foldl (· + ·) 0 < 2 ^ 8 := by
  have hle : ∀ j, (if b j then 2 ^ j else 0) ≤ 2 ^ j := fun j => by split <;> simp
  have h0 := hle 0; have h1 := hle 1; have h2 := hle 2; have h3 := hle 3
  have h4 := hle 4; have h5 := hle 5; have h6 := hle 6; have h7 := hle 7
  simp only [List.range, List.range.loop, List.map_cons, List.map_nil, List.foldl_cons, List.foldl_nil]
  omega

theorem State.markPaused_status (h : smapWf resetOf s.regs = true) : (s.markPaused p k on).field (DP_STATUS p) 15 8
    = ((List.range 8).map fun j => if (s.markPaused p k on).paused p j then 2 ^ j else 0).foldl (· + ·) 0 := by
  let v : State := { s with pausedBy := if on then (s.pausedBy.filter fun x => x != (p, k)) ++ [(p, k)] else s.pausedBy.filter fun x => x != (p, k) }
  have hset := State.field_setField_same (s := v) (DP_STATUS p) 15 8
    (((List.range 8).map fun k => if v.paused p k then 2 ^ k else 0).foldl (· + ·) 0) h (by omega) (by omega)
  exact hset.trans (Nat.mod_eq_of_lt (maskSum_lt fun k => v.paused p k))

/-- Nothing but sending stands between a class shown as resumed and the state it leaves. -/
theorem State.setPaused_wired (h : on = false → s.unasked p k) : Wired p (s.setPaused p k on) (s.markPaused p k on) := by
  cases on
  · exact wired_pumpAll _ p k (h rfl)
  · exact wired_self p _

theorem State.setPaused_paused (h : on = false → s.unasked p k) :
    (s.setPaused p k on).paused q j = if q = p ∧ j = k then on else s.paused q j := by
  rw [wired_paused (State.setPaused_wired h), State.markPaused_paused]

theorem State.setPaused_status (hw : smapWf resetOf s.regs = true) (h : on = false → s.unasked p k) :
    (s.setPaused p k on).field (DP_STATUS p) 15 8
      = ((List.range 8).map fun j => if (s.setPaused p k on).paused p j then 2 ^ j else 0).foldl (· + ·) 0 := by
  have hwired := State.setPaused_wired h
  rw [field_of ((hwired.2 (State.markPaused_wf hw)).2 _ (DP_STATUS_ne_DP_TX_FRAMES p)), State.markPaused_status hw]
  simp only [wired_paused hwired]

theorem State.setPaused_frame (h : on = false → s.unasked p k) :
    { s.setPaused p k on with regs := s.regs, tx := s.tx, conn := s.conn, rops := s.rops, pausedBy := s.pausedBy } = s := by
  have hback := congrArg (fun x : State => ({ x with regs := s.regs, pausedBy := s.pausedBy } : State)) (State.setPaused_wired h).1
  exact hback

theorem State.setPaused_unasked (h : on = false → s.unasked p k) (hj : s.unasked q j) : (s.setPaused p k on).unasked q j := by
  cases on
  · exact unasked_pumpAll (h rfl) hj
  · exact hj

/-! A PFC frame: its classes one after another. -/

/-- The pauses and resumptions a PFC frame asks for. -/
def State.pfcApply (s : State) (p en : Nat) (quanta : List Nat) (l : List Nat) : State :=
  l.foldl (fun v k => if en.testBit k then v.setPaused p k (decide (quanta.getD k 0 ≠ 0)) else v) s

theorem State.pfcApply_facts {en : Nat} {quanta : List Nat} (h : ∀ j, s.unasked p j) (l : List Nat) :
    let t := s.pfcApply p en quanta l
    (∀ q k, t.paused q k = if q = p ∧ k ∈ l ∧ en.testBit k = true then decide (quanta.getD k 0 ≠ 0) else s.paused q k)
      ∧ { t with regs := s.regs, tx := s.tx, conn := s.conn, rops := s.rops, pausedBy := s.pausedBy } = s ∧ ∀ j, t.unasked p j := by
  induction l using list_append_induction with
  | nil => exact ⟨fun q k => by simp [State.pfcApply], rfl, h⟩
  | append_singleton l k ih =>
    obtain ⟨hpaused, hframe, hun⟩ := ih
    have hstep : s.pfcApply p en quanta (l ++ [k]) = if en.testBit k then (s.pfcApply p en quanta l).setPaused p k (decide (quanta.getD k 0 ≠ 0))
        else s.pfcApply p en quanta l := by
      unfold State.pfcApply
      rw [List.foldl_append]
      rfl
    dsimp only
    rw [hstep]
    by_cases hk : en.testBit k = true
    · rw [if_pos hk]
      refine ⟨fun q j => ?_, ?_, fun j => State.setPaused_unasked (fun _ => hun k) (hun j)⟩
      · rw [State.setPaused_paused fun _ => hun k, hpaused]
        by_cases hj : j = k
        · subst hj; by_cases hq : q = p <;> simp [hq, hk]
        · simp [hj]
      · have hback := congrArg (fun x : State => ({ x with regs := s.regs, tx := s.tx, conn := s.conn, rops := s.rops, pausedBy := s.pausedBy } : State))
          (State.setPaused_frame (on := decide (quanta.getD k 0 ≠ 0)) fun _ => hun k)
        exact hback.trans hframe
    · rw [if_neg hk]
      refine ⟨fun q j => ?_, hframe, hun⟩
      rw [hpaused]
      by_cases hj : j = k
      · subst hj; simp [hk]
      · simp [hj]

end

/-! Links. -/

section
variable {s : State} {p : Nat}

theorem State.portWrite_same {v : Nat} (h : bit v 0 = s.dpOn p) : s.portWrite p v = s.setRegN (DP_CTL p) (v % 8) := by
  unfold State.portWrite
  rw [h]
  cases s.dpOn p <;> rfl

theorem State.portWrite_enable {v : Nat} (hv : bit v 0 = true) (hon : s.dpOn p = false) :
    s.portWrite p v = (s.setRegN (DP_CTL p) (v % 8)).freshPort p := by
  unfold State.portWrite
  rw [hv, hon]
  rfl

theorem State.portWrite_disable {v : Nat} (hv : bit v 0 = false) (hon : s.dpOn p = true) :
    s.portWrite p v = (s.setRegN (DP_CTL p) (v % 8)).dropLink p := by
  unfold State.portWrite
  rw [hv, hon]
  rfl

theorem exec_portEnable_secure {p : Fin 8} {v : Word} (hu : s.up = true) :
    exec (.portEnable true p v) s = .next (s.portWrite p v.toNat) := by
  rw [exec_portEnable, execPortEnable, live_up hu, State.allow_secure (reach_DP_CTL p).1]

theorem exec_portEnable_closed {p : Fin 8} {v : Word} (hu : s.up = true) : exec (.portEnable false p v) s = .next s.devErr := by
  rw [exec_portEnable, execPortEnable, live_up hu, State.allow_closed (reach_DP_CTL p).2]

/-- Whether training ends on a port (R324, R326, R451). -/
def State.trains (s : State) (p : Nat) : Prop :=
  s.regBit (DP_CTL p) 0 = true ∧ s.regBit DP_CHIP_ID 31 = true ∧ s.pins.refclkF.getLsbD (p / 2) = true ∧ s.link p = false

theorem State.trains_iff : s.trains p
    ↔ (s.dpOn p = true ∧ s.regBit DP_CHIP_ID 31 = true ∧ bit s.pins.refclkF.toNat (p / 2) = true ∧ (!s.link p) = true) := by
  unfold State.trains
  rw [bit_eq_testBit, Bool.not_eq_true']
  rfl

/-- DP_STATUS of a link that has come up. -/
theorem linkStatus_eq (an : Bool) : 1 + place (flag an) 1 + place (flag an) 2 + place 0xF 4 = if an then 0xF7 else 0xF1 := by
  cases an <;> rfl

theorem exec_linkUp_trains {p : Fin 8} (hu : s.up = true) (h : s.trains p) : exec (.linkUp p) s
    = .next ((List.range 8).foldl (fun w k => w.pumpAll p k) (s.setRegN (DP_STATUS p) (if s.regBit (DP_CTL p) 2 then 0xF7 else 0xF1))) := by
  rw [exec_linkUp, execLinkUp, live_up hu, ← linkStatus_eq]
  exact congrArg _ (if_pos (State.trains_iff.1 h))

theorem exec_linkUp_down {p : Fin 8} (hu : s.up = true) (h : ¬ s.trains p) : exec (.linkUp p) s = .next s := by
  rw [exec_linkUp, execLinkUp, live_up hu]
  exact congrArg _ (if_neg fun ht => h (State.trains_iff.2 ht))

theorem contains_filter_port (l : List (Nat × Nat)) (q k : Nat) :
    (l.filter fun x => x.1 != p).contains (q, k) = (l.contains (q, k) && q != p) := by
  rw [Bool.eq_iff_iff]
  simp

/-- A link taken down: its status and its pauses are gone, and nothing else. -/
theorem State.dropLink_facts (hw : smapWf resetOf s.regs = true) :
    (s.dropLink p).link p = false ∧ (s.dropLink p).regN (DP_STATUS p) = 0 ∧ (∀ a, a ≠ DP_STATUS p → (s.dropLink p).reg a = s.reg a)
      ∧ (∀ q k, (s.dropLink p).paused q k = (s.paused q k && q != p))
      ∧ (∀ q k, (s.dropLink p).pausing.contains (q, k) = (s.pausing.contains (q, k) && q != p))
      ∧ { s.dropLink p with regs := s.regs, pausedBy := s.pausedBy, pausing := s.pausing } = s := by
  let v : State := { s with pausedBy := s.pausedBy.filter fun x => x.1 != p, pausing := s.pausing.filter fun x => x.1 != p }
  have hzero : (s.dropLink p).regN (DP_STATUS p) = 0 := State.regN_setRegN_same (s := v) (DP_STATUS p) 0 hw
  refine ⟨?_, hzero, fun a ha => State.reg_setReg_other (s := v) _ hw ha, contains_filter_port _, contains_filter_port _, rfl⟩
  unfold State.link State.regBit
  rw [hzero]
  rfl

/-! The reference clocks of the ports, one for two. -/

theorem refclk_cleared : ∀ (n : Fin 4) (r : BitVec 4),
    BitVec.ofNat 4 (Nat.land r.toNat (15 - 2 ^ n.val)) = r &&& ~~~ BitVec.ofNat 4 (2 ^ n.val) := by decide

theorem refclk_set : ∀ (n : Fin 4) (r : BitVec 4),
    BitVec.ofNat 4 (Nat.lor r.toNat (2 ^ n.val)) = r ||| BitVec.ofNat 4 (2 ^ n.val) := by decide

end

/-! Received PFC frames, and the pauses a port asks for. -/

section
variable {s : State} {p : Fin 8} {frame : WireFrame}

theorem exec_pfcFrameReceive_pfc {en : Nat} {quanta : List Nat} (hu : s.up = true) (h : (s.fec p frame).hears p frame = .pfc en quanta) :
    exec (.pfcFrameReceive p frame) s = .next ((s.fec p frame).pfcApply p en quanta (List.range 8)) := by
  rw [exec_pfcFrameReceive, execPfcFrameReceive, live_up hu]
  dsimp only
  rw [h]
  simp only [bit_eq_testBit]
  rfl

theorem exec_pfcFrameReceive_other (hu : s.up = true) (h : ∀ en quanta, (s.fec p frame).hears p frame ≠ .pfc en quanta) :
    exec (.pfcFrameReceive p frame) s = .next (s.fec p frame) := by
  rw [exec_pfcFrameReceive, execPfcFrameReceive, live_up hu]
  dsimp only
  split
  next en quanta hh => exact absurd hh (h en quanta)
  next => rfl

theorem State.hears_whole (h : frame.uncorr = 0) : s.hears p frame = s.hear p frame.octets := if_neg fun hn => hn h

theorem State.hears_damaged (h : frame.uncorr ≠ 0) : s.hears p frame = .unseen := if_pos h

theorem State.fec_frame : { s.fec p frame with regs := s.regs } = s := by
  unfold State.fec
  split <;> rfl

end

section
variable {s : State} {p q k : Nat}

theorem State.send_eq (s : State) (p : Nat) (bs : Bytes) :
    s.send p bs = if s.link p = true ∧ s.regBit DP_CHIP_ID 31 = true then { s with tx := (p, bs) :: s.tx } else s := by
  unfold State.send
  rw [show s.speaks p = (s.link p && s.regBit DP_CHIP_ID 31) from rfl]
  simp only [Bool.and_eq_true]

theorem State.send_frame (s : State) (p : Nat) (bs : Bytes) : { s.send p bs with tx := s.tx } = s := by
  rw [State.send_eq]
  split <;> rfl

theorem State.send_pausing (s : State) (p : Nat) (bs : Bytes) : (s.send p bs).pausing = s.pausing := (congrArg State.pausing (s.send_frame p bs) :)

/-- Whether a port's receive buffer holds a frame of a class. -/
def State.rxHolds (s : State) (p k : Nat) : Bool := s.rxq.any fun f => decide (f.port = p) && decide (f.tc = k)

theorem State.rxHolds_iff : s.rxHolds p k = true ↔ ∃ f ∈ s.rxq, f.port = p ∧ f.tc = k := by
  unfold State.rxHolds
  simp

/-- Start the pause of a class that holds a frame and is not paused yet. -/
def State.pauseClass (holds : Nat → Bool) (p : Nat) (s : State) (k : Nat) : State :=
  if holds k ∧ !s.pausing.contains (p, k) then { s.send p (s.pfcFrame p k 0xFFFF) with pausing := s.pausing ++ [(p, k)] } else s

/-- End the pause of a class that is paused. -/
def State.resumeClass (p : Nat) (s : State) (k : Nat) : State :=
  if s.pausing.contains (p, k) then { s.send p (s.pfcFrame p k 0) with pausing := s.pausing.filter fun x => x != (p, k) } else s

theorem State.pauseUpdate_eq (s : State) (p : Nat) : s.pauseUpdate p =
    (if s.rxFree p < s.regN (DP_PFC_XOFF p) then (List.range 8).foldl (State.pauseClass (s.rxHolds p) p) s
      else if s.regN (DP_PFC_XON p) < s.rxFree p then (List.range 8).foldl (State.resumeClass p) s
      else s).showPausing p := rfl

theorem State.showPausing_pausing (s : State) (p : Nat) : (s.showPausing p).pausing = s.pausing := rfl

theorem State.pauseClass_frame (holds : Nat → Bool) : { s.pauseClass holds p k with tx := s.tx, pausing := s.pausing } = s := by
  unfold State.pauseClass
  split
  · have hback := congrArg (fun x : State => ({ x with pausing := s.pausing } : State)) (s.send_frame p (s.pfcFrame p k 0xFFFF))
    exact hback
  · rfl

theorem State.resumeClass_frame : { s.resumeClass p k with tx := s.tx, pausing := s.pausing } = s := by
  unfold State.resumeClass
  split
  · have hback := congrArg (fun x : State => ({ x with pausing := s.pausing } : State)) (s.send_frame p (s.pfcFrame p k 0))
    exact hback
  · rfl

theorem State.mem_pauseClass (holds : Nat → Bool) (x : Nat × Nat) :
    x ∈ (s.pauseClass holds p k).pausing ↔ x ∈ s.pausing ∨ (x = (p, k) ∧ holds k = true) := by
  unfold State.pauseClass
  by_cases h : holds k = true ∧ (!s.pausing.contains (p, k)) = true
  · rw [if_pos h, List.mem_append, List.mem_singleton]
    simp [h.1]
  · rw [if_neg h]
    refine ⟨.inl, ?_⟩
    rintro (hx | ⟨rfl, hk⟩)
    · exact hx
    · exact Classical.byContradiction fun hn => h ⟨hk, by simpa using hn⟩

theorem State.mem_resumeClass (x : Nat × Nat) : x ∈ (s.resumeClass p k).pausing ↔ x ∈ s.pausing ∧ x ≠ (p, k) := by
  unfold State.resumeClass
  by_cases h : s.pausing.contains (p, k) = true
  · rw [if_pos h, List.mem_filter, bne_iff_ne]
  · rw [if_neg h]
    refine ⟨fun hx => ⟨hx, ?_⟩, And.left⟩
    rintro rfl
    exact h (List.contains_iff_mem.2 hx)

/-- Steps that each change sent frames and pauses alone, one after another. -/
theorem pauseFold_frame {g : State → Nat → State} (hg : ∀ s k, { g s k with tx := s.tx, pausing := s.pausing } = s) (s : State) (l : List Nat) :
    { l.foldl g s with tx := s.tx, pausing := s.pausing } = s := by
  refine foldl_keeps (P := fun t : State => { t with tx := s.tx, pausing := s.pausing } = s) rfl fun t k _ ht => ?_
  have hback := congrArg (fun x : State => ({ x with tx := s.tx, pausing := s.pausing } : State)) (hg t k)
  exact hback.trans ht

theorem State.mem_pauseFold (holds : Nat → Bool) (l : List Nat) (x : Nat × Nat) :
    x ∈ (l.foldl (State.pauseClass holds p) s).pausing ↔ x ∈ s.pausing ∨ (x.1 = p ∧ x.2 ∈ l ∧ holds x.2 = true) := by
  induction l generalizing s with
  | nil => simp
  | cons k l ih =>
    rw [List.foldl_cons, ih, State.mem_pauseClass, Prod.ext_iff, List.mem_cons]
    constructor
    · rintro ((h | ⟨⟨h1, h2⟩, h3⟩) | ⟨h1, h2, h3⟩)
      · exact .inl h
      · exact .inr ⟨h1, .inl h2, by rw [h2]; exact h3⟩
      · exact .inr ⟨h1, .inr h2, h3⟩
    · rintro (h | ⟨h1, h2 | h2, h3⟩)
      · exact .inl (.inl h)
      · exact .inl (.inr ⟨⟨h1, h2⟩, by rw [← h2]; exact h3⟩)
      · exact .inr ⟨h1, h2, h3⟩

theorem State.mem_resumeFold (l : List Nat) (x : Nat × Nat) :
    x ∈ (l.foldl (State.resumeClass p) s).pausing ↔ x ∈ s.pausing ∧ ¬ (x.1 = p ∧ x.2 ∈ l) := by
  induction l generalizing s with
  | nil => simp
  | cons k l ih =>
    rw [List.foldl_cons, ih, State.mem_resumeClass, Ne, Prod.ext_iff, List.mem_cons, and_assoc, and_or_left, not_or]

theorem State.pauseUpdate_below (h : s.rxFree p < s.regN (DP_PFC_XOFF p)) :
    (q, k) ∈ (s.pauseUpdate p).pausing ↔ (q, k) ∈ s.pausing ∨ (q = p ∧ k < 8 ∧ ∃ f ∈ s.rxq, f.port = p ∧ f.tc = k) := by
  rw [State.pauseUpdate_eq, if_pos h, State.showPausing_pausing, State.mem_pauseFold, State.rxHolds_iff, List.mem_range]

theorem State.pauseUpdate_above (h : ¬ s.rxFree p < s.regN (DP_PFC_XOFF p)) (hon : s.regN (DP_PFC_XON p) < s.rxFree p) :
    (q, k) ∈ (s.pauseUpdate p).pausing ↔ (q, k) ∈ s.pausing ∧ ¬ (q = p ∧ k < 8) := by
  rw [State.pauseUpdate_eq, if_neg h, if_pos hon, State.showPausing_pausing, State.mem_resumeFold, List.mem_range]

theorem State.pauseUpdate_between (h : ¬ s.rxFree p < s.regN (DP_PFC_XOFF p)) (hon : ¬ s.regN (DP_PFC_XON p) < s.rxFree p) :
    s.pauseUpdate p = s.showPausing p := by
  rw [State.pauseUpdate_eq, if_neg h, if_neg hon]

theorem State.pauseUpdate_frame (s : State) (p : Nat) : { s.pauseUpdate p with regs := s.regs, tx := s.tx, pausing := s.pausing } = s := by
  have hshow : ∀ t : State, { t with tx := s.tx, pausing := s.pausing } = s →
      { t.showPausing p with regs := s.regs, tx := s.tx, pausing := s.pausing } = s := by
    intro t ht
    have hback := congrArg (fun x : State => ({ x with regs := s.regs } : State)) ht
    exact hback
  rw [State.pauseUpdate_eq]
  refine hshow _ ?_
  split
  · exact pauseFold_frame (fun s k => State.pauseClass_frame _) s _
  · split
    · exact pauseFold_frame (fun s k => State.resumeClass_frame) s _
    · rfl

end

/-- Whether the condition of a pause lasts (R338). -/
def State.pauseLasts (s : State) (p k : Nat) : Prop :=
  s.pausing.contains (p, k) = true ∧ s.rxFree p < s.regN (DP_PFC_XOFF p) ∧ ∃ f ∈ s.rxq, f.port = p ∧ f.tc = k

theorem State.pauseLasts_iff {s : State} {p k : Nat} : s.pauseLasts p k ↔ s.pausing.contains (p, k) = true
    ∧ (decide (s.rxFree p < s.regN (DP_PFC_XOFF p)) && s.rxq.any fun f => decide (f.port = p ∧ f.tc = k)) = true := by
  unfold State.pauseLasts
  rw [Bool.and_eq_true, decide_eq_true_eq, List.any_eq_true]
  simp only [decide_eq_true_eq]

/-- Settles O44: the commands by their own lemmas; pausing and resuming by `setPaused`, `pfcApply` and `pauseUpdate`. -/
theorem portsLinksAndPauses : Obligations.PortsLinksAndPauses := by
  refine ⟨fun s hu hc => ⟨fun p v => ?_, fun p => ⟨exec_linkUp_down hu, exec_linkUp_trains hu, ?_⟩, fun p frame => ⟨fun en quanta hwhole hpfc => ?_, fun hno => ?_⟩,
    fun p k => ⟨?_, fun hl => ?_, fun hl => ?_⟩⟩, fun u p hc => State.dropLink_facts (State.canon_regs hc), fun u p k on hc hun => ?_,
    fun u p => ⟨fun h q k => State.pauseUpdate_below h, fun h hon q k => State.pauseUpdate_above h hon, fun h hon => ?_, State.pauseUpdate_frame u p⟩,
    State.send_eq, fun s n hu => ?_⟩
  · have hbit : bit v.toNat 0 = v.getLsbD 0 := bit_eq_testBit _ _
    refine ⟨exec_portEnable_closed hu, fun hw => ?_, fun hw hon => ?_, fun hw hon => ?_⟩
    · rw [exec_portEnable_secure hu, State.portWrite_same (hbit.trans hw)]
    · rw [exec_portEnable_secure hu, State.portWrite_enable (hbit.trans hw) hon]
      rfl
    · rw [exec_portEnable_secure hu, State.portWrite_disable (hbit.trans hw) hon]
  · rw [exec_linkDown, execLinkDown, live_up hu]
  · refine ⟨_, exec_pfcFrameReceive_pfc hu ((State.hears_whole hwhole).trans hpfc), rfl, fun hdue hnak => ?_⟩
    have hun : ∀ j, (s.fec p frame).unasked p j := by
      have hr : (s.fec p frame).rconn = s.rconn := (congrArg State.rconn State.fec_frame :)
      have hcn : (s.fec p frame).conn = s.conn := (congrArg State.conn State.fec_frame :)
      exact fun j => ⟨fun c hc hp _ => hdue c (hr ▸ hc) hp, fun c hc hp _ => hnak c (hcn ▸ hc) hp⟩
    obtain ⟨hpaused, hframe, -⟩ := State.pfcApply_facts (en := en) (quanta := quanta) hun (List.range 8)
    have hsame : ∀ q k, (s.fec p frame).paused q k = s.paused q k := by
      intro q k
      unfold State.paused
      rw [show (s.fec p frame).pausedBy = s.pausedBy from (congrArg State.pausedBy State.fec_frame :)]
    refine ⟨fun k hk => ?_, fun q k hqk => ?_, ?_⟩
    · rw [hpaused, hsame]
      simp [hk]
    · rw [hpaused, hsame, if_neg]
      rintro ⟨rfl, hk, -⟩
      exact hqk.elim (fun h => h rfl) fun h => absurd (List.mem_range.1 hk) (Nat.not_lt.2 h)
    · have hback := congrArg (fun x : State => ({ x with regs := s.regs, tx := s.tx, conn := s.conn, rops := s.rops, pausedBy := s.pausedBy } : State)) hframe
      exact hback.trans (congrArg (fun x : State => ({ x with tx := s.tx, conn := s.conn, rops := s.rops, pausedBy := s.pausedBy } : State))
        (State.fec_frame (s := s) (p := p) (frame := frame)) :)
  · refine exec_pfcFrameReceive_other hu fun en quanta h => ?_
    by_cases hw : frame.uncorr = 0
    · rw [State.hears_whole hw] at h
      exact hno.elim (fun hn => hn hw) fun hn => hn en quanta h
    · rw [State.hears_damaged hw] at h
      cases h
  · rw [exec_pauseExpiry, execPauseExpiry, live_up hu]
  · rw [exec_pfcRepeat, execPfcRepeat, live_up hu]
    exact congrArg _ (if_pos (State.pauseLasts_iff.1 hl))
  · rw [exec_pfcRepeat, execPfcRepeat, live_up hu]
    exact congrArg _ (if_neg fun h => hl (State.pauseLasts_iff.2 h))
  · exact ⟨fun q j => State.setPaused_paused hun, State.setPaused_status (State.canon_regs hc) hun, fun hon => by subst hon; rfl, State.setPaused_frame hun⟩
  · rw [State.pauseUpdate_between h hon]
    exact ⟨rfl, rfl⟩
  · refine ⟨?_, ?_⟩
    · rw [exec_refclkFLoss, execRefclkFLoss, atPins_ok hu, ← refclk_cleared]
      rfl
    · rw [exec_refclkFRestore, execRefclkFRestore, atPins_ok hu, refclk_set]

/-! ### BLK_CTL: enable, drain, reset (R435, R436) -/

/-- BLK_CTL stands in the header of its block's page 0. -/
theorem pageOf_BLK_CTL : ∀ (b : Blk) (i : Fin (placeOf b).count), pageOf (BLK_CTL b i) = some (b, i.val, 0) ∧ BLK_CTL b i % 0x1000 = 0x10 := by
  intro b
  cases b <;> decide +kernel

/-- A write of BLK_CTL acts for the secure world; that of the other is discarded and recorded (R12). -/
theorem State.allow_BLK_CTL {s : State} {b : Blk} {i : Nat} {sec : Bool} {act : State → State} (h : blkInstance b i = true) :
    s.allow sec (BLK_CTL b i) act = if sec then act s else s.devErr := by
  obtain ⟨hp, ho⟩ := pageOf_BLK_CTL b ⟨i, of_decide_eq_true h⟩
  dsimp only at hp ho
  unfold State.allow
  rw [hp]
  dsimp only
  rw [ho]
  cases sec <;> rfl

section
variable {s : State} {b : Blk} {i : Nat}

theorem State.ctlAllow_closed {act : State → State} (h : blkInstance b i = true) : s.ctlAllow false b i act = s.devErr :=
  State.allow_BLK_CTL h

theorem State.ctlAllow_retired {act : State → State} (h : blkInstance b i = true) (hr : (s.unitAt b i).retired = true) :
    s.ctlAllow true b i act = s.blkErr b i 5 :=
  (State.allow_BLK_CTL h).trans (if_pos hr)

theorem State.ctlAllow_open {act : State → State} (h : blkInstance b i = true) (hr : (s.unitAt b i).retired = false) :
    s.ctlAllow true b i act = act s :=
  (State.allow_BLK_CTL h).trans (if_neg (Bool.eq_false_iff.1 hr))

/-- The units that execute descriptors and the cores: the classes with spares. -/
theorem hasSpares_iff : hasSpares b = true ↔ b ∈ [Blk.ae, .ce, .ve, .le, .he, .kc] := by
  cases b <;> decide

theorem canDisable_iff : canDisable b = true ↔ b ∈ Blk.qc :: [Blk.ae, .ce, .ve, .le, .he, .kc] := by
  cases b <;> decide

/-- Whether such a unit works does not depend on its control register. -/
theorem State.working_setBit {a n : Nat} {on : Bool} (h : canDisable b = true) : (s.setBit a n on).working b i = s.working b i := by
  have hb := canDisable_iff.1 h
  simp only [List.mem_cons, List.not_mem_nil, or_false] at hb
  rcases hb with rfl | rfl | rfl | rfl | rfl | rfl | rfl <;> rfl

theorem State.blkEnable_plain {on : Bool} (h : b ∉ Blk.qc :: [Blk.ae, .ce, .ve, .le, .he, .kc]) :
    s.blkEnable b i on = s.setBit (BLK_CTL b i) 0 on :=
  if_pos (by rw [Bool.eq_false_iff.2 fun hc => h (canDisable_iff.1 hc)]; rfl)

/-- Enable of a unit that can be disabled: its state follows. -/
theorem State.blkEnable_unit {on : Bool} (h : b ∈ Blk.qc :: [Blk.ae, .ce, .ve, .le, .he, .kc]) :
    let u := s.unitAt b i
    let shown := s.setBit (BLK_CTL b i) 0 on
    s.blkEnable b i on = if on = true then (if u.st = .disabled ∨ u.st = .draining then shown.setUnit b i { u with st := .idle } else shown)
      else if u.st ≠ .idle then shown
      else shown.setUnit b i { u with st := if s.working b i = true then .draining else .disabled } := by
  have hd := canDisable_iff.2 h
  unfold State.blkEnable
  dsimp only
  rw [if_neg (by rw [hd]; exact Bool.false_ne_true), State.working_setBit hd]

theorem State.blkDrain_stays {on : Bool} (h : b ≠ .dp ∨ on = true) : s.blkDrain b i on = s.setBit (BLK_CTL b i) 1 on :=
  if_neg fun hn => h.elim (fun hb => hb hn.1) fun ho => Bool.false_ne_true (hn.2.symm.trans ho)

theorem State.blkDrain_port : s.blkDrain .dp i false = (List.range 8).foldl (fun v k => v.pumpAll i k) (s.setBit (BLK_CTL .dp i) 1 false) := by
  unfold State.blkDrain
  rw [if_pos ⟨rfl, rfl⟩]

end

/-! Reset. -/

section
variable {s t w : State} {b : Blk} {i a : Nat}

theorem State.resetRegs_wf {p : Nat → Bool} (h : smapWf resetOf s.regs = true) : smapWf resetOf (s.resetRegs p).regs = true := smapWf_clear p h

theorem State.reg_resetRegs {p : Nat → Bool} (h : smapWf resetOf s.regs = true) : (s.resetRegs p).reg a = if p a then resetOf a else s.reg a :=
  smapGet_clear p s.regs 0 a h

/-- Bit 1 of a register cleared, its other bits as they were. -/
theorem drain_cleared (hw : smapWf resetOf w.regs = true) (h : w.reg a = s.reg a) (ht : t.reg a = (w.setBit a 1 false).reg a) :
    t.regBit a 1 = false ∧ t.regBit a 0 = s.regBit a 0 ∧ t.field a 31 2 = s.field a 31 2 := by
  rw [regBit_of ht, regBit_of ht, field_of ht]
  refine ⟨State.regBit_setBit_same _ _ _ hw (by decide), ?_, ?_⟩
  · rw [State.regBit_setBit_other _ _ hw (by decide) (by decide), regBit_of h]
  · rw [State.field_setBit_apart _ _ hw (by decide) (.inr (by decide)), field_of h]

/-- Reset clears drain in a register that ending the operations has left alone. -/
theorem reg_drained (hw : smapWf resetOf w.regs = true) (ha : a ≠ BLK_CTL b i) : (w.setBit (BLK_CTL b i) 1 false).reg a = w.reg a :=
  State.reg_setBit_other _ _ hw ha

/-- Blocks whose reset ends nothing but the descriptors on the unit. -/
theorem State.endAll_flights (h : b ∉ [Blk.qc, .fc, .dp, .bed, .qn, .pl]) :
    s.endAll b i = { s with flights := s.flights.filter fun f => !f.onUnit b i } := by
  cases b
  case qc | fc | dp | bed | qn | pl => exact absurd (by decide) h
  all_goals rfl

theorem State.blkReset_plain (hs : hasSpares b = false) (hq : b ≠ .qc) : s.blkReset b i = (s.endAll b i).setBit (BLK_CTL b i) 1 false := by
  unfold State.blkReset
  dsimp only
  rw [if_neg (by rw [hs]; exact Bool.false_ne_true), if_neg hq]

/-- The registers of its own that a unit loses at a reset: those beyond the header but the counters. -/
def resetLoses (b : Blk) (i a : Nat) : Bool := ownRegs b i a && !isCounter a

theorem resetLoses_iff : resetLoses b i a = true ↔ ownRegs b i a = true ∧ isCounter a = false := by
  unfold resetLoses
  rw [Bool.and_eq_true, Bool.not_eq_true']

theorem resetLoses_BLK_CTL (h : blkInstance b i = true) : resetLoses b i (BLK_CTL b i) = false := by
  obtain ⟨hp, ho⟩ := pageOf_BLK_CTL b ⟨i, of_decide_eq_true h⟩
  dsimp only at hp ho
  unfold resetLoses ownRegs
  rw [hp]
  dsimp only
  rw [ho]
  simp

/-- Reset of an engine or core: its registers. -/
theorem State.reg_blkReset_unit (hs : hasSpares b = true) (hw : smapWf resetOf s.regs = true) :
    (s.blkReset b i).reg a = if resetLoses b i a then resetOf a else (s.setBit (BLK_CTL b i) 1 false).reg a := by
  have hend := State.endAll_flights (s := s) (i := i) (b := b) (by cases b <;> revert hs <;> decide)
  have hregs : (s.blkReset b i).regs = ((s.setBit (BLK_CTL b i) 1 false).resetRegs (resetLoses b i)).regs := by
    unfold State.blkReset
    dsimp only
    rw [if_pos hs, hend]
    rfl
  rw [reg_of hregs]
  exact State.reg_resetRegs (State.setBit_wf _ _ _ hw)

/-- Reset of an engine or core: what it loses beside registers. -/
theorem State.blkReset_unit (hs : hasSpares b = true) :
    let u := s.unitAt b i
    let kept := u.standby = true ∨ u.retired = true ∨ u.st = .substituting
    { s.blkReset b i with regs := s.regs } = ({ s with
      flights := s.flights.filter fun f => !f.onUnit b i
      resident := if b = .ae then smapErase s.resident i else s.resident
      image := if b = .ce then smapErase s.image i else s.image } : State).setUnit b i
        { u with lastTenant := none, st := if kept then u.st else .off } := by
  have hend := State.endAll_flights (s := s) (i := i) (b := b) (by cases b <;> revert hs <;> decide)
  have hlive : (if (!((s.unitAt b i).standby || (s.unitAt b i).retired || decide ((s.unitAt b i).st = .substituting))) = true then BState.off
      else (s.unitAt b i).st) = if (s.unitAt b i).standby = true ∨ (s.unitAt b i).retired = true ∨ (s.unitAt b i).st = .substituting
        then (s.unitAt b i).st else .off := by
    cases (s.unitAt b i).standby <;> cases (s.unitAt b i).retired <;> by_cases hst : (s.unitAt b i).st = .substituting <;> simp [hst]
  unfold State.blkReset
  dsimp only
  rw [if_pos hs, hend, hlive]
  rfl

/-! Reset of the other blocks, one by one. -/

theorem blkInstance_single (h : blkInstance b i = true) (h1 : (placeOf b).count = 1) : i = 0 := by
  have := of_decide_eq_true h
  omega

/-- Quarry: the status registers of its schedules are reset. -/
theorem State.reg_endAll_qc (hw : smapWf resetOf s.regs = true) : (s.endAll .qc i).reg a
    = if (List.range 16).any (fun t => decide (a = QC_SCHED_STAT t)) then resetOf a else s.reg a :=
  State.reg_resetRegs (s := { s with
      flights := s.flights.filter fun f => f.cls != Blk.qc
      tensors := smapMap tensorUnused (fun (x : Tensor) => { x with moving := false }) s.tensors
      moves := [], builds := [], sched := [], schedQ := [] }) hw

theorem State.endAll_qc_frame : { s.endAll .qc i with regs := s.regs } = { s with
    flights := s.flights.filter fun f => f.cls != Blk.qc
    tensors := smapMap tensorUnused (fun (x : Tensor) => { x with moving := false }) s.tensors
    moves := [], builds := [], sched := [], schedQ := [] } := rfl

theorem QC_SCHED_STAT_ne_BLK_CTL : ∀ n : Fin 16, QC_SCHED_STAT n ≠ BLK_CTL .qc 0 := by decide

theorem QN_MB_ne_BLK_CTL : QN_MB_STAT ≠ BLK_CTL .qn 0 ∧ QN_MB_STAT_S ≠ BLK_CTL .qn 0 := by decide

theorem FC_ne_BLK_CTL (i : Nat) : FC_STATUS i ≠ BLK_CTL .fc i ∧ FC_RETRAIN_STAT i ≠ BLK_CTL .fc i ∧ FC_STATUS i ≠ FC_RETRAIN_STAT i := by
  unfold FC_STATUS FC_RETRAIN_STAT BLK_CTL
  omega

/-- A controller: the retrain's status is cleared. -/
theorem State.endAll_fc (hw : smapWf resetOf s.regs = true) :
    let v := s.endAll .fc i
    smapWf resetOf v.regs = true ∧ v.regBit (FC_STATUS i) 1 = false ∧ v.regN (FC_RETRAIN_STAT i) = 0
      ∧ (∀ n, n ≤ 63 → n ≠ 1 → v.regBit (FC_STATUS i) n = s.regBit (FC_STATUS i) n)
      ∧ (∀ a, a ≠ FC_STATUS i → a ≠ FC_RETRAIN_STAT i → v.reg a = s.reg a)
      ∧ { v with regs := s.regs } = { s with
          hbmQ := s.hbmQ.filter (fun w => !decide (w.pc / 32 = i)), hbmPtr := smapClear (fun k => decide (k / 32 = i)) s.hbmPtr
          hbmDrain := s.hbmDrain.filter (fun k => !decide (k / 32 = i)), retrainReq := s.retrainReq.filter (fun r => r.1 != i)
          retrain := smapErase s.retrain i } := by
  obtain ⟨-, -, hne⟩ := FC_ne_BLK_CTL i
  let u : State := { s with
    hbmQ := s.hbmQ.filter (fun w => !decide (w.pc / 32 = i)), hbmPtr := smapClear (fun k => decide (k / 32 = i)) s.hbmPtr
    hbmDrain := s.hbmDrain.filter (fun k => !decide (k / 32 = i)), retrainReq := s.retrainReq.filter (fun r => r.1 != i)
    retrain := smapErase s.retrain i }
  have hv : s.endAll .fc i = (u.setBit (FC_STATUS i) 1 false).setRegN (FC_RETRAIN_STAT i) 0 := rfl
  have hu : smapWf resetOf u.regs = true := hw
  have hset := State.setBit_wf (s := u) (FC_STATUS i) 1 false hu
  have hstat : (s.endAll .fc i).reg (FC_STATUS i) = (u.setBit (FC_STATUS i) 1 false).reg (FC_STATUS i) := by
    rw [hv]
    exact State.reg_setReg_other _ hset hne
  refine ⟨?_, ?_, ?_, fun n hn h1 => ?_, fun a ha hb => ?_, rfl⟩
  · rw [hv]; exact State.setRegN_wf _ _ hset
  · rw [regBit_of hstat, State.regBit_setBit_same _ _ _ hu (by decide)]
  · rw [hv, State.regN_setRegN_same _ _ hset, Nat.zero_mod]
  · rw [regBit_of hstat]; exact State.regBit_setBit_other (s := u) _ _ hu h1 hn
  · rw [hv]; exact (State.reg_setReg_other _ hset hb).trans (State.reg_setBit_other (s := u) _ _ hu ha)

/-- Quoin: the status registers of its mailboxes are reset. -/
theorem State.reg_endAll_qn (hw : smapWf resetOf s.regs = true) : (s.endAll .qn i).reg a
    = if decide (a = QN_MB_STAT) || decide (a = QN_MB_STAT_S) then resetOf a else s.reg a :=
  State.reg_resetRegs (s := { s with qnReq := [], qnPtr := 0, mctpIn := [], session := none }) hw

theorem State.endAll_regs (h : b ∉ [Blk.qc, .fc, .dp, .qn, .pl]) : (s.endAll b i).regs = s.regs := by
  cases b
  case qc | fc | dp | qn | pl => exact absurd (by decide) h
  all_goals rfl

/-- Ending the operations of a block other than a port or the Plinth leaves its control register alone. -/
theorem State.endAll_BLK_CTL (hi : blkInstance b i = true) (hw : smapWf resetOf s.regs = true) (hdp : b ≠ .dp) (hpl : b ≠ .pl) :
    smapWf resetOf (s.endAll b i).regs = true ∧ (s.endAll b i).reg (BLK_CTL b i) = s.reg (BLK_CTL b i) := by
  by_cases hqc : b = .qc
  · subst hqc
    obtain rfl := blkInstance_single hi rfl
    refine ⟨(smapWf_clear (fun a => (List.range 16).any fun t => decide (a = QC_SCHED_STAT t)) hw :), (State.reg_endAll_qc hw).trans (if_neg ?_)⟩
    rw [List.any_eq_true]
    rintro ⟨n, hn, he⟩
    exact QC_SCHED_STAT_ne_BLK_CTL ⟨n, List.mem_range.1 hn⟩ (of_decide_eq_true he).symm
  by_cases hfc : b = .fc
  · subst hfc
    obtain ⟨hwf, -, -, -, hother, -⟩ := State.endAll_fc (i := i) hw
    obtain ⟨h1, h2, -⟩ := FC_ne_BLK_CTL i
    exact ⟨hwf, hother _ h1.symm h2.symm⟩
  by_cases hqn : b = .qn
  · subst hqn
    obtain rfl := blkInstance_single hi rfl
    refine ⟨(smapWf_clear (fun a => decide (a = QN_MB_STAT) || decide (a = QN_MB_STAT_S)) hw :), (State.reg_endAll_qn hw).trans (if_neg ?_)⟩
    obtain ⟨h1, h2⟩ := QN_MB_ne_BLK_CTL
    simp [h1.symm, h2.symm]
  · have hregs := State.endAll_regs (s := s) (i := i) (b := b) (by simp [hqc, hfc, hdp, hqn, hpl])
    exact ⟨by rw [hregs]; exact hw, reg_of hregs _⟩

/-- The control register after a reset: drain cleared. -/
theorem State.reg_blkReset_BLK_CTL (hi : blkInstance b i = true) (hw : smapWf resetOf s.regs = true) :
    (s.blkReset b i).reg (BLK_CTL b i) = ((s.endAll b i).setBit (BLK_CTL b i) 1 false).reg (BLK_CTL b i) := by
  by_cases hs : hasSpares b = true
  · have hregs : ((s.endAll b i).setBit (BLK_CTL b i) 1 false).regs = (s.setBit (BLK_CTL b i) 1 false).regs := by
      rw [State.endAll_flights (by cases b <;> revert hs <;> decide)]
      rfl
    rw [State.reg_blkReset_unit hs hw, resetLoses_BLK_CTL hi, reg_of hregs]
    exact if_neg Bool.false_ne_true
  · by_cases hq : b = .qc
    · subst hq
      unfold State.blkReset
      rfl
    · rw [State.blkReset_plain (Bool.eq_false_iff.2 hs) hq]

end

/-- Reset of a unit that executes descriptors, or of a core. -/
theorem State.blkReset_unit_facts {s : State} {b : Blk} {i : Nat} (hs : hasSpares b = true) (hw : smapWf resetOf s.regs = true) :
    let u := s.unitAt b i
    let t := s.blkReset b i
    let kept := u.standby = true ∨ u.retired = true ∨ u.st = .substituting
    t.flights = s.flights.filter (fun f => !f.onUnit b i)
      ∧ (∀ a, ownRegs b i a = true → isCounter a = false → t.reg a = resetOf a)
      ∧ (∀ a, a ≠ BLK_CTL b i → ¬ (ownRegs b i a = true ∧ isCounter a = false) → t.reg a = s.reg a)
      ∧ t.resident = (if b = .ae then smapErase s.resident i else s.resident) ∧ t.image = (if b = .ce then smapErase s.image i else s.image)
      ∧ t.unit = (s.setUnit b i { u with lastTenant := none, st := if kept then u.st else .off }).unit
      ∧ { t with regs := s.regs, flights := s.flights, resident := s.resident, image := s.image, unit := s.unit } = s := by
  have hrest := State.blkReset_unit (s := s) (i := i) hs
  refine ⟨(congrArg State.flights hrest :), fun a ho hc => ?_, fun a ha ho => ?_, (congrArg State.resident hrest :), (congrArg State.image hrest :),
    (congrArg State.unit hrest :), ?_⟩
  · rw [State.reg_blkReset_unit hs hw, if_pos (resetLoses_iff.2 ⟨ho, hc⟩)]
  · rw [State.reg_blkReset_unit hs hw, if_neg fun hl => ho (resetLoses_iff.1 hl)]
    exact reg_drained hw ha
  · have hback := congrArg (fun x : State => ({ x with flights := s.flights, resident := s.resident, image := s.image, unit := s.unit } : State)) hrest
    exact hback

/-- Reset of Quarry. -/
theorem State.blkReset_qc_facts {s : State} {i : Nat} (hi : blkInstance .qc i = true) (hw : smapWf resetOf s.regs = true) :
    let t := s.blkReset .qc i
    (∀ a, a ≠ BLK_CTL .qc i → (∀ n, n < 16 → a ≠ QC_SCHED_STAT n) → t.reg a = s.reg a)
      ∧ (∀ n, n < 16 → t.reg (QC_SCHED_STAT n) = resetOf (QC_SCHED_STAT n))
      ∧ { t with regs := s.regs } = { s with
          flights := s.flights.filter (fun f => f.cls != Blk.qc), tensors := smapMap tensorUnused (fun (x : Tensor) => { x with moving := false }) s.tensors
          moves := [], builds := [], sched := [], schedQ := [], unit := (s.setUnit .qc i { s.unitAt .qc i with st := .off }).unit } := by
  have hreg : ∀ a, a ≠ BLK_CTL .qc i → (s.blkReset .qc i).reg a = (s.endAll .qc i).reg a := by
    intro a ha
    have h := reg_drained (State.endAll_BLK_CTL (s := s) hi hw (by decide) (by decide)).1 ha
    unfold State.blkReset
    exact h
  obtain rfl := blkInstance_single hi rfl
  refine ⟨fun a ha hn => ?_, fun n hn => ?_, rfl⟩
  · rw [hreg a ha, State.reg_endAll_qc hw, if_neg]
    rw [List.any_eq_true]
    rintro ⟨n, hmem, he⟩
    exact hn n (List.mem_range.1 hmem) (of_decide_eq_true he)
  · rw [hreg _ (QC_SCHED_STAT_ne_BLK_CTL ⟨n, hn⟩), State.reg_endAll_qc hw, if_pos]
    exact List.any_eq_true.2 ⟨n, List.mem_range.2 hn, decide_eq_true rfl⟩

/-- Reset of a controller. -/
theorem State.blkReset_fc_facts {s : State} {i : Nat} (hw : smapWf resetOf s.regs = true) :
    let t := s.blkReset .fc i
    t.regBit (FC_STATUS i) 1 = false ∧ t.regN (FC_RETRAIN_STAT i) = 0
      ∧ (∀ n, n ≤ 63 → n ≠ 1 → t.regBit (FC_STATUS i) n = s.regBit (FC_STATUS i) n)
      ∧ (∀ a, a ≠ BLK_CTL .fc i → a ≠ FC_STATUS i → a ≠ FC_RETRAIN_STAT i → t.reg a = s.reg a)
      ∧ { t with regs := s.regs } = { s with
          hbmQ := s.hbmQ.filter (fun w => !decide (w.pc / 32 = i)), hbmPtr := smapClear (fun k => decide (k / 32 = i)) s.hbmPtr
          hbmDrain := s.hbmDrain.filter (fun k => !decide (k / 32 = i)), retrainReq := s.retrainReq.filter (fun r => r.1 != i)
          retrain := smapErase s.retrain i } := by
  obtain ⟨hwf, hbit, hstat, hbits, hother, hframe⟩ := State.endAll_fc (s := s) (i := i) hw
  obtain ⟨h1, h2, -⟩ := FC_ne_BLK_CTL i
  dsimp only
  rw [State.blkReset_plain rfl (by decide)]
  refine ⟨?_, ?_, fun n hn hne => ?_, fun a ha hb hc => ?_, hframe⟩
  · rw [regBit_of (reg_drained hwf h1), hbit]
  · rw [regN_of (reg_drained hwf h2), hstat]
  · rw [regBit_of (reg_drained hwf h1), hbits n hn hne]
  · rw [reg_drained hwf ha, hother a hb hc]

/-- Reset of Quoin. -/
theorem State.blkReset_qn_facts {s : State} {i : Nat} (hi : blkInstance .qn i = true) (hw : smapWf resetOf s.regs = true) :
    let t := s.blkReset .qn i
    (∀ a, a ≠ BLK_CTL .qn i → a ≠ QN_MB_STAT → a ≠ QN_MB_STAT_S → t.reg a = s.reg a)
      ∧ t.reg QN_MB_STAT = resetOf QN_MB_STAT ∧ t.reg QN_MB_STAT_S = resetOf QN_MB_STAT_S
      ∧ { t with regs := s.regs } = { s with qnReq := [], qnPtr := 0, mctpIn := [], session := none } := by
  obtain ⟨hwf, -⟩ := State.endAll_BLK_CTL (s := s) hi hw (by decide) (by decide)
  obtain rfl := blkInstance_single hi rfl
  obtain ⟨h1, h2⟩ := QN_MB_ne_BLK_CTL
  dsimp only
  rw [State.blkReset_plain rfl (by decide)]
  refine ⟨fun a ha hb hc => ?_, ?_, ?_, rfl⟩
  · rw [reg_drained hwf ha, State.reg_endAll_qn hw]
    simp [hb, hc]
  · rw [reg_drained hwf h1, State.reg_endAll_qn hw]
    simp
  · rw [reg_drained hwf h2, State.reg_endAll_qn hw]
    simp

/-- Reset of a port. -/
theorem State.blkReset_dp_eq (s : State) (i : Nat) : s.blkReset .dp i = (({ s with
      conn := s.conn.filter (fun c => c.port != i), rconn := s.rconn.filter (fun c => c.port != i)
      flights := s.flights.filter (fun f => !(s.rops.any fun r => decide (r.port = i) && r.flight == some f.id))
      rops := s.rops.filter (fun r => r.port != i), rxq := s.rxq.filter (fun f => f.port != i)
      putFail := s.putFail.filter (fun x => x.1.1 / 8 != i), putOpen := s.putOpen.filter (fun x => x.1 / 8 != i) } : State).pauseUpdate i).setBit
        (BLK_CTL .dp i) 1 false := by
  rw [State.blkReset_plain rfl (by decide)]
  unfold State.endAll State.freshPort
  simp only [List.any_filter]

/-- Reset of the Plinth. -/
theorem State.blkReset_pl_eq (s : State) (i : Nat) : s.blkReset .pl i
    = (((((s.plBank0.op.toList ++ s.plBank0.held.toList ++ (s.plBank1.op.toList ++ s.plBank1.held.toList)).foldl State.plTorn s).setPlBank 0
        plIdle).setPlBank 1 plIdle).writeDue).setBit (BLK_CTL .pl i) 1 false := by
  rw [State.blkReset_plain rfl (by decide)]
  unfold State.endAll
  simp only [List.flatMap_cons, List.flatMap_nil, List.append_nil]

/-- Settles O60: the three controls through `ctlAllow`, and a reset block by block. -/
theorem blocksAreControlled : Obligations.BlocksAreControlled := by
  intro s b i hu hc hi
  have hw := State.canon_regs hc
  refine ⟨fun on => ⟨?_, ?_, ?_, fun hr => ⟨?_, ?_⟩, fun hr => ⟨fun hb => ?_, fun hb => ?_, fun hb => ?_, fun hb hon => ?_⟩⟩,
    fun hst => ?_, fun hst => ?_, fun hst => ?_, fun hst hwork => ?_, s.blkReset b i, ?_, fun hdp hpl => ?_, fun hb => ?_, fun hb => ?_, fun hb => ?_,
    fun hb => ?_, fun hb => ?_, fun hb => ?_, fun hb => ?_, fun hb => ?_⟩
  · rw [exec_blockEnable, execBlockEnable, live_up hu, State.ctlAllow_closed hi]
    rfl
  · rw [exec_blockDrain, execBlockDrain, live_up hu, State.ctlAllow_closed hi]
    rfl
  · rw [exec_blockReset, execBlockReset, live_up hu, State.allow_BLK_CTL hi]
    rfl
  · rw [exec_blockEnable, execBlockEnable, live_up hu, State.ctlAllow_retired hi hr]
    rfl
  · rw [exec_blockDrain, execBlockDrain, live_up hu, State.ctlAllow_retired hi hr]
    rfl
  · rw [exec_blockEnable, execBlockEnable, live_up hu, State.ctlAllow_open hi hr, State.blkEnable_plain hb]
  · rw [exec_blockEnable, execBlockEnable, live_up hu, State.ctlAllow_open hi hr, State.blkEnable_unit hb]
  · rw [exec_blockDrain, execBlockDrain, live_up hu, State.ctlAllow_open hi hr, State.blkDrain_stays hb]
  · subst hb hon
    rw [exec_blockDrain, execBlockDrain, live_up hu, State.ctlAllow_open hi hr, State.blkDrain_port]
  · rw [exec_blockResetDone, execBlockResetDone, live_up hu]
    exact congrArg _ (if_neg hst)
  · rw [exec_blockResetDone, execBlockResetDone, live_up hu]
    exact congrArg _ (if_pos hst)
  · rw [exec_blockIdle, execBlockIdle, live_up hu]
    refine congrArg _ (if_neg fun h => hst.elim (fun hn => hn h.1) fun hn => ?_)
    rw [hn] at h
    exact Bool.false_ne_true h.2
  · rw [exec_blockIdle, execBlockIdle, live_up hu]
    exact congrArg _ (if_pos ⟨hst, by rw [hwork]; rfl⟩)
  · rw [exec_blockReset, execBlockReset, live_up hu, State.allow_BLK_CTL hi]
    rfl
  · obtain ⟨hwf, hsame⟩ := State.endAll_BLK_CTL hi hw hdp hpl
    exact drain_cleared hwf hsame (State.reg_blkReset_BLK_CTL hi hw)
  · exact State.blkReset_unit_facts (hasSpares_iff.2 hb) hw
  · subst hb
    exact State.blkReset_qc_facts hi hw
  · subst hb
    exact State.blkReset_fc_facts hw
  · subst hb
    exact State.blkReset_dp_eq s i
  · subst hb
    rw [State.blkReset_plain rfl (by decide)]
    exact ⟨fun a ha => reg_drained (w := s.endAll .bed i) hw ha, rfl⟩
  · subst hb
    exact State.blkReset_qn_facts hi hw
  · subst hb
    exact State.blkReset_pl_eq s i
  · have hspare : hasSpares b = false ∧ b ≠ .qc ∧ b ∉ [Blk.qc, .fc, .dp, .bed, .qn, .pl] := by
      cases b <;> revert hb <;> decide
    obtain ⟨hs, hq, hend⟩ := hspare
    rw [State.blkReset_plain hs hq, State.endAll_flights hend]
    exact ⟨fun a ha => reg_drained (w := { s with flights := s.flights.filter fun f => !f.onUnit b i }) hw ha, rfl⟩

/-! ### Operations of the engines: their start, their end, and what they leave alone (R15, R62, R91 to R93, R193) -/

/-- An operation that may write no event leaves HBM, the rings and what the host sees alone too. -/
theorem aside_quiet {s og : State} (h : s.aside og false) :
    { s with free := og.free, regs := og.regs, resident := og.resident, image := og.image, pageMap := og.pageMap, pfx := og.pfx } = og := by
  obtain ⟨hquiet, hrest⟩ := h
  obtain ⟨e1, e2, e3, e4, e5⟩ := hquiet rfl
  rw [← e1, ← e2, ← e3, ← e4, ← e5] at hrest
  exact hrest

section
variable {s : State} {w : Work} {k : Flight} {id : Nat}

/-- A settled operation's own flight: it has ended, or has trough records still to produce. -/
theorem Work.flightOf_phase (w : Work) (f : Flight) : (w.flightOf f).phase = .ran ∨ (w.flightOf f).phase = .running := by
  unfold Work.flightOf
  by_cases h : w.out.isEmpty = true
  · exact .inl (if_pos h)
  · exact .inr (if_neg h)

/-- Settling changes the operation's own flight alone. -/
theorem Work.settle_flights (hs : w.s.flights = s.flights) (hk : s.flight id = some k) :
    (w.settle k).flight id = some (w.flightOf k) ∧ ∀ j, j ≠ id → (w.settle k).flight j = s.flight j := by
  obtain ⟨t, n, heq⟩ := Work.settle_frame w k
  let u : State := { w.s.memFrom t with free := n }
  have hu : ∀ j, u.flight j = s.flight j := by
    intro j
    unfold State.flight
    rw [show u.flights = s.flights from hs]
  have hid : (w.flightOf k).id = id := (State.flight_id hk :)
  rw [heq]
  refine ⟨State.flight_putFlight_same ((hu id).trans hk) rfl, fun j hj => ?_⟩
  exact (State.flight_putFlight_other (s := u) (fun e => hj (e.trans hid))).trans (hu j)

theorem Work.coversBed_none {x : Nat} (h : ∀ p ∈ w.wr, p.tier = .bed → x < p.off ∨ p.off + p.data.length ≤ x) : w.coversBed x = false := by
  unfold Work.coversBed
  rw [List.any_eq_false]
  intro p hp hc
  simp only [Bool.and_eq_true, decide_eq_true_eq] at hc
  have := h p hp hc.1.1
  omega

theorem Work.coversHbm_none {x : Nat} (h : ∀ p ∈ w.wr, p.tier = .hbm → x / 64 < p.off / 64 ∨ p.off + p.data.length ≤ x / 64 * 64) :
    w.coversHbm x = false := by
  unfold Work.coversHbm lineMeets
  rw [List.any_eq_false]
  intro p hp hc
  simp only [Bool.and_eq_true, decide_eq_true_eq] at hc
  have := h p hp hc.1
  omega

end

/-! Engines that may use troughs: a descriptor starts, then runs. -/

theorem State.waited_frame (s : State) (f : Flight) : ∃ r n, s.waited f = { s with regs := r, free := n } := by
  unfold State.waited
  cases unitStall f.cls f.unit with
  | none => exact ⟨s.regs, s.free, rfl⟩
  | some a => exact ⟨_, _, rfl⟩

/-- A flight as it was but for what a start may set. -/
def Flight.startOf (k f : Flight) : Prop :=
  k.started = true ∧ k.desc = f.desc ∧ k.tenant = f.tenant ∧ k.queue = f.queue ∧ k.unit = f.unit ∧ k.id = f.id

/-- The flight of a descriptor that has started, with what its start has read. -/
def Flight.begun (f : Flight) (r : Work × Started) : Flight :=
  { f with started := true, issued := true, param := r.2.param, ssr := r.2.ssr, uses := r.2.uses.map r.1.s.trBegin }

theorem State.begin_def (s : State) (f : Flight) (start : Flight → Work → Work × Started) :
    let r := start f (Work.start s f.tenant f.strict)
    s.begin f start = match r.1.err with
      | some (c, d) => (r.1.s.putFlight ((f.begun r).endWith c d)).waited (f.begun r)
      | none => r.1.s.putFlight (f.begun r) := rfl

/-- A start stores what it read in its flight, ends it where a check failed, and touches registers and the free counter beside. -/
theorem State.begin_eq (s : State) (f : Flight) (start : Flight → Work → Work × Started) :
    ∃ k r n, k.startOf f ∧ s.begin f start = { (start f (Work.start s f.tenant f.strict)).1.s.putFlight k with regs := r, free := n } := by
  have hdef := State.begin_def s f start
  generalize start f (Work.start s f.tenant f.strict) = r at hdef
  rw [hdef]
  cases r.1.err with
  | none => exact ⟨f.begun r, r.1.s.regs, r.1.s.free, ⟨rfl, rfl, rfl, rfl, rfl, rfl⟩, rfl⟩
  | some e =>
    obtain ⟨regs, n, heq⟩ := State.waited_frame (r.1.s.putFlight ((f.begun r).endWith e.1 e.2)) (f.begun r)
    exact ⟨(f.begun r).endWith e.1 e.2, regs, n, ⟨rfl, rfl, rfl, rfl, rfl, rfl⟩, heq⟩

/-- A state as another but for what the start of a descriptor may touch. -/
def Begun (v s : State) : Prop :=
  { v with regs := s.regs, free := s.free, flights := s.flights, resident := s.resident, image := s.image,
           pageMap := s.pageMap, pfx := s.pfx } = s

theorem State.begin_facts {s : State} {f : Flight} {id : Nat} {start : Flight → Work → Work × Started}
    (hstart : ∀ w : Work, w.s.aside s false → (start f w).1.s.aside s false) (hf : s.flight id = some f) :
    ∃ k, (s.begin f start).flight id = some k ∧ k.startOf f ∧ (∀ j, j ≠ id → (s.begin f start).flight j = s.flight j) ∧ Begun (s.begin f start) s := by
  have haside := aside_quiet (hstart (Work.start s f.tenant f.strict) (aside_self s false))
  obtain ⟨k, r, n, hk, heq⟩ := State.begin_eq s f start
  rw [heq]
  generalize (start f (Work.start s f.tenant f.strict)).1.s = u at haside
  have hu : ∀ j, u.flight j = s.flight j := by
    intro j
    unfold State.flight
    rw [show u.flights = s.flights from (congrArg State.flights haside :)]
  have hid : k.id = f.id := hk.2.2.2.2.2
  refine ⟨k, State.flight_putFlight_same ((hu id).trans hf) hid, hk, fun j hj => ?_, ?_⟩
  · exact (State.flight_putFlight_other (s := u) (g := k) (fun e => hj (e.trans (hid.trans (State.flight_id hf))))).trans (hu j)
  · have hback := congrArg (fun x : State => ({ x with flights := s.flights } : State)) haside
    exact hback

section
variable {s v : State} {id cls op : Nat} {f k : Flight} {start : Flight → Work → Work × Started} {body : Flight → Work → Work}

theorem State.runStarted_eq (hf : s.flight id = some f) (hp : f.phase = .dispatched) (hc : dClass f.desc = cls) (ho : dOp f.desc = op)
    (hv : v = if f.started then s else s.begin f start) (hk : v.flight id = some k) :
    s.runStarted id cls op start body
      = if k.phase = .dispatched ∧ k.hasRecs = true then (body k (Work.start v k.tenant k.strict)).settle k else v := by
  unfold State.runStarted
  rw [State.onFlight_some hf, if_pos ⟨hp, hc, ho⟩, ← hv, State.onFlight_some hk]

/-- The fifteen operations of the matrix and Chisel engines and of the movers run through `runStarted`, by class and body. -/
theorem exec_startedOp {c : Instr} (hu : s.up = true)
    (hmem : (c, cls, op, body) ∈ [(Instr.matmul id, 1, 1, aeRun), (.partialSum id, 1, 2, aeRun), (.loadRes id, 1, 3, aeRun),
      (.releaseRes id, 1, 4, aeRun), (.elementwise id, 2, 1, ceRun), (.epilogue id, 2, 2, ceRun), (.softmax id, 2, 3, ceRun),
      (.layernorm id, 2, 4, ceRun), (.rmsnorm id, 2, 5, ceRun), (.gate id, 2, 6, ceRun), (.moverMove id, 5, 1, heRun),
      (.gather id, 5, 2, heRun), (.scatter id, 5, 3, heRun), (.window id, 5, 4, heRun), (.tiles id, 5, 5, heRun)]) :
    exec c s = .next (s.runStarted id cls op (classStart cls) body)
      ∧ ((cls = 1 ∧ body = aeRun) ∨ (cls = 2 ∧ body = ceRun) ∨ (cls = 5 ∧ body = heRun)) := by
  have hlive : live s (fun s => s.runStarted id cls op (classStart cls) body) = .next (s.runStarted id cls op (classStart cls) body) := live_up hu
  rw [← hlive]
  simp only [List.mem_cons, List.not_mem_nil, or_false, Prod.mk.injEq] at hmem
  rcases hmem with h | h | h | h | h | h | h | h | h | h | h | h | h | h | h
  all_goals
    obtain ⟨rfl, rfl, rfl, rfl⟩ := h
    exact ⟨rfl, by simp⟩

theorem classStart_aside (hc : cls = 1 ∨ cls = 2 ∨ cls = 5) {og : State} {w : Work} (h : w.s.aside og false) :
    (classStart cls f w).1.s.aside og false := by
  rcases hc with rfl | rfl | rfl
  · exact aeStart_aside h
  · exact ceStart_aside h
  · exact heStart_aside h

theorem startedBody_aside (hb : body = aeRun ∨ body = ceRun ∨ body = heRun) {og : State} {w : Work} (h : w.s.aside og false) :
    (body f w).s.aside og false := by
  rcases hb with rfl | rfl | rfl
  · exact aeRun_aside h
  · exact ceRun_aside h
  · exact heRun_aside h

end

/-- What an operation that writes no event leaves when it settles. -/
theorem Work.settle_quiet_facts {v : State} {w : Work} {k : Flight} (haside : w.s.aside v false) (hwf : v.memWf) :
    { w.settle k with bed := v.bed, bedPoison := v.bedPoison, hbm := v.hbm, hbmPoison := v.hbmPoison, hbmKey := v.hbmKey,
                      regs := v.regs, free := v.free, flights := v.flights, resident := v.resident, image := v.image,
                      pageMap := v.pageMap, pfx := v.pfx } = v
      ∧ (∀ x, (∀ p ∈ w.wr, p.tier = .bed → x < p.off ∨ p.off + p.data.length ≤ x) →
          memByte zeroByte (w.settle k).bed x = memByte zeroByte v.bed x)
      ∧ (∀ x, (∀ p ∈ w.wr, p.tier = .hbm → x / 64 < p.off / 64 ∨ p.off + p.data.length ≤ x / 64 * 64) →
          memByte zeroByte (w.settle k).hbm x = memByte zeroByte v.hbm x) := by
  have hq := aside_quiet haside
  have hbed : w.s.bed = v.bed := (congrArg State.bed hq :)
  have hhbm : w.s.hbm = v.hbm := (congrArg State.hbm hq :)
  have hw : w.s.memWf := ⟨by rw [hbed]; exact hwf.1, by rw [hhbm]; exact hwf.2⟩
  refine ⟨?_, fun x hx => ?_, fun x hx => ?_⟩
  · obtain ⟨t, n, heq⟩ := Work.settle_frame w k
    rw [heq]
    have hback := congrArg (fun x : State => ({ x with
      bed := v.bed, bedPoison := v.bedPoison, hbm := v.hbm, hbmPoison := v.hbmPoison, hbmKey := v.hbmKey, flights := v.flights } : State)) hq
    exact hback
  · exact (Work.settle_bed k hw (Work.coversBed_none hx)).trans (congrArg (memByte zeroByte · x) hbed)
  · exact (Work.settle_hbm k hw (Work.coversHbm_none hx)).trans (congrArg (memByte zeroByte · x) hhbm)

/-- Settles O27: a descriptor starts by `begin_facts` and settles by `settle_flights` and `settle_quiet_facts`. -/
theorem engineOperationsFrame : Obligations.EngineOperationsFrame := by
  intro s id f hu hcanon hf hp c cls op body hmem hcls hop v
  obtain ⟨hexec, hkind⟩ := exec_startedOp hu hmem
  have hcls' : cls = 1 ∨ cls = 2 ∨ cls = 5 := hkind.imp And.left (Or.imp And.left And.left)
  have hbody : body = aeRun ∨ body = ceRun ∨ body = heRun := hkind.imp And.right (Or.imp And.right And.right)
  have hbegun : ∃ k, v.flight id = some k ∧ k.startOf f ∧ (f.started = true → k = f) ∧ (∀ j, j ≠ id → v.flight j = s.flight j) ∧ Begun v s := by
    by_cases hst : f.started = true
    · have hv : v = s := if_pos hst
      rw [hv]
      exact ⟨f, hf, ⟨hst, rfl, rfl, rfl, rfl, rfl⟩, fun _ => rfl, fun _ _ => rfl, rfl⟩
    · have hv : v = s.begin f (classStart cls) := if_neg hst
      obtain ⟨k, hk, hkf, hothers, hframe⟩ := State.begin_facts (s := s) (start := classStart cls) (fun w => classStart_aside hcls') hf
      rw [hv]
      exact ⟨k, hk, hkf, fun h => absurd h hst, hothers, hframe⟩
  obtain ⟨k, hk, ⟨hstarted, hdesc, htenant, hqueue, hunit, -⟩, hsame, hothers, hframe⟩ := hbegun
  have hrun := State.runStarted_eq (body := body) hf hp hcls hop rfl hk
  refine ⟨k, hk, hstarted, hdesc, htenant, hqueue, hunit, hsame, fun hno => ⟨?_, hothers, hframe⟩, fun hdisp hrecs => ?_⟩
  · rw [hexec, hrun, if_neg]
    rintro ⟨h1, h2⟩
    exact hno.elim (fun h => h h1) fun h => Bool.false_ne_true (h.symm.trans h2)
  · have hbed : v.bed = s.bed := (congrArg State.bed hframe :)
    have hhbm : v.hbm = s.hbm := (congrArg State.hbm hframe :)
    have hwf : v.memWf := by
      obtain ⟨h1, h2⟩ := State.canon_memWf hcanon
      exact ⟨by rw [hbed]; exact h1, by rw [hhbm]; exact h2⟩
    have haside : (body k (Work.start v k.tenant k.strict)).s.aside v false := startedBody_aside hbody (aside_self v false)
    obtain ⟨hrest, hbeds, hhbms⟩ := Work.settle_quiet_facts (k := k) haside hwf
    obtain ⟨hown, hall⟩ := Work.settle_flights (congrArg State.flights (aside_quiet haside) :) hk
    refine ⟨(body k (Work.start v k.tenant k.strict)).settle k, (body k (Work.start v k.tenant k.strict)).flightOf k, ?_, hown,
      Work.flightOf_phase _ k, hdesc, htenant, hqueue, hunit, fun j hj => (hall j hj).trans (hothers j hj), ?_, fun x hx => ?_, fun x hx => ?_⟩
    · rw [hexec, hrun, if_pos ⟨hdisp, hrecs⟩]
    · have hback := congrArg (fun x : State => ({ x with
        regs := s.regs, free := s.free, flights := s.flights, resident := s.resident, image := s.image, pageMap := s.pageMap, pfx := s.pfx
        bed := s.bed, bedPoison := s.bedPoison, hbm := s.hbm, hbmPoison := s.hbmPoison, hbmKey := s.hbmKey } : State)) hrest
      have hbase := congrArg (fun x : State => ({ x with
        bed := s.bed, bedPoison := s.bedPoison, hbm := s.hbm, hbmPoison := s.hbmPoison, hbmKey := s.hbmKey } : State)) hframe
      exact hback.trans hbase
    · rw [hbeds x hx, hbed]
    · rw [hhbms x hx, hhbm]

/-! Attention and scan engines: an operation runs at once. -/

/-- What an operation that may write an event leaves when it settles. -/
theorem Work.settle_event_facts {s : State} {w : Work} {k : Flight} (haside : w.s.aside s true) (hwf : w.s.memWf) :
    { w.settle k with bed := s.bed, bedPoison := s.bedPoison, hbm := s.hbm, hbmPoison := s.hbmPoison, hbmKey := s.hbmKey,
                      regs := s.regs, free := s.free, flights := s.flights, resident := s.resident, image := s.image,
                      pageMap := s.pageMap, pfx := s.pfx, ring := s.ring, pcie := s.pcie } = s
      ∧ ∀ x, (∀ p ∈ w.wr, p.tier = .bed → x < p.off ∨ p.off + p.data.length ≤ x) →
          memByte zeroByte (w.settle k).bed x = memByte zeroByte s.bed x := by
  have hrest := haside.2
  have hbed : w.s.bed = s.bed := (congrArg State.bed hrest :)
  refine ⟨?_, fun x hx => ?_⟩
  · obtain ⟨t, n, heq⟩ := Work.settle_frame w k
    rw [heq]
    have hback := congrArg (fun x : State => ({ x with bed := s.bed, bedPoison := s.bedPoison, flights := s.flights } : State)) hrest
    exact hback
  · exact (Work.settle_bed k hwf (Work.coversBed_none hx)).trans (congrArg (memByte zeroByte · x) hbed)

section
variable {s : State} {c : Instr} {id cls op : Nat} {f : Flight} {body : Flight → Work → Work}

/-- The eight operations of the attention and scan engines run through `runFlight`, by class and body. -/
theorem exec_runOp (hu : s.up = true)
    (hmem : (c, cls, op, body) ∈ [(Instr.attend id, 3, 1, veRun), (.poolGive id, 3, 2, veRun), (.poolReclaim id, 3, 3, veRun),
      (.chainFree id, 3, 4, veRun), (.prefixMatch id, 3, 5, veRun), (.prefixPublish id, 3, 6, veRun),
      (.prefixDrop id, 3, 7, veRun), (.scan id, 4, 1, leRun)]) :
    exec c s = .next (s.runFlight id cls op (fun _ => true) body)
      ∧ ((cls = 3 ∧ body = veRun ∧ (op = 1 → c = .attend id)) ∨ (cls = 4 ∧ body = leRun ∧ c ≠ .attend id)) := by
  have hlive : live s (fun s => s.runFlight id cls op (fun _ => true) body) = .next (s.runFlight id cls op (fun _ => true) body) := live_up hu
  rw [← hlive]
  simp only [List.mem_cons, List.not_mem_nil, or_false, Prod.mk.injEq] at hmem
  rcases hmem with h | h | h | h | h | h | h | h
  all_goals
    obtain ⟨rfl, rfl, rfl, rfl⟩ := h
    exact ⟨rfl, by simp⟩

/-- An attention operation that is neither tangled nor an ATTEND, and every scan, writes no event. -/
theorem runOp_quiet (hkind : (cls = 3 ∧ body = veRun ∧ (op = 1 → c = .attend id)) ∨ (cls = 4 ∧ body = leRun ∧ c ≠ .attend id))
    (hop : dOp f.desc = op) (hc : c ≠ .attend id)
    (ht : cls = 3 → f.tangled = false ∧ ((((Work.start s f.tenant f.strict).veParams f.desc).1.s).tangle f).1 = []) :
    (body f (Work.start s f.tenant f.strict)).s.aside s false := by
  rcases hkind with ⟨hcls, rfl, hattend⟩ | ⟨-, rfl, -⟩
  · exact veRun_aside (aside_self s false) (fun h1 => absurd (hattend (hop.symm.trans h1)) hc) (ht hcls)
  · exact leRun_aside (aside_self s false)

/-- An attention operation keeps both memories in canonical form while it runs. -/
theorem veRun_memWf (h : s.canon = true) : (veRun f (Work.start s f.tenant f.strict)).s.memWf :=
  State.canon_memWf (canon_of_kept (veRun_kept (kept_self h)))

end

/-- Settles O28: `exec_runOp` for completion; ATTEND by `settle_event_facts`, the others by `settle_quiet_facts`. -/
theorem attentionAndScanFrame : Obligations.AttentionAndScanFrame := by
  intro s id f hu hcanon hf hp c cls op body hmem hcls hop
  obtain ⟨hexec, hkind⟩ := exec_runOp hu hmem
  refine ⟨⟨_, hexec⟩, fun ht => ?_⟩
  have hrun : exec c s = .next ((body f (Work.start s f.tenant f.strict)).settle f) := by
    rw [hexec, State.runFlight_ready hf hp hcls hop rfl]
  by_cases hc : c = .attend id
  · rcases hkind with ⟨hcls3, rfl, -⟩ | ⟨-, -, hne⟩
    · have haside : (veRun f (Work.start s f.tenant f.strict)).s.aside s true := veRun_aside (aside_self s true) (fun _ => rfl) (ht hcls3)
      obtain ⟨hrest, hbeds⟩ := Work.settle_event_facts (k := f) haside (veRun_memWf hcanon)
      obtain ⟨hown, hothers⟩ := Work.settle_flights (congrArg State.flights haside.2 :) hf
      exact ⟨_, _, hrun, hown, Work.flightOf_phase _ f, rfl, rfl, rfl, rfl, hothers, hrest, hbeds, fun hn => absurd hc hn⟩
    · exact absurd hc hne
  · have haside := runOp_quiet hkind hop hc ht
    obtain ⟨hrest, hbeds, hhbms⟩ := Work.settle_quiet_facts (k := f) haside (State.canon_memWf hcanon)
    obtain ⟨hown, hothers⟩ := Work.settle_flights (congrArg State.flights (aside_quiet haside) :) hf
    refine ⟨_, _, hrun, hown, Work.flightOf_phase _ f, rfl, rfl, rfl, rfl, hothers, ?_, hbeds,
      fun _ => ⟨(congrArg State.ring hrest :), (congrArg State.pcie hrest :), hhbms⟩⟩
    have hback := congrArg (fun x : State => ({ x with ring := s.ring, pcie := s.pcie } : State)) hrest
    exact hback

end Sys2Proof.Machine

namespace Sys2Proof.Machine

/-! ### Firmware: ready, loaded, verified and started (R361, R363 to R366, R370) -/

/-! The shape of an image, and the order of the checks of R366. -/

theorem imageShape_iff {b : Bytes} {len : Nat} : imageShape b len = true ↔
    512 ≤ b.length ∧ pfield b 0 4 = 0x4E504C4D ∧ pfield b 4 2 = 1 ∧ pfield b 6 2 = 0x200 ∧ 0x200 + pfield b 0x18 8 = len
      ∧ len ≤ 0x1000000 ∧ imageZeros b = true := by
  unfold imageShape
  simp only [Bool.and_eq_true, decide_eq_true_eq, and_assoc]

section
variable {b : Bytes} {len minSvn : Nat}

/-- The key in the image is the fused one. -/
def imageKeyed (b : Bytes) : Prop := BitVec.ofNat 384 (beNat (sha384 ((b.drop 0x40).take 96))) = Config.releaseKeyDigest

/-- The signature of the image verifies under the key it carries. -/
def imageSigned (b : Bytes) (len : Nat) : Prop :=
  ecdsaVerify ((b.drop 0x40).take 96) ((b.drop 0xA0).take 96) (sha384 (b.take 0xA0 ++ (b.drop 0x200).take (len - 0x200))) = true

theorem imageCheck_shape (hs : ¬ imageShape b len = true) : imageCheck b len minSvn = 1 :=
  if_pos (by rw [Bool.eq_false_iff.2 hs]; rfl)

/-- An image of the right shape: the key, the version and the signature decide. -/
theorem imageCheck_shaped (hs : imageShape b len = true) : imageCheck b len minSvn
    = if BitVec.ofNat 384 (beNat (sha384 ((b.drop 0x40).take 96))) ≠ Config.releaseKeyDigest then 2
      else if pfield b 0x10 4 < minSvn then 3
      else if (!ecdsaVerify ((b.drop 0x40).take 96) ((b.drop 0xA0).take 96)
        (sha384 (b.take 0xA0 ++ (b.drop 0x200).take (len - 0x200)))) = true then 4 else 0 :=
  if_neg (by rw [hs]; exact Bool.false_ne_true)

theorem imageCheck_key (hs : imageShape b len = true) (hk : ¬ imageKeyed b) : imageCheck b len minSvn = 2 :=
  (imageCheck_shaped hs).trans (if_pos hk)

theorem imageCheck_version (hs : imageShape b len = true) (hk : imageKeyed b) (hv : pfield b 0x10 4 < minSvn) : imageCheck b len minSvn = 3 :=
  (imageCheck_shaped hs).trans ((if_neg (not_not_intro hk)).trans (if_pos hv))

/-- Past the version the signature alone is left. -/
theorem imageCheck_signature (hs : imageShape b len = true) (hk : imageKeyed b) (hv : minSvn ≤ pfield b 0x10 4) :
    (¬ imageSigned b len → imageCheck b len minSvn = 4) ∧ (imageSigned b len → imageCheck b len minSvn = 0) := by
  have hlast := (imageCheck_shaped (minSvn := minSvn) hs).trans ((if_neg (not_not_intro hk)).trans (if_neg (Nat.not_lt.2 hv)))
  refine ⟨fun hu => hlast.trans (if_pos ?_), fun hg => hlast.trans (if_neg ?_)⟩
  · rw [Bool.eq_false_iff.2 hu]; rfl
  · rw [show ecdsaVerify _ _ _ = true from hg]; exact Bool.false_ne_true

end

/-! FIRMWARE_READY and FW_LOAD. -/

section
variable {s : State}

/-- Everything FIRMWARE_READY waits for (R361, R375). -/
def State.firmwareMay (s : State) : Prop :=
  s.field CMD_FW_STAT 3 0 = 0 ∧ s.fw.booted = true ∧ s.hbmReady = true ∧ s.pcie.cfgReady = true ∧ (∀ ch, ch < 16 → s.nandTrained ch = true)
    ∧ ∀ t, t < 16 → s.slot t = 0

/-- The test of FIRMWARE_READY in the model is that condition. -/
theorem State.firmwareMay_iff : (s.fwState = 0 ∧ (s.fw.booted && s.hbmReady && (List.range 16).all s.nandTrained && s.pcie.cfgReady) = true
      ∧ ((List.range 16).all fun t => decide (s.slot t = 0)) = true) ↔ s.firmwareMay := by
  unfold State.firmwareMay State.fwState
  simp only [Bool.and_eq_true, List.all_eq_true, List.mem_range, decide_eq_true_eq]
  constructor
  · rintro ⟨hst, ⟨⟨⟨hboot, hhbm⟩, hnand⟩, hcfg⟩, hgone⟩
    exact ⟨hst, hboot, hhbm, hcfg, hnand, hgone⟩
  · rintro ⟨hst, hboot, hhbm, hcfg, hnand, hgone⟩
    exact ⟨hst, ⟨⟨⟨hboot, hhbm⟩, hnand⟩, hcfg⟩, hgone⟩

theorem execFirmwareReady_may (hu : s.up = true) (h : s.firmwareMay) : execFirmwareReady s = .next (s.setField CMD_FW_STAT 3 0 1) :=
  (live_up hu).trans (congrArg _ (if_pos (State.firmwareMay_iff.2 h)))

theorem execFirmwareReady_not (hu : s.up = true) (h : ¬ s.firmwareMay) : execFirmwareReady s = .next s :=
  (live_up hu).trans (congrArg _ (if_neg fun k => h (State.firmwareMay_iff.1 k)))

theorem execFwLoad_other (hu : s.up = true) (h : ∀ p, ¬ FwTurn s 0 p) : execFwLoad s = .next s :=
  (live_up hu).trans (congrArg _ (State.onFwCtl_other h))

/-- Verification of a load has begun (R364). -/
def State.loadBegun (s : State) : State :=
  let u := ((s.setField CMD_FW_STAT 3 0 2).setField CMD_FW_STAT 7 4 0).setBit (QN_RGN 259) 1 true
  { u with fw := { u.fw with verify := some false } }

/-- At the turn of bit 0 the load begins in states 1 and 6, and the higher bits are left to act after it (assumption 50). -/
theorem execFwLoad_turn {p : Posted} (hu : s.up = true) (h : FwTurn s 0 p) :
    let v := if s.field CMD_FW_STAT 3 0 = 1 ∨ s.field CMD_FW_STAT 3 0 = 6 then s.loadBegun else s
    execFwLoad s = .next (if p.val.toNat % 16 = 1 then v.popDone 16 else v.setFront 16 (p.val.toNat % 16 - 1)) := by
  intro v
  have hlow : p.val.toNat % 2 = 1 := by
    obtain ⟨-, -, -, hset⟩ := h
    have hbit : p.val.toNat.testBit 0 = true := hset
    rw [Nat.testBit_zero] at hbit
    exact of_decide_eq_true hbit
  have hlast : p.val.toNat % 16 - 2 ^ 0 = 0 ↔ p.val.toNat % 16 = 1 := by omega
  refine (live_up hu).trans (congrArg _ ((State.onFwCtl_turn h).trans ?_))
  by_cases hone : p.val.toNat % 16 = 1
  · exact (if_pos (hlast.2 hone)).trans (if_pos hone).symm
  · exact (if_neg (mt hlast.1 hone)).trans (if_neg hone).symm

/-! FW_VERIFY_DONE. -/

/-- The code of the staged image's verification, its length read as the verification ends (R366, assumption 95). -/
def State.stagedCode (s : State) : Nat := imageCheck s.staged (s.field CMD_FW_LEN 24 0) (s.regN QN_MIN_SVN)

/-- Verification has ended: the staging area is non-secure again. -/
def State.verified (s : State) : State :=
  { (s.touch .hbm).setBit (QN_RGN 259) 1 false with fw := { s.fw with verify := none } }

theorem execFwVerifyDone_none (hu : s.up = true) (hv : s.fw.verify = none) : execFwVerifyDone s = .next s := by
  refine (live_up hu).trans ?_
  dsimp only
  rw [hv]

theorem execFwVerifyDone_load (hu : s.up = true) (hv : s.fw.verify = some false) : execFwVerifyDone s
    = .next (if s.stagedCode ≠ 0 then (s.verified.setErr s.stagedCode).setFw 6
        else { s.verified.setFw 3 with fw := { s.verified.fw with cand := some (ImgHdr.of s.staged) } }) := by
  refine (live_up hu).trans ?_
  dsimp only
  rw [hv]
  rfl

theorem execFwVerifyDone_update (hu : s.up = true) (hv : s.fw.verify = some true) : execFwVerifyDone s
    = .next (if s.stagedCode ≠ 0 then (s.verified.setErr s.stagedCode).updEnds 7
        else if (ImgHdr.of s.staged).ifver.toNat ≠ s.verified.regN CMD_IFVER then (s.verified.setErr 5).updEnds 5
        else s.verified.updWait (ImgHdr.of s.staged)) := by
  refine (live_up hu).trans ?_
  dsimp only
  rw [hv]
  rfl

/-! MELEOPIN_START: what each step of R363 leaves. -/

/-- A trough is off once it is disabled, and stays off whichever is disabled next. -/
theorem State.trOn_disable {m n : Nat} (hw : smapWf resetOf s.regs = true) (h : m = n ∨ s.trOn n = false) :
    (s.setBit (BED_TR_CFG m) 0 false).trOn n = false := by
  by_cases ha : BED_TR_CFG n = BED_TR_CFG m
  · unfold State.trOn
    rw [ha]
    exact State.regBit_setBit_same _ _ _ hw (by decide)
  · have hoff : s.trOn n = false := h.resolve_left fun e => ha (e ▸ rfl)
    exact (State.regBit_setBit_elsewhere _ _ _ hw ha).trans hoff

theorem trOn_disableAll {n : Nat} (l : List Nat) : ∀ {s : State}, smapWf resetOf s.regs = true → n ∈ l ∨ s.trOn n = false →
    (l.foldl (fun (s : State) m => s.setBit (BED_TR_CFG m) 0 false) s).trOn n = false := by
  induction l with
  | nil => exact fun _ h => h.resolve_left List.not_mem_nil
  | cons m l ih =>
    intro s hw h
    refine ih (State.setBit_wf _ _ _ hw) ?_
    rcases h with hmem | hoff
    · rcases List.mem_cons.1 hmem with rfl | hmem
      · exact .inr (State.trOn_disable hw (.inl rfl))
      · exact .inl hmem
    · exact .inr (State.trOn_disable hw (.inr hoff))

/-- Every trough is disabled (R363 step 5). -/
def State.troughsOff (s : State) : State := (List.range 256).foldl (fun (s : State) n => s.setBit (BED_TR_CFG n) 0 false) s

theorem State.marksClear_eq : s.marksClear = { s.troughsOff with marks := [] } := by
  unfold State.marksClear State.troughsOff
  rfl

theorem State.marksClear_regs : s.marksClear.regs = s.troughsOff.regs := by rw [State.marksClear_eq]

theorem State.marksClear_trOn {n : Nat} (hw : smapWf resetOf s.regs = true) (hn : n < 256) : s.marksClear.trOn n = false := by
  have hoff : s.troughsOff.trOn n = false := trOn_disableAll (List.range 256) hw (.inl (List.mem_range.2 hn))
  exact (regBit_of (reg_of State.marksClear_regs _)).trans hoff

theorem State.marksClear_wf (hw : smapWf resetOf s.regs = true) : smapWf resetOf s.marksClear.regs = true := by
  rw [State.marksClear_regs]
  exact foldl_keeps (P := fun t : State => smapWf resetOf t.regs = true) hw fun _ _ _ h => State.setBit_wf _ _ _ h

/-- Disabling troughs and clearing marks leaves the Page Map alone. -/
theorem State.marksClear_pageMap : s.marksClear.pageMap = s.pageMap := by
  have hkept : s.troughsOff.pageMap = s.pageMap := foldl_keeps (P := fun t : State => t.pageMap = s.pageMap) rfl fun _ _ _ h => h
  rw [State.marksClear_eq]
  dsimp only
  exact hkept

theorem State.marksClear_mark (m : Nat) : s.marksClear.mark m = 0 := by
  rw [State.marksClear_eq]
  rfl

theorem State.pagesClear_pageMap : s.pagesClear.pageMap = [] := by unfold State.pagesClear; rfl

/-- The trough table is no emulated register. -/
theorem shadowReg_BED_TR_CFG : ∀ n : Fin 256, shadowReg (BED_TR_CFG n) = false := by decide +kernel

theorem State.shadowsReset_pageMap : s.shadowsReset.pageMap = s.pageMap := rfl

theorem State.shadowsReset_jq : s.shadowsReset.jq = [] := rfl

theorem State.shadowsReset_mark (m : Nat) : s.shadowsReset.mark m = s.mark m := rfl

theorem State.shadowsReset_wf (hw : smapWf resetOf s.regs = true) : smapWf resetOf s.shadowsReset.regs = true := State.resetRegs_wf hw

theorem State.shadowsReset_trOn {n : Nat} (hw : smapWf resetOf s.regs = true) (hn : n < 256) : s.shadowsReset.trOn n = s.trOn n :=
  regBit_of ((State.reg_resetRegs hw).trans (if_neg (Bool.eq_false_iff.1 (shadowReg_BED_TR_CFG ⟨n, hn⟩))))

/-- Naming the survivor area writes its register alone. -/
theorem State.survivorNamed_writes (hw : smapWf resetOf s.regs = true) : Writes (fun a => a = CMD_SURV_ADDR) s s.survivorNamed := by
  unfold State.survivorNamed
  split
  · exact (Writes.refl hw).set _ _ rfl
  · exact .refl hw

/-- The state of the firmware as it begins to run an image. -/
def State.begun (s : State) (h : ImgHdr) : State := ((s.runs h).setRegN CMD_IFVER h.ifver.toNat).setFw 4

theorem State.runs_wf {h : ImgHdr} (hw : smapWf resetOf s.regs = true) : smapWf resetOf (s.runs h).regs = true := State.setRegN_wf _ _ hw

theorem State.begun_wf {h : ImgHdr} (hw : smapWf resetOf s.regs = true) : smapWf resetOf (s.begun h).regs = true :=
  State.setField_wf _ _ _ _ (State.setRegN_wf _ _ (State.runs_wf hw))

/-- Registers apart from CMD_SURV_ADDR are those the firmware begins with. -/
theorem State.running_reg {h : ImgHdr} {a : Nat} (hw : smapWf resetOf s.regs = true) (ha : a ≠ CMD_SURV_ADDR) :
    (s.running h).reg a = (s.begun h).reg a :=
  (State.survivorNamed_writes (State.begun_wf hw)).2.1 a ha

theorem State.running_state {h : ImgHdr} (hw : smapWf resetOf s.regs = true) : (s.running h).field CMD_FW_STAT 3 0 = 4 :=
  (field_of (State.running_reg hw (by decide))).trans
    (State.field_setField_same _ _ _ _ (State.setRegN_wf _ _ (State.runs_wf hw)) (by decide) (by decide))

theorem State.running_ifver {h : ImgHdr} (hw : smapWf resetOf s.regs = true) : (s.running h).regN CMD_IFVER = h.ifver.toNat :=
  calc (s.running h).regN CMD_IFVER = (s.begun h).regN CMD_IFVER := regN_of (State.running_reg hw (by decide))
    _ = ((s.runs h).setRegN CMD_IFVER h.ifver.toNat).regN CMD_IFVER :=
        regN_of (State.reg_setField_other _ _ _ (State.setRegN_wf _ _ (State.runs_wf hw)) (by decide))
    _ = h.ifver.toNat % 2 ^ 64 := State.regN_setRegN_same _ _ (State.runs_wf hw)
    _ = h.ifver.toNat := by omega

theorem State.running_imgver {h : ImgHdr} (hw : smapWf resetOf s.regs = true) : (s.running h).regN CMD_FW_IMGVER = h.imgver.toNat :=
  calc (s.running h).regN CMD_FW_IMGVER = (s.begun h).regN CMD_FW_IMGVER := regN_of (State.running_reg hw (by decide))
    _ = ((s.runs h).setRegN CMD_IFVER h.ifver.toNat).regN CMD_FW_IMGVER :=
        regN_of (State.reg_setField_other _ _ _ (State.setRegN_wf _ _ (State.runs_wf hw)) (by decide))
    _ = (s.runs h).regN CMD_FW_IMGVER := State.regN_setRegN_other _ (State.runs_wf hw) (by decide)
    _ = h.imgver.toNat % 2 ^ 64 := State.regN_setRegN_same _ _ hw
    _ = h.imgver.toNat := by omega

/-- Beside registers, a start changes the firmware's own state and the library version. -/
theorem State.running_frame {h : ImgHdr} (hw : smapWf resetOf s.regs = true) :
    s.running h = { s with
      regs := (s.running h).regs
      libVer := some (BitVec.ofNat 16 (Config.libVersion h.imgver.toNat))
      fw := { s.fw with running := some h, cand := none, hbSeen := false, missed := 0 } } := by
  obtain ⟨-, -, hrest⟩ := State.survivorNamed_writes (State.begun_wf (h := h) hw)
  exact congrArg (fun t : State => ({ t with fw := { t.fw with hbSeen := false, missed := 0 } } : State)) hrest

theorem State.running_fw {h : ImgHdr} (hw : smapWf resetOf s.regs = true) :
    (s.running h).fw = { s.fw with running := some h, cand := none, hbSeen := false, missed := 0 } :=
  (congrArg State.fw (State.running_frame (h := h) hw) :)

theorem State.running_pageMap {h : ImgHdr} (hw : smapWf resetOf s.regs = true) : (s.running h).pageMap = s.pageMap :=
  (congrArg State.pageMap (State.running_frame (h := h) hw) :)

theorem State.running_jq {h : ImgHdr} (hw : smapWf resetOf s.regs = true) : (s.running h).jq = s.jq :=
  (congrArg State.jq (State.running_frame (h := h) hw) :)

theorem State.running_mark {h : ImgHdr} (hw : smapWf resetOf s.regs = true) (m : Nat) : (s.running h).mark m = s.mark m :=
  (congrArg (fun t : State => t.mark m) (State.running_frame (h := h) hw) :)

theorem State.running_trOn {h : ImgHdr} {n : Nat} (hw : smapWf resetOf s.regs = true) (hn : n < 256) : (s.running h).trOn n = s.trOn n := by
  have hapart : ∀ m : Fin 256, BED_TR_CFG m ∉ [CMD_SURV_ADDR, CMD_FW_STAT, CMD_IFVER, CMD_FW_IMGVER] := by decide +kernel
  have hne := hapart ⟨n, hn⟩
  simp only [List.mem_cons, List.not_mem_nil, or_false, not_or] at hne
  obtain ⟨hsurv, hstat, hifver, himgver⟩ := hne
  refine regBit_of ?_
  calc (s.running h).reg (BED_TR_CFG n) = (s.begun h).reg (BED_TR_CFG n) := State.running_reg hw hsurv
    _ = ((s.runs h).setRegN CMD_IFVER h.ifver.toNat).reg (BED_TR_CFG n) :=
        State.reg_setField_other _ _ _ (State.setRegN_wf _ _ (State.runs_wf hw)) hstat
    _ = (s.runs h).reg (BED_TR_CFG n) := State.reg_setReg_other _ (State.runs_wf hw) hifver
    _ = s.reg (BED_TR_CFG n) := State.reg_setReg_other _ hw himgver

theorem State.cfgReport_quiet (h : s.field QN_CFG_STAT 1 0 = 0) : s.cfgReport = s := if_pos h

theorem execMeleopinStart_idle (hu : s.up = true) (h : s.fw.cand = none ∨ s.field CMD_FW_STAT 3 0 ≠ 3) : execMeleopinStart s = .next s := by
  refine (live_up hu).trans (congrArg _ ?_)
  cases hc : s.fw.cand with
  | none => rfl
  | some hdr => exact if_neg (h.resolve_left (by rw [hc]; exact Option.some_ne_none _))

theorem execMeleopinStart_starts {h : ImgHdr} (hu : s.up = true) (hc : s.fw.cand = some h) (h3 : s.field CMD_FW_STAT 3 0 = 3) :
    execMeleopinStart s = .next (s.unitsUp.islandsUp.pagesClear.marksClear.shadowsReset.running h).cfgReport := by
  refine (live_up hu).trans (congrArg _ ?_)
  rw [hc]
  exact if_pos h3

/-- Units, islands and pages are brought up in canonical form. -/
theorem State.pagesClear_wf (h : s.canon = true) : smapWf resetOf s.unitsUp.islandsUp.pagesClear.regs = true :=
  kept_regs (State.pagesClear_kept (State.islandsUp_kept (State.unitsUp_kept (kept_self h))))

end

/-- What the start leaves once the marks, the troughs and the emulated registers are cleared. -/
theorem State.started_facts (s : State) (h : ImgHdr) (hw : smapWf resetOf s.pagesClear.regs = true) :
    let v := s.pagesClear.marksClear.shadowsReset.running h
    v.field CMD_FW_STAT 3 0 = 4 ∧ v.regN CMD_IFVER = h.ifver.toNat ∧ v.regN CMD_FW_IMGVER = h.imgver.toNat
      ∧ v.fw.running = some h ∧ v.fw.cand = none ∧ v.fw.hbSeen = false ∧ v.fw.missed = 0
      ∧ (∀ m, v.mark m = 0) ∧ (∀ n, n < 256 → v.trOn n = false) ∧ v.pageMap = [] ∧ v.jq = [] := by
  intro v
  have hmarks := State.marksClear_wf hw
  have hshadow := State.shadowsReset_wf hmarks
  have hfw := State.running_fw (h := h) hshadow
  refine ⟨State.running_state hshadow, State.running_ifver hshadow, State.running_imgver hshadow, congrArg Fw.running hfw,
    congrArg Fw.cand hfw, congrArg Fw.hbSeen hfw, congrArg Fw.missed hfw, fun m => ?_, fun n hn => ?_, ?_,
    (State.running_jq hshadow).trans State.shadowsReset_jq⟩
  · calc v.mark m = s.pagesClear.marksClear.shadowsReset.mark m := State.running_mark hshadow m
      _ = s.pagesClear.marksClear.mark m := State.shadowsReset_mark m
      _ = 0 := State.marksClear_mark m
  · calc v.trOn n = s.pagesClear.marksClear.shadowsReset.trOn n := State.running_trOn hshadow hn
      _ = s.pagesClear.marksClear.trOn n := State.shadowsReset_trOn hmarks hn
      _ = false := State.marksClear_trOn hw hn
  · calc v.pageMap = s.pagesClear.marksClear.shadowsReset.pageMap := State.running_pageMap hshadow
      _ = s.pagesClear.marksClear.pageMap := State.shadowsReset_pageMap
      _ = s.pagesClear.pageMap := State.marksClear_pageMap
      _ = [] := State.pagesClear_pageMap

/-- Settles O49: each command by its own lemmas, the start by `started_facts`, the codes by the `imageCheck` lemmas in R366's order. -/
theorem firmwareLoadsAndStarts : Obligations.FirmwareLoadsAndStarts := by
  unfold Obligations.FirmwareLoadsAndStarts
  refine ⟨fun s hu => ?_, fun b len minSvn => ?_⟩
  · refine ⟨⟨execFirmwareReady_may hu, execFirmwareReady_not hu⟩, execFwLoad_other hu, fun p hp => execFwLoad_turn hu hp,
      execFwVerifyDone_none hu, ⟨fun hv => ?_, fun hv => ?_⟩, execMeleopinStart_idle hu, fun h hc h3 hcanon => ?_⟩
    · have hload := execFwVerifyDone_load hu hv
      exact ⟨fun hbad => hload.trans (congrArg _ (if_pos hbad)), fun hok => hload.trans (congrArg _ (if_neg (not_not_intro hok)))⟩
    · have hupd := execFwVerifyDone_update hu hv
      refine ⟨fun hbad => hupd.trans (congrArg _ (if_pos hbad)), fun hok hne => ?_, fun hok heq => ?_⟩
      · exact hupd.trans (congrArg _ ((if_neg (not_not_intro hok)).trans (if_pos hne)))
      · exact hupd.trans (congrArg _ ((if_neg (not_not_intro hok)).trans (if_neg (not_not_intro heq))))
    · exact ⟨execMeleopinStart_starts hu hc h3, State.cfgReport_quiet, State.started_facts s.unitsUp.islandsUp h (State.pagesClear_wf hcanon)⟩
  · rw [← imageShape_iff]
    exact ⟨imageCheck_shape, imageCheck_key, imageCheck_version, fun hs hk hv => (imageCheck_signature hs hk hv).1,
      fun hs hk hv => (imageCheck_signature hs hk hv).2⟩

end Sys2Proof.Machine

namespace Sys2Proof.Machine

/-! ### Tier moves and frees of Quarry: MOVE, FREE and their ends (R219, R251, R253, R254, R256, R260, R262) -/

/-! What a move checks, and what its start leaves (R254 steps 1 to 5). -/

/-- Whether a tensor may not go to a tier: no NAND_OK for NAND, no reserved range for the others. -/
def Tensor.moveBarred (x : Tensor) (tier : Nat) : Prop := if tier = 3 then x.nandOk = false else x.off (decide (tier = 1)) = none

/-- Whether the destination charge of a tensor fits (R262), in a NAND tier that can be written. -/
def State.moveFits (s : State) (x : Tensor) (tier : Nat) : Prop :=
  if tier = 3 then s.nandRo = false ∧ s.nandQuotaOk x.tenant (units64 x.bytes) = true
  else s.usage x.tenant (decide (tier = 1)) + granCharge (x.gran (decide (tier = 1)))
    ≤ s.regN (if decide (tier = 1) then QC_QBED x.tenant else QC_QHBM x.tenant)

/-- The destination entries of a move wait in it; its source is read-only and its tensor moves. -/
def State.moveBegun (v : State) (i tier : Nat) (x : Tensor) (by_ : MoveBy) (es : List XEntry) : State :=
  { v.setTensor i { x with moving := true } with
    xlat := v.xlat.map fun (e : XEntry) => if e.src = some i then { e with ro := true } else e
    moves := v.moves ++ [{ idx := i, tier := tier, by_ := by_, ents := es }] }

theorem Tensor.moveBarred_iff {x : Tensor} {tier : Nat} :
    (if tier = 3 then !x.nandOk else (x.off (decide (tier = 1))).isNone) = true ↔ x.moveBarred tier := by
  unfold Tensor.moveBarred
  by_cases ht : tier = 3
  · rw [if_pos ht, if_pos ht, Bool.not_eq_true']
  · rw [if_neg ht, if_neg ht, Option.isNone_iff_eq_none]

theorem State.moveFits_iff {s : State} {x : Tensor} {tier : Nat} :
    (if tier = 3 then s.nandRo || !s.nandQuotaOk x.tenant (units64 x.bytes)
      else !s.quotaOk x.tenant (decide (tier = 1)) (granCharge (x.gran (decide (tier = 1))))) = true ↔ ¬ s.moveFits x tier := by
  unfold State.moveFits State.quotaOk
  by_cases ht : tier = 3
  · rw [if_pos ht, if_pos ht]
    cases s.nandRo <;> simp
  · rw [if_neg ht, if_neg ht, Bool.not_eq_true', decide_eq_false_iff_not]

section
variable {s : State} {i tier : Nat} {by_ : MoveBy}

theorem State.moveStart_home (h : tier = (s.tensor i).home) : s.moveStart i tier by_ = (s, some stOk) := if_pos h

theorem State.moveStart_barred (h : tier ≠ (s.tensor i).home) (hb : (s.tensor i).moveBarred tier) :
    s.moveStart i tier by_ = (s, some stProtection) :=
  (if_neg h).trans (if_pos (Tensor.moveBarred_iff.2 hb))

theorem State.moveStart_over (h : tier ≠ (s.tensor i).home) (hb : ¬ (s.tensor i).moveBarred tier) (hf : ¬ s.moveFits (s.tensor i) tier) :
    s.moveStart i tier by_ = (s, some stQuota) :=
  (if_neg h).trans ((if_neg (mt Tensor.moveBarred_iff.1 hb)).trans (if_pos (State.moveFits_iff.2 hf)))

/-- A move whose destination found its place has begun; in the NAND tier it takes its place only at its end. -/
theorem State.moveStart_begun {v : State} {es : List XEntry} (h : tier ≠ (s.tensor i).home) (hb : ¬ (s.tensor i).moveBarred tier)
    (hf : s.moveFits (s.tensor i) tier)
    (hp : (if tier = 3 then (s, some []) else s.placeGranules (s.tensor i).tenant (decide (tier = 1)) (s.tensor i).ro (some i)
      ((s.tensor i).gran (decide (tier = 1)))) = (v, some es)) :
    s.moveStart i tier by_ = (v.moveBegun i tier (s.tensor i) by_ es, none) := by
  unfold State.moveStart
  dsimp only
  rw [if_neg h, if_neg (mt Tensor.moveBarred_iff.1 hb), if_neg fun ho => State.moveFits_iff.1 ho hf, hp]
  rfl

end

/-! MOVE and FREE take their turn. -/

section
variable {s : State} {id : Nat} {f : Flight}

/-- A descriptor that Quarry ends at once with a status and its DETAIL. -/
def Flight.refused (f : Flight) (c d : Nat) : Flight := { f.endWith c d with issued := true }

/-- A descriptor that Quarry has started and that goes on. -/
def Flight.underway (f : Flight) : Flight := { f with phase := .running, issued := true }

section
variable {op : Nat} {ready : Flight → Bool} {act : Flight → State → State × Option (Nat × Nat)}

theorem quarryStart_refused {u : State} {c d : Nat} (h : QuarryTurn s id f) (ho : dOp f.desc = op) (hready : ready f = true)
    (hact : act f s = (u, some (c, d))) : s.quarryStart id op ready act = u.putFlight (f.refused c d) := by
  rw [start_run h.flight h.phase h.cls ho h.turn hready, hact]
  rfl

theorem quarryStart_underway {u : State} (h : QuarryTurn s id f) (ho : dOp f.desc = op) (hready : ready f = true)
    (hact : act f s = (u, none)) : s.quarryStart id op ready act = u.putFlight f.underway := by
  rw [start_run h.flight h.phase h.cls ho h.turn hready, hact]
  rfl

end

theorem exec_free_unresolved {st : Nat} (h : QuarryTurn s id f) (ho : dOp f.desc = 3)
    (hr : s.resolve f.tenant (Qrr.of f.desc).handle = .error st) :
    exec (.free id) s = .next (s.putFlight (f.refused st (Qrr.of f.desc).handle)) := by
  rw [exec_free, execFree, live_up h.up]
  refine congrArg _ (quarryStart_refused h ho rfl ?_)
  rw [hr]

theorem exec_free_starts {i : Nat} (h : QuarryTurn s id f) (ho : dOp f.desc = 3)
    (hr : s.resolve f.tenant (Qrr.of f.desc).handle = .ok i) : exec (.free id) s = .next (s.putFlight f.underway) := by
  rw [exec_free, execFree, live_up h.up]
  refine congrArg _ (quarryStart_underway h ho rfl ?_)
  rw [hr]

/-- A MOVE whose turn has come, with its tensor free to move and a place for the move. -/
structure MoveTurn (s : State) (id : Nat) (f : Flight) : Prop extends QuarryTurn s id f where
  op : dOp f.desc = 2
  ready : s.moveReady (bits (Qrr.of f.desc).handle 17 0) (Qrr.of f.desc).tier = true

theorem exec_tierMove_unresolved {st : Nat} (h : MoveTurn s id f) (hr : s.resolve f.tenant (Qrr.of f.desc).handle = .error st) :
    exec (.tierMove id) s = .next (s.putFlight (f.refused st (Qrr.of f.desc).handle)) := by
  rw [exec_tierMove, execTierMove, live_up h.up]
  refine congrArg _ (quarryStart_refused h.toQuarryTurn h.op h.ready ?_)
  simp only [hr]

theorem exec_tierMove_refused {i c : Nat} {u : State} (h : MoveTurn s id f) (hr : s.resolve f.tenant (Qrr.of f.desc).handle = .ok i)
    (hm : s.moveStart i (Qrr.of f.desc).tier (.flight id) = (u, some c)) : exec (.tierMove id) s = .next (u.putFlight (f.refused c 0)) := by
  rw [exec_tierMove, execTierMove, live_up h.up]
  refine congrArg _ (quarryStart_refused h.toQuarryTurn h.op h.ready ?_)
  simp only [hr, hm]

theorem exec_tierMove_starts {i : Nat} {u : State} (h : MoveTurn s id f) (hr : s.resolve f.tenant (Qrr.of f.desc).handle = .ok i)
    (hm : s.moveStart i (Qrr.of f.desc).tier (.flight id) = (u, none)) : exec (.tierMove id) s = .next (u.putFlight f.underway) := by
  rw [exec_tierMove, execTierMove, live_up h.up]
  refine congrArg _ (quarryStart_underway h.toQuarryTurn h.op h.ready ?_)
  simp only [hr, hm]

/-! FREE_RELEASE. -/

/-- A FREE of the tensor with index `i` that waits for its release. -/
structure FreeWaits (s : State) (id : Nat) (f : Flight) (i : Nat) : Prop where
  up : s.up = true
  flight : s.flight id = some f
  phase : f.phase = .running
  cls : dClass f.desc = 6
  op : dOp f.desc = 3
  names : bits (Qrr.of f.desc).handle 17 0 = i

theorem exec_freeRelease_waiting {i : Nat} (h : FreeWaits s id f i) : exec (.freeRelease id) s = .next
    (if !(s.pinned i || s.inMove i || s.inBuild i) then ((s.releaseTensor i).putFlight (f.endWith stOk 0)).wakeScans else s) := by
  rw [exec_freeRelease, execFreeRelease, live_up h.up, State.onFlight_some h.flight]
  simp only [h.phase, h.cls, h.op, h.names, true_and]

theorem exec_freeRelease_held {i : Nat} (h : FreeWaits s id f i) (hheld : s.pinned i = true ∨ s.inMove i = true ∨ s.inBuild i = true) :
    exec (.freeRelease id) s = .next s := by
  rw [exec_freeRelease_waiting h, if_neg]
  rcases hheld with hp | hm | hb
  · simp [hp]
  · simp [hm]
  · simp [hb]

theorem exec_freeRelease_free {i : Nat} (h : FreeWaits s id f i) (hp : s.pinned i = false) (hm : s.inMove i = false)
    (hb : s.inBuild i = false) : exec (.freeRelease id) s = .next ((s.releaseTensor i).putFlight (f.endWith stOk 0)).wakeScans := by
  rw [exec_freeRelease_waiting h, if_pos (by simp [hp, hm, hb])]

end

/-! TIER_MOVE_DONE (R254 step 6, R256). -/

/-- The state after the copy of a move has read its source: the NAND's reports heard, its reads counted. -/
def State.moveRead (s : State) (m : Move) (i : Nat) (rep : List NandReport) : State :=
  let heard := if m.tier = 3 ∨ (s.tensor i).home = 3 then s.nandReport rep else s
  if (s.tensor i).home = 3 then heard.nandReads i else heard

/-- Whether a move loses its tensor: its copy was damaged, or it was poisoned before (R256). -/
def State.moveLost (s : State) (m : Move) (i : Nat) (unc : Bool) (rep : List NandReport) : Bool :=
  unc || (decide ((s.tensor i).home = 3) && rep.any fun r => decide (r.uec ≠ 0)) || (s.moveRead m i rep).tensorDamaged i
    || (s.tensor i).poisoned

/-- The read state without the ended move, whose destination entries go with it. -/
def State.moveKept (s : State) (m : Move) (i : Nat) (rep : List NandReport) : State :=
  { s.moveRead m i rep with moves := (s.moveRead m i rep).moves.filter fun n => n.idx != i }

/-- A tensor that stays: no longer moving, its source as writable as before. -/
def State.moveUndone (v : State) (i : Nat) (x : Tensor) : State :=
  { v.setTensor i { x with moving := false } with
    xlat := v.xlat.map fun (e : XEntry) => if e.src = some i then { e with ro := x.ro } else e }

/-- A tensor whose copy is good: its source released, its bytes in the destination (R254 step 6). -/
def State.moveFilled (v : State) (m : Move) (i : Nat) (x : Tensor) : State :=
  let cells := if x.home = 0 then [] else v.tensorCells i
  let gone : State := { v with xlat := v.xlat.filter fun e => e.src != some i }
  let left := if x.home = 3 then gone.nandRelease i else gone
  if m.tier = 3 then
    { (left.nandPlace i x.bytes).count QC_NAND_USER_WR (units64 x.bytes) with
      nandBytes := cells.foldl (fun b c => smapSet zeroByte b (nandKey i c.1) c.2) left.nandBytes }
  else
    { left.fillEnts x.tenant ((x.off (decide (m.tier = 1))).getD 0) m.ents cells with
      xlat := left.xlat ++ m.ents.map fun (e : XEntry) => { e with ro := x.ro } }

/-- A tensor at its new home, the move counted. -/
def State.moveMade (v : State) (m : Move) (i : Nat) (x : Tensor) : State :=
  ((v.moveFilled m i x).setTensor i { x with home := m.tier, moving := false, moves := x.moves + 1 }).count QC_MOVE_CNT 1

section
variable {s : State} {m : Move} {idx : Fin 262144} {unc : Bool} {rep : List NandReport}

theorem State.moveLost_iff {i : Nat} : s.moveLost m i unc rep = true ↔
    (unc = true ∨ (s.tensor i).poisoned = true ∨ (s.moveRead m i rep).tensorDamaged i = true
      ∨ ((s.tensor i).home = 3 ∧ rep.any (fun r => decide (r.uec ≠ 0)) = true)) := by
  unfold State.moveLost
  simp only [Bool.or_eq_true, Bool.and_eq_true, decide_eq_true_eq]
  constructor
  · rintro (((hu | hn) | hd) | hp)
    · exact .inl hu
    · exact .inr (.inr (.inr hn))
    · exact .inr (.inr (.inl hd))
    · exact .inr (.inl hp)
  · rintro (hu | hp | hd | hn)
    · exact .inl (.inl (.inl hu))
    · exact .inr hp
    · exact .inl (.inr hd)
    · exact .inl (.inl (.inr hn))

theorem exec_tierMoveDone_none (hu : s.up = true) (hm : s.moves.find? (fun m => decide (m.idx = idx.val)) = none) :
    exec (.tierMoveDone idx unc rep) s = .next s := by
  rw [exec_tierMoveDone, execTierMoveDone, live_up hu, hm]

theorem exec_tierMoveDone_some (hu : s.up = true) (hm : s.moves.find? (fun m => decide (m.idx = idx.val)) = some m) :
    exec (.tierMoveDone idx unc rep) s = .next (
      if s.moveLost m idx unc rep = true ∨ (m.tier = 3 ∧ (s.moveKept m idx rep).nandRo = true) then
        let back := (s.moveKept m idx rep).moveUndone idx (s.tensor idx)
        if s.moveLost m idx unc rep then
          ((if (s.tensor idx).poisoned then back else back.poisonTensor idx).moveEnd m stShardLost (s.handle idx)).wakeScans
        else (back.moveEnd m stQuota (s.handle idx)).wakeScans
      else (((s.moveKept m idx rep).moveMade m idx (s.tensor idx)).moveEnd m stOk (s.handle idx)).wakeScans) := by
  rw [exec_tierMoveDone, execTierMoveDone, live_up hu, hm]
  rfl

theorem exec_tierMoveDone_lost (hu : s.up = true) (hm : s.moves.find? (fun m => decide (m.idx = idx.val)) = some m)
    (hl : s.moveLost m idx unc rep = true) :
    let back := (s.moveKept m idx rep).moveUndone idx (s.tensor idx)
    exec (.tierMoveDone idx unc rep) s = .next
      (((if (s.tensor idx).poisoned then back else back.poisonTensor idx).moveEnd m stShardLost (s.handle idx)).wakeScans) := by
  rw [exec_tierMoveDone_some hu hm, if_pos (Or.inl hl)]
  exact congrArg _ (if_pos hl)

theorem exec_tierMoveDone_readOnly (hu : s.up = true) (hm : s.moves.find? (fun m => decide (m.idx = idx.val)) = some m)
    (hl : ¬ s.moveLost m idx unc rep = true) (hro : m.tier = 3 ∧ (s.moveKept m idx rep).nandRo = true) :
    exec (.tierMoveDone idx unc rep) s = .next
      ((((s.moveKept m idx rep).moveUndone idx (s.tensor idx)).moveEnd m stQuota (s.handle idx)).wakeScans) := by
  rw [exec_tierMoveDone_some hu hm, if_pos (Or.inr hro)]
  exact congrArg _ (if_neg hl)

theorem exec_tierMoveDone_made (hu : s.up = true) (hm : s.moves.find? (fun m => decide (m.idx = idx.val)) = some m)
    (hl : ¬ s.moveLost m idx unc rep = true) (hro : ¬ (m.tier = 3 ∧ (s.moveKept m idx rep).nandRo = true)) :
    exec (.tierMoveDone idx unc rep) s = .next
      ((((s.moveKept m idx rep).moveMade m idx (s.tensor idx)).moveEnd m stOk (s.handle idx)).wakeScans) := by
  rw [exec_tierMoveDone_some hu hm, if_neg (not_or.2 ⟨hl, hro⟩)]

end

/-! Whoever asked for a move learns its end. -/

section
variable {s : State} {m : Move} {id c h : Nat} {f : Flight}

theorem State.moveEnd_running (hm : m.by_ = .flight id) (hf : s.flight id = some f) (hp : f.phase = .running) :
    s.moveEnd m c h = s.putFlight (f.endWith c 0) := by
  unfold State.moveEnd
  rw [hm]
  exact (State.onFlight_some hf _).trans (if_neg (by simp [hp]))

theorem State.moveEnd_scan_ok (hm : m.by_ = .flight id) (hf : s.flight id = some f) (hp : f.phase = .waitMove) :
    s.moveEnd m stOk h = s.putFlight { f with
      base := some (BitVec.ofNat 64 (s.chip * 2 ^ 52 + (s.tensor m.idx).bedOff.toNat)), inRec := f.inRec ++ [(1, [])] } := by
  unfold State.moveEnd
  rw [hm, ← gaBed]
  exact (State.onFlight_some hf _).trans ((if_pos hp).trans (if_pos rfl))

theorem State.moveEnd_scan_failed (hm : m.by_ = .flight id) (hf : s.flight id = some f) (hp : f.phase = .waitMove) (hc : c ≠ stOk) :
    s.moveEnd m c h = s.putFlight { f.endWith c 0 with pin := none } := by
  unfold State.moveEnd
  rw [hm]
  exact (State.onFlight_some hf _).trans ((if_pos hp).trans (if_neg hc))

theorem State.moveEnd_sched {t e : Nat} {sig : DWord} (hm : m.by_ = .sched t e sig) :
    s.moveEnd m c h = s.schedEnd t e sig.toNat c h := by
  unfold State.moveEnd
  rw [hm]

end

/-- Settles O34: a move starts by the `moveStart` lemmas and ends by the `exec_tierMoveDone` ones; `moveEnd` tells who asked. The
readiness of a move is read as assumption 76 has it. -/
theorem tierMovesAndFrees : Obligations.TierMovesAndFrees := by
  intro s hu
  refine ⟨fun id f hf hp hcls hturn => ?_, fun id f hf hp hcls ho => ?_, fun idx unc rep => ⟨exec_tierMoveDone_none hu, fun m hm => ?_⟩,
    fun m c h => ⟨fun id f hm hf => ⟨State.moveEnd_running hm hf, fun hp hc => ?_, State.moveEnd_scan_failed hm hf⟩,
      fun t e sig => State.moveEnd_sched⟩⟩
  · have hq : QuarryTurn s id f := ⟨hu, hf, hp, hcls, hturn⟩
    refine ⟨fun ho => ⟨fun st => exec_free_unresolved hq ho, fun i => exec_free_starts hq ho⟩, fun ho hready => ?_⟩
    have h : MoveTurn s id f := ⟨hq, ho, (bits_low _ 17).symm ▸ hready⟩
    refine ⟨fun st => exec_tierMove_unresolved h, fun i hr => ⟨fun hhome => ?_, fun hne hbar => ?_, fun hne hbar hover => ?_,
      fun hne hbar hfit h3 => ?_, fun hne hbar hfit h3 v es hv => ?_⟩⟩
    · exact exec_tierMove_refused h hr (State.moveStart_home hhome)
    · exact exec_tierMove_refused h hr (State.moveStart_barred hne hbar)
    · exact exec_tierMove_refused h hr (State.moveStart_over hne hbar hover)
    · exact exec_tierMove_starts h hr (State.moveStart_begun hne hbar hfit (if_pos h3))
    · exact exec_tierMove_starts h hr (State.moveStart_begun hne hbar hfit ((if_neg h3).trans hv))
  · have h : FreeWaits s id f ((Qrr.of f.desc).handle % 2 ^ 18) := ⟨hu, hf, hp, hcls, ho, bits_low _ 17⟩
    exact ⟨exec_freeRelease_held h, exec_freeRelease_free h⟩
  · refine ⟨fun hbad => ?_, fun hbad h3 hro => ?_, fun hbad hro => ?_⟩
    · exact exec_tierMoveDone_lost hu hm (State.moveLost_iff.2 hbad)
    · exact exec_tierMoveDone_readOnly hu hm (mt State.moveLost_iff.1 hbad) ⟨h3, hro⟩
    · exact exec_tierMoveDone_made hu hm (mt State.moveLost_iff.1 hbad) hro
  · subst hc
    exact State.moveEnd_scan_ok hm hf hp

end Sys2Proof.Machine

namespace Sys2Proof.Machine

/-! ### Prefetch schedules: enable, resume, disable and the release of entries (R253, R258 to R260) -/

theorem gaHbm (c o : Nat) : gaOf c spHbm o = c * 2 ^ 52 + 2 ^ 48 + o := by
  simp [gaOf, place, spHbm]

section
variable {s u : State} {t : Fin 16}

/-! The state of a schedule. -/

theorem State.schedEnable_disabled (h : s.field (QC_SCHED_STAT t) 1 0 = 0) :
    s.schedEnable t = ((s.setSched t (schedIdle t)).setRegN (QC_SCHED_STAT t) 1).setRegN (QC_SCHED_PASS t) 0 := if_pos h

theorem State.schedEnable_other (h : s.field (QC_SCHED_STAT t) 1 0 ≠ 0) : s.schedEnable t = s := if_neg h

theorem State.schedResume_halted (h : s.field (QC_SCHED_STAT t) 1 0 = 2) :
    s.schedResume t = s.setRegN (QC_SCHED_STAT t) (1 + (s.schedOf t).entry * 2 ^ 16) := if_pos h

theorem State.schedResume_other (h : s.field (QC_SCHED_STAT t) 1 0 ≠ 2) : s.schedResume t = s := if_neg h

theorem State.schedNext_within (h : (s.schedOf t).entry + 1 < s.field (QC_SCHED_LEN t) 15 0) :
    s.schedNext t = (s.setSched t { s.schedOf t with entry := (s.schedOf t).entry + 1 }).setField (QC_SCHED_STAT t) 31 16
      ((s.schedOf t).entry + 1) := if_pos h

theorem State.schedNext_wraps (h : s.field (QC_SCHED_LEN t) 15 0 ≤ (s.schedOf t).entry + 1) :
    s.schedNext t = ((s.setSched t { pass := (s.schedOf t).pass + 1, entry := 0 }).setField (QC_SCHED_STAT t) 31 16 0).modReg
      (QC_SCHED_PASS t) fun n => (n + 1) % 2 ^ 32 := if_neg (Nat.not_lt.2 h)

/-! The start of a released entry. -/

/-- What the start of a released move waits for (R253, R259). -/
def SchedWait.mayStart (w : SchedWait) (u : State) : Prop :=
  let i := w.h % 2 ^ 18
  u.pinned i = false ∧ u.moves.length < 8 ∧ (w.tier ≠ 3 ∨ u.nandReady = true) ∧ u.inMove i = false ∧ u.inBuild i = false
    ∧ u.ahead w.id [i] true = false ∧ u.schedMoves w.t < u.field (QC_SCHED_DEPTH w.t) 3 0

theorem State.schedReady_iff {w : SchedWait} : u.schedReady w = true ↔ w.mayStart u := by
  unfold State.schedReady SchedWait.mayStart State.moveReady State.moveRoom
  simp only [bits_low, Bool.and_eq_true, Bool.or_eq_true, Bool.not_eq_true', decide_eq_true_eq, and_assoc]

/-- The state without a released move that starts. -/
def State.schedTaken (u : State) (w : SchedWait) : State := { u with schedQ := u.schedQ.filter fun x => x.id != w.id }

section
variable {w : SchedWait}

theorem State.schedStart_waits (h : ¬ w.mayStart u) : u.schedStart w = u := by
  unfold State.schedStart
  exact if_pos (by rw [Bool.not_eq_true', Bool.eq_false_iff]; exact mt State.schedReady_iff.1 h)

theorem State.schedStart_ready (h : w.mayStart u) : u.schedStart w =
    if w.tier = 0 then (u.schedTaken w).schedEnd w.t w.entry w.sig.toNat stProtection w.h
    else match (u.schedTaken w).resolve w.t w.h with
      | .error c => (u.schedTaken w).schedEnd w.t w.entry w.sig.toNat c w.h
      | .ok i => match (u.schedTaken w).moveStart i w.tier (.sched w.t w.entry w.sig) with
        | (v, some c) => v.schedEnd w.t w.entry w.sig.toNat c w.h
        | (v, none) => v := by
  unfold State.schedStart
  exact if_neg (by simp [State.schedReady_iff.2 h])

theorem State.schedStart_noTier (h : w.mayStart u) (h0 : w.tier = 0) :
    u.schedStart w = (u.schedTaken w).schedEnd w.t w.entry w.sig.toNat stProtection w.h := by
  rw [State.schedStart_ready h, if_pos h0]

theorem State.schedStart_unresolved {c : Nat} (h : w.mayStart u) (h0 : w.tier ≠ 0) (hr : (u.schedTaken w).resolve w.t w.h = .error c) :
    u.schedStart w = (u.schedTaken w).schedEnd w.t w.entry w.sig.toNat c w.h := by
  rw [State.schedStart_ready h, if_neg h0, hr]

theorem State.schedStart_moves {k : Nat} {v : State} (h : w.mayStart u) (h0 : w.tier ≠ 0) (hr : (u.schedTaken w).resolve w.t w.h = .ok k)
    (hm : (u.schedTaken w).moveStart k w.tier (.sched w.t w.entry w.sig) = (v, none)) : u.schedStart w = v := by
  simp only [State.schedStart_ready h, if_neg h0, hr, hm]

theorem State.schedStart_refused {k c : Nat} {v : State} (h : w.mayStart u) (h0 : w.tier ≠ 0)
    (hr : (u.schedTaken w).resolve w.t w.h = .ok k) (hm : (u.schedTaken w).moveStart k w.tier (.sched w.t w.entry w.sig) = (v, some c)) :
    u.schedStart w = v.schedEnd w.t w.entry w.sig.toNat c w.h := by
  simp only [State.schedStart_ready h, if_neg h0, hr, hm]

end

/-! The release of the current entry. -/

/-- What keeps a tenant's schedule from releasing an entry: it is not enabled or has none, or its tenant is not in schedule mode
or not live. -/
def State.schedHeld (s : State) (t : Nat) : Prop :=
  s.field (QC_SCHED_STAT t) 1 0 ≠ 1 ∨ s.regBit (QC_TMODE t) 0 = false ∨ s.field (QC_SCHED_LEN t) 15 0 = 0 ∨ s.slot t ≠ 1

/-- The released move of a schedule's current entry with its 32 bytes. -/
def State.schedReleased (u : State) (t entry : Nat) (b : Bytes) : SchedWait :=
  { id := u.nextFlight, t := t, entry := entry, h := pfield b 0 8, tier := pfield b 0x18 4 % 4, sig := BitVec.ofNat 64 (pfield b 0x10 8) }

theorem State.schedHeld_iff : (s.field (QC_SCHED_STAT t) 1 0 ≠ 1 ∨ (!s.regBit (QC_TMODE t) 0) = true ∨ s.field (QC_SCHED_LEN t) 15 0 = 0
    ∨ s.slot t ≠ 1) ↔ s.schedHeld t := by
  unfold State.schedHeld
  rw [Bool.not_eq_true']

theorem State.schedReleased_tier {entry : Nat} {b : Bytes} :
    u.schedReleased t entry b = { u.schedReleased t entry b with tier := bits (pfield b 0x18 4) 1 0 } := by
  rw [bits_low]
  rfl

theorem exec_scheduleEntryRelease_held (hu : s.up = true) (h : s.schedHeld t) : exec (.scheduleEntryRelease t) s = .next s := by
  rw [exec_scheduleEntryRelease, execScheduleEntryRelease, live_up hu]
  exact congrArg _ (if_pos (State.schedHeld_iff.2 h))

/-- A schedule that releases entries, and what the read of its current entry gives. -/
structure SchedTurn (s : State) (t : Fin 16) (u : State) (r : Except (Nat × Nat) Bytes) : Prop where
  up : s.up = true
  runs : ¬ s.schedHeld t
  read : s.readFor (.tenant t) .hbm (s.regN (QC_SCHED_BASE t) + 32 * (s.schedOf t).entry) 32 = (u, r)

theorem exec_scheduleEntryRelease_unread {c o : Nat} (h : SchedTurn s t u (.error (c, o))) :
    exec (.scheduleEntryRelease t) s = .next ((u.schedNext t).schedHalt t (s.schedOf t).entry c (gaOf u.chip spHbm o)) := by
  rw [exec_scheduleEntryRelease, execScheduleEntryRelease, live_up h.up]
  simp only [if_neg (mt State.schedHeld_iff.1 h.runs), h.read]

section
variable {b : Bytes} {m : Nat}

theorem exec_scheduleEntryRelease_outside (h : SchedTurn s t u (.ok b)) (hm : u.markOf t (bits (pfield b 8 8) 15 0) = none) :
    exec (.scheduleEntryRelease t) s
      = .next ((u.schedNext t).schedEnd t (s.schedOf t).entry (pfield b 0x10 8) stProtection (pfield b 0 8)) := by
  rw [exec_scheduleEntryRelease, execScheduleEntryRelease, live_up h.up]
  simp only [if_neg (mt State.schedHeld_iff.1 h.runs), h.read, hm]

/-- What the mark of an entry must reach (R259). -/
def State.schedTarget (u : State) (t pass : Nat) (b : Bytes) : Nat := bits (pfield b 8 8) 63 16 + pass * u.regN (QC_SCHED_INC t)

theorem exec_scheduleEntryRelease_early (h : SchedTurn s t u (.ok b)) (hm : u.markOf t (bits (pfield b 8 8) 15 0) = some m)
    (hlow : (u.mark m).toNat < u.schedTarget t (s.schedOf t).pass b) : exec (.scheduleEntryRelease t) s = .next u := by
  rw [exec_scheduleEntryRelease, execScheduleEntryRelease, live_up h.up]
  unfold State.schedTarget at hlow
  simp only [if_neg (mt State.schedHeld_iff.1 h.runs), h.read, hm, if_pos hlow]

theorem exec_scheduleEntryRelease_reached (h : SchedTurn s t u (.ok b)) (hm : u.markOf t (bits (pfield b 8 8) 15 0) = some m)
    (hlow : ¬ (u.mark m).toNat < u.schedTarget t (s.schedOf t).pass b) :
    let w := u.schedReleased t (s.schedOf t).entry b
    exec (.scheduleEntryRelease t) s
      = .next ({ u.schedNext t with nextFlight := u.nextFlight + 1, schedQ := u.schedQ ++ [w] }.schedStart w) := by
  rw [State.schedReleased_tier, exec_scheduleEntryRelease, execScheduleEntryRelease, live_up h.up]
  unfold State.schedTarget at hlow
  simp only [if_neg (mt State.schedHeld_iff.1 h.runs), h.read, hm, if_neg hlow]
  rfl

end

end

/-- Settles O36: a write to the schedule by the lemmas of its state, a release by the `exec_scheduleEntryRelease` ones, the start of
what was released by the `schedStart` ones; an end is `schedEnd`. That only a disabled schedule can be enabled is assumption 79's
reading, the ends of an entry with TIER 0 or a mark outside the window assumption 75's. -/
theorem schedulesRunEntries : Obligations.SchedulesRunEntries := by
  intro s t hu
  refine ⟨fun h => ?_, fun h => ?_, fun h => ?_, fun h => ?_, ?_, exec_scheduleEntryRelease_held hu, fun hruns u r hr => ?_,
    fun u w => ⟨fun h => State.schedStart_waits h, fun h h0 => State.schedStart_noTier h h0,
      fun c h h0 hr => State.schedStart_unresolved h h0 hr, fun k h h0 hr =>
        ⟨fun v hm => State.schedStart_moves h h0 hr hm, fun v c hm => State.schedStart_refused h h0 hr hm⟩⟩,
    State.schedNext_within, State.schedNext_wraps, fun e c h => rfl⟩
  · rw [exec_scheduleEnable, execScheduleEnable, live_up hu, State.schedEnable_disabled h]
    rfl
  · rw [exec_scheduleEnable, execScheduleEnable, live_up hu, State.schedEnable_other h]
  · rw [exec_scheduleResume, execScheduleResume, live_up hu, State.schedResume_halted h]
  · rw [exec_scheduleResume, execScheduleResume, live_up hu, State.schedResume_other h]
  · rw [exec_scheduleDisable, execScheduleDisable, live_up hu]
    rfl
  · refine ⟨fun c o he => ?_, fun b hb => ?_⟩
    · subst he
      rw [exec_scheduleEntryRelease_unread ⟨hu, hruns, hr⟩, gaHbm]
    · subst hb
      have h : SchedTurn s t u (.ok b) := ⟨hu, hruns, hr⟩
      dsimp only
      rw [← bits_low _ 15]
      refine ⟨exec_scheduleEntryRelease_outside h, fun m hm => ⟨fun hlow => ?_, fun hreached => ?_⟩⟩
      · exact exec_scheduleEntryRelease_early h hm (Nat.not_le.1 hlow)
      · exact exec_scheduleEntryRelease_reached h hm (Nat.not_lt.2 hreached)

end Sys2Proof.Machine

namespace Sys2Proof.Machine

/-! ### Intakes of Quarry: INTAKE, its build and its commit (R253, R262, R267, R268, R271, R274, R275) -/

theorem gaMark (c o : Nat) : gaOf c spMark o = c * 2 ^ 52 + 4 * 2 ^ 48 + o := by
  simp [gaOf, place, spMark]

/-- Whether the charge of a tensor's build fits (R262). -/
def State.intakeFits (s : State) (x : Tensor) (tier : Nat) : Prop :=
  if tier = 3 then s.nandQuotaOk x.tenant (units64 x.bytes) = true
  else s.usage x.tenant (decide (tier = 1)) + granCharge (x.gran (decide (tier = 1)))
    ≤ s.regN (if decide (tier = 1) then QC_QBED x.tenant else QC_QHBM x.tenant)

theorem State.intakeFits_iff {s : State} {x : Tensor} {tier : Nat} :
    (if tier = 3 then !s.nandQuotaOk x.tenant (units64 x.bytes)
      else !s.quotaOk x.tenant (decide (tier = 1)) (granCharge (x.gran (decide (tier = 1))))) = true ↔ ¬ s.intakeFits x tier := by
  unfold State.intakeFits State.quotaOk
  by_cases ht : tier = 3
  · rw [if_pos ht, if_pos ht, Bool.not_eq_true', Bool.not_eq_true]
  · rw [if_neg ht, if_neg ht, Bool.not_eq_true', decide_eq_false_iff_not]

/-! INTAKE checks the image and takes the build space (R267 steps 1 to 3). -/

section
variable {s : State} {id : Nat} {f : Flight}

/-- An INTAKE whose turn has come, with a place for it, and the NAND tier trained where it goes there. -/
structure IntakeTurn (s : State) (id : Nat) (f : Flight) : Prop extends QuarryTurn s id f where
  op : dOp f.desc = 4
  room : s.builds.length < 8
  trained : (Qrr.of f.desc).tier ≠ 3 ∨ s.nandReady = true

/-- An intake that ends with a fault is counted (Table 10.8). -/
def State.intakeFailed (u : State) (f : Flight) (c d : Nat) : State := (u.count QC_INTAKE_FAIL 1).putFlight (f.refused c d)

theorem IntakeTurn.ready (h : IntakeTurn s id f) :
    (decide (s.builds.length < 8) && (decide ((Qrr.of f.desc).tier ≠ 3) || s.nandReady)) = true := by
  simpa [h.room] using h.trained

theorem exec_intake_unresolved {st : Nat} (h : IntakeTurn s id f) (hr : s.resolve f.tenant (Qrr.of f.desc).handle = .error st) :
    exec (.intake id) s = .next (s.intakeFailed f st (Qrr.of f.desc).handle) := by
  rw [exec_intake, execIntake, live_up h.up]
  refine congrArg _ (quarryStart_refused h.toQuarryTurn h.op h.ready ?_)
  simp only [hr, intakeFault]

/-- An INTAKE of tensor `i` and its read of the header: the operation after it, and the bytes. -/
structure IntakeRead (s : State) (id : Nat) (f : Flight) (i : Nat) (w : Work) (b : Bytes) : Prop extends IntakeTurn s id f where
  resolved : s.resolve f.tenant (Qrr.of f.desc).handle = .ok i
  header : (Work.start s f.tenant f.strict).read (Qrr.of f.desc).arg0 128 = (w, b)

/-- Whether an intake's commit waits for a mark outside its tenant's window. -/
def State.waitOutside (u : State) (f : Flight) : Prop :=
  (Qrr.of f.desc).arg2 ≠ 0 ∧ u.markOf f.tenant (bits (Qrr.of f.desc).arg2 15 0) = none

theorem State.waitOutside_iff {u : State} :
    (Qrr.of f.desc).arg2 ≠ 0 ∧ (u.markOf f.tenant (bits (Qrr.of f.desc).arg2 15 0)).isNone = true ↔ u.waitOutside f :=
  and_congr_right fun _ => Option.isNone_iff_eq_none

section
variable {i : Nat} {w : Work} {b : Bytes}

theorem exec_intake_unread {c d : Nat} (h : IntakeRead s id f i w b) (he : w.err = some (c, d)) :
    exec (.intake id) s = .next (w.s.intakeFailed f c d) := by
  rw [exec_intake, execIntake, live_up h.up]
  refine congrArg _ (quarryStart_refused h.toQuarryTurn h.op h.ready ?_)
  simp only [h.resolved, h.header, he, intakeFault]

theorem exec_intake_outside (h : IntakeRead s id f i w b) (he : w.err = none) (ho : w.s.waitOutside f) :
    exec (.intake id) s
      = .next (w.s.intakeFailed f stProtection (gaOf w.s.chip spMark (8 * bits (Qrr.of f.desc).arg2 15 0))) := by
  rw [exec_intake, execIntake, live_up h.up]
  refine congrArg _ (quarryStart_refused h.toQuarryTurn h.op h.ready ?_)
  simp only [h.resolved, h.header, he, if_pos (State.waitOutside_iff.2 ho), intakeFault]

theorem exec_intake_badHeader {o : Nat} (h : IntakeRead s id f i w b) (he : w.err = none) (ho : ¬ w.s.waitOutside f)
    (hb : firstBad (({ b := b } : Shard).bad (Qrr.of f.desc).arg1) = some o) :
    exec (.intake id) s = .next (w.s.intakeFailed f stProtection (shardField o)) := by
  rw [exec_intake, execIntake, live_up h.up]
  refine congrArg _ (quarryStart_refused h.toQuarryTurn h.op h.ready ?_)
  simp only [h.resolved, h.header, he, if_neg (mt State.waitOutside_iff.1 ho), hb, intakeFault]

/-- An INTAKE whose image has a header that is read and sound, and a commit wait in its tenant's window. -/
structure IntakeSound (s : State) (id : Nat) (f : Flight) (i : Nat) (w : Work) (b : Bytes) : Prop extends IntakeRead s id f i w b where
  done : w.err = none
  inside : ¬ w.s.waitOutside f
  sound : firstBad (({ b := b } : Shard).bad (Qrr.of f.desc).arg1) = none

theorem exec_intake_tooLong (h : IntakeSound s id f i w b) (hl : (s.tensor i).bytes < ({ b := b } : Shard).outLen) :
    exec (.intake id) s = .next (w.s.intakeFailed f stProtection (shardField 0x28)) := by
  rw [exec_intake, execIntake, live_up h.up]
  refine congrArg _ (quarryStart_refused h.toQuarryTurn h.op h.ready ?_)
  simp only [h.resolved, h.header, h.done, if_neg (mt State.waitOutside_iff.1 h.inside), h.sound, if_pos hl, intakeFault]

theorem exec_intake_barred (h : IntakeSound s id f i w b) (hl : ¬ (s.tensor i).bytes < ({ b := b } : Shard).outLen)
    (hb : (s.tensor i).moveBarred (Qrr.of f.desc).tier) :
    exec (.intake id) s = .next (w.s.intakeFailed f stProtection (shardField 0x70)) := by
  rw [exec_intake, execIntake, live_up h.up]
  refine congrArg _ (quarryStart_refused h.toQuarryTurn h.op h.ready ?_)
  simp only [h.resolved, h.header, h.done, if_neg (mt State.waitOutside_iff.1 h.inside), h.sound, if_neg hl,
    if_pos (Tensor.moveBarred_iff.2 hb), intakeFault]

theorem exec_intake_over (h : IntakeSound s id f i w b) (hl : ¬ (s.tensor i).bytes < ({ b := b } : Shard).outLen)
    (hb : ¬ (s.tensor i).moveBarred (Qrr.of f.desc).tier) (hf : ¬ w.s.intakeFits (s.tensor i) (Qrr.of f.desc).tier) :
    exec (.intake id) s = .next (w.s.intakeFailed f stQuota 0) := by
  rw [exec_intake, execIntake, live_up h.up]
  refine congrArg _ (quarryStart_refused h.toQuarryTurn h.op h.ready ?_)
  simp only [h.resolved, h.header, h.done, if_neg (mt State.waitOutside_iff.1 h.inside), h.sound, if_neg hl,
    if_neg (mt Tensor.moveBarred_iff.1 hb), if_pos (State.intakeFits_iff.2 hf), intakeFault]

theorem exec_intake_starts {v : State} {es : List XEntry} (h : IntakeSound s id f i w b)
    (hl : ¬ (s.tensor i).bytes < ({ b := b } : Shard).outLen) (hb : ¬ (s.tensor i).moveBarred (Qrr.of f.desc).tier)
    (hf : w.s.intakeFits (s.tensor i) (Qrr.of f.desc).tier)
    (hp : (if (Qrr.of f.desc).tier = 3 then (w.s, some []) else w.s.placeGranules (s.tensor i).tenant (decide ((Qrr.of f.desc).tier = 1))
      (s.tensor i).ro (some i) ((s.tensor i).gran (decide ((Qrr.of f.desc).tier = 1)))) = (v, some es)) :
    exec (.intake id) s = .next (State.putFlight
      { v with builds := v.builds ++ [{ id := id, idx := i, tier := (Qrr.of f.desc).tier, tenant := f.tenant, data := b, built := false,
                                        ents := es, wait := BitVec.ofNat 64 (Qrr.of f.desc).arg2 }] } f.underway) := by
  rw [exec_intake, execIntake, live_up h.up]
  refine congrArg _ (quarryStart_underway h.toQuarryTurn h.op h.ready ?_)
  simp only [h.resolved, h.header, h.done, if_neg (mt State.waitOutside_iff.1 h.inside), h.sound, if_neg hl,
    if_neg (mt Tensor.moveBarred_iff.1 hb), if_neg fun ho => State.intakeFits_iff.1 ho hf, hp]

end

end

/-! INTAKE_BUILD_DONE (R267 steps 4 to 9). -/

section
variable {s : State} {id : Nat} {f : Flight}

theorem exec_intakeBuildDone_none (hu : s.up = true) (hf : s.flight id = some f)
    (hb : s.builds.find? (fun b => decide (b.id = id) && !b.built) = none) : exec (.intakeBuildDone id) s = .next s := by
  rw [exec_intakeBuildDone, execIntakeBuildDone, live_up hu, State.onFlight_some hf]
  simp only [hb]

/-- The unbuilt intake of a descriptor, and its read of the payload: the operation after it, and the bytes. -/
structure BuildTurn (s : State) (id : Nat) (f : Flight) (b : Build) (w : Work) (pay : Bytes) : Prop where
  up : s.up = true
  flight : s.flight id = some f
  found : s.builds.find? (fun b => decide (b.id = id) && !b.built) = some b
  payload : (Work.start s f.tenant f.strict).read ((Qrr.of f.desc).arg0 + 0x80) ({ b := b.data } : Shard).payLen = (w, pay)

/-- The build space filled with the stored tensor (R267 steps 6 to 9). -/
def State.intakeFilled (v : State) (id : Nat) (b : Build) (data : Bytes) : State :=
  { v.fillEnts b.tenant (((v.tensor b.idx).off (decide (b.tier = 1))).getD 0) b.ents (data.zipIdx.map Prod.swap) with
    builds := v.builds.map fun (c : Build) => if c.id = id then { c with data := data, built := true } else c }

section
variable {b : Build} {w : Work} {pay : Bytes}

theorem exec_intakeBuildDone_unread {c d : Nat} (h : BuildTurn s id f b w pay) (he : w.err = some (c, d)) :
    exec (.intakeBuildDone id) s = .next (w.s.intakeDrop f c d) := by
  rw [exec_intakeBuildDone, execIntakeBuildDone, live_up h.up, State.onFlight_some h.flight]
  simp only [h.found, h.payload, he]

theorem exec_intakeBuildDone_malformed {o : Nat} (h : BuildTurn s id f b w pay) (he : w.err = none)
    (hx : ({ b := b.data } : Shard).expand pay = .error o) :
    exec (.intakeBuildDone id) s = .next (w.s.intakeDrop f stProtection (shardField o)) := by
  rw [exec_intakeBuildDone, execIntakeBuildDone, live_up h.up, State.onFlight_some h.flight]
  simp only [h.found, h.payload, he, hx]

theorem exec_intakeBuildDone_mismatch {raw : Bytes} (h : BuildTurn s id f b w pay) (he : w.err = none)
    (hx : ({ b := b.data } : Shard).expand pay = .ok raw) (hd : sha256 (b.data.take 0x40 ++ pay) ≠ (b.data.drop 0x40).take 32) :
    exec (.intakeBuildDone id) s = .next (w.s.intakeDrop f stDigestMismatch 0) := by
  rw [exec_intakeBuildDone, execIntakeBuildDone, live_up h.up, State.onFlight_some h.flight]
  simp only [h.found, h.payload, he, hx, if_pos hd]

/-- Filling entries leaves the intakes. -/
theorem State.fillEnts_builds {v : State} {t base : Nat} {es : List XEntry} {cells : List Host.Cell} :
    (v.fillEnts t base es cells).builds = v.builds := by
  obtain ⟨m, hm⟩ := fillEnts_frame v t base es cells
  rw [hm]
  rfl

theorem exec_intakeBuildDone_filled {raw : Bytes} (h : BuildTurn s id f b w pay) (he : w.err = none)
    (hx : ({ b := b.data } : Shard).expand pay = .ok raw) (hd : sha256 (b.data.take 0x40 ++ pay) = (b.data.drop 0x40).take 32) :
    exec (.intakeBuildDone id) s = .next (w.s.intakeFilled id b (({ b := b.data } : Shard).build raw)) := by
  rw [exec_intakeBuildDone, execIntakeBuildDone, live_up h.up, State.onFlight_some h.flight]
  simp only [h.found, h.payload, he, hx, if_neg (not_not_intro hd), State.fillEnts_builds, State.intakeFilled]
  rfl

/-- The read of a payload changes registers and the free counter at most. -/
theorem BuildTurn.calm (h : BuildTurn s id f b w pay) : calm w.s s := by
  have := calm_read (w := Work.start s f.tenant f.strict) ((Qrr.of f.desc).arg0 + 0x80) ({ b := b.data } : Shard).payLen (calm_self s)
  rwa [h.payload] at this

theorem BuildTurn.builds (h : BuildTurn s id f b w pay) : w.s.builds = s.builds := by
  obtain ⟨r, k, hk⟩ := h.calm
  rw [hk]

/-- A filled build changes no more than intakes, the memories, registers and the free counter. -/
theorem State.intakeFilled_frame {v : State} {data : Bytes} (hc : calm v s) :
    { v.intakeFilled id b data with
      builds := s.builds, bed := s.bed, bedPoison := s.bedPoison, hbm := s.hbm, hbmPoison := s.hbmPoison, hbmKey := s.hbmKey
      regs := s.regs, free := s.free } = s := by
  obtain ⟨r, k, rfl⟩ := hc
  unfold State.intakeFilled
  generalize hx : State.fillEnts _ _ _ _ _ = x
  obtain ⟨m, hm⟩ := hx ▸ fillEnts_frame _ _ _ _ _
  rw [hm]
  rfl

end

end

/-! INTAKE_COMMIT (R268, R271). -/

section
variable {s : State} {id : Nat} {f : Flight} {rep : List NandReport}

theorem exec_intakeCommit_none (hu : s.up = true) (hf : s.flight id = some f)
    (hb : s.builds.find? (fun b => decide (b.id = id) && b.built) = none) : exec (.intakeCommit id rep) s = .next s := by
  rw [exec_intakeCommit, execIntakeCommit, live_up hu, State.onFlight_some hf]
  simp only [hb]

/-- The built intake of a descriptor. -/
structure CommitTurn (s : State) (id : Nat) (f : Flight) (b : Build) : Prop where
  up : s.up = true
  flight : s.flight id = some f
  found : s.builds.find? (fun b => decide (b.id = id) && b.built) = some b

/-- The SHA-256 of a built tensor as it will be stored. -/
def State.buildDigest (s : State) (b : Build) : BitVec 256 := BitVec.ofNat 256 (leNat (sha256 (padTo (s.tensor b.idx).bytes b.data)))

/-- The operation that writes the digest of a commit to its RESULT. -/
def State.commitWork (s : State) (f : Flight) (b : Build) : Work :=
  (Work.start s f.tenant f.strict).result (Qrr.of f.desc) (digestBytes (s.buildDigest b))

section
variable {b : Build}

theorem exec_intakeCommit_waits (h : CommitTurn s id f b) (hw : s.commitHolds b = false ∨ s.pinned b.idx = true) :
    exec (.intakeCommit id rep) s = .next s := by
  rw [exec_intakeCommit, execIntakeCommit, live_up h.up, State.onFlight_some h.flight]
  rw [← Bool.not_eq_true'] at hw
  simp only [h.found, if_pos hw]

/-- A built intake that may commit. -/
structure CommitReady (s : State) (id : Nat) (f : Flight) (b : Build) : Prop extends CommitTurn s id f b where
  holds : s.commitHolds b = true
  unpinned : s.pinned b.idx = false

theorem CommitReady.mayCommit (h : CommitReady s id f b) : ¬ ((!s.commitHolds b) = true ∨ s.pinned b.idx = true) := by
  simp [h.holds, h.unpinned]

theorem exec_intakeCommit_unwritten {c d : Nat} (h : CommitReady s id f b) (he : (s.commitWork f b).err = some (c, d)) :
    exec (.intakeCommit id rep) s = .next ((s.commitWork f b).s.intakeDrop f c d) := by
  unfold State.commitWork State.buildDigest at he ⊢
  rw [exec_intakeCommit, execIntakeCommit, live_up h.up, State.onFlight_some h.flight]
  simp only [h.found, if_neg h.mayCommit, he]

theorem exec_intakeCommit_commits (h : CommitReady s id f b) (he : (s.commitWork f b).err = none) :
    let w := s.commitWork f b
    exec (.intakeCommit id rep) s
      = .next (({ w with s := w.s.commit b (Qrr.of f.desc).ro (s.buildDigest b) rep }.apply).putFlight (f.endWith stOk 0)).wakeScans := by
  unfold State.commitWork State.buildDigest at he ⊢
  rw [exec_intakeCommit, execIntakeCommit, live_up h.up, State.onFlight_some h.flight]
  simp only [h.found, if_neg h.mayCommit, he]

end

end

/-- Settles O35: INTAKE by its checks in R267's order, the build and the commit by their own lemmas; `intakeFilled_frame` says what a
build leaves. -/
theorem intakeBuildsAndCommits : Obligations.IntakeBuildsAndCommits := by
  intro s id f rep hu hf
  refine ⟨fun hp hcls ho hturn hroom hready => ?_, exec_intakeBuildDone_none hu hf, fun b hb => ?_, exec_intakeCommit_none hu hf,
    fun b hb => ?_⟩
  · have h : IntakeTurn s id f := ⟨⟨hu, hf, hp, hcls, hturn⟩, ho, hroom, hready⟩
    refine ⟨fun st => exec_intake_unresolved h, fun i w b hr hread => ?_⟩
    have hi : IntakeRead s id f i w b := ⟨h, hr, hread⟩
    refine ⟨fun c d => exec_intake_unread hi, fun he hout => ?_, fun o he hin => exec_intake_badHeader hi he hin, fun he hin hs => ?_,
      fun he hin hs hl => ?_, fun he hin hs hl => ?_, fun he hin hs hl hb hfit v es => ?_⟩
    · rw [exec_intake_outside hi he hout, gaMark]
      rfl
    · exact exec_intake_tooLong ⟨hi, he, hin, hs⟩
    · exact exec_intake_barred ⟨hi, he, hin, hs⟩ (Nat.not_lt.2 hl)
    · exact exec_intake_over ⟨hi, he, hin, hs⟩ (Nat.not_lt.2 hl)
    · exact exec_intake_starts ⟨hi, he, hin, hs⟩ (Nat.not_lt.2 hl) hb hfit
  · intro hd w pay hread
    have h : BuildTurn s id f b w pay := ⟨hu, hf, hb, hread⟩
    refine ⟨fun c d => exec_intakeBuildDone_unread h, fun o => exec_intakeBuildDone_malformed h,
      fun raw => exec_intakeBuildDone_mismatch h, fun raw he hx hsha => ⟨?_, ?_⟩⟩
    · have hfill := exec_intakeBuildDone_filled h he hx hsha
      rw [State.intakeFilled, h.builds] at hfill
      exact hfill
    · exact State.intakeFilled_frame (id := id) h.calm
  · refine ⟨fun hw => exec_intakeCommit_waits ⟨hu, hf, hb⟩ hw, fun hc hpin => ⟨fun c d => ?_, fun he => ?_⟩⟩
    · exact exec_intakeCommit_unwritten ⟨⟨hu, hf, hb⟩, hc, hpin⟩
    · exact exec_intakeCommit_commits ⟨⟨hu, hf, hb⟩, hc, hpin⟩ he

end Sys2Proof.Machine

namespace Sys2Proof.Machine

/-! ### Connections of the fabric ports: acknowledgement, retransmission, resynchronisation (R330 to R334, R339, R341) -/

/-! Received frames, once read, and what they acknowledge. -/

/-- The acknowledgement a frame carries, taken (R331). -/
def State.ackedBy (s : State) (f : Frame) : State := if f.ackV then s.acked f.port f.tc f.src f.ack else s

section
variable {s : State} {p type : Nat} {w : WireFrame} {f : Frame} {act : State → Frame → State}

theorem State.receive_frame (h : (s.fec p w).hears p w = .frame f) :
    s.receive p type w act = if f.type = type then act (s.fec p w) f else s.fec p w := by
  unfold State.receive
  dsimp only
  rw [h]

theorem State.receive_own (h : (s.fec p w).hears p w = .frame f) (ht : f.type = type) :
    s.receive p type w act = act (s.fec p w) f := (State.receive_frame h).trans (if_pos ht)

end

section
variable {s : State} {p : Fin 8} {w : WireFrame} {f : Frame} {c : Conn}

theorem exec_ackReceive_own (hu : s.up = true) (h : (s.fec p w).hears p w = .frame f) (ht : f.type = ftAck) :
    exec (.ackReceive p w) s = .next ((s.fec p w).ackedBy f) := by
  rw [exec_ackReceive, execAckReceive, live_up hu, State.receive_own h ht]
  rfl

/-- NAK_RECEIVE resends the unacknowledged frames of a connection in use, at once or when its class resumes. -/
def State.nakked (s : State) (f : Frame) : State :=
  match s.conn.find? (·.at f.port f.tc f.src) with
  | none => s
  | some c =>
    if c.resync ∨ c.unacked.isEmpty then s
    else if s.paused f.port f.tc then s.putConn { c with nak := some (decide (f.reason = 2)) }
    else s.retransmit c (decide (f.reason = 2))

theorem exec_nakReceive_own (hu : s.up = true) (h : (s.fec p w).hears p w = .frame f) (ht : f.type = ftNak) :
    exec (.nakReceive p w) s = .next (((s.fec p w).ackedBy f).nakked f) := by
  rw [exec_nakReceive, execNakReceive, live_up hu, State.receive_own h ht]
  rfl

theorem State.nakked_none (h : s.conn.find? (·.at f.port f.tc f.src) = none) : s.nakked f = s := by
  unfold State.nakked
  rw [h]

theorem State.nakked_idle (h : s.conn.find? (·.at f.port f.tc f.src) = some c) (hc : c.resync = true ∨ c.unacked = []) :
    s.nakked f = s := by
  unfold State.nakked
  rw [h]
  exact if_pos (hc.imp_right List.isEmpty_iff.2)

theorem State.nakked_resends (h : s.conn.find? (·.at f.port f.tc f.src) = some c) (hr : c.resync = false) (hne : c.unacked ≠ []) :
    s.nakked f = if s.paused f.port f.tc then s.putConn { c with nak := some (decide (f.reason = 2)) }
      else s.retransmit c (decide (f.reason = 2)) := by
  unfold State.nakked
  rw [h]
  refine if_neg fun hn => hn.elim (fun ht => ?_) fun he => hne (List.isEmpty_iff.1 he)
  rw [hr] at ht
  cases ht

theorem exec_resyncReceive_own (hu : s.up = true) (h : (s.fec p w).hears p w = .frame f) (ht : f.type = ftResync) :
    exec (.resyncReceive p w) s = .next
      (let old := (s.fec p w).rconnOf f.port f.tc f.src
       let epoch := BitVec.ofNat 32 f.addr.toNat
       (s.fec p w).answer { old with exp := f.ack, epoch := epoch, ctl := if old.epoch = epoch then old.ctl else 0 } 6 0) := by
  rw [exec_resyncReceive, execResyncReceive, live_up hu, State.receive_own h ht]
  rfl

theorem exec_resyncAckReceive_none (hu : s.up = true) (h : (s.fec p w).hears p w = .frame f) (ht : f.type = ftResyncAck)
    (hc : (s.fec p w).conn.find? (·.at f.port f.tc f.src) = none) : exec (.resyncAckReceive p w) s = .next (s.fec p w) := by
  rw [exec_resyncAckReceive, execResyncAckReceive, live_up hu, State.receive_own h ht, hc]

theorem exec_resyncAckReceive_some (hu : s.up = true) (h : (s.fec p w).hears p w = .frame f) (ht : f.type = ftResyncAck)
    (hc : (s.fec p w).conn.find? (·.at f.port f.tc f.src) = some c) : exec (.resyncAckReceive p w) s
      = .next (if c.resync then (s.fec p w).pump { c with resync := false, rsDue := false } else s.fec p w) := by
  rw [exec_resyncAckReceive, execResyncAckReceive, live_up hu, State.receive_own h ht, hc]

end

/-! The timers of a connection. -/

section
variable {s : State} {p k : Fin 8} {peer : BitVec 12} {c : Conn}

theorem exec_ackTimeout_none (hu : s.up = true) (hc : s.conn.find? (·.at p k peer.toNat) = none) :
    exec (.ackTimeout p k peer) s = .next s := by
  rw [exec_ackTimeout, execAckTimeout, live_up hu, hc]

theorem exec_ackTimeout_some (hu : s.up = true) (hc : s.conn.find? (·.at p k peer.toNat) = some c) :
    exec (.ackTimeout p k peer) s
      = .next (if c.resync = true ∨ c.unacked = [] ∨ s.paused p k = true then s else s.retransmit c false) := by
  rw [exec_ackTimeout, execAckTimeout, live_up hu, hc]
  simp only [List.isEmpty_iff]

theorem exec_resyncRetry_none (hu : s.up = true) (hc : s.conn.find? (·.at p k peer.toNat) = none) :
    exec (.resyncRetry p k peer) s = .next s := by
  rw [exec_resyncRetry, execResyncRetry, live_up hu, hc]

theorem exec_resyncRetry_some (hu : s.up = true) (hc : s.conn.find? (·.at p k peer.toNat) = some c) :
    exec (.resyncRetry p k peer) s = .next (if c.resync then s.sendResync c else s) := by
  rw [exec_resyncRetry, execResyncRetry, live_up hu, hc]

end

/-! What an acknowledgement leaves unacknowledged. -/

/-- Whether a PSN comes after another, modulo 2^24 (R331). -/
def psnAfter (psn x : Nat) : Bool :=
  decide (0 < (x + 2 ^ 24 - psn) % 2 ^ 24) && decide ((x + 2 ^ 24 - psn) % 2 ^ 24 < 2 ^ 23)

theorem State.acked_eq {s : State} {p k q psn : Nat} {c : Conn} (h : s.conn.find? (·.at p k q) = some c) :
    s.acked p k q psn = s.pump { c with unacked := c.unacked.filter fun x => psnAfter psn x.psn } := by
  unfold State.acked
  rw [h]
  rfl

theorem mem_filter_psnAfter {l : List Sent} {psn : Nat} {x : Sent} : x ∈ (l.filter fun x => psnAfter psn x.psn)
    ↔ x ∈ l ∧ 0 < (x.psn + 2 ^ 24 - psn) % 2 ^ 24 ∧ (x.psn + 2 ^ 24 - psn) % 2 ^ 24 < 2 ^ 23 := by
  rw [List.mem_filter, psnAfter, Bool.and_eq_true, decide_eq_true_eq, decide_eq_true_eq]

/-! Retransmission (R332, R333). -/

section
variable {s : State} {c : Conn} {p : Nat} {nak2 : Bool}

theorem State.speaks_eq (s : State) (p : Nat) : s.speaks p = (s.link p && s.regBit DP_CHIP_ID 31) := rfl

/-- Sending and counting on a port that can send. -/
theorem State.sendDziura_speaks (bs : Bytes) (h : s.speaks p = true) :
    s.sendDziura p bs = ({ s with tx := (p, bs) :: s.tx } : State).count (DP_TX_FRAMES p) 1 := by
  unfold State.sendDziura State.send
  rw [if_pos h, if_pos h]

/-- One unacknowledged frame sent again, and counted. -/
def State.resendOne (p : Nat) (s : State) (f : Sent) : State := (s.sendDziura p f.bytes).count (DP_RETX p) 1

/-- Unacknowledged frames sent again, in order. -/
def State.resend (s : State) (p : Nat) (l : List Sent) : State := l.foldl (State.resendOne p) s

/-- The unacknowledged frames of a connection with the reason they are sent again for. -/
def Conn.marked (c : Conn) (nak2 : Bool) : List Sent := c.unacked.map fun (x : Sent) => { x with nak2 := nak2 }

theorem State.retransmit_eq (s : State) (c : Conn) (nak2 : Bool) : s.retransmit c nak2 =
    if ((c.marked nak2).any fun f => decide (3 ≤ f.retries)) = true then
      (s.putConn { c with unacked := c.marked nak2 }).failConn { c with unacked := c.marked nak2 }
    else (if s.speaks c.port then s.resend c.port (c.marked nak2) else s).putConn
      { c with nak := none, unacked := (c.marked nak2).map fun (x : Sent) => { x with retries := x.retries + 1 } } := rfl

theorem Conn.marked_exhausted : ((c.marked nak2).any fun f => decide (3 ≤ f.retries)) = true ↔ ∃ x ∈ c.unacked, 3 ≤ x.retries := by
  simp [Conn.marked]

theorem DP_offsets (p : Nat) : DP_CHIP_ID ≠ DP_TX_FRAMES p ∧ DP_CHIP_ID ≠ DP_RETX p ∧ DP_STATUS p ≠ DP_RETX p ∧ DP_RETX p ≠ DP_TX_FRAMES p := by
  unfold DP_CHIP_ID DP_TX_FRAMES DP_RETX DP_STATUS pageAddr placeOf
  simp only [ne_eq, not_true_eq_false, false_and, if_false]
  omega

theorem State.regN_count_same (a n : Nat) (h : smapWf resetOf s.regs = true) : (s.count a n).regN a = (s.regN a + n) % 2 ^ 64 :=
  State.regN_modReg_same a _ h

theorem State.regN_count_other {a b : Nat} (n : Nat) (h : smapWf resetOf s.regs = true) (hb : b ≠ a) : (s.count a n).regN b = s.regN b :=
  regN_of (State.reg_count_other n h hb)

/-- A frame sent again from a port that can send. -/
theorem State.resendOne_facts (x : Sent) (hs : s.speaks p = true) (hw : smapWf resetOf s.regs = true) :
    let t := s.resendOne p x
    t.speaks p = true ∧ smapWf resetOf t.regs = true ∧ t.tx = (p, x.bytes) :: s.tx
      ∧ t.regN (DP_RETX p) = (s.regN (DP_RETX p) + 1) % 2 ^ 64 ∧ t.regN (DP_TX_FRAMES p) = (s.regN (DP_TX_FRAMES p) + 1) % 2 ^ 64
      ∧ { t with regs := s.regs, tx := s.tx } = s := by
  obtain ⟨hid, hid', hst, hne⟩ := DP_offsets p
  let v : State := { s with tx := (p, x.bytes) :: s.tx }
  have he : s.resendOne p x = (v.count (DP_TX_FRAMES p) 1).count (DP_RETX p) 1 := by
    rw [State.resendOne, State.sendDziura_speaks _ hs]
  have hv : smapWf resetOf (v.count (DP_TX_FRAMES p) 1).regs = true := State.count_wf _ _ hw
  have hkeep : ∀ a, a ≠ DP_RETX p → a ≠ DP_TX_FRAMES p → ((v.count (DP_TX_FRAMES p) 1).count (DP_RETX p) 1).regN a = s.regN a :=
    fun a h1 h2 => (State.regN_count_other 1 hv h1).trans (State.regN_count_other (s := v) 1 hw h2)
  dsimp only
  rw [he]
  refine ⟨?_, State.count_wf _ _ hv, rfl, ?_, ?_, rfl⟩
  · rw [State.speaks, State.regBit, State.regBit, hkeep _ hst (DP_STATUS_ne_DP_TX_FRAMES p), hkeep _ hid' hid]
    exact hs
  · rw [State.regN_count_same _ _ hv, State.regN_count_other (s := v) 1 hw hne]
    rfl
  · rw [State.regN_count_other 1 hv hne.symm, State.regN_count_same (s := v) _ _ hw]
    rfl

theorem State.resend_facts (l : List Sent) : ∀ s : State, s.speaks p = true → smapWf resetOf s.regs = true →
    (s.resend p l).tx = (l.map fun x => (p, x.bytes)).reverse ++ s.tx
      ∧ (s.resend p l).regN (DP_RETX p) = (s.regN (DP_RETX p) + l.length) % 2 ^ 64
      ∧ (s.resend p l).regN (DP_TX_FRAMES p) = (s.regN (DP_TX_FRAMES p) + l.length) % 2 ^ 64
      ∧ { s.resend p l with regs := s.regs, tx := s.tx } = s := by
  induction l with
  | nil => exact fun s _ _ => ⟨rfl, (Nat.mod_eq_of_lt (s.regN_lt _)).symm, (Nat.mod_eq_of_lt (s.regN_lt _)).symm, rfl⟩
  | cons x l ih =>
    intro s hs hw
    obtain ⟨hs', hw', htx, hretx, hsent, hframe⟩ := State.resendOne_facts x hs hw
    obtain ⟨itx, iretx, isent, iframe⟩ := ih _ hs' hw'
    change ((s.resendOne p x).resend p l).tx = _ ∧ ((s.resendOne p x).resend p l).regN _ = _ ∧ ((s.resendOne p x).resend p l).regN _ = _
      ∧ { (s.resendOne p x).resend p l with regs := s.regs, tx := s.tx } = s
    refine ⟨?_, ?_, ?_, ?_⟩
    · rw [itx, htx, List.map_cons, List.reverse_cons, List.append_assoc, List.singleton_append]
    · rw [iretx, hretx, List.length_cons]
      omega
    · rw [isent, hsent, List.length_cons]
      omega
    · have hback := congrArg (fun t : State => ({ t with regs := s.regs, tx := s.tx } : State)) iframe
      exact hback.trans hframe

/-- A connection with a frame that would need a fourth retry fails. -/
theorem State.retransmit_fails (h : ∃ x ∈ c.unacked, 3 ≤ x.retries) : s.retransmit c nak2
    = (s.putConn { c with unacked := c.marked nak2 }).failConn { c with unacked := c.marked nak2 } := by
  rw [State.retransmit_eq, if_pos (Conn.marked_exhausted.2 h)]

theorem State.retransmit_resends (h : ∀ x ∈ c.unacked, x.retries < 3) : s.retransmit c nak2
    = (if s.speaks c.port then s.resend c.port (c.marked nak2) else s).putConn
      { c with nak := none, unacked := (c.marked nak2).map fun (x : Sent) => { x with retries := x.retries + 1 } } := by
  rw [State.retransmit_eq, if_neg fun hn => ?_]
  obtain ⟨x, hx, h3⟩ := Conn.marked_exhausted.1 hn
  exact absurd (h x hx) (Nat.not_lt.2 h3)

theorem Conn.marked_bytes (c : Conn) (nak2 : Bool) :
    ((c.marked nak2).map fun x => (p, x.bytes)) = c.unacked.map fun x => (p, x.bytes) := List.map_map ..

theorem Conn.marked_length (c : Conn) (nak2 : Bool) : (c.marked nak2).length = c.unacked.length := List.length_map ..

end

/-! Answers, and the receiver's context they leave. -/

section
variable {s : State} {r : RConn} {type reason : Nat}

theorem RConn.at_self (r : RConn) : r.at r.port r.tc r.peer = true := by
  simp [RConn.at]

theorem State.rconnOf_putRConn_same (s : State) (r : RConn) : (s.putRConn r).rconnOf r.port r.tc r.peer = r := by
  have hnone : (s.rconn.filter fun d => !d.at r.port r.tc r.peer).find? (·.at r.port r.tc r.peer) = none := by
    simp
  unfold State.rconnOf State.putRConn
  rw [List.find?_append, hnone]
  simp [RConn.at_self]

theorem State.answer_paused (h : s.paused r.port r.tc = true) : s.answer r type reason
    = s.putRConn { r with due := if r.due.contains (type, reason) then r.due else r.due ++ [(type, reason)] } := by
  unfold State.answer
  exact if_pos h

theorem mem_due (l : List (Nat × Nat)) (e d : Nat × Nat) : (d ∈ if l.contains e then l else l ++ [e]) ↔ d ∈ l ∨ d = e := by
  by_cases h : l.contains e = true
  · rw [if_pos h]
    refine ⟨.inl, fun hd => hd.elim id ?_⟩
    rintro rfl
    exact List.contains_iff_mem.1 h
  · rw [if_neg h, List.mem_append, List.mem_singleton]

theorem State.answer_sent (h : s.paused r.port r.tc = false) :
    (s.answer r type reason).rconnOf r.port r.tc r.peer = { r with ctl := (r.ctl + 1) % 2 ^ 24 } := by
  unfold State.answer
  rw [if_neg (Bool.not_eq_true _ ▸ h)]
  exact State.rconnOf_putRConn_same _ { r with ctl := (r.ctl + 1) % 2 ^ 24 }

end

/-- The frames a draining port holds back (R435). -/
theorem State.heldBack_iff {s : State} {p : Nat} {f : Frame} : s.heldBack p f = true
    ↔ s.regBit (BLK_CTL .dp p) 1 = true ∧ f.type = 1 ∧ ∀ r ∈ s.rops, r.opid = f.opid → r.sent = false := by
  simp [State.heldBack, show ftRequest = 1 from rfl, and_assoc]

/-- Settles O45: the commands by their own lemmas; what a connection sends by `pump_facts`, what it sends again by
`State.resend_facts`. -/
theorem connectionsResendAndResync : Obligations.ConnectionsResendAndResync := by
  refine ⟨fun s hu => ⟨fun p w f => ?_, fun p k peer => ⟨fun hc => ⟨exec_ackTimeout_none hu hc, exec_resyncRetry_none hu hc⟩,
      fun c hc => ⟨exec_resyncRetry_some hu hc, fun hidle => ?_, fun hr hne hp => ?_⟩⟩⟩,
    fun u p k q psn c hc => ⟨_, State.acked_eq hc, fun x => mem_filter_psnAfter⟩, fun u c => ?_, fun u c nak2 => ⟨State.retransmit_fails, fun hlow hcanon => ?_⟩,
    fun u => ⟨fun c => rfl, fun r type reason => ⟨fun hp => ⟨_, State.answer_paused hp, mem_due _ _⟩, State.answer_sent⟩⟩⟩
  · intro v hwhole hhear u
    have h : (s.fec p w).hears p w = .frame f := (State.hears_whole hwhole).trans hhear
    refine ⟨exec_ackReceive_own hu h, fun ht hc => ?_, fun ht c hc => ⟨fun hidle => ?_, fun hr hne => ?_⟩, exec_resyncReceive_own hu h,
      exec_resyncAckReceive_none hu h, fun ht c => exec_resyncAckReceive_some hu h ht⟩
    · exact (exec_nakReceive_own hu h ht).trans (congrArg _ (State.nakked_none hc))
    · exact (exec_nakReceive_own hu h ht).trans (congrArg _ (State.nakked_idle hc hidle))
    · exact (exec_nakReceive_own hu h ht).trans (congrArg _ (State.nakked_resends hc hr hne))
  · rw [exec_ackTimeout_some hu hc, if_pos hidle]
  · rw [exec_ackTimeout_some hu hc, if_neg]
    simp [hr, hne, hp]
  · obtain ⟨n, sent, e, w, hn, hlen, hpsn, hnew, he, hpump, hconn, htx, hstop, hwin, hnone, hwired⟩ := pump_facts u c
    refine ⟨n, sent, e, w, hpump, hconn, hn, hlen, he, hpsn, hnew, htx, fun f l hq => ?_, hwin, hnone, ?_⟩
    · have hheld := hstop f l hq
      rw [State.heldBack_iff] at hheld
      exact hheld
    · have hback := congrArg (fun x : State => ({ x with conn := w.conn } : State)) hwired.1
      exact hback.trans (congrArg (fun l => ({ u with conn := l } : State)) hconn)
  · refine ⟨_, State.retransmit_resends hlow, fun hmute => if_neg (Bool.not_eq_true _ ▸ hmute), fun hs => ?_⟩
    obtain ⟨htx, hretx, hsent, hframe⟩ := State.resend_facts (c.marked nak2) u hs (State.canon_regs hcanon)
    rw [Conn.marked_bytes] at htx
    rw [Conn.marked_length] at hretx hsent
    rw [if_pos (show u.speaks c.port = true from hs)]
    exact ⟨htx, hretx, hsent, hframe⟩

end Sys2Proof.Machine

namespace Sys2Proof.Machine

/-! ### Received frames: judged, accepted in order, applied and answered (R322, R328, R329, R331, R336, R338, R347, R416) -/

/-! What the frame commands do with a frame that is not theirs. -/

section
variable {s : State} {p : Fin 8} {w : WireFrame} {f : Frame}

/-- The commands that bring a received frame of one type, with the type. -/
def frameCommands (p : Fin 8) (w : WireFrame) : List (Nat × Instr) :=
  [(1, .requestFrameReceive p w), (2, .responseFrameReceive p w), (3, .ackReceive p w), (4, .nakReceive p w), (5, .resyncReceive p w),
    (6, .resyncAckReceive p w)]

theorem exec_frameCommand {e : Nat × Instr} (hu : s.up = true) (he : e ∈ frameCommands p w) :
    ∃ act, exec e.2 s = .next (s.receive p e.1 w act) := by
  simp only [frameCommands, List.mem_cons, List.not_mem_nil, or_false] at he
  rcases he with rfl | rfl | rfl | rfl | rfl | rfl
  · exact ⟨_, (exec_requestFrameReceive p w s).trans (live_up hu)⟩
  · exact ⟨_, (exec_responseFrameReceive p w s).trans (live_up hu)⟩
  · exact ⟨_, (exec_ackReceive p w s).trans (live_up hu)⟩
  · exact ⟨_, (exec_nakReceive p w s).trans (live_up hu)⟩
  · exact ⟨_, (exec_resyncReceive p w s).trans (live_up hu)⟩
  · exact ⟨_, (exec_resyncAckReceive p w s).trans (live_up hu)⟩

theorem State.receive_damaged {type : Nat} {act : State → Frame → State} (h : (s.fec p w).hears p w = .damaged) :
    s.receive p type w act = (s.fec p w).count (DP_DAMAGED_CNT p) 1 := by
  simp only [State.receive, h, State.discard]

theorem State.receive_forged {type : Nat} {act : State → Frame → State} (h : (s.fec p w).hears p w = .forged) :
    s.receive p type w act = (s.fec p w).count (DP_AUTH_FAIL p) 1 := by
  simp only [State.receive, h, State.discard]

theorem State.receive_ignored {type : Nat} {act : State → Frame → State}
    (h : (s.fec p w).hears p w = .unseen ∨ (s.fec p w).hears p w = .foreign ∨ (∃ en q, (s.fec p w).hears p w = .pfc en q)
      ∨ ∃ f, (s.fec p w).hears p w = .frame f ∧ f.type ≠ type) : s.receive p type w act = s.fec p w := by
  rcases h with h | h | ⟨en, q, h⟩ | ⟨f, h, ht⟩
  · simp only [State.receive, h]
  · simp only [State.receive, h]
  · simp only [State.receive, h]
  · rw [State.receive_frame h, if_neg ht]

theorem exec_foreignFrameReceive_foreign (hu : s.up = true) (h : (s.fec p w).hears p w = .foreign) :
    exec (.foreignFrameReceive p w) s = .next ((s.fec p w).count (DP_FOREIGN_CNT p) 1) := by
  rw [exec_foreignFrameReceive, execForeignFrameReceive, live_up hu]
  dsimp only
  rw [h]
  rfl

theorem exec_foreignFrameReceive_other (hu : s.up = true) (h : (s.fec p w).hears p w ≠ .foreign) :
    exec (.foreignFrameReceive p w) s = .next (s.fec p w) := by
  rw [exec_foreignFrameReceive, execForeignFrameReceive, live_up hu]
  dsimp only
  split
  next hh => exact absurd hh h
  next => rfl

end

/-! A frame found good. -/

section
variable {s : State} {p : Nat} {octets : Bytes} {f : Frame}

/-- Whether a tenant frame is sealed as its tenant requires (R341). -/
def State.sealedRight (s : State) (f : Frame) : Prop :=
  ∀ t, f.control = false → s.frameTenant (decide (f.type = ftResponse)) f = some t → bit f.flags 0 = s.regBit (DP_FTID t) 17

theorem else_of_ne {α : Type} {c : Prop} [Decidable c] {a b x : α} (h : (if c then a else b) = x) (ha : a ≠ x) : ¬ c ∧ b = x := by
  by_cases hc : c
  · exact absurd ((if_pos hc).symm.trans h) ha
  · exact ⟨hc, (if_neg hc).symm.trans h⟩

theorem then_frame {c : Prop} [Decidable c] {f g : Frame} (h : (if c then Heard.frame g else .forged) = .frame f) : c ∧ g = f := by
  by_cases hc : c
  · exact ⟨hc, Heard.frame.inj ((if_pos hc).symm.trans h)⟩
  · cases (if_neg hc).symm.trans h

/-- A frame found good: it is the frame parsed, but for its payload, and has passed every check. -/
theorem State.hear_frame (h : s.hear p octets = .frame f) :
    s.link p = true ∧ leNat (octets.drop (octets.length - 4)) = crc32 (octets.take (octets.length - 4))
      ∧ f.port = p ∧ f.dst = s.chip ∧ s.sealedRight f := by
  unfold State.hear at h
  extract_lets bs at2 tagged etype o g head tag epoch iv good at h
  obtain ⟨hmac, h⟩ := else_of_ne h nofun
  obtain ⟨-, h⟩ := else_of_ne h (by split <;> nofun)
  obtain ⟨-, h⟩ := else_of_ne h nofun
  obtain ⟨hdst, h⟩ := else_of_ne h nofun
  obtain ⟨-, h⟩ := else_of_ne h nofun
  rw [not_or, not_or, Bool.not_eq_true', Bool.not_eq_false, Decidable.not_not] at hmac
  rw [Decidable.not_not] at hdst
  obtain ⟨hlink, -, hfcs⟩ := hmac
  refine ⟨hlink, hfcs, ?_⟩
  by_cases hcontrol : g.control = true
  · rw [if_pos hcontrol] at h
    obtain ⟨-, rfl⟩ := then_frame h
    exact ⟨rfl, hdst, fun t hc => absurd hcontrol (Bool.not_eq_true _ ▸ hc)⟩
  rw [if_neg hcontrol] at h
  cases ht : s.frameTenant (decide (g.type = ftResponse)) g with
  | none =>
    rw [ht] at h
    obtain rfl := Heard.frame.inj h
    exact ⟨rfl, hdst, fun t _ hsome => by cases ht.symm.trans hsome⟩
  | some t =>
    rw [ht] at h
    obtain ⟨hseal, h⟩ := else_of_ne h nofun
    have hright : s.sealedRight g := fun t' _ ht' => by
      cases ht.symm.trans ht'
      simpa using hseal
    by_cases hsealed : bit g.flags 0 = true
    · obtain ⟨-, rfl⟩ := then_frame ((if_pos hsealed).symm.trans h)
      exact ⟨rfl, hdst, hright⟩
    · obtain rfl := Heard.frame.inj ((if_neg hsealed).symm.trans h)
      exact ⟨rfl, hdst, hright⟩

end

/-! Data frames: the steps before one is accepted (R331, R338, R347). -/

section
variable {s : State} {f : Frame} {r : RConn} {act : State → RConn → State}

/-- How far a frame's PSN lies ahead of the one its connection expects, modulo 2^24. -/
def Frame.ahead (f : Frame) (r : RConn) : Nat := (f.psn + 2 ^ 24 - r.exp) % 2 ^ 24

theorem State.inOrder_eq (s : State) (f : Frame) (act : State → RConn → State) : s.inOrder f act =
    let r := s.rconnOf f.port f.tc f.src
    let u := s.ackedBy f
    if 2 ^ 23 ≤ f.ahead r then u.answer r 3 0
    else if 0 < f.ahead r then u.answer r 4 1
    else if u.rxFree f.port < f.wire then u.answer r 4 3
    else if f.damaged then (u.answer r 4 2).count (DP_DAMAGED_CNT f.port) 1
    else act u r := rfl

theorem State.inOrder_earlier (hr : s.rconnOf f.port f.tc f.src = r) (h : 2 ^ 23 ≤ f.ahead r) :
    s.inOrder f act = (s.ackedBy f).answer r 3 0 := by
  rw [State.inOrder_eq, hr]
  exact if_pos h

theorem State.inOrder_later (hr : s.rconnOf f.port f.tc f.src = r) (h : 0 < f.ahead r) (hlt : f.ahead r < 2 ^ 23) :
    s.inOrder f act = (s.ackedBy f).answer r 4 1 := by
  rw [State.inOrder_eq, hr]
  exact (if_neg (Nat.not_le.2 hlt)).trans (if_pos h)

/-- The expected frame passes the checks of its PSN. -/
theorem State.inOrder_expected (hr : s.rconnOf f.port f.tc f.src = r) (h : f.ahead r = 0) : s.inOrder f act =
    if (s.ackedBy f).rxFree f.port < f.wire then (s.ackedBy f).answer r 4 3
    else if f.damaged then ((s.ackedBy f).answer r 4 2).count (DP_DAMAGED_CNT f.port) 1
    else act (s.ackedBy f) r := by
  rw [State.inOrder_eq, hr]
  dsimp only
  rw [h]
  rfl

theorem State.inOrder_noRoom (hr : s.rconnOf f.port f.tc f.src = r) (h : f.ahead r = 0) (hroom : (s.ackedBy f).rxFree f.port < f.wire) :
    s.inOrder f act = (s.ackedBy f).answer r 4 3 := (State.inOrder_expected hr h).trans (if_pos hroom)

theorem State.inOrder_damaged (hr : s.rconnOf f.port f.tc f.src = r) (h : f.ahead r = 0) (hroom : f.wire ≤ (s.ackedBy f).rxFree f.port)
    (hd : f.damaged = true) : s.inOrder f act = ((s.ackedBy f).answer r 4 2).count (DP_DAMAGED_CNT f.port) 1 := by
  rw [State.inOrder_expected hr h, if_neg (Nat.not_lt.2 hroom), if_pos hd]

theorem State.inOrder_accepts (hr : s.rconnOf f.port f.tc f.src = r) (h : f.ahead r = 0) (hroom : f.wire ≤ (s.ackedBy f).rxFree f.port)
    (hd : f.damaged = false) : s.inOrder f act = act (s.ackedBy f) r := by
  rw [State.inOrder_expected hr h, if_neg (Nat.not_lt.2 hroom), hd]
  rfl

/-! An accepted frame. -/

/-- The expected frame acknowledged and counted. -/
def State.ackNext (s : State) (f : Frame) (r : RConn) : State :=
  (s.answer { r with exp := (r.exp + 1) % 2 ^ 24 } 3 0).count (DP_RX_FRAMES f.port) 1

/-- A put of which a frame other than the last comes is noted as begun. -/
def State.opened (s : State) (f : Frame) : State :=
  if f.type = 1 ∧ bit f.flags 4 = false ∧ s.putOpen.contains f.putKey = false then { s with putOpen := s.putOpen ++ [f.putKey] } else s

/-- A frame put in the receive buffer. -/
def State.buffered (s : State) (f : Frame) : State := ({ s with rxq := s.rxq ++ [f] } : State).pauseUpdate f.port

theorem State.accept_eq (s : State) (r : RConn) (f : Frame) : s.accept r f = ((s.opened f).ackNext f r).buffered f := by
  unfold State.accept State.opened
  simp only [Bool.and_eq_true, decide_eq_true_eq, Bool.not_eq_true', and_assoc]
  rfl

/-- What a request in its turn does on its arrival: answered at once where it is barred, buffered else. -/
def State.takeRequest (f : Frame) (s : State) (r : RConn) : State :=
  if s.reqCheck f = stTenantGone ∨ s.reqCheck f = stHostAbsent ∨ s.reqCheck f = stStop then
    (s.ackNext f r).finishReq f (s.reqCheck f) (gaOff f.addr.toNat) []
  else s.accept r { f with status := BitVec.ofNat 16 (s.reqCheck f) }

/-- What a response in its turn does on its arrival: delivered at once where no frame of its connection waits before it. -/
def State.takeResponse (f : Frame) (s : State) (r : RConn) : State :=
  if s.rxq.any fun g => decide (g.port = f.port ∧ g.tc = f.tc ∧ g.src = f.src) then s.accept r f else (s.ackNext f r).deliver f

theorem State.takeRequest_barred (h : s.reqCheck f = stStop ∨ s.reqCheck f = stHostAbsent ∨ s.reqCheck f = stTenantGone) :
    s.takeRequest f r = (s.ackNext f r).finishReq f (s.reqCheck f) (gaOff f.addr.toNat) [] := by
  refine if_pos ?_
  rcases h with h | h | h
  · exact .inr (.inr h)
  · exact .inr (.inl h)
  · exact .inl h

theorem State.takeRequest_waits (hs : s.reqCheck f ≠ stStop) (ha : s.reqCheck f ≠ stHostAbsent) (hg : s.reqCheck f ≠ stTenantGone) :
    s.takeRequest f r = ((s.opened f).ackNext f r).buffered { f with status := BitVec.ofNat 16 (s.reqCheck f) } := by
  refine (if_neg ?_).trans (State.accept_eq s r _)
  rintro (h | h | h)
  · exact hg h
  · exact ha h
  · exact hs h

theorem State.takeResponse_waits (h : ∃ g ∈ s.rxq, g.port = f.port ∧ g.tc = f.tc ∧ g.src = f.src) :
    s.takeResponse f r = ((s.opened f).ackNext f r).buffered f := by
  refine (if_pos ?_).trans (State.accept_eq s r _)
  simpa using h

theorem State.takeResponse_delivers (h : ∀ g ∈ s.rxq, ¬ (g.port = f.port ∧ g.tc = f.tc ∧ g.src = f.src)) :
    s.takeResponse f r = (s.ackNext f r).deliver f := by
  refine if_neg ?_
  simpa using h

end

section
variable {s : State} {p : Fin 8} {w : WireFrame} {f : Frame} {r : RConn}

theorem exec_requestFrameReceive_own (hu : s.up = true) (h : (s.fec p w).hears p w = .frame f) (ht : f.type = ftRequest) :
    exec (.requestFrameReceive p w) s = .next ((s.fec p w).inOrder f (State.takeRequest f)) := by
  rw [exec_requestFrameReceive, execRequestFrameReceive, live_up hu, State.receive_own h ht]
  rfl

theorem exec_responseFrameReceive_own (hu : s.up = true) (h : (s.fec p w).hears p w = .frame f) (ht : f.type = ftResponse) :
    exec (.responseFrameReceive p w) s = .next ((s.fec p w).inOrder f (State.takeResponse f)) := by
  rw [exec_responseFrameReceive, execResponseFrameReceive, live_up hu, State.receive_own h ht]
  rfl

/-- A data frame goes through the checks of its order. -/
theorem exec_dataFrame {c : Instr} (hu : s.up = true) (h : (s.fec p w).hears p w = .frame f)
    (hc : (c = .requestFrameReceive p w ∧ f.type = 1) ∨ (c = .responseFrameReceive p w ∧ f.type = 2)) :
    ∃ act, exec c s = .next ((s.fec p w).inOrder f act) := by
  rcases hc with ⟨rfl, ht⟩ | ⟨rfl, ht⟩
  · exact ⟨_, exec_requestFrameReceive_own hu h ht⟩
  · exact ⟨_, exec_responseFrameReceive_own hu h ht⟩

theorem exec_requestFrameReceive_expected (hu : s.up = true) (h : (s.fec p w).hears p w = .frame f) (ht : f.type = ftRequest)
    (hr : (s.fec p w).rconnOf f.port f.tc f.src = r) (hz : f.ahead r = 0)
    (hroom : f.wire ≤ ((s.fec p w).ackedBy f).rxFree f.port) (hd : f.damaged = false) :
    exec (.requestFrameReceive p w) s = .next (((s.fec p w).ackedBy f).takeRequest f r) :=
  (exec_requestFrameReceive_own hu h ht).trans (congrArg _ (State.inOrder_accepts hr hz hroom hd))

theorem exec_responseFrameReceive_expected (hu : s.up = true) (h : (s.fec p w).hears p w = .frame f) (ht : f.type = ftResponse)
    (hr : (s.fec p w).rconnOf f.port f.tc f.src = r) (hz : f.ahead r = 0)
    (hroom : f.wire ≤ ((s.fec p w).ackedBy f).rxFree f.port) (hd : f.damaged = false) :
    exec (.responseFrameReceive p w) s = .next (((s.fec p w).ackedBy f).takeResponse f r) :=
  (exec_responseFrameReceive_own hu h ht).trans (congrArg _ (State.inOrder_accepts hr hz hroom hd))

theorem exec_frameApply_empty (hu : s.up = true) (h : s.rxq.find? (fun f => decide (f.port = p.val)) = none) :
    exec (.frameApply p) s = .next s := by
  rw [exec_frameApply, execFrameApply, live_up hu, h]

theorem exec_frameApply_oldest (hu : s.up = true) (h : s.rxq.find? (fun f => decide (f.port = p.val)) = some f) :
    exec (.frameApply p) s = .next
      (let u : State := { s with rxq := s.rxq.erase f }
       (if f.type = 1 then u.applyReq f else u.deliver f).pauseUpdate p) := by
  rw [exec_frameApply, execFrameApply, live_up hu, h]
  rfl

end

/-! The status of a request that is barred (R336, R374, R416). -/

section
variable {s : State} {f : Frame}

theorem State.reqCheck_stopped (h : s.stopped = true) : s.reqCheck f = stStop := if_pos h

theorem State.reqCheck_absent (h : s.stopped = false) (ha : s.hostAbsent = true) (ho : s.putOpen.contains f.putKey = false) :
    s.reqCheck f = stHostAbsent := by
  unfold State.reqCheck
  rw [h, ha, ho]
  rfl

theorem State.reqCheck_gone (h : s.stopped = false) (ha : s.hostAbsent = false ∨ s.putOpen.contains f.putKey = true)
    (ht : ∀ t, s.ftidTenant f.ftid = some t → s.slot t ≠ 1) : s.reqCheck f = stTenantGone := by
  have hnew : ¬ (s.hostAbsent && !s.putOpen.contains f.putKey) = true := by
    rcases ha with ha | ha <;> rw [ha] <;> simp
  unfold State.reqCheck
  rw [h, if_neg Bool.false_ne_true, if_neg hnew]
  cases hf : s.ftidTenant f.ftid with
  | none => rfl
  | some t => exact if_pos (ht t hf)

end

/-! How a request ends (R336). -/

section
variable {s : State} {f : Frame} {code off addr : Nat} {data : Bytes}

/-- What the end of a request leaves behind for the put's other frames: nothing of the put, and its end counted. -/
def State.closePut (s : State) (f : Frame) (code : Nat) : State :=
  let v : State := { s with putFail := s.putFail.filter fun x => x.1 != f.putKey, putOpen := s.putOpen.filter fun x => x != f.putKey }
  let v := if code = 0x51 then v.count (DP_GONE_CNT f.port) 1 else v
  if code = 0xF0 then { v with fw := { v.fw with refused := v.fw.refused + 1 } } else v

/-- The first failure of a put noted, where this is it. -/
def State.noteFailure (s : State) (f : Frame) (code off : Nat) : State :=
  if code ≠ 0 ∧ (s.putFail.find? fun x => decide (x.1 = f.putKey)) = none then { s with putFail := s.putFail ++ [(f.putKey, BitVec.ofNat 16 code, off)] } else s

theorem State.finishReq_eq (s : State) (f : Frame) (code off : Nat) (data : Bytes) : s.finishReq f code off data =
    if bit f.flags 4 then
      let first := (s.putFailed f).getD (code, off)
      ((s.noteFailure f code off).closePut f first.1).respond f first.1 (bits f.addr.toNat 51 48 * 2 ^ 48 + first.2)
        (if (s.putFailed f).isSome then [] else data)
    else { s.noteFailure f code off with
      putOpen := if (s.noteFailure f code off).putOpen.contains f.putKey then (s.noteFailure f code off).putOpen
        else (s.noteFailure f code off).putOpen ++ [f.putKey] } := by
  have hfirst : (s.putFailed f).isNone = true ↔ (s.putFail.find? fun x => decide (x.1 = f.putKey)) = none := by
    rw [State.putFailed, Option.isNone_map, Option.isNone_iff_eq_none]
  unfold State.finishReq State.noteFailure
  simp only [hfirst]
  rfl

theorem State.noteFailure_frame : { s.noteFailure f code off with putFail := s.putFail } = s := by
  unfold State.noteFailure
  split <;> rfl

theorem State.noteFailure_putOpen : (s.noteFailure f code off).putOpen = s.putOpen := (congrArg State.putOpen State.noteFailure_frame :)

/-- A put that is closed has its note dropped. -/
theorem State.closePut_noteFailure {c : Nat} : (s.noteFailure f code off).closePut f c = s.closePut f c := by
  have hfail : (s.noteFailure f code off).putFail.filter (fun x => x.1 != f.putKey) = s.putFail.filter fun x => x.1 != f.putKey := by
    unfold State.noteFailure
    split
    · simp
    · rfl
  have hback := congrArg (fun v : State => ({ v with putFail := s.putFail.filter fun x => x.1 != f.putKey, putOpen := s.putOpen.filter fun x => x != f.putKey } : State)) (State.noteFailure_frame (s := s) (f := f) (code := code) (off := off))
  unfold State.closePut
  rw [hfail, State.noteFailure_putOpen]
  dsimp only at hback ⊢
  rw [hback]

theorem State.finishReq_more (h : bit f.flags 4 = false) : s.finishReq f code off data
    = { s.noteFailure f code off with putOpen := if s.putOpen.contains f.putKey then s.putOpen else s.putOpen ++ [f.putKey] } := by
  rw [State.finishReq_eq, State.noteFailure_putOpen, h]
  rfl

theorem State.finishReq_last (h : bit f.flags 4 = true) : s.finishReq f code off data =
    let first := (s.putFailed f).getD (code, off)
    (s.closePut f first.1).respond f first.1 (bits f.addr.toNat 51 48 * 2 ^ 48 + first.2) (if (s.putFailed f).isSome then [] else data) := by
  rw [State.finishReq_eq, if_pos h]
  dsimp only
  rw [State.closePut_noteFailure]

/-! The frames of an answer (R329). -/

/-- An answer's data cut in pieces of 4,096 bytes; an answer without data is one empty piece. -/
def answerParts (data : Bytes) : List Bytes := if data.isEmpty then [[]] else chunks 4096 data

/-- The frames of an answer. -/
def State.answerFrames (s : State) (f : Frame) (code addr : Nat) (data : Bytes) : List Frame :=
  (answerParts data).zipIdx.map fun (b, i) =>
    { s.blankFrame f.port f.tc f.src with
      type := 2, flags := place (flag (decide (i + 1 = (answerParts data).length))) 4, ftid := f.ftid, opid := f.opid, opc := f.opc,
      len := b.length, addr := BitVec.ofNat 64 (addr + 4096 * i), explen := b.length, status := BitVec.ofNat 16 code, payload := b }

theorem State.respond_eq (s : State) (f : Frame) (code addr : Nat) (data : Bytes) :
    s.respond f code addr data = s.enqueue f.port f.tc f.src (s.answerFrames f code addr data) := rfl

theorem answerParts_eq (data : Bytes) :
    answerParts data = (List.range (max 1 ((data.length + 4095) / 4096))).map fun i => (data.drop (4096 * i)).take 4096 := by
  cases data with
  | nil => rfl
  | cons b data =>
    have hone : 1 ≤ ((b :: data).length + 4095) / 4096 := by rw [List.length_cons]; omega
    rw [Nat.max_eq_right hone]
    exact chunks_eq (by decide) _

theorem State.answerFrames_length : (s.answerFrames f code addr data).length = max 1 ((data.length + 4095) / 4096) := by
  rw [State.answerFrames, List.length_map, List.length_zipIdx, answerParts_eq, List.length_map, List.length_range]

theorem answerParts_length (s : State) (f : Frame) (code addr : Nat) (data : Bytes) :
    (answerParts data).length = (s.answerFrames f code addr data).length := by
  rw [State.answerFrames, List.length_map, List.length_zipIdx]

theorem bit_place_flag (b : Bool) : bit (place (flag b) 4) 4 = b := by
  cases b <;> rfl

theorem State.answerFrames_get {i : Nat} {g : Frame} (h : (s.answerFrames f code addr data)[i]? = some g) :
    g.type = 2 ∧ g.opid = f.opid ∧ g.ftid = f.ftid ∧ g.opc = f.opc ∧ g.status = BitVec.ofNat 16 code
      ∧ g.payload = (data.drop (4096 * i)).take 4096 ∧ g.addr = BitVec.ofNat 64 (addr + 4096 * i)
      ∧ bit g.flags 4 = decide (i + 1 = (s.answerFrames f code addr data).length) := by
  rw [← answerParts_length]
  simp only [State.answerFrames, List.getElem?_map, List.getElem?_zipIdx, Option.map_map, Option.map_eq_some_iff, Function.comp_apply,
    Nat.zero_add] at h
  obtain ⟨b, hb, rfl⟩ := h
  have hpart : b = (data.drop (4096 * i)).take 4096 := by
    rw [answerParts_eq, List.getElem?_map, Option.map_eq_some_iff] at hb
    obtain ⟨j, hj, rfl⟩ := hb
    rw [(List.getElem?_eq_some_iff.1 hj).2.symm.trans (List.getElem_range _)]
  exact ⟨rfl, rfl, rfl, rfl, rfl, hpart, rfl, bit_place_flag _⟩

/-! A request that fails changes nothing but what its answer does (R336). -/

theorem State.closePut_frame : { s.closePut f code with regs := s.regs, putFail := s.putFail, putOpen := s.putOpen, fw := s.fw } = s := by
  unfold State.closePut
  dsimp only
  split <;> split <;> rfl

theorem State.closePut_fw : (s.closePut f code).fw = s.fw ∨ (s.closePut f code).fw = { s.fw with refused := s.fw.refused + 1 } := by
  unfold State.closePut
  by_cases hc : code = 0xF0
  · subst hc
    exact .inr rfl
  · dsimp only
    rw [if_neg hc]
    refine .inl ?_
    split <;> rfl

theorem State.closePut_regs (h : smapWf resetOf s.regs = true) : smapWf resetOf (s.closePut f code).regs = true
    ∧ ∀ a, a ≠ DP_GONE_CNT f.port → (s.closePut f code).reg a = s.reg a := by
  let v : State := { s with putFail := s.putFail.filter fun x => x.1 != f.putKey, putOpen := s.putOpen.filter fun x => x != f.putKey }
  have he : (s.closePut f code).regs = (if code = 0x51 then v.count (DP_GONE_CNT f.port) 1 else v).regs := by
    unfold State.closePut
    dsimp only
    split <;> rfl
  have hreg : ∀ a, (s.closePut f code).reg a = (if code = 0x51 then v.count (DP_GONE_CNT f.port) 1 else v).reg a :=
    fun a => congrArg (smapGet resetOf · a) he
  rw [he]
  simp only [hreg]
  split
  · exact ⟨State.count_wf (s := v) _ _ h, fun a ha => State.reg_count_other (s := v) 1 h ha⟩
  · exact ⟨h, fun _ _ => rfl⟩

/-- What the end of a request may change: what sending touches, the notes of its put, and two counters. -/
def Ended (f : Frame) (w u : State) : Prop :=
  { w with regs := u.regs, tx := u.tx, conn := u.conn, rops := u.rops, putFail := u.putFail, putOpen := u.putOpen, fw := u.fw, free := u.free } = u
    ∧ (w.fw = u.fw ∨ w.fw = { u.fw with refused := u.fw.refused + 1 })
    ∧ (u.canon = true → ∀ a, a ≠ DP_TX_FRAMES f.port → a ≠ DP_GONE_CNT f.port → w.reg a = u.reg a)

theorem ended_finishReq (s : State) (f : Frame) (code off : Nat) (data : Bytes) : Ended f (s.finishReq f code off data) s := by
  by_cases hl : bit f.flags 4 = true
  · rw [State.finishReq_last hl]
    generalize (s.putFailed f).getD (code, off) = first
    dsimp only
    rw [State.respond_eq]
    generalize State.answerFrames _ _ _ _ _ = fs
    obtain ⟨hframe, hreg⟩ := enqueue_frame (s.closePut f first.1) f.port f.tc f.src fs
    have hfw : ((s.closePut f first.1).enqueue f.port f.tc f.src fs).fw = (s.closePut f first.1).fw := (congrArg State.fw hframe :)
    refine ⟨?_, hfw ▸ State.closePut_fw, fun hc a ha hg => ?_⟩
    · have hback := congrArg (fun v : State => ({ v with regs := s.regs, tx := s.tx, conn := s.conn, rops := s.rops, putFail := s.putFail, putOpen := s.putOpen, fw := s.fw, free := s.free } : State)) hframe
      have hclose := congrArg (fun v : State => ({ v with tx := s.tx, conn := s.conn, rops := s.rops, free := s.free } : State))
        (State.closePut_frame (s := s) (f := f) (code := first.1))
      exact hback.trans hclose
    · obtain ⟨hwf, hkeep⟩ := State.closePut_regs (f := f) (code := first.1) (State.canon_regs hc)
      exact ((hreg hwf).2 a ha).trans (hkeep a hg)
  · rw [State.finishReq_more (Bool.not_eq_true _ ▸ hl)]
    have hframe := State.noteFailure_frame (s := s) (f := f) (code := code) (off := off)
    refine ⟨?_, .inl (congrArg State.fw hframe :), fun _ a _ _ => (congrArg (fun v : State => v.reg a) hframe :)⟩
    have hback := congrArg (fun v : State => ({ v with regs := s.regs, tx := s.tx, conn := s.conn, rops := s.rops, putOpen := s.putOpen, fw := s.fw, free := s.free } : State))
      hframe
    exact hback

/-- A request with a failing status, or after a failed frame of its put, is answered without being applied. -/
theorem State.applyReq_unapplied (h : f.status ≠ 0 ∨ s.putFailed f ≠ none) : ∃ code off, s.applyReq f = s.finishReq f code off [] := by
  unfold State.applyReq
  by_cases hp : (s.putFailed f).isSome = true
  · exact ⟨_, _, if_pos hp⟩
  · have hs : f.status ≠ 0 := h.resolve_right fun hn => hp (Option.isSome_iff_ne_none.2 hn)
    rw [if_neg hp, if_pos hs]
    cases s.ftidTenant f.ftid with
    | none => exact ⟨_, _, rfl⟩
    | some t => exact ⟨_, _, rfl⟩

end

/-- Settles O46: what is heard by `State.hear_frame` and the lemmas on `State.receive`, the order by those on `State.inOrder`, the end
of a request by `State.finishReq_more`, `State.finishReq_last` and `ended_finishReq`, its answer by `State.answerFrames_get`. -/
theorem receivedFramesApplyInOrder : Obligations.ReceivedFramesApplyInOrder := by
  refine ⟨fun s hu => ⟨fun p w => ?_, fun p w f => ?_, fun p => ⟨exec_frameApply_empty hu, fun f => exec_frameApply_oldest hu⟩⟩,
    fun u f => ⟨State.reqCheck_stopped, State.reqCheck_absent, State.reqCheck_gone⟩, fun u f h => ?_, fun u f code off data => ?_,
    fun u f code at_ data => ⟨_, State.respond_eq u f code at_ data, State.answerFrames_length, fun i g => State.answerFrames_get⟩⟩
  · refine ⟨fun e he => ?_, exec_foreignFrameReceive_foreign hu, exec_foreignFrameReceive_other hu, fun f hf => ?_⟩
    · obtain ⟨act, hact⟩ := exec_frameCommand hu he
      rw [hact]
      exact ⟨fun h => congrArg _ (State.receive_damaged h), fun h => congrArg _ (State.receive_forged h), fun h => congrArg _ (State.receive_ignored h)⟩
    · obtain ⟨hlink, hfcs, hport, hdst, hseal⟩ := State.hear_frame hf
      refine ⟨hlink, hport, hdst, hfcs, fun t ht htenant => hseal t (decide_eq_false (Nat.not_le.2 ht)) ?_⟩
      unfold State.frameTenant
      simp only [decide_eq_true_eq]
      exact htenant
  · intro s2 hwhole hhear u r ahead taken key opened code waits
    have h : (s.fec p w).hears p w = .frame f := (State.hears_whole hwhole).trans hhear
    refine ⟨fun c hc => ?_, fun hz hroom hd => ⟨fun ht => ⟨fun hb => ?_, fun h1 h2 h3 => ?_⟩, fun ht => ⟨fun hg => ?_, fun hg => ?_⟩⟩⟩
    · obtain ⟨act, hact⟩ := exec_dataFrame hu h hc
      rw [hact]
      exact ⟨fun hl => congrArg _ (State.inOrder_earlier rfl hl), fun h0 hl => congrArg _ (State.inOrder_later rfl h0 hl),
        fun hz hl => congrArg _ (State.inOrder_noRoom rfl hz hl), fun hz hroom hd => congrArg _ (State.inOrder_damaged rfl hz hroom hd)⟩
    · exact (exec_requestFrameReceive_expected hu h ht rfl hz hroom hd).trans (congrArg _ (State.takeRequest_barred hb))
    · exact (exec_requestFrameReceive_expected hu h ht rfl hz hroom hd).trans (congrArg _ (State.takeRequest_waits h1 h2 h3))
    · exact (exec_responseFrameReceive_expected hu h ht rfl hz hroom hd).trans (congrArg _ (State.takeResponse_waits hg))
    · exact (exec_responseFrameReceive_expected hu h ht rfl hz hroom hd).trans (congrArg _ (State.takeResponse_delivers hg))
  · obtain ⟨code, off, happly⟩ := State.applyReq_unapplied h
    exact ⟨_, rfl, happly ▸ ended_finishReq u f code off []⟩
  · refine ⟨State.finishReq_more, fun hl => ?_⟩
    rw [State.finishReq_last hl, State.putFailed]
    cases u.putFail.find? fun x => decide (x.1 = f.putKey) with
    | none => rfl
    | some x => rfl

end Sys2Proof.Machine

namespace Sys2Proof.Machine

/-! ### Firmware resets and function-level resets (R375, R377) -/

/-! The device reset. -/

section
variable {s : State}

theorem State.devReset_stopped (h : s.stopped = true) : s.devReset = s := if_pos h

/-- Every LIVE slot begins to retire (R375). -/
def State.liveRetired (s : State) : State := (List.range 16).foldl (fun (s : State) t => if s.slot t = 1 then s.retireTenant t else s) s

theorem State.devReset_eq (h : s.stopped = false) : s.devReset = s.liveRetired.dropWrites.contentGone.fwFresh :=
  if_neg (Bool.eq_false_iff.1 h)

theorem State.liveRetired_wf (h : s.canon = true) : smapWf resetOf s.liveRetired.regs = true := by
  refine kept_regs (kept_fold (kept_self h) fun u t hu => ?_)
  exact ite_kept (fun _ => State.retireTenant_kept hu) fun _ => hu

/-- The waiting writes of other functions. -/
def State.othersWrites (s : State) : State := { s with wq := s.wq.filter fun p => p.fn != 16 }

theorem State.dropWrites_eq : s.dropWrites = s.othersWrites.modReg (CMD_WDONE 16) fun k => (k + (s.wq.filter fun p => decide (p.fn = 16)).length) % 2 ^ 32 := by
  unfold State.dropWrites State.othersWrites
  rfl

theorem State.dropWrites_wf (hw : smapWf resetOf s.regs = true) : smapWf resetOf s.dropWrites.regs = true := by
  rw [State.dropWrites_eq]
  exact State.modReg_wf (s := s.othersWrites) _ _ hw

theorem State.dropWrites_reg {a : Nat} (hw : smapWf resetOf s.regs = true) (ha : a ≠ CMD_WDONE 16) : s.dropWrites.reg a = s.reg a := by
  rw [State.dropWrites_eq]
  exact State.reg_modReg_other (s := s.othersWrites) _ hw ha

/-- The PF's emulated registers take their reset values, and the staging area opens; no other register changes. -/
theorem State.fwFresh_reg {a : Nat} (hw : smapWf resetOf s.regs = true) :
    s.fwFresh.reg a = if pfEmulated a then resetOf a else (s.staging false).reg a :=
  State.reg_resetRegs (State.setBit_wf _ _ _ hw)

theorem pfEmulated_page {a p : Nat} (h : pageOf a = some (.cmd, 16, p)) (hp : p ≠ 0 ∨ 0x60 ≤ a % 0x1000) : pfEmulated a = true := by
  rw [pfEmulated, h]
  simpa using hp

theorem pfEmulated_slot : ∀ t : Fin 16, pfEmulated (QN_TSTAT t) = false ∧ QN_TSTAT t ≠ QN_RGN 259 ∧ QN_TSTAT t ≠ CMD_WDONE 16 := by decide +kernel

theorem State.fwFresh_staging (hw : smapWf resetOf s.regs = true) : s.fwFresh.regBit (QN_RGN 259) 1 = false := by
  have hkeeps : s.fwFresh.reg (QN_RGN 259) = (s.staging false).reg (QN_RGN 259) :=
    (State.fwFresh_reg hw).trans (if_neg (Bool.eq_false_iff.1 (by decide +kernel)))
  exact (regBit_of hkeeps).trans (State.regBit_setBit_same _ _ _ hw (by decide))

theorem State.fwFresh_state (hw : smapWf resetOf s.regs = true) : s.fwFresh.field CMD_FW_STAT 3 0 = 0 := by
  have hreset : s.fwFresh.reg CMD_FW_STAT = resetOf CMD_FW_STAT := (State.fwFresh_reg hw).trans (if_pos (by decide +kernel))
  rw [State.field, State.regN, hreset]
  decide +kernel

/-- Slot states stand when writes and content are dropped and the firmware is gone. -/
theorem State.fwFresh_slot (hw : smapWf resetOf s.regs = true) (t : Fin 16) : s.dropWrites.contentGone.fwFresh.slot t = s.slot t := by
  obtain ⟨hpf, hrgn, hdone⟩ := pfEmulated_slot t
  have hd := State.dropWrites_wf hw
  refine field_of ?_
  calc s.dropWrites.contentGone.fwFresh.reg (QN_TSTAT t)
      = (s.dropWrites.contentGone.staging false).reg (QN_TSTAT t) := (State.fwFresh_reg hd).trans (if_neg (Bool.eq_false_iff.1 hpf))
    _ = s.dropWrites.contentGone.reg (QN_TSTAT t) := State.reg_setBit_other _ _ hd hrgn
    _ = s.reg (QN_TSTAT t) := State.dropWrites_reg hw hdone

theorem State.dropWrites_frame : s.dropWrites = { s with regs := s.dropWrites.regs, wq := s.wq.filter fun p => p.fn != 16 } := rfl

theorem State.fwFresh_frame : s.fwFresh
    = { s with
        regs := s.fwFresh.regs, ring := smapErase s.ring (eqKey 16), libVer := none
        fw := { s.fw with verify := none, running := none, cand := none, hbSeen := false, missed := 0, absentTimer := false } } := rfl

/-- Beside registers, dropping writes, content and firmware changes those alone. -/
theorem State.fwFresh_dropped_frame : ∃ r, s.dropWrites.contentGone.fwFresh
    = { s with
        regs := r, wq := s.wq.filter fun p => p.fn != 16
        bed := [], bedPoison := [], hbm := [], hbmPoison := [], hbmKey := [], nandBytes := []
        ring := smapErase s.ring (eqKey 16), libVer := none
        fw := { s.fw with verify := none, running := none, cand := none, hbSeen := false, missed := 0, absentTimer := false } } := by
  refine ⟨s.dropWrites.contentGone.fwFresh.regs, State.fwFresh_frame.trans ?_⟩
  generalize s.dropWrites.contentGone.fwFresh.regs = r
  rw [State.dropWrites_frame]
  rfl

/-- Where no scheduled move waits, a device reset leaves all it does not name, and LIVE slots are RETIRING. -/
theorem State.devReset_frame (hc : s.canon = true) (hq : s.schedQ = []) :
    let d := s.liveRetired.dropWrites.contentGone.fwFresh
    { d with bed := s.bed, bedPoison := s.bedPoison, hbm := s.hbm, hbmPoison := s.hbmPoison, hbmKey := s.hbmKey, nandBytes := s.nandBytes, regs := s.regs, flights := s.flights, jq := s.jq, relHead := s.relHead, pcie := s.pcie, drainTimer := s.drainTimer, wq := s.wq, ring := s.ring, libVer := s.libVer, fw := s.fw } = s
      ∧ d.wq = s.wq.filter (fun p => p.fn != 16) ∧ ∀ t, t < 16 → s.slot t = 1 → d.slot t = 2 := by
  obtain ⟨hwf, hframe, hslots, -, -⟩ := retire_fold (List.range 16) s hq (fun t => List.mem_range.1) (State.canon_regs hc)
  replace hframe := hframe s
  change ∀ t ∈ List.range 16, s.slot t = 1 → s.liveRetired.slot t = 2 at hslots
  change smapWf resetOf s.liveRetired.regs = true at hwf
  change ({ s.liveRetired with regs := s.regs, jq := s.jq, relHead := s.relHead, flights := s.flights, pcie := s.pcie, drainTimer := s.drainTimer } : State) = s at hframe
  generalize s.liveRetired = v at *
  have hslot := State.fwFresh_slot hwf
  obtain ⟨r, hd⟩ := v.fwFresh_dropped_frame
  intro d
  refine ⟨?_, ?_, fun t ht hlive => (hslot ⟨t, ht⟩).trans (hslots t (List.mem_range.2 ht) hlive)⟩
  · change d = _ at hd
    rw [hd]
    have hrest := congrArg (fun x : State => ({ x with bed := s.bed, bedPoison := s.bedPoison, hbm := s.hbm, hbmPoison := s.hbmPoison, hbmKey := s.hbmKey, nandBytes := s.nandBytes, wq := s.wq, ring := s.ring, libVer := s.libVer, fw := s.fw } : State)) hframe
    exact hrest
  · have hwq := congrArg State.wq hframe
    change v.wq = s.wq at hwq
    rw [← hwq]
    exact congrArg State.wq hd

theorem execPfFlr_eq (hu : s.up = true) : exec .pfFlr s = .next s.devReset := by rw [exec_pfFlr, execPfFlr, live_up hu]

theorem execFwReset_other (hu : s.up = true) (h : ∀ p, ¬ FwTurn s 3 p) : exec .fwReset s = .next s := by
  rw [exec_fwReset, execFwReset, live_up hu, State.onFront]
  refine congrArg _ ?_
  cases hf : s.front 16 with
  | none => rfl
  | some p =>
    refine if_neg fun hw => h p ?_
    simp only [Bool.and_eq_true, decide_eq_true_eq] at hw
    obtain ⟨⟨hkind, hlow⟩, hset⟩ := hw
    exact ⟨hf, hkind, hlow, (bit_eq_testBit _ _).symm.trans hset⟩

theorem execFwReset_turn {p : Posted} (hu : s.up = true) (h : FwTurn s 3 p) :
    exec .fwReset s = .next (if s.stopped = true then s.popDone 16 else s.devReset) := by
  obtain ⟨hf, hkind, hlow, hset⟩ := h
  rw [exec_fwReset, execFwReset, live_up hu, State.onFront_eq hf]
  simp only [Bool.and_eq_true, decide_eq_true_eq]
  exact ⟨⟨hkind, hlow⟩, (bit_eq_testBit _ _).trans hset⟩

end

/-! Function-level resets of a tenant. -/

section
variable {s : State} {t : Fin 16}

/-- The tenant's undispatched work is dropped, its descriptors in flight are marked, and the 80 ms run (R377). -/
def State.flrBegun (s : State) (t : Nat) : State :=
  let u := s.dropPending t
  { u with
    flights := u.flights.map fun f : Flight => if f.tenant = t then { f with noRecord := true } else f
    flrTimer := insertNat t u.flrTimer }

theorem execVfFlr_eq (hu : s.up = true) : exec (.vfFlr t) s = .next ((s.flrBegun t).resetPages t) := by
  rw [exec_vfFlr, execVfFlr, live_up hu]
  rfl

/-- The tenant's own registers are at reset, every other as it was. -/
theorem State.flrBegun_reg (a : Nat) (hw : smapWf resetOf s.regs = true) :
    ((s.flrBegun t).resetPages t).reg a = if ownRegs .cmd t a then resetOf a else s.reg a := by
  obtain ⟨hwf, -, -, hreg⟩ := dropPending_facts s t hw
  have hreset : ((s.flrBegun t).resetPages t).reg a = if ownRegs .cmd t a then resetOf a else (s.dropPending t).reg a :=
    State.reg_resetRegs hwf
  rw [hreset]
  by_cases hown : ownRegs .cmd t a = true
  · rw [if_pos hown, if_pos hown]
  · rw [if_neg hown, if_neg hown]
    refine hreg a fun q hq => ?_
    obtain ⟨hhead, hstat⟩ := own_jq t ⟨q, hq⟩
    exact ⟨fun e => hown (e ▸ hhead), fun e => hown (e ▸ hstat)⟩

theorem State.resetPages_frame (fn : Nat) : ∃ r k j g m, s.resetPages fn
    = { s with
        regs := r, wq := s.wq.filter fun p => p.fn != fn, relHead := k, jq := j, ring := g, mapOp := m
        fw := { s.fw with cqSince := smapErase s.fw.cqSince fn, ended := smapErase s.fw.ended fn } } :=
  ⟨_, _, _, _, _, rfl⟩

/-- VF_FLR discards the tenant's waiting writes and the order records it holds, and otherwise stays in its own pages and descriptors. -/
theorem State.flrBegun_frame (hw : smapWf resetOf s.regs = true) :
    let v := (s.flrBegun t).resetPages t
    { v with flights := s.flights, flrTimer := s.flrTimer, regs := s.regs, wq := s.wq, jq := s.jq, ring := s.ring, mapOp := s.mapOp, fw := s.fw, relHead := s.relHead } = s
      ∧ { v.fw with cqSince := s.fw.cqSince, ended := s.fw.ended } = s.fw ∧ v.wq = s.wq.filter (fun p => p.fn != t.val) := by
  obtain ⟨-, hframe, -, -⟩ := dropPending_facts s t hw
  replace hframe := hframe s
  obtain ⟨r, k, j, g, m, hv⟩ := (s.flrBegun t).resetPages_frame t
  unfold State.flrBegun at hv ⊢
  generalize s.dropPending t = u at *
  intro v
  change v = _ at hv
  rw [hv]
  have hrest := congrArg (fun x : State => ({ x with flrTimer := s.flrTimer, wq := s.wq, ring := s.ring, mapOp := s.mapOp, fw := s.fw } : State)) hframe
  have hfw := congrArg (fun x : State => ({ x.fw with cqSince := s.fw.cqSince, ended := s.fw.ended } : Fw)) hframe
  have hwq := congrArg (fun x : State => x.wq.filter fun p => p.fn != t.val) hframe
  exact ⟨hrest, hfw, hwq⟩

theorem State.flrBegun_flights (hw : smapWf resetOf s.regs = true) :
    ((s.flrBegun t).resetPages t).flights
      = (s.flights.filter fun f => !(f.held && decide (f.tenant = t.val))).map (fun f : Flight => if f.tenant = t.val then { f with noRecord := true } else f) := by
  obtain ⟨-, -, hflights, -⟩ := dropPending_facts s t hw
  rw [← hflights]
  rfl

theorem execVfFlrTimeout_idle (hu : s.up = true) (h : t.val ∉ s.flrTimer) : exec (.vfFlrTimeout t) s = .next s := by
  rw [exec_vfFlrTimeout, execVfFlrTimeout, live_up hu, if_neg fun k => h (List.contains_iff_mem.1 k)]

/-- Whether VF_FLR has marked a descriptor of the tenant. -/
def Flight.flrOf (t : Nat) (f : Flight) : Bool := decide (f.tenant = t) && f.noRecord

/-- The end of the 80 ms: units still at work on marked descriptors are reset, and what is left of those is dropped (R377). -/
theorem execVfFlrTimeout_ends (hu : s.up = true) (h : t.val ∈ s.flrTimer) : ∃ u : State, Spared s u
    ∧ exec (.vfFlrTimeout t) s
      = .next { u with flights := u.flights.filter (fun f => !f.flrOf t), flrTimer := u.flrTimer.filter (fun x => x != t.val) } := by
  rw [exec_vfFlrTimeout, execVfFlrTimeout, live_up hu, if_pos (List.contains_iff_mem.2 h)]
  refine ⟨_, foldl_keeps (P := fun u : State => Spared s u) (spared_self s) ?_, rfl⟩
  exact fun u x _ hs => spared_reset x.1 x.2 hs

end

/-- Settles O52: the device reset by the lemmas on `fwFresh` and by `retire_fold`, the function-level resets by `dropPending_facts`
and by what a block reset spares. -/
theorem resetsDiscard : Obligations.ResetsDiscard := by
  refine ⟨fun s hu => ?_, fun s => State.devReset_stopped, fun s hc hs => ?_⟩
  · refine ⟨execFwReset_other hu, fun p => execFwReset_turn hu, execPfFlr_eq hu, fun t hc => ⟨?_, execVfFlrTimeout_idle hu, fun ht => ?_⟩⟩
    · have hw := State.canon_regs hc
      obtain ⟨hrest, hfw, hwq⟩ := State.flrBegun_frame (t := t) hw
      exact ⟨_, execVfFlr_eq hu, hrest, hfw, hwq, mem_insertNat _ _, State.flrBegun_flights hw, fun a => State.flrBegun_reg a hw⟩
    · obtain ⟨u, ⟨hbed, hhbm, hmarks, hkeys, hwq, htimer, hsub⟩, hexec⟩ := execVfFlrTimeout_ends hu ht
      refine ⟨_, hexec, fun f hf => ?_, congrArg _ htimer, hbed, hhbm, hmarks, hkeys, hwq⟩
      obtain ⟨hmem, hnot⟩ := List.mem_filter.1 hf
      refine ⟨hsub f hmem, fun ⟨htenant, hmarked⟩ => ?_⟩
      simp [Flight.flrOf, htenant, hmarked] at hnot
  · have hw := State.dropWrites_wf (State.liveRetired_wf hc)
    rw [State.devReset_eq hs]
    refine ⟨rfl, rfl, rfl, rfl, rfl, rfl, rfl, rfl, rfl, rfl, State.fwFresh_staging hw, fun a p ha hp => ?_, State.fwFresh_state hw, fun hq => ?_⟩
    · exact (State.fwFresh_reg hw).trans (if_pos (pfEmulated_page ha hp))
    · exact State.devReset_frame hc hq

end Sys2Proof.Machine

namespace Sys2Proof.Machine

/-! ### The package's links (R350, R361, R451, R460) -/

theorem linkModeOk_iff {gts lanes : Nat} : linkModeOk gts lanes = true ↔ gts ∈ [640, 320, 160, 80, 50, 25] ∧ lanes ∈ [16, 8, 4, 1] := by
  rw [linkModeOk, Bool.and_eq_true, List.contains_iff_mem, List.contains_iff_mem]

theorem exec_pcieLinkUp_trained {s : State} {gts lanes : Nat} (hu : s.up = true) (hdown : s.pcie.linkUp = false)
    (hmode : linkModeOk gts lanes = true) :
    exec (.pcieLinkUp gts lanes) s = .next { s with pcie := { s.pcie with linkUp := true, gts := gts, lanes := lanes } } := by
  rw [exec_pcieLinkUp, execPcieLinkUp, live_up hu, if_pos ⟨hmode, by rw [hdown]; rfl⟩]

theorem exec_pcieLinkUp_idle {s : State} {gts lanes : Nat} (hu : s.up = true) (h : ¬ (linkModeOk gts lanes = true ∧ s.pcie.linkUp = false)) :
    exec (.pcieLinkUp gts lanes) s = .next s := by
  rw [exec_pcieLinkUp, execPcieLinkUp, live_up hu, if_neg fun k => h ⟨k.1, by simpa using k.2⟩]

/-- Settles O10: the link by its modes, the other three commands as they run out of reset. -/
theorem packageLinks : Obligations.PackageLinks := by
  intro s hu
  obtain ⟨hperst, hdefined⟩ := (State.up_iff s).1 hu
  refine ⟨fun gts lanes hdown hg hl => exec_pcieLinkUp_trained hu hdown (linkModeOk_iff.2 ⟨hg, hl⟩), fun gts lanes h => ?_, ?_, ?_, ?_⟩
  · refine exec_pcieLinkUp_idle hu fun ⟨hmode, hdown⟩ => ?_
    obtain ⟨hg, hl⟩ := linkModeOk_iff.1 hmode
    rcases h with hup | hg' | hl'
    · exact Bool.false_ne_true (hdown.symm.trans hup)
    · exact hg' hg
    · exact hl' hl
  · rw [exec_configSpaceReady, execConfigSpaceReady, live_up hu]
  · rw [exec_smbusClockLowTimeout, execSmbusClockLowTimeout, live_up hu]
  · rw [exec_refclkPcieLoss, execRefclkPcieLoss, atPins_ok hdefined, if_pos hperst]

/-! ### COMMAND_WRITE_APPLY (R356, and the refusals of R68, R70, R352 and R463) -/

section
variable {s : State} {fn : Fin 17} {p : Posted}

theorem Posted.empty_plain (h : p.kind = .plain) : p.empty = true := by rw [Posted.empty, h]

theorem Posted.empty_ctl {q : Nat} (h : p.kind = .ctl q) (hv : p.val.toNat % 16 = 0) : p.empty = true := by
  rw [Posted.empty, h]
  exact decide_eq_true hv

theorem Posted.empty_fwCtl (h : p.kind = .fwCtl) (hv : p.val.toNat % 16 = 0) : p.empty = true := by
  rw [Posted.empty, h]
  exact decide_eq_true hv

theorem Posted.empty_map (h : p.kind = .map) (hv : p.val.toNat % 4 = 0 ∨ p.val.toNat % 4 = 3) : p.empty = true := by
  rw [Posted.empty, h]
  simpa using hv

/-- A write with a plain register, or with no action, is applied where it is the function's next. -/
theorem exec_commandWriteApply_front (hu : s.up = true) (hf : s.front fn = some p) (he : p.empty = true) :
    exec (.commandWriteApply fn) s = .next (if p.kind = .plain then (s.applyPlain p).popDone fn
      else if p.kind = .map then (s.cmdErr fn).popDone fn else s.popDone fn) := by
  rw [exec_commandWriteApply, execCommandWriteApply, live_up hu, State.onFront_eq hf he]
  cases p.kind <;> rfl

theorem exec_commandWriteApply_plain (hu : s.up = true) (hf : s.front fn = some p) (h : p.kind = .plain) :
    exec (.commandWriteApply fn) s = .next ((s.applyPlain p).popDone fn) := by
  rw [exec_commandWriteApply_front hu hf (Posted.empty_plain h), if_pos h]

theorem exec_commandWriteApply_ctl {q : Nat} (hu : s.up = true) (hf : s.front fn = some p) (h : p.kind = .ctl q)
    (hv : p.val.toNat % 16 = 0) : exec (.commandWriteApply fn) s = .next (s.popDone fn) := by
  rw [exec_commandWriteApply_front hu hf (Posted.empty_ctl h hv), h]
  rfl

theorem exec_commandWriteApply_fwCtl (hu : s.up = true) (hf : s.front fn = some p) (h : p.kind = .fwCtl)
    (hv : p.val.toNat % 16 = 0) : exec (.commandWriteApply fn) s = .next (s.popDone fn) := by
  rw [exec_commandWriteApply_front hu hf (Posted.empty_fwCtl h hv), h]
  rfl

theorem exec_commandWriteApply_map (hu : s.up = true) (hf : s.front fn = some p) (h : p.kind = .map)
    (hv : p.val.toNat % 4 = 0 ∨ p.val.toNat % 4 = 3) : exec (.commandWriteApply fn) s = .next ((s.cmdErr fn).popDone fn) := by
  rw [exec_commandWriteApply_front hu hf (Posted.empty_map h hv), h]
  rfl

theorem State.popDone_front (hf : s.front fn = some p) :
    s.popDone fn = { s with wq := s.wq.erase p }.modReg (CMD_WDONE fn) fun n => (n + 1) % 2 ^ 32 := by
  rw [State.popDone, hf]
  rfl

theorem State.applyPlain_header (h : rowAt .cmd p.fn (p.off / 0x1000) (p.off % 0x1000) = none) :
    s.applyPlain p = s.headerWrite .cmd p.fn (p.off % 0x1000) p.val.toNat := by
  rw [State.applyPlain, h]

end

section
variable {s : State} {p : Posted} {r : Reg} {k byte : Nat}

/-- What the write of a plain register comes to, from its first refusal to its storing. -/
theorem State.applyPlain_register (h : rowAt .cmd p.fn (p.off / 0x1000) (p.off % 0x1000) = some (r, k, byte)) {a v : Nat}
    (ha : p.addr - byte = a) (hv : s.mergeHalf a byte p.size r.bytes p.val.toNat = v) :
    s.applyPlain p = if (p.fn < 16 ∧ (a = CMD_CQ_BASE p.fn ∨ a = CMD_CQ_SIZE p.fn)) ∧ s.anyQueue p.fn = true then s.cmdErr p.fn
      else if a = CMD_EQ_VEC p.fn then (if vecOk p.fn (v % 0x800) then s.setRegN a (v % 0x800) else s.cmdErr p.fn)
      else if (p.fn < 16 ∧ (a = CMD_MAP_OFF p.fn ∨ a = CMD_MAP_LEN p.fn)) ∧ s.regBit (CMD_MAP_STAT p.fn) 0 = true then s.cmdErr p.fn
      else s.storeReg .cmd p.fn r a v := by
  subst ha hv
  rw [State.applyPlain, h]
  dsimp only
  simp only [decide_eq_true_eq]
  generalize p.addr - byte = a
  by_cases hvf : p.fn < 16
  · by_cases hq : s.anyQueue p.fn = true
    · by_cases hbase : a = CMD_CQ_BASE p.fn
      · rw [if_pos ⟨hbase, hvf, hq⟩, if_pos ⟨⟨hvf, .inl hbase⟩, hq⟩]
      · by_cases hsize : a = CMD_CQ_SIZE p.fn
        · rw [if_neg fun c => hbase c.1, if_pos ⟨hsize, hvf, hq⟩, if_pos ⟨⟨hvf, .inr hsize⟩, hq⟩]
        · simp [hbase, hsize, hvf]
    · simp [hq, hvf]
  · simp [hvf]

end

/-- Settles O19: the command by the kind of the write, a plain write by `applyPlain_register` and the access code of its register. -/
theorem commandWriteApplied : Obligations.CommandWriteApplied := by
  intro s fn p hu hf row
  refine ⟨fun hk hrow => ?_, ?_, fun q => exec_commandWriteApply_ctl hu hf,
    exec_commandWriteApply_fwCtl hu hf, exec_commandWriteApply_map hu hf, State.popDone_front hf⟩
  · rw [exec_commandWriteApply_plain hu hf hk, State.applyPlain_header hrow]
  · intro r k byte hk hfn hrow a v ring range
    have happly := State.applyPlain_register (s := s) (a := a) (v := v) hrow rfl rfl
    rw [hfn] at happly
    rw [exec_commandWriteApply_plain hu hf hk, happly]
    refine ⟨fun hring hq => ?_, fun hfree => ?_⟩
    · rw [if_pos ⟨of_decide_eq_true hring, hq⟩]
    · have hno : ¬ ((fn.val < 16 ∧ (a = CMD_CQ_BASE fn ∨ a = CMD_CQ_SIZE fn)) ∧ s.anyQueue fn = true) := fun ⟨hring, hq⟩ =>
        hfree.elim (of_decide_eq_false · hring) fun hnone => Bool.false_ne_true (hnone.symm.trans hq)
      rw [if_neg hno]
      refine ⟨fun hvec => ?_, fun hvec hrange hbusy => ?_, fun hvec hidle => ?_⟩
      · rw [if_pos hvec]
      · rw [if_neg hvec, if_pos ⟨of_decide_eq_true hrange, hbusy⟩]
      · have hno' : ¬ ((fn.val < 16 ∧ (a = CMD_MAP_OFF fn ∨ a = CMD_MAP_LEN fn)) ∧ s.regBit (CMD_MAP_STAT fn) 0 = true) := fun ⟨hrange, hbusy⟩ =>
          hidle.elim (of_decide_eq_false · hrange) fun hnone => Bool.false_ne_true (hnone.symm.trans hbusy)
        rw [if_neg hvec, if_neg hno']
        refine ⟨fun hacc => ?_, fun hacc => ?_⟩
        · rw [State.storeReg_rw (.inl hacc)]
          rfl
        · rw [State.storeReg_ro hacc]

end Sys2Proof.Machine

namespace Sys2Proof.Machine

/-! ### Power samples, the estimate correction, the cap loop and the thermal cap (R406 to R414) -/

/-! Where the registers of the power page lie. -/

theorem pageAddr_pwr (p : Nat) : pageAddr .pwr 0 p = 0xC0000 + p * 0x1000 := by simp [pageAddr, placeOf]

theorem PWR_DOM_I_eq (d : Nat) : PWR_DOM_I d = 0xC2044 + d * 8 := by rw [PWR_DOM_I, pageAddr_pwr]

theorem PWR_FSTAT_eq (k : Nat) : PWR_FSTAT k = 0xC1044 + k * 8 := by rw [PWR_FSTAT, pageAddr_pwr]

/-- Registers of the first power page lie apart from currents and ramps. -/
theorem pwr_first_page {a : Nat} (ha : a < 0xC1000) (n : Nat) : a ≠ PWR_DOM_I n ∧ a ≠ PWR_FSTAT n := by
  rw [PWR_DOM_I_eq, PWR_FSTAT_eq]
  omega

theorem PWR_DOM_I_ne_FSTAT {k : Nat} (d : Nat) (hk : k < 113) : PWR_DOM_I d ≠ PWR_FSTAT k := by
  rw [PWR_DOM_I_eq, PWR_FSTAT_eq]
  omega

/-! What a power sample measures. -/

/-- The current that a sample reports for a domain, in steps of 0.1 A. -/
def sampledAmps (currents : List (Fin 215 × BitVec 16)) (d : Nat) : Nat :=
  match currents.find? fun c => decide (c.1.val = d) with
  | some c => c.2.toNat
  | none => 0

theorem sampledAmps_lt (currents : List (Fin 215 × BitVec 16)) (d : Nat) : sampledAmps currents d < 2 ^ 64 := by
  unfold sampledAmps
  split
  · omega
  · decide

/-- The chip power of a sample, in steps of 0.1 mW (R406, R407). -/
def chipPower (currents : List (Fin 215 × BitVec 16)) (aon : Nat) (sensed : BitVec 10) : Nat :=
  ((List.range 215).map (sampledAmps currents)).foldl (· + ·) 0 * sensed.toNat + 10 * aon

section
variable {s : State}

/-- The currents of a sample in their registers. -/
def State.ampsStored (s : State) (currents : List (Fin 215 × BitVec 16)) : State :=
  (List.range 215).foldl (fun (s : State) d => s.setRegN (PWR_DOM_I d) (sampledAmps currents d)) s

theorem State.ampsStored_facts (currents : List (Fin 215 × BitVec 16)) (hw : smapWf resetOf s.regs = true) :
    Writes (fun a => ∃ d, d ∈ List.range 215 ∧ a = PWR_DOM_I d) s (s.ampsStored currents)
      ∧ ∀ d, d < 215 → (s.ampsStored currents).regN (PWR_DOM_I d) = sampledAmps currents d := by
  have hapart : (List.range 215).Pairwise fun c d => PWR_DOM_I c ≠ PWR_DOM_I d :=
    List.nodup_range.imp fun hne h => hne (by rw [PWR_DOM_I_eq, PWR_DOM_I_eq] at h; omega)
  obtain ⟨hwrites, hread⟩ := setAll _ PWR_DOM_I (sampledAmps currents) hapart s hw
  exact ⟨hwrites, fun d hd => (hread d (List.mem_range.2 hd)).trans (Nat.mod_eq_of_lt (sampledAmps_lt currents d))⟩

/-- A sample's currents and sensed voltage are stored. -/
def State.readingsStored (s : State) (currents : List (Fin 215 × BitVec 16)) (sensed : BitVec 10) : State :=
  (s.ampsStored currents).setField PWR_VTARGET 25 16 sensed.toNat

/-- Registers in which the readings of a sample are stored. -/
def isReading (a : Nat) : Prop := a = PWR_VTARGET ∨ ∃ d, d < 215 ∧ a = PWR_DOM_I d

theorem State.readingsStored_facts (currents : List (Fin 215 × BitVec 16)) (sensed : BitVec 10) (hw : smapWf resetOf s.regs = true) :
    let u := s.readingsStored currents sensed
    Writes isReading s u ∧ (∀ d, d < 215 → u.regN (PWR_DOM_I d) = sampledAmps currents d)
      ∧ u.field PWR_VTARGET 25 16 = sensed.toNat ∧ u.field PWR_VTARGET 9 0 = s.field PWR_VTARGET 9 0 := by
  obtain ⟨hamps, hread⟩ := State.ampsStored_facts (s := s) currents hw
  have hin : Writes isReading s (s.ampsStored currents) := hamps.mono fun a ⟨d, hd, e⟩ => .inr ⟨d, List.mem_range.1 hd, e⟩
  have hvoltage : (s.ampsStored currents).reg PWR_VTARGET = s.reg PWR_VTARGET :=
    hamps.2.1 _ fun ⟨d, _, e⟩ => (pwr_first_page (by decide) d).1 e
  refine ⟨hin.field _ _ _ _ (.inl rfl), fun d hd => ?_, ?_, ?_⟩
  · have hapart := (pwr_first_page (a := PWR_VTARGET) (by decide) d).1.symm
    exact (regN_of (State.reg_setField_other _ _ _ hin.1 hapart)).trans (hread d hd)
  · exact (State.field_setField_same _ _ _ _ hin.1 (by decide) (by decide)).trans (Nat.mod_eq_of_lt sensed.isLt)
  · exact (State.field_setField_apart _ _ hin.1 (by decide) (by decide) (.inl (by decide))).trans (field_of hvoltage)

/-- Registers that are no readings, ramps among them, are those before the sample. -/
theorem isReading_not {a : Nat} (h : a < 0xC1000) (hv : a ≠ PWR_VTARGET) : ¬ isReading a := fun hr =>
  hr.elim hv fun ⟨d, _, e⟩ => (pwr_first_page h d).1 e

theorem isReading_fstat (k : Fin 113) : ¬ isReading (PWR_FSTAT k) := fun hr =>
  hr.elim (fun e => (pwr_first_page (a := PWR_VTARGET) (by decide) k).2 e.symm) fun ⟨d, _, e⟩ => PWR_DOM_I_ne_FSTAT d k.isLt e.symm

/-- The watts shown are those of the power, rounded down or up. -/
theorem State.watts_rounds (s : State) (n : Nat) : s.watts n = n / 10000 ∨ (s.watts n = n / 10000 + 1 ∧ n % 10000 ≠ 0) := by
  unfold State.watts
  by_cases hz : n % 10000 = 0
  · exact .inl (by rw [if_pos hz, Nat.add_zero])
  · rw [if_neg hz]
    cases Config.freeBit s.free 0
    · exact .inl rfl
    · exact .inr ⟨rfl, hz⟩

/-- The ramps that wait are shown again. -/
def State.waitsShown (s : State) : State :=
  (List.range 113).foldl (fun (s : State) k => if s.regBit (PWR_FSTAT k) 15 then s.showRamp k else s) s

/-- A ramp that did not wait keeps its status, and every island its frequency. -/
theorem State.waitsShown_facts (hw : smapWf resetOf s.regs = true) :
    Writes (fun a => ∃ k, k < 113 ∧ a = PWR_FSTAT k) s s.waitsShown
      ∧ ∀ k : Fin 113, (s.regBit (PWR_FSTAT k) 15 = false → s.waitsShown.reg (PWR_FSTAT k) = s.reg (PWR_FSTAT k))
          ∧ s.waitsShown.field (PWR_FSTAT k) 11 0 = s.field (PWR_FSTAT k) 11 0 := by
  refine foldl_keeps (P := fun v : State => Writes (fun a => ∃ k, k < 113 ∧ a = PWR_FSTAT k) s v
      ∧ ∀ k : Fin 113, (s.regBit (PWR_FSTAT k) 15 = false → v.reg (PWR_FSTAT k) = s.reg (PWR_FSTAT k))
          ∧ v.field (PWR_FSTAT k) 11 0 = s.field (PWR_FSTAT k) 11 0) ⟨.refl hw, fun _ => ⟨fun _ => rfl, rfl⟩⟩ ?_
  intro v j hj ⟨hv, hkeep⟩
  have hj113 : j < 113 := List.mem_range.1 hj
  by_cases hwaits : v.regBit (PWR_FSTAT j) 15 = true
  · rw [if_pos hwaits]
    obtain ⟨hshow, hmhz, -⟩ := State.showRamp_facts (s := v) ⟨j, hj113⟩ hv.1
    refine ⟨hv.trans (hshow.mono fun a ha => ⟨j, hj113, ha⟩), fun k => ?_⟩
    obtain ⟨hreg, hfield⟩ := hkeep k
    by_cases hkj : k.val = j
    · subst hkj
      refine ⟨fun hno => ?_, hmhz.trans hfield⟩
      exact absurd ((regBit_of (hreg hno)).symm.trans hwaits) (by rw [hno]; exact Bool.false_ne_true)
    · have hother : (v.showRamp j).reg (PWR_FSTAT k) = v.reg (PWR_FSTAT k) :=
        hshow.2.1 _ fun e => hkj (by rw [PWR_FSTAT_eq, PWR_FSTAT_eq] at e; dsimp only at e; omega)
      exact ⟨fun hno => hother.trans (hreg hno), (field_of hother).trans hfield⟩
  · rw [if_neg hwaits]
    exact ⟨hv, hkeep⟩

/-- The fast limit of R411: the share is 48 at once, and shown as a limit. -/
def State.fastLimited (s : State) : State := (s.setField PWR_STATUS 5 0 48).setBit PWR_STATUS 8 true

theorem State.fastLimited_facts (hw : smapWf resetOf s.regs = true) :
    let t := s.fastLimited
    Writes (· = PWR_STATUS) s t ∧ t.field PWR_STATUS 5 0 = 48 ∧ t.regBit PWR_STATUS 8 = true
      ∧ t.field PWR_STATUS 7 6 = s.field PWR_STATUS 7 6 ∧ t.field PWR_STATUS 63 9 = s.field PWR_STATUS 63 9 := by
  intro t
  have hu : Writes (· = PWR_STATUS) s (s.setField PWR_STATUS 5 0 48) := (Writes.refl hw).field _ _ _ _ rfl
  refine ⟨hu.field _ _ _ _ rfl, ?_, State.regBit_setBit_same _ _ _ hu.1 (by decide), ?_, ?_⟩
  · exact (State.field_setBit_apart _ _ hu.1 (by decide) (.inl (by decide))).trans (State.field_setField_same _ _ _ _ hw (by decide) (by decide))
  · exact (State.field_setBit_apart _ _ hu.1 (by decide) (.inl (by decide))).trans
      (State.field_setField_apart _ _ hw (by decide) (by decide) (.inr (by decide)))
  · exact (State.field_setBit_apart _ _ hu.1 (by decide) (.inr (by decide))).trans
      (State.field_setField_apart _ _ hw (by decide) (by decide) (.inr (by decide)))

/-- The fast limit in steps of 0.1 mW: PWR_FAST_W, and the current bound at the target voltage (R411). -/
def State.fastBound (s : State) : Nat := min (10000 * s.field PWR_FAST_W 10 0) (17100 * s.field PWR_VTARGET 9 0)

/-- The samples in a row above the fast limit, counted to two. -/
def State.fastCount (s : State) (chip : Nat) : Nat := if s.fastBound < chip then min 2 (s.pw.fastHits + 1) else 0

theorem State.fastCount_two {chip : Nat} : s.fastCount chip = 2 ↔ s.fastBound < chip ∧ 1 ≤ s.pw.fastHits := by
  unfold State.fastCount
  split <;> omega

/-- Energy in microjoules is added, and the chip power shown in watts. -/
def State.metered (s : State) (energy chip : Nat) : State := (s.count PWR_ENERGY (energy / 10000)).setField PWR_EST 47 32 (s.watts chip)

theorem State.metered_facts (energy chip : Nat) (hw : smapWf resetOf s.regs = true) :
    let v := s.metered energy chip
    Writes (fun a => a = PWR_ENERGY ∨ a = PWR_EST) s v ∧ v.regN PWR_ENERGY = (s.regN PWR_ENERGY + energy / 10000) % 2 ^ 64
      ∧ v.field PWR_EST 47 32 = s.watts chip % 2 ^ 16 ∧ v.field PWR_EST 31 0 = s.field PWR_EST 31 0 := by
  have hcount : Writes (fun a => a = PWR_ENERGY ∨ a = PWR_EST) s (s.count PWR_ENERGY (energy / 10000)) := (Writes.refl hw).modify _ _ (.inl rfl)
  refine ⟨hcount.field _ _ _ _ (.inr rfl), ?_, State.field_setField_same _ _ _ _ hcount.1 (by decide) (by decide), ?_⟩
  · exact (regN_of (State.reg_setField_other _ _ _ hcount.1 (by decide))).trans (State.regN_modReg_same _ _ hw)
  · exact (State.field_setField_apart _ _ hcount.1 (by decide) (by decide) (.inl (by decide))).trans
      (field_of (State.reg_count_other _ hw (by decide)))

/-- What a sample leads to once its readings are stored: energy and chip power, the count of samples above the fast limit, the ramps
that wait, and at the second such sample the limit. -/
def State.accounted (s : State) (chip stackPower : Nat) : State :=
  let energy := s.pw.frac + chip + 10 * stackPower
  let v := s.metered energy chip
  let w := ({ v.tick with pw := { v.pw with frac := energy % 10000, fastHits := v.fastCount chip } } : State).waitsShown
  if v.fastCount chip = 2 then w.fastLimited else w

theorem execPowerSample_eq {currents : List (Fin 215 × BitVec 16)} {aon stackPower : Nat} {sensed : BitVec 10} (hu : s.up = true)
    (hw : smapWf resetOf s.regs = true) :
    exec (.powerSample currents aon stackPower sensed) s
      = .next ((s.readingsStored currents sensed).accounted (chipPower currents aon sensed) stackPower) := by
  obtain ⟨-, hread, -⟩ := State.readingsStored_facts (s := s) currents sensed hw
  have hsum : (List.range 215).map (fun d => (s.readingsStored currents sensed).regN (PWR_DOM_I d)) = (List.range 215).map (sampledAmps currents) :=
    List.map_congr_left fun d hd => hread d (List.mem_range.1 hd)
  rw [exec_powerSample, execPowerSample, live_up hu, chipPower, ← hsum]
  rfl

/-- Registers that accounting for a sample can write beside PWR_STATUS. -/
def isAccount (a : Nat) : Prop := a = PWR_ENERGY ∨ a = PWR_EST ∨ ∃ k, k < 113 ∧ a = PWR_FSTAT k

theorem fstat_not_metered (k : Nat) : ¬ (PWR_FSTAT k = PWR_ENERGY ∨ PWR_FSTAT k = PWR_EST) := fun h =>
  h.elim (fun e => (pwr_first_page (a := PWR_ENERGY) (by decide) k).2 e.symm) fun e => (pwr_first_page (a := PWR_EST) (by decide) k).2 e.symm

theorem not_fstat {a : Nat} (h : a < 0xC1000) : ¬ ∃ k, k < 113 ∧ a = PWR_FSTAT k := fun ⟨k, _, e⟩ => (pwr_first_page h k).2 e

theorem isAccount_not {a : Nat} (h : a < 0xC1000) (he : a ≠ PWR_ENERGY) (hp : a ≠ PWR_EST) : ¬ isAccount a := fun ha =>
  ha.elim he fun h' => h'.elim hp (not_fstat h)

theorem isAccount_amps (d : Nat) : ¬ isAccount (PWR_DOM_I d) := fun ha => by
  rcases ha with e | e | ⟨k, hk, e⟩
  · exact (pwr_first_page (a := PWR_ENERGY) (by decide) d).1 e.symm
  · exact (pwr_first_page (a := PWR_EST) (by decide) d).1 e.symm
  · exact PWR_DOM_I_ne_FSTAT d hk e

theorem State.fastCount_of {t : State} {chip : Nat} (hpw : t.pw = s.pw) (hfast : t.reg PWR_FAST_W = s.reg PWR_FAST_W)
    (hv : t.field PWR_VTARGET 9 0 = s.field PWR_VTARGET 9 0) : t.fastCount chip = s.fastCount chip := by
  unfold State.fastCount State.fastBound
  rw [hpw, hv, field_of hfast]

/-- The samples above the fast limit are counted against the limit before the meters are written, which they do not move. -/
theorem State.accounted_eq (chip stackPower : Nat) (hw : smapWf resetOf s.regs = true) :
    let energy := s.pw.frac + chip + 10 * stackPower
    let w := ({ (s.metered energy chip).tick with pw := { s.pw with frac := energy % 10000, fastHits := s.fastCount chip } } : State).waitsShown
    s.accounted chip stackPower = if s.fastCount chip = 2 then w.fastLimited else w := by
  intro energy w
  obtain ⟨hmeter, -⟩ := State.metered_facts (s := s) energy chip hw
  have hcount : (s.metered energy chip).fastCount chip = s.fastCount chip :=
    State.fastCount_of rfl (hmeter.2.1 _ (by decide)) (field_of (hmeter.2.1 _ (by decide)))
  unfold State.accounted
  dsimp only
  rw [hcount]
  rfl

/-- What accounting for a sample writes: the meters, the ramps, the limit and the record below the registers. -/
theorem State.accounted_facts (chip stackPower : Nat) (hw : smapWf resetOf s.regs = true) :
    let energy := s.pw.frac + chip + 10 * stackPower
    let t := s.accounted chip stackPower
    t.regN PWR_ENERGY = (s.regN PWR_ENERGY + energy / 10000) % 2 ^ 64
    ∧ t.field PWR_EST 47 32 = s.watts chip % 2 ^ 16 ∧ t.field PWR_EST 31 0 = s.field PWR_EST 31 0
    ∧ t.pw = { s.pw with frac := energy % 10000, fastHits := s.fastCount chip }
    ∧ (s.fastCount chip = 2 → t.field PWR_STATUS 5 0 = 48 ∧ t.regBit PWR_STATUS 8 = true ∧ t.field PWR_STATUS 7 6 = s.field PWR_STATUS 7 6
        ∧ t.field PWR_STATUS 63 9 = s.field PWR_STATUS 63 9)
    ∧ (s.fastCount chip ≠ 2 → t.reg PWR_STATUS = s.reg PWR_STATUS)
    ∧ (∀ k : Fin 113, (s.regBit (PWR_FSTAT k) 15 = false → t.reg (PWR_FSTAT k) = s.reg (PWR_FSTAT k))
        ∧ t.field (PWR_FSTAT k) 11 0 = s.field (PWR_FSTAT k) 11 0)
    ∧ (∀ a, ¬ isAccount a → a ≠ PWR_STATUS → t.reg a = s.reg a)
    ∧ { t with regs := s.regs, pw := s.pw, free := s.free } = s := by
  intro energy t
  obtain ⟨hmeter, henergy, hest, hlow⟩ := State.metered_facts (s := s) energy chip hw
  let p : Pw := { s.pw with frac := energy % 10000, fastHits := s.fastCount chip }
  have ht : t = if s.fastCount chip = 2 then ({ (s.metered energy chip).tick with pw := p } : State).waitsShown.fastLimited
      else ({ (s.metered energy chip).tick with pw := p } : State).waitsShown := State.accounted_eq chip stackPower hw
  obtain ⟨hshown, hramps⟩ := State.waitsShown_facts (s := { (s.metered energy chip).tick with pw := p }) hmeter.1
  have hframe : { (s.metered energy chip).tick with regs := s.regs, free := s.free } = s := rfl
  generalize ({ (s.metered energy chip).tick with pw := p } : State).waitsShown = w at *
  generalize s.metered energy chip = v at *
  have hwreg : ∀ a, (¬ ∃ k, k < 113 ∧ a = PWR_FSTAT k) → w.reg a = v.reg a := hshown.2.1
  have hstatus : w.reg PWR_STATUS = s.reg PWR_STATUS := (hwreg _ (not_fstat (by decide))).trans (hmeter.2.1 _ (by decide))
  obtain ⟨hlimit, hshare, hfast, hmid, htop⟩ := State.fastLimited_facts hshown.1
  have htw : ∀ a, a ≠ PWR_STATUS → t.reg a = w.reg a := fun a ha => by
    rw [ht]
    split
    · exact hlimit.2.1 a ha
    · rfl
  have hrest : ({ t with regs := w.regs } : State) = w := by
    rw [ht]
    split
    · rfl
    · rfl
  have hfstat : ∀ k : Fin 113, t.reg (PWR_FSTAT k) = w.reg (PWR_FSTAT k) := fun k => htw _ (pwr_first_page (a := PWR_STATUS) (by decide) k).2.symm
  have hvfstat : ∀ k : Fin 113, v.reg (PWR_FSTAT k) = s.reg (PWR_FSTAT k) := fun k => hmeter.2.1 _ (fstat_not_metered k)
  refine ⟨?_, ?_, ?_, ?_, fun h2 => ?_, fun h2 => ?_, fun k => ⟨fun hno => ?_, ?_⟩, fun a ha hs => ?_, ?_⟩
  · exact (regN_of ((htw _ (by decide)).trans (hwreg _ (not_fstat (by decide))))).trans henergy
  · exact (field_of ((htw _ (by decide)).trans (hwreg _ (not_fstat (by decide))))).trans hest
  · exact (field_of ((htw _ (by decide)).trans (hwreg _ (not_fstat (by decide))))).trans hlow
  · exact (congrArg State.pw hrest :).trans (congrArg State.pw hshown.2.2 :)
  · rw [ht, if_pos h2, ← field_of (t := w) hstatus, ← field_of (t := w) hstatus]
    exact ⟨hshare, hfast, hmid, htop⟩
  · rw [ht, if_neg h2, hstatus]
  · have hvno : v.regBit (PWR_FSTAT k) 15 = false := (regBit_of (hvfstat k)).trans hno
    exact ((hfstat k).trans ((hramps k).1 hvno)).trans (hvfstat k)
  · exact (field_of (hfstat k)).trans (((hramps k).2).trans (field_of (hvfstat k)))
  · have hmeters : ¬ (a = PWR_ENERGY ∨ a = PWR_EST) := fun h => ha (h.elim .inl fun e => .inr (.inl e))
    exact ((htw a hs).trans (hwreg a fun h => ha (.inr (.inr h)))).trans (hmeter.2.1 a hmeters)
  · have h1 := congrArg (fun x : State => ({ x with regs := s.regs, pw := s.pw, free := s.free } : State)) hrest
    have h2 := congrArg (fun x : State => ({ x with regs := s.regs, pw := s.pw, free := s.free } : State)) hshown.2.2
    have h3 := congrArg (fun x : State => ({ x with pw := s.pw } : State)) hframe
    exact (h1.trans h2).trans h3

end

/-! The estimate correction, in Q16 (R406, R408). -/

/-- A quotient rounded down or up misses its dividend by less than the divisor. -/
theorem quotient_rounds (m : Nat) {e : Nat} (he : e ≠ 0) (up : Bool) :
    let r := m / e + (if m % e = 0 then 0 else flag up)
    r * e < m + e ∧ m < (r + 1) * e := by
  have hm : e * (m / e) + m % e = m := Nat.div_add_mod m e
  have hr : m % e < e := Nat.mod_lt m (Nat.pos_of_ne_zero he)
  intro r
  by_cases hz : m % e = 0
  · have hq : r = m / e := by show m / e + _ = _; rw [if_pos hz, Nat.add_zero]
    rw [hq, Nat.add_mul, Nat.mul_comm (m / e)]
    omega
  · have hq : r = m / e + flag up := by show m / e + _ = _; rw [if_neg hz]
    have hflag : flag up = 0 ∨ flag up = 1 := by cases up <;> simp [flag]
    rw [hq, Nat.add_mul, Nat.add_mul, Nat.add_mul, Nat.mul_comm (m / e)]
    rcases hflag with h | h <;> rw [h] <;> omega

/-- The correction a measurement leads to; against an estimate of zero it is free within its bounds. -/
def State.correction (s : State) (measured estimated : Nat) : Nat :=
  if estimated = 0 then 0xC000 + Config.freeNat s.free % 0x8001
  else max 0xC000 (min 0x14000 (measured * 0x10000 / estimated
    + (if measured * 0x10000 % estimated = 0 then 0 else flag (Config.freeBit s.free 0))))

theorem State.correction_bounds (s : State) (measured estimated : Nat) :
    0xC000 ≤ s.correction measured estimated ∧ s.correction measured estimated ≤ 0x14000 := by
  unfold State.correction
  split <;> omega

/-- Against an estimate, the correction is the ratio in Q16, rounded down or up and brought within its bounds. -/
theorem State.correction_ratio (s : State) (measured : Nat) {estimated : Nat} (he : estimated ≠ 0) :
    ∃ r, r * estimated < measured * 0x10000 + estimated ∧ measured * 0x10000 < (r + 1) * estimated
      ∧ s.correction measured estimated = max 0xC000 (min 0x14000 r) := by
  obtain ⟨hbelow, habove⟩ := quotient_rounds (measured * 0x10000) he (Config.freeBit s.free 0)
  exact ⟨_, hbelow, habove, if_neg he⟩

theorem State.correction_stored {s : State} (measured estimated : Nat) (hw : smapWf resetOf s.regs = true) :
    (s.tick.setRegN PWR_EST_CORR (s.correction measured estimated)).regN PWR_EST_CORR = s.correction measured estimated := by
  obtain ⟨-, hhi⟩ := s.correction_bounds measured estimated
  exact (State.regN_setRegN_same (s := s.tick) _ _ hw).trans (Nat.mod_eq_of_lt (by omega))

theorem execEstCorrUpdate_eq {s : State} {measured estimated : Nat} (hu : s.up = true) :
    exec (.estCorrUpdate measured estimated) s = .next (s.tick.setRegN PWR_EST_CORR (s.correction measured estimated)) := by
  rw [exec_estCorrUpdate, execEstCorrUpdate, live_up hu]
  rfl

/-! The bubble share (R408). -/

/-- Rounding a quotient up gives the least multiplier that reaches the dividend. -/
theorem ceilDiv_le {a b n : Nat} (hb : b ≠ 0) : ceilDiv a b ≤ n ↔ a ≤ n * b := by
  rw [ceilDiv, ← Nat.lt_add_one_iff, Nat.div_lt_iff_lt_mul (Nat.pos_of_ne_zero hb), Nat.add_mul]
  omega

/-- The share is 0 up to the cap, and above it the least that brings the power down to the cap, at most 48 (R408). -/
theorem bubbleShare_facts (pdem pb cap : Nat) :
    let b := bubbleShare pdem pb cap
    (pdem ≤ cap → b.1 = 0 ∧ b.2 = false) ∧ (cap < pdem → pb = 0 → b.1 = 48 ∧ b.2 = true)
      ∧ (cap < pdem → pb ≠ 0 → ∃ c, 64 * (pdem - cap) ≤ c * pb ∧ (∀ n, 64 * (pdem - cap) ≤ n * pb → c ≤ n)
          ∧ b.1 = min 48 c ∧ b.2 = decide (48 ≤ c)) := by
  unfold bubbleShare
  refine ⟨fun h => ?_, fun h h0 => ?_, fun h h0 => ?_⟩
  · rw [if_pos h]
    exact ⟨rfl, rfl⟩
  · rw [if_neg (Nat.not_le.2 h), if_pos h0]
    exact ⟨rfl, rfl⟩
  · rw [if_neg (Nat.not_le.2 h), if_neg h0]
    exact ⟨_, (ceilDiv_le h0).1 (Nat.le_refl _), fun n => (ceilDiv_le h0).2, rfl, rfl⟩

section
variable {s : State}

/-- P_dem and P_b of an interval in PWR_EST. -/
def State.intervalStored (s : State) (pdem pb : BitVec 16) : State := (s.setField PWR_EST 15 0 pdem.toNat).setField PWR_EST 31 16 pb.toNat

theorem State.intervalStored_facts (pdem pb : BitVec 16) (hw : smapWf resetOf s.regs = true) :
    let u := s.intervalStored pdem pb
    Writes (· = PWR_EST) s u ∧ u.field PWR_EST 15 0 = pdem.toNat ∧ u.field PWR_EST 31 16 = pb.toNat
      ∧ u.field PWR_EST 63 32 = s.field PWR_EST 63 32 := by
  have h1 : Writes (· = PWR_EST) s (s.setField PWR_EST 15 0 pdem.toNat) := (Writes.refl hw).field _ _ _ _ rfl
  refine ⟨h1.field _ _ _ _ rfl, ?_, ?_, ?_⟩
  · exact ((State.field_setField_apart _ _ h1.1 (by decide) (by decide) (.inl (by decide))).trans
      (State.field_setField_same _ _ _ _ hw (by decide) (by decide))).trans (Nat.mod_eq_of_lt pdem.isLt)
  · exact (State.field_setField_same _ _ _ _ h1.1 (by decide) (by decide)).trans (Nat.mod_eq_of_lt pb.isLt)
  · exact (State.field_setField_apart _ _ h1.1 (by decide) (by decide) (.inr (by decide))).trans
      (State.field_setField_apart _ _ hw (by decide) (by decide) (.inr (by decide)))

theorem State.effCap_of {t : State} (hcap : t.reg PWR_CAP = s.reg PWR_CAP) (heff : t.reg PWR_EFF_CAP = s.reg PWR_EFF_CAP)
    (hv : t.reg PWR_VTARGET = s.reg PWR_VTARGET) : t.effCap = s.effCap := by
  unfold State.effCap State.thermalCap State.vTarget
  rw [field_of hcap, field_of heff, field_of hv]

theorem execCapLoopInterval_eq {pdem pb : BitVec 16} (hu : s.up = true) (hw : smapWf resetOf s.regs = true) :
    exec (.capLoopInterval pdem pb) s
      = .next { s.intervalStored pdem pb with pw := { s.pw with pend := some (bubbleShare pdem.toNat pb.toNat s.effCap) } } := by
  obtain ⟨hstored, -⟩ := State.intervalStored_facts (s := s) pdem pb hw
  have hcap : (s.intervalStored pdem pb).effCap = s.effCap :=
    State.effCap_of (hstored.2.1 _ (by decide)) (hstored.2.1 _ (by decide)) (hstored.2.1 _ (by decide))
  rw [exec_capLoopInterval, execCapLoopInterval, live_up hu, ← hcap]
  rfl

/-! BUBBLE_SHARE_APPLY (R372, R408, R411). -/

/-- A computed share takes effect and ends a fast limit. -/
def State.shareShown (s : State) (share : Nat) (sat : Bool) : State :=
  ((s.setField PWR_STATUS 5 0 share).setBit PWR_STATUS 6 sat).setBit PWR_STATUS 8 false

theorem State.shareShown_facts (share : Nat) (sat : Bool) (hw : smapWf resetOf s.regs = true) :
    let u := s.shareShown share sat
    Writes (· = PWR_STATUS) s u ∧ u.field PWR_STATUS 5 0 = share % 64 ∧ u.regBit PWR_STATUS 6 = sat ∧ u.regBit PWR_STATUS 8 = false
      ∧ u.regBit PWR_STATUS 7 = s.regBit PWR_STATUS 7 ∧ u.field PWR_STATUS 63 9 = s.field PWR_STATUS 63 9 := by
  have h1 : Writes (· = PWR_STATUS) s (s.setField PWR_STATUS 5 0 share) := (Writes.refl hw).field _ _ _ _ rfl
  have h2 : Writes (· = PWR_STATUS) s ((s.setField PWR_STATUS 5 0 share).setBit PWR_STATUS 6 sat) := h1.field _ _ _ _ rfl
  refine ⟨h2.field _ _ _ _ rfl, ?_, ?_, State.regBit_setBit_same _ _ _ h2.1 (by decide), ?_, ?_⟩
  · exact ((State.field_setBit_apart _ _ h2.1 (by decide) (.inl (by decide))).trans
      (State.field_setBit_apart _ _ h1.1 (by decide) (.inl (by decide)))).trans (State.field_setField_same _ _ _ _ hw (by decide) (by decide))
  · exact (State.regBit_setBit_other _ _ h2.1 (by decide) (by decide)).trans (State.regBit_setBit_same _ _ _ h1.1 (by decide))
  · exact ((State.regBit_setBit_other _ _ h2.1 (by decide) (by decide)).trans
      (State.regBit_setBit_other _ _ h1.1 (by decide) (by decide))).trans (State.regBit_setField_apart _ _ hw (by decide) (by decide) (.inr (by decide)))
  · exact ((State.field_setBit_apart _ _ h2.1 (by decide) (.inr (by decide))).trans
      (State.field_setBit_apart _ _ h1.1 (by decide) (.inr (by decide)))).trans
      (State.field_setField_apart _ _ hw (by decide) (by decide) (.inr (by decide)))

/-- A saturated loop defers the activation that waits (R372). -/
def State.deferred (s : State) (sat : Bool) : State :=
  if sat = true ∧ s.field CMD_FW_STAT 11 8 = 2 then (s.setField CMD_FW_STAT 11 8 3).unpark else s

theorem State.deferred_facts (sat : Bool) (hw : smapWf resetOf s.regs = true) :
    let t := s.deferred sat
    t.field CMD_FW_STAT 11 8 = (if sat = true ∧ s.field CMD_FW_STAT 11 8 = 2 then 3 else s.field CMD_FW_STAT 11 8)
    ∧ t.field CMD_FW_STAT 7 0 = s.field CMD_FW_STAT 7 0 ∧ t.field CMD_FW_STAT 63 12 = s.field CMD_FW_STAT 63 12
    ∧ (∀ a, a ≠ CMD_FW_STAT → t.reg a = s.reg a)
    ∧ { t with regs := s.regs } = { s with
        jq := if sat = true ∧ s.field CMD_FW_STAT 11 8 = 2 then smapMap jobQIdle (fun (j : JobQ) => { j with parked := false }) s.jq else s.jq } := by
  unfold State.deferred
  by_cases h : sat = true ∧ s.field CMD_FW_STAT 11 8 = 2
  · rw [if_pos h, if_pos h, if_pos h]
    refine ⟨?_, ?_, ?_, fun a ha => State.reg_setField_other (s := s) _ _ _ hw ha, rfl⟩
    · exact State.field_setField_same (s := s) _ _ _ _ hw (by decide) (by decide)
    · exact State.field_setField_apart (s := s) _ _ hw (by decide) (by decide) (.inl (by decide))
    · exact State.field_setField_apart (s := s) _ _ hw (by decide) (by decide) (.inr (by decide))
  · rw [if_neg h, if_neg h, if_neg h]
    exact ⟨rfl, rfl, rfl, fun _ _ => rfl, rfl⟩

/-- A computed share has taken effect. -/
def State.applied (s : State) (share : Nat) (sat : Bool) : State :=
  ({ s.shareShown share sat with pw := { s.pw with pend := none } } : State).deferred sat

theorem State.applied_facts (share : Nat) (sat : Bool) (hw : smapWf resetOf s.regs = true) :
    let t := s.applied share sat
    t.field PWR_STATUS 5 0 = share % 64 ∧ t.regBit PWR_STATUS 6 = sat ∧ t.regBit PWR_STATUS 8 = false
    ∧ t.regBit PWR_STATUS 7 = s.regBit PWR_STATUS 7 ∧ t.field PWR_STATUS 63 9 = s.field PWR_STATUS 63 9
    ∧ t.field CMD_FW_STAT 11 8 = (if sat = true ∧ s.field CMD_FW_STAT 11 8 = 2 then 3 else s.field CMD_FW_STAT 11 8)
    ∧ t.field CMD_FW_STAT 7 0 = s.field CMD_FW_STAT 7 0 ∧ t.field CMD_FW_STAT 63 12 = s.field CMD_FW_STAT 63 12
    ∧ (∀ a, a ≠ PWR_STATUS → a ≠ CMD_FW_STAT → t.reg a = s.reg a)
    ∧ { t with regs := s.regs } = { s with
        pw := { s.pw with pend := none }
        jq := if sat = true ∧ s.field CMD_FW_STAT 11 8 = 2 then smapMap jobQIdle (fun (j : JobQ) => { j with parked := false }) s.jq else s.jq } := by
  obtain ⟨hshown, hshare, hsat, hfast, hthermal, htop⟩ := State.shareShown_facts (s := s) share sat hw
  obtain ⟨hupd, hstate, hrest, hother, hframe⟩ :=
    State.deferred_facts (s := { s.shareShown share sat with pw := { s.pw with pend := none } }) sat hshown.1
  have hstat : (s.shareShown share sat).reg CMD_FW_STAT = s.reg CMD_FW_STAT := hshown.2.1 _ (by decide)
  intro t
  change t.field _ _ _ = _ at hupd hstate hrest
  change ∀ a, a ≠ CMD_FW_STAT → t.reg a = (s.shareShown share sat).reg a at hother
  change ({ t with regs := (s.shareShown share sat).regs } : State) = _ at hframe
  generalize t = t' at *
  generalize s.shareShown share sat = u at *
  have hfield : ∀ hi lo, ({ u with pw := { s.pw with pend := none } } : State).field CMD_FW_STAT hi lo = s.field CMD_FW_STAT hi lo :=
    fun _ _ => field_of (t := { u with pw := { s.pw with pend := none } }) hstat
  have hpower : t'.reg PWR_STATUS = u.reg PWR_STATUS := hother _ (by decide)
  rw [hfield] at hupd hstate hrest hframe
  refine ⟨(field_of hpower).trans hshare, (regBit_of hpower).trans hsat, (regBit_of hpower).trans hfast, (regBit_of hpower).trans hthermal,
    (field_of hpower).trans htop, hupd, hstate, hrest, fun a hp hf => (hother a hf).trans (hshown.2.1 a hp), ?_⟩
  rw [hshown.2.2] at hframe
  exact congrArg (fun x : State => ({ x with regs := s.regs } : State)) hframe

theorem execBubbleShareApply_none (hu : s.up = true) (h : s.pw.pend = none) : exec .bubbleShareApply s = .next s := by
  rw [exec_bubbleShareApply, execBubbleShareApply, live_up hu, h]

theorem execBubbleShareApply_some {share : Nat} {sat : Bool} (hu : s.up = true) (h : s.pw.pend = some (share, sat)) :
    exec .bubbleShareApply s = .next (s.applied share sat) := by
  rw [exec_bubbleShareApply, execBubbleShareApply, live_up hu, h]
  rfl

/-! THERMAL_CAP_UPDATE (R409, R414). -/

/-- The thermal cap after the last 100 µs: lowered where every sample was at the limit, raised where every one was at the release. -/
def State.nextThermalCap (s : State) : Nat :=
  if s.pw.atLimit = true ∧ s.pw.atRelease = false then max 300 (s.field PWR_EFF_CAP 26 16 - 10)
  else if s.pw.atRelease = true ∧ s.pw.atLimit = false then min (s.field PWR_CAP 10 0) (s.field PWR_EFF_CAP 26 16 + 10)
  else s.field PWR_EFF_CAP 26 16

theorem State.nextThermalCap_lt (s : State) : s.nextThermalCap < 2 ^ 11 := by
  have hcap : s.field PWR_CAP 10 0 < 2 ^ 11 := bits_lt _ 10 0
  have hwas : s.field PWR_EFF_CAP 26 16 < 2 ^ 11 := bits_lt _ 26 16
  unfold State.nextThermalCap
  split
  · omega
  · split <;> omega

/-- The thermal cap is replaced and the record of the next 100 µs begins. -/
def State.capMoved (s : State) : State :=
  ({ s with pw := { s.pw with atLimit := true, atRelease := true } } : State).setField PWR_EFF_CAP 26 16 s.nextThermalCap

theorem execThermalCapUpdate_eq (hu : s.up = true) : exec .thermalCapUpdate s = .next s.capMoved.showCap := by
  rw [exec_thermalCapUpdate, execThermalCapUpdate, live_up hu]
  refine congrArg Host.Outcome.next ?_
  unfold State.capMoved State.nextThermalCap State.thermalCap
  dsimp only
  simp only [Bool.and_eq_true, Bool.not_eq_true']

theorem State.capMoved_facts (hw : smapWf resetOf s.regs = true) :
    let t := s.capMoved.showCap
    t.field PWR_EFF_CAP 26 16 = s.nextThermalCap
    ∧ t.field PWR_EFF_CAP 10 0 = min (min (s.field PWR_CAP 10 0) s.nextThermalCap) (1300 * s.field PWR_VTARGET 9 0 / 1000)
    ∧ t.regBit PWR_STATUS 7 = decide (s.nextThermalCap < s.field PWR_CAP 10 0)
    ∧ (∀ n, n ≤ 63 → n ≠ 7 → t.regBit PWR_STATUS n = s.regBit PWR_STATUS n)
    ∧ (∀ a, a ≠ PWR_EFF_CAP → a ≠ PWR_STATUS → t.reg a = s.reg a)
    ∧ { t with regs := s.regs } = { s with pw := { s.pw with atLimit := true, atRelease := true } } := by
  have hwf : smapWf resetOf s.capMoved.regs = true := State.setField_wf _ _ _ _ hw
  have hreg : ∀ a, a ≠ PWR_EFF_CAP → s.capMoved.reg a = s.reg a := fun a ha => State.reg_setField_other (s := { s with pw := _ }) _ _ _ hw ha
  have hnext : s.capMoved.thermalCap = s.nextThermalCap :=
    (State.field_setField_same (s := { s with pw := _ }) _ _ _ _ hw (by decide) (by decide)).trans (Nat.mod_eq_of_lt s.nextThermalCap_lt)
  obtain ⟨hshow, heff, hthermal, hbelow, hbits, -⟩ := State.showCap_facts hwf
  have hcap : s.capMoved.field PWR_CAP 10 0 = s.field PWR_CAP 10 0 := field_of (hreg _ (by decide))
  refine ⟨hthermal.trans hnext, heff.trans ?_, ?_, fun n hn h7 => ?_, fun a he hs => ?_, ?_⟩
  · rw [State.effCap, hnext, hcap, State.vTarget, field_of (hreg _ (by decide))]
  · rw [hbelow, hnext, hcap]
  · exact (hbits n hn h7).trans (regBit_of (hreg _ (by decide)))
  · exact (hshow.2.1 a fun h => h.elim he hs).trans (hreg a he)
  · exact (congrArg (fun x : State => ({ x with regs := s.regs } : State)) hshow.2.2 :)

end

/-- What a power sample leaves: the accounts of `accounted_facts` on the readings of `readingsStored_facts`. -/
theorem State.sampled_facts {s : State} (currents : List (Fin 215 × BitVec 16)) (sensed : BitVec 10) (chip stackPower : Nat)
    (hw : smapWf resetOf s.regs = true) :
    let energy := s.pw.frac + chip + 10 * stackPower
    let t := (s.readingsStored currents sensed).accounted chip stackPower
    (∀ d, d < 215 → t.regN (PWR_DOM_I d) = sampledAmps currents d)
    ∧ t.field PWR_VTARGET 25 16 = sensed.toNat ∧ t.field PWR_VTARGET 9 0 = s.field PWR_VTARGET 9 0
    ∧ t.regN PWR_ENERGY = (s.regN PWR_ENERGY + energy / 10000) % 2 ^ 64
    ∧ (∃ w, (w = chip / 10000 ∨ (w = chip / 10000 + 1 ∧ chip % 10000 ≠ 0)) ∧ t.field PWR_EST 47 32 = w % 2 ^ 16)
    ∧ t.field PWR_EST 31 0 = s.field PWR_EST 31 0
    ∧ t.pw = { s.pw with frac := energy % 10000, fastHits := s.fastCount chip }
    ∧ (s.fastCount chip = 2 → t.field PWR_STATUS 5 0 = 48 ∧ t.regBit PWR_STATUS 8 = true ∧ t.field PWR_STATUS 7 6 = s.field PWR_STATUS 7 6
        ∧ t.field PWR_STATUS 63 9 = s.field PWR_STATUS 63 9)
    ∧ (s.fastCount chip ≠ 2 → t.reg PWR_STATUS = s.reg PWR_STATUS)
    ∧ (∀ k : Fin 113, (s.regBit (PWR_FSTAT k) 15 = false → t.reg (PWR_FSTAT k) = s.reg (PWR_FSTAT k))
        ∧ t.field (PWR_FSTAT k) 11 0 = s.field (PWR_FSTAT k) 11 0)
    ∧ (∀ a, ¬ isReading a → ¬ isAccount a → a ≠ PWR_STATUS → t.reg a = s.reg a)
    ∧ { t with regs := s.regs, pw := s.pw, free := s.free } = s := by
  obtain ⟨hread, hamps, hsensed, htarget⟩ := State.readingsStored_facts (s := s) currents sensed hw
  have hpw : (s.readingsStored currents sensed).pw = s.pw := (congrArg State.pw hread.2.2 :)
  have hframe := congrArg (fun x : State => ({ x with regs := s.regs, pw := s.pw, free := s.free } : State)) hread.2.2
  obtain ⟨henergy, hwatts, hlow, hpower, hsecond, hother, hramps, hrest, hkeep⟩ :=
    State.accounted_facts (s := s.readingsStored currents sensed) chip stackPower hread.1
  generalize s.readingsStored currents sensed = u at *
  have hfirst : ∀ a, a < 0xC1000 → a ≠ PWR_VTARGET → u.reg a = s.reg a := fun a ha hv => hread.2.1 a (isReading_not ha hv)
  have hcount : u.fastCount chip = s.fastCount chip := State.fastCount_of hpw (hfirst _ (by decide) (by decide)) htarget
  have hstatus : u.reg PWR_STATUS = s.reg PWR_STATUS := hfirst _ (by decide) (by decide)
  have hfstat : ∀ k : Fin 113, u.reg (PWR_FSTAT k) = s.reg (PWR_FSTAT k) := fun k => hread.2.1 _ (isReading_fstat k)
  rw [hpw] at henergy
  rw [hpw, hcount] at hpower
  rw [hcount] at hsecond hother
  intro energy t
  have hvt : t.reg PWR_VTARGET = u.reg PWR_VTARGET := hrest _ (isAccount_not (by decide) (by decide) (by decide)) (by decide)
  refine ⟨fun d hd => ?_, (field_of hvt).trans hsensed, (field_of hvt).trans htarget, ?_, ⟨_, u.watts_rounds chip, hwatts⟩, ?_, hpower, ?_, ?_, fun k => ?_, ?_, ?_⟩
  · exact (regN_of (hrest _ (isAccount_amps d) (pwr_first_page (a := PWR_STATUS) (by decide) d).1.symm)).trans (hamps d hd)
  · rw [henergy, regN_of (hfirst _ (by decide) (by decide))]
  · exact hlow.trans (field_of (hfirst _ (by decide) (by decide)))
  · rw [← field_of (t := u) hstatus, ← field_of (t := u) hstatus]
    exact hsecond
  · exact fun h => (hother h).trans hstatus
  · obtain ⟨hno, hmhz⟩ := hramps k
    exact ⟨fun h => (hno ((regBit_of (hfstat k)).trans h)).trans (hfstat k), hmhz.trans (field_of (hfstat k))⟩
  · exact fun a hr ha hs => (hrest a ha hs).trans (hread.2.1 a hr)
  · exact (congrArg (fun x : State => ({ x with regs := s.regs, pw := s.pw, free := s.free } : State)) hkeep :).trans hframe

/-- Settles O57: each command by its equation and the facts of what it stores. -/
theorem powerIsMeasuredAndCapped : Obligations.PowerIsMeasuredAndCapped := by
  refine ⟨?_, fun s measured estimated hu hc => ?_, ?_, fun s hu hc => ⟨execBubbleShareApply_none hu, fun share sat hp => ?_, ?_⟩⟩
  · intro s currents aon stackPower sensed hu hc amps chip energy exceeds
    have hw := State.canon_regs hc
    obtain ⟨hamps, hsensed, htarget, henergy, hwatts, hlow, hpw, hsecond, hother, hramps, hrest, hkeep⟩ :=
      State.sampled_facts currents sensed chip stackPower hw
    have htwo : s.fastCount chip = 2 ↔ exceeds ∧ 1 ≤ s.pw.fastHits := State.fastCount_two
    refine ⟨_, execPowerSample_eq hu hw, hamps, hsensed, htarget, henergy, hwatts, hlow, ⟨_, hpw, fun h => if_neg h, fun h => if_pos h⟩,
      fun h h1 => hsecond (htwo.2 ⟨h, h1⟩), fun h => hother (mt htwo.1 h), hramps, ?_, hkeep⟩
    intro a hvt hen hes hst hdom hfs
    refine hrest a ?_ ?_ hst
    · rintro (h | ⟨d, hd, h⟩)
      · exact hvt h
      · exact hdom d hd h
    · rintro (h | h | ⟨k, hk, h⟩)
      · exact hen h
      · exact hes h
      · exact hfs k hk h
  · have hread := State.correction_stored measured estimated (State.canon_regs hc)
    refine ⟨_, execEstCorrUpdate_eq hu, ?_, ?_, ?_, fun a => State.reg_setReg_other (s := s.tick) _ (State.canon_regs hc), rfl⟩
    · rw [hread]
      exact (s.correction_bounds measured estimated).1
    · rw [hread]
      exact (s.correction_bounds measured estimated).2
    · rw [hread]
      exact s.correction_ratio measured
  · intro s pdem pb hu hc cap
    have hw := State.canon_regs hc
    have hexec := execCapLoopInterval_eq (pdem := pdem) (pb := pb) hu hw
    obtain ⟨hstored, hpdem, hpb, hhigh⟩ := State.intervalStored_facts (s := s) pdem pb hw
    obtain ⟨hbelow, hnone, habove⟩ := bubbleShare_facts pdem.toNat pb.toNat s.effCap
    generalize s.intervalStored pdem pb = u at *
    have hframe := congrArg (fun x : State => ({ x with regs := s.regs, pw := s.pw } : State)) hstored.2.2
    exact ⟨_, _, _, hexec, hpdem, hpb, hhigh, rfl, hbelow, hnone, habove, hstored.2.1, hframe⟩
  · exact ⟨_, execBubbleShareApply_some hu hp, State.applied_facts share sat (State.canon_regs hc)⟩
  · obtain ⟨hnext, heff, hbelow, hbits, hrest, hframe⟩ := State.capMoved_facts (s := s) (State.canon_regs hc)
    exact ⟨_, execThermalCapUpdate_eq hu, hnext, heff, hbelow, hbits, hrest, hframe⟩

end Sys2Proof.Machine
